-- ==== Sys2Proof/Word.lean ====
section
/-! DEFINITION. The word types of the XG-3 and their plainest arithmetic (R2-R5, R51): 64-bit words, bytes, and the
unsigned and signed readings of a value. -/

namespace Sys2Proof

/-- A 64-bit register or doubleword (R232). -/
abbrev W := BitVec 64

/-- One byte. -/
abbrev Byte := BitVec 8

/-- A 512-bit vector, line or shape record (R51, R61, R240). -/
abbrev Line := BitVec 512

/-- The number of a g register (R232). -/
abbrev Reg := BitVec 4

/-- The 64-bit word that holds the low 64 bits of `n` (R9). -/
def w64 (n : Nat) : W := BitVec.ofNat 64 n

end Sys2Proof
end

