-- ==== Sys2Proof/Config.lean ====
section
/-! DEFINITION. What one delivered module fixes, and the free values: constants with no body, which no proof can
evaluate. Each is named in the assumption log. -/

namespace Sys2Proof.Config

/-- A fresh word for a value the spec leaves open; applied to the counter `Panel.free` (log 3, DESIGN CHOICE). -/
opaque freeWord : Nat → BitVec 64

/-- The way a full set gives up, out of `n` candidates: the spec says pseudo-LRU and no more (R105, R120; log 4, DESIGN CHOICE). -/
opaque victim : Nat → Nat → Nat

/-- SERIAL, from the fuses (R511; log 6, DESIGN CHOICE). -/
opaque serial : Nat

/-- The stepping field of IDENT (R511; log 6, DESIGN CHOICE). -/
opaque stepping : BitVec 8

/-- The SHA-384 measurement of firmware stage `i` (R514, R516; log 6, DESIGN CHOICE). -/
opaque measurement : Nat → BitVec 384

/-- The number of firmware stages (R514; log 6, DESIGN CHOICE). -/
opaque stages : Nat

/-- The ECDSA P-384 signature of a report's bytes (R517; log 6, DESIGN CHOICE). -/
opaque ecdsa : List (BitVec 8) → List (BitVec 8)

/-- The LMS signature of a report's bytes by the leaf of the given number (R517; log 6, DESIGN CHOICE). -/
opaque lms : Nat → List (BitVec 8) → List (BitVec 8)

/-- The device's two public keys as PUBKEY writes them (R514; log 6, DESIGN CHOICE). -/
opaque publicKeys : List (BitVec 8)

/-- The hash that picks the intermediate site under TWOPHASE: seed, source, destination (R477; log 7, DESIGN CHOICE). -/
opaque twoPhaseHash : Nat → Nat → Nat → Nat

/-- The CYCLE count of a site that takes over a failed core, relative to the panel's (R248; log 9, DESIGN CHOICE). -/
opaque cycleOffset : Nat → BitVec 64

/-- The result of a VEXP2 or VLOG2 lane that the model's interval evaluation could not decide: operation, format,
rounding mode and operand bits (log 10, DESIGN CHOICE). -/
opaque transcendental : Nat → Nat → Nat → Nat → Nat

end Sys2Proof.Config
end

