-- ==== Sys2Proof/Syntax.lean ====
section
/-! DEFINITION. Instr: one constructor for each row of the opcode table: the instruction words (the pair bit P is not part of
the instruction, R250), then the steps of the machine that no word encodes. Those carry no operands here: what one acts on
is named by the turn that runs it, and stands in the state while it runs. -/

namespace Sys2Proof

/-- The operations and events of the XG-3. A field of a word keeps the width its format gives it (R254, R255). -/
inductive Instr where
  /-- BEQ (R281). Branch to pc + off16 × 4 when a equals b. -/
  | beq (a : BitVec 4) (b : BitVec 4) (o : BitVec 16)
  /-- BNE (R281). Branch when a differs from b. -/
  | bne (a : BitVec 4) (b : BitVec 4) (o : BitVec 16)
  /-- BLT (R281). Branch when a is signed-less than b. -/
  | blt (a : BitVec 4) (b : BitVec 4) (o : BitVec 16)
  /-- BGE (R281). Branch when a is signed-greater or equal to b. -/
  | bge (a : BitVec 4) (b : BitVec 4) (o : BitVec 16)
  /-- BLTN (R281). Branch when a is unsigned-less than b. -/
  | bltn (a : BitVec 4) (b : BitVec 4) (o : BitVec 16)
  /-- BGEN (R281). Branch when a is unsigned-greater or equal to b. -/
  | bgen (a : BitVec 4) (b : BitVec 4) (o : BitVec 16)
  /-- JAL (R283). Link next into g15 and jump pc-relative by off24 words. -/
  | jal (o : BitVec 24)
  /-- JALR (R283). Jump to the address in a and link next into d. -/
  | jalr (d : BitVec 4) (a : BitVec 4)
  /-- LPC (R283). Write the address of the next bundle into d. -/
  | lpc (d : BitVec 4)
  /-- LOOP (R284). Decrement a and jump to b while the result is non-zero. -/
  | loop (a : BitVec 4) (b : BitVec 4)
  /-- NOP (R285). No effect. -/
  | nop
  /-- EXIT (R285). Stall until all four counters are zero, then free the context. -/
  | exit
  /-- YIELD (R285). Enter a blocking point that ends when no pre-emption of the block is pending. -/
  | yield
  /-- FUSE (R286). Rendezvous with the named cores to form a gang, writing success or failure to d. -/
  | fuse (d : BitVec 4) (m : BitVec 4)
  /-- SPLIT (R285). End the thread's gang. -/
  | split
  /-- BRK (R472). Raise BREAKPOINT, as a class U trap or, with DBGARM set, as a halt. -/
  | brk (c : BitVec 8)
  /-- TRAP (R285). Raise USER_TRAP with the code in TVAL. -/
  | trap (c : BitVec 8)
  /-- ERET (R285). S-level return to TPC under TSTATE. -/
  | eret
  /-- LD_B (R287). Load a sign-extended byte from a + imm16. -/
  | ldB (d : BitVec 4) (a : BitVec 4) (i : BitVec 16)
  /-- LD_H (R287). Load a sign-extended halfword from a + imm16. -/
  | ldH (d : BitVec 4) (a : BitVec 4) (i : BitVec 16)
  /-- LD_W (R287). Load a sign-extended word from a + imm16. -/
  | ldW (d : BitVec 4) (a : BitVec 4) (i : BitVec 16)
  /-- LD_D (R287). Load a doubleword from a + imm16. -/
  | ldD (d : BitVec 4) (a : BitVec 4) (i : BitVec 16)
  /-- LD_BZ (R287). Load a zero-extended byte from a + imm16. -/
  | ldBz (d : BitVec 4) (a : BitVec 4) (i : BitVec 16)
  /-- LD_HZ (R287). Load a zero-extended halfword from a + imm16. -/
  | ldHz (d : BitVec 4) (a : BitVec 4) (i : BitVec 16)
  /-- LD_WZ (R287). Load a zero-extended word from a + imm16. -/
  | ldWz (d : BitVec 4) (a : BitVec 4) (i : BitVec 16)
  /-- LDX (R287). Load of the coded size from a + b × scale. -/
  | ldx (d : BitVec 4) (a : BitVec 4) (b : BitVec 4) (h : BitVec 2) (s : BitVec 3)
  /-- PF (R290). Hint that fills the L1 line at a + b × scale when it translates without a fault. -/
  | pf (a : BitVec 4) (b : BitVec 4) (h : BitVec 2)
  /-- MIGR (R291). Force migration on the thread's next predictor-consulting access. -/
  | migr
  /-- ST_B (R287). Store the low byte of d at a + imm16. -/
  | stB (d : BitVec 4) (a : BitVec 4) (i : BitVec 16)
  /-- ST_H (R287). Store the low halfword of d at a + imm16. -/
  | stH (d : BitVec 4) (a : BitVec 4) (i : BitVec 16)
  /-- ST_W (R287). Store the low word of d at a + imm16. -/
  | stW (d : BitVec 4) (a : BitVec 4) (i : BitVec 16)
  /-- ST_D (R287). Store d at a + imm16. -/
  | stD (d : BitVec 4) (a : BitVec 4) (i : BitVec 16)
  /-- STX (R287). Store of the coded size at a + b × scale. -/
  | stx (d : BitVec 4) (a : BitVec 4) (b : BitVec 4) (h : BitVec 2) (s : BitVec 2)
  /-- LDBT (R292). Load a 1..64-bit element at a bit address, zero- or sign-extended. -/
  | ldbt (d : BitVec 4) (a : BitVec 4) (s : BitVec 1) (w : BitVec 6)
  /-- STBT (R292). Store the low w bits of d at a bit address by read-modify-write. -/
  | stbt (d : BitVec 4) (a : BitVec 4) (w : BitVec 6)
  /-- LDSY (R293). Read a local word once it is full, waiting in the wait table while empty. -/
  | ldsy (d : BitVec 4) (a : BitVec 4)
  /-- LDSY_TAKE (R293). Read a local word once full and set it empty in the same access. -/
  | ldsyTake (d : BitVec 4) (a : BitVec 4)
  /-- STFL (R294). Release-store b at a and set the word full in one bank access. -/
  | stfl (a : BitVec 4) (b : BitVec 4)
  /-- FECLR (R295). Set every word of a b-byte local range empty. -/
  | feclr (a : BitVec 4) (b : BitVec 4)
  /-- AMOADD (R305). Atomic add at the place of truth, returning the old value. -/
  | amoadd (d : BitVec 4) (a : BitVec 4) (b : BitVec 4) (q : BitVec 1) (r : BitVec 1) (s : BitVec 3) (w : BitVec 1)
  /-- AMOSWP (R305). Atomic swap, returning the old value. -/
  | amoswp (d : BitVec 4) (a : BitVec 4) (b : BitVec 4) (q : BitVec 1) (r : BitVec 1) (s : BitVec 3) (w : BitVec 1)
  /-- AMOCAS (R305). Atomic compare-and-swap against d with swap value b. -/
  | amocas (d : BitVec 4) (a : BitVec 4) (b : BitVec 4) (q : BitVec 1) (r : BitVec 1) (s : BitVec 3) (w : BitVec 1)
  /-- AMOAND (R305). Atomic bitwise and. -/
  | amoand (d : BitVec 4) (a : BitVec 4) (b : BitVec 4) (q : BitVec 1) (r : BitVec 1) (s : BitVec 3) (w : BitVec 1)
  /-- AMOOR (R305). Atomic bitwise or. -/
  | amoor (d : BitVec 4) (a : BitVec 4) (b : BitVec 4) (q : BitVec 1) (r : BitVec 1) (s : BitVec 3) (w : BitVec 1)
  /-- AMOXOR (R305). Atomic bitwise xor. -/
  | amoxor (d : BitVec 4) (a : BitVec 4) (b : BitVec 4) (q : BitVec 1) (r : BitVec 1) (s : BitVec 3) (w : BitVec 1)
  /-- AMOMIN (R305). Atomic signed minimum. -/
  | amomin (d : BitVec 4) (a : BitVec 4) (b : BitVec 4) (q : BitVec 1) (r : BitVec 1) (s : BitVec 3) (w : BitVec 1)
  /-- AMOMAX (R305). Atomic signed maximum. -/
  | amomax (d : BitVec 4) (a : BitVec 4) (b : BitVec 4) (q : BitVec 1) (r : BitVec 1) (s : BitVec 3) (w : BitVec 1)
  /-- AMOMINN (R305). Atomic unsigned minimum. -/
  | amominn (d : BitVec 4) (a : BitVec 4) (b : BitVec 4) (q : BitVec 1) (r : BitVec 1) (s : BitVec 3) (w : BitVec 1)
  /-- AMOMAXN (R305). Atomic unsigned maximum. -/
  | amomaxn (d : BitVec 4) (a : BitVec 4) (b : BitVec 4) (q : BitVec 1) (r : BitVec 1) (s : BitVec 3) (w : BitVec 1)
  /-- AMOFADD (R305). Atomic floating-point add rounded under the thread's RMODE.RND. -/
  | amofadd (d : BitVec 4) (a : BitVec 4) (b : BitVec 4) (q : BitVec 1) (r : BitVec 1) (s : BitVec 3) (w : BitVec 1)
  /-- FENCE (R185). Wait for predecessor-set accesses (and loop-back accesses with LB), then take the scope's acquire action. -/
  | fence (f : BitVec 4) (s : BitVec 3) (l : BitVec 1)
  /-- BARINIT (R310). Initialise a barrier object with EXP and STAG. -/
  | barinit (a : BitVec 4) (b : BitVec 4) (t : BitVec 1)
  /-- BARARR (R310). Arrive at a barrier object, recording the phase and testing completion. -/
  | bararr (a : BitVec 4)
  /-- BARWAIT (R310). Wait at a blocking point until the recorded phase of the object flips. -/
  | barwait (a : BitVec 4)
  /-- BAREXP (R310). Add a signed byte count to PEND and test completion. -/
  | barexp (a : BitVec 4) (b : BitVec 4)
  /-- BARTEST (R310). Report without waiting whether the recorded phase has completed. -/
  | bartest (d : BitVec 4) (a : BitVec 4)
  /-- WAITC (R264). Wait until each outstanding-operation counter is at or below its immediate. -/
  | waitc (l : BitVec 4) (s : BitVec 4) (c : BitVec 3) (t : BitVec 3)
  /-- HOLD (R315). Make the thread ineligible for n cycles. -/
  | hold (n : BitVec 16)
  /-- SEND (R319). Send n payload words to a receive ring of one core. -/
  | send (a : BitVec 4) (b : BitVec 4) (n : BitVec 8)
  /-- SENDH (R319). Send a handler message with code VA and up to eight words to a core of the block. -/
  | sendh (a : BitVec 4) (b : BitVec 4) (n : BitVec 8)
  /-- MCAST (R322). Send one copy of a message to each core named by a mask descriptor. -/
  | mcast (a : BitVec 4) (b : BitVec 4) (n : BitVec 8)
  /-- MCRD (R323). Multicast-read a paged range into the windows of the masked cores. -/
  | mcrd (d : BitVec 4) (a : BitVec 4) (b : BitVec 4) (l : BitVec 10)
  /-- RINGWAIT (R326). Wait at a blocking point until ring n is non-empty. -/
  | ringwait (n : BitVec 2)
  /-- RINGPOP (R327). Describe the next ring entry, skipping a wrap marker, without waiting. -/
  | ringpop (d : BitVec 4) (n : BitVec 2)
  /-- RHOPS (R328). Return the physical hop count to a destination core. -/
  | rhops (d : BitVec 4) (a : BitVec 4)
  /-- RCOPY (R378). Start a Relay copy on a channel, returning its start mark. -/
  | rcopy (d : BitVec 4) (a : BitVec 4) (b : BitVec 4) (c : BitVec 3)
  /-- L2PF (R386). Start a bulk L2 prefetch of a paged range. -/
  | l2pf (d : BitVec 4) (a : BitVec 4) (b : BitVec 4)
  /-- L2DROP (R386). Start a bulk write-back and invalidate of a paged range. -/
  | l2drop (a : BitVec 4) (b : BitVec 4)
  /-- TWPERM (R384). Push one tile-walk permit into q2 of the named core. -/
  | twperm (a : BitVec 4)
  /-- ESTAT (R387). Return a snapshot of an engine's state. -/
  | estat (d : BitVec 4) (e : BitVec 4)
  /-- RCOPY2D (R379). Start a Relay copy of the rows of a shape, undoing any swizzle. -/
  | rcopy2d (s : BitVec 4) (a : BitVec 4) (b : BitVec 4) (c : BitVec 3)
  /-- TWALK (R385). Start a tile-walk fetch that multicasts tiles into slots of the masked cores. -/
  | twalk (s : BitVec 4) (a : BitVec 4) (b : BitVec 4)
  /-- TWALK_WB (R385). Start a tile-walk write-back of the issuing core's slots to the tensor. -/
  | twalkWb (s : BitVec 4) (b : BitVec 4)
  /-- HLEASE (R365). Request a Hoop lease for n commands and c cycles, waiting until granted. -/
  | hlease (a : BitVec 4) (n : BitVec 6)
  /-- HFREE (R365). End the holder's Hoop lease. -/
  | hfree
  /-- HZERO (R370). Clear every accumulator entry and NaN bit and latch ea. -/
  | hzero (s : BitVec 4)
  /-- HLDA (R371). Bind the A operand on every segment. -/
  | hlda (s : BitVec 4) (a : BitVec 4) (b : BitVec 4)
  /-- HLDB (R372). Fill the eight latches with B columns. -/
  | hldb (s : BitVec 4) (a : BitVec 4) (b : BitVec 4)
  /-- HLDBT (R372). Fill the eight latches with transposed B. -/
  | hldbt (s : BitVec 4) (a : BitVec 4) (b : BitVec 4)
  /-- HROT (R373). Rotate latches one segment around the ring. -/
  | hrot
  /-- HMMA (R373). Accumulate one matrix step of A times the latches. -/
  | hmma
  /-- HMMAR (R373). Run eight HMMA steps with seven rotations. -/
  | hmmar
  /-- HSTC (R375). Convert and store each segment's accumulators to its core's window. -/
  | hstc (s : BitVec 4) (a : BitVec 4) (b : BitVec 4)
  /-- HACC_RD (R376). Copy accumulator view entries into vectors at the next command boundary. -/
  | haccRd (a : BitVec 4) (v : BitVec 1) (i : BitVec 3)
  /-- HACC_WR (R376). Copy vectors into accumulator view entries, clearing their NaN bits. -/
  | haccWr (a : BitVec 4) (v : BitVec 1) (i : BitVec 3)
  /-- TLD (R360). Load a tile from a local tensor into a tile view. -/
  | tld (s : BitVec 4) (a : BitVec 4) (b : BitVec 4) (t : BitVec 3)
  /-- TST (R360). Store a tile view to a local tensor. -/
  | tst (s : BitVec 4) (a : BitVec 4) (b : BitVec 4) (t : BitVec 3)
  /-- TLDT (R360). Load a transposed tile into a tile view. -/
  | tldt (s : BitVec 4) (a : BitVec 4) (b : BitVec 4) (t : BitVec 3)
  /-- TSTT (R360). Store a tile view transposed to a local tensor. -/
  | tstt (s : BitVec 4) (a : BitVec 4) (b : BitVec 4) (t : BitVec 3)
  /-- OPATCH (R401). Load and apply patch entries to the cluster's Osier cells. -/
  | opatch (a : BitVec 4) (b : BitVec 4)
  /-- OCFG (R403). Set a step domain's period and taps and clear its run state. -/
  | ocfg (a : BitVec 4) (b : BitVec 4) (n : BitVec 2)
  /-- OSET (R404). Write a cell's y, q or configuration between steps. -/
  | oset (a : BitVec 4) (b : BitVec 4)
  /-- OGET (R404). Read a cell's y, q, configuration or FIFO between steps. -/
  | oget (d : BitVec 4) (a : BitVec 4)
  /-- ORUN (R406). Run a step domain for N steps, optionally aligned to the weave clock. -/
  | orun (a : BitVec 4) (l : BitVec 1) (n : BitVec 2)
  /-- OSTOP (R407). Stop a running domain at its next boundary. -/
  | ostop (n : BitVec 2)
  /-- OSAVE (R410). Snapshot a domain and its cells into a domain image. -/
  | osave (a : BitVec 4) (n : BitVec 2)
  /-- OREST (R411). Restore a stopped domain and its cells from a domain image. -/
  | orest (a : BitVec 4) (n : BitVec 2)
  /-- OSTAT (R408). Read bytes 0–7 of a domain record. -/
  | ostat (d : BitVec 4) (n : BitVec 2)
  /-- OINJ (R404). Add sv(b) × 2^S to a cell's y between steps. -/
  | oinj (a : BitVec 4) (b : BitVec 4)
  /-- VLD (R335). Load 64 bytes into a vector. -/
  | vld (d : BitVec 4) (a : BitVec 4) (b : BitVec 4) (h : BitVec 3) (v : BitVec 1)
  /-- VST (R335). Store 64 bytes of a vector. -/
  | vst (d : BitVec 4) (a : BitVec 4) (b : BitVec 4) (h : BitVec 3) (v : BitVec 1)
  /-- VLDB (R336). Load a described block with its header checked. -/
  | vldb (d : BitVec 4) (a : BitVec 4) (b : BitVec 4) (h : BitVec 3) (v : BitVec 1)
  /-- VLDX (R337). Gather lanes from local memory by an index vector. -/
  | vldx (d : BitVec 4) (a : BitVec 4) (b : BitVec 4) (m : BitVec 3) (f : BitVec 3) (i : BitVec 1) (v : BitVec 1)
  /-- VSTX (R337). Scatter lanes to local memory by an index vector. -/
  | vstx (d : BitVec 4) (a : BitVec 4) (b : BitVec 4) (m : BitVec 3) (f : BitVec 3) (i : BitVec 1) (v : BitVec 1)
  /-- VLDBT (R338). Load strided bit-granular elements into lanes. -/
  | vldbt (d : BitVec 4) (a : BitVec 4) (b : BitVec 4) (v : BitVec 1)
  /-- VSTBT (R338). Store lanes as strided bit-granular elements. -/
  | vstbt (d : BitVec 4) (a : BitVec 4) (b : BitVec 4) (v : BitVec 1)
  /-- QPUSH (R316). Append a value to a queue register, stalling while full. -/
  | qpush (a : BitVec 4) (q : BitVec 4)
  /-- QPOP (R316). Remove the oldest queue entry, blocking while empty. -/
  | qpop (d : BitVec 4) (q : BitVec 4)
  /-- QPEEK (R316). Read the oldest queue entry without removing it. -/
  | qpeek (d : BitVec 4) (q : BitVec 4)
  /-- QLEN (R316). Read the number of entries in a queue register. -/
  | qlen (d : BitVec 4) (q : BitVec 4)
  /-- SHLD (R357). Load a 64-byte shape record into a shape register. -/
  | shld (s : BitVec 4) (a : BitVec 4)
  /-- SHST (R357). Store a shape register to memory. -/
  | shst (s : BitVec 4) (a : BitVec 4)
  /-- SHSET (R358). Write a shape field from an 8-bit immediate. -/
  | shset (s : BitVec 4) (i : BitVec 8) (f : BitVec 5)
  /-- SHSETG (R358). Write a shape field from a g register. -/
  | shsetg (s : BitVec 4) (b : BitVec 4) (f : BitVec 5)
  /-- SHGET (R358). Read a shape field into a g register. -/
  | shget (s : BitVec 4) (a : BitVec 4) (f : BitVec 5)
  /-- VWSET (R359). Check and write a view register. -/
  | vwset (a : BitVec 4) (w : BitVec 2)
  /-- VWGET (R359). Read a view register. -/
  | vwget (d : BitVec 4) (w : BitVec 2)
  /-- CRRD (R296). Read a control register. -/
  | crrd (d : BitVec 4) (c : BitVec 12)
  /-- CRWR (R296). Write a control register. -/
  | crwr (a : BitVec 4) (c : BitVec 12)
  /-- CRSET (R296). Set bits of a control register indivisibly. -/
  | crset (a : BitVec 4) (c : BitVec 12)
  /-- CRCLR (R296). Clear bits of a control register indivisibly. -/
  | crclr (a : BitVec 4) (c : BitVec 12)
  /-- CKPT (R297). Request a checkpoint of the home core. -/
  | ckpt
  /-- ICINV (R298). Invalidate instruction-cache lines after earlier stores are performed. -/
  | icinv (a : BitVec 4) (b : BitVec 4)
  /-- TLBINV (R299). Remove translations of a range or address space from every cluster TLB of the partition. -/
  | tlbinv (a : BitVec 4) (b : BitVec 4)
  /-- HALT (R300). Raise the partition's halt line. -/
  | halt
  /-- ADD (R276). d := a + b. -/
  | add (d : BitVec 4) (a : BitVec 4) (b : BitVec 4)
  /-- SUB (R276). d := a − b. -/
  | sub (d : BitVec 4) (a : BitVec 4) (b : BitVec 4)
  /-- MUL (R276). d := low 64 bits of a × b. -/
  | mul (d : BitVec 4) (a : BitVec 4) (b : BitVec 4)
  /-- MULH (R276). d := high 64 bits of the signed product. -/
  | mulh (d : BitVec 4) (a : BitVec 4) (b : BitVec 4)
  /-- MULHN (R276). d := high 64 bits of the unsigned product. -/
  | mulhn (d : BitVec 4) (a : BitVec 4) (b : BitVec 4)
  /-- DIV (R277). Signed division truncating toward zero. -/
  | div (d : BitVec 4) (a : BitVec 4) (b : BitVec 4)
  /-- DIVN (R277). Unsigned division. -/
  | divn (d : BitVec 4) (a : BitVec 4) (b : BitVec 4)
  /-- REM (R277). Signed remainder. -/
  | rem (d : BitVec 4) (a : BitVec 4) (b : BitVec 4)
  /-- REMN (R277). Unsigned remainder. -/
  | remn (d : BitVec 4) (a : BitVec 4) (b : BitVec 4)
  /-- AND (R276). Bitwise and. -/
  | and (d : BitVec 4) (a : BitVec 4) (b : BitVec 4)
  /-- OR (R276). Bitwise or. -/
  | or (d : BitVec 4) (a : BitVec 4) (b : BitVec 4)
  /-- XOR (R276). Bitwise xor. -/
  | xor (d : BitVec 4) (a : BitVec 4) (b : BitVec 4)
  /-- SHL (R276). Shift left by b[5:0]. -/
  | shl (d : BitVec 4) (a : BitVec 4) (b : BitVec 4)
  /-- SHR (R276). Logical shift right by b[5:0]. -/
  | shr (d : BitVec 4) (a : BitVec 4) (b : BitVec 4)
  /-- SRA (R276). Arithmetic shift right by b[5:0]. -/
  | sra (d : BitVec 4) (a : BitVec 4) (b : BitVec 4)
  /-- SLT (R276). d := 1 when a is signed-less than b, else 0. -/
  | slt (d : BitVec 4) (a : BitVec 4) (b : BitVec 4)
  /-- SLTN (R276). d := 1 when a is unsigned-less than b, else 0. -/
  | sltn (d : BitVec 4) (a : BitVec 4) (b : BitVec 4)
  /-- MIN (R276). Signed minimum. -/
  | min (d : BitVec 4) (a : BitVec 4) (b : BitVec 4)
  /-- MAX (R276). Signed maximum. -/
  | max (d : BitVec 4) (a : BitVec 4) (b : BitVec 4)
  /-- MINN (R276). Unsigned minimum. -/
  | minn (d : BitVec 4) (a : BitVec 4) (b : BitVec 4)
  /-- MAXN (R276). Unsigned maximum. -/
  | maxn (d : BitVec 4) (a : BitVec 4) (b : BitVec 4)
  /-- CLZ (R276). Count leading zero bits of a. -/
  | clz (d : BitVec 4) (a : BitVec 4)
  /-- CTZ (R276). Count trailing zero bits of a. -/
  | ctz (d : BitVec 4) (a : BitVec 4)
  /-- POPC (R276). Count set bits of a. -/
  | popc (d : BitVec 4) (a : BitVec 4)
  /-- SEL (R276). d := a if d is non-zero, else b. -/
  | sel (d : BitVec 4) (a : BitVec 4) (b : BitVec 4)
  /-- BEXT (R279). Extract a bit field of a. -/
  | bext (d : BitVec 4) (a : BitVec 4) (p : BitVec 6) (l : BitVec 6)
  /-- BINS (R279). Insert the low bits of a into a field of d. -/
  | bins (d : BitVec 4) (a : BitVec 4) (p : BitVec 6) (l : BitVec 6)
  /-- ADDI (R278). d := a + sext(imm16). -/
  | addi (d : BitVec 4) (a : BitVec 4) (i : BitVec 16)
  /-- ANDI (R278). d := a and sext(imm16). -/
  | andi (d : BitVec 4) (a : BitVec 4) (i : BitVec 16)
  /-- ORI (R278). d := a or zext(imm16). -/
  | ori (d : BitVec 4) (a : BitVec 4) (i : BitVec 16)
  /-- XORI (R278). d := a xor zext(imm16). -/
  | xori (d : BitVec 4) (a : BitVec 4) (i : BitVec 16)
  /-- SLTI (R278). d := 1 when a is signed-less than sext(imm16). -/
  | slti (d : BitVec 4) (a : BitVec 4) (i : BitVec 16)
  /-- LUI (R278). d := sext(imm16) × 2^16. -/
  | lui (d : BitVec 4) (i : BitVec 16)
  /-- SHLI (R278). Shift left by an immediate amount. -/
  | shli (d : BitVec 4) (a : BitVec 4) (i : BitVec 6)
  /-- SHRI (R278). Logical shift right by an immediate amount. -/
  | shri (d : BitVec 4) (a : BitVec 4) (i : BitVec 6)
  /-- SRAI (R278). Arithmetic shift right by an immediate amount. -/
  | srai (d : BitVec 4) (a : BitVec 4) (i : BitVec 6)
  /-- VADD (R339). Lane-wise add. -/
  | vadd (d : BitVec 5) (a : BitVec 5) (b : BitVec 5) (f : BitVec 3) (m : BitVec 3) (r : BitVec 2) (s : BitVec 1)
  /-- VSUB (R339). Lane-wise subtract. -/
  | vsub (d : BitVec 5) (a : BitVec 5) (b : BitVec 5) (f : BitVec 3) (m : BitVec 3) (r : BitVec 2) (s : BitVec 1)
  /-- VMUL (R339). Lane-wise multiply. -/
  | vmul (d : BitVec 5) (a : BitVec 5) (b : BitVec 5) (f : BitVec 3) (m : BitVec 3) (r : BitVec 2) (s : BitVec 1)
  /-- VFMA (R339). Lane-wise va × vb + vd. -/
  | vfma (d : BitVec 5) (a : BitVec 5) (b : BitVec 5) (f : BitVec 3) (m : BitVec 3) (r : BitVec 2) (s : BitVec 1)
  /-- VFMS (R339). Lane-wise va × vb − vd. -/
  | vfms (d : BitVec 5) (a : BitVec 5) (b : BitVec 5) (f : BitVec 3) (m : BitVec 3) (r : BitVec 2) (s : BitVec 1)
  /-- VFNMA (R339). Lane-wise vd − va × vb. -/
  | vfnma (d : BitVec 5) (a : BitVec 5) (b : BitVec 5) (f : BitVec 3) (m : BitVec 3) (r : BitVec 2) (s : BitVec 1)
  /-- VMIN (R339). Lane-wise minimum. -/
  | vmin (d : BitVec 5) (a : BitVec 5) (b : BitVec 5) (f : BitVec 3) (m : BitVec 3) (r : BitVec 2) (s : BitVec 1)
  /-- VMAX (R339). Lane-wise maximum. -/
  | vmax (d : BitVec 5) (a : BitVec 5) (b : BitVec 5) (f : BitVec 3) (m : BitVec 3) (r : BitVec 2) (s : BitVec 1)
  /-- VAND (R340). Lane-wise bitwise and. -/
  | vand (d : BitVec 5) (a : BitVec 5) (b : BitVec 5) (f : BitVec 3) (m : BitVec 3) (r : BitVec 2)
  /-- VOR (R340). Lane-wise bitwise or. -/
  | vor (d : BitVec 5) (a : BitVec 5) (b : BitVec 5) (f : BitVec 3) (m : BitVec 3) (r : BitVec 2)
  /-- VXOR (R340). Lane-wise bitwise xor. -/
  | vxor (d : BitVec 5) (a : BitVec 5) (b : BitVec 5) (f : BitVec 3) (m : BitVec 3) (r : BitVec 2)
  /-- VSHL (R340). Lane-wise shift left, saturating under sat. -/
  | vshl (d : BitVec 5) (a : BitVec 5) (b : BitVec 5) (f : BitVec 3) (m : BitVec 3) (r : BitVec 2) (s : BitVec 1)
  /-- VSHR (R340). Lane-wise logical shift right. -/
  | vshr (d : BitVec 5) (a : BitVec 5) (b : BitVec 5) (f : BitVec 3) (m : BitVec 3) (r : BitVec 2)
  /-- VSRA (R340). Lane-wise arithmetic shift right. -/
  | vsra (d : BitVec 5) (a : BitVec 5) (b : BitVec 5) (f : BitVec 3) (m : BitVec 3) (r : BitVec 2)
  /-- VCMP (R343). Compare lanes and write a destination mask. -/
  | vcmp (c : BitVec 2) (d : BitVec 3) (a : BitVec 5) (b : BitVec 5) (f : BitVec 3) (m : BitVec 3) (r : BitVec 2)
  /-- VSEL (R344). Select each lane from va or vb by a mask. -/
  | vsel (d : BitVec 5) (a : BitVec 5) (b : BitVec 5) (f : BitVec 3) (m : BitVec 3) (r : BitVec 2)
  /-- VBCAST (R345). Broadcast a g register into every active lane. -/
  | vbcast (d : BitVec 5) (a : BitVec 4) (f : BitVec 3) (m : BitVec 3) (r : BitVec 2)
  /-- VINS (R345). Insert a g register into one lane. -/
  | vins (d : BitVec 5) (a : BitVec 4) (b : BitVec 4) (f : BitVec 3) (m : BitVec 3) (r : BitVec 2)
  /-- VEXT (R345). Extract one lane into a g register. -/
  | vext (d : BitVec 4) (a : BitVec 5) (b : BitVec 4) (f : BitVec 3) (r : BitVec 2)
  /-- VPERM (R346). Permute lanes of va by the indices in vb. -/
  | vperm (d : BitVec 5) (a : BitVec 5) (b : BitVec 5) (f : BitVec 3) (m : BitVec 3) (r : BitVec 2)
  /-- VSHUF (R346). Shuffle lanes by a fixed pattern code. -/
  | vshuf (d : BitVec 5) (a : BitVec 5) (b : BitVec 5) (f : BitVec 3) (p : BitVec 3) (r : BitVec 2)
  /-- VRED (R347). Reduce active lanes by a fixed binary tree into lane 0. -/
  | vred (d : BitVec 5) (a : BitVec 5) (o : BitVec 5) (f : BitVec 3) (m : BitVec 3) (r : BitVec 2) (s : BitVec 1)
  /-- VSCAN (R347). Inclusive scan over active lanes from lane 0 upward. -/
  | vscan (d : BitVec 5) (a : BitVec 5) (o : BitVec 5) (f : BitVec 3) (m : BitVec 3) (r : BitVec 2) (s : BitVec 1)
  /-- VDOT (R348). Dot-product accumulate into 16 accumulator lanes. -/
  | vdot (d : BitVec 5) (a : BitVec 5) (b : BitVec 5) (f : BitVec 3) (m : BitVec 3) (r : BitVec 2) (s : BitVec 1)
  /-- VMOV (R341). Copy lanes of va. -/
  | vmov (d : BitVec 5) (a : BitVec 5) (f : BitVec 3) (m : BitVec 3) (r : BitVec 2)
  /-- VABS (R341). Lane-wise absolute value. -/
  | vabs (d : BitVec 5) (a : BitVec 5) (f : BitVec 3) (m : BitVec 3) (r : BitVec 2) (s : BitVec 1)
  /-- VNEG (R341). Lane-wise negation. -/
  | vneg (d : BitVec 5) (a : BitVec 5) (f : BitVec 3) (m : BitVec 3) (r : BitVec 2) (s : BitVec 1)
  /-- VNOT (R341). Lane-wise bitwise not. -/
  | vnot (d : BitVec 5) (a : BitVec 5) (f : BitVec 3) (m : BitVec 3) (r : BitVec 2)
  /-- VRCP (R342). Correctly rounded reciprocal per lane. -/
  | vrcp (d : BitVec 5) (a : BitVec 5) (f : BitVec 3) (m : BitVec 3) (r : BitVec 2) (s : BitVec 1)
  /-- VRSQ (R342). Correctly rounded reciprocal square root per lane. -/
  | vrsq (d : BitVec 5) (a : BitVec 5) (f : BitVec 3) (m : BitVec 3) (r : BitVec 2) (s : BitVec 1)
  /-- VEXP2 (R342). Correctly rounded 2^x per lane. -/
  | vexp2 (d : BitVec 5) (a : BitVec 5) (f : BitVec 3) (m : BitVec 3) (r : BitVec 2) (s : BitVec 1)
  /-- VLOG2 (R342). Correctly rounded log2 per lane. -/
  | vlog2 (d : BitVec 5) (a : BitVec 5) (f : BitVec 3) (m : BitVec 3) (r : BitVec 2) (s : BitVec 1)
  /-- MSET (R349). Set mask bits where vector lanes are non-zero. -/
  | mset (d : BitVec 3) (a : BitVec 5) (f : BitVec 3)
  /-- MAND (R349). Mask and. -/
  | mand (d : BitVec 3) (a : BitVec 3) (b : BitVec 3)
  /-- MOR (R349). Mask or. -/
  | mor (d : BitVec 3) (a : BitVec 3) (b : BitVec 3)
  /-- MNOT (R349). Mask not. -/
  | mnot (d : BitVec 3) (a : BitVec 3)
  /-- VCVT (R350). Convert lane format keeping element order across the group. -/
  | vcvt (d : BitVec 5) (a : BitVec 5) (b : BitVec 5) (f : BitVec 3) (m : BitVec 3) (r : BitVec 2) (s : BitVec 1)
  /-- VQNT (R352). Quantise FP32 lanes into one BFP or INT8 described block. -/
  | vqnt (d : BitVec 5) (a : BitVec 5) (b : BitVec 5) (r : BitVec 2) (s : BitVec 1)
  /-- VDQNT (R353). Dequantise a described block into FP32 lanes. -/
  | vdqnt (d : BitVec 5) (a : BitVec 5) (r : BitVec 2) (s : BitVec 1)
  /-- VRSCALE (R354). Rescale a BFP or INT8 block to a new scale. -/
  | vrscale (d : BitVec 5) (a : BitVec 5) (b : BitVec 4) (r : BitVec 2) (s : BitVec 1)
  /-- VPACK (R350). Convert a wide group into a narrower interleaved vector. -/
  | vpack (d : BitVec 5) (a : BitVec 5) (b : BitVec 5) (f : BitVec 3) (m : BitVec 3) (r : BitVec 2) (s : BitVec 1)
  /-- VUNPK (R350). Convert a narrow vector into a wider interleaved group. -/
  | vunpk (d : BitVec 5) (a : BitVec 5) (b : BitVec 5) (f : BitVec 3) (m : BitVec 3) (r : BitVec 2) (s : BitVec 1)
  /-- OGET_VECTOR (R405). Read a field of 16 Osier cells into a vector at their boundaries. -/
  | ogetVector (d : BitVec 5) (g : BitVec 4) (f : BitVec 3) (m : BitVec 3)
  /-- OSET_VECTOR (R405). Write a field of 16 Osier cells from a vector at their boundaries. -/
  | osetVector (a : BitVec 5) (g : BitVec 4) (f : BitVec 3) (m : BitVec 3)
  /-- DIV_RESULT (R277). A division result is written 24 cycles after issue, releasing stalled readers. Operands of the turn: core, slot. -/
  | divResult
  /-- ISSUE_GAP_END (R226). The 8 + (k − 1) cycle gap after a bundle ends and the context becomes READY. Operands of the turn: core, slot. -/
  | issueGapEnd
  /-- HOLD_END (R315). A HOLD's n cycles expire and the thread becomes eligible. Operands of the turn: core, slot. -/
  | holdEnd
  /-- FUSE_TIMEOUT (R214). A waiting FUSE fails after 4,096 cycles and the thread continues ungrouped. Operands of the turn: core, slot. -/
  | fuseTimeout
  /-- BARRIER_STAGGER_END (R311). A staggered BARWAIT's extra delay expires and the thread resumes. Operands of the turn: core, slot. -/
  | barrierStaggerEnd
  /-- MIGRATE_AFTER_STALL (R99). A thread stalled on its load or store counters migrates once both reach zero. Operands of the turn: core, slot. -/
  | migrateAfterStall
  /-- WAIT_TABLE_RETRY (R90). A full/empty or barrier wait refused by a full wait table retries after 64 cycles. Operands of the turn: core, slot. -/
  | waitTableRetry
  /-- RETENTION_ENTRY (R246). After 256 qualifying cycles the core's register banks enter retention. Operands of the turn: core. -/
  | retentionEntry
  /-- BANK_WAKE (R247). A retained register bank's wake latency expires and it becomes usable. Operands of the turn: core. -/
  | bankWake
  /-- REMOTE_ACCESS_ARRIVAL (R94). A mesh-window load, store, bit store or FECLR is performed from the target's arrival FIFO. Operands of the turn: core. -/
  | remoteAccessArrival
  /-- REMOTE_ATOMIC_ARRIVAL (R304). A mesh-window atomic is performed as one read-modify-write at the target bank. Operands of the turn: core. -/
  | remoteAtomicArrival
  /-- BARRIER_OP_ARRIVAL (R309). A mesh-window barrier instruction is performed at the object's bank and answered. Operands of the turn: core. -/
  | barrierOpArrival
  /-- PEND_DECREMENT (R200). An engine's one-flit decrement is performed at the barrier object's bank. Operands of the turn: core. -/
  | pendDecrement
  /-- TWPERM_ARRIVAL (R384). A remote permit is pushed into q2 of the named group. Operands of the turn: core. -/
  | twpermArrival
  /-- MESSAGE_ARRIVAL (R320). A SEND or ring copy of an MCAST is checked and appended to or refused by its ring. Operands of the turn: core. -/
  | messageArrival
  /-- HANDLER_MESSAGE_ARRIVAL (R219). A handler message enters a free handler slot or the handler queue. Operands of the turn: core. -/
  | handlerMessageArrival
  /-- HANDLER_START (R218). A waiting handler message starts in a freed handler slot with its seeds. Operands of the turn: core. -/
  | handlerStart
  /-- MIGRATION_CONTEXT_ARRIVAL (R101). A migrated context takes a free arrival slot or is performed and sent back. Operands of the turn: core. -/
  | migrationContextArrival
  /-- MIGRATION_BOUNCE_ARRIVAL (R101). A context sent back with its access result resumes in its original slot. Operands of the turn: core. -/
  | migrationBounceArrival
  /-- HOME_RETURN_ARRIVAL (R102). A returning light thread resumes in its home slot and performs its pending access. Operands of the turn: core. -/
  | homeReturnArrival
  /-- WAKE_MESSAGE (R310). A barrier completion answers a remote BARWAIT's wait-table entry. Operands of the turn: core. -/
  | wakeMessage
  /-- LINE_DELIVERY (R89). An engine, multicast or tile-walk line lands in a window and sets covered words full. Operands of the turn: core. -/
  | lineDelivery
  /-- REMOTE_LOAD_RESPONSE (R288). A mesh-window load response writes its destination and wakes the waiting thread. Operands of the turn: id. -/
  | remoteLoadResponse
  /-- LOAD_RESPONSE (R263). A global load or atomic result returns, writes its destination and decrements the loads counter. Operands of the turn: id. -/
  | loadResponse
  /-- STORE_ACKNOWLEDGEMENT (R263). A performed store's acknowledgement decrements the stores counter. Operands of the turn: id. -/
  | storeAcknowledgement
  /-- MESSAGE_RESPONSE (R321). A message's acceptance or refusal returns, decrementing the counter and possibly trapping MSG_REFUSED. Operands of the turn: id. -/
  | messageResponse
  /-- ERROR_RESPONSE (R143). A poisoned or key-mismatched consumption is answered with an error response raising class F. Operands of the turn: id. -/
  | errorResponse
  /-- L1_FILL_RESPONSE (R108). A fill returns from the home slice and allocates an L1 line. Operands of the turn: id. -/
  | l1FillResponse
  /-- MESSAGE_DIVERT (R460). The placement table appends, forwards or refuses a message for a non-resident block. Operands of the turn: part. -/
  | messageDivert
  /-- SLICE_REQUEST (R122). A slice takes the oldest performable request from its ingress queue. Operands of the turn: slice. -/
  | sliceRequest
  /-- MCRD_LINE_REQUEST (R126). A multicast line request is performed and one response is replicated to all destinations. Operands of the turn: core. -/
  | mcrdLineRequest
  /-- L2PF_LINE_REQUEST (R127). A prefetch line request takes a miss register or completes at once. Operands of the turn: core. -/
  | l2pfLineRequest
  /-- L2DROP_LINE_REQUEST (R129). A drop writes back and invalidates its line after its last waiter. Operands of the turn: core. -/
  | l2dropLineRequest
  /-- HBM_FILL_RETURN (R124). A line fetch returns, is key-checked, placed and its waiters performed in order. Operands of the turn: slice, line. -/
  | hbmFillReturn
  /-- L2_SCRUB (R140). Every 64 cycles a slice scrubs one line. Operands of the turn: slice, line. -/
  | l2Scrub
  /-- HBM_SCRUB (R140). Every 4,096 cycles an HBM channel scrubs one line. Operands of the turn: chan, line. -/
  | hbmScrub
  /-- FRAME_INITIALISATION (R138). The Memory core drops and zeroes a frame under a new key tag. Operands of the turn: frame, key. -/
  | frameInitialisation
  /-- HOST_REGION_ACCESS (R42). The front end performs a host-region access as a PCIe read or write. Operands of the turn: id. -/
  | hostRegionAccess
  /-- HOST_COMPLETION (R42). A PCIe completion for a host-region access returns, or HOST_ABORT is raised. Operands of the turn: id, ok, data. -/
  | hostCompletion
  /-- PEER_REQUEST (R44). A remote panel checks and performs, or refuses, a peer-region request. Operands of the turn: panel, part, off, op, data. -/
  | peerRequest
  /-- PEER_RESPONSE (R44). A peer response returns, or a negative one raises PEER_REFUSED. Operands of the turn: id, ok, data. -/
  | peerResponse
  /-- TLB_WALK_COMPLETE (R154). A page walk ends and every joined request takes its translation or fault. Operands of the turn: cluster, idx. -/
  | tlbWalkComplete
  /-- PAGE_RESOLUTION (R158). The Memory core maps or refuses a faulting page. Operands of the turn: part, asid, page, writes ..., refuse. -/
  | pageResolution
  /-- TLBINV_COMPLETION (R155). Every cluster TLB has dropped, invalidated and drained, ending the TLBINV stall. Operands of the turn: core, slot. -/
  | tlbinvCompletion
  /-- ENGINE_LINE_DATA (R523). A line read by an engine arrives and its bytes are written at the destination. Operands of the turn: kind, unit, ch. -/
  | engineLineData
  /-- RELAY_COMPLETE (R380). A Relay command's last write is performed, freeing the channel and pushing its q1 entry. Operands of the turn: cluster, ch. -/
  | relayComplete
  /-- MCRD_COMPLETE (R325). Every moved line has landed on every named core and the token is pushed into q1. Operands of the turn: core. -/
  | mcrdComplete
  /-- TWALK_TILE (R384). The walker takes a q2 permit and moves the next tile. Operands of the turn: core. -/
  | twalkTile
  /-- TWALK_COMPLETE (R385). The walker finishes its last tile and pushes its q1 entry. Operands of the turn: core. -/
  | twalkComplete
  /-- L2PF_COMPLETE (R128). Every prefetched line is resident or poisoned; a token or barrier arrival follows. Operands of the turn: core. -/
  | l2pfComplete
  /-- L2DROP_COMPLETE (R386). Every line of a drop is done and its q1 entry is pushed. Operands of the turn: core. -/
  | l2dropComplete
  /-- HELD_COMPLETION_LAND (R244). A completion held for a full queue lands when the queue has room. Operands of the turn: core, tag. -/
  | heldCompletionLand
  /-- TILE_OP_COMPLETE (R362). A tile load or store finishes, releasing pending and held view bytes. Operands of the turn: core, slot. -/
  | tileOpComplete
  /-- HOOP_COMMAND_COMPLETE (R369). A Hoop command, step or rotation reaches its boundary and the next queued command starts. Operands of the turn: cluster. -/
  | hoopCommandComplete
  /-- HOOP_LEASE_GRANT (R366). A free array is granted to the highest-class waiting HLEASE. Operands of the turn: cluster. -/
  | hoopLeaseGrant
  /-- HOOP_LEASE_EXPIRY (R368). A lease's cycle budget runs out and the array becomes free. Operands of the turn: cluster. -/
  | hoopLeaseExpiry
  /-- OSIER_BOUNDARY (R392). A domain's step ends at its boundary: cells update, taps count, pending accesses perform. Operands of the turn: cluster. -/
  | osierBoundary
  /-- OSIER_STROKE_ENQUEUE (R393). A cross-core stroke is enqueued into its destination FIFO P cycles after emission. Operands of the turn: cluster. -/
  | osierStrokeEnqueue
  /-- ALIGNED_RUN_START (R396). An aligned run begins its first step when the weave clock reaches a multiple of P. Operands of the turn: cluster, dom. -/
  | alignedRunStart
  /-- BLOCK_PLACEMENT (R209). The scheduler places a block, clearing its windows and seeding every context. Operands of the turn: part, launch, ox, oy, lmbase, rsbase. -/
  | blockPlacement
  /-- BLOCK_RETIRE (R227). A block with every context empty and every command complete retires. Operands of the turn: tag. -/
  | blockRetire
  /-- PARKLIMIT_EXPIRY (R455). A group parked longer than PARKLIMIT triggers a swap or a pinned-block report. Operands of the turn: tag. -/
  | parklimitExpiry
  /-- BLOCK_CAPTURE (R456). A drained TAKING block is captured into its swap record and its resources freed. Operands of the turn: tag. -/
  | blockCapture
  /-- YIELD_DEADLINE (R465). A victim not takeable at its deadline is demoted to class 0 and reported. Operands of the turn: tag. -/
  | yieldDeadline
  /-- READMISSION (R462). An absent block is restored to a new rectangle and its inbox appended. Operands of the turn: tag, ox, oy, lmbase, rsbase. -/
  | readmission
  /-- HALT_LINE_ARRIVAL (R467). The halt line reaches an agent, which stops within its skid and writes its stop record. Operands of the turn: part, site. -/
  | haltLineArrival
  /-- QUIESCE (R469). The last outstanding access of a halted site completes and QUIESCED is set. Operands of the turn: part, site. -/
  | quiesce
  /-- DEBUG_HALT_REQUEST (R466). The Debug core raises a partition's halt line. Operands of the turn: part, site. -/
  | debugHaltRequest
  /-- HALT_RELEASE (R470). The Debug core releases a REASON 2 or 4 halt and agents resume. Operands of the turn: part. -/
  | haltRelease
  /-- DEBUG_RESET (R470). A Debug reset request makes Umpire reset a halted partition. Operands of the turn: part. -/
  | debugReset
  /-- DEBUG_STORE (R471). The Debug core writes a BRK over a bundle and invalidates instruction caches. Operands of the turn: part, asid, va, code. -/
  | debugStore
  /-- REPLAY_LATCH_LOAD (R473). The Debug core loads a context's replay latch with a displaced bundle. Operands of the turn: core, slot, bundle. -/
  | replayLatchLoad
  /-- HEARTBEAT (R482). Every 4,096 cycles a site sends heartbeats and checks its neighbours'. Operands of the turn: site. -/
  | heartbeat
  /-- CONTAINMENT (R483). Umpire fences, stops, restores or ends, remaps, releases and replays a failed core. Operands of the turn: core, pass. -/
  | containment
  /-- CHECKPOINT (R487). A requested checkpoint is taken when the core's replayable threads are quiescent. Operands of the turn: core. -/
  | checkpoint
  /-- CHECKPOINT_PERIOD_EXPIRY (R487). The PERIOD timer requests an automatic checkpoint. Operands of the turn: part. -/
  | checkpointPeriodExpiry
  /-- CHECKPOINT_ACK (R488). A checkpoint acknowledgement frees the sender's logged packets. Operands of the turn: src, dst, seq. -/
  | checkpointAck
  /-- ROUTE_COMMIT (R478). A COMMIT write makes the scheduler check and adopt, or refuse, the route block. Operands of the turn: part. -/
  | routeCommit
  /-- ROUTE_ADOPT (R479). A network interface adopts a new mode for a class once it has none in flight. Operands of the turn: core, cls. -/
  | routeAdopt
  /-- AUTO_WINDOW (R480). Every 4,096 cycles the link counts decide whether AUTO classes use TWOPHASE. Operands of the turn: part, max, mean. -/
  | autoWindow
  /-- SVASUM_FRAME (R491). A Svasum frame is received, CRC-checked, accepted or retransmitted. Operands of the turn: port, good. -/
  | svasumFrame
  /-- SVASUM_TRAINING (R491). A link retrains after eight failed retries, or is marked down. Operands of the turn: port, ok, peer. -/
  | svasumTraining
  /-- WEIGHT_SHARD_ARRIVAL (R494). A broadcast shard arrives, is written and forwarded to children. Operands of the turn: setid, gen, shard, ok, data .... -/
  | weightShardArrival
  /-- SHARD_TIMEOUT (R494). A shard's allowance expires and it is re-requested or marked missing. Operands of the turn: setid, shard. -/
  | shardTimeout
  /-- QUEUE_ENABLE (R422). Schedule enables a queue after checking its read-only half. Operands of the turn: part, q. -/
  | queueEnable
  /-- QUEUE_DISABLE (R422). Schedule disables a queue, cancelling its unretired launches. Operands of the turn: part, q. -/
  | queueDisable
  /-- QUEUE_UNMAP (R447). Schedule unmaps a queue, writing back its mutable half and stopping forwarding. Operands of the turn: part, q. -/
  | queueUnmap
  /-- QUEUE_REMAP (R448). A queue is remapped and a latched PWAKE is treated as a wake. Operands of the turn: part, q. -/
  | queueRemap
  /-- QCB_TAIL_WRITE (R421). A write to TAIL is forwarded as a control write and wakes the queue. Operands of the turn: part, q, val. -/
  | qcbTailWrite
  /-- QCB_WAKE_WRITE (R421). A write to WAKE wakes the queue without changing anything. Operands of the turn: part, q. -/
  | qcbWakeWrite
  /-- QCB_ERRACK_WRITE (R422). ERRACK = 1 takes the queue out of ERROR. Operands of the turn: part, q. -/
  | qcbErrackWrite
  /-- QCB_CANCEL_WRITE (R437). CANCEL = 1 ends every unretired launch of the queue with CANCELLED. Operands of the turn: part, q. -/
  | qcbCancelWrite
  /-- QUEUE_WAIT_RETEST (R422). Every 4,096 cycles a WAITING queue's condition is tested again. Operands of the turn: part, q. -/
  | queueWaitRetest
  /-- NOP_PACKET (R424). A NOP packet is skipped. Operands of the turn: part, q. -/
  | nopPacket
  /-- LAUNCH_PACKET (R426). A LAUNCH packet is checked and its launch handed to admission. Operands of the turn: part, q. -/
  | launchPacket
  /-- LAUNCHRANGE (R443). A range task is checked and placed in the huddle queue. Operands of the turn: part, q. -/
  | launchrange
  /-- INDIRECT (R426). Parse descends into an indirect buffer at the next level. Operands of the turn: part, q. -/
  | indirect
  /-- RETURN_PACKET (R426). Parse leaves the current indirect buffer. Operands of the turn: part, q. -/
  | returnPacket
  /-- PRED (R426). Test a memory word and skip the next SKIP packets when false. Operands of the turn: part, q. -/
  | pred
  /-- LOOP_PACKET (R426). Process the next N packets as a loop body for the given passes. Operands of the turn: part, q. -/
  | loopPacket
  /-- SIGNAL (R426). After prior launches retire, store or add to a word as a .S release, optionally raising MSI-X. Operands of the turn: part, q. -/
  | signal
  /-- WAITSIG (R426). Hold the queue WAITING until a memory test holds. Operands of the turn: part, q. -/
  | waitsig
  /-- FETCHFENCE (R425). After prior launches retire, discard the fetch-ahead buffer. Operands of the turn: part, q. -/
  | fetchfence
  /-- WEIGHTSEL (R439). After earlier launches are admitted, set WSEL. Operands of the turn: part, q. -/
  | weightsel
  /-- COPY_PACKET (R426). Start an asynchronous copy by the edge copy engines. Operands of the turn: part, q. -/
  | copyPacket
  /-- COPY_COMPLETE (R426). An edge-engine COPY finishes and retires like a launch. Operands of the turn: part, idx. -/
  | copyComplete
  /-- ADMISSION (R434). The stager admits a PARSED launch, latches WSEL and forms its lease. Operands of the turn: part, launch. -/
  | admission
  /-- STAGING_COMPLETE (R432). Every TARGET 1 range is resident and the launch moves to PLACING. Operands of the turn: launch. -/
  | stagingComplete
  /-- COMPLETION_RECORD_WRITE (R430). After every access is performed, the completion record is written as a .S release. Operands of the turn: launch. -/
  | completionRecordWrite
  /-- ENERGY_CHARGE (R441). Every 4,096 cycles the Power core charges launches and lowers EBUDGET. Operands of the turn: part. -/
  | energyCharge
  /-- HUDDLE_REQUEST (R443). A reserved block slot sends a piece request to its chiplet's tree node. Operands of the turn: launch, core. -/
  | huddleRequest
  /-- HUDDLE_WINDOW_CLOSE (R444). A tree node closes its window after 16 cycles or 64 requests and sends one fetch-and-add. Operands of the turn: part, chip. -/
  | huddleWindowClose
  /-- HUDDLE_FETCH_ADD (R444). The root hands pieces of the task to a node's requests. Operands of the turn: part. -/
  | huddleFetchAdd
  /-- MODULE_RESET (R512). Reset starts Root's bring-up phases. Operands of the turn: failed ..., fwA, fwB, verA, verB, hbmOk, selfOk. -/
  | moduleReset
  /-- PCIE_LINK_TRAINING (R497). A host endpoint trains its PCIe link. Operands of the turn: ep, gts, width. -/
  | pcieLinkTraining
  /-- HOST_BAR2_READ (R497). A host read through BAR2 is a raw HBM read. Operands of the turn: ep, off, len. -/
  | hostBar2Read
  /-- HOST_BAR2_WRITE (R497). A host write through BAR2 is a raw HBM write. Operands of the turn: ep, off, len, data. -/
  | hostBar2Write
  /-- RPHEAD_WRITE (R513). The host frees report slots, letting held reports post. Operands of the turn: ep, val. -/
  | rpheadWrite
  /-- ATTEST (R517). Root returns a signed attestation report for a nonce. Operands of the turn: ep, reqtag, nonce, buf, len. -/
  | attest
  /-- PUBKEY (R514). Root writes the device's public keys to a host buffer. Operands of the turn: ep, reqtag, buf, len. -/
  | pubkey
  /-- KEYLOAD (R518). Root unwraps and loads a key slot not granted to any partition. Operands of the turn: ep, reqtag, slot, unwrapped, key1, key2. -/
  | keyload
  /-- KEYCLEAR (R518). Root clears a key slot not granted to any partition. Operands of the turn: ep, reqtag, slot. -/
  | keyclear
  /-- COUNTER (R516). Root raises the fused security counter. Operands of the turn: ep, reqtag, val. -/
  | counter
  /-- PANEL_SET (R493). The host assigns the panel identifier once. Operands of the turn: ep, reqtag, val. -/
  | panelSet
  /-- WB_PLAN (R496). The Link core checks a broadcast plan and initialises its frames. Operands of the turn: ep, reqtag, off. -/
  | wbPlan
  /-- WB_START (R496). The reader panel starts sending shards to its children. Operands of the turn: ep, reqtag, setid, gen. -/
  | wbStart
  /-- PART_RESET (R470). Umpire resets a halted partition, disabling queues and ending launches. Operands of the turn: ep, reqtag, part. -/
  | partReset
  /-- RESERVED_MAILBOX_REQUEST (R514). A request of reserved TYPE gets a RESPONSE with STATUS 2. Operands of the turn: ep, reqtag, typ. -/
  | reservedMailboxRequest
  /-- POWER_WINDOW (R520). Every 4 ms average input power lowers or raises chiplet clocks. Operands of the turn: mw. -/
  | powerWindow
  /-- JUNCTION_TEMPERATURE_LIMIT (R520). A chiplet at 95 °C is slowed one step per ms until below 92 °C. Operands of the turn: chip, temp. -/
  | junctionTemperatureLimit
  /-- THERMAL_TRIP (R520). A junction at 110 °C trips module power off. Operands of the turn: chip, temp. -/
  | thermalTrip
  /-- SITE_FAULT (R482). A site's core or router fails in service: it stops sending heartbeats, reports an uncorrectable error of its own state, or its router reports a fault, after which packets detour around it. Operands of the turn: site, kind. -/
  | siteFault
  /-- SOFT_ERROR (R140). A soft error corrupts a word of an L2 slice, its tags, miss-status registers or waiter lists, or an HBM line, for correction or poisoning when the word is next read or scrubbed. Operands of the turn: kind, a, b. -/
  | softError
  /-- PARTITION_CREATE (R132). Root creates a hard partition, giving it its chiplets, HBM range, channel list, key grant mask and partition reserve. Operands of the turn: part, cx0, cy0, wc, hc, base, count, chans ..., grant. -/
  | partitionCreate
  /-- PEER_TABLE_WRITE (R43). The Link core writes a peer-table slot, first invalidating every TLB of the partition when it changes a valid slot. Operands of the turn: part, slot, val. -/
  | peerTableWrite
  /-- PAGE_TABLE_CHANGE (R162). A host or firmware request to clear or change a leaf is performed by the Memory core, after waiting until the last lease on a pinned page is released. Operands of the turn: part, asid, page, writes .... -/
  | pageTableChange
  /-- FETCH_AHEAD_READ (R425). Parse reads a ring or indirect-buffer line into its fetch-ahead buffer at its home slice, in any cycle between TAIL covering the line and the parse of its first packet. Operands of the turn: part, q, line. -/
  | fetchAheadRead
  deriving DecidableEq, Repr

end Sys2Proof
end

