-- ==== Sys2Proof/Machine/State.lean ====
section
/-! DEFINITION. The state of the panel as plain data: every register, table, queue, memory and engine the spec names,
the front end beside it, and the environment's pending choices (turns). -/

namespace Sys2Proof.Machine

/-- A table from numbers to records, at most one entry a key, rising keys. -/
abbrev SMap (α : Type) := List (Nat × α)

/-- Memory: rising addresses, no entry that holds the unlisted value 0 (log 1, DESIGN CHOICE). -/
abbrev Memory := List Host.Cell

/-! ### Threads -/

/-- States of a context (R226). -/
inductive CtxState where
  | empty | ready | gap | stall | blocked | parked | away
  deriving DecidableEq, Repr

/-- Why a stalled context does not go on (R225). -/
inductive Stall where
  /-- no stall -/
  | none
  /-- the bundle has not issued; it is tried again after any later event (the stamp is the event count) -/
  | retry (stamp : Nat)
  /-- a HOLD until the given cycle (R315) -/
  | hold (until_ : Nat)
  /-- a FUSE rendezvous: mask, destination, cycle of issue (R286) -/
  | fuse (mask dest since : Nat)
  /-- the response of a remote barrier instruction (R309) -/
  | barrier
  /-- the outcome of a VLDB's header check (R336) -/
  | header
  /-- a TLBINV's completion (R299) -/
  | tlbinv
  /-- an Osier access that waits for a boundary (R397) -/
  | osier (left : Nat)
  /-- the stop before a migration: the access is executed again when the counters are zero (R99) -/
  | migrate
  /-- held before a global atomic until the core's checkpoint (R490) -/
  | ckpt
  /-- stopped by a class F trap (R454) -/
  | fatal
  deriving DecidableEq, Repr

/-- The wake condition of a blocked context (R224, R459). -/
inductive Wake where
  | none
  /-- BARWAIT on the object at a core and window offset, through which address, waiting for `phase` to pass -/
  | barrier (core off phase va : Nat)
  /-- the stagger delay after an observed flip, until a cycle (R311) -/
  | stagger (until_ : Nat)
  | qpop (q dest : Nat) | qpeek (q dest : Nat)
  /-- LDSY or LDSY.TAKE of a local word: address, destination, take -/
  | ldsy (va dest : Nat) (take : Bool)
  | ring (n : Nat)
  | waitc (l s c t : Nat)
  | hlease (n c : Nat)
  | yield
  | parked
  /-- a bundle that needs the result of an outstanding mesh-window load -/
  | remote
  deriving DecidableEq, Repr

/-- The run tracker (R98): target core in the block, count 1..7, hash of the first pc. -/
structure Tracker where
  x : Nat
  y : Nat
  cnt : Nat
  idx : Nat
  deriving DecidableEq, Repr

/-- The arrival record (R310): object core in the block, window offset, phase bit. -/
structure ArrRec where
  x : Nat
  y : Nat
  off : Nat
  phase : Nat
  deriving DecidableEq, Repr

/-- A trap on its way to a thread: cause, TVAL, imprecise. -/
structure PendTrap where
  cause : Nat
  tval : W
  impr : Bool
  aword : Bool := false
  deriving DecidableEq, Repr

/-- An integrator cell (R390, R391, R393). -/
structure Cell where
  y : Int := 0
  q : Nat := 0
  k : Nat := 0
  s : Nat := 0
  dom : Nat := 0
  /-- emitted stroke of the last step: -1, 0 or 1 -/
  out : Int := 0
  xsrc : Nat := 0x800
  /-- four dy sources: code, negative -/
  dy : List (Nat × Bool) := [(0x800, false), (0x800, false), (0x800, false), (0x800, false)]
  /-- strokes in the FIFO with the cycle each was enqueued, oldest first -/
  fifo : List (Int × Nat) := []
  deriving DecidableEq, Repr

/-- What the A-word of a pair wrote, as it was before, until the thread's next bundle (R253): a trap of the C-word that comes with a later
answer takes the A-word's effect away. -/
structure Undo where
  /-- the first access that the bundle could have made -/
  lo : Nat
  g : List (Nat × W) := []
  m : List (Nat × W) := []
  /-- flags that the A-word set -/
  flags : BitVec 16 := 0
  /-- DIV-group results that it sent on their way; their registers' old values stand in `g`, too -/
  div : List (Nat × W × Nat) := []
  /-- register-space bytes -/
  mem : List (Nat × Nat) := []
  /-- Osier cells: cluster, number, cell -/
  cells : List (Nat × Nat × Cell) := []
  deriving DecidableEq, Repr

/-- One context (R208, R209, R232-R240, R248, R459). -/
structure Ctx where
  st : CtxState := .empty
  g : Vector W 16 := Vector.replicate 16 0
  pc : W := 0
  flags : BitVec 16 := 0
  /-- RMODE[2:0] (R54) -/
  rmode : BitVec 3 := 0
  /-- m0..m7; m0 reads as all ones whatever is kept here (R239) -/
  m : Vector W 8 := Vector.replicate 8 0
  sh : Vector Line 16 := Vector.replicate 16 0
  /-- the view registers VV, TV and AV (R236) -/
  vv : W := 0
  tv : W := 0
  av : W := 0
  /-- THREAD: the g3 seed (R248) -/
  thread : W := 0
  /-- slot ordinal (R208) -/
  ord : Nat := 0
  /-- owning block tag, 0 for none -/
  btag : Nat := 0
  /-- CORE: block-relative coordinates of the home core -/
  bx : Nat := 0
  by_ : Nat := 0
  /-- RSWIN: base and size in 64-byte units (R234) -/
  rsBase : Nat := 0
  rsSize : Nat := 0
  tcause : BitVec 10 := 0
  tpc : W := 0
  tval : W := 0
  tstate : BitVec 5 := 0
  /-- the four outstanding-operation counters (R263) -/
  ldc : Nat := 0
  stc : Nat := 0
  cpc : Nat := 0
  tlc : Nat := 0
  tracker : Option Tracker := none
  /-- a MIGR has been executed since the last access that consulted the predictor (R99) -/
  migr : Bool := false
  arr : Option ArrRec := none
  /-- the cores of the thread's gang, westmost first; empty outside a gang (R214) -/
  gang : List Nat := []
  /-- bundles issued as a member of the gang (R215) -/
  gangStep : Nat := 0
  stall : Stall := .none
  wake : Wake := .none
  /-- cycle from which the next bundle may issue (R211) -/
  gapUntil : Nat := 0
  /-- cycle since which the context has been eligible (R212) -/
  since : Nat := 0
  /-- replay latch (R473) -/
  replay : Option W := none
  /-- arrival slots: the home core and slot; home slots: where the thread is while AWAY -/
  homeCore : Nat := 0
  homeSlot : Nat := 0
  /-- a global store was performed while away (R178) -/
  stored : Bool := false
  /-- traps that wait to be taken, oldest first (R321, R452) -/
  pend : List PendTrap := []
  /-- DIV-group results on their way, oldest first: register, value, cycle (R277) -/
  div : List (Nat × W × Nat) := []
  /-- the checkpoint that a global atomic waited for has been taken (R490) -/
  ckptOk : Bool := false
  /-- cycle in which the group parked (R455) -/
  parkedAt : Nat := 0
  /-- what the A-word of the thread's last pair wrote (R253) -/
  undo : Option Undo := none
  /-- the access before which the thread has stopped is to migrate (R99) -/
  goes : Bool := false
  /-- Osier lanes of the last bundle that have not been moved (R405) -/
  lanesLeft : Nat := 0
  /-- an ERET of the thread has restored level U (R285, R452; log 11) -/
  user : Bool := false
  /-- the Hoop command that ran when a HACC first stalled for it (R376) -/
  haccAt : Option Nat := none
  deriving DecidableEq, Repr

/-! ### Accesses -/

/-- Where a load's result goes. -/
inductive Dest where
  | none
  | g (r : Nat)
  /-- a vector: register-space address, and the lanes' layout `(bits, position)` when gathered -/
  | vec (addr : Nat)
  /-- only the lanes that the access's items name, at a register-space address -/
  | lanes (addr : Nat)
  /-- a part of the tile operation of a number of the core (R362) -/
  | tile (num : Nat)
  | sh (r : Nat)
  deriving DecidableEq, Repr

/-- Kinds of access (R167). -/
inductive AKind where
  | load | store | amo | vload | vstore | fmtLoad | fetch | shLoad | ldsy | ldsyTake | stfl | feclr | send | barrier | twperm
  deriving DecidableEq, Repr

/-- Counter class (R263). -/
inductive CClass where
  | none | loads | stores
  deriving DecidableEq, Repr

/-- One item of a local or mesh-window access: element bits, bit position of the element in the core's local memory, and
bit position and width of its place in the data. -/
structure Item where
  w : Nat
  bit : Nat
  pos : Nat
  pw : Nat
  sx : Bool
  deriving DecidableEq, Repr

/-- Where an access stands. -/
inductive AStage where
  /-- held at its core: behind a release or fence, or waiting for the TLB (R167) -/
  | held | tlb
  /-- left the core -/
  | out
  /-- performed; the response is on its way (R175) -/
  | performed
  /-- an error response is on its way (R143) -/
  | error
  /-- in a parked-access record (R166) -/
  | parked
  deriving DecidableEq, Repr

/-- A part of a paged access that one line request carries. -/
structure Part where
  line : Nat
  off : Nat
  len : Nat
  /-- byte position of the part in the access -/
  pos : Nat
  key : Nat
  done : Bool
  /-- leaf attributes of the part's page, and the region of its line (R39, R105) -/
  attr : Nat := 0
  deriving DecidableEq, Repr

/-- An access in flight (R167, R175, R263). -/
structure Access where
  id : Nat
  core : Nat
  slot : Nat
  btag : Nat
  kind : AKind
  cls : CClass
  va : Nat
  size : Nat
  dest : Dest := .none
  /-- store data, atomic operand or compare value -/
  data : Nat := 0
  /-- AMOCAS swap value -/
  data1 : Nat := 0
  op : Nat := 0
  wide : Bool := false
  acq : Bool := false
  rel : Bool := false
  scope : Nat := 0
  /-- rounding mode that travels with an AMOFADD -/
  rnd : Nat := 0
  sx : Bool := false
  level : Bool := false
  pc : W := 0
  /-- target core and items of a mesh-window access -/
  target : Nat := 0
  items : List Item := []
  parts : List Part := []
  /-- physical address of a host or peer access; the region in bits 51:48 -/
  pa : Nat := 0
  stage : AStage := .held
  /-- accesses that must be performed first (R182, R186) -/
  after : List Nat := []
  /-- bytes read so far -/
  got : Nat := 0
  /-- class F cause of an error response; refusal status of a message -/
  err : Nat := 0
  /-- 1 not present, 2 permission; and the page that faulted -/
  fault : Nat := 0
  fpage : Nat := 0
  /-- what the Memory core has decided on the page: 3 refused, 4 mapped (R158) -/
  verdict : Nat := 0
  seq : Nat := 0
  /-- fill an L1 line on return: 1 data, 2 instruction, 3 neither, 4 the bytes of one fetch from host or peer memory -/
  fill : Nat := 0
  /-- the whole lines read for the fill: physical line, the number of its reading among those of the panel, bytes -/
  lines : List (Nat × Nat × Line) := []
  /-- stores not yet performed, to apply to the fill: number, address, size, data (R109, R177) -/
  patch : List (Nat × Nat × Nat × Nat) := []
  /-- a store that has not updated the L1, since a line of it missed: it does when it leaves its core (R108) -/
  thru : Bool := false
  attr : Nat := 0
  quiet : Bool := false
  ring : Nat := 0
  /-- a mesh-window LDSY that stands in its word's wait table (R224) -/
  waits : Bool := false
  /-- copies still to be answered, for an MCAST; the cores that it goes to -/
  copies : Nat := 1
  targets : List Nat := []
  deriving DecidableEq, Repr

/-! ### Cores -/

/-- A completion held for a full queue (R244): queue, entry, slot whose counter it holds, copies (true) or tiles. -/
structure Held where
  q : Nat
  entry : W
  slot : Nat
  copies : Bool
  deriving DecidableEq, Repr

/-- What a block has on one core: queue registers, QSTAT, BSTAG, RFPWR (R243-R245, R248). -/
structure BlkCore where
  /-- q0..q15, oldest entry first -/
  q : SMap (List W) := []
  lost4 : Bool := false
  held : List Held := []
  /-- BSTAG.MOD and STEP -/
  bsMod : Nat := 0
  bsStep : Nat := 0
  rfpwr : Nat := 0
  deriving DecidableEq, Repr

/-- One receive ring's registers (R221). -/
structure Ring where
  btag : Nat := 0
  en : Bool := false
  base : Nat := 0
  drop : Nat := 0
  size : Nat := 0
  head : Nat := 0
  tail : Nat := 0
  /-- HEAD before the present cycle's write of it, and the cycle of that write + 1 (R228) -/
  headOld : Nat := 0
  headAt : Nat := 0
  deriving DecidableEq, Repr

/-- An entry of the wait table (R90, R310). -/
structure WaitEnt where
  /-- word index for LDSY, byte offset of the object for BARWAIT -/
  off : Nat
  /-- core and slot of the requester -/
  core : Nat
  slot : Nat
  /-- BARWAIT (with the phase it waits to leave) or LDSY -/
  bar : Bool
  phase : Nat
  take : Bool
  /-- access to answer for a remote LDSY; 0 for a local wait -/
  acc : Nat
  /-- destination register of a local LDSY -/
  dest : Nat
  /-- false: refused by a full table, tries again every 64 cycles -/
  entered : Bool
  /-- next try -/
  retryAt : Nat
  deriving DecidableEq, Repr

/-- A line of an L1 (R105, R106): virtual line, partition, address space, physical line, leaf attributes, bytes. -/
structure L1Line where
  vline : Nat
  part : Nat
  asid : Nat
  pline : Nat
  /-- leaf bits: bit 0 RD, 1 W, 2 X, 3 UL, 4 D; bit 5 bytes fetched once; bit 6 filled under a 512 MiB translation (R111) -/
  attr : Nat
  key : Nat
  data : Line
  /-- the number of the reading that filled it -/
  stamp : Nat := 0
  deriving DecidableEq, Repr

/-- The engine command whose line a packet delivers, with its number: an MCRD of a core, a Relay channel, a tile-walk engine of a core, a
staging command of a cluster. -/
inductive Deliv where
  | mcrd (core num : Nat)
  | relay (cl ch num : Nat)
  | walk (core num : Nat)
  | stage (cl num : Nat)
  deriving DecidableEq, Repr

/-- An engine that reads or writes paged lines: a Relay channel of a cluster, the tile-walk engine of a core, the array of a cluster (R523). -/
inductive Eng where
  | relay (cl ch : Nat)
  | walk (core : Nat)
  | hoop (cl : Nat)
  deriving DecidableEq, Repr

/-- A line that an engine command has asked of its home slice (R523): its virtual line, the number of the request, its page's leaf attributes, its
bytes once they have been read, the cycle at which they are there, and what the read met: 0 nothing, 1 a region the command does not serve, or a
class F cause. -/
structure Rd where
  vline : Nat
  num : Nat
  attr : Nat := 0
  data : Option Line := none
  at_ : Nat := 0
  err : Nat := 0
  deriving DecidableEq, Repr

/-- What waits in a virtual channel or arrival FIFO for a core (R94, R475). -/
inductive Pay where
  /-- a load, store, bit store, FECLR, LDSY or STFL: the access record's number -/
  | access (id : Nat)
  | amo (id : Nat)
  /-- barrier instruction: 0 init, 1 arrive, 2 wait, 3 expect, 4 test; object offset; operand; requester -/
  | bar (op off : Nat) (val : W) (core slot btag dest : Nat) (arr : Option ArrRec) (id : Nat)
  /-- an engine's decrement: object offset, tag, bytes; the Relay channel that sent it and its command's number -/
  | pend (off btag bytes cl ch num : Nat)
  | twperm (btag : Nat) (id : Nat)
  /-- ring message: ring, payload words, sender core, slot, S level, sender tag, destination tag, quiet, access id, ci of the
  target in the block of the destination tag -/
  | msg (ring : Nat) (words : List W) (core slot : Nat) (slevel : Bool) (stag dtag : Nat) (quiet : Bool) (id ci : Nat)
  | handler (words : List W) (core slot stag dtag : Nat) (id ci : Nat)
  /-- migration context: the thread, the pending access (kind, address, data, width - 1, destination) (R100) -/
  | mig (c : Ctx) (kind : Nat) (addr data : W) (width dest from_ fromSlot : Nat)
  | bounce (c : Ctx) (slot : Nat)
  | home (c : Ctx) (kind : Nat) (addr data : W) (width dest fromSlot : Nat)
  | wake (slot : Nat)
  /-- a line that an engine delivers: physical offset, bytes, their values, the bits that are written, the words that become full -/
  | line (off n data mask : Nat) (words : List Nat) (by_ : Deliv)
  deriving DecidableEq, Repr

/-- A packet on its way to a core: contents, source, and its number among the logged packets of the two cores (R488). -/
structure Packet where
  pay : Pay
  src : Nat
  seq : Option Nat := none
  deriving DecidableEq, Repr

/-- The walker's command (R382-R385). -/
structure Walk where
  busy : Bool := false
  parked : Bool := false
  waiting : Bool := false
  wb : Bool := false
  shape : Line := 0
  /-- destination cores -/
  dests : List Nat := []
  off : Nat := 0
  slots : Nat := 1
  tile : Nat := 0
  tiles : Nat := 0
  slot : Nat := 0
  btag : Nat := 0
  status : Nat := 0
  fva : Nat := 0
  /-- the permit of the present tile has been taken (R384) -/
  permit : Bool := false
  /-- lines of the present tile that have been moved (R381, R385) -/
  pos : Nat := 0
  /-- lines of the present tile asked for, and those still needed (R523) -/
  asked : Nat := 0
  rds : List Rd := []
  /-- write-back: a line is on its way to its home slice -/
  busyLine : Bool := false
  /-- lines sent and not landed -/
  left : Nat := 0
  num : Nat := 0
  dying : Bool := false
  deriving DecidableEq, Repr

/-- A bulk command of the core's network interface: L2PF, L2DROP (R386) or MCRD (R323). -/
structure Bulk where
  slot : Nat
  btag : Nat
  va : Nat
  lines : Nat
  /-- lines asked for, lines answered -/
  next : Nat := 0
  back : Nat := 0
  /-- lines that count for the completion entry -/
  done : Nat := 0
  status : Nat := 0
  parked : Bool := false
  /-- the command's number among the accesses and commands of the panel -/
  num : Nat := 0
  /-- L2PF: barrier address, 0 for none -/
  bar : W := 0
  /-- MCRD: destinations, mask, window offset, landed lines -/
  dests : List Nat := []
  mask : Nat := 0
  off : Nat := 0
  land : Nat := 0
  /-- its launch has ended: the lines asked for are finished, nothing else (R165) -/
  dying : Bool := false
  /-- L2PF: lines found in flight, with the key identifier (R127, R128) -/
  flight : List (Nat × Nat) := []
  deriving DecidableEq, Repr

/-- A tile load or store (R360-R362): register-space range it will write or read, and the home slot; its number, and once it has gone to the mesh
window the accesses that it waits for and the view bits that they have brought (R94). -/
structure TileOp where
  slot : Nat
  btag : Nat
  sub : Nat
  shape : Line
  orgA : W
  orgB : W
  rsOff : Nat
  rsLen : Nat
  due : Nat
  num : Nat := 0
  sent : Bool := false
  left : Nat := 0
  got : Nat := 0
  deriving DecidableEq, Repr

/-- A logged packet of the replay log (R488). -/
structure Logged where
  dst : Nat
  seq : Nat
  pay : Pay
  /-- the access that the packet carries, as it stood when sent -/
  acc : Option Access := none
  deriving DecidableEq, Repr

/-- A logical core (R25, R208, R221, R245-R248, R297, R486-R489). -/
structure Core where
  ctxs : SMap Ctx := []
  blk : SMap BlkCore := []
  rings : SMap Ring := []
  /-- full/empty bits: the words of local memory that are full (R81) -/
  fe : List Nat := []
  /-- the arrival FIFO, oldest first (R94) -/
  fifo : List Packet := []
  /-- packets in the network or held in their virtual channels, with the cycle at which they may enter the FIFO (R94, R475) -/
  net : List (Nat × Packet) := []
  /-- the handler queue (R219) -/
  hq : List Pay := []
  waits : List WaitEnt := []
  /-- the predictor's 64 counters: listed values, 1 otherwise (R98) -/
  ctr : SMap Nat := []
  l1d : List L1Line := []
  l1i : List L1Line := []
  /-- slot last issued in each priority class, for the round-robin (R212) -/
  lastIssue : SMap Nat := []
  /-- first cycle in which the core may issue again: one bundle a cycle (R211) -/
  nextIssue : Nat := 0
  /-- retention: depth in force (0 none) and the cycle at which retained banks are usable again (R246, R247) -/
  retDepth : Nat := 0
  wakeAt : Nat := 0
  /-- first cycle of the present idle run that counts toward retention -/
  idleSince : Nat := 0
  ckptReq : Bool := false
  /-- a foreign engine delivered into the core since its last checkpoint (R489) -/
  foreign : Bool := false
  seqOut : SMap Nat := []
  seqIn : SMap Nat := []
  log : List Logged := []
  /-- sequence number of the next access issued (R167) -/
  accSeq : Nat := 0
  walk : Walk := {}
  pf : List Bulk := []
  drop : List Bulk := []
  mcrd : List Bulk := []
  tiles : List TileOp := []
  /-- the core's share of a parked-access record: the parked accesses, oldest first (R167) -/
  parked : List Nat := []
  parkSent : Bool := false
  /-- records in replay, by block: the entries still to be reissued, in record order (R170) -/
  replays : SMap (List Nat) := []
  /-- L1 lines whose code check will fail: 2 × physical line, + 1 for a line of instructions; corrected failures counted (R113) -/
  l1Bad : List Nat := []
  l1Corr : Nat := 0
  /-- the route that a traffic class still follows until its packets in flight are gone; an unlisted class follows the
  partition's (R479) -/
  route : SMap Nat := []
  /-- event counts since the last energy charge, by launch, in pJ (R441) -/
  energy : SMap Nat := []
  /-- the CYCLE register's offset at the site (R248) -/
  cycleOff : W := 0
  /-- 1 KiB pages of local memory written since the last checkpoint (R487) -/
  dirty : List Nat := []
  /-- the core has failed and is fenced (R482, R483) -/
  failed : Bool := false
  /-- last committed checkpoint: contexts, block data, rings, local memory (register space from 2^18 on), full words, sequences,
  waits of other cores, accesses in flight (R486, R487) -/
  stakeCtxs : SMap Ctx := []
  stakeBlk : SMap BlkCore := []
  stakeRings : SMap Ring := []
  stakeMem : Memory := []
  stakeFe : List Nat := []
  stakeSeqIn : SMap Nat := []
  stakeSeqOut : SMap Nat := []
  stakeWaits : List WaitEnt := []
  stakeHq : List Pay := []
  stakeAccs : List Access := []
  stakeValid : Bool := false
  deriving DecidableEq, Repr

/-! ### Slices, HBM -/

/-- Who asks a slice for a line. -/
inductive Src where
  | acc (id part : Nat)
  /-- a line of a core's L2PF, L2DROP or MCRD command of the given number (R126-R129, R386) -/
  | pf (num : Nat) | drop (num idx : Nat) | mcrd (num idx : Nat)
  /-- a level of the walk with a number, of a cluster (R152) -/
  | walk (cl num : Nat)
  /-- a line of a staging command, by its number, of a cluster (R436) -/
  | stage (cl num : Nat)
  /-- a line that an engine's command of a number reads, and the number of the read (R523); a line that it writes: the bytes from an offset on, their
  values and the bits that are written (R380, R385) -/
  | eng (e : Eng) (cmd rd : Nat)
  | put (e : Eng) (cmd off n data mask : Nat)
  deriving DecidableEq, Repr

/-- A request at a slice (R122). -/
structure Req where
  src : Src
  core : Nat
  line : Nat
  key : Nat
  deriving DecidableEq, Repr

/-- A line of an L2 slice (R120). -/
structure L2Line where
  line : Nat
  set : Nat
  data : Line
  dirty : Bool
  poison : Bool
  key : Nat
  way : Nat := 0
  deriving DecidableEq, Repr

/-- A miss-status register and its waiter list (R123). -/
structure Mshr where
  line : Nat
  waiters : List Req
  deriving DecidableEq, Repr

/-- An error counter record (R141). -/
structure ErrCnt where
  lastSet : Nat := 0
  uncorr : Nat := 0
  corr : Nat := 0
  deriving DecidableEq, Repr

/-- An L2 slice, named by its logical core (R119-R124, R140). -/
structure Slice where
  /-- the ingress queue, oldest first (R122) -/
  ing : List Req := []
  /-- requests in the network or held in their virtual channels, with the cycle at which they may enter the queue -/
  vc : List (Nat × Req) := []
  /-- the lines held, least recently used first (R120) -/
  lines : List L2Line := []
  mshr : List Mshr := []
  /-- soft errors not yet found: by line, for each word of 8 bytes a digit to base 4: 1 correctable, 2 not (R140) -/
  soft : SMap Nat := []
  tagBad : Bool := false
  cnt : ErrCnt := {}
  /-- demand requests taken since the last staging request (R436) -/
  demand : Nat := 0
  deriving DecidableEq, Repr

/-- A key slot (R136, R518): loaded, with its two keys. -/
structure KeySlot where
  key1 : Nat
  key2 : Nat
  deriving DecidableEq, Repr

/-- The HBM side: key tags by frame, poisoned lines, soft errors not yet found, counters by channel (R131-R141). -/
structure Hbm where
  tags : SMap Nat := []
  poison : List Nat := []
  soft : SMap Nat := []
  cnts : SMap ErrCnt := []
  /-- initialisations of frames that wait for a lease: frame, key slot (R162) -/
  initq : List (Nat × Nat) := []
  deriving DecidableEq, Repr

/-! ### Clusters -/

/-- A translation (R151). -/
structure Tlb where
  part : Nat
  asid : Nat
  /-- first virtual page and number of 64 KiB pages (1 or 8192) -/
  vpn : Nat
  pages : Nat
  /-- physical page (64 KiB units) of the first virtual page -/
  pfn : Nat
  key : Nat
  attr : Nat
  deriving DecidableEq, Repr

/-- The outcome of a walk (R154). -/
inductive WalkR where
  | ok (t : Tlb)
  | notPresent
  | fatal (cause : Nat)
  deriving DecidableEq, Repr

/-- An entry of the walk table (R154): page and joined accesses; the core that asked first; its number, the level that a walker
reads (0: it waits for one of the four walkers), the table page of that level, and the outcome once it is known (R152). -/
structure TlbWalk where
  part : Nat
  asid : Nat
  vpn : Nat
  joined : List Nat
  core : Nat := 0
  num : Nat := 0
  level : Nat := 0
  table : Nat := 0
  res : Option WalkR := none
  /-- the engines that wait for it, too, each by a number of its own -/
  engs : List Nat := []
  deriving DecidableEq, Repr

/-- A Relay channel's command (R377-R381). -/
structure Chan where
  busy : Bool := false
  parked : Bool := false
  src : Nat := 0
  dst : Nat := 0
  len : Nat := 0
  done : Nat := 0
  start : W := 0
  ctl : W := 0
  /-- RCOPY2D: the source shape -/
  shape : Option Line := none
  /-- barrier: core + 1 (0 none), offset in its local memory, owner tag -/
  barCore : Nat := 0
  barOff : Nat := 0
  core : Nat := 0
  slot : Nat := 0
  btag : Nat := 0
  status : Nat := 0
  fva : Nat := 0
  num : Nat := 0
  /-- a chunk is on its way to its destination -/
  busyLine : Bool := false
  /-- the lowest source line not yet asked for, and the lines asked for that are still needed (R523) -/
  req : Nat := 0
  rds : List Rd := []
  /-- decrements sent and not performed (R200) -/
  decs : Nat := 0
  /-- the launch has ended: the channel finishes its line (R165) -/
  dying : Bool := false
  deriving DecidableEq, Repr

/-- A command of the Relay's staging path (R377, R435). -/
structure Stage where
  launch : Nat
  /-- TARGET 2: core + 1 that receives it, and local offset; 0 stages into L2 -/
  core : Nat
  off : Nat
  va : Nat
  len : Nat
  done : Nat
  num : Nat := 0
  /-- bytes of the whole command; what has been asked of it are pieces of one line each (R377) -/
  tot : Nat := 0
  /-- the line has been asked of its home slice, or is on its way to the core -/
  asked : Bool := false
  /-- its launch has ended: the line asked for is finished, nothing else (R163, R437) -/
  dying : Bool := false
  deriving DecidableEq, Repr

/-- A latch of a Hoop segment (R363): block number, shape of its operand, K extent, first k, raw elements by (kk, c). -/
structure Latch where
  blk : Nat := 0
  elems : List Nat := []
  /-- scale of each element's block -/
  scales : List Nat := []
  deriving DecidableEq, Repr

/-- A Hoop command in the queue (R369). -/
structure HCmd where
  sub : Nat
  shape : Line
  a : W
  b : W
  core : Nat
  slot : Nat
  btag : Nat
  rmode : BitVec 3
  step : Nat := 0
  rot : Bool := false
  status : Nat := 0
  segs : Nat := 0
  num : Nat := 0
  /-- HLDB and HLDBT of paged memory: source lines asked for, and what they read (R523) -/
  asked : Nat := 0
  rds : List Rd := []
  deriving DecidableEq, Repr

/-- The Hoop array of a cluster (R363-R368). Accumulator entries are bytes of register space. -/
structure Hoop where
  /-- entries with their NaN bit set: segment × 512 + entry -/
  nan : List Nat := []
  latch : List Latch := []
  /-- format, element bits and described flag of the operand in the latches, and its kext -/
  latFmt : Nat := 0
  latK : Nat := 0
  latK0 : Nat := 0
  /-- A binding: shape, r0, k0, K; none when empty -/
  bind : Option (Line × Nat × Nat × Nat) := none
  ea : Int := 0
  /-- 0 none, 1 FP32, 2 FP64, 3 integer -/
  kind : Nat := 0
  cmds : List HCmd := []
  parked : Bool := false
  fva : Nat := 0
  /-- lease holder (core, slot, block), commands and cycle limit left -/
  holder : Option (Nat × Nat × Nat) := none
  leaseN : Nat := 0
  leaseEnd : Nat := 0
  last : Nat := 0
  /-- waiting HLEASE requests: core, slot, n, c -/
  reqs : List (Nat × Nat × Nat × Nat) := []
  deriving DecidableEq, Repr

/-- A step domain (R395, R396). -/
structure Domain where
  /-- 0 stopped, 1 running, 2 faulted -/
  state : Nat := 0
  align : Bool := false
  fcell : Nat := 0
  period : Nat := 2
  remain : Nat := 0
  steps : Nat := 0
  taps : Nat := 0
  cnt : List Int := [0, 0, 0, 0]
  /-- next boundary, and the start of an aligned run not yet begun -/
  next : Nat := 0
  begun : Bool := false
  stopReq : Bool := false
  /-- issuer of the run: core, slot, block -/
  core : Nat := 0
  slot : Nat := 0
  btag : Nat := 0
  /-- the inputs latched at the start of the step: cell, dx, dsum -/
  latched : List (Nat × Int × Int) := []
  overrun : Option Nat := none
  haltStop : Bool := false
  deriving DecidableEq, Repr

/-- An Osier access that waits for a boundary (R397, R404, R405). -/
structure OAct where
  core : Nat
  slot : Nat
  cell : Nat
  /-- 0 OGET, 1 OSET, 2 OINJ, 3 OGET vector lane, 4 OSET vector lane, 5 OSAVE (cell = domain) -/
  op : Nat
  field : Nat
  val : W
  /-- destination register, register-space address of a lane, or local-memory address of an image -/
  dest : Nat
  iword : W
  pc : W
  deriving DecidableEq, Repr

/-- A stroke in flight between cores (R393): destination cell, stroke, cycle of its enqueueing, source cell. -/
structure Stroke where
  cell : Nat
  v : Int
  due : Nat
  src : Nat
  deriving DecidableEq, Repr

/-- A cluster: fused L1, TLB, Relay, staging path, Hoop, Osier (R13, R114, R151, R363, R377, R390). -/
structure Cluster where
  fused : Bool := false
  tlb : List Tlb := []
  /-- walk cache: partition, address space, level-1 or level-2 index path, table page (R152) -/
  wcache : List (Nat × Nat × Nat × Nat) := []
  /-- the engines whose requests stand in the TLB's input queue: engine, partition, address space, page (R154) -/
  tlbq : List (Nat × Nat × Nat × Nat) := []
  walks : List TlbWalk := []
  /-- number of the next walk -/
  wnum : Nat := 0
  /-- outcomes without a translation that an engine's walk has had: partition, address space, page -/
  wout : List (Nat × Nat × Nat × WalkR) := []
  relay : SMap Chan := []
  /-- RWP0..RWP7 (R377) -/
  rwp : SMap W := []
  stage : List Stage := []
  hoop : Hoop := {}
  cells : SMap Cell := []
  doms : SMap Domain := []
  oacts : List OAct := []
  strokes : List Stroke := []
  /-- Osier cells of each core as its last checkpoint saved them (R487) -/
  stake : SMap (SMap Cell) := []
  /-- and the cluster's domains as each of those checkpoints found them (R412) -/
  stakeDoms : SMap (SMap Domain) := []
  deriving DecidableEq, Repr

/-! ### Partitions, queues, launches, blocks -/

/-- A level of parsing (R426): buffer address and length (length 0 at ring level), position, loop. -/
structure Level where
  va : Nat
  len : Nat
  pos : Nat
  skip : Nat := 0
  /-- loop: start, packets in the body, packets left of the pass, passes left -/
  loop : Option (Nat × Nat × Nat × Nat) := none
  deriving DecidableEq, Repr

/-- A queue: the cached control block and the parser's place (R418-R422). -/
structure Queue where
  qcb : Nat := 0
  mapped : Bool := false
  /-- 0 disabled, 1 idle, 2 active, 3 waiting, 4 error -/
  state : Nat := 0
  rbase : Nat := 0
  asid : Nat := 0
  keyid : Nat := 0
  prioMax : Nat := 0
  rlog2 : Nat := 12
  eng : Nat := 0
  priv : Bool := false
  cont : Bool := false
  eceil : Nat := 0
  tail : Nat := 0
  lerr : Nat := 0
  wsel : Nat := 0
  lseq : Nat := 0
  ndone : Nat := 0
  nerr : Nat := 0
  levels : List Level := []
  /-- fetch-ahead buffer: parse level, address and bytes of each 16-byte unit (R425) -/
  buf : List (Nat × Nat × Nat) := []
  /-- page that a read of Parse waits for (R158) -/
  fpage : Option Nat := none
  /-- cycle in which the queue was last ACTIVE (R446) -/
  last : Nat := 0
  /-- CANCEL and ERRACK written while the queue is unmapped, which take effect at its remapping (R447, R448; log 73) -/
  pcancel : Bool := false
  perrack : Bool := false
  deriving DecidableEq, Repr

/-- A working-set declaration (R159). -/
structure Ws where
  va : Nat
  len : Nat
  strict : Bool
  access : Nat
  target : Nat
  lmoff : Nat
  deriving DecidableEq, Repr

/-- States of a launch (R432). -/
inductive LState where
  | parsed | staging | placing | placed | retired | ended
  deriving DecidableEq, Repr

/-- A launch (R427, R432, R441). -/
structure Launch where
  part : Nat
  queue : Nat
  seq : Nat
  st : LState := .parsed
  entry : Nat := 0
  blocks : Nat := 1
  quota : Nat := 1
  w : Nat := 1
  h : Nat := 1
  prio : Nat := 0
  flags : Nat := 0
  regs : Nat := 0
  local_ : Nat := 0
  stack : Nat := 0
  budget : Nat := 0
  ebudget : Nat := 0
  used : Nat := 0
  pinrow : Nat := 0
  ox : Nat := 0
  oy : Nat := 0
  ws : List Ws := []
  strict : Bool := false
  priv : Bool := false
  asid : Nat := 0
  arg : Nat := 0
  comp : Nat := 0
  wsel : Nat := 0
  gen : Nat := 0
  /-- pinned virtual pages of the lease -/
  lease : List Nat := []
  nextBlock : Nat := 0
  status : Nat := 0
  detail : Nat := 0
  addr : Nat := 0
  recorded : Bool := false
  admittedAt : Nat := 0
  /-- range launch: task still to hand out, grain, pieces handed out, pieces that wait for a slot -/
  range : Option (Nat × Nat × Nat) := none
  pieces : Nat := 0
  /-- block slots reserved whose request has not been answered: origin cores (R443) -/
  asked : List Nat := []
  /-- pieces handed to a block slot and not yet placed: origin core, ordinal, lo, hi -/
  slots : List (Nat × Nat × Nat × Nat) := []
  /-- page that the lease, the weight set or the record waits for, and its refusal (R158, R161, R430) -/
  rpage : Option Nat := none
  rref : Bool := false
  /-- a block of it has been pre-empted: without a resident block it gives up its lease (R464) -/
  preempt : Bool := false
  /-- energy charged below 1 µJ, in pJ (R441) -/
  carry : Nat := 0
  deriving DecidableEq, Repr

/-- States of a block (R227). -/
inductive BState where
  | resident | taking | absent | retired | ended
  deriving DecidableEq, Repr

/-- A block (R203, R209, R248, R458). -/
structure Block where
  launch : Nat
  part : Nat
  idx : Nat
  st : BState := .resident
  ox : Nat
  oy : Nat
  w : Nat
  h : Nat
  q : Nat
  lmBase : Nat
  lmSize : Nat
  prio : Nat
  tvec : W := 0
  /-- the TVEC that a write of it found, and one more than that write's cycle (R474) -/
  tvecOld : W := 0
  tvecAt : Nat := 0
  /-- S level (R419 PRIV) -/
  priv : Bool := false
  pinned : Bool := false
  fused : Bool := false
  hoop : Bool := false
  replayable : Bool := false
  light : Bool := true
  regs : Nat := 0
  asid : Nat := 0
  placedAt : Nat := 0
  /-- pending yield request: deadline (R463) -/
  yieldAt : Option Nat := none
  /-- the deadline of that request has passed and been reported (R465) -/
  yieldLate : Bool := false
  /-- cores whose group has been taken (R456) -/
  taken : List Nat := []
  parkReported : Bool := false
  /-- the swap record of an absent block: contexts, core data, rings, memory, full words, per core in ci order (R458) -/
  recCtxs : SMap (SMap Ctx) := []
  recBlk : SMap BlkCore := []
  recRings : SMap (SMap Ring) := []
  recMem : SMap Memory := []
  recRegs : SMap Memory := []
  recFe : SMap (List Nat) := []
  recHoop : SMap Hoop := []
  recCells : SMap (SMap Cell) := []
  recDoms : SMap (SMap Domain) := []
  recAcc : SMap Memory := []
  recParked : SMap (List Nat) := []
  leaseLeft : SMap (Nat × Nat) := []
  /-- HBM offset of the swap record (R458) -/
  recAt : Nat := 0
  /-- the absent inbox: destination ci and message, oldest first (R461) -/
  inbox : List (Nat × Packet) := []
  deriving DecidableEq, Repr

/-- A COPY packet's copy by the edge engines (R426). -/
structure Copy where
  queue : Nat
  src : Nat
  dst : Nat
  len : Nat
  done : Nat := 0
  asid : Nat
  priv : Bool
  /-- page that the copy waits for -/
  fpage : Option Nat := none
  deriving DecidableEq, Repr

/-- A huddle tree node (R444): requests with their origin core, cycle of its opening. -/
structure Node where
  reqs : List (Nat × Nat)
  opened : Nat
  deriving DecidableEq, Repr

/-- A hard partition and its scheduler (R24, R132, R147, R415, R433, R454, R468, R478). -/
structure Partition where
  cx0 : Nat
  cy0 : Nat
  wc : Nat
  hc : Nat
  base : Nat
  count : Nat
  chans : List Nat
  grant : Nat
  /-- valid address spaces: identifier to ROOT page (R147) -/
  asids : SMap Nat := []
  /-- peer table: slot words (R43), held beside the partition's HBM (log 67, DEDUCED), and the Link core's port and alternate port of a slot (R492) -/
  peers : SMap W := []
  ports : SMap (Nat × Nat) := []
  /-- queue table words (R418) and queues -/
  qtab : SMap W := []
  queues : SMap Queue := []
  /-- L2BUDGET, STAGETHR (R433) -/
  l2budget : Nat := 0
  stagethr : Nat := 0
  /-- PFCTL (R454) -/
  dbgarm : Bool := false
  yieldDl : Nat := 0x10000
  parkLimit : Nat := 0x100000
  /-- CKPTCFG (R485) -/
  ckEn : Bool := false
  stkBase : Nat := 0
  period : Nat := 0
  ckNext : Nat := 0
  /-- halt line: raised, reason, cause, trigger site, tval, cycle; sites reached; sites quiesced (R466-R469) -/
  halt : Bool := false
  hReason : Nat := 0
  hCause : Nat := 0
  hSite : Nat := 0
  hTval : W := 0
  hAt : Nat := 0
  hSites : List Nat := []
  /-- route configuration in force: modes, THRESH, HYST, SEED, table (R478); AUTO's TWOPHASE state -/
  modes : List Nat := [0, 0, 0, 0]
  thresh : Nat := 16
  hyst : Nat := 0
  seed : Nat := 0
  table : SMap Nat := []
  autoOn : Bool := false
  /-- stager: queue last admitted by priority class, cluster of the next staging command (R434, R435) -/
  admitRr : SMap Nat := []
  stageRr : Nat := 0
  /-- huddle queue (range launches), tree nodes, fetch-and-adds at the root: arrival (cycle × 1,024 + chiplet ordinal), requests (R443, R444) -/
  huddle : List Nat := []
  nodes : SMap Node := []
  fadds : List (Nat × List (Nat × Nat)) := []
  copies : SMap Copy := []
  /-- re-admit queue, oldest first (R462) -/
  readmit : List Nat := []
  /-- messages on their way to the placement table (R460): core of arrival and message -/
  divert : List (Nat × Packet) := []
  /-- page faults before the Memory core: address space, page (R158) -/
  faults : List (Nat × Nat) := []
  /-- page-table changes that wait for a lease: address space, page, words to write (R162) -/
  deferred : List (Nat × Nat × List Nat) := []
  /-- TLBINVs in progress: core, slot, address space, first page, pages, the number of the first access after it (R155); the core of the
  Memory core's own removals is 2^16 -/
  tlbinvs : List (Nat × Nat × Nat × Nat × Nat × Nat) := []
  deriving DecidableEq, Repr

/-! ### The fabric -/

/-- Remap tables, faults and clocks of the mesh (R16-R21, R482-R485, R519). -/
structure Fabric where
  /-- chiplet table entries that have been written; an unlisted one is valid and the identity (R16) -/
  chip : SMap Nat := []
  /-- cluster words by logical cluster; an unlisted cluster holds `cword0` (R17) -/
  cwords : SMap Nat := []
  cword0 : Nat := 0
  /-- sites that failed the bring-up test (R14) -/
  bad : List Nat := []
  /-- sites whose router has faulted (R484), sites that stopped sending heartbeats, sites fenced -/
  badRouter : List Nat := []
  silent : List Nat := []
  fenced : List Nat := []
  /-- containment events before Umpire: logical core (R482) -/
  events : List Nat := []
  /-- consecutive heartbeats missed, by receiving site × 4 + direction (R482) -/
  missed : SMap Nat := []
  deriving DecidableEq, Repr

/-- The bundle in execution. -/
structure Cur where
  core : Nat := 0
  slot : Nat := 0
  /-- length of the bundle in bytes, and the instruction's own word -/
  len : Nat := 4
  word : W := 0
  /-- the A-word of a pair is in execution: its sources are those of `latch` (R253) -/
  aword : Bool := false
  latch : Option (Ctx × Memory) := none
  /-- a trap, a stall or a stop ended the bundle -/
  trapped : Bool := false
  stalled : Bool := false
  /-- a migration that the bundle has decided, sent once the whole bundle has executed: target core, access kind, address,
  data, width - 1, destination (R99, R100) -/
  mig : Option (Nat × Nat × W × W × Nat × Nat) := none
  /-- the replay latch that the bundle was taken from (R473) -/
  replay : Option W := none
  deriving DecidableEq, Repr

/-- A mailbox entry to an Ouvpin core (R416, R417, R500): destination core, the number of the mailbox, type, payload numbers, the interface's
version, and the entry's number within the mailbox. -/
structure Mail where
  to_ : Nat
  box : Nat
  typ : Nat
  payload : List Nat
  vmaj : Nat := 1
  vmin : Nat := 0
  seq : Nat := 0
  deriving DecidableEq, Repr

/-- A report of the front end toward the host (R513, R514): type, payload numbers; endpoint (2: both). -/
structure Report where
  ep : Nat
  typ : Nat
  payload : List Nat
  deriving DecidableEq, Repr

/-- What the panel sends to the world outside: a host access, a peer access, a PCIe vector. -/
inductive Out where
  /-- endpoint, number, PCIe address, bytes -/
  | pcieRead (ep id addr len : Nat) | pcieWrite (ep id addr len : Nat) (data : Nat)
  /-- port, remote panel and partition, requesting partition, HBM offset, bytes; 0 read, 1 write, 2 + op an
  atomic; data -/
  | peer (id port panel rpart mypart addr size op data : Nat)
  | peerAnswer (panel : Nat) (ok : Bool) (data : Nat)
  | msix (ep vec : Nat)
  /-- a shard of a weight broadcast sent to a child, as 64-byte lines; and a shard asked of the reader again, through the parent -/
  | shard (port setid gen shard : Nat) (lines : List Nat)
  | shardAsk (port setid gen shard : Nat)
  /-- a frame for another panel, forwarded (R492) -/
  | frame (port panel : Nat)
  deriving DecidableEq, Repr

/-- A Svasum port (R491-R493). -/
structure Port where
  up : Bool := false
  /-- the link retrains -/
  training : Bool := false
  /-- failed retries of the frame at the head -/
  retries : Nat := 0
  /-- frames accepted: the sequence number of the next -/
  rxSeq : Nat := 0
  /-- reported to the Link core as down -/
  reported : Bool := false
  /-- agreed major and minor version and features of the last exchange of offers (R499, R500) -/
  agreed : Option (Nat × Nat × Nat) := none
  deriving DecidableEq, Repr

/-- A weight-broadcast plan that the panel holds (R494-R496). -/
structure Plan where
  setid : Nat
  gen : Nat
  nshard : Nat
  dest : Nat
  shlen : Nat
  key : Nat
  parent : Nat
  depth : Nat
  part : Nat
  child : Nat
  descva : Nat
  asid : Nat
  reader : Nat
  /-- the descriptor image, 64 bytes -/
  desc : Nat
  present : List Nat := []
  missing : List Nat := []
  /-- re-requests made, by shard -/
  tries : SMap Nat := []
  started : Bool := false
  ended : Bool := false
  deriving DecidableEq, Repr

/-- The panel: cores, slices, HBM, clusters, partitions and what is in flight between them. -/
structure Panel where
  /-- cycles since module reset -/
  now : Nat := 0
  /-- events performed, the next access number, the free-value counter (the model's own) -/
  evs : Nat := 0
  nid : Nat := 1
  free : Nat := 0
  /-- readings of lines for L1 fills so far (the model's own) -/
  stamp : Nat := 0
  /-- the events that the panel itself has under way: cycle, event, operands -/
  agenda : List (Nat × Instr × List Nat) := []
  /-- the operands of the event in execution -/
  ev : List Nat := []
  mem : Memory := []
  cores : SMap Core := []
  slices : SMap Slice := []
  clusters : SMap Cluster := []
  hbm : Hbm := {}
  keys : SMap KeySlot := []
  parts : SMap Partition := []
  blocks : SMap Block := []
  launches : SMap Launch := []
  fabric : Fabric := {}
  accs : SMap Access := []
  cur : Cur := {}
  /-- PANEL (R493), as threads read it -/
  panelId : Nat := 0
  nextTag : Nat := 1
  /-- host base and limit of each endpoint (R42) -/
  hostBase : List Nat := [0, 0]
  hostLimit : List Nat := [0, 0]
  /-- the entries that stand in the Ouvpin cores' mailboxes, oldest first; those whose senders wait for a full mailbox; and the number of the
  next entry of each mailbox, by core × 8 + mailbox (R416) -/
  mail : List Mail := []
  mailWait : List Mail := []
  mailSeq : SMap Nat := []
  /-- stores of the front end to host or peer memory that have not been answered: by number, partition and virtual address (R42, R44) -/
  extPuts : SMap (Nat × Nat) := []
  /-- reports that the front end has not yet posted -/
  reports : List Report := []
  outbox : List Out := []
  /-- Svasum ports -/
  svasum : SMap Port := []
  /-- weight-broadcast plans that the Link core holds -/
  plans : List Plan := []
  deriving DecidableEq, Repr

/-! ### The front end -/

/-- A host endpoint and its mailbox (R497, R511, R513). -/
structure Endpoint where
  gts : Nat := 0
  width : Nat := 0
  rqTail : Nat := 0
  rqHead : Nat := 0
  rpTail : Nat := 0
  rpHead : Nat := 0
  rpSeq : Nat := 0
  /-- requests taken from the ring -/
  rqCount : Nat := 0
  /-- report ring slots: type, sequence, payload -/
  ring : SMap (Nat × Nat × List Nat) := []
  /-- reports held for a full ring, oldest first -/
  held : List Report := []
  /-- the request ring's slots as last filled, 64 bytes each -/
  reqs : SMap Nat := []
  /-- agreed mailbox version and features (R499, R500) -/
  agreed : Option (Nat × Nat × Nat) := none
  deriving DecidableEq, Repr

/-- A firmware copy in the flash (R1, R516): its security version, the digest of its image, and the hash of the public key under which each of
its signatures verifies, none for a bad signature. -/
structure FwCopy where
  version : Nat := 0
  digest : Nat := 0
  ecdsa : Option Nat := none
  lms : Option Nat := none
  deriving DecidableEq, Repr

/-- The front-end side: Root, Link and Power (R491-R497, R511-R520). -/
structure Front where
  /-- STATUS fields (R511) -/
  ready : Bool := false
  error : Nat := 0
  progress : Nat := 0
  phase : Nat := 0
  /-- the two firmware copies of the flash and the fused hashes of the two public keys (R1, R516; log 64, DESIGN CHOICE) -/
  flash : List FwCopy := [{ ecdsa := some 0, lms := some 0 }, { ecdsa := some 0, lms := some 0 }]
  keyEcdsa : Nat := 0
  keyLms : Nat := 0
  /-- fused security counter and the running firmware's version (R516) -/
  counter : Nat := 0
  version : Nat := 0
  /-- LMS signatures made (R517) -/
  lmsUsed : Nat := 0
  /-- PANEL once assigned (R493) -/
  assigned : Option Nat := none
  eps : SMap Endpoint := []
  /-- clock steps of 50 MHz below 1.5 GHz, by chiplet; 256 is the front end (R519) -/
  clock : SMap Nat := []
  hot : List Nat := []
  /-- windows of 4 ms under 19 kW since the last raise -/
  cool : Nat := 0
  /-- power tripped off (R520) -/
  off : Bool := false
  /-- logical cores that Umpire has taken out of service since the module was last serviced (R20) -/
  unserved : List Nat := []
  /-- attestation reports and public keys written to host buffers: endpoint, address, bytes -/
  dma : List (Nat × Nat × List Byte) := []
  /-- data of the last BAR2 read: bytes, poisoned, unsupported request (R144, R497) -/
  barRead : Option (List Byte × Bool × Bool) := none
  deriving DecidableEq, Repr

/-- What happens next: an event of the table, the issue of a bundle, the wake of a blocked context, a cycle. The
environment chooses among what the spec leaves unordered (log 2, DESIGN CHOICE). -/
inductive Turn where
  | event (e : Instr) (args : List Nat)
  | issue (core slot : Nat)
  | wake (core slot : Nat)
  | tick
  /-- an Ouvpin core takes the oldest entry of one of its mailboxes (R416) -/
  | mail (to_ box : Nat)
  deriving DecidableEq, Repr

/-- The state of the machine. -/
structure State where
  panel : Panel := {}
  front : Front := {}
  turns : List Turn := []
  deriving DecidableEq, Repr

/-- Reasons a step ends in a fault. -/
inductive Fault where
  /-- The module has tripped its power off (R520): nothing steps any more. Raised by `step`. Safe: the machine has stopped. -/
  | poweredOff
  deriving DecidableEq, Repr

/-- Reasons a step is refused. -/
inductive Refusal where
  /-- The instruction has no meaning in the model yet. Raised by an arm of `exec`. Safe: nothing can be proved of it. -/
  | notModelled (mnemonic : String)
  deriving DecidableEq, Repr

/-- The module right after reset (R7, R98, R138, R512): every register at the Reset column's value, every memory byte 0,
PHASE 0, no partition, no block. -/
def State.reset : State := {}

end Sys2Proof.Machine
end

