-- ==== Sys2Proof/Machine/Bits.lean ====
section
/-! DEFINITION. Bit fields, signed readings, tables and memory bytes: the small helpers every meaning uses. -/

namespace Sys2Proof.Machine

/-- Bits `hi` to `lo` of `n` (R3). -/
def bf (n hi lo : Nat) : Nat := (n >>> lo) % 2 ^ (hi + 1 - lo)

/-- Bit `i` of `n` as a Boolean. -/
def bt (n i : Nat) : Bool := n.testBit i

/-- The signed value of the low `w` bits of `n`. -/
def sgn (w n : Nat) : Int := if 2 ^ (w - 1) ≤ n % 2 ^ w then (n % 2 ^ w : Int) - 2 ^ w else (n % 2 ^ w : Int)

/-- The low `w` bits of an integer, as a natural number. -/
def cut (w : Nat) (v : Int) : Nat := (v % (2 ^ w : Int)).toNat

/-- Sign-extension of the low `w` bits of `n` to 64 bits (R9). -/
def sext64 (w n : Nat) : W := BitVec.ofInt 64 (sgn w n)

/-- A Boolean as a bit. -/
def b2n (b : Bool) : Nat := if b then 1 else 0

/-- `n` with bits `hi` to `lo` replaced by the low bits of `v`. -/
def putBits (n hi lo v : Nat) : Nat :=
  let m := 2 ^ (hi + 1 - lo)
  n - (bf n hi lo) * 2 ^ lo + (v % m) * 2 ^ lo

/-- The quotient rounded up. -/
def cdiv (a b : Nat) : Nat := (a + b - 1) / b

/-! ### Tables -/

/-- The entry of a key, if there is one. -/
def SMap.find {α : Type} : SMap α → Nat → Option α
  | [], _ => none
  | (k, v) :: t, i => if k = i then some v else SMap.find t i

/-- The entry of a key, or a default. -/
def SMap.getD {α : Type} (m : SMap α) (i : Nat) (d : α) : α := (SMap.find m i).getD d

/-- Entry of a key, placed before the first larger key. -/
def SMap.ins {α : Type} (i : Nat) (x : α) : SMap α → SMap α
  | [] => [(i, x)]
  | (k, v) :: t => if i < k then (i, x) :: (k, v) :: t else (k, v) :: SMap.ins i x t

/-- The table without a key. -/
def SMap.del {α : Type} (m : SMap α) (i : Nat) : SMap α := m.filter fun e => e.1 != i

/-- The table with a key's entry replaced. -/
def SMap.set {α : Type} (m : SMap α) (i : Nat) (x : α) : SMap α := SMap.ins i x (SMap.del m i)

/-- The table with a function applied to a key's entry (or to a default). -/
def SMap.upd {α : Type} (m : SMap α) (i : Nat) (d : α) (f : α → α) : SMap α := SMap.set m i (f (SMap.getD m i d))

/-! ### Memory bytes (R4) -/

/-- The byte at an address; an unlisted address reads 0 (log 1, DESIGN CHOICE). -/
def Memory.get : Memory → Nat → Byte
  | [], _ => 0
  | (k, b) :: t, a => if k = a then b else if a < k then 0 else Memory.get t a

/-- The list with one byte written, kept rising and without zeros. An entry that goes takes with it what it hid in a list out of order,
so that every other address reads as before whatever the list. -/
def Memory.set : Memory → Nat → Byte → Memory
  | [], a, b => if b = 0 then [] else [(a, b)]
  | (k, c) :: t, a, b =>
    if a < k then (if b = 0 then (k, c) :: t else (a, b) :: (k, c) :: t)
    else if a = k then (if b = 0 then t.dropWhile fun e => decide (e.1 ≤ a) else (a, b) :: t)
    else (k, c) :: Memory.set t a b

/-- The canonical form: rising addresses from `lo` on, no zero byte. -/
def Memory.wfFrom : Nat → Memory → Bool
  | _, [] => true
  | lo, (k, b) :: t => decide (lo ≤ k) && b != 0 && Memory.wfFrom (k + 1) t

/-- Memory is in canonical form. -/
def Memory.wf (m : Memory) : Bool := Memory.wfFrom 0 m

/-- `n` bytes from `a` as one little-endian number (R4). -/
def Memory.readN (m : Memory) (a : Nat) : Nat → Nat
  | 0 => 0
  | n + 1 => (Memory.get m a).toNat + 256 * Memory.readN m (a + 1) n

/-- The low `n` bytes of `v` written from `a` up, little-endian (R4). -/
def Memory.writeN (m : Memory) (a : Nat) : Nat → Nat → Memory
  | 0, _ => m
  | n + 1, v => Memory.writeN (Memory.set m a (BitVec.ofNat 8 v)) (a + 1) n (v / 256)

/-- The bytes of a number, lowest first. -/
def toBytes : Nat → Nat → List Byte
  | 0, _ => []
  | n + 1, v => BitVec.ofNat 8 v :: toBytes n (v / 256)

/-- The number that bytes hold, lowest first. -/
def ofBytes : List Byte → Nat
  | [] => 0
  | b :: t => b.toNat + 256 * ofBytes t

/-- Bits of memory: `w` bits from bit address `ba`, where bit n is bit n mod 8 of byte n div 8 (R86). -/
def Memory.readBits (m : Memory) (ba w : Nat) : Nat :=
  (Memory.readN m (ba / 8) ((ba % 8 + w + 7) / 8) >>> (ba % 8)) % 2 ^ w

/-- `w` bits written at bit address `ba`, every other bit kept (R87). -/
def Memory.writeBits (m : Memory) (ba w v : Nat) : Memory :=
  let n := (ba % 8 + w + 7) / 8
  let old := Memory.readN m (ba / 8) n
  Memory.writeN m (ba / 8) n (putBits old (ba % 8 + w - 1) (ba % 8) v)

/-- A run of bytes copied to a list. -/
def Memory.bytes (m : Memory) (a n : Nat) : List Byte := toBytes n (Memory.readN m a n)

/-- A run of zero bytes written: every listed byte of the run goes. -/
def Memory.clear (m : Memory) (a n : Nat) : Memory := m.filter fun c => !(decide (a ≤ c.1) && decide (c.1 < a + n))

/-- The listed bytes of a run, moved to start at `to_`. -/
def Memory.slice (m : Memory) (a n to_ : Nat) : Memory :=
  (m.filter fun c => decide (a ≤ c.1) && decide (c.1 < a + n)).map fun c => (c.1 - a + to_, c.2)

/-- A run replaced by the listed bytes of another memory, whose addresses count from the start of the run. -/
def Memory.restore (m : Memory) (a n : Nat) (img : Memory) : Memory :=
  img.foldl (fun acc c => if c.1 < n then Memory.set acc (a + c.1) c.2 else acc) (Memory.clear m a n)

/-! ### Places in the one memory (log 1, DESIGN CHOICE) -/

/-- Address of local-memory byte `p` of logical core `lc`. -/
def lmA (lc p : Nat) : Nat := 2 ^ 52 + lc * 2 ^ 18 + p

/-- Address of register-space byte `o` of logical core `lc`; the accumulator buffer is at 0x1_0000 (R233). -/
def rsA (lc o : Nat) : Nat := 2 ^ 53 + lc * 2 ^ 17 + o

/-- The base-2 logarithm, rounded down. -/
def lg (n : Nat) : Nat := Nat.log2 n

/-- Elements `lo` to `lo + n - 1` of the naturals. -/
def upto (lo n : Nat) : List Nat := (List.range n).map (· + lo)

end Sys2Proof.Machine
end

