-- ==== Sys2Proof/Machine/Flags.lean ====
section
/-! DEFINITION. Conditions and comparisons. The XG-3 keeps a FLAGS field with each context (R100, R204), which no
instruction of the spec reads or writes: scalar instructions read and write no flags (R280) and floating point keeps none
(R50). What decides is computed from operands: the branch conditions (R281) and integer comparisons (R276, R343). -/

namespace Sys2Proof.Machine

/-- Branch conditions by major opcode 0x00 to 0x05 (R281). -/
def condEq (a b : W) : Bool := a == b
def condNe (a b : W) : Bool := a != b
def condLt (a b : W) : Bool := a.slt b
def condGe (a b : W) : Bool := !(a.slt b)
def condLtn (a b : W) : Bool := a.ult b
def condGen (a b : W) : Bool := !(a.ult b)

/-- Value of an integer lane of `n` bits under its signedness (R51). -/
def laneVal (n : Nat) (unsigned : Bool) (x : Nat) : Int := if unsigned then (x % 2 ^ n : Int) else sgn n x

/-- An exact integer reduced to a lane: wrapped, or with saturation the nearest end of its range (R52). -/
def reduce (n : Nat) (unsigned sat : Bool) (v : Int) : Nat :=
  if !sat then cut n v
  else if unsigned then (if v < 0 then 0 else if (2 ^ n : Int) - 1 < v then 2 ^ n - 1 else v.toNat)
  else if v < -(2 ^ (n - 1) : Int) then 2 ^ (n - 1)
  else if (2 ^ (n - 1) : Int) - 1 < v then 2 ^ (n - 1) - 1
  else cut n v

/-- VCMP's condition code on integers: 0 EQ, 1 NE, 2 LT, 3 LE (R261, R343). -/
def cmpInt (cond : Nat) (a b : Int) : Bool :=
  match cond with
  | 0 => a == b
  | 1 => a != b
  | 2 => decide (a < b)
  | _ => decide (a ≤ b)

/-- Zero bits above the highest set bit of a 64-bit value (R276). -/
def clz64 (n : Nat) : Nat := if n = 0 then 64 else 63 - Nat.log2 n

/-- Zero bits below the lowest set bit, looking at `k` more bits. -/
def ctzGo : Nat → Nat → Nat
  | 0, _ => 0
  | k + 1, n => if n % 2 = 1 then 0 else 1 + ctzGo k (n / 2)

/-- Zero bits below the lowest set bit of a 64-bit value (R276). -/
def ctz64 (n : Nat) : Nat := if n = 0 then 64 else ctzGo 64 n

/-- Set bits among the low `k`. -/
def popGo : Nat → Nat → Nat
  | 0, _ => 0
  | k + 1, n => n % 2 + popGo k (n / 2)

end Sys2Proof.Machine
end

