-- ==== Sys2Proof/Machine/Float.lean ====
section
/-! DEFINITION. Floating point: values are exact (a sign, a natural number and a power of two), every operation is exact and
rounded once (R48-R58, R339-R342). -/

namespace Sys2Proof.Machine

/-- A binary format: exponent bits and fraction bits (R48). -/
structure Fmt where
  eb : Nat
  fb : Nat
  deriving DecidableEq, Repr

/-- The floating-point formats by AV fmt 0..3: FP64, FP32, BF16, FP16 (R48, R256). -/
def fpFmt (f : Nat) : Fmt :=
  match f with
  | 0 => ⟨11, 52⟩
  | 1 => ⟨8, 23⟩
  | 2 => ⟨8, 7⟩
  | _ => ⟨5, 10⟩

def Fmt.bias (f : Fmt) : Nat := 2 ^ (f.eb - 1) - 1
def Fmt.width (f : Fmt) : Nat := 1 + f.eb + f.fb
/-- Bits of +infinity. -/
def Fmt.infBits (f : Fmt) : Nat := (2 ^ f.eb - 1) * 2 ^ f.fb
/-- The canonical quiet NaN (R48, R50). -/
def Fmt.qnan (f : Fmt) : Nat := f.infBits + 2 ^ (f.fb - 1)
def Fmt.signBit (f : Fmt) : Nat := 2 ^ (f.eb + f.fb)

/-- A floating-point datum: a NaN, an infinity, or ±m × 2^e. -/
inductive FVal where
  | nan
  | inf (neg : Bool)
  | fin (neg : Bool) (m : Nat) (e : Int)
  deriving DecidableEq, Repr

/-- The datum that bits denote (R48). -/
def unpack (f : Fmt) (n : Nat) : FVal :=
  let s := bt n (f.eb + f.fb)
  let ex := bf n (f.eb + f.fb - 1) f.fb
  let fr := n % 2 ^ f.fb
  if ex = 2 ^ f.eb - 1 then (if fr = 0 then .inf s else .nan)
  else if ex = 0 then .fin s fr (1 - (f.bias : Int) - f.fb)
  else .fin s (2 ^ f.fb + fr) ((ex : Int) - f.bias - f.fb)

/-- Does a magnitude go up? rounding mode, sign, retained low bit, and the remainder against half: R53. -/
def roundUp (mode : Nat) (neg odd : Bool) (rem half : Nat) : Bool :=
  match mode with
  | 0 => decide (half < rem) || (rem == half && odd)
  | 1 => false
  | 2 => !neg && rem != 0
  | _ => neg && rem != 0

/-- m × 2^(-sh), sh ≥ 0, rounded to an integer. -/
def roundShift (mode : Nat) (neg : Bool) (m sh : Nat) : Nat :=
  if sh = 0 then m
  else
    let q := m / 2 ^ sh
    if roundUp mode neg (q % 2 == 1) (m % 2 ^ sh) (2 ^ (sh - 1)) then q + 1 else q

/-- Overflow by mode and sign (R56). -/
def overflowBits (f : Fmt) (mode : Nat) (neg : Bool) : Nat :=
  let toInf := match mode with | 0 => true | 1 => false | 2 => !neg | _ => neg
  (if neg then f.signBit else 0) + (if toInf then f.infBits else f.infBits - 1)

/-- ±m × 2^e rounded once to a format (R53, R56). -/
def roundFp (f : Fmt) (mode : Nat) (neg : Bool) (m : Nat) (e : Int) : Nat :=
  let sg := if neg then f.signBit else 0
  if m = 0 then sg
  else
    let top : Int := e + Nat.log2 m
    let emin : Int := 1 - (f.bias : Int)
    let q : Int := max top emin - f.fb
    if (f.bias : Int) + 1 < top then overflowBits f mode neg
    else
      let sig := if q ≤ e then m * 2 ^ (e - q).toNat else roundShift mode neg m (q - e).toNat
      let bits := if sig < 2 ^ f.fb then sig else ((q + f.fb + f.bias).toNat) * 2 ^ f.fb + (sig - 2 ^ f.fb)
      if f.infBits ≤ bits then overflowBits f mode neg else sg + bits

/-- A datum rounded to a format. -/
def pack (f : Fmt) (mode : Nat) : FVal → Nat
  | .nan => f.qnan
  | .inf s => (if s then f.signBit else 0) + f.infBits
  | .fin s m e => roundFp f mode s m e

def FVal.neg : FVal → FVal
  | .nan => .nan
  | .inf s => .inf (!s)
  | .fin s m e => .fin (!s) m e

/-- The exact product. -/
def FVal.mul : FVal → FVal → FVal
  | .nan, _ => .nan
  | _, .nan => .nan
  | .inf s, .inf t => .inf (s != t)
  | .inf s, .fin t m _ => if m = 0 then .nan else .inf (s != t)
  | .fin s m _, .inf t => if m = 0 then .nan else .inf (s != t)
  | .fin s m e, .fin t n g => .fin (s != t) (m * n) (e + g)

/-- The least exponent among finite terms. -/
def minExp : List FVal → Int → Int
  | [], e => e
  | .fin _ _ g :: t, e => minExp t (min g e)
  | _ :: t, e => minExp t e

/-- The sum of finite terms in units of 2^e. -/
def sumInt (e : Int) : List FVal → Int
  | [] => 0
  | .fin s m g :: t => (if s then -1 else 1) * ((m * 2 ^ (g - e).toNat : Nat) : Int) + sumInt e t
  | _ :: t => sumInt e t

def isNegZero : FVal → Bool
  | .fin true 0 _ => true
  | _ => false

/-- The exact sum of terms (R49, R50, R76); `rdn` gives an exact zero sum of mixed signs the sign −. -/
def sumAll (rdn : Bool) (ts : List FVal) : FVal :=
  if ts.contains .nan then .nan
  else if ts.contains (.inf true) then (if ts.contains (.inf false) then .nan else .inf true)
  else if ts.contains (.inf false) then .inf false
  else
    let e := minExp ts 0
    let v := sumInt e ts
    if v = 0 then .fin (if ts.all isNegZero then true else if ts.all (fun t => match t with | .fin false 0 _ => true | _ => false) then false else rdn) 0 0
    else .fin (decide (v < 0)) v.natAbs e

/-- x + y, x × y and x × y + z rounded once (R56). -/
def fpAdd (f : Fmt) (mode x y : Nat) : Nat := pack f mode (sumAll (mode == 3) [unpack f x, unpack f y])
def fpSub (f : Fmt) (mode x y : Nat) : Nat := pack f mode (sumAll (mode == 3) [unpack f x, (unpack f y).neg])
def fpMul (f : Fmt) (mode x y : Nat) : Nat := pack f mode ((unpack f x).mul (unpack f y))
def fpFma (f : Fmt) (mode x y z : Nat) (negP negZ : Bool) : Nat :=
  let pr := (unpack f x).mul (unpack f y)
  let z' := unpack f z
  pack f mode (sumAll (mode == 3) [if negP then pr.neg else pr, if negZ then z'.neg else z'])

/-- Order of finite or infinite data, −0 below +0: negative when x < y. -/
def fcmp (zeros : Bool) : FVal → FVal → Ordering
  | .nan, _ => .eq
  | _, .nan => .eq
  | .inf s, .inf t => if s = t then .eq else if s then .lt else .gt
  | .inf s, .fin .. => if s then .lt else .gt
  | .fin .., .inf t => if t then .gt else .lt
  | .fin s m e, .fin t n g =>
    let k := min e g
    let v := sumInt k [.fin s m e]
    let w := sumInt k [.fin t n g]
    if v < w then .lt else if w < v then .gt
    else if zeros && m == 0 && s != t then (if s then .lt else .gt) else .eq

/-- VMIN and VMAX (R339): any NaN gives the canonical NaN; −0 counts as less than +0. -/
def fpMin (f : Fmt) (x y : Nat) : Nat :=
  if unpack f x = .nan ∨ unpack f y = .nan then f.qnan else if fcmp true (unpack f y) (unpack f x) = .lt then y else x
def fpMax (f : Fmt) (x y : Nat) : Nat :=
  if unpack f x = .nan ∨ unpack f y = .nan then f.qnan else if fcmp true (unpack f x) (unpack f y) = .lt then y else x

/-- VCMP on floating-point lanes (R343). -/
def cmpFp (f : Fmt) (cond x y : Nat) : Bool :=
  let a := unpack f x
  let b := unpack f y
  if a = .nan ∨ b = .nan then cond == 1
  else
    match cond with
    | 0 => fcmp false a b == .eq
    | 1 => fcmp false a b != .eq
    | 2 => fcmp false a b == .lt
    | _ => fcmp false a b != .gt

/-! ### Conversions (R57, R58) -/

/-- An exact integer as a datum. -/
def ofIntVal (v : Int) : FVal := .fin (decide (v < 0)) v.natAbs 0

/-- A finite datum rounded to an integer. -/
def roundInt (mode : Nat) (neg : Bool) (m : Nat) (e : Int) : Int :=
  let mag := if 0 ≤ e then m * 2 ^ e.toNat else roundShift mode neg m (-e).toNat
  if neg then -(mag : Int) else mag

/-- Floating point to an integer lane (R57). -/
def fpToInt (n : Nat) (unsigned sat : Bool) (mode : Nat) : FVal → Nat
  | .nan => 0
  | .inf s => reduce n unsigned true (if s then -(2 ^ 70 : Int) else 2 ^ 70)
  | .fin s m e => reduce n unsigned sat (roundInt mode s m e)

/-! ### Elementary functions (R342) -/

/-- Integer square root, bit by bit from bit `k - 1`. -/
def isqrt : Nat → Nat → Nat → Nat
  | 0, r, _ => r
  | k + 1, r, n => if (r + 2 ^ k) * (r + 2 ^ k) ≤ n then isqrt k (r + 2 ^ k) n else isqrt k r n

/-- A quotient with a sticky low bit: num / den in units of 2^-1. -/
def stickyDiv (num den : Nat) : Nat := 2 * (num / den) + (if num % den = 0 then 0 else 1)

/-- 1 / x (R342). -/
def fpRcp (f : Fmt) (mode x : Nat) : Nat :=
  match unpack f x with
  | .nan => f.qnan
  | .inf s => if s then f.signBit else 0
  | .fin s m e =>
    if m = 0 then (if s then f.signBit else 0) + f.infBits
    else roundFp f mode s (stickyDiv (2 ^ 200) m) (-e - 201)

/-- 1 / √x (R342). -/
def fpRsq (f : Fmt) (mode x : Nat) : Nat :=
  match unpack f x with
  | .nan => f.qnan
  | .inf s => if s then f.qnan else 0
  | .fin s m e =>
    if m = 0 then (if s then f.signBit else 0) + f.infBits
    else if s then f.qnan
    else
      let odd := e % 2 ≠ 0
      let m' := if odd then 2 * m else m
      let e' := if odd then e - 1 else e
      let n := 2 ^ 400 / m'
      let r := isqrt 201 0 n
      roundFp f mode false (2 * r + (if r * r * m' = 2 ^ 400 then 0 else 1)) (-(e' / 2) - 201)

/-- Bits after the point in the interval evaluation below. -/
def fixP : Nat := 256

/-- Terms z^(2i+1) / (2i+1), from the power `zp`, in fixed point: the series of atanh. -/
def atanhGo : Nat → Nat → Nat → Nat → Nat
  | 0, _, _, _ => 0
  | k + 1, i, zp, z2 => zp / (2 * i + 1) + atanhGo k (i + 1) (zp * z2 / 2 ^ fixP) z2

/-- ln 2 = 2 atanh(1/3), in fixed point, low by fewer than 2^9 units. -/
def ln2 : Nat := 2 * atanhGo 90 0 (2 ^ fixP / 3) (2 ^ fixP / 9)

/-- Terms y^i / i! in fixed point. -/
def expGo : Nat → Nat → Nat → Nat → Nat
  | 0, _, _, _ => 0
  | k + 1, i, t, y => t + expGo k (i + 1) (t * y / 2 ^ fixP / (i + 1)) y

/-- A value known to lie between lo and hi times 2^e, rounded, or none when the two ends round apart. -/
def roundBetween (f : Fmt) (mode : Nat) (neg : Bool) (lo hi : Nat) (e : Int) : Option Nat :=
  let a := roundFp f mode neg lo e
  if a = roundFp f mode neg hi e then some a else none

/-- 2^x rounded once (R342). -/
def fpExp2 (code : Nat) (f : Fmt) (mode x : Nat) : Nat :=
  match unpack f x with
  | .nan => f.qnan
  | .inf s => if s then 0 else f.infBits
  | .fin s m e =>
    if m = 0 then roundFp f mode false 1 0
    else
      let top : Int := e + Nat.log2 m
      if 12 ≤ top then (if s then roundFp f mode false 1 (-100000) else overflowBits f mode false)
      else if top < -100 then roundFp f mode false (if s then 2 ^ 150 - 1 else 2 ^ 150 + 1) (-150)
      else
        -- x as floor and fraction in units of 2^-k
        let k := (max 0 (-e)).toNat
        let v : Int := (if s then -1 else 1) * ((m * 2 ^ (max 0 e).toNat : Nat) : Int)
        let fl := v / (2 ^ k : Nat)
        let fr := (v % (2 ^ k : Nat)).toNat
        if fr = 0 then roundFp f mode false 1 fl
        else
          let y := fr * ln2 / 2 ^ k
          let r := expGo 80 0 (2 ^ fixP) y
          match roundBetween f mode false (r - 2 ^ 16) (r + 2 ^ 16) (fl - fixP) with
          | some b => b
          | none => Config.transcendental 6 code mode x

/-- log2 x rounded once (R342). -/
def fpLog2 (code : Nat) (f : Fmt) (mode x : Nat) : Nat :=
  match unpack f x with
  | .nan => f.qnan
  | .inf s => if s then f.qnan else f.infBits
  | .fin s m e =>
    if m = 0 then f.signBit + f.infBits
    else if s then f.qnan
    else
      let l := Nat.log2 m
      let ex : Int := e + l
      if m = 2 ^ l then pack f mode (ofIntVal ex)
      else
        let t := m * 2 ^ fixP / 2 ^ l
        let z := (t - 2 ^ fixP) * 2 ^ fixP / (t + 2 ^ fixP)
        let lnT := 2 * atanhGo 90 0 z (z * z / 2 ^ fixP)
        let lg2 := lnT * 2 ^ fixP / ln2
        let lo : Int := ex * (2 ^ fixP : Nat) + lg2 - (2 ^ 16 : Nat)
        let hi : Int := ex * (2 ^ fixP : Nat) + lg2 + (2 ^ 16 : Nat)
        if 0 < lo then
          match roundBetween f mode false lo.toNat hi.toNat (-fixP) with
          | some b => b
          | none => Config.transcendental 7 code mode x
        else if hi < 0 then
          match roundBetween f mode true (-hi).toNat (-lo).toNat (-fixP) with
          | some b => b
          | none => Config.transcendental 7 code mode x
        else Config.transcendental 7 code mode x

/-! ### Block floating point (R67-R72) -/

/-- Exponent of the unit of a block of an INT8 or BFP code at scale s (R67). -/
def unitExp (code s : Nat) : Int :=
  if code = 0x08 then (s : Int) - 127 else (s : Int) - 127 - ((code : Int) - 0x12)

/-- The datum of an element with its block's code and scale (R48, R67, R68). -/
def elemVal (code s raw : Nat) : FVal :=
  match code with
  | 0x01 => unpack (fpFmt 0) raw
  | 0x02 => unpack (fpFmt 1) raw
  | 0x03 => unpack (fpFmt 2) raw
  | 0x04 => unpack (fpFmt 3) raw
  | _ =>
    if s = 255 then .nan
    else if s = 0 then .fin false 0 0
    else
      let b := if code = 0x08 then 8 else code - 0x10
      let v := sgn b raw
      .fin (decide (v < 0)) v.natAbs (unitExp code s)

/-- x / unit(s) rounded to an integer; none for an infinity (R69). -/
def quotRound (mode : Nat) (u : Int) : FVal → Option Int
  | .fin s m e => some (roundInt mode s m (e - u))
  | _ => none

/-- Every rounded quotient lies in the mantissa range of b bits (R69). -/
def fitsScale (mode b : Nat) (u : Int) (xs : List FVal) : Bool :=
  xs.all fun x =>
    match quotRound mode u x with
    | some v => decide (-(2 ^ (b - 1) : Int) ≤ v) && decide (v ≤ (2 ^ (b - 1) : Int) - 1)
    | none => false

/-- The smallest fitting scale from s on, at most 254 (R69). -/
def findScale (mode b code : Nat) (xs : List FVal) : Nat → Nat → Nat
  | 0, s => s
  | k + 1, s => if s < 254 && !fitsScale mode b (unitExp code s) xs then findScale mode b code xs k (s + 1) else s

/-- A mantissa clamped to b bits (R69). -/
def clampB (b : Nat) (v : Int) : Int := max (-(2 ^ (b - 1) : Int)) (min v ((2 ^ (b - 1) : Int) - 1))

/-- A block from a code, a scale and mantissas; pad bits 0 (R61, R64, R70). -/
def mkBlock (code s : Nat) (ms : List Nat) : Nat := code + 256 * s + 65536 * ofBits (if code = 0x08 then 8 else code - 0x10) ms
where
  /-- fields of b bits, lowest first -/
  ofBits (b : Nat) : List Nat → Nat
    | [] => 0
    | x :: t => x % 2 ^ b + 2 ^ b * ofBits b t

/-- Quantisation (R69, R70). -/
def quantise (mode code : Nat) (xs : List FVal) : Nat :=
  let b := if code = 0x08 then 8 else code - 0x10
  if xs.contains .nan then mkBlock code 255 (xs.map fun _ => 0)
  else if xs.all (fun x => match x with | .fin _ 0 _ => true | _ => false) then mkBlock code 0 (xs.map fun _ => 0)
  else
    let s := findScale mode b code xs 254 1
    mkBlock code s (xs.map fun x =>
      match x with
      | .inf sg => cut b (clampB b (if sg then -(2 ^ 40 : Int) else 2 ^ 40))
      | .fin sg m e => cut b (clampB b (roundInt mode sg m (e - unitExp code s)))
      | .nan => 0)

/-- Rescaling of a block's mantissas (R72). -/
def rescale (mode code s s2 : Nat) (ms : List Nat) : Nat :=
  let b := if code = 0x08 then 8 else code - 0x10
  if s = 255 ∨ s2 = 255 then mkBlock code 255 (ms.map fun _ => 0)
  else if s = 0 ∨ s2 = 0 then mkBlock code 0 (ms.map fun _ => 0)
  else
    mkBlock code s2 (ms.map fun raw =>
      let v := sgn b raw
      cut b (clampB b (roundInt mode (decide (v < 0)) v.natAbs ((s : Int) - s2))))

end Sys2Proof.Machine
end

