-- ==== Sys2Proof/WellFormed.lean ====
section
/-! DEFINITION. Which instructions are well formed: the limits on fields that the formats alone do not give (R252, R256,
R286, R302, R307, R319, R332, R334, R340-R342, R347-R352, R359, R387, R243). A step of the machine that no word encodes has no field. -/

namespace Sys2Proof

/-- Lane width in bits of an AV fmt (R256). -/
def laneBits (f : Nat) : Nat :=
  match f with
  | 0 => 64
  | 1 => 32
  | 2 => 16
  | 3 => 16
  | 4 => 8
  | 5 => 16
  | 6 => 32
  | _ => 64

/-- A FUSE mask: two to four set bits in one run (R286). -/
def fuseMaskOk (m : BitVec 4) : Bool := m == 3 || m == 6 || m == 12 || m == 7 || m == 14 || m == 15

/-- An atomic's annotations: no reserved scope, and scope 0 without ACQ and REL (R302). -/
def scopeOk (q r : BitVec 1) (s : BitVec 3) : Bool := s.toNat ≤ 5 && (q == 1 || r == 1 || s == 0)

/-- A FENCE's sets are not empty and its scope is not reserved (R307). -/
def fenceOk (f : BitVec 4) (s : BitVec 3) : Bool := f.toNat / 4 != 0 && f.toNat % 4 != 0 && s.toNat ≤ 5

/-- For integer lanes the rnd field is 0b00 or 0b10 (R256). -/
def laneOk (f : BitVec 3) (r : BitVec 2) : Bool := f.toNat < 4 || r == 0 || r == 2

/-- An instruction that does not round: rnd is zero with floating-point lanes (R332). -/
def plainOk (f : BitVec 3) (r : BitVec 2) : Bool := if f.toNat < 4 then r == 0 else laneOk f r

/-- Signedness bits of a conversion apply to integer sides only (R350). -/
def cvtOk (f : BitVec 3) (b : BitVec 5) : Bool :=
  (4 ≤ b.toNat % 8 || b.toNat / 8 % 2 == 0) && (4 ≤ f.toNat || b.toNat / 16 == 0)

/-- The target of VQNT: b in 2..8, and 8 for INT8 (R352). -/
def qntOk (b : BitVec 5) : Bool :=
  2 ≤ b.toNat % 16 && b.toNat % 16 ≤ 8 && (b.toNat / 16 == 0 || b.toNat % 16 == 8)

/-- The well-formed instructions. -/
def Instr.wf : Instr → Bool
  | .beq a b o => a != 0 || b != 0 || o != 0
  | .bne _ _ _ => true
  | .blt _ _ _ => true
  | .bge _ _ _ => true
  | .bltn _ _ _ => true
  | .bgen _ _ _ => true
  | .jal _ => true
  | .jalr _ _ => true
  | .lpc _ => true
  | .loop _ _ => true
  | .nop => true
  | .exit => true
  | .yield => true
  | .fuse _ m => fuseMaskOk m
  | .split => true
  | .brk _ => true
  | .trap _ => true
  | .eret => true
  | .ldB _ _ _ => true
  | .ldH _ _ _ => true
  | .ldW _ _ _ => true
  | .ldD _ _ _ => true
  | .ldBz _ _ _ => true
  | .ldHz _ _ _ => true
  | .ldWz _ _ _ => true
  | .ldx _ _ _ _ s => s != 7
  | .pf _ _ _ => true
  | .migr => true
  | .stB _ _ _ => true
  | .stH _ _ _ => true
  | .stW _ _ _ => true
  | .stD _ _ _ => true
  | .stx _ _ _ _ _ => true
  | .ldbt _ _ _ _ => true
  | .stbt _ _ _ => true
  | .ldsy _ _ => true
  | .ldsyTake _ _ => true
  | .stfl _ _ => true
  | .feclr _ _ => true
  | .amoadd _ _ _ q r s _ => scopeOk q r s
  | .amoswp _ _ _ q r s _ => scopeOk q r s
  | .amocas _ _ _ q r s _ => scopeOk q r s
  | .amoand _ _ _ q r s _ => scopeOk q r s
  | .amoor _ _ _ q r s _ => scopeOk q r s
  | .amoxor _ _ _ q r s _ => scopeOk q r s
  | .amomin _ _ _ q r s _ => scopeOk q r s
  | .amomax _ _ _ q r s _ => scopeOk q r s
  | .amominn _ _ _ q r s _ => scopeOk q r s
  | .amomaxn _ _ _ q r s _ => scopeOk q r s
  | .amofadd _ _ _ q r s _ => scopeOk q r s
  | .fence f s _ => fenceOk f s
  | .barinit _ _ _ => true
  | .bararr _ => true
  | .barwait _ => true
  | .barexp _ _ => true
  | .bartest _ _ => true
  | .waitc _ _ _ _ => true
  | .hold _ => true
  | .send _ _ n => n != 0
  | .sendh _ _ n => n != 0 && n.toNat ≤ 9
  | .mcast _ _ n => n != 0
  | .mcrd _ _ _ _ => true
  | .ringwait _ => true
  | .ringpop _ _ => true
  | .rhops _ _ => true
  | .rcopy _ _ _ _ => true
  | .l2pf _ _ _ => true
  | .l2drop _ _ => true
  | .twperm _ => true
  | .estat _ e => e.toNat ≤ 10
  | .rcopy2d _ _ _ _ => true
  | .twalk _ _ _ => true
  | .twalkWb _ _ => true
  | .hlease _ _ => true
  | .hfree => true
  | .hzero _ => true
  | .hlda _ _ _ => true
  | .hldb _ _ _ => true
  | .hldbt _ _ _ => true
  | .hrot => true
  | .hmma => true
  | .hmmar => true
  | .hstc _ _ _ => true
  | .haccRd _ _ _ => true
  | .haccWr _ _ _ => true
  | .tld _ _ _ _ => true
  | .tst _ _ _ _ => true
  | .tldt _ _ _ _ => true
  | .tstt _ _ _ _ => true
  | .opatch _ _ => true
  | .ocfg _ _ _ => true
  | .oset _ _ => true
  | .oget _ _ => true
  | .orun _ _ _ => true
  | .ostop _ => true
  | .osave _ _ => true
  | .orest _ _ => true
  | .ostat _ _ => true
  | .oinj _ _ => true
  | .vld _ _ _ h _ => h != 7
  | .vst _ _ _ h _ => h != 7
  | .vldb _ _ _ h _ => h != 7
  | .vldx _ _ _ _ _ _ _ => true
  | .vstx _ _ _ _ _ _ _ => true
  | .vldbt _ _ _ _ => true
  | .vstbt _ _ _ _ => true
  | .qpush _ q => 8 ≤ q.toNat
  | .qpop _ q => 8 ≤ q.toNat || q.toNat ≤ 1 || q == 3 || q == 4
  | .qpeek _ q => 8 ≤ q.toNat || q.toNat ≤ 1 || q == 3 || q == 4
  | .qlen _ q => 8 ≤ q.toNat || q.toNat ≤ 4
  | .shld _ _ => true
  | .shst _ _ => true
  | .shset _ _ f => f.toNat ≤ 18
  | .shsetg _ _ f => f.toNat ≤ 18
  | .shget _ _ f => f.toNat ≤ 18
  | .vwset _ w => w != 3
  | .vwget _ w => w != 3
  | .crrd _ _ => true
  | .crwr _ _ => true
  | .crset _ _ => true
  | .crclr _ _ => true
  | .ckpt => true
  | .icinv _ _ => true
  | .tlbinv _ _ => true
  | .halt => true
  | .add _ _ _ => true
  | .sub _ _ _ => true
  | .mul _ _ _ => true
  | .mulh _ _ _ => true
  | .mulhn _ _ _ => true
  | .div _ _ _ => true
  | .divn _ _ _ => true
  | .rem _ _ _ => true
  | .remn _ _ _ => true
  | .and _ _ _ => true
  | .or _ _ _ => true
  | .xor _ _ _ => true
  | .shl _ _ _ => true
  | .shr _ _ _ => true
  | .sra _ _ _ => true
  | .slt _ _ _ => true
  | .sltn _ _ _ => true
  | .min _ _ _ => true
  | .max _ _ _ => true
  | .minn _ _ _ => true
  | .maxn _ _ _ => true
  | .clz _ _ => true
  | .ctz _ _ => true
  | .popc _ _ => true
  | .sel _ _ _ => true
  | .bext _ _ _ _ => true
  | .bins _ _ _ _ => true
  | .addi _ _ _ => true
  | .andi _ _ _ => true
  | .ori _ _ _ => true
  | .xori _ _ _ => true
  | .slti _ _ _ => true
  | .lui _ _ => true
  | .shli _ _ _ => true
  | .shri _ _ _ => true
  | .srai _ _ _ => true
  | .vadd _ _ _ f _ r _ => laneOk f r
  | .vsub _ _ _ f _ r _ => laneOk f r
  | .vmul _ _ _ f _ r _ => laneOk f r
  | .vfma _ _ _ f _ r _ => laneOk f r
  | .vfms _ _ _ f _ r _ => laneOk f r
  | .vfnma _ _ _ f _ r _ => laneOk f r
  | .vmin _ _ _ f _ r _ => laneOk f r
  | .vmax _ _ _ f _ r _ => laneOk f r
  | .vand _ _ _ f _ r => 4 ≤ f.toNat && laneOk f r
  | .vor _ _ _ f _ r => 4 ≤ f.toNat && laneOk f r
  | .vxor _ _ _ f _ r => 4 ≤ f.toNat && laneOk f r
  | .vshl _ _ _ f _ r _ => 4 ≤ f.toNat && laneOk f r
  | .vshr _ _ _ f _ r => 4 ≤ f.toNat && laneOk f r
  | .vsra _ _ _ f _ r => 4 ≤ f.toNat && laneOk f r
  | .vcmp _ _ _ _ f _ r => plainOk f r
  | .vsel _ _ _ f _ r => plainOk f r
  | .vbcast _ _ f _ r => plainOk f r
  | .vins _ _ _ f _ r => plainOk f r
  | .vext _ _ _ f r => plainOk f r
  | .vperm _ _ _ f _ r => plainOk f r
  | .vshuf _ _ _ f _ r => plainOk f r
  | .vred _ _ o f _ r _ => o.toNat ≤ 5 && (o.toNat ≤ 2 || 4 ≤ f.toNat) && laneOk f r
  | .vscan _ _ o f _ r _ => o.toNat ≤ 5 && (o.toNat ≤ 2 || 4 ≤ f.toNat) && laneOk f r
  | .vdot _ _ _ f _ r _ => 2 ≤ f.toNat && f.toNat ≤ 5 && laneOk f r
  | .vmov _ _ f _ r => plainOk f r
  | .vabs _ _ f _ r s => if f.toNat < 4 then r == 0 && s == 0 else laneOk f r
  | .vneg _ _ f _ r s => if f.toNat < 4 then r == 0 && s == 0 else laneOk f r
  | .vnot _ _ f _ r => 4 ≤ f.toNat && laneOk f r
  | .vrcp _ _ f _ _ _ => f.toNat < 4
  | .vrsq _ _ f _ _ _ => f.toNat < 4
  | .vexp2 _ _ f _ _ _ => f.toNat < 4
  | .vlog2 _ _ f _ _ _ => f.toNat < 4
  | .mset _ _ _ => true
  | .mand _ _ _ => true
  | .mor _ _ _ => true
  | .mnot _ _ => true
  | .vcvt _ _ b f _ _ _ => cvtOk f b
  | .vqnt _ _ b _ _ => qntOk b
  | .vdqnt _ _ _ _ => true
  | .vrscale _ _ _ _ _ => true
  | .vpack _ _ b f _ _ _ => cvtOk f b && laneBits f.toNat < laneBits (b.toNat % 8)
  | .vunpk _ _ b f _ _ _ => cvtOk f b && laneBits (b.toNat % 8) < laneBits f.toNat
  | .ogetVector _ _ f _ => f.toNat ≤ 2
  | .osetVector _ _ f _ => f.toNat ≤ 2
  | .divResult => true
  | .issueGapEnd => true
  | .holdEnd => true
  | .fuseTimeout => true
  | .barrierStaggerEnd => true
  | .migrateAfterStall => true
  | .waitTableRetry => true
  | .retentionEntry => true
  | .bankWake => true
  | .remoteAccessArrival => true
  | .remoteAtomicArrival => true
  | .barrierOpArrival => true
  | .pendDecrement => true
  | .twpermArrival => true
  | .messageArrival => true
  | .handlerMessageArrival => true
  | .handlerStart => true
  | .migrationContextArrival => true
  | .migrationBounceArrival => true
  | .homeReturnArrival => true
  | .wakeMessage => true
  | .lineDelivery => true
  | .remoteLoadResponse => true
  | .loadResponse => true
  | .storeAcknowledgement => true
  | .messageResponse => true
  | .errorResponse => true
  | .l1FillResponse => true
  | .messageDivert => true
  | .sliceRequest => true
  | .mcrdLineRequest => true
  | .l2pfLineRequest => true
  | .l2dropLineRequest => true
  | .hbmFillReturn => true
  | .l2Scrub => true
  | .hbmScrub => true
  | .frameInitialisation => true
  | .hostRegionAccess => true
  | .hostCompletion => true
  | .peerRequest => true
  | .peerResponse => true
  | .tlbWalkComplete => true
  | .pageResolution => true
  | .tlbinvCompletion => true
  | .engineLineData => true
  | .relayComplete => true
  | .mcrdComplete => true
  | .twalkTile => true
  | .twalkComplete => true
  | .l2pfComplete => true
  | .l2dropComplete => true
  | .heldCompletionLand => true
  | .tileOpComplete => true
  | .hoopCommandComplete => true
  | .hoopLeaseGrant => true
  | .hoopLeaseExpiry => true
  | .osierBoundary => true
  | .osierStrokeEnqueue => true
  | .alignedRunStart => true
  | .blockPlacement => true
  | .blockRetire => true
  | .parklimitExpiry => true
  | .blockCapture => true
  | .yieldDeadline => true
  | .readmission => true
  | .haltLineArrival => true
  | .quiesce => true
  | .debugHaltRequest => true
  | .haltRelease => true
  | .debugReset => true
  | .debugStore => true
  | .replayLatchLoad => true
  | .heartbeat => true
  | .containment => true
  | .checkpoint => true
  | .checkpointPeriodExpiry => true
  | .checkpointAck => true
  | .routeCommit => true
  | .routeAdopt => true
  | .autoWindow => true
  | .svasumFrame => true
  | .svasumTraining => true
  | .weightShardArrival => true
  | .shardTimeout => true
  | .queueEnable => true
  | .queueDisable => true
  | .queueUnmap => true
  | .queueRemap => true
  | .qcbTailWrite => true
  | .qcbWakeWrite => true
  | .qcbErrackWrite => true
  | .qcbCancelWrite => true
  | .queueWaitRetest => true
  | .nopPacket => true
  | .launchPacket => true
  | .launchrange => true
  | .indirect => true
  | .returnPacket => true
  | .pred => true
  | .loopPacket => true
  | .signal => true
  | .waitsig => true
  | .fetchfence => true
  | .weightsel => true
  | .copyPacket => true
  | .copyComplete => true
  | .admission => true
  | .stagingComplete => true
  | .completionRecordWrite => true
  | .energyCharge => true
  | .huddleRequest => true
  | .huddleWindowClose => true
  | .huddleFetchAdd => true
  | .moduleReset => true
  | .pcieLinkTraining => true
  | .hostBar2Read => true
  | .hostBar2Write => true
  | .rpheadWrite => true
  | .attest => true
  | .pubkey => true
  | .keyload => true
  | .keyclear => true
  | .counter => true
  | .panelSet => true
  | .wbPlan => true
  | .wbStart => true
  | .partReset => true
  | .reservedMailboxRequest => true
  | .powerWindow => true
  | .junctionTemperatureLimit => true
  | .thermalTrip => true
  | .siteFault => true
  | .softError => true
  | .partitionCreate => true
  | .peerTableWrite => true
  | .pageTableChange => true
  | .fetchAheadRead => true

end Sys2Proof
end

