-- ==== Sys2Proof/Decode.lean ====
section
/-! DEFINITION. Decoding of words and bundles (R250-R262) and the encoder. The decoder is total: it answers an instruction,
or says by name why the word is none. -/

namespace Sys2Proof

open Sys2Proof.Machine (bf)

/-- Why bytes are not a bundle (R251, R252). -/
inductive DecodeError where
  /-- the all-zero word -/
  | allZero
  /-- no row of the maps: a reserved major, sub-operation or function, or a non-zero field that the map gives as zero -/
  | reserved
  /-- a row's own limits are broken -/
  | illFormed
  /-- P = 1 with K = 1, or a C-word with P = 1 followed by no A-word -/
  | pairForm
  /-- a pair at an address that is not a multiple of 8 -/
  | misaligned
  /-- the two words of a pair name one destination -/
  | sameDest
  deriving DecidableEq, Repr

/-- A field of a word. -/
def fd (w n lo : Nat) : BitVec w := BitVec.ofNat w (bf n (lo + w - 1) lo)

/-- A row of the maps: its fixed fields (bits hi to lo hold val; bit 31 apart) and the instruction its other fields give. -/
structure Row where
  fixed : List (Nat × Nat × Nat)
  build : Nat → Instr

/-- A word's bits 30 to 0 agree with a row. -/
def Row.matches (r : Row) (n : Nat) : Bool := r.fixed.all fun f => bf n f.1 f.2.1 == f.2.2

/-- Rows of the C class (R257, R258).-/
def rowsC0 : List Row := [
  ⟨[(30, 24, 0x0)], fun n => .beq (fd 4 n 20) (fd 4 n 16) (fd 16 n 0)⟩,
  ⟨[(30, 24, 0x1)], fun n => .bne (fd 4 n 20) (fd 4 n 16) (fd 16 n 0)⟩,
  ⟨[(30, 24, 0x2)], fun n => .blt (fd 4 n 20) (fd 4 n 16) (fd 16 n 0)⟩,
  ⟨[(30, 24, 0x3)], fun n => .bge (fd 4 n 20) (fd 4 n 16) (fd 16 n 0)⟩,
  ⟨[(30, 24, 0x4)], fun n => .bltn (fd 4 n 20) (fd 4 n 16) (fd 16 n 0)⟩,
  ⟨[(30, 24, 0x5)], fun n => .bgen (fd 4 n 20) (fd 4 n 16) (fd 16 n 0)⟩,
  ⟨[(30, 24, 0x6)], fun n => .jal (fd 24 n 0)⟩,
  ⟨[(30, 24, 0x7), (15, 0, 0x100)], fun n => .jalr (fd 4 n 20) (fd 4 n 16)⟩,
  ⟨[(30, 24, 0x7), (19, 0, 0x200)], fun n => .lpc (fd 4 n 20)⟩,
  ⟨[(30, 20, 0x70), (11, 0, 0x300)], fun n => .loop (fd 4 n 16) (fd 4 n 12)⟩,
  ⟨[(30, 0, 0x7000400)], fun _ => .nop⟩,
  ⟨[(30, 0, 0x7000500)], fun _ => .exit⟩,
  ⟨[(30, 0, 0x7000600)], fun _ => .yield⟩,
  ⟨[(30, 24, 0x7), (19, 4, 0x70)], fun n => .fuse (fd 4 n 20) (fd 4 n 0)⟩,
  ⟨[(30, 0, 0x7000800)], fun _ => .split⟩,
  ⟨[(30, 8, 0x70009)], fun n => .brk (fd 8 n 0)⟩,
  ⟨[(30, 8, 0x7000A)], fun n => .trap (fd 8 n 0)⟩,
  ⟨[(30, 0, 0x7000B00)], fun _ => .eret⟩]

/-- Rows of the C class (R257, R258).-/
def rowsC1 : List Row := [
  ⟨[(30, 24, 0x8)], fun n => .ldB (fd 4 n 20) (fd 4 n 16) (fd 16 n 0)⟩,
  ⟨[(30, 24, 0x9)], fun n => .ldH (fd 4 n 20) (fd 4 n 16) (fd 16 n 0)⟩,
  ⟨[(30, 24, 0xA)], fun n => .ldW (fd 4 n 20) (fd 4 n 16) (fd 16 n 0)⟩,
  ⟨[(30, 24, 0xB)], fun n => .ldD (fd 4 n 20) (fd 4 n 16) (fd 16 n 0)⟩,
  ⟨[(30, 24, 0xC)], fun n => .ldBz (fd 4 n 20) (fd 4 n 16) (fd 16 n 0)⟩,
  ⟨[(30, 24, 0xD)], fun n => .ldHz (fd 4 n 20) (fd 4 n 16) (fd 16 n 0)⟩,
  ⟨[(30, 24, 0xE)], fun n => .ldWz (fd 4 n 20) (fd 4 n 16) (fd 16 n 0)⟩,
  ⟨[(30, 24, 0xF), (11, 5, 0x0)], fun n => .ldx (fd 4 n 20) (fd 4 n 16) (fd 4 n 12) (fd 2 n 3) (fd 3 n 0)⟩,
  ⟨[(30, 20, 0xF0), (11, 5, 0x8), (2, 0, 0x0)], fun n => .pf (fd 4 n 16) (fd 4 n 12) (fd 2 n 3)⟩,
  ⟨[(30, 0, 0xF000200)], fun _ => .migr⟩]

/-- Rows of the C class (R257, R258).-/
def rowsC2 : List Row := [
  ⟨[(30, 24, 0x10)], fun n => .stB (fd 4 n 20) (fd 4 n 16) (fd 16 n 0)⟩,
  ⟨[(30, 24, 0x11)], fun n => .stH (fd 4 n 20) (fd 4 n 16) (fd 16 n 0)⟩,
  ⟨[(30, 24, 0x12)], fun n => .stW (fd 4 n 20) (fd 4 n 16) (fd 16 n 0)⟩,
  ⟨[(30, 24, 0x13)], fun n => .stD (fd 4 n 20) (fd 4 n 16) (fd 16 n 0)⟩,
  ⟨[(30, 24, 0x14), (11, 5, 0x0), (2, 2, 0x0)], fun n => .stx (fd 4 n 20) (fd 4 n 16) (fd 4 n 12) (fd 2 n 3) (fd 2 n 0)⟩]

/-- Rows of the C class (R257, R258).-/
def rowsC3 : List Row := [
  ⟨[(30, 24, 0x18), (15, 7, 0x0)], fun n => .ldbt (fd 4 n 20) (fd 4 n 16) (fd 1 n 6) (fd 6 n 0)⟩,
  ⟨[(30, 24, 0x19), (15, 6, 0x0)], fun n => .stbt (fd 4 n 20) (fd 4 n 16) (fd 6 n 0)⟩,
  ⟨[(30, 24, 0x1A), (15, 0, 0x0)], fun n => .ldsy (fd 4 n 20) (fd 4 n 16)⟩,
  ⟨[(30, 24, 0x1A), (15, 0, 0x100)], fun n => .ldsyTake (fd 4 n 20) (fd 4 n 16)⟩,
  ⟨[(30, 20, 0x1A0), (11, 0, 0x200)], fun n => .stfl (fd 4 n 16) (fd 4 n 12)⟩,
  ⟨[(30, 20, 0x1A0), (11, 0, 0x300)], fun n => .feclr (fd 4 n 16) (fd 4 n 12)⟩,
  ⟨[(30, 24, 0x1C), (11, 7, 0x0), (1, 1, 0x0)], fun n => .amoadd (fd 4 n 20) (fd 4 n 16) (fd 4 n 12) (fd 1 n 6) (fd 1 n 5) (fd 3 n 2) (fd 1 n 0)⟩,
  ⟨[(30, 24, 0x1C), (11, 7, 0x1), (1, 1, 0x0)], fun n => .amoswp (fd 4 n 20) (fd 4 n 16) (fd 4 n 12) (fd 1 n 6) (fd 1 n 5) (fd 3 n 2) (fd 1 n 0)⟩,
  ⟨[(30, 24, 0x1C), (11, 7, 0x2), (1, 1, 0x0)], fun n => .amocas (fd 4 n 20) (fd 4 n 16) (fd 4 n 12) (fd 1 n 6) (fd 1 n 5) (fd 3 n 2) (fd 1 n 0)⟩,
  ⟨[(30, 24, 0x1C), (11, 7, 0x3), (1, 1, 0x0)], fun n => .amoand (fd 4 n 20) (fd 4 n 16) (fd 4 n 12) (fd 1 n 6) (fd 1 n 5) (fd 3 n 2) (fd 1 n 0)⟩,
  ⟨[(30, 24, 0x1C), (11, 7, 0x4), (1, 1, 0x0)], fun n => .amoor (fd 4 n 20) (fd 4 n 16) (fd 4 n 12) (fd 1 n 6) (fd 1 n 5) (fd 3 n 2) (fd 1 n 0)⟩,
  ⟨[(30, 24, 0x1C), (11, 7, 0x5), (1, 1, 0x0)], fun n => .amoxor (fd 4 n 20) (fd 4 n 16) (fd 4 n 12) (fd 1 n 6) (fd 1 n 5) (fd 3 n 2) (fd 1 n 0)⟩,
  ⟨[(30, 24, 0x1C), (11, 7, 0x6), (1, 1, 0x0)], fun n => .amomin (fd 4 n 20) (fd 4 n 16) (fd 4 n 12) (fd 1 n 6) (fd 1 n 5) (fd 3 n 2) (fd 1 n 0)⟩,
  ⟨[(30, 24, 0x1C), (11, 7, 0x7), (1, 1, 0x0)], fun n => .amomax (fd 4 n 20) (fd 4 n 16) (fd 4 n 12) (fd 1 n 6) (fd 1 n 5) (fd 3 n 2) (fd 1 n 0)⟩,
  ⟨[(30, 24, 0x1C), (11, 7, 0x8), (1, 1, 0x0)], fun n => .amominn (fd 4 n 20) (fd 4 n 16) (fd 4 n 12) (fd 1 n 6) (fd 1 n 5) (fd 3 n 2) (fd 1 n 0)⟩,
  ⟨[(30, 24, 0x1C), (11, 7, 0x9), (1, 1, 0x0)], fun n => .amomaxn (fd 4 n 20) (fd 4 n 16) (fd 4 n 12) (fd 1 n 6) (fd 1 n 5) (fd 3 n 2) (fd 1 n 0)⟩,
  ⟨[(30, 24, 0x1C), (11, 7, 0xA), (1, 1, 0x0)], fun n => .amofadd (fd 4 n 20) (fd 4 n 16) (fd 4 n 12) (fd 1 n 6) (fd 1 n 5) (fd 3 n 2) (fd 1 n 0)⟩]

/-- Rows of the C class (R257, R258).-/
def rowsC4 : List Row := [
  ⟨[(30, 12, 0x24000), (3, 0, 0x0)], fun n => .fence (fd 4 n 8) (fd 3 n 5) (fd 1 n 4)⟩,
  ⟨[(30, 20, 0x250), (11, 1, 0x0)], fun n => .barinit (fd 4 n 16) (fd 4 n 12) (fd 1 n 0)⟩,
  ⟨[(30, 20, 0x250), (15, 0, 0x100)], fun n => .bararr (fd 4 n 16)⟩,
  ⟨[(30, 20, 0x250), (15, 0, 0x200)], fun n => .barwait (fd 4 n 16)⟩,
  ⟨[(30, 20, 0x250), (11, 0, 0x300)], fun n => .barexp (fd 4 n 16) (fd 4 n 12)⟩,
  ⟨[(30, 24, 0x25), (15, 0, 0x400)], fun n => .bartest (fd 4 n 20) (fd 4 n 16)⟩,
  ⟨[(30, 14, 0x9800)], fun n => .waitc (fd 4 n 10) (fd 4 n 6) (fd 3 n 3) (fd 3 n 0)⟩,
  ⟨[(30, 16, 0x2700)], fun n => .hold (fd 16 n 0)⟩]

/-- Rows of the C class (R257, R258).-/
def rowsC5 : List Row := [
  ⟨[(30, 20, 0x280), (11, 8, 0x0)], fun n => .send (fd 4 n 16) (fd 4 n 12) (fd 8 n 0)⟩,
  ⟨[(30, 20, 0x280), (11, 8, 0x1)], fun n => .sendh (fd 4 n 16) (fd 4 n 12) (fd 8 n 0)⟩,
  ⟨[(30, 20, 0x280), (11, 8, 0x2)], fun n => .mcast (fd 4 n 16) (fd 4 n 12) (fd 8 n 0)⟩,
  ⟨[(30, 24, 0x29), (11, 10, 0x0)], fun n => .mcrd (fd 4 n 20) (fd 4 n 16) (fd 4 n 12) (fd 10 n 0)⟩,
  ⟨[(30, 2, 0xA800000)], fun n => .ringwait (fd 2 n 0)⟩,
  ⟨[(30, 24, 0x2A), (19, 2, 0x40)], fun n => .ringpop (fd 4 n 20) (fd 2 n 0)⟩,
  ⟨[(30, 24, 0x2A), (15, 0, 0x200)], fun n => .rhops (fd 4 n 20) (fd 4 n 16)⟩,
  ⟨[(30, 24, 0x2C), (11, 3, 0x0)], fun n => .rcopy (fd 4 n 20) (fd 4 n 16) (fd 4 n 12) (fd 3 n 0)⟩,
  ⟨[(30, 24, 0x2C), (11, 0, 0x100)], fun n => .l2pf (fd 4 n 20) (fd 4 n 16) (fd 4 n 12)⟩,
  ⟨[(30, 20, 0x2C0), (11, 0, 0x200)], fun n => .l2drop (fd 4 n 16) (fd 4 n 12)⟩,
  ⟨[(30, 20, 0x2C0), (15, 0, 0x300)], fun n => .twperm (fd 4 n 16)⟩,
  ⟨[(30, 24, 0x2C), (19, 4, 0x40)], fun n => .estat (fd 4 n 20) (fd 4 n 0)⟩,
  ⟨[(30, 24, 0x2D), (11, 3, 0x0)], fun n => .rcopy2d (fd 4 n 20) (fd 4 n 16) (fd 4 n 12) (fd 3 n 0)⟩,
  ⟨[(30, 24, 0x2E), (11, 0, 0x0)], fun n => .twalk (fd 4 n 20) (fd 4 n 16) (fd 4 n 12)⟩,
  ⟨[(30, 24, 0x2E), (19, 16, 0x0), (11, 0, 0x1)], fun n => .twalkWb (fd 4 n 20) (fd 4 n 12)⟩]

/-- Rows of the C class (R257, R258).-/
def rowsC6 : List Row := [
  ⟨[(30, 20, 0x300), (15, 6, 0x0)], fun n => .hlease (fd 4 n 16) (fd 6 n 0)⟩,
  ⟨[(30, 0, 0x30000100)], fun _ => .hfree⟩,
  ⟨[(30, 24, 0x31), (19, 0, 0x0)], fun n => .hzero (fd 4 n 20)⟩,
  ⟨[(30, 24, 0x31), (11, 0, 0x100)], fun n => .hlda (fd 4 n 20) (fd 4 n 16) (fd 4 n 12)⟩,
  ⟨[(30, 24, 0x31), (11, 0, 0x200)], fun n => .hldb (fd 4 n 20) (fd 4 n 16) (fd 4 n 12)⟩,
  ⟨[(30, 24, 0x31), (11, 0, 0x300)], fun n => .hldbt (fd 4 n 20) (fd 4 n 16) (fd 4 n 12)⟩,
  ⟨[(30, 0, 0x31000400)], fun _ => .hrot⟩,
  ⟨[(30, 0, 0x31000500)], fun _ => .hmma⟩,
  ⟨[(30, 0, 0x31000600)], fun _ => .hmmar⟩,
  ⟨[(30, 24, 0x31), (11, 0, 0x700)], fun n => .hstc (fd 4 n 20) (fd 4 n 16) (fd 4 n 12)⟩,
  ⟨[(30, 20, 0x310), (15, 4, 0x80)], fun n => .haccRd (fd 4 n 16) (fd 1 n 3) (fd 3 n 0)⟩,
  ⟨[(30, 20, 0x310), (15, 4, 0x81)], fun n => .haccWr (fd 4 n 16) (fd 1 n 3) (fd 3 n 0)⟩,
  ⟨[(30, 24, 0x32), (11, 3, 0x0)], fun n => .tld (fd 4 n 20) (fd 4 n 16) (fd 4 n 12) (fd 3 n 0)⟩,
  ⟨[(30, 24, 0x32), (11, 3, 0x20)], fun n => .tst (fd 4 n 20) (fd 4 n 16) (fd 4 n 12) (fd 3 n 0)⟩,
  ⟨[(30, 24, 0x32), (11, 3, 0x40)], fun n => .tldt (fd 4 n 20) (fd 4 n 16) (fd 4 n 12) (fd 3 n 0)⟩,
  ⟨[(30, 24, 0x32), (11, 3, 0x60)], fun n => .tstt (fd 4 n 20) (fd 4 n 16) (fd 4 n 12) (fd 3 n 0)⟩,
  ⟨[(30, 20, 0x340), (11, 0, 0x0)], fun n => .opatch (fd 4 n 16) (fd 4 n 12)⟩,
  ⟨[(30, 20, 0x340), (11, 2, 0x40)], fun n => .ocfg (fd 4 n 16) (fd 4 n 12) (fd 2 n 0)⟩,
  ⟨[(30, 20, 0x340), (11, 0, 0x200)], fun n => .oset (fd 4 n 16) (fd 4 n 12)⟩,
  ⟨[(30, 24, 0x34), (15, 0, 0x300)], fun n => .oget (fd 4 n 20) (fd 4 n 16)⟩,
  ⟨[(30, 20, 0x340), (15, 3, 0x80)], fun n => .orun (fd 4 n 16) (fd 1 n 2) (fd 2 n 0)⟩,
  ⟨[(30, 2, 0xD000140)], fun n => .ostop (fd 2 n 0)⟩,
  ⟨[(30, 20, 0x340), (15, 2, 0x180)], fun n => .osave (fd 4 n 16) (fd 2 n 0)⟩,
  ⟨[(30, 20, 0x340), (15, 2, 0x1C0)], fun n => .orest (fd 4 n 16) (fd 2 n 0)⟩]

/-- Rows of the C class (R257, R258).-/
def rowsC7 : List Row := [
  ⟨[(30, 24, 0x34), (19, 2, 0x200)], fun n => .ostat (fd 4 n 20) (fd 2 n 0)⟩,
  ⟨[(30, 20, 0x340), (11, 0, 0x900)], fun n => .oinj (fd 4 n 16) (fd 4 n 12)⟩,
  ⟨[(30, 24, 0x36), (11, 4, 0x0)], fun n => .vld (fd 4 n 20) (fd 4 n 16) (fd 4 n 12) (fd 3 n 1) (fd 1 n 0)⟩,
  ⟨[(30, 24, 0x36), (11, 4, 0x10)], fun n => .vst (fd 4 n 20) (fd 4 n 16) (fd 4 n 12) (fd 3 n 1) (fd 1 n 0)⟩,
  ⟨[(30, 24, 0x36), (11, 4, 0x20)], fun n => .vldb (fd 4 n 20) (fd 4 n 16) (fd 4 n 12) (fd 3 n 1) (fd 1 n 0)⟩,
  ⟨[(30, 24, 0x37), (11, 8, 0x0)], fun n => .vldx (fd 4 n 20) (fd 4 n 16) (fd 4 n 12) (fd 3 n 5) (fd 3 n 2) (fd 1 n 1) (fd 1 n 0)⟩,
  ⟨[(30, 24, 0x37), (11, 8, 0x1)], fun n => .vstx (fd 4 n 20) (fd 4 n 16) (fd 4 n 12) (fd 3 n 5) (fd 3 n 2) (fd 1 n 1) (fd 1 n 0)⟩,
  ⟨[(30, 24, 0x37), (11, 1, 0x100)], fun n => .vldbt (fd 4 n 20) (fd 4 n 16) (fd 4 n 12) (fd 1 n 0)⟩,
  ⟨[(30, 24, 0x37), (11, 1, 0x180)], fun n => .vstbt (fd 4 n 20) (fd 4 n 16) (fd 4 n 12) (fd 1 n 0)⟩]

/-- Rows of the C class (R257, R258).-/
def rowsC8 : List Row := [
  ⟨[(30, 20, 0x380), (15, 4, 0x0)], fun n => .qpush (fd 4 n 16) (fd 4 n 0)⟩,
  ⟨[(30, 24, 0x38), (19, 4, 0x10)], fun n => .qpop (fd 4 n 20) (fd 4 n 0)⟩,
  ⟨[(30, 24, 0x38), (19, 4, 0x20)], fun n => .qpeek (fd 4 n 20) (fd 4 n 0)⟩,
  ⟨[(30, 24, 0x38), (19, 4, 0x30)], fun n => .qlen (fd 4 n 20) (fd 4 n 0)⟩,
  ⟨[(30, 24, 0x39), (15, 0, 0x0)], fun n => .shld (fd 4 n 20) (fd 4 n 16)⟩,
  ⟨[(30, 24, 0x39), (15, 0, 0x100)], fun n => .shst (fd 4 n 20) (fd 4 n 16)⟩,
  ⟨[(30, 24, 0x39), (11, 8, 0x2), (2, 0, 0x0)], fun n => .shset (fd 4 n 20) (fd 8 n 12) (fd 5 n 3)⟩,
  ⟨[(30, 24, 0x39), (19, 16, 0x0), (11, 8, 0x3), (2, 0, 0x0)], fun n => .shsetg (fd 4 n 20) (fd 4 n 12) (fd 5 n 3)⟩,
  ⟨[(30, 24, 0x39), (15, 8, 0x4), (2, 0, 0x0)], fun n => .shget (fd 4 n 20) (fd 4 n 16) (fd 5 n 3)⟩,
  ⟨[(30, 20, 0x3A0), (15, 2, 0x0)], fun n => .vwset (fd 4 n 16) (fd 2 n 0)⟩,
  ⟨[(30, 24, 0x3A), (19, 2, 0x40)], fun n => .vwget (fd 4 n 20) (fd 2 n 0)⟩,
  ⟨[(30, 24, 0x3C), (19, 12, 0x0)], fun n => .crrd (fd 4 n 20) (fd 12 n 0)⟩,
  ⟨[(30, 20, 0x3D0), (15, 12, 0x0)], fun n => .crwr (fd 4 n 16) (fd 12 n 0)⟩,
  ⟨[(30, 20, 0x3E0), (15, 12, 0x0)], fun n => .crset (fd 4 n 16) (fd 12 n 0)⟩,
  ⟨[(30, 20, 0x3E1), (15, 12, 0x0)], fun n => .crclr (fd 4 n 16) (fd 12 n 0)⟩,
  ⟨[(30, 0, 0x3E200000)], fun _ => .ckpt⟩,
  ⟨[(30, 20, 0x3E3), (11, 0, 0x0)], fun n => .icinv (fd 4 n 16) (fd 4 n 12)⟩,
  ⟨[(30, 20, 0x3E4), (11, 0, 0x0)], fun n => .tlbinv (fd 4 n 16) (fd 4 n 12)⟩,
  ⟨[(30, 0, 0x3E500000)], fun _ => .halt⟩]

/-- Rows of the A class (R260, R261).-/
def rowsA9 : List Row := [
  ⟨[(30, 24, 0x40), (11, 0, 0x0)], fun n => .add (fd 4 n 20) (fd 4 n 16) (fd 4 n 12)⟩,
  ⟨[(30, 24, 0x40), (11, 0, 0x1)], fun n => .sub (fd 4 n 20) (fd 4 n 16) (fd 4 n 12)⟩,
  ⟨[(30, 24, 0x40), (11, 0, 0x2)], fun n => .mul (fd 4 n 20) (fd 4 n 16) (fd 4 n 12)⟩,
  ⟨[(30, 24, 0x40), (11, 0, 0x3)], fun n => .mulh (fd 4 n 20) (fd 4 n 16) (fd 4 n 12)⟩,
  ⟨[(30, 24, 0x40), (11, 0, 0x4)], fun n => .mulhn (fd 4 n 20) (fd 4 n 16) (fd 4 n 12)⟩,
  ⟨[(30, 24, 0x40), (11, 0, 0x5)], fun n => .div (fd 4 n 20) (fd 4 n 16) (fd 4 n 12)⟩,
  ⟨[(30, 24, 0x40), (11, 0, 0x6)], fun n => .divn (fd 4 n 20) (fd 4 n 16) (fd 4 n 12)⟩,
  ⟨[(30, 24, 0x40), (11, 0, 0x7)], fun n => .rem (fd 4 n 20) (fd 4 n 16) (fd 4 n 12)⟩,
  ⟨[(30, 24, 0x40), (11, 0, 0x8)], fun n => .remn (fd 4 n 20) (fd 4 n 16) (fd 4 n 12)⟩,
  ⟨[(30, 24, 0x40), (11, 0, 0x9)], fun n => .and (fd 4 n 20) (fd 4 n 16) (fd 4 n 12)⟩,
  ⟨[(30, 24, 0x40), (11, 0, 0xA)], fun n => .or (fd 4 n 20) (fd 4 n 16) (fd 4 n 12)⟩,
  ⟨[(30, 24, 0x40), (11, 0, 0xB)], fun n => .xor (fd 4 n 20) (fd 4 n 16) (fd 4 n 12)⟩,
  ⟨[(30, 24, 0x40), (11, 0, 0xC)], fun n => .shl (fd 4 n 20) (fd 4 n 16) (fd 4 n 12)⟩,
  ⟨[(30, 24, 0x40), (11, 0, 0xD)], fun n => .shr (fd 4 n 20) (fd 4 n 16) (fd 4 n 12)⟩,
  ⟨[(30, 24, 0x40), (11, 0, 0xE)], fun n => .sra (fd 4 n 20) (fd 4 n 16) (fd 4 n 12)⟩,
  ⟨[(30, 24, 0x40), (11, 0, 0xF)], fun n => .slt (fd 4 n 20) (fd 4 n 16) (fd 4 n 12)⟩,
  ⟨[(30, 24, 0x40), (11, 0, 0x10)], fun n => .sltn (fd 4 n 20) (fd 4 n 16) (fd 4 n 12)⟩,
  ⟨[(30, 24, 0x40), (11, 0, 0x11)], fun n => .min (fd 4 n 20) (fd 4 n 16) (fd 4 n 12)⟩,
  ⟨[(30, 24, 0x40), (11, 0, 0x12)], fun n => .max (fd 4 n 20) (fd 4 n 16) (fd 4 n 12)⟩,
  ⟨[(30, 24, 0x40), (11, 0, 0x13)], fun n => .minn (fd 4 n 20) (fd 4 n 16) (fd 4 n 12)⟩,
  ⟨[(30, 24, 0x40), (11, 0, 0x14)], fun n => .maxn (fd 4 n 20) (fd 4 n 16) (fd 4 n 12)⟩,
  ⟨[(30, 24, 0x40), (15, 0, 0x15)], fun n => .clz (fd 4 n 20) (fd 4 n 16)⟩,
  ⟨[(30, 24, 0x40), (15, 0, 0x16)], fun n => .ctz (fd 4 n 20) (fd 4 n 16)⟩,
  ⟨[(30, 24, 0x40), (15, 0, 0x17)], fun n => .popc (fd 4 n 20) (fd 4 n 16)⟩]

/-- Rows of the A class (R260, R261).-/
def rowsA10 : List Row := [
  ⟨[(30, 24, 0x40), (11, 0, 0x18)], fun n => .sel (fd 4 n 20) (fd 4 n 16) (fd 4 n 12)⟩,
  ⟨[(30, 24, 0x41), (15, 12, 0x0)], fun n => .bext (fd 4 n 20) (fd 4 n 16) (fd 6 n 6) (fd 6 n 0)⟩,
  ⟨[(30, 24, 0x42), (15, 12, 0x0)], fun n => .bins (fd 4 n 20) (fd 4 n 16) (fd 6 n 6) (fd 6 n 0)⟩,
  ⟨[(30, 24, 0x43)], fun n => .addi (fd 4 n 20) (fd 4 n 16) (fd 16 n 0)⟩,
  ⟨[(30, 24, 0x44)], fun n => .andi (fd 4 n 20) (fd 4 n 16) (fd 16 n 0)⟩,
  ⟨[(30, 24, 0x45)], fun n => .ori (fd 4 n 20) (fd 4 n 16) (fd 16 n 0)⟩,
  ⟨[(30, 24, 0x46)], fun n => .xori (fd 4 n 20) (fd 4 n 16) (fd 16 n 0)⟩,
  ⟨[(30, 24, 0x47)], fun n => .slti (fd 4 n 20) (fd 4 n 16) (fd 16 n 0)⟩]

/-- Rows of the A class (R260, R261).-/
def rowsA11 : List Row := [
  ⟨[(30, 24, 0x48), (19, 16, 0x0)], fun n => .lui (fd 4 n 20) (fd 16 n 0)⟩,
  ⟨[(30, 24, 0x49), (15, 6, 0x0)], fun n => .shli (fd 4 n 20) (fd 4 n 16) (fd 6 n 0)⟩,
  ⟨[(30, 24, 0x4A), (15, 6, 0x0)], fun n => .shri (fd 4 n 20) (fd 4 n 16) (fd 6 n 0)⟩,
  ⟨[(30, 24, 0x4B), (15, 6, 0x0)], fun n => .srai (fd 4 n 20) (fd 4 n 16) (fd 6 n 0)⟩]

/-- Rows of the A class (R260, R261).-/
def rowsA12 : List Row := [
  ⟨[(30, 24, 0x50)], fun n => .vadd (fd 5 n 19) (fd 5 n 14) (fd 5 n 9) (fd 3 n 6) (fd 3 n 3) (fd 2 n 1) (fd 1 n 0)⟩,
  ⟨[(30, 24, 0x51)], fun n => .vsub (fd 5 n 19) (fd 5 n 14) (fd 5 n 9) (fd 3 n 6) (fd 3 n 3) (fd 2 n 1) (fd 1 n 0)⟩,
  ⟨[(30, 24, 0x52)], fun n => .vmul (fd 5 n 19) (fd 5 n 14) (fd 5 n 9) (fd 3 n 6) (fd 3 n 3) (fd 2 n 1) (fd 1 n 0)⟩,
  ⟨[(30, 24, 0x53)], fun n => .vfma (fd 5 n 19) (fd 5 n 14) (fd 5 n 9) (fd 3 n 6) (fd 3 n 3) (fd 2 n 1) (fd 1 n 0)⟩,
  ⟨[(30, 24, 0x54)], fun n => .vfms (fd 5 n 19) (fd 5 n 14) (fd 5 n 9) (fd 3 n 6) (fd 3 n 3) (fd 2 n 1) (fd 1 n 0)⟩,
  ⟨[(30, 24, 0x55)], fun n => .vfnma (fd 5 n 19) (fd 5 n 14) (fd 5 n 9) (fd 3 n 6) (fd 3 n 3) (fd 2 n 1) (fd 1 n 0)⟩,
  ⟨[(30, 24, 0x56)], fun n => .vmin (fd 5 n 19) (fd 5 n 14) (fd 5 n 9) (fd 3 n 6) (fd 3 n 3) (fd 2 n 1) (fd 1 n 0)⟩,
  ⟨[(30, 24, 0x57)], fun n => .vmax (fd 5 n 19) (fd 5 n 14) (fd 5 n 9) (fd 3 n 6) (fd 3 n 3) (fd 2 n 1) (fd 1 n 0)⟩]

/-- Rows of the A class (R260, R261).-/
def rowsA13 : List Row := [
  ⟨[(30, 24, 0x58), (0, 0, 0x0)], fun n => .vand (fd 5 n 19) (fd 5 n 14) (fd 5 n 9) (fd 3 n 6) (fd 3 n 3) (fd 2 n 1)⟩,
  ⟨[(30, 24, 0x59), (0, 0, 0x0)], fun n => .vor (fd 5 n 19) (fd 5 n 14) (fd 5 n 9) (fd 3 n 6) (fd 3 n 3) (fd 2 n 1)⟩,
  ⟨[(30, 24, 0x5A), (0, 0, 0x0)], fun n => .vxor (fd 5 n 19) (fd 5 n 14) (fd 5 n 9) (fd 3 n 6) (fd 3 n 3) (fd 2 n 1)⟩,
  ⟨[(30, 24, 0x5B)], fun n => .vshl (fd 5 n 19) (fd 5 n 14) (fd 5 n 9) (fd 3 n 6) (fd 3 n 3) (fd 2 n 1) (fd 1 n 0)⟩,
  ⟨[(30, 24, 0x5C), (0, 0, 0x0)], fun n => .vshr (fd 5 n 19) (fd 5 n 14) (fd 5 n 9) (fd 3 n 6) (fd 3 n 3) (fd 2 n 1)⟩,
  ⟨[(30, 24, 0x5D), (0, 0, 0x0)], fun n => .vsra (fd 5 n 19) (fd 5 n 14) (fd 5 n 9) (fd 3 n 6) (fd 3 n 3) (fd 2 n 1)⟩,
  ⟨[(30, 24, 0x5E), (0, 0, 0x0)], fun n => .vcmp (fd 2 n 22) (fd 3 n 19) (fd 5 n 14) (fd 5 n 9) (fd 3 n 6) (fd 3 n 3) (fd 2 n 1)⟩,
  ⟨[(30, 24, 0x5F), (0, 0, 0x0)], fun n => .vsel (fd 5 n 19) (fd 5 n 14) (fd 5 n 9) (fd 3 n 6) (fd 3 n 3) (fd 2 n 1)⟩]

/-- Rows of the A class (R260, R261).-/
def rowsA14 : List Row := [
  ⟨[(30, 24, 0x60), (18, 18, 0x0), (13, 9, 0x0), (0, 0, 0x0)], fun n => .vbcast (fd 5 n 19) (fd 4 n 14) (fd 3 n 6) (fd 3 n 3) (fd 2 n 1)⟩,
  ⟨[(30, 24, 0x61), (18, 18, 0x0), (13, 13, 0x0), (0, 0, 0x0)], fun n => .vins (fd 5 n 19) (fd 4 n 14) (fd 4 n 9) (fd 3 n 6) (fd 3 n 3) (fd 2 n 1)⟩,
  ⟨[(30, 23, 0xC4), (13, 13, 0x0), (5, 3, 0x0), (0, 0, 0x0)], fun n => .vext (fd 4 n 19) (fd 5 n 14) (fd 4 n 9) (fd 3 n 6) (fd 2 n 1)⟩,
  ⟨[(30, 24, 0x63), (0, 0, 0x0)], fun n => .vperm (fd 5 n 19) (fd 5 n 14) (fd 5 n 9) (fd 3 n 6) (fd 3 n 3) (fd 2 n 1)⟩,
  ⟨[(30, 24, 0x64), (0, 0, 0x0)], fun n => .vshuf (fd 5 n 19) (fd 5 n 14) (fd 5 n 9) (fd 3 n 6) (fd 3 n 3) (fd 2 n 1)⟩,
  ⟨[(30, 24, 0x65)], fun n => .vred (fd 5 n 19) (fd 5 n 14) (fd 5 n 9) (fd 3 n 6) (fd 3 n 3) (fd 2 n 1) (fd 1 n 0)⟩,
  ⟨[(30, 24, 0x66)], fun n => .vscan (fd 5 n 19) (fd 5 n 14) (fd 5 n 9) (fd 3 n 6) (fd 3 n 3) (fd 2 n 1) (fd 1 n 0)⟩,
  ⟨[(30, 24, 0x67)], fun n => .vdot (fd 5 n 19) (fd 5 n 14) (fd 5 n 9) (fd 3 n 6) (fd 3 n 3) (fd 2 n 1) (fd 1 n 0)⟩]

/-- Rows of the A class (R260, R261).-/
def rowsA15 : List Row := [
  ⟨[(30, 24, 0x6E), (13, 9, 0x0), (0, 0, 0x0)], fun n => .vmov (fd 5 n 19) (fd 5 n 14) (fd 3 n 6) (fd 3 n 3) (fd 2 n 1)⟩,
  ⟨[(30, 24, 0x6E), (13, 9, 0x1)], fun n => .vabs (fd 5 n 19) (fd 5 n 14) (fd 3 n 6) (fd 3 n 3) (fd 2 n 1) (fd 1 n 0)⟩,
  ⟨[(30, 24, 0x6E), (13, 9, 0x2)], fun n => .vneg (fd 5 n 19) (fd 5 n 14) (fd 3 n 6) (fd 3 n 3) (fd 2 n 1) (fd 1 n 0)⟩,
  ⟨[(30, 24, 0x6E), (13, 9, 0x3), (0, 0, 0x0)], fun n => .vnot (fd 5 n 19) (fd 5 n 14) (fd 3 n 6) (fd 3 n 3) (fd 2 n 1)⟩,
  ⟨[(30, 24, 0x6E), (13, 9, 0x4)], fun n => .vrcp (fd 5 n 19) (fd 5 n 14) (fd 3 n 6) (fd 3 n 3) (fd 2 n 1) (fd 1 n 0)⟩,
  ⟨[(30, 24, 0x6E), (13, 9, 0x5)], fun n => .vrsq (fd 5 n 19) (fd 5 n 14) (fd 3 n 6) (fd 3 n 3) (fd 2 n 1) (fd 1 n 0)⟩,
  ⟨[(30, 24, 0x6E), (13, 9, 0x6)], fun n => .vexp2 (fd 5 n 19) (fd 5 n 14) (fd 3 n 6) (fd 3 n 3) (fd 2 n 1) (fd 1 n 0)⟩,
  ⟨[(30, 24, 0x6E), (13, 9, 0x7)], fun n => .vlog2 (fd 5 n 19) (fd 5 n 14) (fd 3 n 6) (fd 3 n 3) (fd 2 n 1) (fd 1 n 0)⟩,
  ⟨[(30, 22, 0x1BC), (13, 9, 0x0), (5, 0, 0x0)], fun n => .mset (fd 3 n 19) (fd 5 n 14) (fd 3 n 6)⟩,
  ⟨[(30, 22, 0x1BD), (18, 17, 0x0), (13, 12, 0x0), (8, 0, 0x0)], fun n => .mand (fd 3 n 19) (fd 3 n 14) (fd 3 n 9)⟩,
  ⟨[(30, 22, 0x1BE), (18, 17, 0x0), (13, 12, 0x0), (8, 0, 0x0)], fun n => .mor (fd 3 n 19) (fd 3 n 14) (fd 3 n 9)⟩,
  ⟨[(30, 22, 0x1BF), (18, 17, 0x0), (13, 0, 0x0)], fun n => .mnot (fd 3 n 19) (fd 3 n 14)⟩]

/-- Rows of the A class (R260, R261).-/
def rowsA16 : List Row := [
  ⟨[(30, 24, 0x70)], fun n => .vcvt (fd 5 n 19) (fd 5 n 14) (fd 5 n 9) (fd 3 n 6) (fd 3 n 3) (fd 2 n 1) (fd 1 n 0)⟩,
  ⟨[(30, 24, 0x71), (8, 3, 0x8)], fun n => .vqnt (fd 5 n 19) (fd 5 n 14) (fd 5 n 9) (fd 2 n 1) (fd 1 n 0)⟩,
  ⟨[(30, 24, 0x72), (13, 3, 0x8)], fun n => .vdqnt (fd 5 n 19) (fd 5 n 14) (fd 2 n 1) (fd 1 n 0)⟩,
  ⟨[(30, 24, 0x73), (13, 13, 0x0), (8, 3, 0x0)], fun n => .vrscale (fd 5 n 19) (fd 5 n 14) (fd 4 n 9) (fd 2 n 1) (fd 1 n 0)⟩,
  ⟨[(30, 24, 0x74)], fun n => .vpack (fd 5 n 19) (fd 5 n 14) (fd 5 n 9) (fd 3 n 6) (fd 3 n 3) (fd 2 n 1) (fd 1 n 0)⟩,
  ⟨[(30, 24, 0x75)], fun n => .vunpk (fd 5 n 19) (fd 5 n 14) (fd 5 n 9) (fd 3 n 6) (fd 3 n 3) (fd 2 n 1) (fd 1 n 0)⟩]

/-- Rows of the A class (R260, R261).-/
def rowsA17 : List Row := [
  ⟨[(30, 24, 0x78), (18, 13, 0x0), (2, 0, 0x0)], fun n => .ogetVector (fd 5 n 19) (fd 4 n 9) (fd 3 n 6) (fd 3 n 3)⟩,
  ⟨[(30, 19, 0xF20), (13, 13, 0x0), (2, 0, 0x0)], fun n => .osetVector (fd 5 n 14) (fd 4 n 9) (fd 3 n 6) (fd 3 n 3)⟩]

/-- The opcode maps (R257-R261). -/
def rows : List Row :=
  rowsC0 ++ rowsC1 ++ rowsC2 ++ rowsC3 ++ rowsC4 ++ rowsC5 ++ rowsC6 ++ rowsC7 ++ rowsC8 ++ rowsA9 ++ rowsA10 ++ rowsA11 ++ rowsA12 ++ rowsA13 ++ rowsA14 ++ rowsA15 ++ rowsA16 ++ rowsA17

/-- The instruction of one word, P aside (R252, R262 step 2). -/
def decodeWord (w : BitVec 32) : Except DecodeError Instr :=
  let n := w.toNat % 2 ^ 31
  if w.toNat = 0 then .error .allZero
  else
    match rows.find? fun r => r.matches n with
    | none => .error .reserved
    | some r => if (r.build n).wf then .ok (r.build n) else .error .illFormed

/-- Places a field in a word. -/
def fe {w : Nat} (x : BitVec w) (lo : Nat) : Nat := x.toNat * 2 ^ lo

/-- The word of an instruction, with P = 0; none for a step that no word encodes. -/
def encode : Instr → Option (BitVec 32)
  | .beq a b o => some (BitVec.ofNat 32 (0x00000000 + fe a 20 + fe b 16 + fe o 0))
  | .bne a b o => some (BitVec.ofNat 32 (0x01000000 + fe a 20 + fe b 16 + fe o 0))
  | .blt a b o => some (BitVec.ofNat 32 (0x02000000 + fe a 20 + fe b 16 + fe o 0))
  | .bge a b o => some (BitVec.ofNat 32 (0x03000000 + fe a 20 + fe b 16 + fe o 0))
  | .bltn a b o => some (BitVec.ofNat 32 (0x04000000 + fe a 20 + fe b 16 + fe o 0))
  | .bgen a b o => some (BitVec.ofNat 32 (0x05000000 + fe a 20 + fe b 16 + fe o 0))
  | .jal o => some (BitVec.ofNat 32 (0x06000000 + fe o 0))
  | .jalr d a => some (BitVec.ofNat 32 (0x07000100 + fe d 20 + fe a 16))
  | .lpc d => some (BitVec.ofNat 32 (0x07000200 + fe d 20))
  | .loop a b => some (BitVec.ofNat 32 (0x07000300 + fe a 16 + fe b 12))
  | .nop => some (BitVec.ofNat 32 (0x07000400))
  | .exit => some (BitVec.ofNat 32 (0x07000500))
  | .yield => some (BitVec.ofNat 32 (0x07000600))
  | .fuse d m => some (BitVec.ofNat 32 (0x07000700 + fe d 20 + fe m 0))
  | .split => some (BitVec.ofNat 32 (0x07000800))
  | .brk c => some (BitVec.ofNat 32 (0x07000900 + fe c 0))
  | .trap c => some (BitVec.ofNat 32 (0x07000A00 + fe c 0))
  | .eret => some (BitVec.ofNat 32 (0x07000B00))
  | .ldB d a i => some (BitVec.ofNat 32 (0x08000000 + fe d 20 + fe a 16 + fe i 0))
  | .ldH d a i => some (BitVec.ofNat 32 (0x09000000 + fe d 20 + fe a 16 + fe i 0))
  | .ldW d a i => some (BitVec.ofNat 32 (0x0A000000 + fe d 20 + fe a 16 + fe i 0))
  | .ldD d a i => some (BitVec.ofNat 32 (0x0B000000 + fe d 20 + fe a 16 + fe i 0))
  | .ldBz d a i => some (BitVec.ofNat 32 (0x0C000000 + fe d 20 + fe a 16 + fe i 0))
  | .ldHz d a i => some (BitVec.ofNat 32 (0x0D000000 + fe d 20 + fe a 16 + fe i 0))
  | .ldWz d a i => some (BitVec.ofNat 32 (0x0E000000 + fe d 20 + fe a 16 + fe i 0))
  | .ldx d a b h s => some (BitVec.ofNat 32 (0x0F000000 + fe d 20 + fe a 16 + fe b 12 + fe h 3 + fe s 0))
  | .pf a b h => some (BitVec.ofNat 32 (0x0F000100 + fe a 16 + fe b 12 + fe h 3))
  | .migr => some (BitVec.ofNat 32 (0x0F000200))
  | .stB d a i => some (BitVec.ofNat 32 (0x10000000 + fe d 20 + fe a 16 + fe i 0))
  | .stH d a i => some (BitVec.ofNat 32 (0x11000000 + fe d 20 + fe a 16 + fe i 0))
  | .stW d a i => some (BitVec.ofNat 32 (0x12000000 + fe d 20 + fe a 16 + fe i 0))
  | .stD d a i => some (BitVec.ofNat 32 (0x13000000 + fe d 20 + fe a 16 + fe i 0))
  | .stx d a b h s => some (BitVec.ofNat 32 (0x14000000 + fe d 20 + fe a 16 + fe b 12 + fe h 3 + fe s 0))
  | .ldbt d a s w => some (BitVec.ofNat 32 (0x18000000 + fe d 20 + fe a 16 + fe s 6 + fe w 0))
  | .stbt d a w => some (BitVec.ofNat 32 (0x19000000 + fe d 20 + fe a 16 + fe w 0))
  | .ldsy d a => some (BitVec.ofNat 32 (0x1A000000 + fe d 20 + fe a 16))
  | .ldsyTake d a => some (BitVec.ofNat 32 (0x1A000100 + fe d 20 + fe a 16))
  | .stfl a b => some (BitVec.ofNat 32 (0x1A000200 + fe a 16 + fe b 12))
  | .feclr a b => some (BitVec.ofNat 32 (0x1A000300 + fe a 16 + fe b 12))
  | .amoadd d a b q r s w => some (BitVec.ofNat 32 (0x1C000000 + fe d 20 + fe a 16 + fe b 12 + fe q 6 + fe r 5 + fe s 2 + fe w 0))
  | .amoswp d a b q r s w => some (BitVec.ofNat 32 (0x1C000080 + fe d 20 + fe a 16 + fe b 12 + fe q 6 + fe r 5 + fe s 2 + fe w 0))
  | .amocas d a b q r s w => some (BitVec.ofNat 32 (0x1C000100 + fe d 20 + fe a 16 + fe b 12 + fe q 6 + fe r 5 + fe s 2 + fe w 0))
  | .amoand d a b q r s w => some (BitVec.ofNat 32 (0x1C000180 + fe d 20 + fe a 16 + fe b 12 + fe q 6 + fe r 5 + fe s 2 + fe w 0))
  | .amoor d a b q r s w => some (BitVec.ofNat 32 (0x1C000200 + fe d 20 + fe a 16 + fe b 12 + fe q 6 + fe r 5 + fe s 2 + fe w 0))
  | .amoxor d a b q r s w => some (BitVec.ofNat 32 (0x1C000280 + fe d 20 + fe a 16 + fe b 12 + fe q 6 + fe r 5 + fe s 2 + fe w 0))
  | .amomin d a b q r s w => some (BitVec.ofNat 32 (0x1C000300 + fe d 20 + fe a 16 + fe b 12 + fe q 6 + fe r 5 + fe s 2 + fe w 0))
  | .amomax d a b q r s w => some (BitVec.ofNat 32 (0x1C000380 + fe d 20 + fe a 16 + fe b 12 + fe q 6 + fe r 5 + fe s 2 + fe w 0))
  | .amominn d a b q r s w => some (BitVec.ofNat 32 (0x1C000400 + fe d 20 + fe a 16 + fe b 12 + fe q 6 + fe r 5 + fe s 2 + fe w 0))
  | .amomaxn d a b q r s w => some (BitVec.ofNat 32 (0x1C000480 + fe d 20 + fe a 16 + fe b 12 + fe q 6 + fe r 5 + fe s 2 + fe w 0))
  | .amofadd d a b q r s w => some (BitVec.ofNat 32 (0x1C000500 + fe d 20 + fe a 16 + fe b 12 + fe q 6 + fe r 5 + fe s 2 + fe w 0))
  | .fence f s l => some (BitVec.ofNat 32 (0x24000000 + fe f 8 + fe s 5 + fe l 4))
  | .barinit a b t => some (BitVec.ofNat 32 (0x25000000 + fe a 16 + fe b 12 + fe t 0))
  | .bararr a => some (BitVec.ofNat 32 (0x25000100 + fe a 16))
  | .barwait a => some (BitVec.ofNat 32 (0x25000200 + fe a 16))
  | .barexp a b => some (BitVec.ofNat 32 (0x25000300 + fe a 16 + fe b 12))
  | .bartest d a => some (BitVec.ofNat 32 (0x25000400 + fe d 20 + fe a 16))
  | .waitc l s c t => some (BitVec.ofNat 32 (0x26000000 + fe l 10 + fe s 6 + fe c 3 + fe t 0))
  | .hold n => some (BitVec.ofNat 32 (0x27000000 + fe n 0))
  | .send a b n => some (BitVec.ofNat 32 (0x28000000 + fe a 16 + fe b 12 + fe n 0))
  | .sendh a b n => some (BitVec.ofNat 32 (0x28000100 + fe a 16 + fe b 12 + fe n 0))
  | .mcast a b n => some (BitVec.ofNat 32 (0x28000200 + fe a 16 + fe b 12 + fe n 0))
  | .mcrd d a b l => some (BitVec.ofNat 32 (0x29000000 + fe d 20 + fe a 16 + fe b 12 + fe l 0))
  | .ringwait n => some (BitVec.ofNat 32 (0x2A000000 + fe n 0))
  | .ringpop d n => some (BitVec.ofNat 32 (0x2A000100 + fe d 20 + fe n 0))
  | .rhops d a => some (BitVec.ofNat 32 (0x2A000200 + fe d 20 + fe a 16))
  | .rcopy d a b c => some (BitVec.ofNat 32 (0x2C000000 + fe d 20 + fe a 16 + fe b 12 + fe c 0))
  | .l2pf d a b => some (BitVec.ofNat 32 (0x2C000100 + fe d 20 + fe a 16 + fe b 12))
  | .l2drop a b => some (BitVec.ofNat 32 (0x2C000200 + fe a 16 + fe b 12))
  | .twperm a => some (BitVec.ofNat 32 (0x2C000300 + fe a 16))
  | .estat d e => some (BitVec.ofNat 32 (0x2C000400 + fe d 20 + fe e 0))
  | .rcopy2d s a b c => some (BitVec.ofNat 32 (0x2D000000 + fe s 20 + fe a 16 + fe b 12 + fe c 0))
  | .twalk s a b => some (BitVec.ofNat 32 (0x2E000000 + fe s 20 + fe a 16 + fe b 12))
  | .twalkWb s b => some (BitVec.ofNat 32 (0x2E000001 + fe s 20 + fe b 12))
  | .hlease a n => some (BitVec.ofNat 32 (0x30000000 + fe a 16 + fe n 0))
  | .hfree => some (BitVec.ofNat 32 (0x30000100))
  | .hzero s => some (BitVec.ofNat 32 (0x31000000 + fe s 20))
  | .hlda s a b => some (BitVec.ofNat 32 (0x31000100 + fe s 20 + fe a 16 + fe b 12))
  | .hldb s a b => some (BitVec.ofNat 32 (0x31000200 + fe s 20 + fe a 16 + fe b 12))
  | .hldbt s a b => some (BitVec.ofNat 32 (0x31000300 + fe s 20 + fe a 16 + fe b 12))
  | .hrot => some (BitVec.ofNat 32 (0x31000400))
  | .hmma => some (BitVec.ofNat 32 (0x31000500))
  | .hmmar => some (BitVec.ofNat 32 (0x31000600))
  | .hstc s a b => some (BitVec.ofNat 32 (0x31000700 + fe s 20 + fe a 16 + fe b 12))
  | .haccRd a v i => some (BitVec.ofNat 32 (0x31000800 + fe a 16 + fe v 3 + fe i 0))
  | .haccWr a v i => some (BitVec.ofNat 32 (0x31000810 + fe a 16 + fe v 3 + fe i 0))
  | .tld s a b t => some (BitVec.ofNat 32 (0x32000000 + fe s 20 + fe a 16 + fe b 12 + fe t 0))
  | .tst s a b t => some (BitVec.ofNat 32 (0x32000100 + fe s 20 + fe a 16 + fe b 12 + fe t 0))
  | .tldt s a b t => some (BitVec.ofNat 32 (0x32000200 + fe s 20 + fe a 16 + fe b 12 + fe t 0))
  | .tstt s a b t => some (BitVec.ofNat 32 (0x32000300 + fe s 20 + fe a 16 + fe b 12 + fe t 0))
  | .opatch a b => some (BitVec.ofNat 32 (0x34000000 + fe a 16 + fe b 12))
  | .ocfg a b n => some (BitVec.ofNat 32 (0x34000100 + fe a 16 + fe b 12 + fe n 0))
  | .oset a b => some (BitVec.ofNat 32 (0x34000200 + fe a 16 + fe b 12))
  | .oget d a => some (BitVec.ofNat 32 (0x34000300 + fe d 20 + fe a 16))
  | .orun a l n => some (BitVec.ofNat 32 (0x34000400 + fe a 16 + fe l 2 + fe n 0))
  | .ostop n => some (BitVec.ofNat 32 (0x34000500 + fe n 0))
  | .osave a n => some (BitVec.ofNat 32 (0x34000600 + fe a 16 + fe n 0))
  | .orest a n => some (BitVec.ofNat 32 (0x34000700 + fe a 16 + fe n 0))
  | .ostat d n => some (BitVec.ofNat 32 (0x34000800 + fe d 20 + fe n 0))
  | .oinj a b => some (BitVec.ofNat 32 (0x34000900 + fe a 16 + fe b 12))
  | .vld d a b h v => some (BitVec.ofNat 32 (0x36000000 + fe d 20 + fe a 16 + fe b 12 + fe h 1 + fe v 0))
  | .vst d a b h v => some (BitVec.ofNat 32 (0x36000100 + fe d 20 + fe a 16 + fe b 12 + fe h 1 + fe v 0))
  | .vldb d a b h v => some (BitVec.ofNat 32 (0x36000200 + fe d 20 + fe a 16 + fe b 12 + fe h 1 + fe v 0))
  | .vldx d a b m f i v => some (BitVec.ofNat 32 (0x37000000 + fe d 20 + fe a 16 + fe b 12 + fe m 5 + fe f 2 + fe i 1 + fe v 0))
  | .vstx d a b m f i v => some (BitVec.ofNat 32 (0x37000100 + fe d 20 + fe a 16 + fe b 12 + fe m 5 + fe f 2 + fe i 1 + fe v 0))
  | .vldbt d a b v => some (BitVec.ofNat 32 (0x37000200 + fe d 20 + fe a 16 + fe b 12 + fe v 0))
  | .vstbt d a b v => some (BitVec.ofNat 32 (0x37000300 + fe d 20 + fe a 16 + fe b 12 + fe v 0))
  | .qpush a q => some (BitVec.ofNat 32 (0x38000000 + fe a 16 + fe q 0))
  | .qpop d q => some (BitVec.ofNat 32 (0x38000100 + fe d 20 + fe q 0))
  | .qpeek d q => some (BitVec.ofNat 32 (0x38000200 + fe d 20 + fe q 0))
  | .qlen d q => some (BitVec.ofNat 32 (0x38000300 + fe d 20 + fe q 0))
  | .shld s a => some (BitVec.ofNat 32 (0x39000000 + fe s 20 + fe a 16))
  | .shst s a => some (BitVec.ofNat 32 (0x39000100 + fe s 20 + fe a 16))
  | .shset s i f => some (BitVec.ofNat 32 (0x39000200 + fe s 20 + fe i 12 + fe f 3))
  | .shsetg s b f => some (BitVec.ofNat 32 (0x39000300 + fe s 20 + fe b 12 + fe f 3))
  | .shget s a f => some (BitVec.ofNat 32 (0x39000400 + fe s 20 + fe a 16 + fe f 3))
  | .vwset a w => some (BitVec.ofNat 32 (0x3A000000 + fe a 16 + fe w 0))
  | .vwget d w => some (BitVec.ofNat 32 (0x3A000100 + fe d 20 + fe w 0))
  | .crrd d c => some (BitVec.ofNat 32 (0x3C000000 + fe d 20 + fe c 0))
  | .crwr a c => some (BitVec.ofNat 32 (0x3D000000 + fe a 16 + fe c 0))
  | .crset a c => some (BitVec.ofNat 32 (0x3E000000 + fe a 16 + fe c 0))
  | .crclr a c => some (BitVec.ofNat 32 (0x3E100000 + fe a 16 + fe c 0))
  | .ckpt => some (BitVec.ofNat 32 (0x3E200000))
  | .icinv a b => some (BitVec.ofNat 32 (0x3E300000 + fe a 16 + fe b 12))
  | .tlbinv a b => some (BitVec.ofNat 32 (0x3E400000 + fe a 16 + fe b 12))
  | .halt => some (BitVec.ofNat 32 (0x3E500000))
  | .add d a b => some (BitVec.ofNat 32 (0x40000000 + fe d 20 + fe a 16 + fe b 12))
  | .sub d a b => some (BitVec.ofNat 32 (0x40000001 + fe d 20 + fe a 16 + fe b 12))
  | .mul d a b => some (BitVec.ofNat 32 (0x40000002 + fe d 20 + fe a 16 + fe b 12))
  | .mulh d a b => some (BitVec.ofNat 32 (0x40000003 + fe d 20 + fe a 16 + fe b 12))
  | .mulhn d a b => some (BitVec.ofNat 32 (0x40000004 + fe d 20 + fe a 16 + fe b 12))
  | .div d a b => some (BitVec.ofNat 32 (0x40000005 + fe d 20 + fe a 16 + fe b 12))
  | .divn d a b => some (BitVec.ofNat 32 (0x40000006 + fe d 20 + fe a 16 + fe b 12))
  | .rem d a b => some (BitVec.ofNat 32 (0x40000007 + fe d 20 + fe a 16 + fe b 12))
  | .remn d a b => some (BitVec.ofNat 32 (0x40000008 + fe d 20 + fe a 16 + fe b 12))
  | .and d a b => some (BitVec.ofNat 32 (0x40000009 + fe d 20 + fe a 16 + fe b 12))
  | .or d a b => some (BitVec.ofNat 32 (0x4000000A + fe d 20 + fe a 16 + fe b 12))
  | .xor d a b => some (BitVec.ofNat 32 (0x4000000B + fe d 20 + fe a 16 + fe b 12))
  | .shl d a b => some (BitVec.ofNat 32 (0x4000000C + fe d 20 + fe a 16 + fe b 12))
  | .shr d a b => some (BitVec.ofNat 32 (0x4000000D + fe d 20 + fe a 16 + fe b 12))
  | .sra d a b => some (BitVec.ofNat 32 (0x4000000E + fe d 20 + fe a 16 + fe b 12))
  | .slt d a b => some (BitVec.ofNat 32 (0x4000000F + fe d 20 + fe a 16 + fe b 12))
  | .sltn d a b => some (BitVec.ofNat 32 (0x40000010 + fe d 20 + fe a 16 + fe b 12))
  | .min d a b => some (BitVec.ofNat 32 (0x40000011 + fe d 20 + fe a 16 + fe b 12))
  | .max d a b => some (BitVec.ofNat 32 (0x40000012 + fe d 20 + fe a 16 + fe b 12))
  | .minn d a b => some (BitVec.ofNat 32 (0x40000013 + fe d 20 + fe a 16 + fe b 12))
  | .maxn d a b => some (BitVec.ofNat 32 (0x40000014 + fe d 20 + fe a 16 + fe b 12))
  | .clz d a => some (BitVec.ofNat 32 (0x40000015 + fe d 20 + fe a 16))
  | .ctz d a => some (BitVec.ofNat 32 (0x40000016 + fe d 20 + fe a 16))
  | .popc d a => some (BitVec.ofNat 32 (0x40000017 + fe d 20 + fe a 16))
  | .sel d a b => some (BitVec.ofNat 32 (0x40000018 + fe d 20 + fe a 16 + fe b 12))
  | .bext d a p l => some (BitVec.ofNat 32 (0x41000000 + fe d 20 + fe a 16 + fe p 6 + fe l 0))
  | .bins d a p l => some (BitVec.ofNat 32 (0x42000000 + fe d 20 + fe a 16 + fe p 6 + fe l 0))
  | .addi d a i => some (BitVec.ofNat 32 (0x43000000 + fe d 20 + fe a 16 + fe i 0))
  | .andi d a i => some (BitVec.ofNat 32 (0x44000000 + fe d 20 + fe a 16 + fe i 0))
  | .ori d a i => some (BitVec.ofNat 32 (0x45000000 + fe d 20 + fe a 16 + fe i 0))
  | .xori d a i => some (BitVec.ofNat 32 (0x46000000 + fe d 20 + fe a 16 + fe i 0))
  | .slti d a i => some (BitVec.ofNat 32 (0x47000000 + fe d 20 + fe a 16 + fe i 0))
  | .lui d i => some (BitVec.ofNat 32 (0x48000000 + fe d 20 + fe i 0))
  | .shli d a i => some (BitVec.ofNat 32 (0x49000000 + fe d 20 + fe a 16 + fe i 0))
  | .shri d a i => some (BitVec.ofNat 32 (0x4A000000 + fe d 20 + fe a 16 + fe i 0))
  | .srai d a i => some (BitVec.ofNat 32 (0x4B000000 + fe d 20 + fe a 16 + fe i 0))
  | .vadd d a b f m r s => some (BitVec.ofNat 32 (0x50000000 + fe d 19 + fe a 14 + fe b 9 + fe f 6 + fe m 3 + fe r 1 + fe s 0))
  | .vsub d a b f m r s => some (BitVec.ofNat 32 (0x51000000 + fe d 19 + fe a 14 + fe b 9 + fe f 6 + fe m 3 + fe r 1 + fe s 0))
  | .vmul d a b f m r s => some (BitVec.ofNat 32 (0x52000000 + fe d 19 + fe a 14 + fe b 9 + fe f 6 + fe m 3 + fe r 1 + fe s 0))
  | .vfma d a b f m r s => some (BitVec.ofNat 32 (0x53000000 + fe d 19 + fe a 14 + fe b 9 + fe f 6 + fe m 3 + fe r 1 + fe s 0))
  | .vfms d a b f m r s => some (BitVec.ofNat 32 (0x54000000 + fe d 19 + fe a 14 + fe b 9 + fe f 6 + fe m 3 + fe r 1 + fe s 0))
  | .vfnma d a b f m r s => some (BitVec.ofNat 32 (0x55000000 + fe d 19 + fe a 14 + fe b 9 + fe f 6 + fe m 3 + fe r 1 + fe s 0))
  | .vmin d a b f m r s => some (BitVec.ofNat 32 (0x56000000 + fe d 19 + fe a 14 + fe b 9 + fe f 6 + fe m 3 + fe r 1 + fe s 0))
  | .vmax d a b f m r s => some (BitVec.ofNat 32 (0x57000000 + fe d 19 + fe a 14 + fe b 9 + fe f 6 + fe m 3 + fe r 1 + fe s 0))
  | .vand d a b f m r => some (BitVec.ofNat 32 (0x58000000 + fe d 19 + fe a 14 + fe b 9 + fe f 6 + fe m 3 + fe r 1))
  | .vor d a b f m r => some (BitVec.ofNat 32 (0x59000000 + fe d 19 + fe a 14 + fe b 9 + fe f 6 + fe m 3 + fe r 1))
  | .vxor d a b f m r => some (BitVec.ofNat 32 (0x5A000000 + fe d 19 + fe a 14 + fe b 9 + fe f 6 + fe m 3 + fe r 1))
  | .vshl d a b f m r s => some (BitVec.ofNat 32 (0x5B000000 + fe d 19 + fe a 14 + fe b 9 + fe f 6 + fe m 3 + fe r 1 + fe s 0))
  | .vshr d a b f m r => some (BitVec.ofNat 32 (0x5C000000 + fe d 19 + fe a 14 + fe b 9 + fe f 6 + fe m 3 + fe r 1))
  | .vsra d a b f m r => some (BitVec.ofNat 32 (0x5D000000 + fe d 19 + fe a 14 + fe b 9 + fe f 6 + fe m 3 + fe r 1))
  | .vcmp c d a b f m r => some (BitVec.ofNat 32 (0x5E000000 + fe c 22 + fe d 19 + fe a 14 + fe b 9 + fe f 6 + fe m 3 + fe r 1))
  | .vsel d a b f m r => some (BitVec.ofNat 32 (0x5F000000 + fe d 19 + fe a 14 + fe b 9 + fe f 6 + fe m 3 + fe r 1))
  | .vbcast d a f m r => some (BitVec.ofNat 32 (0x60000000 + fe d 19 + fe a 14 + fe f 6 + fe m 3 + fe r 1))
  | .vins d a b f m r => some (BitVec.ofNat 32 (0x61000000 + fe d 19 + fe a 14 + fe b 9 + fe f 6 + fe m 3 + fe r 1))
  | .vext d a b f r => some (BitVec.ofNat 32 (0x62000000 + fe d 19 + fe a 14 + fe b 9 + fe f 6 + fe r 1))
  | .vperm d a b f m r => some (BitVec.ofNat 32 (0x63000000 + fe d 19 + fe a 14 + fe b 9 + fe f 6 + fe m 3 + fe r 1))
  | .vshuf d a b f p r => some (BitVec.ofNat 32 (0x64000000 + fe d 19 + fe a 14 + fe b 9 + fe f 6 + fe p 3 + fe r 1))
  | .vred d a o f m r s => some (BitVec.ofNat 32 (0x65000000 + fe d 19 + fe a 14 + fe o 9 + fe f 6 + fe m 3 + fe r 1 + fe s 0))
  | .vscan d a o f m r s => some (BitVec.ofNat 32 (0x66000000 + fe d 19 + fe a 14 + fe o 9 + fe f 6 + fe m 3 + fe r 1 + fe s 0))
  | .vdot d a b f m r s => some (BitVec.ofNat 32 (0x67000000 + fe d 19 + fe a 14 + fe b 9 + fe f 6 + fe m 3 + fe r 1 + fe s 0))
  | .vmov d a f m r => some (BitVec.ofNat 32 (0x6E000000 + fe d 19 + fe a 14 + fe f 6 + fe m 3 + fe r 1))
  | .vabs d a f m r s => some (BitVec.ofNat 32 (0x6E000200 + fe d 19 + fe a 14 + fe f 6 + fe m 3 + fe r 1 + fe s 0))
  | .vneg d a f m r s => some (BitVec.ofNat 32 (0x6E000400 + fe d 19 + fe a 14 + fe f 6 + fe m 3 + fe r 1 + fe s 0))
  | .vnot d a f m r => some (BitVec.ofNat 32 (0x6E000600 + fe d 19 + fe a 14 + fe f 6 + fe m 3 + fe r 1))
  | .vrcp d a f m r s => some (BitVec.ofNat 32 (0x6E000800 + fe d 19 + fe a 14 + fe f 6 + fe m 3 + fe r 1 + fe s 0))
  | .vrsq d a f m r s => some (BitVec.ofNat 32 (0x6E000A00 + fe d 19 + fe a 14 + fe f 6 + fe m 3 + fe r 1 + fe s 0))
  | .vexp2 d a f m r s => some (BitVec.ofNat 32 (0x6E000C00 + fe d 19 + fe a 14 + fe f 6 + fe m 3 + fe r 1 + fe s 0))
  | .vlog2 d a f m r s => some (BitVec.ofNat 32 (0x6E000E00 + fe d 19 + fe a 14 + fe f 6 + fe m 3 + fe r 1 + fe s 0))
  | .mset d a f => some (BitVec.ofNat 32 (0x6F000000 + fe d 19 + fe a 14 + fe f 6))
  | .mand d a b => some (BitVec.ofNat 32 (0x6F400000 + fe d 19 + fe a 14 + fe b 9))
  | .mor d a b => some (BitVec.ofNat 32 (0x6F800000 + fe d 19 + fe a 14 + fe b 9))
  | .mnot d a => some (BitVec.ofNat 32 (0x6FC00000 + fe d 19 + fe a 14))
  | .vcvt d a b f m r s => some (BitVec.ofNat 32 (0x70000000 + fe d 19 + fe a 14 + fe b 9 + fe f 6 + fe m 3 + fe r 1 + fe s 0))
  | .vqnt d a b r s => some (BitVec.ofNat 32 (0x71000040 + fe d 19 + fe a 14 + fe b 9 + fe r 1 + fe s 0))
  | .vdqnt d a r s => some (BitVec.ofNat 32 (0x72000040 + fe d 19 + fe a 14 + fe r 1 + fe s 0))
  | .vrscale d a b r s => some (BitVec.ofNat 32 (0x73000000 + fe d 19 + fe a 14 + fe b 9 + fe r 1 + fe s 0))
  | .vpack d a b f m r s => some (BitVec.ofNat 32 (0x74000000 + fe d 19 + fe a 14 + fe b 9 + fe f 6 + fe m 3 + fe r 1 + fe s 0))
  | .vunpk d a b f m r s => some (BitVec.ofNat 32 (0x75000000 + fe d 19 + fe a 14 + fe b 9 + fe f 6 + fe m 3 + fe r 1 + fe s 0))
  | .ogetVector d g f m => some (BitVec.ofNat 32 (0x78000000 + fe d 19 + fe g 9 + fe f 6 + fe m 3))
  | .osetVector a g f m => some (BitVec.ofNat 32 (0x79000000 + fe a 14 + fe g 9 + fe f 6 + fe m 3))
  | .divResult => none
  | .issueGapEnd => none
  | .holdEnd => none
  | .fuseTimeout => none
  | .barrierStaggerEnd => none
  | .migrateAfterStall => none
  | .waitTableRetry => none
  | .retentionEntry => none
  | .bankWake => none
  | .remoteAccessArrival => none
  | .remoteAtomicArrival => none
  | .barrierOpArrival => none
  | .pendDecrement => none
  | .twpermArrival => none
  | .messageArrival => none
  | .handlerMessageArrival => none
  | .handlerStart => none
  | .migrationContextArrival => none
  | .migrationBounceArrival => none
  | .homeReturnArrival => none
  | .wakeMessage => none
  | .lineDelivery => none
  | .remoteLoadResponse => none
  | .loadResponse => none
  | .storeAcknowledgement => none
  | .messageResponse => none
  | .errorResponse => none
  | .l1FillResponse => none
  | .messageDivert => none
  | .sliceRequest => none
  | .mcrdLineRequest => none
  | .l2pfLineRequest => none
  | .l2dropLineRequest => none
  | .hbmFillReturn => none
  | .l2Scrub => none
  | .hbmScrub => none
  | .frameInitialisation => none
  | .hostRegionAccess => none
  | .hostCompletion => none
  | .peerRequest => none
  | .peerResponse => none
  | .tlbWalkComplete => none
  | .pageResolution => none
  | .tlbinvCompletion => none
  | .engineLineData => none
  | .relayComplete => none
  | .mcrdComplete => none
  | .twalkTile => none
  | .twalkComplete => none
  | .l2pfComplete => none
  | .l2dropComplete => none
  | .heldCompletionLand => none
  | .tileOpComplete => none
  | .hoopCommandComplete => none
  | .hoopLeaseGrant => none
  | .hoopLeaseExpiry => none
  | .osierBoundary => none
  | .osierStrokeEnqueue => none
  | .alignedRunStart => none
  | .blockPlacement => none
  | .blockRetire => none
  | .parklimitExpiry => none
  | .blockCapture => none
  | .yieldDeadline => none
  | .readmission => none
  | .haltLineArrival => none
  | .quiesce => none
  | .debugHaltRequest => none
  | .haltRelease => none
  | .debugReset => none
  | .debugStore => none
  | .replayLatchLoad => none
  | .heartbeat => none
  | .containment => none
  | .checkpoint => none
  | .checkpointPeriodExpiry => none
  | .checkpointAck => none
  | .routeCommit => none
  | .routeAdopt => none
  | .autoWindow => none
  | .svasumFrame => none
  | .svasumTraining => none
  | .weightShardArrival => none
  | .shardTimeout => none
  | .queueEnable => none
  | .queueDisable => none
  | .queueUnmap => none
  | .queueRemap => none
  | .qcbTailWrite => none
  | .qcbWakeWrite => none
  | .qcbErrackWrite => none
  | .qcbCancelWrite => none
  | .queueWaitRetest => none
  | .nopPacket => none
  | .launchPacket => none
  | .launchrange => none
  | .indirect => none
  | .returnPacket => none
  | .pred => none
  | .loopPacket => none
  | .signal => none
  | .waitsig => none
  | .fetchfence => none
  | .weightsel => none
  | .copyPacket => none
  | .copyComplete => none
  | .admission => none
  | .stagingComplete => none
  | .completionRecordWrite => none
  | .energyCharge => none
  | .huddleRequest => none
  | .huddleWindowClose => none
  | .huddleFetchAdd => none
  | .moduleReset => none
  | .pcieLinkTraining => none
  | .hostBar2Read => none
  | .hostBar2Write => none
  | .rpheadWrite => none
  | .attest => none
  | .pubkey => none
  | .keyload => none
  | .keyclear => none
  | .counter => none
  | .panelSet => none
  | .wbPlan => none
  | .wbStart => none
  | .partReset => none
  | .reservedMailboxRequest => none
  | .powerWindow => none
  | .junctionTemperatureLimit => none
  | .thermalTrip => none
  | .siteFault => none
  | .softError => none
  | .partitionCreate => none
  | .peerTableWrite => none
  | .pageTableChange => none
  | .fetchAheadRead => none

/-- The destination register a word names (R253). -/
inductive DestName where
  | none | g (i : Nat) | v (i : Nat) | m (i : Nat)
  deriving DecidableEq, Repr

/-- The destination register that an instruction names. -/
def Instr.dest : Instr → DestName
  | .beq _ _ _ => .none
  | .bne _ _ _ => .none
  | .blt _ _ _ => .none
  | .bge _ _ _ => .none
  | .bltn _ _ _ => .none
  | .bgen _ _ _ => .none
  | .jal _ => .g 15
  | .jalr d _ => .g d.toNat
  | .lpc d => .g d.toNat
  | .loop a _ => .g a.toNat
  | .nop => .none
  | .exit => .none
  | .yield => .none
  | .fuse d _ => .g d.toNat
  | .split => .none
  | .brk _ => .none
  | .trap _ => .none
  | .eret => .none
  | .ldB d _ _ => .g d.toNat
  | .ldH d _ _ => .g d.toNat
  | .ldW d _ _ => .g d.toNat
  | .ldD d _ _ => .g d.toNat
  | .ldBz d _ _ => .g d.toNat
  | .ldHz d _ _ => .g d.toNat
  | .ldWz d _ _ => .g d.toNat
  | .ldx d _ _ _ _ => .g d.toNat
  | .pf _ _ _ => .none
  | .migr => .none
  | .stB _ _ _ => .none
  | .stH _ _ _ => .none
  | .stW _ _ _ => .none
  | .stD _ _ _ => .none
  | .stx _ _ _ _ _ => .none
  | .ldbt d _ _ _ => .g d.toNat
  | .stbt _ _ _ => .none
  | .ldsy d _ => .g d.toNat
  | .ldsyTake d _ => .g d.toNat
  | .stfl _ _ => .none
  | .feclr _ _ => .none
  | .amoadd d _ _ _ _ _ _ => .g d.toNat
  | .amoswp d _ _ _ _ _ _ => .g d.toNat
  | .amocas d _ _ _ _ _ _ => .g d.toNat
  | .amoand d _ _ _ _ _ _ => .g d.toNat
  | .amoor d _ _ _ _ _ _ => .g d.toNat
  | .amoxor d _ _ _ _ _ _ => .g d.toNat
  | .amomin d _ _ _ _ _ _ => .g d.toNat
  | .amomax d _ _ _ _ _ _ => .g d.toNat
  | .amominn d _ _ _ _ _ _ => .g d.toNat
  | .amomaxn d _ _ _ _ _ _ => .g d.toNat
  | .amofadd d _ _ _ _ _ _ => .g d.toNat
  | .fence _ _ _ => .none
  | .barinit _ _ _ => .none
  | .bararr _ => .none
  | .barwait _ => .none
  | .barexp _ _ => .none
  | .bartest d _ => .g d.toNat
  | .waitc _ _ _ _ => .none
  | .hold _ => .none
  | .send _ _ _ => .none
  | .sendh _ _ _ => .none
  | .mcast _ _ _ => .none
  | .mcrd _ _ _ _ => .none
  | .ringwait _ => .none
  | .ringpop d _ => .g d.toNat
  | .rhops d _ => .g d.toNat
  | .rcopy d _ _ _ => .g d.toNat
  | .l2pf _ _ _ => .none
  | .l2drop _ _ => .none
  | .twperm _ => .none
  | .estat d _ => .g d.toNat
  | .rcopy2d _ _ _ _ => .none
  | .twalk _ _ _ => .none
  | .twalkWb _ _ => .none
  | .hlease _ _ => .none
  | .hfree => .none
  | .hzero _ => .none
  | .hlda _ _ _ => .none
  | .hldb _ _ _ => .none
  | .hldbt _ _ _ => .none
  | .hrot => .none
  | .hmma => .none
  | .hmmar => .none
  | .hstc _ _ _ => .none
  | .haccRd a v _ => .v (a.toNat + 16 * v.toNat)
  | .haccWr _ _ _ => .none
  | .tld _ _ _ _ => .none
  | .tst _ _ _ _ => .none
  | .tldt _ _ _ _ => .none
  | .tstt _ _ _ _ => .none
  | .opatch _ _ => .none
  | .ocfg _ _ _ => .none
  | .oset _ _ => .none
  | .oget d _ => .g d.toNat
  | .orun _ _ _ => .none
  | .ostop _ => .none
  | .osave _ _ => .none
  | .orest _ _ => .none
  | .ostat d _ => .g d.toNat
  | .oinj _ _ => .none
  | .vld d _ _ _ v => .v (d.toNat + 16 * v.toNat)
  | .vst _ _ _ _ _ => .none
  | .vldb d _ _ _ v => .v (d.toNat + 16 * v.toNat)
  | .vldx d _ _ _ _ _ v => .v (d.toNat + 16 * v.toNat)
  | .vstx _ _ _ _ _ _ _ => .none
  | .vldbt d _ _ v => .v (d.toNat + 16 * v.toNat)
  | .vstbt _ _ _ _ => .none
  | .qpush _ _ => .none
  | .qpop d _ => .g d.toNat
  | .qpeek d _ => .g d.toNat
  | .qlen d _ => .g d.toNat
  | .shld _ _ => .none
  | .shst _ _ => .none
  | .shset _ _ _ => .none
  | .shsetg _ _ _ => .none
  | .shget _ a _ => .g a.toNat
  | .vwset _ _ => .none
  | .vwget d _ => .g d.toNat
  | .crrd d _ => .g d.toNat
  | .crwr _ _ => .none
  | .crset _ _ => .none
  | .crclr _ _ => .none
  | .ckpt => .none
  | .icinv _ _ => .none
  | .tlbinv _ _ => .none
  | .halt => .none
  | .add d _ _ => .g d.toNat
  | .sub d _ _ => .g d.toNat
  | .mul d _ _ => .g d.toNat
  | .mulh d _ _ => .g d.toNat
  | .mulhn d _ _ => .g d.toNat
  | .div d _ _ => .g d.toNat
  | .divn d _ _ => .g d.toNat
  | .rem d _ _ => .g d.toNat
  | .remn d _ _ => .g d.toNat
  | .and d _ _ => .g d.toNat
  | .or d _ _ => .g d.toNat
  | .xor d _ _ => .g d.toNat
  | .shl d _ _ => .g d.toNat
  | .shr d _ _ => .g d.toNat
  | .sra d _ _ => .g d.toNat
  | .slt d _ _ => .g d.toNat
  | .sltn d _ _ => .g d.toNat
  | .min d _ _ => .g d.toNat
  | .max d _ _ => .g d.toNat
  | .minn d _ _ => .g d.toNat
  | .maxn d _ _ => .g d.toNat
  | .clz d _ => .g d.toNat
  | .ctz d _ => .g d.toNat
  | .popc d _ => .g d.toNat
  | .sel d _ _ => .g d.toNat
  | .bext d _ _ _ => .g d.toNat
  | .bins d _ _ _ => .g d.toNat
  | .addi d _ _ => .g d.toNat
  | .andi d _ _ => .g d.toNat
  | .ori d _ _ => .g d.toNat
  | .xori d _ _ => .g d.toNat
  | .slti d _ _ => .g d.toNat
  | .lui d _ => .g d.toNat
  | .shli d _ _ => .g d.toNat
  | .shri d _ _ => .g d.toNat
  | .srai d _ _ => .g d.toNat
  | .vadd d _ _ _ _ _ _ => .v d.toNat
  | .vsub d _ _ _ _ _ _ => .v d.toNat
  | .vmul d _ _ _ _ _ _ => .v d.toNat
  | .vfma d _ _ _ _ _ _ => .v d.toNat
  | .vfms d _ _ _ _ _ _ => .v d.toNat
  | .vfnma d _ _ _ _ _ _ => .v d.toNat
  | .vmin d _ _ _ _ _ _ => .v d.toNat
  | .vmax d _ _ _ _ _ _ => .v d.toNat
  | .vand d _ _ _ _ _ => .v d.toNat
  | .vor d _ _ _ _ _ => .v d.toNat
  | .vxor d _ _ _ _ _ => .v d.toNat
  | .vshl d _ _ _ _ _ _ => .v d.toNat
  | .vshr d _ _ _ _ _ => .v d.toNat
  | .vsra d _ _ _ _ _ => .v d.toNat
  | .vcmp _ d _ _ _ m _ => .m d.toNat
  | .vsel d _ _ _ _ _ => .v d.toNat
  | .vbcast d _ _ _ _ => .v d.toNat
  | .vins d _ _ _ _ _ => .v d.toNat
  | .vext d _ _ _ _ => .g d.toNat
  | .vperm d _ _ _ _ _ => .v d.toNat
  | .vshuf d _ _ _ _ _ => .v d.toNat
  | .vred d _ _ _ _ _ _ => .v d.toNat
  | .vscan d _ _ _ _ _ _ => .v d.toNat
  | .vdot d _ _ _ _ _ _ => .v d.toNat
  | .vmov d _ _ _ _ => .v d.toNat
  | .vabs d _ _ _ _ _ => .v d.toNat
  | .vneg d _ _ _ _ _ => .v d.toNat
  | .vnot d _ _ _ _ => .v d.toNat
  | .vrcp d _ _ _ _ _ => .v d.toNat
  | .vrsq d _ _ _ _ _ => .v d.toNat
  | .vexp2 d _ _ _ _ _ => .v d.toNat
  | .vlog2 d _ _ _ _ _ => .v d.toNat
  | .mset d _ _ => .m d.toNat
  | .mand d _ _ => .m d.toNat
  | .mor d _ _ => .m d.toNat
  | .mnot d _ => .m d.toNat
  | .vcvt d _ _ _ _ _ _ => .v d.toNat
  | .vqnt d _ _ _ _ => .v d.toNat
  | .vdqnt d _ _ _ => .v d.toNat
  | .vrscale d _ _ _ _ => .v d.toNat
  | .vpack d _ _ _ _ _ _ => .v d.toNat
  | .vunpk d _ _ _ _ _ _ => .v d.toNat
  | .ogetVector d _ _ _ => .v d.toNat
  | .osetVector _ _ _ _ => .none
  | .divResult => .none
  | .issueGapEnd => .none
  | .holdEnd => .none
  | .fuseTimeout => .none
  | .barrierStaggerEnd => .none
  | .migrateAfterStall => .none
  | .waitTableRetry => .none
  | .retentionEntry => .none
  | .bankWake => .none
  | .remoteAccessArrival => .none
  | .remoteAtomicArrival => .none
  | .barrierOpArrival => .none
  | .pendDecrement => .none
  | .twpermArrival => .none
  | .messageArrival => .none
  | .handlerMessageArrival => .none
  | .handlerStart => .none
  | .migrationContextArrival => .none
  | .migrationBounceArrival => .none
  | .homeReturnArrival => .none
  | .wakeMessage => .none
  | .lineDelivery => .none
  | .remoteLoadResponse => .none
  | .loadResponse => .none
  | .storeAcknowledgement => .none
  | .messageResponse => .none
  | .errorResponse => .none
  | .l1FillResponse => .none
  | .messageDivert => .none
  | .sliceRequest => .none
  | .mcrdLineRequest => .none
  | .l2pfLineRequest => .none
  | .l2dropLineRequest => .none
  | .hbmFillReturn => .none
  | .l2Scrub => .none
  | .hbmScrub => .none
  | .frameInitialisation => .none
  | .hostRegionAccess => .none
  | .hostCompletion => .none
  | .peerRequest => .none
  | .peerResponse => .none
  | .tlbWalkComplete => .none
  | .pageResolution => .none
  | .tlbinvCompletion => .none
  | .engineLineData => .none
  | .relayComplete => .none
  | .mcrdComplete => .none
  | .twalkTile => .none
  | .twalkComplete => .none
  | .l2pfComplete => .none
  | .l2dropComplete => .none
  | .heldCompletionLand => .none
  | .tileOpComplete => .none
  | .hoopCommandComplete => .none
  | .hoopLeaseGrant => .none
  | .hoopLeaseExpiry => .none
  | .osierBoundary => .none
  | .osierStrokeEnqueue => .none
  | .alignedRunStart => .none
  | .blockPlacement => .none
  | .blockRetire => .none
  | .parklimitExpiry => .none
  | .blockCapture => .none
  | .yieldDeadline => .none
  | .readmission => .none
  | .haltLineArrival => .none
  | .quiesce => .none
  | .debugHaltRequest => .none
  | .haltRelease => .none
  | .debugReset => .none
  | .debugStore => .none
  | .replayLatchLoad => .none
  | .heartbeat => .none
  | .containment => .none
  | .checkpoint => .none
  | .checkpointPeriodExpiry => .none
  | .checkpointAck => .none
  | .routeCommit => .none
  | .routeAdopt => .none
  | .autoWindow => .none
  | .svasumFrame => .none
  | .svasumTraining => .none
  | .weightShardArrival => .none
  | .shardTimeout => .none
  | .queueEnable => .none
  | .queueDisable => .none
  | .queueUnmap => .none
  | .queueRemap => .none
  | .qcbTailWrite => .none
  | .qcbWakeWrite => .none
  | .qcbErrackWrite => .none
  | .qcbCancelWrite => .none
  | .queueWaitRetest => .none
  | .nopPacket => .none
  | .launchPacket => .none
  | .launchrange => .none
  | .indirect => .none
  | .returnPacket => .none
  | .pred => .none
  | .loopPacket => .none
  | .signal => .none
  | .waitsig => .none
  | .fetchfence => .none
  | .weightsel => .none
  | .copyPacket => .none
  | .copyComplete => .none
  | .admission => .none
  | .stagingComplete => .none
  | .completionRecordWrite => .none
  | .energyCharge => .none
  | .huddleRequest => .none
  | .huddleWindowClose => .none
  | .huddleFetchAdd => .none
  | .moduleReset => .none
  | .pcieLinkTraining => .none
  | .hostBar2Read => .none
  | .hostBar2Write => .none
  | .rpheadWrite => .none
  | .attest => .none
  | .pubkey => .none
  | .keyload => .none
  | .keyclear => .none
  | .counter => .none
  | .panelSet => .none
  | .wbPlan => .none
  | .wbStart => .none
  | .partReset => .none
  | .reservedMailboxRequest => .none
  | .powerWindow => .none
  | .junctionTemperatureLimit => .none
  | .thermalTrip => .none
  | .siteFault => .none
  | .softError => .none
  | .partitionCreate => .none
  | .peerTableWrite => .none
  | .pageTableChange => .none
  | .fetchAheadRead => .none

/-- Two words of a pair name the same destination, g0 and m0 apart for g and by number for views and masks (R253). A
destination of two registers counts by the index that its word names, the first (log 68, DESIGN CHOICE). -/
def sameDest (x y : DestName) : Bool :=
  match x with
  | .none => false
  | .g 0 => false
  | d => d == y

/-- A bundle: a lone instruction, or a pair of a C-word and an A-word. -/
inductive Bundle where
  | lone (i : Instr)
  | pair (c a : Instr)
  deriving DecidableEq, Repr

/-- The C-word of a pair. Only the all-zero word is no BEQ g0, g0 with offset 0; this word, with P set, is one (R252). -/
def decodeC (w : BitVec 32) : Except DecodeError Instr := if w.toNat = 2 ^ 31 then .ok (.beq 0 0 0) else decodeWord w

/-- The bundle at an address whose first word is `w` and whose second, if it is read, is `w2`; with an error, the word or
address that TVAL holds (R251, R252). -/
def decodeBundle (pc : Nat) (w w2 : BitVec 32) : Except (DecodeError × Nat) Bundle :=
  if w.toNat < 2 ^ 31 then
    match decodeWord w with
    | .ok i => .ok (.lone i)
    | .error e => .error (e, w.toNat)
  else if pc % 8 ≠ 0 then .error (.misaligned, pc)
  else if 2 ^ 30 ≤ w.toNat % 2 ^ 31 then .error (.pairForm, w.toNat)
  else if w2.toNat < 2 ^ 30 ∨ 2 ^ 31 ≤ w2.toNat then .error (.pairForm, w.toNat)
  else
    match decodeC w with
    | .error e => .error (e, w.toNat)
    | .ok c =>
      match decodeWord w2 with
      | .error e => .error (e, w2.toNat)
      | .ok a => if sameDest c.dest a.dest then .error (.sameDest, w.toNat) else .ok (.pair c a)

/-- What the decoder reads from an instruction whose bits are `w`, numbered from the least significant bit of its first
word; an instruction of this machine is one word of 32 bits (R250). -/
def decodeTableWord (nbits w : Nat) : Option Instr :=
  match decodeWord (BitVec.ofNat 32 (w % 2 ^ nbits)) with
  | .ok i => some i
  | .error _ => none

end Sys2Proof
end

