-- ==== Sys2Proof/Machine/Topology.lean ====
section
/-! DEFINITION. Coordinates, clusters, sites, remap tables, partitions, home slices and HBM placement
(R11-R24, R117-R118, R131-R135, R328, R468). -/

namespace Sys2Proof.Machine

/-- Number of logical cores (R25). -/
def nCores : Nat := 49152

/-- Logical core number of coordinates. -/
def coreXY (x y : Nat) : Nat := y * 256 + x

def cx (lc : Nat) : Nat := lc % 256
def cy (lc : Nat) : Nat := lc / 256

/-- Logical chiplet of a core (R12). -/
def chipOf (lc : Nat) : Nat := (cy lc / 12) * 16 + cx lc / 16

/-- Logical core index within its chiplet (R12). -/
def coreIdx (lc : Nat) : Nat := (cy lc % 12) * 16 + cx lc % 16

/-- Logical cluster of a core, over the panel: chiplet × 24 + c (R13). -/
def clusterOf (lc : Nat) : Nat := chipOf lc * 24 + ((cy lc % 12) / 2) * 4 + (cx lc % 16) / 4

/-- Core number k within its logical cluster (R13). -/
def coreK (lc : Nat) : Nat := (cy lc % 2) * 4 + cx lc % 4

/-- The logical core k of a cluster. -/
def clusterCore (cl k : Nat) : Nat :=
  let ch := cl / 24
  let c := cl % 24
  coreXY ((ch % 16) * 16 + (c % 4) * 4 + k % 4) ((ch / 16) * 12 + (c / 4) * 2 + k / 4)

/-- The cluster word of a logical cluster (R17). -/
def cword (f : Fabric) (cl : Nat) : Nat := SMap.getD f.cwords cl f.cword0

/-- The expansion of entry k of a cluster word (R17): VALID, SPARED, position of the core. -/
def expand (w k : Nat) : Bool × Bool × Nat :=
  let bye := bf w 3 0
  let spared := bt w 7 && k == bf w 6 4
  (bt w (8 + k), spared, if spared then bye else if k < bye then k else k + 1)

/-- VALID of a logical core (R16). -/
def validCore (f : Fabric) (lc : Nat) : Bool := lc < nCores && (expand (cword f (clusterOf lc)) (coreK lc)).1

/-- Physical chiplet of a logical chiplet (R16). -/
def physChip (f : Fabric) (ch : Nat) : Nat := bf (SMap.getD f.chip ch (2 ^ 15 + ch)) 7 0

/-- Site index within a chiplet of position `j` of physical cluster `c` (R12, R13). -/
def siteIn (c j : Nat) : Nat := (3 * (c / 6) + j / 3) * 18 + 3 * (c % 6) + j % 3

/-- Panel number py × 288 + px of the site with chiplet-local index `s` of physical chiplet `pc`. -/
def panelSite (pc s : Nat) : Nat := (12 * (pc / 16) + s / 18) * 288 + 18 * (pc % 16) + s % 18

/-- The physical site that carries a logical core (R18). -/
def siteOf (f : Fabric) (lc : Nat) : Nat :=
  let cl := clusterOf lc
  panelSite (physChip f (cl / 24)) (siteIn (cl % 24) (expand (cword f cl) (coreK lc)).2.2)

def dist (a b : Nat) : Nat := (a - b) + (b - a)

/-- Physical hops between two sites (R328). -/
def hopsBetween (s t : Nat) : Nat := dist (s % 288) (t % 288) + dist (s / 288) (t / 288)

/-- RHOPS between two logical cores (R328). -/
def hops (f : Fabric) (a b : Nat) : Nat := hopsBetween (siteOf f a) (siteOf f b)

/-- Sites from `a` to `b` along a line, ends included. -/
def sitesAlong (f : Nat → Nat) (a b : Nat) : List Nat := (List.range (dist a b + 1)).map fun i => f (if a ≤ b then a + i else a - i)

/-- Length of the run of faulted routers from a site on in steps of `d` (R484). -/
def runLen (bad : List Nat) (at_ : Nat → Nat) : Nat → Nat → Nat
  | 0, _ => 0
  | k + 1, i => if bad.contains (at_ i) then 1 + runLen bad at_ k (i + 1) else 0

/-- The sites of a detour along line `side` from position `a` to position `b` of line `line`, the first left out. `g line pos` is the
site. -/
def asideSites (g : Nat → Nat → Nat) (line side a b : Nat) : List Nat :=
  (sitesAlong (fun l => g l a) line side).drop 1 ++ (sitesAlong (g side) a b).drop 1 ++ (sitesAlong (fun l => g l b) side line).drop 1

/-- The line that a detour takes: the next one on the first side, else the next one on the other, else the nearest clear one on the
first side (R484). `lo` and `hi` bound the lines of the partition's rectangle; `up` says that the first side is the higher line. -/
def sideLine (bad : List Nat) (g : Nat → Nat → Nat) (line a b lo hi : Nat) (up : Bool) : Nat :=
  let up := if up then line + 1 ≤ hi else ¬ (lo + 1 ≤ line)
  let side := fun (u : Bool) k => if u then line + k else line - k
  let ok := fun (u : Bool) k =>
    (if u then decide (line + k ≤ hi) else decide (lo + k ≤ line)) && (asideSites g line (side u k) a b).all fun s => !bad.contains s
  if ok up 1 then side up 1 else if ok (!up) 1 then side (!up) 1 else side up (((upto 2 (hi - lo)).find? (ok up)).getD 1)

/-- One step of a coordinate toward another, `i` places on. -/
def toward (a i t : Nat) : Nat := if a ≤ t then a + i else a - i

/-- The sites that a packet passes after its first, along coordinate u and then along v, around faulted routers (R477, R484). `g u v` is
the site; lines of u lie between `ulo` and `uhi` in the partition's rectangle and end at `ulim` on the panel, those of v likewise. -/
def pathSites (bad : List Nat) (g : Nat → Nat → Nat) (ulo uhi ulim vlo vhi vlim : Nat) : Nat → Nat → Nat → Nat → Nat → List Nat
  | 0, _, _, _, _ => []
  | k + 1, u, v, tu, tv =>
    if u ≠ tu then
      let r := runLen bad (fun i => g (toward u i tu) v) 288 1
      if r = 0 ∨ (dist u tu ≤ r ∧ v = tv) then
        g (toward u 1 tu) v :: pathSites bad g ulo uhi ulim vlo vhi vlim k (toward u 1 tu) v tu tv
      else if dist u tu ≤ r then
        let w := toward v 1 tv
        sitesAlong (fun i => g i w) u tu ++ pathSites bad g ulo uhi ulim vlo vhi vlim k tu w tu tv
      else
        let b := toward u (r + 1) tu
        asideSites (fun l c => g c l) v (sideLine bad (fun l c => g c l) v u b vlo vhi (v != vlim)) u b ++
          pathSites bad g ulo uhi ulim vlo vhi vlim k b v tu tv
    else if v ≠ tv then
      let r := runLen bad (fun i => g u (toward v i tv)) 288 1
      if r = 0 ∨ dist v tv ≤ r then g u (toward v 1 tv) :: pathSites bad g ulo uhi ulim vlo vhi vlim k u (toward v 1 tv) tu tv
      else
        let b := toward v (r + 1) tv
        asideSites g u (sideLine bad g u v b ulo uhi (u != ulim)) v b ++ pathSites bad g ulo uhi ulim vlo vhi vlim k u b tu tv
    else []

/-- The sites that a packet passes from one site to another in a partition's rectangle, the first left out: x first, or y first under
YX (R477). -/
def tripSites (f : Fabric) (q : Partition) (yx : Bool) (s t : Nat) : List Nat :=
  let x0 := 18 * q.cx0
  let x1 := 18 * (q.cx0 + q.wc) - 1
  let y0 := 12 * q.cy0
  let y1 := 12 * (q.cy0 + q.hc) - 1
  if yx then pathSites f.badRouter (fun y x => y * 288 + x) y0 y1 191 x0 x1 287 600 (s / 288) (s % 288) (t / 288) (t % 288)
  else pathSites f.badRouter (fun x y => y * 288 + x) x0 x1 287 y0 y1 191 600 (s % 288) (s / 288) (t % 288) (t / 288)

/-- Hops of a trip between two sites, detours included (R481, R484). -/
def tripLen (f : Fabric) (q : Partition) (yx : Bool) (s t : Nat) : Nat :=
  if f.badRouter = [] then hopsBetween s t else (tripSites f q yx s t).length

/-- Hops of an XY trip between two sites. -/
def tripHops (f : Fabric) (q : Partition) (s t : Nat) : Nat := tripLen f q false s t

/-- Links of the XY tree from a site to several: copies of a multicast share the links up to their branch points (R15, R126). -/
def treeLinks (f : Fabric) (q : Partition) (s : Nat) (ts : List Nat) : Nat :=
  (ts.flatMap fun t => let r := tripSites f q false s t; (s :: r).zip r).eraseDups.length

/-! ### Edges (R22) -/

/-- The edge sites of a span of `n` columns or rows: edge 0 north, 1 east, 2 south, 3 west; place `i` from the west or the south. -/
def edgeSites (edge i n : Nat) : List Nat :=
  (List.range n).map fun k =>
    match edge with
    | 0 => 191 * 288 + i * n + k
    | 1 => (i * n + k) * 288 + 287
    | 2 => i * n + k
    | _ => (i * n + k) * 288

/-- The edge sites through which HBM4 stack `n` joins the mesh. -/
def stackSites (n : Nat) : List Nat := edgeSites (n / 12) (n % 12) (if n / 12 % 2 = 0 then 24 else 16)

/-- The edge sites through which Svasum port `n` joins the mesh. -/
def portSites (n : Nat) : List Nat := edgeSites (n / 8) (n % 8) (if n / 8 % 2 = 0 then 36 else 24)

/-- Hops from a site off the panel through the nearest of some edge sites (log 70, DESIGN CHOICE: the spec does not say which site of
the span a packet takes). -/
def edgeHops (s : Nat) (es : List Nat) : Nat := 1 + es.foldl (fun m e => min m (hopsBetween s e)) 478

/-- Hops between a slice's core and the stack of a channel (R22, R131). -/
def stackHops (f : Fabric) (lc chan : Nat) : Nat := edgeHops (siteOf f lc) (stackSites (chan / 32))

/-- Hops between the front end and a site (R23). -/
def frontHops (s : Nat) : Nat :=
  1 + dist (s % 288) (if s % 288 ≤ 143 then 143 else 144) + s / 288

/-- A logical core lies in the chiplets of a partition (R24). -/
def inPart (q : Partition) (lc : Nat) : Bool :=
  let x := cx lc / 16
  let y := cy lc / 12
  q.cx0 ≤ x && x < q.cx0 + q.wc && q.cy0 ≤ y && y < q.cy0 + q.hc

/-- A physical site lies in the rectangle of a partition. -/
def siteInPart (q : Partition) (s : Nat) : Bool :=
  let x := (s % 288) / 18
  let y := (s / 288) / 12
  q.cx0 ≤ x && x < q.cx0 + q.wc && q.cy0 ≤ y && y < q.cy0 + q.hc

/-- The partition of a logical core, 16 when it has none. -/
def partOf (p : Panel) (lc : Nat) : Nat :=
  match p.parts.find? fun e => inPart e.2 lc with
  | some e => e.1
  | none => 16

/-- Number of slices of a partition (R117). -/
def nSlices (q : Partition) : Nat := 192 * (q.wc * q.hc)

/-- The logical core that names slice `j` of a partition (R117). -/
def sliceCore (q : Partition) (j : Nat) : Nat :=
  let o := j / 192
  let i := j % 192
  coreXY ((q.cx0 + o % q.wc) * 16 + i % 16) ((q.cy0 + o / q.wc) * 12 + i / 16)

/-- The slice ordinal of a logical core of a partition (R117). -/
def sliceOrd (q : Partition) (lc : Nat) : Nat :=
  ((cy lc / 12 - q.cy0) * q.wc + (cx lc / 16 - q.cx0)) * 192 + coreIdx lc

/-- The product of R118 for a line (pa[51:6]). -/
def homeProd (q : Partition) (line : Nat) : Nat := (bf line 23 0 ^^^ bf line 45 24) * nSlices q

/-- The logical core whose slice is home to a line (R118). -/
def homeSlice (q : Partition) (line : Nat) : Nat := sliceCore q (bf (homeProd q line) 39 24)

/-- The set of a line within its home slice (R118). -/
def homeSet (q : Partition) (line : Nat) : Nat := bf (homeProd q line) 23 16

/-- Region of a physical address (R39). -/
def region (pa : Nat) : Nat := bf pa 51 48

/-- An HBM offset lies in a partition's range (R133). -/
def inHbm (q : Partition) (o : Nat) : Bool := q.base * 2 ^ 31 ≤ o && o < (q.base + q.count) * 2 ^ 31

/-- Populated HBM bytes: 3 TiB (R40). -/
def hbmSize : Nat := 48 * 64 * 2 ^ 30

/-- Channel and channel offset of an HBM offset (R133). -/
def hbmPlace (q : Partition) (o : Nat) : Nat × Nat :=
  let g := (o - q.base * 2 ^ 31) / 256
  ((q.chans[g % q.count]?).getD 0, (g / q.count) * 256 + (o - q.base * 2 ^ 31) % 256)

/-- STOPBASE of a partition (R468). -/
def stopBase (q : Partition) : Nat := (q.base + q.count) * 2 ^ 31 - 216 * (q.wc * q.hc) * 4096

/-- PARKBASE of a partition (R468). -/
def parkBase (q : Partition) : Nat := stopBase q - 192 * (q.wc * q.hc) * 32768

/-- The stop area of a physical site of a partition (R469). -/
def stopArea (q : Partition) (site : Nat) : Nat :=
  let x := site % 288
  let y := site / 288
  let o := (y / 12 - q.cy0) * q.wc + (x / 18 - q.cx0)
  stopBase q + 4096 * (o * 216 + (y % 12) * 18 + x % 18)

/-- The park slot of a logical core (R468). -/
def parkSlot (q : Partition) (lc : Nat) : Nat := parkBase q + 32768 * sliceOrd q lc

/-- The logical core a physical site carries, if any: searched among the cores of its cluster. -/
def coreAtSite (f : Fabric) (site : Nat) : Option Nat :=
  let x := site % 288
  let y := site / 288
  let cl := ((y / 12) * 16 + x / 18) * 24 + ((y % 12) / 3) * 6 + (x % 18) / 3
  ((List.range 8).map (clusterCore cl)).find? fun lc => siteOf f lc == site && validCore f lc

/-- The lead chiplet's south-west site: the partition scheduler's place (R415). -/
def leadSite (q : Partition) : Nat := (12 * q.cy0) * 288 + 18 * q.cx0

/-- The halt line has reached the partition scheduler, at the lead site (R467). -/
def Partition.schedHalted (q : Partition) : Bool := q.halt && q.hSites.contains (leadSite q)

end Sys2Proof.Machine
end

