-- ==== Sys2Proof/Machine/Ops.lean ====
section
/-! DEFINITION. The named operations of the panel: contexts and registers, control flow of a bundle, traps and the return
from them, waits, packets, queue registers, counters. -/

namespace Sys2Proof.Machine

/-- The result of an instruction. -/
abbrev Res := Host.Outcome State Fault Refusal

/-- A step of the panel alone: the front end and the pending turns stay as they are. -/
def onPanel (f : Panel → Panel) (s : State) : Res := .next { s with panel := f s.panel }

/-! ### Cores and contexts -/

def Panel.core (p : Panel) (lc : Nat) : Core := SMap.getD p.cores lc {}

def Panel.setCore (p : Panel) (lc : Nat) (c : Core) : Panel := { p with cores := SMap.set p.cores lc c }

def Panel.updCore (p : Panel) (lc : Nat) (f : Core → Core) : Panel := p.setCore lc (f (p.core lc))

def Panel.ctx (p : Panel) (lc slot : Nat) : Ctx := SMap.getD (p.core lc).ctxs slot {}

def Panel.setCtx (p : Panel) (lc slot : Nat) (c : Ctx) : Panel :=
  p.updCore lc fun k => { k with ctxs := SMap.set k.ctxs slot c }

def Panel.updCtx (p : Panel) (lc slot : Nat) (f : Ctx → Ctx) : Panel := p.setCtx lc slot (f (p.ctx lc slot))

/-- The context whose bundle is in execution. -/
def Panel.cc (p : Panel) : Ctx := p.ctx p.cur.core p.cur.slot

def Panel.updC (p : Panel) (f : Ctx → Ctx) : Panel := p.updCtx p.cur.core p.cur.slot f

/-- The context that sources are read from: in the A-word of a pair, as it stood before the bundle (R253). -/
def Panel.src (p : Panel) : Ctx :=
  match p.cur.latch with
  | some l => l.1
  | none => p.cc

/-- The memory that register-space sources are read from (R253). -/
def Panel.srcMem (p : Panel) : Memory :=
  match p.cur.latch with
  | some l => l.2
  | none => p.mem

/-- A g register of a context; g0 reads zero (R232). -/
def Ctx.gr (c : Ctx) (i : Nat) : W := if i = 0 then 0 else (c.g[i]?).getD 0

/-- A g register written; a write of g0 is discarded (R232). -/
def Ctx.setG (c : Ctx) (i : Nat) (v : W) : Ctx := if i = 0 then c else { c with g := c.g.setIfInBounds i v }

/-- A mask register; m0 reads all ones (R239). -/
def Ctx.mask (c : Ctx) (i : Nat) : W := if i = 0 then BitVec.allOnes 64 else (c.m[i]?).getD 0

/-- A mask register written; a write of m0 is discarded (R239). -/
def Ctx.setM (c : Ctx) (i : Nat) (v : W) : Ctx := if i = 0 then c else { c with m := c.m.setIfInBounds i v }

def Ctx.shape (c : Ctx) (i : Nat) : Line := (c.sh[i]?).getD 0

def Ctx.setSh (c : Ctx) (i : Nat) (v : Line) : Ctx := { c with sh := c.sh.setIfInBounds i v }

/-- A source g register of the bundle. -/
def Panel.gv (p : Panel) (r : Reg) : W := p.src.gr r.toNat

/-- `put(r, v)` of R275. -/
def Panel.putG (p : Panel) (r : Reg) (v : W) : Panel := p.updC fun c => c.setG r.toNat v

/-- A g register of a named thread written. -/
def Panel.putGAt (p : Panel) (lc slot r : Nat) (v : W) : Panel := p.updCtx lc slot fun c => c.setG r v

/-! ### Blocks, launches, partitions -/

def noBlock : Block :=
  { launch := 0, part := 16, idx := 0, st := .ended, ox := 0, oy := 0, w := 1, h := 1, q := 0, lmBase := 0, lmSize := 0, prio := 0 }

def noPart : Partition := { cx0 := 0, cy0 := 0, wc := 0, hc := 0, base := 0, count := 0, chans := [], grant := 0 }

def noLaunch : Launch := { part := 16, queue := 0, seq := 0 }

def Panel.block (p : Panel) (tag : Nat) : Block := SMap.getD p.blocks tag noBlock

def Panel.updBlock (p : Panel) (tag : Nat) (f : Block → Block) : Panel :=
  match SMap.find p.blocks tag with
  | some b => { p with blocks := SMap.set p.blocks tag (f b) }
  | none => p

def Panel.part (p : Panel) (i : Nat) : Partition := SMap.getD p.parts i noPart

def Panel.updPart (p : Panel) (i : Nat) (f : Partition → Partition) : Panel :=
  match SMap.find p.parts i with
  | some q => { p with parts := SMap.set p.parts i (f q) }
  | none => p

def Panel.launch (p : Panel) (i : Nat) : Launch := SMap.getD p.launches i noLaunch

def Panel.updLaunch (p : Panel) (i : Nat) (f : Launch → Launch) : Panel :=
  match SMap.find p.launches i with
  | some l => { p with launches := SMap.set p.launches i (f l) }
  | none => p

def Panel.cluster (p : Panel) (i : Nat) : Cluster := SMap.getD p.clusters i {}

def Panel.updCluster (p : Panel) (i : Nat) (f : Cluster → Cluster) : Panel :=
  { p with clusters := SMap.set p.clusters i (f (p.cluster i)) }

def Panel.slice (p : Panel) (i : Nat) : Slice := SMap.getD p.slices i {}

def Panel.updSlice (p : Panel) (i : Nat) (f : Slice → Slice) : Panel :=
  { p with slices := SMap.set p.slices i (f (p.slice i)) }

def Panel.blk (p : Panel) (lc tag : Nat) : BlkCore := SMap.getD (p.core lc).blk tag {}

def Panel.updBlk (p : Panel) (lc tag : Nat) (f : BlkCore → BlkCore) : Panel :=
  p.updCore lc fun c => { c with blk := SMap.upd c.blk tag {} f }

/-- The block of the running thread. -/
def Panel.cb (p : Panel) : Block := p.block p.cc.btag

/-- The core a logical coordinate pair of a block names. -/
def blockCore (b : Block) (x y : Nat) : Nat := coreXY (b.ox + x) (b.oy + y)

/-- The home core of a thread (R30): its block's core at CORE. -/
def Panel.homeOf (p : Panel) (c : Ctx) : Nat := blockCore (p.block c.btag) c.bx c.by_

/-- Home core of the running thread. -/
def Panel.home (p : Panel) : Nat := p.homeOf p.cc

/-- The logical cores of a block, in ascending ci (R209). -/
def blockCores (b : Block) : List Nat := (List.range (b.w * b.h)).map fun i => blockCore b (i % b.w) (i / b.w)

/-- S level of a thread: that of its block, until an ERET has restored level U (R285, R419; log 11). -/
def Panel.slevelOf (p : Panel) (c : Ctx) : Bool := (p.block c.btag).priv && !c.user

/-- S level of the running thread. -/
def Panel.slevel (p : Panel) : Bool := p.slevelOf p.cc

/-- An arrival slot holds a migrated thread (R208). -/
def awaySlot (slot : Nat) : Bool := slot == 14 || slot == 15

/-- A handler slot (R208). -/
def handlerSlot (slot : Nat) : Bool := slot == 12 || slot == 13

def Panel.isAway (p : Panel) : Bool := awaySlot p.cur.slot

def Panel.isHandler (p : Panel) : Bool := handlerSlot p.cur.slot

/-! ### Agenda, mail, free values -/

/-- An event put on the panel's agenda, `d` cycles from now. -/
def Panel.later (p : Panel) (d : Nat) (e : Instr) (args : List Nat) : Panel :=
  { p with agenda := p.agenda ++ [(p.now + d, e, args)] }

/-- An event put on the agenda unless it stands there already. -/
def Panel.once (p : Panel) (d : Nat) (e : Instr) (args : List Nat) : Panel :=
  if p.agenda.any fun x => x.2.1 == e && x.2.2 == args then p else p.later d e args

/-- Operand `i` of the event in execution. -/
def Panel.arg (p : Panel) (i : Nat) : Nat := p.ev.getD i 0

/-- A mailbox of an Ouvpin core holds its 16 entries (R416). -/
def Panel.boxFull (p : Panel) (to_ box : Nat) : Bool := 16 ≤ (p.mail.filter fun (m : Mail) => m.to_ == to_ && m.box == box).length

/-- An entry put into its mailbox, with the mailbox's next number (R416). -/
def Panel.mailIn (p : Panel) (m : Mail) : Panel :=
  let k := 8 * m.to_ + m.box
  let n := SMap.getD p.mailSeq k 0
  { p with mail := p.mail ++ [{ m with seq := n }], mailSeq := SMap.set p.mailSeq k ((n + 1) % 256) }

/-- A mailbox entry from a hardware agent to an Ouvpin core: into the mailbox of the core's own number, or behind the senders that wait for
room there (R416, R417). -/
def Panel.mailTo (p : Panel) (to_ typ : Nat) (pl : List Nat) : Panel :=
  let m : Mail := { to_ := to_, box := to_, typ := typ, payload := pl }
  if p.boxFull to_ to_ then { p with mailWait := p.mailWait ++ [m] } else p.mailIn m

/-- An Ouvpin core takes the oldest entry of a mailbox; the sender that has waited longest for it goes on (R416). -/
def Panel.mailTake (p : Panel) (to_ box : Nat) : Panel :=
  let here := fun (m : Mail) => m.to_ == to_ && m.box == box
  let q := { p with mail := match p.mail.find? here with
                            | some m => p.mail.erase m
                            | none => p.mail }
  match q.mailWait.find? here with
  | some m => if q.boxFull to_ box then q else { (q.mailIn m) with mailWait := q.mailWait.erase m }
  | none => q

/-- A report toward the host (R514). -/
def Panel.report (p : Panel) (ep typ : Nat) (pl : List Nat) : Panel := { p with reports := p.reports ++ [⟨ep, typ, pl⟩] }

/-- A free value and the counter advanced (log 3, DESIGN CHOICE). -/
def Panel.fresh (p : Panel) : W × Panel := (Config.freeWord p.free, { p with free := p.free + 1 })

/-- Energy of an event counted for a launch on a core, in pJ (R441). -/
def Panel.bill (p : Panel) (lc launch pj : Nat) : Panel :=
  p.updCore lc fun c => { c with energy := SMap.upd c.energy launch 0 (· + pj) }

/-- Energy of an event counted for the launch of a block on a core, in pJ (R441). -/
def Panel.charge (p : Panel) (lc tag pj : Nat) : Panel := p.bill lc (p.block tag).launch pj

/-- Bank cycles of a core counted for the launch of a block (R441). -/
def Panel.bankCharge (p : Panel) (lc tag n : Nat) : Panel := p.charge lc tag (20 * n)

/-! ### End of a bundle -/

/-- Address of the next bundle: pc + 4 or pc + 8 (R275). -/
def Panel.next (p : Panel) : W := p.cc.pc + w64 p.cur.len

/-- Control passes to the next bundle. The A-word of a pair leaves the pc to its C-word (R253). -/
def Panel.fin (p : Panel) : Panel :=
  if p.cur.aword then p else p.updC fun c => { c with pc := c.pc + w64 p.cur.len }

/-- Control passes to a checked target. -/
def Panel.goto (p : Panel) (t : W) : Panel := p.updC fun c => { c with pc := t }

/-- The context becomes READY; retention ends (R226, R247). Every bank of the core becomes usable in the core's one wake cycle, one
that depth 3 had turned off and a placement powers up as well (DESIGN CHOICE, log 71: R247 gives a wake latency for retained banks only). -/
def Panel.rouse (p : Panel) (lc : Nat) : Panel :=
  let c := p.core lc
  let d := if c.retDepth = 1 then 12 else 120
  if c.retDepth ≠ 0 ∧ c.wakeAt = 0 then
    (p.setCore lc { c with wakeAt := p.now + d, idleSince := p.now }).later d .bankWake [lc]
  else p.setCore lc { c with idleSince := p.now }

/-- The state of a context that nothing holds: GAP until its gap has passed, then READY; a parked one stays parked (R226). -/
def Ctx.free (c : Ctx) (now : Nat) : CtxState := if c.st = .parked then .parked else if now < c.gapUntil then .gap else .ready

/-- A context's waits cleared: it becomes READY, unless its group is parked. -/
def Panel.ready (p : Panel) (lc slot : Nat) : Panel :=
  (p.updCtx lc slot fun c => { c with st := c.free p.now, stall := .none, wake := .none, since := p.now }).rouse lc

/-- The bundle does not issue: it is tried again after a later event (R225). -/
def Panel.retry (p : Panel) : Panel :=
  { (p.updC fun c => { c with st := .stall, stall := .retry p.evs }) with
    cur := { p.cur with stalled := true } }

/-- The bundle has issued and its thread waits for an event (R225); a thread whose group has parked with it stays parked. -/
def Panel.stallFor (p : Panel) (w : Stall) : Panel := p.updC fun c => { c with st := if c.st = .parked then .parked else .stall, stall := w }

/-- The bundle has issued and its thread is at a blocking point (R224). -/
def Panel.block_ (p : Panel) (w : Wake) : Panel := p.updC fun c => { c with st := if c.st = .parked then .parked else .blocked, wake := w }

/-- The gap before the next bundle lengthened for an access of `k` bank cycles (R84), which are charged (R441). -/
def Panel.bankGap (p : Panel) (k : Nat) : Panel :=
  let p := p.bankCharge p.cur.core p.cc.btag k
  if k ≤ 1 then p
  else (p.updC fun c => { c with gapUntil := max c.gapUntil (p.now + 8 + (k - 1)) }).later (8 + (k - 1))
    .issueGapEnd [p.cur.core, p.cur.slot]

/-! ### The halt line (R466) -/

/-- The halt line of a partition raised at a site: reason, cause, TVAL. A second trigger changes nothing. -/
def Panel.raiseHalt (p : Panel) (part site reason cause : Nat) (tval : W) : Panel :=
  if (p.part part).halt then p
  else
    ((p.updPart part fun q =>
      { q with halt := true, hReason := reason, hCause := cause, hSite := site, hTval := tval, hAt := p.now, hSites := [] }).later 0
        .haltLineArrival [part, site]).report 2 0x8203 [part, reason, cause, site, stopBase (p.part part), tval.toNat]

/-! ### Gangs (R214-R217) -/

/-- A gang dissolved: no member names it any more. -/
def Panel.dissolve (p : Panel) (gang : List Nat) (slot : Nat) : Panel :=
  gang.foldl (fun q lc => q.updCtx lc slot fun c => { c with gang := [], gangStep := 0 }) p

/-! ### Rings (R221, R228) -/

/-- HEAD of a ring as it stood at the start of the cycle (R228). -/
def Ring.headAtStart (r : Ring) (now : Nat) : Nat := if r.headAt = now + 1 then r.headOld else r.head

/-- HEAD written in a cycle. -/
def Ring.setHead (r : Ring) (now head : Nat) : Ring := { r with head := head, headOld := r.headAtStart now, headAt := now + 1 }

/-! ### Packets (R94, R475, R481, R488, R522) -/

/-- The event that performs a packet at its core. -/
def payEvent : Pay → Instr
  | .access _ => .remoteAccessArrival
  | .amo _ => .remoteAtomicArrival
  | .bar .. => .barrierOpArrival
  | .pend .. => .pendDecrement
  | .twperm .. => .twpermArrival
  | .msg .. => .messageArrival
  | .handler .. => .handlerMessageArrival
  | .mig .. => .migrationContextArrival
  | .bounce .. => .migrationBounceArrival
  | .home .. => .homeReturnArrival
  | .wake _ => .wakeMessage
  | .line .. => .lineDelivery

/-- Message class (true) or request class (false) of a packet (R475). -/
def payMsg : Pay → Bool
  | .msg .. => true
  | .handler .. => true
  | .mig .. => true
  | .bounce .. => true
  | .home .. => true
  | .wake _ => true
  | .access _ => false
  | .amo _ => false
  | .bar .. => false
  | .pend .. => false
  | .twperm .. => false
  | .line .. => false

/-- Data flits behind a packet's header (R522). -/
def dataFlits (p : Panel) : Pay → Nat
  | .access id => (match SMap.find p.accs id with
    | some a => if a.size ≤ 8 ∨ (a.kind != .vstore && a.kind != .store) then 0 else cdiv a.size 32
    | none => 0)
  | .amo _ => 0
  | .bar .. => 0
  | .pend .. => 0
  | .twperm .. => 0
  | .wake _ => 0
  | .msg _ ws .. => cdiv (8 * ws.length) 32
  | .handler ws .. => cdiv (8 * ws.length) 32
  | .mig .. => 5
  | .bounce .. => 5
  | .home .. => 5
  | .line _ n .. => cdiv n 32

/-- Kinds of access that the replay log covers (R488). -/
def loggedKind : AKind → Bool
  | .store => true | .vstore => true | .stfl => true | .feclr => true | .amo => true | .twperm => true
  | .load => false | .vload => false | .fmtLoad => false | .fetch => false | .shLoad => false | .ldsy => false
  | .ldsyTake => false | .send => false | .barrier => false

/-- The access that a packet carries. -/
def payAcc (p : Panel) : Pay → Option Access
  | .access id => SMap.find p.accs id
  | .amo id => SMap.find p.accs id
  | .bar _ _ _ _ _ _ _ _ id => SMap.find p.accs id
  | .twperm _ id => SMap.find p.accs id
  | .msg .. => none | .handler .. => none | .mig .. => none | .bounce .. => none | .home .. => none | .wake _ => none
  | .pend .. => none | .line .. => none

/-- Does a packet carry a number among those of its two cores (R488)? -/
def payLogged (p : Panel) : Pay → Bool
  | .access id => (match SMap.find p.accs id with | some a => loggedKind a.kind | none => false)
  | .amo _ => true
  | .bar .. => true
  | .twperm .. => true
  | .msg .. => true
  | .handler .. => true
  | .mig .. => true
  | .bounce .. => true
  | .home .. => true
  | .pend .. => false | .wake _ => false | .line .. => false

/-- The block whose command delivers a line; 0 for the staging path. -/
def delivTag (p : Panel) : Deliv → Nat
  | .mcrd core num => (((p.core core).mcrd.find? fun x => x.num == num).map (·.btag)).getD 0
  | .relay cl ch _ => (SMap.getD (p.cluster cl).relay ch {}).btag
  | .walk core _ => (p.core core).walk.btag
  | .stage .. => 0

/-- The block whose launch pays for a packet's flits (R441). -/
def payTag (p : Panel) (x : Pay) : Nat :=
  match x with
  | .msg _ _ _ _ _ t _ _ _ _ => t
  | .handler _ _ _ t _ _ _ => t
  | .mig c .. => c.btag
  | .bounce c _ => c.btag
  | .home c .. => c.btag
  | .pend _ t .. => t
  | .wake _ => 0
  | .line _ _ _ _ _ by_ => delivTag p by_
  | .access _ => (match payAcc p x with | some a => a.btag | none => 0)
  | .amo _ => (match payAcc p x with | some a => a.btag | none => 0)
  | .bar .. => (match payAcc p x with | some a => a.btag | none => 0)
  | .twperm t _ => t

/-- The launch that pays for a packet's flits (R441): that of a staged line is its staging command's. -/
def payLaunch (p : Panel) (x : Pay) : Nat :=
  let of_ := (p.block (payTag p x)).launch
  match x with
  | .line _ _ _ _ _ (.stage cl num) => (((p.cluster cl).stage.find? fun s => s.num == num).map (·.launch)).getD 0
  | .line _ _ _ _ _ (.mcrd ..) => of_ | .line _ _ _ _ _ (.relay ..) => of_ | .line _ _ _ _ _ (.walk ..) => of_
  | .access _ => of_ | .amo _ => of_ | .bar .. => of_ | .msg .. => of_ | .handler .. => of_ | .mig .. => of_ | .bounce .. => of_
  | .home .. => of_ | .wake _ => of_ | .pend .. => of_ | .twperm .. => of_

/-- Flits that a core's replay log holds; the log of 32 KiB holds 1,024 (log 15, DEDUCED). -/
def logFlits (p : Panel) (lc : Nat) : Nat := (p.core lc).log.foldl (fun n l => n + 1 + (match l.acc with
  | some a => if a.size ≤ 8 then 0 else cdiv a.size 32
  | none => dataFlits p l.pay)) 0

/-- A checkpoint of a core requested (R297, R487). -/
def Panel.requestCkpt (p : Panel) (lc : Nat) : Panel :=
  if (p.core lc).ckptReq then p else (p.updCore lc fun c => { c with ckptReq := true }).later 1 .checkpoint [lc]

/-! ### Routes (R477-R481) -/

/-- The route of a class as the partition configures it: its mode, with AUTO resolved, plus 8 × SEED under TWOPHASE. -/
def cfgRoute (q : Partition) (cls : Nat) : Nat :=
  let m := q.modes.getD cls 0
  if m = 3 ∨ (m = 4 ∧ q.autoOn) then 3 + 8 * q.seed else if m = 4 then 0 else m

/-- The route that a core's network interface gives a class: the old one until it has adopted the new one (R479). -/
def Panel.routeOf (p : Panel) (q : Partition) (lc cls : Nat) : Nat := SMap.getD (p.core lc).route cls (cfgRoute q cls)

/-- The intermediate site of a pair under TWOPHASE: a hash over the sites of the partition's rectangle (log 7, DESIGN CHOICE). -/
def midSite (q : Partition) (seed s t : Nat) : Nat :=
  let n := Config.twoPhaseHash seed s t % (216 * (q.wc * q.hc))
  (12 * q.cy0 + n / (18 * q.wc)) * 288 + 18 * q.cx0 + n % (18 * q.wc)

/-- The hop count that R481 gives a packet of a class between two cores. -/
def Panel.trip (p : Panel) (a b cls : Nat) : Nat :=
  let q := p.part (partOf p a)
  let s := siteOf p.fabric a
  let t := siteOf p.fabric b
  let r := p.routeOf q a cls
  match r % 8 with
  | 1 => tripLen p.fabric q true s t
  | 2 =>
    let c := SMap.getD q.table (chipOf b) 0
    let w := siteOf p.fabric (coreXY (16 * (c % 16) + 8) (12 * (c / 16) + 6))
    tripHops p.fabric q s w + tripHops p.fabric q w t + 4
  | 3 => let m := midSite q (r / 8) s t; tripHops p.fabric q s m + tripHops p.fabric q m t + 4
  | _ => tripHops p.fabric q s t

/-- A packet enters the network: it may enter its core's FIFO after `h` hops (R94, R481). -/
def Panel.injectAt (p : Panel) (to_ h : Nat) (k : Packet) : Panel :=
  let f := dataFlits p k.pay
  let d := if payMsg k.pay then 12 + 2 * h + f else 8 + 2 * h + f
  (p.updCore to_ fun c => { c with net := c.net ++ [(p.now + d, k)] }).later d (payEvent k.pay) [to_]

/-- A packet enters the network on the route of its class; its launch pays for its flits' hops (R441). One copy of a multicast (`tree`)
goes XY, and the links of the whole tree are charged together (R15, R126). -/
def Panel.inject (p : Panel) (to_ : Nat) (k : Packet) (tree : Bool) : Panel :=
  if tree then p.injectAt to_ (tripHops p.fabric (p.part (partOf p k.src)) (siteOf p.fabric k.src) (siteOf p.fabric to_)) k
  else
    let h := p.trip k.src to_ (if payMsg k.pay then 2 else 0)
    (p.injectAt to_ h k).bill k.src (payLaunch p k.pay) (12 * h * (dataFlits p k.pay + 1))

/-- The flit hops of a multicast's tree, charged to the launch of a block (R15, R441). -/
def Panel.treeCharge (p : Panel) (from_ tag flits : Nat) (ts : List Nat) : Panel :=
  p.charge from_ tag (12 * flits * treeLinks p.fabric (p.part (partOf p from_)) (siteOf p.fabric from_) (ts.map (siteOf p.fabric)))

/-- A packet sent from one core to another, or through the loop-back port. One that the replay log covers takes the next
number of its pair of cores and, while checkpoints are on, is kept until its destination has acknowledged it; a log
three-quarters full asks for a checkpoint at the destination of its oldest entry (R486, R488). -/
def Panel.sendOn (p : Panel) (tree : Bool) (from_ to_ : Nat) (x : Pay) : Panel :=
  if payLogged p x then
    let n := SMap.getD (p.core from_).seqOut to_ 1
    let keep := (p.part (partOf p from_)).ckEn ∧ from_ ≠ to_
    let p1 := p.updCore from_ fun c =>
      { c with seqOut := SMap.set c.seqOut to_ (n + 1)
               log := if keep then c.log ++ [⟨to_, n, x, payAcc p x⟩] else c.log }
    let p2 := if 768 ≤ logFlits p1 from_ then
        match (p1.core from_).log with
        | l :: _ => p1.requestCkpt l.dst
        | [] => p1
      else p1
    p2.inject to_ ⟨x, from_, some n⟩ tree
  else p.inject to_ ⟨x, from_, none⟩ tree

/-- A packet sent on the route of its class. -/
def Panel.send (p : Panel) (from_ to_ : Nat) (x : Pay) : Panel := p.sendOn false from_ to_ x

/-- Flits that a core's arrival FIFO holds (R94). -/
def fifoFlits (p : Panel) (lc : Nat) : Nat := (p.core lc).fifo.foldl (fun n k => n + 1 + dataFlits p k.pay) 0

/-- Packets of a core's FIFO of the kind of an event. -/
def Core.coming (c : Core) (e : Instr) : Nat := (c.fifo.filter fun k => payEvent k.pay == e).length

/-- A packet may enter a core's FIFO: there is room for its flits; while the handler queue is full, every packet of the message class
waits, and a permit waits for room in q2 (R94, R219, R384). -/
def Panel.mayEnter (p : Panel) (lc : Nat) (k : Packet) : Bool :=
  fifoFlits p lc + 1 + dataFlits p k.pay ≤ 64 &&
  (!payMsg k.pay || (p.core lc).hq.length + (p.core lc).coming .handlerMessageArrival < 4) &&
  (match k.pay with
    | .twperm tag _ => (SMap.getD (p.blk lc tag).q 2 []).length + (p.core lc).coming .twpermArrival < 32
    | .access _ => true | .amo _ => true | .bar .. => true | .pend .. => true | .msg .. => true | .handler .. => true | .mig .. => true | .bounce .. => true
    | .home .. => true | .wake _ => true | .line .. => true)

/-- The packets that come next, of each source and class (R182, R475). -/
def firstsOf : List (Nat × Packet) → List (Nat × Bool) → List (Nat × Packet)
  | [], _ => []
  | e :: t, seen =>
    let k := (e.2.src, payMsg e.2.pay)
    if seen.contains k then firstsOf t seen else e :: firstsOf t (k :: seen)

/-- Of two packets, the one that came first. -/
def sooner (a b : Nat × Packet) : Nat × Packet := if b.1 < a.1 then b else a

/-- The packet that enters a core's FIFO next: the first to have come, or, with `from_` = s + 1, that of source s. -/
def Panel.nextIn (p : Panel) (lc from_ : Nat) : Option (Nat × Packet) :=
  match (firstsOf (p.core lc).net []).filter fun e => decide (e.1 ≤ p.now) && (from_ == 0 || from_ == e.2.src + 1) && p.mayEnter lc e.2 with
  | [] => none
  | e :: t => some (t.foldl sooner e)

/-- Packets enter a core's FIFO while there is room: all that have come, or the next one of source `from_` - 1. -/
def Panel.enterFifo (p : Panel) (lc from_ : Nat) : Nat → Panel
  | 0 => p
  | k + 1 =>
    match p.nextIn lc from_ with
    | none => p
    | some e =>
      let q := p.updCore lc fun c => { c with net := c.net.erase e, fifo := c.fifo ++ [e.2] }
      if from_ = 0 then q.enterFifo lc 0 k else q

/-- The packet that a core's arrival FIFO performs next, when the core is not fenced (R94, R483). -/
def Panel.headK (p : Panel) (lc : Nat) : Option Packet := if (p.core lc).failed then none else (p.core lc).fifo.head?

/-- Its contents. -/
def Panel.head (p : Panel) (lc : Nat) : Option Pay := (p.headK lc).map (·.pay)

/-- What comes up next at a core: the head of its FIFO, or the next packet that may enter it. -/
def Panel.stir (p : Panel) (lc : Nat) : Panel :=
  match p.head lc, p.nextIn lc 0 with
  | some x, _ => p.later 1 (payEvent x) [lc]
  | none, some e => p.later 1 (payEvent e.2.pay) [lc]
  | none, none => p

/-- Packets come in at the core that an arrival event names, those of one source when its second operand names it; a head of another kind
waits for its own event. -/
def Panel.incoming (p : Panel) (e : Instr) : Panel :=
  let lc := p.arg 0
  if (p.core lc).failed then p
  else
    let q := p.enterFifo lc (p.arg 1) (p.core lc).net.length
    match q.head lc with
    | some x => if payEvent x = e then q else q.stir lc
    | none => q

/-- Sources from this one on stand for packets that a placement table sent on: their number counts them for the pair of cores that they were sent
between, and not for the core that they were sent on to (R460, R488). -/
def forwardedSrc : Nat := 2 ^ 16

/-- The next packet is a logged one that its core has consumed before (R489). -/
def Panel.stale (p : Panel) (lc : Nat) (k : Packet) : Bool :=
  match k.seq with
  | some n => decide (k.src < forwardedSrc) && n < SMap.getD (p.core lc).seqIn k.src 0
  | none => false

/-- The arrival FIFO without the packet just performed, its number noted as consumed; the next comes up. -/
def Panel.pop (p : Panel) (lc : Nat) : Panel :=
  (p.updCore lc fun c =>
    match c.fifo with
    | x :: t =>
      { c with
        fifo := t
        seqIn := match x.seq with
          | some n => if forwardedSrc ≤ x.src then c.seqIn else SMap.set c.seqIn x.src (max (n + 1) (SMap.getD c.seqIn x.src 0))
          | none => c.seqIn }
    | [] => c).stir lc

/-! ### Traps (R450-R454) -/

/-- Class of a cause (R450): 0 U, 1 P, 2 F. -/
def causeClass (cause : Nat) : Nat := if 0x30 ≤ cause then 2 else if 0x20 ≤ cause then 1 else 0

/-- TVEC as it stood at the start of the cycle (R474). -/
def Block.trapVec (b : Block) (now : Nat) : W := if b.tvecAt = now + 1 then b.tvecOld else b.tvec

/-- TVEC written in a cycle. -/
def Block.setTvec (b : Block) (now : Nat) (t : W) : Block := { b with tvec := t, tvecOld := b.trapVec now, tvecAt := now + 1 }

/-- A trap delivered to the thread in a slot that is not an arrival slot. Class U goes to TVEC as it stood at the start of the cycle
(R474); with TVEC = 0, at TVEC itself
(TRAP_LOOP) or of class F it stops the thread and raises the halt line (R450, R452-R454, R472). A PAGE_FAULT is raised by the bundle
that TPC holds, imprecise as it is (R158); every other imprecise trap, by an earlier one (log 39). -/
def Panel.deliver (p : Panel) (lc slot cause : Nat) (tval : W) (impr aword away : Bool) : Panel :=
  let c := p.ctx lc slot
  let b := p.block c.btag
  let site := siteOf p.fabric lc
  let tvec := b.trapVec p.now
  let dbg := cause = 0x10 ∧ (p.part b.part).dbgarm
  let loop := causeClass cause = 0 ∧ tvec ≠ 0 ∧ c.pc = tvec ∧ (¬ impr ∨ cause = 0x12) ∧ ¬ dbg
  let fatal := causeClass cause = 2 ∨ tvec = 0 ∨ loop
  let cause' := if loop then 0x37 else cause
  let cls := if dbg then 0 else if fatal then 2 else 0
  let p1 := p.dissolve c.gang slot
  let p2 := p1.updCtx lc slot fun c =>
    { c with
      tcause := BitVec.ofNat 10 (cls * 256 + cause')
      tpc := c.pc
      tval := tval
      tstate := BitVec.ofNat 5 (b2n away * 16 + b2n (c.gang != []) * 8 + b2n (p.slevelOf c) * 4 + b2n aword * 2 + b2n impr)
      gang := []
      goes := false
      wake := .none
      stall := if fatal ∧ ¬ dbg then .fatal else .none
      st := if fatal ∧ ¬ dbg then .stall else c.free p.now
      pc := if fatal ∨ dbg then c.pc else tvec }
  if dbg then p2.raiseHalt b.part site 4 0x10 tval
  else if fatal then p2.raiseHalt b.part site 1 cause' tval
  else p2

/-- The slots of a core that hold a thread or handler of a block. -/
def tagSlots (p : Panel) (lc tag : Nat) : List Nat :=
  (List.range 16).filter fun s => (p.ctx lc s).btag == tag && (p.ctx lc s).st != .empty

/-- EN cleared on the rings of a block on a core; other fields keep their values (R221). -/
def Panel.ringsOff (p : Panel) (lc tag : Nat) : Panel :=
  p.updCore lc fun c =>
    { c with rings := c.rings.map fun (e : Nat × Ring) => if e.2.en && e.2.btag == tag then (e.1, { e.2 with en := false }) else e }

/-- A slot becomes EMPTY; the rings of its block on the core go off with the block's last context there (R221). -/
def Panel.vacate (p : Panel) (lc slot : Nat) : Panel :=
  let tag := (p.ctx lc slot).btag
  let q := p.setCtx lc slot {}
  if tagSlots q lc tag = [] then q.ringsOff lc tag else q

/-- A trap of the running bundle: nothing else of the bundle takes effect. A migrated thread first returns home (R452), when
its loads and stores have completed, since no counter travels with it (R99, R100; log 13, DEDUCED). -/
def Panel.trap (p : Panel) (cause : Nat) (tval : W) : Panel :=
  if p.isAway ∧ ¬ (p.cc.ldc = 0 ∧ p.cc.stc = 0) then p.retry
  else if p.isAway then
    let c := p.cc
    let q := p.send p.cur.core c.homeCore (.home { c with pend := c.pend ++ [⟨cause, tval, false, p.cur.aword⟩] } 0 0 0 0 0 p.cur.slot)
    { (q.vacate p.cur.core p.cur.slot) with cur := { p.cur with trapped := true } }
  else { p.deliver p.cur.core p.cur.slot cause tval false p.cur.aword false with cur := { p.cur with trapped := true } }

/-- A trap that names no TVAL: TVAL holds the instruction word (R452). -/
def Panel.trapW (p : Panel) (cause : Nat) : Panel := p.trap cause p.cur.word

/-- A trap of an address check. No rule names a TVAL for ALIGNMENT_FAULT, so that it holds the instruction word (R452); the others hold the
address. -/
def Panel.trapA (p : Panel) (cause va : Nat) : Panel := p.trap cause (if cause = 0x04 then p.cur.word else w64 va)

def Panel.illegal (p : Panel) : Panel := p.trapW 0x01

/-- An imprecise trap of a thread, taken at its first bundle that has not issued (R321, R158): it waits in the context. -/
def Panel.trapThread (p : Panel) (lc slot cause : Nat) (tval : W) : Panel :=
  p.updCtx lc slot fun c => { c with pend := c.pend ++ [⟨cause, tval, true, false⟩] }

/-- A core leaves retention for a context that nothing holds (R247). -/
def Panel.rouseOf (p : Panel) (lc slot : Nat) : Panel := if (p.ctx lc slot).st = .stall then p else p.rouse lc

/-- A trap taken at home by a thread that trapped while away (R452); the core leaves retention (R247). -/
def pendHome (p : Panel) (lc slot : Nat) (t : PendTrap) : Panel := (p.deliver lc slot t.cause t.tval t.impr t.aword true).rouseOf lc slot

/-- Target check of every transfer of control (R282): a trap cause, or none. -/
def badTarget (t : W) : Option Nat :=
  let n := t.toNat
  if n % 4 ≠ 0 then some 0x02
  else if bf n 63 55 ≠ 0 ∨ n ≤ 0x3FFFF ∨ bf n 54 35 = 0xFFFFF then some 0x03
  else none

/-- `jump(t)` of R282, after the register writes `f` of the bundle. -/
def Panel.jump (p : Panel) (t : W) (f : Panel → Panel) : Panel :=
  match badTarget t with
  | some c => p.trap c t
  | none => (f p).goto t

/-- ERET: the thread resumes at TPC, which is checked as every target, at the level that TSTATE holds (R282, R285; log 11, DEDUCED). -/
def Panel.eret (p : Panel) : Panel := p.jump p.cc.tpc fun q => q.updC fun c => { c with user := !c.tstate.getLsbD 2 }

/-! ### Going home (R102) -/

/-- A migrated thread sends itself home; `kind` names the access it performs there, 0 for none (R100, R102). It waits for
its outstanding loads and stores first (log 13, DEDUCED). -/
def Panel.goHome (p : Panel) (kind : Nat) (addr data : W) (width dest : Nat) : Panel :=
  let c := if kind = 0 then { p.cc with replay := p.cur.replay } else p.cc
  if ¬ (c.ldc = 0 ∧ c.stc = 0) then p.retry
  else
  let q := p.send p.cur.core c.homeCore (.home c kind addr data width dest p.cur.slot)
  { (q.vacate p.cur.core p.cur.slot) with cur := { p.cur with stalled := true } }

/-- An instruction that a migrated thread does not execute away from home (R102). -/
def Panel.atHome (p : Panel) (k : Panel → Panel) : Panel := if p.isAway then p.goHome 0 0 0 0 0 else k p

/-! ### Counters (R263, R264) -/

/-- The limit check of a counter class for the running thread: `n` more operations fit. -/
def Panel.roomL (p : Panel) : Bool := p.cc.ldc < 15
def Panel.roomS (p : Panel) : Bool := p.cc.stc < 15
def Panel.roomC (p : Panel) : Bool := p.cc.cpc < 7
def Panel.roomT (p : Panel) : Bool := p.cc.tlc < 7

def Panel.incL (p : Panel) : Panel := p.updC fun c => { c with ldc := c.ldc + 1 }
def Panel.incS (p : Panel) : Panel := p.updC fun c => { c with stc := c.stc + 1 }
def Panel.incC (p : Panel) : Panel := p.updC fun c => { c with cpc := c.cpc + 1 }
def Panel.incT (p : Panel) : Panel := p.updC fun c => { c with tlc := c.tlc + 1 }

/-- A thread that waits to migrate goes on once its loads and stores have completed (R99). -/
def Panel.moveCheck (p : Panel) (lc slot : Nat) : Panel :=
  let c := p.ctx lc slot
  if c.stall = .migrate ∧ c.ldc = 0 ∧ c.stc = 0 then p.later 0 .migrateAfterStall [lc, slot] else p

def Panel.decL (p : Panel) (lc slot : Nat) : Panel :=
  (p.updCtx lc slot fun c => { c with ldc := c.ldc - 1 }).moveCheck lc slot
def Panel.decS (p : Panel) (lc slot : Nat) : Panel :=
  (p.updCtx lc slot fun c => { c with stc := c.stc - 1 }).moveCheck lc slot
def Panel.decC (p : Panel) (lc slot : Nat) : Panel := p.updCtx lc slot fun c => { c with cpc := c.cpc - 1 }
def Panel.decT (p : Panel) (lc slot : Nat) : Panel := p.updCtx lc slot fun c => { c with tlc := c.tlc - 1 }

/-! ### Queue registers (R243, R244) -/

/-- Depth of a queue register (R243). -/
def qDepth (q : Nat) : Nat := if q < 5 then 32 else if 8 ≤ q then 16 else 0

/-- The entries of a queue register of a block on a core, oldest first. -/
def Panel.queue (p : Panel) (lc tag q : Nat) : List W := SMap.getD (p.blk lc tag).q q []

def Panel.setQueue (p : Panel) (lc tag q : Nat) (es : List W) : Panel :=
  p.updBlk lc tag fun b => { b with q := SMap.set b.q q es }

/-- A completion of an engine command: pushed, with its counter lowered, or held while the queue is full (R244). -/
def Panel.complete (p : Panel) (lc tag q : Nat) (entry : W) (slot : Nat) (copies : Bool) : Panel :=
  if (p.queue lc tag q).length < qDepth q ∧ ((p.blk lc tag).held.filter fun h => h.q == q) = [] then
    let p1 := p.setQueue lc tag q (p.queue lc tag q ++ [entry])
    if copies then p1.decC lc slot else p1.decT lc slot
  else
    (p.updBlk lc tag fun b => { b with held := b.held ++ [⟨q, entry, slot, copies⟩] }).later 1 .heldCompletionLand [lc, tag]

/-! ### Memory bytes of cores -/

/-- Bytes of a core's local memory written, with their 1 KiB pages marked for the next checkpoint (R487). -/
def Panel.lmWrite (p : Panel) (lc off n v : Nat) : Panel :=
  if n = 0 then p
  else
    ({ p with mem := Memory.writeN p.mem (lmA lc off) n v }).updCore lc fun c =>
      { c with dirty := [off / 1024, (off + n - 1) / 1024].foldl (fun d x => if d.contains x then d else d ++ [x]) c.dirty }

/-- A word of a core's local memory (8 bytes at an 8-byte offset). -/
def Panel.lmRead (p : Panel) (lc off n : Nat) : Nat := Memory.readN p.mem (lmA lc off) n

/-- Is a word full? -/
def Panel.isFull (p : Panel) (lc word : Nat) : Bool := (p.core lc).fe.contains word

def Panel.setFull (p : Panel) (lc word : Nat) : Panel :=
  p.updCore lc fun c => { c with fe := if c.fe.contains word then c.fe else c.fe ++ [word] }

def Panel.setEmpty (p : Panel) (lc word : Nat) : Panel :=
  p.updCore lc fun c => { c with fe := c.fe.filter (· != word) }

/-- Raise the halt line of the partition of a core for a class F fault that no thread takes (R454). -/
def Panel.fatalAt (p : Panel) (lc cause : Nat) (tval : W) : Panel :=
  p.raiseHalt (partOf p lc) (siteOf p.fabric lc) 1 cause tval

end Sys2Proof.Machine
end

