-- ==== Sys2Proof/Machine/Operands.lean ====
section
/-! DEFINITION. Operand forms: virtual addresses and their regions (R27-R36), bit addresses (R86), views of register space
(R236-R238), destination and mask descriptors (R318), shape records (R240-R242), and the registers a bundle names (R288, R333). -/

namespace Sys2Proof.Machine

/-! ### Virtual addresses -/

/-- Regions of the address space (R28). -/
inductive Region where
  | none | private_ | mesh | paged
  deriving DecidableEq, Repr

/-- The region of a virtual address: the first test of R28 that holds. -/
def regionOf (va : Nat) : Region :=
  if bf va 63 55 ≠ 0 then .none
  else if va ≤ 0x3FFFF then .private_
  else if bf va 54 35 = 0xFFFFF then .mesh
  else .paged

/-- Where an access of a thread goes. -/
inductive Place where
  /-- physical local-memory offset on a core; through the router when `mesh` -/
  | lm (core off : Nat) (mesh : Bool)
  | paged
  /-- a trap cause -/
  | bad (cause : Nat)
  deriving DecidableEq, Repr

/-- The private alias: an offset into the thread's own window on its home core (R30). -/
def privPlace (p : Panel) (c : Ctx) (va size : Nat) : Place :=
  let b := p.block c.btag
  if va + size - 1 < b.lmSize * 1024 then .lm (p.homeOf c) (b.lmBase * 1024 + va) false else .bad 0x03

/-- The coordinate checks of R32: the target core, or a cause; `anyPart` lets a U-level thread of any launch use the
absolute form over its partition (R318). -/
def meshTarget (p : Panel) (c : Ctx) (abs_ : Bool) (x y : Nat) (anyPart : Bool) : Except Nat Nat :=
  let b := p.block c.btag
  if !abs_ then
    let tx := (c.bx : Int) + sgn 8 x
    let ty := (c.by_ : Int) + sgn 8 y
    if tx < 0 ∨ (b.w : Int) ≤ tx ∨ ty < 0 ∨ (b.h : Int) ≤ ty then .error 0x05
    else
      let t := blockCore b tx.toNat ty.toNat
      if validCore p.fabric t then .ok t else .error 0x03
  else if 192 ≤ y then .error 0x03
  else
    let t := coreXY x y
    if p.slevelOf c ∨ anyPart then
      if !inPart (p.part b.part) t then .error 0x05
      else if validCore p.fabric t then .ok t else .error 0x03
    else if !b.pinned then .error 0x05
    else if x < b.ox ∨ b.ox + b.w ≤ x ∨ y < b.oy ∨ b.oy + b.h ≤ y then .error 0x05
    else if validCore p.fabric t then .ok t else .error 0x03

/-- Mesh-window decoding (R32). -/
def meshPlace (p : Panel) (c : Ctx) (va size : Nat) : Place :=
  let b := p.block c.btag
  match meshTarget p c (bt va 34) (bf va 33 26) (bf va 25 18) false with
  | .error e => .bad e
  | .ok t =>
    let raw := bt va 34 && p.slevelOf c
    let lim := if raw then 262144 else b.lmSize * 1024
    if lim ≤ bf va 17 0 + size - 1 then .bad 0x03
    else .lm t ((if raw then 0 else b.lmBase * 1024) + bf va 17 0) true

/-- The place of `size` bytes at `va`: classified by the first byte, the last byte in the same region (R28, R36). -/
def place (p : Panel) (c : Ctx) (va size : Nat) : Place :=
  if regionOf va = .none then .bad 0x03
  else if size ≠ 0 ∧ regionOf (va + size - 1) ≠ regionOf va then .bad 0x03
  else
    match regionOf va with
    | .none => .bad 0x03
    | .private_ => privPlace p c va size
    | .mesh => meshPlace p c va size
    | .paged => .paged

/-- A bit address: `width` bits from `ba` (R86); the place of its bytes and the bit within the first. -/
def placeBits (p : Panel) (c : Ctx) (ba width : Nat) : Place :=
  if bf ba 63 58 ≠ 0 then .bad 0x03
  else
    match place p c (ba / 8) ((ba + width - 1) / 8 - ba / 8 + 1) with
    | .paged => .bad 0x03
    | x => x

/-- Bank cycles of a scalar access: the 64-bit words it touches (R84). -/
def wordsTouched (off size : Nat) : Nat := if size = 0 then 0 else (off + size - 1) / 8 - off / 8 + 1

/-- Bank cycles of a vector access: the aligned 64-byte groups it touches (R84). -/
def groupsTouched (off size : Nat) : Nat := if size = 0 then 0 else (off + size - 1) / 64 - off / 64 + 1

/-- In a strict launch every byte must lie in one declared range that allows the access: 1 read, 2 write (R164). -/
def strictOk (l : Launch) (va size need : Nat) : Bool :=
  !l.strict || l.ws.any fun d => d.va ≤ va && va + size ≤ d.va + d.len && (d.access &&& need) == need

/-- The launch of the running thread. -/
def Panel.cl (p : Panel) : Launch := p.launch p.cb.launch

/-! ### Views (R236-R238) -/

/-- Window offset of vector `i` (R236). -/
def vecOff (c : Ctx) (i : Nat) : Nat := 64 * (bf c.vv.toNat 9 0 + i * (bf c.vv.toNat 19 16 + 1))

/-- Vectors mapped by VV. -/
def vecCount (c : Ctx) : Nat := bf c.vv.toNat 15 10

/-- Register-space address (in the one memory) of a window offset of a thread on its core. -/
def rsWin (lc : Nat) (c : Ctx) (off : Nat) : Nat := rsA lc (64 * c.rsBase + off)

/-- A light thread or a handler, which hold no views (R204, R333). -/
def noViews (p : Panel) : Bool := p.cb.light || p.isHandler

/-- Every vector of the group `i .. i + k - 1` is mapped (R237, R265). -/
def vecOk (p : Panel) (c : Ctx) (i k : Nat) : Bool := !noViews p && i + k ≤ vecCount c

/-- Address of vector `i` of the source context on the running core. -/
def vecAddr (p : Panel) (c : Ctx) (i : Nat) : Nat := rsWin p.cur.core c (vecOff c i)

/-- A source vector. -/
def Panel.vec (p : Panel) (i : Nat) : Line := BitVec.ofNat 512 (Memory.readN p.srcMem (vecAddr p p.src i) 64)

/-- A vector as it stands, in the A-word of a pair with what the C-word has written: what a lane that the instruction does not write keeps
(R253, R330). -/
def Panel.vecNow (p : Panel) (i : Nat) : Line := BitVec.ofNat 512 (Memory.readN p.mem (vecAddr p p.src i) 64)

/-- A vector written whole. -/
def Panel.putVec (p : Panel) (i : Nat) (v : Line) : Panel :=
  { p with mem := Memory.writeN p.mem (vecAddr p p.src i) 64 v.toNat }

/-- Lane `j` of `n`-bit lanes (R51, R330). -/
def lane (n : Nat) (v : Line) (j : Nat) : Nat := bf v.toNat (n * j + n - 1) (n * j)

/-- The lanes `0 .. 512/n - 1` of a vector. -/
def lanes (n : Nat) (v : Line) : List Nat := (List.range (512 / n)).map (lane n v)

/-- The vector whose lanes are given, lowest first. -/
def ofLanes (n : Nat) : List Nat → Nat
  | [] => 0
  | x :: t => x % 2 ^ n + 2 ^ n * ofLanes n t

/-- The addresses of the vectors of a group. -/
def groupAddrs (p : Panel) (c : Ctx) (i k : Nat) : List Nat := (List.range k).map fun j => vecAddr p c (i + j)

/-- The register-space bytes of a group, in order, start by start (R266). -/
def sameBytes (a b : List Nat) : Bool := a == b

/-- Two groups of 64-byte vectors share a byte (R266). -/
def shareByte (a b : List Nat) : Bool := a.any fun x => b.any fun y => x < y + 64 && y < x + 64

/-- The overlap rule of R266 for one source: the groups are equal or share no byte. -/
def overlapBad (dst src : List Nat) : Bool := !sameBytes dst src && shareByte dst src

/-- Tile views mapped by TV, bytes of one, window offset of tile `i` (R236). -/
def tileCount (c : Ctx) : Nat := bf c.tv.toNat 19 16
def tileSize (c : Ctx) : Nat := 64 * bf c.tv.toNat 15 10
def tileOff (c : Ctx) (i : Nat) : Nat := 64 * (bf c.tv.toNat 9 0 + i * bf c.tv.toNat 15 10)

/-- Accumulator views mapped by AV, columns of one (R236). -/
def accCount (c : Ctx) : Nat := bf c.av.toNat 14 11
def accCols (c : Ctx) : Nat := 4 * 2 ^ bf c.av.toNat 10 9
def accBase (c : Ctx) : Nat := bf c.av.toNat 8 0

/-- Does VWSET accept a value for VV, TV or AV (R237)? -/
def viewOk (c : Ctx) (hoop : Bool) (view v : Nat) : Bool :=
  match view with
  | 0 =>
    let n := bf v 15 10
    n ≤ 32 && (n == 0 || 64 * (bf v 9 0 + (n - 1) * (bf v 19 16 + 1)) + 64 ≤ 64 * c.rsSize)
  | 1 =>
    let n := bf v 19 16
    n ≤ 8 && (n == 0 || (bf v 15 10 != 0 && 64 * (bf v 9 0 + n * bf v 15 10) ≤ 64 * c.rsSize))
  | _ =>
    let n := bf v 14 11
    n ≤ 8 && (n == 0 || (bf v 8 0 % 16 == 0 && bf v 8 0 + 16 * (4 * 2 ^ bf v 10 9) * n ≤ 512 && hoop))

/-- The bits of a view register that a write keeps (R8, R236). -/
def viewMask (view : Nat) : Nat := match view with | 0 => 2 ^ 20 | 1 => 2 ^ 20 | _ => 2 ^ 15

/-! ### Descriptors (R318) -/

/-- The target core of a destination descriptor, or a cause (R318). -/
def destTarget (p : Panel) (c : Ctx) (d : Nat) (ringOk : Bool) : Except Nat Nat :=
  if bf d 63 20 ≠ 0 ∨ (!ringOk ∧ (bt d 19 ∨ bf d 17 16 ≠ 0)) then .error 0x03
  else meshTarget p c (bt d 18) (bf d 7 0) (bf d 15 8) true

/-- The cores a mask descriptor names, as block coordinates, in ascending bit order. -/
def maskCoords (d : Nat) : List (Nat × Nat) :=
  ((List.range 16).filter (bt d)).map fun i => (bf d 18 16 + i % 4, bf d 22 20 + i / 4)

/-- The cores of a mask descriptor: PARTITION_VIOLATION when one lies outside the block (R318, R322). -/
def maskTargets (p : Panel) (c : Ctx) (d : Nat) (mcast : Bool) : Except Nat (List Nat) :=
  let b := p.block c.btag
  if bf d 63 28 ≠ 0 ∨ bt d 23 ∨ bt d 19 ∨ (!mcast ∧ bf d 27 24 ≠ 0) then .error 0x03
  else if (maskCoords d).any fun e => b.w ≤ e.1 || b.h ≤ e.2 then .error 0x05
  else .ok ((maskCoords d).map fun e => blockCore b e.1 e.2)

/-! ### Formats of blocks (R62, R67) -/

/-- Element bits of a format code (R62); 0 for a reserved code and for poison. -/
def fmtBits (code : Nat) : Nat :=
  match code with
  | 0x01 => 64 | 0x02 => 32 | 0x03 => 16 | 0x04 => 16 | 0x08 => 8
  | 0x12 => 2 | 0x13 => 3 | 0x14 => 4 | 0x15 => 5 | 0x16 => 6 | 0x17 => 7 | 0x18 => 8
  | _ => 0

/-- Elements of a block (R62). -/
def fmtCount (code : Nat) : Nat :=
  match code with
  | 0x01 => 7 | 0x02 => 15 | 0x03 => 31 | 0x04 => 31 | 0x08 => 62
  | 0x12 => 248 | 0x13 => 165 | 0x14 => 124 | 0x15 => 99 | 0x16 => 82 | 0x17 => 70 | 0x18 => 62
  | _ => 0

/-- A BFP code (R62). -/
def isBfp (code : Nat) : Bool := 0x12 ≤ code && code ≤ 0x18

/-! ### Shape records (R240-R242) -/

def shBase (s : Line) : Nat := bf s.toNat 63 0
def shFmt (s : Line) : Nat := bf s.toNat 71 64
def shEbits (s : Line) : Nat := bf s.toNat 79 72
def shExt (s : Line) (k : Nat) : Nat := bf s.toNat (199 + 32 * k) (168 + 32 * k)
def shStr (s : Line) (k : Nat) : Nat := bf s.toNat (327 + 32 * k) (296 + 32 * k)
def shRows (s : Line) : Nat := bf s.toNat 439 424
def shCols (s : Line) : Nat := bf s.toNat 455 440
def shXmask (s : Line) : Nat := bf s.toNat 471 456
def shSwz (s : Line) : Nat := bf s.toNat 475 472
def shRes (s : Line) : Nat := bf s.toNat 479 476
def shAccexp (s : Line) : Nat := bf s.toNat 495 480
def shDesc (s : Line) : Bool := bt s.toNat 496
def shClamp (s : Line) : Bool := bt s.toNat 497

/-- The swizzle granule in bytes (R240). -/
def shGran (s : Line) : Nat := match shSwz s with | 1 => 8 | 2 => 16 | 3 => 32 | 4 => 64 | _ => 0

/-- A power of two. -/
def isPow2 (n : Nat) : Bool := n != 0 && n == 2 ^ Nat.log2 n

/-- The checks of R241 on a shape record. -/
def shapeOk (s : Line) : Bool :=
  bf s.toNat 511 498 == 0 && bf s.toNat 167 80 == 0 && shRes s ≤ 1 && shSwz s ≤ 4 &&
  ((List.range 4).all fun k => shExt s k != 0) && shRows s != 0 && shCols s != 0 &&
  shEbits s != 0 && shEbits s ≤ 64 &&
  (shFmt s == 0 || (fmtBits (shFmt s) != 0 && fmtBits (shFmt s) == shEbits s)) &&
  (if shDesc s then
    shFmt s != 0 && shStr s 0 == 0 && shBase s % 64 == 0 && shStr s 1 % 64 == 0 && shStr s 2 % 64 == 0 &&
      shStr s 3 % 64 == 0 && shSwz s == 0
   else !isBfp (shFmt s) && shEbits s ≤ shStr s 0) &&
  (shSwz s == 0 || (isPow2 (shStr s 1) && shXmask s * shGran s < shStr s 1))

/-- Byte address of the start of row (i1, i2, i3) of a tensor (R241). -/
def rowBase (s : Line) (i1 i2 i3 : Nat) : Nat := shBase s + i1 * shStr s 1 + i2 * shStr s 2 + i3 * shStr s 3

/-- Swizzle of a byte offset within row i1 (R242). -/
def swizzle (s : Line) (i1 o : Nat) : Nat := if shSwz s = 0 then o else o ^^^ ((i1 &&& shXmask s) * shGran s)

/-- Bit address of element (i0, i1, i2, i3) of a plain tensor (R241, R242). -/
def elemBit (s : Line) (i0 i1 i2 i3 : Nat) : Nat :=
  let o := i0 * shStr s 0
  8 * rowBase s i1 i2 i3 + 8 * swizzle s i1 (o / 8) + o % 8

/-- Byte address of the block that holds element i0 of a described row (R241). -/
def blockAddr (s : Line) (i0 i1 i2 i3 : Nat) : Nat := rowBase s i1 i2 i3 + 64 * (i0 / fmtCount (shFmt s))

/-- Element `i` of a described block (R61). -/
def blockElem (blk : Line) (i : Nat) : Nat :=
  let b := fmtBits (bf blk.toNat 7 0)
  bf blk.toNat (16 + b * (i + 1) - 1) (16 + b * i)

/-- Position of a field number of R259 in the record: high bit and low bit. -/
def shField (f : Nat) : Nat × Nat :=
  match f with
  | 0 => (63, 0) | 1 => (71, 64) | 2 => (79, 72)
  | 3 => (199, 168) | 4 => (231, 200) | 5 => (263, 232) | 6 => (295, 264)
  | 7 => (327, 296) | 8 => (359, 328) | 9 => (391, 360) | 10 => (423, 392)
  | 11 => (439, 424) | 12 => (455, 440) | 13 => (471, 456) | 14 => (475, 472) | 15 => (479, 476)
  | 16 => (495, 480) | 17 => (496, 496) | _ => (497, 497)

/-! ### Effective addresses -/

/-- a + sext(imm16), 64 bits (R287). -/
def eaImm (a : W) (imm : BitVec 16) : Nat := (a + imm.signExtend 64).toNat

/-- a + b × 2^s, 64 bits (R287, R334). -/
def eaIdx (a b : W) (s : Nat) : Nat := (a + (b <<< s)).toNat

/-- Branch target pc + sext(off) × 4 (R254). -/
def relTarget {n : Nat} (pc : W) (off : BitVec n) : W := pc + (off.signExtend 64 <<< 2)

end Sys2Proof.Machine
end

