-- ==== Sys2Proof/Machine/MemSys.lean ====
section
/-! DEFINITION. The paths of memory accesses: local items and full/empty words, L1, cluster TLB and walks, parking, the
mesh, home slices and HBM, and what a performed access releases (R81-R145, R146-R173, R174-R201). -/

namespace Sys2Proof.Machine

/-! ### The access table -/

def Panel.acc (p : Panel) (id : Nat) : Option Access := SMap.find p.accs id

def Panel.updAcc (p : Panel) (id : Nat) (f : Access → Access) : Panel :=
  match p.acc id with
  | some a => { p with accs := SMap.set p.accs id (f a) }
  | none => p

def Panel.delAcc (p : Panel) (id : Nat) : Panel := { p with accs := SMap.del p.accs id }

/-- An access that has not been performed (R175). -/
def AStage.open_ : AStage → Bool
  | .held => true | .tlb => true | .out => true | .parked => true
  | .performed => false | .error => false

/-- An access that has not left its core (R167). -/
def AStage.inCore : AStage → Bool
  | .held => true | .tlb => true | .parked => true
  | .out => false | .performed => false | .error => false

/-- A part of a tile operation (R362). -/
def Access.ofTile (a : Access) : Bool := match a.dest with
  | .tile _ => true
  | .none => false | .g _ => false | .vec _ => false | .lanes _ => false | .sh _ => false

/-- A PF hint (R290). -/
def Access.hint (a : Access) : Bool := a.kind == .load && a.cls == .none && a.dest == .none

/-- A PF hint's fill (R290), an instruction fetch and the parts of a tile operation are no accesses of the thread in the sense of R183: those of a
tile operation are unordered with its other accesses (R362). -/
def Access.aside (a : Access) : Bool := a.kind == .fetch || a.ofTile || a.hint

/-- The accesses of a thread, oldest first. -/
def Panel.accsOf (p : Panel) (lc slot : Nat) : List Access :=
  (p.accs.map (·.2)).filter fun a => a.core == lc && a.slot == slot && !a.aside

/-- Two byte ranges share a byte. -/
def rangesMeet (a n b m : Nat) : Bool := a < b + m && b < a + n

/-- An access not yet performed that carries release. -/
def Access.opensRel (a : Access) : Bool := a.stage.open_ && a.rel

/-- Two cores share an L1 data cache: they are one, or the cores of a fused cluster (R114). -/
def Panel.shareL1 (p : Panel) (a b : Nat) : Bool := a == b || (clusterOf a == clusterOf b && (p.cluster (clusterOf a)).fused)

/-- Accesses that must be performed before a new one of the running thread (R182, R186): all open ones of the thread for a release; for an
acquire, its open releases; otherwise those that touch a common location. -/
def Panel.afterOf (p : Panel) (rel : Bool) (va size : Nat) (acq : Bool := false) : List Nat :=
  ((p.accsOf p.cur.core p.cur.slot).filter fun a =>
    a.stage.open_ && (rel || (acq && a.rel) || rangesMeet a.va a.size va size)).map (·.id)

/-- The blocks of two accesses use one address space. -/
def Panel.sameSpace (p : Panel) (s t : Nat) : Bool := (p.block s).part == (p.block t).part && (p.block s).asid == (p.block t).asid

/-- The open stores to some bytes of an address space of the other threads of a thread's L1, whose coherence order is the one in which they
reach it (R181); a parked store holds no other back (R168). -/
def Panel.otherStores (p : Panel) (lc slot btag va size : Nat) : List Nat :=
  ((p.accs.map (·.2)).filter fun a =>
    p.shareL1 a.core lc && !(a.core == lc && a.slot == slot) && a.stage.open_ && a.stage != .parked && a.items == [] &&
      (a.kind == .store || a.kind == .vstore) && p.sameSpace a.btag btag && rangesMeet a.va a.size va size).map (·.id)

/-- A store also follows the open stores to its bytes of the other threads of its L1. -/
def Panel.afterStore (p : Panel) (va size : Nat) : List Nat :=
  p.afterOf false va size ++ p.otherStores p.cur.core p.cur.slot p.cc.btag va size

/-- A mesh-window access also follows those of its thread to the same core that are still held (R182, same path). -/
def Panel.afterMesh (p : Panel) (rel : Bool) (va size target : Nat) (acq : Bool := false) : List Nat :=
  p.afterOf rel va size acq ++ ((p.accsOf p.cur.core p.cur.slot).filter fun a =>
    a.stage == .held && a.items != [] && a.target == target && !(rel || (acq && a.rel) || rangesMeet a.va a.size va size)).map (·.id)

/-- The running thread has an acquire in flight, or one whose L1 action has not been taken: its later accesses wait (R187; log 12,
DEDUCED). -/
def Panel.acqBusy (p : Panel) : Bool :=
  (p.accsOf p.cur.core p.cur.slot).any fun a =>
    (a.acq && a.kind == .amo) || (a.stage.open_ && (a.kind == .ldsy || a.kind == .ldsyTake))

/-- The running thread has a release that has not been performed: an acquire of its own waits (R182). -/
def Panel.relBusy (p : Panel) : Bool := (p.accsOf p.cur.core p.cur.slot).any Access.opensRel

/-! ### Acquires (R179, R181) -/

/-- Does a block cover more than one cluster? -/
def manyClusters (b : Block) : Bool := 4 < b.w || 2 < b.h

/-- An L1's lines go; a fill whose line has been read at its home slice is not allocated when it returns. -/
def dropL1 (p : Panel) (lc : Nat) : Panel :=
  { (p.updCore lc fun c => { c with l1d := [] }) with
    accs := p.accs.map fun (e : Nat × Access) =>
      if e.2.fill == 1 && (e.2.core == lc || clusterOf e.2.core == clusterOf lc && (p.cluster (clusterOf lc)).fused) &&
          e.2.parts.any (·.done) then (e.1, { e.2 with fill := 3 })
      else e }

def dropFused (p : Panel) (cl : Nat) : Panel := (List.range 8).foldl (fun q k => dropL1 q (clusterCore cl k)) p

/-- The L1 data lines of a core go, those of the whole cluster when it is fused. -/
def Panel.dropData (p : Panel) (lc : Nat) : Panel :=
  if (p.cluster (clusterOf lc)).fused then dropFused p (clusterOf lc) else dropL1 p lc

/-- An acquire of a scope invalidates the L1 of a core, for a thread of a block (R179). -/
def Panel.invalidates (p : Panel) (lc scope : Nat) (b : Block) : Bool :=
  match scope with
  | 0 => false
  | 1 => false
  | 2 => !(p.cluster (clusterOf lc)).fused
  | 3 => !(p.cluster (clusterOf lc)).fused || manyClusters b
  | _ => true

/-- The acquire action of a scope on the L1 of a core, for a thread of a block (R179). -/
def Panel.inval (p : Panel) (lc scope : Nat) (b : Block) : Panel := if p.invalidates lc scope b then p.dropData lc else p

/-- The acquire action for the thread in a slot of a core. That of a migrated thread acts on the core it runs on, and on its home core's L1
when it returns, as a store of it does: the rule names the issuing core's L1, which such a thread does not use (R178, R179; log 60, DESIGN
CHOICE). -/
def Panel.acquireAt (p : Panel) (lc slot scope : Nat) : Panel :=
  let b := p.block (p.ctx lc slot).btag
  let q := p.inval lc scope b
  if awaySlot slot && p.invalidates lc scope b then q.updCtx lc slot fun c => { c with stored := true } else q

/-! ### Items of local memory -/

/-- The data of items read from a core's local memory: each element at its place, zero- or sign-extended (R51, R86). -/
def readItems (m : Memory) (lc : Nat) (its : List Item) : Nat :=
  its.foldl (fun acc i =>
    if i.w = 0 then acc
    else
    let v := Memory.readBits m (8 * lmA lc 0 + i.bit) i.w
    let v := if i.sx then cut i.pw (sgn i.w v) else v % 2 ^ i.pw
    putBits acc (i.pos + i.pw - 1) i.pos v) 0

/-- Items written in order, only the bits they name (R87, R337, R338): those of one access in one event, although the rule makes a straddling
element and a vector single-copy atomic per word only (R88; log 40, DESIGN CHOICE). -/
def Panel.writeItems (p : Panel) (lc : Nat) (its : List Item) (data : Nat) : Panel :=
  its.foldl (fun q i =>
    if i.w = 0 then q
    else
      ({ q with mem := Memory.writeBits q.mem (8 * lmA lc 0 + i.bit) i.w (bf data (i.pos + i.w - 1) i.pos) }).updCore lc fun c =>
        { c with dirty := [i.bit / 8192, (i.bit + i.w - 1) / 8192].foldl (fun d x => if d.contains x then d else d ++ [x]) c.dirty }) p

/-- The one item of a scalar access of `n` bytes at a physical offset. -/
def byteItem (off n : Nat) (sx : Bool) : List Item := [⟨8 * n, 8 * off, 0, 64, sx⟩]

/-! ### Atomics (R305) -/

/-- The value an atomic stores; none when it writes nothing (a failed AMOCAS). `x` is the operand, `c` the compare value. -/
def amoNew (op : Nat) (wide : Bool) (rnd old x c : Nat) : Option Nat :=
  let n := if wide then 64 else 32
  let o := old % 2 ^ n
  let x := x % 2 ^ n
  match op with
  | 0x00 => some ((o + x) % 2 ^ n)
  | 0x01 => some x
  | 0x02 => if o = c % 2 ^ n then some x else none
  | 0x03 => some (o &&& x)
  | 0x04 => some (o ||| x)
  | 0x05 => some (o ^^^ x)
  | 0x06 => some (if sgn n o ≤ sgn n x then o else x)
  | 0x07 => some (if sgn n x ≤ sgn n o then o else x)
  | 0x08 => some (if o ≤ x then o else x)
  | 0x09 => some (if x ≤ o then o else x)
  | _ => some (fpAdd (fpFmt (if wide then 0 else 1)) rnd o x)

/-- An atomic on local bytes: the old value and the panel after. -/
def Panel.amoLocal (p : Panel) (lc off op : Nat) (wide : Bool) (rnd x c : Nat) : Nat × Panel :=
  let n := if wide then 8 else 4
  let old := p.lmRead lc off n
  match amoNew op wide rnd old x c with
  | some v => (old, p.lmWrite lc off n v)
  | none => (old, p)

/-- The value put in the destination of an atomic: sign-extended for .W (R305). -/
def amoResult (wide : Bool) (old : Nat) : W := if wide then w64 old else sext64 32 old

/-! ### What a performed access releases -/

/-- The packet of a mesh-window access. -/
def meshPay (a : Access) : Pay := if a.kind == .amo then .amo a.id else .access a.id

/-- A paged or mesh access leaves the core, or asks the TLB (R167). -/
def Panel.dispatchMesh (p : Panel) (a : Access) : Panel :=
  (p.updAcc a.id fun a => { a with stage := .out }).send a.core a.target (meshPay a)

/-! ### TLB (R146-R156) -/

def tlbFind (cl : Cluster) (part asid vpn : Nat) : Option Tlb :=
  cl.tlb.find? fun t => t.part == part && t.asid == asid && t.vpn ≤ vpn && vpn < t.vpn + t.pages

/-- An access is permitted by leaf attributes (R153): kind 1 read, 2 write, 3 both, 4 fetch. -/
def permitted (attr need : Nat) (slevel : Bool) : Bool :=
  (attr &&& (match need with | 1 => 1 | 2 => 2 | 3 => 3 | _ => 4)) == (match need with | 1 => 1 | 2 => 2 | 3 => 3 | _ => 4)
    && (slevel || bt attr 3)

/-- What a kind of access needs of the leaf (R153). -/
def needOf : AKind → Nat
  | .load => 1 | .vload => 1 | .fmtLoad => 1 | .shLoad => 1 | .ldsy => 1 | .ldsyTake => 1
  | .store => 2 | .vstore => 2 | .stfl => 2 | .feclr => 2 | .send => 2 | .barrier => 2 | .twperm => 2
  | .amo => 3 | .fetch => 4

/-- The key tag of a frame (R137). -/
def frameTag (h : Hbm) (frame : Nat) : Nat := SMap.getD h.tags frame 0

/-- A line of HBM as plaintext under its frame's key (log 5, DESIGN CHOICE). -/
def hbmLine (m : Memory) (line : Nat) : Line := BitVec.ofNat 512 (Memory.readN m (64 * line) 64)

def l2Find (s : Slice) (line : Nat) : Option L2Line := s.lines.find? fun l => l.line == line

/-- The bytes of a line at its place of truth under a key, or a class F cause (R137, R143, R176). -/
def Panel.truth (p : Panel) (q : Partition) (line key : Nat) : Except Nat Line :=
  match l2Find (p.slice (homeSlice q line)) line with
  | some l => if l.key ≠ key then .error 0x31 else if l.poison then .error 0x33 else .ok l.data
  | none =>
    if frameTag p.hbm (line / 1024) ≠ key then .error 0x31
    else if p.hbm.poison.contains line then .error 0x33
    else .ok (hbmLine p.mem line)

/-- An 8-byte load at the entry's home slice under the plain key (R149, R152). -/
def Panel.truth64 (p : Panel) (q : Partition) (pa : Nat) : Except Nat Nat :=
  match p.truth q (pa / 64) 0 with
  | .error e => .error e
  | .ok d => .ok (bf d.toNat (8 * (pa % 64) + 63) (8 * (pa % 64)))

/-- A non-leaf pointer or ROOT lies in region 0 inside the partition's range (R148). -/
def tableOk (q : Partition) (pfn : Nat) : Bool := inHbm q (pfn * 65536) && pfn * 65536 < 2 ^ 48

/-- A valid entry that is malformed at its level (R148). -/
def malformed (q : Partition) (level e : Nat) : Bool :=
  let leaf := bt e 1
  bf e 55 52 != 0 || bf e 15 8 != 0 || bt e 6 ||
  (!leaf && (bf e 63 56 != 0 || bt e 7)) ||
  (level == 1 && leaf) || (level == 3 && !leaf) ||
  (level == 2 && leaf && bf e 28 16 != 0) ||
  (!leaf && !tableOk q (bf e 51 16))

/-- The physical checks on a leaf (R41, R134, R136, R468). -/
def leafCheck (q : Partition) (part asid vpn pages e : Nat) : WalkR :=
  let pa := bf e 51 16 * 65536
  let r := region pa
  let len := pages * 65536
  if r ≠ 0 ∧ r ≠ 2 ∧ r ≠ 3 then .fatal 0x30
  else if r = 0 ∧ (hbmSize ≤ pa ∨ ¬ inHbm q pa ∨ ¬ inHbm q (pa + len - 1) ∨ rangesMeet pa len (parkBase q) ((q.base + q.count) * 2 ^ 31 - parkBase q)) then .fatal 0x30
  else if ¬ bt q.grant (bf e 63 56) then .fatal 0x31
  else .ok ⟨part, asid, vpn, pages, pa / 65536, bf e 63 56,
    b2n (bt e 3) + 2 * b2n (bt e 4) + 4 * b2n (bt e 5) + 8 * b2n (bt e 2) + 16 * b2n (bt e 7)⟩

/-- One page walk (R146-R153), reading each entry at its home slice. -/
def Panel.walk (p : Panel) (part asid vpn : Nat) : WalkR :=
  let q := p.part part
  match SMap.find q.asids asid with
  | none => .notPresent
  | some root =>
    if !tableOk q root then .fatal 0x32
    else
      match p.truth64 q (root * 65536 + 8 * (vpn / 2 ^ 26 % 8192)) with
      | .error c => .fatal c
      | .ok e1 =>
        if !bt e1 0 then .notPresent
        else if malformed q 1 e1 then .fatal 0x32
        else
          match p.truth64 q (bf e1 51 16 * 65536 + 8 * (vpn / 2 ^ 13 % 8192)) with
          | .error c => .fatal c
          | .ok e2 =>
            if !bt e2 0 then .notPresent
            else if malformed q 2 e2 then .fatal 0x32
            else if bt e2 1 then leafCheck q part asid (vpn / 8192 * 8192) 8192 e2
            else
              match p.truth64 q (bf e2 51 16 * 65536 + 8 * (vpn % 8192)) with
              | .error c => .fatal c
              | .ok e3 =>
                if !bt e3 0 then .notPresent
                else if malformed q 3 e3 then .fatal 0x32
                else leafCheck q part asid vpn 1 e3

/-- The thread that issued an access is still in its slot (its block has not ended, R165). -/
def Panel.mine (p : Panel) (a : Access) : Bool := (p.ctx a.core a.slot).btag == a.btag && (p.ctx a.core a.slot).st != .empty

/-- A thread has one fewer of its Osier lanes to wait for, whatever else it waits for (R405). -/
def Panel.osierDone (p : Panel) (lc slot : Nat) : Panel :=
  let less := p.updCtx lc slot fun c =>
    { c with lanesLeft := c.lanesLeft - 1, since := if c.st = .ready ∧ c.lanesLeft = 1 then p.now else c.since }
  match (p.ctx lc slot).stall with
  | .osier n => if n ≤ 1 then p.ready lc slot else p.updCtx lc slot fun c => { c with stall := .osier (n - 1) }
  | .none => less | .retry _ => less | .hold _ => less | .fuse _ _ _ => less | .barrier => less | .header => less | .tlbinv => less
  | .migrate => less | .ckpt => less | .fatal => less

/-- What the A-word of a thread's last pair wrote taken away (R253). -/
def Panel.undoAword (p : Panel) (lc slot : Nat) (u : Undo) : Panel :=
  let p1 := p.updCtx lc slot fun c =>
    { u.m.foldl (fun (x : Ctx) e => x.setM e.1 e.2) (u.g.foldl (fun (x : Ctx) e => x.setG e.1 e.2) c) with
      flags := c.flags &&& ~~~u.flags
      div := c.div.filter fun e => !u.div.contains e
      undo := none }
  let p2 := { p1 with mem := u.mem.foldl (fun m (e : Nat × Nat) => Memory.set m e.1 (BitVec.ofNat 8 e.2)) p1.mem }
  let p3 := u.cells.foldl (fun (r : Panel) e => r.updCluster e.1 fun c => { c with cells := SMap.set c.cells e.2.1 e.2.2 }) p2
  if (p3.cluster (clusterOf lc)).oacts = [] then p3
  else p3.updCluster (clusterOf lc) fun c => { c with oacts := c.oacts.filter fun o => !(o.core == lc && o.slot == slot) }

/-- The A-word beside an access that traps, while the thread has gone no further, is without effect (R253). -/
def Panel.undoFor (p : Panel) (a : Access) : Panel :=
  match (p.ctx a.core a.slot).undo with
  | some u => if u.lo ≤ a.id then p.undoAword a.core a.slot u else p
  | none => p

/-- A precise trap of an access's thread: TPC is its bundle. A migrated thread takes it home, at its next turn (R452); any other core leaves
retention (R247). -/
def Panel.accRaise (p : Panel) (a : Access) (cause : Nat) (tval : W) : Panel :=
  let q := (p.undoFor a).updCtx a.core a.slot fun c => { c with pc := a.pc }
  if awaySlot a.slot then (q.updCtx a.core a.slot fun c => { c with pend := c.pend ++ [⟨cause, tval, false, false⟩] }).ready a.core a.slot
  else (q.deliver a.core a.slot cause tval false false false).rouseOf a.core a.slot

/-- A class F trap of an access's thread (R454): TPC is its bundle (log 41, DEDUCED). -/
def Panel.accFatal (p : Panel) (a : Access) (cause : Nat) : Panel :=
  if p.mine a then p.accRaise a cause (w64 a.va) else p.fatalAt a.core cause (w64 a.va)

/-- A precise class U trap of an access. -/
def Panel.accTrap (p : Panel) (a : Access) (cause : Nat) (tval : W) : Panel :=
  if p.mine a then
    let q := p.accRaise a cause tval
    if a.core = p.cur.core ∧ a.slot = p.cur.slot then { q with cur := { q.cur with trapped := true } } else q
  else p

/-- The counter that counts an access lowered. -/
def Panel.uncount (p : Panel) (a : Access) : Panel :=
  if !p.mine a then p
  else
    match a.cls with
    | .none => p
    | .loads => p.decL a.core a.slot
    | .stores => p.decS a.core a.slot

/-- No access waits for the given one any more. -/
def Panel.unwait (p : Panel) (id : Nat) : Panel :=
  if p.accs.any fun (e : Nat × Access) => e.2.after.contains id then
    { p with accs := p.accs.map fun (e : Nat × Access) => (e.1, { e.2 with after := e.2.after.filter (· != id) }) }
  else p

/-- An access dropped without being performed. -/
def Panel.discard (p : Panel) (a : Access) : Panel := ((p.uncount a).delAcc a.id).unwait a.id

/-! ### Parking (R166-R169) -/

/-- Encoding of a parked access's KIND (R167). -/
def kindCode : AKind → Nat
  | .load => 1 | .store => 2 | .amo => 3 | .vload => 4 | .vstore => 5 | .fmtLoad => 6 | .fetch => 7 | .shLoad => 4
  | .ldsy => 1 | .ldsyTake => 1 | .stfl => 2 | .feclr => 2 | .send => 2 | .barrier => 2 | .twperm => 2

/-- DREG of a record entry: the g, vector or shape register (the vector's number stands in `ring`). -/
def destNum (a : Access) : Nat :=
  match a.dest with
  | .none => 0 | .g r => r | .vec _ => a.ring | .lanes _ => a.ring | .sh r => r | .tile _ => 0

/-- The parked-access record entries of an access, 32 bytes each (R167). -/
def recordEntry (a : Access) : List Byte :=
  let vs := a.kind == .vstore
  toBytes 8 a.va ++ toBytes 8 (if vs then 0 else a.data) ++ toBytes 8 a.data1 ++
    toBytes 8 (a.seq % 65536 * 2 ^ 48 + a.slot % 16 * 2 ^ 44 + kindCode a.kind * 2 ^ 40 + a.op * 2 ^ 35 +
      b2n a.acq * 2 ^ 34 + b2n a.rel * 2 ^ 33 + a.scope * 2 ^ 30 + destNum a * 2 ^ 25 + Nat.log2 a.size * 2 ^ 21 +
      b2n (a.sx || a.kind == .shLoad) * 2 ^ 20 + a.fault * 2 ^ 18 + (if vs then 2 else 0) * 2 ^ 16) ++
    (if vs then toBytes 64 a.data else [])

def Panel.writeBytes (p : Panel) (a : Nat) (bs : List Byte) : Panel :=
  { p with mem := Memory.writeN p.mem a bs.length (ofBytes bs) }

/-- The home core and home slot of the thread in a slot of a core (R103). -/
def Panel.homeSlotOf (p : Panel) (lc slot : Nat) : Nat × Nat :=
  if awaySlot slot then ((p.ctx lc slot).homeCore, (p.ctx lc slot).homeSlot) else (lc, slot)

/-- The count entry that ends a record: KIND 0, and in bytes 0-7 the number of its accesses, data-extension entries not counted; the rule
gives the entry its KIND alone (log 57, DESIGN CHOICE). -/
def countEntry (n : Nat) : List Byte := toBytes 32 n

/-- The records of the groups of a core written to its park slot, each with its count entry (R167). The entry of a migrated thread
names its home slot. -/
def Panel.writeRecord (p : Panel) (lc : Nat) : Panel :=
  let q := p.part (partOf p lc)
  let es := (p.core lc).parked.filterMap p.acc
  let tags := (es.map (·.btag)).eraseDups
  p.writeBytes (parkSlot q lc) (tags.flatMap fun t =>
    let gs := es.filter fun a => a.btag == t
    (gs.map fun a => recordEntry { a with slot := (p.homeSlotOf a.core a.slot).2 }).flatten ++ countEntry gs.length)

/-- Live contexts of a group on its home core: assignable slots of the block. -/
def groupSlots (p : Panel) (lc tag : Nat) : List Nat :=
  (List.range 12).filter fun s => let c := p.ctx lc s; c.btag == tag && c.st != .empty

/-- The slots that the threads of a group run in: those of its home core, and the arrival slots of its migrated threads (R103). -/
def groupPlaces (p : Panel) (lc tag : Nat) : List (Nat × Nat) :=
  ((groupSlots p lc tag).filter fun s => (p.ctx lc s).st != .away).map (fun s => (lc, s)) ++
    p.cores.flatMap fun (e : Nat × Core) =>
      (e.2.ctxs.filter fun (k : Nat × Ctx) => awaySlot k.1 && k.2.st != .empty && k.2.btag == tag && k.2.homeCore == lc).map fun k => (e.1, k.1)

/-- A group of a block is parked. -/
def Panel.anyParked (p : Panel) (tag : Nat) : Bool :=
  p.cores.any fun (e : Nat × Core) => e.2.ctxs.any fun (k : Nat × Ctx) => k.2.btag == tag && k.2.st == .parked

/-- The entries of a block's record on a core, in record order. -/
def Panel.recordOf (p : Panel) (lc tag : Nat) : List Access :=
  ((p.core lc).parked.filterMap p.acc).filter fun a => a.btag == tag

/-- The record of a group waits, or is being replayed: its threads issue nothing (R166, R170). -/
def Panel.groupParked (p : Panel) (lc tag : Nat) : Bool :=
  p.recordOf lc tag != [] || (SMap.find (p.core lc).replays tag).isSome

/-- The accesses of a thread that have not left its core, an instruction fetch among them, from a number on (R167). -/
def Panel.laterOf (p : Panel) (a : Access) : List Nat :=
  ((p.accs.map (·.2)).filter fun x =>
    x.core == a.core && x.slot == a.slot && x.btag == a.btag && (!x.aside || x.kind == .fetch) && decide (a.id < x.id) && x.stage.inCore &&
      x.stage != .parked).map (·.id)

/-- The group of an access parks at a translation fault (R103, R166, R167); a handler takes HANDLER_BLOCK instead (R220). The record
holds the group's accesses in the order of their issue; that of a replay holds the faulting entry and all after it (R171). -/
def Panel.park (p : Panel) (a : Access) (fault page : Nat) : Panel :=
  if a.aside && a.kind != .fetch then p.discard a
  else if handlerSlot a.slot then
    (p.discard a).accTrap a 0x0C (w64 a.va)
  else
    let b := p.block a.btag
    let hc := (p.homeSlotOf a.core a.slot).1
    let rest := SMap.getD (p.core hc).replays a.btag []
    let p1 := p.updAcc a.id fun a => { a with stage := .parked, fault := fault, fpage := page }
    let more := p1.laterOf a
    let p2 := more.foldl (fun q i => q.updAcc i fun x => { x with stage := .parked }) p1
    let p3 := p2.updCore hc fun c =>
      { c with
        parked := (c.parked ++ ((a.id :: more) ++ rest).filter fun i => !c.parked.contains i).eraseDups.mergeSort (· ≤ ·)
        replays := SMap.del c.replays a.btag }
    let p4 := (groupPlaces p3 hc a.btag).foldl (fun q s =>
      q.updCtx s.1 s.2 fun c => if c.st = .parked then c else { c with st := .parked, parkedAt := p.now }) p3
    let asid := b.asid
    let p5 := p4.updPart b.part fun q => { q with faults := if q.faults.contains (asid, page) then q.faults else q.faults ++ [(asid, page)] }
    let p6 := (p5.writeRecord hc).mailTo 2 0x0003 [hc, parkSlot (p.part b.part) hc]
    let p7 := p6.updBlock a.btag fun b => { b with parkReported := b.parkReported && p.anyParked a.btag }
    let lim := (p.part b.part).parkLimit
    let p8 := p7.later 1 .parklimitExpiry [a.btag]
    if lim = 0 then p8 else p8.later (lim + 1) .parklimitExpiry [a.btag]

/-! ### Requests to home slices -/

/-- The line parts of a paged access once every page is translated: (line, offset, length, position). -/
def splitLines (f : Nat → Nat) (key : Nat → Nat) : Nat → Nat → Nat → Nat → List Part
  | 0, _, _, _ => []
  | k + 1, va, pos, size =>
    if size = 0 then []
    else
      let n := min size (64 - va % 64)
      ⟨f va / 64, va % 64, n, pos, key va, false, 0⟩ :: splitLines f key k (va + n) (pos + n) (size - n)

def Panel.chan (p : Panel) (cl ch : Nat) : Chan := SMap.getD (p.cluster cl).relay ch {}

def Panel.updChan (p : Panel) (cl ch : Nat) (f : Chan → Chan) : Panel :=
  p.updCluster cl fun c => { c with relay := SMap.set c.relay ch (f (SMap.getD c.relay ch {})) }

def Panel.updWalk (p : Panel) (lc : Nat) (f : Walk → Walk) : Panel := p.updCore lc fun c => { c with walk := f c.walk }

/-- The core whose thread issued an engine's present command, the block, the home slot and the command's number; number 0 for none. -/
def Panel.engCmd (p : Panel) : Eng → Nat × Nat × Nat × Nat
  | .relay cl ch => let x := p.chan cl ch; (x.core, x.btag, x.slot, if x.busy then x.num else 0)
  | .walk core => let w := (p.core core).walk; (core, w.btag, w.slot, if w.busy then w.num else 0)
  | .hoop cl => (match (p.cluster cl).hoop.cmds with | x :: _ => (x.core, x.btag, x.slot, x.num) | [] => (0, 0, 0, 0))

/-- The staging command of a number of a cluster. -/
def Panel.stageOf (p : Panel) (cl num : Nat) : Option Stage := (p.cluster cl).stage.find? fun x => x.num == num

/-- An access that a staging command makes to host or peer memory: its record's slot number is 24, and its ring the command's number. -/
def Access.staging (a : Access) : Bool := a.slot == 24

/-- The launch for which an access is made, and its partition. -/
def Panel.accLaunch (p : Panel) (a : Access) : Nat :=
  if a.staging then ((p.stageOf (clusterOf a.core) a.ring).map (·.launch)).getD 0 else (p.block a.btag).launch
def Panel.accPart (p : Panel) (a : Access) : Nat := if a.staging then (p.launch (p.accLaunch a)).part else (p.block a.btag).part

/-- The core that counts a request of a slice, its launch, and the request's flits (R441, R522); none for a level of a walk, which cores
may share. -/
def Panel.billTo (p : Panel) (r : Req) : Option (Nat × Nat × Nat) :=
  let bulk := fun (xs : List Bulk) (num : Nat) => (xs.find? fun x => x.num == num).map fun x => (r.core, (p.block x.btag).launch, 1)
  match r.src with
  | .acc id part => (p.acc id).map fun a =>
      let n := ((a.parts[part]?).map (·.len)).getD 0
      (a.core, p.accLaunch a, 1 + (if (a.kind == .store || a.kind == .vstore) && decide (8 < n) then cdiv n 32 else 0))
  | .pf num => bulk (p.core r.core).pf num
  | .drop num _ => bulk (p.core r.core).drop num
  | .mcrd num _ => bulk (p.core r.core).mcrd num
  | .stage cl num => ((p.cluster cl).stage.find? fun x => x.num == num).map fun x => (clusterCore cl 0, x.launch, 1)
  | .eng e _ _ => some (r.core, (p.block (p.engCmd e).2.1).launch, 1)
  | .put e _ _ n _ _ => some (r.core, (p.block (p.engCmd e).2.1).launch, 1 + (if 8 < n then cdiv n 32 else 0))
  | .walk .. => none

/-- Energy of an event of a request, counted for its launch (R441). -/
def Panel.billReq (p : Panel) (r : Req) (pj : Nat → Nat) : Panel :=
  match p.billTo r with
  | some (c, l, f) => p.bill c l (pj f)
  | none => p

/-- A request sent from a core toward the home slice of its line, counted with its hops for its launch (R118, R122, R441, R481). -/
def Panel.ask (p : Panel) (q : Partition) (from_ : Nat) (r : Req) : Panel :=
  let sc := homeSlice q r.line
  let h := p.trip from_ sc 0
  let d := 8 + 2 * h
  ((p.billReq r fun f => 80 + 12 * h * f).updSlice sc fun t => { t with vc := t.vc ++ [(p.now + d, r)] }).later d .sliceRequest [sc]

/-- A part of an access sent to its home slice. -/
def Panel.sliceReq (p : Panel) (q : Partition) (a : Access) (part : Nat) (x : Part) : Panel :=
  p.ask q a.core ⟨.acc a.id part, a.core, x.line, x.key⟩

/-- The region of a line of physical memory (R39). -/
def lineRegion (line : Nat) : Nat := region (64 * line)

/-- What an access asks of memory outside the panel: 0 a read, 1 a write, 2 + op + 16 × rounding mode an atomic (R54). -/
def extOp (a : Access) : Nat := if a.kind = .amo then 2 + a.op + 16 * a.rnd else if needOf a.kind = 2 then 1 else 0

/-- The port that peer traffic of a slot leaves through: the port while it is up, else the alternate (R492). -/
def Panel.peerPort (p : Panel) (part slot : Nat) : Option Nat :=
  let t := SMap.getD (p.part part).ports slot (0, 0)
  if (SMap.getD p.svasum t.1 {}).up then some t.1 else if (SMap.getD p.svasum t.2 {}).up then some t.2 else none

/-- A peer request handed to the Link core; with both ports down it gets a negative response (R44, R492). -/
def Panel.peerOut (p : Panel) (id part slot w o size op data : Nat) : Panel :=
  match p.peerPort part slot with
  | some port => { p with outbox := p.outbox ++ [.peer id port (bf w 57 39) (bf w 61 58) part (bf w 38 27 * 2 ^ 30 + o) size op data] }
  | none => p.later 1 .peerResponse [id, 0]

/-- Check 1 of R44 on the slot of a peer address. -/
def Panel.slotOk (p : Panel) (q : Partition) (pa : Nat) : Bool :=
  let w := (SMap.getD q.peers (bf pa 47 36) 0).toNat
  bt w 63 && bf w 26 20 != 0 && bf w 57 39 != p.panelId

/-- The checks of R44 on a peer access to `n` bytes at a physical address: its slot's word when they pass. -/
def Panel.peerWord (p : Panel) (q : Partition) (pa n : Nat) (write : Bool) : Option Nat :=
  let o := bf pa 35 0
  let w := (SMap.getD q.peers (bf pa 47 36) 0).toNat
  let lim := bf w 26 20
  if !p.slotOk q pa ∨ lim * 2 ^ 30 ≤ o + n - 1 ∨ (bt w 62 ∧ write) then none else some w

/-- The class U cause that the physical region of an access raises: an atomic on the host region (R191), a peer access that fails its
checks (R44). An instruction fetch from a slot with RDONLY = 1 is refused as a write is, since the field allows only loads and reads by
engines (R43; DESIGN CHOICE, log 72: check 3 of R44 does not list a fetch). -/
def Panel.regionFault (p : Panel) (q : Partition) (a : Access) (pa n : Nat) : Option Nat :=
  match region pa with
  | 0 => none
  | 2 => if a.kind = .amo then some 0x03 else none
  | _ => if (p.peerWord q pa n (needOf a.kind != 1)).isSome then none else some 0x05

/-- The translation among a list that holds an address. -/
def tlbAt (ts : List Tlb) (va : Nat) : Tlb :=
  (ts.find? fun t => t.vpn * 65536 ≤ va && va < (t.vpn + t.pages) * 65536).getD ⟨0, 0, 0, 1, 0, 0, 0⟩

/-- The physical address under a translation. -/
def Tlb.phys (t : Tlb) (va : Nat) : Nat := t.pfn * 65536 + (va - t.vpn * 65536)

/-- The parts of an access under the translations of its pages; bit 6 of the attributes is set for a page of 512 MiB (R111). -/
def partsOf (ts : List Tlb) (va size : Nat) : List Part :=
  (splitLines (fun v => (tlbAt ts v).phys v) (fun v => (tlbAt ts v).key) (size + 1) va 0 size).map fun x =>
    let t := tlbAt ts (va + x.pos)
    { x with attr := t.attr % 64 + (if t.pages = 1 then t.attr / 64 % 2 else 1) * 64 }

/-- The virtual pages an access touches. -/
def pagesOf (a : Access) : List Nat := upto (a.va / 65536) ((a.va + a.size - 1) / 65536 - a.va / 65536 + 1)

/-- The core whose L1 data cache holds a line of a core's thread (R114). -/
def l1Core (p : Panel) (lc va : Nat) : Nat :=
  if (p.cluster (clusterOf lc)).fused then clusterCore (clusterOf lc) (bf va 8 6) else lc

def l1Set (fused : Bool) (va : Nat) : Nat := if fused then bf va 15 9 else bf va 12 6

/-- A line of an L1 for a virtual line of an address space. -/
def l1Find (ls : List L1Line) (vline part asid : Nat) : Option L1Line :=
  ls.find? fun l => l.vline == vline && l.part == part && l.asid == asid

/-- The virtual lines of an access, each with its piece of it. -/
def piecesOf (va size : Nat) : List Part := splitLines id (fun _ => 0) (size + 1) va 0 size

/-- The lines of an L1 that hold bytes of a store and permit it. -/
def storeHits (p : Panel) (a : Access) : List (Option L1Line) :=
  let b := p.block a.btag
  (piecesOf a.va a.size).map fun x => (l1Find (p.core (l1Core p a.core (64 * x.line))).l1d x.line b.part b.asid).filter fun l => bt l.attr 1

/-- The lines of an L1 that hold every byte of a store and permit it: such a store needs no translation (R108). A migrated thread uses no
L1 (R178). -/
def l1Tlb (p : Panel) (a : Access) : List Tlb :=
  if (a.kind ≠ .store ∧ a.kind ≠ .vstore) ∨ awaySlot a.slot then []
  else
    let b := p.block a.btag
    let hits := storeHits p a
    if hits.all Option.isSome then (hits.filterMap id).map fun l => ⟨b.part, b.asid, l.vline / 1024, 1, l.pline / 1024, l.key, l.attr⟩
    else []

/-- Bytes of a line replaced. -/
def lineWrite (d : Line) (off n v : Nat) : Line := BitVec.ofNat 512 (putBits d.toNat (8 * (off + n) - 1) (8 * off) v)

/-- A store applied to the L1 copies that hold its bytes and permit it (R108, R177). -/
def Panel.storeL1 (p : Panel) (a : Access) : Panel :=
  let b := p.block a.btag
  (piecesOf a.va a.size).foldl (fun q x =>
    q.updCore (l1Core p a.core (64 * x.line)) fun c =>
      { c with l1d := c.l1d.map fun l =>
          if l.vline == x.line && l.part == b.part && l.asid == b.asid && bt l.attr 1 then
            { l with data := lineWrite l.data x.off x.len (a.data >>> (8 * x.pos)) }
          else l }) p

/-- The pieces of a store as a fill keeps them: number, address, size, data, each within one line. -/
def patchOf (a : Access) : List (Nat × Nat × Nat × Nat) :=
  (piecesOf a.va a.size).map fun x => (a.id, a.va + x.pos, x.len, a.data >>> (8 * x.pos))

/-- Two accesses of paged memory are to one address space, and share a line. -/
def Panel.lineMeets (p : Panel) (a b : Access) : Bool :=
  let x := p.block a.btag
  let y := p.block b.btag
  x.part == y.part && x.asid == y.asid && rangesMeet (a.va / 64 * 64) (a.va % 64 + a.size) (b.va / 64 * 64) (b.va % 64 + b.size + 63)

/-- A store applied to the fills on their way to its L1 (R109, R177). -/
def Panel.storeFills (p : Panel) (a : Access) : Panel :=
  { p with accs := p.accs.map fun (e : Nat × Access) =>
      if e.2.fill == 1 && p.shareL1 e.2.core a.core && p.lineMeets e.2 a then (e.1, { e.2 with patch := e.2.patch ++ patchOf a }) else e }

/-- A paged store of a thread that uses its L1. -/
def Access.l1Store (a : Access) : Bool :=
  (a.kind == .store || a.kind == .vstore) && a.items == [] && !awaySlot a.slot && decide (a.slot < 16)

/-- The stores not yet performed that a new fill does not see at its home slice (R177). -/
def Panel.openPatch (p : Panel) (a : Access) : List (Nat × Nat × Nat × Nat) :=
  ((p.accs.map (·.2)).filter fun x => x.l1Store && x.stage.open_ && x.stage != .parked && !x.thru && p.shareL1 x.core a.core && p.lineMeets x a).flatMap patchOf

/-- The access with its pages translated leaves the core (R42, R108, R118, R167): each of its lines is asked of its home slice. The checks
of R44 and R191 are made here. A PF outside region 0 does nothing (R290). -/
def Panel.leave (p : Panel) (a : Access) (ts : List Tlb) : Panel :=
  let q := p.part (p.block a.btag).part
  let ps := partsOf ts a.va a.size
  if a.hint ∧ ps.any fun x => lineRegion x.line != 0 then p.discard a
  else
  match ps.findSome? fun x => p.regionFault q a (64 * x.line + x.off) x.len with
  | some c => (p.discard a).accTrap a c (w64 a.va)
  | none =>
    let outside := ps.all fun x => lineRegion x.line != 0
    let a' := { a with
      parts := ps, stage := .out, pa := (tlbAt ts a.va).phys a.va, attr := (tlbAt ts a.va).attr, thru := false
      fill := if !outside then a.fill else if a.kind = .fetch then 4 else 0 }
    let p1 := p.updAcc a.id fun _ => a'
    let p2 := if a.thru then (p1.storeL1 a').storeFills a' else p1
    ((List.range ps.length).zip ps).foldl (fun r e => r.sliceReq q a' e.1 e.2) p2

/-- A walk-cache entry's key: a level-1 path, or a level-2 path beyond 2^13. -/
def wKey1 (vpn : Nat) : Nat := vpn / 2 ^ 26 % 8192
def wKey2 (vpn : Nat) : Nat := 8192 + vpn / 2 ^ 13 % 2 ^ 26

/-- The table page that the walk cache holds for a path. -/
def wFind (c : Cluster) (part asid key : Nat) : Option Nat :=
  (c.wcache.find? fun w => w.1 == part && w.2.1 == asid && w.2.2.1 == key).map (·.2.2.2)

/-- Cycles between a walk's reading of an entry and the walk's next step: of the 2(18 + 4h) cycles of a level, those that the request
does not take; the hops are counted from the core that asked (R152). -/
def Panel.levelRest (p : Panel) (q : Partition) (lc line : Nat) : Nat := 28 + 6 * p.trip lc (homeSlice q line) 0

/-- An entry of a walk table, by its number, changed. -/
def Panel.updWalkEnt (p : Panel) (cl num : Nat) (f : TlbWalk → TlbWalk) : Panel :=
  p.updCluster cl fun c => { c with walks := c.walks.map fun w => if w.num == num then f w else w }

/-- A walker's next reading: an 8-byte load of the entry of a level at its home slice, `d` cycles from now (R149, R152). Its source among
those of the slices is the cluster's TLB. -/
def Panel.walkRead (p : Panel) (cl : Nat) (w : TlbWalk) (level table d : Nat) : Panel :=
  let q := p.part w.part
  let i := match level with | 1 => w.vpn / 2 ^ 26 % 8192 | 2 => w.vpn / 2 ^ 13 % 8192 | _ => w.vpn % 8192
  let line := (table * 65536 + 8 * i) / 64
  let t := d + 8 + 2 * p.trip w.core (homeSlice q line) 0
  ((p.updWalkEnt cl w.num fun w => { w with level := level, table := table }).updSlice (homeSlice q line) fun s =>
    { s with vc := s.vc ++ [(p.now + t, ⟨.walk cl w.num, 2 ^ 20 + cl, line, 0⟩)] }).later t .sliceRequest [homeSlice q line]

/-- A walk's outcome is known: it takes effect after `d` cycles. -/
def Panel.walkEnd (p : Panel) (cl num d : Nat) (r : WalkR) : Panel :=
  (p.updWalkEnt cl num fun w => { w with level := max w.level 1, res := some r }).later d .tlbWalkComplete [cl, num]

/-- A walker takes a page: it starts at the lowest level that the walk cache leaves it, 4 cycles for a level that it holds (R152). -/
def Panel.walkStart (p : Panel) (cl : Nat) (w : TlbWalk) : Panel :=
  let q := p.part w.part
  let c := p.cluster cl
  match SMap.find q.asids w.asid, wFind c w.part w.asid (wKey2 w.vpn), wFind c w.part w.asid (wKey1 w.vpn) with
  | none, _, _ => p.walkEnd cl w.num 4 .notPresent
  | some _, some t, _ => p.walkRead cl w 3 t 8
  | some _, none, some t => p.walkRead cl w 2 t 4
  | some r, none, none => if tableOk q r then p.walkRead cl w 1 r 0 else p.walkEnd cl w.num 4 (.fatal 0x32)

/-- The four walkers take waiting pages, oldest first (R152). -/
def Panel.walkers (p : Panel) (cl : Nat) : Nat → Panel
  | 0 => p
  | k + 1 =>
    let ws := (p.cluster cl).walks
    if 4 ≤ (ws.filter fun w => w.level != 0).length then p
    else
      match ws.find? fun w => w.level == 0 with
      | some w => (p.walkStart cl w).walkers cl k
      | none => p

/-- A page enters the walk table, for an access or for an engine (R154). -/
def Panel.walkFor (p : Panel) (cl part asid vpn core : Nat) (ids engs : List Nat) : Panel :=
  (p.updCluster cl fun c =>
    { c with wnum := c.wnum + 1, walks := c.walks ++ [{ part := part, asid := asid, vpn := vpn, joined := ids, core := core, num := c.wnum, engs := engs }] }).walkers
      cl 4

/-- The TLB's input queue is full: 64 requests wait that have joined no walk (R154). -/
def Panel.tlbFull (p : Panel) (cl : Nat) : Bool :=
  64 ≤ ((p.accs.map (·.2)).filter fun a =>
    clusterOf a.core == cl && a.stage == .tlb && !(p.cluster cl).walks.any fun w => w.joined.contains a.id).length + (p.cluster cl).tlbq.length

/-- A walk has room for one more request (R154). -/
def TlbWalk.room (w : TlbWalk) : Bool := w.joined.length + w.engs.length < 16

/-- An engine waits for the walk of a page, which it joins or starts; with no room for that it stands in the TLB's input queue, and asks again
later (R151, R154). `who` is its number among the cluster's engines. -/
def Panel.engWalk (p : Panel) (cl part asid vpn core who : Nat) : Panel :=
  let p1 := p.updCluster cl fun c => { c with tlbq := c.tlbq.filter fun (e : Nat × Nat × Nat × Nat) => e.1 != who }
  let queue := if p1.tlbFull cl then p1 else p1.updCluster cl fun c => { c with tlbq := c.tlbq ++ [(who, part, asid, vpn)] }
  let c := p1.cluster cl
  match c.walks.find? fun w => w.part == part && w.asid == asid && w.vpn == vpn with
  | some w =>
    if w.engs.contains who then p1
    else if w.room then p1.updWalkEnt cl w.num fun w => { w with engs := w.engs ++ [who] }
    else queue
  | none => if 32 ≤ c.walks.length then queue else p1.walkFor cl part asid vpn core [] [who]

/-- The translation of a page that the TLB holds, or that a walk would form now. -/
def Panel.known (p : Panel) (cl part asid vpn : Nat) : Option Tlb :=
  match tlbFind (p.cluster cl) part asid vpn with
  | some t => some t
  | none => match p.walk part asid vpn with
    | .ok t => some t
    | .notPresent => none
    | .fatal _ => none

/-- The home slices of an access's lines, as far as its pages are known. -/
def Panel.slicesOf (p : Panel) (a : Access) : List Nat :=
  let b := p.block a.btag
  (piecesOf a.va a.size).filterMap fun x =>
    (p.known (clusterOf a.core) b.part b.asid (x.line / 1024)).map fun t => homeSlice (p.part b.part) (t.phys (64 * x.line) / 64)

/-- An older access of the core that is still held keeps back one to the same home slice (R109). -/
def Panel.passes (p : Panel) (a : Access) : Bool :=
  (p.accs.map (·.2)).any fun x =>
    x.core == a.core && decide (x.id < a.id) && x.stage == .held && x.items == [] && a.kind != .fetch &&
      (p.slicesOf x).any fun s => (p.slicesOf a).contains s

/-- An access whose pages are all translated: the host region of an atomic, the permissions, and then the way out, behind the older
accesses of its core to the same slice (R109, R153, R303). -/
def Panel.translated (p : Panel) (a : Access) (found : List (Nat × Tlb)) : Panel :=
  let ts := found.map (·.2)
  let q := p.part (p.block a.btag).part
  if a.kind = .amo ∧ (partsOf ts a.va a.size).any fun x => p.regionFault q a (64 * x.line + x.off) x.len == some 0x03 then
    (p.discard a).accTrap a 0x03 (w64 a.va)
  else
    match found.find? fun e => !permitted e.2.attr (needOf a.kind) a.level with
    | some (v, _) => p.park a 2 v
    | none => if p.passes a then p else p.leave a ts

/-- An access asks the cluster TLB (R108, R154): a missing page starts a walk or joins the one under way; with every page held, the
access goes on behind the older waiting requests of its core. -/
def Panel.tlbTry (p : Panel) (id : Nat) : Panel :=
  match p.acc id with
  | none => p
  | some a =>
    let cl := clusterOf a.core
    let b := p.block a.btag
    if a.stage = .held ∧ p.tlbFull cl then p
    else
      let p0 := p.updAcc id fun a => { a with stage := .tlb }
      let held := l1Tlb p a
      let found := (pagesOf a).map fun v =>
        (v, match held.find? fun t => t.vpn == v with
          | some t => some t
          | none => tlbFind (p.cluster cl) b.part b.asid v)
      match found.find? fun e => e.2.isNone with
      | some (v, _) =>
        let c := p0.cluster cl
        match c.walks.find? fun w => w.part == b.part && w.asid == b.asid && w.vpn == v with
        | some w =>
          if w.joined.contains id ∨ !w.room then p0
          else p0.updWalkEnt cl w.num fun w => { w with joined := w.joined ++ [id] }
        | none => if 32 ≤ c.walks.length then p0 else p0.walkFor cl b.part b.asid v a.core [id] []
      | none =>
        if (p.accs.map (·.2)).any fun x => x.core == a.core && x.id < id && x.stage == .tlb then p0
        else p0.translated a (found.filterMap fun e => e.2.map fun t => (e.1, t))

/-- Requests that wait in the TLB's queue are tried again, oldest first (R154). -/
def Panel.tlbPump (p : Panel) (lc : Nat) : Panel :=
  ((p.accs.map (·.2)).filter fun a => clusterOf a.core == clusterOf lc && a.stage == .tlb).foldl (fun q a => q.tlbTry a.id) p

/-- A held access that nothing holds any more goes on its way. -/
def Panel.dispatch (p : Panel) (id : Nat) : Panel :=
  match p.acc id with
  | none => p
  | some a =>
    if a.stage = .held ∧ a.after = [] then (if a.items = [] then p.tlbTry id else p.dispatchMesh a) else p

/-- An access of the running thread enters the table with its number; its counter rises (R167, R263). -/
def Panel.enter (p : Panel) (a : Access) : Panel :=
  let id := p.nid
  let a' := { a with
    id := id, core := p.cur.core, slot := p.cur.slot, btag := p.cc.btag, pc := p.cc.pc, level := p.slevel, seq := (p.core p.cur.core).accSeq }
  let p1 := { p with nid := id + 1, accs := SMap.set p.accs id { a' with patch := if a.fill = 1 then p.openPatch a' else [] } }
  let p2 := p1.updCore p.cur.core fun c => { c with accSeq := c.accSeq + 1 }
  match a.cls with | .none => p2 | .loads => p2.incL | .stores => p2.incS

/-- An access enters the table and starts (R167, R182). -/
def Panel.issueAcc (p : Panel) (a : Access) : Panel := (p.enter a).dispatch p.nid

/-- An access of the running thread's bundle: it enters the table, the bundle ends, and the access starts, so that a trap of it goes to
the routine (R191). `f` is what the access does at its core when it issues. -/
def Panel.issueFin (p : Panel) (a : Access) (f : Panel → Panel := id) : Panel := ((f (p.enter a)).fin).dispatch p.nid

/-- An access has been performed: those that waited for it go on (R183, R186). -/
def Panel.performed (p : Panel) (id : Nat) : Panel :=
  let p1 := p.updAcc id fun a => { a with stage := .performed }
  let ws := ((p1.accs.map (·.2)).filter fun a => a.after.contains id).map (·.id)
  ws.foldl (fun q i => (q.updAcc i fun a => { a with after := a.after.filter (· != id) }).dispatch i) p1

/-- Accesses that nothing holds any more go on, and requests before the TLBs are tried again, oldest first. -/
def Panel.flow (p : Panel) : Panel :=
  ((p.accs.map (·.2)).filter fun a => (a.stage == .held && a.after == []) || a.stage == .tlb).foldl (fun q a =>
    match q.acc a.id with
    | some x => if x.stage = .tlb then q.tlbTry a.id else q.dispatch a.id
    | none => q) p

/-! ### Results -/

/-- The result of an access written to its destination. -/
def Panel.writeDest (p : Panel) (a : Access) : Panel :=
  if !p.mine a then p
  else
  match a.dest with
  | .none => p
  | .g r =>
    let v := if a.kind = .amo then amoResult a.wide a.got
      else if a.items ≠ [] then w64 a.got
      else if a.sx then sext64 (8 * a.size) a.got else w64 a.got
    p.putGAt a.core a.slot r v
  | .vec x => { p with mem := Memory.writeN p.mem x 64 a.got }
  | .lanes x =>
    { p with mem := a.items.foldl (fun m i => Memory.writeBits m (8 * x + i.pos) i.pw (bf a.got (i.pos + i.pw - 1) i.pos)) p.mem }
  | .sh r => p.updCtx a.core a.slot fun c => c.setSh r (BitVec.ofNat 512 a.got)
  | .tile n =>
    p.updCore a.core fun c => { c with tiles := c.tiles.map fun o => if o.num == n then { o with got := o.got ||| a.got } else o }

/-! ### Full/empty words (R89-R91) -/

/-- Hops of the answer to an access that another core has performed (R481). -/
def Panel.backHops (p : Panel) (id : Nat) : Nat :=
  match p.acc id with
  | some a => p.trip a.target a.core 1
  | none => 0

/-- The flits of the answer to an access (R522). -/
def answerFlits (a : Access) : Nat :=
  match a.kind with
  | .store => 1 | .vstore => 1 | .stfl => 1 | .feclr => 1 | .twperm => 1 | .send => 1 | .barrier => 1
  | .load => big | .vload => big | .fmtLoad => big | .shLoad => big | .fetch => big | .amo => big | .ldsy => big | .ldsyTake => big
where big : Nat := if a.fill ≠ 0 then 3 * a.parts.length else if a.size ≤ 8 then 1 else 1 + cdiv a.size 32

/-- The flit hops of an answer that travels `h` hops, counted for the access's launch (R441). -/
def Panel.billAnswer (p : Panel) (id h : Nat) : Panel :=
  match p.acc id with
  | some a => p.charge a.core a.btag (12 * h * answerFlits a)
  | none => p

/-- The response of a remote LDSY is on its way. -/
def Panel.answer (p : Panel) (id got : Nat) : Panel :=
  (((p.updAcc id fun a => { a with got := got }).performed id).billAnswer id (p.backHops id)).later (14 + 2 * p.backHops id) .remoteLoadResponse [id]

/-- One waiting LDSY served with the word's value. -/
def Panel.serveOne (p : Panel) (lc word : Nat) (e : WaitEnt) : Panel :=
  let v := p.lmRead lc (8 * word) 8
  if e.acc ≠ 0 then p.answer e.acc v
  else (p.putGAt e.core e.slot e.dest (w64 v)).ready e.core e.slot

/-- Entries served in order up to the first LDSY.TAKE, which empties the word (R91). -/
def Panel.serve (p : Panel) (lc word : Nat) : List WaitEnt → Panel
  | [] => p
  | e :: t => if e.take then (p.serveOne lc word e).setEmpty lc word else Panel.serve (p.serveOne lc word e) lc word t

/-- The entries that a full word serves: those up to and including the first LDSY.TAKE. -/
def servedEnts : List WaitEnt → List WaitEnt
  | [] => []
  | e :: t => if e.take then [e] else e :: servedEnts t

/-- A word becomes full and its waiting entries are served (R91). -/
def Panel.fillWord (p : Panel) (lc word : Nat) : Panel :=
  let p1 := p.setFull lc word
  let es := (p1.core lc).waits.filter fun e => !e.bar && e.entered && e.off == word
  let gone := servedEnts es
  (p1.updCore lc fun c => { c with waits := c.waits.filter fun e => !gone.contains e }).serve lc word es

/-- The words a byte range covers, made full in ascending order (R89). -/
def Panel.fillRange (p : Panel) (lc off n : Nat) : Panel :=
  (upto (off / 8) (wordsTouched off n)).foldl (fun q w => q.fillWord lc w) p

/-- An engine command of core `src` delivers into core `lc`: the foreign flag is set when they differ (R489). -/
def Panel.foreign (p : Panel) (src lc : Nat) : Panel := if src = lc then p else p.updCore lc fun c => { c with foreign := true }

/-- A wait entered in a core's wait table, or refused by a full one and tried again after 64 cycles (R90). -/
def Panel.enterWait (p : Panel) (lc : Nat) (e : WaitEnt) : Panel :=
  let room := ((p.core lc).waits.filter (·.entered)).length < 32
  let p1 := p.updCore lc fun c => { c with waits := c.waits ++ [{ e with entered := room, retryAt := p.now + 64 }] }
  if room then p1 else p1.later 64 .waitTableRetry [e.core, e.slot]

/-! ### Barrier objects (R198-R201, R310) -/

def Panel.obj (p : Panel) (lc off : Nat) : Nat := p.lmRead lc off 16

/-- Fields of a barrier object. -/
def objBtag (o : Nat) : Nat := bf o 127 96
def objPend (o : Nat) : Int := sgn 32 (bf o 95 64)
def objPhase (o : Nat) : Nat := bf o 32 32
def objArr (o : Nat) : Nat := bf o 31 16
def objExp (o : Nat) : Nat := bf o 15 0
def objStag (o : Nat) : Bool := bt o 33

/-- A barrier object with its fields (R198). -/
def mkObj (tag : Nat) (pend : Int) (stag : Bool) (phase arr ex : Nat) : Nat :=
  tag * 2 ^ 96 + cut 32 pend * 2 ^ 64 + b2n stag * 2 ^ 33 + phase * 2 ^ 32 + arr * 2 ^ 16 + ex

/-- The checks of R199 that do not depend on the operation. -/
def objOk (o tag : Nat) : Bool := objBtag o == tag && bf o 63 34 == 0 && objExp o != 0

/-- End of a BARWAIT's wait: the record is cleared, the acquire taken, the stagger delay begun (R201, R310, R311). -/
def Panel.barReturn (p : Panel) (lc slot : Nat) (stag : Bool) : Panel :=
  let c := p.ctx lc slot
  let p1 := (p.updCtx lc slot fun c => { c with arr := none }).acquireAt lc slot 3
  let k := p1.blk lc c.btag
  let d := if stag ∧ k.bsMod ≠ 0 then k.bsStep * ((c.bx + 4 * c.by_) % k.bsMod) else 0
  if d = 0 then p1.ready lc slot
  else (p1.updCtx lc slot fun c => { c with st := if c.st = .parked then .parked else .blocked, wake := .stagger (p.now + d) }).later d .barrierStaggerEnd [lc, slot]

/-- Waiters of an object whose phase is no longer the one they wait to leave are released (R201, R312). -/
def Panel.barRelease (p : Panel) (lc off : Nat) : Panel :=
  let o := p.obj lc off
  let es := (p.core lc).waits.filter fun e => e.bar && e.entered && e.off == off && e.phase != objPhase o
  let p1 := p.updCore lc fun c => { c with waits := c.waits.filter fun e => !es.contains e }
  es.foldl (fun q e => if e.core = lc then q.barReturn lc e.slot (objStag o) else q.send lc e.core (.wake e.slot)) p1

/-- An object written and, when ARR = EXP and PEND = 0, its phase completed in the same access (R201). -/
def Panel.objWrite (p : Panel) (lc off o : Nat) (test : Bool) : Panel :=
  if test ∧ objArr o = objExp o ∧ objPend o = 0 then
    (p.lmWrite lc off 16 (mkObj (objBtag o) 0 (objStag o) (1 - objPhase o) 0 (objExp o))).barRelease lc off
  else (p.lmWrite lc off 16 o).barRelease lc off

/-- An engine's decrement performed at a barrier object (R200): false when the object fails R199. -/
def Panel.pendSub (p : Panel) (lc off tag bytes : Nat) : Panel × Bool :=
  let o := p.obj lc off
  if !objOk o tag then (p, false)
  else
    let v := objPend o - bytes
    if v < -(2 ^ 31 : Int) then (p.objWrite lc off (mkObj tag (-(2 ^ 31 : Int)) (objStag o) (objPhase o) (objArr o) (objExp o)) true, false)
    else (p.objWrite lc off (mkObj tag v (objStag o) (objPhase o) (objArr o) (objExp o)) true, true)

/-- One arrival at a barrier object (R200, R310): false when R199 fails. -/
def Panel.arrive (p : Panel) (lc off tag : Nat) : Panel × Bool :=
  let o := p.obj lc off
  if !objOk o tag ∨ objExp o < objArr o + 1 then (p, false)
  else (p.objWrite lc off (mkObj tag (objPend o) (objStag o) (objPhase o) (objArr o + 1) (objExp o)) true, true)

/-! ### L1 (R105-R116) -/

/-- A line placed in an L1 of `ways` ways: a copy of the same physical line goes first (R110), but a later reading of the same line stays
(R183); a full set gives up a way (log 4, DESIGN CHOICE). -/
def l1Place (ls : List L1Line) (set : Nat → Nat) (ways seed : Nat) (x : L1Line) : List L1Line :=
  if ls.any fun l => l.pline == x.pline && decide (x.stamp < l.stamp) then ls
  else
    let ls := ls.filter fun l => l.pline != x.pline
    let same := ls.filter fun l => set (64 * l.vline) == set (64 * x.vline)
    if same.length < ways then ls ++ [x]
    else
      match same[Config.victim same.length seed % same.length]? with
      | some v => (ls.filter fun l => l != v) ++ [x]
      | none => ls ++ [x]

/-- An older store of the L1 to some of a store's bytes has not updated the L1 yet. -/
def Panel.behindThru (p : Panel) (a : Access) : Bool :=
  (p.accs.map (·.2)).any fun x =>
    decide (x.id < a.id) && x.l1Store && x.thru && x.stage.open_ && x.stage != .parked && p.shareL1 x.core a.core && p.sameSpace x.btag a.btag &&
      rangesMeet x.va x.size a.va a.size

/-- A store at issue: applied to the L1 and to the fills on their way when every line of it hits, or none and it has one page, unless an older
store to its bytes has not been; else once it leaves its core, since it may yet fault (R108, R177, R181). -/
def Panel.storeThrough (p : Panel) (id : Nat) : Panel :=
  match p.acc id with
  | none => p
  | some a =>
    let hits := storeHits p a
    if p.behindThru a then p.updAcc id fun a => { a with thru := true }
    else if hits.all Option.isSome then (p.storeL1 a).storeFills a
    else if hits.all Option.isNone && (pagesOf a).length == 1 then p.storeFills a
    else p.updAcc id fun a => { a with thru := true }

/-- A load of another thread needs bytes that a store has written to the L1 and not yet performed, or a load of the thread itself bytes that
its store has not yet written to it (R177). -/
def Panel.pendingBytes (p : Panel) (lc slot va n : Nat) : Bool :=
  (p.accs.map (·.2)).any fun a =>
    p.shareL1 a.core lc && a.stage.open_ && a.l1Store && rangesMeet a.va a.size va n && (!(a.core == lc && a.slot == slot) || a.thru)

/-- A load of the thread of bytes that a later one of it needs has not returned, whether it has read them or not (R183). -/
def Panel.loadOpen (p : Panel) (lc slot va n : Nat) : Bool :=
  (p.accsOf lc slot).any fun a => a.items == [] && needOf a.kind != 2 && rangesMeet a.va a.size va n

end Sys2Proof.Machine
end

