-- ==== Sys2Proof/Machine/Home.lean ====
section
/-! DEFINITION. Home slices and HBM: lines, their replacement and their errors, the performance of requests, and the accesses that
engines and the front end make there (R42, R44, R117-R145, R152, R175, R193, R436). -/

namespace Sys2Proof.Machine

/-! ### Soft errors (R140-R142) -/

/-- The state of word `w` of a line: 0 sound, 1 a correctable error, 2 an uncorrectable one. -/
def softWord (v w : Nat) : Nat := v / 4 ^ w % 4

/-- Words of a line in a state. -/
def softCount (v k : Nat) : Nat := ((List.range 8).filter fun w => softWord v w == k).length

/-- An error strikes word `w` of a line; a second one in the word can no longer be corrected (R140). -/
def softAdd (v w k : Nat) : Nat := v + ((if softWord v w = 0 then k else 2) - softWord v w) * 4 ^ w

/-- An error counter record with corrected and uncorrectable errors found at a place (R141). -/
def ErrCnt.add (c : ErrCnt) (corr uncorr at_ : Nat) : ErrCnt :=
  { corr := min (c.corr + corr) 0xFFFFFFFF, uncorr := min (c.uncorr + uncorr) 0xFFFF, lastSet := if corr = 0 then c.lastSet else at_ }

/-- The channel of a line of a partition, and the row that LASTSET shows. The rule defines no row: the model takes the line's number within
the channel, modulo 2^16 (log 58, DESIGN CHOICE). -/
def hbmSpot (q : Partition) (line : Nat) : Nat × Nat :=
  let x := hbmPlace q (64 * line)
  (x.1, x.2 / 64 % 65536)

/-- Errors of an HBM line found when the line is read: correctable ones are corrected and counted; with an uncorrectable one the line becomes
poisoned (R140-R142). -/
def Panel.hbmFindAt (p : Panel) (spot : Nat × Nat) (line : Nat) : Panel :=
  match SMap.find p.hbm.soft line with
  | none => p
  | some v =>
    let h := { p.hbm with
      soft := SMap.del p.hbm.soft line
      cnts := SMap.upd p.hbm.cnts spot.1 {} fun c => c.add (softCount v 1) (softCount v 2) spot.2 }
    if softCount v 2 = 0 ∨ h.poison.contains line then { p with hbm := h } else { p with hbm := { h with poison := h.poison ++ [line] } }

def Panel.hbmFind (p : Panel) (q : Partition) (line : Nat) : Panel := p.hbmFindAt (hbmSpot q line) line

/-- Errors of a slice's line found when the line is read: corrected; with an uncorrectable one a clean line is dropped, to be fetched again,
which counts as corrected, and a dirty one poisoned (R140-R142). -/
def Panel.l2Check (p : Panel) (sc line : Nat) : Panel :=
  match SMap.find (p.slice sc).soft line, l2Find (p.slice sc) line with
  | some v, some l =>
    p.updSlice sc fun s =>
      let s1 := { s with soft := SMap.del s.soft line }
      if softCount v 2 = 0 then { s1 with cnt := s1.cnt.add (softCount v 1) 0 l.set }
      else if l.dirty then
        { s1 with
          lines := s1.lines.map fun x => if x.line == line then { x with poison := true } else x
          cnt := s1.cnt.add (softCount v 1) (softCount v 2) l.set }
      else { s1 with lines := s1.lines.filter fun x => x.line != line, cnt := s1.cnt.add (softCount v 1 + softCount v 2) 0 l.set }
  | _, _ => p

/-! ### Lines of a slice (R118-R121) -/

/-- Line ways that ordinary traffic may use (R121). -/
def lineWays (q : Partition) : Nat := if q.ckEn then 8 else 12

/-- A line written back to HBM, its check bits anew (R120, R142). -/
def Panel.writeBack (p : Panel) (l : L2Line) : Panel :=
  if !l.dirty then p
  else
    let p1 := { p with mem := Memory.writeN p.mem (64 * l.line) 64 l.data.toNat }
    { p1 with hbm := { p1.hbm with
        soft := SMap.del p1.hbm.soft l.line
        poison := (p1.hbm.poison.filter (· != l.line)) ++ (if l.poison then [l.line] else []) } }

/-- Dirty lines of a slice. -/
def Slice.dirties (s : Slice) : Nat := (s.lines.filter fun l => l.dirty).length

/-- Energy of line transfers between a slice and the stack of a line: 500 pJ for each, and the hops of its address and data, 4 flits in
all (R22, R441, R522). -/
def Panel.hbmPj (p : Panel) (q : Partition) (sc line n : Nat) : Nat := n * (500 + 48 * stackHops p.fabric sc (hbmSpot q line).1)

/-- A line leaves its slice, written back when dirty (R129). -/
def Panel.dropLine (p : Panel) (sc line : Nat) : Panel :=
  let p := p.l2Check sc line
  match l2Find (p.slice sc) line with
  | none => p
  | some l => (p.writeBack l).updSlice sc fun s => { s with lines := s.lines.filter fun x => x.line != line }

/-- A line becomes the most recently used of its slice. -/
def Panel.touch (p : Panel) (sc line : Nat) : Panel :=
  match l2Find (p.slice sc) line with
  | none => p
  | some l => p.updSlice sc fun s => { s with lines := (s.lines.filter fun x => x.line != line) ++ [l] }

/-- A line read from HBM into a way of its slice. -/
def Panel.putWay (p : Panel) (sc set line key way : Nat) : Panel :=
  p.updSlice sc fun s =>
    { s with
      lines := s.lines ++ [⟨line, set, hbmLine p.mem line, false, p.hbm.poison.contains line, key, way⟩]
      soft := SMap.del s.soft line }

/-- A line brought from HBM into its home slice under a key: into a free way of its set, or in the place of a line, written back, that is not
the most recently used (R120, R124; log 4, DESIGN CHOICE). No line that the slice holds has waiters: those of a fill are performed with its
return. -/
def Panel.placeLine (p : Panel) (q : Partition) (line key : Nat) : Panel :=
  let sc := homeSlice q line
  let set := homeSet q line
  let p := p.hbmFind q line
  let same := (p.slice sc).lines.filter fun l => l.set == set && l.way < lineWays q
  match (List.range (lineWays q)).find? fun w => same.all fun l => l.way != w with
  | some w => p.putWay sc set line key w
  | none =>
    let old := same.dropLast
    match old[Config.victim old.length p.evs % old.length]? with
    | some v => (p.dropLine sc v.line).putWay sc set line key v.way
    | none => p

/-- A slice whose tags, registers or waiter lists hold an uncorrectable error has lost its lines: SLICE_LOST, counted as an uncorrectable error
(R119, R141, R145). The rule names no TVAL: the halt record holds the slice's logical core number (log 58, DESIGN CHOICE). -/
def Panel.sliceLost (p : Panel) (sc : Nat) : Panel :=
  (p.updSlice sc fun s => { s with tagBad := false, lines := [], soft := [], cnt := s.cnt.add 0 1 0 }).fatalAt sc 0x34 (w64 sc)

/-! ### Watched lines (R421, R478) -/

/-- The bytes of a write that `keep` lets through. -/
def maskedWrite (keep : Nat → Bool) (off v : Nat) (d : Line) (n : Nat) : Line :=
  (List.range n).foldl (fun d i => if keep (off + i) then lineWrite d (off + i) 1 (v >>> (8 * i)) else d) d

/-- The lines of a slice that are one line, changed: dirty, and clean of poison when all 64 bytes are written (R142, R143). -/
def Panel.setLine (p : Panel) (sc line : Nat) (whole : Bool) (f : Line → Line) : Panel :=
  p.updSlice sc fun s =>
    { s with lines := s.lines.map fun l =>
        if l.line == line then { l with data := f l.data, dirty := true, poison := l.poison && !whole } else l }

/-- The queue whose mutable half is a line: its partition and number (R418, R421). -/
def Panel.watched (p : Panel) (line : Nat) : Option (Nat × Nat) :=
  p.parts.findSome? fun (e : Nat × Partition) =>
    (e.2.qtab.find? fun w => bt w.2.toNat 63 && 2 * bf w.2.toNat 51 7 + 1 == line).map fun w => (e.1, w.1)

/-- The route block that holds a line: its partition and the line's number 0 to 4 (R478). -/
def Panel.routeLine (p : Panel) (line : Nat) : Option (Nat × Nat) :=
  (p.parts.find? fun (e : Nat × Partition) =>
    e.2.count != 0 && e.2.base * 2 ^ 25 ≤ line && line < e.2.base * 2 ^ 25 + 5).map fun e => (e.1, line - e.2.base * 2 ^ 25)

/-- A write to a mutable half. Of a mapped queue its control writes are forwarded; of another TAIL goes into the line, CANCEL and ERRACK
are kept beside it, since they read 0, and PWAKE is set. Every other byte is discarded (R420, R421, R447; log 73, DEDUCED). -/
def Panel.control (p : Panel) (sc line pi qi off n v : Nat) : Panel :=
  let tail := rangesMeet off n 4 4
  let acks := rangesMeet off n 8 1
  let b := if off ≤ 8 ∧ 8 < off + n then v >>> (8 * (8 - off)) % 256 else 0
  let wake := rangesMeet off n 48 8 || (acks && b &&& 0x30 == 0)
  let keep := fun (i : Nat) => decide (4 ≤ i) && decide (i < 8)
  if (SMap.getD (p.part pi).queues qi {}).mapped then
    let p1 := if tail then
        let m := maskedWrite keep off (2 ^ 512 - 1) 0 n
        let d := maskedWrite keep off v 0 n
        p.later 1 .qcbTailWrite [pi, qi, bf d.toNat 63 32, bf m.toNat 63 32]
      else p
    let p2 := if wake then p1.later 1 .qcbWakeWrite [pi, qi] else p1
    let p3 := if bt b 5 then p2.later 1 .qcbCancelWrite [pi, qi] else p2
    if bt b 4 then p3.later 1 .qcbErrackWrite [pi, qi] else p3
  else if !tail && !wake && !acks then p
  else
    let was := match l2Find (p.slice sc) line with | some l => bt l.data.toNat 67 | none => false
    let p1 := p.setLine sc line false fun d =>
      let d1 := maskedWrite keep off v d n
      lineWrite d1 8 1 (bf d1.toNat 71 64 ||| 8)
    let p2 := p1.updPart pi fun x =>
      if (SMap.find x.queues qi).isSome then
        { x with queues := SMap.upd x.queues qi {} fun y => { y with pcancel := y.pcancel || bt b 5, perrack := y.perrack || bt b 4 } }
      else x
    if was then p2 else p2.mailTo 1 0x0001 [pi, qi]

/-- A write to a route block at its slice (R478); one of all 64 bytes that is let through leaves the line clean (R143). -/
def Panel.routeWrite (p : Panel) (sc line pi k off n v : Nat) (slevel : Bool) : Panel :=
  let grant := match l2Find (p.slice sc) (line - k) with
    | some l => bt l.data.toNat 48
    | none => bt (hbmLine p.mem (line - k)).toNat 48
  let free := slevel || grant
  let keep := fun (i : Nat) => if k = 0 then (decide (i < 6) && free) || decide (16 ≤ i) else free
  let p1 := p.setLine sc line (n == 64 && free) fun d => maskedWrite keep off v d n
  if k = 0 ∧ rangesMeet off n 8 8 then p1.later 1 .routeCommit [pi] else p1

/-- Bytes written to a line that its home slice holds, by a writer of a level (R125, R421, R478). -/
def Panel.slicePut (p : Panel) (sc line off n v : Nat) (slevel : Bool) : Panel :=
  match p.routeLine line with
  | some r => p.routeWrite sc line r.1 r.2 off n v slevel
  | none =>
    match p.watched line with
    | some w => p.control sc line w.1 w.2 off n v
    | none => p.setLine sc line (n == 64) fun d => lineWrite d off n v

/-! ### Requests performed (R122-R129, R143, R152, R175) -/

/-- Does an access consume the line (R143)? -/
def consumes : AKind → Bool
  | .store => false | .vstore => false
  | .load => true | .amo => true | .vload => true | .fmtLoad => true | .fetch => true | .shLoad => true | .ldsy => true
  | .ldsyTake => true | .stfl => true | .feclr => true | .send => true | .barrier => true | .twperm => true

/-- Hops between an access's core and the home slice of its first line (R481); none for a line outside the panel. -/
def Panel.sliceHops (p : Panel) (a : Access) : Nat :=
  match a.parts with
  | x :: _ => p.trip (homeSlice (p.part (p.block a.btag).part) x.line) a.core 1
  | [] => 0

/-- The response that follows the last part of a paged access. -/
def respond (p : Panel) (a : Access) : Panel :=
  let h := p.sliceHops a
  let ev := match a.kind with
    | .store => Instr.storeAcknowledgement
    | .vstore => .storeAcknowledgement
    | .load => if a.fill ≠ 0 then .l1FillResponse else .loadResponse
    | .vload => if a.fill ≠ 0 then .l1FillResponse else .loadResponse
    | .shLoad => if a.fill ≠ 0 then .l1FillResponse else .loadResponse
    | .fmtLoad => if a.fill ≠ 0 then .l1FillResponse else .loadResponse
    | .fetch => .l1FillResponse
    | .amo => .loadResponse
    | .ldsy => .loadResponse | .ldsyTake => .loadResponse | .stfl => .loadResponse | .feclr => .loadResponse
    | .send => .loadResponse | .barrier => .loadResponse | .twperm => .loadResponse
  (p.billAnswer a.id h).later (10 + 2 * h) ev [a.id]

/-- An error response to an access: no register or line is written (R143). -/
def Panel.sliceError (p : Panel) (id cause : Nat) : Panel :=
  ((p.performed id).updAcc id fun a => { a with stage := .error, err := cause }).later (10 + 2 * ((p.acc id).map p.sliceHops).getD 0) .errorResponse [id]

/-- The pieces of stores that a fill still lacks when it reads a line: those of stores not yet performed there (R109, R177). -/
def Panel.unread (p : Panel) (vline line : Nat) (e : Nat × Nat × Nat × Nat) : Bool :=
  e.2.1 / 64 != vline ||
    match p.acc e.1 with
    | some s => s.stage.open_ && !(s.parts.any fun x => x.line == line && x.done)
    | none => false

/-- Fills of a line that have read it before an atomic on it are not allocated (R108, R192). -/
def Panel.staleFills (p : Panel) (lc line : Nat) : Panel :=
  { p with accs := p.accs.map fun (e : Nat × Access) =>
      if e.2.fill == 1 && p.shareL1 e.2.core lc && (e.2.lines.any fun x => x.1 == line) then (e.1, { e.2 with fill := 3 }) else e }

/-- The copy of a line in the L1 of a core, or in the fused one, goes (R108). -/
def Panel.dropCopy (p : Panel) (lc line : Nat) : Panel :=
  (List.range 8).foldl (fun q k =>
    let t := clusterCore (clusterOf lc) k
    if p.shareL1 t lc then q.updCore t fun c => { c with l1d := c.l1d.filter fun y => y.pline != line } else q) p

/-- One part of an access performed on its line at the home slice (R125, R143, R175, R191); an atomic drops the issuing
core's L1 copy of its line (R108, R192). -/
def Panel.performPart (p : Panel) (sc id part : Nat) (l : L2Line) : Panel :=
  match p.acc id with
  | none => p
  | some a =>
    match a.parts[part]? with
    | none => p
    | some x =>
      if l.key ≠ x.key then p.sliceError id 0x31
      else if l.poison ∧ consumes a.kind then p.sliceError id 0x33
      else
        let rd := bf l.data.toNat (8 * (x.off + x.len) - 1) (8 * x.off)
        let put := fun (q : Panel) (v : Nat) => q.slicePut sc l.line x.off x.len v a.level
        let p1 := match a.kind with
          | .store => put p (a.data >>> (8 * x.pos))
          | .vstore => put p (a.data >>> (8 * x.pos))
          | .amo => (match amoNew a.op a.wide a.rnd rd (if a.op = 2 then a.data1 else a.data) a.data with
            | some v => put p v
            | none => p)
          | .load => p | .vload => p | .fmtLoad => p | .fetch => p | .shLoad => p | .ldsy => p | .ldsyTake => p | .stfl => p
          | .feclr => p | .send => p | .barrier => p | .twperm => p
        let p1 := if a.kind = .amo then (p1.dropCopy a.core l.line).staleFills a.core l.line else p1
        let n := p1.stamp
        let p1 := if a.fill ≠ 0 then { p1 with stamp := n + 1 } else p1
        let p2 := p1.updAcc id fun a =>
          { a with
            got := putBits a.got (8 * (x.pos + x.len) - 1) (8 * x.pos) rd
            lines := if a.fill ≠ 0 then a.lines ++ [(l.line, n, l.data)] else a.lines
            patch := a.patch.filter (p1.unread ((a.va + x.pos) / 64) l.line)
            parts := (a.parts.take part) ++ [{ x with done := true }] ++ a.parts.drop (part + 1) }
        match p2.acc id with
        | none => p2
        | some a' => if a'.parts.all (·.done) && a'.err == 0 then respond (p2.performed id) a' else p2

/-- One part of an access to host or peer memory performed at its home slice: it goes on to the endpoint or to the Link core, where it has the
number 2 × access + part (R42, R44, R118); the hops to the front end or to the port's edge, and back, are counted for its launch (R22, R441). -/
def Panel.performExt (p : Panel) (id part : Nat) : Panel :=
  match p.acc id with
  | none => p
  | some a =>
    match a.parts[part]? with
    | none => p
    | some x =>
      let n := 2 * id + part
      let pi := p.accPart a
      let sc := homeSlice (p.part pi) x.line
      let bill := fun (r : Panel) (h : Nat) => r.bill a.core (p.accLaunch a) (12 * h * (2 + (if x.len ≤ 8 then 0 else cdiv x.len 32)))
      if lineRegion x.line = 2 then (bill p (frontHops (siteOf p.fabric sc))).later 1 .hostRegionAccess [n]
      else
        let pa := 64 * x.line + x.off
        match p.peerWord (p.part pi) pa x.len (needOf a.kind != 1) with
        | some w =>
          let p := match p.peerPort pi (bf pa 47 36) with
            | some port => bill p (edgeHops (siteOf p.fabric sc) (portSites port))
            | none => p
          p.peerOut n pi (bf pa 47 36) w (bf pa 35 0) x.len (extOp a)
            (if a.kind = .amo then a.data + a.data1 * 2 ^ 64 else a.data >>> (8 * x.pos) % 2 ^ (8 * x.len))
        | none => p.later 1 .peerResponse [n, 0]

/-! ### Engine commands at the slices (R380, R385, R523) -/

/-- The event with which an engine goes on. -/
def engEvent : Eng → Instr × List Nat
  | .relay cl ch => (.engineLineData, [0, cl, ch])
  | .walk core => (.twalkTile, [core])
  | .hoop cl => (.hoopCommandComplete, [cl])

/-- The lines that an engine's command has asked for, changed. -/
def Panel.updRds (p : Panel) (e : Eng) (f : List Rd → List Rd) : Panel :=
  match e with
  | .relay cl ch => p.updChan cl ch fun x => { x with rds := f x.rds }
  | .walk core => p.updWalk core fun w => { w with rds := f w.rds }
  | .hoop cl => p.updCluster cl fun c =>
      match c.hoop.cmds with
      | x :: t => { c with hoop := { c.hoop with cmds := { x with rds := f x.rds } :: t } }
      | [] => c

/-- A read of an engine's command has been performed, or has failed: its bytes, or the cause, are there after `d` cycles (R523). -/
def Panel.engGot (p : Panel) (e : Eng) (cmd rd d err : Nat) (data : Line) : Panel :=
  if (p.engCmd e).2.2.2 ≠ cmd then p
  else (p.updRds e fun rs => rs.map fun r => if r.num == rd then { r with data := some data, at_ := p.now + d, err := err } else r).later d
    (engEvent e).1 (engEvent e).2

/-- A class F fault of an engine's command: its copies counter no longer counts it (R143, R263). -/
def Panel.engFatal (p : Panel) (core slot tag cause va : Nat) : Panel :=
  let q := p.fatalAt core cause (w64 va)
  if (q.ctx core slot).btag = tag then q.decC core slot else q

/-- The command of a Relay channel has nothing more to do than to complete (R200, R380, R381). -/
def Chan.over (x : Chan) : Bool :=
  x.busy && !x.busyLine && !x.dying && x.decs == 0 && decide (x.len ≤ x.done)

/-- What a channel does next: a line, or its completion. -/
def Panel.relayNext (p : Panel) (cl ch : Nat) : Panel :=
  let x := p.chan cl ch
  if x.over then p.later 1 .relayComplete [cl, ch]
  else if x.busy ∧ x.done < x.len then p.later 1 .engineLineData [0, cl, ch]
  else p

/-- A chunk's bytes have been written: the channel's place and MARK advance, the barrier's decrement leaves, the next chunk
or the completion follows (R200, R380); the channel of a launch that has ended is free after its last line (R165). -/
def Panel.relayAdvance (p : Panel) (cl ch n : Nat) : Panel :=
  let x := p.chan cl ch
  let p1 := p.updCluster cl fun c => { c with rwp := SMap.upd c.rwp ch 0 fun m => m + w64 n }
  let bar := x.barCore ≠ 0 ∧ !x.dying
  let p2 := p1.updChan cl ch fun x => { x with done := x.done + n, busyLine := false, decs := if bar then x.decs + 1 else x.decs }
  if x.dying ∧ x.len ≤ x.done + n then p1.updChan cl ch fun _ => {}
  else (if bar then p2.send x.core (x.barCore - 1) (.pend x.barOff x.btag n cl ch x.num) else p2).relayNext cl ch

/-- A channel's command stops at a class F fault (R143, R381). -/
def Panel.relayFatal (p : Panel) (cl ch cause va : Nat) : Panel :=
  let x := p.chan cl ch
  if x.dying then (p.updChan cl ch fun _ => {}).fatalAt x.core cause (w64 va)
  else (p.updChan cl ch fun x => { x with dying := true, busyLine := false, rds := [], req := 0, len := x.done }).engFatal x.core x.slot x.btag cause va

/-- A walker's command has nothing more to do than to complete. -/
def Walk.over (w : Walk) : Bool := w.busy && !w.dying && w.left == 0 && !w.busyLine && (w.status != 0 || decide (w.tiles ≤ w.tile))

/-- What a walker does next; one whose launch has ended is free once its line is done (R165). -/
def Panel.walkNext (p : Panel) (lc : Nat) : Panel :=
  let w := (p.core lc).walk
  if w.over then p.later 1 .twalkComplete [lc]
  else if w.busy ∧ w.status = 0 ∧ (w.dying ∨ w.tile < w.tiles) then p.later 1 .twalkTile [lc]
  else p

/-- A walker's command stops at a class F fault (R143). -/
def Panel.walkFatal (p : Panel) (lc cause va : Nat) : Panel :=
  let w := (p.core lc).walk
  if w.dying then (p.updWalk lc fun _ => {}).fatalAt lc cause (w64 va)
  else (p.updWalk lc fun w => { w with dying := true, busyLine := false, rds := [] }).engFatal lc w.slot w.btag cause va

/-- A line that an engine's command writes is in place. -/
def Panel.engPut (p : Panel) (e : Eng) (cmd n : Nat) : Panel :=
  if (p.engCmd e).2.2.2 ≠ cmd then p
  else
    match e with
    | .relay cl ch => p.relayAdvance cl ch n
    | .walk core => (p.updWalk core fun w => { w with busyLine := false, pos := w.pos + 1 }).walkNext core
    | .hoop _ => p

/-- Its error response (R143). -/
def Panel.engPutFail (p : Panel) (e : Eng) (cmd line cause : Nat) : Panel :=
  if (p.engCmd e).2.2.2 ≠ cmd then p
  else
    match e with
    | .relay cl ch => p.relayFatal cl ch cause ((p.chan cl ch).dst + (p.chan cl ch).done)
    | .walk core => p.walkFatal core cause (64 * line)
    | .hoop _ => p

/-- Bytes of a line written at its home slice at the bits of a mask: as one write when the mask is full (R143). -/
def Panel.slicePutMask (p : Panel) (sc line off n data mask : Nat) (level : Bool) : Panel :=
  if mask = 2 ^ (8 * n) - 1 then p.slicePut sc line off n data level
  else
    (List.range n).foldl (fun q i =>
      let m := mask >>> (8 * i) % 256
      if m = 0 then q
      else
        let old := match l2Find (q.slice sc) line with
          | some l => bf l.data.toNat (8 * (off + i) + 7) (8 * (off + i))
          | none => 0
        q.slicePut sc line (off + i) 1 (old - (old &&& m) + (data >>> (8 * i) &&& m)) level) p

/-- An engine's request performed on a line that its slice holds (R137, R143, R380, R385, R523). -/
def Panel.engRead (p : Panel) (sc : Nat) (e : Eng) (cmd rd : Nat) (l : L2Line) (key : Nat) : Panel :=
  let k := p.engCmd e
  let h := p.trip sc k.1 1
  (p.charge k.1 k.2.1 (36 * h)).engGot e cmd rd (10 + 2 * h) (if l.key ≠ key then 0x31 else if l.poison then 0x33 else 0) l.data

def Panel.engWrite (p : Panel) (sc : Nat) (e : Eng) (cmd off n data mask : Nat) (l : L2Line) (key : Nat) : Panel :=
  let k := p.engCmd e
  if l.key ≠ key then p.engPutFail e cmd l.line 0x31
  else ((p.slicePutMask sc l.line off n data mask (p.block k.2.1).priv).charge k.1 k.2.1 (12 * p.trip sc k.1 1)).engPut e cmd n

/-- The bulk commands of a kind of a core with their head changed. -/
def headUpd (f : Bulk → Bulk) : List Bulk → List Bulk
  | [] => []
  | x :: t => f x :: t

/-- A prefetch or drop has nothing more to ask for and every line is answered. -/
def Bulk.over (x : Bulk) : Bool := x.back == x.next && decide (x.lines ≤ x.next)

/-- An L2PF or L2DROP asks for no more lines: its entry carries the status, unless another arose before (R356, R386). -/
def Bulk.end_ (st : Nat) (x : Bulk) : Bulk := { x with status := if x.status = 0 then st else x.status, lines := x.next, parked := false }

/-- A line of a core's oldest L2PF or L2DROP command is complete: it counts, but for a key that did not match (R127-R129, R386). -/
def Panel.bulkAnswer (p : Panel) (pf : Bool) (lc num : Nat) (ok : Bool) (flight : List (Nat × Nat)) : Panel :=
  match (if pf then (p.core lc).pf else (p.core lc).drop) with
  | [] => p
  | x :: _ =>
    if x.num ≠ num then p
    else
      let f := fun (y : Bulk) =>
        { y with back := y.back + 1, done := y.done + b2n ok, status := if ok ∨ y.status ≠ 0 then y.status else 3, flight := y.flight ++ flight }
      let p1 := p.updCore lc fun c => if pf then { c with pf := headUpd f c.pf } else { c with drop := headUpd f c.drop }
      if (f x).over then p1.later 1 (if pf then .l2pfComplete else .l2dropComplete) [lc]
      else p1.later 1 (if pf then .l2pfLineRequest else .l2dropLineRequest) [lc]

/-- An MCRD command of a core ends at an error response: class F, its copy no longer counted (R143, R263). -/
def Panel.mcrdFail (p : Panel) (lc num idx cause : Nat) : Panel :=
  match (p.core lc).mcrd with
  | [] => p
  | x :: t =>
    if x.num ≠ num then p
    else
      let p1 := (p.updCore lc fun c => { c with mcrd := t }).fatalAt lc cause (w64 (x.va + 64 * idx))
      let p2 := if (p.ctx lc x.slot).btag = x.btag then p1.decC lc x.slot else p1
      if t = [] then p2 else p2.later 1 .mcrdLineRequest [lc]

/-- A line of an MCRD command: one response goes along the XY tree to every destination (R15, R126, R324). -/
def Panel.mcrdLine (p : Panel) (sc lc num idx : Nat) (l : L2Line) (key : Nat) : Panel :=
  match (p.core lc).mcrd with
  | [] => p
  | x :: _ =>
    if x.num ≠ num then p
    else if l.key ≠ key then p.mcrdFail lc num idx 0x31
    else if l.poison then p.mcrdFail lc num idx 0x33
    else
      let off := (p.block x.btag).lmBase * 1024 + x.off + 64 * idx
      let p1 := p.updCore lc fun c => { c with mcrd := headUpd (fun y => { y with back := y.back + 1 }) c.mcrd }
      x.dests.foldl (fun r t => r.sendOn true sc t (.line off 64 l.data.toNat (2 ^ 512 - 1) (upto (off / 8) 8) (.mcrd lc num)))
        (p1.treeCharge sc x.btag 3 x.dests)

/-- `n` more bytes of a staging command are in place: its launch has them all, or the next command of the path takes its turn (R377,
R435); that of a launch that has ended is over with the line that was in flight (R437). -/
def Panel.stageNext (p : Panel) (cl num n : Nat) : Panel :=
  match p.stageOf cl num with
  | none => p
  | some x =>
    let t := (p.cluster cl).stage.filter fun y => y.num != num
    if x.dying ∨ x.len ≤ x.done + n then
      let p1 := p.updCluster cl fun c => { c with stage := t }
      let p2 := if p1.clusters.any fun (e : Nat × Cluster) => e.2.stage.any fun (s : Stage) => s.launch == x.launch then p1
        else p1.later 1 .stagingComplete [x.launch]
      if t = [] then p2 else p2.once 1 .engineLineData [1, cl, 0]
    else
      (p.updCluster cl fun c =>
        { c with stage := c.stage.map fun y => if y.num == num then { y with done := y.done + n, asked := false } else y }).once 1 .engineLineData [1, cl, 0]

/-- A staging command's line is not read: a poisoned line for L2 is passed over, since nothing consumes it; a key that does not match, and
a poisoned line for a core's memory, raise class F (R137, R143). -/
def Panel.stageFail (p : Panel) (cl num cause : Nat) : Panel :=
  match p.stageOf cl num with
  | none => p
  | some x =>
    let va := x.va + x.done
    if x.core = 0 ∧ cause = 0x33 then p.stageNext cl num (min (64 - va % 64) (x.len - x.done))
    else p.raiseHalt (p.launch x.launch).part (siteOf p.fabric (clusterCore cl 0)) 1 cause (w64 va)

/-- The words of a run of `n` bytes from `off` that become full once the bytes below `off + n` of a command that ends at `last` have been
written (R89). -/
def wordsDone (off n last : Nat) : List Nat :=
  (upto (off / 8) (wordsTouched off n)).filter fun w => decide (min (8 * w + 8) last ≤ off + n)

/-- Bytes of a staging command for a core's memory go on to it (R94, R435). -/
def Panel.stageSend (p : Panel) (cl num n bytes : Nat) : Panel :=
  match p.stageOf cl num with
  | none => p
  | some x =>
    let off := x.off + x.done
    p.send (clusterCore cl 0) (x.core - 1) (.line off n bytes (2 ^ (8 * n) - 1) (wordsDone off n (x.off + x.tot)) (.stage cl num))

/-- A staging command's line at its home slice: it is in L2, or goes on to the core. -/
def Panel.stageLine (p : Panel) (cl num : Nat) (l : L2Line) (key : Nat) : Panel :=
  match p.stageOf cl num with
  | none => p
  | some x =>
    let va := x.va + x.done
    let n := min (64 - va % 64) (x.len - x.done)
    if l.key ≠ key then p.stageFail cl num 0x31
    else if x.core = 0 then p.stageNext cl num n
    else if l.poison then p.stageFail cl num 0x33
    else p.stageSend cl num n (bf l.data.toNat (8 * (va % 64 + n) - 1) (8 * (va % 64)))

/-- A list of `cap` places takes a new element; a full one gives up a victim (log 4, DESIGN CHOICE). -/
def placeIn {α : Type} [BEq α] (xs : List α) (same : α → Bool) (cap seed : Nat) (x : α) : List α :=
  let s := xs.filter same
  if s.length < cap then xs ++ [x]
  else match s[Config.victim s.length seed % s.length]? with
    | some v => (xs.erase v) ++ [x]
    | none => xs ++ [x]

/-- A walker reads the entry of its level (R148, R152): the walk ends, or goes on to the next level; a non-leaf entry enters the walk cache. -/
def Panel.walkStep (p : Panel) (cl num : Nat) (l : L2Line) : Panel :=
  match (p.cluster cl).walks.find? fun w => w.num == num with
  | none => p
  | some w =>
    let q := p.part w.part
    let rest := p.levelRest q w.core l.line
    let stop := fun (r : WalkR) => p.walkEnd cl num rest r
    let i := match w.level with | 1 => w.vpn / 2 ^ 26 % 8192 | 2 => w.vpn / 2 ^ 13 % 8192 | _ => w.vpn % 8192
    let e := bf l.data.toNat (64 * (i % 8) + 63) (64 * (i % 8))
    if w.res.isSome then p
    else if l.key ≠ 0 then stop (.fatal 0x31)
    else if l.poison then stop (.fatal 0x33)
    else if !bt e 0 then stop .notPresent
    else if malformed q w.level e then stop (.fatal 0x32)
    else if bt e 1 then
      stop (if w.level = 2 then leafCheck q w.part w.asid (w.vpn / 8192 * 8192) 8192 e else leafCheck q w.part w.asid w.vpn 1 e)
    else
      let key := if w.level = 1 then wKey1 w.vpn else wKey2 w.vpn
      (p.updCluster cl fun c => { c with wcache := placeIn c.wcache (fun _ => true) 64 p.evs (w.part, w.asid, key, bf e 51 16) }).walkRead cl w
        (w.level + 1) (bf e 51 16) rest

/-- A request performed on a line that its slice holds, or outside the panel. -/
def Panel.performReq (p : Panel) (sc : Nat) (r : Req) : Panel :=
  if lineRegion r.line ≠ 0 then (match r.src with
    | .acc id part => p.performExt id part
    | .pf _ => p | .drop .. => p | .mcrd .. => p | .walk .. => p | .stage .. => p | .eng .. => p | .put .. => p)
  else
    match l2Find (p.slice sc) r.line with
    | none => p
    | some l =>
      match r.src with
      | .acc id part => p.performPart sc id part l
      | .pf num => p.bulkAnswer true r.core num (l.key == r.key) []
      | .drop num idx =>
        if l.key = r.key then
          (let q := p.part (partOf p sc)
           (if l.dirty then p.billReq r fun _ => p.hbmPj q sc r.line 1 else p).dropLine sc r.line).bulkAnswer false r.core num true []
        else (p.fatalAt r.core 0x31 (w64 (((p.core r.core).drop.head?.map (·.va)).getD 0 + 64 * idx))).bulkAnswer false r.core num true []
      | .mcrd num idx => p.mcrdLine sc r.core num idx l r.key
      | .walk cl num => p.walkStep cl num l
      | .stage cl num => p.stageLine cl num l r.key
      | .eng e cmd rd => p.engRead sc e cmd rd l r.key
      | .put e cmd off n data mask => p.engWrite sc e cmd off n data mask l r.key

/-- An error response to a request whose line was not placed (R137, R143). -/
def Panel.failReq (p : Panel) (r : Req) (cause : Nat) : Panel :=
  match r.src with
  | .acc id _ => p.sliceError id cause
  | .pf num => p.bulkAnswer true r.core num false []
  | .drop num _ => p.bulkAnswer false r.core num true []
  | .mcrd num idx => p.mcrdFail r.core num idx cause
  | .walk cl num => p.walkEnd cl num 1 (.fatal cause)
  | .stage cl num => p.stageFail cl num cause
  | .eng e cmd rd => p.engGot e cmd rd 10 cause 0
  | .put e cmd .. => p.engPutFail e cmd r.line cause

/-- Waiters of a returned fill performed in list order (R124). -/
def Panel.performAll (p : Panel) (sc : Nat) (rs : List Req) : Panel := rs.foldl (fun q r => q.performReq sc r) p

/-- Error responses to every waiter of a fill that no key matches (R137). -/
def Panel.failAll (p : Panel) (rs : List Req) : Panel := rs.foldl (fun q r => q.failReq r 0x31) p

/-- A prefetch that found a line in flight, which was then not placed, asks for it again (R128). -/
def Panel.pfAgain (p : Panel) (q : Partition) (line key : Nat) : Panel :=
  (p.cores.filter fun (e : Nat × Core) => (e.2.pf.head?.map fun x => x.flight.contains (line, key)).getD false).foldl (fun r e =>
    let num := (e.2.pf.head?.map (·.num)).getD 0
    (r.updCore e.1 fun c => { c with pf := headUpd (fun y => { y with
      flight := y.flight.erase (line, key), back := y.back - 1, done := y.done - 1 }) c.pf }).ask q e.1 ⟨.pf num, e.1, line, key⟩) p

/-- A fetch returns: the frame's tag is compared with every waiter's identifier; with a match the line is placed and the waiters performed
in order, the others answered with KEY_MISMATCH; with none nothing is placed (R124, R137). The transfer, and the write-back of the line that it
displaces, are counted for the first waiter's launch (R441; log 70, DESIGN CHOICE). -/
def Panel.finishFetch (p : Panel) (sc : Nat) (m : Mshr) : Panel :=
  let q := p.part (partOf p sc)
  let tag := frameTag p.hbm (m.line / 1024)
  let p1 := p.updSlice sc fun s => { s with mshr := s.mshr.erase m }
  let bill := fun (r : Panel) (line n : Nat) => match m.waiters with
    | x :: _ => if n = 0 then r else r.billReq x fun _ => r.hbmPj q sc line n
    | [] => r
  let p1 := bill p1 m.line 1
  if m.waiters.any fun r => r.key == tag then
    let p2 := p1.placeLine q m.line tag
    (bill p2 m.line ((p1.slice sc).dirties - (p2.slice sc).dirties)).performAll sc m.waiters
  else (p1.failAll m.waiters).pfAgain q m.line tag

/-! ### The ingress queue (R122, R123, R127, R436) -/

/-- A request of the staging path, or of a prefetch. -/
def Req.stages (r : Req) : Bool := match r.src with
  | .stage .. => true
  | .acc .. => false | .pf _ => false | .drop .. => false | .mcrd .. => false | .walk .. => false | .eng .. => false | .put .. => false
def Req.prefetches (r : Req) : Bool := match r.src with
  | .pf _ => true
  | .acc .. => false | .stage .. => false | .drop .. => false | .mcrd .. => false | .walk .. => false | .eng .. => false | .put .. => false
def Req.drops (r : Req) : Bool := match r.src with
  | .drop .. => true
  | .acc .. => false | .stage .. => false | .pf _ => false | .mcrd .. => false | .walk .. => false | .eng .. => false | .put .. => false

/-- A request of a source waits for a fill. -/
def Slice.waiting (s : Slice) (core : Nat) (but : Nat) : Bool := s.mshr.any fun m => m.line != but && m.waiters.any fun x => x.core == core

/-- A request can be performed now, behind those before it (R122): it passes no older request of its source, it hits a line with no waiters
or lies outside the panel, it joins the list of a line in flight, or it is a miss and a register is free. A drop waits for a line in
flight; a prefetch that meets one is complete (R127, R129). -/
def Slice.canTake (s : Slice) (pre : List Req) (r : Req) : Bool :=
  let quiet := !s.waiting r.core (2 ^ 64)
  !(pre.any fun x => x.core == r.core) &&
  if lineRegion r.line ≠ 0 then quiet
  else
    match s.mshr.find? fun m => m.line == r.line with
    | some m => if r.drops then false else if r.prefetches then quiet else m.waiters.length < 64 && !s.waiting r.core r.line
    | none =>
      if (l2Find s r.line).isSome ∨ r.drops then quiet
      else if r.prefetches then s.mshr.length ≤ 24 else s.mshr.length < 32

/-- The requests of a queue that can be performed now, oldest first. -/
def Slice.cands (s : Slice) : List Req → List Req → List Req
  | _, [] => []
  | pre, r :: t => if s.canTake pre r then r :: s.cands (r :: pre) t else s.cands (r :: pre) t

/-- A prefetch that needs a register: every demand request that waits goes before it (R127). -/
def Slice.needsReg (s : Slice) (r : Req) : Bool := r.prefetches && (l2Find s r.line).isNone && s.mshr.all fun m => m.line != r.line

/-- The request that a slice takes (R122, R127, R436): the oldest; of staging and demand requests that can both be performed, the staging
request after three demand requests, or after one when its launch has waited (`late`). -/
def Slice.pick (s : Slice) (late : Req → Bool) : Option Req :=
  let cs := s.cands [] s.ing
  let ns := cs.filter fun r => !s.needsReg r
  match ns.find? Req.stages, ns.find? fun r => !r.stages with
  | some st, some d => if (if late st then 1 else 3) ≤ s.demand then some st else some d
  | some st, none => some st
  | none, some d => some d
  | none, none => cs.head?

/-- The launch of a staging request has waited STAGETHR cycles since its admission (R433, R436). -/
def Panel.stageLate (p : Panel) (r : Req) : Bool :=
  match r.src with
  | .stage cl num =>
    (match p.stageOf cl num with
    | some x => let l := p.launch x.launch; decide (l.admittedAt + (p.part l.part).stagethr ≤ p.now)
    | none => false)
  | .acc .. => false | .pf _ => false | .drop .. => false | .mcrd .. => false | .walk .. => false | .eng .. => false | .put .. => false

/-- A miss takes a miss-status register and its line is fetched (R123). -/
def Panel.fetchLine (p : Panel) (sc line : Nat) (rs : List Req) : Panel :=
  (p.updSlice sc fun s => { s with mshr := s.mshr ++ [⟨line, rs⟩] }).later 200 .hbmFillReturn [sc, line]

/-- A request taken from the ingress queue: a hit is performed, a miss joins or starts a fetch (R122, R123). A prefetch whose line the reading has
found unsound waits anew, since it needs a register now (R127). -/
def Panel.takeReq (p : Panel) (sc : Nat) (r : Req) : Panel :=
  let p := p.updSlice sc fun s => { s with ing := s.ing.erase r, demand := if r.stages then 0 else s.demand + 1 }
  if lineRegion r.line ≠ 0 then p.performReq sc r
  else if (p.slice sc).mshr.any fun m => m.line == r.line then
    if r.prefetches then
      (match r.src with
      | .pf num => p.bulkAnswer true r.core num (frameTag p.hbm (r.line / 1024) == r.key) [(r.line, r.key)]
      | .acc .. => p | .drop .. => p | .mcrd .. => p | .walk .. => p | .stage .. => p | .eng .. => p | .put .. => p)
    else
      p.updSlice sc fun s =>
        { s with mshr := s.mshr.map fun m => if m.line == r.line then { m with waiters := m.waiters ++ [r] } else m }
  else
    let q := p.l2Check sc r.line
    if (l2Find (q.slice sc) r.line).isSome then (q.touch sc r.line).performReq sc r
    else if r.drops then
      (match r.src with
      | .drop num _ => q.bulkAnswer false r.core num true []
      | .acc .. => q | .pf _ => q | .mcrd .. => q | .walk .. => q | .stage .. => q | .eng .. => q | .put .. => q)
    else if (q.slice sc).mshr.length < 32 ∧ !(r.prefetches && (l2Find (p.slice sc) r.line).isSome) then q.fetchLine sc r.line [r]
    else q.updSlice sc fun s => { s with ing := r :: s.ing }

/-- Requests that come next, of each source (R122). -/
def firstReqs : List (Nat × Req) → List Nat → List (Nat × Req)
  | [], _ => []
  | e :: t, seen => if seen.contains e.2.core then firstReqs t seen else e :: firstReqs t (e.2.core :: seen)

/-- The request that enters a slice's queue next: the first to have come, or, with `from_` = s + 1, that of source s. -/
def Slice.nextIn (s : Slice) (now from_ : Nat) : Option (Nat × Req) :=
  if 64 ≤ s.ing.length then none
  else
    match (firstReqs s.vc []).filter fun e => decide (e.1 ≤ now) && (from_ == 0 || from_ == e.2.core + 1) with
    | [] => none
    | e :: t => some (t.foldl (fun a b => if b.1 < a.1 then b else a) e)

/-- Requests enter the queue of 64 while there is room: all that have come, or the next one of source `from_` - 1 (R122). -/
def Slice.fill (s : Slice) (now from_ : Nat) : Nat → Slice
  | 0 => s
  | k + 1 =>
    match s.nextIn now from_ with
    | none => s
    | some e =>
      let t := { s with vc := s.vc.erase e, ing := s.ing ++ [e.2] }
      if from_ = 0 then t.fill now 0 k else t

/-- The slice's ingress is looked at again while requests are there. -/
def Panel.slicePump (p : Panel) (sc : Nat) : Panel :=
  let s := p.slice sc
  if s.ing = [] ∧ !(s.vc.any fun e => decide (e.1 ≤ p.now)) then p else p.later 1 .sliceRequest [sc]

/-- What waits at a slice, or has been sent to it, is performed, the fetches in flight finished first, in order: nothing that the front end does
there passes it (R122, R124; log 32, DESIGN CHOICE). -/
def Panel.settleSlice (p : Panel) (sc : Nat) : Nat → Panel
  | 0 => p
  | k + 1 =>
    match (p.slice sc).mshr with
    | m :: _ => (p.finishFetch sc m).settleSlice sc k
    | [] =>
      match (p.slice sc).pick p.stageLate with
      | some r => (p.takeReq sc r).settleSlice sc k
      | none =>
        match (p.slice sc).vc with
        | e :: t => (p.updSlice sc fun s => { s with vc := t, ing := s.ing ++ [e.2] }).settleSlice sc k
        | [] => p

/-- Nothing waits at a slice any more, or is on its way to it; the access of the front end that follows counts as a demand request (R436). -/
def Panel.settled (p : Panel) (sc : Nat) : Panel :=
  let s := p.slice sc
  (p.settleSlice sc (s.mshr.length + 2 * s.ing.length + 3 * s.vc.length)).updSlice sc fun s => { s with demand := s.demand + 1 }

/-! ### Accesses of the front end -/

/-- A line at its home slice for the front end, brought in when absent: its bytes; or a class F cause, with the panel that has found it (R137, R142,
R143, R145). -/
def Panel.engineRead (p : Panel) (q : Partition) (line key : Nat) : Except (Nat × Panel) (Line × Panel) :=
  let sc := homeSlice q line
  if (p.slice sc).tagBad then .error (0x34, p.sliceLost sc)
  else
    let p := (p.settled sc).l2Check sc line
    match l2Find (p.slice sc) line with
    | some l => if l.key ≠ key then .error (0x31, p) else if l.poison then .error (0x33, p) else .ok (l.data, p.touch sc line)
    | none =>
      if frameTag p.hbm (line / 1024) ≠ key then .error (0x31, p)
      else
        let p1 := p.placeLine q line key
        match l2Find (p1.slice sc) line with
        | some l => if l.poison then .error (0x33, p1) else .ok (l.data, p1)
        | none => .error (0x33, p1)

/-- A line found, or brought in, at its home slice for a write, which `go` makes; an identifier that the line does not carry is
KEY_MISMATCH (R137). -/
def Panel.withLine (p : Panel) (q : Partition) (line key : Nat) (go : Panel → Panel) : Except (Nat × Panel) Panel :=
  let sc := homeSlice q line
  if (p.slice sc).tagBad then .error (0x34, p.sliceLost sc)
  else
    let p := (p.settled sc).l2Check sc line
    match l2Find (p.slice sc) line with
    | some l => if l.key ≠ key then .error (0x31, p) else .ok (go (p.touch sc line))
    | none => if frameTag p.hbm (line / 1024) ≠ key then .error (0x31, p) else .ok (go (p.placeLine q line key))

/-- Bytes of one line written at its home slice by the front end (R142, R143). -/
def Panel.engineWrite (p : Panel) (q : Partition) (line key off n v : Nat) (slevel : Bool := false) : Except (Nat × Panel) Panel :=
  p.withLine q line key fun p => p.slicePut (homeSlice q line) line off n v slevel

/-- A fault that a front-end access meets where no queue, launch or requester takes it: class F in the partition of the line, at its home slice; the
slice's own SLICE_LOST has been raised (R137, R143, R145). -/
def lineFatal (q : Partition) (line : Nat) (e : Nat × Panel) : Panel :=
  if e.1 = 0x34 then e.2 else e.2.fatalAt (homeSlice q line) e.1 (w64 (64 * line))

/-- Bytes that an Ouvpin core or a scheduler writes into its own tables, watched lines included (R149, R419, R420, R478). -/
def Panel.ownWrite (p : Panel) (q : Partition) (line off n v : Nat) : Panel :=
  match p.withLine q line 0 fun p => p.setLine (homeSlice q line) line (n == 64) fun d => lineWrite d off n v with
  | .ok r => r
  | .error e => lineFatal q line e

end Sys2Proof.Machine
end

