-- ==== Sys2Proof/Machine/Blocks.lean ====
section
/-! DEFINITION. Contexts that become EMPTY, blocks that stop, launches that end (R165, R221, R226, R227, R437). -/

namespace Sys2Proof.Machine

/-- The Hoop lease of a cluster ends; waiting requests are looked at (R366, R368). -/
def Panel.freeLease (p : Panel) (cl : Nat) : Panel :=
  (p.updCluster cl fun c => { c with hoop := { c.hoop with holder := none, leaseN := 0, leaseEnd := 0 } }).later 1 .hoopLeaseGrant [cl]

/-- Does a thread hold its array's lease? -/
def Panel.holds (p : Panel) (lc slot : Nat) : Bool :=
  match (p.cluster (clusterOf lc)).hoop.holder with
  | some h => h.1 == lc && h.2.1 == slot
  | none => false

/-- A context becomes EMPTY: its Hoop lease ends, handlers that wait may start, the block may retire
(R219, R226, R227, R368). -/
def Panel.freeCtx (p : Panel) (lc slot : Nat) : Panel :=
  let tag := (p.ctx lc slot).btag
  let p0 := if p.holds lc slot then p.freeLease (clusterOf lc) else p
  let p1 := p0.vacate lc slot
  let p2 := if handlerSlot slot then p1.later 1 .handlerStart [lc] else p1
  p2.later 1 .blockRetire [tag]

/-- An access that has not left its core. -/
def heldOf (tag : Nat) (a : Access) : Bool := a.btag == tag && a.stage.inCore

/-- A bulk command of a block that stops: the lines that it has asked for are finished (R165). -/
def Bulk.stop (tag : Nat) (x : Bulk) : Option Bulk :=
  if x.btag ≠ tag then some x else if x.back < x.next ∨ x.land < x.back * x.dests.length then some { x with lines := x.next, dying := true } else none

/-- The walker's command when a block stops: the lines that it has asked for are finished (R165). -/
def Walk.stop (tag : Nat) (w : Walk) : Walk :=
  if !w.busy || w.btag != tag then w else if w.left = 0 && w.rds == [] && !w.busyLine then {} else { w with dying := true, parked := false }

/-- What a block has on one core goes: contexts, queue registers, waits, engine commands, waiting handlers (R165). -/
def Panel.clearCore (p : Panel) (lc tag : Nat) : Panel :=
  let slots := tagSlots p lc tag
  let p1 := slots.foldl (fun q s => q.setCtx lc s {}) p
  ((p1.updCore lc fun c =>
    { c with
      blk := SMap.del c.blk tag
      waits := c.waits.filter fun e => !(e.core == lc && slots.contains e.slot && e.acc == 0)
      hq := c.hq.filter fun x => match x with
        | .handler _ _ _ _ d _ _ => d != tag
        | _ => true
      replays := SMap.del c.replays tag
      pf := c.pf.filterMap (Bulk.stop tag)
      drop := c.drop.filterMap (Bulk.stop tag)
      mcrd := c.mcrd.filterMap (Bulk.stop tag)
      tiles := c.tiles.filter (·.btag != tag)
      parked := c.parked.filter fun i => match p.acc i with | some a => a.btag != tag | none => false
      walk := c.walk.stop tag }).ringsOff lc tag).later 1 .handlerStart [lc]

/-- What a block has in a cluster goes: Relay commands, but for the lines asked for, Hoop commands and lease, runs of its Osier domains (R165). -/
def Panel.clearCluster (p : Panel) (cl tag : Nat) : Panel :=
  p.updCluster cl fun c =>
    { c with
      relay := c.relay.map fun e =>
        if e.2.busy && e.2.btag == tag then (e.1, if e.2.busyLine || e.2.rds != [] then { e.2 with dying := true, parked := false } else {}) else e
      hoop := { c.hoop with
        cmds := c.hoop.cmds.filter (·.btag != tag)
        holder := match c.hoop.holder with
          | some h => if h.2.2 = tag then none else some h
          | none => none
        reqs := c.hoop.reqs.filter fun r => (p.ctx r.1 r.2.1).btag != tag }
      doms := c.doms.map fun e => if e.2.state == 1 && e.2.btag == tag then (e.1, { e.2 with state := 0, remain := 0, begun := false }) else e
      oacts := c.oacts.filter fun o => (p.ctx o.core o.slot).btag != tag }

/-- The clusters that a block touches. -/
def blockClusters (b : Block) : List Nat := ((blockCores b).map clusterOf).eraseDups

/-- A block stops: its threads, engine commands and held accesses go; accesses that have left their cores are performed (R165). -/
def Panel.stopBlock (p : Panel) (tag : Nat) : Panel :=
  let b := p.block tag
  let p1 := (blockClusters b).foldl (fun q cl => q.clearCluster cl tag) p
  let p2 := (blockCores b).foldl (fun q lc => q.clearCore lc tag) p1
  let held := (p2.accs.map (·.2)).filter (heldOf tag)
  let p3 := held.foldl (fun q a => (q.delAcc a.id).unwait a.id) p2
  let fused := (blockClusters b).filter fun cl =>
    b.fused && !(p3.blocks.any fun (e : Nat × Block) => e.1 != tag && e.2.fused && (e.2.st == .resident || e.2.st == .taking) && (blockClusters e.2).contains cl)
  let p4 := fused.foldl (fun q cl => (dropFused q cl).updCluster cl fun c => { c with fused := false }) p3
  p4.updBlock tag fun b => { b with st := .ended }

/-! ### Queues (R420-R422, R429) -/

def Panel.queueOf (p : Panel) (pi qi : Nat) : Queue := SMap.getD (p.part pi).queues qi {}

def Panel.updQueue (p : Panel) (pi qi : Nat) (f : Queue → Queue) : Panel :=
  p.updPart pi fun x => if (SMap.find x.queues qi).isSome then { x with queues := SMap.upd x.queues qi {} f } else x

/-- The ring level of a queue's parse: its `pos` is HEAD. -/
def Queue.ring (q : Queue) : Level := q.levels.getLastD { va := q.rbase, len := 2 ^ q.rlog2, pos := 0 }

/-- The mutable half of a queue's control block, as the scheduler writes it back (R420). -/
def Queue.half (q : Queue) : Nat :=
  q.ring.pos + q.tail * 2 ^ 32 + q.state * 2 ^ 64 + q.lerr * 2 ^ 72 + q.wsel * 2 ^ 128 + q.lseq % 2 ^ 64 * 2 ^ 192 +
    q.ndone % 2 ^ 64 * 2 ^ 256 + q.nerr % 2 ^ 64 * 2 ^ 320

/-- The mutable half written back; of an unmapped queue TAIL and PWAKE stay as the slice holds them (R420, R421, R447). -/
def Panel.flushQueue (p : Panel) (pi qi : Nat) : Panel :=
  let q := p.queueOf pi qi
  let line := q.qcb / 64 + 1
  let x := p.part pi
  if q.mapped then p.ownWrite x line 0 64 q.half
  else
    match p.truth x line 0 with
    | .error _ => p
    | .ok d =>
      let v := putBits q.half 63 32 (bf d.toNat 63 32)
      p.ownWrite x line 0 64 (putBits v 67 67 (bf d.toNat 67 67))

/-- Ring bytes of the fetch-ahead buffer ahead of a parse point (R425). -/
def Queue.ahead (q : Queue) (l : Level) : List (Nat × Nat × Nat) :=
  q.buf.filter fun u => u.1 == 0 && decide ((u.2.1 + l.len - l.va - l.pos) % l.len < (q.tail + l.len - l.pos) % l.len)

/-- The first 16 bytes of a ring packet, from the fetch-ahead buffer or as the home slice has them. -/
def Panel.ringUnit (p : Panel) (pi : Nat) (q : Queue) (va : Nat) : Option Nat :=
  match q.buf.find? fun u => u.1 == 0 && u.2.1 == va with
  | some u => some u.2.2
  | none =>
    match p.walk pi q.asid (va / 65536) with
    | .ok t =>
      if region (t.phys va) ≠ 0 then none
      else match p.truth (p.part pi) (t.phys va / 64) t.key with
        | .ok d => some (bf d.toNat (8 * (va % 64) + 127) (8 * (va % 64)))
        | .error _ => none
    | .notPresent => none
    | .fatal _ => none

/-- The offset after the rest of a ring-level loop body, found from its packet headers (R429). -/
def Panel.bodyEnd (p : Panel) (pi : Nat) (q : Queue) : Nat → Nat → Nat
  | 0, pos => pos
  | left + 1, pos =>
    if pos = q.tail then pos
    else
      match p.ringUnit pi q (q.ring.va + pos) with
      | none => pos
      | some v => p.bodyEnd pi q left ((pos + 16 * max 1 (bf v 15 8)) % q.ring.len)

/-- A queue error: Parse stops, every indirect level and loop is dropped, LERR is written and the host is told (R429, R514). HEAD is left after
the body of a ring loop that Parse was in, but for COMPFAULT, where it stays (R430). The last error of a queue in ERROR counts. -/
def Panel.queueStop (p : Panel) (pi qi code : Nat) : Panel :=
  let q := p.queueOf pi qi
  if q.state = 0 then p
  else
    let r := q.ring
    let pos := match r.loop with
      | some (_, _, left, _) => if code = 8 then r.pos else p.bodyEnd pi q left r.pos
      | none => r.pos
    let l : Level := { r with pos := pos, skip := 0, loop := none }
    let p1 := p.updQueue pi qi fun q => { q with state := 4, lerr := code, fpage := none, levels := [l], buf := q.ahead l }
    (p1.flushQueue pi qi).report 2 0x8204 [pi, qi, code]

/-- A launch has retired or ended with a status: the counts of its queue, and its error unless the queue continues on error
(R422, R429, R430). -/
def Panel.launchStatus (p : Panel) (pi qi status : Nat) : Panel :=
  if status = 0 ∨ (p.queueOf pi qi).cont then p else p.queueStop pi qi 7

/-- The staging of a launch is cancelled: a line that has been asked for is finished, nothing else (R437). -/
def Stage.cancel (l : Nat) (x : Stage) : Option Stage :=
  if x.launch ≠ l then some x else if x.asked then some { x with dying := true } else none

/-- A launch ends: every block of it stops, its staging and pieces go; the record is written once what has left is
performed (R165, R437). A launch that has ended already stays as it is. -/
def Panel.endLaunch (p : Panel) (l status addr : Nat) : Panel :=
  let x := p.launch l
  if x.st = .ended ∨ x.st = .retired then p
  else
    let tags := (p.blocks.filter fun (e : Nat × Block) => e.2.launch == l && e.2.st != .ended && e.2.st != .retired).map (·.1)
    let p1 := tags.foldl (fun q t => q.stopBlock t) p
    let p2 := { p1 with clusters := p1.clusters.map fun (e : Nat × Cluster) => (e.1, { e.2 with stage := e.2.stage.filterMap (Stage.cancel l) }) }
    let p3 := p2.updPart x.part fun q => { q with huddle := q.huddle.filter (· != l), readmit := q.readmit.filter fun t => !tags.contains t }
    let p4 := p3.updLaunch l fun y => { y with st := .ended, status := status, addr := addr, range := none, slots := [], asked := [] }
    (p4.launchStatus x.part x.queue status).later 1 .completionRecordWrite [l]

/-- The running thread's strict launch does not declare an access: the launch ends and the bundle has no effect (R164, R165). -/
def Panel.violation (p : Panel) (va : Nat) : Panel :=
  let l := p.cb.launch
  { p.endLaunch l 7 va with cur := { p.cur with trapped := true } }

/-- A paged access of the running thread checked against a strict launch's declared ranges: 1 read, 2 write, 3 both (R164). -/
def Panel.strict (p : Panel) (va size need : Nat) (k : Panel → Panel) : Panel :=
  if strictOk p.cl va size need then k p else p.violation va

end Sys2Proof.Machine
end

