-- ==== Sys2Proof/Machine/Control.lean ====
section
/-! DEFINITION. Branches, jumps, loops and thread control (R281-R286). -/

namespace Sys2Proof.Machine

/-- A conditional branch (R281). -/
def branch (c : W → W → Bool) (a b : Reg) (o : BitVec 16) (s : State) : Res :=
  onPanel (fun p => if c (p.gv a) (p.gv b) then p.jump (relTarget p.cc.pc o) id else p.fin) s

def execBeq (a b : Reg) (o : BitVec 16) (s : State) : Res := branch condEq a b o s
def execBne (a b : Reg) (o : BitVec 16) (s : State) : Res := branch condNe a b o s
def execBlt (a b : Reg) (o : BitVec 16) (s : State) : Res := branch condLt a b o s
def execBge (a b : Reg) (o : BitVec 16) (s : State) : Res := branch condGe a b o s
def execBltn (a b : Reg) (o : BitVec 16) (s : State) : Res := branch condLtn a b o s
def execBgen (a b : Reg) (o : BitVec 16) (s : State) : Res := branch condGen a b o s

/-- JAL links to g15 (R283). -/
def execJal (o : BitVec 24) (s : State) : Res :=
  onPanel (fun p => p.jump (relTarget p.cc.pc o) fun q => q.putG 15 p.next) s

/-- JALR reads a before it writes d (R283). -/
def execJalr (d a : Reg) (s : State) : Res := onPanel (fun p => p.jump (p.gv a) fun q => q.putG d p.next) s

/-- LPC (R283). -/
def execLpc (d : Reg) (s : State) : Res := onPanel (fun p => (p.putG d p.next).fin) s

/-- LOOP counts a down and jumps to b while it is not zero (R284). -/
def execLoop (a b : Reg) (s : State) : Res :=
  onPanel (fun p =>
    let c := p.gv a - 1
    if c ≠ 0 then p.jump (p.gv b) fun q => q.putG a c else (p.putG a c).fin) s

def execNop (s : State) : Res := onPanel (fun p => p.fin) s

/-- A thread that has ended: its gang dissolves; away, it frees its home slot too (R103, R217, R285). -/
def Panel.endThread (p : Panel) : Panel :=
  let c := p.cc
  let q := p.dissolve c.gang p.cur.slot
  let r := if p.isAway then
      let q1 := q.setCtx p.cur.core p.cur.slot {}
      (if tagSlots q1 p.cur.core c.btag = [] then q1.ringsOff p.cur.core c.btag else q1).freeCtx c.homeCore c.homeSlot
    else q.freeCtx p.cur.core p.cur.slot
  { r with cur := { r.cur with stalled := true } }

/-- EXIT stalls until all four counters are 0 (R226, R285). -/
def execExit (s : State) : Res :=
  onPanel (fun p =>
    let c := p.cc
    if c.ldc = 0 ∧ c.stc = 0 ∧ c.cpc = 0 ∧ c.tlc = 0 then p.endThread else p.retry) s

/-- A bundle that would wait in a handler traps instead (R220); TVAL is the bundle's address. -/
def Panel.handlerBlock (p : Panel) : Panel := p.trap 0x0C p.cc.pc

/-- An LDSY of the running thread to another core has not been performed. -/
def Panel.ldsyOpen (p : Panel) : Bool :=
  (p.accsOf p.cur.core p.cur.slot).any fun a => a.stage.open_ && (a.kind == .ldsy || a.kind == .ldsyTake)

/-- A blocking point of the running thread (R224): a handler traps (R220). Behind an LDSY of another core, which may itself be the thread's
blocking point, only WAITC waits; the rest is tried again. -/
def Panel.waitAt (p : Panel) (w : Wake) : Panel :=
  if p.isHandler then p.handlerBlock
  else
    let waitc : Bool := match w with
      | .waitc .. => true
      | .none => false | .barrier .. => false | .stagger _ => false | .qpop .. => false | .qpeek .. => false | .ldsy .. => false | .ring _ => false
      | .hlease .. => false | .yield => false | .parked => false | .remote => false
    if p.ldsyOpen && !waitc then p.retry else p.fin.block_ w

/-- YIELD is a blocking point always; it wakes at once while its block is not being taken (R224, R285). -/
def execYield (s : State) : Res := onPanel (fun p => p.waitAt .yield) s

/-- The core with lx mod 4 = j in the row of a core's logical cluster (R286). -/
def rowCore (lc j : Nat) : Nat := lc - cx lc % 4 + j

/-- The cores that a FUSE mask names, westmost first. -/
def fuseCores (lc mask : Nat) : List Nat := ((List.range 4).filter (bt mask)).map (rowCore lc)

/-- The mask of a waiting FUSE. -/
def fuseMask : Stall → Option Nat
  | .fuse m _ _ => some m
  | .none => none | .retry _ => none | .hold _ => none | .barrier => none | .header => none | .tlbinv => none
  | .osier _ => none | .migrate => none | .ckpt => none | .fatal => none

/-- Destination register of a waiting FUSE. -/
def fuseDest : Stall → Nat
  | .fuse _ d _ => d
  | .none => 0 | .retry _ => 0 | .hold _ => 0 | .barrier => 0 | .header => 0 | .tlbinv => 0
  | .osier _ => 0 | .migrate => 0 | .ckpt => 0 | .fatal => 0

/-- A waiting FUSE returns a value to its thread. -/
def Panel.fuseEnd (p : Panel) (lc slot : Nat) (v : W) (gang : List Nat) : Panel :=
  (p.updCtx lc slot fun c => { c.setG (fuseDest c.stall) v with gang := gang, gangStep := 0 }).ready lc slot

/-- A FUSE meets the others that wait in its row: different masks make all return 0; the last named member forms the gang
(R214, R286). -/
def Panel.rendezvous (p : Panel) (mask : Nat) : Panel :=
  let lc := p.cur.core
  let slot := p.cur.slot
  let row := (List.range 4).map (rowCore lc)
  let waiting := row.filter fun k => (fuseMask (p.ctx k slot).stall).isSome
  if waiting.any fun k => fuseMask (p.ctx k slot).stall != some mask then
    waiting.foldl (fun q k => q.fuseEnd k slot 0 []) p
  else
    let names := fuseCores lc mask
    if names.all fun k => waiting.contains k && (p.ctx k slot).btag == p.cc.btag then
      names.foldl (fun q k => q.fuseEnd k slot 1 names) p
    else p

/-- FUSE (R286). -/
def execFuse (d : Reg) (m : BitVec 4) (s : State) : Res :=
  onPanel (fun p =>
    if p.cc.gang ≠ [] ∨ p.isHandler then p.illegal
    else p.atHome fun p =>
      let mask := m.toNat
      let lc := p.cur.core
      if !bt mask (cx lc % 4) ∨ (fuseCores lc mask).any (fun k => !(blockCores p.cb).contains k) then (p.putG d 0).fin
      else
        ((p.fin.stallFor (.fuse mask d.toNat p.now)).later 4096 .fuseTimeout [lc, p.cur.slot]).rendezvous mask) s

/-- SPLIT ends the thread's gang (R217, R285). -/
def execSplit (s : State) : Res :=
  onPanel (fun p =>
    if p.isHandler then p.illegal
    else p.atHome fun p => (p.dissolve p.cc.gang p.cur.slot).fin) s

/-- BRK: BREAKPOINT with TVAL = code (R285). The trap itself returns a migrated thread home, with AWAY = 1 (R452; log 14, DEDUCED). -/
def execBrk (c : BitVec 8) (s : State) : Res := onPanel (fun p => p.trap 0x10 (c.zeroExtend 64)) s

/-- TRAP: USER_TRAP with TVAL = code (R285). -/
def execTrap (c : BitVec 8) (s : State) : Res := onPanel (fun p => p.trap 0x0F (c.zeroExtend 64)) s

/-- ERET: at S level the thread resumes at TPC; at U it is illegal (R262, R285). -/
def execEret (s : State) : Res := onPanel (fun p => if !p.slevel then p.illegal else p.atHome fun p => p.eret) s

end Sys2Proof.Machine
end

