-- ==== Sys2Proof/Machine/Memory.lean ====
section
/-! DEFINITION. Scalar and bit-granular loads and stores, prefetch hint, migration, full/empty instructions
(R97-R103, R287-R295). -/

namespace Sys2Proof.Machine

/-- An access of no particular thread yet. -/
def mkAcc (kind : AKind) (cls : CClass) (va size : Nat) : Access :=
  { id := 0, core := 0, slot := 0, btag := 0, kind := kind, cls := cls, va := va, size := size }

/-- A memory instruction waits while an acquire of its thread is in flight (R187; log 12, DEDUCED). -/
def Panel.memory (p : Panel) (k : Panel → Panel) : Panel := if p.acqBusy then p.retry else k p

/-! ### The predictor (R98, R99) -/

/-- hash(pc) of R98. -/
def pcHash (pc : W) : Nat := bf pc.toNat 7 2 ^^^ bf pc.toNat 13 8

/-- A predictor counter after a run of the given length (R98). -/
def ctrNext (v cnt : Nat) : Nat := if 4 ≤ cnt then min (v + 1) 3 else v - 1

/-- A private-alias access or one that names the home core unsets the run target (R98). -/
def Panel.untrack (p : Panel) : Panel := p.updC fun c => { c with tracker := none }

/-- The run tracker and the core's counters after an access that names a core of the block (R98). -/
def Panel.track (p : Panel) (x y : Nat) : Panel :=
  let c := p.cc
  let fresh : Tracker := ⟨x, y, 1, pcHash c.pc⟩
  match c.tracker with
  | none => p.updC fun c => { c with tracker := some fresh }
  | some t =>
    if t.x = x ∧ t.y = y then p.updC fun c => { c with tracker := some { t with cnt := min (t.cnt + 1) 7 } }
    else
      (p.updCore p.cur.core fun k => { k with ctr := SMap.upd k.ctr t.idx 1 fun v => ctrNext v t.cnt }).updC fun c =>
        { c with tracker := some fresh }

/-- The run tracker after an access of the running thread to a core, through the mesh window or its private alias (R98). -/
def Panel.trackTo (p : Panel) (t : Nat) (mesh : Bool) : Panel :=
  let b := p.cb
  if !mesh || t == p.home then p.untrack
  else if (blockCores b).contains t then p.track (cx t - b.ox) (cy t - b.oy)
  else p

/-- Conditions 1 to 4 of R99 for an access of a new run to a core; `p` is the panel after R98. -/
def Panel.moves (p : Panel) (target : Nat) : Bool :=
  let c := p.cc
  let b := p.cb
  (match c.tracker with | some t => t.cnt == 1 | none => false) && b.light && c.gang == [] && !p.isHandler &&
    (2 ≤ SMap.getD (p.core p.cur.core).ctr (pcHash c.pc) 1 || c.migr) &&
    (blockCores b).contains target && target != p.cur.core && c.cpc == 0 && c.tlc == 0

/-- The context sent to its target; the home slot stays reserved with masks and shape registers (R100). The thread goes on
at the bundle after the one that triggered. -/
def Panel.sendMig (p : Panel) : Panel :=
  match p.cur.mig with
  | none => p
  | some (t, kind, addr, data, width, dest) =>
    let c := p.cc
    let away := p.isAway
    let hc := if away then c.homeCore else p.cur.core
    let hs := if away then c.homeSlot else p.cur.slot
    let pk := { c with homeCore := hc, homeSlot := hs }
    let p1 := p.send p.cur.core t (.mig pk kind addr data width dest p.cur.core p.cur.slot)
    let p2 := if away then p1.vacate p.cur.core p.cur.slot else p1
    { (p2.updCtx hc hs fun h => { h with st := .away, homeCore := t, stall := .none, wake := .none }) with
      cur := { p.cur with mig := none, stalled := true } }

/-- A migration decided: sent at once from a lone word, after the A-word from a pair. -/
def Panel.migrate (p : Panel) (t kind : Nat) (addr data : W) (width dest : Nat) : Panel :=
  let p1 := { p with cur := { p.cur with mig := some (t, kind, addr, data, width, dest) } }
  if p.cur.len = 8 then p1.fin else p1.fin.sendMig

/-! ### Paged memory (R108, R287, R289) -/

/-- Bytes read from the L1, when every line of the access is there (R108). -/
def Panel.l1Read (p : Panel) (lc va size : Nat) : Option Nat :=
  let b := p.cb
  (splitLines id (fun _ => 0) (size + 1) va 0 size).foldl (fun acc x =>
    match acc, l1Find (p.core (l1Core p lc (64 * x.line))).l1d x.line b.part b.asid with
    | some v, some l => some (putBits v (8 * (x.pos + x.len) - 1) (8 * x.pos) (bf l.data.toNat (8 * (x.off + x.len) - 1) (8 * x.off)))
    | _, _ => none) (some 0)

/-- A line of an L1 whose code check fails when it is read is invalidated, to be fetched anew, and the error counted as corrected (R112,
R113). -/
def Panel.l1Verify (p : Panel) (lc vline part asid : Nat) : Panel :=
  let t := l1Core p lc (64 * vline)
  match l1Find (p.core t).l1d vline part asid with
  | none => p
  | some l =>
    if (p.core t).l1Bad.contains (2 * l.pline) then
      p.updCore t fun c => { c with l1d := c.l1d.filter (· != l), l1Bad := c.l1Bad.erase (2 * l.pline), l1Corr := c.l1Corr + 1 }
    else p

/-- The lines of a load's bytes checked as they are read (R113). -/
def Panel.l1Check (p : Panel) (lc va size : Nat) : Panel :=
  let b := p.cb
  (splitLines id (fun _ => 0) (size + 1) va 0 size).foldl (fun q x => q.l1Verify lc x.line b.part b.asid) p

/-- The class U cause that the physical regions of a paged access raise, as far as its pages can be translated when it issues, so that the
trap is precise (R44, R191; log 59, DESIGN CHOICE). -/
def Panel.regionTrap (p : Panel) (a : Access) : Option Nat :=
  let b := p.cb
  (piecesOf a.va a.size).findSome? fun x =>
    match p.known (clusterOf p.cur.core) b.part b.asid (x.line / 1024) with
    | some t => if permitted t.attr (needOf a.kind) p.slevel then p.regionFault (p.part b.part) a (t.phys (64 * x.line + x.off)) x.len else none
    | none => none

/-- A host-region piece among the translations the cluster knows: an atomic checks the region before strictness and
permissions (R303). -/
def Panel.namesHost (p : Panel) (a : Access) : Bool :=
  (piecesOf a.va a.size).any fun x =>
    match p.known (clusterOf p.cur.core) p.cb.part p.cb.asid (x.line / 1024) with
    | some t => p.regionFault (p.part p.cb.part) a (t.phys (64 * x.line + x.off)) x.len == some 0x03
    | none => false

/-- A paged access whose regions raise no trap goes on. -/
def Panel.regions (p : Panel) (a : Access) (k : Panel → Panel) : Panel :=
  match p.regionTrap a with
  | some c => p.trap c (w64 a.va)
  | none => k p

/-- A paged load: from the L1, or as an access that fills it (R108); it waits for bytes that another thread's store has
written to the L1 and not yet performed (R177), and a hit for older loads of the thread of the same bytes (R183). A migrated thread uses no
L1 (R178). `k` puts a hit's value. -/
def Panel.pagedLoad (p : Panel) (a : Access) (k : Nat → Panel → Panel) : Panel :=
  p.strict a.va a.size 1 fun p =>
    if !p.roomL then p.retry
    else if p.isAway then p.regions a fun p => p.issueFin { a with cls := .loads, after := p.afterOf false a.va a.size }
    else
      let p := p.l1Check p.cur.core a.va a.size
      match p.l1Read p.cur.core a.va a.size with
      | some v =>
        if p.pendingBytes p.cur.core p.cur.slot a.va a.size ∨ p.loadOpen p.cur.core p.cur.slot a.va a.size then p.retry else (k v p).fin
      | none => p.regions a fun p => p.issueFin { a with cls := .loads, fill := 1, after := p.afterOf false a.va a.size }

/-- A paged store: through the L1 to the home slice (R108). -/
def Panel.pagedStore (p : Panel) (a : Access) : Panel :=
  p.strict a.va a.size 2 fun p => p.regions a fun p =>
    if !p.roomS then p.retry
    else if p.isAway then
      p.issueFin { a with cls := .stores, after := p.afterStore a.va a.size } fun q => q.updC fun c => { c with stored := true }
    else p.issueFin { a with cls := .stores, after := p.afterStore a.va a.size } fun q => q.storeThrough p.nid

/-! ### Order with the mesh window (R182, R183) -/

/-- A mesh-window access names bytes of its target. -/
def Access.names (a : Access) (off size : Nat) : Bool :=
  (a.items.any fun i => i.w != 0 && rangesMeet (i.bit / 8) ((i.bit % 8 + i.w + 7) / 8) off size) ||
    (a.kind == .feclr && a.items.any fun i => rangesMeet (i.bit / 8) a.size off size)

/-- An access through the private alias, or to the core on which its thread runs, waits for the thread's mesh-window accesses to its bytes:
a store for all of them, a load for those that read (R182, R183). -/
def Panel.meshOpen (p : Panel) (store : Bool) (lc off size : Nat) : Bool :=
  (p.accsOf p.cur.core p.cur.slot).any fun a =>
    a.stage.open_ && a.target == lc && a.names off size && (store || needOf a.kind != 2)

/-! ### Scalar and bit-granular accesses -/

/-- A scalar access as an instruction gives it: store or load, address for TVAL and for R100, its place, the bit within the
first byte, width in bits, sign extension, register, data, KIND of R100. -/
structure ScalarAcc where
  store : Bool
  va : Nat
  size : Nat
  place : Place
  bit : Nat := 0
  w : Nat
  sx : Bool := false
  reg : Nat := 0
  data : W := 0
  addr : W
  mkind : Nat
  deriving DecidableEq, Repr

/-- The access performed at the banks in the memory stage (R95). -/
def Panel.localAcc (p : Panel) (x : ScalarAcc) (core off : Nat) : Panel :=
  let its : List Item := [⟨x.w, 8 * off + x.bit, 0, 64, x.sx⟩]
  let words := (8 * (off % 8) + x.bit + x.w - 1) / 64 + 1
  let q := if x.store then p.writeItems core its x.data.toNat
    else p.updC fun c => c.setG x.reg (w64 (readItems p.mem core its))
  (q.bankGap words).fin

/-- The access sent through the router as a remote access (R97). -/
def Panel.remoteAcc (p : Panel) (x : ScalarAcc) (core off : Nat) : Panel :=
  let its : List Item := [⟨x.w, 8 * off + x.bit, 0, 64, x.sx⟩]
  let a := mkAcc (if x.store then .store else .load) (if x.store then .stores else .loads) x.va x.size
  p.issueFin { a with
    dest := if x.store then .none else .g x.reg
    data := x.data.toNat
    target := core
    items := its
    sx := x.sx
    after := p.afterMesh false x.va x.size core }

/-- A virtual address lies in the private alias, or names the thread's home core (R102). -/
def Panel.namesHome (p : Panel) (va : Nat) : Bool :=
  match regionOf va with
  | .private_ => true
  | .mesh => (match meshTarget p p.src (bt va 34) (bf va 33 26) (bf va 25 18) false with
    | .ok t => t == p.home
    | .error _ => false)
  | .none => false | .paged => false

/-- An access that its address forbids: a migrated thread first returns home when it names its home core (R102). -/
def Panel.badAddr (p : Panel) (va : Nat) (k : Panel → Panel) : Panel := if p.isAway && p.namesHome va then p.goHome 0 0 0 0 0 else k p

/-- A scalar or bit-granular access of the running thread (R28, R30-R36, R97-R102, R287, R292). One that is to migrate does so once its
counters are zero, whatever the predictor holds by then (R99). -/
def Panel.scalarAcc (p : Panel) (x : ScalarAcc) : Panel :=
  match x.place with
  | .bad c => p.badAddr x.va fun p => p.trap c (w64 x.va)
  | .paged =>
    let a := mkAcc (if x.store then .store else .load) .none x.va x.size
    if x.store then p.pagedStore { a with data := x.data.toNat }
    else p.pagedLoad { a with dest := .g x.reg, sx := x.sx } fun v q =>
      q.updC fun c => c.setG x.reg (if x.sx then sext64 (8 * x.size) v else w64 v)
  | .lm t off mesh =>
    if p.isAway ∧ (¬ mesh ∨ t = p.home) then p.goHome x.mkind x.addr x.data (x.w - 1) (if x.store then 0 else x.reg)
    else if p.meshOpen x.store t off x.size ∧ (¬ mesh ∨ (p.isAway ∧ t = p.cur.core)) then p.retry
    else if ¬ mesh then (p.untrack).localAcc x t off
    else
      let inBlock := (blockCores p.cb).contains t
      let q := p.trackTo t true
      if p.isAway ∧ t = p.cur.core then q.localAcc x t off
      else if ¬ x.store ∧ p.isHandler then p.handlerBlock
      else if t ≠ p.home ∧ inBlock ∧ (p.cc.goes ∨ q.moves t) then
        if p.cc.ldc = 0 ∧ p.cc.stc = 0 then
          (q.updC fun c => { c with migr := false, goes := false }).migrate t x.mkind x.addr x.data (x.w - 1) (if x.store then 0 else x.reg)
        else { (p.stallFor .migrate).updC fun c => { c with goes := true } with cur := { p.cur with stalled := true } }
      else if x.store ∧ ¬ p.roomS ∨ ¬ x.store ∧ ¬ p.roomL then p.retry
      else
        let r := if t ≠ p.home then q.updC fun c => { c with migr := false } else q
        r.remoteAcc x t off

/-- A scalar load or store of `n` bytes at an effective address (R287). -/
def Panel.word (p : Panel) (store : Bool) (ea n : Nat) (sx : Bool) (r : Reg) : Panel :=
  p.memory fun p => p.scalarAcc
    { store := store, va := ea, size := n, place := place p p.src ea n, w := 8 * n, sx := sx, reg := r.toNat
      data := if store then p.gv r else 0, addr := w64 ea, mkind := if store then 3 else if sx then 1 else 2 }

/-- A base-and-offset load (R287). -/
def loadI (n : Nat) (sx : Bool) (d a : Reg) (i : BitVec 16) (s : State) : Res :=
  onPanel (fun p => p.word false (eaImm (p.gv a) i) n sx d) s

/-- A base-and-offset store (R287). -/
def storeI (n : Nat) (d a : Reg) (i : BitVec 16) (s : State) : Res :=
  onPanel (fun p => p.word true (eaImm (p.gv a) i) n false d) s

def execLdB (d a : Reg) (i : BitVec 16) (s : State) : Res := loadI 1 true d a i s
def execLdH (d a : Reg) (i : BitVec 16) (s : State) : Res := loadI 2 true d a i s
def execLdW (d a : Reg) (i : BitVec 16) (s : State) : Res := loadI 4 true d a i s
def execLdD (d a : Reg) (i : BitVec 16) (s : State) : Res := loadI 8 true d a i s
def execLdBz (d a : Reg) (i : BitVec 16) (s : State) : Res := loadI 1 false d a i s
def execLdHz (d a : Reg) (i : BitVec 16) (s : State) : Res := loadI 2 false d a i s
def execLdWz (d a : Reg) (i : BitVec 16) (s : State) : Res := loadI 4 false d a i s
def execStB (d a : Reg) (i : BitVec 16) (s : State) : Res := storeI 1 d a i s
def execStH (d a : Reg) (i : BitVec 16) (s : State) : Res := storeI 2 d a i s
def execStW (d a : Reg) (i : BitVec 16) (s : State) : Res := storeI 4 d a i s
def execStD (d a : Reg) (i : BitVec 16) (s : State) : Res := storeI 8 d a i s

/-- LDX: size codes 0 to 3 sign-extend, 4 to 6 zero-extend (R257, R287). -/
def execLdx (d a b : Reg) (h : BitVec 2) (s_ : BitVec 3) (s : State) : Res :=
  onPanel (fun p => p.word false (eaIdx (p.gv a) (p.gv b) h.toNat) (2 ^ (s_.toNat % 4)) (s_.toNat < 4) d) s

/-- STX (R287). -/
def execStx (d a b : Reg) (h : BitVec 2) (s_ : BitVec 2) (s : State) : Res :=
  onPanel (fun p => p.word true (eaIdx (p.gv a) (p.gv b) h.toNat) (2 ^ s_.toNat) false d) s

/-- A bit-granular access of `w` bits at a bit address (R86, R292). -/
def Panel.bits (p : Panel) (store : Bool) (ba w : Nat) (sx : Bool) (r : Reg) : Panel :=
  let size := (ba + w - 1) / 8 - ba / 8 + 1
  p.memory fun p => p.scalarAcc
    { store := store, va := if bf ba 63 58 ≠ 0 then ba else ba / 8, size := size, place := placeBits p p.src ba w
      bit := ba % 8, w := w, sx := sx, reg := r.toNat, data := if store then p.gv r else 0
      addr := w64 ba, mkind := if store then 5 else if sx then 6 else 4 }

def execLdbt (d a : Reg) (s_ : BitVec 1) (w : BitVec 6) (s : State) : Res :=
  onPanel (fun p => p.bits false (p.gv a).toNat (w.toNat + 1) (s_ == 1) d) s

def execStbt (d a : Reg) (w : BitVec 6) (s : State) : Res :=
  onPanel (fun p => p.bits true (p.gv a).toNat (w.toNat + 1) false d) s

/-- PF fills the line of a paged HBM address that can be translated without a fault; otherwise nothing (R290). -/
def Panel.prefetch (p : Panel) (ea : Nat) : Panel :=
  let b := p.cb
  let vpn := ea / 65536
  match p.known (clusterOf p.cur.core) b.part b.asid vpn with
  | none => p
  | some t =>
    let pa := (t.pfn + (vpn - t.vpn)) * 65536
    if permitted t.attr 1 p.slevel ∧ region pa = 0 ∧ (p.l1Read p.cur.core ea 1).isNone then
      p.issueAcc { mkAcc .load .none ea 1 with fill := 1 }
    else p

def execPf (a b : Reg) (h : BitVec 2) (s : State) : Res :=
  onPanel (fun p => p.atHome fun p =>
    let ea := eaIdx (p.gv a) (p.gv b) h.toNat
    if regionOf ea = .paged ∧ strictOk p.cl ea 1 1 then (p.prefetch ea).fin else p.fin) s

/-- MIGR meets condition 2 of R99 for the next access that consults the predictor (R291). -/
def execMigr (s : State) : Res :=
  onPanel (fun p => p.atHome fun p =>
    if p.cb.light ∧ p.cc.gang = [] ∧ ¬ p.isHandler then (p.updC fun c => { c with migr := true }).fin else p.fin) s

/-! ### Full/empty words (R89-R91, R293-R295) -/

/-- The checks of R293 in their order: a trap cause, or where the word is. -/
def feCheck (p : Panel) (a size : Nat) : Place :=
  match regionOf a with
  | .none => .bad 0x03
  | .paged => .bad 0x03
  | .private_ => if a % 8 ≠ 0 then .bad 0x04 else place p p.src a size
  | .mesh => if a % 8 ≠ 0 then .bad 0x04 else place p p.src a size

/-- The checks of FECLR: those of R293 on `a`, and then on the last byte of the range (R295). -/
def feRange (p : Panel) (a n : Nat) : Place :=
  match feCheck p a 1 with
  | .bad c => .bad c
  | .paged => .paged
  | .lm .. => feCheck p a n

/-- LDSY and LDSY.TAKE (R90, R91, R293). That of a handler to another core stalls it until it is known whether it would wait (R220). -/
def Panel.ldsy (p : Panel) (d a : Reg) (take : Bool) : Panel :=
  p.atHome fun p => p.memory fun p =>
    let va := (p.gv a).toNat
    match feCheck p va 8 with
    | .bad c => p.trapA c va
    | .paged => p.trap 0x03 (w64 va)
    | .lm t off false =>
      let word := off / 8
      let q := p.untrack.bankGap 1
      if p.relBusy ∨ p.meshOpen false t off 8 then p.retry
      else if p.isFull t word then
        let q := q.putG d (w64 (p.lmRead t off 8))
        (if take then q.setEmpty t word else q).fin
      else if p.isHandler then p.handlerBlock
      else
        (q.fin.block_ (.ldsy va d.toNat take)).enterWait t
          { off := word, core := t, slot := p.cur.slot, bar := false, phase := 0, take := take, acc := 0, dest := d.toNat
            entered := true, retryAt := 0 }
    | .lm t off true =>
      if !p.roomL then p.retry
      else
        let a : Access := { mkAcc (if take then .ldsyTake else .ldsy) .loads va 8 with
          dest := .g d.toNat, target := t, items := byteItem off 8 false, acq := true, scope := 1
          after := p.afterMesh false va 8 t true }
        (p.trackTo t true).issueFin a fun q => if q.isHandler then q.stallFor .barrier else q

def execLdsy (d a : Reg) (s : State) : Res := onPanel (fun p => p.ldsy d a false) s
def execLdsyTake (d a : Reg) (s : State) : Res := onPanel (fun p => p.ldsy d a true) s

/-- Every earlier access of the running thread has been performed. -/
def Panel.quiet (p : Panel) : Bool := (p.accsOf p.cur.core p.cur.slot).all fun a => !a.stage.open_

/-- STFL: a release at scope B (R186, R196, R294). -/
def execStfl (a b : Reg) (s : State) : Res :=
  onPanel (fun p => p.atHome fun p => p.memory fun p =>
    let va := (p.gv a).toNat
    match feCheck p va 8 with
    | .bad c => p.trapA c va
    | .paged => p.trap 0x03 (w64 va)
    | .lm t off false =>
      if !p.quiet then p.retry
      else ((((p.untrack).lmWrite t off 8 (p.gv b).toNat).fillWord t (off / 8)).bankGap 1).fin
    | .lm t off true =>
      if !p.roomS then p.retry
      else
        (p.trackTo t true).issueFin { mkAcc .stfl .stores va 8 with
          data := (p.gv b).toNat, target := t, items := byteItem off 8 false, rel := true, scope := 3
          after := p.afterMesh true va 8 t }) s

/-- Words of a range set empty in ascending order (R295). -/
def Panel.clearWords (p : Panel) (lc off n : Nat) : Panel := (upto (off / 8) (n / 8)).foldl (fun q w => q.setEmpty lc w) p

/-- FECLR (R295). -/
def execFeclr (a b : Reg) (s : State) : Res :=
  onPanel (fun p => p.atHome fun p => p.memory fun p =>
    let va := (p.gv a).toNat
    let n := (p.gv b).toNat
    if n = 0 then p.fin
    else
      match feRange p va n with
      | .bad c => p.trapA c va
      | .paged => p.trap 0x03 (w64 va)
      | .lm t off mesh =>
        if n % 8 ≠ 0 then p.trapW 0x04
        else if !mesh then
          if p.meshOpen true t off n then p.retry else (((p.untrack).clearWords t off n).bankGap (n / 8)).fin
        else if !p.roomS then p.retry
        else
          (p.trackTo t true).issueFin { mkAcc .feclr .stores va n with
            target := t, items := [⟨0, 8 * off, 0, 0, false⟩], after := p.afterMesh false va n t }) s

end Sys2Proof.Machine
end

