-- ==== Sys2Proof/Machine/Sync.lean ====
section
/-! DEFINITION. Atomics, fences, barrier objects, counters, HOLD and the queue registers (R302-R317). -/

namespace Sys2Proof.Machine

/-! ### Atomics (R302-R306) -/

/-- An atomic of the running thread: operation, registers, ACQ, REL, scope, width (R303-R306). -/
def Panel.atomic (p : Panel) (op : Nat) (d a b : Reg) (acq rel : Bool) (scope : Nat) (wide : Bool) : Panel :=
  p.memory fun p =>
    let va := (p.gv a).toNat
    let n := if wide then 8 else 4
    let x := (p.gv b).toNat
    let c := (p.gv d).toNat
    let rnd := bf p.src.rmode.toNat 1 0
    let base : Access := { mkAcc .amo .loads va n with
      dest := .g d.toNat, op := op, wide := wide, acq := acq, rel := rel, scope := scope, rnd := rnd
      data := if op = 2 then c else x, data1 := if op = 2 then x else 0, after := p.afterOf rel va n acq }
    if p.isAway ∧ p.namesHome va then p.goHome 0 0 0 0 0
    else if bf va 63 55 ≠ 0 then p.trap 0x03 (w64 va)
    else if va % n ≠ 0 then p.trapW 0x04
    else
      match place p p.src va n with
      | .bad e => p.trap e (w64 va)
      | .paged =>
        if p.namesHost base then p.trap 0x03 (w64 va) else p.strict va n 3 fun p => p.regions base fun p =>
        if !p.roomL then p.retry
        else if p.cb.replayable ∧ (p.part p.cb.part).ckEn ∧ ¬ p.cc.ckptOk then
          { (p.requestCkpt p.home).stallFor .ckpt with cur := { p.cur with stalled := true } }
        else p.issueFin base fun q => q.updC fun c => { c with ckptOk := false, stored := c.stored || p.isAway }
      | .lm t off false =>
        if (rel ∧ ¬ p.quiet) ∨ (acq ∧ p.relBusy) ∨ p.meshOpen true t off n then p.retry
        else
          let r := (p.untrack).amoLocal t off op wide rnd x c
          let q := (r.2.putG d (amoResult wide r.1)).bankGap 1
          (if acq then q.acquireAt p.cur.core p.cur.slot scope else q).fin
      | .lm t off true =>
        if !p.roomL then p.retry
        else (p.trackTo t true).issueFin { base with target := t, items := byteItem off n false, after := p.afterMesh rel va n t acq }

/-- An atomic word (R302). -/
def amoWord (op : Nat) (d a b : Reg) (q r : BitVec 1) (sc : BitVec 3) (w : BitVec 1) (s : State) : Res :=
  onPanel (fun p => p.atomic op d a b (q == 1) (r == 1) sc.toNat (w == 1)) s

def execAmoadd (d a b : Reg) (q r : BitVec 1) (s_ : BitVec 3) (w : BitVec 1) (s : State) : Res := amoWord 0x00 d a b q r s_ w s
def execAmoswp (d a b : Reg) (q r : BitVec 1) (s_ : BitVec 3) (w : BitVec 1) (s : State) : Res := amoWord 0x01 d a b q r s_ w s
def execAmocas (d a b : Reg) (q r : BitVec 1) (s_ : BitVec 3) (w : BitVec 1) (s : State) : Res := amoWord 0x02 d a b q r s_ w s
def execAmoand (d a b : Reg) (q r : BitVec 1) (s_ : BitVec 3) (w : BitVec 1) (s : State) : Res := amoWord 0x03 d a b q r s_ w s
def execAmoor (d a b : Reg) (q r : BitVec 1) (s_ : BitVec 3) (w : BitVec 1) (s : State) : Res := amoWord 0x04 d a b q r s_ w s
def execAmoxor (d a b : Reg) (q r : BitVec 1) (s_ : BitVec 3) (w : BitVec 1) (s : State) : Res := amoWord 0x05 d a b q r s_ w s
def execAmomin (d a b : Reg) (q r : BitVec 1) (s_ : BitVec 3) (w : BitVec 1) (s : State) : Res := amoWord 0x06 d a b q r s_ w s
def execAmomax (d a b : Reg) (q r : BitVec 1) (s_ : BitVec 3) (w : BitVec 1) (s : State) : Res := amoWord 0x07 d a b q r s_ w s
def execAmominn (d a b : Reg) (q r : BitVec 1) (s_ : BitVec 3) (w : BitVec 1) (s : State) : Res := amoWord 0x08 d a b q r s_ w s
def execAmomaxn (d a b : Reg) (q r : BitVec 1) (s_ : BitVec 3) (w : BitVec 1) (s : State) : Res := amoWord 0x09 d a b q r s_ w s
def execAmofadd (d a b : Reg) (q r : BitVec 1) (s_ : BitVec 3) (w : BitVec 1) (s : State) : Res := amoWord 0x0A d a b q r s_ w s

/-! ### Fences (R185, R189, R307) -/

/-- A kind of access that reads, and one that writes, for a FENCE's predecessor set (R185). -/
def kindReads : AKind → Bool
  | .load => true | .vload => true | .fmtLoad => true | .shLoad => true | .ldsy => true | .ldsyTake => true | .amo => true
  | .barrier => true | .send => true | .twperm => true
  | .fetch => false | .store => false | .vstore => false | .stfl => false | .feclr => false

def kindWrites : AKind → Bool
  | .store => true | .vstore => true | .stfl => true | .feclr => true | .send => true | .twperm => true | .amo => true
  | .barrier => true
  | .load => false | .vload => false | .fmtLoad => false | .shLoad => false | .ldsy => false | .ldsyTake => false | .fetch => false

/-- Engine commands of the running thread whose accesses have not all been performed: those counted, less the completions
that only a full queue holds back (R185, R244). -/
def Panel.engineBusy (p : Panel) : Bool :=
  let held := (p.blk p.cur.core p.cc.btag).held.filter fun h => h.slot == p.cur.slot
  (held.filter (·.copies)).length < p.cc.cpc || (held.filter fun h => !h.copies).length < p.cc.tlc

/-- A loop-back access of a core that has not been performed (R96). -/
def Panel.loopBusy (p : Panel) (lc : Nat) : Bool :=
  (p.accs.map (·.2)).any fun a =>
    a.core == lc && a.stage.open_ && a.stage != .parked &&
      ((a.target == lc && (a.items != [] || a.kind == .barrier)) || (a.kind == .send && a.targets.contains lc))

/-- What a FENCE waits for (R185, R189); as a release, with writes in its successor set, for every earlier access (R186). -/
def Panel.fenceBusy (p : Panel) (reads writes release : Bool) (scope : Nat) (lb : Bool) : Bool :=
  ((p.accsOf p.cur.core p.cur.slot).any fun a =>
    a.stage.open_ && ((reads && kindReads a.kind) || (writes && kindWrites a.kind) || release || scope == 5)) ||
  p.engineBusy || (lb && p.loopBusy p.cur.core)

/-- FENCE: a stall until its predecessors are performed, then the acquire action (R185, R307). -/
def execFence (f : BitVec 4) (s_ : BitVec 3) (l : BitVec 1) (s : State) : Res :=
  onPanel (fun p =>
    if p.fenceBusy (bt f.toNat 3) (bt f.toNat 2) (bt f.toNat 0) s_.toNat (l == 1) then p.retry
    else (if bt f.toNat 1 then p.acquireAt p.cur.core p.cur.slot s_.toNat else p).fin) s

/-! ### Barrier instructions (R198-R201, R308-R313) -/

/-- The checks of R309 on a barrier operand. -/
def barCheck (p : Panel) (a : Nat) : Place :=
  match regionOf a with
  | .none => .bad 0x03
  | .paged => .bad 0x03
  | .private_ => if a % 16 ≠ 0 then .bad 0x04 else place p p.src a 16
  | .mesh =>
    if a % 16 ≠ 0 then .bad 0x04
    else
      match place p p.src a 16 with
      | .lm t off m =>
        let b := p.cb
        if !(blockCores b).contains t ∨ off < b.lmBase * 1024 ∨ (b.lmBase + b.lmSize) * 1024 < off + 16 then .bad 0x03
        else .lm t off m
      | x => x

/-- The arrival record that names an object of a block. -/
def arrOf (b : Block) (lc off phase : Nat) : ArrRec := ⟨cx lc - b.ox, cy lc - b.oy, off - b.lmBase * 1024, phase⟩

/-- An arrival record names the object (R310). -/
def recNames (r : Option ArrRec) (b : Block) (lc off : Nat) : Option Nat :=
  match r with
  | some x => if x.x = cx lc - b.ox ∧ x.y = cy lc - b.oy ∧ x.off = off - b.lmBase * 1024 then some x.phase else none
  | none => none

/-- The outcome of a barrier instruction performed at its object. -/
inductive BarOut where
  /-- BARRIER_FAULT -/
  | fault
  /-- a BARWAIT whose phase has not passed: the phase it waits to leave -/
  | wait (phase : Nat)
  /-- performed; BARTEST's value -/
  | done (v : W)
  deriving DecidableEq, Repr

/-- Results of BARTEST: a phase has passed. -/
def barDone (r : Option Nat) (o : Nat) : Bool := match r with | some f => f != objPhase o | none => false

/-- A barrier instruction performed at the object of a core for a thread: 0 BARINIT, 1 BARARR, 2 BARWAIT, 3 BAREXP, 4 BARTEST
(R199, R201, R310). `stag` is BARINIT's flag. -/
def Panel.barDo (p : Panel) (op lc off : Nat) (val : W) (stag : Bool) (rc rs : Nat) : BarOut × Panel :=
  let c := p.ctx rc rs
  let b := p.block c.btag
  let o := p.obj lc off
  match op with
  | 0 =>
    if bf val.toNat 63 16 ≠ 0 ∨ bf val.toNat 15 0 = 0 then (.fault, p)
    else (.done 0, p.objWrite lc off (mkObj c.btag 0 stag 0 0 (bf val.toNat 15 0)) false)
  | 1 =>
    let q := p.updCtx rc rs fun c => { c with arr := some (arrOf b lc off (objPhase o)) }
    let r := q.arrive lc off c.btag
    if r.2 then (.done 0, r.1) else (.fault, p)
  | 2 =>
    if !objOk o c.btag then (.fault, p)
    else
      match recNames c.arr b lc off with
      | some f => if f = objPhase o then (.wait f, p) else (.done 0, p)
      | none => (.wait (objPhase o), p.updCtx rc rs fun c => { c with arr := some (arrOf b lc off (objPhase o)) })
  | 3 =>
    let v := objPend o + val.toInt
    if !objOk o c.btag ∨ v < -(2 ^ 31 : Int) ∨ (2 ^ 31 : Int) ≤ v then (.fault, p)
    else (.done 0, p.objWrite lc off (mkObj c.btag v (objStag o) (objPhase o) (objArr o) (objExp o)) true)
  | _ =>
    if !objOk o c.btag then (.fault, p)
    else
      let done := barDone (recNames c.arr b lc off) o
      let q := if done then (p.updCtx rc rs fun c => { c with arr := none }).acquireAt rc rs 3 else p
      (.done (w64 (b2n done * 2 ^ 63 + bf o 33 0)), q)

/-- Does the operation count while it travels, and in which class (R309)? -/
def barClass (op : Nat) : CClass := if op = 2 then .none else if op = 4 then .loads else .stores

/-- A mesh-window access of the running thread to a core is held: what takes the same path waits behind it (R182). -/
def Panel.heldTo (p : Panel) (t : Nat) : Bool :=
  (p.accsOf p.cur.core p.cur.slot).any fun a => a.stage == .held && a.items != [] && a.target == t

/-- A barrier instruction of the running thread (R309, R310). -/
def Panel.barrierOp (p : Panel) (op : Nat) (a : Reg) (val : W) (stag : Bool) (d : Reg) : Panel :=
  p.memory fun p =>
    let va := (p.gv a).toNat
    if p.isAway ∧ p.namesHome va then p.goHome 0 0 0 0 0
    else
    match barCheck p va with
    | .bad e => p.trapA e va
    | .paged => p.trap 0x03 (w64 va)
    | .lm t off mesh =>
      if op = 2 ∧ p.isHandler then p.handlerBlock
      else if (op = 1 ∧ ¬ p.quiet) ∨ ((op = 2 ∨ op = 4) ∧ p.relBusy) ∨ p.meshOpen true t off 16 ∨ (mesh ∧ p.heldTo t) then p.retry
      else
      if ¬ mesh then
        match (p.untrack.bankGap 1).barDo op t off val stag p.cur.core p.cur.slot with
        | (.fault, _) => p.trapW 0x0B
        | (.done v, q) =>
          if op = 2 then q.fin.barReturn p.cur.core p.cur.slot (objStag (q.obj t off))
          else (if op = 4 then q.putG d v else q).fin
        | (.wait f, q) =>
          (q.fin.block_ (.barrier t off f va)).enterWait t
            { off := off, core := p.cur.core, slot := p.cur.slot, bar := true, phase := f, take := false, acc := 0, dest := 0
              entered := true, retryAt := 0 }
      else if (barClass op = .stores ∧ ¬ p.roomS) ∨ (barClass op = .loads ∧ ¬ p.roomL) then p.retry
      else
        let p := p.trackTo t mesh
        let id := p.nid
        let acc : Access := { mkAcc .barrier (barClass op) va 16 with
          id := id, core := p.cur.core, slot := p.cur.slot, btag := p.cc.btag, dest := if op = 4 then .g d.toNat else .none
          data := val.toNat, data1 := p.cur.word.toNat, op := op, wide := stag, target := t, pc := p.cc.pc, stage := .out }
        let q := { p with nid := id + 1, accs := SMap.set p.accs id acc }
        let q := match barClass op with | .none => q | .loads => q.incL | .stores => q.incS
        let q := q.fin.send p.cur.core t (.bar op off val p.cur.core p.cur.slot p.cc.btag d.toNat p.cc.arr id)
        if op = 2 then q.block_ (.barrier t off 2 va) else q.stallFor .barrier

def execBarinit (a b : Reg) (t : BitVec 1) (s : State) : Res := onPanel (fun p => p.barrierOp 0 a (p.gv b) (t == 1) 0) s
def execBararr (a : Reg) (s : State) : Res := onPanel (fun p => p.barrierOp 1 a 0 false 0) s
def execBarwait (a : Reg) (s : State) : Res := onPanel (fun p => p.barrierOp 2 a 0 false 0) s
def execBarexp (a b : Reg) (s : State) : Res := onPanel (fun p => p.barrierOp 3 a (p.gv b) false 0) s
def execBartest (d a : Reg) (s : State) : Res := onPanel (fun p => p.barrierOp 4 a 0 false d) s

/-! ### Counters and holding issue (R264, R314, R315) -/

/-- Every counter is at or below its immediate (R264). -/
def countersOk (c : Ctx) (l st cp t : Nat) : Bool := c.ldc ≤ l && c.stc ≤ st && c.cpc ≤ cp && c.tlc ≤ t

def execWaitc (l s_ : BitVec 4) (c t : BitVec 3) (s : State) : Res :=
  onPanel (fun p =>
    if countersOk p.cc l.toNat s_.toNat c.toNat t.toNat then p.fin
    else p.waitAt (.waitc l.toNat s_.toNat c.toNat t.toNat)) s

/-- HOLD keeps the thread from issuing for n cycles (R315). Like other instructions outside R102's list, it sends a migrated
thread home first. -/
def execHold (n : BitVec 16) (s : State) : Res :=
  onPanel (fun p => p.atHome fun p =>
    if n = 0 then p.fin
    else ((p.fin).stallFor (.hold (p.now + n.toNat))).later n.toNat .holdEnd [p.cur.core, p.cur.slot]) s

/-! ### Queue registers (R243, R244, R316) -/

/-- Access that the table of R243 allows: 0 push, 1 pop or peek, 2 length. -/
def queueOk (op q : Nat) : Bool :=
  match op with
  | 0 => 8 ≤ q
  | 1 => q == 0 || q == 1 || q == 3 || q == 4 || 8 ≤ q
  | _ => q ≤ 4 || 8 ≤ q

/-- The oldest entry taken from a queue register; a held completion may land now (R244). -/
def Panel.popQueue (p : Panel) (lc tag q : Nat) : Panel :=
  let p1 := p.setQueue lc tag q ((p.queue lc tag q).drop 1)
  if (p1.blk lc tag).held = [] then p1 else p1.later 1 .heldCompletionLand [lc, tag]

def execQpush (a : Reg) (q : BitVec 4) (s : State) : Res :=
  onPanel (fun p => p.atHome fun p =>
    let n := q.toNat
    let es := p.queue p.cur.core p.cc.btag n
    if !queueOk 0 n then p.illegal
    else if qDepth n ≤ es.length then p.retry
    else (p.setQueue p.cur.core p.cc.btag n (es ++ [p.gv a])).fin) s

/-- QPOP and QPEEK: the oldest entry, or a blocking point while the queue is empty (R316). -/
def Panel.qread (p : Panel) (d : Reg) (n : Nat) (take : Bool) : Panel :=
  p.atHome fun p =>
    if !queueOk 1 n then p.illegal
    else
      match p.queue p.cur.core p.cc.btag n with
      | [] => p.waitAt (if take then .qpop n d.toNat else .qpeek n d.toNat)
      | v :: _ =>
        let r := p.putG d v
        (if take then r.popQueue p.cur.core p.cc.btag n else r).fin

def execQpop (d : Reg) (q : BitVec 4) (s : State) : Res := onPanel (fun p => p.qread d q.toNat true) s
def execQpeek (d : Reg) (q : BitVec 4) (s : State) : Res := onPanel (fun p => p.qread d q.toNat false) s

def execQlen (d : Reg) (q : BitVec 4) (s : State) : Res :=
  onPanel (fun p => p.atHome fun p =>
    if !queueOk 2 q.toNat then p.illegal
    else (p.putG d (w64 (p.queue p.cur.core p.cc.btag q.toNat).length)).fin) s

end Sys2Proof.Machine
end

