-- ==== Sys2Proof/Machine/Message.lean ====
section
/-! DEFINITION. Messages, receive rings and hop counts (R221-R223, R318-R322, R326-R328). -/

namespace Sys2Proof.Machine

/-- The checks of R319 on the payload address, in order: a cause, or the physical offset on the running core. -/
def payloadPlace (p : Panel) (va n : Nat) : Except Nat Nat :=
  match regionOf va with
  | .none => .error 0x03
  | .mesh => .error 0x03
  | .paged => .error 0x03
  | .private_ =>
    if va % 8 ≠ 0 then .error 0x04
    else
      match place p p.src va (8 * n) with
      | .lm _ off _ => .ok off
      | .bad c => .error c
      | .paged => .error 0x03

/-- The payload words read at issue (R319). -/
def payloadWords (p : Panel) (off n : Nat) : List W :=
  (List.range n).map fun i => w64 (p.lmRead p.cur.core (off + 8 * i) 8)

/-- The index of a core in a block (R209). -/
def ciOf (b : Block) (lc : Nat) : Nat := (cy lc - b.oy) * b.w + (cx lc - b.ox)

/-- Copies of one message sent to their targets under one access record, counted once (R319, R322); `dtag` is the destination
block tag of a ring copy (R460). A message names its sender by y × 256 + x of its home core within its block, as it stands at the send (R218,
R222); the copies of a multicast go along one XY tree (R15). -/
def Panel.sendCopies (p : Panel) (targets : List Nat) (handler quiet : Bool) (ring : Nat) (words : List W) (dtag : Nat) : Panel :=
  let id := p.nid
  let c := p.cc
  let acc : Access := { mkAcc .send .stores 0 0 with
    id := id, core := p.cur.core, slot := p.cur.slot, btag := c.btag, quiet := quiet, ring := ring
    target := targets.headD 0, targets := targets, copies := targets.length, data := targets.length, pc := c.pc, stage := .out }
  let q := ({ p with nid := id + 1, accs := SMap.set p.accs id acc }).incS
  let tree := decide (1 < targets.length)
  let me := coreXY c.bx c.by_
  let q := if tree then q.treeCharge p.cur.core c.btag (1 + cdiv (8 * words.length) 32) targets else q
  targets.foldl (fun q t =>
    let ci := ciOf p.cb t
    q.sendOn tree p.cur.core t (if handler then .handler words me p.cur.slot c.btag c.btag id ci
      else .msg ring words me p.cur.slot p.slevel c.btag dtag quiet id ci)) q

/-- A message instruction once its payload and its descriptor are checked: targets found by `f`. -/
def Panel.message (p : Panel) (b : Reg) (n : Nat) (desc : Nat) (f : Panel → Except Nat (List Nat)) (handler quiet : Bool)
    (ring dtag : Nat) : Panel :=
  let va := (p.gv b).toNat
  match payloadPlace p va n with
  | .error e => p.trapA e va
  | .ok off =>
    match f p with
    | .error e => p.trap e (w64 desc)
    | .ok [] => p.fin
    | .ok (t :: ts) =>
      if !p.roomS ∨ p.relBusy then p.retry
      else ((p.sendCopies (t :: ts) handler quiet ring (payloadWords p off n) dtag).bankGap (groupsTouched off (8 * n))).fin

/-- SEND (R319, R320). A message instruction waits for an acquire or a release of its thread in flight (R186, R187, R195). -/
def execSend (a b : Reg) (n : BitVec 8) (s : State) : Res :=
  onPanel (fun p => p.atHome fun p => p.memory fun p =>
    let d := (p.gv a).toNat
    p.message b n.toNat d (fun p => match destTarget p p.src d true with | .ok t => .ok [t] | .error e => .error e) false (bt d 19)
      (bf d 17 16) (if bt d 18 then 0 else p.cc.btag)) s

/-- SENDH: the target lies in the sender's block (R319); a target outside it raises PARTITION_VIOLATION (DESIGN CHOICE, log 63: no rule names
the trap). -/
def execSendh (a b : Reg) (n : BitVec 8) (s : State) : Res :=
  onPanel (fun p => p.atHome fun p => p.memory fun p =>
    let d := (p.gv a).toNat
    p.message b n.toNat d (fun p => match destTarget p p.src d false with
      | .ok t => if (blockCores p.cb).contains t then .ok [t] else .error 0x05
      | .error e => .error e) true false 0 p.cc.btag) s

/-- MCAST: with H = 1 a handler message, whose RING and QUIET are zero and whose n is at most 9 (R318, R319, R322). -/
def execMcast (a b : Reg) (n : BitVec 8) (s : State) : Res :=
  onPanel (fun p => p.atHome fun p => p.memory fun p =>
    let d := (p.gv a).toNat
    let h := bt d 26
    if h ∧ 9 < n.toNat then p.illegal
    else
      p.message b n.toNat d (fun p => if h ∧ (bt d 27 ∨ bf d 25 24 ≠ 0) then .error 0x03 else maskTargets p p.src d true) h (bt d 27)
        (bf d 25 24) p.cc.btag) s

/-! ### Rings (R326, R327) -/

/-- The ring of the running thread's core that its block owns (R326). -/
def Panel.myRing (p : Panel) (n : Nat) : Option Ring :=
  let r := SMap.getD (p.core p.cur.core).rings n {}
  if r.en ∧ r.btag = p.cc.btag then some r else none

/-- RINGWAIT: a blocking point until TAIL ≠ HEAD, and an acquire, which follows the thread's releases (R182, R326); a handler that
executes it traps (R220; log 43). -/
def execRingwait (n : BitVec 2) (s : State) : Res :=
  onPanel (fun p => p.atHome fun p =>
    match p.myRing n.toNat with
    | none => p.trapW 0x0A
    | some r =>
      if p.isHandler then p.handlerBlock
      else if p.relBusy then p.retry
      else if r.tail ≠ r.head then p.fin
      else p.waitAt (.ring n.toNat)) s

/-- A doubleword of the running thread's block window on its core. -/
def Panel.winRead (p : Panel) (off : Nat) : Nat := p.lmRead p.cur.core (p.cb.lmBase * 1024 + off) 8

/-- RINGPOP (R327): the new HEAD and the value of d. -/
def ringPop (p : Panel) (r : Ring) : Nat × W :=
  if r.tail = r.head then (r.head, 0)
  else
    let base := r.base * 8
    let h0 := p.winRead (base + r.head)
    let head := if bf h0 19 16 = 2 then 0 else r.head
    let h := if bf h0 19 16 = 2 then p.winRead base else h0
    let len := bf h 15 0
    let nxt := (head + 8 + 8 * ((len + 7) / 8)) % r.size
    (head, w64 (2 ^ 63 + len * 2 ^ 36 + nxt * 2 ^ 18 + (base + head + 8)))

/-- RINGPOP writes HEAD only when it skips a wrap marker; with VALID = 1 it is an acquire, which follows the thread's releases (R182, R327). -/
def execRingpop (d : Reg) (n : BitVec 2) (s : State) : Res :=
  onPanel (fun p => p.atHome fun p => p.memory fun p =>
    match p.myRing n.toNat with
    | none => p.trapW 0x0A
    | some r =>
      if !p.roomL ∨ (r.tail ≠ r.head ∧ p.relBusy) then p.retry
      else
        let x := ringPop p r
        ((if x.1 = r.head then p else p.updCore p.cur.core fun c => { c with rings := SMap.set c.rings n.toNat (r.setHead p.now x.1) }).putG d x.2).fin) s

/-- RHOPS: physical hops from the thread's home site to the target's (R328). -/
def execRhops (d a : Reg) (s : State) : Res :=
  onPanel (fun p => p.atHome fun p =>
    let x := (p.gv a).toNat
    match destTarget p p.src x false with
    | .error e => p.trap e (w64 x)
    | .ok t => (p.putG d (w64 (hops p.fabric p.home t))).fin) s

end Sys2Proof.Machine
end

