-- ==== Sys2Proof/Machine/Vector.lean ====
section
/-! DEFINITION. Vector memory and lane instructions, masks (R330-R349). -/

namespace Sys2Proof.Machine

/-! ### Views, overlap and the gap (R237, R265, R266, R333) -/

/-- The groups of vectors an instruction names are mapped, or VIEW_FAULT (R237, R265, R333). -/
def Panel.views (p : Panel) (gs : List (Nat × Nat)) (k : Panel → Panel) : Panel :=
  p.atHome fun p => if gs.all fun g => vecOk p p.src g.1 g.2 then k p else p.trapW 0x06

/-- The destination group equals each source group or shares no byte with it, or OVERLAP (R266). -/
def Panel.apart (p : Panel) (dst : Nat × Nat) (srcs : List (Nat × Nat)) (k : Panel → Panel) : Panel :=
  if srcs.any fun g => overlapBad (groupAddrs p p.src dst.1 dst.2) (groupAddrs p p.src g.1 g.2) then p.trapW 0x07 else k p

/-- The gap of an instruction that makes `n` register-space reads and writes (R333). -/
def Panel.rsGap (p : Panel) (n : Nat) : Panel :=
  if n ≤ 8 then p
  else (p.updC fun c => { c with gapUntil := max c.gapUntil (p.now + n) }).later n .issueGapEnd [p.cur.core, p.cur.slot]

/-- A mask register of the source context. -/
def Panel.mv (p : Panel) (m : BitVec 3) : W := p.src.mask m.toNat

/-- A vector written where its mask selects, lane by lane; other lanes keep their value (R330). -/
def Panel.putLanes (p : Panel) (n d : Nat) (mask : W) (f : Nat → Nat) : Panel :=
  let old := p.vecNow d
  p.putVec d (BitVec.ofNat 512 (ofLanes n ((List.range (512 / n)).map fun i => if bt mask.toNat i then f i else lane n old i)))

/-- A fmt field names floating-point lanes (R256). -/
def isFp (f : BitVec 3) : Bool := f.toNat < 4

/-- The rnd field of integer lanes names N lanes (R256). -/
def isN (r : BitVec 2) : Bool := r == 2

/-- A lane-wise instruction of one vector result: its source vectors and its lane function (R330, R331). -/
def Panel.laneOp (p : Panel) (n : Nat) (d : BitVec 5) (srcs : List (BitVec 5)) (m : BitVec 3) (f : Panel → Nat → Nat) : Panel :=
  p.views ((d.toNat, 1) :: srcs.map fun v => (v.toNat, 1)) fun p =>
    p.apart (d.toNat, 1) (srcs.map fun v => (v.toNat, 1)) fun p =>
      ((p.putLanes n d.toNat (p.mv m) (f p)).rsGap (1 + srcs.length)).fin

/-! ### Lane-wise arithmetic (R339-R342) -/

/-- A two- or three-operand arithmetic word: floating-point and exact integer forms (R339). -/
def vArith (fp : Fmt → Nat → Nat → Nat → Nat → Nat) (it : Int → Int → Int → Int) (acc : Bool) (d a b : BitVec 5) (f m : BitVec 3)
    (r : BitVec 2) (s_ : BitVec 1) (s : State) : Res :=
  onPanel (fun p =>
    let n := laneBits f.toNat
    p.laneOp n d (if acc then [a, b, d] else [a, b]) m fun p i =>
      let x := lane n (p.vec a.toNat) i
      let y := lane n (p.vec b.toNat) i
      let z := lane n (p.vec d.toNat) i
      if isFp f then fp (fpFmt f.toNat) r.toNat x y z
      else reduce n (isN r) (s_ == 1) (it (laneVal n (isN r) x) (laneVal n (isN r) y) (laneVal n (isN r) z))) s

def execVadd (d a b : BitVec 5) (f m : BitVec 3) (r : BitVec 2) (s_ : BitVec 1) (s : State) : Res :=
  vArith (fun g mo x y _ => fpAdd g mo x y) (fun x y _ => x + y) false d a b f m r s_ s
def execVsub (d a b : BitVec 5) (f m : BitVec 3) (r : BitVec 2) (s_ : BitVec 1) (s : State) : Res :=
  vArith (fun g mo x y _ => fpSub g mo x y) (fun x y _ => x - y) false d a b f m r s_ s
def execVmul (d a b : BitVec 5) (f m : BitVec 3) (r : BitVec 2) (s_ : BitVec 1) (s : State) : Res :=
  vArith (fun g mo x y _ => fpMul g mo x y) (fun x y _ => x * y) false d a b f m r s_ s
def execVfma (d a b : BitVec 5) (f m : BitVec 3) (r : BitVec 2) (s_ : BitVec 1) (s : State) : Res :=
  vArith (fun g mo x y z => fpFma g mo x y z false false) (fun x y z => x * y + z) true d a b f m r s_ s
def execVfms (d a b : BitVec 5) (f m : BitVec 3) (r : BitVec 2) (s_ : BitVec 1) (s : State) : Res :=
  vArith (fun g mo x y z => fpFma g mo x y z false true) (fun x y z => x * y - z) true d a b f m r s_ s
def execVfnma (d a b : BitVec 5) (f m : BitVec 3) (r : BitVec 2) (s_ : BitVec 1) (s : State) : Res :=
  vArith (fun g mo x y z => fpFma g mo x y z true false) (fun x y z => z - x * y) true d a b f m r s_ s
def execVmin (d a b : BitVec 5) (f m : BitVec 3) (r : BitVec 2) (s_ : BitVec 1) (s : State) : Res :=
  vArith (fun g _ x y _ => fpMin g x y) (fun x y _ => min x y) false d a b f m r s_ s
def execVmax (d a b : BitVec 5) (f m : BitVec 3) (r : BitVec 2) (s_ : BitVec 1) (s : State) : Res :=
  vArith (fun g _ x y _ => fpMax g x y) (fun x y _ => max x y) false d a b f m r s_ s

/-- A word on the bits of integer lanes (R340). -/
def vBits (g : Nat → Nat → Nat → Nat) (d a b : BitVec 5) (f m : BitVec 3) (s : State) : Res :=
  onPanel (fun p =>
    let n := laneBits f.toNat
    p.laneOp n d [a, b] m fun p i => g n (lane n (p.vec a.toNat) i) (lane n (p.vec b.toNat) i)) s

/-- The shift amount of a lane: its low log2(n) bits (R340). -/
def laneShift (n y : Nat) : Nat := y % n

def execVand (d a b : BitVec 5) (f m : BitVec 3) (_ : BitVec 2) (s : State) : Res := vBits (fun _ x y => x &&& y) d a b f m s
def execVor (d a b : BitVec 5) (f m : BitVec 3) (_ : BitVec 2) (s : State) : Res := vBits (fun _ x y => x ||| y) d a b f m s
def execVxor (d a b : BitVec 5) (f m : BitVec 3) (_ : BitVec 2) (s : State) : Res := vBits (fun _ x y => x ^^^ y) d a b f m s

/-- VSHL forms va × 2^s exactly, then reduces (R340). -/
def execVshl (d a b : BitVec 5) (f m : BitVec 3) (r : BitVec 2) (s_ : BitVec 1) (s : State) : Res :=
  vBits (fun n x y => reduce n (isN r) (s_ == 1) (laneVal n (isN r) x * 2 ^ laneShift n y)) d a b f m s
def execVshr (d a b : BitVec 5) (f m : BitVec 3) (_ : BitVec 2) (s : State) : Res :=
  vBits (fun n x y => x / 2 ^ laneShift n y) d a b f m s
def execVsra (d a b : BitVec 5) (f m : BitVec 3) (_ : BitVec 2) (s : State) : Res :=
  vBits (fun n x y => cut n (sgn n x / 2 ^ laneShift n y)) d a b f m s

/-- A one-source word (R341). -/
def vUnary (g : Nat → Nat → Nat) (d a : BitVec 5) (f m : BitVec 3) (s : State) : Res :=
  onPanel (fun p =>
    let n := laneBits f.toNat
    p.laneOp n d [a] m fun p i => g n (lane n (p.vec a.toNat) i)) s

def execVmov (d a : BitVec 5) (f m : BitVec 3) (_ : BitVec 2) (s : State) : Res := vUnary (fun _ x => x) d a f m s

/-- VABS: the sign bit cleared; integers by signedness (R341). -/
def execVabs (d a : BitVec 5) (f m : BitVec 3) (r : BitVec 2) (s_ : BitVec 1) (s : State) : Res :=
  vUnary (fun n x =>
    if isFp f then x % 2 ^ (n - 1)
    else if isN r then x
    else reduce n false (s_ == 1) ((sgn n x).natAbs : Int)) d a f m s

/-- VNEG: the sign bit flipped; integers −x, then R331 (R341). -/
def execVneg (d a : BitVec 5) (f m : BitVec 3) (r : BitVec 2) (s_ : BitVec 1) (s : State) : Res :=
  vUnary (fun n x => if isFp f then x ^^^ 2 ^ (n - 1) else reduce n (isN r) (s_ == 1) (-(laneVal n (isN r) x))) d a f m s

def execVnot (d a : BitVec 5) (f m : BitVec 3) (_ : BitVec 2) (s : State) : Res := vUnary (fun n x => 2 ^ n - 1 - x) d a f m s
def execVrcp (d a : BitVec 5) (f m : BitVec 3) (r : BitVec 2) (_ : BitVec 1) (s : State) : Res :=
  vUnary (fun _ x => fpRcp (fpFmt f.toNat) r.toNat x) d a f m s
def execVrsq (d a : BitVec 5) (f m : BitVec 3) (r : BitVec 2) (_ : BitVec 1) (s : State) : Res :=
  vUnary (fun _ x => fpRsq (fpFmt f.toNat) r.toNat x) d a f m s
def execVexp2 (d a : BitVec 5) (f m : BitVec 3) (r : BitVec 2) (_ : BitVec 1) (s : State) : Res :=
  vUnary (fun _ x => fpExp2 f.toNat (fpFmt f.toNat) r.toNat x) d a f m s
def execVlog2 (d a : BitVec 5) (f m : BitVec 3) (r : BitVec 2) (_ : BitVec 1) (s : State) : Res :=
  vUnary (fun _ x => fpLog2 f.toNat (fpFmt f.toNat) r.toNat x) d a f m s

/-! ### Compare, select and lane movement (R343-R346) -/

/-- A mask written from its bits below L; bits at or above are 0. -/
def maskOf (L : Nat) (f : Nat → Bool) : W := w64 (ofLanes 1 ((List.range L).map fun i => b2n (f i)))

/-- VCMP (R343). -/
def execVcmp (c : BitVec 2) (d : BitVec 3) (a b : BitVec 5) (f m : BitVec 3) (r : BitVec 2) (s : State) : Res :=
  onPanel (fun p =>
    let n := laneBits f.toNat
    p.views [(a.toNat, 1), (b.toNat, 1)] fun p =>
      let x := p.vec a.toNat
      let y := p.vec b.toNat
      let old := p.mv d
      let sel := p.mv m
      let v := maskOf (512 / n) fun i =>
        if bt sel.toNat i then
          if isFp f then cmpFp (fpFmt f.toNat) c.toNat (lane n x i) (lane n y i)
          else cmpInt c.toNat (laneVal n (isN r) (lane n x i)) (laneVal n (isN r) (lane n y i))
        else bt old.toNat i
      (p.updC fun k => k.setM d.toNat v).fin) s

/-- VSEL: every lane is written (R344). -/
def execVsel (d a b : BitVec 5) (f m : BitVec 3) (_ : BitVec 2) (s : State) : Res :=
  onPanel (fun p =>
    let n := laneBits f.toNat
    p.laneOp n d [a, b] 0 fun p i => if bt (p.mv m).toNat i then lane n (p.vec a.toNat) i else lane n (p.vec b.toNat) i) s

/-- VBCAST (R345). -/
def execVbcast (d : BitVec 5) (a : Reg) (f m : BitVec 3) (_ : BitVec 2) (s : State) : Res :=
  onPanel (fun p =>
    let n := laneBits f.toNat
    p.laneOp n d [] m fun p _ => (p.gv a).toNat % 2 ^ n) s

/-- VINS writes lane idx when its mask bit is 1 (R345). -/
def execVins (d : BitVec 5) (a b : Reg) (f m : BitVec 3) (_ : BitVec 2) (s : State) : Res :=
  onPanel (fun p =>
    let n := laneBits f.toNat
    let idx := (p.gv b).toNat % (512 / n)
    p.laneOp n d [] m fun p i => if i = idx then (p.gv a).toNat % 2 ^ n else lane n (p.vecNow d.toNat) i) s

/-- VEXT: sign-extended for I lanes, zero-extended otherwise (R345). -/
def execVext (d : Reg) (a : BitVec 5) (b : Reg) (f : BitVec 3) (r : BitVec 2) (s : State) : Res :=
  onPanel (fun p =>
    let n := laneBits f.toNat
    p.views [(a.toNat, 1)] fun p =>
      let x := lane n (p.vec a.toNat) ((p.gv b).toNat % (512 / n))
      (p.putG d (if isFp f || isN r then w64 x else sext64 n x)).fin) s

/-- VPERM (R346). -/
def execVperm (d a b : BitVec 5) (f m : BitVec 3) (_ : BitVec 2) (s : State) : Res :=
  onPanel (fun p =>
    let n := laneBits f.toNat
    p.laneOp n d [a, b] m fun p i => lane n (p.vec a.toNat) (lane n (p.vec b.toNat) i % (512 / n))) s

/-- Lane i of VSHUF's result: from va (true) or vb, and which lane (R346). -/
def shufLane (pattern L i : Nat) : Bool × Nat :=
  let h := L / 2
  match pattern with
  | 0 => (true, L - 1 - i)
  | 1 => (true, i ^^^ 1)
  | 2 => (i % 2 == 0, i / 2)
  | 3 => (i % 2 == 0, h + i / 2)
  | 4 => if i < h then (true, 2 * i) else (false, 2 * (i - h))
  | 5 => if i < h then (true, 2 * i + 1) else (false, 2 * (i - h) + 1)
  | 6 => (true, (i + L - 1) % L)
  | _ => if i + 1 < L then (true, i + 1) else (false, 0)

def execVshuf (d a b : BitVec 5) (f p_ : BitVec 3) (_ : BitVec 2) (s : State) : Res :=
  onPanel (fun p =>
    let n := laneBits f.toNat
    p.laneOp n d [a, b] 0 fun p i =>
      let x := shufLane p_.toNat (512 / n) i
      lane n (p.vec (if x.1 then a else b).toNat) x.2) s

/-! ### Reductions, scans, dot products (R347, R348) -/

/-- combine(x, y) of R347. -/
def combine (f : Nat → Nat → Nat) : Option Nat → Option Nat → Option Nat
  | some x, some y => some (f x y)
  | some x, none => some x
  | none, y => y

/-- One level of the binary tree. -/
def treeLevel (f : Nat → Nat → Nat) : List (Option Nat) → List (Option Nat)
  | x :: y :: t => combine f x y :: treeLevel f t
  | l => l

/-- The tree over 2^k nodes. -/
def treeRun (f : Nat → Nat → Nat) : Nat → List (Option Nat) → Option Nat
  | 0, l => l.headD none
  | k + 1, l => treeRun f k (treeLevel f l)

/-- Running combinations, lane by lane: the value of each lane that takes part. -/
def scanRun (f : Nat → Nat → Nat) : Option Nat → List (Option Nat) → List (Option Nat)
  | _, [] => []
  | acc, none :: t => none :: scanRun f acc t
  | acc, some x :: t =>
    let v := combine f acc (some x)
    v :: scanRun f v t

/-- The floating-point step of a reduction: 0 add, 1 min, 2 max (R347). -/
def redFp (g : Fmt) (mode op x y : Nat) : Nat := match op with | 0 => fpAdd g mode x y | 1 => fpMin g x y | _ => fpMax g x y

/-- The exact integer reduction of a list of lanes, not yet reduced to a lane (R347). -/
def redInt (n : Nat) (unsigned : Bool) (op : Nat) : List Nat → Int
  | [] => 0
  | x :: t =>
    t.foldl (fun (acc : Int) y =>
      let v := laneVal n unsigned y
      match op with
      | 0 => acc + v
      | 1 => min acc v
      | 2 => max acc v
      | 3 => laneVal n unsigned (cut n acc &&& cut n v)
      | 4 => laneVal n unsigned (cut n acc ||| cut n v)
      | _ => laneVal n unsigned (cut n acc ^^^ cut n v)) (laneVal n unsigned x)

/-- Lanes of a vector that take part, absent otherwise. -/
def partLanes (n : Nat) (v : Line) (mask : W) : List (Option Nat) :=
  (List.range (512 / n)).map fun i => if bt mask.toNat i then some (lane n v i) else none

/-- The result of VRED in lane 0 (R347). -/
def vredVal (f : BitVec 3) (r : BitVec 2) (sat : Bool) (op : Nat) (v : Line) (mask : W) : Nat :=
  let n := laneBits f.toNat
  let xs := partLanes n v mask
  if isFp f then (treeRun (redFp (fpFmt f.toNat) r.toNat op) (Nat.log2 (512 / n)) xs).getD 0
  else
    match xs.filterMap id with
    | [] => 0
    | ys => reduce n (isN r) sat (redInt n (isN r) op ys)

def execVred (d a o : BitVec 5) (f m : BitVec 3) (r : BitVec 2) (s_ : BitVec 1) (s : State) : Res :=
  onPanel (fun p =>
    let n := laneBits f.toNat
    p.laneOp n d [a] 0 fun p i => if i = 0 then vredVal f r (s_ == 1) o.toNat (p.vec a.toNat) (p.mv m) else 0) s

/-- The lanes of VSCAN's result (R347). -/
def vscanVals (f : BitVec 3) (r : BitVec 2) (sat : Bool) (op : Nat) (v : Line) (mask : W) : List (Option Nat) :=
  let n := laneBits f.toNat
  let xs := partLanes n v mask
  if isFp f then scanRun (redFp (fpFmt f.toNat) r.toNat op) none xs
  else (List.range (512 / n)).map fun i =>
    match xs.getD i none with
    | none => none
    | some _ => some (reduce n (isN r) sat (redInt n (isN r) op ((xs.take (i + 1)).filterMap id)))

def execVscan (d a o : BitVec 5) (f m : BitVec 3) (r : BitVec 2) (s_ : BitVec 1) (s : State) : Res :=
  onPanel (fun p =>
    let n := laneBits f.toNat
    p.laneOp n d [a] m fun p i => ((vscanVals f r (s_ == 1) o.toNat (p.vec a.toNat) (p.mv m)).getD i none).getD 0) s

/-- An accumulator lane of VDOT (R348): floating point with one rounding, or exact integers as I32. -/
def vdotLane (f : BitVec 3) (r : BitVec 2) (sat : Bool) (x y z : Line) (i : Nat) : Nat :=
  let acc := lane 32 z i
  if isFp f then
    let g := fpFmt f.toNat
    let t := fun j => (unpack g (lane 16 x j)).mul (unpack g (lane 16 y j))
    pack (fpFmt 1) r.toNat (sumAll (r == 3) [unpack (fpFmt 1) acc, t (2 * i), t (2 * i + 1)])
  else
    let n := laneBits f.toNat
    let k := 32 / n
    let ps := (upto (k * i) k).map fun j => laneVal n (isN r) (lane n x j) * laneVal n (isN r) (lane n y j)
    reduce 32 false sat (ps.foldl (· + ·) (sgn 32 acc))

def execVdot (d a b : BitVec 5) (f m : BitVec 3) (r : BitVec 2) (s_ : BitVec 1) (s : State) : Res :=
  onPanel (fun p =>
    p.laneOp 32 d [a, b, d] m fun p i => vdotLane f r (s_ == 1) (p.vec a.toNat) (p.vec b.toNat) (p.vec d.toNat) i) s

/-! ### Masks (R349) -/

/-- A lane is non-zero: for floating point, any bit other than its sign (R349). -/
def laneNonzero (f : BitVec 3) (x : Nat) : Bool := if isFp f then x % 2 ^ (laneBits f.toNat - 1) != 0 else x != 0

def execMset (d : BitVec 3) (a : BitVec 5) (f : BitVec 3) (s : State) : Res :=
  onPanel (fun p =>
    let n := laneBits f.toNat
    p.views [(a.toNat, 1)] fun p =>
      (p.updC fun k => k.setM d.toNat (maskOf (512 / n) fun i => laneNonzero f (lane n (p.vec a.toNat) i))).fin) s

/-- A word on masks alone; a migrated thread first returns home (R333, R349). -/
def maskOp (d : BitVec 3) (v : Panel → W) (s : State) : Res :=
  onPanel (fun p => p.atHome fun p => (p.updC fun k => k.setM d.toNat (v p)).fin) s

def execMand (d a b : BitVec 3) (s : State) : Res := maskOp d (fun p => p.mv a &&& p.mv b) s
def execMor (d a b : BitVec 3) (s : State) : Res := maskOp d (fun p => p.mv a ||| p.mv b) s
def execMnot (d a : BitVec 3) (s : State) : Res := maskOp d (fun p => ~~~(p.mv a)) s

/-! ### Vector memory (R334-R338) -/

/-- The number of a vector from its high bit and the d field (R334). -/
def vnum (v : BitVec 1) (d : BitVec 4) : Nat := 16 * v.toNat + d.toNat

/-- Distinct aligned 64-byte groups, or distinct words, that byte ranges touch (R84). -/
def distinctUnits (unit : Nat) (rs : List (Nat × Nat)) : Nat :=
  ((rs.map fun r => upto (r.1 / unit) ((r.1 + r.2 - 1) / unit - r.1 / unit + 1)).flatten.eraseDups).length

/-- A vector access to local memory by its items: the cost, whether it stores, its data or its destination (R335-R338). -/
def Panel.vecLocal (p : Panel) (store : Bool) (va size core : Nat) (mesh : Bool) (its : List Item) (cost data : Nat) (dest : Dest) :
    Panel :=
  if !mesh ∧ its.any (fun i => p.meshOpen store core (i.bit / 8) ((i.bit % 8 + i.w + 7) / 8)) then p.retry
  else if !mesh then
    let q := if store then p.writeItems core its data
      else
        match dest with
        | .vec x => { p with mem := Memory.writeN p.mem x 64 (readItems p.mem core its) }
        | .lanes x =>
          let v := readItems p.mem core its
          { p with mem := its.foldl (fun m i => Memory.writeBits m (8 * x + i.pos) i.pw (bf v (i.pos + i.pw - 1) i.pos)) p.mem }
        | .none => p
        | .g _ => p
        | .sh _ => p
        | .tile _ => p
    (q.untrack.bankGap cost).fin
  else if store ∧ ¬ p.roomS ∨ ¬ store ∧ ¬ p.roomL then p.retry
  else
    (p.trackTo core true).issueFin { mkAcc (if store then .vstore else .vload) (if store then .stores else .loads) va size with
      dest := dest, data := data, target := core, items := its, after := p.afterMesh false va size core }

/-- VLD and VST (R334, R335). -/
def Panel.vmem (p : Panel) (store : Bool) (v : Nat) (a b : Reg) (h : BitVec 3) : Panel :=
  p.views [(v, 1)] fun p => p.memory fun p =>
    let ea := eaIdx (p.gv a) (p.gv b) h.toNat
    let x := vecAddr p p.src v
    let data := if store then (p.vec v).toNat else 0
    match place p p.src ea 64 with
    | .bad c => p.trap c (w64 ea)
    | .paged =>
      if store then p.pagedStore { mkAcc .vstore .stores ea 64 with data := data }
      else p.pagedLoad { mkAcc .vload .loads ea 64 with dest := .vec x, ring := v } fun w q => { q with mem := Memory.writeN q.mem x 64 w }
    | .lm t off mesh => p.vecLocal store ea 64 t mesh [⟨512, 8 * off, 0, 512, false⟩] (groupsTouched off 64) data (.vec x)

def execVld (d a b : Reg) (h : BitVec 3) (v : BitVec 1) (s : State) : Res := onPanel (fun p => p.vmem false (vnum v d) a b h) s
def execVst (d a b : Reg) (h : BitVec 3) (v : BitVec 1) (s : State) : Res := onPanel (fun p => p.vmem true (vnum v d) a b h) s

/-- What VLDB's header check finds: a trap cause, or none (R63, R336). -/
def headerBad (code : Nat) : Option Nat := if code = 0xFF then some 0x33 else if fmtBits code = 0 then some 0x09 else none

/-- VLDB (R336): the thread issues no bundle until the header has been checked. -/
def Panel.vldb (p : Panel) (v : Nat) (a b : Reg) (h : BitVec 3) : Panel :=
  p.views [(v, 1)] fun p => p.memory fun p =>
    let ea := eaIdx (p.gv a) (p.gv b) h.toNat
    let x := vecAddr p p.src v
    let put := fun (q : Panel) (w : Nat) =>
      match headerBad (w % 256) with
      | some c => q.trap c (w64 ea)
      | none => ({ q with mem := Memory.writeN q.mem x 64 w }).fin
    if ea % 64 ≠ 0 then p.trap 0x03 (w64 ea)
    else
    match place p p.src ea 64 with
    | .bad c => p.trap c (w64 ea)
    | .paged =>
        p.strict ea 64 1 fun p =>
          if !p.roomL then p.retry
          else
            let p := p.l1Check p.cur.core ea 64
            match l1Find (p.core (l1Core p p.cur.core ea)).l1d (ea / 64) p.cb.part p.cb.asid with
            | some l =>
              if p.pendingBytes p.cur.core p.cur.slot ea 64 ∨ p.loadOpen p.cur.core p.cur.slot ea 64 then p.retry
              else if !bt l.attr 4 then p.trap 0x09 (w64 ea)
              else put p l.data.toNat
            | none =>
              let a : Access := { mkAcc .fmtLoad .loads ea 64 with dest := .vec x, ring := v, fill := 1, after := p.afterOf false ea 64 }
              p.regions a fun p => p.issueFin a fun q => q.stallFor .header
    | .lm t off mesh =>
      if !mesh then if p.meshOpen false t off 64 then p.retry else put (p.untrack.bankGap (groupsTouched off 64)) (p.lmRead t off 64)
      else if !p.roomL then p.retry
      else
        (p.trackTo t true).issueFin { mkAcc .fmtLoad .loads ea 64 with
          dest := .vec x, target := t, items := [⟨512, 8 * off, 0, 512, false⟩], after := p.afterMesh false ea 64 t } fun q => q.block_ .remote

def execVldb (d a b : Reg) (h : BitVec 3) (v : BitVec 1) (s : State) : Res := onPanel (fun p => p.vldb (vnum v d) a b h) s

/-- The place of a lane of a gather or scatter: in the same core's window as the base, and inside the bound of the base, which is the block's window
but for an absolute address of S level (R36, R337). -/
def gatherPlace (p : Panel) (a ea n : Nat) : Place :=
  let b := p.cb
  let raw := regionOf a == .mesh && bt a 34 && p.slevel
  match place p p.src a 1, place p p.src ea n with
  | .lm t _ m, .lm u off k =>
    if t = u ∧ m = k ∧ (raw ∨ (b.lmBase * 1024 ≤ off ∧ off + n ≤ (b.lmBase + b.lmSize) * 1024)) then .lm u off k else .bad 0x03
  | _, .bad c => .bad c
  | .bad c, _ => .bad c
  | _, _ => .bad 0x03

/-- The lowest failing lane: its address and cause. -/
def gatherBad (p : Panel) (a n : Nat) : List (Nat × Nat) → Option (Nat × Nat)
  | [] => none
  | (_, ea) :: t =>
    match gatherPlace p a ea n with
    | .bad c => some (ea, c)
    | .paged => some (ea, 0x03)
    | .lm .. => gatherBad p a n t

/-- VLDX and VSTX (R337). -/
def Panel.gather (p : Panel) (store : Bool) (v vi : Nat) (a : Reg) (m : BitVec 3) (f : BitVec 3) : Panel :=
  p.views [(v, 1), (vi, 1)] fun p =>
    p.apart (v, 1) (if store then [] else [(vi, 1)]) fun p => p.memory fun p =>
      let n := laneBits f.toNat
      let base := (p.gv a).toNat
      let idx := p.vec vi
      let act := ((List.range (512 / n)).filter fun i => bt (p.mv m).toNat i).map fun i =>
        (i, (w64 base + w64 (lane n idx i * (n / 8))).toNat)
      let x := vecAddr p p.src v
      match gatherBad p base (n / 8) act with
      | some e => p.trap e.2 (w64 e.1)
      | none =>
        match place p p.src base 1 with
        | .bad c => if act = [] then p.trap c (w64 base) else p.trap 0x03 (w64 base)
        | .paged => p.trap 0x03 (w64 base)
        | .lm t off0 mesh =>
          let its := act.filterMap fun e =>
            match place p p.src e.2 (n / 8) with
            | .lm _ off _ => some (⟨n, 8 * off, n * e.1, n, false⟩ : Item)
            | .bad _ => none
            | .paged => none
          if act = [] then p.vecLocal store base 1 t mesh [⟨0, 8 * off0, 0, 0, false⟩] 1 0 .none
          else
            p.vecLocal store base (n / 8) t mesh its (max 1 (distinctUnits 64 (its.map fun i => (i.bit / 8, n / 8))))
              (if store then (p.vec v).toNat else 0) (.lanes x)

def execVldx (d a b : Reg) (m f : BitVec 3) (i v : BitVec 1) (s : State) : Res :=
  onPanel (fun p => p.gather false (vnum v d) (vnum i b) a m f) s
def execVstx (d a b : Reg) (m f : BitVec 3) (i v : BitVec 1) (s : State) : Res :=
  onPanel (fun p => p.gather true (vnum v d) (vnum i b) a m f) s

/-- A bit-vector control value that keeps the table of R338. -/
def bitCtlOk (b : Nat) (store : Bool) : Bool :=
  let lw := 8 * 2 ^ bf b 9 8
  bf b 31 23 == 0 && bf b 15 10 == 0 && !bt b 7 && (!store || !bt b 6) &&
    1 ≤ bf b 22 16 && bf b 22 16 ≤ 512 / lw && bf b 5 0 + 1 ≤ lw

/-- VLDBT and VSTBT (R338). -/
def Panel.bitVec (p : Panel) (store : Bool) (v : Nat) (a b : Reg) : Panel :=
  p.views [(v, 1)] fun p => p.memory fun p =>
    let ba := (p.gv a).toNat
    let ctl := (p.gv b).toNat
    let w := bf ctl 5 0 + 1
    let lw := 8 * 2 ^ bf ctl 9 8
    let stride := bf ctl 63 32
    let c := bf ctl 22 16
    let total := (c - 1) * stride + w
    if !bitCtlOk ctl store then p.trap 0x03 (w64 ctl)
    else
      match placeBits p p.src ba total with
      | .bad e => p.trap e (w64 (if bf ba 63 58 ≠ 0 then ba else ba / 8))
      | .paged => p.trap 0x03 (w64 (ba / 8))
      | .lm t off mesh =>
        let its := (List.range c).map fun i => (⟨w, 8 * off + ba % 8 + i * stride, lw * i, lw, bt ctl 6⟩ : Item)
        p.vecLocal store (ba / 8) ((ba + total - 1) / 8 - ba / 8 + 1) t mesh its
          (distinctUnits 64 (its.map fun i => (i.bit, w))) (if store then (p.vec v).toNat else 0) (.vec (vecAddr p p.src v))

def execVldbt (d a b : Reg) (v : BitVec 1) (s : State) : Res := onPanel (fun p => p.bitVec false (vnum v d) a b) s
def execVstbt (d a b : Reg) (v : BitVec 1) (s : State) : Res := onPanel (fun p => p.bitVec true (vnum v d) a b) s

end Sys2Proof.Machine
end

