-- ==== Sys2Proof/Machine/Convert.lean ====
section
/-! DEFINITION. Conversions between lane formats and described blocks (R350-R354). -/

namespace Sys2Proof.Machine

/-- An element converted (R57, R58, R351). -/
def convElem (src : Nat) (srcN : Bool) (dst : Nat) (dstN : Bool) (mode : Nat) (sat : Bool) (x : Nat) : Nat :=
  if src < 4 then
    if dst < 4 then pack (fpFmt dst) mode (unpack (fpFmt src) x)
    else fpToInt (laneBits dst) dstN sat mode (unpack (fpFmt src) x)
  else
    let v := laneVal (laneBits src) srcN x
    if dst < 4 then pack (fpFmt dst) mode (ofIntVal v) else reduce (laneBits dst) dstN sat v

/-- Where element j of the wide side sits: vector of the group and lane (R351). -/
def widePlace (packed : Bool) (N k j : Nat) : Nat × Nat := if packed then (j % k, j / k) else (j / (N / k), j % (N / k))

/-- Vectors written one after another from a group's first vector. -/
def Panel.putGroup (p : Panel) (d : Nat) : List Line → Panel
  | [] => p
  | v :: t => Panel.putGroup (p.putVec d v) (d + 1) t

/-- VCVT, VPACK and VUNPK: `packed` is the interleaved order (R351). -/
def Panel.convert (p : Panel) (packed : Bool) (d a : Nat) (b : BitVec 5) (f m : BitVec 3) (r : BitVec 2) (sat : Bool) : Panel :=
  let src := b.toNat % 8
  let dst := f.toNat
  let ws := laneBits src
  let wd := laneBits dst
  let N := 512 / min ws wd
  let k := max ws wd / min ws wd
  let gs := if wd < ws then k else 1
  let gd := if ws < wd then k else 1
  p.views [(d, gd), (a, gs)] fun p =>
    p.apart (d, gd) [(a, gs)] fun p =>
      let srcV := (List.range gs).map fun i => p.vec (a + i)
      let elem := fun j =>
        let q := if gs = 1 then (0, j) else widePlace packed N k j
        lane ws (srcV.getD q.1 0) q.2
      let mask := p.mv m
      let val := fun j => convElem src (bt b.toNat 3) dst (bt b.toNat 4) r.toNat sat (elem j)
      let outV := (List.range gd).map fun g =>
        BitVec.ofNat 512 (ofLanes wd ((List.range (512 / wd)).map fun l =>
          let j := if gd = 1 then l else if packed then l * k + g else g * (N / k) + l
          if j < N && bt mask.toNat j then val j else lane wd (p.vecNow (d + g)) l))
      ((p.putGroup d outV).rsGap (gs + gd)).fin

def execVcvt (d a b : BitVec 5) (f m : BitVec 3) (r : BitVec 2) (s_ : BitVec 1) (s : State) : Res :=
  onPanel (fun p => p.convert false d.toNat a.toNat b f m r (s_ == 1)) s
def execVpack (d a b : BitVec 5) (f m : BitVec 3) (r : BitVec 2) (s_ : BitVec 1) (s : State) : Res :=
  onPanel (fun p => p.convert true d.toNat a.toNat b f m r (s_ == 1)) s
def execVunpk (d a b : BitVec 5) (f m : BitVec 3) (r : BitVec 2) (s_ : BitVec 1) (s : State) : Res :=
  onPanel (fun p => p.convert true d.toNat a.toNat b f m r (s_ == 1)) s

/-- VQNT: the FP32 group quantised into one block (R352). -/
def execVqnt (d a b : BitVec 5) (r : BitVec 2) (_ : BitVec 1) (s : State) : Res :=
  onPanel (fun p =>
    let code := if bt b.toNat 4 then 0x08 else 0x10 + b.toNat % 16
    let c := fmtCount code
    let k := cdiv c 16
    p.views [(d.toNat, 1), (a.toNat, k)] fun p =>
      p.apart (d.toNat, 1) [(a.toNat, k)] fun p =>
        let xs := (List.range c).map fun i => unpack (fpFmt 1) (lane 32 (p.vec (a.toNat + i / 16)) (i % 16))
        ((p.putVec d.toNat (BitVec.ofNat 512 (quantise r.toNat code xs))).rsGap (k + 1)).fin) s

/-- TVAL of a FORMAT_FAULT on a vector: bytes 1:0 (R353). -/
def headTval (v : Line) : W := w64 (v.toNat % 65536)

/-- The FP32 value of an element of a described block: INT8 and BFP codes are exact or overflow to an infinity in every mode
(R71); of the FP codes only FP64 rounds (R353). -/
def dequant (code scale mode raw : Nat) : Nat := pack (fpFmt 1) (if code = 0x01 then mode else 0) (elemVal code scale raw)

/-- VDQNT: the group's size comes from the header (R353). -/
def execVdqnt (d a : BitVec 5) (r : BitVec 2) (_ : BitVec 1) (s : State) : Res :=
  onPanel (fun p =>
    p.views [(a.toNat, 1), (d.toNat, 1)] fun p =>
      let v := p.vec a.toNat
      let code := v.toNat % 256
      if fmtBits code = 0 then p.trap 0x09 (headTval v)
      else
        let c := fmtCount code
        let k := cdiv c 16
        p.views [(d.toNat, k)] fun p =>
          p.apart (d.toNat, k) [(a.toNat, 1)] fun p =>
            let val := fun i => if i < c then dequant code (bf v.toNat 15 8) r.toNat (blockElem v i) else 0
            let outV := (List.range k).map fun g => BitVec.ofNat 512 (ofLanes 32 ((List.range 16).map fun l => val (16 * g + l)))
            ((p.putGroup d.toNat outV).rsGap (k + 1)).fin) s

/-- VRSCALE (R354). -/
def execVrscale (d a : BitVec 5) (b : Reg) (r : BitVec 2) (_ : BitVec 1) (s : State) : Res :=
  onPanel (fun p =>
    p.views [(d.toNat, 1), (a.toNat, 1)] fun p =>
      p.apart (d.toNat, 1) [(a.toNat, 1)] fun p =>
        let v := p.vec a.toNat
        let code := v.toNat % 256
        if code ≠ 0x08 ∧ ¬ isBfp code then p.trap 0x09 (headTval v)
        else
          let ms := (List.range (fmtCount code)).map (blockElem v)
          (p.putVec d.toNat (BitVec.ofNat 512 (rescale r.toNat code (bf v.toNat 15 8) ((p.gv b).toNat % 256) ms))).fin) s

end Sys2Proof.Machine
end

