-- ==== Sys2Proof/Machine/Tile.lean ====
section
/-! DEFINITION. Shape registers, view registers, tile loads and stores (R357-R362). -/

namespace Sys2Proof.Machine

/-! ### Shape registers (R357, R358) -/

/-- SHLD and SHST: a 64-byte aligned access (R357); SHLD through the mesh window is a remote word load, which a handler may not issue (R220). -/
def Panel.shapeMem (p : Panel) (store : Bool) (r a : Reg) : Panel :=
  p.atHome fun p => p.memory fun p =>
    let va := (p.gv a).toNat
    let data := if store then (p.src.shape r.toNat).toNat else 0
    if bf va 63 55 ≠ 0 then p.trap 0x03 (w64 va)
    else if va % 64 ≠ 0 then p.trapW 0x04
    else
      match place p p.src va 64 with
      | .bad c => p.trap c (w64 va)
      | .paged =>
        if store then p.pagedStore { mkAcc .vstore .stores va 64 with data := data }
        else p.pagedLoad { mkAcc .shLoad .loads va 64 with dest := .sh r.toNat } fun w q =>
          q.updC fun c => c.setSh r.toNat (BitVec.ofNat 512 w)
      | .lm t off mesh =>
        let its : List Item := [⟨512, 8 * off, 0, 512, false⟩]
        if !mesh then
          if p.meshOpen store t off 64 then p.retry
          else
            let q := p.untrack
            let q := if store then q.writeItems t its data
              else q.updC fun c => c.setSh r.toNat (BitVec.ofNat 512 (readItems p.mem t its))
            (q.bankGap (groupsTouched off 64)).fin
        else if ¬ store ∧ p.isHandler then p.handlerBlock
        else if store ∧ ¬ p.roomS ∨ ¬ store ∧ ¬ p.roomL then p.retry
        else
          (p.trackTo t true).issueFin { mkAcc (if store then .vstore else .shLoad) (if store then .stores else .loads) va 64 with
            dest := if store then .none else .sh r.toNat, data := data, target := t, items := its
            after := p.afterMesh false va 64 t }

def execShld (s_ a : Reg) (s : State) : Res := onPanel (fun p => p.shapeMem false s_ a) s
def execShst (s_ a : Reg) (s : State) : Res := onPanel (fun p => p.shapeMem true s_ a) s

/-- A field of a shape record replaced by the low bits of a value (R358). -/
def setField (s : Line) (f v : Nat) : Line := BitVec.ofNat 512 (putBits s.toNat (shField f).1 (shField f).2 v)

/-- A field of a shape record; ACCEXP is sign-extended (R358). -/
def getField (s : Line) (f : Nat) : W :=
  let v := bf s.toNat (shField f).1 (shField f).2
  if f = 16 then sext64 16 v else w64 v

/-- SHSET: ACCEXP takes sext(imm8) (R358). -/
def execShset (s_ : Reg) (i : BitVec 8) (f : BitVec 5) (s : State) : Res :=
  onPanel (fun p => p.atHome fun p =>
    let v := if f.toNat = 16 then (i.signExtend 16).toNat else i.toNat
    (p.updC fun c => c.setSh s_.toNat (setField (c.shape s_.toNat) f.toNat v)).fin) s

def execShsetg (s_ b : Reg) (f : BitVec 5) (s : State) : Res :=
  onPanel (fun p => p.atHome fun p =>
    let v := (p.gv b).toNat
    (p.updC fun c => c.setSh s_.toNat (setField (c.shape s_.toNat) f.toNat v)).fin) s

def execShget (s_ a : Reg) (f : BitVec 5) (s : State) : Res :=
  onPanel (fun p => p.atHome fun p => (p.putG a (getField (p.src.shape s_.toNat) f.toNat)).fin) s

/-! ### View registers (R237, R359) -/

/-- Number of views that a value of a view register maps. -/
def viewCount (view v : Nat) : Nat :=
  match view with | 0 => bf v 15 10 | 1 => bf v 19 16 | _ => bf v 14 11

/-- VWSET: a value that R237 refuses raises VIEW_FAULT and changes nothing. -/
def execVwset (a : Reg) (w : BitVec 2) (s : State) : Res :=
  onPanel (fun p => p.atHome fun p =>
    let v := (p.gv a).toNat
    let view := w.toNat
    if !viewOk p.cc p.cb.hoop view v ∨ (noViews p ∧ viewCount view v ≠ 0) then p.trapW 0x06
    else
      let x := w64 (v % viewMask view)
      (p.updC fun c =>
        match view with
        | 0 => { c with vv := x }
        | 1 => { c with tv := x }
        | _ => { c with av := x }).fin) s

def execVwget (d : Reg) (w : BitVec 2) (s : State) : Res :=
  onPanel (fun p => p.atHome fun p =>
    (p.putG d (match w.toNat with | 0 => p.src.vv | 1 => p.src.tv | _ => p.src.av)).fin) s

/-! ### Tile loads and stores (R360-R362) -/

/-- A tile's origin from the two operand registers (R360). -/
def orgI0 (a : W) : Nat := bf a.toNat 31 0
def orgI1 (a : W) : Nat := bf a.toNat 63 32

/-- Where bytes of a tensor are: a window offset with RES = 1, else a local virtual address (R361). -/
def tensorPlace (p : Panel) (c : Ctx) (s : Line) (byte size : Nat) : Place :=
  if shRes s = 1 then privPlace p c byte size
  else match place p c byte size with
    | .paged => .bad 0x03
    | x => x

/-- Bit address, in the one memory, of a byte and bit of a tensor already checked. -/
def tensorBit (p : Panel) (c : Ctx) (s : Line) (bit : Nat) : Nat :=
  match tensorPlace p c s (bit / 8) 1 with
  | .lm t off _ => 8 * lmA t off + bit % 8
  | .paged => 0
  | .bad _ => 0

/-- First and last byte of the elements i0 .. i0 + n - 1 of a row: under a swizzle, those of the granule that comes to lie lowest and of the
one that comes to lie highest (R37, R242). -/
def rowEnds (s : Line) (i0 n i1 i2 i3 : Nat) : Nat × Nat :=
  if shDesc s then (blockAddr s i0 i1 i2 i3, blockAddr s (i0 + n - 1) i1 i2 i3 + 63)
  else
    let lo := elemBit s i0 i1 i2 i3 / 8
    let hi := fun (j : Nat) => (elemBit s (i0 + j) i1 i2 i3 + shEbits s - 1) / 8
    if shSwz s = 0 then (lo, hi (n - 1))
    else
      (List.range n).foldl (fun (e : Nat × Nat) j => (min e.1 (elemBit s (i0 + j) i1 i2 i3 / 8), max e.2 (hi j))) (lo, hi 0)

/-- The check of R37 on the first and last byte of a row: a cause and the address of its first byte (R36), or none. -/
def rowBad (p : Panel) (c : Ctx) (s : Line) (e : Nat × Nat) : Option (Nat × Nat) :=
  match tensorPlace p c s e.1 1, tensorPlace p c s e.2 1 with
  | .lm t _ m, .lm u _ k => if t = u ∧ m = k then none else some (0x03, e.1)
  | .bad x, _ => some (x, e.1)
  | _, .bad x => some (x, e.1)
  | _, _ => some (0x03, e.1)

/-- The first row of a list that fails R37. -/
def rowsBad (p : Panel) (c : Ctx) (s : Line) : List (Nat × Nat) → Option (Nat × Nat)
  | [] => none
  | e :: t =>
    match rowBad p c s e with
    | some x => some x
    | none => rowsBad p c s t

/-- The rows of a tile that lie inside the extents, each with its ends. -/
def tileRows (s : Line) (a b : W) : List (Nat × Nat) :=
  let i0 := orgI0 a
  let i1 := orgI1 a
  let i2 := orgI0 b
  let i3 := orgI1 b
  let n := min (shCols s) (shExt s 0 - i0)
  if n = 0 ∨ shExt s 2 ≤ i2 ∨ shExt s 3 ≤ i3 then []
  else (List.range (min (shRows s) (shExt s 1 - i1))).map fun r => rowEnds s i0 n (i1 + r) i2 i3

/-- Bits of a tile in its view. -/
def tileBits (s : Line) : Nat :=
  if shDesc s then shRows s * (shCols s / fmtCount (shFmt s)) * 512 else shRows s * shCols s * shEbits s

/-- A tile lies wholly inside the extents. -/
def tileInside (s : Line) (a b : W) : Bool :=
  orgI0 a + shCols s ≤ shExt s 0 && orgI1 a + shRows s ≤ shExt s 1 && orgI0 b < shExt s 2 && orgI1 b < shExt s 3

/-- The run tracker after a tile operation: its tensor names the home core's window, or the core of its base (R98). -/
def Panel.tileTrack (p : Panel) (c : Ctx) (s : Line) : Panel :=
  match tensorPlace p c s (shBase s) 1 with
  | .lm t _ mesh => p.trackTo t mesh
  | .paged => p
  | .bad _ => p

/-- A tile instruction: 0 TLD, 1 TST, 2 TLDT, 3 TSTT (R360-R362). -/
def Panel.tileIssue (p : Panel) (sub : Nat) (r : Reg) (a b : W) (t : BitVec 3) : Panel :=
  p.atHome fun p => p.memory fun p =>
    let c := p.src
    let s := c.shape r.toNat
    if noViews p ∨ tileCount c ≤ t.toNat then p.trapW 0x06
    else if !shapeOk s then p.trapW 0x08
    else if shDesc s ∧ (2 ≤ sub ∨ shCols s % fmtCount (shFmt s) ≠ 0 ∨ orgI0 a % fmtCount (shFmt s) ≠ 0) then p.trapW 0x08
    else if 8 * tileSize c < tileBits s then p.trapW 0x06
    else if !shClamp s ∧ !tileInside s a b then p.trapW 0x08
    else if shRes s = 0 ∧ (regionOf (shBase s) = .paged ∨ regionOf (shBase s) = .none) then p.trap 0x03 (w64 (shBase s))
    else
      match rowsBad p c s (tileRows s a b) with
      | some e => p.trap e.1 (w64 e.2)
      | none =>
        if !p.roomT then p.retry
        else
          let groups := cdiv (tileBits s) 512
          let o : TileOp := { slot := p.cur.slot, btag := p.cc.btag, sub := sub, shape := s, orgA := a, orgB := b, rsOff := rsWin p.cur.core c (tileOff c t.toNat)
                              rsLen := tileSize c, due := p.now + groups, num := p.nid }
          ((({ p with nid := p.nid + 1 }.tileTrack c s).updCore p.cur.core fun k => { k with tiles := k.tiles ++ [o] }).incT.later
              groups .tileOpComplete [p.cur.core, p.cur.slot]).fin

def execTld (s_ a b : Reg) (t : BitVec 3) (s : State) : Res := onPanel (fun p => p.tileIssue 0 s_ (p.gv a) (p.gv b) t) s
def execTst (s_ a b : Reg) (t : BitVec 3) (s : State) : Res := onPanel (fun p => p.tileIssue 1 s_ (p.gv a) (p.gv b) t) s
def execTldt (s_ a b : Reg) (t : BitVec 3) (s : State) : Res := onPanel (fun p => p.tileIssue 2 s_ (p.gv a) (p.gv b) t) s
def execTstt (s_ a b : Reg) (t : BitVec 3) (s : State) : Res := onPanel (fun p => p.tileIssue 3 s_ (p.gv a) (p.gv b) t) s

/-! ### A tile operation performed -/

/-- View coordinates of element number `i` of a view of `C` columns, as tensor offsets (di0, di1) (R360). -/
def tileOffs (sub C i : Nat) : Nat × Nat := if sub < 2 then (i % C, i / C) else (i / C, i % C)

/-- A zero block of a format code (R361). -/
def zeroBlock (code : Nat) : Nat := code

/-- A unit of a tile: an element, or a block in described layout. -/
def tileUnit (s : Line) : Nat := if shDesc s then 512 else shEbits s

/-- The units of a tile in view order: tensor coordinates (i0, i1) (R360). -/
def TileOp.units (o : TileOp) : List (Nat × Nat) :=
  let s := o.shape
  let at_ := fun (d : Nat × Nat) => (orgI0 o.orgA + d.1, orgI1 o.orgA + d.2)
  if shDesc s then
    let n := fmtCount (shFmt s)
    let k := shCols s / n
    (List.range (shRows s * k)).map fun i => at_ (i % k * n, i / k)
  else
    let C := if o.sub < 2 then shCols s else shRows s
    (List.range (shRows s * shCols s)).map fun i => at_ (tileOffs o.sub C i)

/-- A unit inside the extents (R361). -/
def TileOp.inside (o : TileOp) (i : Nat × Nat) : Bool :=
  i.1 < shExt o.shape 0 && i.2 < shExt o.shape 1 && orgI0 o.orgB < shExt o.shape 2 && orgI1 o.orgB < shExt o.shape 3

/-- First bit of a unit in the tensor. -/
def TileOp.bit (o : TileOp) (i : Nat × Nat) : Nat :=
  if shDesc o.shape then 8 * blockAddr o.shape i.1 i.2 (orgI0 o.orgB) (orgI1 o.orgB) else elemBit o.shape i.1 i.2 (orgI0 o.orgB) (orgI1 o.orgB)

/-- The units inside the extents: core, whether through the mesh window, and the item, whose place in the data is that in the view. -/
def TileOp.items (p : Panel) (c : Ctx) (o : TileOp) : List (Nat × Bool × Item) :=
  let n := tileUnit o.shape
  ((List.range o.units.length).zip o.units).filterMap fun e =>
    if !o.inside e.2 then none
    else
      match tensorPlace p c o.shape (o.bit e.2 / 8) 1 with
      | .lm t off mesh => some (t, mesh, ⟨n, 8 * off + o.bit e.2 % 8, n * e.1, n, false⟩)
      | .paged => none
      | .bad _ => none

/-- The view bits of the units outside: zero, or zero blocks (R361). -/
def TileOp.outside (o : TileOp) : Nat :=
  if !shDesc o.shape then 0
  else ((List.range o.units.length).zip o.units).foldl (fun v e => if o.inside e.2 then v else v + zeroBlock (shFmt o.shape) * 2 ^ (512 * e.1)) 0

/-- Described TLD: blocks copied in order until a bad header (R63, R361): the memory, and the unit of a poison block that was met. At a reserved or
mismatched code the load stops with no fault and no status, and the bytes of the view that it has not reached stay: R63 and R360 name no form for a
tile load (log 61, DESIGN CHOICE). -/
def loadBlocks (o : TileOp) (v : Nat) : Nat → Nat → Memory → Memory × Option Nat
  | 0, _, m => (m, none)
  | k + 1, i, m =>
    let blk := bf v (512 * i + 511) (512 * i)
    if blk % 256 = 0xFF then (m, some i)
    else if fmtCount (blk % 256) ≠ fmtCount (shFmt o.shape) then (m, none)
    else loadBlocks o v k (i + 1) (Memory.writeN m (o.rsOff + 64 * i) 64 blk)

/-- The bits of a tile written to its view: bits beyond the tile read as 0 (R360). The register-space bytes are those fixed at issue (R238). -/
def Panel.tileLoad (p : Panel) (lc : Nat) (o : TileOp) (v : Nat) : Panel :=
  let s := o.shape
  if shDesc s then
    let r := loadBlocks o v o.units.length 0 (Memory.clear p.mem (o.rsOff + tileBits s / 8) (o.rsLen - tileBits s / 8))
    let q := { p with mem := r.1 }
    match r.2 with
    | some i => q.fatalAt lc 0x33 (w64 (o.bit (o.units.getD i (0, 0)) / 8))
    | none => q
  else { p with mem := Memory.writeN p.mem o.rsOff o.rsLen v }

/-- A tile operation's bytes moved through the array port of the home core (R360-R362). -/
def Panel.tileMove (p : Panel) (lc : Nat) (o : TileOp) : Panel :=
  let its := o.items p (p.ctx lc o.slot)
  if o.sub % 2 = 0 then
    p.tileLoad lc o (its.foldl (fun v e => v ||| readItems p.mem e.1 [e.2.2]) o.outside)
  else
    let v := Memory.readN p.mem o.rsOff o.rsLen
    its.foldl (fun q e => q.writeItems e.1 [e.2.2] v) p

/-- Items of one core that lie in one 64-byte group and follow one another, taken together (R362). -/
def tileGroups : List (Nat × Bool × Item) → List (Nat × List Item)
  | [] => []
  | (t, _, i) :: rest =>
    match tileGroups rest with
    | (u, j :: js) :: gs => if t = u ∧ i.bit / 512 = j.bit / 512 then (t, i :: j :: js) :: gs else (t, [i]) :: (u, j :: js) :: gs
    | gs => (t, [i]) :: gs

/-- One group of a tile operation sent through the mesh window as an access that no counter of the thread counts (R94, R362). -/
def Panel.tileSend (p : Panel) (lc : Nat) (o : TileOp) (v : Nat) (g : Nat × List Item) : Panel :=
  let store := o.sub % 2 = 1
  let a : Access := { mkAcc (if store then .vstore else .vload) .none (shBase o.shape) (cdiv (g.2.foldl (fun n i => n + i.w) 0) 8) with
    id := p.nid, core := lc, slot := o.slot, btag := o.btag, target := g.1, items := g.2, dest := .tile o.num, data := if store then v else 0
    stage := .out }
  { p with nid := p.nid + 1, accs := SMap.set p.accs p.nid a }.send lc g.1 (.access p.nid)

/-- The operation leaves its counter (R263). -/
def Panel.tileEnd (p : Panel) (lc : Nat) (o : TileOp) : Panel :=
  (p.updCore lc fun k => { k with tiles := k.tiles.filter fun x => x.num != o.num }).decT lc o.slot

/-- The last group of an operation in the mesh window has been answered: a load fills its view (R360). -/
def Panel.tileFinish (p : Panel) (lc : Nat) (o : TileOp) : Panel :=
  (if o.sub % 2 = 0 then p.tileLoad lc o (o.got ||| o.outside) else p).tileEnd lc o

/-- A group of an operation in the mesh window has been answered. -/
def Panel.tileAnswer (p : Panel) (a : Access) : Panel :=
  match a.dest with
  | .tile n =>
    let p1 := p.updCore a.core fun c => { c with tiles := c.tiles.map fun o => if o.num == n then { o with left := o.left - 1 } else o }
    (match (p1.core a.core).tiles.find? fun o => o.num == n with
    | some o => if o.left = 0 then p1.tileFinish a.core o else p1
    | none => p1)
  | .none => p | .g _ => p | .vec _ => p | .lanes _ => p | .sh _ => p

/-- TILE_OP_COMPLETE: the oldest operation of a slot that is due moves its bytes and leaves its counter (R263, R362), or goes to the arrival FIFOs
of the cores that its tensor names through the mesh window (R94); those numbered 4, OSAVE and OREST, have moved theirs already (R410, R411). -/
def execTileOpComplete (s : State) : Res :=
  onPanel (fun p =>
    let lc := p.arg 0
    let slot := p.arg 1
    match (p.core lc).tiles.find? fun o => o.slot == slot && o.due ≤ p.now && !o.sent with
    | none => p
    | some o =>
      if 4 ≤ o.sub then p.tileEnd lc o
      else
        let its := o.items p (p.ctx lc slot)
        if its.any fun e => e.2.1 then
          let gs := tileGroups its
          let p1 := p.updCore lc fun k => { k with tiles := k.tiles.map fun x => if x.num == o.num then { x with sent := true, left := gs.length } else x }
          gs.foldl (fun q g => q.tileSend lc o (Memory.readN p.mem o.rsOff o.rsLen) g) p1
        else ((p.bankCharge lc o.btag (cdiv (tileBits o.shape) 512)).tileMove lc o).tileEnd lc o) s

end Sys2Proof.Machine
end

