-- ==== Sys2Proof/Machine/Hoop.lean ====
section
/-! DEFINITION. The Hoop matrix array: leases, commands at issue, commands performed, accumulator views (R73-R77, R363-R376). -/

namespace Sys2Proof.Machine

/-! ### Leases (R365-R368) -/

/-- A Hoop instruction needs the launch's `hoop` flag (R364); a migrated thread returns home first. -/
def Panel.hoopGate (p : Panel) (k : Panel → Panel) : Panel := p.atHome fun p => if !p.cb.hoop then p.illegal else k p

/-- HLEASE waits at a blocking point for the grant (R365). -/
def execHlease (a : Reg) (n : BitVec 6) (s : State) : Res :=
  onPanel (fun p => p.hoopGate fun p =>
    if p.isHandler then p.handlerBlock
    else
      let g := (p.gv a).toNat
      let c := if 1 ≤ g ∧ g ≤ 65536 then g else 65536
      let cl := clusterOf p.cur.core
      let p1 := if p.holds p.cur.core p.cur.slot then p.freeLease cl else p
      ((p1.updCluster cl fun x =>
        { x with hoop := { x.hoop with reqs := x.hoop.reqs ++ [(p.cur.core, p.cur.slot, n.toNat + 1, c)] } }).fin.block_
          (.hlease (n.toNat + 1) c)).later 1 .hoopLeaseGrant [cl]) s

/-- HFREE ends the holder's lease (R365). -/
def execHfree (s : State) : Res :=
  onPanel (fun p => p.hoopGate fun p =>
    (if p.holds p.cur.core p.cur.slot then p.freeLease (clusterOf p.cur.core) else p).fin) s

/-! ### Commands at issue (R369-R375) -/

/-- A Hoop command's cycles, its first step only for HMMAR (R370-R375); HSTC's are 32 for each 2 KiB of its 16 × 32 entries. -/
def hoopCycles (h : Hoop) (x : HCmd) : Nat :=
  match x.sub with
  | 0 => 8
  | 1 => 1
  | 2 => 32
  | 3 => 32
  | 4 => 32
  | 7 => if shDesc x.shape then 16 * cdiv 32 (fmtCount (shFmt x.shape)) else shEbits x.shape
  | _ =>
    if x.sub = 6 ∧ x.rot then 32
    else
      match h.latFmt % 256 with
      | 0x01 => 8 * h.latK
      | 0x02 => 2 * h.latK
      | 0x03 => cdiv h.latK 2
      | 0x04 => cdiv h.latK 2
      | _ => cdiv (h.latK * fmtBits (h.latFmt % 256)) 32

/-- The event that performs the command at the head of an array's queue put on the agenda. -/
def Panel.hoopKick (p : Panel) (cl : Nat) : Panel :=
  match (p.cluster cl).hoop.cmds with
  | [] => p
  | x :: _ => p.later (max 1 (hoopCycles (p.cluster cl).hoop x)) .hoopCommandComplete [cl]

/-- A Hoop command accepted: counted, its lease counted down, queued (R366, R368, R369). -/
def Panel.hoopAccept (p : Panel) (sub : Nat) (s : Line) (a b : W) : Panel :=
  let cl := clusterOf p.cur.core
  let cmd : HCmd := { sub := sub, shape := s, a := a, b := b, core := p.cur.core, slot := p.cur.slot, btag := p.cc.btag, rmode := p.cc.rmode, num := p.nid }
  let idle := (p.cluster cl).hoop.cmds == []
  let p1 := ({ p with nid := p.nid + 1 }.updCluster cl fun c =>
    { c with hoop := { c.hoop with cmds := c.hoop.cmds ++ [cmd], leaseN := c.hoop.leaseN - 1 } }).incT
  let p2 := if (p1.cluster cl).hoop.leaseN = 0 then p1.freeLease cl else p1
  (if idle then p2.hoopKick cl else p2).fin

/-- A Hoop command of the running thread; `bad` gives the shape and address checks: cause and TVAL. One that reads or writes memory waits for an
acquire in flight (R187, R193). -/
def Panel.hoopCmd (p : Panel) (sub : Nat) (r : Option Reg) (a b : W) (bad : Panel → Line → Option (Nat × W)) : Panel :=
  p.hoopGate fun p =>
    if !p.holds p.cur.core p.cur.slot then p.trapW 0x0D
    else if sub ≠ 0 ∧ sub ≠ 4 ∧ p.acqBusy then p.retry
    else
      let s := match r with | some r => p.src.shape r.toNat | none => 0
      match bad p s with
      | some e => p.trap e.1 e.2
      | none => if !p.roomT then p.retry else p.hoopAccept sub s a b

/-- SHAPE_FAULT of the running instruction. -/
def Panel.shapeFault (p : Panel) : Option (Nat × W) := some (0x08, p.cur.word)

def execHzero (s_ : Reg) (s : State) : Res := onPanel (fun p => p.hoopCmd 0 (some s_) 0 0 fun _ _ => none) s

/-- The window rows of an operand with RES = 1, checked at their first and last bytes (R37). -/
def rowSpan (p : Panel) (s : Line) (i0 n i1 rows : Nat) : Option (Nat × W) :=
  let n' := min n (shExt s 0 - i0)
  let rs := if n' = 0 then [] else (List.range (min rows (shExt s 1 - i1))).map fun r => rowEnds s i0 n' (i1 + r) 0 0
  match rowsBad p p.src s rs with
  | some e => some (e.1, w64 e.2)
  | none => none

/-- Element range inside the extents, or CLAMP = 1 (R240). -/
def spanOk (s : Line) (i0 n i1 rows : Nat) : Bool := shClamp s || (i0 + n ≤ shExt s 0 && i1 + rows ≤ shExt s 1)

/-- HLDA's checks (R369, R371). -/
def hldaBad (a b : W) (p : Panel) (s : Line) : Option (Nat × W) :=
  let n := fmtCount (shFmt s)
  if !shapeOk s ∨ shRes s ≠ 1 ∨ shRows s ≠ 16 ∨ (shDesc s ∧ (b.toNat % n ≠ 0 ∨ shCols s % n ≠ 0)) ∨
      !spanOk s b.toNat (shCols s) a.toNat 16 then p.shapeFault
  else rowSpan p s b.toNat (shCols s) a.toNat 16

def execHlda (s_ a b : Reg) (s : State) : Res :=
  onPanel (fun p => p.hoopCmd 1 (some s_) (p.gv a) (p.gv b) (hldaBad (p.gv a) (p.gv b))) s

/-- kext of HLDB or HLDBT (R372). -/
def kextOf (t : Bool) (s : Line) : Nat := if t then shRows s else shCols s

/-- The address checks of a source that may be paged: R37 on local rows, R164 on paged rows (R369). -/
def sourceBad (p : Panel) (s : Line) (rs : List (Nat × Nat)) : Option (Nat × W) :=
  if shRes s = 1 ∨ regionOf (shBase s) ≠ .paged then
    match rowsBad p p.src s rs with
    | some e => some (e.1, w64 e.2)
    | none => none
  else
    match rs.find? fun e => regionOf e.1 ≠ .paged || regionOf e.2 ≠ .paged with
    | some e => some (0x03, w64 e.1)
    | none => none

/-- HLDB's and HLDBT's checks (R369, R372); HLDBT reads FP elements of plain tensors only (R60); another format is
SHAPE_FAULT (log 63, DESIGN CHOICE). -/
def hldbBad (t : Bool) (a b : W) (p : Panel) (s : Line) : Option (Nat × W) :=
  let n := fmtCount (shFmt s)
  let kext := kextOf t s
  let j0 := a.toNat
  let k0 := b.toNat
  if !shapeOk s ∨ (if t then shCols s ≠ 32 ∨ shDesc s = true ∨ shFmt s = 0 ∨ 4 < shFmt s else shRows s ≠ 32) ∨ 4096 < kext * shEbits s ∨
      (shDesc s ∧ (k0 % n ≠ 0 ∨ kext % n ≠ 0 ∨ 8 * n < kext)) ∨
      !(if t then spanOk s j0 32 k0 kext else spanOk s k0 kext j0 32) then p.shapeFault
  else
    let i0 := if t then j0 else k0
    let i1 := if t then k0 else j0
    let w := min (if t then 32 else kext) (shExt s 0 - i0)
    let rs := if w = 0 then [] else (List.range (min (if t then kext else 32) (shExt s 1 - i1))).map fun r => rowEnds s i0 w (i1 + r) 0 0
    sourceBad p s rs

/-- A strict launch's ranges checked for each paged row of a source; rows of which nothing is read are not (R164). -/
def strictRows (p : Panel) (s : Line) (i0 w i1 rows : Nat) : Option Nat :=
  if w = 0 ∨ shRes s = 1 ∨ regionOf (shBase s) ≠ .paged then none
  else
    match ((List.range rows).map fun r => rowEnds s i0 w (i1 + r) 0 0).find? fun e => !strictOk p.cl e.1 (e.2 + 1 - e.1) 1 with
    | some e => some e.1
    | none => none

/-- HLDB or HLDBT of the running thread. -/
def Panel.hldb (p : Panel) (t : Bool) (r a b : Reg) : Panel :=
  let s := p.src.shape r.toNat
  let i0 := if t then (p.gv a).toNat else (p.gv b).toNat
  let i1 := if t then (p.gv b).toNat else (p.gv a).toNat
  if p.cb.hoop ∧ p.holds p.cur.core p.cur.slot ∧ hldbBad t (p.gv a) (p.gv b) p s = none then
    match strictRows p s i0 (min (if t then 32 else shCols s) (shExt s 0 - i0)) i1 (min (if t then shRows s else 32) (shExt s 1 - i1)) with
    | some va => p.violation va
    | none => p.hoopCmd (if t then 3 else 2) (some r) (p.gv a) (p.gv b) (hldbBad t (p.gv a) (p.gv b))
  else p.hoopCmd (if t then 3 else 2) (some r) (p.gv a) (p.gv b) (hldbBad t (p.gv a) (p.gv b))

def execHldb (s_ a b : Reg) (s : State) : Res := onPanel (fun p => p.hldb false s_ a b) s
def execHldbt (s_ a b : Reg) (s : State) : Res := onPanel (fun p => p.hldb true s_ a b) s
def execHrot (s : State) : Res := onPanel (fun p => p.hoopCmd 4 none 0 0 fun _ _ => none) s
def execHmma (s : State) : Res := onPanel (fun p => p.hoopCmd 5 none 0 0 fun _ _ => none) s
def execHmmar (s : State) : Res := onPanel (fun p => p.hoopCmd 6 none 0 0 fun _ _ => none) s

/-- Output formats of HSTC (R375). -/
def hstcFmtOk (s : Line) : Bool :=
  if shDesc s then shFmt s == 0x08 || isBfp (shFmt s)
  else (shFmt s == 0 && shEbits s == 64) || (1 ≤ shFmt s && shFmt s ≤ 4)

/-- HSTC's checks (R369, R375). -/
def hstcBad (a b : W) (p : Panel) (s : Line) : Option (Nat × W) :=
  if !shapeOk s ∨ shRes s ≠ 1 ∨ shRows s ≠ 16 ∨ shCols s ≠ 32 ∨ !hstcFmtOk s ∨ (shDesc s ∧ b.toNat % fmtCount (shFmt s) ≠ 0) ∨
      !spanOk s b.toNat 32 a.toNat 16 then p.shapeFault
  else rowSpan p s b.toNat 32 a.toNat 16

def execHstc (s_ a b : Reg) (s : State) : Res :=
  onPanel (fun p => p.hoopCmd 7 (some s_) (p.gv a) (p.gv b) (hstcBad (p.gv a) (p.gv b))) s

/-! ### Engine reads through translation (R157, R193, R523) -/

/-- The context that an engine checks local and mesh-window addresses against: the issuing thread's home core and block (R37). -/
def engCtx (p : Panel) (core slot tag : Nat) : Ctx :=
  let b := p.block tag
  { p.ctx core slot with btag := tag, bx := cx core - b.ox, by_ := cy core - b.oy }

/-- What an engine's read of virtual bytes gives, from the lines that it has read; `fatal` with the address. -/
inductive EngRead where
  | ok (v : Nat)
  | region
  | noD
  | fatal (cause va : Nat)
  deriving DecidableEq, Repr

/-- A translation for an engine, with a permission need: from the cluster TLB; without one there, the outcome that a walk has had, or the
wait for a walk (R151, R154, R157). -/
inductive Xlate where
  | ok (t : Tlb)
  | wait
  | fault (kind : Nat)
  | fatal (cause : Nat)
  deriving DecidableEq, Repr

def Panel.xlate (p : Panel) (cl part asid vpn need : Nat) (level : Bool) : Xlate :=
  let check := fun (t : Tlb) => if permitted t.attr need level then Xlate.ok t else .fault 2
  match tlbFind (p.cluster cl) part asid vpn with
  | some t => check t
  | none =>
    match (p.cluster cl).wout.find? fun w => w.1 == part && w.2.1 == asid && w.2.2.1 == vpn with
    | some (_, _, _, .fatal c) => .fatal c
    | some (_, _, _, .notPresent) => .fault 1
    | some (_, _, _, .ok t) => check t
    | none => .wait

/-- The outcomes that walks of a page have had for engines are used up. -/
def Panel.woutDrop (p : Panel) (cl part asid vpn : Nat) : Panel :=
  p.updCluster cl fun c => { c with wout := c.wout.filter fun w => !(w.1 == part && w.2.1 == asid && w.2.2.1 == vpn) }

/-- A translation fault of an engine command's operand, on a page, goes to the Memory core; the command has parked (R157, R158). No group
parks, so that no mailbox entry leaves (R417). -/
def Panel.engFault (p : Panel) (tag core page : Nat) : Panel :=
  let b := p.block tag
  (p.woutDrop (clusterOf core) b.part b.asid page).updPart b.part fun q =>
    { q with faults := if q.faults.contains (b.asid, page) then q.faults else q.faults ++ [(b.asid, page)] }

/-- The number of an engine among those of its cluster, by the event with which it goes on. -/
def engineNo (e : Instr) (args : List Nat) : Nat :=
  let kind := if e = .engineLineData then 1 else if e = .twalkTile then 2 else if e = .mcrdLineRequest then 3 else if e = .l2pfLineRequest then 4
    else if e = .l2dropLineRequest then 5 else 6
  args.foldl (fun n x => n * 2 ^ 16 + x) kind

/-- An engine command of a block waits for the walk of a page, and asks again with its event. -/
def Panel.engWait (p : Panel) (cl tag core page : Nat) (e : Instr) (args : List Nat) : Panel :=
  let b := p.block tag
  (p.engWalk cl b.part b.asid page core (engineNo e args)).once 8 e args

/-- A list of rising numbers, each once. -/
def risingOnce : List Nat → List Nat
  | [] => []
  | [x] => [x]
  | x :: y :: t => if x = y then risingOnce (y :: t) else x :: risingOnce (y :: t)

/-- Line reads that an engine's command keeps in flight (R523). -/
def readDepth : Nat := 32

/-- An engine's command asks for a line of its home slice (R385, R523). -/
def Panel.engAsk (p : Panel) (e : Eng) (vline pa key attr : Nat) : Panel :=
  let k := p.engCmd e
  let q := p.part (p.block k.2.1).part
  let x : Rd := { vline := vline, num := p.nid, attr := attr }
  (({ p with nid := p.nid + 1 }.updRds e fun rs => rs ++ [x]).ask q k.1
    ⟨.eng e k.2.2.2 p.nid, k.1, pa / 64, key⟩)

/-- A line that the command cannot read is noted with the reason. -/
def Panel.engMiss (p : Panel) (e : Eng) (vline err : Nat) : Panel :=
  let x : Rd := { vline := vline, num := p.nid, data := some 0, at_ := p.now, err := err }
  { p with nid := p.nid + 1 }.updRds e fun rs => rs ++ [x]

/-- How asking for a line ended. -/
inductive Asked where
  | ok (p : Panel)
  | wait (page : Nat)
  | fault (page : Nat)
  | fatal (cause : Nat)
  deriving DecidableEq, Repr

/-- A line of HBM asked for by an engine that serves no other region (R372, R383). -/
def Panel.askLine (p : Panel) (cl : Nat) (e : Eng) (vline : Nat) : Asked :=
  let b := p.block (p.engCmd e).2.1
  match p.xlate cl b.part b.asid (vline / 1024) 1 b.priv with
  | .wait => .wait (vline / 1024)
  | .fault _ => .fault (vline / 1024)
  | .fatal c => .fatal c
  | .ok t =>
    let pa := t.phys (64 * vline)
    if region pa ≠ 0 then .ok (p.engMiss e vline 1) else .ok (p.engAsk e vline pa t.key t.attr)

/-- Bytes of paged memory from the lines that have been read (R523). -/
def engPieces (rs : List Rd) (needD : Bool) : List Part → Nat → EngRead
  | [], v => .ok v
  | x :: t, v =>
    match rs.find? fun r => r.vline == x.line with
    | none => .region
    | some r =>
      if r.err = 1 then .region
      else if needD ∧ !bt r.attr 4 then .noD
      else if r.err ≠ 0 then .fatal r.err (64 * x.line + x.off)
      else engPieces rs needD t (putBits v (8 * (x.pos + x.len) - 1) (8 * x.pos) (bf (r.data.getD 0).toNat (8 * (x.off + x.len) - 1) (8 * x.off)))

/-- A tensor whose rows an engine reads from paged memory. -/
def pagedShape (s : Line) : Bool := shRes s != 1 && regionOf (shBase s) == .paged

/-- `size` bytes at a tensor's address, from local memory or from the lines that have been read. -/
def Panel.engBytes (p : Panel) (c : Ctx) (s : Line) (rs : List Rd) (va size : Nat) (needD : Bool) : EngRead :=
  if !pagedShape s then
    match tensorPlace p c s va size with
    | .lm t off _ => .ok (p.lmRead t off size)
    | .paged => .region
    | .bad _ => .region
  else engPieces rs needD (splitLines id (fun _ => 0) (size + 1) va 0 size) 0

/-! ### The array's arithmetic (R73-R77) -/

/-- An operand element: code, scale, raw bits. -/
structure Elem where
  code : Nat
  scale : Nat
  raw : Nat
  deriving DecidableEq, Repr

def Elem.val (e : Elem) : FVal := elemVal e.code e.scale e.raw

/-- The accumulator kind of an operand pair: 1 FP32, 2 FP64, 3 integer, 0 none (R74). -/
def pairKind (a b : Nat) : Nat :=
  let h := fun x => x == 3 || x == 4
  let i := fun x => x == 0x08 || isBfp x
  if h a && h b then 1 else if a = 2 ∧ b = 2 then 1 else if a = 1 ∧ b = 1 then 2 else if i a && i b then 3 else 0

/-- The signed mantissa of an INT8 or BFP element. -/
def Elem.mant (e : Elem) : Int := sgn (if e.code = 0x08 then 8 else e.code - 0x10) e.raw

/-- A 64-bit integer clamped (R77). -/
def sat64 (v : Int) : Int := max (-(2 ^ 63 : Int)) (min v ((2 ^ 63 : Int) - 1))

/-- An accumulator entry with its NaN bit, and whether a saturation arose. -/
structure Acc where
  bits : Nat
  nan : Bool
  ovf : Bool := false
  deriving DecidableEq, Repr

/-- One segment added into an integer entry (R77). -/
def intSegment (ea : Int) (acc : Acc) (ps : List (Elem × Elem)) : Acc :=
  match ps with
  | [] => acc
  | (a0, b0) :: _ =>
    if a0.scale = 255 ∨ b0.scale = 255 then { acc with nan := true }
    else if a0.scale = 0 ∨ b0.scale = 0 then acc
    else
      let S := ps.foldl (fun (t : Int) e => t + e.1.mant * e.2.mant) 0
      let d := unitExp a0.code a0.scale + unitExp b0.code b0.scale - ea
      let t := if 0 ≤ d then S * 2 ^ d.toNat else roundInt 0 (decide (S < 0)) S.natAbs d
      let v := sgn 64 acc.bits + t
      { bits := cut 64 (sat64 v), nan := acc.nan, ovf := acc.ovf || v != sat64 v }

/-- One segment added into a floating-point entry (R76). -/
def fpSegment (kind : Nat) (acc : Nat) (ps : List (Elem × Elem)) : Nat :=
  let prods := ps.map fun e => e.1.val.mul e.2.val
  if kind = 2 then prods.foldl (fun a x => pack (fpFmt 0) 0 (sumAll false [unpack (fpFmt 0) a, x])) acc
  else
    let exact_ := sumAll false prods
    let P := match ps with
      | (a0, _) :: _ => if a0.code = 2 then unpack (fpFmt 0) (pack (fpFmt 0) 0 exact_) else exact_
      | [] => exact_
    pack (fpFmt 1) 0 (sumAll false [unpack (fpFmt 1) acc, P])

/-- The K axis of a step cut at the boundaries of the blocks of A and of B, counted from the tensors' first elements (R75, R373): the
segments. `oA` and `oB` are the coordinates of kk = 0. -/
def segCuts (nA nB oA oB : Nat) : Nat → Nat → List Nat → List (List Nat)
  | 0, _, cur => if cur = [] then [] else [cur.reverse]
  | n + 1, kk, cur =>
    if kk ≠ 0 ∧ ((oA + kk) % nA = 0 ∨ (oB + kk) % nB = 0) ∧ cur ≠ [] then cur.reverse :: segCuts nA nB oA oB n (kk + 1) [kk]
    else segCuts nA nB oA oB n (kk + 1) (kk :: cur)

/-- An element of A from core `lc`'s own window (R371): none for a header that is a format fault, some of code 0xFF for poison; zero
outside the extents (R240). -/
def aElem (p : Panel) (b : Block) (lc : Nat) (s : Line) (i0 i1 : Nat) : Option Elem :=
  let base := lmA lc (b.lmBase * 1024)
  let inside := i0 < shExt s 0 && i1 < shExt s 1
  if shDesc s then
    let n := fmtCount (shFmt s)
    if !inside then some ⟨shFmt s, 0x7F, 0⟩
    else
      let blk := BitVec.ofNat 512 (Memory.readN p.mem (base + blockAddr s i0 i1 0 0) 64)
      let code := blk.toNat % 256
      if code = 0xFF then some ⟨0xFF, 0, 0⟩
      else if fmtCount code ≠ n then none
      else some ⟨code, bf blk.toNat 15 8, blockElem blk (i0 % n)⟩
  else some ⟨shFmt s, 0x7F, if inside then Memory.readBits p.mem (8 * base + elemBit s i0 i1 0 0) (shEbits s) else 0⟩

/-- An element of a latch. -/
def latElem (h : Hoop) (k kk c : Nat) : Elem :=
  let l := h.latch.getD k {}
  let i := c * h.latK + kk
  let w := l.scales.getD i 0
  ⟨w / 256, w % 256, l.elems.getD i 0⟩

/-- Address of entry (r, j) of a core's segment (R363). -/
def entryAddr (lc r j : Nat) : Nat := rsA lc (0x10000 + 8 * (32 * r + j))

/-- Where the elements of A for one row stop a step: the first whose header is a format fault or poison, and whether it is poison. -/
def rowStop (as : List (Option Elem)) : Option (Nat × Bool) :=
  (as.findIdx? fun x => match x with | none => true | some e => e.code == 0xFF).map fun i => (i, (as.getD i none).isSome)

/-- The aligned 64-byte groups of elements of A that a core reads for a row of a step: its bank cycles (R84, R371). -/
def aGroups (s : Line) (i0 i1 n : Nat) : Nat :=
  if shExt s 1 ≤ i1 then 0
  else
    ((List.range (min n (shExt s 0 - i0))).map fun kk => if shDesc s then blockAddr s (i0 + kk) i1 0 0 / 64 else elemBit s (i0 + kk) i1 0 0 / 512).eraseDups.length

/-- One output entry of a step (R373), from the elements of A that its row has before a stop. -/
def stepEntry (p : Panel) (h : Hoop) (cl fmtA k0 : Nat) (as : List Elem) (k r c : Nat) : Nat × Acc :=
  let lc := clusterCore cl k
  let j := 4 * (h.latch.getD k { blk := k }).blk + c
  let e := 32 * r + j
  let ps := (List.range as.length).map fun kk => (as.getD kk ⟨0, 0, 0⟩, latElem h k kk c)
  let segs := segCuts (fmtCount fmtA) (fmtCount (h.latFmt % 256)) k0 h.latK0 as.length 0 []
  let acc0 : Acc := ⟨Memory.readN p.mem (entryAddr lc r j) 8, h.nan.contains (512 * k + e), false⟩
  let kind := pairKind fmtA (h.latFmt % 256)
  let acc := segs.foldl (fun a ks =>
    let q := ks.map fun kk => ps.getD kk (⟨0, 0, 0⟩, ⟨0, 0, 0⟩)
    if kind = 3 then intSegment h.ea a q else { a with bits := fpSegment kind a.bits q }) acc0
  (e, acc)

/-- One row of a segment's part of a step: its four entries written. -/
def stepRow (cl fmtA k0 : Nat) (h : Hoop) (k r : Nat) (as : List Elem) (t : Panel × Bool) : Panel × Bool :=
  [0, 1, 2, 3].foldl (fun (q : Panel × Bool) c =>
    let x := stepEntry q.1 h cl fmtA k0 as k r c
    let i := 512 * k + x.1
    let nan := (q.1.cluster cl).hoop.nan
    let nan' := if x.2.nan then (if nan.contains i then nan else nan ++ [i]) else nan.filter (· != i)
    ({ q.1 with
        mem := Memory.writeN q.1.mem (entryAddr (clusterCore cl k) (x.1 / 32) (x.1 % 32)) 8 x.2.bits
        clusters := SMap.set q.1.clusters cl { q.1.cluster cl with hoop := { (q.1.cluster cl).hoop with nan := nan' } } },
      q.2 || x.2.ovf)) t

/-- How a step ends: the first status that arose and the segments to report with it (R356), whether it stopped at a block or before it began,
whether that block is a poison block. -/
structure StepEnd where
  panel : Panel
  status : Nat := 0
  segs : Nat := 0
  stop : Bool := false
  poison : Bool := false
  /-- window offset of the block that stopped it -/
  at_ : Nat := 0
  deriving DecidableEq, Repr

/-- Rows of a step in R373's order, (segment, row), until a header of A stops it (R63, R369): the blocks before that one take effect. `segs`
holds the segments in which a saturation has arisen; that status comes before the stop's (R77, R356). -/
def stepRows (cl : Nat) (h : Hoop) (b : Block) (sA : Line) (r0 k0 : Nat) : List (Nat × Nat) → Panel → Nat → StepEnd
  | [], p, segs => { panel := p, status := if segs = 0 then 0 else 7, segs := segs }
  | (k, r) :: rest, p, segs =>
    let as := (List.range h.latK).map fun kk => aElem p b (clusterCore cl k) sA (k0 + kk) (r0 + r)
    let p := p.bill (clusterCore cl k) b.launch (20 * aGroups sA k0 (r0 + r) (match rowStop as with | none => h.latK | some x => x.1 + 1))
    match rowStop as with
    | none =>
      let t := stepRow cl (shFmt sA) k0 h k r (as.filterMap id) (p, false)
      stepRows cl h b sA r0 k0 rest t.1 (if t.2 then segs ||| 2 ^ k else segs)
    | some (i, poison) =>
      let t := stepRow cl (shFmt sA) k0 h k r ((as.take i).filterMap id) (p, false)
      let segs := if t.2 then segs ||| 2 ^ k else segs
      { panel := t.1, status := if segs = 0 then 2 else 7, segs := if segs = 0 then 2 ^ k else segs, stop := true, poison := poison,
        at_ := blockAddr sA (k0 + i) (r0 + r) 0 0 }

/-- The codes of the elements that the latches hold. -/
def latCodes (h : Hoop) : List Nat := h.latch.flatMap fun l => l.scales.map (· / 256)

/-- A step (R373, R374). -/
def hmmaStep (p : Panel) (cl : Nat) (x : HCmd) : StepEnd :=
  let h := (p.cluster cl).hoop
  let b := p.block x.btag
  match h.bind with
  | none => { panel := p, status := 8, segs := 0xFF, stop := true }
  | some (sA, r0, k0, K) =>
    let kind := pairKind (shFmt sA) (h.latFmt % 256)
    if K ≠ h.latK then { panel := p, status := 8, segs := 0xFF, stop := true }
    else if kind = 0 ∨ (h.kind ≠ 0 ∧ h.kind ≠ kind) ∨ (latCodes h).any (fun c => pairKind (shFmt sA) c != kind) then
      { panel := p, status := 2, segs := 0xFF, stop := true }
    else
      let p1 := p.updCluster cl fun c => { c with hoop := { c.hoop with kind := kind } }
      stepRows cl h b sA r0 k0 ((List.range 128).map fun i => (i / 16, i % 16)) p1 0

/-- HROT: latches and their block numbers move one segment on (R373). -/
def hrotLatches (l : List Latch) : List Latch := (List.range 8).map fun k => l.getD ((k + 7) % 8) { blk := (k + 7) % 8 }

/-! ### Loading the latches (R372) -/

/-- One element of B; zero outside the extents (R240). -/
inductive BElem where
  | ok (e : Elem)
  | stop (status : Nat)
  | fatal (cause va : Nat)
  deriving DecidableEq, Repr

def bElem (p : Panel) (c : Ctx) (s : Line) (rs : List Rd) (i0 i1 : Nat) : BElem :=
  if shExt s 0 ≤ i0 ∨ shExt s 1 ≤ i1 then .ok ⟨shFmt s, 0x7F, 0⟩
  else if shDesc s then
    let n := fmtCount (shFmt s)
    let va := blockAddr s i0 i1 0 0
    match p.engBytes c s rs va 64 true with
    | .region => .stop 4
    | .noD => .stop 2
    | .fatal e a => .fatal e a
    | .ok v =>
      let code := v % 256
      if code = 0xFF then .fatal 0x33 va
      else if fmtCount code ≠ n then .stop 2
      else .ok ⟨code, bf v 15 8, blockElem (BitVec.ofNat 512 v) (i0 % n)⟩
  else
    let ba := elemBit s i0 i1 0 0
    match p.engBytes c s rs (ba / 8) ((ba % 8 + shEbits s + 7) / 8) false with
    | .region => .stop 4
    | .noD => .stop 2
    | .fatal e a => .fatal e a
    | .ok v => .ok ⟨shFmt s, 0x7F, bf v (ba % 8 + shEbits s - 1) (ba % 8)⟩

/-- Tensor coordinates of element (segment, column, kk) of a load of the latches. -/
def HCmd.elemAt (x : HCmd) (e : Nat × Nat × Nat) : Nat × Nat :=
  let j := x.a.toNat + 4 * e.1 + e.2.1
  let k := x.b.toNat + e.2.2
  if x.sub = 3 then (j, k) else (k, j)

/-- The order in which a load takes its elements: segments, columns, kk (R372). -/
def HCmd.order (x : HCmd) : List (Nat × Nat × Nat) :=
  let kext := kextOf (x.sub == 3) x.shape
  (List.range (32 * kext)).map fun i => (i / (4 * kext), i / kext % 4, i % kext)

/-- The 64-byte groups that a load of the latches reads, ascending (R84, R523). -/
def HCmd.groups (x : HCmd) : List Nat :=
  let s := x.shape
  risingOnce ((x.order.flatMap fun e =>
    let i := x.elemAt e
    if shExt s 0 ≤ i.1 ∨ shExt s 1 ≤ i.2 then []
    else if shDesc s then [blockAddr s i.1 i.2 0 0 / 64]
    else
      let ba := elemBit s i.1 i.2 0 0
      upto (ba / 512) ((ba + shEbits s - 1) / 512 - ba / 512 + 1)).mergeSort (· ≤ ·))

/-- The lines of paged memory among them. -/
def HCmd.lines (x : HCmd) : List Nat := if pagedShape x.shape then x.groups else []

/-- Elements loaded in order until one stops the command: those loaded, and what stopped it. -/
def loadElems (p : Panel) (c : Ctx) (x : HCmd) : List (Nat × Nat × Nat) → List (Nat × Nat × Nat × Elem) → List (Nat × Nat × Nat × Elem) × Option BElem
  | [], acc => (acc, none)
  | e :: rest, acc =>
    let i := x.elemAt e
    match bElem p c x.shape x.rds i.1 i.2 with
    | .ok v => loadElems p c x rest ((e.1, e.2.1, e.2.2, v) :: acc)
    | r => (acc, some r)

/-- The latches after a load: the loaded elements at their places. After a load that stopped in segment k, what it had not loaded keeps its
old contents, and the segments after k their old block numbers (R63, R372). -/
def fillLatches (h : Hoop) (fmt kext : Nat) (es : List (Nat × Nat × Nat × Elem)) : List Latch :=
  let last := es.length / (4 * kext)
  (List.range 8).map fun k =>
    let mine := es.filter fun e => e.1 == k
    let get := fun i =>
      match (mine.find? fun e => e.2.1 * kext + e.2.2.1 == i).map fun e => e.2.2.2 with
      | some e => e
      | none => if i % kext < h.latK then latElem h k (i % kext) (i / kext) else ⟨fmt, 0x7F, 0⟩
    let all := (List.range (4 * kext)).map get
    { blk := if k ≤ last then k else (h.latch.getD k { blk := k }).blk
      elems := all.map (·.raw)
      scales := all.map fun e => 256 * e.code + e.scale }

/-! ### HSTC (R375) -/

/-- The value of an accumulator entry. -/
def entryVal (h : Hoop) (nan : Bool) (bits : Nat) : FVal :=
  if nan then .nan
  else
    match h.kind with
    | 0 => .fin false 0 0
    | 1 => unpack (fpFmt 1) (bits % 2 ^ 32)
    | 2 => unpack (fpFmt 0) bits
    | _ =>
      let v := sgn 64 bits
      .fin (decide (v < 0)) v.natAbs h.ea

/-- One row of one segment stored. -/
def Panel.hstcRow (p : Panel) (cl : Nat) (x : HCmd) (k r : Nat) : Panel :=
  let h := (p.cluster cl).hoop
  let b := p.block x.btag
  let lc := clusterCore cl k
  let s := x.shape
  let mode := bf x.rmode.toNat 1 0
  let i1 := x.a.toNat + r
  let bitsOf := fun j => Memory.readN p.mem (entryAddr lc r j) 8
  let valOf := fun j => entryVal h (h.nan.contains (512 * k + 32 * r + j)) (bitsOf j)
  let base := b.lmBase * 1024
  if shExt s 1 ≤ i1 then p
  else if shDesc s then
    let n := fmtCount (shFmt s)
    let groups := cdiv 32 n
    (List.range groups).foldl (fun q g =>
      if shExt s 0 ≤ x.b.toNat + g * n then q
      else
        let xs := (List.range n).map fun i =>
          if g * n + i < 32 then unpack (fpFmt 1) (pack (fpFmt 1) mode (valOf (g * n + i))) else .fin false 0 0
        q.lmWrite lc (base + blockAddr s (x.b.toNat + g * n) i1 0 0) 64 (quantise mode (shFmt s) xs)) p
  else
    (List.range 32).foldl (fun q j =>
      if shExt s 0 ≤ x.b.toNat + j then q
      else
        let v := if shFmt s = 0 then bitsOf j else pack (fpFmt (shFmt s - 1)) mode (valOf j)
        let bit := elemBit s (x.b.toNat + j) i1 0 0
        let w := shEbits s
        q.writeItems lc [⟨w, 8 * base + bit, 0, w, false⟩] v) p

/-- The words of the window that HSTC's row r covers on each core (R89). -/
def hstcWords (x : HCmd) (r : Nat) : List Nat :=
  let s := x.shape
  let i1 := x.a.toNat + r
  let n := min 32 (shExt s 0 - x.b.toNat)
  if n = 0 ∨ shExt s 1 ≤ i1 then []
  else if shDesc s then
    (List.range (cdiv n (fmtCount (shFmt s)))).flatMap fun g => upto (blockAddr s (x.b.toNat + g * fmtCount (shFmt s)) i1 0 0 / 8) 8
  else
    (List.range n).flatMap fun j =>
      let bit := elemBit s (x.b.toNat + j) i1 0 0
      upto (bit / 64) ((bit + shEbits s - 1) / 64 - bit / 64 + 1)

/-- The rows of a segment stored, a bank cycle for each group of eight words (R84, R441), then the words they cover set full, each once every byte of it has been written (R89). -/
def Panel.hstcSegment (p : Panel) (cl : Nat) (x : HCmd) (k : Nat) : Panel :=
  let lc := clusterCore cl k
  let base := (p.block x.btag).lmBase * 128
  let q := (List.range 16).foldl (fun q r => (q.hstcRow cl x k r).bankCharge lc x.btag ((hstcWords x r).map (· / 8)).eraseDups.length) p
  ((((List.range 16).flatMap (hstcWords x)).eraseDups).mergeSort (· ≤ ·)).foldl (fun q w => q.fillWord lc (base + w)) q

/-! ### Completion of commands -/

/-- The entry of a Hoop command in q0 (R356). -/
def q0Entry (status sub segs : Nat) : W := w64 (8 * 2 ^ 60 + status * 2 ^ 56 + sub * 2 ^ 52 + segs * 2 ^ 44)

/-- The command at the head ends: its entry when there is one to push, its counter, the next command (R356, R369). -/
def Panel.hoopDone (p : Panel) (cl : Nat) (x : HCmd) : Panel :=
  let p1 := p.updCluster cl fun c => { c with hoop := { c.hoop with cmds := c.hoop.cmds.drop 1, parked := false } }
  let p2 := if x.sub = 7 ∨ x.status ≠ 0 then p1.complete x.core x.btag 0 (q0Entry x.status x.sub x.segs) x.slot false
    else p1.decT x.core x.slot
  p2.hoopKick cl

/-- The status of a command, kept when it already has one. -/
def HCmd.note (x : HCmd) (st segs : Nat) : HCmd := if x.status = 0 ∧ st ≠ 0 then { x with status := st, segs := segs } else if st ≠ 0 ∧ x.status = st then { x with segs := x.segs ||| segs } else x

/-- A step counted for the launch on each of the array's cores (R441). -/
def Panel.stepCharge (p : Panel) (cl tag cycles : Nat) : Panel :=
  (List.range 8).foldl (fun q k => q.charge (clusterCore cl k) tag (128 * cycles)) p

/-- The head command replaced, to be continued. -/
def Panel.hoopAgain (p : Panel) (cl : Nat) (x : HCmd) : Panel :=
  (p.updCluster cl fun c => { c with hoop := { c.hoop with cmds := x :: c.hoop.cmds.drop 1 } }).hoopKick cl

/-- A parked command of the array waits for a page (R157). -/
def Panel.hoopPark (p : Panel) (cl : Nat) (x : HCmd) (page : Nat) : Panel :=
  (p.updCluster cl fun c => { c with hoop := { c.hoop with parked := true, fva := page * 65536 } }).engFault x.btag x.core page

/-- A load of the latches from paged memory asks for its lines in ascending order, up to 32 in flight (R372, R523). -/
def Panel.hoopAsk (p : Panel) (cl : Nat) (ls : List Nat) : Nat → Panel
  | 0 => p
  | k + 1 =>
    match (p.cluster cl).hoop.cmds with
    | [] => p
    | x :: _ =>
      match ls[x.asked]? with
      | none => p
      | some l =>
        if (p.cluster cl).hoop.parked then p
        else if readDepth ≤ (x.rds.filter fun r => r.data.isNone).length then p
        else
          match p.askLine cl (.hoop cl) l with
          | .ok q =>
            (q.updCluster cl fun c => match c.hoop.cmds with
              | y :: t => { c with hoop := { c.hoop with cmds := { y with asked := y.asked + 1 } :: t } }
              | [] => c).hoopAsk cl ls k
          | .wait g => p.engWait cl x.btag x.core g .hoopCommandComplete [cl]
          | .fault g => p.hoopPark cl x g
          | .fatal e =>
            (p.engMiss (.hoop cl) l e).updCluster cl fun c => match c.hoop.cmds with
              | y :: t => { c with hoop := { c.hoop with cmds := { y with asked := y.asked + 1 } :: t } }
              | [] => c

/-- A load's lines are all there. -/
def HCmd.ready (x : HCmd) (now : Nat) (ls : List Nat) : Bool := decide (ls.length ≤ x.asked) && x.rds.all fun r => r.data.isSome && decide (r.at_ ≤ now)

/-- The latches loaded from the lines that have been read, or from local memory (R372). -/
def Panel.hoopLoad (p : Panel) (cl : Nat) (x : HCmd) : Panel :=
  let kext := kextOf (x.sub == 3) x.shape
  let p := match pagedShape x.shape, x.groups with
    | false, g :: gs => (match tensorPlace p (engCtx p x.core x.slot x.btag) x.shape (64 * g) 1 with
      | .lm t _ _ => p.bankCharge t x.btag (gs.length + 1)
      | .paged => p | .bad _ => p)
    | _, _ => p
  let r := loadElems p (engCtx p x.core x.slot x.btag) x x.order []
  let load := p.updCluster cl fun c =>
    { c with hoop := { c.hoop with latch := fillLatches c.hoop (shFmt x.shape) kext r.1, latFmt := shFmt x.shape, latK := kext, latK0 := x.b.toNat } }
  match r.2 with
  | none => load.hoopDone cl x
  | some (.ok _) => load.hoopDone cl x
  | some (.stop st) => load.hoopDone cl (x.note st (2 ^ (r.1.length / (4 * kext))))
  | some (.fatal e va) => p.fatalAt x.core e (w64 va)

/-- HOOP_COMMAND_COMPLETE: the command at the head of a cluster's array, or one step or rotation of HMMAR, is performed
(R369-R375). A step that ends with SHAPE or FORMAT ends HMMAR; one that saturates does not (R369, R373; log 56, DEDUCED). -/
def Panel.hoopRun (p : Panel) (cl : Nat) : Panel :=
  let h := (p.cluster cl).hoop
  match h.cmds with
  | [] => p
  | x :: _ =>
    if h.parked then p
    else
      let setH := fun (f : Hoop → Hoop) => p.updCluster cl fun c => { c with hoop := f c.hoop }
      let cores := (List.range 8).map (clusterCore cl)
      match x.sub with
      | 0 =>
        let q := setH fun h => { h with nan := [], ea := sgn 16 (shAccexp x.shape), kind := 0 }
        (cores.foldl (fun (q : Panel) lc => { q with mem := Memory.clear q.mem (rsA lc 0x10000) 4096 }) q).hoopDone cl x
      | 1 => (setH fun h => { h with bind := some (x.shape, x.a.toNat, x.b.toNat, shCols x.shape) }).hoopDone cl x
      | 4 => (setH fun h => { h with latch := hrotLatches h.latch }).hoopDone cl x
      | 5 =>
        let r := hmmaStep (p.stepCharge cl x.btag (hoopCycles h x)) cl x
        if r.poison then r.panel.fatalAt x.core 0x33 (w64 r.at_)
        else r.panel.hoopDone cl (x.note r.status r.segs)
      | 6 =>
        if x.rot then (setH fun h => { h with latch := hrotLatches h.latch }).hoopAgain cl { x with rot := false, step := x.step + 1 }
        else
          let r := hmmaStep (p.stepCharge cl x.btag (hoopCycles h x)) cl x
          if r.poison then r.panel.fatalAt x.core 0x33 (w64 r.at_)
          else
            let x' := x.note r.status r.segs
            if x.step = 7 ∨ r.stop then r.panel.hoopDone cl x' else r.panel.hoopAgain cl { x' with rot := true }
      | 7 =>
        ((List.range 8).foldl (fun q k => q.hstcSegment cl x k) p).hoopDone cl x
      | _ =>
        let ls := x.lines
        let q := p.hoopAsk cl ls readDepth
        match (q.cluster cl).hoop.cmds with
        | y :: _ => if !(q.cluster cl).hoop.parked && y.ready p.now ls then q.hoopLoad cl y else q
        | [] => q

def execHoopCommandComplete (s : State) : Res := onPanel (fun p => p.hoopRun (p.arg 0)) s

/-- A requester's turn in the order (core k, slot) after the last holder (R366). -/
def leaseTurn (last core slot : Nat) : Nat := (16 * coreK core + slot + 128 - (last + 1)) % 128

/-- The request that a free array grants: highest class, then round-robin (R366). -/
def pickLease (p : Panel) (last : Nat) (rs : List (Nat × Nat × Nat × Nat)) : Option (Nat × Nat × Nat × Nat) :=
  let cls := fun (r : Nat × Nat × Nat × Nat) => (p.block (p.ctx r.1 r.2.1).btag).prio / 16
  rs.foldl (fun best r =>
    match best with
    | none => some r
    | some x =>
      if cls x < cls r ∨ (cls x = cls r ∧ leaseTurn last r.1 r.2.1 < leaseTurn last x.1 x.2.1) then some r else some x) none

/-- HOOP_LEASE_GRANT (R366, R368). -/
def execHoopLeaseGrant (s : State) : Res :=
  onPanel (fun p =>
    let cl := p.arg 0
    let h := (p.cluster cl).hoop
    match h.holder, pickLease p h.last h.reqs with
    | none, some r =>
      let p1 := p.updCluster cl fun c =>
        { c with hoop := { c.hoop with
          holder := some (r.1, r.2.1, (p.ctx r.1 r.2.1).btag), leaseN := r.2.2.1, leaseEnd := p.now + r.2.2.2
          last := 16 * coreK r.1 + r.2.1, reqs := c.hoop.reqs.erase r } }
      (p1.ready r.1 r.2.1).later r.2.2.2 .hoopLeaseExpiry [cl]
    | _, _ => p) s

/-- HOOP_LEASE_EXPIRY: c cycles have passed since the grant (R368). -/
def execHoopLeaseExpiry (s : State) : Res :=
  onPanel (fun p =>
    let cl := p.arg 0
    let h := (p.cluster cl).hoop
    if h.holder.isSome ∧ h.leaseEnd ≤ p.now then p.freeLease cl else p) s

/-! ### Accumulator views (R376) -/

/-- HACC between a view and a group of vectors. While a command runs it stalls: until the command that it found has ended, not for those queued
behind it (R376). -/
def Panel.hacc (p : Panel) (wr : Bool) (v i : Nat) : Panel :=
  p.hoopGate fun p =>
    let c := p.src
    let cols := accCols c
    let head := ((p.cluster (clusterOf p.cur.core)).hoop.cmds.head?).map (·.num)
    if noViews p ∨ accCount c ≤ i ∨ !vecOk p c v (2 * cols) then p.trapW 0x06
    else if head.isSome ∧ (p.cc.haccAt = none ∨ p.cc.haccAt = head) then (p.updC fun c => { c with haccAt := head }).retry
    else
      let p := p.updC fun c => { c with haccAt := none }
      let lc := p.cur.core
      let cl := clusterOf lc
      let e0 := accBase c + 16 * cols * i
      let entry := fun n => rsA lc (0x10000 + 8 * (e0 + n))
      let lanes_ := List.range (16 * cols)
      let q := if wr then
          let q := { p with mem := lanes_.foldl (fun m n => Memory.writeN m (entry n) 8 (lane 64 (p.vec (v + n / 8)) (n % 8))) p.mem }
          q.updCluster cl fun x =>
            { x with hoop := { x.hoop with nan := x.hoop.nan.filter fun b => !(512 * coreK lc + e0 ≤ b && b < 512 * coreK lc + e0 + 16 * cols) } }
        else
          p.putGroup v ((List.range (2 * cols)).map fun g =>
            BitVec.ofNat 512 (ofLanes 64 ((List.range 8).map fun l => Memory.readN p.mem (entry (8 * g + l)) 8)))
      (q.rsGap (4 * cols)).fin

def execHaccRd (a : Reg) (v : BitVec 1) (i : BitVec 3) (s : State) : Res := onPanel (fun p => p.hacc false (vnum v a) i.toNat) s
def execHaccWr (a : Reg) (v : BitVec 1) (i : BitVec 3) (s : State) : Res := onPanel (fun p => p.hacc true (vnum v a) i.toNat) s

end Sys2Proof.Machine
end

