-- ==== Sys2Proof/Machine/Engines.lean ====
section
/-! DEFINITION. Asynchronous engines: Relay, tile-walk, multicast read, bulk prefetch and drop, permits, ESTAT
(R323-R325, R356, R377-R387, R523). -/

namespace Sys2Proof.Machine

/-! ### Entries and faults -/

/-- A completion entry of q1 (R356). -/
def q1Entry (source status ch count : Nat) : W := w64 (source * 2 ^ 60 + status * 2 ^ 56 + ch * 2 ^ 53 + count % 2 ^ 32)

/-- HELD_COMPLETION_LAND: the oldest held completion whose queue has room lands (R244). -/
def execHeldCompletionLand (s : State) : Res :=
  onPanel (fun p =>
    let lc := p.arg 0
    let tag := p.arg 1
    match (p.blk lc tag).held.find? fun h => (p.queue lc tag h.q).length < qDepth h.q with
    | none => p
    | some h =>
      let p1 := (p.updBlk lc tag fun b => { b with held := b.held.erase h }).setQueue lc tag h.q (p.queue lc tag h.q ++ [h.entry])
      let p2 := if h.copies then p1.decC lc h.slot else p1.decT lc h.slot
      if (p2.blk lc tag).held = [] then p2 else p2.later 1 .heldCompletionLand [lc, tag]) s

/-! ### Relay (R377-R381) -/

/-- The block-relative mesh address of a barrier named by a Relay control value (R378). -/
def ctlBarrier (ctl : Nat) : Nat :=
  0x7FFFF800000000 + cut 8 (sgn 4 (bf ctl 62 59)) * 2 ^ 26 + cut 8 (sgn 4 (bf ctl 58 55)) * 2 ^ 18 + bf ctl 54 41 * 16

/-- The barrier a command names: its core and offset, a trap, or none. -/
def barOf (p : Panel) (va : Option Nat) : Except Nat (Option (Nat × Nat)) :=
  match va with
  | none => .ok none
  | some a =>
    match barCheck p a with
    | .lm t off _ => .ok (some (t, off))
    | .bad c => .error c
    | .paged => .error 0x03

/-- A range of a Relay command classified as a whole: a cause, or paged or not (R27, R36, R37); `res` when it is one of window offsets (R240). -/
def rangeCheck (p : Panel) (res : Bool) (va n : Nat) : Except Nat Bool :=
  match (if res then privPlace p p.src va n else place p p.src va n) with
  | .bad c => .error c
  | .paged => .ok true
  | .lm .. => .ok false

/-- Rows of a command's range, each with its first byte and its length, checked in order: a cause and the row's first byte, or the rows that are
paged (R36, R37). -/
def rangesCheck (p : Panel) (res : Bool) : List (Nat × Nat) → List (Nat × Nat) → Except (Nat × Nat) (List (Nat × Nat))
  | [], acc => .ok acc
  | r :: t, acc =>
    match rangeCheck p res r.1 r.2 with
    | .error c => .error (c, r.1)
    | .ok true => rangesCheck p res t (r :: acc)
    | .ok false => rangesCheck p res t acc

/-- A paged range of the running thread meets a page, known now, in the peer region that the access may not use: the first byte that fails
the checks of R44. -/
def Panel.peerBad (p : Panel) (write : Bool) (va n : Nat) : Option Nat :=
  let b := p.cb
  (upto (va / 65536) ((va + n - 1) / 65536 - va / 65536 + 1)).findSome? fun g =>
    let lo := max va (65536 * g)
    let hi := min (va + n) (65536 * (g + 1))
    match p.known (clusterOf p.cur.core) b.part b.asid g with
    | some t => if region (t.phys lo) = 3 ∧ (p.peerWord (p.part b.part) (t.phys lo) (hi - lo) write).isNone then some lo else none
    | none => none

/-- A free Relay channel takes a command; the panel after, with the start mark in `start`. -/
def Panel.relayStart (p : Panel) (ch : Nat) (x : Chan) : Panel :=
  let cl := clusterOf p.cur.core
  let mark := SMap.getD (p.cluster cl).rwp ch 0
  let y := { x with busy := true, req := x.src / 64, start := mark, core := p.cur.core, slot := p.cur.slot, btag := p.cc.btag, num := p.nid }
  (({ p with nid := p.nid + 1 }.updCluster cl fun c => { c with relay := SMap.set c.relay ch y }).incC).later (if x.len = 0 then 1 else 12)
    (if x.len = 0 then .relayComplete else .engineLineData) (if x.len = 0 then [cl, ch] else [0, cl, ch])

/-- Issue of a Relay command whose own fields are checked: source rows, destination, barrier (R378, R379). R44 is checked for the pages that are
mapped (log 62, DESIGN CHOICE). -/
def Panel.relayIssue (p : Panel) (d : Reg) (ch src dst len : Nat) (rows : List (Nat × Nat)) (bar : Option Nat) (shape : Option Line) (ctl : W)
    (mark : Bool) : Panel :=
  p.memory fun p =>
  let res := (shape.map shRes).getD 0 == 1
  if !res ∧ bf src 63 55 ≠ 0 then p.trap 0x03 (w64 src)
  else if bf dst 63 55 ≠ 0 then p.trap 0x03 (w64 dst)
  else
    match rangesCheck p res (if len = 0 then [(src, 0)] else rows) [], rangeCheck p false dst len with
    | .error c, _ => p.trap c.1 (w64 c.2)
    | .ok _, .error c => p.trap c (w64 dst)
    | .ok ps, .ok pd =>
      match (if len = 0 then none else ps.reverse.find? fun r => !strictOk p.cl r.1 r.2 1) with
      | some r => p.violation r.1
      | none =>
        if pd ∧ len ≠ 0 ∧ ¬ strictOk p.cl dst len 2 then p.violation dst
        else
          match barOf p bar, (if len = 0 then none else ps.reverse.findSome? fun r => p.peerBad false r.1 r.2),
              (if pd && len != 0 then p.peerBad true dst len else none) with
          | .error c, _, _ => p.trapA c (bar.getD 0)
          | .ok _, some va, _ => p.trap 0x05 (w64 va)
          | .ok _, none, some va => p.trap 0x05 (w64 va)
          | .ok b, none, none =>
            let cl := clusterOf p.cur.core
            if (p.chan cl ch).busy ∨ !p.roomC then p.retry
            else
              let st := SMap.getD (p.cluster cl).rwp ch 0
              let q := p.relayStart ch
                { src := src, dst := dst, len := len, ctl := ctl, shape := shape
                  barCore := match b with | some e => e.1 + 1 | none => 0
                  barOff := match b with | some e => e.2 | none => 0 }
              (if mark then q.putG d st else q).fin

/-- RCOPY (R378). -/
def execRcopy (d a b : Reg) (c : BitVec 3) (s : State) : Res :=
  onPanel (fun p => p.atHome fun p =>
    let ctl := (p.gv d).toNat
    let src := (p.gv a).toNat
    let dst := (p.gv b).toNat
    let len := bf ctl 31 0
    if bf ctl 40 32 ≠ 0 ∨ (!bt ctl 63 ∧ bf ctl 62 41 ≠ 0) then p.trap 0x03 (w64 ctl)
    else p.relayIssue d c.toNat src dst len [(src, len)] (if bt ctl 63 then some (ctlBarrier ctl) else none) none (w64 ctl) true) s

/-- Row length of RCOPY2D in bytes, or none where the shape breaks its limits (R379). -/
def row2d (s : Line) : Option Nat :=
  if !shapeOk s ∨ shExt s 2 ≠ 1 ∨ shExt s 3 ≠ 1 then none
  else
    let r :=
      if shDesc s then
        if shExt s 0 % fmtCount (shFmt s) ≠ 0 then none else some (64 * (shExt s 0 / fmtCount (shFmt s)))
      else if shStr s 0 ≠ shEbits s ∨ shExt s 0 * shEbits s % 8 ≠ 0 then none
      else some (shExt s 0 * shEbits s / 8)
    match r with
    | none => none
    | some n => if 2 ^ 32 ≤ n * shExt s 1 then none else some n

/-- Source byte `o` of row `i` of RCOPY2D, and how many bytes follow it without a break (R379). -/
def rowByte (s : Line) (rb i o : Nat) : Nat × Nat :=
  let base := shBase s + i * shStr s 1
  if shSwz s = 0 then (base + o, rb - o)
  else (base + (o ^^^ ((i &&& shXmask s) * shGran s)), min (rb - o) (shGran s - o % shGran s))

/-- First byte and length of the bytes of row `i` in memory: from the granule that lies lowest to the one that lies highest (R37). -/
def rowRange (s : Line) (rb i : Nat) : Nat × Nat :=
  if shSwz s = 0 then (shBase s + i * shStr s 1, rb)
  else
    let es := (List.range (cdiv rb (shGran s))).map fun k => rowByte s rb i (k * shGran s)
    let lo := es.foldl (fun m e => min m e.1) (rowByte s rb i 0).1
    (lo, es.foldl (fun m e => max m (e.1 + e.2)) 0 - lo)

/-- RCOPY2D (R379); a source with RES = 1 lies at window offsets (R240). -/
def execRcopy2d (s_ a b : Reg) (c : BitVec 3) (s : State) : Res :=
  onPanel (fun p => p.atHome fun p =>
    let sh := p.src.shape s_.toNat
    match row2d sh with
    | none => p.trapW 0x08
    | some rb =>
      p.relayIssue 0 c.toNat (shBase sh) (p.gv a).toNat (rb * shExt sh 1) ((List.range (shExt sh 1)).map (rowRange sh rb))
        (if b = 0 then none else some (p.gv b).toNat) (some sh) 0 false) s

/-- Source address of destination byte `pos`, and how many source bytes follow it without a break (R379). -/
def relaySrc (x : Chan) (pos : Nat) : Nat × Nat :=
  match x.shape with
  | none => (x.src + pos, x.len - pos)
  | some s =>
    match row2d s with
    | none => (x.src + pos, x.len - pos)
    | some rb => rowByte s rb (pos / rb) (pos % rb)

/-- A place an engine reads or writes: in a core's local memory, or a physical address, its key and its leaf's attributes. -/
inductive EngPlace where
  | lm (core off : Nat)
  | mem (pa key attr : Nat)
  | wait (page : Nat)
  | fault (page : Nat)
  | fatal (cause : Nat)
  deriving DecidableEq, Repr

/-- The place of `n` bytes at a virtual address for an engine command. -/
def engPlace (p : Panel) (cl : Nat) (c : Ctx) (res : Bool) (va n need : Nat) : EngPlace :=
  let b := p.block c.btag
  match (if res then privPlace p c va n else place p c va n) with
  | .lm t off _ => .lm t off
  | .bad x => .fatal x
  | .paged =>
    match p.xlate cl b.part b.asid (va / 65536) need b.priv with
    | .wait => .wait (va / 65536)
    | .fault _ => .fault (va / 65536)
    | .fatal x => .fatal x
    | .ok t => .mem (t.phys va) t.key t.attr

/-- A source with RES = 1 lies at window offsets (R240). -/
def Chan.res (x : Chan) : Bool := (x.shape.map shRes).getD 0 == 1

/-- The first byte of a command's source in memory, and the one after its last. -/
def Chan.span (x : Chan) : Nat × Nat :=
  match x.shape with
  | none => (x.src, x.src + x.len)
  | some s =>
    match row2d s with
    | none => (x.src, x.src + x.len)
    | some rb =>
      ((List.range (shExt s 1)).map (rowRange s rb)).foldl (fun (e : Nat × Nat) r => (min e.1 r.1, max e.2 (r.1 + r.2))) (rowRange s rb 0)

/-- The lowest line from `l` on that holds source bytes of the rows still to be copied (R379, R523). -/
def Chan.nextLine (x : Chan) (l : Nat) : Option Nat :=
  let first := fun (r : Nat × Nat) => if r.2 = 0 ∨ (r.1 + r.2 - 1) / 64 < l then none else some (max l (r.1 / 64))
  match x.shape with
  | none => first (x.src, x.len)
  | some s =>
    match row2d s with
    | none => none
    | some rb =>
      ((List.range (shExt s 1)).drop (x.done / rb)).foldl (fun best i =>
        match best, first (rowRange s rb i) with
        | none, y => y
        | some a, none => some a
        | some a, some b => some (min a b)) none

/-- No byte still to be copied lies below this line. -/
def Chan.floor (x : Chan) : Nat :=
  match x.shape with
  | none => (x.src + x.done) / 64
  | some s =>
    match row2d s with
    | none => 0
    | some rb => (shBase s + x.done / rb * shStr s 1 + (if shSwz s = 0 ∧ (shExt s 1 ≤ x.done / rb + 1 ∨ x.done % rb ≤ shStr s 1) then x.done % rb else 0)) / 64

/-- A line of a channel's source, or a piece of its destination, at the host or a peer, asked of its home slice (R42, R44): its record's slot number
names the channel (16 + ch). -/
def Panel.relayAsk (p : Panel) (cl ch : Nat) (write : Bool) (va pa key attr n data : Nat) : Panel :=
  let x := p.chan cl ch
  let id := p.nid
  let part : Part := ⟨pa / 64, pa % 64, n, 0, key, false, attr⟩
  let a : Access := { mkAcc (if write then .store else .load) .none va n with
    id := id, core := clusterCore cl 0, slot := 16 + ch, btag := x.btag, pa := pa, data := data, stage := .out, pc := 0, parts := [part] }
  { p with nid := id + 1, accs := SMap.set p.accs id a }.ask (p.part (p.block x.btag).part) x.core ⟨.acc id 0, x.core, part.line, part.key⟩

/-- A channel's command ends early with a status, which its entry carries unless another arose before (R356, R381). -/
def Panel.relayStop (p : Panel) (cl ch st : Nat) : Panel :=
  (p.updChan cl ch fun x => { x with status := if x.status = 0 then st else x.status, len := x.done, busyLine := false, parked := false }).relayNext cl ch

/-- A channel's access to a peer that the slot's word does not allow: the imprecise trap of R44, and status REGION (log 62, DESIGN CHOICE). -/
def Panel.relayRefused (p : Panel) (cl ch va : Nat) : Panel :=
  let x := p.chan cl ch
  (p.trapThread x.core x.slot 0x05 (w64 va)).relayStop cl ch 4

/-- A channel asks for a line of its source (R523): of HBM, or of the host or a peer, of which it asks only its own bytes. -/
def Panel.relayRead (p : Panel) (cl ch l pa key attr : Nat) : Panel :=
  let x := p.chan cl ch
  let e := Eng.relay cl ch
  if region pa = 0 then p.engAsk e l pa key attr
  else
    let lo := max (64 * l) x.span.1
    let n := min (64 * l + 64) x.span.2 - lo
    let pa := pa + (lo - 64 * l)
    if region pa = 3 ∧ (p.peerWord (p.part (p.block x.btag).part) pa n false).isNone then p.engMiss e l 5
    else
      let r : Rd := { vline := l, num := p.nid, attr := attr }
      (p.updRds e fun rs => rs ++ [r]).relayAsk cl ch false lo pa key attr n 0

/-- A channel reads ahead: its source lines in ascending order, up to 32 in flight, as far as their pages are translated; a fault waits until
its line is needed (R377, R381, R523). -/
def Panel.relayAhead (p : Panel) (cl ch : Nat) : Nat → Panel
  | 0 => p
  | k + 1 =>
    let x := p.chan cl ch
    let need := (relaySrc x x.done).1 / 64
    if readDepth ≤ (x.rds.filter fun r => r.data.isNone || decide (need ≤ r.vline)).length then p
    else
      match x.nextLine x.req with
      | none => p
      | some l =>
        let p1 := p.updChan cl ch fun x => { x with req := l + 1 }
        if x.rds.any fun r => r.vline == l then p1.relayAhead cl ch k
        else
          match engPlace p cl (engCtx p x.core x.slot x.btag) false (64 * l) 1 1 with
          | .mem pa key attr => (p1.relayRead cl ch l pa key attr).relayAhead cl ch k
          | .wait g => p.engWait cl x.btag x.core g .engineLineData [0, cl, ch]
          | .lm .. => p
          | .fault _ => p
          | .fatal _ => p

/-- A channel's command parks at a page (R157, R381). -/
def Panel.relayPark (p : Panel) (cl ch page : Nat) : Panel :=
  let x := p.chan cl ch
  (p.updChan cl ch fun x => { x with parked := true, fva := page * 65536 }).engFault x.btag x.core page

/-- A chunk's bytes go to the destination: a core's FIFO, a home slice's queue, the host or a peer (R94, R122, R380). -/
def Panel.relayPut (p : Panel) (cl ch n v : Nat) (dst : EngPlace) : Panel :=
  let x := p.chan cl ch
  let va := x.dst + x.done
  let on := p.updChan cl ch fun x => { x with busyLine := true }
  match dst with
  | .lm t off =>
    on.send x.core t (.line off n v (2 ^ (8 * n) - 1) (wordsDone off n (off + (x.len - x.done))) (.relay cl ch x.num))
  | .mem pa key attr =>
    if region pa = 0 then
      on.ask (p.part (p.block x.btag).part) x.core ⟨.put (.relay cl ch) x.num (pa % 64) n v (2 ^ (8 * n) - 1), x.core, pa / 64, key⟩
    else if region pa = 3 ∧ (p.peerWord (p.part (p.block x.btag).part) pa n true).isNone then p.relayRefused cl ch va
    else on.relayAsk cl ch true va pa key attr n v
  | .wait _ => p | .fault _ => p | .fatal _ => p

/-- The next chunk of a channel, within one line of source and destination, is written once its source line has been read. A fault of either page
parks the command before any byte of the chunk moves (R380, R381); the channel of a launch that has ended finishes the lines that it has asked for,
and is free (R165). -/
def Panel.relayChunk (p : Panel) (cl ch : Nat) : Panel :=
  let x := p.chan cl ch
  if !x.busy ∨ x.parked ∨ x.busyLine ∨ x.len ≤ x.done then p
  else
    let c := engCtx p x.core x.slot x.btag
    let sp := relaySrc x x.done
    let sva := sp.1
    let dva := x.dst + x.done
    let n := min (min sp.2 (x.len - x.done)) (min (64 - sva % 64) (64 - dva % 64))
    let local_ := x.res || regionOf sva != .paged
    let q := if x.dying ∨ local_ then p
      else (p.updChan cl ch fun x => { x with rds := x.rds.filter fun r => decide (x.floor ≤ r.vline) }).relayAhead cl ch readDepth
    let x := q.chan cl ch
    let wait := fun (g : Nat) => q.engWait cl x.btag x.core g .engineLineData [0, cl, ch]
    match engPlace q cl c false dva n 2 with
    | .wait g => if x.dying then q.updChan cl ch fun _ => {} else wait g
    | .fault g => if x.dying then q.updChan cl ch fun _ => {} else q.relayPark cl ch g
    | .fatal e => q.relayFatal cl ch e dva
    | dst =>
      match x.rds.find? fun r => r.vline == sva / 64 && !local_ with
      | some r =>
        (match r.data with
        | none => q
        | some d =>
          if q.now < r.at_ then q
          else if r.err = 5 then q.relayRefused cl ch sva
          else if r.err ≠ 0 then q.relayFatal cl ch r.err sva
          else q.relayPut cl ch n (bf d.toNat (8 * (sva % 64 + n) - 1) (8 * (sva % 64))) dst)
      | none =>
        if x.dying then q.updChan cl ch fun _ => {}
        else
          match engPlace q cl c x.res sva n 1 with
          | .wait g => wait g
          | .fault g => q.relayPark cl ch g
          | .fatal e => q.relayFatal cl ch e sva
          | .lm t off => q.relayPut cl ch n (q.lmRead t off n) dst
          | .mem pa key attr =>
            if readDepth ≤ (x.rds.filter fun r => r.data.isNone).length then q
            else q.relayRead cl ch (sva / 64) (pa / 64 * 64) key attr

/-- The answer to a channel's access to the host or a peer: the bytes read are there, the bytes written in place. -/
def Panel.relayAnswer (p : Panel) (a : Access) (data : Nat) : Panel :=
  let cl := clusterOf a.core
  let ch := a.slot - 16
  let x := p.chan cl ch
  if !x.busy then p
  else if a.kind = .store then (if x.busyLine then p.relayAdvance cl ch a.size else p)
  else p.engGot (.relay cl ch) x.num a.id 1 0 (BitVec.ofNat 512 (data % 2 ^ (8 * a.size) * 2 ^ (8 * (a.pa % 64))))

/-- The source number of a cluster's staging path among those of a slice. -/
def stageSrc (cl : Nat) : Nat := 2 ^ 21 + cl

/-- A piece of a staging copy in host or peer memory asked of its home slice (R42, R44, R435); a peer slot that refuses it raises PEER_REFUSED
(log 74, DESIGN CHOICE). -/
def Panel.stageExt (p : Panel) (cl : Nat) (x : Stage) (pa n key : Nat) : Panel :=
  let q := p.part (p.launch x.launch).part
  if region pa = 3 ∧ (p.peerWord q pa n false).isNone then p.stageFail cl x.num 0x36
  else
    let id := p.nid
    let part : Part := ⟨pa / 64, pa % 64, n, 0, key, false, 0⟩
    let a : Access := { mkAcc .load .none (x.va + x.done) n with
      id := id, core := clusterCore cl 0, slot := 24, btag := 0, ring := x.num, pa := pa, stage := .out, pc := 0, parts := [part] }
    { p with nid := id + 1, accs := SMap.set p.accs id a }.ask q (clusterCore cl 0) ⟨.acc id 0, stageSrc cl, part.line, key⟩

/-- The next `n` bytes of a staging command, of one line, are asked for: they become a piece of their own, before what is left (R377). -/
def Panel.stageCut (p : Panel) (cl num n : Nat) : Panel :=
  ({ p with nid := p.nid + 1 } : Panel).updCluster cl fun c =>
    { c with stage := c.stage.flatMap fun y =>
        if y.num == num then
          { y with asked := true, len := min y.len (y.done + n) } ::
            if y.done + n < y.len then [{ y with num := p.nid, done := y.done + n }] else []
        else [y] }

/-- The next lines of the staging path, up to 32 in flight (R377, R435, R436): each is asked of its home slice. A page without a translation is
passed over, and so is one outside HBM for L2. -/
def Panel.stageAsk (p : Panel) (cl : Nat) : Panel :=
  match (p.cluster cl).stage.find? fun x => !x.asked with
  | none => p
  | some x =>
    let l := p.launch x.launch
    let va := x.va + x.done
    let n := min (64 - va % 64) (x.len - x.done)
    if 32 ≤ ((p.cluster cl).stage.filter (·.asked)).length then p
    else
      match p.xlate cl l.part l.asid (va / 65536) 1 l.priv with
      | .wait =>
        (p.engWalk cl l.part l.asid (va / 65536) (clusterCore cl 0) (engineNo .engineLineData [1, cl, 0])).once 8 .engineLineData [1, cl, 0]
      | .fault _ => (p.woutDrop cl l.part l.asid (va / 65536)).stageNext cl x.num n
      | .fatal c => p.raiseHalt l.part (siteOf p.fabric (clusterCore cl 0)) 1 c (w64 va)
      | .ok t =>
        let p1 := p.stageCut cl x.num n
        if region (t.phys va) ≠ 0 then
          (if x.core = 0 then p.stageNext cl x.num n else (p1.stageExt cl x (t.phys va) n t.key).once 1 .engineLineData [1, cl, 0])
        else
          (p1.ask (p.part l.part) (clusterCore cl 0) ⟨.stage cl x.num, stageSrc cl, t.phys va / 64, t.key⟩).once 1 .engineLineData [1, cl, 0]

/-- ENGINE_LINE_DATA: kind 0 a Relay channel, kind 1 the staging path of a cluster (R377, R523). -/
def execEngineLineData (s : State) : Res :=
  onPanel (fun p => if p.arg 0 = 0 then p.relayChunk (p.arg 1) (p.arg 2) else p.stageAsk (p.arg 1)) s

/-- RELAY_COMPLETE: the channel is free and the q1 entry is pushed (R380). -/
def execRelayComplete (s : State) : Res :=
  onPanel (fun p =>
    let cl := p.arg 0
    let ch := p.arg 1
    let x := p.chan cl ch
    if !x.over then p
    else (p.updChan cl ch fun _ => {}).complete x.core x.btag 1 (q1Entry 1 x.status ch x.done) x.slot true) s

/-- PEND_DECREMENT: performed at the object's bank; a failure gives the command that sent it status BAR (R200). -/
def execPendDecrement (s : State) : Res :=
  onPanel (fun p =>
    let lc := p.arg 0
    let p := p.incoming .pendDecrement
    match p.head lc with
    | some (.pend off tag n cl ch num) =>
      let r := ((p.pop lc).bankCharge lc tag 1).pendSub lc off tag n
      let x := r.1.chan cl ch
      if !x.busy ∨ x.num ≠ num then r.1
      else
        (r.1.updChan cl ch fun x => { x with decs := x.decs - 1, status := if r.2 ∨ x.status ≠ 0 then x.status else 6 }).relayNext cl ch
    | _ => p) s

/-! ### Tile-walk engine (R382-R385) -/

/-- Bytes of a tile row and of a tile in its slot (R383). -/
def walkRow (s : Line) : Nat := if shDesc s then 64 * (shCols s / fmtCount (shFmt s)) else cdiv (shCols s * shEbits s) 8
def walkTile (s : Line) : Nat := if shDesc s then shRows s * walkRow s else cdiv (shRows s * walkRow s) 64 * 64

/-- Number of tiles (R383). -/
def walkTiles (s : Line) : Nat := cdiv (shExt s 0) (shCols s) * cdiv (shExt s 1) (shRows s) * shExt s 2 * shExt s 3

/-- Last byte of a paged tensor. -/
def tensorLast (s : Line) : Nat := (rowEnds s 0 (shExt s 0) (shExt s 1 - 1) (shExt s 2 - 1) (shExt s 3 - 1)).2

/-- TWALK and TWALK.WB (R382, R383). A described tensor whose TCOLS is not a multiple of its block's element count raises SHAPE_FAULT, as it does
for a tile load: R383 states no such limit (log 63, DESIGN CHOICE). -/
def Panel.twalk (p : Panel) (wb : Bool) (r : Reg) (maskV ctl : W) : Panel :=
  p.atHome fun p => p.memory fun p =>
    let s := p.src.shape r.toNat
    let b := ctl.toNat
    let b' := p.cb
    let dests : Except Nat (List Nat) := if wb then .ok [p.home] else maskTargets p p.src maskV.toNat false
    match dests with
    | .error c => p.trap c maskV
    | .ok ds =>
      let off := bf b 17 0
      let slots := bf b 27 24 + 1
      let base := shBase s
      if bf b 63 28 ≠ 0 ∨ bf b 23 18 ≠ 0 ∨ off % 64 ≠ 0 then p.trap 0x03 ctl
      else if !shapeOk s then p.trapW 0x08
      else if shRes s ≠ 0 ∨ regionOf base ≠ .paged then p.trap 0x03 (w64 base)
      else if (!shClamp s ∧ (shExt s 0 % shCols s ≠ 0 ∨ shExt s 1 % shRows s ≠ 0)) ∨ (shDesc s ∧ shCols s % fmtCount (shFmt s) ≠ 0) then
        p.trapW 0x08
      else if regionOf (tensorLast s) ≠ .paged then p.trap 0x03 (w64 base)
      else if ds ≠ [] ∧ b'.lmSize * 1024 < off + slots * walkTile s then p.trap 0x03 (w64 off)
      else if !strictOk p.cl base (tensorLast s + 1 - base) (if wb then 2 else 1) then p.violation base
      else if (p.core p.cur.core).walk.busy ∨ !p.roomC then p.retry
      else
        let w : Walk := { busy := true, wb := wb, shape := s, dests := ds, off := off, slots := slots, tiles := if ds = [] then 0 else walkTiles s
                          slot := p.cur.slot, btag := p.cc.btag, num := p.nid }
        (({ p with nid := p.nid + 1 }.updCore p.cur.core fun c => { c with walk := w }).incC.later 12 (if ds = [] then .twalkComplete else .twalkTile) [p.cur.core]).fin

def execTwalk (s_ a b : Reg) (s : State) : Res := onPanel (fun p => p.twalk false s_ (p.gv a) (p.gv b)) s
def execTwalkWb (s_ b : Reg) (s : State) : Res := onPanel (fun p => p.twalk true s_ 0 (p.gv b)) s

/-- Origin of tile t: (i0, i1, i2, i3) (R383). -/
def tileOrg (s : Line) (t : Nat) : Nat × Nat × Nat × Nat :=
  let tc := cdiv (shExt s 0) (shCols s)
  let tr := cdiv (shExt s 1) (shRows s)
  (t % tc * shCols s, t / tc % tr * shRows s, t / (tc * tr) % shExt s 2, t / (tc * tr) / shExt s 2)

/-- Bits of a unit of a tile: an element in plain layout, a block in described layout. -/
def unitBits (s : Line) : Nat := if shDesc s then 512 else shEbits s

/-- Units of a tile row. -/
def rowUnits (s : Line) : Nat := if shDesc s then shCols s / fmtCount (shFmt s) else shCols s

/-- Units of a tile. -/
def tileUnits (s : Line) : Nat := shRows s * rowUnits s

/-- First bit of unit `i` in its tile's slot (R383). -/
def unitStart (s : Line) (i : Nat) : Nat := 8 * (i / rowUnits s * walkRow s) + i % rowUnits s * unitBits s

/-- Tensor coordinates (i0, i1) of unit `i` of a tile. -/
def unitAt (s : Line) (tile i : Nat) : Nat × Nat :=
  let o := tileOrg s tile
  (o.1 + i % rowUnits s * (if shDesc s then fmtCount (shFmt s) else 1), o.2.1 + i / rowUnits s)

/-- A unit inside the extents. -/
def unitInside (s : Line) (tile i : Nat) : Bool := let e := unitAt s tile i; decide (e.1 < shExt s 0) && decide (e.2 < shExt s 1)

/-- First bit of unit `i` of a tile in the tensor. -/
def unitSrc (s : Line) (tile i : Nat) : Nat :=
  let o := tileOrg s tile
  let e := unitAt s tile i
  if shDesc s then 8 * blockAddr s e.1 e.2 o.2.2.1 o.2.2.2 else elemBit s e.1 e.2 o.2.2.1 o.2.2.2

/-- The units of a tile that lie inside the extents. -/
def insideUnits (s : Line) (tile : Nat) : List Nat := (List.range (tileUnits s)).filter (unitInside s tile)

/-- The lines of the tensor that a tile lies in, ascending: the walker moves one after another (R381, R385, R523). -/
def tileLines (s : Line) (tile : Nat) : List Nat :=
  risingOnce (((insideUnits s tile).flatMap fun i =>
    let a := unitSrc s tile i
    upto (a / 512) ((a + unitBits s - 1) / 512 - a / 512 + 1)).mergeSort (· ≤ ·))

/-- What a line of the tensor gives to its tile's slot: for each unit with bits in it, the first such bit in the slot, its first bit in the line, and
their number. -/
def lineRuns (s : Line) (tile l : Nat) : List (Nat × Nat × Nat) :=
  (insideUnits s tile).filterMap fun i =>
    let a := unitSrc s tile i
    let lo := max a (512 * l)
    let hi := min (a + unitBits s) (512 * l + 512)
    if hi ≤ lo then none else some (unitStart s i + (lo - a), lo - 512 * l, hi - lo)

/-- The bits of a slot that units outside the extents fill, and the mask of those bits: zeros, or zero blocks (R361, R383). -/
def outsideBits (s : Line) (tile : Nat) : Nat × Nat :=
  ((List.range (tileUnits s)).filter fun i => !unitInside s tile i).foldl (fun (r : Nat × Nat) i =>
    (r.1 + (if shDesc s then zeroBlock (shFmt s) else 0) * 2 ^ unitStart s i, r.2 + (2 ^ unitBits s - 1) * 2 ^ unitStart s i)) (0, 0)

/-- The words of a slot, and for each the line of the tensor that brings its last bit (R89): `last` brings what lies outside the extents. -/
def wordLines (s : Line) (tile last : Nat) : List (Nat × Nat) :=
  (List.range (tileUnits s)).flatMap fun i =>
    let st := unitStart s i
    (upto (st / 64) ((st + unitBits s - 1) / 64 - st / 64 + 1)).map fun w =>
      (w, if unitInside s tile i then (unitSrc s tile i + (min (st + unitBits s) (64 * w + 64) - st) - 1) / 512 else last)

/-- The words of a slot that a line of the tensor completes. -/
def wordsBy (s : Line) (tile l last : Nat) : List Nat :=
  let ws := wordLines s tile last
  ((((ws.filter fun e => e.2 == l).map (·.1)).mergeSort (· ≤ ·)) |> risingOnce).filter fun w => ws.all fun e => e.1 != w || decide (e.2 ≤ l)

/-- A line of a tile goes to the slot on every core of the mask, with the words that it completes; one packet for each line of the slot that it
reaches (R89, R94, R385). -/
def Panel.walkSend (p : Panel) (lc : Nat) (w : Walk) (l last : Nat) (d : Line) : Panel :=
  let s := w.shape
  let base := (p.block w.btag).lmBase * 1024 + w.off + w.tile % w.slots * walkTile s
  let x := (lineRuns s w.tile l).foldl (fun (r : Nat × Nat) e => (r.1 + bf d.toNat (e.2.1 + e.2.2 - 1) e.2.1 * 2 ^ e.1, r.2 + (2 ^ e.2.2 - 1) * 2 ^ e.1))
    (if l = last then outsideBits s w.tile else (0, 0))
  let words := wordsBy s w.tile l last
  let ps := (List.range (cdiv (walkTile s) 64)).filterMap fun k =>
    let m := bf x.2 (512 * k + 511) (512 * k)
    let ws := words.filter fun v => v / 8 == k
    if m = 0 ∧ ws = [] then none
    else some (Pay.line (base + 64 * k) (min 64 (walkTile s - 64 * k)) (bf x.1 (512 * k + 511) (512 * k)) m (ws.map fun v => base / 8 + v) (.walk lc w.num))
  (ps.foldl (fun q k => w.dests.foldl (fun q t => q.send lc t k) q) p).updWalk lc fun w => { w with left := w.left + ps.length * w.dests.length }

/-- A header of a described tile's line: a poison block, or one that is no block of the tensor (R63, R66). -/
def walkHeader (s : Line) (r : Rd) (d : Line) : Option Nat :=
  if !shDesc s then none
  else if !bt r.attr 4 then some 2
  else if d.toNat % 256 = 0xFF then some 0x33
  else if fmtCount (d.toNat % 256) ≠ fmtCount (shFmt s) then some 2
  else none

/-- The walker stops with a status, or at a class F cause. -/
def Panel.walkStop (p : Panel) (lc st va : Nat) : Panel :=
  if 8 < st then p.walkFatal lc st va else (p.updWalk lc fun w => { w with status := st }).walkNext lc

/-- The walker parks at a page (R157, R381). -/
def Panel.walkPark (p : Panel) (lc g : Nat) : Panel :=
  (p.updWalk lc fun w => { w with parked := true, fva := 65536 * g }).engFault (p.core lc).walk.btag lc g

/-- A fetch reads ahead within its tile, up to 32 lines (R523); a fault waits until its line is needed. -/
def Panel.walkAhead (p : Panel) (lc : Nat) (ls : List Nat) : Nat → Panel
  | 0 => p
  | k + 1 =>
    let w := (p.core lc).walk
    if readDepth ≤ w.rds.length then p
    else
      match ls[w.asked]? with
      | none => p
      | some l =>
        match p.askLine (clusterOf lc) (.walk lc) l with
        | .ok q => (q.updWalk lc fun w => { w with asked := w.asked + 1 }).walkAhead lc ls k
        | .wait g => p.engWait (clusterOf lc) w.btag lc g .twalkTile [lc]
        | .fault _ => p
        | .fatal _ => p

/-- The walker's present line has been moved. -/
def Panel.walkStep1 (p : Panel) (lc l : Nat) : Panel :=
  (p.updWalk lc fun w => { w with pos := w.pos + 1, rds := w.rds.filter fun r => r.vline != l }).walkNext lc

/-- A fetch's present line: sent to the slots once it has been read (R385). -/
def Panel.walkFetch (p : Panel) (lc l last : Nat) : Panel :=
  let w := (p.core lc).walk
  match w.rds.find? fun r => r.vline == l with
  | some r =>
    (match r.data with
    | none => p
    | some d =>
      if p.now < r.at_ then p
      else if r.err = 1 then p.walkStop lc 4 (64 * l)
      else if r.err ≠ 0 then p.walkStop lc r.err (64 * l)
      else
        match walkHeader w.shape r d with
        | some st => p.walkStop lc st (64 * l)
        | none => (p.walkSend lc w l last d).walkStep1 lc l)
  | none =>
    if w.dying then p
    else
      match p.askLine (clusterOf lc) (.walk lc) l with
      | .ok _ => p
      | .wait _ => p
      | .fault g => p.walkPark lc g
      | .fatal e => p.walkStop lc e (64 * l)

/-- A write-back's present line: the slot's bits of the units inside the extents, written at the home slice; W alone is needed (R153, R383, R385). -/
def Panel.walkBack (p : Panel) (lc l : Nat) : Panel :=
  let w := (p.core lc).walk
  let s := w.shape
  let b := p.block w.btag
  let base := b.lmBase * 1024 + w.off + w.tile % w.slots * walkTile s
  match p.xlate (clusterOf lc) b.part b.asid (l / 1024) 2 b.priv with
  | .wait => p.engWait (clusterOf lc) w.btag lc (l / 1024) .twalkTile [lc]
  | .fault _ => p.walkPark lc (l / 1024)
  | .fatal c => p.walkStop lc c (64 * l)
  | .ok t =>
    let pa := t.phys (64 * l)
    if region pa ≠ 0 then p.walkStop lc 4 (64 * l)
    else
      let x := (lineRuns s w.tile l).foldl (fun (r : Nat × Nat) e =>
        (r.1 + Memory.readBits p.mem (8 * lmA lc base + e.1) e.2.2 * 2 ^ e.2.1, r.2 + (2 ^ e.2.2 - 1) * 2 ^ e.2.1)) (0, 0)
      (p.updWalk lc fun w => { w with busyLine := true }).ask (p.part b.part) lc ⟨.put (.walk lc) w.num 0 64 x.1 x.2, lc, pa / 64, t.key⟩

/-- TWALK_TILE: a permit is taken from q2 before a tile; then the tile's lines move, one after another (R384, R385). The walker of a launch that has
ended finishes the lines that it has asked for, and is free (R165). -/
def execTwalkTile (s : State) : Res :=
  onPanel (fun p =>
    let lc := p.arg 0
    let w := (p.core lc).walk
    if !w.busy ∨ w.parked ∨ w.busyLine ∨ w.status ≠ 0 then p
    else if w.dying ∧ w.rds = [] then (if w.left = 0 then p.updWalk lc fun _ => {} else p)
    else if w.tiles ≤ w.tile then p
    else
      let es := p.queue lc w.btag 2
      if !w.permit ∧ es = [] then p.updWalk lc fun w => { w with waiting := true }
      else
        let p1 := if w.permit then p else (p.setQueue lc w.btag 2 (es.drop 1)).updWalk lc fun w => { w with permit := true, waiting := false }
        let ls := tileLines w.shape w.tile
        match ls[w.pos]? with
        | none => (p1.updWalk lc fun w => { w with tile := w.tile + 1, pos := 0, asked := 0, permit := false }).walkNext lc
        | some l =>
          if w.wb then p1.walkBack lc l
          else (if w.dying then p1 else p1.walkAhead lc ls readDepth).walkFetch lc l (ls.getLastD 0)) s

/-- TWALK_COMPLETE: the walker is free and its q1 entry is pushed (R385). -/
def execTwalkComplete (s : State) : Res :=
  onPanel (fun p =>
    let lc := p.arg 0
    let w := (p.core lc).walk
    if !w.over then p
    else (p.updWalk lc fun _ => {}).complete lc w.btag 1 (q1Entry 5 w.status 0 w.tile) w.slot true) s

/-- A permit pushed into q2 of a block's group; a waiting walker goes on (R384). -/
def Panel.pushPermit (p : Panel) (lc tag : Nat) : Panel :=
  let p1 := p.setQueue lc tag 2 (p.queue lc tag 2 ++ [1])
  let w := (p.core lc).walk
  if w.busy ∧ w.waiting ∧ w.btag = tag then p1.later 1 .twalkTile [lc] else p1

/-- TWPERM (R384). A core outside the issuing block raises PARTITION_VIOLATION, as a TWALK's mask does: the rule names no trap (log 63, DESIGN
CHOICE). -/
def execTwperm (a : Reg) (s : State) : Res :=
  onPanel (fun p => p.atHome fun p => p.memory fun p =>
    let x := (p.gv a).toNat
    match destTarget p p.src x false with
    | .error e => p.trap e (w64 x)
    | .ok t =>
      if !(blockCores p.cb).contains t then p.trap 0x05 (w64 x)
      else if t = p.cur.core then
        if qDepth 2 ≤ (p.queue t p.cc.btag 2).length then p.retry else (p.pushPermit t p.cc.btag).fin
      else if !p.roomS ∨ p.heldTo t then p.retry
      else
        let id := p.nid
        let acc : Access := { mkAcc .twperm .stores 0 0 with
          id := id, core := p.cur.core, slot := p.cur.slot, btag := p.cc.btag, target := t, pc := p.cc.pc, stage := .out }
        (({ p with nid := id + 1, accs := SMap.set p.accs id acc }).incS.send p.cur.core t (.twperm p.cc.btag id)).fin) s

/-- TWPERM_ARRIVAL: pushed, and its store count lowered; the router holds it while q2 is full (R384). -/
def execTwpermArrival (s : State) : Res :=
  onPanel (fun p =>
    let lc := p.arg 0
    let p := p.incoming .twpermArrival
    match p.headK lc with
    | some ⟨.twperm tag id, src, seq⟩ =>
      let q := if p.stale lc ⟨.twperm tag id, src, seq⟩ then p.pop lc else (p.pop lc).pushPermit lc tag
      match q.acc id with
      | some a => ((q.performed id).uncount a).delAcc id
      | none => q
    | _ => p) s

/-! ### Multicast read (R323-R325) -/

/-- MCRD's token in q1 (R325). -/
def mcrdToken (x : Bulk) : W :=
  w64 (3 * 2 ^ 60 + x.status * 2 ^ 56 + (if x.status ≤ 1 then x.mask else 0) * 2 ^ 40 + (x.lines - 1) * 2 ^ 30 +
    (if x.status = 0 then (if x.mask = 0 then 0 else x.lines) else if x.status = 1 then x.next else 0) * 2 ^ 18 + x.off % 2 ^ 18)

/-- MCRD (R323). With an empty mask it is complete at its mask check; only an entry that q1 has no room for is counted. -/
def execMcrd (d a b : Reg) (l : BitVec 10) (s : State) : Res :=
  onPanel (fun p => p.atHome fun p => p.memory fun p =>
    let va := (p.gv a).toNat
    let off := (p.gv b).toNat
    let n := l.toNat + 1
    let desc := (p.gv d).toNat
    if bf va 63 55 ≠ 0 then p.trap 0x03 (w64 va)
    else if va % 64 ≠ 0 then p.trapW 0x04
    else if off % 64 ≠ 0 then p.trapW 0x04
    else if regionOf va ≠ .paged ∨ regionOf (va + 64 * n - 1) ≠ .paged then p.trap 0x03 (w64 va)
    else
      match maskTargets p p.src desc false with
      | .error e => p.trap e (w64 desc)
      | .ok ds =>
        let x : Bulk := { slot := p.cur.slot, btag := p.cc.btag, va := va, lines := n, dests := ds, mask := bf desc 15 0, off := off, num := p.nid }
        if ds = [] then
          let es := p.queue p.cur.core p.cc.btag 1
          if es.length < qDepth 1 ∧ ((p.blk p.cur.core p.cc.btag).held.filter fun h => h.q == 1) = [] then
            (p.setQueue p.cur.core p.cc.btag 1 (es ++ [mcrdToken x])).fin
          else if !p.roomC then p.retry
          else (p.incC.complete p.cur.core p.cc.btag 1 (mcrdToken x) p.cur.slot true).fin
        else if p.cb.lmSize * 1024 < off + 64 * n then p.trap 0x03 (w64 off)
        else if !strictOk p.cl va (64 * n) 1 then p.violation va
        else if !p.roomC then p.retry
        else
            let idle := (p.core p.cur.core).mcrd == []
            let q := ({ p with nid := p.nid + 1 }.updCore p.cur.core fun c => { c with mcrd := c.mcrd ++ [x] }).incC
            (if idle then q.later 12 .mcrdLineRequest [p.cur.core] else q).fin) s

/-- A translated line of a bulk command: its physical line and key, or why there is none. -/
inductive LineAt where
  | ok (line key : Nat)
  | wait (page : Nat)
  | park (page : Nat)
  | region
  | fatal (cause : Nat)
  deriving DecidableEq, Repr

/-- The next line of a bulk command of a core, translated at the cluster TLB (R324, R386). -/
def lineAt (p : Panel) (lc : Nat) (x : Bulk) : LineAt :=
  let va := x.va + 64 * x.next
  match engPlace p (clusterOf lc) (engCtx p lc x.slot x.btag) false va 64 1 with
  | .wait g => .wait g
  | .fault g => .park g
  | .fatal c => .fatal c
  | .lm .. => .region
  | .mem pa key _ => if region pa = 0 then .ok (pa / 64) key else .region

/-- Every line that an MCRD has asked for has landed on every core that it names (R325). -/
def Bulk.landed (x : Bulk) : Bool := x.next * x.dests.length ≤ x.land

/-- An MCRD has nothing more to do than to complete. -/
def Bulk.mcrdOver (x : Bulk) : Bool := x.landed && (x.status != 0 || decide (x.lines ≤ x.next))

/-- The page of an MCRD's last line, looked up before its first line is asked for: with a page of the host or a peer no line moves (R324). A page that
is not mapped yet waits for its turn; if it then turns out to be such a page, the lines before it have landed (log 90, DESIGN CHOICE). -/
def Bulk.lastAt (p : Panel) (lc : Nat) (x : Bulk) : LineAt := lineAt p lc { x with next := x.lines - 1 }

/-- MCRD_LINE_REQUEST: the next line of the oldest command is asked of its home slice with the set of destinations, up to 8 in flight
(R126, R324, R523). -/
def execMcrdLineRequest (s : State) : Res :=
  onPanel (fun p =>
    let lc := p.arg 0
    match (p.core lc).mcrd with
    | [] => p
    | x :: _ =>
      let upd := fun (f : Bulk → Bulk) => p.updCore lc fun c => { c with mcrd := headUpd f c.mcrd }
      if x.parked ∨ x.lines ≤ x.next ∨ x.status ≠ 0 ∨ x.dying ∨ 8 * x.dests.length ≤ x.next * x.dests.length - x.land then p
      else
        let at_ := match (if x.next = 0 then x.lastAt p lc else .park 0) with
          | .region => LineAt.region
          | .wait g => .wait g
          | .ok .. => lineAt p lc x
          | .park _ => lineAt p lc x
          | .fatal _ => lineAt p lc x
        match at_ with
        | .wait g => p.engWait (clusterOf lc) x.btag lc g .mcrdLineRequest [lc]
        | .park g => (upd fun x => { x with parked := true }).engFault x.btag lc g
        | .region =>
          let q := upd fun x => { x with status := 4 }
          if x.landed then q.later 1 .mcrdComplete [lc] else q
        | .fatal c => p.mcrdFail lc x.num x.next c
        | .ok line key =>
          ((upd fun x => { x with next := x.next + 1 }).ask (p.part (p.block x.btag).part) lc ⟨.mcrd x.num x.next, lc, line, key⟩).later 1
            .mcrdLineRequest [lc]) s

/-- A line of an MCRD has landed on one core (R325); the last one of a launch that has ended ends the command (R165). -/
def Panel.mcrdLanded (p : Panel) (lc num : Nat) : Panel :=
  match (p.core lc).mcrd with
  | [] => p
  | x :: t =>
    if x.num ≠ num then p
    else
      let y := { x with land := x.land + 1 }
      let p1 := p.updCore lc fun c => { c with mcrd := y :: t }
      if y.dying then
        if y.landed then (p.updCore lc fun c => { c with mcrd := t }).later 1 .mcrdLineRequest [lc] else p1
      else if y.mcrdOver then p1.later 1 .mcrdComplete [lc]
      else p1.later 1 .mcrdLineRequest [lc]

/-- Bits of a core's local memory written: `n` bytes at an offset, at the bits of a mask. -/
def Panel.lmMask (p : Panel) (lc off n data mask : Nat) : Panel :=
  let old := p.lmRead lc off n
  p.lmWrite lc off n (old - (old &&& mask) + (data &&& mask))

/-- An engine's line has landed: its command goes on. -/
def Panel.landed (p : Panel) (n : Nat) : Deliv → Panel
  | .mcrd core num => p.mcrdLanded core num
  | .relay cl ch num => if (p.chan cl ch).num = num ∧ (p.chan cl ch).busyLine then p.relayAdvance cl ch n else p
  | .walk core num =>
    let w := (p.core core).walk
    if w.num ≠ num ∨ w.left = 0 then p
    else if w.dying ∧ w.left = 1 ∧ w.rds = [] then p.updWalk core fun _ => {}
    else
      let q := p.updWalk core fun w => { w with left := w.left - 1 }
      if (q.core core).walk.over then q.later 1 .twalkComplete [core] else q
  | .stage cl num => p.stageNext cl num n

/-- The core whose thread issued the command that delivers a line (R489). -/
def Panel.issuer (p : Panel) (lc : Nat) : Deliv → Nat
  | .mcrd core _ => core
  | .relay cl ch _ => (p.chan cl ch).core
  | .walk core _ => core
  | .stage .. => lc

/-- LINE_DELIVERY: a line lands in a window and the words that it completes become full (R89, R94). -/
def execLineDelivery (s : State) : Res :=
  onPanel (fun p =>
    let lc := p.arg 0
    let p := p.incoming .lineDelivery
    match p.head lc with
    | some (.line off n data mask words by_) =>
      let p := p.bankCharge lc (delivTag p by_) (groupsTouched off n)
      (words.foldl (fun q w => q.fillWord lc w) (((p.pop lc).foreign (p.issuer lc by_) lc).lmMask lc off n data mask)).landed n by_
    | _ => p) s

/-- MCRD_COMPLETE: every moved line has landed; the token is pushed (R325). -/
def execMcrdComplete (s : State) : Res :=
  onPanel (fun p =>
    let lc := p.arg 0
    match (p.core lc).mcrd with
    | [] => p
    | x :: t =>
      if !x.mcrdOver ∨ x.dying then p
      else
        let q := (p.updCore lc fun c => { c with mcrd := t }).complete lc x.btag 1 (mcrdToken x) x.slot true
        if t = [] then q else q.later 1 .mcrdLineRequest [lc]) s

/-! ### Bulk prefetch and drop (R127-R129, R386) -/

/-- The event with which a bulk command starts, or goes on. -/
def bulkEvent (pf : Bool) (_ : Bulk) : Instr := if pf then .l2pfLineRequest else .l2dropLineRequest

/-- A bulk command completes: a token in q1, or for a prefetch one arrival at its barrier; a failed barrier gets the entry with BAR (R128, R386). -/
def Panel.bulkFinish (p : Panel) (pf : Bool) (lc : Nat) (x : Bulk) : Panel :=
  let entry := fun (q : Panel) (st : Nat) => q.complete lc x.btag 1 (q1Entry (if pf then 2 else 4) st 0 x.done) x.slot true
  if x.mask = 0 then entry p x.status
  else
    match place p (engCtx p lc x.slot x.btag) x.bar.toNat 16 with
    | .lm tc off _ =>
      let r := p.arrive tc off x.btag
      if r.2 then r.1.decC lc x.slot else entry p (if x.status = 0 then 6 else x.status)
    | .paged => entry p 6
    | .bad _ => entry p 6

/-- Issue of L2PF or L2DROP once the barrier operand is checked; a command of no bytes completes at once (R386). -/
def Panel.bulkIssue (p : Panel) (pf : Bool) (va n : Nat) (bar : Option Nat) : Panel :=
  p.memory fun p =>
  if bf va 63 55 ≠ 0 ∨ regionOf va ≠ .paged then p.trap 0x03 (w64 va)
  else if n ≠ 0 ∧ regionOf (va + n - 1) ≠ .paged then p.trap 0x03 (w64 va)
  else if n ≠ 0 ∧ ¬ strictOk p.cl va n 1 then p.violation va
  else
    match barOf p bar with
    | .error c => p.trapA c (bar.getD 0)
    | .ok _ =>
      if !p.roomC then p.retry
      else
        let lines := if n = 0 then 0 else (va + n - 1) / 64 - va / 64 + 1
        let x : Bulk :=
          { slot := p.cur.slot, btag := p.cc.btag, va := va / 64 * 64, lines := lines, bar := w64 (bar.getD 0), mask := b2n bar.isSome, num := p.nid }
        let l := if pf then (p.core p.cur.core).pf else (p.core p.cur.core).drop
        if lines = 0 then (p.incC.bulkFinish pf p.cur.core x).fin
        else
          let q := ({ p with nid := p.nid + 1 }.updCore p.cur.core fun c =>
            if pf then { c with pf := c.pf ++ [x] } else { c with drop := c.drop ++ [x] }).incC
          (if l = [] then q.later 12 (bulkEvent pf x) [p.cur.core] else q).fin

def execL2pf (d a b : Reg) (s : State) : Res :=
  onPanel (fun p => p.atHome fun p =>
    p.bulkIssue true (p.gv a).toNat (p.gv b).toNat (if d = 0 then none else some (p.gv d).toNat)) s

def execL2drop (a b : Reg) (s : State) : Res :=
  onPanel (fun p => p.atHome fun p => p.bulkIssue false (p.gv a).toNat (p.gv b).toNat none) s

/-- A core's list of bulk commands of a kind. -/
def Core.bulks (c : Core) (pf : Bool) : List Bulk := if pf then c.pf else c.drop

/-- Its head changed. -/
def Panel.updBulk (p : Panel) (pf : Bool) (lc : Nat) (f : Bulk → Bulk) : Panel :=
  p.updCore lc fun c => if pf then { c with pf := headUpd f c.pf } else { c with drop := headUpd f c.drop }

/-- The oldest bulk command of a kind leaves; the next one starts. -/
def Panel.bulkPop (p : Panel) (pf : Bool) (lc : Nat) : Panel :=
  let q := p.updCore lc fun c => if pf then { c with pf := c.pf.drop 1 } else { c with drop := c.drop.drop 1 }
  match (q.core lc).bulks pf with
  | [] => q
  | y :: _ => q.later 1 (bulkEvent pf y) [lc]

/-- The next line of a core's oldest bulk command of a kind is asked of its home slice, up to 8 in flight (R127, R129, R386); past a line whose key
did not match, a prefetch goes on (R128). -/
def Panel.bulkLine (p : Panel) (pf : Bool) (lc : Nat) : Panel :=
  let ev := if pf then Instr.l2pfLineRequest else .l2dropLineRequest
  let done := if pf then Instr.l2pfComplete else .l2dropComplete
  match (p.core lc).bulks pf with
  | [] => p
  | x :: _ =>
    if x.parked ∨ x.lines ≤ x.next ∨ 8 ≤ x.next - x.back then p
    else
      match lineAt p lc x with
      | .wait g => p.engWait (clusterOf lc) x.btag lc g ev [lc]
      | .park g => (p.updBulk pf lc fun x => { x with parked := true }).engFault x.btag lc g
      | .region =>
        let q := p.updBulk pf lc (Bulk.end_ 4)
        if x.back = x.next then q.later 1 done [lc] else q
      | .fatal c =>
        (p.bulkPop pf lc).engFatal lc x.slot x.btag c (x.va + 64 * x.next)
      | .ok line key =>
        ((p.updBulk pf lc fun x => { x with next := x.next + 1 }).ask (p.part (p.block x.btag).part) lc
          ⟨if pf then .pf x.num else .drop x.num x.next, lc, line, key⟩).later 1 ev [lc]

def execL2pfLineRequest (s : State) : Res := onPanel (fun p => p.bulkLine true (p.arg 0)) s

def execL2dropLineRequest (s : State) : Res := onPanel (fun p => p.bulkLine false (p.arg 0)) s

/-- A line that a prefetch found in flight has not come yet (R128). -/
def pfWaiting (p : Panel) (x : Bulk) : Bool :=
  x.flight.any fun e => (p.slice (homeSlice (p.part (p.block x.btag).part) e.1)).mshr.any fun m => m.line == e.1

/-- L2PF_COMPLETE (R128, R386). -/
def execL2pfComplete (s : State) : Res :=
  onPanel (fun p =>
    let lc := p.arg 0
    match (p.core lc).pf with
    | [] => p
    | x :: _ =>
      if !x.over then p
      else if pfWaiting p x then p.later 8 .l2pfComplete [lc]
      else
        let p1 := p.bulkPop true lc
        if x.dying then p1 else p1.bulkFinish true lc x) s

/-- L2DROP_COMPLETE (R386). -/
def execL2dropComplete (s : State) : Res :=
  onPanel (fun p =>
    let lc := p.arg 0
    match (p.core lc).drop with
    | [] => p
    | x :: _ =>
      if !x.over then p
      else if x.dying then p.bulkPop false lc
      else (p.bulkPop false lc).bulkFinish false lc x) s

/-! ### Engine status (R387) -/

/-- ESTAT's snapshot of an engine; none for e above 10. The lines left of prefetches and drops are those not yet asked for: whether lines in flight
count is not said (log 91, DESIGN CHOICE). -/
def estat (p : Panel) (e : Nat) : Option W :=
  let cl := clusterOf p.cur.core
  let k := p.core p.cur.core
  if e < 8 then
    let x := p.chan cl e
    some (w64 (b2n x.busy * 2 ^ 63 + b2n x.parked * 2 ^ 62 + (x.len - x.done) % 2 ^ 32))
  else if e = 8 then
    let w := k.walk
    some (w64 (b2n w.busy * 2 ^ 63 + b2n w.parked * 2 ^ 62 + b2n w.waiting * 2 ^ 61 + (w.tiles - w.tile) % 2 ^ 32))
  else if e = 9 then
    let h := (p.cluster cl).hoop
    let mine := p.holds p.cur.core p.cur.slot
    let on := h.holder.isSome
    some (w64 (b2n on * 2 ^ 63 + b2n mine * 2 ^ 62 + b2n (h.cmds != []) * 2 ^ 61 + b2n h.parked * 2 ^ 60 +
      (if on then h.leaseN % 128 else 0) * 2 ^ 48 + (if on then (h.leaseEnd - p.now) % 2 ^ 17 else 0)))
  else if e = 10 then
    let xs := (k.pf ++ k.drop).filter fun x => x.btag == p.cc.btag
    some (w64 (b2n (xs != []) * 2 ^ 63 + b2n (xs.any (·.parked)) * 2 ^ 62 + xs.foldl (fun n x => n + (x.lines - x.next)) 0 % 2 ^ 32))
  else none

def execEstat (d : Reg) (e : BitVec 4) (s : State) : Res :=
  onPanel (fun p => p.atHome fun p =>
    match estat p e.toNat with
    | some v => (p.putG d v).fin
    | none => p.illegal) s

end Sys2Proof.Machine
end

