-- ==== Sys2Proof/Machine/Osier.lean ====
section
/-! DEFINITION. Osier integrator arrays: cells, step domains, strokes, patches, images (R390-R414). -/

namespace Sys2Proof.Machine

/-! ### Cells and links (R390, R391, R393) -/

def cellOf (c : Cluster) (n : Nat) : Cell := SMap.getD c.cells n {}

def domOf (c : Cluster) (d : Nat) : Domain := SMap.getD c.doms d {}

/-- The configuration word of a cell (R390). -/
def cfgWord (x : Cell) : Nat := cut 2 x.out * 2 ^ 16 + x.dom * 2 ^ 12 + x.s * 2 ^ 8 + x.k

/-- A source code is a link from a cell that is queued at destination `n` (R393). -/
def queuedLink (c : Cluster) (n code : Nat) : Bool :=
  code < 0x800 && (code / 256 != n / 256 || (cellOf c code).dom != (cellOf c n).dom)

/-- All source codes of a cell. -/
def sources (x : Cell) : List Nat := x.xsrc :: x.dy.map (·.1)

/-- Queued inputs of a cell. -/
def queuedCount (c : Cluster) (n : Nat) : Nat := ((sources (cellOf c n)).filter (queuedLink c n)).length

/-- The lowest-numbered active cell with two queued inputs. -/
def twoQueued (c : Cluster) : Option Nat :=
  (c.cells.find? fun (e : Nat × Cell) => e.2.k != 0 && 2 ≤ queuedCount c e.1).map (·.1)

/-- A K that is not allowed (R390). -/
def badK (k : Nat) : Bool := 1 ≤ k && k ≤ 3

def absLt (v : Int) (k : Nat) : Bool := v.natAbs < 2 ^ k

/-! ### One step (R392-R394) -/

/-- The outcome of a cell's step: the cell, and whether it overran. -/
def stepCell (x : Cell) (dx dsum : Int) : Cell × Bool :=
  let m : Int := 2 ^ x.k
  let y1 := x.y + dsum * 2 ^ x.s
  if y1 ≤ -m ∨ m ≤ y1 then (x, true)
  else
    let t := (x.q : Int) + y1 * dx
    if m ≤ t then ({ x with y := y1, q := (t - m).toNat, out := 1 }, false)
    else if t < 0 then ({ x with y := y1, q := (t + m).toNat, out := -1 }, false)
    else ({ x with y := y1, q := t.toNat, out := 0 }, false)

/-- A stroke enqueued at a destination, or discarded at a full FIFO: the cluster, and whether the source overran. An inactive
destination, or one that no longer names the source ovr a queued link, takes nothing (R393). -/
def enqueue (c : Cluster) (x : Stroke) : Cluster × Bool :=
  let d := cellOf c x.cell
  if d.k = 0 ∨ !((sources d).any fun s => s == x.src && queuedLink c x.cell s) then (c, false)
  else if 16 ≤ d.fifo.length then (c, true)
  else ({ c with cells := SMap.set c.cells x.cell { d with fifo := d.fifo ++ [(x.v, x.due)] } }, false)

/-- A stroke meets its FIFO; an overrun waits for the next boundary of the source's domain (R394). -/
def deliverStroke (c : Cluster) (x : Stroke) : Cluster :=
  let r := enqueue c x
  if r.2 then
    let d := (cellOf c x.src).dom
    { r.1 with doms := SMap.upd r.1.doms d {} fun y =>
        { y with overrun := some (match y.overrun with | some f => min f x.src | none => x.src) } }
  else r.1

/-- Cross-core strokes due by a cycle, in the order of their cycles (R393). -/
def enqueueDue (c : Cluster) (u : Nat) : Cluster :=
  let due := c.strokes.filter (·.due ≤ u)
  due.foldl deliverStroke { c with strokes := c.strokes.filter fun x => !(x.due ≤ u) }

/-- The stroke a source supplies to a step of a cell that begins in cycle `u`, and the cell after taking it. -/
def takeStroke (c : Cluster) (n code u : Nat) (x : Cell) : Int × Cell :=
  if code = 0x801 then (1, x)
  else if code = 0x802 then (-1, x)
  else if 0x800 ≤ code then (0, x)
  else if !queuedLink c n code then ((cellOf c code).out, x)
  else
    match x.fifo with
    | (v, t) :: rest => if t ≤ u then (v, { x with fifo := rest }) else (0, x)
    | [] => (0, x)

/-- The inputs of one cell latched: dx, dsum and the cell. -/
def latchCell (c : Cluster) (n u : Nat) (x : Cell) : Int × Int × Cell :=
  let r := takeStroke c n x.xsrc u x
  let s := x.dy.foldl (fun (a : Int × Cell) (e : Nat × Bool) =>
    let t := takeStroke c n e.1 u a.2
    (a.1 + (if e.2 then -t.1 else t.1), t.2)) (0, r.2)
  (r.1, s.1, s.2)

/-- The cells of a domain that take its steps. -/
def active (c : Cluster) (d : Nat) : List (Nat × Cell) := c.cells.filter fun (e : Nat × Cell) => e.2.k != 0 && e.2.dom == d

/-- A domain's step begins in cycle `u`: inputs latched, boundary set (R392, R396). -/
def beginStep (c : Cluster) (d u : Nat) : Cluster :=
  let xs := (active c d).map fun e => (e.1, latchCell c e.1 u e.2)
  let c1 := xs.foldl (fun (c : Cluster) e => { c with cells := SMap.set c.cells e.1 e.2.2.2 }) c
  { c1 with doms := SMap.upd c1.doms d {} fun y =>
      { y with latched := xs.map fun e => (e.1, e.2.1, e.2.2.1), begun := true, next := u + y.period } }

/-- A saturating signed sum (R395). -/
def satAdd (w : Nat) (a b : Int) : Int := max (-(2 ^ (w - 1) : Int)) (min ((2 ^ (w - 1) : Int) - 1) (a + b))

/-- The destinations of a source's queued links that are active. -/
def queuedDests (c : Cluster) (src : Nat) : List Nat :=
  (c.cells.filter fun (e : Nat × Cell) => e.2.k != 0 && (sources e.2).any fun s => s == src && queuedLink c e.1 s).map (·.1)

/-- Tap `j` of a domain: enabled, cell. -/
def tapOf (y : Domain) (j : Nat) : Bool × Nat := (bt y.taps (12 * j + 11), bf y.taps (12 * j + 10) (12 * j))

/-- The q3 entry of a run (R406). -/
def runEntry (d : Nat) (y : Domain) (status : Nat) : W :=
  let tap := fun j => if (tapOf y j).1 then cut 12 (satAdd 12 0 ((y.cnt[j]?).getD 0)) else 0
  w64 (status * 2 ^ 61 + d * 2 ^ 59 + (if status = 2 then y.fcell else 0) * 2 ^ 48 + tap 3 * 2 ^ 36 + tap 2 * 2 ^ 24 + tap 1 * 2 ^ 12 + tap 0)

/-- A domain's step ends in cycle `u`: cells, strokes, taps, counts (R392-R394, R406). The status with which the run ends, if
it does. -/
def endStep (c : Cluster) (d u : Nat) : Cluster × Option Nat :=
  let y := domOf c d
  let res := y.latched.map fun e => (e.1, stepCell (cellOf c e.1) e.2.1 e.2.2)
  let c1 := res.foldl (fun (c : Cluster) e => { c with cells := SMap.set c.cells e.1 e.2.1 }) c
  let emitted := (res.filter fun e => !e.2.2 && e.2.1.out != 0).map fun e => (e.1, e.2.1.out)
  let strokes := emitted.flatMap fun e => (queuedDests c1 e.1).map fun n => (⟨n, e.2, if n / 256 = e.1 / 256 then u else u + y.period, e.1⟩ : Stroke)
  let near := strokes.filter fun x => x.cell / 256 == x.src / 256
  let far := strokes.filter fun x => x.cell / 256 != x.src / 256
  let c2 := near.foldl deliverStroke { c1 with strokes := c1.strokes ++ far }
  let late := match (domOf c2 d).overrun with | some f => [f] | none => []
  let ovr := ((res.filter fun e => e.2.2).map (·.1)) ++ late
  let stroke := fun n => match emitted.find? fun e => e.1 == n with | some e => e.2 | none => 0
  let cnt := (List.range 4).map fun j =>
    let t := tapOf y j
    let v := (y.cnt[j]?).getD 0
    if t.1 then satAdd 32 v (stroke t.2) else v
  let remain := y.remain - 1
  let status := if ovr ≠ [] then some 2 else if remain = 0 then some 0 else if y.stopReq then some 1 else none
  let y' : Domain :=
    { y with
        cnt := cnt, remain := remain, steps := y.steps + 1, latched := [], overrun := none
        state := match status with | some 2 => 2 | some _ => 0 | none => 1
        fcell := if ovr ≠ [] then ovr.foldl min (ovr.headD 0) else y.fcell
        begun := status.isNone
        stopReq := if status.isSome then false else y.stopReq }
  ({ c2 with doms := SMap.set c2.doms d y' }, status)

/-! ### Accesses at a boundary (R397, R404, R405) -/

/-- A field of a cell as OGET reads it (R404); FIFO counts strokes already enqueued. -/
def cellField (x : Cell) (field u : Nat) : W :=
  match field with
  | 0 => BitVec.ofInt 64 x.y
  | 1 => w64 x.q
  | 2 => w64 (cfgWord x)
  | _ =>
    let es := x.fifo.filter (·.2 ≤ u)
    w64 (es.length + ofLanes 1 ((es.map fun e => b2n (e.1 < 0))) * 2 ^ 8)

/-- A cell with a new configuration (R401, R404). -/
def setCfg (x : Cell) (v : Nat) : Cell :=
  { x with k := bf v 4 0, s := bf v 11 8, dom := bf v 13 12, out := 0, fifo := [], q := x.q % 2 ^ bf v 4 0 }

def running (c : Cluster) (d : Nat) : Bool := (domOf c d).state == 1

/-- A running domain that has not been stopped between two steps (R412): accesses to it wait for its next boundary (R397). -/
def stepping (c : Cluster) (d : Nat) : Bool := running c d && !(domOf c d).haltStop

/-- The checks of R404 on a value written to a field of a cell, where a Y value is `y`. -/
def osetBad (c : Cluster) (n field v : Nat) (y : Int) : Bool :=
  let x := cellOf c n
  match field with
  | 0 => y < -(2 ^ 31 : Int) || (2 ^ 31 : Int) ≤ y || (x.k != 0 && !absLt y x.k)
  | 1 => 2 ^ x.k ≤ v
  | 2 => bf v 63 32 != 0 || bf v 31 18 != 0 || bf v 15 14 != 0 || bf v 7 5 != 0 || badK (bf v 4 0) ||
      running c x.dom || running c (bf v 13 12) || (twoQueued { c with cells := SMap.set c.cells n (setCfg x v) }).isSome
  | _ => true

/-- A field of a cell written. -/
def osetCell (c : Cluster) (n field v : Nat) (y : Int) : Cluster :=
  let x := cellOf c n
  { c with cells := SMap.set c.cells n (match field with
      | 0 => { x with y := y }
      | 1 => { x with q := v % 2 ^ 31 }
      | _ => setCfg x v) }

/-- The new y of an injection, none when OSIER_FAULT (R404). -/
def injected (x : Cell) (b : W) : Option Int :=
  let y := x.y + b.toInt * 2 ^ x.s
  if x.k = 0 ∨ !absLt y x.k then none else some y

/-! ### Images (R405, R409-R411) -/

/-- Bytes 0-7 of a domain record (R395). -/
def statWord (y : Domain) : Nat :=
  y.state * 2 ^ 62 + b2n y.align * 2 ^ 61 + y.fcell * 2 ^ 48 + (y.period - 1) * 2 ^ 32 + y.remain

/-- A domain record of 64 bytes (R395). -/
def domRecord (y : Domain) : Nat :=
  let c := fun j => cut 32 ((y.cnt[j]?).getD 0)
  statWord y + y.steps * 2 ^ 64 + y.taps * 2 ^ 128 + c 0 * 2 ^ 192 + c 1 * 2 ^ 224 + c 2 * 2 ^ 256 + c 3 * 2 ^ 288

/-- A cell record of 16 bytes (R405). -/
def cellRecord (x : Cell) (u : Nat) : Nat :=
  cut 32 x.y + x.q * 2 ^ 32 + cfgWord x * 2 ^ 64 + (cellField x 3 u).toNat * 2 ^ 96

/-- Bytes written by the array port to a core's local memory, their words set full (R89, R410). -/
def Panel.portWrite (p : Panel) (lc off n v : Nat) : Panel := (p.lmWrite lc off n v).fillRange lc off n

/-- The snapshot of a domain written to an image (R410). -/
def Panel.saveImage (p : Panel) (lc d off : Nat) : Panel :=
  let c := p.cluster (clusterOf lc)
  let p1 := (List.range 256).foldl (fun (q : Panel) i =>
    let x := cellOf c (coreK lc * 256 + i)
    if x.dom = d then q.portWrite lc (off + 16 * i) 16 (cellRecord x p.now) else q) p
  p1.portWrite lc (off + 4096) 64 (domRecord (domOf c d))

/-- Does a cell record fail, for a cell of domain `d` in the loaded patch (R411)? -/
def recordBad (c : Cluster) (n d r : Nat) : Bool :=
  let cfg := bf r 95 64
  let k := bf cfg 4 0
  let cnt := bf r 100 96
  bf r 63 63 != 0 || bf cfg 31 18 != 0 || bf cfg 15 14 != 0 || bf cfg 7 5 != 0 || bf cfg 17 16 == 2 ||
    bf r 127 120 != 0 || bf r 103 101 != 0 || bf cfg 13 12 != d || badK k ||
    (k != 0 && (!absLt (sgn 32 (bf r 31 0)) k || 2 ^ k ≤ bf r 62 32)) ||
    16 < cnt || bf r 119 104 / 2 ^ cnt != 0 || (cnt != 0 && queuedCount c n == 0)

/-- Does a domain record fail (R411)? -/
def domBad (r : Nat) : Bool :=
  bf r 47 32 == 0 || bf r 63 62 == 3 || bf r 60 59 != 0 || bf r 191 176 != 0 || bf r 511 320 != 0

/-- A cell restored from its record; its sources stay (R411). -/
def restoreCell (x : Cell) (r u : Nat) : Cell :=
  let cfg := bf r 95 64
  { x with
    y := sgn 32 (bf r 31 0), q := bf r 62 32, k := bf cfg 4 0, s := bf cfg 11 8, dom := bf cfg 13 12
    out := sgn 2 (bf cfg 17 16)
    fifo := (List.range (bf r 100 96)).map fun i => (if bt r (104 + i) then -1 else 1, u) }

/-- A domain restored from its record: stopped unless the record says FAULTED (R411). -/
def restoreDom (y : Domain) (r : Nat) : Domain :=
  { y with
    state := if bf r 63 62 = 2 then 2 else 0, align := bt r 61, fcell := bf r 58 48, period := bf r 47 32 + 1
    remain := bf r 31 0, steps := bf r 127 64, taps := bf r 175 128
    cnt := (List.range 4).map fun j => sgn 32 (bf r (192 + 32 * j + 31) (192 + 32 * j))
    next := 0, begun := false, stopReq := false, latched := [], overrun := none, haltStop := false }

/-! ### Boundaries -/

/-- OSIER_FAULT of a thread that waited for a boundary: TPC is its bundle. -/
def Panel.osierFault (p : Panel) (o : OAct) (tval : W) : Panel :=
  let q := match (p.ctx o.core o.slot).undo with
    | some u => p.undoAword o.core o.slot u
    | none => p
  ((q.updCtx o.core o.slot fun c => { c with pc := o.pc }).deliver o.core o.slot 0x0E tval false false false).rouseOf o.core o.slot

/-- A tile operation of `n` cycles that moves nothing more. -/
def Panel.tileLater (p : Panel) (lc slot n : Nat) : Panel :=
  let o : TileOp :=
    { slot := slot, btag := (p.ctx lc slot).btag, sub := 4, shape := 0, orgA := 0, orgB := 0, rsOff := 0, rsLen := 0, due := p.now + n, num := p.nid }
  ({ p with nid := p.nid + 1 }.updCore lc fun k => { k with tiles := k.tiles ++ [o] }).later n .tileOpComplete [lc, slot]

/-- One access performed between steps (R397, R404, R405, R410). An OSAVE that waited for the boundary of a running domain takes its snapshot
there, and a snapshot of a running domain omits strokes in flight; that holds also when the run ends at that boundary (DESIGN CHOICE, log 75:
R410 lets an OSAVE of a stopped domain wait for its strokes, R397 has this one act at the boundary). -/
def Panel.osierPerform (p : Panel) (o : OAct) : Panel :=
  let cl := clusterOf o.core
  let c := p.cluster cl
  let x := cellOf c o.cell
  match o.op with
  | 0 => (p.putGAt o.core o.slot o.dest (cellField x o.field p.now)).osierDone o.core o.slot
  | 1 =>
    if osetBad c o.cell o.field o.val.toNat o.val.toInt then p.osierFault o o.val
    else (p.updCluster cl fun c => osetCell c o.cell o.field o.val.toNat o.val.toInt).osierDone o.core o.slot
  | 2 =>
    (match injected x o.val with
    | none => p.osierFault o o.val
    | some y => (p.updCluster cl fun c => osetCell c o.cell 0 0 y).osierDone o.core o.slot)
  | 3 => ({ p with mem := Memory.writeN p.mem o.dest 4 (cellField x o.field p.now).toNat }).osierDone o.core o.slot
  | 4 => (p.updCluster cl fun c => osetCell c o.cell o.field o.val.toNat (sgn 32 o.val.toNat)).osierDone o.core o.slot
  | _ => ((p.saveImage o.core o.cell o.dest).tileLater o.core o.slot 65).osierDone o.core o.slot

/-- The domain whose boundary an access waits for. -/
def actDom (c : Cluster) (o : OAct) : Nat := if o.op = 5 then o.cell else (cellOf c o.cell).dom

/-- Accesses that wait for a domain's boundary, performed in the order they reached it. -/
def Panel.osierActs (p : Panel) (cl d : Nat) : Panel :=
  let c := p.cluster cl
  let mine := c.oacts.filter fun o => actDom c o == d
  mine.foldl (fun (r : Panel) o =>
    if (r.cluster cl).oacts.contains o then (r.updCluster cl fun c => { c with oacts := c.oacts.erase o }).osierPerform o else r) p

/-- A running domain whose block is being taken goes no further, nor does one that the halt line has reached, at the site of core 0 of its
cluster (R412, R467, R469). -/
def Panel.domHeld (p : Panel) (cl : Nat) (y : Domain) : Bool :=
  let q := p.part (partOf p (clusterCore cl 0))
  (q.halt && q.hSites.contains (siteOf p.fabric (clusterCore cl 0))) || (p.block y.btag).st == .taking

/-- A domain's boundary in cycle `u`: the step ends, a run that ends pushes its entry, waiting accesses are performed
(R397, R406). -/
def Panel.boundary (p : Panel) (cl u d : Nat) : Panel :=
  let r := endStep (p.cluster cl) d u
  let p1 := p.updCluster cl fun _ => r.1
  let y := domOf r.1 d
  let far := r.1.strokes.filter fun x => !((p.cluster cl).strokes.contains x)
  let p2 := if far = [] then p1 else p1.later (u + y.period - p.now) .osierStrokeEnqueue [cl]
  let p3 := match r.2 with
    | some s => p2.complete y.core y.btag 3 (runEntry d y s) y.slot false
    | none => p2
  p3.osierActs cl d

/-- A domain's next step begins in cycle `u`, or the domain is held. -/
def Panel.stepOn (p : Panel) (cl u d : Nat) : Panel :=
  let y := domOf (p.cluster cl) d
  if p.domHeld cl y then
    (p.updCluster cl fun c => { c with doms := SMap.upd c.doms d {} fun y => { y with begun := false, next := 0, haltStop := true } }).osierActs cl d
  else (p.updCluster cl fun c => beginStep c d u).later (u + y.period - p.now) .osierBoundary [cl]

/-- Domains of a cluster that reach a boundary, and those whose run begins, in a cycle. -/
def dueDoms (c : Cluster) (u : Nat) (begun : Bool) : List Nat :=
  (c.doms.filter fun (e : Nat × Domain) => e.2.state == 1 && e.2.begun == begun && !e.2.haltStop && e.2.next == u).map (·.1)

/-- The earliest boundary or start that is due. -/
def dueCycle (c : Cluster) (now : Nat) : Option Nat :=
  ((c.doms.filter fun (e : Nat × Domain) => e.2.state == 1 && !e.2.haltStop && e.2.next ≤ now).map (·.2.next)).min?

/-- One cycle of an array: strokes in flight land, steps end, then the next ones latch (R393, R396). Domains that end in one cycle end in the
order of their numbers, each with the accesses that wait for it (R397); an access of the lower-numbered does not find a stroke that the
higher-numbered emits in that cycle (DESIGN CHOICE, log 76: no rule orders the two). -/
def Panel.osierTick (p : Panel) (cl : Nat) : Panel :=
  let c := p.cluster cl
  match dueCycle c p.now with
  | none => p.updCluster cl fun c => enqueueDue c p.now
  | some u =>
    let ends := dueDoms c u true
    let starts := dueDoms c u false
    let p1 := p.updCluster cl fun c => enqueueDue c u
    let p2 := ends.foldl (fun (q : Panel) d => q.boundary cl u d) p1
    let go := (ends.filter fun d => running (p2.cluster cl) d) ++ starts
    go.foldl (fun (q : Panel) d => q.stepOn cl u d) p2

/-- A domain that was held goes on: an aligned one at its next aligned cycle (R412, R470). -/
def Panel.domResume (p : Panel) (cl d : Nat) : Panel :=
  let y := domOf (p.cluster cl) d
  if y.state = 1 ∧ y.haltStop then
    let t0 := if y.align then (p.now / y.period + 1) * y.period else p.now + 1
    (p.updCluster cl fun c => { c with doms := SMap.upd c.doms d {} fun y => { y with haltStop := false, begun := false, next := t0 } }).later
      (t0 - p.now) .alignedRunStart [cl, d]
  else p

/-- OSIER_BOUNDARY. -/
def execOsierBoundary (s : State) : Res := onPanel (fun p => p.osierTick (p.arg 0)) s

/-- OSIER_STROKE_ENQUEUE: strokes whose cycle has come enter their FIFOs; a boundary of the same cycle follows (R393). -/
def execOsierStrokeEnqueue (s : State) : Res := onPanel (fun p => p.updCluster (p.arg 0) fun c => enqueueDue c p.now) s

/-- ALIGNED_RUN_START: a run's first step begins in its cycle (R396). -/
def execAlignedRunStart (s : State) : Res := onPanel (fun p => p.osierTick (p.arg 0)) s

/-! ### Instructions -/

/-- Osier instructions need the launch's `hoop` flag; a migrated thread returns home first (R398). -/
def Panel.osierGate (p : Panel) (k : Panel → Panel) : Panel := p.atHome fun p => if !p.cb.hoop then p.illegal else k p

/-- The running thread's cluster. -/
def Panel.myCl (p : Panel) : Nat := clusterOf p.cur.core

/-- An access of the running thread to a cell, or a domain's snapshot: at once, or at the domain's next boundary (R397). -/
def Panel.osierAccess (p : Panel) (op cell field : Nat) (val : W) (dest : Nat) : Panel :=
  let c := p.cluster p.myCl
  let o : OAct := ⟨p.cur.core, p.cur.slot, cell, op, field, val, dest, p.cur.word, p.cc.pc⟩
  if stepping c (actDom c o) then
    (p.updCluster p.myCl fun c => { c with oacts := c.oacts ++ [o] }).fin.stallFor (.osier 1)
  else
    let x := cellOf c cell
    match op with
    | 0 => (p.putGAt p.cur.core p.cur.slot dest (cellField x field p.now)).fin
    | 1 =>
      if osetBad c cell field val.toNat val.toInt then p.trap 0x0E val
      else (p.updCluster p.myCl fun c => osetCell c cell field val.toNat val.toInt).fin
    | _ =>
      match injected x val with
      | none => p.trap 0x0E val
      | some y => (p.updCluster p.myCl fun c => osetCell c cell 0 0 y).fin

/-- A cell selector that breaks its table (R404). -/
def selBad (a : Nat) : Bool := bf a 63 14 != 0 || bt a 11

def execOget (d a : Reg) (s : State) : Res :=
  onPanel (fun p => p.osierGate fun p =>
    let a := p.gv a
    if selBad a.toNat then p.trap 0x0E a else p.osierAccess 0 (bf a.toNat 10 0) (bf a.toNat 13 12) 0 d.toNat) s

/-- OSET. A change of configuration needs stopped domains and never waits (R404). -/
def execOset (a b : Reg) (s : State) : Res :=
  onPanel (fun p => p.osierGate fun p =>
    let a := (p.gv a).toNat
    let b := p.gv b
    let field := bf a 13 12
    if selBad a then p.trap 0x0E (w64 a)
    else if 2 ≤ field ∧ osetBad (p.cluster p.myCl) (bf a 10 0) field b.toNat 0 then p.trap 0x0E b
    else p.osierAccess 1 (bf a 10 0) field b 0) s

def execOinj (a b : Reg) (s : State) : Res :=
  onPanel (fun p => p.osierGate fun p =>
    let a := (p.gv a).toNat
    if selBad a ∨ bf a 13 12 ≠ 0 then p.trap 0x0E (w64 a)
    else p.osierAccess 2 (bf a 10 0) 0 (p.gv b) 0) s

/-- A patch entry fails on its own (R399, R401). -/
def entryBad (e : Nat) : Bool :=
  bf e 15 11 != 0 || bf e 23 21 != 0 || bf e 31 30 != 0 || bf e 47 44 != 0 || bf e 127 112 != 0 || badK (bf e 20 16) ||
    0x802 < bf e 43 32 ||
    (List.range 4).any fun j => bf e (63 + 16 * j) (61 + 16 * j) != 0 || 0x802 < bf e (59 + 16 * j) (48 + 16 * j)

/-- A patch entry applied (R401). -/
def applyEntry (c : Cluster) (e : Nat) : Cluster :=
  let n := bf e 10 0
  let x := cellOf c n
  let k := bf e 20 16
  let y : Cell :=
    { x with
        k := k, s := bf e 27 24, dom := bf e 29 28, out := 0, fifo := [], q := x.q % 2 ^ k, xsrc := bf e 43 32
        dy := (List.range 4).map fun j => (bf e (59 + 16 * j) (48 + 16 * j), bt e (60 + 16 * j)) }
  { c with cells := SMap.set c.cells n y }

/-- The entries of OPATCH with their addresses. -/
def patchEntries (p : Panel) (off a n : Nat) : List (Nat × Nat) :=
  (List.range n).map fun i => (a + 16 * i, p.lmRead p.cur.core (off + 16 * i) 16)

/-- The check of step 5 of R401: TVAL of the failure, or none. -/
def patchBad (c : Cluster) (es : List (Nat × Nat)) : Option Nat :=
  match es.find? fun e => entryBad e.2 with
  | some e => some e.1
  | none =>
    let c' := es.foldl (fun c e => applyEntry c e.2) c
    match twoQueued c' with
    | some n =>
      let named := es.filter fun e => bf e.2 10 0 == n
      let feeds := es.filter fun e => (sources (cellOf c' n)).contains (bf e.2 10 0)
      (match named.getLast? with
      | some e => some e.1
      | none => (feeds.getLast?).map (·.1))
    | none => (es.find? fun e => running c (cellOf c (bf e.2 10 0)).dom || running c (bf e.2 29 28)).map (·.1)

/-- A private-alias operand: a cause, or the physical offset on the running core (R30, R401, R409). -/
def ownPlace (p : Panel) (a size : Nat) : Option Nat :=
  match place p p.src a size with
  | .lm _ off false => some off
  | .lm _ _ true => none
  | .paged => none
  | .bad _ => none

/-- OPATCH: checks in the order of R401; one entry a cycle through the array port. -/
def execOpatch (a b : Reg) (s : State) : Res :=
  onPanel (fun p => p.osierGate fun p => p.memory fun p =>
    let a := (p.gv a).toNat
    let n := (p.gv b).toNat
    if regionOf a ≠ .private_ then p.trap 0x03 (w64 a)
    else if a % 16 ≠ 0 then p.trapW 0x04
    else if n = 0 ∨ 2048 < n then p.trap 0x0E (w64 n)
    else
      match ownPlace p a (16 * n) with
      | none => p.trap 0x03 (w64 a)
      | some off =>
        let es := patchEntries p off a n
        match patchBad (p.cluster p.myCl) es with
        | some t => p.trap 0x0E (w64 t)
        | none => ((p.updCluster p.myCl fun c => es.foldl (fun c e => applyEntry c e.2) c).bankGap n).fin) s

/-- OCFG (R403). -/
def execOcfg (a b : Reg) (n : BitVec 2) (s : State) : Res :=
  onPanel (fun p => p.osierGate fun p =>
    let a := (p.gv a).toNat
    let b := (p.gv b).toNat
    let d := n.toNat
    if running (p.cluster p.myCl) d then p.trap 0x0E (w64 d)
    else if a < 2 ∨ 65536 < a then p.trap 0x0E (w64 a)
    else if bf b 63 48 ≠ 0 then p.trap 0x0E (w64 b)
    else
      let y : Domain := { period := a, taps := b }
      (p.updCluster p.myCl fun c => { c with doms := SMap.set c.doms d y }).fin) s

/-- ORUN (R406). -/
def execOrun (a : Reg) (l : BitVec 1) (n : BitVec 2) (s : State) : Res :=
  onPanel (fun p => p.osierGate fun p =>
    let a := (p.gv a).toNat
    let d := n.toNat
    if bf a 63 32 ≠ 0 then p.trap 0x0E (w64 a)
    else if running (p.cluster p.myCl) d ∨ !p.roomT then p.retry
    else
      let y := domOf (p.cluster p.myCl) d
      let t0 := if l = 1 then (p.now / y.period + 1) * y.period else p.now + 1
      let y' : Domain := { y with
        align := l == 1, remain := a, steps := 0, cnt := [0, 0, 0, 0], state := if a = 0 then y.state else 1
        begun := false, next := t0, stopReq := false, latched := [], haltStop := false
        core := p.cur.core, slot := p.cur.slot, btag := p.cc.btag }
      let q := (p.updCluster p.myCl fun c => { c with doms := SMap.set c.doms d y' }).incT
      (if a = 0 then q.complete p.cur.core p.cc.btag 3 (runEntry d y' 0) p.cur.slot false
       else q.later (t0 - p.now) .alignedRunStart [p.myCl, d]).fin) s

/-- OSTOP never waits (R407). -/
def execOstop (n : BitVec 2) (s : State) : Res :=
  onPanel (fun p => p.osierGate fun p =>
    if running (p.cluster p.myCl) n.toNat then
      (p.updCluster p.myCl fun c => { c with doms := SMap.upd c.doms n.toNat {} fun y => { y with stopReq := true } }).fin
    else p.fin) s

/-- OSTAT (R408). -/
def execOstat (d : Reg) (n : BitVec 2) (s : State) : Res :=
  onPanel (fun p => p.osierGate fun p => (p.putG d (w64 (statWord (domOf (p.cluster p.myCl) n.toNat)))).fin) s

/-- The checks of R409 on a domain image, in order: a trap cause, or the physical offset. -/
def imagePlace (p : Panel) (a : Nat) : Except Nat Nat :=
  if regionOf a ≠ .private_ then .error 0x03
  else if a % 64 ≠ 0 then .error 0x04
  else match ownPlace p a 4160 with
    | some off => .ok off
    | none => .error 0x03

/-- Cross-core strokes of a domain still in flight (R410). -/
def inFlight (c : Cluster) (d : Nat) : Bool := c.strokes.any fun x => (cellOf c x.src).dom == d

/-- OSAVE: at once when the domain is stopped and its strokes in flight have been enqueued, else at its next boundary (R410). -/
def execOsave (a : Reg) (n : BitVec 2) (s : State) : Res :=
  onPanel (fun p => p.osierGate fun p => p.memory fun p =>
    let a := (p.gv a).toNat
    let d := n.toNat
    let c := p.cluster p.myCl
    match imagePlace p a with
    | .error e => p.trapA e a
    | .ok off =>
      if !p.roomT then p.retry
      else if stepping c d then
        (p.updCluster p.myCl fun c =>
          { c with oacts := c.oacts ++ [⟨p.cur.core, p.cur.slot, d, 5, 0, 0, off, p.cur.word, p.cc.pc⟩] }).incT.fin.stallFor (.osier 1)
      else if inFlight c d then p.retry
      else ((p.saveImage p.cur.core d off).incT.tileLater p.cur.core p.cur.slot 65).fin) s

/-- The records that OREST reads: cell number, address, record (R411). -/
def imageCells (p : Panel) (c : Cluster) (d off a : Nat) : List (Nat × Nat × Nat) :=
  ((List.range 256).filter fun i => (cellOf c (coreK p.cur.core * 256 + i)).dom == d).map fun i =>
    (coreK p.cur.core * 256 + i, a + 16 * i, p.lmRead p.cur.core (off + 16 * i) 16)

/-- OREST (R411). -/
def execOrest (a : Reg) (n : BitVec 2) (s : State) : Res :=
  onPanel (fun p => p.osierGate fun p => p.memory fun p =>
    let a := (p.gv a).toNat
    let d := n.toNat
    let c := p.cluster p.myCl
    match imagePlace p a with
    | .error e => p.trapA e a
    | .ok off =>
      let xs := imageCells p c d off a
      let r := p.lmRead p.cur.core (off + 4096) 64
      if running c d then p.trap 0x0E (w64 d)
      else
        match xs.find? fun e => recordBad c e.1 d e.2.2 with
        | some e => p.trap 0x0E (w64 e.2.1)
        | none =>
          if domBad r then p.trap 0x0E (w64 (a + 4096))
          else if !p.roomT then p.retry
          else
            ((p.updCluster p.myCl fun c =>
              { c with
                cells := xs.foldl (fun m e => SMap.set m e.1 (restoreCell (SMap.getD m e.1 {}) e.2.2 p.now)) c.cells
                doms := SMap.upd c.doms d {} fun y => restoreDom y r }).incT.tileLater p.cur.core p.cur.slot 65).fin) s

/-- The cells of a group on the running core (R405). -/
def groupCell (p : Panel) (g i : Nat) : Nat := coreK p.cur.core * 256 + 16 * g + i

/-- A thread that waits for `n` lanes, beside the lanes or the answer that its C-word waits for. Beside another wait of the C-word it counts
them, and issues nothing before the last (R405). -/
def Panel.waitLanes (p : Panel) (n : Nat) : Panel :=
  let beside := p.updC fun c => { c with lanesLeft := n }
  if n = 0 then p
  else
    match p.cc.stall with
    | .osier k => p.stallFor (.osier (n + k))
    | .barrier => p.stallFor (.osier (n + 1))
    | .header => p.stallFor (.osier (n + 1))
    | .none => if p.cc.st = .blocked then beside else p.stallFor (.osier n)
    | .retry _ => beside | .hold _ => beside | .fuse _ _ _ => beside | .tlbinv => beside | .migrate => beside | .ckpt => beside
    | .fatal => beside

/-- The active lanes of a vector form: lane, cell. -/
def groupLanes (p : Panel) (g m : Nat) : List (Nat × Nat) :=
  ((List.range 16).filter fun i => bt (p.src.mask m).toNat i).map fun i => (i, groupCell p g i)

/-- OGET of a group: lanes of stopped domains at once, others at their boundaries (R405). -/
def execOgetVector (d : BitVec 5) (g : BitVec 4) (f m : BitVec 3) (s : State) : Res :=
  onPanel (fun p => p.osierGate fun p =>
    if !vecOk p p.src d.toNat 1 then p.trapW 0x06
    else
      let base := vecAddr p p.src d.toNat
      let c := p.cluster p.myCl
      let ls := groupLanes p g.toNat m.toNat
      let now := ls.filter fun e => !stepping c (cellOf c e.2).dom
      let later := ls.filter fun e => stepping c (cellOf c e.2).dom
      let p1 := { p with mem := now.foldl (fun mem (e : Nat × Nat) => Memory.writeN mem (base + 4 * e.1) 4 (cellField (cellOf c e.2) f.toNat p.now).toNat) p.mem }
      ((p1.updCluster p.myCl fun c =>
        { c with oacts := c.oacts ++ later.map fun (e : Nat × Nat) => (⟨p.cur.core, p.cur.slot, e.2, 3, f.toNat, 0, base + 4 * e.1, p.cur.word, p.cc.pc⟩ : OAct) }).fin).waitLanes
        later.length) s

/-- The lowest lane that R404 refuses, each checked after the lanes below it are applied. -/
def lanesBad (field : Nat) (v : Nat → Nat) : Cluster → List (Nat × Nat) → Option Nat
  | _, [] => none
  | c, (i, n) :: t =>
    if osetBad c n field (v i) (sgn 32 (v i)) then some i else lanesBad field v (osetCell c n field (v i) (sgn 32 (v i))) t

/-- OSET of a group (R405). -/
def execOsetVector (a : BitVec 5) (g : BitVec 4) (f m : BitVec 3) (s : State) : Res :=
  onPanel (fun p => p.osierGate fun p =>
    if !vecOk p p.src a.toNat 1 then p.trapW 0x06
    else
      let x := p.vec a.toNat
      let v := fun i => lane 32 x i
      let c := p.cluster p.myCl
      let ls := groupLanes p g.toNat m.toNat
      match lanesBad f.toNat v c ls with
      | some i => p.trap 0x0E (w64 i)
      | none =>
        let now := ls.filter fun e => !stepping c (cellOf c e.2).dom
        let later := ls.filter fun e => stepping c (cellOf c e.2).dom
        ((p.updCluster p.myCl fun c =>
          let c1 := now.foldl (fun (c : Cluster) (e : Nat × Nat) => osetCell c e.2 f.toNat (v e.1) (sgn 32 (v e.1))) c
          { c1 with oacts := c1.oacts ++ later.map fun (e : Nat × Nat) => (⟨p.cur.core, p.cur.slot, e.2, 4, f.toNat, w64 (v e.1), 0, p.cur.word, p.cc.pc⟩ : OAct) }).fin).waitLanes
          later.length) s

end Sys2Proof.Machine
end

