-- ==== Sys2Proof/Machine/System.lean ====
section
/-! DEFINITION. Control registers (R248, R296, R451, R524), CKPT, ICINV, TLBINV and HALT (R297-R300). -/

namespace Sys2Proof.Machine

/-! ### Control registers -/

/-- Access to a control register at U and at S level: 0 none, 1 read, 2 read and write; none of it for an unlisted number
(R248). -/
def crAccess (n : Nat) : Option (Nat × Nat) :=
  if n ≤ 0x005 then some (1, 1)
  else if n = 0x006 ∨ n = 0x007 ∨ n = 0x008 then some (2, 2)
  else if n = 0x009 then some (1, 1)
  else if n = 0x00A ∨ n = 0x010 then some (2, 2)
  else if 0x011 ≤ n ∧ n ≤ 0x014 then some (1, 2)
  else if 0x020 ≤ n ∧ n ≤ 0x02B then some (2, 2)
  else if 0x02C ≤ n ∧ n ≤ 0x037 then some (1, 1)
  else if n = 0x100 ∨ n = 0x103 then some (0, 2)
  else if n = 0x101 ∨ n = 0x102 then some (0, 1)
  else none

/-- A ring register's ring. -/
def crRing (n : Nat) : Option Nat := if 0x020 ≤ n ∧ n ≤ 0x02F then some (n % 4) else none

def Panel.ring (p : Panel) (lc n : Nat) : Ring := SMap.getD (p.core lc).rings n {}

def Panel.setRing (p : Panel) (lc n : Nat) (r : Ring) : Panel := p.updCore lc fun c => { c with rings := SMap.set c.rings n r }

/-- A thread of another block may not touch the ring (R248). -/
def Panel.foreignRing (p : Panel) (n : Nat) : Bool :=
  match crRing n with
  | some i => let r := p.ring p.cur.core i; r.en && r.btag != p.cc.btag
  | none => false

/-- RINGBn as read (R221). -/
def ringB (r : Ring) : Nat := r.btag * 2 ^ 32 + b2n r.en * 2 ^ 31 + r.base * 8

/-- CKPTCFG as read (R485). -/
def ckptCfg (q : Partition) : Nat := b2n q.ckEn * 2 ^ 63 + q.stkBase * 2 ^ 32 + q.period

/-- The value of a control register for the running thread (R248). -/
def Panel.crRead (p : Panel) (n : Nat) : W :=
  let c := p.src
  let b := p.cb
  let lc := p.cur.core
  let k := p.blk lc c.btag
  match n with
  | 0x000 => w64 p.now + (p.core lc).cycleOff
  | 0x001 => c.thread
  | 0x002 => w64 (c.by_ * 256 + c.bx)
  | 0x003 => w64 ((b.h - 1) * 2 ^ 28 + (b.w - 1) * 2 ^ 24 + b.oy * 256 + b.ox)
  | 0x004 => w64 (b.lmSize * 2 ^ 16 + b.lmBase)
  | 0x005 => w64 (c.rsSize * 2 ^ 16 + c.rsBase)
  | 0x006 => c.rmode.zeroExtend 64
  | 0x007 => w64 (k.bsMod * 2 ^ 16 + k.bsStep)
  | 0x008 => w64 k.rfpwr
  | 0x009 => w64 (p.launch b.launch).ebudget
  | 0x00A => w64 (b2n k.lost4)
  | 0x010 => b.tvec
  | 0x011 => c.tcause.zeroExtend 64
  | 0x012 => c.tpc
  | 0x013 => c.tval
  | 0x014 => c.tstate.zeroExtend 64
  | 0x100 => w64 b.prio
  | 0x101 => w64 (partOf p lc)
  | 0x102 => w64 p.panelId
  | 0x103 => w64 (ckptCfg (p.part b.part))
  | n =>
    let r := p.ring lc (n % 4)
    if n < 0x024 then w64 (ringB r)
    else if n < 0x028 then w64 (r.drop * 2 ^ 32 + r.size)
    else if n < 0x02C then w64 r.head
    else if n < 0x030 then w64 r.tail
    else SMap.getD (p.cluster (clusterOf lc)).rwp (n - 0x030) 0

/-- A write of RINGBn (R221). -/
def Panel.writeRingB (p : Panel) (i v : Nat) : Panel :=
  let lc := p.cur.core
  let r := p.ring lc i
  let base := bf v 17 3
  if r.en ∧ bt v 31 then (if base ≠ r.base then p.trapW 0x0A else p.fin)
  else if bt v 31 then
    if r.size < 64 ∨ 131072 < r.size ∨ r.size % 8 ≠ 0 ∨ p.cb.lmSize * 1024 < base * 8 + r.size then p.trapW 0x03
    else (p.setRing lc i { r with en := true, base := base, btag := p.cc.btag, head := 0, tail := 0, headOld := 0, headAt := 0 }).fin
  else (p.setRing lc i { r with en := false, base := base }).fin

/-- A write of RINGSn; `w1c` says which DROP bits the write clears (R221, R296). -/
def Panel.writeRingS (p : Panel) (i v w1c : Nat) : Panel :=
  let lc := p.cur.core
  let r := p.ring lc i
  let size := bf v 17 0
  if r.en ∧ size ≠ r.size then p.trapW 0x0A
  else (p.setRing lc i { r with size := size, drop := r.drop &&& (0xFFFF - bf w1c 47 32) }).fin

/-- A write of RINGHn (R221). -/
def Panel.writeRingH (p : Panel) (i v : Nat) : Panel :=
  let r := p.ring p.cur.core i
  let head := bf v 17 0
  if head % 8 ≠ 0 ∨ r.size ≤ head then p.trapW 0x03
  else (p.setRing p.cur.core i (r.setHead p.now head)).fin

/-- A write of TVEC: a value other than 0 is checked as a jump target (R282, R451). -/
def Panel.writeTvec (p : Panel) (v : Nat) : Panel :=
  if v ≠ 0 ∧ (badTarget (w64 v)).isSome then p.trapW 0x0A
  else (p.updBlock p.cc.btag fun b => b.setTvec p.now (w64 v)).fin

/-- The stake region of a partition's slices taken from line traffic: the lines in its ways are written back and go (R121). Those of a slice
whose tags have failed can no longer be named (R145). -/
def Panel.stakeOn (p : Panel) (pi : Nat) : Panel :=
  (p.slices.filter fun (e : Nat × Slice) => partOf p e.1 == pi).foldl (fun q e =>
    let out := e.2.lines.filter fun l => decide (8 ≤ l.way)
    if e.2.tagBad ∧ out ≠ [] then q.sliceLost e.1 else out.foldl (fun r l => r.dropLine e.1 l.line) q) p

/-- The stake copies of a partition discarded, with the logs that lead on from them (R121, R488). -/
def Panel.stakeOff (p : Panel) (pi : Nat) : Panel :=
  { p with cores := p.cores.map fun (e : Nat × Core) => if partOf p e.1 == pi then (e.1, { e.2 with stakeValid := false, log := [] }) else e }

/-- A write of CKPTCFG (R485): an automatic checkpoint is timed; the stake region takes line ways, or gives them back (R121). -/
def Panel.writeCkpt (p : Panel) (v : Nat) : Panel :=
  let pi := p.cb.part
  let period := bf v 15 0
  let was := (p.part pi).ckEn
  let p0 := p.updPart pi fun q =>
    { q with ckEn := bt v 63, stkBase := bf v 43 32, period := period, ckNext := p.now + period * 65536 }
  let p1 := if !was ∧ bt v 63 then p0.stakeOn pi else if was ∧ !bt v 63 then p0.stakeOff pi else p0
  (if bt v 63 ∧ period ≠ 0 then p1.later (period * 65536) .checkpointPeriodExpiry [pi] else p1).fin

/-- A write of a control register that its level may write; `v` the value, `w1c` the bits that W1C fields clear (R296). -/
def Panel.crWrite (p : Panel) (n v w1c : Nat) : Panel :=
  let lc := p.cur.core
  let tag := p.cc.btag
  match n with
  | 0x006 => (p.updC fun c => { c with rmode := BitVec.ofNat 3 v }).fin
  | 0x007 => (p.updBlk lc tag fun k => { k with bsMod := bf v 19 16, bsStep := bf v 15 0 }).fin
  | 0x008 => (p.updBlk lc tag fun k => { k with rfpwr := bf v 1 0 }).fin
  | 0x00A => (p.updBlk lc tag fun k => { k with lost4 := k.lost4 && !bt w1c 0 }).fin
  | 0x010 => p.writeTvec v
  | 0x011 => (p.updC fun c => { c with tcause := BitVec.ofNat 10 v }).fin
  | 0x012 => (p.updC fun c => { c with tpc := w64 v }).fin
  | 0x013 => (p.updC fun c => { c with tval := w64 v }).fin
  | 0x014 => (p.updC fun c => { c with tstate := BitVec.ofNat 5 v }).fin
  | 0x100 => (p.updBlock tag fun b => { b with prio := bf v 6 0 }).fin
  | 0x103 => p.writeCkpt v
  | n =>
    if n < 0x024 then p.writeRingB (n % 4) v
    else if n < 0x028 then p.writeRingS (n % 4) v w1c
    else p.writeRingH (n % 4) v

/-- The level's access to a register. -/
def Panel.crLevel (p : Panel) (a : Nat × Nat) : Nat := if p.slevel then a.2 else a.1

/-- The checks of R248 and a read's or a write's effect. -/
def Panel.crOp (p : Panel) (n need : Nat) (k : Panel → Panel) : Panel :=
  p.atHome fun p =>
    match crAccess n with
    | none => p.illegal
    | some a => if p.crLevel a < need ∨ p.foreignRing n then p.trapW 0x0A else k p

def execCrrd (d : Reg) (c : BitVec 12) (s : State) : Res :=
  onPanel (fun p => p.crOp c.toNat 1 fun p => (p.putG d (p.crRead c.toNat)).fin) s

/-- CRWR writes the value; a W1C field is cleared where it holds 1 (R296). -/
def execCrwr (a : Reg) (c : BitVec 12) (s : State) : Res :=
  onPanel (fun p => p.crOp c.toNat 2 fun p => p.crWrite c.toNat (p.gv a).toNat (p.gv a).toNat) s

/-- CRSET leaves W1C fields unchanged (R296). -/
def execCrset (a : Reg) (c : BitVec 12) (s : State) : Res :=
  onPanel (fun p => p.crOp c.toNat 2 fun p => p.crWrite c.toNat (p.crRead c.toNat ||| p.gv a).toNat 0) s

def execCrclr (a : Reg) (c : BitVec 12) (s : State) : Res :=
  onPanel (fun p => p.crOp c.toNat 2 fun p => p.crWrite c.toNat (p.crRead c.toNat &&& ~~~(p.gv a)).toNat 0) s

/-! ### System instructions -/

/-- CKPT completes at once; without checkpoints in the partition it has no effect (R297). -/
def execCkpt (s : State) : Res :=
  onPanel (fun p => p.atHome fun p => if (p.part p.cb.part).ckEn then (p.requestCkpt p.home).fin else p.fin) s

/-- Lines of an instruction cache outside the range, which ICINV keeps; b = 0 names every line (R298). -/
def keepLine (a n line : Nat) : Bool := n != 0 && !(a / 64 ≤ line && line ≤ (a + n - 1) / 64)

/-- The core's instruction lines of a range dropped, and its fetches on their way: threads fetch anew (R298). A fetch in a parked record stays
there: it has read nothing, and its thread waits for the record (R158). -/
def Panel.icDrop (p : Panel) (lc a n : Nat) : Panel :=
  let p1 := p.updCore lc fun c => { c with l1i := c.l1i.filter fun l => keepLine a n l.vline }
  { p1 with accs := p1.accs.filter fun (e : Nat × Access) =>
      !(e.2.kind == .fetch && e.2.core == lc && e.2.stage != .parked && !keepLine a n (e.2.va / 64)) }

/-- ICINV stalls until every earlier store of the thread is performed (R298). -/
def execIcinv (a b : Reg) (s : State) : Res :=
  onPanel (fun p => p.atHome fun p =>
    if (p.accsOf p.cur.core p.cur.slot).any fun x => x.stage.open_ && kindWrites x.kind then p.retry
    else (p.icDrop p.cur.core (p.gv a).toNat (p.gv b).toNat).fin) s

/-- A page lies in the range of a TLBINV: `n` pages from `v`, all for n = 0 (R299). -/
def inInv (v n first pages : Nat) : Bool := n == 0 || (first < v + n && v < first + pages)

/-- A page whose translation a removal of a range takes from a cluster's TLB: it lies in the range, or under an entry that meets it (R299). -/
def Cluster.loses (c : Cluster) (part asid v n page : Nat) : Bool :=
  inInv v n page 1 ||
    c.tlb.any fun t => t.part == part && t.asid == asid && inInv v n t.vpn t.pages && decide (t.vpn ≤ page) && decide (page < t.vpn + t.pages)

/-- The 512 MiB of a translation of that size that holds a page meet a range: what was filled under it goes with it, also when its entry has been
evicted (R111, R151). -/
def bigGone (v n attr page : Nat) : Bool := bt attr 6 && inInv v n (page / 8192 * 8192) 8192

/-- A cluster's part in a removal (R111, R155): translations and walk-cache entries go, with the L1 lines filled under them; a fill on its
way is not allocated; a walk that may have read the old entry starts anew. -/
def Panel.dropIn (p : Panel) (cl part asid v n : Nat) : Panel :=
  let c := p.cluster cl
  let gone := c.loses part asid v n
  let keep := fun (l : L1Line) => !(l.part == part && l.asid == asid && (gone (l.vline / 1024) || bigGone v n l.attr (l.vline / 1024)))
  let old := fun (w : TlbWalk) => w.part == part && w.asid == asid && inInv v n (w.vpn / 8192 * 8192) 8192
  let q : Panel := { p with
    cores := p.cores.map fun (e : Nat × Core) =>
      if clusterOf e.1 == cl then (e.1, { e.2 with l1d := e.2.l1d.filter keep, l1i := e.2.l1i.filter keep }) else e
    accs := p.accs.map fun (e : Nat × Access) =>
      let b := p.block e.2.btag
      if (e.2.fill == 1 || e.2.fill == 2) && e.2.parts != [] && clusterOf e.2.core == cl && b.part == part && b.asid == asid &&
          ((pagesOf e.2).any gone || e.2.parts.any fun x => bigGone v n x.attr ((e.2.va + x.pos) / 65536)) then (e.1, { e.2 with fill := 3 })
      else e }
  if (SMap.find p.clusters cl).isNone then q
  else
    (q.updCluster cl fun c => { c with
      tlb := c.tlb.filter fun t => !(t.part == part && t.asid == asid && inInv v n t.vpn t.pages)
      wcache := c.wcache.filter fun w => !(w.1 == part && w.2.1 == asid)
      wout := c.wout.filter fun w => !(w.1 == part && w.2.1 == asid)
      wnum := c.wnum + c.walks.length
      walks := (c.walks.zip (List.range c.walks.length)).map fun (e : TlbWalk × Nat) =>
        if old e.1 then { e.1 with level := 0, res := none, num := c.wnum + e.2 } else e.1 }).walkers cl 4

/-- The translations of a range of a partition's address space removed from every cluster (R111, R155). -/
def Panel.tlbDrop (p : Panel) (part asid v n : Nat) : Panel :=
  (p.cores.map (fun (e : Nat × Core) => clusterOf e.1) ++ p.clusters.map (·.1)).eraseDups.foldl (fun q cl => q.dropIn cl part asid v n) p

/-- TLBINV drops the entries and waits for the accesses translated under them (R155, R299). -/
def execTlbinv (a b : Reg) (s : State) : Res :=
  onPanel (fun p =>
    if !p.slevel then p.illegal
    else p.atHome fun p =>
      let x := (p.gv a).toNat
      let n := (p.gv b).toNat
      let pi := p.cb.part
      (((p.tlbDrop pi (bf x 63 56) (bf x 54 16) n).updPart pi fun q =>
        { q with tlbinvs := q.tlbinvs ++ [(p.cur.core, p.cur.slot, bf x 63 56, bf x 54 16, n, p.nid)] }).later 64 .tlbinvCompletion
          [p.cur.core, p.cur.slot]).fin.stallFor .tlbinv) s

/-- HALT raises the halt line of the partition with REASON 3 (R300, R469). -/
def execHalt (s : State) : Res :=
  onPanel (fun p =>
    if !p.slevel then p.illegal
    else p.atHome fun p => p.fin.raiseHalt p.cb.part (siteOf p.fabric p.cur.core) 3 0 0) s

end Sys2Proof.Machine
end

