-- ==== Sys2Proof/Machine/Records.lean ====
section
/-! DEFINITION. The bytes of what the front end keeps in a partition's HBM: swap records (R458, R459), stake images (R486), queue tables (R418) and
peer tables (R43). Places and layouts that the spec leaves open are the model's (log 77, DESIGN CHOICE). -/

namespace Sys2Proof.Machine

/-! ### Pieces -/

/-- The `n` bytes of a number at an offset, as far as they are not 0. -/
def bytesAt (off n v : Nat) : Memory :=
  ((upto off n).zip (toBytes n v)).filterMap fun e => if e.2 = 0 then none else some (e.1, e.2)

/-- A memory moved up. -/
def moveUp (d : Nat) (m : Memory) : Memory := m.map fun e => (d + e.1, e.2)

/-- A length rounded up to 64 bytes. -/
def up64 (n : Nat) : Nat := cdiv n 64 * 64

/-- Sections that follow one another, each aligned to 64 bytes (R458): contents and length. -/
def sections : List (Memory × Nat) → Memory × Nat
  | [] => ([], 0)
  | (m, n) :: t =>
    let r := sections t
    (m ++ moveUp (up64 n) r.1, up64 n + r.2)

/-- Numbers as a bit set. -/
def bitSet (xs : List Nat) : Nat := xs.foldl (fun v i => v ||| 2 ^ i) 0

/-! ### Contexts (R459, R473) -/

/-- Wake kind and operand (R459). The operand's format is the model's (log 20, DESIGN CHOICE). -/
def wakeCode (c : Ctx) : Nat × Nat :=
  if c.st = .parked then (10, 0)
  else
    match c.wake with
    | .none => (0, 0)
    | .barrier _ _ _ va => (1, va)
    | .stagger u => (1, u)
    | .qpop q _ => (2, q)
    | .qpeek q _ => (3, q)
    | .ldsy va _ take => (if take then 5 else 4, va)
    | .ring n => (6, n)
    | .waitc l s k t => (7, l * 2 ^ 10 + s * 2 ^ 6 + k * 2 ^ 3 + t)
    | .hlease n k => (8, k * 2 ^ 7 + n)
    | .yield => (9, 0)
    | .parked => (10, 0)
    | .remote => (0, 0)

/-- A context slot of 1,536 bytes. -/
def ctxSlot (c : Ctx) : Nat :=
  let words := fun (off : Nat) (xs : List W) => ofLanes 64 (xs.map (·.toNat)) * 2 ^ (8 * off)
  let w := wakeCode c
  words 0 ((List.range 16).map c.gr) +
  words 128 [c.pc] + (c.flags.toNat + c.rmode.toNat * 2 ^ 16 + c.ord % 256 * 2 ^ 24 + b2n (c.st == .away) * 2 ^ 32) * 2 ^ (8 * 136) +
  words 144 [c.vv, c.tv, c.av] +
  words 168 ((List.range 7).map fun i => c.mask (i + 1)) +
  ofLanes 512 ((List.range 16).map fun i => (c.shape i).toNat) * 2 ^ (8 * 224) +
  words 1248 [c.tcause.zeroExtend 64, c.tpc, c.tval, c.tstate.zeroExtend 64] +
  (match c.arr with
    | some a => (1 + a.phase % 2 * 2 ^ 1 + a.x % 256 * 2 ^ 8 + a.y % 256 * 2 ^ 16 + a.off % 2 ^ 32 * 2 ^ 32) * 2 ^ (8 * 1280)
    | none => 0) +
  (match c.tracker with
    | some t => (1 + t.cnt % 8 * 2 ^ 1 + t.idx % 64 * 2 ^ 8 + t.x % 256 * 2 ^ 16 + t.y % 256 * 2 ^ 24) * 2 ^ (8 * 1296)
    | none => 0) +
  (w.1 + w.2 % 2 ^ 64 * 2 ^ 64) * 2 ^ (8 * 1312) +
  (match c.replay with
    | some v => (v.toNat + 2 ^ 64) * 2 ^ (8 * 1328)
    | none => 0)

/-! ### Per-core sections (R458) -/

/-- Where the entries of a queue register stand in its section. -/
def qOff (i : Nat) : Nat := if i < 5 then 256 * i else 1280 + 128 * (i - 8)

/-- Queue registers, counts and QSTAT, held completions: 2,592 bytes. -/
def queueBytes (k : BlkCore) : Memory :=
  let qs := [0, 1, 2, 3, 4, 8, 9, 10, 11, 12, 13, 14, 15]
  let ents := fun (i : Nat) => SMap.getD k.q i []
  (qs.flatMap fun i => bytesAt (qOff i) (8 * (ents i).length) (ofLanes 64 ((ents i).map (·.toNat)))) ++
  bytesAt 2304 64 ((qs.foldl (fun v i => v + (ents i).length % 256 * 2 ^ (8 * i)) 0) + b2n k.lost4 * 2 ^ 128) ++
  ((List.range 14).zip k.held).flatMap fun (e : Nat × Held) => bytesAt (2368 + 16 * e.1) 16 (e.2.q + e.2.entry.toNat * 2 ^ 64)

/-- Core control: RINGB, RINGS, RINGH, RINGT 0 to 3, BSTAG, RFPWR; 192 bytes. -/
def controlBytes (rings : SMap Ring) (k : BlkCore) : Memory :=
  let four := fun (off : Nat) (f : Ring → Nat) => bytesAt off 32 (ofLanes 64 ((List.range 4).map fun n => f (SMap.getD rings n {})))
  four 0 ringB ++ four 32 (fun r => r.drop * 2 ^ 32 + r.size) ++ four 64 (·.head) ++ four 96 (·.tail) ++
    bytesAt 128 16 (k.bsMod * 2 ^ 16 + k.bsStep + k.rfpwr * 2 ^ 64)

/-- What a core's share of a record or a stake image is made from. -/
structure CoreImage where
  /-- contexts and their windows, in ordinal order -/
  ctxs : List (Nat × Ctx)
  q : Nat
  regs : Nat
  wins : Memory
  blk : BlkCore
  rings : SMap Ring
  local_ : Memory
  kib : Nat
  /-- full words of the window -/
  full : List Nat
  /-- the park slot, when the group is parked -/
  park : Option Memory
  deriving DecidableEq, Repr

/-- The sections of a core. -/
def CoreImage.sections (x : CoreImage) : List (Memory × Nat) :=
  [(x.ctxs.flatMap fun (e : Nat × Ctx) => bytesAt (1536 * e.1) 1536 (ctxSlot e.2), 1536 * x.q),
   (x.wins, x.regs * x.q),
   (queueBytes x.blk, 2592),
   (controlBytes x.rings x.blk, 192),
   (x.local_, 1024 * x.kib),
   (bytesAt 0 (16 * x.kib) (bitSet x.full), 16 * x.kib),
   (x.park.getD [], if x.park.isSome then 32768 else 0)]

/-! ### The Hoop and Osier section (R458) -/

/-- A patch entry of a cell (R399). -/
def patchEntry (n : Nat) (x : Cell) : Nat :=
  let dy := fun (j : Nat) => let e := (x.dy[j]?).getD (0x800, false); e.1 + b2n e.2 * 2 ^ 12
  n + x.k * 2 ^ 16 + x.s * 2 ^ 24 + x.dom * 2 ^ 28 + x.xsrc * 2 ^ 32 + dy 0 * 2 ^ 48 + dy 1 * 2 ^ 64 + dy 2 * 2 ^ 80 + dy 3 * 2 ^ 96

/-- The section of a cluster; cores and slots of the domains' issuers are indices in the block and ordinals. -/
def clusterBytes (now : Nat) (h : Hoop) (acc : Memory) (cells : SMap Cell) (doms : SMap Domain) : Memory :=
  let latch := fun (k : Nat) => (h.latch[k]?).getD {}
  let w := fmtBits (h.latFmt % 256)
  let elems := fun (k : Nat) =>
    (((List.range (latch k).elems.length).zip (latch k).elems).foldl (fun v e =>
      v ||| (e.2 % 2 ^ w) * 2 ^ (4096 * (e.1 / max 1 h.latK) + w * (e.1 % max 1 h.latK))) 0)
  let bind := match h.bind with
    | some b => 2 ^ 8 + b.2.1 % 2 ^ 64 * 2 ^ 64 + b.2.2.1 % 2 ^ 64 * 2 ^ 128 + b.2.2.2 % 2 ^ 64 * 2 ^ 192 + b.1.toNat % 2 ^ 256 * 2 ^ 256
    | none => 0
  let dom := fun (d : Nat) => SMap.getD doms d {}
  acc ++
  ((List.range 8).flatMap fun k => bytesAt (32768 + 64 * k) 64 (bitSet ((h.nan.filter fun e => e / 512 == k).map (· % 512)))) ++
  ((List.range 8).flatMap fun k => bytesAt (33280 + 2048 * k) 2048 (elems k)) ++
  ((List.range 8).flatMap fun k => bytesAt (49664 + 64 * k) 64 ((latch k).blk % 256 + bind)) ++
  bytesAt 50176 64 (cut 16 h.ea + h.kind * 2 ^ 16) ++
  ((List.range 32).flatMap fun i =>
    let base := 50240 + 4160 * i
    ((cells.filter fun (e : Nat × Cell) => e.1 / 256 == i / 4 && e.2.dom == i % 4).flatMap fun (e : Nat × Cell) =>
      bytesAt (base + 16 * (e.1 % 256)) 16 (cellRecord e.2 now)) ++ bytesAt (base + 4096) 64 (domRecord (dom (i % 4)))) ++
  ((List.range 2048).flatMap fun n => bytesAt (183360 + 16 * n) 16 (patchEntry n (SMap.getD cells n {}))) ++
  (List.range 4).flatMap fun d =>
    let y := dom d
    if y.state = 1 then bytesAt (216128 + 16 * d) 16 (1 + y.core % 256 * 2 ^ 8 + y.slot % 256 * 2 ^ 16 + (runEntry d y 0).toNat * 2 ^ 64) else []

/-! ### Swap records (R458) -/

/-- The bytes of an absent block's record, and their number. -/
def recordBytes (p : Panel) (tag : Nat) : Memory × Nat :=
  let b := p.block tag
  let l := p.launch b.launch
  let q := p.part b.part
  let core := fun (ci : Nat) =>
    let lc := coreXY (b.ox + ci % b.w) (b.oy + ci / b.w)
    CoreImage.sections
      { ctxs := SMap.getD b.recCtxs ci [], q := b.q, regs := b.regs, wins := SMap.getD b.recRegs ci [], blk := SMap.getD b.recBlk ci {}
        rings := SMap.getD b.recRings ci [], local_ := SMap.getD b.recMem ci [], kib := b.lmSize, full := SMap.getD b.recFe ci []
        park := if SMap.getD b.recParked ci [] = [] then none else some (Memory.slice p.mem (parkSlot q lc) 32768 0) }
  let lens := (core 0).map fun e => up64 e.2
  let lease := (b.leaseLeft.map (·.2)).headD (0, 0)
  let head := tag % 2 ^ 32 + l.seq % 2 ^ 64 * 2 ^ 32 + b.idx % 2 ^ 64 * 2 ^ 96 +
    (b.w % 256 + b.h % 256 * 2 ^ 8 + b.q % 256 * 2 ^ 16 + l.flags % 256 * 2 ^ 24 + b.regs % 2 ^ 32 * 2 ^ 32 + b.lmSize % 2 ^ 16 * 2 ^ 64 +
      b.prio % 256 * 2 ^ 80) * 2 ^ 160 + b.tvec.toNat * 2 ^ 256 + (lease.1 % 2 ^ 32 + lease.2 % 2 ^ 32 * 2 ^ 32) * 2 ^ 320 +
    (lens.foldl (· + ·) 0 % 2 ^ 32 + (if b.hoop then 216192 else 0) * 2 ^ 32) * 2 ^ 384
  let cls := b.recHoop.map fun (e : Nat × Hoop) =>
    (clusterBytes p.now e.2 (SMap.getD b.recAcc e.1 []) (SMap.getD b.recCells e.1 []) (SMap.getD b.recDoms e.1 []), 216192)
  sections ((bytesAt 0 64 head, 64) :: (List.range (b.w * b.h)).flatMap core ++ cls)

/-- The HBM offset below which swap records are placed in a partition, unless the Memory core's choice is given: under its park slots, its queue table
and its peer table. -/
def recordTop (q : Partition) : Nat := parkBase q - 65536

/-- The lowest record of a partition's absent blocks. -/
def Panel.recordLow (p : Panel) (part : Nat) : Nat :=
  p.blocks.foldl (fun m (e : Nat × Block) => if e.2.st == .absent && e.2.part == part && e.2.recAt != 0 then min m e.2.recAt else m) (recordTop (p.part part))

/-- A record written to HBM: at the offset that the Memory core names, or, for 0, below the partition's other records (R458). -/
def Panel.writeSwap (p : Panel) (tag at_ : Nat) : Panel :=
  let r := recordBytes p tag
  let a := if at_ = 0 then p.recordLow (p.block tag).part - r.2 else at_ / 64 * 64
  { p with mem := Memory.restore p.mem a r.2 r.1 }.updBlock tag fun b => { b with recAt := a }

/-- The record of an absent block's thread changed, by the core and slot that it ran in; its bytes follow (R461). -/
def Panel.updSaved (p : Panel) (tag lc slot : Nat) (f : Ctx → Ctx) : Panel :=
  let b := p.block tag
  let ci := (lc / 256 - b.oy) * b.w + (lc % 256 - b.ox)
  (p.updBlock tag fun b =>
    { b with recCtxs := SMap.upd b.recCtxs ci [] fun m => m.map fun (e : Nat × Ctx) => if e.2.homeSlot == slot then (e.1, f e.2) else e }).writeSwap
      tag b.recAt

/-! ### Stake images (R486) -/

/-- The bytes of a core's stake area: the per-core sections of each of its replayable blocks, then, in the upper part of its 1 MiB, the sequence
tables and the replay log. -/
def stakeBytes (p : Panel) (lc : Nat) : Memory :=
  let c := p.core lc
  let one := fun (e : Nat × BlkCore) =>
    let b := p.block e.1
    let lo := 1024 * b.lmBase
    let mine := (c.stakeCtxs.filter fun (x : Nat × Ctx) => x.2.btag == e.1).map fun (x : Nat × Ctx) => (x.2.ord, x.2)
    let wins := mine.foldl (fun m (x : Nat × Ctx) =>
      m ++ Memory.slice c.stakeMem (2 ^ 18 + 64 * x.2.rsBase) (64 * x.2.rsSize) (x.1 * (64 * x.2.rsSize))) []
    CoreImage.sections
      { ctxs := mine.filter fun x => decide (x.1 < b.q), q := b.q, regs := b.regs, wins := wins, blk := e.2
        rings := c.stakeRings.filter fun (r : Nat × Ring) => r.2.btag == e.1, local_ := Memory.slice c.stakeMem lo (1024 * b.lmSize) 0, kib := b.lmSize
        full := (c.stakeFe.filter fun w => decide (lo ≤ 8 * w) && decide (8 * w < lo + 1024 * b.lmSize)).map fun w => w - lo / 8, park := none }
  let seqs := fun (off : Nat) (m : SMap Nat) =>
    ((List.range m.length).zip m).flatMap fun (e : Nat × (Nat × Nat)) => bytesAt (off + 8 * e.1) 8 (e.2.1 % 2 ^ 32 + e.2.2 % 2 ^ 32 * 2 ^ 32)
  let log := c.log.foldl (fun (a : Memory × Nat) l =>
    let data := match l.acc with | some x => x.data | none => 0
    let n := 32 * (1 + (match l.acc with | some x => if x.size ≤ 8 then 0 else cdiv x.size 32 | none => dataFlits p l.pay))
    (a.1 ++ bytesAt (0xF8000 + a.2) n (l.dst % 2 ^ 16 + l.seq % 2 ^ 32 * 2 ^ 32 + (match l.acc with | some x => x.va % 2 ^ 64 | none => 0) * 2 ^ 64 +
      data * 2 ^ (if n = 32 then 128 else 256)), a.2 + n)) ([], 0)
  ((sections (c.stakeBlk.flatMap one)).1.filter fun e => decide (e.1 < 0xE0000)) ++ seqs 0xE0000 c.stakeSeqIn ++ seqs 0xF0000 c.stakeSeqOut ++ log.1

/-- A core's stake image written to its stake area. -/
def Panel.writeStake (p : Panel) (lc : Nat) : Panel :=
  let q := p.part (partOf p lc)
  { p with mem := Memory.restore p.mem (q.stkBase * 2 ^ 30 + sliceOrd q lc * 2 ^ 20) (2 ^ 20) (stakeBytes p lc) }

/-! ### Queue tables and peer tables (R43, R418) -/

/-- An entry of a partition's queue table written, in the partition and in its HBM. -/
def Panel.putQtab (p : Panel) (pi n : Nat) (w : W) : Panel :=
  let q := p.part pi
  { p with mem := Memory.writeN p.mem (parkBase q - 8192 + 8 * n) 8 w.toNat }.updPart pi fun q => { q with qtab := SMap.set q.qtab n w }

/-- A slot of a partition's peer table written, in the partition and in its HBM. -/
def Panel.putPeer (p : Panel) (pi n : Nat) (w : W) : Panel :=
  let q := p.part pi
  { p with mem := Memory.writeN p.mem (parkBase q - 40960 + 8 * n) 8 w.toNat }.updPart pi fun q => { q with peers := SMap.set q.peers n w }

end Sys2Proof.Machine
end

