-- ==== Sys2Proof/Machine/Arrivals.lean ====
section
/-! DEFINITION. Events of a core: timers of threads, retention, packets performed from the arrival FIFO, responses
(R90, R94-R104, R108, R143, R211-R223, R246-R247, R263, R277, R309-R311, R315, R319-R321, R460). -/

namespace Sys2Proof.Machine

/-! ### Timers -/

/-- DIV_RESULT: results due are written, oldest first (R277). -/
def execDivResult (s : State) : Res :=
  onPanel (fun p =>
    p.updCtx (p.arg 0) (p.arg 1) fun c =>
      let due := c.div.filter fun e => e.2.2 ≤ p.now
      { due.foldl (fun (c : Ctx) e => c.setG e.1 e.2.1) c with div := c.div.filter fun e => !(e.2.2 ≤ p.now) }) s

/-- ISSUE_GAP_END: GAP becomes READY once the gap has passed (R211, R226). -/
def execIssueGapEnd (s : State) : Res :=
  onPanel (fun p =>
    p.updCtx (p.arg 0) (p.arg 1) fun c =>
      if c.st = .gap ∧ c.gapUntil ≤ p.now then { c with st := .ready, since := p.now } else c) s

/-- HOLD_END (R315). -/
def execHoldEnd (s : State) : Res :=
  onPanel (fun p =>
    match (p.ctx (p.arg 0) (p.arg 1)).stall with
    | .hold u => if u ≤ p.now then p.ready (p.arg 0) (p.arg 1) else p
    | .none => p | .retry _ => p | .fuse _ _ _ => p | .barrier => p | .header => p | .tlbinv => p | .osier _ => p | .migrate => p
    | .ckpt => p | .fatal => p) s

/-- FUSE_TIMEOUT: a FUSE that has not seen every member within 4,096 cycles returns 0 (R214). -/
def execFuseTimeout (s : State) : Res :=
  onPanel (fun p =>
    match (p.ctx (p.arg 0) (p.arg 1)).stall with
    | .fuse _ _ since => if since + 4096 ≤ p.now then p.fuseEnd (p.arg 0) (p.arg 1) 0 [] else p
    | .none => p | .retry _ => p | .hold _ => p | .barrier => p | .header => p | .tlbinv => p | .osier _ => p | .migrate => p
    | .ckpt => p | .fatal => p) s

/-- BARRIER_STAGGER_END (R311). -/
def execBarrierStaggerEnd (s : State) : Res :=
  onPanel (fun p =>
    let c := p.ctx (p.arg 0) (p.arg 1)
    match c.wake with
    | .stagger u => if (c.st = .blocked ∨ c.st = .parked) ∧ u ≤ p.now then p.ready (p.arg 0) (p.arg 1) else p
    | .none => p | .barrier .. => p | .qpop .. => p | .qpeek .. => p | .ldsy .. => p | .ring _ => p | .waitc .. => p
    | .hlease .. => p | .yield => p | .parked => p | .remote => p) s

/-- MIGRATE_AFTER_STALL: the access is executed again with both counters zero, and migrates (R99). -/
def execMigrateAfterStall (s : State) : Res :=
  onPanel (fun p =>
    let c := p.ctx (p.arg 0) (p.arg 1)
    if c.stall = .migrate ∧ c.ldc = 0 ∧ c.stc = 0 then p.ready (p.arg 0) (p.arg 1) else p) s

/-! ### The wait table -/

/-- A BARWAIT's wait at an object: released when its phase has passed, else entered (R90, R310). -/
def Panel.waitBar (p : Panel) (lc : Nat) (e : WaitEnt) : Panel :=
  let o := p.obj lc e.off
  if e.phase ≠ objPhase o then
    if e.core = lc then p.barReturn lc e.slot (objStag o) else p.send lc e.core (.wake e.slot)
  else p.enterWait lc e

/-- An LDSY's wait on a word: served when the word is full, else entered (R90, R91). -/
def Panel.waitWord (p : Panel) (lc : Nat) (e : WaitEnt) : Panel :=
  if p.isFull lc e.off then
    let q := p.serveOne lc e.off e
    if e.take then q.setEmpty lc e.off else q
  else p.enterWait lc e

/-- WAIT_TABLE_RETRY: a wait that a full table refused is tried again (R90). -/
def execWaitTableRetry (s : State) : Res :=
  onPanel (fun p =>
    let mine := fun (e : WaitEnt) => e.core == p.arg 0 && e.slot == p.arg 1 && !e.entered && e.retryAt ≤ p.now
    match p.cores.find? fun (k : Nat × Core) => k.2.waits.any mine with
    | none => p
    | some (lc, k) =>
      match k.waits.find? mine with
      | none => p
      | some e =>
        let p1 := p.updCore lc fun c => { c with waits := c.waits.erase e }
        if e.bar then p1.waitBar lc e else p1.waitWord lc e) s

/-! ### Retention (R245-R247) -/

/-- The blocks resident on a core. -/
def residentOn (p : Panel) (lc : Nat) : List Nat :=
  (p.blocks.filter fun (e : Nat × Block) => (e.2.st == .resident || e.2.st == .taking) && (blockCores e.2).contains lc).map (·.1)

/-- The effective retention depth of a core (R245). -/
def retDepth (p : Panel) (lc : Nat) : Nat :=
  match (residentOn p lc).map fun t => (p.blk lc t).rfpwr with
  | [] => 0
  | d :: ds => ds.foldl min d

/-- The conditions of R246, for the present cycle. -/
def retentionOk (p : Panel) (lc : Nat) : Bool :=
  retDepth p lc != 0 &&
  (p.core lc).ctxs.all fun (e : Nat × Ctx) =>
    e.2.st == .empty ||
      (e.1 < 12 && (e.2.st == .blocked || e.2.st == .parked || e.2.st == .away) && e.2.ldc == 0 && e.2.stc == 0 && e.2.cpc == 0 && e.2.tlc == 0)

/-- RETENTION_ENTRY: the conditions have held for 256 cycles (R246). -/
def execRetentionEntry (s : State) : Res :=
  onPanel (fun p =>
    let lc := p.arg 0
    if retentionOk p lc ∧ (p.core lc).idleSince + 256 ≤ p.now ∧ (p.core lc).retDepth = 0 then
      p.updCore lc fun c => { c with retDepth := retDepth p lc, wakeAt := 0 }
    else p) s

/-- BANK_WAKE (R247). -/
def execBankWake (s : State) : Res :=
  onPanel (fun p =>
    p.updCore (p.arg 0) fun c =>
      if c.retDepth ≠ 0 ∧ c.wakeAt ≠ 0 ∧ c.wakeAt ≤ p.now then { c with retDepth := 0, wakeAt := 0 } else c) s

/-! ### Accesses performed at local memory (R89, R94, R304) -/

/-- Bank cycles of an access in the banks of a core: the aligned 64-byte groups of a vector access, the distinct words of any other (R84). -/
def bankCycles (a : Access) : Nat :=
  let runs := a.items.map fun i => (i.bit / 8, (i.bit % 8 + i.w + 7) / 8)
  max 1 (match a.kind with
    | .vload => distinctUnits 64 runs | .vstore => distinctUnits 64 runs | .fmtLoad => distinctUnits 64 runs | .shLoad => distinctUnits 64 runs
    | .feclr => (match runs with | r :: _ => distinctUnits 8 [(r.1, a.size)] | [] => 1)
    | .load => distinctUnits 8 runs | .store => distinctUnits 8 runs | .amo => distinctUnits 8 runs | .fetch => 1 | .ldsy => 1 | .ldsyTake => 1
    | .stfl => 1 | .send => 1 | .barrier => 1 | .twperm => 1)

/-- The byte offset of an access's first item. -/
def itemOff (a : Access) : Nat := match a.items with | i :: _ => i.bit / 8 | [] => 0

/-- An access performed, its response on the way. -/
def Panel.ackBy (p : Panel) (id : Nat) (e : Instr) : Panel :=
  ((p.performed id).billAnswer id (p.backHops id)).later (14 + 2 * p.backHops id) e [id]

/-- A mesh-window LDSY has found its word empty: its thread, unless it waits for something else, is at that blocking point (R224). -/
def Panel.ldsyBlocks (p : Panel) (a : Access) : Panel :=
  let w : Wake := .ldsy a.va (destNum a) (a.kind == .ldsyTake)
  let p1 := p.updAcc a.id fun a => { a with waits := true }
  if !p.mine a then p1
  else
    p1.updCtx a.core a.slot fun c =>
      match c.st, c.stall with
      | .ready, _ => { c with st := .blocked, wake := w }
      | .gap, _ => { c with st := .blocked, wake := w }
      | .stall, .retry _ => { c with st := .blocked, stall := .none, wake := w }
      | .parked, _ => if c.wake = .none then { c with wake := w } else c
      | _, _ => c

/-- A mesh-window access performed at its target (R94); an LDSY of an empty word waits there, but that of a handler, which traps (R90, R220). -/
def Panel.performMesh (p : Panel) (lc : Nat) (a : Access) : Panel :=
  let off := itemOff a
  let p := p.bankCharge lc a.btag (bankCycles a)
  let wait := fun (take : Bool) =>
    if handlerSlot a.slot then
      ((p.performed a.id).updAcc a.id fun a => { a with stage := .error, err := 0x0C }).later (14 + 2 * p.backHops a.id) .errorResponse [a.id]
    else
      (p.ldsyBlocks a).enterWait lc
        { off := off / 8, core := a.core, slot := a.slot, bar := false, phase := 0, take := take, acc := a.id, dest := 0
          entered := true, retryAt := 0 }
  let load := (p.updAcc a.id fun a => { a with got := readItems p.mem lc a.items }).ackBy a.id .remoteLoadResponse
  let word := off / 8
  let got := fun (q : Panel) => (q.updAcc a.id fun a => { a with got := p.lmRead lc off 8 }).ackBy a.id .remoteLoadResponse
  match a.kind with
  | .load => load | .vload => load | .fmtLoad => load | .shLoad => load
  | .store => (p.writeItems lc a.items a.data).ackBy a.id .storeAcknowledgement
  | .vstore => (p.writeItems lc a.items a.data).ackBy a.id .storeAcknowledgement
  | .stfl => ((p.lmWrite lc off 8 a.data).fillWord lc (off / 8)).ackBy a.id .storeAcknowledgement
  | .feclr => (p.clearWords lc off a.size).ackBy a.id .storeAcknowledgement
  | .ldsy => if p.isFull lc word then got p else wait false
  | .ldsyTake => if p.isFull lc word then got (p.setEmpty lc word) else wait true
  | .amo => p | .fetch => p | .send => p | .barrier => p | .twperm => p

/-- REMOTE_ACCESS_ARRIVAL; a logged packet consumed before is answered and has no effect (R489). -/
def execRemoteAccessArrival (s : State) : Res :=
  onPanel (fun p =>
    let lc := p.arg 0
    let p := p.incoming .remoteAccessArrival
    match p.headK lc with
    | some ⟨.access id, src, seq⟩ =>
      let q := p.pop lc
      (match q.acc id with
      | none => q
      | some a => if p.stale lc ⟨.access id, src, seq⟩ then q.ackBy id .storeAcknowledgement else q.performMesh lc a)
    | _ => p) s

/-- REMOTE_ATOMIC_ARRIVAL: one read-modify-write at the bank (R304). The value answered to an atomic consumed before is free
(R489; log 3, DESIGN CHOICE). -/
def execRemoteAtomicArrival (s : State) : Res :=
  onPanel (fun p =>
    let lc := p.arg 0
    let p := p.incoming .remoteAtomicArrival
    match p.headK lc with
    | some ⟨.amo id, src, seq⟩ =>
      let q := p.pop lc
      (match q.acc id with
      | none => q
      | some a =>
        let r := if p.stale lc ⟨.amo id, src, seq⟩ then ((q.fresh).1.toNat, (q.fresh).2)
          else (q.bankCharge lc a.btag 1).amoLocal lc (itemOff a) a.op a.wide a.rnd (if a.op = 2 then a.data1 else a.data) a.data
        (r.2.updAcc id fun a => { a with got := r.1 }).ackBy id .remoteLoadResponse)
    | _ => p) s

/-- BARRIER_OP_ARRIVAL (R309, R310). -/
def execBarrierOpArrival (s : State) : Res :=
  onPanel (fun p =>
    let lc := p.arg 0
    let p := p.incoming .barrierOpArrival
    match p.headK lc with
    | some ⟨.bar op off val core slot btag dest arr id, src, seq⟩ =>
      let q := p.pop lc
      let resp : Instr := match barClass op with | .none => .remoteLoadResponse | .loads => .remoteLoadResponse | .stores => .storeAcknowledgement
      (match q.acc id with
      | none => q
      | some a =>
        if !q.mine a then q.delAcc id
        else if p.stale lc ⟨.bar op off val core slot btag dest arr id, src, seq⟩ ∧ op ≠ 2 ∧ op ≠ 4 then q.ackBy id resp
        else
          match (q.bankCharge lc btag 1).barDo op lc off val a.wide core slot with
          | (.fault, _) => ((q.performed id).updAcc id fun a => { a with stage := .error, err := 0x0B }).later (14 + 2 * q.backHops id) .errorResponse [id]
          | (.done v, r) =>
            let got := if op = 2 then b2n (objStag (r.obj lc off)) else v.toNat
            (r.updAcc id fun a => { a with got := got }).ackBy id resp
          | (.wait f, r) =>
            (((r.performed id).delAcc id).updCtx core slot fun c => { c with wake := .barrier lc off f a.va }).waitBar lc
              { off := off, core := core, slot := slot, bar := true, phase := f, take := false, acc := 0, dest := 0
                entered := true, retryAt := 0 })
    | _ => p) s

/-! ### Messages (R219-R223, R320, R321, R460) -/

/-- A block has a group resident on a core. -/
def Panel.residentAt (p : Panel) (tag lc : Nat) : Bool :=
  let b := p.block tag
  (b.st == .resident || b.st == .taking) && (blockCores b).contains lc

/-- Where `refuse` and the append of R223 lead: a status, or the offset of the entry, whether a wrap marker precedes it, and the
new TAIL. -/
def ringFit (r : Ring) (len : Nat) : Except Nat (Nat × Bool × Nat) :=
  let e := 8 + 8 * ((len + 7) / 8)
  let free := (r.head + 2 * r.size - r.tail - 8) % r.size
  if r.size < e + 8 then .error 1
  else if r.size < r.tail + e then
    if free < (r.size - r.tail) + e then .error 2 else .ok (0, true, e)
  else if free < e then .error 2
  else .ok (r.tail, false, (r.tail + e) % r.size)

/-- A message appended to a ring of a core: marker, payload, header, TAIL, notice (R222, R223); HEAD is that of the start of the cycle (R228). A
wrap marker has KIND 2 and LEN 0; no rule fills its bits 63:32, which the model writes as 0 (log 65, DESIGN CHOICE). -/
def Panel.ringAppend (p : Panel) (lc n : Nat) (words : List W) (x y seq : Nat) : Panel × Nat :=
  let r := SMap.getD (p.core lc).rings n {}
  let len := 8 * words.length
  let base := (p.block r.btag).lmBase * 1024 + r.base * 8
  let put := fun (q : Panel) (r : Ring) => q.updCore lc fun c => { c with rings := SMap.set c.rings n r }
  match ringFit { r with head := r.headAtStart p.now } len with
  | .error s => (put p { r with drop := min (r.drop + 1) 0xFFFF }, s)
  | .ok (at_, wrap, tail) =>
    let p1 := if wrap then p.lmWrite lc (base + r.tail) 8 (2 * 2 ^ 16) else p
    let p2 := p1.lmWrite lc (base + at_ + 8) len (ofLanes 64 (words.map (·.toNat)))
    let p3 := p2.lmWrite lc (base + at_) 8 (seq % 2 ^ 16 * 2 ^ 48 + y * 2 ^ 40 + x * 2 ^ 32 + 2 ^ 16 + len)
    let p4 := put p3 { r with tail := tail }
    let note := w64 (seq % 2 ^ 16 * 2 ^ 48 + y * 2 ^ 40 + x * 2 ^ 32 + n * 2 ^ 30 + at_ / 8 * 2 ^ 16 + len)
    let es := p4.queue lc r.btag 4
    (if es.length < qDepth 4 then p4.setQueue lc r.btag 4 (es ++ [note])
      else p4.updBlk lc r.btag fun b => { b with lost4 := true }, 0)

/-- The outcome of a message at ring `n` of a core: 0 accepted, or the status of R321; and the panel after. -/
def Panel.ringMessage (p : Panel) (lc n : Nat) (words : List W) (core : Nat) (slevel : Bool) (stag seq : Nat) : Panel × Nat :=
  let r := SMap.getD (p.core lc).rings n {}
  if !r.en then (p, 3)
  else if r.btag ≠ stag ∧ !(p.block r.btag).pinned ∧ !slevel then (p, 4)
  else p.ringAppend lc n words (core % 256) (core / 256) seq

/-- Hops of the answer to a copy of a message (R481). -/
def Panel.answerHops (p : Panel) (id target : Nat) : Nat :=
  match p.acc id with
  | some a => p.trip target a.core 1
  | none => 0

/-- A copy of a message has been accepted or refused at its target; the last copy performs the send (R175, R319). -/
def Panel.copyDone (p : Panel) (id status target : Nat) : Panel :=
  let p1 := p.updAcc id fun a => { a with copies := a.copies - 1 }
  let p2 := match p1.acc id with
    | some a => if a.copies = 0 then p1.performed id else p1
    | none => p1
  p2.later (14 + 2 * p.answerHops id target) .messageResponse [id, status, target]

/-- A message for a block that is not resident on the core goes to the placement table (R460). -/
def Panel.divert (p : Panel) (lc tag : Nat) (k : Packet) : Panel :=
  let pi := (p.block tag).part
  (p.updPart pi fun q => { q with divert := q.divert ++ [(lc, k)] }).later 8 .messageDivert [pi]

/-- The number that a packet carries. -/
def seqOf (k : Packet) : Nat := k.seq.getD 0

/-- MESSAGE_ARRIVAL (R320, R460). -/
def execMessageArrival (s : State) : Res :=
  onPanel (fun p =>
    let lc := p.arg 0
    let p := p.incoming .messageArrival
    match p.headK lc with
    | some ⟨.msg ring words core slot slevel stag dtag quiet id ci, src, seq⟩ =>
      let k : Packet := ⟨.msg ring words core slot slevel stag dtag quiet id ci, src, seq⟩
      let q := p.pop lc
      if p.stale lc k then q.copyDone id 0 lc
      else if dtag ≠ 0 ∧ !p.residentAt dtag lc then q.divert lc dtag k
      else
        let r := (q.bankCharge lc stag (cdiv (8 * words.length + 8) 64)).ringMessage lc ring words core slevel stag (seqOf k)
        r.1.copyDone id r.2 lc
    | _ => p) s

/-- A handler seeded in a slot (R218); the start is an acquire at scope .C (R195). -/
def Panel.seedHandler (p : Panel) (lc slot : Nat) (words : List W) (core dtag : Nat) : Panel :=
  let b := p.block dtag
  let g := (List.range 16).map fun i => if i = 0 then 0 else if i ≤ 8 then (words[i]?).getD 0 else if i = 9 then w64 core else 0
  let c : Ctx :=
    { st := .ready, g := Vector.ofFn fun i => (g[i.val]?).getD 0, pc := words.headD 0, btag := dtag
      bx := cx lc - b.ox, by_ := cy lc - b.oy, ord := slot, since := p.now }
  ((p.setCtx lc slot c).rouse lc).inval lc 1 b

/-- The block that a waiting handler message is for. -/
def handlerTag (x : Pay) : Nat := match x with | .handler _ _ _ _ d _ _ => d | _ => 0

/-- The first waiting handler message whose block is not being taken starts when a slot is free (R218, R219, R227, R229). -/
def Panel.startHandler (p : Panel) (lc : Nat) : Panel :=
  match (p.core lc).hq.find? fun x => (p.block (handlerTag x)).st == .resident with
  | some (.handler words core hs stag dtag id ci) =>
    (match [12, 13].find? fun s => (p.ctx lc s).st == .empty with
    | none => p
    | some slot =>
      let t := (p.core lc).hq.erase (.handler words core hs stag dtag id ci)
      let q := ((p.updCore lc fun c => { c with hq := t }).seedHandler lc slot words core dtag).copyDone id 0 lc
      if t = [] then q else q.later 1 .handlerStart [lc])
  | _ => p

/-- HANDLER_MESSAGE_ARRIVAL: the handler queue holds 4; beyond it the message waits in its virtual channel (R219). -/
def execHandlerMessageArrival (s : State) : Res :=
  onPanel (fun p =>
    let lc := p.arg 0
    let p := p.incoming .handlerMessageArrival
    match p.headK lc with
    | some ⟨.handler words core slot stag dtag id ci, src, seq⟩ =>
      let k : Packet := ⟨.handler words core slot stag dtag id ci, src, seq⟩
      if p.stale lc k then (p.pop lc).copyDone id 0 lc
      else if !p.residentAt dtag lc then (p.pop lc).divert lc dtag k
      else if 4 ≤ (p.core lc).hq.length then p.later 1 .handlerStart [lc]
      else ((p.pop lc).updCore lc fun c => { c with hq := c.hq ++ [k.pay] }).startHandler lc
    | _ => p) s

/-- HANDLER_START: a waiting message starts in a freed slot; one that its virtual channel held comes up (R219). -/
def execHandlerStart (s : State) : Res :=
  onPanel (fun p =>
    let lc := p.arg 0
    (p.startHandler lc).stir lc) s

/-! ### Migration (R100-R104, R178) -/

/-- The pending access of a migrating thread performed at the banks of a core, as a local access (R101): its context after.
KIND is coded as in R100, with 6 for LDBT.S, whose sign R100's KIND 4 does not carry (log 16, DEDUCED). -/
def Panel.migAccess (p : Panel) (lc : Nat) (c : Ctx) (kind : Nat) (addr data : W) (width dest : Nat) : Ctx × Panel :=
  let w := width + 1
  let bits := 4 ≤ kind
  let va := if bits then addr.toNat / 8 else addr.toNat
  match meshPlace p c va 1 with
  | .lm _ off _ =>
    let it : Item := ⟨w, 8 * off + (if bits then addr.toNat % 8 else 0), 0, 64, kind == 1 || kind == 6⟩
    let q := p.bankCharge lc c.btag (distinctUnits 8 [(it.bit / 8, (it.bit % 8 + w + 7) / 8)])
    if kind = 3 ∨ kind = 5 then (c, q.writeItems lc [it] data.toNat)
    else if kind = 0 then (c, p)
    else (c.setG dest (w64 (readItems p.mem lc [it])), q)
  | .paged => (c, p)
  | .bad _ => (c, p)

/-- A context placed in a slot, ready to issue, or parked with its group (R103, R166). -/
def Panel.land (p : Panel) (lc slot : Nat) (c : Ctx) : Panel :=
  let hc := if awaySlot slot then c.homeCore else lc
  let held := p.groupParked hc c.btag
  (p.setCtx lc slot { c with
    st := if held then .parked else if p.now < c.gapUntil then .gap else .ready
    parkedAt := if held then p.now else c.parkedAt
    stall := .none, wake := .none, since := p.now }).rouse lc

/-- A migrating thread's home slot still awaits it: its block has not ended. -/
def Panel.awaits (p : Panel) (c : Ctx) : Bool :=
  let h := p.ctx c.homeCore c.homeSlot
  h.st == .away && h.btag == c.btag

/-- An arrival slot of a core that is free. -/
def freeArrival (p : Panel) (lc : Nat) : Option Nat := [14, 15].find? fun s => (p.ctx lc s).st == .empty

/-- MIGRATION_CONTEXT_ARRIVAL (R101). -/
def execMigrationContextArrival (s : State) : Res :=
  onPanel (fun p =>
    let lc := p.arg 0
    let p := p.incoming .migrationContextArrival
    match p.headK lc with
    | some ⟨.mig c kind addr data width dest from_ fromSlot, src, seq⟩ =>
      let q := p.pop lc
      if p.stale lc ⟨.mig c kind addr data width dest from_ fromSlot, src, seq⟩ ∨ ¬ p.awaits c then q
      else
        let r := q.migAccess lc c kind addr data width dest
        (match freeArrival p lc with
        | some slot => r.2.land lc slot r.1
        | none => r.2.send lc from_ (.bounce r.1 fromSlot))
    | _ => p) s

/-- A parked context resumes as its waits allow. -/
def unpark (now : Nat) (c : Ctx) : Ctx :=
  if c.st ≠ .parked then c
  else
    { c with
      parkedAt := 0
      since := now
      st := if c.wake ≠ .none then .blocked
        else match c.stall with
          | .none => .ready
          | .retry _ => .stall | .hold _ => .stall | .fuse _ _ _ => .stall | .barrier => .stall | .header => .stall
          | .tlbinv => .stall | .osier _ => .stall | .migrate => .stall | .ckpt => .stall | .fatal => .stall }

/-- A thread back at its home slot: masks and shape registers stayed there; after a store while away the home L1 is
invalidated; a trap that waits is taken with AWAY = 1; a wait goes on (R100, R104, R178, R452). -/
def Panel.comeHome (p : Panel) (lc : Nat) (c : Ctx) : Panel :=
  let slot := c.homeSlot
  let h := p.ctx lc slot
  let x : Ctx := { c with m := h.m, sh := h.sh, homeCore := 0, homeSlot := 0, stored := false, pend := [] }
  let p0 := if c.stored then p.dropData lc else p
  let p1 := if c.st = .blocked then p0.setCtx lc slot x
    else if c.st = .parked then
      if p.groupParked lc c.btag then p0.setCtx lc slot x else (p0.setCtx lc slot (unpark p.now x)).rouse lc
    else p0.land lc slot x
  match c.pend with
  | [] => p1
  | t :: ts => (pendHome p1 lc slot t).updCtx lc slot fun y => { y with pend := ts }

/-- MIGRATION_BOUNCE_ARRIVAL: the thread goes on in the slot it came from; where that arrival slot has been taken since, in the other one, or,
with both taken, at home (R101; log 36, DEDUCED). -/
def execMigrationBounceArrival (s : State) : Res :=
  onPanel (fun p =>
    let lc := p.arg 0
    let p := p.incoming .migrationBounceArrival
    match p.headK lc with
    | some ⟨.bounce c slot, src, seq⟩ =>
      let q := p.pop lc
      if p.stale lc ⟨.bounce c slot, src, seq⟩ ∨ ¬ p.awaits c then q
      else if slot < 12 then q.comeHome lc c
      else
        (match (if (p.ctx lc slot).st = .empty then some slot else freeArrival p lc) with
        | some k => (q.updCtx c.homeCore c.homeSlot fun h => { h with homeCore := lc }).land lc k c
        | none => q.send lc c.homeCore (.home c 0 0 0 0 0 slot))
    | _ => p) s

/-- HOME_RETURN_ARRIVAL: the thread executes at home the bundle that sent it there (R102). -/
def execHomeReturnArrival (s : State) : Res :=
  onPanel (fun p =>
    let lc := p.arg 0
    let p := p.incoming .homeReturnArrival
    match p.headK lc with
    | some ⟨.home c kind addr data width dest fromSlot, src, seq⟩ =>
      if p.stale lc ⟨.home c kind addr data width dest fromSlot, src, seq⟩ ∨ ¬ p.awaits c then p.pop lc else (p.pop lc).comeHome lc c
    | _ => p) s

/-- WAKE_MESSAGE: a remote BARWAIT returns (R310). -/
def execWakeMessage (s : State) : Res :=
  onPanel (fun p =>
    let lc := p.arg 0
    let p := p.incoming .wakeMessage
    match p.headK lc with
    | some ⟨.wake slot, _, _⟩ =>
      let q := p.pop lc
      let c := q.ctx lc slot
      (match c.wake with
      | .barrier t off _ _ => if c.st = .blocked ∨ c.st = .parked then q.barReturn lc slot (objStag (q.obj t off)) else q
      | .none => q | .stagger _ => q | .qpop .. => q | .qpeek .. => q | .ldsy .. => q | .ring _ => q | .waitc .. => q
      | .hlease .. => q | .yield => q | .parked => q | .remote => q)
    | _ => p) s

/-! ### Responses (R143, R263, R288, R321) -/

/-- The answer of an LDSY ends the wait of its thread: at that blocking point, or, of a handler, for the answer (R220, R224). -/
def Access.endsWait (a : Access) (c : Ctx) : Bool :=
  (a.kind == .ldsy || a.kind == .ldsyTake) &&
  ((handlerSlot a.slot && c.stall == .barrier) ||
    match c.wake with
    | .ldsy va _ _ => va == a.va
    | .none => false | .barrier .. => false | .stagger _ => false | .qpop .. => false | .qpeek .. => false | .ring _ => false
    | .waitc .. => false | .hlease .. => false | .yield => false | .parked => false | .remote => false)

/-- A thread at the blocking point of a remote word load, or stalled on a header, goes on; one that waits for a block's header waits for
that block alone (R336). -/
def Panel.wakeRemote (p : Panel) (a : Access) : Panel :=
  let c := p.ctx a.core a.slot
  if (p.accsOf a.core a.slot).any (·.kind == .fmtLoad) then p
  else if p.mine a ∧ ((c.st = .blocked ∧ c.wake = .remote) ∨ c.stall = .header ∨ a.endsWait c) then p.ready a.core a.slot
  else if p.mine a ∧ a.kind = .fmtLoad then p.osierDone a.core a.slot
  else p

/-- VLDB's block at the core: its page and then its header are checked before the destination is written (R60, R63, R336). -/
def Panel.finishFmt (p : Panel) (a : Access) : Panel :=
  let q := (p.uncount a).delAcc a.id
  if a.items = [] ∧ !bt a.attr 4 then q.accTrap a 0x09 (w64 a.va)
  else
    match headerBad (a.got % 256) with
    | some c => if c = 0x33 then q.accFatal a 0x33 else q.accTrap a c (w64 a.va)
    | none => (q.writeDest a).wakeRemote a

/-- A load or atomic returns: its destination, its counter, the acquire of an atomic (R179, R263). -/
def Panel.finishLoad (p : Panel) (a : Access) : Panel :=
  if a.kind = .fmtLoad then p.finishFmt a
  else
    let q := ((p.writeDest a).uncount a).delAcc a.id
    let q := if a.acq ∧ a.kind = .amo ∧ p.mine a then q.acquireAt a.core a.slot a.scope else q
    (q.wakeRemote a).tileAnswer a

/-- The answer of a barrier instruction performed elsewhere (R309, R310). -/
def Panel.finishBar (p : Panel) (a : Access) : Panel :=
  let q := ((p.writeDest a).uncount a).delAcc a.id
  if !p.mine a then q
  else if a.op = 2 then q.barReturn a.core a.slot (a.got != 0)
  else if (q.ctx a.core a.slot).stall = .barrier then q.ready a.core a.slot
  else q.osierDone a.core a.slot

/-- REMOTE_LOAD_RESPONSE (R288). -/
def execRemoteLoadResponse (s : State) : Res :=
  onPanel (fun p =>
    match p.acc (p.arg 0) with
    | some a => if a.stage ≠ .performed then p else if a.kind = .barrier then p.finishBar a else p.finishLoad a
    | none => p) s

/-- LOAD_RESPONSE (R263). -/
def execLoadResponse (s : State) : Res :=
  onPanel (fun p =>
    match p.acc (p.arg 0) with
    | some a => if a.stage ≠ .performed then p else p.finishLoad a
    | none => p) s

/-- STORE_ACKNOWLEDGEMENT (R263). -/
def execStoreAcknowledgement (s : State) : Res :=
  onPanel (fun p =>
    match p.acc (p.arg 0) with
    | some a =>
      if a.stage ≠ .performed then p
      else if a.kind = .barrier then p.finishBar a
      else ((p.uncount a).delAcc a.id).tileAnswer a
    | none => p) s

/-- A message's count falls in the record of a block that has become absent since it was sent (R461). -/
def Panel.uncountSaved (p : Panel) (a : Access) : Panel :=
  if (p.block a.btag).st = .absent then p.updSaved a.btag a.core a.slot fun c => { c with stc := c.stc - 1 } else p.uncount a

/-- MESSAGE_RESPONSE: every copy's answer; a refusal traps unless QUIET (R319, R321). Operands: access, status, target. -/
def execMessageResponse (s : State) : Res :=
  onPanel (fun p =>
    let status := p.arg 1
    let t := p.arg 2
    match p.acc (p.arg 0) with
    | some a =>
      let p1 := p.updAcc a.id fun a => { a with got := a.got + 1 }
      let p2 := if a.got + 1 = a.data then (p1.uncountSaved a).delAcc a.id else p1
      let tval := w64 (a.ring * 2 ^ 24 + cy t * 2 ^ 16 + cx t * 2 ^ 8 + status)
      if status = 0 ∨ a.quiet then p2
      else if (p.block a.btag).st = .absent then p2.updSaved a.btag a.core a.slot fun c => { c with pend := c.pend ++ [⟨0x11, tval, true, false⟩] }
      else if p.mine a then p2.trapThread a.core a.slot 0x11 tval
      else p2
    | none => p) s

/-- ERROR_RESPONSE: no register or line is written; a class F trap, or BARRIER_FAULT of a barrier instruction (R143, R199). A
hint is dropped (R290). -/
def execErrorResponse (s : State) : Res :=
  onPanel (fun p =>
    match p.acc (p.arg 0) with
    | some a =>
      if a.stage ≠ .error then p
      else
        let q := (p.uncount a).delAcc a.id
        if a.kind = .barrier then q.accTrap a 0x0B (w64 a.data1)
        else if a.err = 0x0C then q.accTrap a 0x0C a.pc
        else if a.aside ∧ a.kind ≠ .fetch then q
        else q.accFatal a a.err
    | none => p) s

/-- The stores that a line of a fill had not seen when it was read, applied to it (R109, R177): number, address, size, data. -/
def patchLine (vline : Nat) (d : Line) (ps : List (Nat × Nat × Nat × Nat)) : Line :=
  ps.foldl (fun d e => if e.2.1 / 64 = vline then lineWrite d (e.2.1 % 64) e.2.2.1 e.2.2.2 else d) d

/-- The lines of a fill placed in their L1 (R105, R106, R110). Bytes fetched from host or peer memory are not cached (R107): they are
kept for the one fetch that asked, at its slot and address, under attribute bit 5. -/
def Panel.fillL1 (p : Panel) (a : Access) : Panel :=
  let b := p.block a.btag
  a.lines.foldl (fun q e =>
    let t := (a.parts.find? fun x => x.line == e.1).getD ⟨0, 0, 0, 0, 0, false, 0⟩
    let vline := (a.va + t.pos) / 64
    let x : L1Line := ⟨vline, b.part, b.asid, e.1, t.attr, t.key, if bt t.attr 1 then patchLine vline e.2.2 a.patch else e.2.2, e.2.1⟩
    if a.fill = 1 then
      let fused := (q.cluster (clusterOf a.core)).fused
      q.updCore (l1Core q a.core (64 * vline)) fun c =>
        { c with l1d := l1Place c.l1d (l1Set fused) 6 q.evs x, l1Bad := c.l1Bad.filter (· != 2 * e.1) }
    else if a.fill = 2 then q.updCore a.core fun c =>
        { c with l1i := l1Place c.l1i (l1Set false) 4 q.evs x, l1Bad := c.l1Bad.filter (· != 2 * e.1 + 1) }
    else if a.fill = 4 then
      q.updCore a.core fun c =>
        { c with l1i := (c.l1i.filter fun l => !(bt l.attr 5 && l.key % 16 == a.slot)) ++ [{ x with attr := t.attr % 32 + 32, key := a.slot + 16 * a.va }] }
    else q) p

/-- L1_FILL_RESPONSE (R108). -/
def execL1FillResponse (s : State) : Res :=
  onPanel (fun p =>
    match p.acc (p.arg 0) with
    | some a => if a.stage ≠ .performed then p else (p.fillL1 a).finishLoad a
    | none => p) s

end Sys2Proof.Machine
end

