-- ==== Sys2Proof/Machine/Aes.lean ====
section
/-! DEFINITION. AES-XTS-256 of one line of HBM (R136): the cipher of FIPS 197 with keys of 256 bits under the tweaked mode of IEEE 1619. -/

namespace Sys2Proof.Machine

/-! ### Bytes of GF(2^8) -/

/-- A byte times x. -/
def gfX (a : Nat) : Nat := if a < 128 then 2 * a else (2 * a) ^^^ 0x11B

/-- The product of two bytes, over the lowest `n` bits of the second. -/
def gfMulN : Nat → Nat → Nat → Nat
  | 0, _, _ => 0
  | n + 1, a, b => (if b % 2 = 1 then a else 0) ^^^ gfMulN n (gfX a) (b / 2)

def gfMul (a b : Nat) : Nat := gfMulN 8 a b

/-- The product of the squares a^2, a^4, … of which there are `n`; the inverse of a byte is that of seven. -/
def gfSquares : Nat → Nat → Nat
  | 0, _ => 1
  | n + 1, a => gfMul (gfMul a a) (gfSquares n (gfMul a a))

def gfInv (a : Nat) : Nat := gfSquares 7 a

def rotl8 (a n : Nat) : Nat := a * 2 ^ n % 256 + a * 2 ^ n / 256

def aesSub (a : Nat) : Nat :=
  let b := gfInv a
  b ^^^ rotl8 b 1 ^^^ rotl8 b 2 ^^^ rotl8 b 3 ^^^ rotl8 b 4 ^^^ 0x63

def aesSubInv (a : Nat) : Nat := gfInv (rotl8 a 1 ^^^ rotl8 a 3 ^^^ rotl8 a 6 ^^^ 0x05)

/-! ### The cipher: a block is 16 bytes, column after column -/

def xorBytes (a b : List Nat) : List Nat := (a.zip b).map fun e => e.1 ^^^ e.2

def shiftRows (s : List Nat) : List Nat := (List.range 16).map fun i => s.getD (4 * ((i / 4 + i % 4) % 4) + i % 4) 0

def shiftRowsInv (s : List Nat) : List Nat := (List.range 16).map fun i => s.getD (4 * ((i / 4 + 4 - i % 4) % 4) + i % 4) 0

/-- Every column multiplied by a circulant matrix, given by its first row. -/
def mixBy (m s : List Nat) : List Nat :=
  (List.range 16).map fun i =>
    (List.range 4).foldl (fun x k => x ^^^ gfMul (s.getD (4 * (i / 4) + k) 0) (m.getD ((k + 4 - i % 4) % 4) 0)) 0

/-- The words of a key schedule, four bytes each, extended by `n`. -/
def keyWords : Nat → List (List Nat) → List (List Nat)
  | 0, ws => ws
  | n + 1, ws =>
    let i := ws.length
    let t := ws.getD (i - 1) []
    let rcon := (List.range (i / 8 - 1)).foldl (fun r _ => gfX r) 1
    let t := if i % 8 = 0 then xorBytes ((t.drop 1 ++ t.take 1).map aesSub) [rcon, 0, 0, 0] else if i % 8 = 4 then t.map aesSub else t
    keyWords n (ws ++ [xorBytes (ws.getD (i - 8) []) t])

/-- The 15 round keys of a key of 32 bytes. -/
def roundKeys (key : List Nat) : List (List Nat) :=
  let ws := keyWords 52 ((List.range 8).map fun i => (key.drop (4 * i)).take 4)
  (List.range 15).map fun r => ((ws.drop (4 * r)).take 4).flatten

def aesBlock (ks : List (List Nat)) (b : List Nat) : List Nat :=
  let s := ((ks.drop 1).take 13).foldl (fun s k => xorBytes (mixBy [2, 3, 1, 1] (shiftRows (s.map aesSub))) k) (xorBytes b (ks.getD 0 []))
  xorBytes (shiftRows (s.map aesSub)) (ks.getD 14 [])

def aesBlockInv (ks : List (List Nat)) (b : List Nat) : List Nat :=
  let rs := ks.reverse
  let s := ((rs.drop 1).take 13).foldl (fun s k => mixBy [14, 11, 13, 9] (xorBytes ((shiftRowsInv s).map aesSubInv) k)) (xorBytes b (rs.getD 0 []))
  xorBytes ((shiftRowsInv s).map aesSubInv) (rs.getD 14 [])

/-! ### The tweaked mode -/

/-- The `n` bytes of a number, lowest first, and back. -/
def leBytes (n v : Nat) : List Nat := (List.range n).map fun i => v / 256 ^ i % 256

def leNum : List Nat → Nat
  | [] => 0
  | b :: t => b + 256 * leNum t

/-- A tweak times x, its bytes lowest first. -/
def tweakX (t : Nat) : Nat := if t < 2 ^ 127 then 2 * t else (2 * t - 2 ^ 128) ^^^ 0x87

/-- The blocks of a data unit, each under its tweak. -/
def xtsBlocks (f : List Nat → List Nat) : List (List Nat) → Nat → List Nat
  | [], _ => []
  | b :: bs, t => xorBytes (f (xorBytes b (leBytes 16 t))) (leBytes 16 t) ++ xtsBlocks f bs (tweakX t)

/-- A data unit of 64 bytes: the first key ciphers its blocks, the second the tweak, which is the line's number (R136). -/
def xtsLine (f : List (List Nat) → List Nat → List Nat) (k1 k2 line : Nat) (d : Line) : Line :=
  let t := leNum (aesBlock (roundKeys (leBytes 32 k2)) (leBytes 16 line))
  let bs := (List.range 4).map fun i => leBytes 16 (d.toNat / 2 ^ (128 * i) % 2 ^ 128)
  BitVec.ofNat 512 (leNum (xtsBlocks (f (roundKeys (leBytes 32 k1))) bs t))

/-- AES-XTS-256 encryption and decryption of a line of HBM (R136). -/
def aesEnc (k1 k2 line : Nat) (d : Line) : Line := xtsLine aesBlock k1 k2 line d
def aesDec (k1 k2 line : Nat) (d : Line) : Line := xtsLine aesBlockInv k1 k2 line d

end Sys2Proof.Machine
end

