-- ==== Sys2Proof/Machine/Slices.lean ====
section
/-! DEFINITION. Events of the L2 slices, the HBM channels, host and peer accesses (R42-R44, R118-R145). -/

namespace Sys2Proof.Machine

/-! ### Slices (R122-R125, R145) -/

/-- SLICE_REQUEST: requests enter the queue, and the slice takes one that can be performed (R122). With a second operand s + 1 only the next
request of source s enters. -/
def execSliceRequest (s : State) : Res :=
  onPanel (fun p =>
    let sc := p.arg 0
    if (p.slice sc).tagBad then p.sliceLost sc
    else
      let q := p.updSlice sc fun s => s.fill p.now (p.arg 1) s.vc.length
      match (q.slice sc).pick q.stageLate with
      | none => q
      | some r => (q.takeReq sc r).slicePump sc) s

/-- A fill that has come waits while a source has an older request among the waiters of an earlier one, since none of its requests passes
another (R109, R122). -/
def fillWaits (ms : List Mshr) (line : Nat) : Bool :=
  match ms.find? fun m => m.line == line with
  | none => false
  | some m => (ms.takeWhile fun x => x.line != line).any fun x => x.waiters.any fun a => m.waiters.any fun b => a.core == b.core

/-- HBM_FILL_RETURN: a fetch has come back from its channel (R124, R137). -/
def execHbmFillReturn (s : State) : Res :=
  onPanel (fun p =>
    let sc := p.arg 0
    let line := p.arg 1
    if (p.slice sc).tagBad then p.sliceLost sc
    else
      match (p.slice sc).mshr.find? fun m => m.line == line with
      | none => p
      | some m => if fillWaits (p.slice sc).mshr line then p.later 1 .hbmFillReturn [sc, line] else ((p.finishFetch sc m).slicePump sc).flow) s

/-- L2_SCRUB: one access to a line (R140); uncorrectable tags are found (R145). -/
def execL2Scrub (s : State) : Res :=
  onPanel (fun p =>
    let sc := p.arg 0
    if (p.slice sc).tagBad then p.sliceLost sc else p.l2Check sc (p.arg 1)) s

/-! ### HBM (R131-R142) -/

/-- The partition whose range holds an HBM offset. -/
def partOfHbm (p : Panel) (o : Nat) : Option (Nat × Partition) := p.parts.find? fun (e : Nat × Partition) => inHbm e.2 o

/-- The channel and row of a line of HBM. Outside every partition no rule interleaves the channels: they follow one another (log 58, DESIGN
CHOICE). -/
def Panel.lineSpot (p : Panel) (line : Nat) : Nat × Nat :=
  match partOfHbm p (64 * line) with
  | some e => hbmSpot e.2 line
  | none => (line / 2 ^ 25, line % 65536)

/-- HBM_SCRUB: a line of a channel is read; errors found are corrected or leave the poison syndrome (R140, R142). -/
def execHbmScrub (s : State) : Res :=
  onPanel (fun p => if (p.lineSpot (p.arg 1)).1 = p.arg 0 then p.hbmFindAt (p.lineSpot (p.arg 1)) (p.arg 1) else p) s

/-- FRAME_INITIALISATION: every line of the frame dropped, written zero under the new key, with the new tag (R138). -/
def Panel.initFrame (p : Panel) (frame key : Nat) : Panel :=
  let here := fun (line : Nat) => line / 1024 == frame
  { p with
    slices := p.slices.map fun (e : Nat × Slice) =>
      (e.1, { e.2 with lines := e.2.lines.filter fun l => !here l.line, soft := e.2.soft.filter fun (x : Nat × Nat) => !here x.1 })
    mem := Memory.clear p.mem (frame * 65536) 65536
    hbm := { p.hbm with
      tags := if key = 0 then SMap.del p.hbm.tags frame else SMap.set p.hbm.tags frame key
      poison := p.hbm.poison.filter fun l => !here l
      soft := p.hbm.soft.filter fun (e : Nat × Nat) => !here e.1 } }

/-- A frame that a pinned page maps (R162). -/
def Panel.pinnedFrame (p : Panel) (frame : Nat) : Bool :=
  p.launches.any fun (e : Nat × Launch) => e.2.lease.any fun v =>
    match p.walk e.2.part e.2.asid v with
    | .ok t => t.pfn ≤ frame && frame < t.pfn + t.pages
    | .notPresent => false
    | .fatal _ => false

/-- A frame's initialisation waits for a lease, or for the Memory core's removals of old translations, which it made before (R138, R155, R162). -/
def Panel.frameHeld (p : Panel) (frame : Nat) : Bool :=
  p.pinnedFrame frame || p.parts.any fun (e : Nat × Partition) => e.2.tlbinvs.any fun t => t.1 == 2 ^ 16

/-- Initialisations that waited are made as soon as nothing holds their frames, in order (R162). -/
def Panel.initPump (p : Panel) : Panel :=
  p.hbm.initq.foldl (fun q e =>
    if q.frameHeld e.1 then q else { q with hbm := { q.hbm with initq := q.hbm.initq.erase e } }.initFrame e.1 e.2) p

/-- FRAME_INITIALISATION: it waits while a pinned page maps the frame (R138, R162), or while translations are being removed (R155). -/
def execFrameInitialisation (s : State) : Res :=
  onPanel (fun p =>
    let frame := p.arg 0
    let key := p.arg 1
    if ¬ (frame < hbmSize / 65536 ∧ key < 256) then p
    else if p.frameHeld frame ∨ p.hbm.initq.any (fun e => e.1 == frame) then { p with hbm := { p.hbm with initq := p.hbm.initq ++ [(frame, key)] } }
    else p.initFrame frame key) s

/-- A counter record as Umpire reads it (R141). -/
def ErrCnt.record (c : ErrCnt) : Nat := c.lastSet * 2 ^ 48 + c.uncorr * 2 ^ 32 + c.corr

/-- A write of a counter record: the fields' bits that are written 1 are cleared (R7, R141). -/
def ErrCnt.w1c (c : ErrCnt) (v : Nat) : ErrCnt :=
  { c with uncorr := c.uncorr &&& (0xFFFF - bf v 47 32), corr := c.corr &&& (0xFFFFFFFF - bf v 31 0) }

/-- The partition that owns a channel. -/
def partOfChan (p : Panel) (g : Nat) : Nat := ((p.parts.find? fun (e : Nat × Partition) => e.2.chans.contains g).map (·.1)).getD 16

/-- Umpire reads a counter record, 0 a slice's, 1 a channel's, 3 a core's count of corrected L1 lines, reports it and clears what it has read
(R113, R141, R513). When Umpire reads is not stated: the event says it (log 31, DESIGN CHOICE). -/
def Panel.readErrors (p : Panel) (kind n : Nat) : Panel :=
  match kind with
  | 0 =>
    let v := (p.slice n).cnt.record
    (p.updSlice n fun s => { s with cnt := s.cnt.w1c v }).report 2 0x8201 [partOf p n, 0, n, v]
  | 1 =>
    let c := SMap.getD p.hbm.cnts n {}
    ({ p with hbm := { p.hbm with cnts := SMap.set p.hbm.cnts n (c.w1c c.record) } }).report 2 0x8201 [partOfChan p n, 1, n, c.record]
  | _ =>
    let v := (p.core n).l1Corr % 2 ^ 32
    (p.updCore n fun c => { c with l1Corr := 0 }).report 2 0x8201 [partOf p n, 3, n, v]

/-- A soft error strikes: kinds 0 and 1 a word of a line of slice `a`, correctable or not; 2 and 3 its tags, registers or waiter lists (of set
`line`), corrected when read, or not; 4 and 5 a word of the HBM line `a`; 6 a line, by its physical number, of core `a`'s L1, of data
(word 0) or of instructions (R113, R140, R142, R145). -/
def Panel.softError (p : Panel) (kind a line word : Nat) : Panel :=
  match kind with
  | 0 => if (l2Find (p.slice a) line).isSome then p.updSlice a fun s => { s with soft := SMap.upd s.soft line 0 fun v => softAdd v (word % 8) 1 } else p
  | 1 => if (l2Find (p.slice a) line).isSome then p.updSlice a fun s => { s with soft := SMap.upd s.soft line 0 fun v => softAdd v (word % 8) 2 } else p
  | 2 => p.updSlice a fun s => { s with cnt := s.cnt.add 1 0 (line % 256) }
  | 3 => p.updSlice a fun s => { s with tagBad := true }
  | 4 => if a < hbmSize / 64 then { p with hbm := { p.hbm with soft := SMap.upd p.hbm.soft a 0 fun v => softAdd v (word % 8) 1 } } else p
  | 5 => if a < hbmSize / 64 then { p with hbm := { p.hbm with soft := SMap.upd p.hbm.soft a 0 fun v => softAdd v (word % 8) 2 } } else p
  | 6 =>
    if (if word = 0 then (p.core a).l1d else (p.core a).l1i).any fun l => l.pline == line then
      p.updCore a fun c => { c with l1Bad := (c.l1Bad.filter (· != 2 * line + min word 1)) ++ [2 * line + min word 1] }
    else p
  | _ => p

/-- SOFT_ERROR: kinds 0 to 6 an error, 7 Umpire's reading of a counter record, which waits while 64 reports are held (R141, R513). Operands: kind,
place, line or number, word. -/
def execSoftError (s : State) : Res :=
  onPanel (fun p =>
    if p.arg 0 = 7 then (if s.front.eps.any fun (e : Nat × Endpoint) => decide (64 ≤ e.2.held.length) then p else p.readErrors (p.arg 1) (p.arg 2))
    else p.softError (p.arg 0) (p.arg 1) (p.arg 2) (p.arg 3)) s

/-! ### Raw accesses (R139, R144) -/

/-- The bytes of a line as HBM stores them: ciphertext under a key slot other than 0 (R136). The memory keeps the plaintext (log 5, DESIGN
CHOICE). -/
def Panel.stored (p : Panel) (line : Nat) : Line :=
  let k := frameTag p.hbm (line / 1024)
  let d := hbmLine p.mem line
  if k = 0 then d
  else let s := SMap.getD p.keys k ⟨0, 0⟩; aesEnc s.key1 s.key2 line d

/-- Stored bytes of a line replaced: the memory keeps the plaintext that they decrypt to, and the check bits are anew (R139). -/
def Panel.putStored (p : Panel) (line : Nat) (d : Line) : Panel :=
  let k := frameTag p.hbm (line / 1024)
  let s := SMap.getD p.keys k ⟨0, 0⟩
  let x := if k = 0 then d else aesDec s.key1 s.key2 line d
  { p with mem := Memory.writeN p.mem (64 * line) 64 x.toNat, hbm := { p.hbm with soft := SMap.del p.hbm.soft line } }

/-- The home slice's copy of a line written back and invalidated before a raw access (R139), what waits at the slice performed first. -/
def Panel.flushLine (p : Panel) (line : Nat) : Panel :=
  match partOfHbm p (64 * line) with
  | some e =>
    let sc := homeSlice e.2 line
    if (p.slice sc).tagBad then p.sliceLost sc else (p.settled sc).dropLine sc line
  | none => p

/-- A raw read of one line: its stored bytes, poisoned (R139, R144). -/
def Panel.rawLine (p : Panel) (line : Nat) : Nat × Bool × Panel :=
  let q := p.flushLine line
  let q := q.hbmFindAt (q.lineSpot line) line
  if q.hbm.poison.contains line then (2 ^ 512 - 1, true, q) else ((q.stored line).toNat, false, q)

/-- Stored bytes of a line replaced by a raw write: those of a whole line take the poison syndrome away, others leave it (R139). -/
def Panel.rawPut (p : Panel) (line off n v : Nat) : Panel :=
  if n = 64 then
    let q := p.putStored line (lineWrite 0 off n v)
    { q with hbm := { q.hbm with poison := q.hbm.poison.filter (· != line) } }
  else
    let q := p.hbmFindAt (p.lineSpot line) line
    q.putStored line (lineWrite (q.stored line) off n v)

/-- A raw write of bytes of one line (R139). A watched line keeps its own rules (R421, R478). -/
def Panel.rawWrite (p : Panel) (line off n v : Nat) : Panel :=
  let q := p.flushLine line
  match partOfHbm q (64 * line) with
  | some e =>
    if (q.watched line).isSome ∨ (q.routeLine line).isSome then
      let sc := homeSlice e.2 line
      ((q.placeLine e.2 line 0).slicePut sc line off n v true).dropLine sc line
    else q.rawPut line off n v
  | none => q.rawPut line off n v

/-! ### Host and peer accesses (R42-R44) -/

/-- A host or peer access has failed: its response raises the class F cause. -/
def Panel.extFail (p : Panel) (id cause : Nat) : Panel :=
  ((p.performed id).updAcc id fun a => { a with stage := .error, err := cause }).later 10 .errorResponse [id]

/-- The access and the part that a number of a host or peer access names. -/
def extPart (p : Panel) (n : Nat) : Option (Access × Part) :=
  match p.acc (n / 2) with
  | some a => if a.stage = .out then ((a.parts[n % 2]?).filter fun x => !x.done && lineRegion x.line != 0).map fun x => (a, x) else none
  | none => none

/-- The physical address of a part. -/
def Part.pa (x : Part) : Nat := 64 * x.line + x.off

/-- A host or peer access that fails: a Relay channel's command or a staging copy stops, any other access traps its thread; a store of the front end
raises the fault where the scheduler takes its own (R42, R44, R161). -/
def Panel.extBad (p : Panel) (n cause : Nat) : Panel :=
  match extPart p n with
  | none =>
    match SMap.find p.extPuts n with
    | some x => { p with extPuts := SMap.del p.extPuts n }.raiseHalt x.1 (leadSite (p.part x.1)) 1 cause (w64 x.2)
    | none => p
  | some (a, _) =>
    if a.staging then ((p.performed a.id).delAcc a.id).stageFail (clusterOf a.core) a.ring cause
    else if 16 ≤ a.slot then
      let cl := clusterOf a.core
      ((p.performed a.id).delAcc a.id).relayFatal cl (a.slot - 16) cause a.va
    else p.extFail a.id cause

/-- HOST_REGION_ACCESS: a read or write at the endpoint's host base, below its limit (R42). -/
def execHostRegionAccess (s : State) : Res :=
  onPanel (fun p =>
    let n := p.arg 0
    match extPart p n with
    | none => p
    | some (a, x) =>
      if lineRegion x.line ≠ 2 then p
      else
        let ep := bf x.pa 47 47
        let o := bf x.pa 46 0
        if p.hostLimit.getD ep 0 < o + x.len then p.extBad n 0x35
        else
          let at_ := p.hostBase.getD ep 0 + o
          { p with outbox := p.outbox ++
              [if needOf a.kind = 2 then .pcieWrite ep n at_ x.len (a.data >>> (8 * x.pos) % 2 ^ (8 * x.len)) else .pcieRead ep n at_ x.len] }) s

/-- The answer to a host or peer access: a Relay channel's or a staging copy's goes on there, any other access is performed and answered with its last part (R42,
R44). -/
def Panel.extDone (p : Panel) (n data : Nat) : Panel :=
  match extPart p n with
  | none => { p with extPuts := SMap.del p.extPuts n }
  | some (a, x) =>
    let d := data % 2 ^ (8 * x.len)
    if a.staging then ((p.performed a.id).delAcc a.id).stageSend (clusterOf a.core) a.ring x.len d
    else if 16 ≤ a.slot then ((p.performed a.id).delAcc a.id).relayAnswer a d
    else
      let q := p.updAcc a.id fun a =>
        { a with
          got := putBits a.got (8 * (x.pos + x.len) - 1) (8 * x.pos) d
          lines := if a.fill = 4 then a.lines ++ [(x.line, 0, BitVec.ofNat 512 (d <<< (8 * x.off)))] else a.lines
          parts := (a.parts.take (n % 2)) ++ [{ x with done := true }] ++ a.parts.drop (n % 2 + 1) }
      match q.acc a.id with
      | none => q
      | some b => if b.parts.all (·.done) then respond (q.performed b.id) b else q

/-- HOST_COMPLETION (R42). -/
def execHostCompletion (s : State) : Res :=
  onPanel (fun p => if p.arg 1 = 1 then p.extDone (p.arg 0) (p.arg 2) else p.extBad (p.arg 0) 0x35) s

/-- PEER_RESPONSE (R44). -/
def execPeerResponse (s : State) : Res :=
  onPanel (fun p => if p.arg 1 = 1 then p.extDone (p.arg 0) (p.arg 2) else p.extBad (p.arg 0) 0x36) s

/-- A partition admits a peer request: a valid slot names the requesting panel and partition, and the bytes lie in its HBM (R44). -/
def peerOk (q : Partition) (panel part off n : Nat) : Bool :=
  (q.peers.any fun (e : Nat × W) => bt e.2.toNat 63 && bf e.2.toNat 57 39 == panel && bf e.2.toNat 61 58 == part) &&
  off + n ≤ hbmSize && inHbm q off && inHbm q (off + n - 1)

/-- A key that the front end or a peer request presents: the frame's own (log 17, DEDUCED). -/
def ownKey (p : Panel) (line : Nat) : Nat := frameTag p.hbm (line / 1024)

/-- Bytes of HBM read at their lines' home slices for a peer. -/
def Panel.peerRead (p : Panel) (q : Partition) : List Part → Except (Nat × Panel) (Nat × Panel)
  | [] => .ok (0, p)
  | x :: t =>
    match p.engineRead q x.line (ownKey p x.line) with
    | .error c => .error c
    | .ok (d, p1) =>
      match Panel.peerRead p1 q t with
      | .error c => .error c
      | .ok (v, p2) => .ok (putBits v (8 * (x.pos + x.len) - 1) (8 * x.pos) (bf d.toNat (8 * (x.off + x.len) - 1) (8 * x.off)), p2)

/-- Bytes written there; a write does not consume a poisoned line (R143). -/
def Panel.peerWrite (p : Panel) (q : Partition) (data : Nat) : List Part → Except (Nat × Panel) Panel
  | [] => .ok p
  | x :: t =>
    match p.engineWrite q x.line (ownKey p x.line) x.off x.len (data >>> (8 * x.pos) % 2 ^ (8 * x.len)) with
    | .error c => .error c
    | .ok p1 => Panel.peerWrite p1 q data t

/-- A peer request performed at the lines' home slices: its answer. An atomic's operation carries its rounding mode (R54). -/
def Panel.peerDo (p : Panel) (q : Partition) (off n op data : Nat) : Except (Nat × Panel) (Nat × Panel) :=
  let ps := piecesOf off n
  if op = 0 then p.peerRead q ps
  else if op = 1 then (p.peerWrite q data ps).map fun r => (0, r)
  else
    match p.peerRead q ps with
    | .error c => .error c
    | .ok (old, p1) =>
      let x := if op % 16 = 4 then data / 2 ^ 64 else data % 2 ^ 64
      match amoNew (op % 16 - 2) (n = 8) (op / 16) old x (data % 2 ^ 64) with
      | some v => (p1.peerWrite q v ps).map fun r => (old, r)
      | none => .ok (old, p1)

/-- PEER_REQUEST: checked and performed, or refused with a negative response (R44); a slice that is lost raises its own fault (R145). Operands: panel, RPART, HBM offset, op, data,
the requesting partition, bytes. -/
def execPeerRequest (s : State) : Res :=
  onPanel (fun p =>
    let q := p.part (p.arg 1)
    let n := p.arg 6
    let no := { p with outbox := p.outbox ++ [.peerAnswer (p.arg 0) false 0] }
    if n = 0 ∨ 64 < n ∨ !peerOk q (p.arg 0) (p.arg 5) (p.arg 2) n then no
    else
      match p.peerDo q (p.arg 2) n (p.arg 3) (p.arg 4) with
      | .ok (d, r) => { r with outbox := r.outbox ++ [.peerAnswer (p.arg 0) true d] }
      | .error e => { e.2 with outbox := e.2.outbox ++ [.peerAnswer (p.arg 0) false 0] }) s

end Sys2Proof.Machine
end

