-- ==== Sys2Proof/Machine/Translate.lean ====
section
/-! DEFINITION. Page walks of the cluster TLBs, page resolution and replay, TLBINV completion, page-table changes
(R146-R173). -/

namespace Sys2Proof.Machine

/-! ### Walks (R151, R152, R154) -/

/-- A translation placed in the TLB: 8 ways a set for 64 KiB pages, 32 entries for 512 MiB pages (R151). -/
def tlbPlace (c : Cluster) (seed : Nat) (t : Tlb) : Cluster :=
  let same := fun (x : Tlb) => if t.pages = 1 then x.pages == 1 && x.vpn % 256 == t.vpn % 256 else x.pages != 1
  { c with tlb := placeIn c.tlb same (if t.pages = 1 then 8 else 32) seed t }

/-- The outcome of a walk for one joined request that gets no translation. -/
def Panel.walkFail (p : Panel) (r : WalkR) (vpn id : Nat) : Panel :=
  match p.acc id, r with
  | some a, .notPresent => if a.stage = .tlb then p.park a 1 vpn else p
  | some a, .fatal c => if a.stage = .tlb then (if a.aside && a.kind != .fetch then p.discard a else (p.discard a).accFatal a c) else p
  | _, _ => p

/-- A translation to a peer slot that fails its check when the TLB forms it (R43, R44): those that waited for it take it, and trap; the TLB keeps
none. -/
def Panel.badSlot (p : Panel) (t : Tlb) : Bool := region (t.pfn * 65536) == 3 && !p.slotOk (p.part t.part) (t.pfn * 65536)

/-- TLB_WALK_COMPLETE: the walk's outcome is placed, every joined request takes it, and so does an engine that waits for it; a waiting page
takes the walker, and requests that waited are tried again, those of engines when they ask again (R154). -/
def execTlbWalkComplete (s : State) : Res :=
  onPanel (fun p =>
    let cl := p.arg 0
    match (p.cluster cl).walks.find? fun w => w.num == p.arg 1 with
    | none => p
    | some w =>
      match w.res with
      | none => p
      | some r =>
        let p1 := p.updCluster cl fun c =>
          let c1 := { c with walks := c.walks.filter fun x => x.num != w.num, tlbq := [] }
          let out := if w.engs = [] then c1 else { c1 with wout := c1.wout ++ [(w.part, w.asid, w.vpn, r)] }
          match r with
          | .ok t => tlbPlace (if p.badSlot t then out else c1) p.evs t
          | .notPresent => out
          | .fatal _ => out
        let p2 := w.joined.foldl (fun q id => match r with
          | .ok _ => q.tlbTry id
          | .notPresent => q.walkFail r w.vpn id
          | .fatal _ => q.walkFail r w.vpn id) p1
        let p3 := match r with
          | .ok t => if p.badSlot t then p2.updCluster cl fun c => { c with tlb := c.tlb.filter (· != t) } else p2
          | .notPresent => p2
          | .fatal _ => p2
        (p3.walkers cl 4).tlbPump (clusterCore cl 0)) s

/-! ### Page-table changes by the Memory core (R147, R158, R162) -/

/-- A page that a lease pins. -/
def Panel.pinnedPage (p : Panel) (part asid page : Nat) : Bool :=
  p.launches.any fun (e : Nat × Launch) => e.2.part == part && e.2.asid == asid && e.2.lease.contains page

/-- The Memory core's writes: pairs of an HBM offset and an 8-byte value, stored at the home slice under the plain key; an
offset of 2^52 + n names entry n of the address-space table (R147, R149). -/
def Panel.memWrites (p : Panel) (part : Nat) : List Nat → Panel
  | a :: v :: t =>
    let p1 := if 2 ^ 52 ≤ a then
        p.updPart part fun q =>
          { q with asids := if bt v 63 then SMap.set q.asids (a - 2 ^ 52) (bf v 51 16) else SMap.del q.asids (a - 2 ^ 52) }
      else p.ownWrite (p.part part) (a / 64) (a % 64) 8 v
    Panel.memWrites p1 part t
  | _ => p

/-- A leaf changed and its old translation removed everywhere; the removal completes once the accesses made under it have (R111, R155). -/
def Panel.changePage (p : Panel) (part asid page : Nat) (ws : List Nat) : Panel :=
  (((p.memWrites part ws).tlbDrop part asid page 1).updPart part fun q =>
    { q with tlbinvs := q.tlbinvs ++ [(2 ^ 16, part, asid, page, 1, p.nid)] }).later 64 .tlbinvCompletion [2 ^ 16, part]

/-- A change that a lease holds off: the page is pinned, or the writes would change the translation of a pinned page, as those of the leaf of a
512 MiB page do (R162). -/
def Panel.pinHolds (p : Panel) (part asid page : Nat) (ws : List Nat) : Bool :=
  p.pinnedPage part asid page ||
    (ws != [] &&
      let q := p.memWrites part ws
      p.launches.any fun (e : Nat × Launch) => e.2.part == part && e.2.lease.any fun v => p.walk part e.2.asid v != q.walk part e.2.asid v)

/-- A change that waits for a lease (R162). -/
def Panel.deferChange (p : Panel) (part asid page : Nat) (ws : List Nat) : Panel :=
  p.updPart part fun q => { q with deferred := q.deferred ++ [(asid, page, ws)] }

/-- PAGE_TABLE_CHANGE: performed, or deferred while a lease pins the page (R162). Operands: partition, address space, page, writes. -/
def execPageTableChange (s : State) : Res :=
  onPanel (fun p =>
    let ws := p.ev.drop 3
    if p.pinHolds (p.arg 0) (p.arg 1) (p.arg 2) ws then p.deferChange (p.arg 0) (p.arg 1) (p.arg 2) ws
    else p.changePage (p.arg 0) (p.arg 1) (p.arg 2) ws) s

/-- Changes that waited for leases made, in order, as far as no lease holds them any more (R162, R163). -/
def Panel.deferredPump (p : Panel) (part : Nat) : Panel :=
  (p.part part).deferred.foldl (fun q d =>
    if q.pinHolds part d.1 d.2.1 d.2.2 then q
    else (q.updPart part fun x => { x with deferred := x.deferred.erase d }).changePage part d.1 d.2.1 d.2.2) p

/-- A launch's lease released: changes and frame initialisations that waited for it are made (R162, R163). -/
def Panel.releaseLease (p : Panel) (l : Nat) : Panel :=
  (((p.updLaunch l fun x => { x with lease := [] }).deferredPump (p.launch l).part)).initPump

/-! ### Resolution and replay (R158, R170, R171) -/

/-- The first faulting entry of a thread in a record; a thread is known by the slot that it runs in. -/
def firstFault (es : List Access) (core slot : Nat) : Option Access := es.find? fun a => a.core == core && a.slot == slot && a.fault != 0

/-- The group's threads resume from the bundles at which they stopped (R170). -/
def Panel.unparkGroup (p : Panel) (lc tag : Nat) : Panel :=
  (groupPlaces p lc tag).foldl (fun q s => (q.updCtx s.1 s.2 (unpark p.now)).rouse s.1) p

/-- A record is replayed: its next entry is reissued once the one before it has left the core, since a fault of that one parks the entries after
it, too; a store follows the open stores of other threads to its bytes, as when it was issued (R168); after the last one the threads resume (R170,
R171). -/
def Panel.replayOn (p : Panel) (lc tag : Nat) : Nat → Panel
  | 0 => p
  | k + 1 =>
    let rest := fun (q : Panel) (t : List Nat) => q.updCore lc fun c => { c with replays := SMap.set c.replays tag t }
    match SMap.find (p.core lc).replays tag with
    | none => p
    | some [] => (p.updCore lc fun c => { c with replays := SMap.del c.replays tag }).unparkGroup lc tag
    | some (id :: t) =>
      match p.acc id with
      | none => (rest p t).replayOn lc tag k
      | some a =>
        if a.stage = .parked then
          let more := if a.kind = .store ∨ a.kind = .vstore then (p.otherStores a.core a.slot a.btag a.va a.size).filter (· != id) else []
          let q := p.updAcc id fun a => { a with stage := .held, fault := 0, verdict := 0, after := a.after ++ more.filter fun i => !a.after.contains i }
          if t = [] then (((rest q []).dispatch id)).replayOn lc tag k else (q.dispatch id).replayOn lc tag k
        else if a.stage.inCore then p
        else (rest p t).replayOn lc tag k

/-- Every replay goes on as far as it can. -/
def Panel.replayPump (p : Panel) : Panel :=
  p.cores.foldl (fun q (e : Nat × Core) => e.2.replays.foldl (fun r x => r.replayOn e.1 x.1 (2 * x.2.length + 2)) q) p

/-- The core acts on a group's record once every faulting page in it is decided: threads whose first fault is refused take
PAGE_FAULT and lose their entries, the others' entries are replayed in order, and the group's threads resume (R158, R170). A
block that is being taken replays after re-admission (R172). -/
def Panel.actRecord (p : Panel) (lc tag : Nat) : Panel :=
  let es := p.recordOf lc tag
  if es = [] ∨ (es.any fun a => a.fault != 0 && a.verdict == 0) ∨ (p.block tag).st ≠ .resident then p
  else
    let refused := es.filter fun a => (match firstFault es a.core a.slot with | some f => f.verdict == 3 | none => false)
    let firsts := refused.filter fun a => firstFault refused a.core a.slot == some a
    let again := (es.filter fun a => !refused.contains a).map (·.id)
    let ids := es.map (·.id)
    let p1 := p.updCore lc fun c => { c with parked := c.parked.filter fun i => !ids.contains i, replays := SMap.set c.replays tag again }
    let p2 := refused.foldl (fun q a => q.discard a) p1
    let p3 := firsts.foldl (fun q a =>
      (q.updCtx a.core a.slot fun c => { c with pc := a.pc, stall := .none, wake := .none }).trapThread a.core a.slot 0x12 (w64 a.va)) p2
    (p3.writeRecord lc).replayOn lc tag (2 * again.length + 2)

/-- Every record of a partition that is now decided. -/
def Panel.actRecords (p : Panel) : Panel :=
  let todo := p.cores.flatMap fun (e : Nat × Core) =>
    (((e.2.parked.filterMap p.acc).map (·.btag)).eraseDups).map fun t => (e.1, t)
  todo.foldl (fun q e => q.actRecord e.1 e.2) p

/-- A parked access's page is decided: 3 refused, 4 mapped. -/
def decide_ (p : Panel) (part asid page v : Nat) (a : Access) : Access :=
  let b := p.block a.btag
  if a.stage = .parked ∧ a.fault ≠ 0 ∧ a.verdict = 0 ∧ b.part = part ∧ b.asid = asid ∧ a.fpage = page then { a with verdict := v } else a

/-- A command's block uses the address space. -/
def Panel.usesAs (p : Panel) (tag part asid : Nat) : Bool := (p.block tag).part == part && (p.block tag).asid == asid

/-- Bulk commands of a core that wait for a page go on, or end with status 1 when it is refused (R158, R386). -/
def bulkDecide (p : Panel) (part asid page : Nat) (refuse : Bool) (x : Bulk) : Bulk :=
  if x.parked && p.usesAs x.btag part asid && (x.va + 64 * x.next) / 65536 == page then
    (if refuse then (if x.dests == [] then x.end_ 1 else { x with parked := false, status := 1 }) else { x with parked := false })
  else x

/-- Engine commands of a core that wait for the page. -/
def Panel.coreEngines (p : Panel) (part asid page : Nat) (refuse : Bool) (lc : Nat) : Panel :=
  let c := p.core lc
  let f := bulkDecide p part asid page refuse
  let hit := fun (xs : List Bulk) => xs.any fun x => f x != x
  let w := c.walk
  let wHit := w.busy && w.parked && p.usesAs w.btag part asid && w.fva / 65536 == page
  let p1 := p.updCore lc fun c =>
    { c with
      pf := c.pf.map f, drop := c.drop.map f, mcrd := c.mcrd.map f
      walk := if wHit then { w with parked := false, status := if refuse then 1 else w.status } else c.walk }
  let p2 := if hit c.pf then p1.later 1 (if refuse then .l2pfComplete else .l2pfLineRequest) [lc] else p1
  let p3 := if hit c.drop then p2.later 1 (if refuse then .l2dropComplete else .l2dropLineRequest) [lc] else p2
  let p4 := if hit c.mcrd then p3.later 1 (if refuse then .mcrdComplete else .mcrdLineRequest) [lc] else p3
  if wHit then p4.walkNext lc else p4

/-- Engine commands of a cluster that wait for the page: Relay channels and the Hoop array (R157, R381). -/
def Panel.clusterEngines (p : Panel) (part asid page : Nat) (refuse : Bool) (cl : Nat) : Panel :=
  let c := p.cluster cl
  let chs := c.relay.filter fun (e : Nat × Chan) => e.2.busy && e.2.parked && p.usesAs e.2.btag part asid && e.2.fva / 65536 == page
  let p1 := chs.foldl (fun q e =>
    if refuse then q.relayStop cl e.1 1 else (q.updChan cl e.1 fun x => { x with parked := false }).relayNext cl e.1) p
  match c.hoop.cmds with
  | x :: _ =>
    if c.hoop.parked && p.usesAs x.btag part asid && c.hoop.fva / 65536 == page then
      if refuse then p1.hoopDone cl (x.note 1 0xFF)
      else (p1.updCluster cl fun c => { c with hoop := { c.hoop with parked := false } }).later 1 .hoopCommandComplete [cl]
    else p1
  | [] => p1

/-- The Memory core maps or refuses a faulting page for the threads and engines that wait for it (R158). -/
def Panel.resolvePage (p : Panel) (pi asid page : Nat) (refuse : Bool) (writes : List Nat) : Panel :=
  let p1 := p.updPart pi fun q => { q with faults := q.faults.filter (· != (asid, page)) }
  let p2 := if refuse then p1 else p1.changePage pi asid page writes
  let p3 := { p2 with accs := p2.accs.map fun (e : Nat × Access) => (e.1, decide_ p2 pi asid page (if refuse then 3 else 4) e.2) }
  let p4 := p3.actRecords
  let p5 := (p4.cores.map (·.1)).foldl (fun q lc => q.coreEngines pi asid page refuse lc) p4
  (p5.clusters.map (·.1)).foldl (fun q cl => q.clusterEngines pi asid page refuse cl) p5

/-! ### TLBINV (R155) -/

/-- A bulk command's lines of a range that have been asked for and not answered. -/
def Panel.bulkUnder (p : Panel) (part asid v n nid : Nat) (x : Bulk) : Bool :=
  x.back < x.next && x.num < nid && p.usesAs x.btag part asid && inInv v n (x.va / 65536) ((x.va % 65536 + 64 * x.next) / 65536 + 1)

/-- Lines of a range that an engine's command before number `nid` has asked for, and that have not been read. -/
def rdsUnder (v n nid : Nat) (rs : List Rd) : Bool := rs.any fun r => r.data.isNone && decide (r.num < nid) && inInv v n (r.vline / 1024) 1

/-- A Relay channel, a walker or an array reads or writes a line of a range (R523). -/
def Panel.engUnder (p : Panel) (part asid v n nid : Nat) : Bool :=
  (p.clusters.any fun (e : Nat × Cluster) =>
    (e.2.relay.any fun (k : Nat × Chan) => k.2.busy && p.usesAs k.2.btag part asid &&
      (rdsUnder v n nid k.2.rds || (k.2.busyLine && decide (k.2.num < nid) && inInv v n ((k.2.dst + k.2.done) / 65536) 1))) ||
    e.2.hoop.cmds.any fun x => p.usesAs x.btag part asid && rdsUnder v n nid x.rds) ||
  p.cores.any fun (e : Nat × Core) =>
    let w := e.2.walk
    w.busy && p.usesAs w.btag part asid &&
      (rdsUnder v n nid w.rds || (w.busyLine && decide (w.num < nid) && inInv v n ((tileLines w.shape w.tile).getD w.pos 0 / 1024) 1))

/-- Accesses translated under a range by those before number `nid` have not finished: those of threads and Relay channels, the lines of engines, and
the lines that bulk, multicast and staging commands have asked for (R155). -/
def Panel.underWay (p : Panel) (part asid v n nid : Nat) : Bool :=
  ((p.accs.map (·.2)).any fun a =>
    (a.stage == .out || a.stage == .performed || a.stage == .error) && a.parts != [] && a.id < nid && p.usesAs a.btag part asid &&
      (pagesOf a).any fun g => inInv v n g 1) ||
  p.engUnder part asid v n nid || (p.cores.any fun (e : Nat × Core) => (e.2.pf ++ e.2.drop ++ e.2.mcrd).any fun x => p.bulkUnder part asid v n nid x) ||
  p.clusters.any fun (e : Nat × Cluster) => e.2.stage.any fun (x : Stage) =>
    x.asked && x.num < nid && (p.launch x.launch).part == part && (p.launch x.launch).asid == asid && inInv v n ((x.va + x.done) / 65536) 1

/-- TLBINV_COMPLETION: accesses already translated have finished and the lines filled under them are gone (R155). A first operand of 2^16 is the
Memory core's own removal, in the partition that the second names. -/
def execTlbinvCompletion (s : State) : Res :=
  onPanel (fun p =>
    let lc := p.arg 0
    let slot := p.arg 1
    let pi := if lc = 2 ^ 16 then slot else partOf p lc
    match (p.part pi).tlbinvs.find? fun t => t.1 == lc && t.2.1 == slot with
    | none => p
    | some t =>
      if p.underWay pi t.2.2.1 t.2.2.2.1 t.2.2.2.2.1 t.2.2.2.2.2 then p.later 1 .tlbinvCompletion [lc, slot]
      else
        let p1 := (p.tlbDrop pi t.2.2.1 t.2.2.2.1 t.2.2.2.2.1).updPart pi fun q => { q with tlbinvs := q.tlbinvs.erase t }
        if lc = 2 ^ 16 then p1.initPump
        else if (p1.ctx lc slot).stall = .tlbinv then p1.ready lc slot else p1) s

end Sys2Proof.Machine
end

