-- ==== Sys2Proof/Machine/Parse.lean ====
section
/-! DEFINITION. Parse: a queue's ring and buffers, the fetch-ahead buffer, packets and their waits (R418-R431, R446-R448). -/

namespace Sys2Proof.Machine

/-! ### Reads and writes of the front end (R424, R430, R523) -/

/-- What a front-end access finds: a value, a page that the Memory core must decide, a refusal, or a class F cause with the panel that has met it. -/
inductive FrontR where
  | ok (v : Nat) (p : Panel)
  | fault (page : Nat)
  | refuse
  | fatal (cause va : Nat) (p : Panel)
  deriving DecidableEq, Repr

/-- One level of a walk of the partition scheduler's walker: an 8-byte load of an entry at its home slice (R149, R161). -/
def Panel.loadEntry (p : Panel) (q : Partition) (table i : Nat) : Except (Nat × Panel) (Nat × Panel) :=
  let pa := table * 65536 + 8 * i
  match p.engineRead q (pa / 64) 0 with
  | .error c => .error c
  | .ok (d, r) => .ok (bf d.toNat (8 * (pa % 64) + 63) (8 * (pa % 64)), r)

/-- A walk of the partition scheduler's own walker, which fills no TLB and keeps no walk cache (R161): its outcome, and the panel after its
loads. That it runs four walks at a time is a matter of their time (log 32, DESIGN CHOICE). -/
def Panel.frontWalk (p : Panel) (part asid vpn : Nat) : WalkR × Panel :=
  let q := p.part part
  match SMap.find q.asids asid with
  | none => (.notPresent, p)
  | some root =>
    if !tableOk q root then (.fatal 0x32, p)
    else
      match p.loadEntry q root (vpn / 2 ^ 26 % 8192) with
      | .error c => (.fatal c.1, c.2)
      | .ok (e1, p1) =>
        if !bt e1 0 then (.notPresent, p1)
        else if malformed q 1 e1 then (.fatal 0x32, p1)
        else
          match p1.loadEntry q (bf e1 51 16) (vpn / 2 ^ 13 % 8192) with
          | .error c => (.fatal c.1, c.2)
          | .ok (e2, p2) =>
            if !bt e2 0 then (.notPresent, p2)
            else if malformed q 2 e2 then (.fatal 0x32, p2)
            else if bt e2 1 then (leafCheck q part asid (vpn / 8192 * 8192) 8192 e2, p2)
            else
              match p2.loadEntry q (bf e2 51 16) (vpn % 8192) with
              | .error c => (.fatal c.1, c.2)
              | .ok (e3, p3) =>
                if !bt e3 0 then (.notPresent, p3)
                else if malformed q 3 e3 then (.fatal 0x32, p3)
                else (leafCheck q part asid vpn 1 e3, p3)

/-- A partition scheduler's translation (R161). The leaf must carry RD or W as needed; a leaf closed to level U is a fault for the
Memory core. -/
def Panel.frontXlate (p : Panel) (pi asid va need : Nat) (level : Bool) : Xlate × Panel :=
  match p.frontWalk pi asid (va / 65536) with
  | (.ok t, q) => (if permitted t.attr need true then (if permitted t.attr need level then .ok t else .fault 2) else .fault 3, q)
  | (.notPresent, q) => (.fault 1, q)
  | (.fatal c, q) => (.fatal c, q)

/-- The bytes of a virtual line of host or peer memory that the environment answers with: three operands of the event, 2^60, the
line and the bytes, or 2^512 for a completion that has failed (log 18, DESIGN CHOICE). -/
def extData : List Nat → Nat → Option Nat
  | m :: a :: d :: t, line => if m = 2 ^ 60 ∧ a = line then some d else extData (a :: d :: t) line
  | _, _ => none

/-- A line of host or peer memory as the front end reads it: what the event carries, else eight free words (log 18, DESIGN CHOICE). -/
def Panel.extLine (p : Panel) (line : Nat) : Nat × Panel :=
  match extData p.ev line with
  | some d => (d, p)
  | none => (List.range 8).foldl (fun r _ => let x := r.2.fresh; (r.1 * 2 ^ 64 + x.1.toNat, x.2)) (0, p)

/-- Pieces of a front-end read, each at its home slice; ring and buffer pages must carry the queue's key (R429). -/
def frontPieces (pi asid : Nat) (level : Bool) (key : Option Nat) : List Part → Nat → Panel → FrontR
  | [], v, p => .ok v p
  | x :: t, v, p =>
    let va := 64 * x.line + x.off
    if regionOf va ≠ .paged then .refuse
    else
      match p.frontXlate pi asid va 1 level with
      | (.wait, _) => .refuse
      | (.fault 3, _) => .refuse
      | (.fault _, _) => .fault (va / 65536)
      | (.fatal c, r) => .fatal c va r
      | (.ok e, p) =>
        if (match key with | some k => e.key != k | none => false) then .refuse
        else
          let pa := e.pfn * 65536 + (va - e.vpn * 65536)
          let put := fun (d : Nat) => putBits v (8 * (x.pos + x.len) - 1) (8 * x.pos) (bf d (8 * (x.off + x.len) - 1) (8 * x.off))
          if region pa = 2 ∧ p.hostLimit.getD (bf pa 47 47) 0 < bf pa 46 0 + x.len then .fatal 0x35 va p
          else if region pa = 3 ∧ (p.peerWord (p.part pi) pa x.len false).isNone then .refuse
          else if region pa ≠ 0 then
            let r := p.extLine x.line
            if 2 ^ 512 ≤ r.1 then .fatal (if region pa = 2 then 0x35 else 0x36) va r.2 else frontPieces pi asid level key t (put r.1) r.2
          else
            match p.engineRead (p.part pi) (pa / 64) e.key with
            | .error c => .fatal c.1 va c.2
            | .ok (d, q) => frontPieces pi asid level key t (put d.toNat) q

def Panel.frontRead (p : Panel) (pi asid : Nat) (level : Bool) (key : Option Nat) (va n : Nat) : FrontR :=
  frontPieces pi asid level key (splitLines id (fun _ => 0) (n + 1) va 0 n) 0 p

/-- A store of the front end to host or peer memory leaves from its home slice under a number of its own, behind what waits there; until it is answered
the panel keeps its partition and address (R42, R44). -/
def Panel.extPut (p : Panel) (pi pa va : Nat) : Nat × Panel :=
  let q := p.settled (homeSlice (p.part pi) (pa / 64))
  (2 * q.nid, { q with nid := q.nid + 1, extPuts := SMap.set q.extPuts (2 * q.nid) (pi, va) })

/-- Pieces of a front-end write. -/
def frontPuts (pi asid : Nat) (level : Bool) (v : Nat) : List Part → Panel → FrontR
  | [], p => .ok 0 p
  | x :: t, p =>
    let va := 64 * x.line + x.off
    if regionOf va ≠ .paged then .refuse
    else
      match p.frontXlate pi asid va 2 level with
      | (.wait, _) => .refuse
      | (.fault 3, _) => .refuse
      | (.fault _, _) => .fault (va / 65536)
      | (.fatal c, r) => .fatal c va r
      | (.ok e, p) =>
        let pa := e.pfn * 65536 + (va - e.vpn * 65536)
        let d := bf v (8 * (x.pos + x.len) - 1) (8 * x.pos)
        if region pa = 2 then
          let ep := bf pa 47 47
          if p.hostLimit.getD ep 0 < bf pa 46 0 + x.len then .fatal 0x35 va p
          else
            let r := p.extPut pi pa va
            frontPuts pi asid level v t { r.2 with outbox := r.2.outbox ++ [.pcieWrite ep r.1 (p.hostBase.getD ep 0 + bf pa 46 0) x.len d] }
        else if region pa = 3 then
          let r := p.extPut pi pa va
          frontPuts pi asid level v t (r.2.peerOut r.1 pi (bf pa 47 36) (SMap.getD (p.part pi).peers (bf pa 47 36) 0).toNat (bf pa 35 0) x.len 1 d)
        else
          match p.engineWrite (p.part pi) (pa / 64) e.key x.off x.len d level with
          | .error c => .fatal c.1 va c.2
          | .ok q => frontPuts pi asid level v t q

/-- A front-end write of `n` bytes: no byte moves unless every page permits it. -/
def Panel.frontWrite (p : Panel) (pi asid : Nat) (level : Bool) (va n v : Nat) : FrontR :=
  let ps := splitLines id (fun _ => 0) (n + 1) va 0 n
  let bad := ps.findSome? fun x =>
    let a := 64 * x.line + x.off
    if regionOf a ≠ .paged then some FrontR.refuse
    else match (p.frontXlate pi asid a 2 level).1 with
      | .ok t => if region (t.phys a) = 3 ∧ (p.peerWord (p.part pi) (t.phys a) x.len true).isNone then some .refuse else none
      | .wait => some .refuse
      | .fault 3 => some .refuse
      | .fault _ => some (.fault (a / 65536))
      | .fatal c => some (.fatal c a p)
  match bad with
  | some r => r
  | none => frontPuts pi asid level v ps p

/-- A page put before the Memory core (R158). -/
def Panel.askPage (p : Panel) (pi asid page : Nat) : Panel :=
  p.updPart pi fun q => { q with faults := if q.faults.contains (asid, page) then q.faults else q.faults ++ [(asid, page)] }

/-- A class F fault of the scheduler: the halt line, triggered at the lead chiplet's south-west site (R161, R454). -/
def Panel.schedFatal (p : Panel) (pi cause va : Nat) : Panel := p.raiseHalt pi (leadSite (p.part pi)) 1 cause (w64 va)

/-! ### The parse point (R423, R425, R426) -/

def Queue.cur (q : Queue) : Level := q.levels.headD q.ring
def Queue.depth (q : Queue) : Nat := q.levels.length - 1

/-- Bytes from the parse point to the end of what may be parsed at its level: up to TAIL in the ring (R425). -/
def Queue.dist (q : Queue) : Nat :=
  let l := q.cur
  if q.depth = 0 then (q.tail + l.len - l.pos) % l.len else l.len - l.pos

/-- LEN of a packet type, 0 for any (R424); none for a reserved type. -/
def pktLen (t : Nat) : Option Nat :=
  match t with
  | 0x01 => some 0 | 0x02 => some 2 | 0x03 => some 4 | 0x04 => some 1 | 0x05 => some 1 | 0x06 => some 2 | 0x07 => some 1
  | 0x08 => some 2 | 0x09 => some 2 | 0x0A => some 1 | 0x0B => some 1 | 0x0C => some 2
  | _ => none

/-- The header of a packet breaks R423 or R424 in its TYPE, LEN or FLAGS. -/
def headBad (h : Nat) : Bool :=
  let t := bf h 7 0
  (match pktLen t with
  | none => true
  | some n => n != 0 && bf h 15 8 != n) || bf h 31 22 != 0 || (bt h 21 && t != 0x08)

/-- What stands at the parse point. -/
inductive Next where
  | none
  /-- a line must be read first -/
  | read (line : Nat)
  /-- a queue error and the bytes of the failing packet -/
  | bad (code n : Nat)
  | endBuf
  | skip (n : Nat)
  | pkt (typ flags n v : Nat)
  deriving DecidableEq, Repr

def Queue.unit (q : Queue) (va : Nat) : Option Nat := (q.buf.find? fun u => u.1 == q.depth && u.2.1 == va).map (·.2.2)

/-- The units of a packet gathered, or the first unit that is missing. -/
def Queue.gather (q : Queue) (va : Nat) : Nat → Except Nat Nat
  | 0 => .ok 0
  | k + 1 =>
    match q.unit va with
    | none => .error va
    | some u => (q.gather (va + 16) k).map fun r => u + r * 2 ^ 128

/-- The next packet of a queue. VER is checked before the other fields; a skipped packet is not checked beyond its length
(R423, R426, R429). -/
def Queue.next (q : Queue) : Next :=
  let l := q.cur
  if q.depth ≠ 0 ∧ l.len ≤ l.pos then (if l.loop.isSome then .bad 1 0 else .endBuf)
  else if q.dist = 0 then .none
  else
    match q.unit (l.va + l.pos) with
    | none => .read ((l.va + l.pos) / 64)
    | some h =>
      let n := 16 * bf h 15 8
      if l.skip = 0 ∧ bf h 19 16 ≠ 1 then .bad 2 (max n 16)
      else if n = 0 ∨ l.len < l.pos + n then .bad 1 (max n 16)
      else if q.dist < n then .none
      else if l.skip ≠ 0 then .skip n
      else if headBad h then .bad 1 n
      else
        match q.gather (l.va + l.pos) (n / 16) with
        | .error va => .read (va / 64)
        | .ok v => .pkt (bf h 7 0) (bf h 31 20) n v

/-- The current level replaced. -/
def Queue.setCur (q : Queue) (l : Level) : Queue := { q with levels := l :: q.levels.drop 1 }

/-- The parse point moved past a packet of `n` bytes, a pass of a loop counted (R426). Ring bytes behind it go. -/
def Queue.advance (q : Queue) (n : Nat) : Queue :=
  let l := q.cur
  let pos := if q.depth = 0 then (l.pos + n) % l.len else l.pos + n
  let l' : Level := match l.loop with
    | none => { l with pos := pos }
    | some (start, body, left, passes) =>
      if left ≤ 1 then
        if passes = 0 then { l with pos := pos, loop := none } else { l with pos := start, loop := some (start, body, body, passes - 1) }
      else { l with pos := pos, loop := some (start, body, left - 1, passes) }
  let q' := q.setCur l'
  if q.depth ≠ 0 ∨ l'.loop.isSome then q'
  else { q' with buf := q'.buf.filter fun u => u.1 != 0 || decide ((u.2.1 + l'.len - l'.va - l'.pos) % l'.len < q'.dist) }

/-- The level above: its bytes go (R425). -/
def Queue.popLevel (q : Queue) : Queue :=
  { q with levels := q.levels.drop 1, buf := q.buf.filter fun u => u.1 != q.depth }

/-- The event that processes a packet type. -/
def pktEvent (t : Nat) : Instr :=
  match t with
  | 0x02 => .launchPacket | 0x03 => .launchrange | 0x04 => .indirect | 0x05 => .returnPacket | 0x06 => .pred | 0x07 => .loopPacket
  | 0x08 => .signal | 0x09 => .waitsig | 0x0A => .fetchfence | 0x0B => .weightsel | 0x0C => .copyPacket
  | _ => .nopPacket

/-- A queue error at the packet at the parse point: HEAD is left after it, or after the ring packet or ring loop that holds it
(R429). -/
def Panel.queueFail (p : Panel) (pi qi code n : Nat) : Panel :=
  let q := p.queueOf pi qi
  let r := q.ring
  let pos := if r.loop.isNone ∧ q.depth = 0 then (r.pos + n) % r.len else r.pos
  (p.updQueue pi qi fun q => { q with levels := [{ r with pos := pos }] }).queueStop pi qi code

/-- Parse goes on: levels that have ended are left, skipped packets passed, and the next packet or read put on the agenda. -/
def Panel.parse (p : Panel) (pi qi : Nat) : Nat → Panel
  | 0 => p
  | k + 1 =>
    let q := p.queueOf pi qi
    if q.state ≠ 2 ∨ !q.mapped ∨ q.fpage.isSome ∨ (p.part pi).schedHalted then p
    else
      match q.next with
      | .none =>
        if q.depth = 0 ∧ q.dist = 0 ∧ q.cur.loop = none then (p.updQueue pi qi fun q => { q with state := 1, last := p.now }).flushQueue pi qi
        else p
      | .read line => p.once 1 .fetchAheadRead [pi, qi, line]
      | .bad c n => p.queueFail pi qi c n
      | .endBuf => (p.updQueue pi qi Queue.popLevel).parse pi qi k
      | .skip n =>
        let q1 := (q.setCur { q.cur with skip := q.cur.skip - 1 }).advance n
        ((p.updQueue pi qi fun _ => q1).flushQueue pi qi).parse pi qi k
      | .pkt t _ _ _ => p.once 1 (pktEvent t) [pi, qi]

def Panel.parseOn (p : Panel) (pi qi : Nat) : Panel := p.parse pi qi 400

/-- The packet has been processed: the parse point moves past it, the queue is ACTIVE and Parse goes on. -/
def Panel.passed (p : Panel) (pi qi n : Nat) : Panel :=
  ((p.updQueue pi qi fun q => { q.advance n with state := 2, last := p.now }).flushQueue pi qi).parseOn pi qi

/-- The packet must wait: the queue is WAITING, and tested every 4,096 cycles (R422). -/
def Panel.queueWait (p : Panel) (pi qi : Nat) : Panel :=
  let p1 := p.once 4096 .queueWaitRetest [pi, qi]
  if (p.queueOf pi qi).state = 3 then p1 else (p1.updQueue pi qi fun q => { q with state := 3, last := p.now }).flushQueue pi qi

/-- A page of the packet's bytes, descriptor or word is before the Memory core: Parse stands (R158, R429). -/
def Panel.queuePage (p : Panel) (pi qi page : Nat) : Panel :=
  (p.updQueue pi qi fun q => { q with fpage := some page }).askPage pi (p.queueOf pi qi).asid page

/-- The packet at the parse point is tried again. -/
def Panel.retest (p : Panel) (pi qi : Nat) : Panel :=
  match (p.queueOf pi qi).next with
  | .pkt t _ _ _ => p.once 0 (pktEvent t) [pi, qi]
  | .none => p | .read line => p.once 1 .fetchAheadRead [pi, qi, line] | .bad _ _ => p | .endBuf => p | .skip _ => p

/-- A wake (R421, R422, R429): a bad TAIL is a queue error; IDLE becomes ACTIVE; a WAITING condition is tested. -/
def Panel.wakeQueue (p : Panel) (pi qi : Nat) : Panel :=
  let q := p.queueOf pi qi
  if q.state = 0 ∨ q.state = 4 ∨ !q.mapped then p
  else if q.tail % 16 ≠ 0 ∨ 2 ^ q.rlog2 ≤ q.tail then p.queueStop pi qi 5
  else if q.state = 1 then
    if q.tail ≠ q.ring.pos then ((p.updQueue pi qi fun q => { q with state := 2, last := p.now }).flushQueue pi qi).parseOn pi qi else p
  else if q.state = 3 then p.retest pi qi
  else p.parseOn pi qi

/-- Every WAITING queue of a partition tested again, after a SIGNAL (R422). -/
def Panel.wakeWaiting (p : Panel) (pi : Nat) : Panel :=
  ((p.part pi).queues.filter fun (e : Nat × Queue) => e.2.state == 3 && e.2.mapped).foldl (fun q e => q.retest pi e.1) p

/-- The units of a line that a level's window covers and its buffer does not hold: up to TAIL in the ring, and 4,096 bytes ahead
(R425). -/
def Queue.wanted (q : Queue) (line d : Nat) (l : Level) : List (Nat × Nat) :=
  (((List.range 4).map fun i => 64 * line + 16 * i).filter fun u =>
    decide (l.va ≤ u) && decide (u < l.va + l.len) &&
      (if d = 0 then decide ((u - l.va + l.len - l.pos) % l.len < min ((q.tail + l.len - l.pos) % l.len) 4096)
      else decide (l.pos ≤ u - l.va) && decide (u - l.va < l.pos + 4096)) &&
      !(q.buf.any fun b => b.1 == d && b.2.1 == u)).map fun u => (d, u)

/-- Bytes of the packet at the parse point, 16 while its header has not been read (R429). -/
def Queue.headLen (q : Queue) : Nat :=
  match q.unit (q.cur.va + q.cur.pos) with
  | some h => max 16 (16 * bf h 15 8)
  | none => 16

/-- FETCH_AHEAD_READ: units of a line that the parse window covers and the buffer does not hold are read at the line's home
slice (R425). Only for the next packet does a fault matter (R424, R429). -/
def execFetchAheadRead (s : State) : Res :=
  onPanel (fun p =>
    let pi := p.arg 0
    let qi := p.arg 1
    let line := p.arg 2
    let q := p.queueOf pi qi
    let want := ((List.range q.levels.length).zip q.levels.reverse).flatMap fun e => q.wanted line e.1 e.2
    let needed := q.next == .read line
    if (p.part pi).schedHalted ∨ !q.mapped ∨ q.fpage.isSome ∨ ¬ (q.state = 2 ∨ q.state = 3) ∨ want = [] then p
    else
      match p.frontRead pi q.asid q.priv (some q.keyid) (64 * line) 64 with
      | .ok v p1 =>
        let p2 := p1.updQueue pi qi fun q =>
          { q with buf := q.buf ++ want.map fun w => (w.1, w.2, bf v (8 * (w.2 - 64 * line) + 127) (8 * (w.2 - 64 * line))) }
        if q.state = 3 then p2.retest pi qi else p2.parseOn pi qi
      | .fault g => if needed then p.queuePage pi qi g else p
      | .refuse => if needed then p.queueFail pi qi 4 q.headLen else p
      | .fatal c va r => if needed then r.schedFatal pi c va else r) s

end Sys2Proof.Machine
end

