-- ==== Sys2Proof/Machine/Packets.lean ====
section
/-! DEFINITION. Queues as Schedule handles them, and the events of the packets but for launches (R418-R431, R446-R449). -/

namespace Sys2Proof.Machine

/-! ### Enabling, disabling, mapping (R418-R422, R437, R446-R448) -/

def mappedCount (q : Partition) : Nat := (q.queues.filter fun (e : Nat × Queue) => e.2.mapped).length

/-- The read-only half breaks R419, or asks for a version other than the agreed 1.0 (R500). -/
def halfBad (pi v : Nat) : Bool :=
  bf v 11 0 != 0 || bf v 63 55 != 0 || bf v 87 84 != 0 || bf v 83 80 != pi || bt v 95 || bf v 103 101 != 0 ||
    bf v 100 96 < 12 || 30 < bf v 100 96 || bf v 111 108 != 0 || bf v 119 116 != 1 || bf v 115 112 != 0 || bf v 127 122 != 0 ||
    bf v 191 176 != 0 || bf v 511 192 != 0

/-- A queue of the two halves of its control block; the ring level starts at HEAD. -/
def queueFrom (qcb ro mu : Nat) : Queue :=
  let lg := bf ro 100 96
  { qcb := qcb, mapped := true, state := 1, rbase := bf ro 63 0, asid := bf ro 71 64, keyid := bf ro 79 72, prioMax := bf ro 94 88
    rlog2 := lg, eng := bf ro 107 104, priv := bt ro 121, cont := bt ro 120, eceil := bf ro 175 128
    tail := bf mu 63 32, lerr := bf mu 79 72, wsel := bf mu 191 128, lseq := bf mu 255 192, ndone := bf mu 319 256, nerr := bf mu 383 320
    levels := [{ va := bf ro 63 0, len := 2 ^ lg, pos := bf mu 31 0 % 2 ^ lg }] }

/-- QUEUE_ENABLE: Schedule, with a third operand, first writes the queue-table entry with that control-block address; the enable
fails unless the block is aligned, in range, under the plain key, and its read-only half stands (R418, R419, R422). An enable counts as activity of the
queue (R446; DESIGN CHOICE, log 78). -/
def execQueueEnable (s : State) : Res :=
  onPanel (fun p =>
    let pi := p.arg 0
    let qi := p.arg 1
    let old := p.queueOf pi qi
    if 1024 ≤ qi ∨ (SMap.find p.parts pi).isNone ∨ old.state ≠ 0 ∨ (p.part pi).halt then p
    else
      let p0 := if p.ev.length < 3 then p else p.putQtab pi qi (w64 (2 ^ 63 + p.arg 2 / 128 % 2 ^ 45 * 128))
      let x := p0.part pi
      let w := (SMap.getD x.qtab qi 0).toNat
      let qcb := bf w 51 7 * 128
      if !bt w 63 ∨ !inHbm x qcb ∨ !inHbm x (qcb + 127) ∨ 64 ≤ mappedCount x then p0
      else
        match p0.engineRead x (qcb / 64) 0 with
        | .error e => lineFatal x (qcb / 64) e
        | .ok (ro, p1) =>
          match p1.engineRead x (qcb / 64 + 1) 0 with
          | .error e => lineFatal x (qcb / 64 + 1) e
          | .ok (mu, p2) =>
            if halfBad pi ro.toNat then p2
            else
              let p3 := p2.updPart pi fun x => { x with queues := SMap.set x.queues qi { queueFrom qcb ro.toNat mu.toNat with last := p.now } }
              (p3.flushQueue pi qi).wakeQueue pi qi) s

/-- A launch that has neither retired nor ended. -/
def Launch.live (l : Launch) : Bool := l.st != .retired && l.st != .ended

/-- The unretired launches of a queue, in packet order. -/
def Panel.liveLaunches (p : Panel) (pi qi : Nat) : List Nat :=
  (p.launches.filter fun (e : Nat × Launch) => e.2.part == pi && e.2.queue == qi && e.2.live).map (·.1)

def Panel.cancelQueue (p : Panel) (pi qi : Nat) : Panel := (p.liveLaunches pi qi).foldl (fun q l => q.endLaunch l 9 0) p

/-- A queue disabled; its unretired launches end with CANCELLED (R422, R437). -/
def Panel.disableQueue (p : Panel) (pi qi : Nat) : Panel :=
  if (p.queueOf pi qi).state = 0 then p
  else
    let p1 := p.updQueue pi qi fun q => { q with state := 0, fpage := none, buf := [] }
    let p2 := (p1.cancelQueue pi qi).updPart pi fun x => { x with copies := x.copies.filter fun (e : Nat × Copy) => e.2.queue != qi }
    (p2.flushQueue pi qi).updQueue pi qi fun q => { q with mapped := false }

/-- Control writes of a queue that its slice has taken and forwarded, and the scheduler has not seen (R421). -/
def Panel.forwarded (p : Panel) (pi qi : Nat) : Bool :=
  p.agenda.any fun e =>
    [Instr.qcbTailWrite, .qcbWakeWrite, .qcbErrackWrite, .qcbCancelWrite].contains e.2.1 && e.2.2.take 2 == [pi, qi]

/-- QUEUE_DISABLE: after the control writes that have been forwarded. -/
def execQueueDisable (s : State) : Res :=
  onPanel (fun p =>
    if p.forwarded (p.arg 0) (p.arg 1) then p.once 1 .queueDisable [p.arg 0, p.arg 1] else p.disableQueue (p.arg 0) (p.arg 1)) s

/-- Schedule may unmap a queue: IDLE before WAITING, and within each the least recently active (R446). -/
def mayUnmap (x : Partition) (q : Queue) : Bool :=
  let ms := (x.queues.map (·.2)).filter (·.mapped)
  q.mapped && (q.state == 1 || (q.state == 3 && !(ms.any fun m => m.state == 1))) && ms.all fun m => m.state != q.state || q.last ≤ m.last

/-- QUEUE_UNMAP: parsing stops, fetched bytes are discarded, the half is written back, forwarding ends; control writes forwarded before have arrived,
so that no wake is lost (R447, R448). -/
def execQueueUnmap (s : State) : Res :=
  onPanel (fun p =>
    let pi := p.arg 0
    let qi := p.arg 1
    if mayUnmap (p.part pi) (p.queueOf pi qi) ∧ p.forwarded pi qi then p.once 1 .queueUnmap [pi, qi]
    else if mayUnmap (p.part pi) (p.queueOf pi qi) then
      ((p.updQueue pi qi fun q => { q with buf := [] }).flushQueue pi qi).updQueue pi qi fun q => { q with mapped := false }
    else p) s

/-- An unmapped queue is mapped again: its mutable half is read and PWAKE tested first; CANCEL and ERRACK written meanwhile take effect (log 73), and
a WAITING condition is tested again (R422, R447, R448). A remap counts as activity of the queue (R446; DESIGN CHOICE, log 78). -/
def Panel.remap (p : Panel) (pi qi : Nat) : Panel :=
  let q := p.queueOf pi qi
  let line := q.qcb / 64 + 1
  match p.engineRead (p.part pi) line 0 with
  | .error e => lineFatal (p.part pi) line e
  | .ok (d, p0) =>
    let p1 := (p0.updQueue pi qi fun q =>
      { q with mapped := true, tail := bf d.toNat 63 32, last := p.now, pcancel := false, perrack := false }).flushQueue pi qi
    let p2 := if q.pcancel then p1.later 0 .qcbCancelWrite [pi, qi] else p1
    let p3 := if q.perrack then p2.later 0 .qcbErrackWrite [pi, qi] else p2
    let p4 := if q.state = 3 then p3.once 4096 .queueWaitRetest [pi, qi] else p3
    if bt d.toNat 67 then p4.wakeQueue pi qi else p4.parseOn pi qi

/-- QUEUE_REMAP (R448). -/
def execQueueRemap (s : State) : Res :=
  onPanel (fun p =>
    let q := p.queueOf (p.arg 0) (p.arg 1)
    if q.mapped ∨ q.state = 0 ∨ 64 ≤ mappedCount (p.part (p.arg 0)) then p else p.remap (p.arg 0) (p.arg 1)) s

/-- QCB_TAIL_WRITE: the new bytes of TAIL, a third operand masking those written when a producer stores only some (R421). -/
def execQcbTailWrite (s : State) : Res :=
  onPanel (fun p =>
    let pi := p.arg 0
    let qi := p.arg 1
    let m := if p.ev.length < 4 then 0xFFFFFFFF else p.arg 3
    if (p.queueOf pi qi).mapped then
      (p.updQueue pi qi fun q => { q with tail := (p.arg 2 &&& m) ||| (q.tail &&& (0xFFFFFFFF ^^^ m)) }).wakeQueue pi qi
    else p) s

def execQcbWakeWrite (s : State) : Res := onPanel (fun p => p.wakeQueue (p.arg 0) (p.arg 1)) s

/-- QCB_ERRACK_WRITE: ERROR ends, and Parse resumes at HEAD, at ring level (R422, R429). -/
def execQcbErrackWrite (s : State) : Res :=
  onPanel (fun p =>
    let pi := p.arg 0
    let qi := p.arg 1
    let q := p.queueOf pi qi
    if !q.mapped ∨ q.state = 0 then p
    else if q.state = 4 then
      ((p.updQueue pi qi fun q => { q with state := if q.tail = q.ring.pos then 1 else 2, last := p.now }).flushQueue pi qi).wakeQueue pi qi
    else p.wakeQueue pi qi) s

/-- QCB_CANCEL_WRITE (R437). -/
def execQcbCancelWrite (s : State) : Res :=
  onPanel (fun p => if (p.queueOf (p.arg 0) (p.arg 1)).mapped then (p.cancelQueue (p.arg 0) (p.arg 1)).wakeQueue (p.arg 0) (p.arg 1) else p) s

/-- QUEUE_WAIT_RETEST: the condition of a WAITING queue is tested every 4,096 cycles; an unmapped queue is mapped again for it, as soon as there is a
place (R422, R446, R449; log 79, DEDUCED). -/
def execQueueWaitRetest (s : State) : Res :=
  onPanel (fun p =>
    let pi := p.arg 0
    let qi := p.arg 1
    let q := p.queueOf pi qi
    if q.state ≠ 3 then p
    else
      let p1 := if q.mapped then p else if 64 ≤ mappedCount (p.part pi) then p else p.remap pi qi
      (if (p1.queueOf pi qi).mapped then p1.retest pi qi else p1).once 4096 .queueWaitRetest [pi, qi]) s

/-! ### Packets (R423-R426) -/

/-- Every earlier launch and COPY of the queue has retired or ended; for a SIGNAL, its record has been written too (R423, R430). -/
def Panel.prior (p : Panel) (pi qi : Nat) (recorded : Bool) : Bool :=
  (p.launches.all fun (e : Nat × Launch) => e.2.part != pi || e.2.queue != qi || (!e.2.live && (!recorded || e.2.recorded))) &&
    (p.part pi).copies.all fun (e : Nat × Copy) => e.2.queue != qi

/-- The packet of a type at the parse point of an ACTIVE or WAITING queue: refused when its zero fields or values break R424 or
R429; held while its WAITPRIOR or implicit wait is pending (1 as WAITPRIOR, 2 with records); else processed by `k` with its
length and bytes. -/
def Panel.packet (p : Panel) (typ : Nat) (bad : Nat → Bool) (wait : Nat) (k : Nat → Nat → Nat → Panel) : Panel :=
  let pi := p.arg 0
  let qi := p.arg 1
  let q := p.queueOf pi qi
  if (p.part pi).schedHalted ∨ !q.mapped ∨ q.fpage.isSome ∨ ¬ (q.state = 2 ∨ q.state = 3) then p
  else
    match q.next with
    | .pkt t f n v =>
      if t ≠ typ then p
      else if bad v then p.queueFail pi qi 1 n
      else if (bt f 0 ∨ wait ≠ 0) ∧ !p.prior pi qi (wait == 2) then p.queueWait pi qi
      else k f n v
    | .none => p | .read _ => p | .bad _ _ => p | .endBuf => p | .skip _ => p

def execNopPacket (s : State) : Res :=
  onPanel (fun p => p.packet 0x01 (fun _ => false) 0 fun _ n _ => p.passed (p.arg 0) (p.arg 1) n) s

/-- INDIRECT: the buffer is parsed at the next level; levels run to 4 (R426, R429). -/
def execIndirect (s : State) : Res :=
  onPanel (fun p =>
    p.packet 0x04 (fun v => bf v 35 32 != 0 || bf v 63 32 == 0 || 65536 < bf v 63 32 || bf v 67 64 != 0) 0 fun _ n v =>
      let pi := p.arg 0
      let qi := p.arg 1
      if 4 ≤ (p.queueOf pi qi).depth then p.queueFail pi qi 3 n
      else if regionOf (bf v 127 64) ≠ .paged then p.queueFail pi qi 4 n
      else
        let p1 := p.updQueue pi qi fun q =>
          let q1 := q.advance n
          { q1 with levels := { va := bf v 127 64, len := bf v 63 32, pos := 0 } :: q1.levels, state := 2, last := p.now }
        (p1.flushQueue pi qi).parseOn pi qi) s

/-- RETURN: Parse resumes after the INDIRECT; at level 0, or inside a loop of its buffer, it is BADPACKET (R426, R429). -/
def execReturnPacket (s : State) : Res :=
  onPanel (fun p =>
    p.packet 0x05 (fun v => bf v 127 32 != 0) 0 fun _ n _ =>
      let q := p.queueOf (p.arg 0) (p.arg 1)
      if q.depth = 0 ∨ q.cur.loop.isSome then p.queueFail (p.arg 0) (p.arg 1) 1 n
      else
        (p.updQueue (p.arg 0) (p.arg 1) fun q => { q.popLevel with state := 2, last := p.now }).flushQueue (p.arg 0) (p.arg 1) |>.parseOn (p.arg 0) (p.arg 1)) s

/-- The test of PRED and WAITSIG: (word and MASK) OP VALUE (R424). -/
def sigTest (op word value mask : Nat) : Bool :=
  let x := word &&& mask
  match op with
  | 0 => x == value
  | 1 => x != value
  | 2 => decide (value ≤ x)
  | _ => decide (x < value)

/-- A doubleword read for a packet: the word, or what its fault does to the queue (R424, R429). -/
def Panel.packetWord (p : Panel) (n va : Nat) (k : Nat → Panel → Panel) : Panel :=
  let pi := p.arg 0
  let qi := p.arg 1
  let q := p.queueOf pi qi
  match p.frontRead pi q.asid q.priv none va 8 with
  | .ok w r => k w r
  | .fault g => p.queuePage pi qi g
  | .refuse => p.queueFail pi qi 4 n
  | .fatal c a r => r.schedFatal pi c a

def execPred (s : State) : Res :=
  onPanel (fun p =>
    p.packet 0x06 (fun v => bf v 63 43 != 0 || bf v 39 32 == 0 || bt v 42 || bf v 66 64 != 0) 0 fun _ n v =>
      p.packetWord n (bf v 127 64) fun w r =>
        if sigTest (bf v 41 40) w (bf v 191 128) (bf v 255 192) then r.passed (p.arg 0) (p.arg 1) n
        else
          let r1 := r.updQueue (p.arg 0) (p.arg 1) fun q =>
            let q1 := q.advance n
            { q1.setCur { q1.cur with skip := bf v 39 32 } with state := 2, last := p.now }
          (r1.flushQueue (p.arg 0) (p.arg 1)).parseOn (p.arg 0) (p.arg 1)) s

/-- LOOP: the next N packets of the level are its body; a body that cannot fit its buffer, and a LOOP in a loop body, are
BADPACKET (R426, R429). -/
def execLoopPacket (s : State) : Res :=
  onPanel (fun p =>
    p.packet 0x07 (fun v => bf v 63 56 != 0 || bf v 55 48 == 0 || bf v 127 64 != 0) 0 fun _ n v =>
      let q := p.queueOf (p.arg 0) (p.arg 1)
      let body := bf v 55 48
      if (q.levels.any fun l => l.loop.isSome) ∨ (q.depth ≠ 0 ∧ q.cur.len < q.cur.pos + n + 16 * body) then p.queueFail (p.arg 0) (p.arg 1) 1 n
      else
        let p1 := p.updQueue (p.arg 0) (p.arg 1) fun q =>
          let q1 := q.advance n
          { q1.setCur { q1.cur with loop := some (q1.cur.pos, body, body, bf v 47 32) } with state := 2, last := p.now }
        (p1.flushQueue (p.arg 0) (p.arg 1)).parseOn (p.arg 0) (p.arg 1)) s

/-- SIGNAL: once earlier work has retired and its records are written, VALUE is stored or added at VA at the home slice; with IRQ
vector 2 + PART leaves on both endpoints; waiting queues of the partition are tested (R422, R423, R426, R515). A VA that is no multiple of 8 is no
error: the eight bytes from VA on are read and written (DESIGN CHOICE, log 80: R429 checks the alignment of PRED, WAITSIG and COMP only). -/
def execSignal (s : State) : Res :=
  onPanel (fun p =>
    p.packet 0x08 (fun v => bf v 63 33 != 0 || bf v 255 192 != 0) 2 fun f n v =>
      let pi := p.arg 0
      let qi := p.arg 1
      let q := p.queueOf pi qi
      let va := bf v 127 64
      let put := fun (r : Panel) (w : Nat) =>
        match r.frontWrite pi q.asid q.priv va 8 w with
        | .ok _ r1 =>
          let r2 := if bt f 1 then { r1 with outbox := r1.outbox ++ [.msix 0 (2 + pi), .msix 1 (2 + pi)] } else r1
          (r2.passed pi qi n).wakeWaiting pi
        | .fault g => p.queuePage pi qi g
        | .refuse => p.queueFail pi qi 4 n
        | .fatal c a x => x.schedFatal pi c a
      if bt v 32 then p.packetWord n va fun w r => put r ((w + bf v 191 128) % 2 ^ 64) else put p (bf v 191 128)) s

/-- WAITSIG: WAITING until the test holds (R426). -/
def execWaitsig (s : State) : Res :=
  onPanel (fun p =>
    p.packet 0x09 (fun v => bf v 63 35 != 0 || bt v 34 || bf v 66 64 != 0) 0 fun _ n v =>
      p.packetWord n (bf v 127 64) fun w r =>
        if sigTest (bf v 33 32) w (bf v 191 128) (bf v 255 192) then r.passed (p.arg 0) (p.arg 1) n
        else r.queueWait (p.arg 0) (p.arg 1)) s

/-- FETCHFENCE: waits as WAITPRIOR, then the fetch-ahead buffer is discarded (R425, R426). -/
def execFetchfence (s : State) : Res :=
  onPanel (fun p =>
    p.packet 0x0A (fun v => bf v 127 32 != 0) 1 fun _ n _ =>
      let p1 := p.updQueue (p.arg 0) (p.arg 1) fun q => { q.advance n with buf := [], state := 2, last := p.now }
      (p1.flushQueue (p.arg 0) (p.arg 1)).parseOn (p.arg 0) (p.arg 1)) s

/-- WEIGHTSEL: once every earlier launch of the queue is admitted, WSEL := VA (R426, R439). -/
def execWeightsel (s : State) : Res :=
  onPanel (fun p =>
    p.packet 0x0B (fun v => bf v 63 32 != 0) 0 fun _ n v =>
      let pi := p.arg 0
      let qi := p.arg 1
      if p.launches.any fun (e : Nat × Launch) => e.2.part == pi && e.2.queue == qi && e.2.st == .parsed then p.queueWait pi qi
      else (p.updQueue pi qi fun q => { q with wsel := bf v 127 64 }).passed pi qi n) s

/-- COPY: handed to the edge copy engines; with ENG bit 3 clear it is COPYFAULT (R426, R429). -/
def execCopyPacket (s : State) : Res :=
  onPanel (fun p =>
    p.packet 0x0C (fun v => bf v 63 32 != 0) 0 fun _ n v =>
      let pi := p.arg 0
      let qi := p.arg 1
      let q := p.queueOf pi qi
      if !bt q.eng 3 then p.queueFail pi qi 6 n
      else
        let c : Copy := { queue := qi, src := bf v 127 64, dst := bf v 191 128, len := bf v 255 192, asid := q.asid, priv := q.priv }
        let p1 := { p with nid := p.nid + 1 }.updPart pi fun x => { x with copies := SMap.set x.copies p.nid c }
        (p1.later 1 .copyComplete [pi, p.nid]).passed pi qi n) s

/-- COPY_COMPLETE: the edge engines move a line of the copy; after the last the COPY has retired. A refused page is COPYFAULT
(R426, R429). -/
def execCopyComplete (s : State) : Res :=
  onPanel (fun p =>
    let pi := p.arg 0
    let i := p.arg 1
    match SMap.find (p.part pi).copies i with
    | none => p
    | some c =>
      let upd := fun (r : Panel) (c : Copy) => r.updPart pi fun x => { x with copies := SMap.set x.copies i c }
      let drop := fun (r : Panel) => r.updPart pi fun x => { x with copies := SMap.del x.copies i }
      let wait := fun (g : Nat) => (upd p { c with fpage := some g }).askPage pi c.asid g
      let n := min (c.len - c.done) (min (64 - (c.src + c.done) % 64) (64 - (c.dst + c.done) % 64))
      if (p.part pi).schedHalted ∨ c.fpage.isSome then p
      else if c.len ≤ c.done then drop p
      else
        match p.frontRead pi c.asid c.priv none (c.src + c.done) n with
        | .fault g => wait g
        | .refuse => (drop p).queueStop pi c.queue 6
        | .fatal x a r => r.schedFatal pi x a
        | .ok v r =>
          match r.frontWrite pi c.asid c.priv (c.dst + c.done) n v with
          | .fault g => wait g
          | .refuse => (drop p).queueStop pi c.queue 6
          | .fatal x a r1 => r1.schedFatal pi x a
          | .ok _ r1 =>
            if c.len ≤ c.done + n then drop r1 else (upd r1 { c with done := c.done + n }).later 1 .copyComplete [pi, i]) s

end Sys2Proof.Machine
end

