-- ==== Sys2Proof/Machine/Launches.lean ====
section
/-! DEFINITION. Launches: descriptors and their checks, admission, leases, weight sets, staging, completion records, energy,
range tasks, and what the Memory core's decision on a page does to the front end
(R159-R165, R205-R210, R427-R445). -/

namespace Sys2Proof.Machine

/-! ### Descriptors (R159, R205-R207, R427, R431) -/

/-- Flags of a launch (R427). -/
def Launch.pinned (l : Launch) : Bool := bt l.flags 0
def Launch.fused (l : Launch) : Bool := bt l.flags 1
def Launch.hoop (l : Launch) : Bool := bt l.flags 2

/-- A working-set declaration of 32 bytes; none when it breaks R159, or TARGET 2 goes past the window (R431). -/
def wsOf (v local_ : Nat) : Option Ws :=
  let va := bf v 63 0
  let len := bf v 104 64
  let w : Ws := { va := va, len := len, strict := bt v 132, access := bf v 131 130, target := bf v 129 128, lmoff := bf v 177 160 }
  if bf v 127 105 ≠ 0 ∨ len = 0 ∨ 2 ^ 40 < len ∨ bf v 159 133 ≠ 0 ∨ w.access = 0 ∨ w.target = 3 ∨ bf v 191 178 ≠ 0 ∨ bf v 255 192 ≠ 0 ∨
      (w.target ≠ 2 ∧ w.lmoff ≠ 0) ∨ regionOf va ≠ .paged ∨ regionOf (va + len - 1) ≠ .paged ∨ (w.target = 2 ∧ local_ < w.lmoff + len) then none
  else some w

/-- The declarations of a descriptor from number `i` on: all of them, or the number of the first bad one. -/
def wsAll (v local_ : Nat) : Nat → Nat → Except Nat (List Ws)
  | 0, _ => .ok []
  | k + 1, i =>
    match wsOf (bf v (512 + 256 * i + 255) (512 + 256 * i)) local_ with
    | none => .error i
    | some w => (wsAll v local_ k (i + 1)).map fun t => w :: t

/-- A descriptor field breaks R427. -/
def descBad (v : Nat) (range : Bool) : Bool :=
  (badTarget (w64 (bf v 63 0))).isSome || (!range && bf v 95 64 == 0) || bf v 103 100 == 0 || bt v 99 || bt v 111 || bf v 119 115 != 0 ||
    8 < bf v 127 124 || bf v 159 128 % 64 != 0 || bf v 223 192 % 16 != 0 || bf v 255 224 != 0 || bf v 319 304 != 0 || bf v 351 344 != 0 ||
    bf v 511 352 != 0 || (!bt v 120 && bf v 343 320 != 0)

/-- The lowest flag whose ENG bit is clear (R431). -/
def engBad (flags eng : Nat) : Option Nat :=
  if bt flags 0 && !bt eng 2 then some 0 else if bt flags 1 && !bt eng 1 then some 1 else if bt flags 2 && !bt eng 0 then some 2 else none

/-- The first resource of R207, then R205, that a launch exceeds. -/
def tooLarge (l : Launch) : Option Nat :=
  if 12 < l.quota then some 1
  else if 65536 < l.quota * l.regs then some 2
  else if 262144 < l.local_ then some 3
  else if l.local_ < l.quota * l.stack then some 4
  else if 8 < l.w ∨ 8 < l.h then some 5
  else if (l.hoop ∨ l.fused) ∧ (l.w % 4 ≠ 0 ∨ l.h % 2 ≠ 0) then some 6
  else none

/-- The cores of a rectangle, by rows. -/
def rectCores (ox oy w h : Nat) : List Nat := (List.range (w * h)).map fun i => coreXY (ox + i % w) (oy + i / w)

/-- A rectangle lies in a partition. -/
def rectIn (q : Partition) (ox oy w h : Nat) : Bool :=
  16 * q.cx0 ≤ ox && ox + w ≤ 16 * (q.cx0 + q.wc) && 12 * q.cy0 ≤ oy && oy + h ≤ 12 * (q.cy0 + q.hc)

/-- The origin of block `i` of a pinned launch (R427). -/
def pinOrigin (l : Launch) (i : Nat) : Nat × Nat :=
  let r := if l.pinrow = 0 then l.blocks else l.pinrow
  (l.ox + l.w * (i % r), l.oy + l.h * (i / r))

/-- Whole KiB of a launch's window (R29). -/
def Launch.kib (l : Launch) : Nat := cdiv l.local_ 1024

/-- The first pinned block, from `i` on, that R206 rejects; `used` counts what earlier blocks put on each core, and `hoops` names
the clusters that earlier blocks of a Hoop launch take (R364). -/
def pinBad (f : Fabric) (q : Partition) (l : Launch) : Nat → Nat → SMap Nat → List Nat → Option Nat
  | 0, _, _, _ => none
  | k + 1, i, used, hoops =>
    let o := pinOrigin l i
    let cs := rectCores o.1 o.2 l.w l.h
    let cls := (cs.map clusterOf).eraseDups
    let used' := cs.foldl (fun m c => SMap.upd m c 0 (· + 1)) used
    let past := cs.any fun c =>
      let n := SMap.getD used' c 0
      decide (12 < n * l.quota) || decide (65536 < n * l.quota * l.regs) || decide (256 < n * l.kib)
    if !rectIn q o.1 o.2 l.w l.h then some i
    else if !(cs.all (validCore f)) ∨ past ∨ (l.hoop ∧ cls.any hoops.contains) ∨
        ((l.hoop ∨ l.fused) ∧ (o.1 % 4 ≠ 0 ∨ o.2 % 2 ≠ 0)) then some i
    else pinBad f q l k (i + 1) used' (if l.hoop then hoops ++ cls else hoops)

/-- The launch of a packet and its descriptor (R427, R440, R441). -/
def launchOf (pi qi : Nat) (q : Queue) (d arg comp : Nat) (range : Option (Nat × Nat × Nat)) : Launch :=
  let e := bf d 303 256
  let budget := if q.eceil = 0 then e else min e q.eceil
  { part := pi, queue := qi, seq := q.lseq + 1, entry := bf d 63 0, blocks := bf d 95 64, quota := bf d 103 100, w := bf d 98 96 + 1
    h := bf d 114 112 + 1, prio := min (bf d 110 104) q.prioMax, flags := bf d 123 120, regs := bf d 159 128, local_ := bf d 191 160
    stack := bf d 223 192, budget := budget, ebudget := budget, pinrow := bf d 343 336, ox := bf d 327 320, oy := bf d 335 328
    priv := q.priv, asid := q.asid, arg := arg, comp := comp, range := range }

/-- The first check of R431 that a launch fails: status, DETAIL, ADDR; else its declarations. -/
def launchCheck (f : Fabric) (x : Partition) (eng : Nat) (aligned : Bool) (d : Nat) (l : Launch) : Except (Nat × Nat × Nat) (List Ws) :=
  if !aligned ∨ descBad d l.range.isSome then .error (6, 0, 0)
  else
    match engBad l.flags eng, tooLarge l with
    | some b, _ => .error (5, b, 0)
    | none, some r => .error (1, r, 0)
    | none, none =>
      match wsAll d l.local_ (bf d 127 124) 0 with
      | .error i => .error (2, i, 0)
      | .ok ws =>
        if l.pinned then
          match pinBad f x l (if l.range.isSome then 1 else l.blocks) 0 [] [] with
          | some i => .error (4, 0, i)
          | none => .ok ws
        else .ok ws

/-! ### Admission order (R434) -/

/-- TARGET 1 lines of a launch. -/
def Launch.lines (l : Launch) : Nat :=
  l.ws.foldl (fun n w => if w.target = 1 then n + ((w.va + w.len - 1) / 64 - w.va / 64 + 1) else n) 0

/-- The used ranges of a weight-set descriptor as declarations; none when it breaks R438. A range at a VA that is not a paged global address
breaks it, too (DESIGN CHOICE, log 81: R438 and R439 name no outcome for one). -/
def weightWs (v : Nat) : Option (List Ws) :=
  let one := fun (i : Nat) =>
    let va := bf v (128 * i + 191) (128 * i + 128)
    let w := bf v (128 * i + 255) (128 * i + 192)
    let len := bf w 40 0
    let t := bf w 42 41
    if bf w 63 43 ≠ 0 ∨ 2 ≤ t then none
    else if len = 0 then some []
    else if regionOf va ≠ .paged ∨ regionOf (va + len - 1) ≠ .paged then none
    else some [({ va := va, len := len, strict := false, access := 1, target := t, lmoff := 0 } : Ws)]
  if bf v 63 48 ≠ 0 then none
  else
    match one 0, one 1, one 2 with
    | some a, some b, some c => some (a ++ b ++ c)
    | _, _, _ => none

/-- The ranges of the weight set that a launch would latch now, as the home slice has its descriptor (R439). -/
def Panel.weightsOf (p : Panel) (l : Launch) : List Ws :=
  let va := (p.queueOf l.part l.queue).wsel
  if va = 0 ∨ va % 64 ≠ 0 then []
  else
    match p.walk l.part l.asid (va / 65536) with
    | .ok t =>
      if region (t.phys va) ≠ 0 then []
      else match p.truth (p.part l.part) (t.phys va / 64) t.key with
        | .ok d => (weightWs d.toNat).getD []
        | .error _ => []
    | .notPresent => []
    | .fatal _ => []

/-- Lines that admitted and unretired launches of a partition stage. -/
def Panel.stagedLines (p : Panel) (pi : Nat) : Nat :=
  p.launches.foldl (fun n (e : Nat × Launch) => if e.2.part = pi ∧ e.2.live ∧ e.2.st ≠ .parsed then n + e.2.lines else n) 0

/-- The first PARSED launch of each queue, in packet order. -/
def firstParsed : List (Nat × Launch) → List Nat → List (Nat × Launch)
  | [], _ => []
  | e :: t, seen =>
    if e.2.st ≠ .parsed then firstParsed t seen
    else if seen.contains e.2.queue then firstParsed t seen
    else e :: firstParsed t (e.2.queue :: seen)

/-- The launch that the stager admits next: of the mapped queues' first PARSED launches that fit L2BUDGET with the weight sets that they latch, the
highest class, and in it the next queue round-robin (R434, R439). -/
def Panel.nextAdmit (p : Panel) (pi : Nat) : Option Nat :=
  let x := p.part pi
  let room := p.stagedLines pi
  let cs := (firstParsed (p.launches.filter fun (e : Nat × Launch) => e.2.part == pi) []).filter fun e =>
    (SMap.getD x.queues e.2.queue {}).mapped && decide (room + ({ e.2 with ws := e.2.ws ++ p.weightsOf e.2 } : Launch).lines ≤ x.l2budget)
  let top := cs.foldl (fun m e => max m (e.2.prio / 16)) 0
  let last := SMap.getD x.admitRr top 1023
  let turn := fun (e : Nat × Launch) => (e.2.queue + 2047 - last) % 1024
  let best := (cs.filter fun e => e.2.prio / 16 == top).foldl
    (fun (m : Option (Nat × Launch)) e => match m with
      | none => some e
      | some b => if turn e < turn b then some e else m) none
  best.map (·.1)

def Panel.admitNext (p : Panel) (pi : Nat) : Panel :=
  match p.nextAdmit pi with
  | some l => p.once 1 .admission [pi, l]
  | none => p

/-! ### LAUNCH and LAUNCHRANGE (R426-R432, R443) -/

/-- COMP is neither 0 nor a legal place of a record (R430). -/
def compBad (c : Nat) : Bool := c != 0 && (c % 8 != 0 || regionOf c != .paged)

/-- A launch packet processed: the descriptor is read, the launch checked, and handed to admission or ended with its status. A
range task with LO ≥ HI retires at once (R428, R431, R443). -/
def Panel.launchPkt (p : Panel) (n v : Nat) (range : Option (Nat × Nat × Nat)) : Panel :=
  let pi := p.arg 0
  let qi := p.arg 1
  let q := p.queueOf pi qi
  let desc := bf v 127 64
  let fail := fun (r : FrontR) =>
    match r with
    | .fault g => p.queuePage pi qi g
    | .fatal c a r => r.schedFatal pi c a
    | .refuse => p.queueFail pi qi 4 n
    | .ok _ _ => p
  match p.frontRead pi q.asid q.priv none desc 64 with
  | .ok d0 r0 =>
    let nws := min 8 (bf d0 127 124)
    match r0.frontRead pi q.asid q.priv none desc (64 + 32 * nws) with
    | .ok d r =>
      let l := launchOf pi qi q d (bf v 191 128) (bf v 255 192) range
      let id := r.nid
      let add := fun (l : Launch) =>
        { r with nid := id + 1, launches := SMap.set r.launches id l }.updQueue pi qi fun q => { q with lseq := q.lseq + 1 }
      match launchCheck r.fabric (r.part pi) q.eng (desc % 64 == 0) d l with
      | .error (st, det, a) =>
        let p1 := (add { l with st := .ended, status := st, detail := det, addr := a, range := none }).later 1 .completionRecordWrite [id]
        (p1.passed pi qi n).launchStatus pi qi st
      | .ok ws =>
        let l := { l with ws := ws, strict := ws.any (·.strict) }
        match range with
        | some (lo, hi, _) =>
          if hi ≤ lo then ((add { l with st := .retired, range := none }).later 1 .completionRecordWrite [id]).passed pi qi n
          else (((add l).updPart pi fun x => { x with huddle := x.huddle ++ [id] }).passed pi qi n).admitNext pi
        | none => ((add l).passed pi qi n).admitNext pi
    | .fault g => fail (.fault g) | .fatal c a r => fail (.fatal c a r) | .refuse => fail .refuse
  | .fault g => fail (.fault g) | .fatal c a r => fail (.fatal c a r) | .refuse => fail .refuse

def execLaunchPacket (s : State) : Res :=
  onPanel (fun p => p.packet 0x02 (fun v => bf v 63 32 != 0 || compBad (bf v 255 192)) 0 fun _ n v => p.launchPkt n v none) s

/-- LAUNCHRANGE: waits while the huddle queue holds 256 tasks (R443). -/
def execLaunchrange (s : State) : Res :=
  onPanel (fun p =>
    p.packet 0x03 (fun v => bf v 63 32 != 0 || compBad (bf v 255 192) || bf v 447 384 == 0 || bf v 511 448 != 0) 0 fun _ n v =>
      if 256 ≤ (p.part (p.arg 0)).huddle.length then p.queueWait (p.arg 0) (p.arg 1)
      else p.launchPkt n v (some (bf v 319 256, bf v 383 320, bf v 447 384))) s

/-! ### Admission and staging (R161, R434, R435, R439) -/

/-- The pages of a range. -/
def pagesFrom (va len : Nat) : List Nat := upto (va / 65536) ((va + len - 1) / 65536 - va / 65536 + 1)

/-- What forming a lease finds. -/
inductive LeaseR where
  | ok
  | fault (page : Nat)
  | unmapped (i : Nat)
  | fatal (cause va : Nat)
  deriving DecidableEq, Repr

/-- The pages of the declarations walked, checked against ACCESS and pinned, one after another (R161): index, page, access. -/
def Panel.leaseScan (p : Panel) (id : Nat) : List (Nat × Nat × Nat) → LeaseR × Panel
  | [] => (.ok, p)
  | (i, g, a) :: t =>
    let l := p.launch id
    match p.frontWalk l.part l.asid g with
    | (.fatal c, q) => (.fatal c (g * 65536), q)
    | (.notPresent, q) => (if l.rref ∧ l.rpage = some g then .unmapped i else .fault g, q)
    | (.ok e, q) =>
      if permitted e.attr a l.priv then
        Panel.leaseScan (q.updLaunch id fun l => { l with lease := if l.lease.contains g then l.lease else l.lease ++ [g] }) id t
      else (.unmapped i, q)

/-- A TARGET 1 range cut into staging commands of one 64 KiB page each. -/
def stageCuts (id va len : Nat) : List Stage :=
  (pagesFrom va len).map fun g =>
    let a := max va (g * 65536)
    let e := min (va + len) ((g + 1) * 65536)
    { launch := id, core := 0, off := 0, va := a, len := e - a, done := 0 }

/-- The cluster that takes staging command `i`: round-robin over the partition's clusters in chiplet ordinal order (R435). -/
def stageCluster (q : Partition) (i : Nat) : Nat :=
  let n := i % (24 * (q.wc * q.hc))
  let o := n / 24
  ((q.cy0 + o / q.wc) * 16 + q.cx0 + o % q.wc) * 24 + n % 24

/-- A command put on a cluster's staging path (R377). -/
def Panel.stageOn (p : Panel) (cl : Nat) (x : Stage) : Panel :=
  ({ p with nid := p.nid + 1 }.updCluster cl fun c => { c with stage := c.stage ++ [{ x with num := p.nid, tot := x.len }] }).once 1 .engineLineData [1, cl, 0]

/-- The staging of a launch begun: its commands, or at once the end of staging (R432, R435). -/
def Panel.startStaging (p : Panel) (id : Nat) : Panel :=
  let l := p.launch id
  let cuts := (l.ws.filter fun w => w.target == 1).flatMap fun w => stageCuts id w.va w.len
  if cuts = [] then p.once 1 .stagingComplete [id]
  else
    let base := (p.part l.part).stageRr
    let p1 := ((List.range cuts.length).zip cuts).foldl (fun q e => q.stageOn (stageCluster (p.part l.part) (base + e.1)) e.2) p
    p1.updPart l.part fun x => { x with stageRr := base + cuts.length }

/-- A launch waits for a page before the Memory core (R161, R430). -/
def Panel.launchPage (p : Panel) (id page : Nat) : Panel :=
  (p.updLaunch id fun l => { l with rpage := some page, rref := false }).askPage (p.launch id).part (p.launch id).asid page

/-- The launch admitted: lease formed, weight set latched with its ARG stored, staging begun (R161, R434, R439). `ws` adds the weight
set's ranges; `arg` is its ARG and GEN. -/
def Panel.admitLaunch (p : Panel) (id : Nat) (ws : List Ws) (arg : Option (Nat × Nat)) : Panel :=
  let l := p.launch id
  let all := l.ws ++ ws
  let pages := ((List.range all.length).zip all).flatMap fun e => (pagesFrom e.2.va e.2.len).map fun g => (e.1, g, e.2.access)
  match p.leaseScan id pages with
  | (.fault g, p) => p.launchPage id g
  | (.unmapped i, p) => (p.updLaunch id fun l => { l with detail := i }).endLaunch id 3 0
  | (.fatal c a, p) => p.schedFatal l.part c a
  | (.ok, p) =>
    let go := fun (q : Panel) =>
      let q1 := q.updLaunch id fun l =>
        { l with
          st := .staging, ws := all, admittedAt := q.now, rpage := none, rref := false
          wsel := (q.queueOf l.part l.queue).wsel, gen := match arg with | some a => a.2 | none => 0 }
      ((q1.updPart l.part fun x => { x with admitRr := SMap.set x.admitRr (l.prio / 16) l.queue }).startStaging id).admitNext l.part
    match arg with
    | none => go p
    | some (v, _) =>
      match p.frontWrite l.part l.asid l.priv l.arg 8 v with
      | .ok _ q => go q
      | .fault g => if l.rref ∧ l.rpage = some g then go p else p.launchPage id g
      | .refuse => go p
      | .fatal c a r => r.schedFatal l.part c a

/-- A weight-set descriptor that cannot be read: the queue error FETCH (R424, R429), and the launch, which can latch no set, ends with BAD_DESC
(DESIGN CHOICE, log 82: no rule says what becomes of it). -/
def Panel.weightFail (p : Panel) (id : Nat) : Panel := (p.endLaunch id 6 0).queueStop (p.launch id).part (p.launch id).queue 4

/-- ADMISSION: of the launch whose turn it is (R434). A queue's weight set is latched; a descriptor that breaks R438 ends the launch
with BAD_DESC (R439). -/
def execAdmission (s : State) : Res :=
  onPanel (fun p =>
    let id := p.arg 1
    let l := p.launch id
    if (p.part (p.arg 0)).schedHalted ∨ p.nextAdmit (p.arg 0) ≠ some id ∨ (l.rpage.isSome ∧ !l.rref) then p
    else
      let wsel := (p.queueOf l.part l.queue).wsel
      if wsel = 0 then p.admitLaunch id [] none
      else if wsel % 64 ≠ 0 then p.endLaunch id 6 0
      else
        match p.frontRead l.part l.asid l.priv none wsel 64 with
        | .ok v r =>
          (match weightWs v with
          | none => r.endLaunch id 6 0
          | some ws => r.admitLaunch id ws (some (bf v 127 64, bf v 31 0)))
        | .fault g => if l.rref ∧ l.rpage = some g then p.weightFail id else p.launchPage id g
        | .refuse => p.weightFail id
        | .fatal c a r => r.schedFatal l.part c a) s

/-- Every block of a launch has been placed, and every piece of its task handed out (R432, R445). -/
def Launch.allPlaced (l : Launch) : Bool :=
  match l.range with
  | some r => decide (r.2.1 ≤ r.1) && l.slots == []
  | none => decide (l.blocks ≤ l.nextBlock)

/-- Blocks of a launch. -/
def Panel.blocksOf (p : Panel) (id : Nat) : List (Nat × Block) := p.blocks.filter fun (e : Nat × Block) => e.2.launch == id

/-- A block that stands on its cores. -/
def Block.standing (b : Block) : Bool := b.st == .resident || b.st == .taking

/-- A launch that has been pre-empted and has no resident block left cancels its staging, and releases its lease once the lines in flight have
been finished (R163, R437, R464). -/
def Panel.preempted (p : Panel) (id : Nat) : Panel :=
  let l := p.launch id
  if !l.preempt ∨ !l.live ∨ l.st = .staging ∨ (p.blocksOf id).any (fun (e : Nat × Block) => e.2.standing) then p
  else
    let q := { p with clusters := p.clusters.map fun (e : Nat × Cluster) => (e.1, { e.2 with stage := e.2.stage.filterMap (Stage.cancel id) }) }
    if q.clusters.any fun (e : Nat × Cluster) => e.2.stage.any fun (x : Stage) => x.launch == id then q.later 1 .stagingComplete [id]
    else (q.updLaunch id fun l => { l with preempt := false }).releaseLease id

/-- STAGING_COMPLETE: every TARGET 1 range is resident (R432). A launch that was pre-empted goes on where it stood; the lease of one that has been
pre-empted since is released (R464). -/
def execStagingComplete (s : State) : Res :=
  onPanel (fun p =>
    let id := p.arg 0
    if (p.launch id).st = .staging ∧ !(p.clusters.any fun (e : Nat × Cluster) => e.2.stage.any fun (x : Stage) => x.launch == id && x.core == 0) then
      p.updLaunch id fun l => { l with st := if l.allPlaced then .placed else .placing }
    else p.preempted id) s

/-! ### Completion records (R430, R437) -/

/-- An access of a launch that has left its core is not performed yet, or an engine or staging command of it has not completed or stopped at its
line (R163, R165, R437). -/
def Panel.launchBusy (p : Panel) (id : Nat) : Bool :=
  let mine := fun (tag : Nat) => tag != 0 && (p.block tag).launch == id
  ((p.accs.map (·.2)).any fun a => a.stage.open_ && mine a.btag) ||
  (p.cores.any fun (e : Nat × Core) => (e.2.walk.busy && mine e.2.walk.btag) || (e.2.pf ++ e.2.drop ++ e.2.mcrd).any fun x => mine x.btag) ||
  p.clusters.any fun (e : Nat × Cluster) => (e.2.stage.any fun (x : Stage) => x.launch == id) || (e.2.relay.any fun (x : Nat × Chan) => x.2.busy && mine x.2.btag) || e.2.hoop.cmds.any fun x => mine x.btag

/-- The record of a launch (R430). -/
def recordWord (l : Launch) : Nat :=
  l.status + l.detail % 256 * 2 ^ 8 + l.gen * 2 ^ 32 + l.addr % 2 ^ 64 * 2 ^ 64 + l.seq % 2 ^ 64 * 2 ^ 128 + l.used % 2 ^ 64 * 2 ^ 192

/-- The launch is over: counts, lease, the next admission. -/
def Panel.recordDone (p : Panel) (id : Nat) : Panel :=
  let l := p.launch id
  let p1 := (p.updLaunch id fun l => { l with recorded := true, rpage := none, rref := false }).releaseLease id
  ((p1.updQueue l.part l.queue fun q =>
    { q with ndone := q.ndone + 1, nerr := if l.status = 0 then q.nerr else q.nerr + 1 }).flushQueue l.part l.queue).admitNext l.part

/-- COMPLETION_RECORD_WRITE: once every access of the launch has been performed, 32 bytes at COMP; a refused page or a leaf without W
is COMPFAULT (R430). -/
def execCompletionRecordWrite (s : State) : Res :=
  onPanel (fun p =>
    let id := p.arg 0
    let l := p.launch id
    if l.live ∨ l.recorded ∨ (l.rpage.isSome ∧ !l.rref) then p
    else if p.launchBusy id then p.later 1 .completionRecordWrite [id]
    else if l.comp = 0 then p.recordDone id
    else
      match p.frontWrite l.part l.asid l.priv l.comp 32 (recordWord l) with
      | .ok _ q => q.recordDone id
      | .refuse => (p.recordDone id).queueStop l.part l.queue 8
      | .fault g => if l.rref ∧ l.rpage = some g then (p.recordDone id).queueStop l.part l.queue 8 else p.launchPage id g
      | .fatal c a r => r.schedFatal l.part c a) s

/-! ### Energy (R441, R442) -/

/-- What the cores counted for a launch since the last charge, in pJ. -/
def Panel.counted (p : Panel) (id : Nat) : Nat := p.cores.foldl (fun n (e : Nat × Core) => n + SMap.getD e.2.energy id 0) 0

/-- A launch charged: whole µJ, the remainder carried; a budget that would fall below 0 is reloaded and the launch's blocks fall
one class (R441, R442). -/
def Panel.chargeLaunch (p : Panel) (id : Nat) : Panel :=
  let l := p.launch id
  let t := p.counted id + l.carry
  let u := t / 1000000
  let p1 := p.updLaunch id fun l => { l with used := l.used + u, carry := t % 1000000 }
  if l.budget = 0 ∨ !l.live then p1
  else if u ≤ l.ebudget then p1.updLaunch id fun l => { l with ebudget := l.ebudget - u }
  else
    let p2 := p1.updLaunch id fun l => { l with ebudget := l.budget }
    let p3 := { p2 with blocks := p2.blocks.map fun (e : Nat × Block) => (e.1, if e.2.launch = id then { e.2 with prio := e.2.prio - 16 } else e.2) }
    p3.mailTo 5 0x0005 [l.seq]

/-- ENERGY_CHARGE, every 4,096 cycles (R441). -/
def execEnergyCharge (s : State) : Res :=
  onPanel (fun p =>
    let pi := p.arg 0
    let ids := (p.launches.filter fun (e : Nat × Launch) => e.2.part == pi).map (·.1)
    let p1 := ids.foldl Panel.chargeLaunch p
    let p2 := { p1 with cores := p1.cores.map fun (e : Nat × Core) => (e.1, { e.2 with energy := e.2.energy.filter fun x => !ids.contains x.1 }) }
    if (SMap.find p.parts pi).isSome then p2.once 4096 .energyCharge [pi] else p2) s

/-! ### Range tasks (R443-R445) -/

/-- Chiplet ordinal of a core in a partition (R117). -/
def chipOrd (q : Partition) (ch : Nat) : Nat := (ch / 16 - q.cy0) * q.wc + (ch % 16 - q.cx0)

/-- Entry of a list kept in rising order of its first number. -/
def insBy {α : Type} (k : Nat) (x : α) : List (Nat × α) → List (Nat × α)
  | [] => [(k, x)]
  | (j, y) :: t => if k < j then (k, x) :: (j, y) :: t else (j, y) :: insBy k x t

/-- A tree node closes: one fetch-and-add with its requests goes to the root (R444). -/
def Panel.closeNode (p : Panel) (pi ch : Nat) (reqs : List (Nat × Nat)) : Panel :=
  (p.updPart pi fun x => { x with nodes := SMap.del x.nodes ch, fadds := insBy (p.now * 1024 + chipOrd x ch) reqs x.fadds }).later 1
    .huddleFetchAdd [pi]

/-- HUDDLE_WINDOW_CLOSE: 16 cycles after the first request, one fetch-and-add goes to the root; of those that arrive in one cycle the lower chiplet ordinal is served first (R444). -/
def execHuddleWindowClose (s : State) : Res :=
  onPanel (fun p =>
    let pi := p.arg 0
    let ch := p.arg 1
    match SMap.find (p.part pi).nodes ch with
    | none => p
    | some nd =>
      if p.now < nd.opened + 16 then p else p.closeNode pi ch nd.reqs) s

/-- The root's answer to one request: a piece of the task, or none, and the slot is released (R444). -/
def Panel.handPiece (p : Panel) (r : Nat × Nat) : Panel :=
  let p := p.updLaunch r.1 fun l => { l with asked := l.asked.erase r.2 }
  let l := p.launch r.1
  match l.range with
  | none => p
  | some (a, b, grain) =>
    let n := b - a
    if n = 0 ∨ !l.live then p
    else
      let h := if 2 * grain ≤ n then grain * (n / grain / 2) else n
      let p1 := p.updLaunch r.1 fun l =>
        { l with range := some (a + h, b, grain), pieces := l.pieces + 1, slots := l.slots ++ [(r.2, l.pieces, a, a + h)] }
      if h = n then p1.updPart l.part fun x => { x with huddle := x.huddle.filter (· != r.1) } else p1

/-- HUDDLE_FETCH_ADD: the root serves the next node, its requests in ascending order of their origins' core index (R444). -/
def execHuddleFetchAdd (s : State) : Res :=
  onPanel (fun p =>
    let pi := p.arg 0
    match (p.part pi).fadds with
    | [] => p
    | (_, rs) :: t =>
      let sorted := (rs.foldl (fun (m : List (Nat × (Nat × Nat))) r => insBy (coreIdx r.2) r m) []).map (·.2)
      let p1 := sorted.foldl Panel.handPiece (p.updPart pi fun x => { x with fadds := t })
      if t = [] then p1 else p1.later 1 .huddleFetchAdd [pi]) s

/-! ### PAGE_RESOLUTION (R158) -/

/-- What the front end does with a decided page: queues that wait for it go on or take FETCH, copies go on or take COPYFAULT, launches
and their records are tried again (R158, R161, R429, R430). -/
def Panel.frontPages (p : Panel) (pi asid page : Nat) (refuse : Bool) : Panel :=
  let x := p.part pi
  let qs := x.queues.filter fun (e : Nat × Queue) => e.2.asid == asid && e.2.fpage == some page
  let p1 := qs.foldl (fun r e =>
    let r1 := r.updQueue pi e.1 fun q => { q with fpage := none }
    if refuse then
      r1.queueFail pi e.1 4 (match e.2.next with
        | .pkt _ _ n _ => n
        | .none => e.2.headLen | .read _ => e.2.headLen | .bad _ _ => e.2.headLen | .endBuf => 0 | .skip n => n)
    else if e.2.state = 3 then r1.retest pi e.1
    else r1.parseOn pi e.1) p
  let cs := x.copies.filter fun (e : Nat × Copy) => e.2.asid == asid && e.2.fpage == some page
  let p2 := cs.foldl (fun r e =>
    if refuse then (r.updPart pi fun x => { x with copies := SMap.del x.copies e.1 }).queueStop pi e.2.queue 6
    else (r.updPart pi fun x => { x with copies := SMap.set x.copies e.1 { e.2 with fpage := none } }).later 1 .copyComplete [pi, e.1]) p1
  let ls := p2.launches.filter fun (e : Nat × Launch) => e.2.part == pi && e.2.asid == asid && e.2.rpage == some page
  ls.foldl (fun r e =>
    (r.updLaunch e.1 fun l => if refuse then { l with rref := true } else { l with rpage := none, rref := false }).later 1
      (if e.2.live then .admission else .completionRecordWrite) (if e.2.live then [pi, e.1] else [e.1])) p2

/-- PAGE_RESOLUTION: the Memory core maps or refuses a faulting page (R158), but not while it holds a leased change to it; a change that a lease
holds off is deferred (R162). Operands: partition, address space, page, refuse,
writes. -/
def execPageResolution (s : State) : Res :=
  onPanel (fun p =>
    let pi := p.arg 0
    let asid := p.arg 1
    let page := p.arg 2
    let refuse := p.arg 3 != 0
    let writes := p.ev.drop 4
    if !(p.part pi).faults.contains (asid, page) ∨ (p.part pi).deferred.any (fun d => d.1 == asid && d.2.1 == page) then p
    else if !refuse ∧ p.pinHolds pi asid page writes then p.deferChange pi asid page writes
    else (p.resolvePage pi asid page refuse writes).frontPages pi asid page refuse) s

end Sys2Proof.Machine
end

