-- ==== Sys2Proof/Machine/Place.lean ====
section
/-! DEFINITION. Placement and retirement of blocks, swap, pre-emption, re-admission, and messages for absent blocks
(R29, R82, R115, R203-R210, R227, R364, R398, R455-R465). -/

namespace Sys2Proof.Machine

/-! ### Room for a block (R29, R115, R205, R206, R208, R234, R364) -/

/-- The blocks that stand on a core or cluster, but for those of a list. -/
def Panel.onCore (p : Panel) (gone : List Nat) (lc : Nat) : List (Nat × Block) :=
  p.blocks.filter fun (e : Nat × Block) => e.2.standing && !gone.contains e.1 && (blockCores e.2).contains lc

def Panel.onCluster (p : Panel) (gone : List Nat) (cl : Nat) : List (Nat × Block) :=
  p.blocks.filter fun (e : Nat × Block) => e.2.standing && !gone.contains e.1 && (blockClusters e.2).contains cl

/-- The assignable slots of a core that are free, those of `gone` blocks counted free. -/
def Panel.freeSlots (p : Panel) (gone : List Nat) (lc : Nat) : List Nat :=
  (List.range 12).filter fun s => let c := p.ctx lc s; c.st == .empty || gone.contains c.btag

/-- The register windows taken on a core: start and size in bytes. -/
def Panel.windows (p : Panel) (gone : List Nat) (lc : Nat) : List (Nat × Nat) :=
  ((p.core lc).ctxs.filter fun (e : Nat × Ctx) => e.2.st != .empty && e.2.rsSize != 0 && !gone.contains e.2.btag).map fun e =>
    (64 * e.2.rsBase, 64 * e.2.rsSize)

/-- Runs that share no byte with each other. -/
def apart : List (Nat × Nat) → Bool
  | [] => true
  | a :: t => (t.all fun b => !rangesMeet a.1 a.2 b.1 b.2) && apart t

/-- The block slots that range launches hold reserved: origin and launch (R443). -/
def Panel.reserved (p : Panel) : List ((Nat × Nat) × Launch) :=
  p.launches.flatMap fun (e : Nat × Launch) =>
    if e.2.live then (e.2.asked ++ e.2.slots.map (·.1)).map fun lc => ((cx lc, cy lc), e.2) else []

/-- The launches with a block slot on a core, or on a cluster. -/
def slotsOn (rs : List ((Nat × Nat) × Launch)) (lc : Nat) : List Launch :=
  (rs.filter fun r => (rectCores r.1.1 r.1.2 r.2.w r.2.h).contains lc).map (·.2)

def slotsOnCluster (rs : List ((Nat × Nat) × Launch)) (cl : Nat) : List Launch :=
  (rs.filter fun r => ((rectCores r.1.1 r.1.2 r.2.w r.2.h).map clusterOf).contains cl).map (·.2)

/-- What launches ask of a core, added up. -/
def total (f : Launch → Nat) (ls : List Launch) : Nat := ls.foldl (fun n l => n + f l) 0

/-- What a block asks of its cores. -/
structure Need where
  part : Nat
  asid : Nat
  q : Nat
  w : Nat
  h : Nat
  kib : Nat
  regs : Nat
  hoop : Bool
  fused : Bool
  deriving DecidableEq, Repr

def Launch.need (l : Launch) : Need :=
  ⟨l.part, l.asid, l.quota, l.w, l.h, l.kib, l.regs, l.hoop, l.fused⟩

/-- The register window, in bytes, of thread `t` of a block (ci × q + o), where the scheduler puts it: operands from the sixth on
name each thread's base in 64-byte units; without them the windows of a core follow one another. -/
def rsPlace (n : Need) (rsbase : Nat) (bases : List Nat) (t : Nat) : Nat := 64 * (bases[t]?).getD (rsbase + t % n.q * (n.regs / 64))

/-- New register windows lie in register space and meet neither each other nor those taken. -/
def windowsOk (mine taken : List (Nat × Nat)) : Bool := (mine.all fun m => decide (m.1 + m.2 ≤ 65536)) && apart (mine ++ taken)

/-- A rectangle has room for a block: in the partition, its cores in service, enough slots, its local window and its register
windows free, and the cluster rules of Hoop and fused L1 kept; what block slots reserve counts as taken, their windows by size (R443; log 83,
DESIGN CHOICE). A core to which a staged line of an ended launch is on its way has none (R163, R437). -/
def Panel.room (p : Panel) (n : Need) (gone : List Nat) (ox oy lmb rsbase : Nat) (bases : List Nat) : Bool :=
  let cs := rectCores ox oy n.w n.h
  let rs := p.reserved
  rectIn (p.part n.part) ox oy n.w n.h && cs.all (validCore p.fabric) && cs.all (fun c => !(p.core c).failed) &&
    (!(n.hoop || n.fused) || (ox % 4 == 0 && oy % 2 == 0)) &&
    ((cs.map clusterOf).eraseDups.all fun cl =>
      let there := p.onCluster gone cl
      let kept := slotsOnCluster rs cl
      (!n.hoop || (!(there.any fun e => e.2.hoop) && !(kept.any (·.hoop)))) &&
        (if n.fused then
            (there.all fun e => e.2.fused && e.2.part == n.part && e.2.asid == n.asid) &&
              kept.all fun l => l.fused && l.part == n.part && l.asid == n.asid
          else !(there.any fun e => e.2.fused) && !(kept.any (·.fused)))) &&
    (lmb + n.kib ≤ 256 && (n.kib != 0 || lmb == 0)) &&
    (((List.range cs.length).zip cs).all fun e =>
      let kept := slotsOn rs e.2
      decide (n.q + total (·.quota) kept ≤ (p.freeSlots gone e.2).length) &&
        decide (n.kib + total (·.kib) kept + ((p.onCore gone e.2).foldl (fun m b => m + b.2.lmSize) 0) ≤ 256) &&
        decide (n.regs * n.q + total (fun l => l.regs * l.quota) kept + ((p.windows gone e.2).foldl (fun m w => m + w.2) 0) ≤ 65536) &&
        !((p.cluster (clusterOf e.2)).stage.any fun x => x.dying && x.core == e.2 + 1) &&
        ((p.onCore gone e.2).all fun b => n.kib == 0 || b.2.lmSize == 0 || !rangesMeet lmb n.kib b.2.lmBase b.2.lmSize) &&
        (n.regs == 0 || windowsOk ((List.range n.q).map fun o => (rsPlace n rsbase bases (e.1 * n.q + o), n.regs)) (p.windows gone e.2)))

/-- The lowest base, from `b` on, of a run of `n` that meets none of the taken runs. -/
def firstFit (taken : List (Nat × Nat)) (n lim : Nat) : Nat → Nat → Option Nat
  | 0, _ => none
  | k + 1, b =>
    if lim < b + n then none
    else
      match taken.find? fun t => rangesMeet b n t.1 t.2 with
      | none => some b
      | some t => firstFit taken n lim k (t.1 + t.2)

/-- Register windows for the threads of one core, first fit. -/
def fitWindows (n : Need) : Nat → List (Nat × Nat) → Option (List Nat)
  | 0, _ => some []
  | k + 1, taken =>
    match firstFit taken n.regs 65536 (taken.length + 1) 0 with
    | none => none
    | some b => (fitWindows n k ((b, n.regs) :: taken)).map fun t => b / 64 :: t

/-- First-fit places for a block at an origin: window base and register bases. -/
def Panel.fitAt (p : Panel) (n : Need) (gone : List Nat) (ox oy : Nat) : Option (Nat × List Nat) :=
  let cs := rectCores ox oy n.w n.h
  let used := (cs.flatMap fun c => (p.onCore gone c).map fun b => (b.2.lmBase, b.2.lmSize)).eraseDups
  let lmb := if n.kib = 0 then some 0 else firstFit (used.filter fun u => u.2 != 0) n.kib 256 (used.length + 1) 0
  let wins := if n.regs = 0 then some [] else
    cs.foldl (fun (m : Option (List Nat)) c => match m, fitWindows n n.q (p.windows gone c) with
      | some a, some b => some (a ++ b)
      | _, _ => none) (some [])
  match lmb, wins with
  | some b, some ws => if p.room n gone ox oy b 0 ws then some (b, ws) else none
  | _, _ => none

/-- Origins at which a block may stand: one for a pinned block, else those of the partition (R205, R206). -/
def origins (q : Partition) (pin : Option (Nat × Nat)) : List (Nat × Nat) :=
  match pin with
  | some o => [o]
  | none => (List.range (192 * (q.wc * q.hc))).map fun i => (16 * q.cx0 + i % (16 * q.wc), 12 * q.cy0 + i / (16 * q.wc))

def Panel.fits (p : Panel) (n : Need) (gone : List Nat) (pin : Option (Nat × Nat)) : Option (Nat × Nat) :=
  (origins (p.part n.part) pin).find? fun o => (p.fitAt n gone o.1 o.2).isSome

/-! ### Pre-emption (R463-R465) -/

/-- The block becomes TAKING (R456). -/
def Panel.take (p : Panel) (tag : Nat) : Panel :=
  (p.updBlock tag fun b => { b with st := .taking, taken := [] }).later 1 .blockCapture [tag]

/-- A yield request to a victim (R463). -/
def Panel.yieldRequest (p : Panel) (tag : Nat) : Panel :=
  let b := p.block tag
  let d := max 1 (p.part b.part).yieldDl
  ((p.updBlock tag fun b => { b with yieldAt := some (p.now + d), yieldLate := false }).take tag).later (d + 1) .yieldDeadline [tag]

/-- The priority class of the launch of a block (R462, R463). -/
def Panel.launchClass (p : Panel) (b : Block) : Nat := (p.launch b.launch).prio / 16

/-- Victims in order: blocks of launches of the lowest class first, and in a class the most recently placed (R463). -/
def Panel.victims (p : Panel) (part cls : Nat) : List (Nat × Block) :=
  let vs := p.blocks.filter fun (e : Nat × Block) => e.2.st == .resident && e.2.part == part && decide (p.launchClass e.2 < cls) && !e.2.pinned
  (List.range cls).flatMap fun k =>
    ((vs.filter fun e => p.launchClass e.2 == k).mergeSort fun a b => decide (b.2.placedAt ≤ a.2.placedAt))

/-- The launch finds no cores free: victims are chosen until a rectangle would be free, and those that stand on it get a yield
request (R463). -/
def Panel.preempt (p : Panel) (n : Need) (cls : Nat) (pin : Option (Nat × Nat)) : Panel :=
  let vs := p.victims n.part cls
  match ((List.range (vs.length + 1)).findSome? fun k =>
      (p.fits n ((vs.take k).map (·.1)) pin).map fun o => (k, o)) with
  | none => p
  | some (k, o) =>
    let cls := ((rectCores o.1 o.2 n.w n.h).map clusterOf).eraseDups
    let cs := rectCores o.1 o.2 n.w n.h
    let near := (vs.take k).filter fun e =>
      (blockCores e.2).any cs.contains || ((n.hoop || n.fused || e.2.fused) && (blockClusters e.2).any cls.contains)
    near.foldl (fun q e => q.yieldRequest e.1) p

/-! ### Placement (R82, R209, R210, R364, R398, R428, R435) -/

/-- Seeds of the thread of ordinal `o` on the core of index `ci` (R209, R210). -/
def seedCtx (l : Launch) (tag idx lo hi ci o rs now : Nat) : Ctx :=
  let g14 := if l.stack = 0 then 0 else l.kib * 1024 - o * l.stack
  let ord := ci * l.quota + o
  let g := [0, l.arg, idx, ord, lo, hi, 0, 0, 0, 0, 0, 0, 0, 0, g14, 0]
  { st := .ready, g := Vector.ofFn fun i => w64 (g.getD i.val 0), pc := w64 l.entry, thread := w64 ord, ord := o, btag := tag
    bx := ci % l.w, by_ := ci / l.w, rsBase := if l.regs = 0 then 0 else rs / 64, rsSize := l.regs / 64, since := now }

/-- A window cleared: bytes zero, words empty (R82). -/
def Panel.clearWindow (p : Panel) (lc base size : Nat) : Panel :=
  let lo := base * 1024
  let n := size * 1024
  ({ p with mem := Memory.clear p.mem (lmA lc lo) n }).updCore lc fun c =>
    { c with
      fe := c.fe.filter fun w => !(decide (lo ≤ 8 * w) && decide (8 * w < lo + n))
      dirty := (upto base size).foldl (fun d x => if d.contains x then d else d ++ [x]) c.dirty }

/-- The array and Osier state of a cluster reset for its Hoop block (R364, R398). -/
def Panel.resetArrays (p : Panel) (cl : Nat) : Panel :=
  let mem := (List.range 8).foldl (fun m k => Memory.clear m (rsA (clusterCore cl k) 0x10000) 0x1000) p.mem
  { p with mem := mem }.updCluster cl fun c => { c with hoop := { reqs := c.hoop.reqs }, cells := [], doms := [], oacts := [], strokes := [] }

/-- A cluster becomes fused: its data caches are invalidated (R115). -/
def Panel.fuseOn (p : Panel) (cl : Nat) : Panel :=
  if (p.cluster cl).fused then p else (dropFused p cl).updCluster cl fun c => { c with fused := true }

/-- The clusters of a block that no other fused block holds become unfused (R115). -/
def Panel.unfuse (p : Panel) (tag : Nat) : Panel :=
  ((blockClusters (p.block tag)).filter fun cl => (p.cluster cl).fused && !((p.onCluster [tag] cl).any fun e => e.2.fused)).foldl
    (fun q cl => (dropFused q cl).updCluster cl fun c => { c with fused := false }) p

/-- One core of a block seeded: its window, its register windows, its contexts in ascending free slots (R82, R208, R209). -/
def Panel.seedCore (p : Panel) (l : Launch) (tag idx lo hi lmb : Nat) (rs : Nat → Nat) (ci lc : Nat) : Panel :=
  let p1 := p.clearWindow lc lmb l.kib
  let slots := (p1.freeSlots [] lc).take l.quota
  let p2 := ((List.range slots.length).zip slots).foldl (fun q e =>
    let b := rs (ci * l.quota + e.1)
    let q1 := { q with mem := Memory.clear q.mem (rsA lc b) l.regs }
    q1.setCtx lc e.2 (seedCtx l tag idx lo hi ci e.1 b p.now)) p1
  (p2.updCore lc fun c => { c with blk := SMap.set c.blk tag {} }).rouse lc

/-- The TARGET 2 copies of a block: one command per core on its cluster's staging path (R435). -/
def Panel.stageWindows (p : Panel) (id lmb : Nat) (cs : List Nat) : Panel :=
  ((p.launch id).ws.filter fun w => w.target == 2).foldl (fun q w =>
    cs.foldl (fun q lc => q.stageOn (clusterOf lc) { launch := id, core := lc + 1, off := lmb * 1024 + w.lmoff, va := w.va, len := w.len, done := 0 }) q) p

/-- A new block placed (R209). `piece`: index, lo, hi. Its PRIO is the launch's, after an exhausted budget, too: R442 lowers the PRIO of the launch's
blocks and says nothing of blocks placed later (log 84, DESIGN CHOICE). -/
def Panel.placeBlock (p : Panel) (id : Nat) (piece : Nat × Nat × Nat) (ox oy lmb rsbase : Nat) (bases : List Nat) : Panel :=
  let l := p.launch id
  let n := l.need
  let tag := p.nextTag
  let b : Block :=
    { launch := id, part := l.part, idx := piece.1, ox := ox, oy := oy, w := l.w, h := l.h, q := l.quota, lmBase := lmb, lmSize := l.kib
      prio := l.prio, priv := l.priv, pinned := l.pinned, fused := l.fused, hoop := l.hoop, replayable := bt l.flags 3, light := l.regs == 0
      regs := l.regs, asid := l.asid, placedAt := p.now }
  let p1 := { p with nextTag := tag + 1, blocks := SMap.set p.blocks tag b }
  let p2 := if l.hoop then (blockClusters b).foldl (fun q cl => q.resetArrays cl) p1 else p1
  let p3 := if l.fused then (blockClusters b).foldl (fun q cl => q.fuseOn cl) p2 else p2
  let cs := blockCores b
  let p4 := ((List.range cs.length).zip cs).foldl (fun q e => q.seedCore l tag piece.1 piece.2.1 piece.2.2 lmb (rsPlace n rsbase bases) e.1 e.2) p3
  let p5 := p4.stageWindows id lmb cs
  p5.updLaunch id fun l =>
    let next := l.nextBlock + 1
    let slots := l.slots.filter fun (e : Nat × Nat × Nat × Nat) => e.2.1 != piece.1
    let l := { l with nextBlock := next, slots := slots }
    { l with st := if l.allPlaced then .placed else l.st }

/-- HUDDLE_REQUEST: the scheduler reserves a block slot at an origin with room, and its request comes to the tree node of the origin's chiplet,
which opens a window of 16 cycles at its first request and closes at the 64th (R443, R444). -/
def execHuddleRequest (s : State) : Res :=
  onPanel (fun p =>
    let id := p.arg 0
    let lc := p.arg 1
    let l := p.launch id
    let x := p.part l.part
    let ch := chipOf lc
    if l.st ≠ .placing ∨ l.range = none ∨ x.schedHalted ∨ l.asked.contains lc ∨ (l.slots.any fun e => e.1 == lc) ∨
        (p.fitAt l.need [] (cx lc) (cy lc)).isNone then p
    else
      let q := p.updLaunch id fun l => { l with asked := l.asked ++ [lc] }
      match SMap.find x.nodes ch with
      | none => (q.updPart l.part fun x => { x with nodes := SMap.set x.nodes ch ⟨[(id, lc)], p.now⟩ }).later 16 .huddleWindowClose [l.part, ch]
      | some nd =>
        let reqs := nd.reqs ++ [(id, lc)]
        if 64 ≤ reqs.length then q.closeNode l.part ch reqs
        else q.updPart l.part fun x => { x with nodes := SMap.set x.nodes ch { nd with reqs := reqs } }) s

/-- The launch without the block slot that a piece stands on. -/
def Panel.unreserve (p : Panel) (id idx : Nat) : Panel :=
  p.updLaunch id fun l => { l with slots := l.slots.filter fun (e : Nat × Nat × Nat × Nat) => e.2.1 != idx }

/-- BLOCK_PLACEMENT: the next block of a PLACING launch at an origin with room, after absent blocks of its class or above have been
re-admitted (R462); with no room anywhere, victims are asked to yield (R463). -/
def execBlockPlacement (s : State) : Res :=
  onPanel (fun p =>
    let id := p.arg 1
    let ox := p.arg 2
    let oy := p.arg 3
    let l : Launch := p.launch id
    let x := p.part (p.arg 0)
    let bases := p.ev.drop 6
    let piece : Option (Nat × Nat × Nat) := match l.range with
      | none => some (l.nextBlock, 0, 0)
      | some _ => (l.slots.find? fun (e : Nat × Nat × Nat × Nat) => e.1 == coreXY ox oy).map fun (e : Nat × Nat × Nat × Nat) => e.2
    let ahead := x.readmit.any fun t => l.prio / 16 ≤ p.launchClass (p.block t)
    match piece with
    | none => p
    | some pc =>
      let pin := if l.pinned then some (pinOrigin l pc.1) else none
      if x.schedHalted ∨ l.part ≠ p.arg 0 ∨ l.st ≠ LState.placing ∨ ahead ∨ (pin.isSome ∧ pin ≠ some (ox, oy)) then p
      else
        let q := if l.range.isSome then p.unreserve id pc.1 else p
        if q.room l.need [] ox oy (p.arg 4) (p.arg 5) bases then q.placeBlock id pc ox oy (p.arg 4) (p.arg 5) bases
        else if (q.fits l.need [] pin).isSome then p
        else p.preempt l.need (l.prio / 16) pin) s

/-! ### Retirement (R221, R227, R432) -/

/-- Commands of a block that engines have not completed (R227, R456). -/
def Panel.enginesBusy (p : Panel) (tag : Nat) : Bool :=
  let b := p.block tag
  ((blockClusters b).any fun cl =>
    let c := p.cluster cl
    (c.relay.any fun (e : Nat × Chan) => e.2.busy && e.2.btag == tag) || (c.hoop.cmds.any fun x => x.btag == tag)) ||
  (blockCores b).any fun lc =>
    let c := p.core lc
    (c.walk.busy && c.walk.btag == tag) || (c.pf.any fun x => x.btag == tag) || (c.drop.any fun x => x.btag == tag) ||
      (c.mcrd.any fun x => x.btag == tag) || (c.tiles.any fun x => x.btag == tag)

/-- An Osier domain of a block runs. -/
def Panel.domsRun (p : Panel) (tag : Nat) : Bool :=
  (blockClusters (p.block tag)).any fun cl => (p.cluster cl).doms.any fun (e : Nat × Domain) => e.2.state == 1 && e.2.btag == tag

/-- A launch whose blocks have all retired retires (R432, R445). -/
def Panel.retireLaunch (p : Panel) (id : Nat) : Panel :=
  if (p.launch id).st = .placed ∧ ((p.blocksOf id).all fun (e : Nat × Block) => e.2.st == .retired) then
    (p.updLaunch id fun l => { l with st := .retired }).later 1 .completionRecordWrite [id]
  else p

/-- BLOCK_RETIRE: every context of every group is EMPTY, no handler runs or waits, and every command has completed (R227). -/
def execBlockRetire (s : State) : Res :=
  onPanel (fun p =>
    let tag := p.arg 0
    let b := p.block tag
    let cs := blockCores b
    let hq := cs.any fun lc => (p.core lc).hq.any fun x => match x with | .handler _ _ _ _ d _ _ => d == tag | _ => false
    if b.st ≠ .resident ∨ (cs.any fun lc => tagSlots p lc tag != []) ∨ hq ∨ p.enginesBusy tag ∨ p.domsRun tag then p
    else
      let p1 := cs.foldl (fun q lc => (q.updCore lc fun c => { c with blk := SMap.del c.blk tag }).ringsOff lc tag) p
      (((p1.unfuse tag).updBlock tag fun b => { b with st := .retired }).retireLaunch b.launch).preempted b.launch) s

/-! ### Taking a block (R455-R457) -/

/-- Slots of a group: the threads of a block homed on a core. -/
def Panel.groupOf (p : Panel) (lc tag : Nat) : List Nat := (List.range 12).filter fun s => let c := p.ctx lc s; c.btag == tag && c.st != .empty

/-- The group of a core is parked. -/
def Panel.parkedOn (p : Panel) (lc tag : Nat) : Bool := p.groupParked lc tag || (groupPlaces p lc tag).any fun s => (p.ctx s.1 s.2).st == .parked

/-- A swap condition of R455 holds: a group parked for more than PARKLIMIT cycles, or more than half of the groups parked. -/
def Panel.swapDue (p : Panel) (tag : Nat) : Bool :=
  let b := p.block tag
  let lim := (p.part b.part).parkLimit
  let cs := blockCores b
  let n := (cs.filter fun lc => p.parkedOn lc tag).length
  decide (b.w * b.h < 2 * n) ||
    (lim != 0 && cs.any fun lc => (groupPlaces p lc tag).any fun s => let c := p.ctx s.1 s.2; c.st == .parked && decide (c.parkedAt + lim < p.now))

/-- PARKLIMIT_EXPIRY: a block is chosen for swap; a pinned one is reported once per parked episode (R173, R455). -/
def execParklimitExpiry (s : State) : Res :=
  onPanel (fun p =>
    let tag := p.arg 0
    let b := p.block tag
    if b.st ≠ .resident ∨ (p.part b.part).schedHalted ∨ !p.swapDue tag then p
    else if b.pinned then
      if b.parkReported then p
      else (p.updBlock tag fun b => { b with parkReported := true }).mailTo 3 0x0004 [tag]
    else p.take tag) s

/-- A thread counts as at a blocking point: it is blocked or parked, or a member of its gang is (R216, R224). -/
def Panel.atPoint (p : Panel) (slot : Nat) (c : Ctx) : Bool :=
  let stopped := fun (c : Ctx) => c.st == .blocked || c.st == .parked
  stopped c || c.gang.any fun lc => stopped (p.ctx lc slot)

/-- A thread's waits withdrawn: entries of wait tables and lease queues. The counter of an LDSY that waits on another core is lowered without a
result, and the wait becomes the thread's wake condition (R456, R459). -/
def Panel.withdraw (p : Panel) (lc slot : Nat) : Panel :=
  let mine := fun (e : WaitEnt) => e.core == lc && e.slot == slot
  let far := (p.cores.flatMap fun (k : Nat × Core) => k.2.waits.filter mine).filterMap fun e => if e.acc = 0 then none else p.acc e.acc
  let p1 := { p with cores := p.cores.map fun (k : Nat × Core) => (k.1, { k.2 with waits := k.2.waits.filter fun e => !mine e }) }
  let p2 := p1.updCluster (clusterOf lc) fun c => { c with hoop := { c.hoop with reqs := c.hoop.reqs.filter fun r => !(r.1 == lc && r.2.1 == slot) } }
  far.foldl (fun q a => (q.discard a).updCtx lc slot fun c => { c with wake := .ldsy a.va (destNum a) (a.kind == .ldsyTake) }) p2

/-- Loads or stores of a thread that its parked record accounts for. -/
def Panel.kept (p : Panel) (lc slot : Nat) (cls : CClass) : Nat :=
  ((p.accs.map (·.2)).filter fun a => a.core == lc && a.slot == slot && a.cls == cls && a.stage == .parked).length

/-- A migrated thread of a block being taken, at a blocking point away from home, returns with its wait condition and, if it is parked, its
entries of the record (R104): its waits are withdrawn, and it leaves once its counters allow (R99); one that waits for a remote load has nothing left to
wait for then. -/
def Panel.recall (p : Panel) (lc tag slot : Nat) : Panel :=
  if (p.ctx lc slot).btag ≠ tag ∨ ((p.ctx lc slot).st ≠ .blocked ∧ (p.ctx lc slot).st ≠ .parked) then p
  else
    let q := (p.withdraw lc slot).updCtx lc slot fun c => { c with wake := if c.st = .blocked ∧ c.wake = .remote then .yield else c.wake }
    let c := q.ctx lc slot
    if c.ldc ≠ q.kept lc slot .loads ∨ c.stc ≠ q.kept lc slot .stores then q
    else
    let q := { q with accs := q.accs.map fun (e : Nat × Access) =>
        if e.2.core == lc && e.2.slot == slot && e.2.btag == tag then (e.1, { e.2 with core := c.homeCore, slot := c.homeSlot }) else e }
    (q.send lc c.homeCore (.home (q.ctx lc slot) 0 0 0 0 0 slot)).vacate lc slot

/-- Groups of a TAKING block that have come to be taken, with their waits withdrawn (R456). -/
def Panel.freezeGroups (p : Panel) (tag : Nat) : Panel :=
  (blockCores (p.block tag)).foldl (fun q lc =>
    let q := [14, 15].foldl (fun q s => q.recall lc tag s) q
    let g := q.groupOf lc tag
    let q := if (q.block tag).taken.contains lc ∨ !(g.all fun s => q.atPoint s (q.ctx lc s)) then q
      else q.updBlock tag fun b => { b with taken := b.taken ++ [lc] }
    if (q.block tag).taken.contains lc then g.foldl (fun q s => q.withdraw lc s) q else q) p

def heldCount (k : BlkCore) (slot : Nat) (copies : Bool) : Nat := (k.held.filter fun h => h.slot == slot && h.copies == copies).length

/-- ORUNs of a thread whose domain has stopped before its last step: their completions go into the record (R412). -/
def Panel.orunsLeft (p : Panel) (lc slot tag : Nat) : Nat :=
  ((p.cluster (clusterOf lc)).doms.filter fun (e : Nat × Domain) => e.2.state == 1 && e.2.core == lc && e.2.slot == slot && e.2.btag == tag).length

/-- The sends whose handler messages wait at the cores of a block (R219, R227). -/
def Panel.waitingSends (p : Panel) (tag : Nat) : List Nat :=
  (blockCores (p.block tag)).flatMap fun lc =>
    let k := p.core lc
    (k.hq ++ k.fifo.map (·.pay) ++ (k.net.filter fun e => decide (e.1 ≤ p.now)).map (·.2.pay)).filterMap fun x => match x with
      | .handler _ _ _ _ d id _ => if d == tag then some id else none
      | _ => none

/-- Sends of a thread that only handler messages which wait hold open. -/
def Panel.heldSends (p : Panel) (tag lc slot : Nat) : Nat :=
  let w := p.waitingSends tag
  ((p.accs.map (·.2)).filter fun a =>
    a.core == lc && a.slot == slot && a.btag == tag && a.kind == .send && a.copies != 0 && decide (a.copies ≤ (w.filter (· == a.id)).length)).length

/-- A parked thread's bundle goes on with something other than the accesses of its record: a HOLD, a FUSE, a barrier's answer, a TLBINV or Osier lanes
(R286, R299, R309, R315, R397). -/
def Ctx.midway (c : Ctx) : Bool :=
  c.lanesLeft != 0 ||
  match c.stall with
  | .hold _ => true | .fuse .. => true | .barrier => true | .tlbinv => true | .osier _ => true
  | .none => false | .retry _ => false | .header => false | .migrate => false | .ckpt => false | .fatal => false

/-- A barrier instruction of a thread is on its way to its object (R309, R310). -/
def Panel.barrierOut (p : Panel) (lc slot : Nat) : Bool :=
  p.accs.any fun (e : Nat × Access) => e.2.core == lc && e.2.slot == slot && e.2.kind == .barrier

/-- The drain of step 4 is over (R456, R412). A handler message that waits for the block does not hold it by its sender's store count: R227 and R474
put the message into the inbox at capture, so R456's counters cannot mean it (log 85, DESIGN CHOICE). -/
def Panel.drained (p : Panel) (tag : Nat) : Bool :=
  let b := p.block tag
  let cs := blockCores b
  cs.all (b.taken.contains ·) && !p.enginesBusy tag &&
    ((blockClusters b).all fun cl => !b.hoop || ((p.cluster cl).strokes == [] && (p.cluster cl).oacts == [] &&
      (p.cluster cl).doms.all fun (e : Nat × Domain) => e.2.state != 1 || e.2.haltStop)) &&
    cs.all fun lc =>
      ([12, 13, 14, 15].all fun s => (p.ctx lc s).btag != tag || (p.ctx lc s).st == .empty) &&
        (p.groupOf lc tag).all fun s =>
          let c := p.ctx lc s
          c.st != .away && !c.midway && !p.barrierOut lc s && c.ldc == p.kept lc s .loads && c.stc == p.kept lc s .stores + p.heldSends tag lc s &&
            c.cpc == heldCount (p.blk lc tag) s true && c.tlc == heldCount (p.blk lc tag) s false + p.orunsLeft lc s tag

/-- A context as the swap record holds it: its gang has no place there and dissolves (log 19, DEDUCED). A parked VLDB still waits for the check of its
header (R336). -/
def savedCtx (c : Ctx) : Ctx :=
  { c with
    gang := [], gangStep := 0, gapUntil := 0, undo := none, haccAt := none
    stall := if c.st = .parked ∧ c.stall = .header then .header else .none
    st := if c.st = .blocked ∨ c.st = .parked then c.st else .ready }

/-- The data of a block on one core put into its record (R458, R459); slots become ordinals. -/
def Panel.saveCore (p : Panel) (tag ci lc : Nat) : Panel :=
  let b := p.block tag
  let k := p.core lc
  let g := p.groupOf lc tag
  let ordOf := fun (s : Nat) => (p.ctx lc s).ord
  let bk := p.blk lc tag
  let mine := (k.parked.filter fun i => match p.acc i with | some a => a.btag == tag | none => false) ++ SMap.getD k.replays tag []
  let lo := b.lmBase * 1024
  let n := b.lmSize * 1024
  let regs := g.foldl (fun m s =>
    let c := p.ctx lc s
    (Memory.slice p.mem (rsA lc (64 * c.rsBase)) (64 * c.rsSize) (c.ord * (64 * c.rsSize))).foldl (fun m e => Memory.set m e.1 e.2) m) []
  (p.updBlock tag fun b =>
    { b with
      recCtxs := SMap.set b.recCtxs ci (g.foldl (fun (m : SMap Ctx) s => SMap.set m (ordOf s) { savedCtx (p.ctx lc s) with homeSlot := s }) [])
      recBlk := SMap.set b.recBlk ci { bk with held := bk.held.map fun h => { h with slot := ordOf h.slot } }
      recRings := SMap.set b.recRings ci (k.rings.filter fun (e : Nat × Ring) => e.2.en && e.2.btag == tag)
      recMem := SMap.set b.recMem ci (Memory.slice p.mem (lmA lc lo) n 0)
      recRegs := SMap.set b.recRegs ci regs
      recFe := SMap.set b.recFe ci ((k.fe.filter fun w => decide (lo ≤ 8 * w) && decide (8 * w < lo + n)).map fun w => w - lo / 8)
      recParked := SMap.set b.recParked ci mine }).updCore lc fun c => { c with parked := c.parked.filter fun i => !mine.contains i, replays := SMap.del c.replays tag }

/-- The array and Osier state of a cluster put into the record, the lease with its counts left (R364, R368, R412). -/
def Panel.saveCluster (p : Panel) (tag i cl : Nat) : Panel :=
  let b := p.block tag
  let c := p.cluster cl
  let who := fun (lc s : Nat) => (ciOf b lc, (p.ctx lc s).ord)
  let mine := match c.hoop.holder with | some h => h.2.2 == tag | none => false
  let hoop := { c.hoop with
    holder := match c.hoop.holder with
      | some h => if mine then some ((who h.1 h.2.1).1, (who h.1 h.2.1).2, tag) else none
      | none => none
    reqs := [] }
  let doms := c.doms.map fun (e : Nat × Domain) => (e.1, { e.2 with core := (who e.2.core e.2.slot).1, slot := (who e.2.core e.2.slot).2 })
  let acc := (List.range 8).foldl (fun m k =>
    (Memory.slice p.mem (rsA (clusterCore cl k) 0x10000) 0x1000 (4096 * k)).foldl (fun m e => Memory.set m e.1 e.2) m) []
  (p.updBlock tag fun b =>
    { b with
      recHoop := SMap.set b.recHoop i hoop, recCells := SMap.set b.recCells i c.cells, recDoms := SMap.set b.recDoms i doms
      recAcc := SMap.set b.recAcc i acc
      leaseLeft := if mine then SMap.set b.leaseLeft i (c.hoop.leaseN, c.hoop.leaseEnd - p.now) else b.leaseLeft }).resetArrays cl

/-- Handler messages in an inbox. -/
def inboxHandlers (b : Block) : Nat := (b.inbox.filter fun e => match e.2.pay with | .handler .. => true | _ => false).length

/-- Waiting handler messages of a taken block go to its inbox, beyond 64 of them to the placement table, which holds them; those behind them come up
(R219, R227, R461, R474). -/
def Panel.moveHandlers (p : Panel) (tag ci lc : Nat) : Panel :=
  let mine := (p.core lc).hq.filter fun x => match x with | .handler _ _ _ _ d _ _ => d == tag | _ => false
  let p1 := (p.updCore lc fun c => { c with hq := c.hq.filter fun x => !mine.contains x }).later 1 .handlerStart [lc]
  mine.foldl (fun q x => match x with
    | .handler ws core slot stag dtag id ci' =>
      if 64 ≤ inboxHandlers (q.block tag) then q.divert lc tag ⟨x, lc, none⟩
      else (q.updBlock tag fun b => { b with inbox := b.inbox ++ [(ci, ⟨.handler ws core slot stag dtag 0 ci', lc, none⟩)] }).copyDone id 0 lc
    | _ => q) p1

/-- BLOCK_CAPTURE: once drained, the record is written and the cores are free (R456, R458). A block not yet drained is looked at again. Operands: block,
and the record's HBM offset as the Memory core chose it, 0 for the model's choice. -/
def execBlockCapture (s : State) : Res :=
  onPanel (fun p0 =>
    let tag := p0.arg 0
    if (p0.block tag).st ≠ .taking ∨ (p0.part (p0.block tag).part).schedHalted then p0
    else
      let p := p0.freezeGroups tag
      if !p.drained tag then p.later 1 .blockCapture [tag, p0.arg 1]
      else
        let b := p.block tag
        let cs := blockCores b
        let cls := blockClusters b
        let p1 := ((List.range cs.length).zip cs).foldl (fun q e => (q.saveCore tag e.1 e.2).moveHandlers tag e.1 e.2) p
        let p2 := if b.hoop then ((List.range cls.length).zip cls).foldl (fun q e => q.saveCluster tag e.1 e.2) p1 else p1
        let p3 := cs.foldl (fun q lc =>
          let q1 := (q.groupOf lc tag).foldl (fun q s => q.setCtx lc s {}) q
          (q1.updCore lc fun c => { c with blk := SMap.del c.blk tag }).ringsOff lc tag) p2
        let p4 := ((p3.unfuse tag).updBlock tag fun b => { b with st := .absent, taken := [], yieldAt := none }).writeSwap tag (p0.arg 1)
        let p5 := p4.updPart b.part fun x => { x with readmit := x.readmit ++ [tag] }
        (if b.yieldAt.isSome then p5.updLaunch b.launch fun l => { l with preempt := true } else p5).preempted b.launch) s

/-- YIELD_DEADLINE: a victim not taken by the end of its deadline cycle falls to class 0 and is reported, once (R465). -/
def execYieldDeadline (s : State) : Res :=
  onPanel (fun p0 =>
    let tag := p0.arg 0
    let p := if (p0.block tag).st = .taking then p0.freezeGroups tag else p0
    let b := p.block tag
    match b.yieldAt with
    | none => p
    | some d =>
      if b.st ≠ .taking ∨ b.yieldLate ∨ p.now ≤ d ∨ (blockCores b).all (b.taken.contains ·) then p
      else (p.updBlock tag fun b => { b with prio := b.prio % 16, yieldLate := true }).mailTo 1 0x0002 [(p.launch b.launch).seq, b.idx]) s

/-! ### Re-admission (R459-R462) -/

/-- The wait of a restored context begins again (R459). -/
def Panel.rewait (p : Panel) (lc slot : Nat) : Panel :=
  let c := p.ctx lc slot
  if c.st ≠ .blocked ∧ c.st ≠ .parked then p
  else
    match c.wake with
    | .barrier _ _ f va =>
      (match place p c va 16 with
      | .lm t off _ =>
        (p.updCtx lc slot fun c => { c with wake := .barrier t off f va }).waitBar t
          { off := off, core := lc, slot := slot, bar := true, phase := f, take := false, acc := 0, dest := 0, entered := true, retryAt := 0 }
      | .paged => p | .bad _ => p)
    | .ldsy va d tk =>
      (match place p c va 8 with
      | .lm t off _ =>
        p.waitWord t { off := off / 8, core := lc, slot := slot, bar := false, phase := 0, take := tk, acc := 0, dest := d, entered := true, retryAt := 0 }
      | .paged => p | .bad _ => p)
    | .hlease n k =>
      (p.updCluster (clusterOf lc) fun c => { c with hoop := { c.hoop with reqs := c.hoop.reqs ++ [(lc, slot, n, k)] } }).later 1 .hoopLeaseGrant [clusterOf lc]
    | .stagger u => p.later (u - p.now) .barrierStaggerEnd [lc, slot]
    | .none => p | .qpop _ _ => p | .qpeek _ _ => p | .ring _ => p | .waitc _ _ _ _ => p | .yield => p
    | .parked => p | .remote => p

/-- A context of the record back in a slot: its window, and its wait begun again (R459). -/
def Panel.restoreCtx (p : Panel) (tag lc slot rs : Nat) (c : Ctx) : Panel :=
  let b := p.block tag
  let c1 : Ctx := { c with rsBase := if c.rsSize = 0 then 0 else rs / 64, since := p.now, homeSlot := 0 }
  let img := Memory.slice (SMap.getD b.recRegs (ciOf b lc) []) (c.ord * (64 * c.rsSize)) (64 * c.rsSize) 0
  let p1 := ({ p with mem := Memory.restore p.mem (rsA lc rs) (64 * c.rsSize) img } : Panel).setCtx lc slot c1
  p1.rewait lc slot

/-- One core of a re-admitted block: window, words, queues, rings; then its slots by ordinal (R462). -/
def Panel.restoreCore (p : Panel) (tag ci lc : Nat) : Panel :=
  let b := p.block tag
  let cs := SMap.getD b.recCtxs ci []
  let slots := cs.zip (p.freeSlots [] lc)
  let slotOf := fun (o : Nat) => match slots.find? fun e => e.1.1 == o with | some e => e.2 | none => 0
  let lo := b.lmBase * 1024
  let p1 := { p with mem := Memory.restore p.mem (lmA lc lo) (b.lmSize * 1024) (SMap.getD b.recMem ci []) }
  let bk := SMap.getD b.recBlk ci {}
  let ids := SMap.getD b.recParked ci []
  let p2 := p1.updCore lc fun c =>
    { c with
      fe := (c.fe.filter fun w => !(decide (lo ≤ 8 * w) && decide (8 * w < lo + b.lmSize * 1024))) ++ ((SMap.getD b.recFe ci []).map fun w => w + lo / 8)
      dirty := (upto b.lmBase b.lmSize).foldl (fun d x => if d.contains x then d else d ++ [x]) c.dirty
      blk := SMap.set c.blk tag { bk with held := bk.held.map fun h => { h with slot := slotOf h.slot } }
      rings := (SMap.getD b.recRings ci []).foldl (fun m (e : Nat × Ring) => SMap.set m e.1 { e.2 with btag := tag }) c.rings
      parked := c.parked ++ ids }
  let p3 := if bk.held = [] then p2 else p2.later 1 .heldCompletionLand [lc, tag]
  p3.rouse lc

/-- Where a thread of a re-admitted block was and is: core and slot, and the start of its register window then and now. -/
structure Moved where
  core : Nat
  slot : Nat
  oldWin : Nat
  newWin : Nat
  deriving DecidableEq, Repr

/-- A destination in a register window that has moved (R249). -/
def Moved.dest (m : Moved) : Dest → Dest
  | .vec x => .vec (x - m.oldWin + m.newWin)
  | .lanes x => .lanes (x - m.oldWin + m.newWin)
  | .none => .none | .g r => .g r | .sh r => .sh r | .tile n => .tile n

/-- Accesses of a re-admitted block named by their threads' new cores, slots and register windows (R172, R249). -/
def Panel.moveAccs (p : Panel) (tag : Nat) (f : Nat → Nat → Moved) : Panel :=
  { p with accs := p.accs.map fun (e : Nat × Access) =>
      if e.2.btag = tag then
        let m := f e.2.core e.2.slot
        (e.1, { e.2 with core := m.core, slot := m.slot, dest := m.dest e.2.dest })
      else e }

/-- The handler messages of an inbox come to a core: as many as its handler queue holds, the others before what waits in its virtual
channels (R219, R462). -/
def Panel.seatHandlers (p : Panel) (lc : Nat) (ks : List Packet) : Panel :=
  if ks = [] then p
  else
    let n := 4 - (p.core lc).hq.length - (p.core lc).coming .handlerMessageArrival
    (p.updCore lc fun c =>
      { c with hq := c.hq ++ (ks.take n).map (·.pay), net := (ks.drop n).map (fun k => (p.now, k)) ++ c.net }).later 1 .handlerStart [lc]

/-- The inbox appended to the rings in arrival order, with notices; its handler messages wait to start (R461, R462). -/
def Panel.openInbox (p : Panel) (tag : Nat) : Panel :=
  let b := p.block tag
  let p1 := b.inbox.foldl (fun q e =>
    let lc := blockCore b (e.1 % b.w) (e.1 / b.w)
    match e.2.pay with
    | .msg ring words core _ _ _ _ _ _ _ => (q.ringAppend lc ring words (core % 256) (core / 256) (seqOf e.2)).1
    | _ => q) p
  let hs := fun (ci : Nat) => (b.inbox.filter fun e => e.1 == ci && (match e.2.pay with | .handler .. => true | _ => false)).map (·.2)
  let p1 := (List.range (b.w * b.h)).foldl (fun q ci => q.seatHandlers (blockCore b (ci % b.w) (ci / b.w)) (hs ci)) p1
  let p2 := p1.updBlock tag fun b => { b with inbox := [] }
  if (p2.part b.part).divert = [] then p2 else p2.later 1 .messageDivert [b.part]

/-- The array and Osier state of a cluster from the record; domains that ran start again together (R364, R368, R412). -/
def Panel.restoreCluster (p : Panel) (tag i cl : Nat) (slotOf : Nat → Nat → Nat) : Panel :=
  let b := p.block tag
  let h := SMap.getD b.recHoop i {}
  let left := SMap.getD b.leaseLeft i (0, 0)
  let at_ := fun (ci : Nat) => blockCore b (ci % b.w) (ci / b.w)
  let doms := (SMap.getD b.recDoms i []).map fun (e : Nat × Domain) => (e.1, { e.2 with core := at_ e.2.core, slot := slotOf e.2.core e.2.slot })
  let img := SMap.getD b.recAcc i []
  let mem := (List.range 8).foldl (fun m k => Memory.restore m (rsA (clusterCore cl k) 0x10000) 0x1000 (Memory.slice img (4096 * k) 4096 0)) p.mem
  let hoop := { h with
    holder := h.holder.map fun x => (at_ x.1, slotOf x.1 x.2.1, tag), leaseN := left.1, leaseEnd := if h.holder.isSome then p.now + left.2 else 0
    reqs := (p.cluster cl).hoop.reqs }
  let p1 := { p with mem := mem }.updCluster cl fun c => { c with hoop := hoop, cells := SMap.getD b.recCells i [], doms := doms }
  let p2 := if h.holder.isSome then p1.later left.2 .hoopLeaseExpiry [cl] else p1
  (doms.map (·.1)).foldl (fun q d => q.domResume cl d) p2

/-- No ring that the record holds enabled belongs to another block on its new core. -/
def Panel.ringsFree (p : Panel) (b : Block) (cs : List Nat) : Bool :=
  ((List.range cs.length).zip cs).all fun e =>
    (SMap.getD b.recRings e.1 []).all fun (r : Nat × Ring) => !(SMap.getD (p.core e.2).rings r.1 {}).en

/-- The lease of a pre-empted launch formed again, and its ranges staged again, before a block resumes (R163, R437): none when that
is done. -/
def Panel.leaseAgain (p : Panel) (id : Nat) : Option Panel :=
  let l := p.launch id
  if l.st = .staging then some p
  else
    let pages := ((List.range l.ws.length).zip l.ws).flatMap fun e => (pagesFrom e.2.va e.2.len).map fun g => (e.1, g, e.2.access)
    if pages.all fun e => l.lease.contains e.2.1 then none
    else
      match p.leaseScan id pages with
      | (.fault g, q) => some (q.launchPage id g)
      | (.unmapped i, q) => some ((q.updLaunch id fun l => { l with detail := i }).endLaunch id 3 0)
      | (.fatal c a, q) => some (q.schedFatal l.part c a)
      | (.ok, q) => some ((q.updLaunch id fun l => { l with st := .staging, rpage := none, rref := false }).startStaging id)

/-- READMISSION: the oldest absent block at a rectangle with room (R462). Operands from the sixth on name register bases as at
placement. -/
def execReadmission (s : State) : Res :=
  onPanel (fun p =>
    let tag := p.arg 0
    let ox := p.arg 1
    let oy := p.arg 2
    let bases := p.ev.drop 5
    let b0 := p.block tag
    let x := p.part b0.part
    let n : Need := ⟨b0.part, b0.asid, b0.q, b0.w, b0.h, b0.lmSize, b0.regs, b0.hoop, b0.fused⟩
    let cs := rectCores ox oy b0.w b0.h
    if x.schedHalted ∨ b0.st ≠ .absent ∨ x.readmit.head? ≠ some tag then p
    else
      match p.leaseAgain b0.launch with
      | some q => q
      | none =>
        if !p.room n [] ox oy (p.arg 3) (p.arg 4) bases ∨ !p.ringsFree b0 cs then p
        else
          let free := cs.map fun lc => p.freeSlots [] lc
          let slotOf := fun (ci o : Nat) =>
            let k := ((SMap.getD b0.recCtxs ci []).map (·.1)).findIdx (· == o)
            ((free.getD ci []).getD k 0)
          let rs := fun (t : Nat) => rsPlace n (p.arg 4) bases t
          let p1 := (p.updBlock tag fun b => { b with st := .resident, ox := ox, oy := oy, lmBase := p.arg 3, placedAt := p.now }).updPart b0.part fun x =>
            { x with readmit := x.readmit.filter (· != tag) }
          let ics := (List.range cs.length).zip cs
          let p2 := if b0.fused then ((cs.map clusterOf).eraseDups).foldl (fun q cl => q.fuseOn cl) p1 else p1
          let p3 := ics.foldl (fun q e => q.restoreCore tag e.1 e.2) p2
          let p4 := p3.openInbox tag
          let cls := blockClusters (p4.block tag)
          let p5 := if b0.hoop then ((List.range cls.length).zip cls).foldl (fun q e => q.restoreCluster tag e.1 e.2 slotOf) p4 else p4
          let p6 := ics.foldl (fun q e =>
            (SMap.getD b0.recCtxs e.1 []).foldl (fun q (c : Nat × Ctx) =>
              q.setCtx e.2 (slotOf e.1 c.1) { c.2 with rsBase := if b0.regs = 0 then 0 else rs (e.1 * b0.q + c.1) / 64 }) q) p5
          let p7 := ics.foldl (fun q e =>
            (SMap.getD b0.recCtxs e.1 []).foldl (fun q (c : Nat × Ctx) =>
              q.restoreCtx tag e.2 (slotOf e.1 c.1) (rs (e.1 * b0.q + c.1)) c.2) q) p6
          let to_ : Nat → Nat → Moved := fun (oc os : Nat) =>
            let ci := ciOf b0 oc
            match (SMap.getD b0.recCtxs ci []).find? fun (c : Nat × Ctx) => c.2.homeSlot == os with
            | some c =>
              let at_ := cs.getD ci 0
              ⟨at_, slotOf ci c.1, rsA oc (64 * c.2.rsBase), rsA at_ (rs (ci * b0.q + c.1))⟩
            | none => ⟨oc, os, 0, 0⟩
          let p8 := p7.moveAccs tag to_
          let p9 := p8.updBlock tag fun b =>
            { b with recCtxs := [], recBlk := [], recRings := [], recMem := [], recRegs := [], recFe := [], recHoop := [], recCells := []
                     recDoms := [], recAcc := [], recParked := [], leaseLeft := [], recAt := 0 }
          cs.foldl (fun q lc => q.actRecord lc tag) p9) s

/-! ### Messages for blocks elsewhere (R460, R461) -/

/-- The shadow of a captured ring: its TAIL after the inbox's messages to it. -/
def shadowRing (b : Block) (ci n : Nat) : Ring :=
  let r := SMap.getD (SMap.getD b.recRings ci []) n {}
  b.inbox.foldl (fun r e => match e.1 == ci, e.2.pay with
    | true, .msg ring words .. => if ring = n then (match ringFit r (8 * words.length) with
        | .ok (_, _, t) => { r with tail := t }
        | .error _ => r) else r
    | _, _ => r) r

/-- The block and the place in it that a diverted message is for. -/
def divertFor (k : Packet) : Nat × Nat :=
  match k.pay with
  | .msg _ _ _ _ _ _ d _ _ ci => (d, ci)
  | .handler _ _ _ _ d _ ci => (d, ci)
  | _ => (0, 0)

/-- A diverted message is held: a handler message beyond the 64 of an absent block's inbox (R461). -/
def Panel.divertHeld (p : Panel) (e : Nat × Packet) : Bool :=
  let b := p.block (divertFor e.2).1
  b.st == .absent && decide (64 ≤ inboxHandlers b) && (match e.2.pay with | .handler .. => true | _ => false)

/-- A message put into an absent block's inbox, or refused as its ring would refuse it (R461). -/
def Panel.toInbox (p : Panel) (tag ci lc : Nat) (k : Packet) : Panel :=
  let b := p.block tag
  match k.pay with
  | .msg ring words core slot slevel stag dtag quiet id c =>
    let r := shadowRing b ci ring
    let keep := (p.updBlock tag fun b => { b with inbox := b.inbox ++ [(ci, { k with pay := .msg ring words core slot slevel stag dtag quiet 0 c })] }).copyDone id 0 lc
    if !r.en then p.copyDone id 3 lc
    else
      (match ringFit r (8 * words.length) with
      | .ok _ => keep
      | .error st =>
        (p.updBlock tag fun b =>
          { b with recRings := SMap.upd b.recRings ci [] fun m => SMap.upd m ring {} fun r => { r with drop := min (r.drop + 1) 0xFFFF } }).copyDone id st lc)
  | .handler words core slot stag dtag id c =>
    (p.updBlock tag fun b => { b with inbox := b.inbox ++ [(ci, { k with pay := .handler words core slot stag dtag 0 c })] }).copyDone id 0 lc
  | _ => p

/-- The access of a diverted message. -/
def msgId (k : Packet) : Nat :=
  match k.pay with
  | .msg _ _ _ _ _ _ _ _ id _ => id
  | .handler _ _ _ _ _ id _ => id
  | _ => 0

/-- A message that the placement table sends on, from the core that it came to; its number stays in its header (R460). -/
def Panel.forward (p : Panel) (from_ to_ : Nat) (k : Packet) : Panel :=
  let h := p.trip from_ to_ 2
  (p.injectAt to_ h { k with src := forwardedSrc + k.src % forwardedSrc }).bill from_ (payLaunch p k.pay) (12 * h * (dataFlits p k.pay + 1))

/-- MESSAGE_DIVERT: the placement table appends, forwards or refuses the next message (R460). -/
def execMessageDivert (s : State) : Res :=
  onPanel (fun p =>
    let pi := p.arg 0
    match (p.part pi).divert.find? fun e => !p.divertHeld e with
    | none => p
    | some e =>
      let t := divertFor e.2
      let b := p.block t.1
      let p1 := p.updPart pi fun x => { x with divert := x.divert.erase e }
      let p2 := match b.st with
        | .absent => p1.toInbox t.1 t.2 e.1 e.2
        | .resident => p1.forward e.1 (blockCore b (t.2 % b.w) (t.2 / b.w)) e.2
        | .taking => p1.forward e.1 (blockCore b (t.2 % b.w) (t.2 / b.w)) e.2
        | .retired => p1.copyDone (msgId e.2) 4 e.1
        | .ended => p1.copyDone (msgId e.2) 4 e.1
      if (p2.part pi).divert = [] then p2 else p2.once 1 .messageDivert [pi]) s

end Sys2Proof.Machine
end

