-- ==== Sys2Proof/Machine/Halt.lean ====
section
/-! DEFINITION. The halt line and its stop records, release and reset of a halted partition, debug stores, the replay latch
(R466-R474). -/

namespace Sys2Proof.Machine

/-! ### Stop records (R469) -/

/-- STATE of a context entry. -/
def stateCode : CtxState → Nat
  | .empty => 0 | .ready => 1 | .gap => 2 | .stall => 3 | .blocked => 4 | .parked => 5 | .away => 6

/-- A context entry, 32 bytes. -/
def ctxEntry (c : Ctx) : Nat :=
  if c.st = .empty then 0
  else
    let w := wakeCode c
    c.pc.toNat + c.btag % 2 ^ 32 * 2 ^ 64 + stateCode c.st * 2 ^ 96 + c.ldc % 16 * 2 ^ 104 + c.stc % 16 * 2 ^ 108 + c.cpc % 8 * 2 ^ 112 +
      c.tlc % 8 * 2 ^ 115 + w.1 * 2 ^ 120 + w.2 % 2 ^ 64 * 2 ^ 128

/-- ESTAT's value of an engine as a core's stop record holds it: leased to no thread that asks. -/
def Panel.estatAt (p : Panel) (lc e : Nat) : Nat := ((estat { p with cur := { p.cur with core := lc, slot := 16 } } e).getD 0).toNat

/-- The walker's record, 64 bytes. -/
def Panel.walkRecord (p : Panel) (lc : Nat) : Nat :=
  let w := (p.core lc).walk
  if !w.busy then p.estatAt lc 8
  else p.estatAt lc 8 + (w.btag % 2 ^ 32 + w.slot * 2 ^ 32) * 2 ^ 64 + 64 * ((tileLines w.shape w.tile)[w.pos]?).getD 0 % 2 ^ 64 * 2 ^ 128

/-- A Relay channel's record, 64 bytes. -/
def Panel.relayRecord (p : Panel) (cl ch : Nat) : Nat :=
  let x := p.chan cl ch
  let st := p.estatAt (clusterCore cl 0) ch
  if !x.busy then st
  else
    st + x.start.toNat * 2 ^ 64 + x.ctl.toNat * 2 ^ 128 + (relaySrc x x.done).1 % 2 ^ 64 * 2 ^ 192 + (x.dst + x.done) % 2 ^ 64 * 2 ^ 256 +
      (x.btag % 2 ^ 32 + coreK x.core * 2 ^ 32 + x.slot % 16 * 2 ^ 35) * 2 ^ 320

/-- The Hoop array's record, 128 bytes. -/
def Panel.hoopRecord (p : Panel) (cl : Nat) : Nat :=
  let h := (p.cluster cl).hoop
  let blks := (List.range 8).foldl (fun n k => n + ((h.latch[k]?).getD {}).blk % 256 * 2 ^ (8 * k)) 0
  let b := h.bind.getD (0, 0, 0, 0)
  let cmd := match h.cmds with
    | [] => 2 ^ 8
    | x :: _ => x.sub % 16 + x.step % 16 * 2 ^ 4
  let holder := match h.holder with
    | none => 0
    | some x => x.2.2 % 2 ^ 32 + coreK x.1 * 2 ^ 32 + x.2.1 % 16 * 2 ^ 35
  p.estatAt (clusterCore cl 0) 9 + (cut 16 h.ea + h.kind * 2 ^ 16) * 2 ^ 64 + blks * 2 ^ 128 + b.2.1 % 2 ^ 64 * 2 ^ 192 +
    b.2.2.1 % 2 ^ 64 * 2 ^ 256 + b.2.2.2 % 2 ^ 64 * 2 ^ 320 + cmd * 2 ^ 384 + holder * 2 ^ 448

/-- The header, 64 bytes. -/
def Panel.stopHeader (p : Panel) (q : Partition) (lc : Option Nat) : Nat :=
  let rec_ : Bool := match lc with | some c => (p.core c).parked != [] | none => false
  let off := match lc with | some c => (p.core c).cycleOff.toNat | none => 0
  b2n rec_ * 2 + q.hSite % 2 ^ 16 * 2 ^ 32 + q.hCause % 256 * 2 ^ 48 + q.hReason % 256 * 2 ^ 56 + (p.now + off) % 2 ^ 64 * 2 ^ 64 +
    q.hTval.toNat * 2 ^ 128

/-- `n` bytes of a stop area written. -/
def Panel.stopPut (p : Panel) (q : Partition) (site off n v : Nat) : Panel :=
  { p with mem := Memory.writeN p.mem (stopArea q site + off) n v }

/-- The records of the Relay channels and of the array, at the site of core 0 of their cluster. -/
def Panel.stopEngines (p : Panel) (q : Partition) (site cl : Nat) : Panel :=
  ((List.range 8).foldl (fun r ch => r.stopPut q site (640 + 64 * ch) 64 (p.relayRecord cl ch)) p).stopPut q site 1152 128 (p.hoopRecord cl)

/-- The records of the four domains, at the site of core 0 of their cluster. -/
def Panel.stopDoms (p : Panel) (q : Partition) (site cl : Nat) : Panel :=
  (List.range 4).foldl (fun r d => r.stopPut q site (1280 + 64 * d) 64 (domRecord (domOf (p.cluster cl) d))) p

/-- A running domain of a cluster has not stopped at its boundary yet. -/
def domsGoing (c : Cluster) : Bool := c.doms.any fun (e : Nat × Domain) => e.2.state == 1 && !e.2.haltStop

/-- An engine of a core's site is still moving its line: the walker, and, at core 0 of a cluster, a Relay channel (R467). -/
def Panel.linesGoing (p : Panel) (lc : Nat) : Bool :=
  (let w := (p.core lc).walk; w.busy && (w.busyLine || w.left != 0)) ||
    (coreK lc == 0 && (p.cluster (clusterOf lc)).relay.any fun (e : Nat × Chan) => e.2.busy && e.2.busyLine)

/-- The stop area of a site: header, and the records of the agents that the site carries. -/
def Panel.stopRecord (p : Panel) (q : Partition) (site : Nat) : Panel :=
  let lc := coreAtSite p.fabric site
  let p0 := ({ p with mem := Memory.clear p.mem (stopArea q site) 4096 } : Panel).stopPut q site 0 64 (p.stopHeader q lc)
  match lc with
  | none => p0
  | some c =>
    let cl := clusterOf c
    let p1 := (List.range 16).foldl (fun r i => r.stopPut q site (64 + 32 * i) 32 (ctxEntry (p.ctx c i))) p0
    let p2 := p1.stopPut q site 576 64 (p.walkRecord c)
    if coreK c ≠ 0 then p2
    else
      (p2.stopEngines q site cl).stopDoms q site cl

/-- The records of what stopped after the line had come, written again (R467). -/
def Panel.stopLater (p : Panel) (q : Partition) (site lc : Nat) : Panel :=
  let p1 := (List.range 16).foldl (fun r i => r.stopPut q site (64 + 32 * i) 32 (ctxEntry (p.ctx lc i))) (p.stopPut q site 576 64 (p.walkRecord lc))
  if coreK lc ≠ 0 then p1 else (p1.stopEngines q site (clusterOf lc)).stopDoms q site (clusterOf lc)

/-! ### The line spreads (R466, R467) -/

/-- Sites one physical hop away. -/
def nextSites (site : Nat) : List Nat :=
  let x := site % 288
  let y := site / 288
  (if x < 287 then [site + 1] else []) ++ (if 0 < x then [site - 1] else []) ++ (if y < 191 then [site + 288] else []) ++
    if 0 < y then [site - 288] else []

/-- HALT_LINE_ARRIVAL: the agents of a site stop and its stop record is written; the line goes on to the neighbours in the
partition. A running Osier domain stops at its next boundary and a channel or walker after the line that it is moving, and what they have come to is
written then. -/
def execHaltLineArrival (s : State) : Res :=
  onPanel (fun p =>
    let pi := p.arg 0
    let site := p.arg 1
    let q := p.part pi
    let lc := coreAtSite p.fabric site
    let again := fun (r : Panel) => match lc with
      | some c => if (coreK c = 0 ∧ domsGoing (r.cluster (clusterOf c))) ∨ r.linesGoing c then r.once 1 .haltLineArrival [pi, site] else r
      | none => r
    if !q.halt ∨ !siteInPart q site then p
    else if q.hSites.contains site then
      match lc with
      | some c => again (p.stopLater q site c)
      | none => p
    else
      let p1 := (p.updPart pi fun q => { q with hSites := q.hSites ++ [site] }).stopRecord q site
      let ns := (nextSites site).filter fun n => siteInPart q n && !q.hSites.contains n
      again ((ns.foldl (fun r n => r.once 1 .haltLineArrival [pi, n]) p1).later 64 .quiesce [pi, site])) s

/-- An access of a core that a halted site still waits for: not an LDSY at its blocking point (R224). -/
def unfinished (lc : Nat) (a : Access) : Bool :=
  a.core == lc && a.stage != .parked && !(a.stage == .held && (a.kind == .ldsy || a.kind == .ldsyTake)) && !(a.stage == .out && a.waits)

/-- QUIESCE: QUIESCED is set once every access of the site's core has completed (R469). -/
def execQuiesce (s : State) : Res :=
  onPanel (fun p =>
    let pi := p.arg 0
    let site := p.arg 1
    let q := p.part pi
    let busy : Bool := match coreAtSite p.fabric site with
      | some c => (p.accs.map (·.2)).any (unfinished c)
      | none => false
    if !q.halt ∨ !q.hSites.contains site then p
    else if busy then p.later 1 .quiesce [pi, site]
    else
      let a := stopArea q site
      { p with mem := Memory.set p.mem a (Memory.get p.mem a ||| 1) }) s

/-- DEBUG_HALT_REQUEST raises the line with REASON 2 at a site of the partition (R466). -/
def execDebugHaltRequest (s : State) : Res :=
  onPanel (fun p => if siteInPart (p.part (p.arg 0)) (p.arg 1) then p.raiseHalt (p.arg 0) (p.arg 1) 2 0 0 else p) s

/-! ### Release and reset (R470) -/

/-- The line is down: nothing of the partition is stopped any more. -/
def Panel.lineDown (p : Panel) (pi : Nat) : Panel :=
  p.updPart pi fun q => { q with halt := false, hReason := 0, hCause := 0, hSite := 0, hTval := 0, hSites := [] }

/-- Clusters of a partition that hold anything. -/
def Panel.clustersOf (p : Panel) (pi : Nat) : List Nat :=
  (p.clusters.map (·.1)).filter fun cl => inPart (p.part pi) (clusterCore cl 0)

/-- Agents of a released partition go on from where they stopped: domains restart, queues are parsed, copies, takings and
admissions are looked at again. -/
def Panel.goOn (p : Panel) (pi : Nat) : Panel :=
  let p1 := (p.clustersOf pi).foldl (fun r cl => ((r.cluster cl).doms.map (·.1)).foldl (fun (r : Panel) d => r.domResume cl d) r) p
  let p2 := ((p1.part pi).queues.map (·.1)).foldl (fun (r : Panel) qi => r.wakeQueue pi qi) p1
  let p3 := ((p2.part pi).copies.map (·.1)).foldl (fun (r : Panel) i => r.once 1 .copyComplete [pi, i]) p2
  let bs := p3.blocks.filter fun (e : Nat × Block) => e.2.part == pi
  let p4 := bs.foldl (fun (r : Panel) e => match e.2.st with
    | .taking => r.once 1 .blockCapture [e.1]
    | .resident => if r.anyParked e.1 then r.once 1 .parklimitExpiry [e.1] else r
    | .absent => r | .retired => r | .ended => r) p3
  p4.admitNext pi

/-- HALT_RELEASE of a halt of REASON 2 or 4. -/
def execHaltRelease (s : State) : Res :=
  onPanel (fun p =>
    let q := p.part (p.arg 0)
    if q.halt ∧ (q.hReason = 2 ∨ q.hReason = 4) then (p.lineDown (p.arg 0)).goOn (p.arg 0) else p) s

/-- The reset of a halted partition: queues are disabled, launches end with CANCELLED, blocks end. Stop areas keep their
contents. -/
def Panel.resetPart (p : Panel) (pi : Nat) : Panel :=
  let p1 := ((p.part pi).queues.map (·.1)).foldl (fun (r : Panel) qi => r.disableQueue pi qi) p
  let ls := (p1.launches.filter fun (e : Nat × Launch) => e.2.part == pi).map (·.1)
  let p2 := ls.foldl (fun (r : Panel) l => r.endLaunch l 9 0) p1
  let bs := (p2.blocks.filter fun (e : Nat × Block) => e.2.part == pi && e.2.st != .ended && e.2.st != .retired).map (·.1)
  (bs.foldl (fun (r : Panel) t => r.stopBlock t) p2).lineDown pi

/-- DEBUG_RESET: of a halt of REASON 1 or 3. -/
def execDebugReset (s : State) : Res :=
  onPanel (fun p =>
    let q := p.part (p.arg 0)
    if q.halt ∧ (q.hReason = 1 ∨ q.hReason = 3) then p.resetPart (p.arg 0) else p) s

/-! ### Breakpoints (R471-R473) -/

/-- The instruction caches of a partition give up a line: every copy, whatever its virtual line, and the fetches of it on their way. -/
def Panel.dropCode (p : Panel) (pi asid vline pline : Nat) : Panel :=
  let late := fun (a : Access) =>
    let b := p.block a.btag
    a.kind == .fetch && a.stage != .parked && b.part == pi &&
      ((b.asid == asid && a.va / 64 == vline) || (a.lines.any fun x => x.1 == pline) || a.parts.any fun x => x.line == pline)
  { p with
    cores := p.cores.map fun (e : Nat × Core) => (e.1, { e.2 with
      l1i := e.2.l1i.filter fun l => !(l.part == pi && ((l.asid == asid && l.vline == vline) || l.pline == pline)) })
    accs := p.accs.filter fun (e : Nat × Access) => !late e.2 }

/-- The word BRK puts over a bundle: the P bit stays. -/
def brkWord (old code : Nat) : Nat := bf old 31 31 * 2 ^ 31 + 0x07000900 + code % 256

/-- DEBUG_STORE: BRK over the first word of a bundle, by an S-level store that ignores W and makes every other check; then the
instruction caches are invalidated. A store that a check stops writes nothing, and a class F cause raises the halt line. -/
def execDebugStore (s : State) : Res :=
  onPanel (fun p =>
    let pi := p.arg 0
    let asid := p.arg 1
    let va := p.arg 2
    let code := p.arg 3
    let x := p.part pi
    if va % 4 ≠ 0 ∨ regionOf va ≠ .paged ∨ (SMap.find p.parts pi).isNone then p
    else
      match p.walk pi asid (va / 65536) with
      | .notPresent => p
      | .fatal c => p.schedFatal pi c va
      | .ok t =>
        let pa := t.pfn * 65536 + (va - t.vpn * 65536)
        let o := pa % 64
        match region pa with
        | 0 =>
          (match p.engineRead x (pa / 64) t.key with
          | .error c => c.2.schedFatal pi c.1 va
          | .ok (d, p1) =>
            match p1.engineWrite x (pa / 64) t.key o 4 (brkWord (bf d.toNat (8 * o + 31) (8 * o)) code) true with
            | .error c => c.2.schedFatal pi c.1 va
            | .ok p2 => p2.dropCode pi asid (va / 64) (pa / 64))
        | 2 =>
          let ep := bf pa 47 47
          if p.hostLimit.getD ep 0 < bf pa 46 0 + 4 then p.schedFatal pi 0x35 va
          else
            let r := p.extLine (va / 64)
            if 2 ^ 512 ≤ r.1 then r.2.schedFatal pi 0x35 va
            else
              let n := r.2.extPut pi pa va
              ({ n.2 with outbox := n.2.outbox ++
                  [.pcieWrite ep n.1 (p.hostBase.getD ep 0 + bf pa 46 0) 4 (brkWord (bf r.1 (8 * o + 31) (8 * o)) code)] } : Panel).dropCode
                pi asid (va / 64) (pa / 64)
        | _ =>
          match p.peerWord x pa 4 true with
          | none => p
          | some w =>
            let r := p.extLine (va / 64)
            if 2 ^ 512 ≤ r.1 then r.2.schedFatal pi 0x36 va
            else
              let n := r.2.extPut pi pa va
              (n.2.peerOut n.1 pi (bf pa 47 36) w (bf pa 35 0) 4 1 (brkWord (bf r.1 (8 * o + 31) (8 * o)) code)).dropCode
                pi asid (va / 64) (pa / 64)) s

/-- REPLAY_LATCH_LOAD, while the partition is halted (R473). -/
def execReplayLatchLoad (s : State) : Res :=
  onPanel (fun p =>
    let lc := p.arg 0
    let slot := p.arg 1
    let q := p.part (partOf p lc)
    if q.halt ∧ q.hSites.contains (siteOf p.fabric lc) ∧ (p.ctx lc slot).st ≠ .empty then
      p.updCtx lc slot fun c => { c with replay := some (w64 (p.arg 2)) }
    else p) s

end Sys2Proof.Machine
end

