-- ==== Sys2Proof/Machine/Fabric.lean ====
section
/-! DEFINITION. Route blocks, failures and containment, checkpoints and replay, Svasum links and weight broadcasts
(R18-R20, R119, R477-R496). -/

namespace Sys2Proof.Machine

/-! ### Route blocks (R478-R480) -/

/-- A core's network interface has packets of a class in flight (R479). -/
def Panel.inFlight (p : Panel) (lc cls : Nat) : Bool :=
  let gone := fun (a : Access) => a.stage == .out || a.stage == .performed || a.stage == .error
  match cls with
  | 0 => (p.accs.map (·.2)).any fun a => a.core == lc && a.kind != .send && gone a
  | 1 => (p.accs.map (·.2)).any fun a => a.items != [] && a.target == lc && (a.stage == .performed || a.stage == .error)
  | 2 =>
    ((p.accs.map (·.2)).any fun a => a.core == lc && a.kind == .send && gone a) ||
      p.cores.any fun (e : Nat × Core) => (e.2.fifo ++ e.2.net.map (·.2)).any fun k => k.src == lc && payMsg k.pay
  | _ => false

/-- The partition's route configuration changes; interfaces with packets of a class in flight keep the old route for it. -/
def Panel.adopt (p : Panel) (pi : Nat) (f : Partition → Partition) : Panel :=
  let old := p.part pi
  let p1 := p.updPart pi f
  let changed := [0, 1, 2].filter fun c => cfgRoute old c != cfgRoute (p1.part pi) c
  let cs := (p1.cores.map (·.1)).filter fun lc => inPart old lc
  changed.foldl (fun (r : Panel) c => cs.foldl (fun (r : Panel) lc =>
    if p.inFlight lc c ∧ (SMap.find (r.core lc).route c).isNone then
      (r.updCore lc fun k => { k with route := SMap.set k.route c (cfgRoute old c) }).later 1 .routeAdopt [lc, c]
    else r) r) p1

/-- A logical chiplet lies in a partition. -/
def chipIn (q : Partition) (c : Nat) : Bool :=
  q.cx0 ≤ c % 16 && c % 16 < q.cx0 + q.wc && q.cy0 ≤ c / 16 && c / 16 < q.cy0 + q.hc

/-- A route block is refused: it breaks its table, or a destination chiplet of the partition has its waypoint outside (R478). -/
def routeBad (q : Partition) (l0 : Nat) (table : Nat) : Bool :=
  let mode := fun (i : Nat) => bf l0 (8 * i + 7) (8 * i)
  ([0, 1, 2].any fun i => decide (4 < mode i)) || mode 3 != 0 || decide (bf l0 39 32 < 16) || decide (bf l0 39 32 < bf l0 47 40) ||
    bf l0 55 49 != 0 || bf l0 63 57 != 0 || bf l0 511 192 != 0 ||
    (List.range 256).any fun c => chipIn q c && !chipIn q (bf table (8 * c + 7) (8 * c))

/-- ROUTE_COMMIT: the scheduler reads lines 0 to 4, and adopts or refuses the block (R478). -/
def execRouteCommit (s : State) : Res :=
  onPanel (fun p =>
    let pi := p.arg 0
    let q := p.part pi
    let line := q.base * 2 ^ 25
    let read := fun (r : Except (Nat × Panel) (Nat × Panel)) (k : Nat) => match r with
      | .error c => Except.error c
      | .ok (v, p) => (p.engineRead q (line + k) 0).map fun x => (v + x.1.toNat * 2 ^ (512 * k), x.2)
    if q.count = 0 ∨ q.schedHalted then p
    else
      match (List.range 5).foldl read (.ok (0, p)) with
      | .error c => lineFatal q line c
      | .ok (v, p1) =>
        let l0 := v % 2 ^ 512
        let table := v / 2 ^ 512
        if routeBad q l0 table then p1.ownWrite q line 7 1 1
        else
          (p1.ownWrite q line 7 1 0).adopt pi fun q =>
            { q with
              modes := (List.range 4).map fun i => bf l0 (8 * i + 7) (8 * i)
              thresh := bf l0 39 32, hyst := bf l0 47 40, seed := bf l0 191 128
              table := (List.range 256).map fun c => (c, bf table (8 * c + 7) (8 * c)) }) s

/-- ROUTE_ADOPT: a class of an interface takes the new route once it has no packet in flight (R479). -/
def execRouteAdopt (s : State) : Res :=
  onPanel (fun p =>
    let lc := p.arg 0
    let c := p.arg 1
    if (SMap.find (p.core lc).route c).isNone then p
    else if p.inFlight lc c then p.later 1 .routeAdopt [lc, c]
    else p.updCore lc fun k => { k with route := SMap.del k.route c }) s

/-- AUTO_WINDOW: TWOPHASE goes on or off for every AUTO class from the window's maximum and mean link counts (R480). -/
def execAutoWindow (s : State) : Res :=
  onPanel (fun p =>
    let q := p.part (p.arg 0)
    let m := 16 * p.arg 1
    let a := p.arg 2
    if q.schedHalted then p
    else if q.thresh * a < m then p.adopt (p.arg 0) fun q => { q with autoOn := true }
    else if m < q.hyst * a then p.adopt (p.arg 0) fun q => { q with autoOn := false }
    else p) s

/-! ### Checkpoints (R485-R487) -/

/-- The replayable blocks with a group on a core (R490). -/
def Panel.replayTags (p : Panel) (lc : Nat) : List Nat :=
  (p.blocks.filter fun (e : Nat × Block) =>
    e.2.standing && e.2.replayable && (p.part e.2.part).ckEn && (blockCores e.2).contains lc).map (·.1)

/-- The arrival slot where a thread that is away from a home slot stands. -/
def Panel.awayAt (p : Panel) (lc slot : Nat) : Option (Nat × Nat) :=
  let k := (p.ctx lc slot).homeCore
  ([14, 15].find? fun s => let c := p.ctx k s; c.st != .empty && c.homeCore == lc && c.homeSlot == slot).map fun s => (k, s)

/-- A thread is at a blocking point, or held before a global atomic (R487). -/
def Panel.ckptReady (p : Panel) (lc slot : Nat) : Bool :=
  let ok := fun (s : Nat) (c : Ctx) => p.atPoint s c || c.stall == .ckpt
  let c := p.ctx lc slot
  if c.st = .away then
    match p.awayAt lc slot with
    | some a => ok a.2 (p.ctx a.1 a.2)
    | none => false
  else ok slot c

/-- An engine command delivers into a core's window. -/
def Panel.delivering (p : Panel) (lc : Nat) : Bool :=
  (((p.core lc).fifo ++ (p.core lc).net.map (·.2)).any fun k => match k.pay with | .line .. => true | _ => false) ||
  (p.cores.any fun (e : Nat × Core) =>
    (e.2.walk.busy && !e.2.walk.wb && e.2.walk.dests.contains lc) || e.2.mcrd.any fun x => x.dests.contains lc) ||
  p.clusters.any fun (e : Nat × Cluster) =>
    (e.2.stage.any fun x => x.core == lc + 1) ||
    (e.2.hoop.cmds.any fun x => (blockCores (p.block x.btag)).contains lc) ||
    e.2.relay.any fun (y : Nat × Chan) =>
      y.2.busy && match engPlace p e.1 (engCtx p y.2.core y.2.slot y.2.btag) false (y.2.dst + y.2.done) 1 2 with
        | .lm t _ => t == lc
        | .mem .. => false | .wait _ => false | .fault _ => false | .fatal _ => false

/-- The conditions of R487. -/
def Panel.ckptOk (p : Panel) (lc : Nat) : Bool :=
  !p.delivering lc && (p.replayTags lc).all fun tag =>
    (tagSlots p lc tag).all fun s =>
      let c := p.ctx lc s
      awaySlot s || (p.ckptReady lc s && c.cpc == heldCount (p.blk lc tag) s true && c.tlc == heldCount (p.blk lc tag) s false)

/-- Threads held before a global atomic go on. -/
def Panel.freeAtomics (p : Panel) (lc : Nat) (ok : Bool) : Panel :=
  (p.cores.flatMap fun (e : Nat × Core) => (e.2.ctxs.filter fun (c : Nat × Ctx) => c.2.stall == .ckpt).map fun c => (e.1, c.1)).foldl
    (fun (r : Panel) (k : Nat × Nat) =>
      let c := r.ctx k.1 k.2
      if (if awaySlot k.2 then c.homeCore else k.1) = lc then (r.updCtx k.1 k.2 fun c => { c with ckptOk := ok }).ready k.1 k.2 else r) p

/-- The checkpoint committed: contexts and arrival slots, register space, windows and their words, queue registers, rings, core
control, Osier cells and domains, sequence numbers; and its image written to the core's stake area (R412, R486). -/
def Panel.saveStake (p : Panel) (lc : Nat) : Panel :=
  let tags := p.replayTags lc
  let c := p.core lc
  let mine := fun (s tag : Nat) => awaySlot s || tags.contains tag
  let mem := Memory.slice p.mem (lmA lc 0) (2 ^ 18) 0 ++ Memory.slice p.mem (rsA lc 0) 0x11000 (2 ^ 18)
  let k : Core := { c with
    stakeCtxs := c.ctxs.filter fun (e : Nat × Ctx) => e.2.st != .empty && mine e.1 e.2.btag
    stakeBlk := tags.map fun t => (t, SMap.getD c.blk t {})
    stakeRings := c.rings.filter fun (e : Nat × Ring) => e.2.en && tags.contains e.2.btag
    stakeMem := mem
    stakeFe := c.fe
    stakeWaits := c.waits.filter fun e => e.core != lc
    stakeHq := c.hq
    stakeAccs := (p.accs.map (·.2)).filter fun a => a.core == lc && mine a.slot a.btag
    stakeSeqIn := c.seqIn
    stakeSeqOut := c.seqOut
    stakeValid := true
    ckptReq := false, foreign := false, dirty := [] }
  ((p.setCore lc k).updCluster (clusterOf lc) fun x =>
    { x with
      stake := SMap.set x.stake (coreK lc) (x.cells.filter fun (e : Nat × Cell) => e.1 / 256 == coreK lc)
      stakeDoms := SMap.set x.stakeDoms (coreK lc) x.doms }).writeStake lc

/-- CHECKPOINT: taken at the first moment at which R487 allows it; every source consumed from gets an acknowledgement. Without
checkpoints in the partition a request has no effect (R485, R297). -/
def execCheckpoint (s : State) : Res :=
  onPanel (fun p =>
    let lc := p.arg 0
    let c := p.core lc
    if !c.ckptReq then p
    else if !(p.part (partOf p lc)).ckEn then (p.updCore lc fun c => { c with ckptReq := false }).freeAtomics lc true
    else if !p.ckptOk lc then p.later 1 .checkpoint [lc]
    else
      let p1 := (p.saveStake lc).freeAtomics lc true
      c.seqIn.foldl (fun (r : Panel) e => r.later (8 + 2 * tripHops p.fabric (p.part (partOf p lc)) (siteOf p.fabric lc) (siteOf p.fabric e.1))
        .checkpointAck [e.1, lc, e.2 - 1]) p1) s

/-- CHECKPOINT_PERIOD_EXPIRY: a checkpoint of every core of the partition that holds anything is requested (R485, R487). -/
def execCheckpointPeriodExpiry (s : State) : Res :=
  onPanel (fun p =>
    let pi := p.arg 0
    let q := p.part pi
    if !q.ckEn ∨ q.period = 0 ∨ p.now < q.ckNext then p
    else
      let cs := (p.cores.map (·.1)).filter fun lc => inPart q lc
      ((cs.foldl (fun (r : Panel) lc => r.requestCkpt lc) p).updPart pi fun q => { q with ckNext := p.now + q.period * 65536 }).later
        (q.period * 65536) .checkpointPeriodExpiry [pi]) s

/-- CHECKPOINT_ACK: the sender's log gives up the packets that the destination's checkpoint consumed (R488). Operands: source,
destination, last number consumed. -/
def execCheckpointAck (s : State) : Res :=
  onPanel (fun p => p.updCore (p.arg 0) fun c => { c with log := c.log.filter fun l => !(l.dst == p.arg 1 && decide (l.seq ≤ p.arg 2)) }) s

/-! ### Failures (R482) -/

/-- A containment event for a logical core reaches Umpire. -/
def Panel.containEvent (p : Panel) (lc : Nat) : Panel :=
  if p.fabric.events.contains lc ∨ (p.core lc).failed then p
  else { p with fabric := { p.fabric with events := p.fabric.events ++ [lc] } }

/-- The direction codes of a site's neighbours, and the neighbours. -/
def neighbours (site : Nat) : List (Nat × Nat) := (nextSites site).map fun n => (if n = site + 1 then 0 else if n + 1 = site then 1 else if n = site + 288 then 2 else 3, n)

/-- SITE_FAULT: 0 the site falls silent, 1 its core reports an uncorrectable error of its own state, 2 its router reports a
fault. -/
def execSiteFault (s : State) : Res :=
  onPanel (fun p =>
    let site := p.arg 0
    match p.arg 1 with
    | 0 =>
      let p1 := { p with fabric := { p.fabric with silent := p.fabric.silent ++ [site] } }
      (nextSites site).foldl (fun (r : Panel) n => r.once (4096 - p.now % 4096) .heartbeat [n]) p1
    | 1 => (match coreAtSite p.fabric site with | some lc => p.containEvent lc | none => p)
    | 2 =>
      let p1 := { p with fabric := { p.fabric with badRouter := p.fabric.badRouter ++ [site] } }
      (match coreAtSite p.fabric site with | some lc => p1.containEvent lc | none => p1)
    | _ => p) s

/-- HEARTBEAT: a site in service counts what each neighbour in service has missed; two in a row raise a containment event of the
neighbour's core. -/
def execHeartbeat (s : State) : Res :=
  onPanel (fun p =>
    let site := p.arg 0
    let quiet := fun (n : Nat) => p.fabric.silent.contains n && (coreAtSite p.fabric n).isSome
    if (coreAtSite p.fabric site).isNone ∨ p.fabric.silent.contains site then p
    else
      let p1 := (neighbours site).foldl (fun (r : Panel) e =>
        let k := site * 4 + e.1
        let n := if quiet e.2 then SMap.getD r.fabric.missed k 0 + 1 else 0
        let r1 := { r with fabric := { r.fabric with missed := if n = 0 then SMap.del r.fabric.missed k else SMap.set r.fabric.missed k n } }
        if 2 ≤ n then (match coreAtSite p.fabric e.2 with | some lc => r1.containEvent lc | none => r1) else r1) p
      if (neighbours site).any fun e => quiet e.2 then p1.once 4096 .heartbeat [site] else p1) s

/-! ### Containment (R483-R485, R488-R490) -/

/-- Engine commands that a core has under way are cancelled and their completions discarded, its Osier runs among them (R397, R483). -/
def Panel.cancelEngines (p : Panel) (lc : Nat) : Panel :=
  (p.updCore lc fun c => { c with walk := {}, pf := [], drop := [], mcrd := [], tiles := [] }).updCluster (clusterOf lc) fun c =>
    { c with
      relay := c.relay.map fun (e : Nat × Chan) => if e.2.busy && e.2.core == lc then (e.1, {}) else e
      hoop := { c.hoop with cmds := c.hoop.cmds.filter fun x => x.core != lc, reqs := c.hoop.reqs.filter fun r => r.1 != lc }
      oacts := c.oacts.filter fun o => o.core != lc
      doms := c.doms.map fun (e : Nat × Domain) =>
        if e.2.state == 1 && e.2.core == lc then (e.1, { e.2 with state := 0, remain := 0, begun := false, stopReq := false }) else e }

/-- The slice of a failed core: its dirty lines are written back, or the partition takes SLICE_LOST when it cannot be read; the new
one starts empty, and the requests of the old one are asked of it (R119). -/
def Panel.moveSlice (p : Panel) (lc : Nat) (readable : Bool) : Panel :=
  let s := p.slice lc
  let p1 := if readable && !s.tagBad then s.lines.foldl (fun (r : Panel) l => r.dropLine lc l.line) p else p.sliceLost lc
  let vc := (s.mshr.flatMap (·.waiters) ++ s.ing).map (fun r => (p.now, r)) ++ s.vc
  let p2 := p1.updSlice lc fun t => { vc := vc, cnt := t.cnt }
  if vc = [] then p2 else p2.later 1 .sliceRequest [lc]

/-- TYPE of the mailbox entry by which a router reports a refused table write to Umpire; its number is the model's (R16, R17, R417; log 66,
DESIGN CHOICE). Payload: 0 chiplet table or 1 site map, the entry's index or core, the entry. -/
def refusedWrite : Nat := 0x0006

/-- The cluster of a core has a spare to give (R20). -/
def spareFree (f : Fabric) (lc : Nat) : Bool :=
  let cl := clusterOf lc
  let w := cword f cl
  !bt w 7 && !f.bad.contains (panelSite (physChip f (cl / 24)) (siteIn (cl % 24) (bf w 3 0)))

/-- A write of a chiplet-table entry by Root or Umpire: the routers refuse one without VALID, keep the old entry and report the write to
Umpire (R16). Reserved bits read 0. -/
def Panel.chipWrite (p : Panel) (ch e : Nat) : Panel :=
  if bt e 15 then { p with fabric := { p.fabric with chip := SMap.set p.fabric.chip ch (2 ^ 15 + e % 256) } }
  else p.mailTo 3 refusedWrite [0, ch, e]

/-- The cluster word that a write of core k's intra-chiplet entry asks for; none when a cluster word cannot express it (R17). `c` is the
physical cluster within its chiplet. -/
def entryWord (w c k e : Nat) : Option Nat :=
  let bye := bf w 3 0
  let own := siteIn c (if k < bye then k else k + 1)
  let site := e % 256
  let v := putBits w (8 + k) (8 + k) (bf e 15 15)
  if bt e 14 then
    if site = siteIn c bye ∧ (!bt w 7 ∨ bf w 6 4 = k) then some (putBits v 7 4 (8 + k)) else none
  else if site = own then some (if bt w 7 ∧ bf w 6 4 = k then putBits v 7 4 0 else v)
  else none

/-- A write of a core's intra-chiplet entry: the routers change its cluster's word, or refuse the write and report it to Umpire (R17). -/
def Panel.entryWrite (p : Panel) (lc e : Nat) : Panel :=
  let cl := clusterOf lc
  match entryWord (cword p.fabric cl) (cl % 24) (coreK lc) e with
  | some w => { p with fabric := { p.fabric with cwords := SMap.set p.fabric.cwords cl w } }
  | none => p.mailTo 3 refusedWrite [1, lc, e]

/-- A core's entry rewritten by Umpire: moved onto the bye-stake, or taken out of service (R17, R19, R20). -/
def Panel.rewriteEntry (p : Panel) (lc : Nat) (restored : Bool) : Panel :=
  let cl := clusterOf lc
  let x := expand (cword p.fabric cl) (coreK lc)
  p.entryWrite lc
    (if restored then 2 ^ 15 + 2 ^ 14 + siteIn (cl % 24) (bf (cword p.fabric cl) 3 0)
    else b2n x.2.1 * 2 ^ 14 + siteIn (cl % 24) x.2.2)

/-- A message whose destination is out of service is refused with NOT_PERMITTED; other packets for it go (R460, R485): R485 names no outcome for a load, a
store or an atomic held for a core that gets no spare, and here it is never performed and its sender's counter keeps it (log 86, DESIGN CHOICE). -/
def Panel.refuseHeld (p : Panel) (lc : Nat) : Panel :=
  let ks := (p.core lc).fifo ++ (p.core lc).net.map (·.2)
  ks.foldl (fun (r : Panel) k => match k.pay with
    | .msg _ _ _ _ _ _ _ _ id _ => r.copyDone id 4 lc
    | .handler _ _ _ _ _ id _ => r.copyDone id 4 lc
    | _ => r) (p.updCore lc fun c => { c with fifo := [], net := [] })

/-- A thread of the stake image as it goes on: what it had under way is done again, its gang dissolved (log 19, DEDUCED). -/
def stakeCtx (now : Nat) (parked : Bool) (c : Ctx) : Ctx :=
  { c with
    gang := [], gangStep := 0, stall := .none, gapUntil := 0, since := now
    st := match c.st with
      | .parked => if parked then .parked else if c.wake = .none then .ready else .blocked
      | .blocked => .blocked
      | .away => .away
      | .empty => .empty
      | .ready => .ready | .gap => .ready | .stall => .ready }

/-- A request of a failed core whose response is discarded and which the restored core issues again (R485): those without a number among the
logged packets, which do not stand in a wait table. A numbered one is sent again under its number and has its effect once (R489). -/
def reasked (a : Access) : Bool :=
  (a.stage == .out || a.stage == .performed || a.stage == .error) && match a.kind with
    | .load => true | .vload => true | .fmtLoad => true | .shLoad => true | .fetch => true
    | .store => a.items == [] | .vstore => a.items == [] | .amo => a.items == []
    | .ldsy => false | .ldsyTake => false | .stfl => false | .feclr => false | .send => false | .barrier => false | .twperm => false

/-- The core's state loaded from its stake image for the blocks that are restored. Accesses under way at the checkpoint are issued
again, under numbers of their own when the old requests are still under way (R485); later ones belong to no thread any more. Packets of the replay log that were held for the core are dropped, since the
senders replay them; without checkpoints there is no log, and they are delivered (R47, R485, R488). -/
def Panel.restoreStake (p : Panel) (lc : Nat) (tags : List Nat) : Panel :=
  let c := p.core lc
  let mem1 := tags.foldl (fun m t =>
    let b := p.block t
    Memory.restore m (lmA lc (b.lmBase * 1024)) (b.lmSize * 1024) (Memory.slice c.stakeMem (b.lmBase * 1024) (b.lmSize * 1024) 0)) p.mem
  let mem2 := Memory.restore mem1 (rsA lc 0) 0x11000 (Memory.slice c.stakeMem (2 ^ 18) 0x11000 0)
  let inWin := fun (w : Nat) => tags.any fun t => let b := p.block t; decide (b.lmBase * 128 ≤ w) && decide (w < (b.lmBase + b.lmSize) * 128)
  let keepS := fun (s tag : Nat) => tags.contains tag || (awaySlot s && (p.block tag).standing)
  let old := (p.accs.map (·.2)).filter fun a => a.core == lc
  let was := fun (a : Access) => c.stakeAccs.any fun b => b.id == a.id
  let accs := p.accs.filterMap fun (e : Nat × Access) =>
    if e.2.core != lc || (was e.2 && !reasked e.2) then some e
    else if e.2.stage == .held || e.2.stage == .tlb || e.2.stage == .parked then none
    else some (e.1, { e.2 with slot := 32 })
  let logs := (p.part (partOf p lc)).ckEn
  let held := fun (k : Packet) => !logs || k.seq.isNone || decide (forwardedSrc ≤ k.src)
  let again := c.stakeAccs.filter fun a => keepS a.slot a.btag && !(old.any fun b => b.id == a.id && !reasked b)
  let parked := fun (tag : Nat) => old.any fun a => was a && a.stage == .parked && a.btag == tag
  let k : Core := { c with
    ctxs := (c.stakeCtxs.filter fun (e : Nat × Ctx) => keepS e.1 e.2.btag).map fun (e : Nat × Ctx) => (e.1, stakeCtx p.now (parked e.2.btag) e.2)
    blk := c.stakeBlk.filter fun (e : Nat × BlkCore) => tags.contains e.1
    rings := c.stakeRings.filter fun (e : Nat × Ring) => tags.contains e.2.btag
    fe := c.stakeFe.filter inWin
    waits := c.stakeWaits ++ c.waits.filter fun e => e.core != lc && !e.bar && !c.stakeWaits.contains e
    hq := c.stakeHq.filter fun x => match x with | .handler _ _ _ _ d _ _ => tags.contains d | _ => false
    parked := c.parked.filter fun i => c.stakeAccs.any fun b => b.id == i
    ctr := [], l1d := [], l1i := [], retDepth := 0, wakeAt := 0
    fifo := c.fifo.filter held
    net := c.net.filter fun k => held k.2
    seqIn := if logs then c.stakeSeqIn else c.seqIn
    log := c.log.filter fun l => decide (l.seq < SMap.getD c.stakeSeqOut l.dst 0)
    seqOut := if logs then c.stakeSeqOut else c.seqOut
    ckptReq := false, foreign := false, dirty := [], cycleOff := Config.cycleOffset lc, failed := false }
  let p1 := ({ p with mem := mem2, accs := accs } : Panel).setCore lc k
  let p2 := p1.updCluster (clusterOf lc) fun x =>
    { x with cells := (x.cells.filter fun (e : Nat × Cell) => e.1 / 256 != coreK lc) ++ SMap.getD x.stake (coreK lc) [] }
  let runs := (SMap.getD (p.cluster (clusterOf lc)).stakeDoms (coreK lc) []).filter fun (e : Nat × Domain) => e.2.core == lc && tags.contains e.2.btag
  let p2 := runs.foldl (fun (r : Panel) e =>
    (r.updCluster (clusterOf lc) fun x => { x with doms := SMap.set x.doms e.1 { e.2 with haltStop := e.2.state == 1 } }).domResume (clusterOf lc) e.1) p2
  again.foldl (fun (r : Panel) x =>
    let more := old.any fun b => b.id == x.id
    let a : Access := if more then { x with id := r.nid } else x
    let r : Panel := if more then { r with nid := r.nid + 1 } else r
    let a1 : Access := { a with after := [], stage := .held, got := 0, parts := a.parts.map fun x => { x with done := false }, lines := [] }
    let r1 : Panel := { r with accs := SMap.set r.accs a.id a1 }
    match c.log.find? fun l => match l.acc with | some b => b.id == a.id | none => false with
    | some l => (r1.updAcc a.id fun x => { x with stage := .out }).inject l.dst ⟨l.pay, lc, some l.seq⟩ false
    | none => r1.dispatch a.id) p2

/-- A message whose copy the failed core had answered is replayed for its effect alone. -/
def quietPay (answered : Bool) : Pay → Pay
  | .msg r ws c s l st d q id ci => .msg r ws c s l st d q (if answered then 0 else id) ci
  | .handler ws c s st d id ci => .handler ws c s st d (if answered then 0 else id) ci
  | x => x

/-- Replay: each sender sends again, in sequence order, what the restored core has not consumed (R488). An access whose record has gone
travels with a copy of it that no thread waits for. -/
def Panel.replayTo (p : Panel) (lc : Nat) (had : SMap Nat) : Panel :=
  let c := p.core lc
  p.cores.foldl (fun (r : Panel) (e : Nat × Core) =>
    ((e.2.log.filter fun l => l.dst == lc && decide (SMap.getD c.seqIn e.1 0 ≤ l.seq)).mergeSort fun a b => decide (a.seq ≤ b.seq)).foldl
      (fun (r : Panel) l =>
        let r1 := match l.acc with
          | some a => if (r.acc a.id).isSome then r else { r with accs := SMap.set r.accs a.id { a with slot := 32, stage := .out } }
          | none => r
        r1.inject lc ⟨quietPay (decide (l.seq < SMap.getD had e.1 0)) l.pay, e.1, some l.seq⟩ false) r) p

/-- CONTAINMENT: Umpire fences, stops, restores or ends, remaps, releases and replays a failed core. The second operand says
whether the bye-stake passes its test. In a halted partition it waits (R501). A third operand makes it another table write of Umpire during
containment: 1 of the chiplet table, 2 of the site map, with the index or core in place of the core and the entry as the second (R16). -/
def execContainment (s : State) : Res :=
  onPanel (fun p =>
    let lc := p.arg 0
    let pi := partOf p lc
    if p.arg 2 = 1 then (if p.fabric.events ≠ [] ∧ lc < 256 then p.chipWrite lc (p.arg 1) else p)
    else if p.arg 2 = 2 then (if p.fabric.events ≠ [] ∧ lc < nCores then p.entryWrite lc (p.arg 1) else p)
    else if !p.fabric.events.contains lc then p
    else if (p.part pi).halt then p.later 64 .containment [lc, p.arg 1]
    else
      let site := siteOf p.fabric lc
      let c := p.core lc
      let f := { p.fabric with events := p.fabric.events.filter (· != lc), fenced := p.fabric.fenced ++ [site] }
      let p1 := (({ p with fabric := f } : Panel).cancelEngines lc).moveSlice lc (!p.fabric.badRouter.contains site)
      let spare := spareFree p.fabric lc && p.arg 1 != 0
      let here := (p.blocks.filter fun (e : Nat × Block) => e.2.standing && (blockCores e.2).contains lc).map (·.1)
      let keep := if spare && !c.foreign && c.stakeValid then (p.replayTags lc).filter fun t => (SMap.find c.stakeBlk t).isSome else []
      let gone := here.filter fun t => !keep.contains t
      let p2 := gone.foldl (fun (r : Panel) t => r.endLaunch (r.block t).launch 8 0) p1
      let keep := keep.filter fun t => (p2.block t).standing
      let p3 := p2.rewriteEntry lc spare
      let new := siteOf p3.fabric lc
      let local_ := fun (s : Nat) => (s / 288 % 12) * 18 + s % 288 % 18
      let outcome := if !spare then 2 else if gone = [] then 0 else 1
      let p4 := p3.report 2 0x8202 [pi, outcome, cx lc, cy lc, local_ site, local_ new, chipOf lc]
      if !spare then (p4.updCore lc fun c => { c with failed := true }).refuseHeld lc
      else
        let p5 := (p4.restoreStake lc keep).replayTo lc c.seqIn
        let slots := (p5.core lc).ctxs.map (·.1)
        let p6 := slots.foldl (fun (r : Panel) s => r.rewait lc s) p5
        (p6.stir lc).rouse lc) s

/-! ### Svasum links (R491-R493) -/

def Panel.updPort (p : Panel) (n : Nat) (f : Port → Port) : Panel := { p with svasum := SMap.upd p.svasum n {} f }

/-- Peer requests in flight through a slot whose ports are both down get a negative response (R492). -/
def Panel.dropPeers (p : Panel) : Panel :=
  p.outbox.foldl (fun (r : Panel) o => match o with
    | .peer n port .. =>
      (match extPart p n with
      | some (a, x) => if (p.peerPort (p.block a.btag).part (bf x.pa 47 36)).isNone then r.once 1 .peerResponse [n, 0] else r
      | none =>
        match SMap.find p.extPuts n with
        | some x =>
          if (p.part x.1).ports.any fun (s : Nat × (Nat × Nat)) => (s.2.1 == port || s.2.2 == port) && (p.peerPort x.1 s.1).isNone then
            r.once 1 .peerResponse [n, 0] else r
        | none => r)
    | .pcieRead .. => r | .pcieWrite .. => r | .peerAnswer .. => r | .msix .. => r | .shard .. => r | .shardAsk .. => r | .frame .. => r) p

/-- The offer of every interface of the module: MAJMAX = MAJLOW = 1, MINOR = 0, FEAT = 0 (R500). -/
def ownOffer : Nat := 0x0101

/-- The agreed major version, minor version and features of two offers, or none when the exchange fails (R499). -/
def agreeOn (a b : Nat) : Option (Nat × Nat × Nat) :=
  let m := min (bf a 7 0) (bf b 7 0)
  let minor := fun (o : Nat) => if bf o 7 0 = m then [bf o 23 16] else []
  if m < max (bf a 15 8) (bf b 15 8) then none
  else some (m, (match minor a ++ minor b with
    | [x, y] => min x y
    | [x] => x
    | _ => 0), if bf a 7 0 = m ∧ bf b 7 0 = m then bf a 63 32 &&& bf b 63 32 else 0)

/-- SVASUM_TRAINING: none before the identifier is assigned; a link that fails, or whose two ends carry one identifier, is marked
down and reported to the Link core (R491, R493). Training frames carry the other end's offer, too, the fourth operand, 0 where the other end
is of the same kind; a port whose exchange fails stays down (R499, R500). -/
def execSvasumTraining (s : State) : Res :=
  .next
    (let p := s.panel
    let n := p.arg 0
    let v := agreeOn ownOffer (if p.arg 3 = 0 then ownOffer else p.arg 3)
    if s.front.assigned.isNone ∨ 32 ≤ n then s
    else if p.arg 1 != 0 ∧ p.arg 2 ≠ p.panelId ∧ v.isSome then
      { s with panel := p.updPort n fun x => { x with up := true, training := false, reported := false, agreed := v } }
    else { s with panel := (p.updPort n fun x => { x with up := false, training := false, reported := true, agreed := none }).dropPeers })

/-! ### Weight broadcasts (R494-R496) -/

/-- Cycles that each shard is given. -/
def Plan.allowance (x : Plan) : Nat := 2 * cdiv x.shlen 256 + 50000 * (x.depth + 1)

def Plan.isReader (x : Plan) : Bool := x.parent == 0xFF

def Panel.planOf (p : Panel) (setid : Nat) : Option Plan := p.plans.find? fun x => x.setid == setid && !x.ended

def Panel.setPlan (p : Panel) (x : Plan) : Panel :=
  { p with plans := p.plans.map fun y => if y.setid = x.setid ∧ !y.ended then x else y }

/-- The missing-shard bitmap. -/
def missingMap (x : Plan) : Nat := x.missing.foldl (fun n i => n ||| 2 ^ i) 0

/-- The lines of shard `i`, read at their home slices under the plan's key; none when one of them cannot be read, which is class F (R137, R143,
R145). -/
def shardLines (q : Partition) (x : Plan) (i : Nat) (p : Panel) : Option (List Nat) × Panel :=
  (upto ((x.dest + i * x.shlen) / 64) (x.shlen / 64)).foldl (fun (r : Option (List Nat) × Panel) l =>
    match r.1 with
    | none => r
    | some ls =>
      match r.2.engineRead q l x.key with
      | .ok (d, p1) => (some (ls ++ [d.toNat]), p1)
      | .error e => (none, lineFatal q l e)) (some [], p)

/-- A re-request of a shard at its reader: the shard is read and sent again through the port that the request came in by (R494, R496; log 28). -/
def Panel.sendAgain (p : Panel) (port setid gen i : Nat) : Panel :=
  match p.plans.find? fun x => x.setid == setid && x.gen == gen && x.isReader && x.started && decide (i < x.nshard) with
  | none => p
  | some x =>
    match shardLines (p.part x.part) x i p with
    | (some ls, q) => { q with outbox := q.outbox ++ [.shard port setid gen i ls] }
    | (none, q) => q

/-- The port that the Link core's table names for another panel: that of a valid peer-table slot which names the panel (R43, R492). -/
def Panel.portTo (p : Panel) (panel : Nat) : Option Nat :=
  p.parts.findSome? fun (e : Nat × Partition) => e.2.peers.findSome? fun (w : Nat × W) =>
    if bt w.2.toNat 63 && bf w.2.toNat 57 39 == panel then p.peerPort e.1 w.1 else none

/-- What an accepted frame carries: for another panel it is forwarded without entering the mesh (R492; one that no slot names goes nowhere, log
28); for this panel, a re-request of a shard. -/
def Panel.frameIn (p : Panel) (port : Nat) : Panel :=
  if p.ev.length < 3 then p
  else if p.arg 2 ≠ p.panelId then
    match p.portTo (p.arg 2) with
    | some out => { p with outbox := p.outbox ++ [.frame out (p.arg 2)] }
    | none => p
  else if p.ev.length = 6 then p.sendAgain port (p.arg 3) (p.arg 4) (p.arg 5)
  else p

/-- SVASUM_FRAME: accepted, or refused for its CRC; after 8 failed retries of one frame the link retrains (R491). A third operand names the panel
that the frame is for, and three more a shard that it asks for: set, generation, shard. -/
def execSvasumFrame (s : State) : Res :=
  onPanel (fun p =>
    let n := p.arg 0
    let x := SMap.getD p.svasum n {}
    if 32 ≤ n ∨ !x.up ∨ x.training then p
    else if p.arg 1 != 0 then (p.updPort n fun x => { x with retries := 0, rxSeq := (x.rxSeq + 1) % 2 ^ 32 }).frameIn n
    else if x.retries < 8 then p.updPort n fun x => { x with retries := x.retries + 1 }
    else p.updPort n fun x => { x with training := true, retries := 0 }) s

/-- The end of a panel's part: with every shard present the descriptor is written and WB_DONE posted, else WB_MISSING (R495, R496). A page
of the descriptor that is not present goes before the Memory core, and the write is tried again. -/
def Panel.planEnd (p : Panel) (x : Plan) : Panel :=
  if x.ended ∨ x.present.length + x.missing.length < x.nshard then p
  else
    let over_ := p.setPlan { x with ended := true }
    if x.missing ≠ [] then over_.report 2 0x8206 [x.setid, x.gen, missingMap x]
    else
      match p.frontWrite x.part x.asid true x.descva 64 x.desc with
      | .ok _ q => (q.setPlan { x with ended := true }).report 2 0x8205 [x.setid, x.gen]
      | .fault g => (p.askPage x.part x.asid g).once 4096 .shardTimeout [x.setid, x.nshard]
      | .refuse => over_.report 2 0x8206 [x.setid, x.gen, 0]
      | .fatal c a q => (q.setPlan { x with ended := true }).schedFatal x.part c a

/-- The lines of a shard written at their home slices under the plan's key. -/
def putLines (q : Partition) (key : Nat) : List Nat → Nat → Panel → Panel
  | [], _, p => p
  | v :: t, line, p => putLines q key t (line + 1) (match p.engineWrite q line key 0 64 v true with | .ok r => r | .error e => lineFatal q line e)

/-- A shard sent to every child. -/
def Panel.toChildren (p : Panel) (x : Plan) (i : Nat) (ls : List Nat) : Panel :=
  { p with outbox := p.outbox ++ ((List.range 32).filter fun c => bt x.child c).map fun c => .shard c x.setid x.gen i ls }

/-- Every shard's allowance begins. -/
def Panel.planStart (p : Panel) (x : Plan) : Panel :=
  if x.started then p
  else (List.range x.nshard).foldl (fun (r : Panel) i => r.later (x.allowance + 1) .shardTimeout [x.setid, i]) (p.setPlan { x with started := true })

/-- A shard is asked of the reader again, or missing after three failed requests (R494). -/
def Panel.askShard (p : Panel) (x : Plan) (i : Nat) : Panel :=
  let n := SMap.getD x.tries i 0
  if n < 3 then
    ({ (p.setPlan { x with tries := SMap.set x.tries i (n + 1) }) with outbox := p.outbox ++ [.shardAsk x.parent x.setid x.gen i] } : Panel).later
      (x.allowance + 1) .shardTimeout [x.setid, i]
  else
    let y := { x with missing := x.missing ++ [i] }
    (p.setPlan y).planEnd y

/-- WEIGHT_SHARD_ARRIVAL: operands set, generation, shard, ok, then the shard's 64-byte lines. Refused unless its plan is held. -/
def execWeightShardArrival (s : State) : Res :=
  onPanel (fun p =>
    let i := p.arg 2
    match p.planOf (p.arg 0) with
    | none => p
    | some x0 =>
      if x0.gen ≠ p.arg 1 ∨ x0.isReader ∨ x0.nshard ≤ i ∨ x0.present.contains i ∨ x0.missing.contains i then p
      else
        let p := p.planStart x0
        let x := { x0 with started := true }
        let ls := p.ev.drop 4
        if p.arg 3 = 0 ∨ ls.length ≠ x.shlen / 64 then p.askShard x i
        else
          let y := { x with present := x.present ++ [i] }
          (((putLines (p.part x.part) x.key ls ((x.dest + i * x.shlen) / 64) p).toChildren x i ls).setPlan y).planEnd y) s

/-- SHARD_TIMEOUT: a shard that has not arrived in its allowance. -/
def execShardTimeout (s : State) : Res :=
  onPanel (fun p =>
    let i := p.arg 1
    match p.planOf (p.arg 0) with
    | none => p
    | some x => if i < x.nshard ∧ !x.present.contains i ∧ !x.missing.contains i ∧ !x.isReader then p.askShard x i else p.planEnd x) s

end Sys2Proof.Machine
end

