-- ==== Sys2Proof/Machine/Front.lean ====
section
/-! DEFINITION. Root, Link and Power: bring-up, hard partitions, the host's windows and mailbox, keys, attestation, clocks
(R14, R17, R24, R42-R43, R132, R139, R493-R497, R511-R520). -/

namespace Sys2Proof.Machine

/-! ### Reports (R513, R515) -/

def Front.ep (f : Front) (i : Nat) : Endpoint := SMap.getD f.eps i {}

def Front.updEp (f : Front) (i : Nat) (g : Endpoint → Endpoint) : Front := { f with eps := SMap.upd f.eps i {} g }

/-- The report ring has a free slot. -/
def Endpoint.room (e : Endpoint) : Bool := (e.rpTail + 1) % 16 != e.rpHead

/-- A report written into a free slot. -/
def Endpoint.put (e : Endpoint) (r : Report) : Endpoint :=
  { e with ring := SMap.set e.ring e.rpTail (r.typ, e.rpSeq, r.payload), rpTail := (e.rpTail + 1) % 16, rpSeq := (e.rpSeq + 1) % 256 }

/-- A report for one endpoint: written, or held; beyond 64 held ones an ERRORS report is not posted. -/
def State.postOne (s : State) (i : Nat) (r : Report) : State :=
  let e := s.front.ep i
  if e.held = [] ∧ e.room then
    { s with
      front := s.front.updEp i fun e => e.put r
      panel := { s.panel with outbox := s.panel.outbox ++ [.msix i 1] } }
  else if 64 ≤ e.held.length ∧ r.typ = 0x8201 then s
  else { s with front := s.front.updEp i fun e => { e with held := e.held ++ [r] } }

/-- Reports that wait are posted once READY is set. -/
def State.pump (s : State) : State :=
  if !s.front.ready ∨ s.panel.reports = [] then s
  else
    let s1 : State := { s with panel := { s.panel with reports := [] } }
    s.panel.reports.foldl (fun (s : State) r => if r.ep = 2 then (s.postOne 0 r).postOne 1 r else s.postOne r.ep r) s1

/-- Held reports written while the ring has room. -/
def State.postHeld (s : State) (i : Nat) : Nat → State
  | 0 => s
  | k + 1 =>
    let e := s.front.ep i
    match e.held with
    | [] => s
    | r :: t =>
      if e.room then
        State.postHeld { s with
          front := s.front.updEp i fun e => { e.put r with held := t }
          panel := { s.panel with outbox := s.panel.outbox ++ [.msix i 1] } } i k
      else s

/-! ### Bring-up (R14, R42, R138, R511, R512, R516) -/

/-- Sites of the panel that are the positions of a physical cluster of a physical chiplet. -/
def clusterOfSite (s : Nat) : Nat :=
  let x := s % 288
  let y := s / 288
  ((y / 12) * 16 + x / 18) * 24 + (y % 12 / 3) * 6 + x % 18 / 3

/-- Position of a site within its cluster. -/
def posOfSite (s : Nat) : Nat := s / 288 % 12 % 3 * 3 + s % 288 % 18 % 3

/-- A cluster with two or more failed sites. -/
def twoFailed : List Nat → Bool
  | [] => false
  | s :: t => (t.any fun u => u != s && clusterOfSite u == clusterOfSite s) || twoFailed t

/-- What Root's checks of a firmware copy give: 0 accepted, 1 the ECDSA signature fails under the fused key, 2 the LMS signature, 3 the security
version is below the fused counter (R516). -/
def fwError (f : Front) (x : FwCopy) : Nat :=
  if x.ecdsa ≠ some f.keyEcdsa then 1 else if x.lms ≠ some f.keyLms then 2 else if x.version < f.counter then 3 else 0

/-- The copy that Root accepts, the first of A and B; else the ERROR of copy B (R516). -/
def bootCopy (f : Front) : Except Nat FwCopy :=
  let a := f.flash.getD 0 {}
  let b := f.flash.getD 1 {}
  if fwError f a = 0 then .ok a else if fwError f b = 0 then .ok b else .error (fwError f b)

/-- The fabric after remapping: the centre is each cluster's bye-stake, or the site that failed (R14, R17). -/
def bringFabric (failed : List Nat) : Fabric :=
  { cword0 := 0xFF04, bad := failed
    cwords := failed.foldl (fun (m : SMap Nat) s => SMap.set m (clusterOfSite s) (0xFF00 + posOfSite s)) [] }

/-- The fabric and the cores after bring-up with the cores that stay out of service until the module is serviced: VALID cleared (R20). -/
def stayOut (f : Fabric) (out : List Nat) : Fabric :=
  out.foldl (fun f lc => { f with cwords := SMap.set f.cwords (clusterOf lc) (putBits (cword f (clusterOf lc)) (8 + coreK lc) (8 + coreK lc) 0) }) f

/-- MODULE_RESET: Root passes through the phases to READY, or stops in PHASE 0xFF with an ERROR. Operands: the sites that fail their
test, then HBM training and self-test. The flash, the fuses and the LMS key keep what they hold; a site that ever failed its test stays out
(R1, R14, R516, R517), and so does a core that Umpire has taken out of service (R20; log 88, DEDUCED). -/
def execModuleReset (s : State) : Res :=
  .next
    (let ev := s.panel.ev
    let n := ev.length - 2
    let failed := (s.panel.fabric.bad ++ ev.take n).eraseDups
    let f := s.front
    let out := (f.unserved ++ ((s.panel.cores.filter fun (e : Nat × Core) => e.2.failed).map (·.1))).eraseDups
    let base : Front :=
      { unserved := out, counter := f.counter, lmsUsed := f.lmsUsed, flash := f.flash, keyEcdsa := f.keyEcdsa, keyLms := f.keyLms
        eps := f.eps.map fun (e : Nat × Endpoint) => (e.1, { gts := e.2.gts, width := e.2.width })
        dma := f.dma }
    let p : Panel := { free := s.panel.free, evs := s.panel.evs, fabric := { bad := s.panel.fabric.bad }, hostBase := s.panel.hostBase, hostLimit := s.panel.hostLimit }
    let stop := fun (e : Nat) => ({ panel := p, front := { base with phase := 0xFF, error := e }, turns := s.turns } : State)
    if ev.length < 2 then s
    else if ev.getD (n + 1) 0 = 0 then stop 6
    else
      match bootCopy f with
      | .error e => stop e
      | .ok x =>
        if ev.getD n 0 = 0 then stop 4
        else if twoFailed failed then
          { stop 5 with panel := { p with fabric := { bad := failed } } }
        else
          { panel := { p with fabric := stayOut (bringFabric failed) out, cores := out.foldl (fun (m : SMap Core) lc => SMap.set m lc { failed := true }) [], outbox := [.msix 0 0, .msix 1 0] }
            front := { base with ready := true, phase := 6, progress := 100, version := x.version }
            turns := s.turns })

/-- PCIE_LINK_TRAINING: rate and width of an endpoint's link (R497). A fourth and fifth operand give the host base and limit that Root
sets for the endpoint during bring-up, before READY (R42, R512). -/
def execPcieLinkTraining (s : State) : Res :=
  .next
    (let p := s.panel
    let i := p.arg 0
    if 2 ≤ i then s
    else
      let s1 : State := { s with front := s.front.updEp i fun e => { e with gts := p.arg 1, width := p.arg 2 } }
      if p.ev.length < 5 ∨ s.front.ready then s1
      else { s1 with panel := { p with hostBase := p.hostBase.set i (p.arg 3), hostLimit := p.hostLimit.set i (p.arg 4) } })

/-! ### Partitions (R24, R43, R132, R468) -/

/-- Two rectangles of chiplets share one. -/
def chipsMeet (a b : Partition) : Bool :=
  a.cx0 < b.cx0 + b.wc && b.cx0 < a.cx0 + a.wc && a.cy0 < b.cy0 + b.hc && b.cy0 < a.cy0 + a.hc

/-- A new partition is a rectangle of whole chiplets of the panel, with a range and channels of its own (R24, R132). -/
def partOk (p : Panel) (q : Partition) : Bool :=
  q.wc != 0 && q.hc != 0 && decide (q.cx0 + q.wc ≤ 16) && decide (q.cy0 + q.hc ≤ 16) && decide (q.base + q.count ≤ 1536) && decide (q.base < 2048) &&
    q.chans.length == q.count && q.chans.eraseDups.length == q.count && (q.chans.all fun c => decide (c < 1536)) &&
    p.parts.all fun (e : Nat × Partition) =>
      !chipsMeet q e.2 && !(rangesMeet q.base q.count e.2.base e.2.count) && q.chans.all fun c => !e.2.chans.contains c

/-- Channel list of a partition over the whole panel (R135). -/
def wholeChans : List Nat := (List.range 1536).map fun j => j % 48 * 32 + j / 48

/-- L2BUDGET, STAGETHR and PFCTL of a partition written by Schedule or Debug; what waited for them is looked at again (R433, R454, R455). -/
def Panel.setControls (p : Panel) (pi budget thr pf : Nat) : Panel :=
  let p1 := p.updPart pi fun q =>
    { q with l2budget := bf budget 23 0, stagethr := bf thr 31 0, dbgarm := bt pf 63, yieldDl := bf pf 55 32, parkLimit := bf pf 31 0 }
  let bs := p1.blocks.filter fun (e : Nat × Block) => e.2.part == pi && e.2.st == .resident && p1.anyParked e.1
  (bs.foldl (fun (r : Panel) e => r.once 1 .parklimitExpiry [e.1]) p1).admitNext pi

/-- PARTITION_CREATE. A partition over the whole panel has BASE 0 and every channel, in the order of R135. Operands: partition, rectangle, BASE, COUNT, the channels, the grant mask; then, where firmware sets them,
L2BUDGET, STAGETHR and PFCTL (R433, R454); for a partition that exists those three are written, and nothing else changes. -/
def execPartitionCreate (s : State) : Res :=
  .next
    (let p := s.panel
    let pi := p.arg 0
    let m := p.arg 6
    let pf := p.arg (10 + m)
    let q : Partition :=
      { cx0 := p.arg 1, cy0 := p.arg 2, wc := p.arg 3, hc := p.arg 4, base := p.arg 5, count := m, chans := (p.ev.drop 7).take m
        grant := p.arg (7 + m) % 2 ^ 256, l2budget := bf (p.arg (8 + m)) 23 0, stagethr := bf (p.arg (9 + m)) 31 0 }
    let q := if q.wc = 16 ∧ q.hc = 16 then { q with base := 0, count := 1536, chans := wholeChans } else q
    let q := if p.ev.length ≤ 10 + m then q else { q with dbgarm := bt pf 63, yieldDl := bf pf 55 32, parkLimit := bf pf 31 0 }
    if s.front.ready ∧ (SMap.find p.parts pi).isSome ∧ 10 + m < p.ev.length then
      { s with panel := p.setControls pi (p.arg (8 + m)) (p.arg (9 + m)) pf }
    else if !s.front.ready ∨ 16 ≤ pi ∨ (SMap.find p.parts pi).isSome ∨ !partOk p q then s
    else { s with panel := { p with parts := SMap.set p.parts pi q }.later 4096 .energyCharge [pi] })

/-- Every translation of a partition goes, those that walks under way would give among them. -/
def Panel.dropTlbs (p : Panel) (pi : Nat) : Panel :=
  { p with clusters := p.clusters.map fun (e : Nat × Cluster) => (e.1, { e.2 with
      tlb := e.2.tlb.filter fun t => t.part != pi, wcache := e.2.wcache.filter fun w => w.1 != pi
      wout := e.2.wout.filter fun w => w.1 != pi }) }

/-- PEER_TABLE_WRITE: a valid slot changes after every TLB of the partition has been invalidated (R43). A fourth and fifth operand name
the slot's port and alternate port (R492). -/
def execPeerTableWrite (s : State) : Res :=
  onPanel (fun p =>
    let pi := p.arg 0
    let i := p.arg 1
    let v := w64 (p.arg 2 / 2 ^ 20 * 2 ^ 20)
    let old := SMap.getD (p.part pi).peers i 0
    if 4096 ≤ i ∨ (SMap.find p.parts pi).isNone then p
    else
      let p1 := if bt old.toNat 63 ∧ old ≠ v then p.dropTlbs pi else p
      (p1.putPeer pi i v).updPart pi fun q =>
        { q with ports := if p.ev.length < 5 then q.ports else SMap.set q.ports i (p.arg 3, p.arg 4) }) s

/-! ### The HBM window (R139, R144, R497, R511) -/

/-- Host accesses reach the module through a trained endpoint, and mean something once READY is set. -/
def State.hostOk (s : State) (i : Nat) : Bool := s.front.ready && decide (i < 2) && (s.front.ep i).width != 0

/-- Raw bytes from an HBM offset, line by line: bytes, poisoned, unsupported. -/
def rawBytes : List Part → List Byte → Bool → Bool → Panel → List Byte × Bool × Bool × Panel
  | [], bs, po, ur, p => (bs, po, ur, p)
  | x :: t, bs, po, ur, p =>
    if hbmSize ≤ 64 * x.line then rawBytes t (bs ++ toBytes x.len 0) po true p
    else
      let r := p.rawLine x.line
      rawBytes t (bs ++ toBytes x.len (bf r.1 (8 * (x.off + x.len) - 1) (8 * x.off))) (po || r.2.1) ur r.2.2

/-- Bytes of a mailbox entry (R416): type, version byte, SEQ, and fields at their offsets. -/
def entryBytes (typ ver seq : Nat) (fs : List (Nat × Nat × Nat)) : Nat :=
  fs.foldl (fun v f => putBits v (8 * (f.1 + f.2.1) - 1) (8 * f.1) f.2.2) (typ % 2 ^ 16 + ver % 2 ^ 8 * 2 ^ 16 + seq % 2 ^ 8 * 2 ^ 24)

/-- Places of a report's payload: offset and bytes of each number (R514). -/
def reportPlaces (typ : Nat) : List (Nat × Nat) :=
  if typ = 0x8000 then [(4, 2), (6, 2), (8, 4), (12, 4)]
  else if typ = 0x8201 then [(8, 1), (9, 1), (12, 4), (16, 8)]
  else if typ = 0x8202 then [(8, 1), (9, 1), (12, 1), (13, 1), (16, 2), (18, 2), (20, 2)]
  else if typ = 0x8203 then [(8, 1), (9, 1), (10, 1), (12, 4), (16, 8), (24, 8)]
  else if typ = 0x8204 then [(8, 1), (10, 2), (12, 1)]
  else [(8, 2), (12, 4), (16, 32)]

/-- Places of a request's operands behind its TAG (R514). -/
def requestPlaces (typ : Nat) : List (Nat × Nat) :=
  if typ = 0x0100 then [(8, 32), (40, 8), (48, 4)]
  else if typ = 0x0101 then [(40, 8), (48, 4)]
  else if typ = 0x0103 then [(8, 1)]
  else if typ = 0x0104 ∨ typ = 0x0106 then [(8, 8)]
  else if typ = 0x0105 then [(8, 4)]
  else if typ = 0x0107 then [(8, 2), (12, 4)]
  else if typ = 0x0102 ∨ typ = 0x0108 then [(8, 1)]
  else []

/-- Numbers at their places. -/
def fieldsAt (ps : List (Nat × Nat)) (vs : List Nat) : List (Nat × Nat × Nat) := (ps.zip vs).map fun e => (e.1.1, e.1.2, e.2)

/-- VMAJ and VMIN of an endpoint's mailbox (R499, R500). -/
def Endpoint.version (e : Endpoint) : Nat := match e.agreed with
  | some (m, n, _) => m % 16 * 16 + n % 16
  | none => 16

/-- STATUS (R511). -/
def Front.status (f : Front) : Nat := b2n f.ready * 2 ^ 63 + f.error % 2 ^ 16 * 2 ^ 16 + f.progress % 2 ^ 8 * 2 ^ 8 + f.phase % 2 ^ 8

/-- The 8 bytes at a multiple of 8 of an endpoint's base address register 0 (R511, R513). -/
def Front.bar0Word (f : Front) (i o : Nat) : Nat :=
  let e := f.ep i
  if o = 0 then 0x1F3A + 0x0030 * 2 ^ 16 + Config.stepping.toNat * 2 ^ 32
  else if o = 0x08 then 0x4136353250334758
  else if o = 0x10 then Config.serial % 2 ^ 64
  else if o = 0x18 ∨ o = 0x20 then ownOffer
  else if o = 0x40 then f.status
  else if !f.ready then 0
  else if o = 0x0100 then e.rqTail
  else if o = 0x0108 then e.rqHead
  else if o = 0x0110 then e.rpTail
  else if o = 0x0118 then e.rpHead
  else if 0x1000 ≤ o ∧ o < 0x1400 then
    SMap.getD e.reqs ((o - 0x1000) / 64) 0 / 2 ^ (8 * (o % 64)) % 2 ^ 64
  else if 0x1400 ≤ o ∧ o < 0x1800 then
    (match SMap.find e.ring ((o - 0x1400) / 64) with
    | some (typ, seq, pl) => entryBytes typ e.version seq (fieldsAt (reportPlaces typ) pl) / 2 ^ (8 * (o % 64)) % 2 ^ 64
    | none => 0)
  else 0

/-- Bytes of base address register 0, lowest first (R4, R511). -/
def Front.bar0 (f : Front) (i o n : Nat) : List Byte :=
  (List.range n).map fun k => BitVec.ofNat 8 (f.bar0Word i ((o + k) / 8 * 8) / 2 ^ (8 * ((o + k) % 8)))

/-- HOST_BAR2_READ; before READY every byte reads as zero. With a fourth operand of 1 the read is one of base address register 0. -/
def execHostBar2Read (s : State) : Res :=
  .next
    (let p := s.panel
    let n := p.arg 2
    if 2 ≤ p.arg 0 ∨ (s.front.ep (p.arg 0)).width = 0 then s
    else if p.arg 3 = 1 then { s with front := { s.front with barRead := some (s.front.bar0 (p.arg 0) (p.arg 1) n, false, false) } }
    else if !s.front.ready then { s with front := { s.front with barRead := some (toBytes n 0, false, false) } }
    else
      let r := rawBytes (splitLines id (fun _ => 0) (n + 1) (p.arg 1) 0 n) [] false false p
      { s with panel := r.2.2.2, front := { s.front with barRead := some (r.1, r.2.1, r.2.2.1) } })

/-! ### The host mailbox (R513, R514) -/

/-- RPHEAD written: report slots are freed, and held reports are posted. -/
def State.setRpHead (s : State) (i v : Nat) : State :=
  ({ s with front := s.front.updEp i fun e => { e with rpHead := v % 16 } } : State).postHeld i 16

/-- RPHEAD_WRITE frees report slots; held reports are posted. -/
def execRpheadWrite (s : State) : Res := .next (if !s.hostOk (s.panel.arg 0) then s else s.setRpHead (s.panel.arg 0) (s.panel.arg 1))

/-- A request put into the slot at RQTAIL, when the ring is not full; SEQ counts the entries (R513). -/
def Endpoint.putReq (e : Endpoint) (typ maj : Nat) (fs : List (Nat × Nat × Nat)) : Endpoint :=
  if (e.rqTail + 1) % 16 = e.rqHead then e
  else
    { e with
      rqTail := (e.rqTail + 1) % 16
      reqs := SMap.set e.reqs e.rqTail (entryBytes typ (maj % 16 * 16 + e.version % 16) (e.rqCount + (e.rqTail + 16 - e.rqHead) % 16) fs) }

/-- The first request taken from the ring. -/
def Endpoint.took (e : Endpoint) : Endpoint := { e with rqHead := (e.rqHead + 1) % 16, rqCount := e.rqCount + 1 }

/-- The request at RQHEAD is of a type and a VMAJ and holds some fields. -/
def Endpoint.headIs (e : Endpoint) (typ maj : Nat) (fs : List (Nat × Nat × Nat)) : Bool :=
  let x := SMap.getD e.reqs e.rqHead 0
  bf x 15 0 == typ % 2 ^ 16 && bf x 23 20 == maj % 16 && fs.all fun f => bf x (8 * (f.1 + f.2.1) - 1) (8 * f.1) == f.2.2 % 2 ^ (8 * f.2.1)

/-- The event by which an Ouvpin core takes a request of a type (R514). -/
def reqEvent (typ : Nat) : Instr :=
  if typ = 0x0100 then .attest
  else if typ = 0x0101 then .pubkey
  else if typ = 0x0102 then .keyload
  else if typ = 0x0103 then .keyclear
  else if typ = 0x0104 then .counter
  else if typ = 0x0105 then .panelSet
  else if typ = 0x0106 then .wbPlan
  else if typ = 0x0107 then .wbStart
  else if typ = 0x0108 then .partReset
  else .reservedMailboxRequest

/-- The request at RQHEAD comes before its owner: its event with the operands that its entry holds. A KEYLOAD waits for an event that brings
what its host buffer holds (log 95, DESIGN CHOICE). -/
def State.ringNext (s : State) (i : Nat) : State :=
  let e := s.front.ep i
  let x := SMap.getD e.reqs e.rqHead 0
  let typ := bf x 15 0
  let maj := bf x 23 20
  let ops :=
    if typ = 0 ∧ e.rqCount = 0 then [0, maj, bf x 95 32]
    else (if reqEvent typ = .reservedMailboxRequest then [typ] else (requestPlaces typ).map fun f => bf x (8 * (f.1 + f.2) - 1) (8 * f.1)) ++
      if maj = e.version / 16 then [] else [maj]
  if e.rqTail = e.rqHead ∨ typ = 0x0102 then s
  else { s with panel := s.panel.later 1 (reqEvent typ) ([i + 2, bf x 47 32] ++ ops) }

/-- A host's write to base address register 0: bytes of the request ring, RQTAIL, which is the doorbell and is ignored when it would pass
RQHEAD, and RPHEAD; every other byte ignores it (R511, R513). -/
def State.bar0Write (s : State) (i o n v : Nat) : State :=
  let e := s.front.ep i
  let has := fun (a : Nat) => decide (o ≤ a) && decide (a < o + n)
  let low := fun (a : Nat) => v / 2 ^ (8 * (a - o)) % 16
  let slot := fun (m : SMap Nat) (k : Nat) =>
    let a := o + k
    if 0x1000 ≤ a ∧ a < 0x1400 then
      SMap.set m ((a - 0x1000) / 64) (putBits (SMap.getD m ((a - 0x1000) / 64) 0) (8 * (a % 64) + 7) (8 * (a % 64)) (v / 2 ^ (8 * k) % 256))
    else m
  let s1 : State := { s with front := s.front.updEp i fun e => { e with reqs := (List.range n).foldl slot e.reqs } }
  let s2 : State :=
    if has 0x0100 ∧ (low 0x0100 + 16 - e.rqTail) % 16 + (e.rqTail + 16 - e.rqHead) % 16 < 16 then
      let s2 : State := { s1 with front := s1.front.updEp i fun e => { e with rqTail := low 0x0100 } }
      if e.rqTail = e.rqHead then s2.ringNext i else s2
    else s1
  if has 0x0118 then s2.setRpHead i (low 0x0118) else s2

/-- HOST_BAR2_WRITE; ignored before READY, discarded at and above 3 TiB. With a fifth operand of 1 the write is one of base address
register 0. -/
def execHostBar2Write (s : State) : Res :=
  .next
    (let p := s.panel
    let n := p.arg 2
    if !s.hostOk (p.arg 0) then s
    else if p.arg 4 = 1 then s.bar0Write (p.arg 0) (p.arg 1) n (p.arg 3)
    else
      let ps := (splitLines id (fun _ => 0) (n + 1) (p.arg 1) 0 n).filter fun x => decide (64 * x.line < hbmSize)
      { s with panel := ps.foldl (fun (r : Panel) x => r.rawWrite x.line x.off x.len (p.arg 3 >>> (8 * x.pos))) p })

/-- A request comes before its Ouvpin core, in ring order (R513). An event that names endpoint 0 or 1 is the host's putting the entry into the ring
and its being taken; behind others that wait it is only put. One that names endpoint 2 or 3 takes the entry at RQHEAD of endpoint 0 or 1, when it
is that entry. -/
def State.takeReq (s : State) (typ maj : Nat) (fs : List (Nat × Nat × Nat)) (k : State → State) : State :=
  let a := s.panel.arg 0
  let i := a % 2
  let e := s.front.ep i
  let set := fun (f : Endpoint → Endpoint) => ({ s with front := s.front.updEp i f } : State)
  if !s.hostOk i ∨ 4 ≤ a then s
  else if 2 ≤ a then (if e.rqTail ≠ e.rqHead ∧ e.headIs typ maj fs then (k (set Endpoint.took)).ringNext i else s)
  else if e.rqTail ≠ e.rqHead then set fun e => e.putReq typ maj fs
  else k (set fun e => (e.putReq typ maj fs).took)

/-- A request taken from an endpoint's ring by its Ouvpin core: it gives the state after, a STATUS and the bytes written to the buffer;
the response goes to the same endpoint. The request has `n` operands; one behind them is its VMAJ, the agreed one otherwise: an entry of another
VMAJ is refused (R500). -/
def State.request (s : State) (typ n : Nat) (k : State → State × Nat × Nat) : State :=
  let i := s.panel.arg 0 % 2
  let e := s.front.ep i
  let maj := if s.panel.ev.length ≤ n then e.version / 16 else s.panel.arg n
  s.takeReq typ maj ((4, 2, s.panel.arg 1) :: fieldsAt (requestPlaces typ) (s.panel.ev.drop 2)) fun s1 =>
    let r := if maj = e.version / 16 then k s1 else (s1, 1, 0)
    { r.1 with panel := r.1.panel.report i 0x8000 [s.panel.arg 1, typ, r.2.1, r.2.2] }.pump

/-- Bytes written to a host buffer; too small a buffer gives STATUS 2 (R514). -/
def State.toBuffer (s : State) (ep buf len : Nat) (bs : List Byte) : State × Nat × Nat :=
  if len < bs.length then (s, 2, 0) else ({ s with front := { s.front with dma := s.front.dma ++ [(ep, buf, bs)] } }, 0, bs.length)

/-- The part of an attestation report that is signed first (R514). -/
def attestBody (f : Front) (nonce : Nat) : List Byte :=
  toBytes 32 nonce ++ toBytes 8 Config.serial ++
    toBytes 4 (match f.assigned with | some i => i + 2 ^ 31 | none => 0) ++ toBytes 4 0 ++ toBytes 8 f.version ++ toBytes 8 f.counter ++
    toBytes 2 Config.stages ++ toBytes 62 0 ++ (List.range Config.stages).flatMap fun i => toBytes 48 (Config.measurement i).toNat

/-- ATTEST: both signatures follow; an exhausted LMS key gives EXHAUSTED (R514, R517). -/
def execAttest (s : State) : Res :=
  .next (s.request 0x0100 5 fun t =>
    let p := s.panel
    if 2 ^ 30 ≤ t.front.lmsUsed then (t, 3, 0)
    else
      let b := attestBody t.front (p.arg 2)
      let b1 := b ++ Config.ecdsa b
      let r := t.toBuffer (p.arg 0 % 2) (p.arg 3) (p.arg 4) (b1 ++ Config.lms t.front.lmsUsed b1)
      if r.2.1 = 0 then ({ r.1 with front := { r.1.front with lmsUsed := t.front.lmsUsed + 1 } }, r.2.1, r.2.2) else r)

def execPubkey (s : State) : Res :=
  .next (s.request 0x0101 4 fun t => t.toBuffer (s.panel.arg 0 % 2) (s.panel.arg 2) (s.panel.arg 3) Config.publicKeys)

/-- A key slot given other keys: stored bytes stay, so what they decrypt to changes (R136; log 5, DESIGN CHOICE). -/
def Panel.setKey (p : Panel) (k : Nat) (x : Option KeySlot) : Panel :=
  let old := SMap.getD p.keys k ⟨0, 0⟩
  let new := x.getD ⟨0, 0⟩
  let keys := match x with | some y => SMap.set p.keys k y | none => SMap.del p.keys k
  let frames := (p.hbm.tags.filter fun (e : Nat × Nat) => e.2 == k).map (·.1)
  { p with
    keys := keys
    mem := if old = new then p.mem
      else (frames.flatMap fun f => upto (1024 * f) 1024).foldl (fun (m : Memory) l =>
        Memory.writeN m (64 * l) 64 (aesDec new.key1 new.key2 l (aesEnc old.key1 old.key2 l (hbmLine m l))).toNat) p.mem }

/-- A key slot may change: no partition's grant mask includes it (R518). -/
def keyFree (p : Panel) (k : Nat) : Bool := p.parts.all fun (e : Nat × Partition) => !bt e.2.grant k

/-- KEYLOAD: a key pair whose wrap does not open is refused (R514, R518). -/
def execKeyload (s : State) : Res :=
  .next (s.request 0x0102 6 fun t =>
    let p := s.panel
    let k := p.arg 2
    if k = 0 ∨ 255 < k then (t, 2, 0)
    else if !keyFree t.panel k ∨ p.arg 3 = 0 then (t, 1, 0)
    else ({ t with panel := t.panel.setKey k (some ⟨p.arg 4 % 2 ^ 256, p.arg 5 % 2 ^ 256⟩) }, 0, 0))

def execKeyclear (s : State) : Res :=
  .next (s.request 0x0103 3 fun t =>
    let k := s.panel.arg 2
    if k = 0 ∨ 255 < k then (t, 2, 0)
    else if !keyFree t.panel k then (t, 1, 0)
    else ({ t with panel := t.panel.setKey k none }, 0, 0))

/-- COUNTER: raised, never above the running version (R516). -/
def execCounter (s : State) : Res :=
  .next (s.request 0x0104 3 fun t =>
    let v := s.panel.arg 2
    if v < t.front.counter ∨ t.front.version < v then (t, 1, 0) else ({ t with front := { t.front with counter := v } }, 0, 0))

/-- PANEL_SET, once until module reset (R493). -/
def execPanelSet (s : State) : Res :=
  .next (s.request 0x0105 3 fun t =>
    let v := s.panel.arg 2
    if 2 ^ 19 ≤ v then (t, 2, 0)
    else if t.front.assigned.isSome then (t, 1, 0)
    else ({ t with front := { t.front with assigned := some v }, panel := { t.panel with panelId := v } }, 0, 0))

/-- Bytes of a partition's HBM in frames with key tag 0, read by an Ouvpin core at their home slices; a line that cannot be read is class F (R137,
R143, R145). -/
def ownBytes (q : Partition) : List Part → Nat → Panel → Option Nat × Panel
  | [], v, p => (some v, p)
  | x :: t, v, p =>
    if !inHbm q (64 * x.line) then (none, p)
    else
      match p.engineRead q x.line 0 with
      | .error e => (none, lineFatal q x.line e)
      | .ok (d, r) => ownBytes q t (putBits v (8 * (x.pos + x.len) - 1) (8 * x.pos) (bf d.toNat (8 * (x.off + x.len) - 1) (8 * x.off))) r

/-- The broadcast plan in 128 bytes, or none when it breaks the table of R496. -/
def planRead (p : Panel) (v : Nat) : Option Plan :=
  let f := fun (hi lo : Nat) => bf v hi lo
  let x : Plan :=
    { setid := f 15 0, nshard := f 31 16, gen := f 63 32, dest := f 127 64, shlen := f 154 128, key := f 199 192, parent := f 207 200
      depth := f 215 208, part := f 219 216, child := f 255 224, descva := f 319 256, asid := f 327 320, reader := f 402 384, desc := f 1023 512 }
  let q := p.part x.part
  let n := x.nshard * x.shlen
  if x.nshard = 0 ∨ 256 < x.nshard ∨ f 191 155 ≠ 0 ∨ x.dest % 65536 ≠ 0 ∨ x.shlen % 64 ≠ 0 ∨ x.shlen < 64 ∨ 2 ^ 26 < x.shlen ∨ f 223 220 ≠ 0 ∨
      f 383 328 ≠ 0 ∨ f 447 403 ≠ 0 ∨ f 511 448 ≠ 0 ∨ (x.parent ≠ 0xFF ∧ 32 ≤ x.parent) ∨ (x.parent = 0xFF ∧ (x.depth ≠ 0 ∨ x.reader ≠ p.panelId)) ∨
      bf x.desc 31 0 ≠ x.gen ∨ (SMap.find p.parts x.part).isNone ∨ !inHbm q x.dest ∨ !inHbm q (x.dest + n - 1) ∨ !bt q.grant x.key then none
  else some x

/-- WB_PLAN: the plan's frames are initialised under its key slot, but on the reader (R138, R496). A plan of a set and generation that the
panel holds takes the place of the one held. -/
def execWbPlan (s : State) : Res :=
  .next (s.request 0x0106 3 fun t =>
    let o := s.panel.arg 2
    match t.panel.parts.find? fun (e : Nat × Partition) => inHbm e.2 o with
    | none => (t, 2, 0)
    | some (i, q) =>
      match ownBytes q (splitLines id (fun _ => 0) 129 o 0 128) 0 t.panel with
      | (none, p1) => ({ t with panel := p1 }, 2, 0)
      | (some v, p1) =>
        match planRead p1 v with
        | none => ({ t with panel := p1 }, 2, 0)
        | some x =>
          if x.part ≠ i then ({ t with panel := p1 }, 2, 0)
          else
            let frames := upto (x.dest / 65536) (cdiv (x.nshard * x.shlen) 65536)
            let p2 := if x.isReader then p1 else frames.foldl (fun (r : Panel) g => r.initFrame g x.key) p1
            ({ t with panel := { p2 with plans := (p2.plans.filter fun y => y.setid != x.setid) ++ [x] } }, 0, 0))

/-- The reader's shards sent to its children; one that cannot be read is missing (R494, R496; log 89, DESIGN CHOICE). -/
def Panel.sendShards (p : Panel) (x : Plan) : Panel × List Nat :=
  (List.range x.nshard).foldl (fun (r : Panel × List Nat) i =>
    match shardLines (r.1.part x.part) x i r.1 with
    | (some ls, q) => (q.toChildren x i ls, r.2)
    | (none, q) => (q, r.2 ++ [i])) (p, [])

/-- WB_START: the reader sends its shards to the ports in CHILD, and ends its part (R496). -/
def execWbStart (s : State) : Res :=
  .next (s.request 0x0107 4 fun t =>
    match t.panel.planOf (s.panel.arg 2) with
    | none => (t, 1, 0)
    | some x =>
      if x.gen ≠ s.panel.arg 3 ∨ !x.isReader ∨ x.started then (t, 1, 0)
      else
        let r := t.panel.sendShards x
        let y := { x with started := true, present := (List.range x.nshard).filter fun i => !r.2.contains i, missing := r.2 }
        ({ t with panel := (r.1.setPlan y).planEnd y }, 0, 0))

/-- PART_RESET: of a halted partition (R470, R514). -/
def execPartReset (s : State) : Res :=
  .next (s.request 0x0108 3 fun t =>
    let pi := s.panel.arg 2
    if (t.panel.part pi).halt then ({ t with panel := t.panel.resetPart pi }, 0, 0) else (t, 1, 0))

/-- The host's offer, the first entry that it sends: the version agreed for the endpoint's mailbox, or none when the exchange fails
(R499, R500). -/
def State.offer (s : State) (maj o : Nat) : State :=
  let i := s.panel.arg 0 % 2
  if (s.front.ep i).rqCount ≠ 0 then s
  else s.takeReq 0 maj [(4, 8, o)] fun s1 => { s1 with front := s1.front.updEp i fun e => { e with agreed := agreeOn ownOffer o } }

/-- A request of a reserved type gets STATUS 2 (R514). With the type 0 and a fifth operand the entry is the host's offer; the spec gives it no
TYPE (log 66, DESIGN CHOICE). -/
def execReservedMailboxRequest (s : State) : Res :=
  .next
    (let typ := s.panel.arg 2
    if 0x0100 ≤ typ ∧ typ ≤ 0x0108 then s
    else if typ = 0 ∧ s.panel.ev.length = 5 then s.offer (s.panel.arg 3) (s.panel.arg 4)
    else s.request typ 3 fun t => (t, 2, 0))

/-! ### Power and clocks (R519, R520) -/

/-- A chiplet's clock lowered or raised one step of 50 MHz, between 1.5 GHz and 0.5 GHz. -/
def Front.step (f : Front) (chip : Nat) (down : Bool) : Front :=
  { f with clock := SMap.upd f.clock chip 0 fun n => if down then min (n + 1) 20 else n - 1 }

/-- POWER_WINDOW, every 4 ms: at 20 kW or above every chiplet slows one step; under 19 kW for 64 ms every chiplet but a hot one gains
one. -/
def execPowerWindow (s : State) : Res :=
  .next
    (let mw := s.panel.arg 0
    let f := s.front
    let all := List.range 256
    if 20000000 ≤ mw then { s with front := all.foldl (fun (f : Front) c => f.step c true) { f with cool := 0 } }
    else if mw < 19000000 then
      if f.cool + 1 < 16 then { s with front := { f with cool := f.cool + 1 } }
      else { s with front := (all.filter fun c => !f.hot.contains c && SMap.getD f.clock c 0 != 0).foldl (fun (f : Front) c => f.step c false) { f with cool := 0 } }
    else { s with front := { f with cool := 0 } })

/-- JUNCTION_TEMPERATURE_LIMIT: a chiplet that has reached 95 °C slows one step per ms until it reads below 92 °C. -/
def execJunctionTemperatureLimit (s : State) : Res :=
  .next
    (let c := s.panel.arg 0
    let t := s.panel.arg 1
    let f := s.front
    if 95 ≤ t ∨ (f.hot.contains c ∧ 92 ≤ t) then
      { s with front := { f with hot := if f.hot.contains c then f.hot else f.hot ++ [c] }.step c true }
    else { s with front := { f with hot := f.hot.filter (· != c) } })

/-- THERMAL_TRIP: at 110 °C the module trips its power off; the endpoints drop. -/
def execThermalTrip (s : State) : Res :=
  .next
    (if s.panel.arg 1 < 110 then s
    else { s with front := { s.front with off := true, ready := false, eps := s.front.eps.map fun (e : Nat × Endpoint) => (e.1, { e.2 with gts := 0, width := 0 }) } })

end Sys2Proof.Machine
end

