-- ==== Sys2Proof/Machine/Scalar.lean ====
section
/-! DEFINITION. Scalar integer arithmetic (R275-R280): the AS and AI forms of the A class. -/

namespace Sys2Proof.Machine

/-- A two-source form: the result to d, control to next (R276). -/
def alu2 (f : W → W → W) (d a b : Reg) (s : State) : Res :=
  onPanel (fun p => (p.putG d (f (p.gv a) (p.gv b))).fin) s

/-- A one-source form (R276, R278). -/
def alu1 (f : W → W) (d a : Reg) (s : State) : Res := onPanel (fun p => (p.putG d (f (p.gv a))).fin) s

/-- A Boolean result as 1 or 0. -/
def flag (b : Bool) : W := if b then 1 else 0

/-- MULH (R276): the high half of the signed product, rounding toward −∞. -/
def mulhS (a b : W) : W := BitVec.ofInt 64 (a.toInt * b.toInt / 2 ^ 64)

/-- MULHN (R276). -/
def mulhU (a b : W) : W := w64 (a.toNat * b.toNat / 2 ^ 64)

/-- Quotient of R277. -/
def divS (a b : W) : W := if b = 0 then BitVec.allOnes 64 else BitVec.ofInt 64 (Int.tdiv a.toInt b.toInt)
def divU (a b : W) : W := if b = 0 then BitVec.allOnes 64 else w64 (a.toNat / b.toNat)

/-- Remainder of R277. -/
def remS (a b : W) : W := if b = 0 then a else BitVec.ofInt 64 (a.toInt - b.toInt * Int.tdiv a.toInt b.toInt)
def remU (a b : W) : W := if b = 0 then a else w64 (a.toNat % b.toNat)

/-- Shifts by the low six bits of the amount (R276). -/
def shlW (a b : W) : W := a <<< (b.toNat % 64)
def shrW (a b : W) : W := a >>> (b.toNat % 64)
def sraW (a b : W) : W := a.sshiftRight (b.toNat % 64)

/-- A DIV-group result is written 24 cycles after issue (R277). -/
def divGroup (f : W → W → W) (d a b : Reg) (s : State) : Res :=
  onPanel (fun p =>
    if d = 0 then p.fin
    else
      ((p.updC fun c => { c with div := c.div ++ [(d.toNat, f (p.gv a) (p.gv b), p.now + 24)] }).later 24 .divResult
        [p.cur.core, p.cur.slot]).fin) s

def execAdd (d a b : Reg) (s : State) : Res := alu2 (· + ·) d a b s
def execSub (d a b : Reg) (s : State) : Res := alu2 (· - ·) d a b s
def execMul (d a b : Reg) (s : State) : Res := alu2 (· * ·) d a b s
def execMulh (d a b : Reg) (s : State) : Res := alu2 mulhS d a b s
def execMulhn (d a b : Reg) (s : State) : Res := alu2 mulhU d a b s
def execDiv (d a b : Reg) (s : State) : Res := divGroup divS d a b s
def execDivn (d a b : Reg) (s : State) : Res := divGroup divU d a b s
def execRem (d a b : Reg) (s : State) : Res := divGroup remS d a b s
def execRemn (d a b : Reg) (s : State) : Res := divGroup remU d a b s
def execAnd (d a b : Reg) (s : State) : Res := alu2 (· &&& ·) d a b s
def execOr (d a b : Reg) (s : State) : Res := alu2 (· ||| ·) d a b s
def execXor (d a b : Reg) (s : State) : Res := alu2 (· ^^^ ·) d a b s
def execShl (d a b : Reg) (s : State) : Res := alu2 shlW d a b s
def execShr (d a b : Reg) (s : State) : Res := alu2 shrW d a b s
def execSra (d a b : Reg) (s : State) : Res := alu2 sraW d a b s
def execSlt (d a b : Reg) (s : State) : Res := alu2 (fun x y => flag (x.slt y)) d a b s
def execSltn (d a b : Reg) (s : State) : Res := alu2 (fun x y => flag (x.ult y)) d a b s
def execMin (d a b : Reg) (s : State) : Res := alu2 (fun x y => if x.slt y then x else y) d a b s
def execMax (d a b : Reg) (s : State) : Res := alu2 (fun x y => if x.slt y then y else x) d a b s
def execMinn (d a b : Reg) (s : State) : Res := alu2 (fun x y => if x.ult y then x else y) d a b s
def execMaxn (d a b : Reg) (s : State) : Res := alu2 (fun x y => if x.ult y then y else x) d a b s
def execClz (d a : Reg) (s : State) : Res := alu1 (fun x => w64 (clz64 x.toNat)) d a s
def execCtz (d a : Reg) (s : State) : Res := alu1 (fun x => w64 (ctz64 x.toNat)) d a s
def execPopc (d a : Reg) (s : State) : Res := alu1 (fun x => w64 (popGo 64 x.toNat)) d a s

/-- SEL reads d as its condition (R276). -/
def execSel (d a b : Reg) (s : State) : Res :=
  onPanel (fun p => (p.putG d (if p.gv d ≠ 0 then p.gv a else p.gv b)).fin) s

/-- BEXT (R279). -/
def bextW (a : W) (pos len : Nat) : W := w64 (a.toNat / 2 ^ pos % 2 ^ len)

/-- BINS (R279). -/
def binsW (d a : W) (pos len : Nat) : W :=
  let m := w64 ((2 ^ len - 1) * 2 ^ pos)
  (d &&& ~~~m) ||| w64 (a.toNat % 2 ^ len * 2 ^ pos)

def execBext (d a : Reg) (p l : BitVec 6) (s : State) : Res := alu1 (fun x => bextW x p.toNat (l.toNat + 1)) d a s

/-- BINS reads d (R279). -/
def execBins (d a : Reg) (p l : BitVec 6) (s : State) : Res :=
  onPanel (fun q => (q.putG d (binsW (q.gv d) (q.gv a) p.toNat (l.toNat + 1))).fin) s

def execAddi (d a : Reg) (i : BitVec 16) (s : State) : Res := alu1 (· + i.signExtend 64) d a s
def execAndi (d a : Reg) (i : BitVec 16) (s : State) : Res := alu1 (· &&& i.signExtend 64) d a s
def execOri (d a : Reg) (i : BitVec 16) (s : State) : Res := alu1 (· ||| i.zeroExtend 64) d a s
def execXori (d a : Reg) (i : BitVec 16) (s : State) : Res := alu1 (· ^^^ i.zeroExtend 64) d a s
def execSlti (d a : Reg) (i : BitVec 16) (s : State) : Res := alu1 (fun x => flag (x.slt (i.signExtend 64))) d a s

/-- LUI: sext(imm16) × 2^16 (R278). -/
def execLui (d : Reg) (i : BitVec 16) (s : State) : Res :=
  onPanel (fun p => (p.putG d (i.signExtend 64 <<< 16)).fin) s

def execShli (d a : Reg) (i : BitVec 6) (s : State) : Res := alu1 (fun x => shlW x (i.zeroExtend 64)) d a s
def execShri (d a : Reg) (i : BitVec 6) (s : State) : Res := alu1 (fun x => shrW x (i.zeroExtend 64)) d a s
def execSrai (d a : Reg) (i : BitVec 6) (s : State) : Res := alu1 (fun x => sraW x (i.zeroExtend 64)) d a s

end Sys2Proof.Machine
end

