-- ==== Sys2Proof/Machine/Dispatch.lean ====
section
/-! DEFINITION. The dispatch of every row of the opcode table to its meaning. -/

namespace Sys2Proof.Machine

/-- The meaning of an instruction or event, one arm a constructor. -/
def exec (i : Instr) (s : State) : Host.Outcome State Fault Refusal :=
  match i with
  | .beq a b o => Sys2Proof.Machine.execBeq a b o s
  | .bne a b o => Sys2Proof.Machine.execBne a b o s
  | .blt a b o => Sys2Proof.Machine.execBlt a b o s
  | .bge a b o => Sys2Proof.Machine.execBge a b o s
  | .bltn a b o => Sys2Proof.Machine.execBltn a b o s
  | .bgen a b o => Sys2Proof.Machine.execBgen a b o s
  | .jal o => Sys2Proof.Machine.execJal o s
  | .jalr d a => Sys2Proof.Machine.execJalr d a s
  | .lpc d => Sys2Proof.Machine.execLpc d s
  | .loop a b => Sys2Proof.Machine.execLoop a b s
  | .nop => Sys2Proof.Machine.execNop s
  | .exit => Sys2Proof.Machine.execExit s
  | .yield => Sys2Proof.Machine.execYield s
  | .fuse d m => Sys2Proof.Machine.execFuse d m s
  | .split => Sys2Proof.Machine.execSplit s
  | .brk c => Sys2Proof.Machine.execBrk c s
  | .trap c => Sys2Proof.Machine.execTrap c s
  | .eret => Sys2Proof.Machine.execEret s
  | .ldB d a imm => Sys2Proof.Machine.execLdB d a imm s
  | .ldH d a imm => Sys2Proof.Machine.execLdH d a imm s
  | .ldW d a imm => Sys2Proof.Machine.execLdW d a imm s
  | .ldD d a imm => Sys2Proof.Machine.execLdD d a imm s
  | .ldBz d a imm => Sys2Proof.Machine.execLdBz d a imm s
  | .ldHz d a imm => Sys2Proof.Machine.execLdHz d a imm s
  | .ldWz d a imm => Sys2Proof.Machine.execLdWz d a imm s
  | .ldx d a b h s_ => Sys2Proof.Machine.execLdx d a b h s_ s
  | .pf a b h => Sys2Proof.Machine.execPf a b h s
  | .migr => Sys2Proof.Machine.execMigr s
  | .stB d a imm => Sys2Proof.Machine.execStB d a imm s
  | .stH d a imm => Sys2Proof.Machine.execStH d a imm s
  | .stW d a imm => Sys2Proof.Machine.execStW d a imm s
  | .stD d a imm => Sys2Proof.Machine.execStD d a imm s
  | .stx d a b h s_ => Sys2Proof.Machine.execStx d a b h s_ s
  | .ldbt d a s_ w => Sys2Proof.Machine.execLdbt d a s_ w s
  | .stbt d a w => Sys2Proof.Machine.execStbt d a w s
  | .ldsy d a => Sys2Proof.Machine.execLdsy d a s
  | .ldsyTake d a => Sys2Proof.Machine.execLdsyTake d a s
  | .stfl a b => Sys2Proof.Machine.execStfl a b s
  | .feclr a b => Sys2Proof.Machine.execFeclr a b s
  | .amoadd d a b q r s_ w => Sys2Proof.Machine.execAmoadd d a b q r s_ w s
  | .amoswp d a b q r s_ w => Sys2Proof.Machine.execAmoswp d a b q r s_ w s
  | .amocas d a b q r s_ w => Sys2Proof.Machine.execAmocas d a b q r s_ w s
  | .amoand d a b q r s_ w => Sys2Proof.Machine.execAmoand d a b q r s_ w s
  | .amoor d a b q r s_ w => Sys2Proof.Machine.execAmoor d a b q r s_ w s
  | .amoxor d a b q r s_ w => Sys2Proof.Machine.execAmoxor d a b q r s_ w s
  | .amomin d a b q r s_ w => Sys2Proof.Machine.execAmomin d a b q r s_ w s
  | .amomax d a b q r s_ w => Sys2Proof.Machine.execAmomax d a b q r s_ w s
  | .amominn d a b q r s_ w => Sys2Proof.Machine.execAmominn d a b q r s_ w s
  | .amomaxn d a b q r s_ w => Sys2Proof.Machine.execAmomaxn d a b q r s_ w s
  | .amofadd d a b q r s_ w => Sys2Proof.Machine.execAmofadd d a b q r s_ w s
  | .fence f s_ l => Sys2Proof.Machine.execFence f s_ l s
  | .barinit a b t => Sys2Proof.Machine.execBarinit a b t s
  | .bararr a => Sys2Proof.Machine.execBararr a s
  | .barwait a => Sys2Proof.Machine.execBarwait a s
  | .barexp a b => Sys2Proof.Machine.execBarexp a b s
  | .bartest d a => Sys2Proof.Machine.execBartest d a s
  | .waitc l s_ c t => Sys2Proof.Machine.execWaitc l s_ c t s
  | .hold n => Sys2Proof.Machine.execHold n s
  | .send a b n => Sys2Proof.Machine.execSend a b n s
  | .sendh a b n => Sys2Proof.Machine.execSendh a b n s
  | .mcast a b n => Sys2Proof.Machine.execMcast a b n s
  | .mcrd d a b l => Sys2Proof.Machine.execMcrd d a b l s
  | .ringwait n => Sys2Proof.Machine.execRingwait n s
  | .ringpop d n => Sys2Proof.Machine.execRingpop d n s
  | .rhops d a => Sys2Proof.Machine.execRhops d a s
  | .rcopy d a b c => Sys2Proof.Machine.execRcopy d a b c s
  | .l2pf d a b => Sys2Proof.Machine.execL2pf d a b s
  | .l2drop a b => Sys2Proof.Machine.execL2drop a b s
  | .twperm a => Sys2Proof.Machine.execTwperm a s
  | .estat d e => Sys2Proof.Machine.execEstat d e s
  | .rcopy2d s_ a b c => Sys2Proof.Machine.execRcopy2d s_ a b c s
  | .twalk s_ a b => Sys2Proof.Machine.execTwalk s_ a b s
  | .twalkWb s_ b => Sys2Proof.Machine.execTwalkWb s_ b s
  | .hlease a n => Sys2Proof.Machine.execHlease a n s
  | .hfree => Sys2Proof.Machine.execHfree s
  | .hzero s_ => Sys2Proof.Machine.execHzero s_ s
  | .hlda s_ a b => Sys2Proof.Machine.execHlda s_ a b s
  | .hldb s_ a b => Sys2Proof.Machine.execHldb s_ a b s
  | .hldbt s_ a b => Sys2Proof.Machine.execHldbt s_ a b s
  | .hrot => Sys2Proof.Machine.execHrot s
  | .hmma => Sys2Proof.Machine.execHmma s
  | .hmmar => Sys2Proof.Machine.execHmmar s
  | .hstc s_ a b => Sys2Proof.Machine.execHstc s_ a b s
  | .haccRd a v imm => Sys2Proof.Machine.execHaccRd a v imm s
  | .haccWr a v imm => Sys2Proof.Machine.execHaccWr a v imm s
  | .tld s_ a b t => Sys2Proof.Machine.execTld s_ a b t s
  | .tst s_ a b t => Sys2Proof.Machine.execTst s_ a b t s
  | .tldt s_ a b t => Sys2Proof.Machine.execTldt s_ a b t s
  | .tstt s_ a b t => Sys2Proof.Machine.execTstt s_ a b t s
  | .opatch a b => Sys2Proof.Machine.execOpatch a b s
  | .ocfg a b n => Sys2Proof.Machine.execOcfg a b n s
  | .oset a b => Sys2Proof.Machine.execOset a b s
  | .oget d a => Sys2Proof.Machine.execOget d a s
  | .orun a l n => Sys2Proof.Machine.execOrun a l n s
  | .ostop n => Sys2Proof.Machine.execOstop n s
  | .osave a n => Sys2Proof.Machine.execOsave a n s
  | .orest a n => Sys2Proof.Machine.execOrest a n s
  | .ostat d n => Sys2Proof.Machine.execOstat d n s
  | .oinj a b => Sys2Proof.Machine.execOinj a b s
  | .vld d a b h v => Sys2Proof.Machine.execVld d a b h v s
  | .vst d a b h v => Sys2Proof.Machine.execVst d a b h v s
  | .vldb d a b h v => Sys2Proof.Machine.execVldb d a b h v s
  | .vldx d a b m f imm v => Sys2Proof.Machine.execVldx d a b m f imm v s
  | .vstx d a b m f imm v => Sys2Proof.Machine.execVstx d a b m f imm v s
  | .vldbt d a b v => Sys2Proof.Machine.execVldbt d a b v s
  | .vstbt d a b v => Sys2Proof.Machine.execVstbt d a b v s
  | .qpush a q => Sys2Proof.Machine.execQpush a q s
  | .qpop d q => Sys2Proof.Machine.execQpop d q s
  | .qpeek d q => Sys2Proof.Machine.execQpeek d q s
  | .qlen d q => Sys2Proof.Machine.execQlen d q s
  | .shld s_ a => Sys2Proof.Machine.execShld s_ a s
  | .shst s_ a => Sys2Proof.Machine.execShst s_ a s
  | .shset s_ imm f => Sys2Proof.Machine.execShset s_ imm f s
  | .shsetg s_ b f => Sys2Proof.Machine.execShsetg s_ b f s
  | .shget s_ a f => Sys2Proof.Machine.execShget s_ a f s
  | .vwset a w => Sys2Proof.Machine.execVwset a w s
  | .vwget d w => Sys2Proof.Machine.execVwget d w s
  | .crrd d c => Sys2Proof.Machine.execCrrd d c s
  | .crwr a c => Sys2Proof.Machine.execCrwr a c s
  | .crset a c => Sys2Proof.Machine.execCrset a c s
  | .crclr a c => Sys2Proof.Machine.execCrclr a c s
  | .ckpt => Sys2Proof.Machine.execCkpt s
  | .icinv a b => Sys2Proof.Machine.execIcinv a b s
  | .tlbinv a b => Sys2Proof.Machine.execTlbinv a b s
  | .halt => Sys2Proof.Machine.execHalt s
  | .add d a b => Sys2Proof.Machine.execAdd d a b s
  | .sub d a b => Sys2Proof.Machine.execSub d a b s
  | .mul d a b => Sys2Proof.Machine.execMul d a b s
  | .mulh d a b => Sys2Proof.Machine.execMulh d a b s
  | .mulhn d a b => Sys2Proof.Machine.execMulhn d a b s
  | .div d a b => Sys2Proof.Machine.execDiv d a b s
  | .divn d a b => Sys2Proof.Machine.execDivn d a b s
  | .rem d a b => Sys2Proof.Machine.execRem d a b s
  | .remn d a b => Sys2Proof.Machine.execRemn d a b s
  | .and d a b => Sys2Proof.Machine.execAnd d a b s
  | .or d a b => Sys2Proof.Machine.execOr d a b s
  | .xor d a b => Sys2Proof.Machine.execXor d a b s
  | .shl d a b => Sys2Proof.Machine.execShl d a b s
  | .shr d a b => Sys2Proof.Machine.execShr d a b s
  | .sra d a b => Sys2Proof.Machine.execSra d a b s
  | .slt d a b => Sys2Proof.Machine.execSlt d a b s
  | .sltn d a b => Sys2Proof.Machine.execSltn d a b s
  | .min d a b => Sys2Proof.Machine.execMin d a b s
  | .max d a b => Sys2Proof.Machine.execMax d a b s
  | .minn d a b => Sys2Proof.Machine.execMinn d a b s
  | .maxn d a b => Sys2Proof.Machine.execMaxn d a b s
  | .clz d a => Sys2Proof.Machine.execClz d a s
  | .ctz d a => Sys2Proof.Machine.execCtz d a s
  | .popc d a => Sys2Proof.Machine.execPopc d a s
  | .sel d a b => Sys2Proof.Machine.execSel d a b s
  | .bext d a p l => Sys2Proof.Machine.execBext d a p l s
  | .bins d a p l => Sys2Proof.Machine.execBins d a p l s
  | .addi d a imm => Sys2Proof.Machine.execAddi d a imm s
  | .andi d a imm => Sys2Proof.Machine.execAndi d a imm s
  | .ori d a imm => Sys2Proof.Machine.execOri d a imm s
  | .xori d a imm => Sys2Proof.Machine.execXori d a imm s
  | .slti d a imm => Sys2Proof.Machine.execSlti d a imm s
  | .lui d imm => Sys2Proof.Machine.execLui d imm s
  | .shli d a imm => Sys2Proof.Machine.execShli d a imm s
  | .shri d a imm => Sys2Proof.Machine.execShri d a imm s
  | .srai d a imm => Sys2Proof.Machine.execSrai d a imm s
  | .vadd d a b f m r s_ => Sys2Proof.Machine.execVadd d a b f m r s_ s
  | .vsub d a b f m r s_ => Sys2Proof.Machine.execVsub d a b f m r s_ s
  | .vmul d a b f m r s_ => Sys2Proof.Machine.execVmul d a b f m r s_ s
  | .vfma d a b f m r s_ => Sys2Proof.Machine.execVfma d a b f m r s_ s
  | .vfms d a b f m r s_ => Sys2Proof.Machine.execVfms d a b f m r s_ s
  | .vfnma d a b f m r s_ => Sys2Proof.Machine.execVfnma d a b f m r s_ s
  | .vmin d a b f m r s_ => Sys2Proof.Machine.execVmin d a b f m r s_ s
  | .vmax d a b f m r s_ => Sys2Proof.Machine.execVmax d a b f m r s_ s
  | .vand d a b f m r => Sys2Proof.Machine.execVand d a b f m r s
  | .vor d a b f m r => Sys2Proof.Machine.execVor d a b f m r s
  | .vxor d a b f m r => Sys2Proof.Machine.execVxor d a b f m r s
  | .vshl d a b f m r s_ => Sys2Proof.Machine.execVshl d a b f m r s_ s
  | .vshr d a b f m r => Sys2Proof.Machine.execVshr d a b f m r s
  | .vsra d a b f m r => Sys2Proof.Machine.execVsra d a b f m r s
  | .vcmp c d a b f m r => Sys2Proof.Machine.execVcmp c d a b f m r s
  | .vsel d a b f m r => Sys2Proof.Machine.execVsel d a b f m r s
  | .vbcast d a f m r => Sys2Proof.Machine.execVbcast d a f m r s
  | .vins d a b f m r => Sys2Proof.Machine.execVins d a b f m r s
  | .vext d a b f r => Sys2Proof.Machine.execVext d a b f r s
  | .vperm d a b f m r => Sys2Proof.Machine.execVperm d a b f m r s
  | .vshuf d a b f p r => Sys2Proof.Machine.execVshuf d a b f p r s
  | .vred d a o f m r s_ => Sys2Proof.Machine.execVred d a o f m r s_ s
  | .vscan d a o f m r s_ => Sys2Proof.Machine.execVscan d a o f m r s_ s
  | .vdot d a b f m r s_ => Sys2Proof.Machine.execVdot d a b f m r s_ s
  | .vmov d a f m r => Sys2Proof.Machine.execVmov d a f m r s
  | .vabs d a f m r s_ => Sys2Proof.Machine.execVabs d a f m r s_ s
  | .vneg d a f m r s_ => Sys2Proof.Machine.execVneg d a f m r s_ s
  | .vnot d a f m r => Sys2Proof.Machine.execVnot d a f m r s
  | .vrcp d a f m r s_ => Sys2Proof.Machine.execVrcp d a f m r s_ s
  | .vrsq d a f m r s_ => Sys2Proof.Machine.execVrsq d a f m r s_ s
  | .vexp2 d a f m r s_ => Sys2Proof.Machine.execVexp2 d a f m r s_ s
  | .vlog2 d a f m r s_ => Sys2Proof.Machine.execVlog2 d a f m r s_ s
  | .mset d a f => Sys2Proof.Machine.execMset d a f s
  | .mand d a b => Sys2Proof.Machine.execMand d a b s
  | .mor d a b => Sys2Proof.Machine.execMor d a b s
  | .mnot d a => Sys2Proof.Machine.execMnot d a s
  | .vcvt d a b f m r s_ => Sys2Proof.Machine.execVcvt d a b f m r s_ s
  | .vqnt d a b r s_ => Sys2Proof.Machine.execVqnt d a b r s_ s
  | .vdqnt d a r s_ => Sys2Proof.Machine.execVdqnt d a r s_ s
  | .vrscale d a b r s_ => Sys2Proof.Machine.execVrscale d a b r s_ s
  | .vpack d a b f m r s_ => Sys2Proof.Machine.execVpack d a b f m r s_ s
  | .vunpk d a b f m r s_ => Sys2Proof.Machine.execVunpk d a b f m r s_ s
  | .ogetVector d g f m => Sys2Proof.Machine.execOgetVector d g f m s
  | .osetVector a g f m => Sys2Proof.Machine.execOsetVector a g f m s
  | .divResult => Sys2Proof.Machine.execDivResult s
  | .issueGapEnd => Sys2Proof.Machine.execIssueGapEnd s
  | .holdEnd => Sys2Proof.Machine.execHoldEnd s
  | .fuseTimeout => Sys2Proof.Machine.execFuseTimeout s
  | .barrierStaggerEnd => Sys2Proof.Machine.execBarrierStaggerEnd s
  | .migrateAfterStall => Sys2Proof.Machine.execMigrateAfterStall s
  | .waitTableRetry => Sys2Proof.Machine.execWaitTableRetry s
  | .retentionEntry => Sys2Proof.Machine.execRetentionEntry s
  | .bankWake => Sys2Proof.Machine.execBankWake s
  | .remoteAccessArrival => Sys2Proof.Machine.execRemoteAccessArrival s
  | .remoteAtomicArrival => Sys2Proof.Machine.execRemoteAtomicArrival s
  | .barrierOpArrival => Sys2Proof.Machine.execBarrierOpArrival s
  | .pendDecrement => Sys2Proof.Machine.execPendDecrement s
  | .twpermArrival => Sys2Proof.Machine.execTwpermArrival s
  | .messageArrival => Sys2Proof.Machine.execMessageArrival s
  | .handlerMessageArrival => Sys2Proof.Machine.execHandlerMessageArrival s
  | .handlerStart => Sys2Proof.Machine.execHandlerStart s
  | .migrationContextArrival => Sys2Proof.Machine.execMigrationContextArrival s
  | .migrationBounceArrival => Sys2Proof.Machine.execMigrationBounceArrival s
  | .homeReturnArrival => Sys2Proof.Machine.execHomeReturnArrival s
  | .wakeMessage => Sys2Proof.Machine.execWakeMessage s
  | .lineDelivery => Sys2Proof.Machine.execLineDelivery s
  | .remoteLoadResponse => Sys2Proof.Machine.execRemoteLoadResponse s
  | .loadResponse => Sys2Proof.Machine.execLoadResponse s
  | .storeAcknowledgement => Sys2Proof.Machine.execStoreAcknowledgement s
  | .messageResponse => Sys2Proof.Machine.execMessageResponse s
  | .errorResponse => Sys2Proof.Machine.execErrorResponse s
  | .l1FillResponse => Sys2Proof.Machine.execL1FillResponse s
  | .messageDivert => Sys2Proof.Machine.execMessageDivert s
  | .sliceRequest => Sys2Proof.Machine.execSliceRequest s
  | .mcrdLineRequest => Sys2Proof.Machine.execMcrdLineRequest s
  | .l2pfLineRequest => Sys2Proof.Machine.execL2pfLineRequest s
  | .l2dropLineRequest => Sys2Proof.Machine.execL2dropLineRequest s
  | .hbmFillReturn => Sys2Proof.Machine.execHbmFillReturn s
  | .l2Scrub => Sys2Proof.Machine.execL2Scrub s
  | .hbmScrub => Sys2Proof.Machine.execHbmScrub s
  | .frameInitialisation => Sys2Proof.Machine.execFrameInitialisation s
  | .hostRegionAccess => Sys2Proof.Machine.execHostRegionAccess s
  | .hostCompletion => Sys2Proof.Machine.execHostCompletion s
  | .peerRequest => Sys2Proof.Machine.execPeerRequest s
  | .peerResponse => Sys2Proof.Machine.execPeerResponse s
  | .tlbWalkComplete => Sys2Proof.Machine.execTlbWalkComplete s
  | .pageResolution => Sys2Proof.Machine.execPageResolution s
  | .tlbinvCompletion => Sys2Proof.Machine.execTlbinvCompletion s
  | .engineLineData => Sys2Proof.Machine.execEngineLineData s
  | .relayComplete => Sys2Proof.Machine.execRelayComplete s
  | .mcrdComplete => Sys2Proof.Machine.execMcrdComplete s
  | .twalkTile => Sys2Proof.Machine.execTwalkTile s
  | .twalkComplete => Sys2Proof.Machine.execTwalkComplete s
  | .l2pfComplete => Sys2Proof.Machine.execL2pfComplete s
  | .l2dropComplete => Sys2Proof.Machine.execL2dropComplete s
  | .heldCompletionLand => Sys2Proof.Machine.execHeldCompletionLand s
  | .tileOpComplete => Sys2Proof.Machine.execTileOpComplete s
  | .hoopCommandComplete => Sys2Proof.Machine.execHoopCommandComplete s
  | .hoopLeaseGrant => Sys2Proof.Machine.execHoopLeaseGrant s
  | .hoopLeaseExpiry => Sys2Proof.Machine.execHoopLeaseExpiry s
  | .osierBoundary => Sys2Proof.Machine.execOsierBoundary s
  | .osierStrokeEnqueue => Sys2Proof.Machine.execOsierStrokeEnqueue s
  | .alignedRunStart => Sys2Proof.Machine.execAlignedRunStart s
  | .blockPlacement => Sys2Proof.Machine.execBlockPlacement s
  | .blockRetire => Sys2Proof.Machine.execBlockRetire s
  | .parklimitExpiry => Sys2Proof.Machine.execParklimitExpiry s
  | .blockCapture => Sys2Proof.Machine.execBlockCapture s
  | .yieldDeadline => Sys2Proof.Machine.execYieldDeadline s
  | .readmission => Sys2Proof.Machine.execReadmission s
  | .haltLineArrival => Sys2Proof.Machine.execHaltLineArrival s
  | .quiesce => Sys2Proof.Machine.execQuiesce s
  | .debugHaltRequest => Sys2Proof.Machine.execDebugHaltRequest s
  | .haltRelease => Sys2Proof.Machine.execHaltRelease s
  | .debugReset => Sys2Proof.Machine.execDebugReset s
  | .debugStore => Sys2Proof.Machine.execDebugStore s
  | .replayLatchLoad => Sys2Proof.Machine.execReplayLatchLoad s
  | .heartbeat => Sys2Proof.Machine.execHeartbeat s
  | .containment => Sys2Proof.Machine.execContainment s
  | .checkpoint => Sys2Proof.Machine.execCheckpoint s
  | .checkpointPeriodExpiry => Sys2Proof.Machine.execCheckpointPeriodExpiry s
  | .checkpointAck => Sys2Proof.Machine.execCheckpointAck s
  | .routeCommit => Sys2Proof.Machine.execRouteCommit s
  | .routeAdopt => Sys2Proof.Machine.execRouteAdopt s
  | .autoWindow => Sys2Proof.Machine.execAutoWindow s
  | .svasumFrame => Sys2Proof.Machine.execSvasumFrame s
  | .svasumTraining => Sys2Proof.Machine.execSvasumTraining s
  | .weightShardArrival => Sys2Proof.Machine.execWeightShardArrival s
  | .shardTimeout => Sys2Proof.Machine.execShardTimeout s
  | .queueEnable => Sys2Proof.Machine.execQueueEnable s
  | .queueDisable => Sys2Proof.Machine.execQueueDisable s
  | .queueUnmap => Sys2Proof.Machine.execQueueUnmap s
  | .queueRemap => Sys2Proof.Machine.execQueueRemap s
  | .qcbTailWrite => Sys2Proof.Machine.execQcbTailWrite s
  | .qcbWakeWrite => Sys2Proof.Machine.execQcbWakeWrite s
  | .qcbErrackWrite => Sys2Proof.Machine.execQcbErrackWrite s
  | .qcbCancelWrite => Sys2Proof.Machine.execQcbCancelWrite s
  | .queueWaitRetest => Sys2Proof.Machine.execQueueWaitRetest s
  | .nopPacket => Sys2Proof.Machine.execNopPacket s
  | .launchPacket => Sys2Proof.Machine.execLaunchPacket s
  | .launchrange => Sys2Proof.Machine.execLaunchrange s
  | .indirect => Sys2Proof.Machine.execIndirect s
  | .returnPacket => Sys2Proof.Machine.execReturnPacket s
  | .pred => Sys2Proof.Machine.execPred s
  | .loopPacket => Sys2Proof.Machine.execLoopPacket s
  | .signal => Sys2Proof.Machine.execSignal s
  | .waitsig => Sys2Proof.Machine.execWaitsig s
  | .fetchfence => Sys2Proof.Machine.execFetchfence s
  | .weightsel => Sys2Proof.Machine.execWeightsel s
  | .copyPacket => Sys2Proof.Machine.execCopyPacket s
  | .copyComplete => Sys2Proof.Machine.execCopyComplete s
  | .admission => Sys2Proof.Machine.execAdmission s
  | .stagingComplete => Sys2Proof.Machine.execStagingComplete s
  | .completionRecordWrite => Sys2Proof.Machine.execCompletionRecordWrite s
  | .energyCharge => Sys2Proof.Machine.execEnergyCharge s
  | .huddleRequest => Sys2Proof.Machine.execHuddleRequest s
  | .huddleWindowClose => Sys2Proof.Machine.execHuddleWindowClose s
  | .huddleFetchAdd => Sys2Proof.Machine.execHuddleFetchAdd s
  | .moduleReset => Sys2Proof.Machine.execModuleReset s
  | .pcieLinkTraining => Sys2Proof.Machine.execPcieLinkTraining s
  | .hostBar2Read => Sys2Proof.Machine.execHostBar2Read s
  | .hostBar2Write => Sys2Proof.Machine.execHostBar2Write s
  | .rpheadWrite => Sys2Proof.Machine.execRpheadWrite s
  | .attest => Sys2Proof.Machine.execAttest s
  | .pubkey => Sys2Proof.Machine.execPubkey s
  | .keyload => Sys2Proof.Machine.execKeyload s
  | .keyclear => Sys2Proof.Machine.execKeyclear s
  | .counter => Sys2Proof.Machine.execCounter s
  | .panelSet => Sys2Proof.Machine.execPanelSet s
  | .wbPlan => Sys2Proof.Machine.execWbPlan s
  | .wbStart => Sys2Proof.Machine.execWbStart s
  | .partReset => Sys2Proof.Machine.execPartReset s
  | .reservedMailboxRequest => Sys2Proof.Machine.execReservedMailboxRequest s
  | .powerWindow => Sys2Proof.Machine.execPowerWindow s
  | .junctionTemperatureLimit => Sys2Proof.Machine.execJunctionTemperatureLimit s
  | .thermalTrip => Sys2Proof.Machine.execThermalTrip s
  | .siteFault => Sys2Proof.Machine.execSiteFault s
  | .softError => Sys2Proof.Machine.execSoftError s
  | .partitionCreate => Sys2Proof.Machine.execPartitionCreate s
  | .peerTableWrite => Sys2Proof.Machine.execPeerTableWrite s
  | .pageTableChange => Sys2Proof.Machine.execPageTableChange s
  | .fetchAheadRead => Sys2Proof.Machine.execFetchAheadRead s

end Sys2Proof.Machine
end

