-- ==== Sys2Proof/Machine/Uses.lean ====
section
/-! DEFINITION. The registers and register-space bytes that each instruction names, for the scoreboard of R288 and the bank wake
of R247. -/

namespace Sys2Proof.Machine

/-- A piece of register space that an instruction names: a vector, a tile view, or operands whose extent depends on their formats, for
which all of it counts. -/
inductive RsUse where
  | vec (i : Nat)
  | tile (i : Nat)
  | all
  deriving DecidableEq, Repr

/-- What an instruction names: g registers read or written, shape registers, register space read and written. -/
structure Uses where
  g : List Nat := []
  sh : List Nat := []
  rd : List RsUse := []
  wr : List RsUse := []
  deriving DecidableEq, Repr

/-- The registers an instruction names (R254-R261, R287-R354). A step of the machine names none. -/
def usesOf : Instr → Uses

  | .beq a b _ => { g := [a.toNat, b.toNat] }
  | .bne a b _ => { g := [a.toNat, b.toNat] }
  | .blt a b _ => { g := [a.toNat, b.toNat] }
  | .bge a b _ => { g := [a.toNat, b.toNat] }
  | .bltn a b _ => { g := [a.toNat, b.toNat] }
  | .bgen a b _ => { g := [a.toNat, b.toNat] }
  | .jal _ => { g := [15] }
  | .jalr d a => { g := [d.toNat, a.toNat] }
  | .lpc d => { g := [d.toNat] }
  | .loop a b => { g := [a.toNat, b.toNat] }
  | .nop => {}
  | .exit => {}
  | .yield => {}
  | .fuse d _ => { g := [d.toNat] }
  | .split => {}
  | .brk _ => {}
  | .trap _ => {}
  | .eret => {}
  | .ldB d a _ => { g := [d.toNat, a.toNat] }
  | .ldH d a _ => { g := [d.toNat, a.toNat] }
  | .ldW d a _ => { g := [d.toNat, a.toNat] }
  | .ldD d a _ => { g := [d.toNat, a.toNat] }
  | .ldBz d a _ => { g := [d.toNat, a.toNat] }
  | .ldHz d a _ => { g := [d.toNat, a.toNat] }
  | .ldWz d a _ => { g := [d.toNat, a.toNat] }
  | .ldx d a b _ _ => { g := [d.toNat, a.toNat, b.toNat] }
  | .pf a b _ => { g := [a.toNat, b.toNat] }
  | .migr => {}
  | .stB d a _ => { g := [d.toNat, a.toNat] }
  | .stH d a _ => { g := [d.toNat, a.toNat] }
  | .stW d a _ => { g := [d.toNat, a.toNat] }
  | .stD d a _ => { g := [d.toNat, a.toNat] }
  | .stx d a b _ _ => { g := [d.toNat, a.toNat, b.toNat] }
  | .ldbt d a _ _ => { g := [d.toNat, a.toNat] }
  | .stbt d a _ => { g := [d.toNat, a.toNat] }
  | .ldsy d a => { g := [d.toNat, a.toNat] }
  | .ldsyTake d a => { g := [d.toNat, a.toNat] }
  | .stfl a b => { g := [a.toNat, b.toNat] }
  | .feclr a b => { g := [a.toNat, b.toNat] }
  | .amoadd d a b _ _ _ _ => { g := [d.toNat, a.toNat, b.toNat] }
  | .amoswp d a b _ _ _ _ => { g := [d.toNat, a.toNat, b.toNat] }
  | .amocas d a b _ _ _ _ => { g := [d.toNat, a.toNat, b.toNat] }
  | .amoand d a b _ _ _ _ => { g := [d.toNat, a.toNat, b.toNat] }
  | .amoor d a b _ _ _ _ => { g := [d.toNat, a.toNat, b.toNat] }
  | .amoxor d a b _ _ _ _ => { g := [d.toNat, a.toNat, b.toNat] }
  | .amomin d a b _ _ _ _ => { g := [d.toNat, a.toNat, b.toNat] }
  | .amomax d a b _ _ _ _ => { g := [d.toNat, a.toNat, b.toNat] }
  | .amominn d a b _ _ _ _ => { g := [d.toNat, a.toNat, b.toNat] }
  | .amomaxn d a b _ _ _ _ => { g := [d.toNat, a.toNat, b.toNat] }
  | .amofadd d a b _ _ _ _ => { g := [d.toNat, a.toNat, b.toNat] }
  | .fence _ _ _ => {}
  | .barinit a b _ => { g := [a.toNat, b.toNat] }
  | .bararr a => { g := [a.toNat] }
  | .barwait a => { g := [a.toNat] }
  | .barexp a b => { g := [a.toNat, b.toNat] }
  | .bartest d a => { g := [d.toNat, a.toNat] }
  | .waitc _ _ _ _ => {}
  | .hold _ => {}
  | .send a b _ => { g := [a.toNat, b.toNat] }
  | .sendh a b _ => { g := [a.toNat, b.toNat] }
  | .mcast a b _ => { g := [a.toNat, b.toNat] }
  | .mcrd d a b _ => { g := [d.toNat, a.toNat, b.toNat] }
  | .ringwait _ => {}
  | .ringpop d _ => { g := [d.toNat] }
  | .rhops d a => { g := [d.toNat, a.toNat] }
  | .rcopy d a b _ => { g := [d.toNat, a.toNat, b.toNat] }
  | .l2pf d a b => { g := [d.toNat, a.toNat, b.toNat] }
  | .l2drop a b => { g := [a.toNat, b.toNat] }
  | .twperm a => { g := [a.toNat] }
  | .estat d _ => { g := [d.toNat] }
  | .rcopy2d s_ a b _ => { g := [a.toNat, b.toNat], sh := [s_.toNat] }
  | .twalk s_ a b => { g := [a.toNat, b.toNat], sh := [s_.toNat] }
  | .twalkWb s_ b => { g := [b.toNat], sh := [s_.toNat] }
  | .hlease a _ => { g := [a.toNat] }
  | .hfree => {}
  | .hzero s_ => { sh := [s_.toNat] }
  | .hlda s_ a b => { g := [a.toNat, b.toNat], sh := [s_.toNat] }
  | .hldb s_ a b => { g := [a.toNat, b.toNat], sh := [s_.toNat] }
  | .hldbt s_ a b => { g := [a.toNat, b.toNat], sh := [s_.toNat] }
  | .hrot => {}
  | .hmma => {}
  | .hmmar => {}
  | .hstc s_ a b => { g := [a.toNat, b.toNat], sh := [s_.toNat] }
  | .haccRd _ _ _ => { rd := [.all], wr := [.all] }
  | .haccWr _ _ _ => { rd := [.all] }
  | .tld s_ a b t => { g := [a.toNat, b.toNat], sh := [s_.toNat], wr := [.tile t.toNat] }
  | .tst s_ a b t => { g := [a.toNat, b.toNat], sh := [s_.toNat], rd := [.tile t.toNat] }
  | .tldt s_ a b t => { g := [a.toNat, b.toNat], sh := [s_.toNat], wr := [.tile t.toNat] }
  | .tstt s_ a b t => { g := [a.toNat, b.toNat], sh := [s_.toNat], rd := [.tile t.toNat] }
  | .opatch a b => { g := [a.toNat, b.toNat] }
  | .ocfg a b _ => { g := [a.toNat, b.toNat] }
  | .oset a b => { g := [a.toNat, b.toNat] }
  | .oget d a => { g := [d.toNat, a.toNat] }
  | .orun a _ _ => { g := [a.toNat] }
  | .ostop _ => {}
  | .osave a _ => { g := [a.toNat] }
  | .orest a _ => { g := [a.toNat] }
  | .ostat d _ => { g := [d.toNat] }
  | .oinj a b => { g := [a.toNat, b.toNat] }
  | .vld d a b _ v => { g := [a.toNat, b.toNat], wr := [.vec (vnum v d)] }
  | .vst d a b _ v => { g := [a.toNat, b.toNat], rd := [.vec (vnum v d)] }
  | .vldb d a b _ v => { g := [a.toNat, b.toNat], wr := [.vec (vnum v d)] }
  | .vldx d a b _ _ i v => { g := [a.toNat], rd := [.vec (vnum i b)], wr := [.vec (vnum v d)] }
  | .vstx d a b _ _ i v => { g := [a.toNat], rd := [.vec (vnum i b), .vec (vnum v d)] }
  | .vldbt d a b v => { g := [a.toNat, b.toNat], wr := [.vec (vnum v d)] }
  | .vstbt d a b v => { g := [a.toNat, b.toNat], rd := [.vec (vnum v d)] }
  | .qpush a _ => { g := [a.toNat] }
  | .qpop d _ => { g := [d.toNat] }
  | .qpeek d _ => { g := [d.toNat] }
  | .qlen d _ => { g := [d.toNat] }
  | .shld s_ a => { g := [a.toNat], sh := [s_.toNat] }
  | .shst s_ a => { g := [a.toNat], sh := [s_.toNat] }
  | .shset s_ _ _ => { sh := [s_.toNat] }
  | .shsetg s_ b _ => { g := [b.toNat], sh := [s_.toNat] }
  | .shget s_ a _ => { g := [a.toNat], sh := [s_.toNat] }
  | .vwset a _ => { g := [a.toNat] }
  | .vwget d _ => { g := [d.toNat] }
  | .crrd d _ => { g := [d.toNat] }
  | .crwr a _ => { g := [a.toNat] }
  | .crset a _ => { g := [a.toNat] }
  | .crclr a _ => { g := [a.toNat] }
  | .ckpt => {}
  | .icinv a b => { g := [a.toNat, b.toNat] }
  | .tlbinv a b => { g := [a.toNat, b.toNat] }
  | .halt => {}
  | .add d a b => { g := [d.toNat, a.toNat, b.toNat] }
  | .sub d a b => { g := [d.toNat, a.toNat, b.toNat] }
  | .mul d a b => { g := [d.toNat, a.toNat, b.toNat] }
  | .mulh d a b => { g := [d.toNat, a.toNat, b.toNat] }
  | .mulhn d a b => { g := [d.toNat, a.toNat, b.toNat] }
  | .div d a b => { g := [d.toNat, a.toNat, b.toNat] }
  | .divn d a b => { g := [d.toNat, a.toNat, b.toNat] }
  | .rem d a b => { g := [d.toNat, a.toNat, b.toNat] }
  | .remn d a b => { g := [d.toNat, a.toNat, b.toNat] }
  | .and d a b => { g := [d.toNat, a.toNat, b.toNat] }
  | .or d a b => { g := [d.toNat, a.toNat, b.toNat] }
  | .xor d a b => { g := [d.toNat, a.toNat, b.toNat] }
  | .shl d a b => { g := [d.toNat, a.toNat, b.toNat] }
  | .shr d a b => { g := [d.toNat, a.toNat, b.toNat] }
  | .sra d a b => { g := [d.toNat, a.toNat, b.toNat] }
  | .slt d a b => { g := [d.toNat, a.toNat, b.toNat] }
  | .sltn d a b => { g := [d.toNat, a.toNat, b.toNat] }
  | .min d a b => { g := [d.toNat, a.toNat, b.toNat] }
  | .max d a b => { g := [d.toNat, a.toNat, b.toNat] }
  | .minn d a b => { g := [d.toNat, a.toNat, b.toNat] }
  | .maxn d a b => { g := [d.toNat, a.toNat, b.toNat] }
  | .clz d a => { g := [d.toNat, a.toNat] }
  | .ctz d a => { g := [d.toNat, a.toNat] }
  | .popc d a => { g := [d.toNat, a.toNat] }
  | .sel d a b => { g := [d.toNat, a.toNat, b.toNat] }
  | .bext d a _ _ => { g := [d.toNat, a.toNat] }
  | .bins d a _ _ => { g := [d.toNat, a.toNat] }
  | .addi d a _ => { g := [d.toNat, a.toNat] }
  | .andi d a _ => { g := [d.toNat, a.toNat] }
  | .ori d a _ => { g := [d.toNat, a.toNat] }
  | .xori d a _ => { g := [d.toNat, a.toNat] }
  | .slti d a _ => { g := [d.toNat, a.toNat] }
  | .lui d _ => { g := [d.toNat] }
  | .shli d a _ => { g := [d.toNat, a.toNat] }
  | .shri d a _ => { g := [d.toNat, a.toNat] }
  | .srai d a _ => { g := [d.toNat, a.toNat] }
  | .vadd d a b _ _ _ _ => { rd := [.vec a.toNat, .vec b.toNat], wr := [.vec d.toNat] }
  | .vsub d a b _ _ _ _ => { rd := [.vec a.toNat, .vec b.toNat], wr := [.vec d.toNat] }
  | .vmul d a b _ _ _ _ => { rd := [.vec a.toNat, .vec b.toNat], wr := [.vec d.toNat] }
  | .vfma d a b _ _ _ _ => { rd := [.vec a.toNat, .vec b.toNat], wr := [.vec d.toNat] }
  | .vfms d a b _ _ _ _ => { rd := [.vec a.toNat, .vec b.toNat], wr := [.vec d.toNat] }
  | .vfnma d a b _ _ _ _ => { rd := [.vec a.toNat, .vec b.toNat], wr := [.vec d.toNat] }
  | .vmin d a b _ _ _ _ => { rd := [.vec a.toNat, .vec b.toNat], wr := [.vec d.toNat] }
  | .vmax d a b _ _ _ _ => { rd := [.vec a.toNat, .vec b.toNat], wr := [.vec d.toNat] }
  | .vand d a b _ _ _ => { rd := [.vec a.toNat, .vec b.toNat], wr := [.vec d.toNat] }
  | .vor d a b _ _ _ => { rd := [.vec a.toNat, .vec b.toNat], wr := [.vec d.toNat] }
  | .vxor d a b _ _ _ => { rd := [.vec a.toNat, .vec b.toNat], wr := [.vec d.toNat] }
  | .vshl d a b _ _ _ _ => { rd := [.vec a.toNat, .vec b.toNat], wr := [.vec d.toNat] }
  | .vshr d a b _ _ _ => { rd := [.vec a.toNat, .vec b.toNat], wr := [.vec d.toNat] }
  | .vsra d a b _ _ _ => { rd := [.vec a.toNat, .vec b.toNat], wr := [.vec d.toNat] }
  | .vcmp _ _ a b _ _ _ => { rd := [.vec a.toNat, .vec b.toNat] }
  | .vsel d a b _ _ _ => { rd := [.vec a.toNat, .vec b.toNat], wr := [.vec d.toNat] }
  | .vbcast d a _ _ _ => { g := [a.toNat], wr := [.vec d.toNat] }
  | .vins d a b _ _ _ => { g := [a.toNat, b.toNat], wr := [.vec d.toNat] }
  | .vext d a b _ _ => { g := [d.toNat, b.toNat], rd := [.vec a.toNat] }
  | .vperm d a b _ _ _ => { rd := [.vec a.toNat, .vec b.toNat], wr := [.vec d.toNat] }
  | .vshuf d a b _ _ _ => { rd := [.vec a.toNat, .vec b.toNat], wr := [.vec d.toNat] }
  | .vred d a _ _ _ _ _ => { rd := [.vec a.toNat], wr := [.vec d.toNat] }
  | .vscan d a _ _ _ _ _ => { rd := [.vec a.toNat], wr := [.vec d.toNat] }
  | .vdot d a b _ _ _ _ => { rd := [.vec a.toNat, .vec b.toNat], wr := [.vec d.toNat] }
  | .vmov d a _ _ _ => { rd := [.vec a.toNat], wr := [.vec d.toNat] }
  | .vabs d a _ _ _ _ => { rd := [.vec a.toNat], wr := [.vec d.toNat] }
  | .vneg d a _ _ _ _ => { rd := [.vec a.toNat], wr := [.vec d.toNat] }
  | .vnot d a _ _ _ => { rd := [.vec a.toNat], wr := [.vec d.toNat] }
  | .vrcp d a _ _ _ _ => { rd := [.vec a.toNat], wr := [.vec d.toNat] }
  | .vrsq d a _ _ _ _ => { rd := [.vec a.toNat], wr := [.vec d.toNat] }
  | .vexp2 d a _ _ _ _ => { rd := [.vec a.toNat], wr := [.vec d.toNat] }
  | .vlog2 d a _ _ _ _ => { rd := [.vec a.toNat], wr := [.vec d.toNat] }
  | .mset _ a _ => { rd := [.vec a.toNat] }
  | .mand _ _ _ => {}
  | .mor _ _ _ => {}
  | .mnot _ _ => {}
  | .vcvt _ _ _ _ _ _ _ => { rd := [.all], wr := [.all] }
  | .vqnt _ _ _ _ _ => { rd := [.all], wr := [.all] }
  | .vdqnt _ _ _ _ => { rd := [.all], wr := [.all] }
  | .vrscale d a b _ _ => { g := [b.toNat], rd := [.vec a.toNat], wr := [.vec d.toNat] }
  | .vpack _ _ _ _ _ _ _ => { rd := [.all], wr := [.all] }
  | .vunpk _ _ _ _ _ _ _ => { rd := [.all], wr := [.all] }
  | .ogetVector d g _ _ => { g := [g.toNat], wr := [.vec d.toNat] }
  | .osetVector a g _ _ => { g := [g.toNat], rd := [.vec a.toNat] }
  | .divResult => {}
  | .issueGapEnd => {}
  | .holdEnd => {}
  | .fuseTimeout => {}
  | .barrierStaggerEnd => {}
  | .migrateAfterStall => {}
  | .waitTableRetry => {}
  | .retentionEntry => {}
  | .bankWake => {}
  | .remoteAccessArrival => {}
  | .remoteAtomicArrival => {}
  | .barrierOpArrival => {}
  | .pendDecrement => {}
  | .twpermArrival => {}
  | .messageArrival => {}
  | .handlerMessageArrival => {}
  | .handlerStart => {}
  | .migrationContextArrival => {}
  | .migrationBounceArrival => {}
  | .homeReturnArrival => {}
  | .wakeMessage => {}
  | .lineDelivery => {}
  | .remoteLoadResponse => {}
  | .loadResponse => {}
  | .storeAcknowledgement => {}
  | .messageResponse => {}
  | .errorResponse => {}
  | .l1FillResponse => {}
  | .messageDivert => {}
  | .sliceRequest => {}
  | .mcrdLineRequest => {}
  | .l2pfLineRequest => {}
  | .l2dropLineRequest => {}
  | .hbmFillReturn => {}
  | .l2Scrub => {}
  | .hbmScrub => {}
  | .frameInitialisation => {}
  | .hostRegionAccess => {}
  | .hostCompletion => {}
  | .peerRequest => {}
  | .peerResponse => {}
  | .tlbWalkComplete => {}
  | .pageResolution => {}
  | .tlbinvCompletion => {}
  | .engineLineData => {}
  | .relayComplete => {}
  | .mcrdComplete => {}
  | .twalkTile => {}
  | .twalkComplete => {}
  | .l2pfComplete => {}
  | .l2dropComplete => {}
  | .heldCompletionLand => {}
  | .tileOpComplete => {}
  | .hoopCommandComplete => {}
  | .hoopLeaseGrant => {}
  | .hoopLeaseExpiry => {}
  | .osierBoundary => {}
  | .osierStrokeEnqueue => {}
  | .alignedRunStart => {}
  | .blockPlacement => {}
  | .blockRetire => {}
  | .parklimitExpiry => {}
  | .blockCapture => {}
  | .yieldDeadline => {}
  | .readmission => {}
  | .haltLineArrival => {}
  | .quiesce => {}
  | .debugHaltRequest => {}
  | .haltRelease => {}
  | .debugReset => {}
  | .debugStore => {}
  | .replayLatchLoad => {}
  | .heartbeat => {}
  | .containment => {}
  | .checkpoint => {}
  | .checkpointPeriodExpiry => {}
  | .checkpointAck => {}
  | .routeCommit => {}
  | .routeAdopt => {}
  | .autoWindow => {}
  | .svasumFrame => {}
  | .svasumTraining => {}
  | .weightShardArrival => {}
  | .shardTimeout => {}
  | .queueEnable => {}
  | .queueDisable => {}
  | .queueUnmap => {}
  | .queueRemap => {}
  | .qcbTailWrite => {}
  | .qcbWakeWrite => {}
  | .qcbErrackWrite => {}
  | .qcbCancelWrite => {}
  | .queueWaitRetest => {}
  | .nopPacket => {}
  | .launchPacket => {}
  | .launchrange => {}
  | .indirect => {}
  | .returnPacket => {}
  | .pred => {}
  | .loopPacket => {}
  | .signal => {}
  | .waitsig => {}
  | .fetchfence => {}
  | .weightsel => {}
  | .copyPacket => {}
  | .copyComplete => {}
  | .admission => {}
  | .stagingComplete => {}
  | .completionRecordWrite => {}
  | .energyCharge => {}
  | .huddleRequest => {}
  | .huddleWindowClose => {}
  | .huddleFetchAdd => {}
  | .moduleReset => {}
  | .pcieLinkTraining => {}
  | .hostBar2Read => {}
  | .hostBar2Write => {}
  | .rpheadWrite => {}
  | .attest => {}
  | .pubkey => {}
  | .keyload => {}
  | .keyclear => {}
  | .counter => {}
  | .panelSet => {}
  | .wbPlan => {}
  | .wbStart => {}
  | .partReset => {}
  | .reservedMailboxRequest => {}
  | .powerWindow => {}
  | .junctionTemperatureLimit => {}
  | .thermalTrip => {}
  | .siteFault => {}
  | .softError => {}
  | .partitionCreate => {}
  | .peerTableWrite => {}
  | .pageTableChange => {}
  | .fetchAheadRead => {}

/-- What a bundle names. -/
def usesOfBundle : Bundle → List Uses
  | .lone i => [usesOf i]
  | .pair c a => [usesOf c, usesOf a]

end Sys2Proof.Machine
end

