-- ==== Sys2Proof/Machine/Issue.lean ====
section
/-! DEFINITION. The issue of bundles, the wakes of blocked threads, the performance of events and the passing of cycles
(R107, R211-R217, R224-R226, R251-R253, R288, R467, R473, R488). -/

namespace Sys2Proof.Machine

/-! ### Contexts that may issue (R211, R212, R216, R467) -/

/-- The halt line has reached the site of a core (R467). -/
def Panel.siteHalted (p : Panel) (lc : Nat) : Bool :=
  let q := p.part (partOf p lc)
  q.halt && q.hSites.contains (siteOf p.fabric lc)

/-- The group of a thread, the one of its home core, has been taken (R207, R456). A handler belongs to no group. -/
def Panel.groupTaken (p : Panel) (lc slot : Nat) : Bool :=
  !handlerSlot slot && (p.block (p.ctx lc slot).btag).taken.contains (p.homeSlotOf lc slot).1

/-- Data staged for a block has not landed on all of its cores (R435). -/
def Panel.stagingFor (p : Panel) (b : Block) : Bool :=
  p.clusters.any fun (e : Nat × Cluster) => e.2.stage.any fun x =>
    x.launch == b.launch && x.core != 0 && (blockCores b).contains (x.core - 1) && decide (b.lmBase * 1024 ≤ x.off) &&
      decide (x.off < (b.lmBase + b.lmSize) * 1024)

/-- The group of a context has been taken, or its block's staged data has not landed. -/
def Panel.groupHeld (p : Panel) (lc slot : Nat) : Bool :=
  p.groupTaken lc slot || p.stagingFor (p.block (p.ctx lc slot).btag)

/-- A context that could issue now: past its gap, its Osier lanes moved, and not waiting for an event that has not come (R225, R226, R405). -/
def Ctx.canTry (c : Ctx) (now evs : Nat) : Bool :=
  c.lanesLeft == 0 &&
  match c.st with
  | .ready => c.gapUntil ≤ now
  | .gap => c.gapUntil ≤ now
  | .stall =>
    match c.stall with
    | .retry n => n != evs || c.div.any fun e => e.2.2 ≤ now
    | .none => false | .hold _ => false | .fuse .. => false | .barrier => false | .header => false | .tlbinv => false
    | .osier _ => false | .migrate => false | .ckpt => false | .fatal => false
  | .empty => false | .blocked => false | .parked => false | .away => false

/-- A member of a gang lets another issue its bundle `n`: it has come to that bundle or issued it, and is past its gap and neither stalled, blocked
nor parked (R215, R216), as it stood when the cycle began: one that has issued the bundle in this cycle was ready then. -/
def gangLets (n now : Nat) (m : Ctx) : Bool :=
  n ≤ m.gangStep &&
  ((n < m.gangStep && m.since == now) ||
    match m.st with
    | .ready => m.gapUntil ≤ now
    | .gap => m.gapUntil ≤ now
    | .stall => false
    | .empty => false | .blocked => false | .parked => false | .away => false)

/-- The context of a slot is eligible (R211). -/
def Panel.eligible (p : Panel) (lc slot : Nat) : Bool :=
  let c := p.ctx lc slot
  c.canTry p.now p.evs && !p.groupHeld lc slot && c.gang.all fun k => k == lc || gangLets c.gangStep p.now (p.ctx k slot)

/-- Consecutive cycles that a context has been eligible, its gang ready (R212); a bundle that waits for a condition starts anew. -/
def Panel.age (p : Panel) (lc slot : Nat) : Nat :=
  let c := p.ctx lc slot
  let from_ := c.gang.foldl (fun n k => let m := p.ctx k slot; max n (max m.since m.gapUntil)) (max c.since c.gapUntil)
  if c.st = .stall then 0 else p.now - from_

/-- Priority class (R212). -/
def Panel.prioClass (p : Panel) (lc slot : Nat) : Nat := (p.block (p.ctx lc slot).btag).prio / 16

/-- The slot of greatest age, the lower one of equals. -/
def oldest (age : Nat → Nat) : List Nat → Option Nat
  | [] => none
  | s :: t =>
    match oldest age t with
    | none => some s
    | some r => if age s < age r then some r else some s

/-- The slot that the issue stage of a core chooses in this cycle (R212). -/
def Panel.pick (p : Panel) (lc : Nat) : Option Nat :=
  let k := p.core lc
  if p.now < k.nextIssue ∨ k.failed ∨ p.siteHalted lc then none
  else
    let es := (List.range 16).filter (p.eligible lc)
    let age := p.age lc
    match oldest age (es.filter fun s => decide (48 ≤ age s)) with
    | some s => some s
    | none =>
      match [12, 13, 14, 15].find? (es.contains ·) with
      | some s => some s
      | none =>
        let top := es.foldl (fun m s => max m (p.prioClass lc s)) 0
        let cs := es.filter fun s => p.prioClass lc s == top
        let last := SMap.getD k.lastIssue top 11
        match cs.find? fun s => decide (last < s) with
        | some s => some s
        | none => cs.head?

/-! ### The end of a turn -/

/-- An event has taken place: accesses that nothing holds any more and records in replay go on (R154, R170, R186), groups of blocks being taken
may be at their blocking points now (R456), and reports go out. -/
def State.settle (s : State) : State :=
  let p := ({ s.panel with evs := s.panel.evs + 1 } : Panel).flow.replayPump
  let tags := (p.blocks.filter fun (e : Nat × Block) => e.2.st == .taking).map (·.1)
  ({ s with panel := tags.foldl (fun (r : Panel) t => r.freezeGroups t) p } : State).pump

/-- The bundle of a context has not issued: it is tried again after a later event. -/
def Panel.again (p : Panel) (lc slot : Nat) : Panel :=
  p.updCtx lc slot fun c => { c with st := .stall, stall := .retry p.evs }

/-! ### The scoreboard (R288, R247, R362) -/

/-- A piece of register space that a thread's bundle names meets a run of bytes. -/
def rsMeets (lc : Nat) (c : Ctx) (x n : Nat) : RsUse → Bool
  | .vec i => rangesMeet (rsWin lc c (vecOff c i)) 64 x n
  | .tile i => rangesMeet (rsWin lc c (tileOff c i)) (tileSize c) x n
  | .all => true

/-- The bundle reads or writes the destination of an access (R288). -/
def destMeets (lc : Nat) (c : Ctx) (us : List Uses) : Dest → Bool
  | .none => false
  | .g r => r != 0 && us.any fun u => u.g.contains r
  | .sh r => us.any fun u => u.sh.contains r
  | .vec x => us.any fun u => (u.rd ++ u.wr).any (rsMeets lc c x 64)
  | .lanes x => us.any fun u => (u.rd ++ u.wr).any (rsMeets lc c x 64)
  | .tile _ => false

/-- A mesh-window load (R224, R288). -/
def meshLoad (a : Access) : Bool := a.items != [] && (a.kind == .load || a.kind == .vload || a.kind == .fmtLoad)

/-- A tile operation in progress holds bytes that the bundle needs: its destination, or a source that the bundle writes before it has been read
(R362). -/
def tileMeets (lc slot : Nat) (c : Ctx) (us : List Uses) (o : TileOp) : Bool :=
  o.slot == slot && o.btag == c.btag && (o.sub % 2 == 0 || !o.sent) &&
    us.any fun u => (if o.sub % 2 = 0 then u.rd ++ u.wr else u.wr).any (rsMeets lc c o.rsOff o.rsLen)

/-- Why a decoded bundle waits before it issues. -/
inductive Hold where
  | none
  /-- a stall (R225) -/
  | stall
  /-- the blocking point of a remote word load (R224) -/
  | remote
  deriving DecidableEq, Repr

/-- The wait of a bundle for results that it names and for register banks that are waking (R247, R288). -/
def Panel.scoreboard (p : Panel) (lc slot : Nat) (us : List Uses) : Hold :=
  let c := p.ctx lc slot
  let as := (p.accs.map (·.2)).filter fun a => a.core == lc && a.slot == slot && a.btag == c.btag && destMeets lc c us a.dest
  if as.any meshLoad then .remote
  else if as != [] || (c.div.any fun e => us.any fun u => u.g.contains e.1) || ((p.core lc).tiles.any (tileMeets lc slot c us)) ||
      ((p.core lc).retDepth != 0 && us.any fun u => u.rd ++ u.wr != []) then .stall
  else .none

/-! ### Fetch (R105-R107, R215, R251, R473) -/

/-- The line of the instruction cache that a thread's bundle comes from: its own core's, or the gang captain's (R106, R215). -/
def Panel.codeLine (p : Panel) (lc slot : Nat) : Option L1Line :=
  let c := p.ctx lc slot
  let b := p.block c.btag
  (p.core (c.gang.headD lc)).l1i.find? fun l =>
    l.vline == c.pc.toNat / 64 && l.part == b.part && l.asid == b.asid && permitted l.attr 4 (p.slevelOf c) &&
      (!bt l.attr 5 || l.key == slot + 16 * c.pc.toNat)

/-- The line of a thread's bundle checked as it is read: one whose check fails is dropped and counted, to be fetched again (R113). -/
def Panel.codeCheck (p : Panel) (lc slot : Nat) : Panel :=
  match p.codeLine lc slot with
  | some l =>
    let k := (p.ctx lc slot).gang.headD lc
    if (p.core k).l1Bad.contains (2 * l.pline + 1) then
      p.updCore k fun c => { c with l1i := c.l1i.filter (· != l), l1Bad := c.l1Bad.erase (2 * l.pline + 1), l1Corr := c.l1Corr + 1 }
    else p
  | none => p

/-- The 32-bit word of a line at an address. -/
def lineWord (d : Line) (a : Nat) : BitVec 32 := BitVec.ofNat 32 (bf d.toNat (8 * (a % 64) + 31) (8 * (a % 64)))

/-- What a thread's replay latch gives for the fetch at its pc: only a fetch at TPC takes it (R473). -/
def Ctx.latched (c : Ctx) : Option W := if c.pc = c.tpc then c.replay else none

/-- The two words at a thread's pc, from its replay latch or its instruction cache; none on a miss (R251, R473). -/
def Panel.fetch (p : Panel) (lc slot : Nat) : Option (BitVec 32 × BitVec 32) :=
  let c := p.ctx lc slot
  match c.latched with
  | some w => some (BitVec.ofNat 32 w.toNat, BitVec.ofNat 32 (w.toNat / 2 ^ 32))
  | none =>
    match p.codeLine lc slot with
    | some l => some (lineWord l.data c.pc.toNat, if c.pc.toNat % 8 = 0 then lineWord l.data (c.pc.toNat + 4) else 0)
    | none => none

/-- A fetch that misses asks for its line, one at a time a thread (R106, R167). -/
def Panel.fetchMiss (p : Panel) (lc slot : Nat) : Panel :=
  let c := p.ctx lc slot
  let k := c.gang.headD lc
  if (p.accs.map (·.2)).any fun a => a.kind == .fetch && a.core == k && a.slot == slot && a.btag == c.btag then p
  else
    ({ p with cur := { core := k, slot := slot } } : Panel).issueAcc
      { mkAcc .fetch .none c.pc.toNat (if c.pc.toNat % 8 = 0 then 8 else 4) with fill := 2 }

/-- Bytes fetched from host or peer memory serve once (R107). -/
def Panel.dropOnce (p : Panel) (lc slot : Nat) : Panel :=
  match p.codeLine lc slot with
  | some l => if bt l.attr 5 then p.updCore ((p.ctx lc slot).gang.headD lc) fun c => { c with l1i := c.l1i.filter (· != l) } else p
  | none => p

/-! ### Issue -/

/-- A bundle begins: the context's gap, the core's cycle, the round-robin and the energy (R211, R212, R441). -/
def Panel.begin_ (p : Panel) (lc slot len : Nat) (w : W) : Panel :=
  let c := p.ctx lc slot
  let cls := p.prioClass lc slot
  let p1 := (p.dropOnce lc slot).updCtx lc slot fun c =>
    { c with
      st := .gap, stall := .none, gapUntil := p.now + 8, since := p.now, gangStep := if c.gang = [] then 0 else c.gangStep + 1
      replay := if c.latched.isSome then none else c.replay, undo := none }
  let p2 := p1.updCore lc fun k =>
    { k with nextIssue := p.now + 1, lastIssue := if slot < 12 then SMap.set k.lastIssue cls slot else k.lastIssue }
  { ((p2.charge lc c.btag 25).later 8 .issueGapEnd [lc, slot]) with cur := { core := lc, slot := slot, len := len, word := w, replay := c.latched } }

/-- A gang whose members have all issued its bundle: it goes on together, or dissolves where they differ (R215, R217). -/
def Panel.gangSync (p : Panel) (slot : Nat) (gang : List Nat) : Panel :=
  let ms := gang.map fun k => p.ctx k slot
  match ms with
  | [] => p
  | m :: t =>
    if (t.all fun x => x.gangStep == m.gangStep) && t.any fun x => x.pc != m.pc then p.dissolve gang slot else p

/-- A context stalled as one whose bundle did not issue. -/
def retrying (c : Ctx) : Bool :=
  match c.stall with
  | .retry _ => true
  | .none => false | .hold _ => false | .fuse .. => false | .barrier => false | .header => false | .tlbinv => false
  | .osier _ => false | .migrate => false | .ckpt => false | .fatal => false

/-- A context whose bundle has not issued although the core has begun to wait for it (R99, R490). -/
def postponed (c : Ctx) : Bool := c.stall == .migrate || c.stall == .ckpt

/-- The state after a bundle of `p0`'s thread whose execution gave `t`: a bundle that did not issue leaves the state as it was, but for
its stall; a replay log that would hold more than 1,024 flits stalls it, too (R488). -/
def State.commit (s : State) (lc slot : Nat) (t : State) : State :=
  let c0 := s.panel.ctx lc slot
  let c := t.panel.ctx lc slot
  if t.panel.cur.stalled && retrying c then { s with panel := s.panel.again lc slot }
  else if (s.panel.core lc).log != [] && decide (1024 < logFlits t.panel lc) then
    let q := s.panel.again lc slot
    { s with panel := match (q.core lc).log with | l :: _ => q.requestCkpt l.dst | [] => q }
  else if t.panel.cur.stalled && postponed c then
    ({ t with panel := t.panel.updCtx lc slot fun x => { x with gangStep := c0.gangStep, replay := c0.replay } } : State).settle
  else ({ t with panel := t.panel.gangSync slot c.gang } : State).settle

/-- An instruction executed, and what follows it. -/
def execThen (i : Instr) (s : State) (k : State → Res) : Res :=
  match exec i s with
  | .next t => k t
  | .fault f => .fault f
  | .refused r => .refused r

/-- The state has ended or postponed its bundle. -/
def State.ended (s : State) : Bool := s.panel.cur.trapped || s.panel.cur.stalled

/-- The A-word of a pair comes up: its word, and the sources of the bundle (R253). -/
def State.aword (s : State) (w2 : BitVec 32) (latch : Option (Ctx × Memory)) : State :=
  { s with panel := { s.panel with cur := { s.panel.cur with aword := true, word := w64 w2.toNat, latch := latch } } }

/-- Bytes of a run of memory that a change wrote, as they were before. -/
def memUndo (old new : Memory) (x n : Nat) : List (Nat × Nat) :=
  let here := fun (m : Memory) => m.filter fun c => decide (x ≤ c.1) && decide (c.1 < x + n)
  let o := here old
  let w := here new
  ((o.filter fun c => !w.contains c).map fun c => (c.1, c.2.toNat)) ++
    (w.filter fun c => o.all fun e => e.1 != c.1).map fun c => (c.1, 0)

/-- What the A-word of a pair wrote after its C-word had given `p`, kept while the C-word may still trap (R253). -/
def Panel.keepUndo (q p : Panel) (lc slot lo : Nat) : Panel :=
  let c := p.ctx lc slot
  let d := q.ctx lc slot
  if q.nid = lo ∧ d.stall = .none then q
  else
    let cl := clusterOf lc
    let diff := fun (n : Nat) (a b : Nat → W) => (List.range n).filterMap fun i => if a i = b i then none else some (i, a i)
    let divs := d.div.filter fun e => !c.div.contains e
    let u : Undo := {
      lo := lo
      g := diff 16 c.gr d.gr ++ divs.map fun e => (e.1, c.gr e.1)
      m := diff 8 c.mask d.mask
      flags := d.flags &&& ~~~c.flags
      div := divs
      mem := if q.mem = p.mem then [] else memUndo p.mem q.mem (rsWin lc c 0) (64 * c.rsSize)
      cells := ((q.cluster cl).cells.filter fun (e : Nat × Cell) => cellOf (p.cluster cl) e.1 != e.2).map fun (e : Nat × Cell) => (cl, e.1, cellOf (p.cluster cl) e.1) }
    q.updCtx lc slot fun x => { x with undo := some u }

/-- A migration that the C-word of a pair decided (R99, R100). -/
def State.leaveNow (s : State) : State := { s with panel := s.panel.sendMig }

/-- A bundle executed. In a pair the C-word is performed first; a trap of either word leaves neither with an effect, the C-word's
reported first (R253); so every check of the C-word comes before the first of the A-word (R262; log 68, DESIGN CHOICE). EXIT has its effect
once the A-word beside it has had its own. -/
def State.runBundle (s : State) (lc slot : Nat) (w w2 : BitVec 32) (b : Bundle) : Res :=
  match b with
  | .lone i =>
    execThen i { s with panel := s.panel.begin_ lc slot 4 (w64 w.toNat) } fun t => .next (s.commit lc slot t)
  | .pair c a =>
    let s1 : State := { s with panel := s.panel.begin_ lc slot 8 (w64 w.toNat) }
    execThen c s1 fun t =>
      if c = .exit ∧ !retrying (t.panel.ctx lc slot) then
        execThen a (s1.aword w2 none) fun u =>
          .next (s.commit lc slot (if u.ended then u else { u with panel := u.panel.endThread }))
      else if t.ended then .next (s.commit lc slot t)
      else
        execThen a (s1.aword w2 none) fun u =>
          if u.ended then .next (s.commit lc slot u)
          else
            execThen a (t.aword w2 (some (s1.panel.ctx lc slot, s1.panel.mem))) fun v =>
              .next (s.commit lc slot (State.leaveNow { v with panel := v.panel.keepUndo t.panel lc slot s.panel.nid }))

/-- The trap cause of words that are no bundle (R251, R252). -/
def decodeCause : DecodeError → Nat
  | .misaligned => 0x02
  | .allZero => 0x01 | .reserved => 0x01 | .illFormed => 0x01 | .pairForm => 0x01 | .sameDest => 0x01

/-- The error of a pair is its A-word's (R252, R452). -/
def awordError (w w2 : BitVec 32) (e : DecodeError) (tv : Nat) : Bool :=
  decide (2 ^ 31 ≤ w.toNat) && e != .misaligned && tv == w2.toNat

/-- A trap of a bundle that could not be executed, in its A-word or not. -/
def State.bundleTrap (s : State) (lc slot cause : Nat) (tval : W) (aw : Bool) : State :=
  let p := s.panel.begin_ lc slot 4 tval
  s.commit lc slot { s with panel := { p with cur := { p.cur with aword := aw } }.trap cause tval }

/-- An imprecise trap that waits for the thread, taken before its next bundle (R321, R452); a migrated thread takes it home. -/
def State.imprecise (s : State) (lc slot : Nat) (t : PendTrap) (ts : List PendTrap) : State :=
  let p : Panel := { s.panel with cur := { core := lc, slot := slot } }
  if awaySlot slot then s.commit lc slot { s with panel := p.goHome 0 0 0 0 0 }
  else
    ({ s with panel := (p.updCtx lc slot fun c => { c with pend := ts }).deliver lc slot t.cause t.tval t.impr t.aword false } : State).settle

/-- DIV results that are due reach their registers (R277). -/
def Panel.landDiv (p : Panel) (lc slot : Nat) : Panel :=
  p.updCtx lc slot fun c =>
    { (c.div.filter fun e => decide (e.2.2 ≤ p.now)).foldl (fun (c : Ctx) e => c.setG e.1 e.2.1) c with
      div := c.div.filter fun e => decide (p.now < e.2.2) }

/-- The words at the pc of a thread that may issue are decoded and executed, unless the bundle waits. -/
def State.fetched (s : State) (lc slot : Nat) (w w2 : BitVec 32) : Res :=
  let pc := (s.panel.ctx lc slot).pc
  match decodeBundle pc.toNat w w2 with
  | .error e => .next (s.bundleTrap lc slot (decodeCause e.1) (w64 e.2) (awordError w w2 e.1 e.2))
  | .ok b =>
    match s.panel.scoreboard lc slot (usesOfBundle b) with
    | .none => s.runBundle lc slot w w2 b
    | .stall => .next { s with panel := s.panel.again lc slot }
    | .remote => .next ({ s with panel := s.panel.updCtx lc slot fun c => { c with st := .blocked, stall := .none, wake := .remote } } : State).settle

/-- A thread that may issue takes a trap that waits for it, is at the blocking point of an LDSY that waits on another core, or fetches
(R224, R251, R282). -/
def State.start (s : State) (lc slot : Nat) : Res :=
  let c := s.panel.ctx lc slot
  match c.pend, (s.panel.accsOf lc slot).find? (·.waits) with
  | t :: ts, _ => .next (s.imprecise lc slot t ts)
  | [], some a =>
    .next ({ s with panel := s.panel.updCtx lc slot fun c =>
      { c with st := .blocked, stall := .none, wake := .ldsy a.va (destNum a) (a.kind == .ldsyTake) } } : State).settle
  | [], none =>
    match badTarget c.pc with
    | some e => .next (s.bundleTrap lc slot e c.pc false)
    | none =>
      let p := s.panel.codeCheck lc slot
      match p.fetch lc slot with
      | none => .next { s with panel := (p.fetchMiss lc slot).again lc slot }
      | some (w, w2) => ({ s with panel := p } : State).fetched lc slot w w2

/-- The turn of a core's issue stage: nothing, unless the slot is the one it chooses (R212). -/
def State.issue (s : State) (lc slot : Nat) : Res :=
  if s.panel.pick lc = some slot then ({ s with panel := s.panel.landDiv lc slot } : State).start lc slot else .next s

/-- The condition that a thread's bundle stalls on has cleared: the bundle would issue, or it has to ask for its line again (R225, R226). -/
def State.clears (s : State) (lc slot : Nat) : Bool :=
  match ({ s with panel := s.panel.landDiv lc slot } : State).start lc slot with
  | .next t => !retrying (t.panel.ctx lc slot) || t.panel.nid != s.panel.nid
  | .fault _ => true
  | .refused _ => true

/-- Threads whose stall has cleared are READY, and their age begins (R212, R226). -/
def State.unstall (s : State) : State :=
  let ks := s.panel.cores.flatMap fun (e : Nat × Core) =>
    (e.2.ctxs.filter fun (c : Nat × Ctx) => c.2.st == .stall && retrying c.2).map fun c => (e.1, c.1)
  { s with panel := (ks.filter fun k => s.clears k.1 k.2).foldl (fun (p : Panel) k => p.updCtx k.1 k.2 fun c =>
      { c with st := .ready, stall := .none, since := p.now }) s.panel }

/-! ### Wakes (R224, R226) -/

/-- The wake condition of a blocked context holds. Conditions that an event brings are met by that event. While a checkpoint of its core is requested a
YIELD lasts into the next cycle, so that the checkpoint finds the thread at its blocking point (R297, R487). -/
def Panel.wakes (p : Panel) (lc slot : Nat) : Bool :=
  let c := p.ctx lc slot
  c.st == .blocked && !(p.core lc).failed && !p.groupTaken lc slot &&
  (match c.wake with
    | .qpop n _ => p.queue lc c.btag n != []
    | .qpeek n _ => p.queue lc c.btag n != []
    | .ring n => let r := SMap.getD (p.core lc).rings n {}; r.tail != r.head
    | .waitc l st cp t => countersOk c l st cp t
    | .yield => (p.block c.btag).st != .taking && (!(p.core (p.homeSlotOf lc slot).1).ckptReq || decide (c.gapUntil < p.now + 8))
    | .none => false | .barrier .. => false | .stagger _ => false | .ldsy .. => false | .hlease .. => false | .parked => false
    | .remote => false) && !p.siteHalted lc

/-- A blocked context goes on, with what it waited for. -/
def Panel.wake (p : Panel) (lc slot : Nat) : Panel :=
  let c := p.ctx lc slot
  match c.wake with
  | .qpop n d =>
    match p.queue lc c.btag n with
    | v :: _ => ((p.putGAt lc slot d v).popQueue lc c.btag n).ready lc slot
    | [] => p
  | .qpeek n d =>
    match p.queue lc c.btag n with
    | v :: _ => (p.putGAt lc slot d v).ready lc slot
    | [] => p
  | .ring _ => p.ready lc slot
  | .waitc .. => p.ready lc slot
  | .yield => p.ready lc slot
  | .none => p | .barrier .. => p | .stagger _ => p | .ldsy .. => p | .hlease .. => p | .parked => p | .remote => p

/-- The turn of a blocked context. -/
def State.wakeTurn (s : State) (lc slot : Nat) : Res :=
  if s.panel.wakes lc slot then .next ({ s with panel := s.panel.wake lc slot } : State).settle else .next s

/-! ### Events -/

/-- An event of an engine that the halt line has stopped (R467); retention does not begin in the cycle of a wake (R249). -/
def Panel.stops (p : Panel) (e : Instr) (args : List Nat) : Bool :=
  if [Instr.twalkTile, .mcrdLineRequest, .l2pfLineRequest, .l2dropLineRequest].contains e then p.siteHalted (args.headD 0)
  else if e = .retentionEntry then
    (p.core (args.headD 0)).ctxs.any fun (c : Nat × Ctx) => p.wakes (args.headD 0) c.1
  else if e = .engineLineData then p.siteHalted (clusterCore (args.getD 1 0) 0)
  else if [Instr.hoopCommandComplete, .hoopLeaseGrant].contains e then p.siteHalted (clusterCore (args.headD 0) 0)
  else false

/-- An event performed with its operands. A word of the instruction maps is no event. -/
def State.perform (s : State) (e : Instr) (args : List Nat) : Res :=
  if (encode e).isSome ∨ s.panel.stops e args then .next s
  else execThen e { s with panel := { s.panel with ev := args } } fun t => .next t.settle

/-- The earliest entry of the agenda that is due, the first of equals, and the rest. -/
def takeDue (now : Nat) (ag : List (Nat × Instr × List Nat)) : Option ((Instr × List Nat) × List (Nat × Instr × List Nat)) :=
  match (ag.map (·.1)).min? with
  | none => none
  | some m =>
    if now < m then none
    else (ag.find? fun e => e.1 == m).map fun e => (e.2, ag.eraseP fun e => e.1 == m)

/-! ### Cycles -/

/-- The run of idle cycles of a core (R246): broken, or long enough for retention. -/
def Panel.idle (p : Panel) (lc : Nat) : Panel :=
  if !retentionOk p lc then p.updCore lc fun c => { c with idleSince := p.now }
  else if (p.core lc).retDepth = 0 ∧ (p.core lc).idleSince + 256 = p.now then p.later 0 .retentionEntry [lc]
  else p

/-- One cycle passes. -/
def State.tick (s : State) : State :=
  let p := { s.panel with now := s.panel.now + 1 }
  ({ s with panel := (p.cores.map (·.1)).foldl (fun (r : Panel) lc => r.idle lc) p } : State).unstall

/-! ### What happens next -/

/-- A turn of the environment's choosing (log 2, DESIGN CHOICE). -/
def State.turn (s : State) : Turn → Res
  | .event e args => s.perform e args
  | .issue lc slot => s.issue lc slot
  | .wake lc slot => s.wakeTurn lc slot
  | .tick => .next s.tick
  | .mail to_ box => .next { s with panel := s.panel.mailTake to_ box }

/-- A blocked context that may go on. -/
def Panel.someWake (p : Panel) : Option (Nat × Nat) :=
  p.cores.findSome? fun (e : Nat × Core) => (e.2.ctxs.find? fun (c : Nat × Ctx) => p.wakes e.1 c.1).map fun c => (e.1, c.1)

/-- A core that may issue, and its choice. -/
def Panel.someIssue (p : Panel) : Option (Nat × Nat) :=
  p.cores.findSome? fun (e : Nat × Core) => (p.pick e.1).map fun slot => (e.1, slot)

/-- Without a turn: what is due, then wakes, then issue, then the next cycle. -/
def State.byItself (s : State) : Res :=
  match takeDue s.panel.now s.panel.agenda with
  | some (e, rest) =>
    if e.1 = .retentionEntry then ({ s with panel := { s.panel with agenda := rest } } : State).perform e.1 e.2
    else if s.panel.stops e.1 e.2 then .next { s with panel := { s.panel with agenda := rest ++ [(s.panel.now + 1, e.1, e.2)] } }
    else ({ s with panel := { s.panel with agenda := rest } } : State).perform e.1 e.2
  | none =>
    match s.panel.someWake with
    | some x => s.wakeTurn x.1 x.2
    | none =>
      match s.panel.someIssue with
      | some x => s.issue x.1 x.2
      | none => .next s.tick

/-- What the machine does next: the next turn, or, without one, what it does by itself. -/
def State.advance (s : State) : Res :=
  match s.turns with
  | t :: ts => ({ s with turns := ts } : State).turn t
  | [] => s.byItself

/-! ### A program placed by hand -/

/-- The address at which `withFetchWord` lets its thread run. -/
def handPc : Nat := 0x40000

/-- A partition of one chiplet, with four HBM channels. -/
def handPart : Partition := { cx0 := 0, cy0 := 0, wc := 1, hc := 1, base := 0, count := 4, chans := [0, 1, 2, 3], grant := 1 }

/-- A block of one core at core 0, of launch 1. -/
def handBlock : Block := { launch := 1, part := 0, idx := 0, ox := 0, oy := 0, w := 1, h := 1, q := 1, lmBase := 0, lmSize := 256, prio := 0 }

/-- Core 0 with one thread of the block, whose instruction cache holds the line at its pc. -/
def handCore (tag w now : Nat) : Core :=
  { ctxs := [(0, { st := .ready, pc := w64 handPc, btag := tag, since := now })]
    l1i := [⟨handPc / 64, 0, 0, 1024, 12, 0, BitVec.ofNat 512 w, 0⟩] }

/-- A state whose next step issues the given word: a thread on core 0 stands at a line of its instruction cache that holds it. This
stands for all that brings a program to run (log 42, DESIGN CHOICE). -/
def State.place (s : State) (w : Nat) : State :=
  let p := s.panel
  let tag := p.nextTag
  { s with
    front := { s.front with off := false }
    turns := .issue 0 0 :: s.turns
    panel :=
      { p with
        nextTag := tag + 1
        parts := [(0, handPart)]
        launches := SMap.set p.launches 1 { part := 0, queue := 0, seq := 1, st := .placed }
        blocks := SMap.set p.blocks tag handBlock
        cores := SMap.set p.cores 0 (handCore tag w p.now)
        clusters := SMap.del p.clusters 0
        accs := p.accs.filter fun (e : Nat × Access) => e.2.core != 0
        fabric := { p.fabric with cword0 := 0xFF08 } } }

end Sys2Proof.Machine
end

