-- ==== Sys2Proof/Machine/Step.lean ====
section
/-! DEFINITION. One step of the machine, and a word placed where it fetches. -/

namespace Sys2Proof.Machine

/-- One step: the next turn, or what the machine does by itself; nothing steps once the power has tripped off (R520). -/
def step (s : State) : Host.Outcome State Fault Refusal :=
  if s.front.off then .fault .poweredOff else s.advance

/-- The state with an instruction placed where `step` fetches next: `w` is its one word (R250). -/
def State.withFetchWord (s : State) (nbits w : Nat) : State := s.place (w % 2 ^ nbits % 2 ^ 32)

end Sys2Proof.Machine
end

