-- ==== Sys2Proof/Safety.lean ====
section
/-! DEFINITION. The terms in which claims about the machine are made: answers of an instruction, the situation of the thread that
executes it, frames, and the invariants that steps keep. -/

namespace Sys2Proof.Machine

/-! ### Answers -/

/-- The next state that differs in the panel alone. -/
def State.to (s : State) (p : Panel) : Res := .next { s with panel := p }

/-- `put(d, v)`, and control to the next bundle (R275). -/
def State.puts (s : State) (d : Reg) (v : W) : Res := s.to (s.panel.putG d v).fin

/-! ### Situations of the running thread -/

/-- It stands in an assignable slot of its home core: neither migrated nor a handler (R208). -/
def Panel.Plain (p : Panel) : Prop := p.isAway = false ∧ p.isHandler = false

/-- It is plain, and no acquire of it is in flight (R187). -/
def Panel.Calm (p : Panel) : Prop := p.Plain ∧ p.acqBusy = false

/-- No access of the running thread through the mesh window is open, so that none touches a byte of its own window (R182, R183). -/
def Panel.MeshCalm (p : Panel) : Prop := ∀ store lc off n, p.meshOpen store lc off n = false

/-- Its bundle is one word. -/
def Panel.Lone (p : Panel) : Prop := p.cur.aword = false ∧ p.cur.latch = none ∧ p.cur.len = 4

/-- An address that control may pass to (R282). -/
abbrev Target (t : W) : Prop :=
  t.toNat % 4 = 0 ∧ t.toNat / 2 ^ 55 = 0 ∧ 0x3FFFF < t.toNat ∧ t.toNat / 2 ^ 35 % 2 ^ 20 ≠ 0xFFFFF

/-! ### Frames -/

/-- Every byte of memory reads as before. -/
def SameBytes (s t : State) : Prop := ∀ a, Memory.get t.panel.mem a = Memory.get s.panel.mem a

/-- Every byte of memory outside `n` bytes from `x` reads as before. -/
def SameBytesBut (x n : Nat) (s t : State) : Prop :=
  ∀ a, (a < x ∨ x + n ≤ a) → Memory.get t.panel.mem a = Memory.get s.panel.mem a

/-- Only the running context changed, and in it only g registers and the pc; of these only `d`. -/
def OnlyG (d : Reg) (s t : State) : Prop :=
  (∃ g pc, t = { s with panel := s.panel.updC fun c => { c with g := g, pc := pc } }) ∧
    ∀ r : Reg, r ≠ d → t.panel.cc.gr r.toNat = s.panel.cc.gr r.toNat

/-! ### Results -/

/-- An access record of the running thread's new access: its number, issuer, kind and address (R167). -/
def Issued (s t : State) (kind : AKind) (va size : Nat) (dest : Dest) : Prop :=
  ∃ a, SMap.find t.panel.accs s.panel.nid = some a ∧ a.core = s.panel.cur.core ∧ a.slot = s.panel.cur.slot ∧ a.kind = kind ∧
    a.va = va ∧ a.size = size ∧ a.dest = dest

/-- No access waits for an access to be performed. -/
def Panel.Unawaited (p : Panel) (id : Nat) : Prop := ∀ e ∈ p.accs, id ∉ e.2.after

/-- No request and no fetch waits at any L2 slice (R122, R123). -/
def Panel.SlicesIdle (p : Panel) : Prop := ∀ e ∈ p.slices, e.2.mshr = [] ∧ e.2.ing = [] ∧ e.2.vc = []

/-- A core that runs has a packet first in its arrival FIFO, which it has not consumed before, and none on the way to it (R94, R489). -/
def Panel.Arrived (p : Panel) (lc : Nat) (k : Packet) (rest : List Packet) : Prop :=
  (p.core lc).fifo = k :: rest ∧ (p.core lc).net = [] ∧ (p.core lc).failed = false ∧ p.stale lc k = false

/-- A context that no group holds and whose gap has passed (R211, R226). -/
def Ctx.Free (c : Ctx) (now : Nat) : Prop := c.st ≠ .parked ∧ c.gapUntil ≤ now

/-- An instruction completes with one vector written lane by lane: lane `j` is `f j` where the mask has a 1 and keeps the bits that the bundle's C-word left it elsewhere (R253); no
other byte, g register or mask changes (R330). -/
def VecResult (i : Instr) (s : State) (n d : Nat) (mask : W) (f : Nat → Nat) : Prop :=
  ∃ t, exec i s = .next t ∧
    (∀ j, j < 512 / n → lane n (BitVec.ofNat 512 (Memory.readN t.panel.mem (vecAddr s.panel s.panel.src d) 64)) j =
      if bt mask.toNat j then f j % 2 ^ n else lane n (s.panel.vecNow d) j) ∧
    SameBytesBut (vecAddr s.panel s.panel.src d) 64 s t ∧ t.panel.cc.g = s.panel.cc.g ∧ t.panel.cc.m = s.panel.cc.m

/-- Every vector of a list is mapped for the running thread (R237, R333). -/
def Panel.Mapped (p : Panel) (vs : List Nat) : Prop := p.isAway = false ∧ ∀ v ∈ vs, vecOk p p.src v 1 = true

/-- A lane-wise instruction of one vector result (R330, R333): its result where every vector is mapped; VIEW_FAULT where one is not, with nothing
written; away it returns home first. Two vectors of one view register share no byte unless they are the same (R236, R266). -/
def LaneWise (i : Instr) (s : State) (n d : Nat) (srcs : List Nat) (mask : W) (f : Nat → Nat) : Prop :=
  let p := s.panel
  (p.Mapped (d :: srcs) → VecResult i s n d mask f) ∧
  (p.isAway = false → (∃ v ∈ d :: srcs, vecOk p p.src v 1 = false) → exec i s = s.to (p.trap 0x06 p.cur.word)) ∧
  (p.isAway = true → exec i s = s.to (p.goHome 0 0 0 0 0))

/-! ### Invariants -/

/-- What the front end shows is consistent: it reports ready only in phase 6, and an error only in phase 0xFF (R511, R512); once ready the
security counter is not above the running version (R516); the LMS key has made at most 2^30 signatures (R517); no clock is more than 20
steps of 50 MHz below 1.5 GHz (R519). -/
def Front.Inv (f : Front) : Prop :=
  (f.ready = true → f.phase = 6 ∧ f.counter ≤ f.version) ∧ (f.error ≠ 0 → f.phase = 0xFF) ∧ f.lmsUsed ≤ 2 ^ 30 ∧
    ∀ c, SMap.getD f.clock c 0 ≤ 20

/-- A run of `k` steps from a state meets neither a fault nor a refusal. -/
def SafeRun (k : Nat) (s : State) : Prop :=
  match Host.Core.run Sys2Proof.core k s with
  | .next _ => True
  | .fault _ => False
  | .refused _ => False

end Sys2Proof.Machine
end

