-- ==== Sys2Proof/Certificates/Slice0/Obligations.lean ====
section
/-! DEFINITION. The statements of this row for the provers, one `def Obligations.<Name> : Prop` each. Rules R<n> are the spec's;
a log number names an entry of notes/assumptions/. A statement over every state holds in states that no run reaches. -/

open Sys2Proof Sys2Proof.Machine

/-- Tier 3. The decoder reads every well-formed word back as the instruction it was encoded from, with every field at every value that the encoding
admits. -/
def Obligations.DecodeOfEncode : Prop :=
  ∀ (i : Instr) (w : BitVec 32), i.wf = true → encode i = some w → decodeWord w = .ok i

/-- Words that the spec writes out, each decoded to the instruction it stands for. Words and sequences that are no bundle raise the trap and give the TVAL
of R252. -/
def Obligations.SpecWordsDecode : Prop :=
  (decodeWord 0x41560307 = .ok (.bext 5 6 12 7) ∧ decodeWord 0x070F0100 = .ok (.jalr 0 15) ∧
   decodeWord 0x1A047200 = .ok (.stfl 4 7) ∧ decodeWord 0x1A290000 = .ok (.ldsy 2 9) ∧
   decodeWord 0x24000560 = .ok (.fence 5 3 0) ∧ decodeWord 0x26003FFF = .ok (.waitc 15 15 7 7) ∧
   decodeWord 0x2C400409 = .ok (.estat 4 9) ∧ decodeWord 0x30020004 = .ok (.hlease 2 4) ∧
   decodeWord 0x30000100 = .ok .hfree ∧ decodeWord 0x32690002 = .ok (.tld 6 9 0 2) ∧
   decodeWord 0x34012000 = .ok (.opatch 1 2) ∧ decodeWord 0x3C100002 = .ok (.crrd 1 2) ∧
   decodeWord 0x0700095A = .ok (.brk 0x5A)) ∧
  ((∀ pc w2, decodeBundle pc 0 w2 = .error (.allZero, 0)) ∧
   (∀ pc (w w2 : BitVec 32), w.getLsbD 31 = true → pc % 8 ≠ 0 → decodeBundle pc w w2 = .error (.misaligned, pc)) ∧
   (∀ pc (w w2 : BitVec 32), w.getLsbD 31 = true → w.getLsbD 30 = true → pc % 8 = 0 →
     decodeBundle pc w w2 = .error (.pairForm, w.toNat)) ∧
   (∀ pc (w w2 : BitVec 32), w.getLsbD 31 = true → w.getLsbD 30 = false → pc % 8 = 0 →
     (w2.getLsbD 31 = true ∨ w2.getLsbD 30 = false) → decodeBundle pc w w2 = .error (.pairForm, w.toNat)) ∧
   (∀ pc (w w2 : BitVec 32) c a, w.getLsbD 31 = true → w.getLsbD 30 = false → pc % 8 = 0 → w2.getLsbD 31 = false →
     w2.getLsbD 30 = true → decodeWord w = .ok c → decodeWord w2 = .ok a →
     decodeBundle pc w w2 = if sameDest c.dest a.dest then .error (.sameDest, w.toNat) else .ok (.pair c a)) ∧
   (∀ pc (w2 : BitVec 32) a, pc % 8 = 0 → w2.getLsbD 31 = false → w2.getLsbD 30 = true → decodeWord w2 = .ok a →
     decodeBundle pc 0x80000000 w2 = .ok (.pair (.beq 0 0 0) a)) ∧
   (∀ pc (w w2 : BitVec 32) i, w.getLsbD 31 = false → decodeWord w = .ok i → decodeBundle pc w w2 = .ok (.lone i)) ∧
   (∀ e : DecodeError, decodeCause e = if e = .misaligned then 0x02 else 0x01))

/-- The register forms of R276 that compute one value, here by their arithmetic meaning: the signed and unsigned high products as halves of the 128-bit
product, SHL and SHR as multiplication and division by a power of two. CLZ, CTZ and POPC by the bits of the operand (R276). The immediate forms of
R278 and the bit fields of R279. The DIV group (R277): quotient and remainder meet the division identity, truncate toward zero, and take the values
that R277 gives for a zero divisor; the result stands among the thread's pending results, due 24 cycles later, and a write of g0 is discarded. -/
def Obligations.ScalarResults : Prop :=
  (∀ (s : State) (d a b : Reg),
     let x := s.panel.gv a
     let y := s.panel.gv b
     exec (.add d a b) s = s.puts d (x + y) ∧
     exec (.sub d a b) s = s.puts d (x - y) ∧
     exec (.mul d a b) s = s.puts d (x * y) ∧
     exec (.mulh d a b) s = s.puts d ((x.signExtend 128 * y.signExtend 128).extractLsb' 64 64) ∧
     exec (.mulhn d a b) s = s.puts d ((x.zeroExtend 128 * y.zeroExtend 128).extractLsb' 64 64) ∧
     exec (.and d a b) s = s.puts d (x &&& y) ∧
     exec (.or d a b) s = s.puts d (x ||| y) ∧
     exec (.xor d a b) s = s.puts d (x ^^^ y) ∧
     exec (.shl d a b) s = s.puts d (BitVec.ofNat 64 (x.toNat * 2 ^ (y.toNat % 64))) ∧
     exec (.shr d a b) s = s.puts d (BitVec.ofNat 64 (x.toNat / 2 ^ (y.toNat % 64))) ∧
     exec (.sra d a b) s = s.puts d (BitVec.ofInt 64 (x.toInt / 2 ^ (y.toNat % 64))) ∧
     exec (.slt d a b) s = s.puts d (if x.toInt < y.toInt then 1 else 0) ∧
     exec (.sltn d a b) s = s.puts d (if x.toNat < y.toNat then 1 else 0) ∧
     exec (.min d a b) s = s.puts d (BitVec.ofInt 64 (min x.toInt y.toInt)) ∧
     exec (.max d a b) s = s.puts d (BitVec.ofInt 64 (max x.toInt y.toInt)) ∧
     exec (.minn d a b) s = s.puts d (BitVec.ofNat 64 (min x.toNat y.toNat)) ∧
     exec (.maxn d a b) s = s.puts d (BitVec.ofNat 64 (max x.toNat y.toNat)) ∧
     exec (.sel d a b) s = s.puts d (if s.panel.gv d = 0 then y else x)) ∧
  (∀ (s : State) (d a : Reg),
     let x := s.panel.gv a
     (∃ n, exec (.clz d a) s = s.puts d (BitVec.ofNat 64 n) ∧ n ≤ 64 ∧ (∀ i, 64 - n ≤ i → x.getLsbD i = false) ∧
       (n < 64 → x.getLsbD (63 - n) = true)) ∧
     (∃ n, exec (.ctz d a) s = s.puts d (BitVec.ofNat 64 n) ∧ n ≤ 64 ∧ (∀ i, i < n → x.getLsbD i = false) ∧
       (n < 64 → x.getLsbD n = true)) ∧
     exec (.popc d a) s = s.puts d (BitVec.ofNat 64 ((List.range 64).filter fun i => x.getLsbD i).length)) ∧
  (∀ (s : State) (d a : Reg) (m : BitVec 16) (k pos len : BitVec 6),
     let x := s.panel.gv a
     let n := len.toNat + 1
     exec (.addi d a m) s = s.puts d (x + m.signExtend 64) ∧
     exec (.andi d a m) s = s.puts d (x &&& m.signExtend 64) ∧
     exec (.ori d a m) s = s.puts d (x ||| m.zeroExtend 64) ∧
     exec (.xori d a m) s = s.puts d (x ^^^ m.zeroExtend 64) ∧
     exec (.slti d a m) s = s.puts d (if x.toInt < m.toInt then 1 else 0) ∧
     exec (.lui d m) s = s.puts d (BitVec.ofInt 64 (m.toInt * 2 ^ 16)) ∧
     exec (.shli d a k) s = s.puts d (BitVec.ofNat 64 (x.toNat * 2 ^ k.toNat)) ∧
     exec (.shri d a k) s = s.puts d (BitVec.ofNat 64 (x.toNat / 2 ^ k.toNat)) ∧
     exec (.srai d a k) s = s.puts d (BitVec.ofInt 64 (x.toInt / 2 ^ k.toNat)) ∧
     exec (.bext d a pos len) s = s.puts d (BitVec.ofNat 64 (x.toNat / 2 ^ pos.toNat % 2 ^ n)) ∧
     (∃ v : W, exec (.bins d a pos len) s = s.puts d v ∧
       ∀ i, i < 64 → v.getLsbD i =
         if pos.toNat ≤ i ∧ i < pos.toNat + n then x.getLsbD (i - pos.toNat) else (s.panel.gv d).getLsbD i)) ∧
  (∀ (s : State) (d a b : Reg),
     let p := s.panel
     let x := p.gv a
     let y := p.gv b
     let later (v : W) : Res := s.to (((p.updC fun c => { c with div := c.div ++ [(d.toNat, v, p.now + 24)] }).later 24 .divResult
       [p.cur.core, p.cur.slot]).fin)
     let none_ : Res := s.to p.fin
     (d = 0 → exec (.div d a b) s = none_ ∧ exec (.divn d a b) s = none_ ∧ exec (.rem d a b) s = none_ ∧ exec (.remn d a b) s = none_) ∧
     (d ≠ 0 → y = 0 → exec (.div d a b) s = later (BitVec.allOnes 64) ∧ exec (.divn d a b) s = later (BitVec.allOnes 64) ∧
       exec (.rem d a b) s = later x ∧ exec (.remn d a b) s = later x) ∧
     (d ≠ 0 → y ≠ 0 → ∃ q r : Int, x.toInt = q * y.toInt + r ∧ r.natAbs < y.toInt.natAbs ∧ (r < 0 → x.toInt < 0) ∧ (0 < r → 0 < x.toInt) ∧
       exec (.div d a b) s = later (BitVec.ofInt 64 q) ∧ exec (.rem d a b) s = later (BitVec.ofInt 64 r)) ∧
     (d ≠ 0 → y ≠ 0 → ∃ q r : Nat, x.toNat = q * y.toNat + r ∧ r < y.toNat ∧
       exec (.divn d a b) s = later (BitVec.ofNat 64 q) ∧ exec (.remn d a b) s = later (BitVec.ofNat 64 r)))

/-- The frame of the scalar instructions (R280): nothing but the running thread's d and pc changes, whatever the operands; in particular no byte of
memory, no other register, no counter. -/
def Obligations.ScalarFrame : Prop :=
  ∀ (s t : State) (d a b : Reg) (m : BitVec 16) (k l : BitVec 6) (i : Instr),
    i ∈ [Instr.add d a b, .sub d a b, .mul d a b, .mulh d a b, .mulhn d a b, .and d a b, .or d a b, .xor d a b, .shl d a b, .shr d a b,
      .sra d a b, .slt d a b, .sltn d a b, .min d a b, .max d a b, .minn d a b, .maxn d a b, .sel d a b, .clz d a, .ctz d a, .popc d a,
      .addi d a m, .andi d a m, .ori d a m, .xori d a m, .slti d a m, .lui d m, .shli d a k, .shri d a k, .srai d a k, .bext d a k l,
      .bins d a k l] →
    exec i s = .next t → OnlyG d s t ∧ SameBytes s t ∧ (d = 0 → t.panel.cc.g = s.panel.cc.g)

/-- The conditional branches (R281, R282): not taken, control passes to the next bundle; taken, to pc + sext(off16) × 4 when that is a legal target, and
otherwise the bundle traps with TVAL the target. JAL, JALR, LPC and LOOP (R283, R284), with legal targets; an illegal target traps and writes nothing.
JALR reads its target before it writes the link, and LOOP g0 is an unconditional jump. -/
def Obligations.BranchAndJumpResults : Prop :=
  (∀ (s : State) (a b : Reg) (o : BitVec 16) (i : Instr) (taken : Bool),
     let x := s.panel.gv a
     let y := s.panel.gv b
     let t : W := s.panel.cc.pc + BitVec.ofInt 64 (o.toInt * 4)
     (i, taken) ∈ [(Instr.beq a b o, decide (x = y)), (.bne a b o, decide (x ≠ y)), (.blt a b o, decide (x.toInt < y.toInt)),
       (.bge a b o, decide (y.toInt ≤ x.toInt)), (.bltn a b o, decide (x.toNat < y.toNat)), (.bgen a b o, decide (y.toNat ≤ x.toNat))] →
     (taken = false → exec i s = s.to s.panel.fin) ∧
     (taken = true → Target t → exec i s = s.to (s.panel.goto t)) ∧
     (taken = true → t.toNat % 4 ≠ 0 → exec i s = s.to (s.panel.trap 0x02 t)) ∧
     (taken = true → t.toNat % 4 = 0 → ¬ Target t → exec i s = s.to (s.panel.trap 0x03 t))) ∧
  (∀ (s : State) (d a b : Reg) (o : BitVec 24),
     let p := s.panel
     let t : W := p.cc.pc + BitVec.ofInt 64 (o.toInt * 4)
     let n : W := p.cc.pc + BitVec.ofNat 64 p.cur.len
     let c := p.gv a - 1
     (Target t → exec (.jal o) s = s.to ((p.putG 15 n).goto t)) ∧
     (Target (p.gv a) → exec (.jalr d a) s = s.to ((p.putG d n).goto (p.gv a))) ∧
     exec (.lpc d) s = s.puts d n ∧
     (c = 0 → exec (.loop a b) s = s.puts a c) ∧
     (c ≠ 0 → Target (p.gv b) → exec (.loop a b) s = s.to ((p.putG a c).goto (p.gv b))) ∧
     (∀ u, u.toNat % 4 ≠ 0 → t = u → exec (.jal o) s = s.to (p.trap 0x02 u)) ∧
     (∀ u, u.toNat % 4 = 0 → ¬ Target u → p.gv a = u → exec (.jalr d a) s = s.to (p.trap 0x03 u)) ∧
     (∀ u, c ≠ 0 → u.toNat % 4 = 0 → ¬ Target u → p.gv b = u → exec (.loop a b) s = s.to (p.trap 0x03 u)))

/-- NOP; YIELD, which is a blocking point always, and tried again behind an open LDSY; SPLIT; EXIT of a thread whose counters are 0 (R217, R224, R226,
R285). FUSE (R214, R286): a mask without the thread's own column, or with a core outside its block, gives 0 at once; the first member of a gang waits;
the last one that meets the others, and no other mask, forms the gang and gives 1. -/
def Obligations.ThreadEndsAndFuse : Prop :=
  (∀ s : State,
     let p := s.panel
     exec .nop s = s.to p.fin ∧
     (p.isHandler = false → exec .yield s = s.to (if p.ldsyOpen then p.retry else p.fin.block_ .yield)) ∧
     (p.isHandler = true → exec .yield s = s.to (p.trap 0x0C p.cc.pc)) ∧
     (p.Plain → exec .split s = s.to (p.dissolve p.cc.gang p.cur.slot).fin) ∧
     (p.Plain → p.cc.ldc = 0 → p.cc.stc = 0 → p.cc.cpc = 0 → p.cc.tlc = 0 →
       ∃ t, exec .exit s = .next t ∧ t.panel.ctx p.cur.core p.cur.slot = {} ∧
         ∀ k ∈ p.cc.gang, k ≠ p.cur.core → (t.panel.ctx k p.cur.slot).gang = [])) ∧
  (∀ (s : State) (d : Reg) (m : BitVec 4),
     let p := s.panel
     let lc := p.cur.core
     let names := fuseCores lc m.toNat
     let inside := bt m.toNat (cx lc % 4) = true ∧ ∀ k ∈ names, k ∈ blockCores p.cb
     p.Plain → p.cc.gang = [] → p.Lone →
     (¬ inside → exec (.fuse d m) s = s.puts d 0) ∧
     (inside → (∀ j, j < 4 → rowCore lc j ≠ lc → fuseMask (p.ctx (rowCore lc j) p.cur.slot).stall = none) → (∃ k ∈ names, k ≠ lc) → p.cc.st ≠ .parked →
       ∃ t, exec (.fuse d m) s = .next t ∧ t.panel.cc.st = .stall ∧ t.panel.cc.stall = .fuse m.toNat d.toNat p.now ∧
         t.panel.cc.pc = p.cc.pc + 4) ∧
     (inside → d ≠ 0 →
       (∀ j, j < 4 → rowCore lc j ≠ lc → rowCore lc j ∉ names → fuseMask (p.ctx (rowCore lc j) p.cur.slot).stall = none) →
       (∀ k ∈ names, k ≠ lc → fuseMask (p.ctx k p.cur.slot).stall = some m.toNat ∧ (p.ctx k p.cur.slot).btag = p.cc.btag) →
       ∃ t, exec (.fuse d m) s = .next t ∧ t.panel.cc.gr d.toNat = 1 ∧ ∀ k ∈ names, (t.panel.ctx k p.cur.slot).gang = names))

/-- A class U trap of a thread at home whose block has a handler address (R450-R452): BRK and TRAP save their cause, the bundle's address, their code and
the status, and control passes to TVEC; no g register, mask, shape register or byte of memory changes. BRK with DBGARM leaves the pc and raises the
halt line with REASON 4 instead. A migrated thread goes home first, with its trap, once its loads and stores are complete. Without a handler address,
and at it, a trap is of class F (R450, R453, R454): the thread stops, and the halt line rises with REASON 1 and the cause, TRAP_LOOP at the handler's
own address. ERET at S level resumes at TPC, which is checked as every target (R282), at the level that TSTATE holds (log 11, DEDUCED); at U level it,
HALT and TLBINV are illegal (R262, R285, R299, R300). At S level HALT raises the halt line with REASON 3. -/
def Obligations.TrapsTaken : Prop :=
  (∀ (s : State) (code : BitVec 8) (i : Instr) (cause : Nat),
     let p := s.panel
     (i, cause) ∈ [(Instr.brk code, 0x10), (.trap code, 0x0F)] →
     (p.isAway = true → p.cc.ldc = 0 → p.cc.stc = 0 →
       ∃ t, exec i s = .next t ∧ t.panel.ctx p.cur.core p.cur.slot = {} ∧ t.panel.mem = p.mem ∧
         ∃ x ∈ (t.panel.core p.cc.homeCore).net,
           x.2.pay = .home { p.cc with pend := p.cc.pend ++ [⟨cause, code.zeroExtend 64, false, p.cur.aword⟩] } 0 0 0 0 0 p.cur.slot) ∧
     (p.isAway = false → p.cb.trapVec p.now ≠ 0 → p.cc.pc ≠ p.cb.trapVec p.now → (i = .brk code → (p.part p.cb.part).dbgarm = false) →
       ∃ t, exec i s = .next t ∧ t.panel.cc.tcause.toNat = cause ∧ t.panel.cc.tpc = p.cc.pc ∧ t.panel.cc.tval = code.zeroExtend 64 ∧
         t.panel.cc.tstate.toNat = b2n (p.cc.gang != []) * 8 + b2n p.slevel * 4 + b2n p.cur.aword * 2 ∧ t.panel.cc.pc = p.cb.trapVec p.now ∧
         t.panel.cc.g = p.cc.g ∧ t.panel.cc.m = p.cc.m ∧ t.panel.cc.sh = p.cc.sh ∧ t.panel.mem = p.mem) ∧
     (p.isAway = false → i = .brk code → (p.part p.cb.part).dbgarm = true → (SMap.find p.parts p.cb.part).isSome = true → (p.part p.cb.part).halt = false →
       ∃ t, exec i s = .next t ∧ t.panel.cc.tcause.toNat = cause ∧ t.panel.cc.tpc = p.cc.pc ∧ t.panel.cc.pc = p.cc.pc ∧
         (t.panel.part p.cb.part).halt = true ∧ (t.panel.part p.cb.part).hReason = 4)) ∧
  (∀ (s : State) (code : BitVec 8),
     let p := s.panel
     let q := p.part p.cb.part
     p.isAway = false → (SMap.find p.parts p.cb.part).isSome = true → q.halt = false → (p.cb.trapVec p.now = 0 ∨ p.cc.pc = p.cb.trapVec p.now) →
     ∃ t, exec (.trap code) s = .next t ∧ t.panel.cc.st = .stall ∧ t.panel.cc.stall = .fatal ∧ t.panel.cc.pc = p.cc.pc ∧
       t.panel.cc.tcause.toNat = 0x200 + (if p.cb.trapVec p.now = 0 then 0x0F else 0x37) ∧
       (t.panel.part p.cb.part).halt = true ∧ (t.panel.part p.cb.part).hReason = 1 ∧
       (t.panel.part p.cb.part).hCause = (if p.cb.trapVec p.now = 0 then 0x0F else 0x37)) ∧
  (∀ (s : State) (a b : Reg),
     let p := s.panel
     p.isAway = false →
     (p.slevel = true → Target p.cc.tpc →
       exec .eret s = s.to ((p.updC fun c => { c with user := !c.tstate.getLsbD 2 }).goto p.cc.tpc)) ∧
     (p.slevel = true → p.cc.tpc.toNat % 4 ≠ 0 → exec .eret s = s.to (p.trap 0x02 p.cc.tpc)) ∧
     (p.slevel = true → p.cc.tpc.toNat % 4 = 0 → ¬ Target p.cc.tpc → exec .eret s = s.to (p.trap 0x03 p.cc.tpc)) ∧
     (p.slevel = true → (SMap.find p.parts p.cb.part).isSome = true → (p.part p.cb.part).halt = false →
       ∃ t, exec .halt s = .next t ∧ (t.panel.part p.cb.part).halt = true ∧ (t.panel.part p.cb.part).hReason = 3 ∧
         t.panel.cc = p.fin.cc ∧ t.panel.mem = p.mem) ∧
     (p.slevel = false → exec .eret s = s.to (p.trap 0x01 p.cur.word) ∧ exec .halt s = s.to (p.trap 0x01 p.cur.word) ∧
       exec (.tlbinv a b) s = s.to (p.trap 0x01 p.cur.word)))

/-- Scalar loads from the private alias (R30, R84, R95, R287): the register takes the little-endian bytes, sign- or zero-extended, the gap takes the bank
cycles of the words touched, and nothing in memory changes. LDBT takes bits of the address's bytes (R86, R292). A load waits for the thread's own
mesh-window accesses to its bytes that have still to read them (R182, R183). Scalar stores to the private alias (R30, R84, R287): the low bytes of the
register at issue, little-endian, and no other byte of memory; no register changes. STBT writes its bits and keeps the others of the bytes it touches
(R87, R292). A store waits for the thread's own mesh-window accesses to its bytes (R182). -/
def Obligations.LocalLoadsAndStores : Prop :=
  (∀ (s : State) (d a b : Reg) (m : BitVec 16) (h : BitVec 2),
     let p := s.panel
     let ld (off n : Nat) (v : W) : Res := s.to (((p.untrack.updC fun c => c.setG d.toNat v).bankGap (wordsTouched off n)).fin)
     let at_ (x n : Nat) : Nat := Memory.readN p.mem x n
     p.Calm →
     (∀ i n sx, (i, n, sx) ∈ [(Instr.ldB d a m, 1, true), (.ldH d a m, 2, true), (.ldW d a m, 4, true), (.ldD d a m, 8, true),
         (.ldBz d a m, 1, false), (.ldHz d a m, 2, false), (.ldWz d a m, 4, false)] →
       ∀ lc off, place p p.src (p.gv a + m.signExtend 64).toNat n = .lm lc off false →
         (p.meshOpen false lc off n = true → exec i s = s.to p.retry) ∧
         (p.meshOpen false lc off n = false → exec i s = ld off n (if sx then BitVec.ofInt 64 (sgn (8 * n) (at_ (lmA lc off) n)) else BitVec.ofNat 64 (at_ (lmA lc off) n)))) ∧
     (∀ k : Nat, k < 7 → ∀ lc off n, n = 2 ^ (k % 4) → place p p.src (p.gv a + p.gv b * 2 ^ h.toNat).toNat n = .lm lc off false →
       p.meshOpen false lc off n = false → exec (.ldx d a b h (BitVec.ofNat 3 k)) s =
         ld off n (if k < 4 then BitVec.ofInt 64 (sgn (8 * n) (at_ (lmA lc off) n)) else BitVec.ofNat 64 (at_ (lmA lc off) n))) ∧
     (∀ (sx : BitVec 1) (w : BitVec 6) lc off, placeBits p p.src (p.gv a).toNat (w.toNat + 1) = .lm lc off false →
       (∀ n, p.meshOpen false lc off n = false) →
       let v := Memory.readN p.mem (lmA lc off) 9 / 2 ^ ((p.gv a).toNat % 8) % 2 ^ (w.toNat + 1)
       ∃ t, exec (.ldbt d a sx w) s = .next t ∧
         t.panel.cc.g = (p.cc.setG d.toNat (if sx = 1 then BitVec.ofInt 64 (sgn (w.toNat + 1) v) else BitVec.ofNat 64 v)).g ∧
         t.panel.mem = p.mem)) ∧
  (∀ (s : State) (d a b : Reg) (m : BitVec 16) (h : BitVec 2),
     let p := s.panel
     let st (i : Instr) (lc off n : Nat) : Prop := ∃ t, exec i s = .next t ∧
       Memory.readN t.panel.mem (lmA lc off) n = (p.gv d).toNat % 2 ^ (8 * n) ∧ SameBytesBut (lmA lc off) n s t ∧ t.panel.cc.g = p.cc.g ∧
       t.panel.cc.pc = p.fin.cc.pc
     p.Calm →
     (∀ i n, (i, n) ∈ [(Instr.stB d a m, 1), (.stH d a m, 2), (.stW d a m, 4), (.stD d a m, 8)] →
       ∀ lc off, place p p.src (p.gv a + m.signExtend 64).toNat n = .lm lc off false →
         (p.meshOpen true lc off n = true → exec i s = s.to p.retry) ∧ (p.meshOpen true lc off n = false → st i lc off n)) ∧
     (∀ k : BitVec 2, ∀ lc off n, n = 2 ^ k.toNat → place p p.src (p.gv a + p.gv b * 2 ^ h.toNat).toNat n = .lm lc off false →
       p.meshOpen true lc off n = false → st (.stx d a b h k) lc off n) ∧
     (∀ (w : BitVec 6) lc off, placeBits p p.src (p.gv a).toNat (w.toNat + 1) = .lm lc off false → (∀ n, p.meshOpen true lc off n = false) →
       let k := (p.gv a).toNat % 8
       ∃ t, exec (.stbt d a w) s = .next t ∧ t.panel.cc.g = p.cc.g ∧
         SameBytesBut (lmA lc off) ((k + w.toNat + 8) / 8) s t ∧
         ∀ j, j < 8 * ((k + w.toNat + 8) / 8) →
           (Memory.readN t.panel.mem (lmA lc off) ((k + w.toNat + 8) / 8)).testBit j =
             if k ≤ j ∧ j ≤ k + w.toNat then (p.gv d).getLsbD (j - k)
             else (Memory.readN p.mem (lmA lc off) ((k + w.toNat + 8) / 8)).testBit j))

/-- Scalar loads and stores outside the private alias. An address of no region, or outside its window or rectangle, traps with TVAL the address and writes
nothing (R28-R32, R36). One to another core of the mesh window that does not migrate is sent as a remote access and counted (R97, R263); a full
counter class makes the bundle wait. A paged load that hits the L1, whose lines pass their code check (R113), takes the line's bytes (R108), once no
store of another thread and no older load of its own to them has still to be performed (R177, R183); one that misses the L1 and the TLB, and such a
store, are issued and counted, unless the page's region raises a trap (R44, R191). Strict launches (R164, R165): a paged access outside what the
launch declares has no effect on its thread's registers; the launch ends with status 7 and the address, and its blocks stop. -/
def Obligations.OtherScalarAccesses : Prop :=
  (∀ (s : State) (d a : Reg) (m : BitVec 16),
     let p := s.panel
     let ea := (p.gv a + m.signExtend 64).toNat
     p.Calm →
     (∀ i n st sx, (i, n, st, sx) ∈ [(Instr.ldB d a m, 1, false, true), (.ldH d a m, 2, false, true), (.ldW d a m, 4, false, true),
         (.ldD d a m, 8, false, true), (.ldBz d a m, 1, false, false), (.ldHz d a m, 2, false, false), (.ldWz d a m, 4, false, false),
         (.stB d a m, 1, true, false), (.stH d a m, 2, true, false), (.stW d a m, 4, true, false), (.stD d a m, 8, true, false)] →
       (∀ c, place p p.src ea n = .bad c → exec i s = s.to (p.trap c (BitVec.ofNat 64 ea))) ∧
       (∀ lc off, place p p.src ea n = .lm lc off true → (lc = p.home ∨ lc ∉ blockCores p.cb) →
         (st = false → p.cc.ldc < 15 → ∃ t, exec i s = .next t ∧ t.panel.cc.ldc = p.cc.ldc + 1 ∧ t.panel.cc.g = p.cc.g ∧
           Issued s t .load ea n (.g d.toNat) ∧ t.panel.mem = p.mem) ∧
         (st = true → p.cc.stc < 15 → ∃ t, exec i s = .next t ∧ t.panel.cc.stc = p.cc.stc + 1 ∧ t.panel.cc.g = p.cc.g ∧
           Issued s t .store ea n .none ∧ t.panel.mem = p.mem) ∧
         (st = false → 15 ≤ p.cc.ldc → exec i s = s.to p.retry) ∧ (st = true → 15 ≤ p.cc.stc → exec i s = s.to p.retry)) ∧
       (place p p.src ea n = .paged → strictOk p.cl ea n (if st then 2 else 1) = true →
         (∀ v, st = false → p.cc.ldc < 15 → p.l1Check p.cur.core ea n = p → p.l1Read p.cur.core ea n = some v →
           (p.pendingBytes p.cur.core p.cur.slot ea n = true ∨ p.loadOpen p.cur.core p.cur.slot ea n = true) → exec i s = s.to p.retry) ∧
         (∀ v, st = false → p.cc.ldc < 15 → p.l1Check p.cur.core ea n = p → p.l1Read p.cur.core ea n = some v →
           p.pendingBytes p.cur.core p.cur.slot ea n = false → p.loadOpen p.cur.core p.cur.slot ea n = false →
           exec i s = s.puts d (if sx then BitVec.ofInt 64 (sgn (8 * n) v) else BitVec.ofNat 64 v)) ∧
         (st = false → p.cc.ldc < 15 → p.l1Check p.cur.core ea n = p → p.l1Read p.cur.core ea n = none →
           p.regionTrap { mkAcc .load .none ea n with dest := .g d.toNat, sx := sx } = none →
           tlbFind (p.cluster (clusterOf p.cur.core)) p.cb.part p.cb.asid (ea / 65536) = none →
           ∃ t, exec i s = .next t ∧ t.panel.cc.ldc = p.cc.ldc + 1 ∧ t.panel.cc.g = p.cc.g ∧ Issued s t .load ea n (.g d.toNat) ∧
             t.panel.mem = p.mem) ∧
         (st = true → p.cc.stc < 15 → p.regionTrap { mkAcc .store .none ea n with data := (p.gv d).toNat } = none → l1Find (p.core (l1Core p p.cur.core (64 * (ea / 64)))).l1d (ea / 64) p.cb.part p.cb.asid = none →
           tlbFind (p.cluster (clusterOf p.cur.core)) p.cb.part p.cb.asid (ea / 65536) = none →
           ∃ t, exec i s = .next t ∧ t.panel.cc.stc = p.cc.stc + 1 ∧ t.panel.cc.g = p.cc.g ∧ Issued s t .store ea n .none ∧
             t.panel.mem = p.mem)))) ∧
  (∀ (s : State) (d a : Reg) (m : BitVec 16) (l : Launch),
     let p := s.panel
     let ea := (p.gv a + m.signExtend 64).toNat
     p.Calm → SMap.find p.launches p.cb.launch = some l → l.st = .placed → SMap.find p.blocks p.cc.btag = some p.cb → p.cb.st = .resident →
     (∀ i n need, (i, n, need) ∈ [(Instr.ldB d a m, 1, 1), (.ldH d a m, 2, 1), (.ldW d a m, 4, 1), (.ldD d a m, 8, 1), (.ldBz d a m, 1, 1), (.ldHz d a m, 2, 1), (.ldWz d a m, 4, 1),
         (.stB d a m, 1, 2), (.stH d a m, 2, 2), (.stW d a m, 4, 2), (.stD d a m, 8, 2)] →
       place p p.src ea n = .paged → strictOk p.cl ea n need = false →
       ∃ t, exec i s = .next t ∧ (t.panel.launch p.cb.launch).st = .ended ∧ (t.panel.launch p.cb.launch).status = 7 ∧ (t.panel.launch p.cb.launch).addr = ea ∧
         (t.panel.block p.cc.btag).st = .ended ∧ t.panel.cur.trapped = true))

/-- Full/empty words of the thread's own window (R89-R91, R293-R295): LDSY takes a full word and LDSY.TAKE empties it; on an empty one the thread blocks;
STFL writes its word and fills it; FECLR empties the words of its range and writes no byte. Misaligned, they trap. They wait for the thread's own
releases (LDSY) and for its mesh-window accesses to the same bytes (R182). The atomics on the thread's own window (R192, R302-R306): the destination
takes the old value, sign-extended for .W, the location the new one of the table of R305, in one access; no other byte changes. AMOCAS writes only
when the compare succeeds. -/
def Obligations.SyncWordsAndAtomics : Prop :=
  (∀ (s : State) (d a b : Reg) (lc off : Nat),
     let p := s.panel
     let va := (p.gv a).toNat
     p.Calm → regionOf va = .private_ →
     (va % 8 ≠ 0 → exec (.ldsy d a) s = s.to (p.trapW 0x04) ∧ exec (.ldsyTake d a) s = s.to (p.trapW 0x04) ∧
       exec (.stfl a b) s = s.to (p.trapW 0x04)) ∧
     (va % 8 = 0 → place p p.src va 8 = .lm lc off false →
       (p.relBusy = true ∨ p.meshOpen false lc off 8 = true → exec (.ldsy d a) s = s.to p.retry ∧ exec (.ldsyTake d a) s = s.to p.retry) ∧
       (p.relBusy = false → p.meshOpen false lc off 8 = false → p.isFull lc (off / 8) = true →
         exec (.ldsy d a) s = s.to (((p.untrack.bankGap 1).putG d (BitVec.ofNat 64 (Memory.readN p.mem (lmA lc off) 8))).fin) ∧
         exec (.ldsyTake d a) s = s.to ((((p.untrack.bankGap 1).putG d (BitVec.ofNat 64 (Memory.readN p.mem (lmA lc off) 8))).setEmpty lc (off / 8)).fin)) ∧
       (p.relBusy = false → p.meshOpen false lc off 8 = false → p.isFull lc (off / 8) = false → p.cc.st ≠ .parked →
         (∃ t, exec (.ldsy d a) s = .next t ∧ t.panel.cc.st = .blocked ∧ t.panel.cc.wake = .ldsy va d.toNat false) ∧
         (∃ t, exec (.ldsyTake d a) s = .next t ∧ t.panel.cc.st = .blocked ∧ t.panel.cc.wake = .ldsy va d.toNat true)) ∧
       (p.quiet = true → (p.core lc).waits = [] →
         ∃ t, exec (.stfl a b) s = .next t ∧ Memory.readN t.panel.mem (lmA lc off) 8 = (p.gv b).toNat ∧ t.panel.isFull lc (off / 8) = true ∧
           SameBytesBut (lmA lc off) 8 s t)) ∧
     (va % 8 = 0 → 0 < (p.gv b).toNat → (p.gv b).toNat % 8 = 0 → place p p.src va (p.gv b).toNat = .lm lc off false →
       p.meshOpen true lc off (p.gv b).toNat = false → ∃ t, exec (.feclr a b) s = .next t ∧ t.panel.mem = p.mem ∧
         ∀ w, t.panel.isFull lc w = (p.isFull lc w && !(decide (off / 8 ≤ w) && decide (w < off / 8 + (p.gv b).toNat / 8))))) ∧
  (∀ (s : State) (d a b : Reg) (q r : BitVec 1) (sc : BitVec 3) (w : BitVec 1) (lc off : Nat),
     let p := s.panel
     let va := (p.gv a).toNat
     let n := if w = 1 then 8 else 4
     let k := 8 * n
     let old : BitVec k := BitVec.ofNat k (Memory.readN p.mem (lmA lc off) n)
     let x : BitVec k := BitVec.ofNat k (p.gv b).toNat
     let c : BitVec k := BitVec.ofNat k (p.gv d).toNat
     let does (i : Instr) (new : BitVec k) : Prop := ∃ t, exec i s = .next t ∧ Memory.readN t.panel.mem (lmA lc off) n = new.toNat ∧
       SameBytesBut (lmA lc off) n s t ∧ t.panel.cc.g = (p.cc.setG d.toNat (old.signExtend 64)).g ∧ t.panel.cc.pc = p.fin.cc.pc
     p.Calm → (r = 1 → p.quiet = true) → (q = 1 → p.relBusy = false) → p.meshOpen true lc off n = false → va / 2 ^ 55 = 0 → va % n = 0 → place p p.src va n = .lm lc off false →
     does (.amoadd d a b q r sc w) (old + x) ∧ does (.amoswp d a b q r sc w) x ∧
     does (.amocas d a b q r sc w) (if old = c then x else old) ∧ does (.amoand d a b q r sc w) (old &&& x) ∧
     does (.amoor d a b q r sc w) (old ||| x) ∧ does (.amoxor d a b q r sc w) (old ^^^ x) ∧
     does (.amomin d a b q r sc w) (if old.toInt ≤ x.toInt then old else x) ∧
     does (.amomax d a b q r sc w) (if x.toInt ≤ old.toInt then old else x) ∧
     does (.amominn d a b q r sc w) (if old.toNat ≤ x.toNat then old else x) ∧
     does (.amomaxn d a b q r sc w) (if x.toNat ≤ old.toNat then old else x) ∧
     does (.amofadd d a b q r sc w) (BitVec.ofNat k (fpAdd (fpFmt (if w = 1 then 0 else 1)) (p.src.rmode.toNat % 4) old.toNat x.toNat)))

/-- PF of an address that is not paged only advances the pc, and one whose translation is known and permitted asks for its line (R290); MIGR in a light
thread outside a gang marks the thread for the next access that consults the predictor, and does nothing in another (R291). FENCE (R185, R307) stalls
while a predecessor is not performed, with writes in its successor set while any earlier access is not (R186), and then completes with the acquire
action of its scope; at scope .P or .S in a cluster without fused L1, the core's L1 data cache is empty afterwards (R179). No register and no byte
changes. WAITC (R264) passes when every counter is at or below its immediate, and is a blocking point otherwise, in a handler HANDLER_BLOCK (R220);
HOLD (R315) stalls for its number of cycles. -/
def Obligations.OrderingAndHints : Prop :=
  (∀ (s : State) (a b : Reg) (h : BitVec 2),
     let p := s.panel
     p.Plain →
     (regionOf (p.gv a + p.gv b * 2 ^ h.toNat).toNat ≠ .paged → exec (.pf a b h) s = s.to p.fin) ∧
     (∀ ea x, ea = (p.gv a + p.gv b * 2 ^ h.toNat).toNat → regionOf ea = .paged → strictOk p.cl ea 1 1 = true →
       p.known (clusterOf p.cur.core) p.cb.part p.cb.asid (ea / 65536) = some x → permitted x.attr 1 p.slevel = true →
       region ((x.pfn + (ea / 65536 - x.vpn)) * 65536) = 0 → p.l1Read p.cur.core ea 1 = none →
       exec (.pf a b h) s = s.to (p.issueAcc { mkAcc .load .none ea 1 with fill := 1 }).fin) ∧
     (p.cb.light = true → p.cc.gang = [] → ∃ t, exec .migr s = .next t ∧ t.panel.cc.migr = true ∧ t.panel.cc.g = p.cc.g ∧ t.panel.mem = p.mem) ∧
     (p.cb.light = false ∨ p.cc.gang ≠ [] → exec .migr s = s.to p.fin)) ∧
  (∀ (s : State) (f : BitVec 4) (sc : BitVec 3) (l : BitVec 1),
     let p := s.panel
     let busy := p.fenceBusy (f.getLsbD 3) (f.getLsbD 2) (f.getLsbD 0) sc.toNat (l == 1)
     (busy = true → exec (.fence f sc l) s = s.to p.retry) ∧
     (busy = false → f.getLsbD 1 = false → exec (.fence f sc l) s = s.to p.fin) ∧
     (busy = false → f.getLsbD 1 = true →
       ∃ t, exec (.fence f sc l) s = .next t ∧ t.panel.cc.g = p.cc.g ∧ t.panel.cc.pc = p.fin.cc.pc ∧ t.panel.mem = p.mem ∧
         (4 ≤ sc.toNat → (p.cluster (clusterOf p.cur.core)).fused = false → (t.panel.core p.cur.core).l1d = []))) ∧
  (∀ (s : State) (l st : BitVec 4) (c t : BitVec 3) (n : BitVec 16),
     let p := s.panel
     let under := p.cc.ldc ≤ l.toNat ∧ p.cc.stc ≤ st.toNat ∧ p.cc.cpc ≤ c.toNat ∧ p.cc.tlc ≤ t.toNat
     (under → exec (.waitc l st c t) s = s.to p.fin) ∧
     (¬ under → p.isHandler = false → p.cc.st ≠ .parked →
       ∃ u, exec (.waitc l st c t) s = .next u ∧ u.panel.cc.st = .blocked ∧ u.panel.cc.wake = .waitc l.toNat st.toNat c.toNat t.toNat ∧
         u.panel.cc.g = p.cc.g ∧ u.panel.mem = p.mem) ∧
     (¬ under → p.isHandler = true → exec (.waitc l st c t) s = s.to (p.trap 0x0C p.cc.pc)) ∧
     (p.isAway = false → n = 0 → exec (.hold n) s = s.to p.fin) ∧
     (p.isAway = false → n ≠ 0 → p.cc.st ≠ .parked →
       ∃ u, exec (.hold n) s = .next u ∧ u.panel.cc.st = .stall ∧ u.panel.cc.stall = .hold (p.now + n.toNat) ∧ u.panel.cc.g = p.cc.g ∧
         u.panel.cc.pc = p.fin.cc.pc ∧ u.panel.mem = p.mem))

/-- The barrier instructions on an object of the thread's own window (R198-R201, R308-R313): BARINIT writes every field; BARARR counts an arrival, or with
the last one and no bytes pending completes the phase in the same access; BARWAIT passes once the phase it saw has passed and otherwise blocks; BAREXP
adds to the pending bytes; BARTEST reads the outcome. An object of another block, or with nothing expected, is BARRIER_FAULT. They wait for the
thread's own mesh-window accesses to the object, and BARWAIT and BARTEST for its releases (R182). -/
def Obligations.BarrierResults : Prop :=
  ∀ (s : State) (d a b : Reg) (tf : BitVec 1) (lc off : Nat),
    let p := s.panel
    let va := (p.gv a).toNat
    let o := p.obj lc off
    let tag := p.cc.btag
    let n := (p.gv b).toNat
    let rec_ (f : Nat) : ArrRec := arrOf p.cb lc off f
    p.Calm → regionOf va = .private_ → va % 16 = 0 → place p p.src va 16 = .lm lc off false → tag < 2 ^ 32 → p.relBusy = false →
    p.meshOpen true lc off 16 = false →
    (0 < n → n < 2 ^ 16 →
      ∃ t, exec (.barinit a b tf) s = .next t ∧ t.panel.obj lc off = mkObj tag 0 (tf == 1) 0 0 n ∧ SameBytesBut (lmA lc off) 16 s t) ∧
    (objOk o tag = true → objArr o < objExp o → p.quiet = true →
      ∃ t, exec (.bararr a) s = .next t ∧ SameBytesBut (lmA lc off) 16 s t ∧
        t.panel.obj lc off = (if objArr o + 1 = objExp o ∧ objPend o = 0 then mkObj tag 0 (objStag o) (1 - objPhase o) 0 (objExp o)
          else mkObj tag (objPend o) (objStag o) (objPhase o) (objArr o + 1) (objExp o)) ∧
        ((p.core lc).waits = [] → t.panel.cc.arr = some (rec_ (objPhase o)))) ∧
    (∀ f, objOk o tag = true → p.cc.arr = some (rec_ f) → f ≠ objPhase o →
      exec (.barwait a) s = s.to ((p.untrack.bankGap 1).fin.barReturn p.cur.core p.cur.slot (objStag o))) ∧
    (∀ f, objOk o tag = true → (p.cc.arr = some (rec_ f) ∨ ∀ f', p.cc.arr ≠ some (rec_ f')) → f = objPhase o → p.cc.st ≠ .parked →
      ∃ t, exec (.barwait a) s = .next t ∧ t.panel.cc.st = .blocked ∧ t.panel.cc.wake = .barrier lc off f va ∧ t.panel.mem = p.mem ∧
        ∃ e ∈ (t.panel.core lc).waits, e.bar = true ∧ e.off = off ∧ e.core = p.cur.core ∧ e.slot = p.cur.slot ∧ e.phase = f) ∧
    (objOk o tag = true → -(2 ^ 31 : Int) ≤ objPend o + (p.gv b).toInt → objPend o + (p.gv b).toInt < (2 ^ 31 : Int) →
      ∃ t, exec (.barexp a b) s = .next t ∧ SameBytesBut (lmA lc off) 16 s t ∧
        t.panel.obj lc off = (if objArr o = objExp o ∧ objPend o + (p.gv b).toInt = 0 then mkObj tag 0 (objStag o) (1 - objPhase o) 0 (objExp o)
          else mkObj tag (objPend o + (p.gv b).toInt) (objStag o) (objPhase o) (objArr o) (objExp o))) ∧
    (∀ k, objOk o tag = true →
      ((∃ f, p.cc.arr = some (rec_ f) ∧ f ≠ objPhase o ∧ k = 2 ^ 63) ∨ ((∀ f, p.cc.arr = some (rec_ f) → f = objPhase o) ∧ k = 0)) →
      ∃ t, exec (.bartest d a) s = .next t ∧ t.panel.mem = p.mem ∧ t.panel.cc.g = (p.cc.setG d.toNat (BitVec.ofNat 64 (k + o % 2 ^ 34))).g) ∧
    (objOk o tag = false → p.quiet = true → exec (.bararr a) s = s.to (p.trap 0x0B p.cur.word) ∧
      exec (.barwait a) s = s.to (p.trap 0x0B p.cur.word) ∧ exec (.barexp a b) s = s.to (p.trap 0x0B p.cur.word) ∧
      exec (.bartest d a) s = s.to (p.trap 0x0B p.cur.word))

/-- The queue registers (R243, R244, R316): QPUSH appends, and waits while the queue is full; QPOP takes the oldest entry, QPEEK leaves it, and both block
on an empty queue, behind an LDSY of another core once that is known; QLEN counts. A queue number outside the table of R243 is illegal. RINGWAIT,
RINGPOP and RHOPS (R326-R328): RINGWAIT passes when the ring holds an entry and blocks while it is empty; RINGPOP of an empty ring gives 0, and of
another gives its valid bit with the place of the next entry; both follow the thread's open releases, RINGPOP where it returns an entry (R182); on a
ring that is off or another block's they are CR_FAULT. RHOPS counts physical hops from home. -/
def Obligations.QueuesAndRings : Prop :=
  (∀ (s : State) (a d : Reg) (q : BitVec 4),
     let p := s.panel
     let lc := p.cur.core
     let tag := p.cc.btag
     let es := p.queue lc tag q.toNat
     p.Plain →
     (8 ≤ q.toNat → es.length < 16 →
       ∃ t, exec (.qpush a q) s = .next t ∧ t.panel.queue lc tag q.toNat = es ++ [p.gv a] ∧ t.panel.cc.g = p.cc.g ∧ t.panel.mem = p.mem) ∧
     (8 ≤ q.toNat → 16 ≤ es.length → exec (.qpush a q) s = s.to p.retry) ∧
     (q.toNat < 8 → exec (.qpush a q) s = s.to (p.trap 0x01 p.cur.word)) ∧
     (∀ v vs, queueOk 1 q.toNat = true → es = v :: vs →
       exec (.qpeek d q) s = s.puts d v ∧
       ∃ t, exec (.qpop d q) s = .next t ∧ t.panel.queue lc tag q.toNat = vs ∧ t.panel.cc.g = (p.cc.setG d.toNat v).g ∧ t.panel.mem = p.mem) ∧
     (queueOk 1 q.toNat = true → es = [] → p.ldsyOpen = true → exec (.qpop d q) s = s.to p.retry ∧ exec (.qpeek d q) s = s.to p.retry) ∧
     (queueOk 1 q.toNat = true → es = [] → p.ldsyOpen = false → exec (.qpop d q) s = s.to (p.fin.block_ (.qpop q.toNat d.toNat)) ∧
       exec (.qpeek d q) s = s.to (p.fin.block_ (.qpeek q.toNat d.toNat))) ∧
     (queueOk 2 q.toNat = true → exec (.qlen d q) s = s.puts d (BitVec.ofNat 64 es.length)) ∧
     (queueOk 1 q.toNat = false → exec (.qpop d q) s = s.to (p.trap 0x01 p.cur.word)) ∧
     (queueOk 2 q.toNat = false → exec (.qlen d q) s = s.to (p.trap 0x01 p.cur.word))) ∧
  (∀ (s : State) (d a : Reg) (n : BitVec 2),
     let p := s.panel
     p.Calm →
     (p.myRing n.toNat = none → exec (.ringwait n) s = s.to (p.trap 0x0A p.cur.word) ∧ exec (.ringpop d n) s = s.to (p.trap 0x0A p.cur.word)) ∧
     (∀ r, p.myRing n.toNat = some r →
       (p.relBusy = true → exec (.ringwait n) s = s.to p.retry ∧ (r.tail ≠ r.head → exec (.ringpop d n) s = s.to p.retry)) ∧
       (p.relBusy = false → r.tail ≠ r.head → exec (.ringwait n) s = s.to p.fin) ∧
       (p.relBusy = false → r.tail = r.head → exec (.ringwait n) s = s.to (if p.ldsyOpen then p.retry else p.fin.block_ (.ring n.toNat))) ∧
       (r.tail = r.head → p.cc.ldc < 15 → ∃ t, exec (.ringpop d n) s = .next t ∧ t.panel.cc.g = (p.cc.setG d.toNat 0).g ∧ t.panel.mem = p.mem ∧
         SMap.find (t.panel.core p.cur.core).rings n.toNat = some r) ∧
       (r.tail ≠ r.head → p.cc.ldc < 15 → p.relBusy = false →
         let h := p.winRead (8 * r.base + r.head)
         h / 2 ^ 16 % 16 ≠ 2 →
         ∃ t, exec (.ringpop d n) s = .next t ∧ t.panel.mem = p.mem ∧ SMap.find (t.panel.core p.cur.core).rings n.toNat = some r ∧
           t.panel.cc.g = (p.cc.setG d.toNat (BitVec.ofNat 64 (2 ^ 63 + h % 2 ^ 16 * 2 ^ 36 +
             (r.head + 8 + 8 * ((h % 2 ^ 16 + 7) / 8)) % r.size * 2 ^ 18 + (8 * r.base + r.head + 8)))).g)) ∧
     (∀ k, destTarget p p.src (p.gv a).toNat false = .ok k →
       exec (.rhops d a) s = s.puts d (BitVec.ofNat 64 (hopsBetween (siteOf p.fabric p.home) (siteOf p.fabric k)))) ∧
     (∀ c, destTarget p p.src (p.gv a).toNat false = .error c → exec (.rhops d a) s = s.to (p.trap c (p.gv a))))

/-- SEND, SENDH and MCAST (R318-R322): the payload words, read at issue, go as one packet to each target, under one access that counts once as a store; no
byte of memory changes. A copy names its sender by y × 256 + x of its home core in its block (R218, R222). A bad payload address traps with TVAL the
address, a misaligned one with TVAL the word (R452), a bad descriptor with TVAL the descriptor; a full counter class waits, and so does a message
behind a release of its thread (R186). -/
def Obligations.MessagesSent : Prop :=
  ∀ (s : State) (a b : Reg) (n : BitVec 8) (off : Nat),
    let p := s.panel
    let ds := (p.gv a).toNat
    let lc := p.cur.core
    let me := coreXY p.cc.bx p.cc.by_
    let tag := p.cc.btag
    let ws := payloadWords p off n.toNat
    let sent (i : Instr) (ts : List Nat) (pay : Nat → Pay) : Prop := ∃ t, exec i s = .next t ∧ t.panel.cc.stc = p.cc.stc + 1 ∧
      Issued s t .send 0 0 .none ∧ t.panel.mem = p.mem ∧ t.panel.cc.g = p.cc.g ∧ ∀ k ∈ ts, ∃ x ∈ (t.panel.core k).net, x.2.pay = pay k ∧ x.2.src = lc
    p.Calm →
    (∀ c, payloadPlace p (p.gv b).toNat n.toNat = .error c → exec (.send a b n) s = s.to (p.trapA c (p.gv b).toNat) ∧
      exec (.sendh a b n) s = s.to (p.trapA c (p.gv b).toNat)) ∧
    (payloadPlace p (p.gv b).toNat n.toNat = .ok off →
      (∀ c, destTarget p p.src ds true = .error c → exec (.send a b n) s = s.to (p.trap c (p.gv a))) ∧
      (∀ k, destTarget p p.src ds true = .ok k → (15 ≤ p.cc.stc ∨ p.relBusy = true) → exec (.send a b n) s = s.to p.retry) ∧
      (∀ k, destTarget p p.src ds true = .ok k → p.cc.stc < 15 → p.relBusy = false →
        sent (.send a b n) [k] fun k => .msg (ds / 2 ^ 16 % 4) ws me p.cur.slot p.slevel tag (if ds.testBit 18 then 0 else tag) (ds.testBit 19) p.nid (ciOf p.cb k)) ∧
      (∀ k, destTarget p p.src ds false = .ok k → k ∈ blockCores p.cb → p.cc.stc < 15 → p.relBusy = false →
        sent (.sendh a b n) [k] fun k => .handler ws me p.cur.slot tag tag p.nid (ciOf p.cb k)) ∧
      (∀ ts, ds.testBit 26 = false → maskTargets p p.src ds true = .ok ts → ts ≠ [] → p.cc.stc < 15 → p.relBusy = false →
        sent (.mcast a b n) ts fun k => .msg (ds / 2 ^ 24 % 4) ws me p.cur.slot p.slevel tag tag (ds.testBit 27) p.nid (ciOf p.cb k)) ∧
      (∀ ts, ds.testBit 26 = true → n.toNat ≤ 9 → ds.testBit 27 = false → ds / 2 ^ 24 % 4 = 0 → maskTargets p p.src ds true = .ok ts → ts ≠ [] →
        p.cc.stc < 15 → p.relBusy = false → sent (.mcast a b n) ts fun k => .handler ws me p.cur.slot tag tag p.nid (ciOf p.cb k))) ∧
    (ds.testBit 26 = true → 9 < n.toNat → exec (.mcast a b n) s = s.to (p.trap 0x01 p.cur.word))

/-- Integer lanes (R51, R52, R331): without saturation a result keeps the low bits of the exact value; with it, it is the exact value where that lies in
the range of its signedness and the nearest end of the range otherwise. One segment of integer products (R77): unless a scale is reserved, the exact
sum of mantissa products, scaled to EA, is added and clamped to 64 bits; a NaN scale sets the NaN bit, a zero scale leaves the entry alone. One step
of a cell (R392): y takes its increment; where |y| stays below 2^K, the new remainder lies in 0 .. 2^K − 1 and q + y × dx is accounted for exactly by
the remainder and the emitted stroke; where it does not, the cell overruns and keeps its state. -/
def Obligations.ExactIntegerSteps : Prop :=
  (∀ (n : Nat) (u : Bool) (v : Int), 0 < n →
     let lo : Int := if u then 0 else -(2 ^ (n - 1))
     let hi : Int := if u then 2 ^ n - 1 else 2 ^ (n - 1) - 1
     reduce n u false v < 2 ^ n ∧ reduce n u true v < 2 ^ n ∧
     ((reduce n u false v : Int) - v) % 2 ^ n = 0 ∧
     laneVal n u (reduce n u true v) = max lo (min hi v)) ∧
  (∀ (ea : Int) (acc : Acc) (a0 b0 : Elem) (ps : List (Elem × Elem)),
     let l := (a0, b0) :: ps
     let S : Int := (l.map fun e => e.1.mant * e.2.mant).sum
     let d := unitExp a0.code a0.scale + unitExp b0.code b0.scale - ea
     ((a0.scale = 255 ∨ b0.scale = 255) → intSegment ea acc l = { acc with nan := true }) ∧
     (a0.scale ≠ 255 → b0.scale ≠ 255 → (a0.scale = 0 ∨ b0.scale = 0) → intSegment ea acc l = acc) ∧
     (a0.scale ≠ 255 → b0.scale ≠ 255 → a0.scale ≠ 0 → b0.scale ≠ 0 → 0 ≤ d →
       sgn 64 (intSegment ea acc l).bits = max (-(2 ^ 63)) (min (sgn 64 acc.bits + S * 2 ^ d.toNat) (2 ^ 63 - 1)) ∧
       (intSegment ea acc l).nan = acc.nan)) ∧
  (∀ (x : Cell) (dx dsum : Int),
     let y1 := x.y + dsum * 2 ^ x.s
     let r := stepCell x dx dsum
     x.q < 2 ^ x.k → -1 ≤ dx → dx ≤ 1 →
     (y1.natAbs < 2 ^ x.k → r.2 = false ∧ r.1.y = y1 ∧ r.1.q < 2 ^ x.k ∧ -1 ≤ r.1.out ∧ r.1.out ≤ 1 ∧
       (r.1.q : Int) + r.1.out * 2 ^ x.k = x.q + y1 * dx ∧ r.1.k = x.k ∧ r.1.s = x.s ∧ r.1.dom = x.dom ∧ r.1.fifo = x.fifo) ∧
     (2 ^ x.k ≤ y1.natAbs → r = (x, true)))

/-- The lane-wise arithmetic words (R339-R341): every active lane by its arithmetic on the lanes of the sources, floating point rounded once, integers
exact and then reduced (R331); the bit words by the lanes' bits. -/
def Obligations.VectorArithmetic : Prop :=
  ∀ (s : State) (d a b : BitVec 5) (f m : BitVec 3) (r : BitVec 2) (k : BitVec 1),
    let p := s.panel
    let n := laneBits f.toNat
    let g := fpFmt f.toNat
    let mo := r.toNat
    let x (j : Nat) : Nat := lane n (p.vec a.toNat) j
    let y (j : Nat) : Nat := lane n (p.vec b.toNat) j
    let z (j : Nat) : Nat := lane n (p.vec d.toNat) j
    let v (q : Nat) : Int := laneVal n (r == 2) q
    let does (i : Instr) (srcs : List (BitVec 5)) (h : Nat → Nat) : Prop :=
      LaneWise i s n d.toNat (srcs.map BitVec.toNat) (p.src.mask m.toNat) h
    let arith (i : Instr) (srcs : List (BitVec 5)) (fp : Nat → Nat) (it : Nat → Int) : Prop :=
      does i srcs fun j => if f.toNat < 4 then fp j else reduce n (r == 2) (k == 1) (it j)
    arith (.vadd d a b f m r k) [a, b] (fun j => fpAdd g mo (x j) (y j)) (fun j => v (x j) + v (y j)) ∧
    arith (.vsub d a b f m r k) [a, b] (fun j => fpSub g mo (x j) (y j)) (fun j => v (x j) - v (y j)) ∧
    arith (.vmul d a b f m r k) [a, b] (fun j => fpMul g mo (x j) (y j)) (fun j => v (x j) * v (y j)) ∧
    arith (.vfma d a b f m r k) [a, b, d] (fun j => fpFma g mo (x j) (y j) (z j) false false) (fun j => v (x j) * v (y j) + v (z j)) ∧
    arith (.vfms d a b f m r k) [a, b, d] (fun j => fpFma g mo (x j) (y j) (z j) false true) (fun j => v (x j) * v (y j) - v (z j)) ∧
    arith (.vfnma d a b f m r k) [a, b, d] (fun j => fpFma g mo (x j) (y j) (z j) true false) (fun j => v (z j) - v (x j) * v (y j)) ∧
    arith (.vmin d a b f m r k) [a, b] (fun j => fpMin g (x j) (y j)) (fun j => min (v (x j)) (v (y j))) ∧
    arith (.vmax d a b f m r k) [a, b] (fun j => fpMax g (x j) (y j)) (fun j => max (v (x j)) (v (y j))) ∧
    arith (.vneg d a f m r k) [a] (fun j => x j ^^^ 2 ^ (n - 1)) (fun j => -v (x j)) ∧
    does (.vabs d a f m r k) [a] (fun j => if f.toNat < 4 then x j % 2 ^ (n - 1) else if r = 2 then x j
      else reduce n false (k == 1) ((sgn n (x j)).natAbs : Int)) ∧
    does (.vand d a b f m r) [a, b] (fun j => x j &&& y j) ∧ does (.vor d a b f m r) [a, b] (fun j => x j ||| y j) ∧
    does (.vxor d a b f m r) [a, b] (fun j => x j ^^^ y j) ∧ does (.vnot d a f m r) [a] (fun j => 2 ^ n - 1 - x j) ∧
    does (.vshl d a b f m r k) [a, b] (fun j => reduce n (r == 2) (k == 1) (v (x j) * 2 ^ (y j % n))) ∧
    does (.vshr d a b f m r) [a, b] (fun j => x j / 2 ^ (y j % n)) ∧
    does (.vsra d a b f m r) [a, b] (fun j => cut n (sgn n (x j) / 2 ^ (y j % n))) ∧
    does (.vmov d a f m r) [a] x ∧
    does (.vrcp d a f m r k) [a] (fun j => fpRcp g mo (x j)) ∧ does (.vrsq d a f m r k) [a] (fun j => fpRsq g mo (x j)) ∧
    does (.vexp2 d a f m r k) [a] (fun j => fpExp2 f.toNat g mo (x j)) ∧ does (.vlog2 d a f m r k) [a] (fun j => fpLog2 f.toNat g mo (x j))

/-- Comparison, selection and movement of lanes (R343-R346). The mask instructions (R239, R349): the named mask takes its new bits, a write of m0 is
discarded, and nothing else but the pc changes. -/
def Obligations.LaneMovementAndMasks : Prop :=
  (∀ (s : State) (d a b : BitVec 5) (md : BitVec 3) (c : BitVec 2) (ga gb gd : Reg) (f m : BitVec 3) (r : BitVec 2),
     let p := s.panel
     let n := laneBits f.toNat
     let L := 512 / n
     let h := L / 2
     let x (j : Nat) : Nat := lane n (p.vec a.toNat) j
     let y (j : Nat) : Nat := lane n (p.vec b.toNat) j
     let mk := p.src.mask m.toNat
     let all := BitVec.allOnes 64
     (p.Mapped [a.toNat, b.toNat] → ∃ t, exec (.vcmp c md a b f m r) s = .next t ∧ t.panel.mem = p.mem ∧ t.panel.cc.g = p.cc.g ∧
       (md = 0 → t.panel.cc.m = p.cc.m) ∧
       (md ≠ 0 → ∀ j, j < 64 → (t.panel.cc.mask md.toNat).getLsbD j =
         (decide (j < L) && (if bt mk.toNat j then
           (if f.toNat < 4 then cmpFp (fpFmt f.toNat) c.toNat (x j) (y j)
            else cmpInt c.toNat (laneVal n (r == 2) (x j)) (laneVal n (r == 2) (y j)))
           else (p.src.mask md.toNat).getLsbD j)))) ∧
     LaneWise (.vsel d a b f m r) s n d.toNat [a.toNat, b.toNat] all (fun j => if bt mk.toNat j then x j else y j) ∧
     LaneWise (.vbcast d ga f m r) s n d.toNat [] mk (fun _ => (p.gv ga).toNat) ∧
     LaneWise (.vins d ga gb f m r) s n d.toNat [] (mk &&& BitVec.ofNat 64 (2 ^ ((p.gv gb).toNat % L))) (fun _ => (p.gv ga).toNat) ∧
     (p.Mapped [a.toNat] → exec (.vext gd a gb f r) s = s.puts gd
       (if f.toNat < 4 ∨ r = 2 then BitVec.ofNat 64 (x ((p.gv gb).toNat % L)) else BitVec.ofInt 64 (sgn n (x ((p.gv gb).toNat % L))))) ∧
     LaneWise (.vperm d a b f m r) s n d.toNat [a.toNat, b.toNat] mk (fun j => x (y j % L)) ∧
     LaneWise (.vshuf d a b f 0 r) s n d.toNat [a.toNat, b.toNat] all (fun j => x (L - 1 - j)) ∧
     LaneWise (.vshuf d a b f 1 r) s n d.toNat [a.toNat, b.toNat] all (fun j => x (if j % 2 = 0 then j + 1 else j - 1)) ∧
     LaneWise (.vshuf d a b f 2 r) s n d.toNat [a.toNat, b.toNat] all (fun j => if j % 2 = 0 then x (j / 2) else y (j / 2)) ∧
     LaneWise (.vshuf d a b f 3 r) s n d.toNat [a.toNat, b.toNat] all (fun j => if j % 2 = 0 then x (h + j / 2) else y (h + j / 2)) ∧
     LaneWise (.vshuf d a b f 4 r) s n d.toNat [a.toNat, b.toNat] all (fun j => if j < h then x (2 * j) else y (2 * (j - h))) ∧
     LaneWise (.vshuf d a b f 5 r) s n d.toNat [a.toNat, b.toNat] all (fun j => if j < h then x (2 * j + 1) else y (2 * (j - h) + 1)) ∧
     LaneWise (.vshuf d a b f 6 r) s n d.toNat [a.toNat, b.toNat] all (fun j => if j = 0 then x (L - 1) else x (j - 1)) ∧
     LaneWise (.vshuf d a b f 7 r) s n d.toNat [a.toNat, b.toNat] all (fun j => if j < L - 1 then x (j + 1) else y 0)) ∧
  (∀ (s : State) (d x y : BitVec 3) (a : BitVec 5) (f : BitVec 3),
     let p := s.panel
     let does (i : Instr) (v : W) : Prop := ∃ t, exec i s = .next t ∧ t.panel.mem = p.mem ∧ t.panel.cc.g = p.cc.g ∧ t.panel.cc.pc = p.fin.cc.pc ∧
       (d = 0 → t.panel.cc.m = p.cc.m) ∧ (d ≠ 0 → t.panel.cc.mask d.toNat = v) ∧ ∀ k, k ≠ d.toNat → t.panel.cc.mask k = p.cc.mask k
     p.isAway = false →
     does (.mand d x y) (p.src.mask x.toNat &&& p.src.mask y.toNat) ∧ does (.mor d x y) (p.src.mask x.toNat ||| p.src.mask y.toNat) ∧
     does (.mnot d x) (~~~(p.src.mask x.toNat)) ∧
     (p.Mapped [a.toNat] → ∃ v : W, does (.mset d a f) v ∧ ∀ j, j < 64 → v.getLsbD j =
       (decide (j < 512 / laneBits f.toNat) &&
         (if f.toNat < 4 then decide (lane (laneBits f.toNat) (p.vec a.toNat) j % 2 ^ (laneBits f.toNat - 1) ≠ 0)
          else decide (lane (laneBits f.toNat) (p.vec a.toNat) j ≠ 0)))))

/-- Reductions, scans and dot products (R347, R348): VRED puts its value in lane 0 and zero in the others, VSCAN a running value in each lane that takes
part, VDOT adds products to 32-bit accumulator lanes. The integer sums are those of the lanes that take part, reduced once. Conversions (R350-R354):
VCVT, VPACK and VUNPK convert each active element of the group, in order or interleaved, and keep the others, VIEW_FAULT where a vector of a group is
not mapped, OVERLAP where the groups share bytes without being the same (R266); VQNT makes a block of its elements, VDQNT undoes one after checking
its header, VRSCALE moves a block to another scale. -/
def Obligations.ReductionsAndConversions : Prop :=
  (∀ (s : State) (d a b : BitVec 5) (f m : BitVec 3) (r : BitVec 2) (k : BitVec 1),
     let p := s.panel
     let n := laneBits f.toNat
     let mk := p.src.mask m.toNat
     let v := p.vec a.toNat
     let part (j : Nat) : List Nat := (List.range j).filter fun i => mk.getLsbD i
     (∀ o, LaneWise (.vred d a o f m r k) s n d.toNat [a.toNat] (BitVec.allOnes 64)
       (fun j => if j = 0 then vredVal f r (k == 1) o.toNat v mk else 0)) ∧
     (∀ o, LaneWise (.vscan d a o f m r k) s n d.toNat [a.toNat] mk
       (fun j => ((vscanVals f r (k == 1) o.toNat v mk).getD j none).getD 0)) ∧
     LaneWise (.vdot d a b f m r k) s 32 d.toNat [a.toNat, b.toNat, d.toNat] mk
       (fun j => vdotLane f r (k == 1) v (p.vec b.toNat) (p.vec d.toNat) j) ∧
     (4 ≤ f.toNat → vredVal f r (k == 1) 0 v mk =
       reduce n (r == 2) (k == 1) ((part (512 / n)).foldl (fun acc i => acc + laneVal n (r == 2) (lane n v i)) 0)) ∧
     (4 ≤ f.toNat → ∀ j, j < 512 / n → mk.getLsbD j = true → (vscanVals f r (k == 1) 0 v mk).getD j none =
       some (reduce n (r == 2) (k == 1) ((part (j + 1)).foldl (fun acc i => acc + laneVal n (r == 2) (lane n v i)) 0))) ∧
     (f.toNat = 4 → ∀ z j, j < 16 → vdotLane f r (k == 1) v (p.vec b.toNat) z j = reduce 32 false (k == 1)
       (sgn 32 (lane 32 z j) + laneVal 8 (r == 2) (lane 8 v (4 * j)) * laneVal 8 (r == 2) (lane 8 (p.vec b.toNat) (4 * j)) +
         laneVal 8 (r == 2) (lane 8 v (4 * j + 1)) * laneVal 8 (r == 2) (lane 8 (p.vec b.toNat) (4 * j + 1)) +
         laneVal 8 (r == 2) (lane 8 v (4 * j + 2)) * laneVal 8 (r == 2) (lane 8 (p.vec b.toNat) (4 * j + 2)) +
         laneVal 8 (r == 2) (lane 8 v (4 * j + 3)) * laneVal 8 (r == 2) (lane 8 (p.vec b.toNat) (4 * j + 3))))) ∧
  (∀ (s : State) (d a b : BitVec 5) (gb : Reg) (f m : BitVec 3) (r : BitVec 2) (k : BitVec 1),
     let p := s.panel
     let ws := laneBits (b.toNat % 8)
     let wd := laneBits f.toNat
     let N := 512 / min ws wd
     let q := max ws wd / min ws wd
     let gs := if wd < ws then q else 1
     let gd := if ws < wd then q else 1
     let out (t : State) (i : Nat) : Line := BitVec.ofNat 512 (Memory.readN t.panel.mem (vecAddr p p.src i) 64)
     let free (dn dk sn sk : Nat) : Prop := p.isAway = false ∧ vecOk p p.src dn dk = true ∧ vecOk p p.src sn sk = true ∧
       overlapBad (groupAddrs p p.src dn dk) (groupAddrs p p.src sn sk) = false
     let conv (i : Instr) (packed : Bool) : Prop :=
       (p.isAway = false → vecOk p p.src d.toNat gd = false ∨ vecOk p p.src a.toNat gs = false → exec i s = s.to (p.trap 0x06 p.cur.word)) ∧
       (p.isAway = false → vecOk p p.src d.toNat gd = true → vecOk p p.src a.toNat gs = true →
         overlapBad (groupAddrs p p.src d.toNat gd) (groupAddrs p p.src a.toNat gs) = true → exec i s = s.to (p.trap 0x07 p.cur.word)) ∧
       (free d.toNat gd a.toNat gs → ∃ t, exec i s = .next t ∧ t.panel.cc.g = p.cc.g ∧
       (∀ j, j < N →
         let sp := if gs = 1 then (0, j) else widePlace packed N q j
         let dp := if gd = 1 then (0, j) else widePlace packed N q j
         lane wd (out t (d.toNat + dp.1)) dp.2 =
           if bt (p.src.mask m.toNat).toNat j then
             convElem (b.toNat % 8) (b.getLsbD 3) f.toNat (b.getLsbD 4) r.toNat (k == 1) (lane ws (p.vec (a.toNat + sp.1)) sp.2) % 2 ^ wd
           else lane wd (p.vecNow (d.toNat + dp.1)) dp.2) ∧
       ∀ x, (∀ e, e < gd → x < vecAddr p p.src (d.toNat + e) ∨ vecAddr p p.src (d.toNat + e) + 64 ≤ x) → Memory.get t.panel.mem x = Memory.get p.mem x)
     conv (.vcvt d a b f m r k) false ∧ conv (.vpack d a b f m r k) true ∧ conv (.vunpk d a b f m r k) true ∧
     (let code := if b.getLsbD 4 then 0x08 else 0x10 + b.toNat % 16
      let c := fmtCount code
      free d.toNat 1 a.toNat (cdiv c 16) → ∃ t, exec (.vqnt d a b r k) s = .next t ∧
        (out t d.toNat).toNat = quantise r.toNat code ((List.range c).map fun i => unpack (fpFmt 1) (lane 32 (p.vec (a.toNat + i / 16)) (i % 16))) %
          2 ^ 512 ∧ SameBytesBut (vecAddr p p.src d.toNat) 64 s t ∧ t.panel.cc.g = p.cc.g) ∧
     (let w := p.vec a.toNat
      let code := w.toNat % 256
      let c := fmtCount code
      (p.Mapped [a.toNat, d.toNat] → fmtBits code = 0 → exec (.vdqnt d a r k) s = s.to (p.trap 0x09 (BitVec.ofNat 64 (w.toNat % 65536)))) ∧
      (p.Mapped [a.toNat, d.toNat] → fmtBits code ≠ 0 → free d.toNat (cdiv c 16) a.toNat 1 → ∃ t, exec (.vdqnt d a r k) s = .next t ∧
        t.panel.cc.g = p.cc.g ∧ ∀ i, i < 16 * cdiv c 16 → lane 32 (out t (d.toNat + i / 16)) (i % 16) =
          (if i < c then dequant code (w.toNat / 256 % 256) r.toNat (blockElem w i) else 0) % 2 ^ 32) ∧
      (p.Mapped [d.toNat, a.toNat] → code ≠ 0x08 → isBfp code = false →
        exec (.vrscale d a gb r k) s = s.to (p.trap 0x09 (BitVec.ofNat 64 (w.toNat % 65536)))) ∧
      (p.Mapped [d.toNat, a.toNat] → (code = 0x08 ∨ isBfp code = true) → ∃ t, exec (.vrscale d a gb r k) s = .next t ∧
        (out t d.toNat).toNat = rescale r.toNat code (w.toNat / 256 % 256) ((p.gv gb).toNat % 256)
          ((List.range (fmtCount code)).map (blockElem w)) % 2 ^ 512 ∧ SameBytesBut (vecAddr p p.src d.toNat) 64 s t ∧ t.panel.cc.g = p.cc.g)))

/-- Vector loads and stores (R334-R335, R337-R338): on the thread's own window the bytes, lanes or bit elements move at once, and no byte outside the
destination changes; one whose bytes an open mesh access of the thread touches waits (R182, R183); through the mesh window they are issued and
counted. VLDB (R63, R336): an aligned block whose header names a format is loaded; a poisoned or unknown header traps with TVAL the address and loads
nothing; a block of another core is asked for, and the thread waits. -/
def Obligations.VectorMemory : Prop :=
  (∀ (s : State) (d a b : BitVec 4) (h m f : BitVec 3) (iv v : BitVec 1),
     let p := s.panel
     let V := 16 * v.toNat + d.toNat
     let x := vecAddr p p.src V
     let ea := (p.gv a + p.gv b * 2 ^ h.toNat).toNat
     p.Mapped [V] → p.acqBusy = false → p.cur.latch = none →
     (∀ c, place p p.src ea 64 = .bad c → exec (.vld d a b h v) s = s.to (p.trap c (BitVec.ofNat 64 ea)) ∧
       exec (.vst d a b h v) s = s.to (p.trap c (BitVec.ofNat 64 ea))) ∧
     (∀ lc off, place p p.src ea 64 = .lm lc off false →
       (p.meshOpen false lc off 64 = true → exec (.vld d a b h v) s = s.to p.retry) ∧
       (p.meshOpen true lc off 64 = true → exec (.vst d a b h v) s = s.to p.retry) ∧
       (p.meshOpen false lc off 64 = false → ∃ t, exec (.vld d a b h v) s = .next t ∧
         Memory.readN t.panel.mem x 64 = Memory.readN p.mem (lmA lc off) 64 ∧ SameBytesBut x 64 s t ∧ t.panel.cc.g = p.cc.g) ∧
       (p.meshOpen true lc off 64 = false → ∃ t, exec (.vst d a b h v) s = .next t ∧ Memory.readN t.panel.mem (lmA lc off) 64 = Memory.readN p.mem x 64 ∧
         SameBytesBut (lmA lc off) 64 s t ∧ t.panel.cc.g = p.cc.g)) ∧
     (∀ lc off, place p p.src ea 64 = .lm lc off true →
       (p.cc.ldc < 15 → ∃ t, exec (.vld d a b h v) s = .next t ∧ t.panel.cc.ldc = p.cc.ldc + 1 ∧ Issued s t .vload ea 64 (.vec x) ∧
         t.panel.mem = p.mem ∧ t.panel.cc.g = p.cc.g) ∧
       (p.cc.stc < 15 → ∃ t, exec (.vst d a b h v) s = .next t ∧ t.panel.cc.stc = p.cc.stc + 1 ∧ Issued s t .vstore ea 64 .none ∧
         t.panel.mem = p.mem ∧ t.panel.cc.g = p.cc.g) ∧
       (15 ≤ p.cc.ldc → exec (.vld d a b h v) s = s.to p.retry) ∧ (15 ≤ p.cc.stc → exec (.vst d a b h v) s = s.to p.retry)) ∧
     (let n := laneBits f.toNat
      let I := 16 * iv.toNat + b.toNat
      let mk := p.src.mask m.toNat
      let at_ (j : Nat) : Nat := (p.gv a + BitVec.ofNat 64 (lane n (p.vec I) j * (n / 8))).toNat
      ∀ lc o (off : Nat → Nat), p.MeshCalm → p.Mapped [I] → place p p.src (p.gv a).toNat 1 = .lm lc o false →
        (∀ j, j < 512 / n → bt mk.toNat j = true → place p p.src (at_ j) (n / 8) = .lm lc (off j) false) →
        VecResult (.vldx d a b m f iv v) s n V mk (fun j => Memory.readN p.mem (lmA lc (off j)) (n / 8)) ∧
        ∃ t, exec (.vstx d a b m f iv v) s = .next t ∧ t.panel.cc.g = p.cc.g ∧
          (∀ j, j < 512 / n → bt mk.toNat j = true →
            (∀ i, j < i → i < 512 / n → bt mk.toNat i = true → off i + n / 8 ≤ off j ∨ off j + n / 8 ≤ off i) →
            Memory.readN t.panel.mem (lmA lc (off j)) (n / 8) = lane n (p.vec V) j) ∧
          ∀ y, (∀ j, j < 512 / n → bt mk.toNat j = true → y < lmA lc (off j) ∨ lmA lc (off j) + n / 8 ≤ y) →
            Memory.get t.panel.mem y = Memory.get p.mem y) ∧
     (let ctl := (p.gv b).toNat
      let ba := (p.gv a).toNat
      let w := ctl % 64 + 1
      let lw := 8 * 2 ^ (ctl / 2 ^ 8 % 4)
      let c := ctl / 2 ^ 16 % 2 ^ 7
      let stride := ctl / 2 ^ 32
      let total := (c - 1) * stride + w
      (bitCtlOk ctl false = false → exec (.vldbt d a b v) s = s.to (p.trap 0x03 (p.gv b))) ∧
      (bitCtlOk ctl true = false → exec (.vstbt d a b v) s = s.to (p.trap 0x03 (p.gv b))) ∧
      ∀ lc off, p.MeshCalm → placeBits p p.src ba total = .lm lc off false →
        let B (j : Nat) : Nat := 8 * lmA lc off + ba % 8 + j * stride
        (bitCtlOk ctl false = true → VecResult (.vldbt d a b v) s lw V (BitVec.allOnes 64) (fun j =>
          if j < c then (if ctl.testBit 6 then cut lw (sgn w (Memory.readBits p.mem (B j) w)) else Memory.readBits p.mem (B j) w) else 0)) ∧
        (bitCtlOk ctl true = true → ∃ t, exec (.vstbt d a b v) s = .next t ∧ t.panel.cc.g = p.cc.g ∧
          (∀ j, j < c → (∀ i, j < i → i < c → w ≤ (i - j) * stride) → Memory.readBits t.panel.mem (B j) w = lane lw (p.vec V) j % 2 ^ w) ∧
          ∀ y, (∀ j, j < c → y < B j ∨ B j + w ≤ y) →
            (Memory.get t.panel.mem (y / 8)).getLsbD (y % 8) = (Memory.get p.mem (y / 8)).getLsbD (y % 8)))) ∧
  (∀ (s : State) (d a b : BitVec 4) (h : BitVec 3) (v : BitVec 1),
     let p := s.panel
     let V := 16 * v.toNat + d.toNat
     let x := vecAddr p p.src V
     let e : W := p.gv a + p.gv b * 2 ^ h.toNat
     let ea := e.toNat
     p.Mapped [V] → p.acqBusy = false →
     (∀ lc off, place p p.src ea 64 = .lm lc off false → ea % 64 = 0 → p.meshOpen false lc off 64 = false →
       let w := Memory.readN p.mem (lmA lc off) 64
       let q := p.untrack.bankGap (groupsTouched off 64)
       (fmtBits (w % 256) ≠ 0 → ∃ t, exec (.vldb d a b h v) s = .next t ∧ Memory.readN t.panel.mem x 64 = w ∧ SameBytesBut x 64 s t ∧
         t.panel.cc.g = p.cc.g) ∧
       (w % 256 = 0xFF → exec (.vldb d a b h v) s = s.to (q.trap 0x33 e)) ∧
       (w % 256 ≠ 0xFF → fmtBits (w % 256) = 0 → exec (.vldb d a b h v) s = s.to (q.trap 0x09 e))) ∧
     (ea % 64 ≠ 0 → exec (.vldb d a b h v) s = s.to (p.trap 0x03 e)) ∧
     (∀ lc off, place p p.src ea 64 = .lm lc off true → ea % 64 = 0 → p.cc.ldc < 15 → p.cc.st ≠ .parked →
       ∃ t, exec (.vldb d a b h v) s = .next t ∧ t.panel.cc.ldc = p.cc.ldc + 1 ∧ t.panel.cc.st = .blocked ∧ t.panel.cc.wake = .remote ∧
         Issued s t .fmtLoad ea 64 (.vec x) ∧ t.panel.mem = p.mem))

/-- Shape registers (R240, R241, R357, R358): SHSET and SHSETG replace one field and keep the rest of the record, ACCEXP taking its immediate
sign-extended; SHGET reads one; SHLD and SHST move a record to and from an aligned place of the thread's own window; through the mesh window a load is
issued, and a handler traps (R220). View registers (R236, R237, R359): VWSET keeps the register's own bits of a value whose views all lie in the
thread's register window, and raises VIEW_FAULT on another, changing nothing; VWGET reads it back. -/
def Obligations.ShapesAndViews : Prop :=
  (∀ (s : State) (r a d : Reg) (m : BitVec 8) (f : BitVec 5),
     let p := s.panel
     let x := p.cc.shape r.toNat
     let va := (p.gv a).toNat
     let hi := (shField f.toNat).1
     let lo := (shField f.toNat).2
     let sets (i : Instr) (v : Nat) : Prop := ∃ t, exec i s = .next t ∧ t.panel.mem = p.mem ∧ t.panel.cc.g = p.cc.g ∧
       (∀ k, k < 512 → (t.panel.cc.shape r.toNat).getLsbD k = if lo ≤ k ∧ k ≤ hi then v.testBit (k - lo) else x.getLsbD k) ∧
       ∀ q : Reg, q ≠ r → t.panel.cc.shape q.toNat = p.cc.shape q.toNat
     p.isAway = false →
     (f ≠ 16 → sets (.shset r m f) m.toNat) ∧ (f = 16 → sets (.shset r m f) (m.signExtend 16).toNat) ∧
     sets (.shsetg r a f) (p.gv a).toNat ∧
     (∃ v : W, exec (.shget r d f) s = s.puts d v ∧ v.toNat % 2 ^ (hi + 1 - lo) = (p.src.shape r.toNat).toNat / 2 ^ lo % 2 ^ (hi + 1 - lo)) ∧
     (p.acqBusy = false → va / 2 ^ 55 = 0 → va % 64 ≠ 0 → exec (.shld r a) s = s.to (p.trapW 0x04) ∧
       exec (.shst r a) s = s.to (p.trapW 0x04)) ∧
     (∀ lc off, p.acqBusy = false → va / 2 ^ 55 = 0 → va % 64 = 0 → place p p.src va 64 = .lm lc off false → p.MeshCalm →
       (∃ t, exec (.shld r a) s = .next t ∧ (t.panel.cc.shape r.toNat).toNat = Memory.readN p.mem (lmA lc off) 64 ∧ t.panel.mem = p.mem ∧
         t.panel.cc.g = p.cc.g) ∧
       ∃ t, exec (.shst r a) s = .next t ∧ Memory.readN t.panel.mem (lmA lc off) 64 = (p.src.shape r.toNat).toNat ∧
         SameBytesBut (lmA lc off) 64 s t ∧ t.panel.cc.g = p.cc.g ∧ t.panel.cc.sh = p.cc.sh) ∧
     (∀ lc off, p.acqBusy = false → va / 2 ^ 55 = 0 → va % 64 = 0 → place p p.src va 64 = .lm lc off true →
       (p.isHandler = true → exec (.shld r a) s = s.to (p.trap 0x0C p.cc.pc)) ∧
       (p.isHandler = false → p.cc.ldc < 15 → ∃ t, exec (.shld r a) s = .next t ∧ t.panel.cc.ldc = p.cc.ldc + 1 ∧ t.panel.mem = p.mem ∧
         Issued s t .shLoad va 64 (.sh r.toNat)))) ∧
  (∀ (s : State) (a d : Reg),
     let p := s.panel
     let v := (p.gv a).toNat
     let win := 64 * p.cc.rsSize
     p.isAway = false →
     (p.cb.light = false → p.isHandler = false →
       ((v / 2 ^ 10 % 64 ≤ 32 ∧ (v / 2 ^ 10 % 64 = 0 ∨ 64 * (v % 2 ^ 10 + (v / 2 ^ 10 % 64 - 1) * (v / 2 ^ 16 % 16 + 1)) + 64 ≤ win)) →
         ∃ t, exec (.vwset a 0) s = .next t ∧ t.panel.cc.vv.toNat = v % 2 ^ 20 ∧ t.panel.mem = p.mem ∧ t.panel.cc.g = p.cc.g) ∧
       ((v / 2 ^ 16 % 16 ≤ 8 ∧ (v / 2 ^ 16 % 16 = 0 ∨ v / 2 ^ 10 % 64 ≠ 0 ∧ 64 * (v % 2 ^ 10 + v / 2 ^ 16 % 16 * (v / 2 ^ 10 % 64)) ≤ win)) →
         ∃ t, exec (.vwset a 1) s = .next t ∧ t.panel.cc.tv.toNat = v % 2 ^ 20 ∧ t.panel.mem = p.mem ∧ t.panel.cc.g = p.cc.g) ∧
       (32 < v / 2 ^ 10 % 64 → exec (.vwset a 0) s = s.to (p.trap 0x06 p.cur.word)) ∧
       (v / 2 ^ 11 % 16 = 0 → ∃ t, exec (.vwset a 2) s = .next t ∧ t.panel.cc.av.toNat = v % 2 ^ 15) ∧
       (v / 2 ^ 11 % 16 ≠ 0 → p.cb.hoop = false → exec (.vwset a 2) s = s.to (p.trap 0x06 p.cur.word))) ∧
     (p.cb.light = true → v / 2 ^ 10 % 64 ≠ 0 → exec (.vwset a 0) s = s.to (p.trap 0x06 p.cur.word)) ∧
     exec (.vwget d 0) s = s.puts d p.src.vv ∧ exec (.vwget d 1) s = s.puts d p.src.tv ∧ exec (.vwget d 2) s = s.puts d p.src.av)

/-- Tile instructions at issue (R237, R241, R360-R362): a tile view that is not mapped, or too small for the tile, is VIEW_FAULT, a bad shape record or
origin SHAPE_FAULT, an address base that is no local memory ADDRESS_FAULT with TVAL the base; otherwise the operation joins the core's tile operations
under the thread's tile counter, with its record and its bytes fixed now. A full counter class waits, and so does an operation behind an acquire in
flight (R187). A tile operation performed (R360, R361): a plain TLD or TLDT that is due, with a tensor in the thread's own window, fills its view,
element by element, with the tensor's elements, zero outside the extents and in the bits left over, and lowers its thread's counter; no byte outside
the view changes. -/
def Obligations.TileOperations : Prop :=
  (∀ (s : State) (r a b : Reg) (t : BitVec 3) (i : Instr) (sub : Nat),
     let p := s.panel
     let c := p.src
     let x := c.shape r.toNat
     let op : TileOp := { slot := p.cur.slot, btag := p.cc.btag, sub := sub, shape := x, orgA := p.gv a, orgB := p.gv b
                          rsOff := rsWin p.cur.core c (tileOff c t.toNat), rsLen := tileSize c, due := p.now + (tileBits x + 511) / 512, num := p.nid }
     (i, sub) ∈ [(Instr.tld r a b t, 0), (.tst r a b t, 1), (.tldt r a b t, 2), (.tstt r a b t, 3)] → p.isAway = false →
     (p.acqBusy = true → exec i s = s.to p.retry) ∧
     (p.acqBusy = false →
     (tileCount c ≤ t.toNat → exec i s = s.to (p.trap 0x06 p.cur.word)) ∧
     (noViews p = false → t.toNat < tileCount c → shapeOk x = false → exec i s = s.to (p.trap 0x08 p.cur.word)) ∧
     (noViews p = false → t.toNat < tileCount c → shapeOk x = true → shDesc x = false → 8 * tileSize c < tileBits x →
       exec i s = s.to (p.trap 0x06 p.cur.word)) ∧
     (noViews p = false → t.toNat < tileCount c → shapeOk x = true →
       (shDesc x = true → sub < 2 ∧ shCols x % fmtCount (shFmt x) = 0 ∧ (p.gv a).toNat % 2 ^ 32 % fmtCount (shFmt x) = 0) →
       tileBits x ≤ 8 * tileSize c → (shClamp x = true ∨ tileInside x (p.gv a) (p.gv b) = true) → (shRes x = 0 ∧ (regionOf (shBase x) = .paged ∨ regionOf (shBase x) = .none) → exec i s = s.to (p.trap 0x03 (BitVec.ofNat 64 (shBase x)))) ∧
       ((shRes x = 0 → regionOf (shBase x) ≠ .paged ∧ regionOf (shBase x) ≠ .none) → rowsBad p c x (tileRows x (p.gv a) (p.gv b)) = none →
       (p.cc.tlc < 7 → ∃ u, exec i s = .next u ∧ u.panel.cc.tlc = p.cc.tlc + 1 ∧ u.panel.mem = p.mem ∧ u.panel.cc.g = p.cc.g ∧
         (u.panel.core p.cur.core).tiles = (p.core p.cur.core).tiles ++ [op]) ∧
       (7 ≤ p.cc.tlc → exec i s = s.to p.retry))))) ∧
  (∀ (s : State) (lc slot : Nat) (o : TileOp) (rest : List TileOp),
     let p := s.panel
     let x := o.shape
     let c := p.ctx lc slot
     let C := if o.sub = 0 then shCols x else shRows x
     p.ev = [lc, slot] → (p.core lc).tiles = o :: rest → o.slot = slot → o.due ≤ p.now → (o.sub = 0 ∨ o.sub = 2) → shDesc x = false →
     o.sent = false → (∀ k ∈ rest, k.num ≠ o.num) → tileBits x ≤ 8 * o.rsLen →
     (∀ i t off m, i ∈ o.units → o.inside i = true → tensorPlace p c x (o.bit i / 8) 1 = .lm t off m → m = false) →
     ∃ t, exec .tileOpComplete s = .next t ∧ (t.panel.core lc).tiles = rest ∧ (t.panel.ctx lc slot).tlc = c.tlc - 1 ∧ SameBytesBut o.rsOff o.rsLen s t ∧
       Memory.readN t.panel.mem o.rsOff o.rsLen < 2 ^ tileBits x ∧ ∀ e, e < shRows x * shCols x →
         let d := if o.sub = 0 then (e % C, e / C) else (e / C, e % C)
         let i := (o.orgA.toNat % 2 ^ 32 + d.1, o.orgA.toNat / 2 ^ 32 + d.2)
         let i2 := o.orgB.toNat % 2 ^ 32
         let i3 := o.orgB.toNat / 2 ^ 32
         let v := Memory.readN t.panel.mem o.rsOff o.rsLen / 2 ^ (e * shEbits x) % 2 ^ shEbits x
         let bit := elemBit x i.1 i.2 i2 i3
         ((shExt x 0 ≤ i.1 ∨ shExt x 1 ≤ i.2 ∨ shExt x 2 ≤ i2 ∨ shExt x 3 ≤ i3) → v = 0) ∧
         (∀ u off m, i.1 < shExt x 0 → i.2 < shExt x 1 → i2 < shExt x 2 → i3 < shExt x 3 → tensorPlace p c x (bit / 8) 1 = .lm u off m →
           v = Memory.readBits p.mem (8 * lmA u off + bit % 8) (shEbits x)))

/-- Reads of control registers (R248, R296): a register that the level may read gives its value; an unlisted number is illegal, and one that the level may
not touch, or a ring of another block, is CR_FAULT. The values of the registers of R248 that hold thread and block data. Writes of control registers
(R248, R296, R451): CRWR writes, CRSET and CRCLR set and clear bits; a read-only register is CR_FAULT at U level; TVEC takes only an address that a
jump may name, or 0. No byte of memory and no g register changes. CKPT, ICINV and TLBINV (R297-R299): CKPT asks for a checkpoint of the thread's home
core where checkpoints are on; ICINV drops the instruction lines of its range once the thread's earlier stores have been performed; TLBINV at S level
drops the translations and lines of its pages, and its thread waits. -/
def Obligations.ControlRegisters : Prop :=
  (∀ (s : State) (d : Reg) (n : BitVec 12),
     let p := s.panel
     let c := p.src
     let b := p.cb
     p.isAway = false →
     (crAccess n.toNat = none → exec (.crrd d n) s = s.to (p.trap 0x01 p.cur.word)) ∧
     (∀ u l, crAccess n.toNat = some (u, l) → p.foreignRing n.toNat = false → (1 ≤ if p.slevel then l else u) →
       exec (.crrd d n) s = s.puts d (p.crRead n.toNat)) ∧
     (∀ u l, crAccess n.toNat = some (u, l) → ((if p.slevel then l else u) = 0 ∨ p.foreignRing n.toNat = true) →
       exec (.crrd d n) s = s.to (p.trap 0x0A p.cur.word)) ∧
     exec (.crrd d 0x000) s = s.puts d (BitVec.ofNat 64 p.now + (p.core p.cur.core).cycleOff) ∧
     exec (.crrd d 0x001) s = s.puts d c.thread ∧ exec (.crrd d 0x002) s = s.puts d (BitVec.ofNat 64 (256 * c.by_ + c.bx)) ∧
     exec (.crrd d 0x004) s = s.puts d (BitVec.ofNat 64 (2 ^ 16 * b.lmSize + b.lmBase)) ∧
     exec (.crrd d 0x005) s = s.puts d (BitVec.ofNat 64 (2 ^ 16 * c.rsSize + c.rsBase)) ∧
     exec (.crrd d 0x006) s = s.puts d (c.rmode.zeroExtend 64) ∧ exec (.crrd d 0x010) s = s.puts d b.tvec ∧
     exec (.crrd d 0x011) s = s.puts d (c.tcause.zeroExtend 64) ∧ exec (.crrd d 0x012) s = s.puts d c.tpc ∧
     exec (.crrd d 0x013) s = s.puts d c.tval ∧ exec (.crrd d 0x014) s = s.puts d (c.tstate.zeroExtend 64)) ∧
  (∀ (s : State) (a : Reg),
     let p := s.panel
     let v := p.gv a
     let does (i : Instr) (ok : State → Prop) : Prop := ∃ t, exec i s = .next t ∧ t.panel.mem = p.mem ∧ t.panel.cc.g = p.cc.g ∧
       t.panel.cc.pc = p.fin.cc.pc ∧ ok t
     p.isAway = false →
     does (.crwr a 0x006) (fun t => t.panel.cc.rmode.toNat = v.toNat % 8) ∧
     does (.crset a 0x006) (fun t => t.panel.cc.rmode = p.src.rmode ||| BitVec.ofNat 3 v.toNat) ∧
     does (.crclr a 0x006) (fun t => t.panel.cc.rmode = p.src.rmode &&& ~~~(BitVec.ofNat 3 v.toNat)) ∧
     does (.crwr a 0x007) (fun t => (t.panel.blk p.cur.core p.cc.btag).bsStep = v.toNat % 2 ^ 16 ∧
       (t.panel.blk p.cur.core p.cc.btag).bsMod = v.toNat / 2 ^ 16 % 16) ∧
     does (.crwr a 0x00A) (fun t => (t.panel.blk p.cur.core p.cc.btag).lost4 = ((p.blk p.cur.core p.cc.btag).lost4 && !v.getLsbD 0)) ∧
     does (.crset a 0x00A) (fun t => (t.panel.blk p.cur.core p.cc.btag).lost4 = (p.blk p.cur.core p.cc.btag).lost4) ∧
     ((SMap.find p.blocks p.cc.btag).isSome = true →
       (v = 0 ∨ Target v → does (.crwr a 0x010) (fun t => t.panel.cb.tvec = v)) ∧
       (v ≠ 0 → ¬ Target v → exec (.crwr a 0x010) s = s.to (p.trap 0x0A p.cur.word))) ∧
     (p.slevel = true → does (.crwr a 0x011) (fun t => t.panel.cc.tcause.toNat = v.toNat % 2 ^ 10) ∧ does (.crwr a 0x012) (fun t => t.panel.cc.tpc = v) ∧
       does (.crwr a 0x013) (fun t => t.panel.cc.tval = v) ∧ does (.crwr a 0x014) (fun t => t.panel.cc.tstate.toNat = v.toNat % 2 ^ 5)) ∧
     (p.slevel = false → exec (.crwr a 0x011) s = s.to (p.trap 0x0A p.cur.word) ∧ exec (.crwr a 0x012) s = s.to (p.trap 0x0A p.cur.word) ∧
       exec (.crwr a 0x100) s = s.to (p.trap 0x0A p.cur.word)) ∧
     exec (.crwr a 0x000) s = s.to (p.trap 0x0A p.cur.word)) ∧
  (∀ (s : State) (a b : Reg),
     let p := s.panel
     let x := (p.gv a).toNat
     let n := (p.gv b).toNat
     p.isAway = false →
     ((p.part p.cb.part).ckEn = false → exec .ckpt s = s.to p.fin) ∧
     ((p.part p.cb.part).ckEn = true → ∃ t, exec .ckpt s = .next t ∧ (t.panel.core p.home).ckptReq = true ∧ t.panel.mem = p.mem ∧ t.panel.cc.g = p.cc.g) ∧
     (((p.accsOf p.cur.core p.cur.slot).any fun q => q.stage.open_ && kindWrites q.kind) = true → exec (.icinv a b) s = s.to p.retry) ∧
     (((p.accsOf p.cur.core p.cur.slot).any fun q => q.stage.open_ && kindWrites q.kind) = false →
       ∃ t, exec (.icinv a b) s = .next t ∧ t.panel.mem = p.mem ∧ t.panel.cc.g = p.cc.g ∧
         ∀ l, l ∈ (t.panel.core p.cur.core).l1i ↔
           l ∈ (p.core p.cur.core).l1i ∧ n ≠ 0 ∧ (l.vline < x / 64 ∨ (x + n - 1) / 64 < l.vline)) ∧
     (p.slevel = true → p.cc.st ≠ .parked → ∃ t, exec (.tlbinv a b) s = .next t ∧ t.panel.cc.st = .stall ∧ t.panel.cc.stall = .tlbinv ∧ t.panel.mem = p.mem ∧ t.panel.cc.g = p.cc.g ∧
       ∀ k e, e ∈ (t.panel.cluster k).tlb ↔ e ∈ (p.cluster k).tlb ∧
         ¬ (e.part = p.cb.part ∧ e.asid = x / 2 ^ 56 ∧ (n = 0 ∨ e.vpn < x / 2 ^ 16 % 2 ^ 39 + n ∧ x / 2 ^ 16 % 2 ^ 39 < e.vpn + e.pages))))

/-- Issue of engine commands (R323, R378, R379, R382-R384, R386): with its fields in order, its addresses legal and permitted, its engine and counter
free, and no acquire of its thread in flight (R187), a command is taken up, counted as a copy, and its thread goes on; a busy channel or walker and a
full counter class make the bundle wait. No byte of memory changes at issue. TWPERM and ESTAT (R384, R387): a permit of the thread's own core enters
q2 at once, one of another core of the block is sent and counted as a store; ESTAT reads its engine's state, and is illegal above 10. -/
def Obligations.EngineCommandsIssue : Prop :=
  (∀ (s : State) (d a b x : Reg) (c : BitVec 3) (l : BitVec 10),
     let p := s.panel
     let lc := p.cur.core
     let cl := clusterOf lc
     let va := (p.gv a).toNat
     let vb := (p.gv b).toNat
     let ctl := (p.gv d).toNat
     let len := ctl % 2 ^ 32
     let sh := p.src.shape x.toNat
     let taken (i : Instr) (g : Vector W 16) (ok : State → Prop) : Prop := ∃ t, exec i s = .next t ∧ t.panel.cc.cpc = p.cc.cpc + 1 ∧ t.panel.cc.g = g ∧
       t.panel.mem = p.mem ∧ t.panel.cc.pc = p.fin.cc.pc ∧ ok t
     p.isAway = false → p.acqBusy = false → p.cl.strict = false →
     (ctl / 2 ^ 32 = 0 → va / 2 ^ 55 = 0 → vb / 2 ^ 55 = 0 → (∃ y z, rangeCheck p false va len = .ok y ∧ rangeCheck p false vb len = .ok z) →
       p.peerBad false va len = none → p.peerBad true vb len = none →
       ((p.chan cl c.toNat).busy = false → p.cc.cpc < 7 →
         taken (.rcopy d a b c) (p.cc.setG d.toNat (SMap.getD (p.cluster cl).rwp c.toNat 0)).g fun t =>
           let k := t.panel.chan cl c.toNat
           k.busy = true ∧ k.src = va ∧ k.dst = vb ∧ k.len = len ∧ k.done = 0 ∧ k.core = lc ∧ k.slot = p.cur.slot ∧ k.btag = p.cc.btag) ∧
       ((p.chan cl c.toNat).busy = true ∨ 7 ≤ p.cc.cpc → exec (.rcopy d a b c) s = s.to p.retry)) ∧
     (ctl / 2 ^ 32 % 2 ^ 9 ≠ 0 → exec (.rcopy d a b c) s = s.to (p.trap 0x03 (p.gv d))) ∧
     (row2d sh = none → exec (.rcopy2d x a b c) s = s.to (p.trap 0x08 p.cur.word)) ∧
     (∀ rb, row2d sh = some rb → b = 0 → shSwz sh = 0 → shBase sh / 2 ^ 55 = 0 → va / 2 ^ 55 = 0 → 0 < rb →
       (∀ i, i < shExt sh 1 → (∃ y, rangeCheck p (shRes sh == 1) (shBase sh + i * shStr sh 1) rb = .ok y) ∧
         p.peerBad false (shBase sh + i * shStr sh 1) rb = none) →
       (∃ z, rangeCheck p false va (rb * shExt sh 1) = .ok z) → p.peerBad true va (rb * shExt sh 1) = none →
       (p.chan cl c.toNat).busy = false → p.cc.cpc < 7 →
         taken (.rcopy2d x a b c) p.cc.g fun t => let k := t.panel.chan cl c.toNat
           k.busy = true ∧ k.shape = some sh ∧ k.dst = va ∧ k.len = rb * shExt sh 1) ∧
     (regionOf va = .paged → vb ≠ 0 → regionOf (va + vb - 1) = .paged → p.cc.cpc < 7 →
       (taken (.l2drop a b) p.cc.g fun t => ∃ y, (t.panel.core lc).drop = (p.core lc).drop ++ [y] ∧ y.va = va / 64 * 64 ∧ y.lines = (va + vb - 1) / 64 - va / 64 + 1) ∧
       (d = 0 → taken (.l2pf d a b) p.cc.g fun t => ∃ y, (t.panel.core lc).pf = (p.core lc).pf ++ [y] ∧ y.va = va / 64 * 64 ∧
         y.lines = (va + vb - 1) / 64 - va / 64 + 1 ∧ y.mask = 0)) ∧
     (regionOf va ≠ .paged → exec (.l2drop a b) s = s.to (p.trap 0x03 (p.gv a)) ∧ exec (.l2pf d a b) s = s.to (p.trap 0x03 (p.gv a))) ∧
     (∀ ts, regionOf va = .paged → va % 64 = 0 → vb % 64 = 0 → regionOf (va + 64 * (l.toNat + 1) - 1) = .paged → maskTargets p p.src ctl false = .ok ts →
       ts ≠ [] → vb + 64 * (l.toNat + 1) ≤ p.cb.lmSize * 1024 → p.cc.cpc < 7 →
       taken (.mcrd d a b l) p.cc.g fun t => ∃ y, (t.panel.core lc).mcrd = (p.core lc).mcrd ++ [y] ∧ y.va = va ∧ y.off = vb ∧ y.lines = l.toNat + 1 ∧ y.dests = ts) ∧
     (∀ ts off (slots : Nat), maskTargets p p.src va false = .ok ts → ts ≠ [] → slots < 16 → off % 64 = 0 → off < 2 ^ 18 → vb = slots * 2 ^ 24 + off →
       shapeOk sh = true → shRes sh = 0 → regionOf (shBase sh) = .paged → regionOf (tensorLast sh) = .paged →
       (shClamp sh = true ∨ shExt sh 0 % shCols sh = 0 ∧ shExt sh 1 % shRows sh = 0) → (shDesc sh = true → shCols sh % fmtCount (shFmt sh) = 0) →
       off + (slots + 1) * walkTile sh ≤ p.cb.lmSize * 1024 → (p.core lc).walk.busy = false → p.cc.cpc < 7 →
       (taken (.twalk x a b) p.cc.g fun t => let w := (t.panel.core lc).walk
         w.busy = true ∧ w.wb = false ∧ w.shape = sh ∧ w.dests = ts ∧ w.off = off ∧ w.slots = slots + 1 ∧ w.tiles = walkTiles sh ∧ w.tile = 0) ∧
       taken (.twalkWb x b) p.cc.g fun t => let w := (t.panel.core lc).walk
         w.busy = true ∧ w.wb = true ∧ w.shape = sh ∧ w.dests = [p.home] ∧ w.off = off ∧ w.slots = slots + 1)) ∧
  (∀ (s : State) (d a : Reg) (e : BitVec 4),
     let p := s.panel
     let lc := p.cur.core
     p.isAway = false → p.acqBusy = false →
     (∀ k, destTarget p p.src (p.gv a).toNat false = .ok k → k ∈ blockCores p.cb →
       (k = lc → (p.queue lc p.cc.btag 2).length < 32 → ∃ t, exec (.twperm a) s = .next t ∧
         t.panel.queue lc p.cc.btag 2 = p.queue lc p.cc.btag 2 ++ [1] ∧ t.panel.mem = p.mem ∧ t.panel.cc.g = p.cc.g) ∧
       (k = lc → 32 ≤ (p.queue lc p.cc.btag 2).length → exec (.twperm a) s = s.to p.retry) ∧
       (k ≠ lc → p.cc.stc < 15 → p.heldTo k = false → ∃ t, exec (.twperm a) s = .next t ∧ t.panel.cc.stc = p.cc.stc + 1 ∧ t.panel.mem = p.mem ∧ t.panel.cc.g = p.cc.g ∧
         ∃ y ∈ (t.panel.core k).net, y.2.src = lc ∧ y.2.pay = .twperm p.cc.btag p.nid)) ∧
     (∀ k, e.toNat < 8 → k = p.chan (clusterOf lc) e.toNat → exec (.estat d e) s = s.puts d
       (BitVec.ofNat 64 ((if k.busy then 2 ^ 63 else 0) + (if k.parked then 2 ^ 62 else 0) + (k.len - k.done) % 2 ^ 32))) ∧
     (∀ w, e = 8 → w = (p.core lc).walk → exec (.estat d e) s = s.puts d
       (BitVec.ofNat 64 ((if w.busy then 2 ^ 63 else 0) + (if w.parked then 2 ^ 62 else 0) + (if w.waiting then 2 ^ 61 else 0) + (w.tiles - w.tile) % 2 ^ 32))) ∧
     (e = 9 → (p.cluster (clusterOf lc)).hoop.holder = none → (p.cluster (clusterOf lc)).hoop.cmds = [] → (p.cluster (clusterOf lc)).hoop.parked = false →
       exec (.estat d e) s = s.puts d 0) ∧
     (e = 10 → (p.core lc).pf = [] → (p.core lc).drop = [] → exec (.estat d e) s = s.puts d 0) ∧
     (10 < e.toNat → exec (.estat d e) s = s.to (p.trap 0x01 p.cur.word)))

/-- Room in a queue register: an engine's completion lands at once (R244). A completion held while its queue was full lands when there is room, and its
counter falls (R244). Steps of engines (R89, R94, R126, R200, R324, R380, R384-R386): a Relay chunk between local memories leaves for its destination
as a line; a line that arrives is written, makes the words that it completes full and lets its channel go on; a tile walker without a permit waits,
with one takes it; a multicast read, a prefetch and a drop ask the home slice for their next line, or park at a page that is not mapped; a decrement
reaches its object; a permit its queue. -/
def Obligations.EnginesWork : Prop :=
  (∀ (s : State) (lc tag q : Nat),
     let p := s.panel
     let room := (p.queue lc tag q).length < qDepth q ∧ ∀ h ∈ (p.blk lc tag).held, h.q ≠ q
     let lands (i : Instr) (v slot : Nat) : Prop := ∃ t, exec i s = .next t ∧ t.panel.queue lc tag q = p.queue lc tag q ++ [BitVec.ofNat 64 v] ∧
       (t.panel.ctx lc slot).cpc = (p.ctx lc slot).cpc - 1 ∧ t.panel.mem = p.mem
     q = 1 → room →
     (∀ cl ch x, p.ev = [cl, ch] → x = p.chan cl ch → x.busy = true → x.busyLine = false → x.dying = false → x.decs = 0 → x.len ≤ x.done →
       x.core = lc → x.btag = tag →
       lands .relayComplete (2 ^ 60 + x.status * 2 ^ 56 + ch * 2 ^ 53 + x.done % 2 ^ 32) x.slot ∧
       ∀ t, exec .relayComplete s = .next t → (t.panel.chan cl ch).busy = false) ∧
     (∀ w, p.ev = [lc] → w = (p.core lc).walk → w.busy = true → w.dying = false → w.left = 0 → w.busyLine = false → (w.status = 0 → w.tiles ≤ w.tile) → w.btag = tag →
       lands .twalkComplete (5 * 2 ^ 60 + w.status * 2 ^ 56 + w.tile % 2 ^ 32) w.slot ∧
       ∀ t, exec .twalkComplete s = .next t → (t.panel.core lc).walk.busy = false) ∧
     (∀ x rest, p.ev = [lc] → (p.core lc).mcrd = x :: rest → (x.status = 0 → x.lines ≤ x.next) → x.next * x.dests.length ≤ x.land → x.dying = false →
       x.btag = tag →
       lands .mcrdComplete (mcrdToken x).toNat x.slot ∧ ∀ t, exec .mcrdComplete s = .next t → (t.panel.core lc).mcrd = rest) ∧
     (∀ x rest, p.ev = [lc] → (p.core lc).pf = x :: rest → x.back = x.next → (x.status ≠ 4 → x.status ≠ 1 → x.lines ≤ x.next) → x.flight = [] →
       x.dying = false → x.mask = 0 → x.btag = tag →
       lands .l2pfComplete (2 * 2 ^ 60 + x.status * 2 ^ 56 + x.done % 2 ^ 32) x.slot) ∧
     (∀ x rest, p.ev = [lc] → (p.core lc).drop = x :: rest → x.back = x.next → (x.status ≠ 4 → x.status ≠ 1 → x.lines ≤ x.next) →
       x.dying = false → x.btag = tag →
       lands .l2dropComplete (4 * 2 ^ 60 + x.status * 2 ^ 56 + x.done % 2 ^ 32) x.slot)) ∧
  (∀ (s : State) (lc tag : Nat) (h : Held) (rest : List Held),
     let p := s.panel
     p.ev = [lc, tag] → (p.blk lc tag).held = h :: rest → (p.queue lc tag h.q).length < qDepth h.q →
     ∃ t, exec .heldCompletionLand s = .next t ∧ t.panel.queue lc tag h.q = p.queue lc tag h.q ++ [h.entry] ∧ (t.panel.blk lc tag).held = rest ∧
       (h.copies = true → (t.panel.ctx lc h.slot).cpc = (p.ctx lc h.slot).cpc - 1) ∧
       (h.copies = false → (t.panel.ctx lc h.slot).tlc = (p.ctx lc h.slot).tlc - 1) ∧ t.panel.mem = p.mem) ∧
  (∀ (s : State) (lc : Nat),
     let p := s.panel
     let asked (x : Bulk) (i : Instr) (src : Src) (ok : State → Prop) : Prop :=
       ∀ pa key attr, engPlace p (clusterOf lc) (engCtx p lc x.slot x.btag) false (x.va + 64 * x.next) 64 1 = .mem pa key attr → region pa = 0 →
         ∃ t, exec i s = .next t ∧ t.panel.mem = p.mem ∧ ok t ∧
           ∃ e ∈ (t.panel.slice (homeSlice (p.part (p.block x.btag).part) (pa / 64))).vc, e.2 = ⟨src, lc, pa / 64, key⟩
     let parks (x : Bulk) (i : Instr) (ok : State → Prop) : Prop :=
       ∀ g, engPlace p (clusterOf lc) (engCtx p lc x.slot x.btag) false (x.va + 64 * x.next) 64 1 = .fault g →
         ∃ t, exec i s = .next t ∧ t.panel.mem = p.mem ∧ ok t
     (∀ cl ch x ts so td do_, p.ev = [0, cl, ch] → x = p.chan cl ch → x.busy = true → x.parked = false → x.busyLine = false → x.dying = false →
       x.done < x.len → x.status = 0 → x.shape = none →
       let sva := x.src + x.done
       let dva := x.dst + x.done
       let n := min (x.len - x.done) (min (64 - sva % 64) (64 - dva % 64))
       let c := engCtx p x.core x.slot x.btag
       engPlace p cl c false sva n 1 = .lm ts so → engPlace p cl c false dva n 2 = .lm td do_ →
       ∃ t, exec .engineLineData s = .next t ∧ t.panel.mem = p.mem ∧ t.panel.chan cl ch = { x with busyLine := true } ∧
         ∃ e ∈ (t.panel.core td).net, e.2.src = x.core ∧ ∃ words, e.2.pay =
           .line do_ n (Memory.readN p.mem (lmA ts so) n) (2 ^ (8 * n) - 1) words (.relay cl ch x.num)) ∧
     (∀ off n d words by_ src rest, p.ev = [lc] → p.Arrived lc ⟨.line off n d (2 ^ (8 * n) - 1) words by_, src, none⟩ rest → (p.core lc).waits = [] → 0 < n →
       ∃ t, exec .lineDelivery s = .next t ∧ Memory.readN t.panel.mem (lmA lc off) n = d % 2 ^ (8 * n) ∧ SameBytesBut (lmA lc off) n s t ∧
         (t.panel.core lc).fifo = rest ∧ (∀ w ∈ words, t.panel.isFull lc w = true) ∧
         ∀ cl ch x, by_ = .relay cl ch x.num → x = p.chan cl ch → x.busyLine = true → x.dying = false → (t.panel.chan cl ch).done = x.done + n) ∧
     (∀ w, p.ev = [lc] → w = (p.core lc).walk → w.busy = true → w.parked = false → w.dying = false → w.busyLine = false → w.status = 0 → w.tile < w.tiles → w.permit = false →
       (p.queue lc w.btag 2 = [] → ∃ t, exec .twalkTile s = .next t ∧ (t.panel.core lc).walk = { w with waiting := true } ∧ t.panel.mem = p.mem) ∧
       (∀ e es, p.queue lc w.btag 2 = e :: es → ∃ t, exec .twalkTile s = .next t ∧ t.panel.queue lc w.btag 2 = es ∧ (t.panel.core lc).walk.waiting = false)) ∧
     (∀ x rest, p.ev = [lc] → (p.core lc).mcrd = x :: rest → x.parked = false → x.dying = false → x.next < x.lines → x.status = 0 → x.dests ≠ [] →
       x.next * x.dests.length < x.land + 8 * x.dests.length → (x.next = 0 → x.lastAt p lc ≠ .region ∧ ∀ g, x.lastAt p lc ≠ .wait g) →
       parks x .mcrdLineRequest (fun t => (t.panel.core lc).mcrd = { x with parked := true } :: rest) ∧
       asked x .mcrdLineRequest (.mcrd x.num x.next) (fun t => (t.panel.core lc).mcrd = { x with next := x.next + 1 } :: rest)) ∧
     (∀ x rest, p.ev = [lc] → (p.core lc).pf = x :: rest → x.parked = false → x.next < x.lines → x.status = 0 → x.next < x.back + 8 →
       parks x .l2pfLineRequest (fun t => (t.panel.core lc).pf = { x with parked := true } :: rest) ∧
       asked x .l2pfLineRequest (.pf x.num) (fun t => (t.panel.core lc).pf = { x with next := x.next + 1 } :: rest)) ∧
     (∀ x rest, p.ev = [lc] → (p.core lc).drop = x :: rest → x.parked = false → x.next < x.lines → x.status = 0 → x.next < x.back + 8 →
       parks x .l2dropLineRequest (fun t => (t.panel.core lc).drop = { x with parked := true } :: rest) ∧
       asked x .l2dropLineRequest (.drop x.num x.next) (fun t => (t.panel.core lc).drop = { x with next := x.next + 1 } :: rest)) ∧
     (∀ off tag n cl ch num src rest, p.ev = [lc] → p.Arrived lc ⟨.pend off tag n cl ch num, src, none⟩ rest → tag < 2 ^ 32 →
       objOk (p.obj lc off) tag = true → -(2 ^ 31 : Int) ≤ objPend (p.obj lc off) - n → (objArr (p.obj lc off) ≠ objExp (p.obj lc off) ∨ objPend (p.obj lc off) ≠ n) →
       ∃ t, exec .pendDecrement s = .next t ∧ objPend (t.panel.obj lc off) = objPend (p.obj lc off) - n ∧ SameBytesBut (lmA lc off) 16 s t ∧
         (t.panel.core lc).fifo = rest) ∧
     (∀ tag id src seq rest acc, p.ev = [lc] → p.Arrived lc ⟨.twperm tag id, src, some seq⟩ rest → p.acc id = some acc → acc.id = id → (∀ e ∈ p.accs, id ∉ e.2.after) →
       ∃ t, exec .twpermArrival s = .next t ∧ t.panel.queue lc tag 2 = p.queue lc tag 2 ++ [1] ∧ t.panel.acc id = none ∧ t.panel.mem = p.mem))

/-- Leases (R364-R368): without the launch's flag the Hoop instructions are illegal; HLEASE queues its request and blocks until the grant; HFREE ends the
holder's lease; the grant takes a waiting thread's request, counts its commands and cycles, and makes it ready; after its cycles the lease ends.
Commands of the array at issue (R366, R369): of a thread that holds no lease they are NO_LEASE; the holder's, with a legal shape and legal addresses,
join the array's queue with their operands and rounding mode as they are now, under the tile counter, and count the lease down; a full counter class
waits. No acquire of the thread is in flight (R187). A shape of HLDA, HLDB or HSTC that breaks R241 is SHAPE_FAULT whatever its operands (R369), once
no acquire of the thread is in flight (R187). -/
def Obligations.HoopAtIssue : Prop :=
  (∀ (s : State) (a : Reg) (n : BitVec 6),
     let p := s.panel
     let lc := p.cur.core
     let cl := clusterOf lc
     let h := (p.cluster cl).hoop
     let g := (p.gv a).toNat
     let c := if 1 ≤ g ∧ g ≤ 65536 then g else 65536
     (p.isAway = false → p.cb.hoop = false → ∀ i ∈ [Instr.hlease a n, .hfree, .hzero a, .hlda a a a, .hldb a a a, .hldbt a a a, .hrot, .hmma, .hmmar, .hstc a a a,
       .haccRd a 0 0, .haccWr a 0 0], exec i s = s.to (p.trap 0x01 p.cur.word)) ∧
     (p.Plain → p.cb.hoop = true → p.holds lc p.cur.slot = false → p.cc.st ≠ .parked → ∃ t, exec (.hlease a n) s = .next t ∧ t.panel.cc.st = .blocked ∧
       t.panel.cc.wake = .hlease (n.toNat + 1) c ∧ (t.panel.cluster cl).hoop.reqs = h.reqs ++ [(lc, p.cur.slot, n.toNat + 1, c)] ∧
       t.panel.mem = p.mem ∧ t.panel.cc.g = p.cc.g) ∧
     (p.isAway = false → p.cb.hoop = true → p.holds lc p.cur.slot = true → ∃ t, exec .hfree s = .next t ∧ (t.panel.cluster cl).hoop.holder = none ∧
       t.panel.mem = p.mem ∧ t.panel.cc.g = p.cc.g) ∧
     (p.isAway = false → p.cb.hoop = true → p.holds lc p.cur.slot = false → exec .hfree s = s.to p.fin) ∧
     (∀ k core slot m cyc, p.ev = [k] → (p.cluster k).hoop.holder = none → (p.cluster k).hoop.reqs = [(core, slot, m, cyc)] →
       ∃ t, exec .hoopLeaseGrant s = .next t ∧ (t.panel.cluster k).hoop.holder = some (core, slot, (p.ctx core slot).btag) ∧
         (t.panel.cluster k).hoop.leaseN = m ∧ (t.panel.cluster k).hoop.leaseEnd = p.now + cyc ∧ (t.panel.cluster k).hoop.reqs = [] ∧
         ((p.ctx core slot).st ≠ .parked → (p.ctx core slot).gapUntil ≤ p.now → (t.panel.ctx core slot).st = .ready)) ∧
     (∀ k, p.ev = [k] → (p.cluster k).hoop.holder.isSome = true → (p.cluster k).hoop.leaseEnd ≤ p.now →
       ∃ t, exec .hoopLeaseExpiry s = .next t ∧ (t.panel.cluster k).hoop.holder = none ∧ t.panel.mem = p.mem)) ∧
  (∀ (s : State) (x a b : Reg) (i : Instr) (sub : Nat) (sh : Line) (u v : W) (bad : Option (Nat × W)),
     let p := s.panel
     let lc := p.cur.core
     let cl := clusterOf lc
     let r := p.src.shape x.toNat
     p.isAway = false → p.cb.hoop = true → p.acqBusy = false →
     (i, sub, sh, u, v, bad) ∈ [(Instr.hzero x, 0, r, (0 : W), (0 : W), (none : Option (Nat × W))), (.hlda x a b, 1, r, p.gv a, p.gv b, hldaBad (p.gv a) (p.gv b) p r),
       (.hldb x a b, 2, r, p.gv a, p.gv b, hldbBad false (p.gv a) (p.gv b) p r), (.hldbt x a b, 3, r, p.gv a, p.gv b, hldbBad true (p.gv a) (p.gv b) p r),
       (.hrot, 4, 0, 0, 0, none), (.hmma, 5, 0, 0, 0, none), (.hmmar, 6, 0, 0, 0, none), (.hstc x a b, 7, r, p.gv a, p.gv b, hstcBad (p.gv a) (p.gv b) p r)] →
     (p.holds lc p.cur.slot = false → exec i s = s.to (p.trap 0x0D p.cur.word)) ∧
     (∀ e, p.holds lc p.cur.slot = true → bad = some e → exec i s = s.to (p.trap e.1 e.2)) ∧
     (p.holds lc p.cur.slot = true → bad = none → p.cl.strict = false →
       (7 ≤ p.cc.tlc → exec i s = s.to p.retry) ∧
       (p.cc.tlc < 7 → ∃ t, exec i s = .next t ∧ t.panel.cc.tlc = p.cc.tlc + 1 ∧ t.panel.mem = p.mem ∧ t.panel.cc.g = p.cc.g ∧ t.panel.cc.pc = p.fin.cc.pc ∧
         (t.panel.cluster cl).hoop.cmds = (p.cluster cl).hoop.cmds ++
           [{ sub := sub, shape := sh, a := u, b := v, core := lc, slot := p.cur.slot, btag := p.cc.btag, rmode := p.cc.rmode, num := p.nid }] ∧
         (t.panel.cluster cl).hoop.leaseN = (p.cluster cl).hoop.leaseN - 1 ∧
         ((p.cluster cl).hoop.leaseN ≤ 1 → (t.panel.cluster cl).hoop.holder = none)))) ∧
  (∀ (s : State) (x a b : Reg),
     let p := s.panel
     p.isAway = false → p.cb.hoop = true → p.acqBusy = false → p.holds p.cur.core p.cur.slot = true → shapeOk (p.src.shape x.toNat) = false →
     ∀ i ∈ [Instr.hlda x a b, .hldb x a b, .hldbt x a b, .hstc x a b], exec i s = s.to (p.trap 0x08 p.cur.word))

/-- Commands performed (R370-R375), each the oldest of its array: HZERO clears every entry and its NaN bit, sets EA from the record and forgets the kind;
HLDA binds A; HROT moves each latch to the next segment; HMMA performs its step, or ends with the status that says why it could not. The thread's tile
counter falls. HACC (R376): accumulator entries read as 64-bit lanes of a group of vectors, or written from one, which clears their NaN bits; a view
that is not mapped is VIEW_FAULT. While a command runs, HACC stalls. -/
def Obligations.HoopPerformed : Prop :=
  (∀ (s : State) (cl : Nat) (x : HCmd) (rest : List HCmd),
     let p := s.panel
     let h := (p.cluster cl).hoop
     p.ev = [cl] → h.cmds = x :: rest → h.parked = false → x.status = 0 →
     let ends (ok : State → Hoop → Prop) : Prop := ∃ t, exec .hoopCommandComplete s = .next t ∧ (t.panel.cluster cl).hoop.cmds = rest ∧
       (t.panel.ctx x.core x.slot).tlc = (p.ctx x.core x.slot).tlc - 1 ∧ ok t (t.panel.cluster cl).hoop
     (x.sub = 0 → ends fun t k => k.nan = [] ∧ k.kind = 0 ∧ k.ea = sgn 16 (x.shape.toNat / 2 ^ 480 % 2 ^ 16) ∧
       (∀ j r c, j < 8 → r < 16 → c < 32 → Memory.readN t.panel.mem (entryAddr (clusterCore cl j) r c) 8 = 0) ∧
       (Memory.wf p.mem = true → ∀ y, (∀ j, j < 8 → y < rsA (clusterCore cl j) 0x10000 ∨ rsA (clusterCore cl j) 0x11000 ≤ y) → Memory.get t.panel.mem y = Memory.get p.mem y)) ∧
     (x.sub = 1 → ends fun t k => k.bind = some (x.shape, x.a.toNat, x.b.toNat, shCols x.shape) ∧ k.latch = h.latch ∧ t.panel.mem = p.mem) ∧
     (x.sub = 4 → ends fun t k => t.panel.mem = p.mem ∧ k.latch.length = 8 ∧ ∀ j, j < 8 → h.latch.length = 8 → k.latch[(j + 1) % 8]? = h.latch[j]?) ∧
     (x.sub = 5 → h.bind ≠ none → (hmmaStep p cl x).status = 0 → (hmmaStep p cl x).poison = false → ends fun t _ => t.panel.mem = (hmmaStep p cl x).panel.mem) ∧
     (x.sub = 5 → h.bind = none → (p.queue x.core x.btag 0).length < 32 → (p.blk x.core x.btag).held = [] →
       ends fun t _ => t.panel.mem = p.mem ∧
         t.panel.queue x.core x.btag 0 = p.queue x.core x.btag 0 ++ [BitVec.ofNat 64 (8 * 2 ^ 60 + 8 * 2 ^ 56 + 5 * 2 ^ 52 + 0xFF * 2 ^ 44)])) ∧
  (∀ (s : State) (a : Reg) (v : BitVec 1) (i : BitVec 3),
     let p := s.panel
     let c := p.src
     let lc := p.cur.core
     let V := 16 * v.toNat + a.toNat
     let cols := accCols c
     let e0 := accBase c + 16 * cols * i.toNat
     let entry (n : Nat) : Nat := rsA lc (0x10000 + 8 * (e0 + n))
     p.isAway = false → p.cb.hoop = true →
     (accCount c ≤ i.toNat → exec (.haccRd a v i) s = s.to (p.trap 0x06 p.cur.word) ∧ exec (.haccWr a v i) s = s.to (p.trap 0x06 p.cur.word)) ∧
     (∀ k ks, noViews p = false → i.toNat < accCount c → vecOk p c V (2 * cols) = true → (p.cluster (clusterOf lc)).hoop.cmds = k :: ks → p.cc.haccAt = none →
       ∀ j ∈ [Instr.haccRd a v i, .haccWr a v i], ∃ t, exec j s = .next t ∧ t.panel.cc.st = .stall ∧ t.panel.cc.pc = p.cc.pc ∧ t.panel.cc.g = p.cc.g ∧ t.panel.mem = p.mem) ∧
     (noViews p = false → i.toNat < accCount c → vecOk p c V (2 * cols) = true → (p.cluster (clusterOf lc)).hoop.cmds = [] →
       (∃ t, exec (.haccRd a v i) s = .next t ∧ t.panel.cc.g = p.cc.g ∧
         (∀ n, n < 16 * cols → lane 64 (BitVec.ofNat 512 (Memory.readN t.panel.mem (vecAddr p c (V + n / 8)) 64)) (n % 8) = Memory.readN p.mem (entry n) 8) ∧
         ∀ y, (∀ g, g < 2 * cols → y < vecAddr p c (V + g) ∨ vecAddr p c (V + g) + 64 ≤ y) → Memory.get t.panel.mem y = Memory.get p.mem y) ∧
       ∃ t, exec (.haccWr a v i) s = .next t ∧ t.panel.cc.g = p.cc.g ∧
         (∀ n, n < 16 * cols → Memory.readN t.panel.mem (entry n) 8 = lane 64 (p.vec (V + n / 8)) (n % 8)) ∧
         SameBytesBut (entry 0) (128 * cols) s t ∧
         ∀ n, n < 16 * cols → 512 * coreK lc + e0 + n ∉ (t.panel.cluster (clusterOf lc)).hoop.nan))

/-- OGET, OSET and OINJ (R397, R404) of a cell whose domain does not run act at once, on its field alone; of a running one they wait for the boundary; a
value or a selector outside R404's table is OSIER_FAULT. The vector forms of OGET and OSET (R405) on stopped domains: each active lane reads or writes
the field of its cell of the group; other lanes and cells keep their values. Boundaries of a cluster with one domain (R392-R396, R406): at its start
the inputs of its active cells are latched and the boundary is set; at a boundary the latched cell steps and the run's counts move; a cross-core
stroke whose cycle has come enters its destination's FIFO. -/
def Obligations.OsierCells : Prop :=
  (∀ (s : State) (d a b : Reg) (n f : Nat),
     let p := s.panel
     let cl := clusterOf p.cur.core
     let c := p.cluster cl
     let x := cellOf c n
     let v := p.gv b
     let sets (i : Instr) (y : Cell) : Prop := ∃ t, exec i s = .next t ∧ cellOf (t.panel.cluster cl) n = y ∧ t.panel.mem = p.mem ∧ t.panel.cc.g = p.cc.g ∧
       ∀ m, m ≠ n → cellOf (t.panel.cluster cl) m = cellOf c m
     p.isAway = false → p.cb.hoop = true → (p.gv a).toNat = f * 2 ^ 12 + n → n < 2 ^ 11 → f < 4 →
     ((domOf c x.dom).state ≠ 1 →
       exec (.oget d a) s = s.puts d (cellField x f p.now) ∧
       (f = 0 → v.toInt.natAbs < 2 ^ 31 → x.k = 0 ∨ v.toInt.natAbs < 2 ^ x.k → sets (.oset a b) { x with y := v.toInt }) ∧
       (f = 1 → v.toNat < 2 ^ x.k → x.k ≤ 31 → sets (.oset a b) { x with q := v.toNat }) ∧
       (f = 0 → x.k ≠ 0 → (x.y + v.toInt * 2 ^ x.s).natAbs < 2 ^ x.k → sets (.oinj a b) { x with y := x.y + v.toInt * 2 ^ x.s }) ∧
       (f = 0 → (x.k = 0 ∨ 2 ^ x.k ≤ (x.y + v.toInt * 2 ^ x.s).natAbs) → exec (.oinj a b) s = s.to (p.trap 0x0E v)) ∧
       (f = 1 → 2 ^ x.k ≤ v.toNat → exec (.oset a b) s = s.to (p.trap 0x0E v))) ∧
     ((domOf c x.dom).state = 1 → (domOf c x.dom).haltStop = false → p.cc.st ≠ .parked → ∃ t, exec (.oget d a) s = .next t ∧ t.panel.cc.st = .stall ∧ t.panel.cc.stall = .osier 1 ∧ t.panel.cc.g = p.cc.g ∧
       ∃ o, (t.panel.cluster cl).oacts = c.oacts ++ [o] ∧ o.op = 0 ∧ o.cell = n ∧ o.field = f ∧ o.dest = d.toNat) ∧
     (f = 3 → exec (.oset a b) s = s.to (p.trap 0x0E v))) ∧
  (∀ (s : State) (v : BitVec 5) (g : BitVec 4) (f m : BitVec 3),
     let p := s.panel
     let cl := clusterOf p.cur.core
     let c := p.cluster cl
     let cell (i : Nat) : Nat := 256 * coreK p.cur.core + 16 * g.toNat + i
     let on (i : Nat) : Bool := bt (p.src.mask m.toNat).toNat i
     let x := vecAddr p p.src v.toNat
     p.isAway = false → p.cb.hoop = true →
     (vecOk p p.src v.toNat 1 = false → exec (.ogetVector v g f m) s = s.to (p.trap 0x06 p.cur.word) ∧ exec (.osetVector v g f m) s = s.to (p.trap 0x06 p.cur.word)) ∧
     (vecOk p p.src v.toNat 1 = true → (∀ i, i < 16 → on i = true → (domOf c (cellOf c (cell i)).dom).state ≠ 1) →
       (∃ t, exec (.ogetVector v g f m) s = .next t ∧ t.panel.cc.g = p.cc.g ∧ SameBytesBut x 64 s t ∧ ∀ i, i < 16 →
         Memory.readN t.panel.mem (x + 4 * i) 4 = if on i then (cellField (cellOf c (cell i)) f.toNat p.now).toNat % 2 ^ 32 else Memory.readN p.mem (x + 4 * i) 4) ∧
       (f = 0 → (∀ i, i < 16 → on i = true → (sgn 32 (lane 32 (p.vec v.toNat) i)).natAbs < 2 ^ (cellOf c (cell i)).k) →
         ∃ t, exec (.osetVector v g f m) s = .next t ∧ t.panel.mem = p.mem ∧ t.panel.cc.g = p.cc.g ∧
           (∀ i, i < 16 → cellOf (t.panel.cluster cl) (cell i) =
             if on i then { cellOf c (cell i) with y := sgn 32 (lane 32 (p.vec v.toNat) i) } else cellOf c (cell i)) ∧
           ∀ k, (∀ i, i < 16 → k ≠ cell i) → cellOf (t.panel.cluster cl) k = cellOf c k))) ∧
  (∀ (s : State) (cl d : Nat) (y : Domain),
     let p := s.panel
     let c := p.cluster cl
     (∀ l, p.ev = [cl, l] → c.doms = [(d, y)] → y.state = 1 → y.begun = false → y.haltStop = false → y.next = p.now → c.strokes = [] → p.domHeld cl y = false →
       ∃ t, exec .alignedRunStart s = .next t ∧ (domOf (t.panel.cluster cl) d).begun = true ∧ (domOf (t.panel.cluster cl) d).next = p.now + y.period ∧
         (domOf (t.panel.cluster cl) d).latched =
           (active c d).map fun e => (e.1, (latchCell c e.1 p.now e.2).1, (latchCell c e.1 p.now e.2).2.1)) ∧
     (∀ n dx dsum, p.ev = [cl] → c.doms = [(d, y)] → y.state = 1 → y.begun = true → y.haltStop = false → y.next = p.now → c.strokes = [] → c.oacts = [] →
       y.latched = [(n, dx, dsum)] → (stepCell (cellOf c n) dx dsum).2 = false →
       ∃ t, exec .osierBoundary s = .next t ∧ (cellOf (t.panel.cluster cl) n).y = (stepCell (cellOf c n) dx dsum).1.y ∧
         (cellOf (t.panel.cluster cl) n).q = (stepCell (cellOf c n) dx dsum).1.q ∧ (cellOf (t.panel.cluster cl) n).out = (stepCell (cellOf c n) dx dsum).1.out ∧
         (domOf (t.panel.cluster cl) d).steps = y.steps + 1 ∧ (domOf (t.panel.cluster cl) d).remain = y.remain - 1) ∧
     (∀ x, p.ev = [cl] → c.strokes = [x] → x.due ≤ p.now → (cellOf c x.cell).k ≠ 0 → x.src ∈ sources (cellOf c x.cell) → queuedLink c x.cell x.src = true →
       (cellOf c x.cell).fifo.length < 16 →
       ∃ t, exec .osierStrokeEnqueue s = .next t ∧ (cellOf (t.panel.cluster cl) x.cell).fifo = (cellOf c x.cell).fifo ++ [(x.v, x.due)] ∧
         (t.panel.cluster cl).strokes = []))

/-- OPATCH (R399, R401): after its checks every entry configures its cell, with its FIFO empty and its emitted stroke 0; nothing in memory changes. Its
operands are checked first. OCFG, ORUN, OSTOP and OSTAT (R395, R396, R403, R406-R408): a stopped domain takes its period and taps; a run starts with
its count, at the next cycle or the next multiple of its period, under the tile counter, and waits while the domain runs; a run of no steps ends at
once; OSTOP asks for the end at the next boundary; OSTAT reads the domain. OSAVE and OREST (R409-R411) of a stopped domain: the image holds each of
its cells' records and the domain's record; restoring puts them back. -/
def Obligations.OsierDomains : Prop :=
  (∀ (s : State) (a b : Reg),
     let p := s.panel
     let cl := clusterOf p.cur.core
     let c := p.cluster cl
     let va := (p.gv a).toNat
     let n := (p.gv b).toNat
     p.isAway = false → p.cb.hoop = true → p.acqBusy = false →
     (regionOf va ≠ .private_ → exec (.opatch a b) s = s.to (p.trap 0x03 (p.gv a))) ∧
     (regionOf va = .private_ → va % 16 ≠ 0 → exec (.opatch a b) s = s.to (p.trapW 0x04)) ∧
     (regionOf va = .private_ → va % 16 = 0 → (n = 0 ∨ 2048 < n) → exec (.opatch a b) s = s.to (p.trap 0x0E (p.gv b))) ∧
     (∀ lc off, regionOf va = .private_ → va % 16 = 0 → 0 < n → n ≤ 2048 → place p p.src va (16 * n) = .lm lc off false →
       let es := patchEntries p off va n
       (∀ t, patchBad c es = some t → exec (.opatch a b) s = s.to (p.trap 0x0E (BitVec.ofNat 64 t))) ∧
       (patchBad c es = none → ∃ t, exec (.opatch a b) s = .next t ∧ t.panel.cluster cl = es.foldl (fun c e => applyEntry c e.2) c ∧ t.panel.mem = p.mem ∧
         t.panel.cc.g = p.cc.g ∧
         (n = 1 → ∀ e, e = p.lmRead p.cur.core off 16 →
           let y := cellOf (t.panel.cluster cl) (e % 2 ^ 11)
           y.k = e / 2 ^ 16 % 32 ∧ y.s = e / 2 ^ 24 % 16 ∧ y.dom = e / 2 ^ 28 % 4 ∧ y.xsrc = e / 2 ^ 32 % 2 ^ 12 ∧ y.fifo = [] ∧ y.out = 0 ∧
             y.dy = (List.range 4).map fun j => (e / 2 ^ (48 + 16 * j) % 2 ^ 12, e.testBit (60 + 16 * j)))))) ∧
  (∀ (s : State) (d a b : Reg) (n : BitVec 2) (l : BitVec 1),
     let p := s.panel
     let cl := clusterOf p.cur.core
     let y := domOf (p.cluster cl) n.toNat
     let va := (p.gv a).toNat
     let vb := (p.gv b).toNat
     p.isAway = false → p.cb.hoop = true →
     (y.state = 1 → exec (.ocfg a b n) s = s.to (p.trap 0x0E (n.zeroExtend 64)) ∧ (va < 2 ^ 32 → exec (.orun a l n) s = s.to p.retry)) ∧
     (y.state ≠ 1 → 2 ≤ va → va ≤ 65536 → vb < 2 ^ 48 → ∃ t, exec (.ocfg a b n) s = .next t ∧
       domOf (t.panel.cluster cl) n.toNat = { period := va, taps := vb } ∧ t.panel.mem = p.mem ∧ t.panel.cc.g = p.cc.g) ∧
     (y.state ≠ 1 → (va < 2 ∨ 65536 < va) → exec (.ocfg a b n) s = s.to (p.trap 0x0E (p.gv a))) ∧
     (2 ^ 32 ≤ va → exec (.orun a l n) s = s.to (p.trap 0x0E (p.gv a))) ∧
     (y.state ≠ 1 → p.cc.tlc < 7 → 0 < va → va < 2 ^ 32 → ∃ t, exec (.orun a l n) s = .next t ∧ t.panel.cc.tlc = p.cc.tlc + 1 ∧ t.panel.mem = p.mem ∧ t.panel.cc.g = p.cc.g ∧
       let z := domOf (t.panel.cluster cl) n.toNat
       z.state = 1 ∧ z.remain = va ∧ z.steps = 0 ∧ z.cnt = [0, 0, 0, 0] ∧ z.period = y.period ∧
       (l = 0 → z.next = p.now + 1) ∧ (l = 1 → 0 < y.period → p.now < z.next ∧ z.next ≤ p.now + y.period ∧ z.next % y.period = 0)) ∧
     (y.state ≠ 1 → p.cc.tlc < 7 → va = 0 → (p.queue p.cur.core p.cc.btag 3).length < 32 → (p.blk p.cur.core p.cc.btag).held = [] →
       ∃ t e, exec (.orun a l n) s = .next t ∧ t.panel.queue p.cur.core p.cc.btag 3 = p.queue p.cur.core p.cc.btag 3 ++ [e] ∧ t.panel.cc.tlc = p.cc.tlc ∧
         e.toNat / 2 ^ 59 = n.toNat) ∧
     (y.state = 1 → ∃ t, exec (.ostop n) s = .next t ∧ domOf (t.panel.cluster cl) n.toNat = { y with stopReq := true } ∧ t.panel.mem = p.mem) ∧
     (y.state ≠ 1 → exec (.ostop n) s = s.to p.fin) ∧
     exec (.ostat d n) s = s.puts d (BitVec.ofNat 64
       (y.state * 2 ^ 62 + (if y.align then 2 ^ 61 else 0) + y.fcell * 2 ^ 48 + (y.period - 1) * 2 ^ 32 + y.remain))) ∧
  (∀ (s : State) (a : Reg) (n : BitVec 2) (off : Nat),
     let p := s.panel
     let lc := p.cur.core
     let cl := clusterOf lc
     let c := p.cluster cl
     let d := n.toNat
     let cell (i : Nat) : Nat := 256 * coreK lc + i
     p.isAway = false → p.cb.hoop = true → p.acqBusy = false → imagePlace p (p.gv a).toNat = .ok off → (domOf c d).state ≠ 1 → p.cc.tlc < 7 → (p.core lc).waits = [] →
     (inFlight c d = true → exec (.osave a n) s = s.to p.retry) ∧
     (inFlight c d = false → ∃ t, exec (.osave a n) s = .next t ∧ t.panel.cc.tlc = p.cc.tlc + 1 ∧ SameBytesBut (lmA lc off) 4160 s t ∧
       (∀ i, i < 256 → (cellOf c (cell i)).dom = d →
         Memory.readN t.panel.mem (lmA lc (off + 16 * i)) 16 = cellRecord (cellOf c (cell i)) p.now % 2 ^ 128) ∧
       Memory.readN t.panel.mem (lmA lc (off + 4096)) 64 = domRecord (domOf c d) % 2 ^ 512) ∧
     (let rec_ (i : Nat) : Nat := p.lmRead lc (off + 16 * i) 16
      let r := p.lmRead lc (off + 4096) 64
      (∀ i, i < 256 → (cellOf c (cell i)).dom = d → recordBad c (cell i) d (rec_ i) = false) → domBad r = false →
        ∃ t, exec (.orest a n) s = .next t ∧ t.panel.cc.tlc = p.cc.tlc + 1 ∧ t.panel.mem = p.mem ∧
          domOf (t.panel.cluster cl) d = restoreDom (domOf c d) r ∧
          ∀ i, i < 256 → cellOf (t.panel.cluster cl) (cell i) =
            if (cellOf c (cell i)).dom = d then restoreCell (cellOf c (cell i)) (rec_ i) p.now else cellOf c (cell i)))

/-- Timers of a thread and of a core, each when its time has come (R90, R99, R211, R214, R245-R247, R277, R311, R315): a division's result is written; a
gap ends; a HOLD, a FUSE that found no partner (with 0), a stagger and a stall before migration end; retention is entered after 256 cycles at the
depth the blocks ask for, and left. Retention (R245-R247). -/
def Obligations.TimersAndRetention : Prop :=
  (∀ (s : State) (lc slot : Nat),
     let p := s.panel
     let c := p.ctx lc slot
     let freed (i : Instr) : Prop := ∃ t, exec i s = .next t ∧ (t.panel.ctx lc slot).st = .ready ∧ (t.panel.ctx lc slot).stall = .none ∧
       (t.panel.ctx lc slot).g = c.g ∧ (t.panel.ctx lc slot).pc = c.pc ∧ t.panel.mem = p.mem
     p.ev = [lc, slot] →
     (∀ r v due, c.div = [(r, v, due)] → due ≤ p.now → ∃ t, exec .divResult s = .next t ∧ (t.panel.ctx lc slot).g = (c.setG r v).g ∧
       (t.panel.ctx lc slot).div = [] ∧ (t.panel.ctx lc slot).pc = c.pc ∧ t.panel.mem = p.mem) ∧
     (c.st = .gap → c.gapUntil ≤ p.now → ∃ t, exec .issueGapEnd s = .next t ∧ (t.panel.ctx lc slot).st = .ready ∧ (t.panel.ctx lc slot).g = c.g ∧
       (t.panel.ctx lc slot).pc = c.pc ∧ t.panel.mem = p.mem) ∧
     (∀ u, c.stall = .hold u → u ≤ p.now → c.Free p.now → freed .holdEnd) ∧
     (∀ m d u, c.stall = .fuse m d u → u + 4096 ≤ p.now → c.Free p.now → ∃ t, exec .fuseTimeout s = .next t ∧ (t.panel.ctx lc slot).st = .ready ∧
       (t.panel.ctx lc slot).g = (c.setG d 0).g ∧ (t.panel.ctx lc slot).gang = [] ∧ t.panel.mem = p.mem) ∧
     (∀ u, c.wake = .stagger u → c.st = .blocked → u ≤ p.now → c.Free p.now → freed .barrierStaggerEnd) ∧
     (c.stall = .migrate → c.ldc = 0 → c.stc = 0 → c.Free p.now → freed .migrateAfterStall) ∧
     (∀ e k, p.cores = [(k, p.core k)] → (p.core k).waits = [e] → e.core = lc → e.slot = slot → e.entered = false → e.retryAt ≤ p.now → e.bar = false →
       p.isFull k e.off = true → e.take = false → e.acc = 0 → c.Free p.now →
       ∃ t, exec .waitTableRetry s = .next t ∧ (t.panel.core k).waits = [] ∧ (t.panel.ctx lc slot).st = .ready ∧
         (t.panel.ctx lc slot).g = (c.setG e.dest (BitVec.ofNat 64 (p.lmRead k (8 * e.off) 8))).g)) ∧
  (∀ (s : State) (lc : Nat),
     let p := s.panel
     let k := p.core lc
     p.ev = [lc] →
     (retentionOk p lc = true → k.idleSince + 256 ≤ p.now → k.retDepth = 0 →
       ∃ t, exec .retentionEntry s = .next t ∧ (t.panel.core lc).retDepth = retDepth p lc ∧ (t.panel.core lc).retDepth ≠ 0 ∧ (t.panel.core lc).ctxs = k.ctxs ∧
         t.panel.mem = p.mem) ∧
     (retentionOk p lc = false → exec .retentionEntry s = .next s) ∧
     (k.retDepth ≠ 0 → k.wakeAt ≠ 0 → k.wakeAt ≤ p.now →
       ∃ t, exec .bankWake s = .next t ∧ (t.panel.core lc).retDepth = 0 ∧ (t.panel.core lc).ctxs = k.ctxs ∧ t.panel.mem = p.mem))

/-- Accesses and barrier operations performed where they arrive (R94, R199-R201, R304, R310): a store writes its bytes and no other, a load takes them, an
atomic reads and writes in one access, BAREXP and BARARR change their object; each leaves the FIFO, and its answer follows 14 cycles and two a hop of
its way back later. -/
def Obligations.AccessArrivals : Prop :=
  ∀ (s : State) (lc id : Nat) (a : Access) (rest : List Packet) (src off n : Nat) (seq : Option Nat),
    let p := s.panel
    let done (i : Instr) (ev : Instr) (ok : State → Access → Prop) : Prop := ∃ t y, exec i s = .next t ∧ (t.panel.core lc).fifo = rest ∧
      t.panel.acc id = some y ∧ y.stage = .performed ∧ (p.now + (14 + 2 * p.trip a.target a.core 1), ev, [id]) ∈ t.panel.agenda ∧ ok t y
    p.ev = [lc] → p.acc id = some a → a.id = id → p.Unawaited id →
    (p.Arrived lc ⟨.access id, src, seq⟩ rest → a.items = [⟨8 * n, 8 * off, 0, 64, a.sx⟩] → 0 < n → n ≤ 8 →
      (a.kind = .store → done .remoteAccessArrival .storeAcknowledgement fun t _ =>
        Memory.readN t.panel.mem (lmA lc off) n = a.data % 2 ^ (8 * n) ∧ SameBytesBut (lmA lc off) n s t) ∧
      (a.kind = .load → done .remoteAccessArrival .remoteLoadResponse fun t y => t.panel.mem = p.mem ∧
        y.got = if a.sx then cut 64 (sgn (8 * n) (Memory.readN p.mem (lmA lc off) n)) else Memory.readN p.mem (lmA lc off) n)) ∧
    (p.Arrived lc ⟨.amo id, src, seq⟩ rest → itemOff a = off → n = (if a.wide then 8 else 4) →
      let old := Memory.readN p.mem (lmA lc off) n
      done .remoteAtomicArrival .remoteLoadResponse fun t y => y.got = old ∧ SameBytesBut (lmA lc off) n s t ∧
        (∀ v, amoNew a.op a.wide a.rnd old (if a.op = 2 then a.data1 else a.data) a.data = some v → Memory.readN t.panel.mem (lmA lc off) n = v % 2 ^ (8 * n)) ∧
        (amoNew a.op a.wide a.rnd old (if a.op = 2 then a.data1 else a.data) a.data = none → t.panel.mem = p.mem)) ∧
    (∀ op val core slot tag dest arr, p.Arrived lc ⟨.bar op off val core slot tag dest arr id, src, seq⟩ rest → p.mine a = true → (p.core lc).waits = [] →
      let o := p.obj lc off
      let bt := (p.ctx core slot).btag
      bt < 2 ^ 32 → objOk o bt = true → objArr o + 1 < objExp o →
      (op = 1 → done .barrierOpArrival .storeAcknowledgement fun t _ =>
        t.panel.obj lc off = mkObj bt (objPend o) (objStag o) (objPhase o) (objArr o + 1) (objExp o) ∧ SameBytesBut (lmA lc off) 16 s t) ∧
      (op = 3 → -(2 ^ 31 : Int) ≤ objPend o + val.toInt → objPend o + val.toInt < (2 ^ 31 : Int) → done .barrierOpArrival .storeAcknowledgement fun t _ =>
        t.panel.obj lc off = mkObj bt (objPend o + val.toInt) (objStag o) (objPhase o) (objArr o) (objExp o) ∧ SameBytesBut (lmA lc off) 16 s t) ∧
      (op = 4 → (p.ctx core slot).arr = none → done .barrierOpArrival .remoteLoadResponse fun t y => t.panel.mem = p.mem ∧ y.got = o % 2 ^ 34))

/-- Messages at their target (R218-R223, R319, R320): a message that fits its ring is appended there, with its header and its notice in q4, which give the
sender's coordinates in its block, and answered; one to a ring that is off is answered with status 3; a handler message seeds a free handler slot; one
that finds four waiting stays where it is. A diverted message (R460): it is forwarded to the block's core where the block stands, refused with status
4 where it has retired or ended; an absent block's inbox takes it where its ring's shadow has room, and it is refused with status 3 where the ring is
off, and as the ring would refuse it where it does not fit. -/
def Obligations.MessagesAtTheirTarget : Prop :=
  (∀ (s : State) (lc id : Nat) (a : Access) (rest : List Packet) (src core slot stag dtag ci : Nat) (seq : Option Nat) (ws : List W),
     let p := s.panel
     p.ev = [lc] → p.acc id = some a → p.Unawaited id → 1 ≤ a.copies →
     (∀ n slevel quiet r at_ tail, p.Arrived lc ⟨.msg n ws core slot slevel stag dtag quiet id ci, src, seq⟩ rest → (dtag = 0 ∨ p.residentAt dtag lc = true) →
       r = SMap.getD (p.core lc).rings n {} →
       (r.en = false → ∃ t, exec .messageArrival s = .next t ∧ t.panel.mem = p.mem ∧ (t.panel.core lc).fifo = rest ∧
         (p.now + (14 + 2 * p.trip lc a.core 1), Instr.messageResponse, [id, 3, lc]) ∈ t.panel.agenda) ∧
       (r.en = true → r.btag = stag → ringFit { r with head := r.headAtStart p.now } (8 * ws.length) = .ok (at_, false, tail) → (p.queue lc stag 4).length < 32 →
         let x := core % 256
         let y := core / 256
         let base := (p.block stag).lmBase * 1024 + r.base * 8
         ∃ t, exec .messageArrival s = .next t ∧ SMap.find (t.panel.core lc).rings n = some { r with tail := tail } ∧
           Memory.readN t.panel.mem (lmA lc (base + at_)) 8 = (seq.getD 0 % 2 ^ 16 * 2 ^ 48 + y * 2 ^ 40 + x * 2 ^ 32 + 2 ^ 16 + 8 * ws.length) % 2 ^ 64 ∧
           Memory.readN t.panel.mem (lmA lc (base + at_ + 8)) (8 * ws.length) = ofLanes 64 (ws.map BitVec.toNat) ∧
           SameBytesBut (lmA lc (base + at_)) (8 + 8 * ws.length) s t ∧ (t.panel.core lc).fifo = rest ∧
           t.panel.queue lc stag 4 = p.queue lc stag 4 ++ [BitVec.ofNat 64 (seq.getD 0 % 2 ^ 16 * 2 ^ 48 + y * 2 ^ 40 + x * 2 ^ 32 + n * 2 ^ 30 + at_ / 8 * 2 ^ 16 + 8 * ws.length)] ∧
           (p.now + (14 + 2 * p.trip lc a.core 1), Instr.messageResponse, [id, 0, lc]) ∈ t.panel.agenda)) ∧
     (∀ w, p.Arrived lc ⟨.handler ws core slot stag dtag id ci, src, seq⟩ rest → ws.head? = some w → (p.block dtag).st = .resident → p.residentAt dtag lc = true →
       ((p.core lc).hq = [] → (p.ctx lc 12).st = .empty → ∃ t, exec .handlerMessageArrival s = .next t ∧ (t.panel.core lc).fifo = rest ∧ (t.panel.core lc).hq = [] ∧
         (t.panel.ctx lc 12).st = .ready ∧ (t.panel.ctx lc 12).pc = w ∧ (t.panel.ctx lc 12).btag = dtag ∧
         (∀ i, 1 ≤ i → i ≤ 8 → (t.panel.ctx lc 12).gr i = (ws[i]?).getD 0) ∧ t.panel.mem = p.mem) ∧
       (4 ≤ (p.core lc).hq.length → ∃ t, exec .handlerMessageArrival s = .next t ∧ t.panel.core lc = p.core lc ∧ t.panel.mem = p.mem)) ∧
     (∀ w, (p.core lc).hq = [.handler ws core slot stag dtag id ci] → ws.head? = some w → (p.block dtag).st = .resident → (p.ctx lc 12).st = .empty →
       ∃ t, exec .handlerStart s = .next t ∧ (t.panel.core lc).hq = [] ∧ (t.panel.ctx lc 12).st = .ready ∧ (t.panel.ctx lc 12).pc = w ∧
         (t.panel.ctx lc 12).btag = dtag ∧ t.panel.mem = p.mem)) ∧
  (∀ (s : State) (pi lc n core slot stag dtag id ci src : Nat) (slevel quiet : Bool) (ws : List W) (seq : Option Nat) (a : Access),
     let p := s.panel
     let k : Packet := ⟨.msg n ws core slot slevel stag dtag quiet id ci, src, seq⟩
     let b := p.block dtag
     let to_ := blockCore b (ci % b.w) (ci / b.w)
     let answered (status : Nat) : Prop := ∃ t, exec .messageDivert s = .next t ∧ (p.now + (14 + 2 * p.trip lc a.core 1), Instr.messageResponse, [id, status, lc]) ∈ t.panel.agenda ∧
       (t.panel.part pi).divert = [] ∧ t.panel.mem = p.mem
     p.ev = [pi] → (p.part pi).divert = [(lc, k)] → p.acc id = some a → p.Unawaited id →
     (b.st = .resident ∨ b.st = .taking → ∃ t, exec .messageDivert s = .next t ∧ (∃ d, (t.panel.core to_).net = (p.core to_).net ++ [(d, { k with src := forwardedSrc + src % forwardedSrc })]) ∧ (t.panel.part pi).divert = [] ∧ t.panel.mem = p.mem) ∧
     (b.st = .retired ∨ b.st = .ended → answered 4) ∧
     (b.st = .absent → (shadowRing b ci n).en = false → answered 3) ∧
     (b.st = .absent → (shadowRing b ci n).en = true → (∀ x, ringFit (shadowRing b ci n) (8 * ws.length) = .ok x → answered 0 ∧
       ∃ t, exec .messageDivert s = .next t ∧ (t.panel.block dtag).inbox = b.inbox ++ [(ci, ⟨.msg n ws core slot slevel stag dtag quiet 0 ci, src, seq⟩)]) ∧
       ∀ x, ringFit (shadowRing b ci n) (8 * ws.length) = .error x → answered x))

/-- Threads that travel (R100-R102, R178, R310): a migrating context enters a free arrival slot with its registers, or is sent back from a core that has
none, while its home slot awaits it and its group is not parked; a thread that comes home finds the masks and shape registers it left; a wake message
ends a remote BARWAIT. -/
def Obligations.ThreadArrivals : Prop :=
  ∀ (s : State) (lc src : Nat) (seq : Option Nat) (rest : List Packet) (c : Ctx),
    let p := s.panel
    p.ev = [lc] → p.awaits c = true → p.groupParked c.homeCore c.btag = false → p.groupParked lc c.btag = false →
    (∀ addr data w d from_ fs, p.Arrived lc ⟨.mig c 0 addr data w d from_ fs, src, seq⟩ rest →
      ((p.ctx lc 14).st = .empty → c.gapUntil ≤ p.now → ∃ t, exec .migrationContextArrival s = .next t ∧ (t.panel.core lc).fifo = rest ∧ (t.panel.ctx lc 14).st = .ready ∧
        (t.panel.ctx lc 14).g = c.g ∧ (t.panel.ctx lc 14).pc = c.pc ∧ (t.panel.ctx lc 14).btag = c.btag ∧ t.panel.mem = p.mem) ∧
      ((p.ctx lc 14).st ≠ .empty → (p.ctx lc 15).st ≠ .empty → from_ ≠ lc → ∃ t, exec .migrationContextArrival s = .next t ∧ (t.panel.core lc).fifo = rest ∧
        ∃ k ∈ (t.panel.core from_).net, k.2.pay = .bounce c fs)) ∧
    (∀ addr data w d from_ fs off, p.Arrived lc ⟨.mig c 3 addr data w d from_ fs, src, seq⟩ rest → (p.ctx lc 14).st = .empty → w % 8 = 7 → w < 64 →
      (∃ k m, meshPlace p c addr.toNat 1 = .lm k off m) →
      ∃ t, exec .migrationContextArrival s = .next t ∧ Memory.readN t.panel.mem (lmA lc off) ((w + 1) / 8) = data.toNat % 2 ^ (w + 1) ∧
        SameBytesBut (lmA lc off) ((w + 1) / 8) s t ∧ (t.panel.ctx lc 14).g = c.g) ∧
    (∀ i k slot, (i = .migrationBounceArrival ∧ k = (⟨.bounce c slot, src, seq⟩ : Packet) ∧ slot < 12) ∨
        (i = .homeReturnArrival ∧ ∃ a b d e f, k = ⟨.home c a b d e f slot, src, seq⟩) →
      p.Arrived lc k rest → c.pend = [] → c.homeSlot < 12 → c.st ≠ .blocked → c.st ≠ .parked → c.gapUntil ≤ p.now →
      ∃ t, exec i s = .next t ∧ (t.panel.core lc).fifo = rest ∧ (t.panel.ctx lc c.homeSlot).st = .ready ∧ (t.panel.ctx lc c.homeSlot).g = c.g ∧
        (t.panel.ctx lc c.homeSlot).pc = c.pc ∧ (t.panel.ctx lc c.homeSlot).m = (p.ctx lc c.homeSlot).m ∧ (t.panel.ctx lc c.homeSlot).sh = (p.ctx lc c.homeSlot).sh ∧
        t.panel.mem = p.mem ∧ (c.stored = true → (p.cluster (clusterOf lc)).fused = false → (t.panel.core lc).l1d = [])) ∧
    (∀ slot tc off f va, p.Arrived lc ⟨.wake slot, src, seq⟩ rest → (p.ctx lc slot).wake = .barrier tc off f va → (p.ctx lc slot).st = .blocked →
      objStag (p.obj tc off) = false → (p.ctx lc slot).gapUntil ≤ p.now →
      ∃ t, exec .wakeMessage s = .next t ∧ (t.panel.core lc).fifo = rest ∧ (t.panel.ctx lc slot).st = .ready ∧ (t.panel.ctx lc slot).arr = none ∧
        (t.panel.ctx lc slot).g = (p.ctx lc slot).g ∧ t.panel.mem = p.mem)

/-- Responses to a thread that is still there (R108, R143, R263, R288, R319, R321): a load's register takes its value and its counter falls; a store's
counter falls; an L1 fill leaves its line in the L1; the last accepted copy of a message ends its access, and a refused one leaves an imprecise trap
with the thread; an error stops the thread, unless it has migrated, with its cause and writes no register; the trap of a barrier instruction of a pair
takes back the register that the A-word wrote (R199, R253). -/
def Obligations.ResponseEvents : Prop :=
  ∀ (s : State) (id : Nat) (a : Access),
    let p := s.panel
    let c := p.ctx a.core a.slot
    let after (i : Instr) (ok : State → Ctx → Prop) : Prop := ∃ t, exec i s = .next t ∧ t.panel.acc id = none ∧ t.panel.mem = p.mem ∧ ok t (t.panel.ctx a.core a.slot)
    p.acc id = some a → a.id = id → p.mine a = true →
    (∀ r, p.ev = [id] → a.stage = .performed → a.kind = .load → a.cls = .loads → a.dest = .g r → a.acq = false →
      (a.items ≠ [] → after .remoteLoadResponse fun _ x => x.g = (c.setG r (BitVec.ofNat 64 a.got)).g ∧ x.ldc = c.ldc - 1) ∧
      (a.items = [] → after .loadResponse fun _ x => x.ldc = c.ldc - 1 ∧
        x.g = (c.setG r (if a.sx then BitVec.ofInt 64 (sgn (8 * a.size) a.got) else BitVec.ofNat 64 a.got)).g) ∧
      (∀ pl n d x, a.items = [] → a.fill = 1 → a.lines = [(pl, n, d)] → a.patch = [] → a.parts = [x] → x.line = pl → x.pos = 0 →
        (∀ l ∈ (p.core (l1Core p a.core (64 * (a.va / 64)))).l1d, l.pline = pl → l.stamp ≤ n) →
        after .l1FillResponse fun t y => y.ldc = c.ldc - 1 ∧
          y.g = (c.setG r (if a.sx then BitVec.ofInt 64 (sgn (8 * a.size) a.got) else BitVec.ofNat 64 a.got)).g ∧
          ∃ l ∈ (t.panel.core (l1Core p a.core (64 * (a.va / 64)))).l1d, l.vline = a.va / 64 ∧ l.pline = pl ∧ l.data = d)) ∧
    (p.ev = [id] → a.stage = .performed → a.kind = .store → a.cls = .stores → a.dest = .none → after .storeAcknowledgement fun _ x => x.stc = c.stc - 1 ∧ x.g = c.g) ∧
    (∀ k, p.ev = [id, 0, k] → (p.block a.btag).st ≠ .absent → a.kind = .send → a.cls = .stores → a.got + 1 = a.data → after .messageResponse fun _ x => x.stc = c.stc - 1 ∧ x.g = c.g ∧ x.pend = c.pend) ∧
    (∀ st k, p.ev = [id, st, k] → (p.block a.btag).st ≠ .absent → st ≠ 0 → a.kind = .send → a.cls = .stores → a.got + 1 = a.data → a.quiet = false → after .messageResponse fun _ x =>
      x.stc = c.stc - 1 ∧ x.g = c.g ∧ x.pend = c.pend ++ [⟨0x11, BitVec.ofNat 64 (a.ring * 2 ^ 24 + cy k * 2 ^ 16 + cx k * 2 ^ 8 + st), true, false⟩]) ∧
    (p.ev = [id] → a.stage = .error → a.kind = .load → a.cls = .loads → a.dest ≠ .none → a.ofTile = false → awaySlot a.slot = false → 0x30 ≤ a.err → a.err < 256 → c.undo = none → after .errorResponse fun _ x =>
      x.g = c.g ∧ x.ldc = c.ldc - 1 ∧ x.st = .stall ∧ x.stall = .fatal ∧ x.tcause.toNat = 0x200 + a.err ∧ x.tval = BitVec.ofNat 64 a.va) ∧
    (∀ u r v, p.ev = [id] → a.stage = .error → a.kind = .barrier → c.undo = some u → u.lo ≤ id → u.g = [(r, v)] → u.mem = [] → u.cells = [] → awaySlot a.slot = false →
      (p.block a.btag).trapVec p.now ≠ 0 → a.pc ≠ (p.block a.btag).trapVec p.now →
      after .errorResponse fun _ x => x.g = (c.setG r v).g ∧ x.tcause.toNat = 0x0B ∧ x.tpc = a.pc ∧ x.pc = (p.block a.btag).trapVec p.now ∧ x.undo = none)

/-- A request at its home slice (R122-R125, R137, R143), alone there: on a held line a store writes its bytes and no other of the line, a load takes them,
an atomic does both in one access; a poisoned line or another key answers an error and writes nothing; a miss takes a miss-status register and starts
a fetch, whose return places the line in a free way and performs the request, or answers KEY_MISMATCH and places nothing. -/
def Obligations.SliceEvents : Prop :=
  ∀ (s : State) (sc id line off n key attr : Nat) (a : Access) (l : L2Line),
    let p := s.panel
    let k := p.slice sc
    let r : Req := ⟨.acc id 0, a.core, line, key⟩
    let bytes (d : Line) : Nat := bf d.toNat (8 * (off + n) - 1) (8 * off)
    let ends (i ev : Instr) (w : Nat) (ok : State → Access → Prop) : Prop := ∃ t y, exec i s = .next t ∧ t.panel.acc id = some y ∧
      (p.now + w, ev, [id]) ∈ t.panel.agenda ∧ t.panel.mem = p.mem ∧ ok t y
    p.acc id = some a → a.id = id → a.parts = [⟨line, off, n, 0, key, false, attr⟩] → a.err = 0 → a.got = 0 → a.fill = 0 → 0 < n → p.Unawaited id →
    lineRegion line = 0 → p.routeLine line = none → p.watched line = none → k.tagBad = false → SMap.find k.soft line = none → k.vc = [] →
    (p.ev = [sc] → k.ing = [r] → k.mshr = [] →
      (l2Find k line = some l → l.key = key → l.poison = false →
        (a.kind = .store → ends .sliceRequest .storeAcknowledgement (10 + 2 * p.sliceHops a) fun t y => y.stage = .performed ∧
          l2Find (t.panel.slice sc) line = some { l with data := lineWrite l.data off n a.data, dirty := true }) ∧
        (a.kind = .load → ends .sliceRequest .loadResponse (10 + 2 * p.sliceHops a) fun t y => y.stage = .performed ∧ y.got = bytes l.data ∧ l2Find (t.panel.slice sc) line = some l) ∧
        (∀ v, a.kind = .amo → amoNew a.op a.wide a.rnd (bytes l.data) (if a.op = 2 then a.data1 else a.data) a.data = some v →
          ends .sliceRequest .loadResponse (10 + 2 * p.sliceHops a) fun t y => y.stage = .performed ∧ y.got = bytes l.data ∧
            l2Find (t.panel.slice sc) line = some { l with data := lineWrite l.data off n v, dirty := true })) ∧
      (l2Find k line = some l → l.key = key → l.poison = true → a.kind = .load →
        ends .sliceRequest .errorResponse (10 + 2 * p.sliceHops a) fun t y => y.stage = .error ∧ y.err = 0x33 ∧ l2Find (t.panel.slice sc) line = some l) ∧
      (l2Find k line = some l → l.key ≠ key → ends .sliceRequest .errorResponse (10 + 2 * p.sliceHops a) fun t y => y.stage = .error ∧ y.err = 0x31 ∧ l2Find (t.panel.slice sc) line = some l) ∧
      (l2Find k line = none → ∃ t, exec .sliceRequest s = .next t ∧ (t.panel.slice sc).mshr = [⟨line, [r]⟩] ∧ (t.panel.slice sc).ing = [] ∧
        (p.now + 200, Instr.hbmFillReturn, [sc, line]) ∈ t.panel.agenda ∧ t.panel.accs = p.accs ∧ t.panel.mem = p.mem)) ∧
    (p.ev = [sc, line] → k.ing = [] → k.mshr = [⟨line, [r]⟩] → l2Find k line = none → a.kind = .load → (∀ e ∈ p.accs, e.2.stage ≠ .held ∧ e.2.stage ≠ .tlb) →
      let q := p.part (partOf p sc)
      (frameTag p.hbm (line / 1024) = key → homeSlice q line = sc → SMap.find p.hbm.soft line = none → line ∉ p.hbm.poison →
        (∃ w, w < lineWays q ∧ ∀ x ∈ k.lines, x.set = homeSet q line → x.way ≠ w) →
        ends .hbmFillReturn .loadResponse (10 + 2 * p.sliceHops a) fun t y => y.stage = .performed ∧ y.got = bytes (hbmLine p.mem line) ∧ (t.panel.slice sc).mshr = [] ∧
          ∃ w, w < lineWays q ∧ l2Find (t.panel.slice sc) line = some ⟨line, homeSet q line, hbmLine p.mem line, false, false, key, w⟩) ∧
      (frameTag p.hbm (line / 1024) ≠ key → ends .hbmFillReturn .errorResponse (10 + 2 * p.sliceHops a) fun t y => y.stage = .error ∧ y.err = 0x31 ∧
        (t.panel.slice sc).mshr = [] ∧ (t.panel.slice sc).lines = k.lines))

/-- Errors of slices and of HBM (R138-R142, R145): what a soft error marks, a scrub finds: correctable errors are corrected and counted, an uncorrectable
one poisons a dirty line of a slice, drops a clean one, and poisons a line of HBM; lost tags lose the slice's lines and raise the halt line with
SLICE_LOST; a counter record that Umpire reads is reported and cleared. The initialisation of a frame that no lease holds writes zeros under its new
tag and drops its lines. -/
def Obligations.MemoryErrors : Prop :=
  ∀ (s : State) (sc line ch frame key w : Nat) (l : L2Line) (q : Nat × Partition),
    let p := s.panel
    let k := p.slice sc
    let v := SMap.getD k.soft line 0
    let u := SMap.getD p.hbm.soft line 0
    let found (ok : State → Prop) : Prop := ∃ t, exec .l2Scrub s = .next t ∧ t.panel.mem = p.mem ∧ SMap.find (t.panel.slice sc).soft line = none ∧ ok t
    (p.ev = [0, sc, line, w] → w < 8 → l2Find k line = some l → ∃ t, exec .softError s = .next t ∧
      softWord (SMap.getD (t.panel.slice sc).soft line 0) w = (if softWord v w = 0 then 1 else 2) ∧ (t.panel.slice sc).lines = k.lines ∧ t.panel.mem = p.mem) ∧
    (p.ev = [5, line, 0, w] → w < 8 → line < hbmSize / 64 → ∃ t, exec .softError s = .next t ∧ softWord (SMap.getD t.panel.hbm.soft line 0) w = 2 ∧ t.panel.mem = p.mem) ∧
    (p.ev = [sc, line] → l2Find k line = some l → k.tagBad = false → SMap.find k.soft line = some v →
      (softCount v 2 = 0 → found fun t => (t.panel.slice sc).cnt.corr = min (k.cnt.corr + softCount v 1) 0xFFFFFFFF ∧ (t.panel.slice sc).lines = k.lines) ∧
      (softCount v 2 ≠ 0 → l.dirty = true → found fun t => (t.panel.slice sc).cnt.uncorr = min (k.cnt.uncorr + softCount v 2) 0xFFFF ∧
        l2Find (t.panel.slice sc) line = some { l with poison := true }) ∧
      (softCount v 2 ≠ 0 → l.dirty = false → found fun t => l2Find (t.panel.slice sc) line = none)) ∧
    (p.ev = [sc, line] → k.tagBad = true → (SMap.find p.parts (partOf p sc)).isSome = true → (p.part (partOf p sc)).halt = false →
      ∃ t, exec .l2Scrub s = .next t ∧ (t.panel.slice sc).lines = [] ∧ (t.panel.part (partOf p sc)).halt = true ∧ (t.panel.part (partOf p sc)).hCause = 0x34) ∧
    (p.ev = [ch, line] → partOfHbm p (64 * line) = some q → (hbmPlace q.2 (64 * line)).1 = ch → SMap.find p.hbm.soft line = some u →
      (softCount u 2 ≠ 0 → ∃ t, exec .hbmScrub s = .next t ∧ line ∈ t.panel.hbm.poison ∧ SMap.find t.panel.hbm.soft line = none ∧
        (SMap.getD t.panel.hbm.cnts ch {}).uncorr = min ((SMap.getD p.hbm.cnts ch {}).uncorr + softCount u 2) 0xFFFF ∧ t.panel.mem = p.mem) ∧
      (softCount u 2 = 0 → ∃ t, exec .hbmScrub s = .next t ∧ t.panel.hbm.poison = p.hbm.poison ∧ SMap.find t.panel.hbm.soft line = none ∧
        (SMap.getD t.panel.hbm.cnts ch {}).corr = min ((SMap.getD p.hbm.cnts ch {}).corr + softCount u 1) 0xFFFFFFFF ∧ t.panel.mem = p.mem)) ∧
    (p.ev = [7, 0, sc] → (∀ e ∈ s.front.eps, e.2.held.length < 64) → k.cnt.corr < 2 ^ 32 → k.cnt.uncorr < 2 ^ 16 →
      ∃ t, exec .softError s = .next t ∧ (t.panel.slice sc).cnt.corr = 0 ∧ (t.panel.slice sc).cnt.uncorr = 0 ∧ t.panel.mem = p.mem ∧
        t.panel.reports = p.reports ++ [⟨2, 0x8201, [partOf p sc, 0, sc, k.cnt.lastSet * 2 ^ 48 + k.cnt.uncorr * 2 ^ 32 + k.cnt.corr]⟩]) ∧
    (p.ev = [frame, key] → frame < hbmSize / 65536 → key < 256 → p.frameHeld frame = false → (∀ e ∈ p.hbm.initq, e.1 ≠ frame) → Memory.wf p.mem = true →
      ∃ t, exec .frameInitialisation s = .next t ∧ frameTag t.panel.hbm frame = key ∧ Memory.readN t.panel.mem (65536 * frame) 65536 = 0 ∧
        SameBytesBut (65536 * frame) 65536 s t ∧ ∀ x, ∀ y ∈ (t.panel.slice x).lines, y.line / 1024 ≠ frame)

/-- Host and peer accesses (R42-R44), of one line: at its home slice a host access goes out at the endpoint's base while it ends below the limit, and
fails with HOST_FAULT beyond; its completion answers it with its bytes or fails it; a peer's response likewise, with PEER_FAULT. A peer's request that
its slot does not name is answered with a refusal and does nothing; a read and a write of a held line are performed there. -/
def Obligations.ExternalAccesses : Prop :=
  ∀ (s : State) (id data : Nat) (a : Access) (x : Part),
    let p := s.panel
    let ep := bf x.pa 47 47
    let o := bf x.pa 46 0
    let at_ := p.hostBase.getD ep 0 + o
    let failed (i : Instr) (cause : Nat) : Prop := ∃ t y, exec i s = .next t ∧ t.panel.acc id = some y ∧ y.stage = .error ∧ y.err = cause ∧
      (p.now + 10, Instr.errorResponse, [id]) ∈ t.panel.agenda ∧ t.panel.mem = p.mem
    (p.acc id = some a → a.id = id → a.stage = .out → a.slot < 16 → a.parts = [x] → x.done = false → x.pos = 0 → p.Unawaited id →
      (p.ev = [2 * id] → lineRegion x.line = 2 → o + x.len ≤ p.hostLimit.getD ep 0 →
        (a.kind = .load → exec .hostRegionAccess s = s.to { p with outbox := p.outbox ++ [.pcieRead ep (2 * id) at_ x.len] }) ∧
        (a.kind = .store → exec .hostRegionAccess s = s.to { p with outbox := p.outbox ++ [.pcieWrite ep (2 * id) at_ x.len (a.data % 2 ^ (8 * x.len))] })) ∧
      (p.ev = [2 * id] → lineRegion x.line = 2 → p.hostLimit.getD ep 0 < o + x.len → failed .hostRegionAccess 0x35) ∧
      (∀ i cause, (i, cause) ∈ [(Instr.hostCompletion, 0x35), (.peerResponse, 0x36)] → lineRegion x.line ≠ 0 →
        (p.ev = [2 * id, 1, data] → a.kind = .load → a.fill = 0 → a.got = 0 → 0 < x.len → ∃ t y, exec i s = .next t ∧ t.panel.acc id = some y ∧ y.stage = .performed ∧
          y.got = data % 2 ^ (8 * x.len) ∧ (p.now + (10 + 2 * p.sliceHops a), Instr.loadResponse, [id]) ∈ t.panel.agenda ∧ t.panel.mem = p.mem) ∧
        (p.ev = [2 * id, 0] → failed i cause))) ∧
    (∀ panel rpart off op mypart n, p.ev = [panel, rpart, off, op, data, mypart, n] →
      let q := p.part rpart
      let line := off / 64
      let sc := homeSlice q line
      let k := p.slice sc
      let tells (ok : Bool) (d : Nat) (also : State → Prop) : Prop := ∃ t, exec .peerRequest s = .next t ∧ t.panel.mem = p.mem ∧
        t.panel.outbox = p.outbox ++ [.peerAnswer panel ok d] ∧ also t
      (peerOk q panel mypart off n = false → exec .peerRequest s = s.to { p with outbox := p.outbox ++ [.peerAnswer panel false 0] }) ∧
      (∀ l, 0 < n → off % 64 + n ≤ 64 → peerOk q panel mypart off n = true → k.tagBad = false → k.mshr = [] → k.ing = [] → k.vc = [] → SMap.find k.soft line = none →
        l2Find k line = some l → l.key = frameTag p.hbm (line / 1024) → l.poison = false →
        (op = 0 → tells true (bf l.data.toNat (8 * (off % 64 + n) - 1) (8 * (off % 64))) fun t => l2Find (t.panel.slice sc) line = some l) ∧
        (op = 1 → p.routeLine line = none → p.watched line = none → tells true 0 fun t =>
          l2Find (t.panel.slice sc) line = some { l with data := lineWrite l.data (off % 64) n (data % 2 ^ (8 * n)), dirty := true })))

/-- Translation (R147, R151-R162, R166-R170): a walk that finds its page puts it into the TLB, one that finds no page parks the access that waits for it
and tells the Memory core; a leaf that changes leaves no TLB and no L1 with its old translation, and one that a lease pins waits; a page that is
refused gives the thread that parked at it PAGE_FAULT; a TLBINV ends once no access translated before it is left. -/
def Obligations.TranslationEvents : Prop :=
  ∀ (s : State) (cl pi asid page lc slot id : Nat) (a : Access),
    let p := s.panel
    (∀ w t, p.ev = [cl, w.num] → (p.cluster cl).walks = [w] → w.joined = [] → (∀ e ∈ p.accs, e.2.stage ≠ .tlb) →
      (w.res = some (.ok t) → p.badSlot t = false → ∃ u, exec .tlbWalkComplete s = .next u ∧ t ∈ (u.panel.cluster cl).tlb ∧ (u.panel.cluster cl).walks = [] ∧ u.panel.mem = p.mem) ∧
      (w.res = some .notPresent → ∃ u, exec .tlbWalkComplete s = .next u ∧ (u.panel.cluster cl).tlb = (p.cluster cl).tlb ∧ u.panel.mem = p.mem)) ∧
    (∀ w, p.ev = [cl, w.num] → (p.cluster cl).walks = [w] → w.joined = [id] → w.res = some .notPresent → p.accs = [(id, a)] → a.id = id →
      a.stage = .tlb → a.kind = .store → a.ofTile = false → a.hint = false → a.slot < 12 →
      let c := p.ctx a.core a.slot
      let b := p.block a.btag
      c.btag = a.btag → c.st = .ready → (SMap.find p.parts b.part).isSome = true →
      ∃ u y, exec .tlbWalkComplete s = .next u ∧ u.panel.acc id = some y ∧ y.stage = .parked ∧ y.fault = 1 ∧ y.fpage = w.vpn ∧ (u.panel.ctx a.core a.slot).st = .parked ∧
        (u.panel.ctx a.core a.slot).g = c.g ∧ (b.asid, w.vpn) ∈ (u.panel.part b.part).faults ∧ u.panel.mail = (p.mailTo 2 3 [a.core, parkSlot (p.part b.part) a.core]).mail) ∧
    (p.ev = [pi, asid, page] →
      (p.pinHolds pi asid page [] = true → exec .pageTableChange s = s.to (p.updPart pi fun q => { q with deferred := q.deferred ++ [(asid, page, [])] })) ∧
      (p.pinHolds pi asid page [] = false → ∃ t, exec .pageTableChange s = .next t ∧ t.panel.mem = p.mem ∧
        (∀ c, ∀ e ∈ (t.panel.cluster c).tlb, e.part = pi → e.asid = asid → ¬ (e.vpn ≤ page ∧ page < e.vpn + e.pages)) ∧
        (∀ c, ∀ l ∈ (t.panel.core c).l1d, l.part = pi → l.asid = asid → l.vline / 1024 ≠ page))) ∧
    (∀ n v, p.ev = [pi, asid, page, 2 ^ 52 + n, v] → p.pinHolds pi asid page [2 ^ 52 + n, v] = false → bt v 63 = true → (SMap.find p.parts pi).isSome = true →
      ∃ t, exec .pageTableChange s = .next t ∧ SMap.find (t.panel.part pi).asids n = some (bf v 51 16)) ∧
    (∀ k, p.ev = [pi, asid, page, 1] → (asid, page) ∈ (p.part pi).faults → (p.part pi).deferred = [] → (p.part pi).queues = [] → (p.part pi).copies = [] → p.launches = [] → p.cores = [(lc, k)] → k.parked = [id] → k.walk.busy = false → k.pf = [] → k.drop = [] → k.mcrd = [] → p.clusters = [] →
      p.accs = [(id, a)] → a.id = id → a.core = lc → a.slot = slot → slot < 12 → a.stage = .parked → a.fault = 1 → a.verdict = 0 → a.fpage = page → a.kind = .load → a.cls = .loads →
      (p.ctx lc slot).btag = a.btag → (p.ctx lc slot).st = .parked → (p.block a.btag).part = pi → (p.block a.btag).asid = asid → (p.block a.btag).st = .resident →
      ∃ t, exec .pageResolution s = .next t ∧ (t.panel.ctx lc slot).st = .ready ∧ (t.panel.ctx lc slot).pc = a.pc ∧ t.panel.acc id = none ∧
        (t.panel.ctx lc slot).g = (p.ctx lc slot).g ∧ (t.panel.ctx lc slot).pend = (p.ctx lc slot).pend ++ [⟨0x12, BitVec.ofNat 64 a.va, true, false⟩] ∧
        (t.panel.core lc).parked = []) ∧
    (∀ v n nid, p.ev = [lc, slot] → lc < 2 ^ 16 → (p.part (partOf p lc)).tlbinvs = [(lc, slot, asid, v, n, nid)] → (p.ctx lc slot).stall = .tlbinv →
      (p.ctx lc slot).Free p.now →
      (p.underWay (partOf p lc) asid v n nid = true → ∃ t, exec .tlbinvCompletion s = .next t ∧ (t.panel.ctx lc slot).stall = .tlbinv) ∧
      (p.underWay (partOf p lc) asid v n nid = false → ∃ t, exec .tlbinvCompletion s = .next t ∧ (t.panel.ctx lc slot).st = .ready ∧
        (t.panel.ctx lc slot).g = (p.ctx lc slot).g ∧ (t.panel.part (partOf p lc)).tlbinvs = [] ∧ t.panel.mem = p.mem))

/-- Placement and retirement (R82, R209, R210, R227): a block that finds room stands there with the next tag, its window reads zero, and its thread starts
at the launch's entry with its seeds; a block with no thread, no handler and no command left retires, and one that has a thread does not. -/
def Obligations.BlockPlacement : Prop :=
  ∀ (s : State) (pi id ox oy lmb rsb tag : Nat) (l : Launch) (slot : Nat),
    let p := s.panel
    let x := p.part pi
    let lc := coreXY ox oy
    let b := p.block tag
    (p.ev = [pi, id, ox, oy, lmb, rsb] → SMap.find p.launches id = some l → l.part = pi → l.st = .placing → l.range = none → l.pinned = false → l.quota = 1 → l.w = 1 → l.h = 1 →
      x.schedHalted = false → x.readmit = [] → p.room l.need [] ox oy lmb rsb [] = true → (p.freeSlots [] lc).head? = some slot →
      ∃ t, exec .blockPlacement s = .next t ∧ t.panel.nextTag = p.nextTag + 1 ∧
        (∃ y, SMap.find t.panel.blocks p.nextTag = some y ∧ y.launch = id ∧ y.idx = l.nextBlock ∧ y.st = .resident ∧ y.ox = ox ∧ y.oy = oy ∧ y.lmBase = lmb ∧
          y.lmSize = l.kib ∧ y.prio = l.prio ∧ y.priv = l.priv) ∧
        (let c := t.panel.ctx lc slot
        c.st = .ready ∧ c.pc = BitVec.ofNat 64 l.entry ∧ c.btag = p.nextTag ∧ c.gr 1 = BitVec.ofNat 64 l.arg ∧ c.gr 2 = BitVec.ofNat 64 l.nextBlock ∧ c.gr 3 = 0 ∧
          c.gr 14 = BitVec.ofNat 64 (if l.stack = 0 then 0 else l.kib * 1024)) ∧
        (∀ i, i < 1024 * l.kib → Memory.get t.panel.mem (lmA lc (1024 * lmb + i)) = 0) ∧ (t.panel.launch id).nextBlock = l.nextBlock + 1) ∧
    (p.ev = [tag] → b.st = .resident →
      ((∀ c ∈ blockCores b, tagSlots p c tag = [] ∧ (p.core c).hq = []) → p.enginesBusy tag = false → p.domsRun tag = false → (p.launch b.launch).preempt = false →
        ∃ t, exec .blockRetire s = .next t ∧ (t.panel.block tag).st = .retired ∧ t.panel.mem = p.mem) ∧
      ((∃ c ∈ blockCores b, tagSlots p c tag ≠ []) → exec .blockRetire s = .next s))

/-- Taking blocks (R173, R455-R465): a block whose groups are parked beyond PARKLIMIT is taken, a pinned one is reported; a drained block leaves its slots
and waits, absent, with its threads in its record; a victim not taken by the end of its deadline cycle falls to class 0 and is reported, once; an
absent block that finds room stands there again, its thread as it was. -/
def Obligations.BlockSwap : Prop :=
  ∀ (s : State) (tag : Nat),
    let p := s.panel
    let b := p.block tag
    let q := p.freezeGroups tag
    let lc := blockCore b 0 0
    (p.ev = [tag] → b.st = .resident → (p.part b.part).schedHalted = false →
      (p.swapDue tag = false → exec .parklimitExpiry s = .next s) ∧
      (p.swapDue tag = true → b.pinned = false → ∃ t, exec .parklimitExpiry s = .next t ∧ (t.panel.block tag).st = .taking ∧
        (p.now + 1, Instr.blockCapture, [tag]) ∈ t.panel.agenda ∧ t.panel.cores = p.cores ∧ t.panel.mem = p.mem) ∧
      (p.swapDue tag = true → b.pinned = true → b.parkReported = false → ∃ t, exec .parklimitExpiry s = .next t ∧ (t.panel.block tag).st = .resident ∧
        t.panel.mail = (p.mailTo 3 4 [tag]).mail)) ∧
    (∀ at_, p.ev = [tag, at_] → b.st = .taking → (p.part b.part).schedHalted = false → (SMap.find p.parts b.part).isSome = true →
      (q.drained tag = false → exec .blockCapture s = s.to (q.later 1 .blockCapture [tag, at_])) ∧
      (∀ slot, q.drained tag = true → b.w = 1 → b.h = 1 → b.hoop = false → b.yieldAt = none → q.groupOf lc tag = [slot] → ∃ t, exec .blockCapture s = .next t ∧
        (t.panel.block tag).st = .absent ∧ (t.panel.part b.part).readmit = (q.part b.part).readmit ++ [tag] ∧ t.panel.ctx lc slot = {} ∧
        ∃ c, SMap.getD (t.panel.block tag).recCtxs 0 [] = [((q.ctx lc slot).ord, c)] ∧ c.g = (q.ctx lc slot).g ∧ c.pc = (q.ctx lc slot).pc ∧
          c.m = (q.ctx lc slot).m ∧ c.sh = (q.ctx lc slot).sh)) ∧
    (∀ d, p.ev = [tag] → b.st = .taking → b.yieldAt = some d →
      (p.now ≤ d ∨ b.yieldLate = true ∨ (∀ c ∈ blockCores b, c ∈ (q.block tag).taken) → exec .yieldDeadline s = s.to q) ∧
      (d < p.now → b.yieldLate = false → (∃ c ∈ blockCores b, c ∉ (q.block tag).taken) → ∃ t, exec .yieldDeadline s = .next t ∧ (t.panel.block tag).prio = b.prio % 16 ∧
        (t.panel.block tag).yieldLate = true ∧ t.panel.mail = (q.mailTo 1 2 [(p.launch b.launch).seq, b.idx]).mail)) ∧
    (∀ ox oy lmb rsb c slot, p.ev = [tag, ox, oy, lmb, rsb] → b.st = .absent → (p.part b.part).schedHalted = false → (p.part b.part).readmit = [tag] → p.leaseAgain b.launch = none →
      b.w = 1 → b.h = 1 → b.hoop = false → b.fused = false → b.inbox = [] → b.recParked = [] → b.recRings = [] → b.recCtxs = [(0, [(0, c)])] → c.st = .ready → c.btag = tag →
      p.accs = [] → p.room ⟨b.part, b.asid, b.q, 1, 1, b.lmSize, b.regs, false, false⟩ [] ox oy lmb rsb [] = true → (p.freeSlots [] (coreXY ox oy)).head? = some slot →
      ∃ t, exec .readmission s = .next t ∧ (t.panel.block tag).st = .resident ∧ (t.panel.block tag).ox = ox ∧ (t.panel.block tag).oy = oy ∧ (t.panel.part b.part).readmit = [] ∧
        let y := t.panel.ctx (coreXY ox oy) slot
        y.st = .ready ∧ y.g = c.g ∧ y.pc = c.pc ∧ y.m = c.m ∧ y.sh = c.sh)

/-- The halt line (R466-R474): it is raised with REASON 2, spreads a hop, writes the stop record of the site it reaches, which then marks itself quiesced;
a release of such a halt lowers the line, a reset of a fatal one lowers it and ends the blocks; the replay latch is loaded in a halted partition only.
A debug store (R471): BRK with its code goes over the first word of a bundle of the panel's memory, the P bit stays, every other byte of the line
stays, and no instruction cache of the partition keeps the line. -/
def Obligations.HaltsAndDebug : Prop :=
  (∀ (s : State) (pi site : Nat),
     let p := s.panel
     let q := p.part pi
     let up : Prop := (SMap.find p.parts pi).isSome = true
     (p.ev = [pi, site] → up →
       (siteInPart q site = true → q.halt = false → ∃ t, exec .debugHaltRequest s = .next t ∧ (t.panel.part pi).halt = true ∧ (t.panel.part pi).hReason = 2 ∧
         (t.panel.part pi).hSite = site ∧ (p.now, Instr.haltLineArrival, [pi, site]) ∈ t.panel.agenda ∧ t.panel.cores = p.cores ∧ t.panel.mem = p.mem) ∧
       (siteInPart q site = true → q.halt = true → exec .debugHaltRequest s = .next s) ∧
       (siteInPart q site = true → q.halt = true → site ∉ q.hSites → ∃ t, exec .haltLineArrival s = .next t ∧
         site ∈ (t.panel.part pi).hSites ∧ Memory.readN t.panel.mem (stopArea q site) 64 = p.stopHeader q (coreAtSite p.fabric site) % 2 ^ 512 ∧
         (∀ c, coreAtSite p.fabric site = some c → ∀ i, i < 16 → Memory.readN t.panel.mem (stopArea q site + 64 + 32 * i) 32 = ctxEntry (p.ctx c i) % 2 ^ 256) ∧
         (p.now + 64, Instr.quiesce, [pi, site]) ∈ t.panel.agenda ∧
         ∀ n ∈ nextSites site, siteInPart q n = true → n ∉ q.hSites → ∃ d, (d, Instr.haltLineArrival, [pi, n]) ∈ t.panel.agenda) ∧
       (q.halt = true → site ∈ q.hSites → p.accs = [] → ∃ t, exec .quiesce s = .next t ∧
         (Memory.get t.panel.mem (stopArea q site)).toNat = (Memory.get p.mem (stopArea q site)).toNat ||| 1 ∧ SameBytesBut (stopArea q site) 1 s t)) ∧
     (p.ev = [pi] → up →
       (q.halt = true → q.hReason = 2 ∨ q.hReason = 4 → q.queues = [] → q.copies = [] → p.blocks = [] → p.clusters = [] → ∃ t, exec .haltRelease s = .next t ∧
         (t.panel.part pi).halt = false ∧ t.panel.cores = p.cores ∧ t.panel.mem = p.mem) ∧
       (q.hReason = 1 ∨ q.hReason = 3 → exec .haltRelease s = .next s) ∧
       (∀ tag b, q.halt = true → q.hReason = 1 ∨ q.hReason = 3 → q.queues = [] → p.launches = [] → p.blocks = [(tag, b)] → b.part = pi → b.st = .resident → b.fused = false → p.accs = [] →
         ∃ t, exec .debugReset s = .next t ∧ (t.panel.part pi).halt = false ∧ (t.panel.block tag).st = .ended ∧ t.panel.mem = p.mem ∧
           ∀ c ∈ blockCores b, ∀ slot, slot < 16 → (t.panel.ctx c slot).btag ≠ tag ∨ (t.panel.ctx c slot).st = .empty) ∧
       (q.hReason = 2 ∨ q.hReason = 4 → exec .debugReset s = .next s)) ∧
     (∀ lc slot v, p.ev = [lc, slot, v] →
       ((p.part (partOf p lc)).halt = true → siteOf p.fabric lc ∈ (p.part (partOf p lc)).hSites → (p.ctx lc slot).st ≠ .empty →
         exec .replayLatchLoad s = s.to (p.updCtx lc slot fun c => { c with replay := some (BitVec.ofNat 64 v) })) ∧
       ((p.part (partOf p lc)).halt = false → exec .replayLatchLoad s = .next s))) ∧
  (∀ (s : State) (pi asid va code : Nat) (e : Tlb) (l : L2Line),
     let p := s.panel
     let x := p.part pi
     let pa := e.pfn * 65536 + (va - e.vpn * 65536)
     let line := pa / 64
     let o := pa % 64
     let sc := homeSlice x line
     p.ev = [pi, asid, va, code] → va % 4 = 0 → regionOf va = .paged → (SMap.find p.parts pi).isSome = true → p.walk pi asid (va / 65536) = .ok e → region pa = 0 →
     (p.slice sc).tagBad = false → (p.slice sc).mshr = [] → (p.slice sc).ing = [] → (p.slice sc).vc = [] → SMap.find (p.slice sc).soft line = none → l2Find (p.slice sc) line = some l → l.key = e.key → l.poison = false → p.routeLine line = none → p.watched line = none →
     ∃ t, exec .debugStore s = .next t ∧ t.panel.mem = p.mem ∧
       l2Find (t.panel.slice sc) line = some { l with data := lineWrite l.data o 4 (bf l.data.toNat (8 * o + 31) (8 * o + 31) * 2 ^ 31 + 0x07000900 + code % 256), dirty := true } ∧
       ∀ c, ∀ y ∈ (t.panel.core c).l1i, y.part = pi → y.pline ≠ line ∧ (y.asid = asid → y.vline ≠ va / 64))

/-- Route blocks (R478-R480): the scheduler refuses a block that breaks its table with status 1 and adopts nothing, and adopts a good one whole with
status 0; a class of an interface takes the new route once nothing of it is in flight; a window of link counts turns TWOPHASE on and off for AUTO. -/
def Obligations.RouteEvents : Prop :=
  ∀ (s : State) (pi : Nat) (d0 d1 d2 d3 d4 : L2Line),
    let p := s.panel
    let q := p.part pi
    let line := q.base * 2 ^ 25
    let w (d : L2Line) : Nat := d.data.toNat
    let l0 := w d0
    let table := w d1 + w d2 * 2 ^ 512 + w d3 * 2 ^ 1024 + w d4 * 2 ^ 1536
    let held (k : Nat) (d : L2Line) : Prop := (p.slice (homeSlice q (line + k))).tagBad = false ∧ (p.slice (homeSlice q (line + k))).mshr = [] ∧
      (p.slice (homeSlice q (line + k))).ing = [] ∧ (p.slice (homeSlice q (line + k))).vc = [] ∧ SMap.find (p.slice (homeSlice q (line + k))).soft (line + k) = none ∧
      l2Find (p.slice (homeSlice q (line + k))) (line + k) = some d ∧ d.key = 0 ∧ d.poison = false
    let status (t : State) (v : Nat) : Prop :=
      l2Find (t.panel.slice (homeSlice q line)) line = some { d0 with data := lineWrite d0.data 7 1 v, dirty := true }
    (p.ev = [pi] → q.count ≠ 0 → q.schedHalted = false → held 0 d0 → held 1 d1 → held 2 d2 → held 3 d3 → held 4 d4 →
      (routeBad q l0 table = true → ∃ t, exec .routeCommit s = .next t ∧ status t 1 ∧ t.panel.parts = p.parts ∧ t.panel.mem = p.mem) ∧
      (routeBad q l0 table = false → ∃ t, exec .routeCommit s = .next t ∧ status t 0 ∧ t.panel.mem = p.mem ∧
        let r := t.panel.part pi
        r.modes = [bf l0 7 0, bf l0 15 8, bf l0 23 16, bf l0 31 24] ∧ r.thresh = bf l0 39 32 ∧ r.hyst = bf l0 47 40 ∧ r.seed = bf l0 191 128 ∧
          ∀ c, c < 256 → SMap.find r.table c = some (bf table (8 * c + 7) (8 * c)))) ∧
    (∀ lc c, p.ev = [lc, c] → (SMap.find (p.core lc).route c).isSome = true →
      (p.inFlight lc c = true → exec .routeAdopt s = s.to (p.later 1 .routeAdopt [lc, c])) ∧
      (p.inFlight lc c = false → ∃ t, exec .routeAdopt s = .next t ∧ SMap.find (t.panel.core lc).route c = none ∧ t.panel.mem = p.mem)) ∧
    (∀ m a, p.ev = [pi, m, a] → q.schedHalted = false → (SMap.find p.parts pi).isSome = true →
      (q.thresh * a < 16 * m → ∃ t, exec .autoWindow s = .next t ∧ (t.panel.part pi).autoOn = true) ∧
      (16 * m ≤ q.thresh * a → 16 * m < q.hyst * a → ∃ t, exec .autoWindow s = .next t ∧ (t.panel.part pi).autoOn = false) ∧
      (16 * m ≤ q.thresh * a → q.hyst * a ≤ 16 * m → exec .autoWindow s = .next s))

/-- Checkpoints (R485-R488): a period's end asks every core of the partition that holds anything for one and sets the next; a core that may take it saves
its replayable threads as they stand, in its stake area and in no other byte of memory, and acknowledges what it consumed; an acknowledgement takes
from the sender's log exactly the packets it covers. -/
def Obligations.CheckpointEvents : Prop :=
  ∀ (s : State) (pi lc : Nat),
    let p := s.panel
    let q := p.part pi
    let k := p.core lc
    (p.ev = [pi] → q.ckEn = true → q.period ≠ 0 → q.ckNext ≤ p.now → ∃ t, exec .checkpointPeriodExpiry s = .next t ∧
      (t.panel.part pi).ckNext = p.now + 65536 * q.period ∧ (p.now + 65536 * q.period, Instr.checkpointPeriodExpiry, [pi]) ∈ t.panel.agenda ∧
      (∀ e ∈ p.cores, inPart q e.1 = true → (t.panel.core e.1).ckptReq = true) ∧ t.panel.mem = p.mem) ∧
    (p.ev = [lc] → k.ckptReq = true → Memory.wf p.mem = true →
      ((p.part (partOf p lc)).ckEn = true → p.ckptOk lc = true → ∃ t, exec .checkpoint s = .next t ∧
        let y := t.panel.core lc
        y.stakeValid = true ∧ y.ckptReq = false ∧ y.foreign = false ∧ y.dirty = [] ∧ y.stakeFe = k.fe ∧ y.stakeSeqIn = k.seqIn ∧
          (∀ slot c, SMap.find k.ctxs slot = some c → c.st ≠ .empty → c.btag ∈ p.replayTags lc → SMap.find y.stakeCtxs slot = some c) ∧
          (∀ e ∈ k.seqIn, ∃ d, (d, Instr.checkpointAck, [e.1, lc, e.2 - 1]) ∈ t.panel.agenda) ∧
          SameBytesBut ((p.part (partOf p lc)).stkBase * 2 ^ 30 + sliceOrd (p.part (partOf p lc)) lc * 2 ^ 20) (2 ^ 20) s t) ∧
      ((p.part (partOf p lc)).ckEn = true → p.ckptOk lc = false → exec .checkpoint s = s.to (p.later 1 .checkpoint [lc]))) ∧
    (∀ dst n, p.ev = [lc, dst, n] → ∃ t, exec .checkpointAck s = .next t ∧ t.panel.mem = p.mem ∧
      ∀ l, l ∈ (t.panel.core lc).log ↔ (l ∈ k.log ∧ ¬ (l.dst = dst ∧ l.seq ≤ n)))

/-- Failures (R18-R20, R119, R482-R485): a fault report and two heartbeats missed in a row raise a containment event; containment fences the site, and
with a spare the cluster's entry names the bye-stake and the core is in service again, without one the core's launches end with status 8 and the core
is out of service; each is reported; in a halted partition it waits. -/
def Obligations.FailureEvents : Prop :=
  ∀ (s : State) (site lc : Nat),
    let p := s.panel
    let f := p.fabric
    let cl := clusterOf lc
    let w := cword f cl
    (coreAtSite f site = some lc → lc ∉ f.events → (p.core lc).failed = false →
      (p.ev = [site, 1] → exec .siteFault s = s.to { p with fabric := { f with events := f.events ++ [lc] } }) ∧
      (p.ev = [site, 2] → exec .siteFault s = s.to { p with fabric := { f with events := f.events ++ [lc], badRouter := f.badRouter ++ [site] } }) ∧
      (p.ev = [site, 0] → ∃ t, exec .siteFault s = .next t ∧ t.panel.fabric = { f with silent := f.silent ++ [site] } ∧ t.panel.cores = p.cores)) ∧
    (∀ d n, p.ev = [site] → (coreAtSite f site).isSome = true → site ∉ f.silent → (d, n) ∈ neighbours site →
      (n ∈ f.silent → coreAtSite f n = some lc → ∃ t, exec .heartbeat s = .next t ∧ SMap.getD t.panel.fabric.missed (site * 4 + d) 0 = SMap.getD f.missed (site * 4 + d) 0 + 1 ∧
        (SMap.getD f.missed (site * 4 + d) 0 = 1 → lc ∈ t.panel.fabric.events ∨ (p.core lc).failed = true)) ∧
      (n ∉ f.silent → ∃ t, exec .heartbeat s = .next t ∧ SMap.getD t.panel.fabric.missed (site * 4 + d) 0 = 0)) ∧
    (∀ ok, p.ev = [lc, ok] → lc ∈ f.events → (p.part (partOf p lc)).halt = true → exec .containment s = s.to (p.later 64 .containment [lc, ok])) ∧
    (p.ev = [lc, 1] → f.events = [lc] → (p.part (partOf p lc)).halt = false → spareFree f lc = true → siteOf f lc ∉ f.badRouter → (p.slice lc).tagBad = false → p.blocks = [] →
      (∀ e ∈ p.cores, e.2.log = [] ∧ e.2.fifo = [] ∧ e.2.net = []) →
      ∃ t, exec .containment s = .next t ∧ t.panel.fabric.events = [] ∧ siteOf f lc ∈ t.panel.fabric.fenced ∧ (t.panel.core lc).failed = false ∧
        cword t.panel.fabric cl = putBits (putBits w (8 + coreK lc) (8 + coreK lc) 1) 7 4 (8 + coreK lc) ∧ ∃ x, (⟨2, 0x8202, partOf p lc :: 0 :: x⟩ : Report) ∈ t.panel.reports) ∧
    (∀ tag b l, p.ev = [lc, 0] → f.events = [lc] → (p.part (partOf p lc)).halt = false → p.blocks = [(tag, b)] → b.st = .resident → lc ∈ blockCores b →
      SMap.find p.launches b.launch = some l → l.st = .placed → siteOf f lc ∉ f.badRouter → (p.slice lc).tagBad = false → (p.core lc).fifo = [] → (p.core lc).net = [] →
      ∃ t, exec .containment s = .next t ∧ (t.panel.core lc).failed = true ∧ (t.panel.launch b.launch).st = .ended ∧ (t.panel.launch b.launch).status = 8 ∧
        (t.panel.block tag).st = .ended ∧ ∃ x, (⟨2, 0x8202, partOf p lc :: 2 :: x⟩ : Report) ∈ t.panel.reports)

/-- Svasum links and weight broadcasts (R491-R496): a good frame advances the sequence number, a bad one counts a retry, the ninth retrains the link; a
frame for another panel leaves through the port that the table names for it and enters no core; training brings a link up or marks it down, and an
offer of another major version that does not reach down to 1 fails; a shard is written under the plan's key and sent to every child; one that fails or
does not come is asked for again, and missing after three requests. -/
def Obligations.LinkEvents : Prop :=
  ∀ (s : State) (n : Nat),
    let p := s.panel
    let x := SMap.getD p.svasum n {}
    let port (i : Instr) (ok : Port → Prop) : Prop := ∃ t, exec i s = .next t ∧ ok (SMap.getD t.panel.svasum n {}) ∧ t.panel.mem = p.mem
    (∀ ok, p.ev = [n, ok] → n < 32 → x.up = true → x.training = false →
      (ok ≠ 0 → port .svasumFrame fun y => y = { x with retries := 0, rxSeq := (x.rxSeq + 1) % 2 ^ 32 }) ∧
      (ok = 0 → x.retries < 8 → port .svasumFrame fun y => y = { x with retries := x.retries + 1 }) ∧
      (ok = 0 → 8 ≤ x.retries → port .svasumFrame fun y => y = { x with retries := 0, training := true })) ∧
    (∀ ok to_ out, p.ev = [n, ok, to_] → n < 32 → x.up = true → x.training = false → ok ≠ 0 → to_ ≠ p.panelId → p.portTo to_ = some out →
      ∃ t, exec .svasumFrame s = .next t ∧ t.panel.outbox = p.outbox ++ [.frame out to_] ∧ t.panel.cores = p.cores ∧ t.panel.mem = p.mem ∧
        SMap.getD t.panel.svasum n {} = { x with retries := 0, rxSeq := (x.rxSeq + 1) % 2 ^ 32 }) ∧
    (∀ ok other, p.ev = [n, ok, other] → n < 32 → s.front.assigned.isSome = true →
      (ok ≠ 0 → other ≠ p.panelId → port .svasumTraining fun y => y.up = true ∧ y.training = false) ∧
      (ok = 0 ∨ other = p.panelId → port .svasumTraining fun y => y.up = false ∧ y.training = false ∧ y.reported = true)) ∧
    (∀ other o, p.ev = [n, 1, other, o] → n < 32 → s.front.assigned.isSome = true → other ≠ p.panelId → o ≠ 0 →
      (bf o 7 0 = 0 ∨ 1 < bf o 15 8 → port .svasumTraining fun y => y.up = false ∧ y.agreed = none ∧ y.reported = true) ∧
      (bf o 7 0 = 1 → bf o 15 8 ≤ 1 → port .svasumTraining fun y => y.up = true ∧ y.agreed = some (1, 0, 0)) ∧
      (1 < bf o 7 0 → bf o 15 8 ≤ 1 → port .svasumTraining fun y => y.up = true ∧ y.agreed = some (1, 0, 0))) ∧
    (∀ z i, p.planOf n = some z → z.isReader = false → z.started = true → i < z.nshard → z.present = [] → z.missing = [] →
      (∀ v l, p.ev = [n, z.gen, i, 1, v] → 1 < z.nshard → z.shlen = 64 →
        let line := (z.dest + i * 64) / 64
        let sc := homeSlice (p.part z.part) line
        (p.slice sc).tagBad = false → (p.slice sc).mshr = [] → (p.slice sc).ing = [] → (p.slice sc).vc = [] → SMap.find (p.slice sc).soft line = none → l2Find (p.slice sc) line = some l → l.key = z.key → p.routeLine line = none → p.watched line = none →
        ∃ t, exec .weightShardArrival s = .next t ∧ t.panel.planOf n = some { z with present := [i] } ∧ (∀ c, c < 32 → bt z.child c = true → Out.shard c n z.gen i [v] ∈ t.panel.outbox) ∧
          l2Find (t.panel.slice sc) line = some { l with data := BitVec.ofNat 512 v, dirty := true, poison := false }) ∧
      (∀ e ev, (e, ev) ∈ [(Instr.weightShardArrival, [n, z.gen, i, 0]), (.shardTimeout, [n, i])] → p.ev = ev →
        (SMap.getD z.tries i 0 < 3 → ∃ t, exec e s = .next t ∧ t.panel.planOf n = some { z with tries := SMap.set z.tries i (SMap.getD z.tries i 0 + 1) } ∧
          t.panel.outbox = p.outbox ++ [.shardAsk z.parent n z.gen i] ∧ t.panel.mem = p.mem) ∧
        (3 ≤ SMap.getD z.tries i 0 → z.nshard = 1 → ∃ t, exec e s = .next t ∧ t.panel.planOf n = none ∧ t.panel.reports = p.reports ++ [⟨2, 0x8206, [n, z.gen, 2 ^ i]⟩] ∧
          t.panel.mem = p.mem)))

/-- Queues (R418-R422, R437, R446-R448): a well-formed control block is enabled and idle, a malformed one is not; a disabled queue is unmapped and parses
nothing; Schedule unmaps an idle queue and maps it again with the TAIL of its block; a control write moves TAIL, wakes (an idle queue with packets to
parse reads them, a waiting one tests its packet), acknowledges an error, or cancels; a bad TAIL is queue error 5. A queue is unmapped after the
control writes that its slice has forwarded. No request waits at a slice. -/
def Obligations.QueueEvents : Prop :=
  ∀ (s : State) (pi qi : Nat), s.panel.SlicesIdle →
    let p := s.panel
    let x := p.part pi
    let q := p.queueOf pi qi
    let rest (i : Instr) (ok : Queue → Prop) : Prop := ∃ t, exec i s = .next t ∧ ok (t.panel.queueOf pi qi)
    let here : Prop := (SMap.find x.queues qi).isSome = true ∧ q.mapped = true ∧ x.halt = false ∧ p.launches = []
    (∀ ro mu : L2Line, p.ev = [pi, qi] → qi < 1024 → (SMap.find p.parts pi).isSome = true → q.state = 0 → x.halt = false → mappedCount x < 64 →
      let w := (SMap.getD x.qtab qi 0).toNat
      let qcb := bf w 51 7 * 128
      let held (k : Nat) (d : L2Line) : Prop := (p.slice (homeSlice x (qcb / 64 + k))).tagBad = false ∧ SMap.find (p.slice (homeSlice x (qcb / 64 + k))).soft (qcb / 64 + k) = none ∧
        l2Find (p.slice (homeSlice x (qcb / 64 + k))) (qcb / 64 + k) = some d ∧ d.key = 0 ∧ d.poison = false
      bt w 63 = true → inHbm x qcb = true → inHbm x (qcb + 127) = true → held 0 ro → held 1 mu →
      (halfBad pi ro.data.toNat = true → ∃ t, exec .queueEnable s = .next t ∧ t.panel.parts = p.parts ∧ t.panel.mem = p.mem) ∧
      (halfBad pi ro.data.toNat = false → bf mu.data.toNat 63 32 = bf mu.data.toNat 31 0 → bf mu.data.toNat 31 0 < 2 ^ bf ro.data.toNat 100 96 →
        bf mu.data.toNat 31 0 % 16 = 0 → rest .queueEnable fun r => r = { queueFrom qcb ro.data.toNat mu.data.toNat with last := p.now })) ∧
    (p.ev = [pi, qi] → here → q.state ≠ 0 → p.forwarded pi qi = false → rest .queueDisable fun r => r.state = 0 ∧ r.mapped = false ∧ r.buf = []) ∧
    (p.ev = [pi, qi] → here →
      (mayUnmap x q = true → p.forwarded pi qi = false → rest .queueUnmap fun r => r = { q with mapped := false, buf := [] }) ∧
      (mayUnmap x q = true → p.forwarded pi qi = true → exec .queueUnmap s = s.to (p.once 1 .queueUnmap [pi, qi])) ∧
      (mayUnmap x q = false → exec .queueUnmap s = .next s)) ∧
    (∀ d y, p.ev = [pi, qi] → (SMap.find x.queues qi).isSome = true → q.mapped = false → q.state = 1 ∨ q.state = 3 → q.pcancel = false → q.perrack = false → mappedCount x < 64 →
      p.engineRead x (q.qcb / 64 + 1) 0 = .ok (d, y) → y.parts = p.parts → bt d.toNat 67 = false →
      ∃ t, exec .queueRemap s = .next t ∧ t.panel.queueOf pi qi = { q with mapped := true, tail := bf d.toNat 63 32, last := p.now } ∧
        (q.state = 3 → ∃ e, (e, Instr.queueWaitRetest, [pi, qi]) ∈ t.panel.agenda)) ∧
    (∀ v, p.ev = [pi, qi, v] → here → q.state = 1 → q.levels.length = 1 → v < 2 ^ 32 →
      (v % 16 ≠ 0 ∨ 2 ^ q.rlog2 ≤ v → rest .qcbTailWrite fun r => r.state = 4 ∧ r.lerr = 5 ∧ r.tail = v) ∧
      (v % 16 = 0 → v < 2 ^ q.rlog2 → v = q.ring.pos → rest .qcbTailWrite fun r => r = { q with tail := v })) ∧
    (p.ev = [pi, qi] → here → q.tail % 16 = 0 → q.tail < 2 ^ q.rlog2 → q.tail = q.ring.pos →
      (q.state = 1 → exec .qcbWakeWrite s = .next s ∧ exec .qcbErrackWrite s = .next s ∧ exec .qcbCancelWrite s = .next s) ∧
      (q.state = 4 → rest .qcbErrackWrite fun r => r = { q with state := 1, last := p.now })) ∧
    (∀ l, p.ev = [pi, qi] → here → q.state = 1 → q.tail % 16 = 0 → q.tail < 2 ^ q.rlog2 → q.levels = [l] → l.len = 2 ^ q.rlog2 → l.pos < l.len → l.loop = none → l.pos ≠ q.tail →
      q.fpage = none → q.buf = [] → ∃ t, exec .qcbWakeWrite s = .next t ∧ t.panel.queueOf pi qi = { q with state := 2, last := p.now } ∧
        ∃ d, (d, Instr.fetchAheadRead, [pi, qi, (l.va + l.pos) / 64]) ∈ t.panel.agenda) ∧
    (∀ t f n v, p.ev = [pi, qi] → here → q.state = 3 → q.tail % 16 = 0 → q.tail < 2 ^ q.rlog2 → q.next = .pkt t f n v → ∃ u, exec .qcbWakeWrite s = .next u ∧
      (∃ d, (d, pktEvent t, [pi, qi]) ∈ u.panel.agenda) ∧ u.panel.parts = p.parts) ∧
    (∀ l y, p.ev = [pi, qi] → (SMap.find x.queues qi).isSome = true → q.mapped = true → p.launches = [(l, y)] → y.part = pi → y.queue = qi → y.st = .placing → p.blocks = [] →
      ∃ t, exec .qcbCancelWrite s = .next t ∧ (t.panel.launch l).st = .ended ∧ (t.panel.launch l).status = 9) ∧
    (∀ t f n v, p.ev = [pi, qi] → q.state = 3 → q.mapped = true → q.next = .pkt t f n v → ∃ u, exec .queueWaitRetest s = .next u ∧
      (∃ d, (d, pktEvent t, [pi, qi]) ∈ u.panel.agenda) ∧ (∃ d, (d, Instr.queueWaitRetest, [pi, qi]) ∈ u.panel.agenda) ∧ u.panel.parts = p.parts)

/-- Packets (R423-R429): the last packet of the ring is processed and leaves the queue idle with HEAD at TAIL, unless it opens a buffer or waits; PRED,
WAITSIG and SIGNAL read their word, SIGNAL stores its value; INDIRECT opens its buffer, RETURN leaves it, LOOP opens its body; a packet whose fields
break its table is queue error 1; a COPY goes to the engines and moves its bytes. -/
def Obligations.PacketResults : Prop :=
  ∀ (s : State) (pi qi typ f n v : Nat) (q : Queue) (l : Level), s.panel.SlicesIdle →
    let p := s.panel
    let x := p.part pi
    let va := bf v 127 64
    let fin := (l.pos + n) % l.len
    let rest (i : Instr) (ok : State → Queue → Prop) : Prop := ∃ t, exec i s = .next t ∧ ok t (t.panel.queueOf pi qi)
    let idle (i : Instr) : Prop := rest i fun _ r => r.state = 1 ∧ r.ring.pos = q.tail ∧ r.tail = q.tail
    p.ev = [pi, qi] → SMap.find x.queues qi = some q → x.schedHalted = false → q.mapped = true → q.fpage = none → q.state = 2 → q.next = .pkt typ f n v → p.launches = [] → x.copies = [] →
    (∀ l0, typ = 5 → bf v 127 32 = 0 → q.levels = [l0, l] → l0.loop = none → l.loop = none → l.pos = q.tail →
      rest .returnPacket fun _ r => r.state = 1 ∧ r.levels = [l] ∧ r.tail = q.tail ∧ r.buf = q.buf.filter (·.1 != 1)) ∧
    (∀ l0, typ = 5 → bf v 127 32 = 0 → q.levels = [l0, l] → l0.loop.isSome = true → l.loop = none → rest .returnPacket fun _ r => r.state = 4 ∧ r.lerr = 1) ∧
    (q.levels = [l] → l.loop = none → l.skip = 0 → (∀ u ∈ q.buf, u.1 = 0) → fin = q.tail →
    (typ = 1 → idle .nopPacket) ∧
    (typ = 10 → bf v 127 32 = 0 → idle .fetchfence) ∧
    (typ = 11 → bf v 63 32 = 0 → rest .weightsel fun _ r => r.wsel = va ∧ r.state = 1 ∧ r.ring.pos = q.tail) ∧
    (typ = 5 → bf v 127 32 = 0 → rest .returnPacket fun _ r => r.state = 4 ∧ r.lerr = 1) ∧
    (typ = 4 → bf v 35 32 = 0 → 0 < bf v 63 32 → bf v 63 32 ≤ 65536 → bf v 67 64 = 0 → regionOf va = .paged →
      rest .indirect fun t r => r.levels = [{ va := va, len := bf v 63 32, pos := 0 }, { l with pos := fin }] ∧ r.state = 2 ∧
        ∃ d, (d, Instr.fetchAheadRead, [pi, qi, va / 64]) ∈ t.panel.agenda) ∧
    (typ = 4 → bf v 63 32 = 0 → rest .indirect fun _ r => r.state = 4 ∧ r.lerr = 1) ∧
    (typ = 7 → bf v 63 56 = 0 → 0 < bf v 55 48 → bf v 127 64 = 0 → rest .loopPacket fun _ r =>
      r.levels = [{ l with pos := fin, loop := some (fin, bf v 55 48, bf v 55 48, bf v 47 32) }] ∧ r.state = 2) ∧
    (∀ w y, p.frontRead pi q.asid q.priv none va 8 = .ok w y → y.parts = p.parts → y.SlicesIdle →
      (typ = 6 → bf v 63 43 = 0 → 0 < bf v 39 32 → bt v 42 = false → bf v 66 64 = 0 → sigTest (bf v 41 40) w (bf v 191 128) (bf v 255 192) = true → idle .pred) ∧
      (typ = 6 → bf v 63 43 = 0 → 0 < bf v 39 32 → bt v 42 = false → bf v 66 64 = 0 → sigTest (bf v 41 40) w (bf v 191 128) (bf v 255 192) = false →
        rest .pred fun _ r => r.levels = [{ l with pos := fin, skip := bf v 39 32 }] ∧ r.state = 1) ∧
      (typ = 9 → bf v 63 35 = 0 → bt v 34 = false → bf v 66 64 = 0 → sigTest (bf v 33 32) w (bf v 191 128) (bf v 255 192) = true → idle .waitsig) ∧
      (typ = 9 → bf v 63 35 = 0 → bt v 34 = false → bf v 66 64 = 0 → sigTest (bf v 33 32) w (bf v 191 128) (bf v 255 192) = false →
        rest .waitsig fun _ r => r.state = 3 ∧ r.levels = [l])) ∧
    (∀ w z y, typ = 8 → bf v 63 33 = 0 → bf v 255 192 = 0 → (if bt v 32 then p.frontRead pi q.asid q.priv none va 8 = .ok w z ∧ z.parts = p.parts else z = p) →
      z.frontWrite pi q.asid q.priv va 8 (if bt v 32 then (w + bf v 191 128) % 2 ^ 64 else bf v 191 128) = .ok 0 y → y.parts = p.parts → y.SlicesIdle →
      rest .signal fun t r => r.state = 1 ∧ r.ring.pos = q.tail ∧ (bt f 1 = true → Out.msix 0 (2 + pi) ∈ t.panel.outbox ∧ Out.msix 1 (2 + pi) ∈ t.panel.outbox)) ∧
    (typ = 12 → bf v 63 32 = 0 → bt q.eng 3 = false → rest .copyPacket fun _ r => r.state = 4 ∧ r.lerr = 6) ∧
    (typ = 12 → bf v 63 32 = 0 → bt q.eng 3 = true → (SMap.find p.parts pi).isSome = true → rest .copyPacket fun t r => r.state = 1 ∧
      SMap.find (t.panel.part pi).copies p.nid = some { queue := qi, src := va, dst := bf v 191 128, len := bf v 255 192, asid := q.asid, priv := q.priv } ∧
      (p.now + 1, Instr.copyComplete, [pi, p.nid]) ∈ t.panel.agenda))

/-- Launch packets (R427, R428, R431, R443): a launch that passes its checks is added in packet order with its queue's next number; one that a check stops
ends with that check's status and has its record written; a range task joins the huddle, one with nothing to do retires at once; a copy moves its
bytes and ends; the units of a line that Parse wants enter the fetch-ahead buffer, unless they make a bad packet. -/
def Obligations.LaunchPackets : Prop :=
  ∀ (s : State) (pi qi typ f n v : Nat) (q : Queue) (l : Level), s.panel.SlicesIdle →
    let p := s.panel
    let x := p.part pi
    let desc := bf v 127 64
    let rest (i : Instr) (ok : State → Queue → Prop) : Prop := ∃ t, exec i s = .next t ∧ ok t (t.panel.queueOf pi qi)
    SMap.find x.queues qi = some q → x.schedHalted = false → q.mapped = true → q.fpage = none → q.state = 2 → q.levels = [l] → l.skip = 0 →
    (∀ d0 d z0 z, p.ev = [pi, qi] → q.next = .pkt typ f n v → bt f 0 = false → p.frontRead pi q.asid q.priv none desc 64 = .ok d0 z0 →
      z0.frontRead pi q.asid q.priv none desc (64 + 32 * min 8 (bf d0 127 124)) = .ok d z → z.parts = p.parts → z.SlicesIdle →
      bf v 63 32 = 0 → compBad (bf v 255 192) = false →
      let y (range : Option (Nat × Nat × Nat)) : Launch := launchOf pi qi q d (bf v 191 128) (bf v 255 192) range
      let check (range : Option (Nat × Nat × Nat)) : Except (Nat × Nat × Nat) (List Ws) := launchCheck z.fabric x q.eng (desc % 64 == 0) d (y range)
      let r : Nat × Nat × Nat := (bf v 319 256, bf v 383 320, bf v 447 384)
      (∀ ws, typ = 2 → check none = .ok ws → rest .launchPacket fun t k => k.lseq = q.lseq + 1 ∧
        SMap.find t.panel.launches z.nid = some { y none with ws := ws, strict := ws.any (·.strict) }) ∧
      (∀ st det a, typ = 2 → check none = .error (st, det, a) → rest .launchPacket fun t k => k.lseq = q.lseq + 1 ∧
        SMap.find t.panel.launches z.nid = some { y none with st := .ended, status := st, detail := det, addr := a } ∧
        (z.now + 1, Instr.completionRecordWrite, [z.nid]) ∈ t.panel.agenda) ∧
      (∀ ws, typ = 3 → bf v 447 384 ≠ 0 → bf v 511 448 = 0 → x.huddle.length < 256 → check (some r) = .ok ws →
        (r.1 < r.2.1 → rest .launchrange fun t k => k.lseq = q.lseq + 1 ∧ (t.panel.part pi).huddle = x.huddle ++ [z.nid] ∧
          SMap.find t.panel.launches z.nid = some { y (some r) with ws := ws, strict := ws.any (·.strict) }) ∧
        (r.2.1 ≤ r.1 → rest .launchrange fun t k => k.lseq = q.lseq + 1 ∧ (t.panel.launch z.nid).st = .retired ∧ (t.panel.part pi).huddle = x.huddle ∧
          (z.now + 1, Instr.completionRecordWrite, [z.nid]) ∈ t.panel.agenda))) ∧
    (∀ line d z, p.ev = [pi, qi, line] → p.frontRead pi q.asid q.priv (some q.keyid) (64 * line) 64 = .ok d z → z.parts = p.parts → z.SlicesIdle → q.wanted line 0 l ≠ [] →
      rest .fetchAheadRead fun _ k => k.state = 4 ∨ ∀ w ∈ q.wanted line 0 l, (w.1, w.2, bf d (8 * (w.2 - 64 * line) + 127) (8 * (w.2 - 64 * line))) ∈ k.buf) ∧
    (∀ i c d z y, p.ev = [pi, i] → SMap.find x.copies i = some c → c.fpage = none → c.done < c.len →
      let m := min (c.len - c.done) (min (64 - (c.src + c.done) % 64) (64 - (c.dst + c.done) % 64))
      p.frontRead pi c.asid c.priv none (c.src + c.done) m = .ok d z → z.frontWrite pi c.asid c.priv (c.dst + c.done) m d = .ok 0 y → y.parts = p.parts →
      (c.len = c.done + m → ∃ t, exec .copyComplete s = .next t ∧ SMap.find (t.panel.part pi).copies i = none ∧ t.panel.mem = y.mem ∧ t.panel.slices = y.slices) ∧
      (c.done + m < c.len → ∃ t, exec .copyComplete s = .next t ∧ SMap.find (t.panel.part pi).copies i = some { c with done := c.done + m } ∧ t.panel.mem = y.mem ∧ t.panel.slices = y.slices))

/-- Launches on their way (R161, R430, R432-R437, R441, R442): the launch whose turn it is is admitted with its lease pinned, or ends with NOT_MAPPED when
a page refuses it; with its ranges staged it is placed; a launch that is over, with no access left, has its record written and counted once; a charge
is taken from its budget, and one that it cannot bear lowers its blocks a class. -/
def Obligations.LaunchEvents : Prop :=
  ∀ (s : State) (pi id : Nat) (l : Launch), s.panel.SlicesIdle →
    let p := s.panel
    let x := p.part pi
    let pages := ((List.range l.ws.length).zip l.ws).flatMap fun e => (pagesFrom e.2.va e.2.len).map fun g => (e.1, g, e.2.access)
    let q := p.queueOf pi l.queue
    SMap.find p.launches id = some l → l.part = pi →
    (p.ev = [pi, id] → x.schedHalted = false → p.nextAdmit pi = some id → l.rpage = none → q.wsel = 0 → l.st = .parsed →
      (∀ r, p.leaseScan id pages = (.ok, r) → ∃ t, exec .admission s = .next t ∧ t.panel.mem = r.mem ∧
        let y := t.panel.launch id
        y.st = .staging ∧ y.ws = l.ws ∧ y.admittedAt = p.now ∧ y.rpage = none ∧ y.wsel = 0 ∧ ∀ e ∈ pages, e.2.1 ∈ y.lease) ∧
      (∀ i r, p.leaseScan id pages = (.unmapped i, r) → p.blocks = [] → ∃ t, exec .admission s = .next t ∧ (t.panel.launch id).st = .ended ∧ (t.panel.launch id).status = 3 ∧
        (t.panel.launch id).detail = i) ∧
      (∀ g r, p.leaseScan id pages = (.fault g, r) → ∃ t, exec .admission s = .next t ∧ (t.panel.launch id).rpage = some g ∧ (l.asid, g) ∈ (t.panel.part pi).faults)) ∧
    (p.ev = [id] → l.st = .staging → l.range = none →
      ((∀ e ∈ p.clusters, ∀ y ∈ e.2.stage, y.launch ≠ id ∨ y.core ≠ 0) →
        exec .stagingComplete s = s.to (p.updLaunch id fun y => { y with st := if l.blocks ≤ l.nextBlock then .placed else .placing })) ∧
      ((∃ e ∈ p.clusters, ∃ y ∈ e.2.stage, y.launch = id ∧ y.core = 0) → exec .stagingComplete s = .next s)) ∧
    (p.ev = [id] → l.st = .retired ∨ l.st = .ended → l.recorded = false → l.rpage = none → x.deferred = [] → (SMap.find x.queues l.queue).isSome = true →
      (p.launchBusy id = true → exec .completionRecordWrite s = s.to (p.later 1 .completionRecordWrite [id])) ∧
      (∀ y, p.launchBusy id = false → (if l.comp = 0 then y = p else p.frontWrite pi l.asid l.priv l.comp 32 (recordWord l) = .ok 0 y ∧ y.parts = p.parts ∧ y.launches = p.launches ∧ y.SlicesIdle) →
        ∃ t, exec .completionRecordWrite s = .next t ∧ (t.panel.launch id).recorded = true ∧ (t.panel.launch id).lease = [] ∧
          (t.panel.queueOf pi l.queue).ndone = q.ndone + 1 ∧ (t.panel.queueOf pi l.queue).nerr = if l.status = 0 then q.nerr else q.nerr + 1)) ∧
    (p.ev = [pi] → p.launches = [(id, l)] →
      let sum := p.counted id + l.carry
      (l.budget = 0 ∨ l.live = false → ∃ t, exec .energyCharge s = .next t ∧ t.panel.launch id = { l with used := l.used + sum / 1000000, carry := sum % 1000000 } ∧ t.panel.blocks = p.blocks) ∧
      (l.budget ≠ 0 → l.live = true → sum / 1000000 ≤ l.ebudget → ∃ t, exec .energyCharge s = .next t ∧ t.panel.blocks = p.blocks ∧
        t.panel.launch id = { l with used := l.used + sum / 1000000, carry := sum % 1000000, ebudget := l.ebudget - sum / 1000000 }) ∧
      (l.budget ≠ 0 → l.live = true → l.ebudget < sum / 1000000 → ∃ t, exec .energyCharge s = .next t ∧
        t.panel.launch id = { l with used := l.used + sum / 1000000, carry := sum % 1000000, ebudget := l.budget } ∧ t.panel.mail = (p.mailTo 5 5 [l.seq]).mail ∧
        ∀ tag b, SMap.find p.blocks tag = some b → SMap.find t.panel.blocks tag = some (if b.launch = id then { b with prio := b.prio - 16 } else b)))

/-- Range tasks (R443, R444): a block slot at an origin with room is reserved and its request opens its chiplet's node for 16 cycles, or joins it; a node
closes then, or with its 64th request, and becomes one fetch-and-add; an origin that has asked or holds a slot asks no more; the root hands each
request a piece of the half of what is left, rounded down to whole grains, or all of it. -/
def Obligations.RangeTasks : Prop :=
  ∀ (s : State) (pi id lc : Nat) (l : Launch) (a b grain : Nat),
    let p := s.panel
    let x := p.part pi
    let ch := chipOf lc
    SMap.find p.launches id = some l → l.part = pi → l.st = .placing → l.range = some (a, b, grain) → (SMap.find p.parts pi).isSome = true →
    (p.ev = [id, lc] → x.schedHalted = false → lc ∉ l.asked → (∀ e ∈ l.slots, e.1 ≠ lc) → (p.fitAt l.need [] (cx lc) (cy lc)).isSome = true →
      (SMap.find x.nodes ch = none → ∃ t, exec .huddleRequest s = .next t ∧ SMap.find (t.panel.part pi).nodes ch = some ⟨[(id, lc)], p.now⟩ ∧
        (p.now + 16, Instr.huddleWindowClose, [pi, ch]) ∈ t.panel.agenda ∧ t.panel.launch id = { l with asked := l.asked ++ [lc] } ∧ t.panel.mem = p.mem) ∧
      (∀ nd, SMap.find x.nodes ch = some nd → nd.reqs.length < 63 → ∃ t, exec .huddleRequest s = .next t ∧ SMap.find (t.panel.part pi).nodes ch = some { nd with reqs := nd.reqs ++ [(id, lc)] }) ∧
      (∀ nd, SMap.find x.nodes ch = some nd → 63 ≤ nd.reqs.length → ∃ t, exec .huddleRequest s = .next t ∧ SMap.find (t.panel.part pi).nodes ch = none ∧
        (p.now * 1024 + chipOrd x ch, nd.reqs ++ [(id, lc)]) ∈ (t.panel.part pi).fadds ∧ (p.now + 1, Instr.huddleFetchAdd, [pi]) ∈ t.panel.agenda)) ∧
    (p.ev = [id, lc] → (lc ∈ l.asked ∨ (∃ e ∈ l.slots, e.1 = lc) ∨ p.fitAt l.need [] (cx lc) (cy lc) = none) → exec .huddleRequest s = .next s) ∧
    (∀ nd, p.ev = [pi, ch] → SMap.find x.nodes ch = some nd →
      (nd.opened + 16 ≤ p.now → ∃ t, exec .huddleWindowClose s = .next t ∧ SMap.find (t.panel.part pi).nodes ch = none ∧
        (p.now * 1024 + chipOrd x ch, nd.reqs) ∈ (t.panel.part pi).fadds ∧ (p.now + 1, Instr.huddleFetchAdd, [pi]) ∈ t.panel.agenda) ∧
      (p.now < nd.opened + 16 → exec .huddleWindowClose s = .next s)) ∧
    (∀ k, p.ev = [pi] → x.fadds = [(k, [(id, lc)])] → 0 < grain →
      let h := if 2 * grain ≤ b - a then grain * ((b - a) / grain / 2) else b - a
      (a < b → ∃ t, exec .huddleFetchAdd s = .next t ∧ (t.panel.part pi).fadds = [] ∧ h ≤ b - a ∧ 0 < h ∧
        t.panel.launch id = { l with asked := l.asked.erase lc, range := some (a + h, b, grain), pieces := l.pieces + 1, slots := l.slots ++ [(lc, l.pieces, a, a + h)] }) ∧
      (b ≤ a → ∃ t, exec .huddleFetchAdd s = .next t ∧ (t.panel.part pi).fadds = [] ∧ t.panel.launch id = { l with asked := l.asked.erase lc }))

/-- Bring-up (R14, R17, R138, R511, R512, R516): a failed self-test, two firmware copies that fail, HBM that does not train and a cluster with two failed
sites each stop it in phase 0xFF with their error; otherwise the module is ready in phase 6, with nothing of the run before but the flash, the fuses,
the count of signatures, the sites that ever failed, the cores out of service and the host's windows. A link's training sets its rate and width, and
the host base before READY only. Held reports, power and clocks (R513, R519, R520): a held report goes into the slot that the host has freed; at 20 kW
every chiplet slows a step of 50 MHz, after 64 ms under 19 kW each that is not hot gains one; a chiplet at 95 °C slows; at 110 °C the module trips its
power off and steps no more. -/
def Obligations.BringUpAndPower : Prop :=
  (∀ (s : State),
     let p := s.panel
     let f := s.front
     (∀ failed hbm self_, p.ev = failed ++ [hbm, self_] →
       let xa := f.flash.getD 0 {}
       let xb := f.flash.getD 1 {}
       let a := fwError f xa
       let b := fwError f xb
       let out := (p.fabric.bad ++ failed).eraseDups
       let gone := (f.unserved ++ ((p.cores.filter fun (e : Nat × Core) => e.2.failed).map (·.1))).eraseDups
       let stopped (e : Nat) : Prop := ∃ t, exec .moduleReset s = .next t ∧ t.front.ready = false ∧ t.front.phase = 0xFF ∧ t.front.error = e ∧ t.panel.parts = []
       (self_ = 0 → stopped 6) ∧
       (self_ ≠ 0 → a ≠ 0 → b ≠ 0 → stopped b) ∧
       (self_ ≠ 0 → a = 0 ∨ b = 0 → hbm = 0 → stopped 4) ∧
       (self_ ≠ 0 → a = 0 ∨ b = 0 → hbm ≠ 0 → twoFailed out = true → stopped 5) ∧
       (self_ ≠ 0 → a = 0 ∨ b = 0 → hbm ≠ 0 → twoFailed out = false → ∃ t, exec .moduleReset s = .next t ∧
         t.front.ready = true ∧ t.front.phase = 6 ∧ t.front.error = 0 ∧ t.front.counter = f.counter ∧ t.front.lmsUsed = f.lmsUsed ∧ t.front.flash = f.flash ∧ t.front.version = (if a = 0 then xa.version else xb.version) ∧
         t.front.assigned = none ∧ t.panel.parts = [] ∧ t.front.unserved = gone ∧ (gone = [] → t.panel.cores = []) ∧ (∀ lc ∈ gone, (t.panel.core lc).failed = true) ∧ t.panel.mem = [] ∧ t.panel.keys = [] ∧ t.panel.hbm.tags = [] ∧ t.panel.now = 0 ∧
         t.panel.hostBase = p.hostBase ∧ t.panel.hostLimit = p.hostLimit ∧ t.panel.outbox = [.msix 0 0, .msix 1 0] ∧
         (∀ site ∈ p.fabric.bad, site ∈ t.panel.fabric.bad) ∧ ∀ site ∈ failed, site ∈ t.panel.fabric.bad)) ∧
     (∀ x : FwCopy, fwError f x = 0 ↔ (x.ecdsa = some f.keyEcdsa ∧ x.lms = some f.keyLms ∧ f.counter ≤ x.version)) ∧
     (∀ i g w base lim, i < 2 → p.hostBase.length = 2 → p.hostLimit.length = 2 → p.ev = [i, g, w] ∨ p.ev = [i, g, w, base, lim] →
       ∃ t, exec .pcieLinkTraining s = .next t ∧ (t.front.ep i).gts = g ∧ (t.front.ep i).width = w ∧ t.front.ready = f.ready ∧
         (p.ev = [i, g, w, base, lim] → f.ready = false → t.panel.hostBase.getD i 0 = base ∧ t.panel.hostLimit.getD i 0 = lim) ∧
         (f.ready = true → t.panel = p))) ∧
  (∀ (s : State),
     let p := s.panel
     let f := s.front
     (∀ i h r, p.ev = [i, h] → s.hostOk i = true → (f.ep i).held = [r] → ((f.ep i).rpTail + 1) % 16 ≠ h % 16 →
       ∃ t, exec .rpheadWrite s = .next t ∧ (t.front.ep i).held = [] ∧ SMap.find (t.front.ep i).ring (f.ep i).rpTail = some (r.typ, (f.ep i).rpSeq, r.payload) ∧
         t.panel = { p with outbox := p.outbox ++ [.msix i 1] }) ∧
     (∀ mw, p.ev = [mw] →
       (20000000 ≤ mw → ∃ t, exec .powerWindow s = .next t ∧ t.panel = p ∧ ∀ c, c < 256 → SMap.getD t.front.clock c 0 = min (SMap.getD f.clock c 0 + 1) 20) ∧
       (mw < 19000000 → f.cool < 15 → exec .powerWindow s = .next { s with front := { f with cool := f.cool + 1 } }) ∧
       (mw < 19000000 → 15 ≤ f.cool → ∃ t, exec .powerWindow s = .next t ∧ t.panel = p ∧ t.front.cool = 0 ∧ ∀ c, c < 256 →
         SMap.getD t.front.clock c 0 = if c ∈ f.hot then SMap.getD f.clock c 0 else SMap.getD f.clock c 0 - 1) ∧
       (19000000 ≤ mw → mw < 20000000 → exec .powerWindow s = .next { s with front := { f with cool := 0 } })) ∧
     (∀ c deg, p.ev = [c, deg] →
       (95 ≤ deg ∨ (c ∈ f.hot ∧ 92 ≤ deg) → ∃ t, exec .junctionTemperatureLimit s = .next t ∧ t.panel = p ∧ c ∈ t.front.hot ∧ SMap.getD t.front.clock c 0 = min (SMap.getD f.clock c 0 + 1) 20) ∧
       (deg < 92 ∨ (c ∉ f.hot ∧ deg < 95) → ∃ t, exec .junctionTemperatureLimit s = .next t ∧ t.panel = p ∧ c ∉ t.front.hot ∧ t.front.clock = f.clock) ∧
       (110 ≤ deg → ∃ t, exec .thermalTrip s = .next t ∧ t.panel = p ∧ t.front.off = true ∧ t.front.ready = false ∧ step t = .fault .poweredOff) ∧
       (deg < 110 → exec .thermalTrip s = .next s)))

/-- Partitions and the host's windows (R24, R43, R132, R139, R144, R497): a partition is created of whole chiplets, a range and channels that no other
has, and of nothing else, and its budget, staging threshold and fault control can be written later; a valid peer slot, which stands in the partition's
HBM, too, changes after the partition's translations have gone; raw reads and writes move the stored bytes of a line, an unowned address reads as zero
and unsupported; nothing is written before READY. -/
def Obligations.PartitionsAndWindow : Prop :=
  ∀ (s : State),
    let p := s.panel
    (∀ pi cx0 cy0 wc hc base m chans grant l2b thr, p.ev = pi :: cx0 :: cy0 :: wc :: hc :: base :: m :: (chans ++ [grant, l2b, thr]) → chans.length = m → SMap.find p.parts pi = none →
      let q0 : Partition := { cx0 := cx0, cy0 := cy0, wc := wc, hc := hc, base := base, count := m, chans := chans, grant := grant % 2 ^ 256, l2budget := bf l2b 23 0, stagethr := bf thr 31 0 }
      let q := if wc = 16 ∧ hc = 16 then { q0 with base := 0, count := 1536, chans := wholeChans } else q0
      (wc = 16 → hc = 16 → ∀ j, j < 1536 → q.chans[j]? = some (j % 48 * 32 + j / 48)) ∧
      (s.front.ready = true → pi < 16 → partOk p q = true → ∃ t, exec .partitionCreate s = .next t ∧ SMap.find t.panel.parts pi = some q ∧ t.front = s.front ∧ t.panel.mem = p.mem) ∧
      (s.front.ready = false ∨ 16 ≤ pi ∨ partOk p q = false → exec .partitionCreate s = .next s)) ∧
    (∀ pi cx0 cy0 wc hc base m chans grant l2b thr pf x, p.ev = pi :: cx0 :: cy0 :: wc :: hc :: base :: m :: (chans ++ [grant, l2b, thr, pf]) → chans.length = m → SMap.find p.parts pi = some x →
      s.front.ready = true → ∃ t, exec .partitionCreate s = .next t ∧ t.panel.mem = p.mem ∧
        SMap.find t.panel.parts pi = some { x with l2budget := bf l2b 23 0, stagethr := bf thr 31 0, dbgarm := bt pf 63, yieldDl := bf pf 55 32, parkLimit := bf pf 31 0 }) ∧
    (∀ pi i v, p.ev = [pi, i, v] → i < 4096 → (SMap.find p.parts pi).isSome = true →
      let old := SMap.getD (p.part pi).peers i 0
      let new : W := BitVec.ofNat 64 (v / 2 ^ 20 * 2 ^ 20)
      ∃ t, exec .peerTableWrite s = .next t ∧ SMap.find (t.panel.part pi).peers i = some new ∧ Memory.readN t.panel.mem (parkBase (p.part pi) - 40960 + 8 * i) 8 = new.toNat ∧
        SameBytesBut (parkBase (p.part pi) - 40960 + 8 * i) 8 s t ∧
        (old.getLsbD 63 = true → old ≠ new → ∀ c, ∀ e ∈ (t.panel.cluster c).tlb, e.part ≠ pi)) ∧
    (∀ i x n, p.ev = [i, x, n] → i < 2 → (s.front.ep i).width ≠ 0 → 0 < n → x % 64 + n ≤ 64 →
      (s.front.ready = false → exec .hostBar2Read s = .next { s with front := { s.front with barRead := some (toBytes n 0, false, false) } }) ∧
      (s.front.ready = true → hbmSize ≤ x / 64 * 64 → exec .hostBar2Read s = .next { s with front := { s.front with barRead := some (toBytes n 0, false, true) } }) ∧
      (s.front.ready = true → x / 64 * 64 < hbmSize → partOfHbm p (64 * (x / 64)) = none → x / 64 ∉ p.hbm.poison → SMap.find p.hbm.soft (x / 64) = none → frameTag p.hbm (x / 64 / 1024) = 0 →
        exec .hostBar2Read s = .next { s with front := { s.front with barRead := some (Memory.bytes p.mem x n, false, false) } })) ∧
    (∀ i x n v, p.ev = [i, x, n, v] → i < 2 → (s.front.ep i).width ≠ 0 → 0 < n → x % 64 + n ≤ 64 →
      (s.front.ready = false → exec .hostBar2Write s = .next s) ∧
      (s.front.ready = true → hbmSize ≤ x / 64 * 64 → exec .hostBar2Write s = .next s) ∧
      (s.front.ready = true → x / 64 * 64 < hbmSize → partOfHbm p (64 * (x / 64)) = none → frameTag p.hbm (x / 64 / 1024) = 0 →
        ∃ t, exec .hostBar2Write s = .next t ∧ Memory.readN t.panel.mem x n = v % 2 ^ (8 * n) ∧ SameBytesBut x n s t))

/-- The host mailbox (R136, R493, R499, R500, R513-R518): the host's first entry is its offer, which the versions are agreed from; a request of another
major version is refused; each other takes its slot, has its effect or its refusal, and is answered with its status and length in the next slot of the
report ring; a freed slot takes a held report. The host fills slots and writes RQTAIL, which is ignored when it would pass RQHEAD, and requests are
taken in ring order. -/
def Obligations.MailboxResults : Prop :=
  ∀ (s : State) (i rid : Nat),
    let p := s.panel
    let f := s.front
    let e := f.ep i
    let said (x : Instr) (typ status n : Nat) (ok : State → Prop) : Prop := ∃ t, exec x s = .next t ∧ ok t ∧
      SMap.find (t.front.ep i).ring e.rpTail = some (0x8000, e.rpSeq, [rid, typ, status, n]) ∧ (t.front.ep i).rpTail = (e.rpTail + 1) % 16 ∧
      (t.front.ep i).rqHead = (e.rqHead + 1) % 16 ∧ Out.msix i 1 ∈ t.panel.outbox
    let kept (t : State) : Prop := t.panel = { p with outbox := p.outbox ++ [.msix i 1] } ∧ t.front.lmsUsed = f.lmsUsed ∧ t.front.counter = f.counter ∧ t.front.assigned = f.assigned ∧ t.front.dma = f.dma
    let all : List Instr := [.attest, .pubkey, .keyload, .keyclear, .counter, .panelSet, .wbPlan, .wbStart, .partReset]
    let head := SMap.getD e.reqs e.rqHead 0
    s.hostOk i = true →
    (p.reports = [] → e.held = [] → e.room = true → e.rqTail = e.rqHead →
    (∀ typ, p.ev = [i, rid, typ] → typ < 0x100 ∨ 0x108 < typ → said .reservedMailboxRequest typ 2 0 kept) ∧
    (∀ typ maj, p.ev = [i, rid, typ, maj] → typ < 0x100 ∨ 0x108 < typ → maj ≠ e.version / 16 → said .reservedMailboxRequest typ 1 0 kept) ∧
    (∀ maj o, p.ev = [i, rid, 0, maj, o] → e.rqCount = 0 → ∃ t, exec .reservedMailboxRequest s = .next t ∧ t.panel = p ∧ (t.front.ep i).rqHead = (e.rqHead + 1) % 16 ∧
      (t.front.ep i).agreed = agreeOn ownOffer o) ∧
    (∀ nonce buf len, p.ev = [i, rid, nonce, buf, len] →
      let b := attestBody f nonce ++ Config.ecdsa (attestBody f nonce)
      let bs := b ++ Config.lms f.lmsUsed b
      (2 ^ 30 ≤ f.lmsUsed → said .attest 0x100 3 0 kept) ∧
      (f.lmsUsed < 2 ^ 30 → len < bs.length → said .attest 0x100 2 0 kept) ∧
      (f.lmsUsed < 2 ^ 30 → bs.length ≤ len → said .attest 0x100 0 bs.length fun t => t.front.lmsUsed = f.lmsUsed + 1 ∧ t.front.dma = f.dma ++ [(i, buf, bs)])) ∧
    (∀ buf len, p.ev = [i, rid, buf, len] →
      (len < Config.publicKeys.length → said .pubkey 0x101 2 0 kept) ∧
      (Config.publicKeys.length ≤ len → said .pubkey 0x101 0 Config.publicKeys.length fun t => t.front.dma = f.dma ++ [(i, buf, Config.publicKeys)])) ∧
    (∀ k ok k1 k2, p.ev = [i, rid, k, ok, k1, k2] →
      (k = 0 ∨ 255 < k → said .keyload 0x102 2 0 kept) ∧
      (0 < k → k ≤ 255 → keyFree p k = false ∨ ok = 0 → said .keyload 0x102 1 0 kept) ∧
      (0 < k → k ≤ 255 → keyFree p k = true → ok ≠ 0 → said .keyload 0x102 0 0 fun t => SMap.find t.panel.keys k = some ⟨k1 % 2 ^ 256, k2 % 2 ^ 256⟩ ∧
        ∀ j, j ≠ k → SMap.find t.panel.keys j = SMap.find p.keys j)) ∧
    (∀ k, p.ev = [i, rid, k] →
      (k = 0 ∨ 255 < k → said .keyclear 0x103 2 0 kept) ∧
      (0 < k → k ≤ 255 → keyFree p k = false → said .keyclear 0x103 1 0 kept) ∧
      (0 < k → k ≤ 255 → keyFree p k = true → said .keyclear 0x103 0 0 fun t => SMap.find t.panel.keys k = none)) ∧
    (∀ v, p.ev = [i, rid, v] →
      (v < f.counter ∨ f.version < v → said .counter 0x104 1 0 kept) ∧
      (f.counter ≤ v → v ≤ f.version → said .counter 0x104 0 0 fun t => t.front.counter = v) ∧
      (2 ^ 19 ≤ v → said .panelSet 0x105 2 0 kept) ∧
      (v < 2 ^ 19 → f.assigned.isSome = true → said .panelSet 0x105 1 0 kept) ∧
      (v < 2 ^ 19 → f.assigned = none → said .panelSet 0x105 0 0 fun t => t.front.assigned = some v ∧ t.panel.panelId = v) ∧
      ((p.part v).halt = false → said .partReset 0x108 1 0 kept)) ∧
    (∀ pi, p.ev = [i, rid, pi] → (p.part pi).halt = true → (p.part pi).queues = [] → p.launches = [] → p.blocks = [] → said .partReset 0x108 0 0 fun t => (t.panel.part pi).halt = false) ∧
    (∀ o, p.ev = [i, rid, o] →
      (p.parts.find? (fun (x : Nat × Partition) => inHbm x.2 o) = none → said .wbPlan 0x106 2 0 kept) ∧
      (∀ j q v y z, p.parts.find? (fun (x : Nat × Partition) => inHbm x.2 o) = some (j, q) → ownBytes q (splitLines id (fun _ => 0) 129 o 0 128) 0 p = (some v, y) → y.reports = [] →
        (planRead y v = none → said .wbPlan 0x106 2 0 fun t => t.panel.plans = y.plans) ∧
        (planRead y v = some z → z.part = j → z.isReader = true → said .wbPlan 0x106 0 0 fun t => t.panel.plans = (y.plans.filter fun x => x.setid != z.setid) ++ [z]))) ∧
    (∀ setid gen, p.ev = [i, rid, setid, gen] →
      (p.planOf setid = none → said .wbStart 0x107 1 0 kept) ∧
      (∀ x ls y z, p.planOf setid = some x → x.gen = gen → x.isReader = true → x.started = false → x.nshard = 1 → x.missing = [] →
        shardLines (p.part x.part) x 0 p = (some ls, y) → (((y.toChildren x 0 ls).setPlan { x with started := true, present := [0] }).frontWrite x.part x.asid true x.descva 64 x.desc = .ok 0 z) →
        z.outbox = (y.toChildren x 0 ls).outbox → z.reports = [] →
        ∃ t, exec .wbStart s = .next t ∧ ∀ c, c < 32 → bt x.child c = true → Out.shard c setid gen 0 ls ∈ t.panel.outbox)) ∧
    (∀ h, p.ev = [i, h] → exec .rpheadWrite s = .next { s with front := f.updEp i fun y => { y with rpHead := h % 16 } })) ∧
    (∀ x ∈ all, p.ev.head? = some i → e.rqTail ≠ e.rqHead → (e.rqTail + 1) % 16 ≠ e.rqHead → ∃ t, exec x s = .next t ∧ t.panel = p ∧
      (t.front.ep i).rqTail = (e.rqTail + 1) % 16 ∧ (t.front.ep i).rqHead = e.rqHead ∧ ∀ k, k ≠ e.rqTail → SMap.find (t.front.ep i).reqs k = SMap.find e.reqs k) ∧
    (∀ x ∈ all, p.ev.head? = some i → e.rqTail ≠ e.rqHead → (e.rqTail + 1) % 16 = e.rqHead → ∃ t, exec x s = .next t ∧ t.panel = p ∧ t.front.ep i = e) ∧
    (∀ x ∈ all, p.ev.head? = some (i + 2) → e.rqTail = e.rqHead → exec x s = .next s) ∧
    (∀ pi, p.ev = [i + 2, rid, pi] → e.rqTail = (e.rqHead + 1) % 16 → bf head 15 0 = 0x108 → bf head 23 20 = e.version / 16 → bf head 47 32 = rid → bf head 71 64 = pi →
      (p.part pi).halt = false → p.reports = [] → e.held = [] → e.room = true → said .partReset 0x108 1 0 kept) ∧
    (∀ k w v, k < 16 → w < 8 → p.ev = [i, 0x1000 + 64 * k + 8 * w, 8, v, 1] → ∃ t, exec .hostBar2Write s = .next t ∧ t.panel = p ∧
      t.front.bar0Word i (0x1000 + 64 * k + 8 * w) = v % 2 ^ 64 ∧ ∀ j, j ≠ k → SMap.find (t.front.ep i).reqs j = SMap.find e.reqs j) ∧
    (∀ v, p.ev = [i, 0x100, 8, v, 1] → e.rqTail < 16 → e.rqHead < 16 →
      let far := (v % 16 + 16 - e.rqTail) % 16 + (e.rqTail + 16 - e.rqHead) % 16
      (16 ≤ far → ∃ t, exec .hostBar2Write s = .next t ∧ t.panel = p ∧ t.front.ep i = e) ∧
      (far < 16 → ∃ t, exec .hostBar2Write s = .next t ∧ (t.front.ep i).rqTail = v % 16 ∧ (t.front.ep i).rqHead = e.rqHead ∧ (t.front.ep i).reqs = e.reqs ∧
        (e.rqTail = e.rqHead → v % 16 ≠ e.rqHead → bf head 15 0 = 0x108 → bf head 23 20 = e.version / 16 →
          (p.now + 1, Instr.partReset, [i + 2, bf head 47 32, bf head 71 64]) ∈ t.panel.agenda)))

/-- A step issues the bundle at the pc (R211, R251-R253, R275, R450): where the next turn is the issue of the slot that its core chooses, its trap list is
empty, its pc is legal, its words are in its instruction cache or replay latch and decode to a bundle whose registers are free, the step executes the
bundle's instruction with its gap begun and settles the result; in a pair the C-word comes first, and the A-word, whose sources are those of the
bundle, after it; a trap of either leaves neither with an effect, and an EXIT has its effect last; what the A-word overwrote is kept for a trap of the
C-word that comes later. Words that are no bundle trap, the A-word named where it is at fault (R252, R452). -/
def Obligations.StepRunsDecoded : Prop :=
  ∀ (s : State) (lc slot : Nat) (w w2 : BitVec 32) (ts : List Turn),
    let p := s.panel.landDiv lc slot
    let c := p.ctx lc slot
    let s0 : State := { s with panel := p, turns := ts }
    s.front.off = false → s.turns = .issue lc slot :: ts → s.panel.pick lc = some slot → c.pend = [] → (∀ a ∈ p.accsOf lc slot, a.waits = false) → badTarget c.pc = none → p.codeCheck lc slot = p → p.fetch lc slot = some (w, w2) →
    (∀ i t, decodeBundle c.pc.toNat w w2 = .ok (.lone i) → p.scoreboard lc slot (usesOfBundle (.lone i)) = .none →
      exec i { s0 with panel := p.begin_ lc slot 4 (w.zeroExtend 64) } = .next t → step s = .next (s0.commit lc slot t)) ∧
    (∀ x a t u v, decodeBundle c.pc.toNat w w2 = .ok (.pair x a) → p.scoreboard lc slot (usesOfBundle (.pair x a)) = .none →
      let s1 : State := { s0 with panel := p.begin_ lc slot 8 (w.zeroExtend 64) }
      exec x s1 = .next t → exec a (s1.aword w2 none) = .next u → exec a (t.aword w2 (some (s1.panel.ctx lc slot, s1.panel.mem))) = .next v →
      (x ≠ .exit → t.ended = true → step s = .next (s0.commit lc slot t)) ∧
      (x ≠ .exit → t.ended = false → u.ended = true → step s = .next (s0.commit lc slot u)) ∧
      (x ≠ .exit → t.ended = false → u.ended = false →
        step s = .next (s0.commit lc slot (State.leaveNow { v with panel := v.panel.keepUndo t.panel lc slot p.nid }))) ∧
      (x = .exit → retrying (t.panel.ctx lc slot) = false → step s = .next (s0.commit lc slot (if u.ended then u else { u with panel := u.panel.endThread })))) ∧
    (∀ e tv, decodeBundle c.pc.toNat w w2 = .error (e, tv) → step s = .next (s0.bundleTrap lc slot (decodeCause e) (BitVec.ofNat 64 tv) (awordError w w2 e tv)))

/-- What commits (R211, R225, R488): a bundle that does not stall leaves the state that its instruction gave, its gang in step, and counts as an event;
one that waits for a condition leaves the machine as it was, but for its stall. Turns that are not issues (R224, R226): an event of the table is
performed with its operands and settles; a word is no event; a blocked thread whose queue has an entry takes it and goes on; a mailbox's owner takes
its oldest entry (R416); with nothing to do a cycle passes. -/
def Obligations.OtherStepEffects : Prop :=
  (∀ (s t : State) (lc slot : Nat),
     let c := t.panel.ctx lc slot
     (t.panel.cur.stalled = false → (s.panel.core lc).log = [] → s.commit lc slot t = ({ t with panel := t.panel.gangSync slot c.gang } : State).settle) ∧
     (∀ n, t.panel.cur.stalled = true → c.stall = .retry n → s.commit lc slot t = { s with panel := s.panel.updCtx lc slot fun x => { x with st := .stall, stall := .retry s.panel.evs } })) ∧
  (∀ (s : State) (ts : List Turn),
     let p := s.panel
     s.front.off = false →
     (∀ e args t, s.turns = .event e args :: ts → encode e = none → p.stops e args = false → exec e { s with turns := ts, panel := { p with ev := args } } = .next t → step s = .next t.settle) ∧
     (∀ e args, s.turns = .event e args :: ts → (encode e).isSome = true → step s = .next { s with turns := ts }) ∧
     (∀ lc slot n d v vs, s.turns = .wake lc slot :: ts → p.wakes lc slot = true → (p.ctx lc slot).wake = .qpop n d → p.queue lc (p.ctx lc slot).btag n = v :: vs →
       step s = .next ({ s with turns := ts, panel := ((p.putGAt lc slot d v).popQueue lc (p.ctx lc slot).btag n).ready lc slot } : State).settle) ∧
     (∀ to_ box, s.turns = .mail to_ box :: ts → step s = .next { s with turns := ts, panel := p.mailTake to_ box }) ∧
     (s.turns = .tick :: ts → p.cores = [] → step s = .next { s with turns := ts, panel := { p with now := p.now + 1 } }) ∧
     (s.turns = [] → p.agenda = [] → p.cores = [] → step s = .next { s with panel := { p with now := p.now + 1 } }))

/-- A step fails in one way only (R520): with the power tripped off it faults; otherwise it gives a next state. Every instruction of the table answers a
next state, and a word of the instruction maps changes the panel alone (R250): neither the front end nor the turns that are to come. -/
def Obligations.StepsAndWordsAnswer : Prop :=
  (∀ s : State,
     (s.front.off = true → step s = .fault .poweredOff) ∧
     (s.front.off = false → ∃ t, step s = .next t)) ∧
  (∀ (i : Instr) (s : State), ∃ t, exec i s = .next t ∧ ((encode i).isSome = true → t.front = s.front ∧ t.turns = s.turns))

/-- Right after reset (R7, R98, R512): no partition, no block, no thread; every byte of memory zero, which is the model's choice (log 1, log 21); phase 0,
not ready; every queue empty; the front end's invariant holds. -/
def Obligations.ResetState : Prop :=
  let s := State.reset
  s.panel.parts = [] ∧ s.panel.blocks = [] ∧ s.panel.cores = [] ∧ s.panel.now = 0 ∧ (∀ a, Memory.get s.panel.mem a = 0) ∧ Memory.wf s.panel.mem = true ∧
    (∀ lc slot, (s.panel.ctx lc slot).st = .empty ∧ ∀ r, (s.panel.ctx lc slot).gr r = 0) ∧
    s.front.phase = 0 ∧ s.front.ready = false ∧ s.front.error = 0 ∧ s.front.off = false ∧ s.front.Inv ∧ Sys2Proof.core.reset = s

/-- Every step keeps what the front end shows consistent (R496, R511, R512, R514, R516, R517, R519): READY only in phase 6, an error only in phase 0xFF;
with READY the security counter never above the running version; at most 2^30 signatures; every clock between 0.5 and 1.5 GHz. -/
def Obligations.FrontStaysConsistent : Prop :=
  ∀ s t : State, s.front.Inv → step s = .next t → t.front.Inv

/-- BREAKPOINT (R472): with DBGARM = 0 it is a class U trap, which goes to TVEC, or with TVEC 0 or at TVEC stops the thread as class F; with DBGARM = 1 it
writes the trap registers, leaves the pc at the bundle and raises the halt line with REASON 4. TPC holds the bundle's address and TVAL the code. -/
def Obligations.Breakpoints : Prop :=
  ∀ (s : State) (code : BitVec 8),
    let p := s.panel
    let q := p.part p.cb.part
    p.isAway = false →
    (q.dbgarm = false → p.cb.trapVec p.now ≠ 0 → p.cc.pc ≠ p.cb.trapVec p.now → ∃ t, exec (.brk code) s = .next t ∧ t.panel.cc.tcause.toNat = 0x10 ∧ t.panel.cc.tpc = p.cc.pc ∧
      t.panel.cc.tval = code.zeroExtend 64 ∧ t.panel.cc.pc = p.cb.trapVec p.now ∧ t.panel.parts = p.parts ∧ t.panel.cc.g = p.cc.g ∧ t.panel.mem = p.mem) ∧
    ((SMap.find p.parts p.cb.part).isSome = true → q.halt = false → q.dbgarm = false → p.cb.trapVec p.now = 0 → ∃ t, exec (.brk code) s = .next t ∧ t.panel.cc.tcause.toNat = 0x210 ∧ t.panel.cc.tpc = p.cc.pc ∧
      t.panel.cc.tval = code.zeroExtend 64 ∧ t.panel.cc.stall = .fatal ∧ (t.panel.part p.cb.part).halt = true ∧ (t.panel.part p.cb.part).hReason = 1) ∧
    ((SMap.find p.parts p.cb.part).isSome = true → q.halt = false → q.dbgarm = true → p.cb.trapVec p.now = 0 ∨ p.cc.pc ≠ p.cb.trapVec p.now → ∃ t, exec (.brk code) s = .next t ∧ t.panel.cc.tcause.toNat = 0x10 ∧ t.panel.cc.tpc = p.cc.pc ∧
      t.panel.cc.tval = code.zeroExtend 64 ∧ t.panel.cc.pc = p.cc.pc ∧ (t.panel.part p.cb.part).halt = true ∧ (t.panel.part p.cb.part).hReason = 4 ∧
      t.panel.cc.g = p.cc.g ∧ t.panel.mem = p.mem)

/-- Traps in the trap routine (R453): a class U trap of a bundle at the address that TVEC holds becomes class F with cause TRAP_LOOP, and one at any other
point overwrites TCAUSE, TPC, TVAL and TSTATE and goes to TVEC. Over every class U cause but BREAKPOINT under DBGARM, for a thread at home and for one
that its trap brought home. -/
def Obligations.TrapLoop : Prop :=
  ∀ (p t : Panel) (cause : Nat) (tval : W) (aword away : Bool),
    let q := p.part p.cb.part
    (away = false ∧ p.isAway = false ∧ aword = p.cur.aword ∧ t = p.trap cause tval) ∨
      (away = true ∧ t = pendHome p p.cur.core p.cur.slot ⟨cause, tval, false, aword⟩) →
    cause < 0x20 → (cause = 0x10 → q.dbgarm = false) → p.cb.trapVec p.now ≠ 0 →
    (p.cc.pc = p.cb.trapVec p.now → (SMap.find p.parts p.cb.part).isSome = true → q.halt = false →
      t.cc.tcause.toNat = 0x237 ∧ t.cc.tpc = p.cc.pc ∧ t.cc.tval = tval ∧ t.cc.st = .stall ∧ t.cc.stall = .fatal ∧
        (t.part p.cb.part).halt = true ∧ (t.part p.cb.part).hReason = 1 ∧ (t.part p.cb.part).hCause = 0x37) ∧
    (p.cc.pc ≠ p.cb.trapVec p.now →
      t.cc.tcause.toNat = cause ∧ t.cc.tpc = p.cc.pc ∧ t.cc.tval = tval ∧
        t.cc.tstate.toNat = b2n away * 16 + b2n (p.cc.gang != []) * 8 + b2n (p.slevelOf p.cc) * 4 + b2n aword * 2 ∧
        t.cc.pc = p.cb.trapVec p.now ∧ t.cc.g = p.cc.g ∧ t.cc.m = p.cc.m ∧ t.cc.sh = p.cc.sh ∧ t.mem = p.mem ∧ t.parts = p.parts)

/-- LOOP (R284): its word; it writes a − 1, wrapping from 0, and jumps to b unless that is 0, so that LOOP g0, b always jumps; paired with an A-word that
writes the counter register it is illegal. -/
def Obligations.LoopInstruction : Prop :=
  ∀ (s : State) (a b : Reg),
    let p := s.panel
    let c := p.gv a - 1
    let w : BitVec 32 := BitVec.ofNat 32 (0x07000300 + a.toNat * 2 ^ 16 + b.toNat * 2 ^ 12)
    encode (.loop a b) = some w ∧ decodeWord w = .ok (.loop a b) ∧
    (c = 0 → exec (.loop a b) s = s.puts a 0) ∧
    (c ≠ 0 → Target (p.gv b) → exec (.loop a b) s = s.to ((p.putG a c).goto (p.gv b))) ∧
    (c ≠ 0 → (p.gv b).toNat % 4 ≠ 0 → exec (.loop a b) s = s.to (p.trap 0x02 (p.gv b))) ∧
    (c ≠ 0 → (p.gv b).toNat % 4 = 0 → ¬ Target (p.gv b) → exec (.loop a b) s = s.to (p.trap 0x03 (p.gv b))) ∧
    (p.gv a = 0 → c = BitVec.allOnes 64) ∧
    (Target (p.gv b) → exec (.loop 0 b) s = s.to (p.goto (p.gv b))) ∧
    (∀ pc w2 i, pc % 8 = 0 → w2.getLsbD 31 = false → w2.getLsbD 30 = true → decodeWord w2 = .ok i → a ≠ 0 → sameDest (Instr.loop a b).dest i.dest = true →
      decodeBundle pc (w ||| 0x80000000) w2 = .error (.sameDest, (w ||| 0x80000000).toNat))
end

