-- ==== Sys2Proof/Laws/State.lean ====
section
/-! SUPPORT. One lemma per field for each named update of the state: what it leaves as it was, and what it writes. -/

namespace Sys2Proof.Machine

/-! ### Contexts -/

@[simp] theorem Ctx.setG_st (c : Ctx) (i : Nat) (v : W) : (c.setG i v).st = c.st := by
  unfold Ctx.setG; split <;> rfl
@[simp] theorem Ctx.setG_pc (c : Ctx) (i : Nat) (v : W) : (c.setG i v).pc = c.pc := by
  unfold Ctx.setG; split <;> rfl
@[simp] theorem Ctx.setG_flags (c : Ctx) (i : Nat) (v : W) : (c.setG i v).flags = c.flags := by
  unfold Ctx.setG; split <;> rfl
@[simp] theorem Ctx.setG_rmode (c : Ctx) (i : Nat) (v : W) : (c.setG i v).rmode = c.rmode := by
  unfold Ctx.setG; split <;> rfl
@[simp] theorem Ctx.setG_m (c : Ctx) (i : Nat) (v : W) : (c.setG i v).m = c.m := by
  unfold Ctx.setG; split <;> rfl
@[simp] theorem Ctx.setG_sh (c : Ctx) (i : Nat) (v : W) : (c.setG i v).sh = c.sh := by
  unfold Ctx.setG; split <;> rfl
@[simp] theorem Ctx.setG_vv (c : Ctx) (i : Nat) (v : W) : (c.setG i v).vv = c.vv := by
  unfold Ctx.setG; split <;> rfl
@[simp] theorem Ctx.setG_tv (c : Ctx) (i : Nat) (v : W) : (c.setG i v).tv = c.tv := by
  unfold Ctx.setG; split <;> rfl
@[simp] theorem Ctx.setG_av (c : Ctx) (i : Nat) (v : W) : (c.setG i v).av = c.av := by
  unfold Ctx.setG; split <;> rfl
@[simp] theorem Ctx.setG_thread (c : Ctx) (i : Nat) (v : W) : (c.setG i v).thread = c.thread := by
  unfold Ctx.setG; split <;> rfl
@[simp] theorem Ctx.setG_ord (c : Ctx) (i : Nat) (v : W) : (c.setG i v).ord = c.ord := by
  unfold Ctx.setG; split <;> rfl
@[simp] theorem Ctx.setG_btag (c : Ctx) (i : Nat) (v : W) : (c.setG i v).btag = c.btag := by
  unfold Ctx.setG; split <;> rfl
@[simp] theorem Ctx.setG_bx (c : Ctx) (i : Nat) (v : W) : (c.setG i v).bx = c.bx := by
  unfold Ctx.setG; split <;> rfl
@[simp] theorem Ctx.setG_by_ (c : Ctx) (i : Nat) (v : W) : (c.setG i v).by_ = c.by_ := by
  unfold Ctx.setG; split <;> rfl
@[simp] theorem Ctx.setG_rsBase (c : Ctx) (i : Nat) (v : W) : (c.setG i v).rsBase = c.rsBase := by
  unfold Ctx.setG; split <;> rfl
@[simp] theorem Ctx.setG_rsSize (c : Ctx) (i : Nat) (v : W) : (c.setG i v).rsSize = c.rsSize := by
  unfold Ctx.setG; split <;> rfl
@[simp] theorem Ctx.setG_tcause (c : Ctx) (i : Nat) (v : W) : (c.setG i v).tcause = c.tcause := by
  unfold Ctx.setG; split <;> rfl
@[simp] theorem Ctx.setG_tpc (c : Ctx) (i : Nat) (v : W) : (c.setG i v).tpc = c.tpc := by
  unfold Ctx.setG; split <;> rfl
@[simp] theorem Ctx.setG_tval (c : Ctx) (i : Nat) (v : W) : (c.setG i v).tval = c.tval := by
  unfold Ctx.setG; split <;> rfl
@[simp] theorem Ctx.setG_tstate (c : Ctx) (i : Nat) (v : W) : (c.setG i v).tstate = c.tstate := by
  unfold Ctx.setG; split <;> rfl
@[simp] theorem Ctx.setG_ldc (c : Ctx) (i : Nat) (v : W) : (c.setG i v).ldc = c.ldc := by
  unfold Ctx.setG; split <;> rfl
@[simp] theorem Ctx.setG_stc (c : Ctx) (i : Nat) (v : W) : (c.setG i v).stc = c.stc := by
  unfold Ctx.setG; split <;> rfl
@[simp] theorem Ctx.setG_cpc (c : Ctx) (i : Nat) (v : W) : (c.setG i v).cpc = c.cpc := by
  unfold Ctx.setG; split <;> rfl
@[simp] theorem Ctx.setG_tlc (c : Ctx) (i : Nat) (v : W) : (c.setG i v).tlc = c.tlc := by
  unfold Ctx.setG; split <;> rfl
@[simp] theorem Ctx.setG_tracker (c : Ctx) (i : Nat) (v : W) : (c.setG i v).tracker = c.tracker := by
  unfold Ctx.setG; split <;> rfl
@[simp] theorem Ctx.setG_migr (c : Ctx) (i : Nat) (v : W) : (c.setG i v).migr = c.migr := by
  unfold Ctx.setG; split <;> rfl
@[simp] theorem Ctx.setG_arr (c : Ctx) (i : Nat) (v : W) : (c.setG i v).arr = c.arr := by
  unfold Ctx.setG; split <;> rfl
@[simp] theorem Ctx.setG_gang (c : Ctx) (i : Nat) (v : W) : (c.setG i v).gang = c.gang := by
  unfold Ctx.setG; split <;> rfl
@[simp] theorem Ctx.setG_gangStep (c : Ctx) (i : Nat) (v : W) : (c.setG i v).gangStep = c.gangStep := by
  unfold Ctx.setG; split <;> rfl
@[simp] theorem Ctx.setG_stall (c : Ctx) (i : Nat) (v : W) : (c.setG i v).stall = c.stall := by
  unfold Ctx.setG; split <;> rfl
@[simp] theorem Ctx.setG_wake (c : Ctx) (i : Nat) (v : W) : (c.setG i v).wake = c.wake := by
  unfold Ctx.setG; split <;> rfl
@[simp] theorem Ctx.setG_gapUntil (c : Ctx) (i : Nat) (v : W) : (c.setG i v).gapUntil = c.gapUntil := by
  unfold Ctx.setG; split <;> rfl
@[simp] theorem Ctx.setG_since (c : Ctx) (i : Nat) (v : W) : (c.setG i v).since = c.since := by
  unfold Ctx.setG; split <;> rfl
@[simp] theorem Ctx.setG_replay (c : Ctx) (i : Nat) (v : W) : (c.setG i v).replay = c.replay := by
  unfold Ctx.setG; split <;> rfl
@[simp] theorem Ctx.setG_homeCore (c : Ctx) (i : Nat) (v : W) : (c.setG i v).homeCore = c.homeCore := by
  unfold Ctx.setG; split <;> rfl
@[simp] theorem Ctx.setG_homeSlot (c : Ctx) (i : Nat) (v : W) : (c.setG i v).homeSlot = c.homeSlot := by
  unfold Ctx.setG; split <;> rfl
@[simp] theorem Ctx.setG_stored (c : Ctx) (i : Nat) (v : W) : (c.setG i v).stored = c.stored := by
  unfold Ctx.setG; split <;> rfl
@[simp] theorem Ctx.setG_pend (c : Ctx) (i : Nat) (v : W) : (c.setG i v).pend = c.pend := by
  unfold Ctx.setG; split <;> rfl
@[simp] theorem Ctx.setG_div (c : Ctx) (i : Nat) (v : W) : (c.setG i v).div = c.div := by
  unfold Ctx.setG; split <;> rfl
@[simp] theorem Ctx.setG_ckptOk (c : Ctx) (i : Nat) (v : W) : (c.setG i v).ckptOk = c.ckptOk := by
  unfold Ctx.setG; split <;> rfl
@[simp] theorem Ctx.setG_parkedAt (c : Ctx) (i : Nat) (v : W) : (c.setG i v).parkedAt = c.parkedAt := by
  unfold Ctx.setG; split <;> rfl
@[simp] theorem Ctx.setG_undo (c : Ctx) (i : Nat) (v : W) : (c.setG i v).undo = c.undo := by
  unfold Ctx.setG; split <;> rfl
@[simp] theorem Ctx.setG_goes (c : Ctx) (i : Nat) (v : W) : (c.setG i v).goes = c.goes := by
  unfold Ctx.setG; split <;> rfl
@[simp] theorem Ctx.setG_lanesLeft (c : Ctx) (i : Nat) (v : W) : (c.setG i v).lanesLeft = c.lanesLeft := by
  unfold Ctx.setG; split <;> rfl
@[simp] theorem Ctx.setG_user (c : Ctx) (i : Nat) (v : W) : (c.setG i v).user = c.user := by
  unfold Ctx.setG; split <;> rfl
@[simp] theorem Ctx.setG_haccAt (c : Ctx) (i : Nat) (v : W) : (c.setG i v).haccAt = c.haccAt := by
  unfold Ctx.setG; split <;> rfl
@[simp] theorem Ctx.setM_st (c : Ctx) (i : Nat) (v : W) : (c.setM i v).st = c.st := by
  unfold Ctx.setM; split <;> rfl
@[simp] theorem Ctx.setM_g (c : Ctx) (i : Nat) (v : W) : (c.setM i v).g = c.g := by
  unfold Ctx.setM; split <;> rfl
@[simp] theorem Ctx.setM_pc (c : Ctx) (i : Nat) (v : W) : (c.setM i v).pc = c.pc := by
  unfold Ctx.setM; split <;> rfl
@[simp] theorem Ctx.setM_flags (c : Ctx) (i : Nat) (v : W) : (c.setM i v).flags = c.flags := by
  unfold Ctx.setM; split <;> rfl
@[simp] theorem Ctx.setM_rmode (c : Ctx) (i : Nat) (v : W) : (c.setM i v).rmode = c.rmode := by
  unfold Ctx.setM; split <;> rfl
@[simp] theorem Ctx.setM_sh (c : Ctx) (i : Nat) (v : W) : (c.setM i v).sh = c.sh := by
  unfold Ctx.setM; split <;> rfl
@[simp] theorem Ctx.setM_vv (c : Ctx) (i : Nat) (v : W) : (c.setM i v).vv = c.vv := by
  unfold Ctx.setM; split <;> rfl
@[simp] theorem Ctx.setM_tv (c : Ctx) (i : Nat) (v : W) : (c.setM i v).tv = c.tv := by
  unfold Ctx.setM; split <;> rfl
@[simp] theorem Ctx.setM_av (c : Ctx) (i : Nat) (v : W) : (c.setM i v).av = c.av := by
  unfold Ctx.setM; split <;> rfl
@[simp] theorem Ctx.setM_thread (c : Ctx) (i : Nat) (v : W) : (c.setM i v).thread = c.thread := by
  unfold Ctx.setM; split <;> rfl
@[simp] theorem Ctx.setM_ord (c : Ctx) (i : Nat) (v : W) : (c.setM i v).ord = c.ord := by
  unfold Ctx.setM; split <;> rfl
@[simp] theorem Ctx.setM_btag (c : Ctx) (i : Nat) (v : W) : (c.setM i v).btag = c.btag := by
  unfold Ctx.setM; split <;> rfl
@[simp] theorem Ctx.setM_bx (c : Ctx) (i : Nat) (v : W) : (c.setM i v).bx = c.bx := by
  unfold Ctx.setM; split <;> rfl
@[simp] theorem Ctx.setM_by_ (c : Ctx) (i : Nat) (v : W) : (c.setM i v).by_ = c.by_ := by
  unfold Ctx.setM; split <;> rfl
@[simp] theorem Ctx.setM_rsBase (c : Ctx) (i : Nat) (v : W) : (c.setM i v).rsBase = c.rsBase := by
  unfold Ctx.setM; split <;> rfl
@[simp] theorem Ctx.setM_rsSize (c : Ctx) (i : Nat) (v : W) : (c.setM i v).rsSize = c.rsSize := by
  unfold Ctx.setM; split <;> rfl
@[simp] theorem Ctx.setM_tcause (c : Ctx) (i : Nat) (v : W) : (c.setM i v).tcause = c.tcause := by
  unfold Ctx.setM; split <;> rfl
@[simp] theorem Ctx.setM_tpc (c : Ctx) (i : Nat) (v : W) : (c.setM i v).tpc = c.tpc := by
  unfold Ctx.setM; split <;> rfl
@[simp] theorem Ctx.setM_tval (c : Ctx) (i : Nat) (v : W) : (c.setM i v).tval = c.tval := by
  unfold Ctx.setM; split <;> rfl
@[simp] theorem Ctx.setM_tstate (c : Ctx) (i : Nat) (v : W) : (c.setM i v).tstate = c.tstate := by
  unfold Ctx.setM; split <;> rfl
@[simp] theorem Ctx.setM_ldc (c : Ctx) (i : Nat) (v : W) : (c.setM i v).ldc = c.ldc := by
  unfold Ctx.setM; split <;> rfl
@[simp] theorem Ctx.setM_stc (c : Ctx) (i : Nat) (v : W) : (c.setM i v).stc = c.stc := by
  unfold Ctx.setM; split <;> rfl
@[simp] theorem Ctx.setM_cpc (c : Ctx) (i : Nat) (v : W) : (c.setM i v).cpc = c.cpc := by
  unfold Ctx.setM; split <;> rfl
@[simp] theorem Ctx.setM_tlc (c : Ctx) (i : Nat) (v : W) : (c.setM i v).tlc = c.tlc := by
  unfold Ctx.setM; split <;> rfl
@[simp] theorem Ctx.setM_tracker (c : Ctx) (i : Nat) (v : W) : (c.setM i v).tracker = c.tracker := by
  unfold Ctx.setM; split <;> rfl
@[simp] theorem Ctx.setM_migr (c : Ctx) (i : Nat) (v : W) : (c.setM i v).migr = c.migr := by
  unfold Ctx.setM; split <;> rfl
@[simp] theorem Ctx.setM_arr (c : Ctx) (i : Nat) (v : W) : (c.setM i v).arr = c.arr := by
  unfold Ctx.setM; split <;> rfl
@[simp] theorem Ctx.setM_gang (c : Ctx) (i : Nat) (v : W) : (c.setM i v).gang = c.gang := by
  unfold Ctx.setM; split <;> rfl
@[simp] theorem Ctx.setM_gangStep (c : Ctx) (i : Nat) (v : W) : (c.setM i v).gangStep = c.gangStep := by
  unfold Ctx.setM; split <;> rfl
@[simp] theorem Ctx.setM_stall (c : Ctx) (i : Nat) (v : W) : (c.setM i v).stall = c.stall := by
  unfold Ctx.setM; split <;> rfl
@[simp] theorem Ctx.setM_wake (c : Ctx) (i : Nat) (v : W) : (c.setM i v).wake = c.wake := by
  unfold Ctx.setM; split <;> rfl
@[simp] theorem Ctx.setM_gapUntil (c : Ctx) (i : Nat) (v : W) : (c.setM i v).gapUntil = c.gapUntil := by
  unfold Ctx.setM; split <;> rfl
@[simp] theorem Ctx.setM_since (c : Ctx) (i : Nat) (v : W) : (c.setM i v).since = c.since := by
  unfold Ctx.setM; split <;> rfl
@[simp] theorem Ctx.setM_replay (c : Ctx) (i : Nat) (v : W) : (c.setM i v).replay = c.replay := by
  unfold Ctx.setM; split <;> rfl
@[simp] theorem Ctx.setM_homeCore (c : Ctx) (i : Nat) (v : W) : (c.setM i v).homeCore = c.homeCore := by
  unfold Ctx.setM; split <;> rfl
@[simp] theorem Ctx.setM_homeSlot (c : Ctx) (i : Nat) (v : W) : (c.setM i v).homeSlot = c.homeSlot := by
  unfold Ctx.setM; split <;> rfl
@[simp] theorem Ctx.setM_stored (c : Ctx) (i : Nat) (v : W) : (c.setM i v).stored = c.stored := by
  unfold Ctx.setM; split <;> rfl
@[simp] theorem Ctx.setM_pend (c : Ctx) (i : Nat) (v : W) : (c.setM i v).pend = c.pend := by
  unfold Ctx.setM; split <;> rfl
@[simp] theorem Ctx.setM_div (c : Ctx) (i : Nat) (v : W) : (c.setM i v).div = c.div := by
  unfold Ctx.setM; split <;> rfl
@[simp] theorem Ctx.setM_ckptOk (c : Ctx) (i : Nat) (v : W) : (c.setM i v).ckptOk = c.ckptOk := by
  unfold Ctx.setM; split <;> rfl
@[simp] theorem Ctx.setM_parkedAt (c : Ctx) (i : Nat) (v : W) : (c.setM i v).parkedAt = c.parkedAt := by
  unfold Ctx.setM; split <;> rfl
@[simp] theorem Ctx.setM_undo (c : Ctx) (i : Nat) (v : W) : (c.setM i v).undo = c.undo := by
  unfold Ctx.setM; split <;> rfl
@[simp] theorem Ctx.setM_goes (c : Ctx) (i : Nat) (v : W) : (c.setM i v).goes = c.goes := by
  unfold Ctx.setM; split <;> rfl
@[simp] theorem Ctx.setM_lanesLeft (c : Ctx) (i : Nat) (v : W) : (c.setM i v).lanesLeft = c.lanesLeft := by
  unfold Ctx.setM; split <;> rfl
@[simp] theorem Ctx.setM_user (c : Ctx) (i : Nat) (v : W) : (c.setM i v).user = c.user := by
  unfold Ctx.setM; split <;> rfl
@[simp] theorem Ctx.setM_haccAt (c : Ctx) (i : Nat) (v : W) : (c.setM i v).haccAt = c.haccAt := by
  unfold Ctx.setM; split <;> rfl
@[simp] theorem Ctx.setSh_st (c : Ctx) (i : Nat) (v : Line) : (c.setSh i v).st = c.st := rfl
@[simp] theorem Ctx.setSh_g (c : Ctx) (i : Nat) (v : Line) : (c.setSh i v).g = c.g := rfl
@[simp] theorem Ctx.setSh_pc (c : Ctx) (i : Nat) (v : Line) : (c.setSh i v).pc = c.pc := rfl
@[simp] theorem Ctx.setSh_flags (c : Ctx) (i : Nat) (v : Line) : (c.setSh i v).flags = c.flags := rfl
@[simp] theorem Ctx.setSh_rmode (c : Ctx) (i : Nat) (v : Line) : (c.setSh i v).rmode = c.rmode := rfl
@[simp] theorem Ctx.setSh_m (c : Ctx) (i : Nat) (v : Line) : (c.setSh i v).m = c.m := rfl
@[simp] theorem Ctx.setSh_vv (c : Ctx) (i : Nat) (v : Line) : (c.setSh i v).vv = c.vv := rfl
@[simp] theorem Ctx.setSh_tv (c : Ctx) (i : Nat) (v : Line) : (c.setSh i v).tv = c.tv := rfl
@[simp] theorem Ctx.setSh_av (c : Ctx) (i : Nat) (v : Line) : (c.setSh i v).av = c.av := rfl
@[simp] theorem Ctx.setSh_thread (c : Ctx) (i : Nat) (v : Line) : (c.setSh i v).thread = c.thread := rfl
@[simp] theorem Ctx.setSh_ord (c : Ctx) (i : Nat) (v : Line) : (c.setSh i v).ord = c.ord := rfl
@[simp] theorem Ctx.setSh_btag (c : Ctx) (i : Nat) (v : Line) : (c.setSh i v).btag = c.btag := rfl
@[simp] theorem Ctx.setSh_bx (c : Ctx) (i : Nat) (v : Line) : (c.setSh i v).bx = c.bx := rfl
@[simp] theorem Ctx.setSh_by_ (c : Ctx) (i : Nat) (v : Line) : (c.setSh i v).by_ = c.by_ := rfl
@[simp] theorem Ctx.setSh_rsBase (c : Ctx) (i : Nat) (v : Line) : (c.setSh i v).rsBase = c.rsBase := rfl
@[simp] theorem Ctx.setSh_rsSize (c : Ctx) (i : Nat) (v : Line) : (c.setSh i v).rsSize = c.rsSize := rfl
@[simp] theorem Ctx.setSh_tcause (c : Ctx) (i : Nat) (v : Line) : (c.setSh i v).tcause = c.tcause := rfl
@[simp] theorem Ctx.setSh_tpc (c : Ctx) (i : Nat) (v : Line) : (c.setSh i v).tpc = c.tpc := rfl
@[simp] theorem Ctx.setSh_tval (c : Ctx) (i : Nat) (v : Line) : (c.setSh i v).tval = c.tval := rfl
@[simp] theorem Ctx.setSh_tstate (c : Ctx) (i : Nat) (v : Line) : (c.setSh i v).tstate = c.tstate := rfl
@[simp] theorem Ctx.setSh_ldc (c : Ctx) (i : Nat) (v : Line) : (c.setSh i v).ldc = c.ldc := rfl
@[simp] theorem Ctx.setSh_stc (c : Ctx) (i : Nat) (v : Line) : (c.setSh i v).stc = c.stc := rfl
@[simp] theorem Ctx.setSh_cpc (c : Ctx) (i : Nat) (v : Line) : (c.setSh i v).cpc = c.cpc := rfl
@[simp] theorem Ctx.setSh_tlc (c : Ctx) (i : Nat) (v : Line) : (c.setSh i v).tlc = c.tlc := rfl
@[simp] theorem Ctx.setSh_tracker (c : Ctx) (i : Nat) (v : Line) : (c.setSh i v).tracker = c.tracker := rfl
@[simp] theorem Ctx.setSh_migr (c : Ctx) (i : Nat) (v : Line) : (c.setSh i v).migr = c.migr := rfl
@[simp] theorem Ctx.setSh_arr (c : Ctx) (i : Nat) (v : Line) : (c.setSh i v).arr = c.arr := rfl
@[simp] theorem Ctx.setSh_gang (c : Ctx) (i : Nat) (v : Line) : (c.setSh i v).gang = c.gang := rfl
@[simp] theorem Ctx.setSh_gangStep (c : Ctx) (i : Nat) (v : Line) : (c.setSh i v).gangStep = c.gangStep := rfl
@[simp] theorem Ctx.setSh_stall (c : Ctx) (i : Nat) (v : Line) : (c.setSh i v).stall = c.stall := rfl
@[simp] theorem Ctx.setSh_wake (c : Ctx) (i : Nat) (v : Line) : (c.setSh i v).wake = c.wake := rfl
@[simp] theorem Ctx.setSh_gapUntil (c : Ctx) (i : Nat) (v : Line) : (c.setSh i v).gapUntil = c.gapUntil := rfl
@[simp] theorem Ctx.setSh_since (c : Ctx) (i : Nat) (v : Line) : (c.setSh i v).since = c.since := rfl
@[simp] theorem Ctx.setSh_replay (c : Ctx) (i : Nat) (v : Line) : (c.setSh i v).replay = c.replay := rfl
@[simp] theorem Ctx.setSh_homeCore (c : Ctx) (i : Nat) (v : Line) : (c.setSh i v).homeCore = c.homeCore := rfl
@[simp] theorem Ctx.setSh_homeSlot (c : Ctx) (i : Nat) (v : Line) : (c.setSh i v).homeSlot = c.homeSlot := rfl
@[simp] theorem Ctx.setSh_stored (c : Ctx) (i : Nat) (v : Line) : (c.setSh i v).stored = c.stored := rfl
@[simp] theorem Ctx.setSh_pend (c : Ctx) (i : Nat) (v : Line) : (c.setSh i v).pend = c.pend := rfl
@[simp] theorem Ctx.setSh_div (c : Ctx) (i : Nat) (v : Line) : (c.setSh i v).div = c.div := rfl
@[simp] theorem Ctx.setSh_ckptOk (c : Ctx) (i : Nat) (v : Line) : (c.setSh i v).ckptOk = c.ckptOk := rfl
@[simp] theorem Ctx.setSh_parkedAt (c : Ctx) (i : Nat) (v : Line) : (c.setSh i v).parkedAt = c.parkedAt := rfl
@[simp] theorem Ctx.setSh_undo (c : Ctx) (i : Nat) (v : Line) : (c.setSh i v).undo = c.undo := rfl
@[simp] theorem Ctx.setSh_goes (c : Ctx) (i : Nat) (v : Line) : (c.setSh i v).goes = c.goes := rfl
@[simp] theorem Ctx.setSh_lanesLeft (c : Ctx) (i : Nat) (v : Line) : (c.setSh i v).lanesLeft = c.lanesLeft := rfl
@[simp] theorem Ctx.setSh_user (c : Ctx) (i : Nat) (v : Line) : (c.setSh i v).user = c.user := rfl
@[simp] theorem Ctx.setSh_haccAt (c : Ctx) (i : Nat) (v : Line) : (c.setSh i v).haccAt = c.haccAt := rfl

/-! ### The panel -/

@[simp] theorem Panel.setCore_now (p : Panel) (lc : Nat) (c : Core) : (p.setCore lc c).now = p.now := rfl
@[simp] theorem Panel.setCore_evs (p : Panel) (lc : Nat) (c : Core) : (p.setCore lc c).evs = p.evs := rfl
@[simp] theorem Panel.setCore_nid (p : Panel) (lc : Nat) (c : Core) : (p.setCore lc c).nid = p.nid := rfl
@[simp] theorem Panel.setCore_free (p : Panel) (lc : Nat) (c : Core) : (p.setCore lc c).free = p.free := rfl
@[simp] theorem Panel.setCore_stamp (p : Panel) (lc : Nat) (c : Core) : (p.setCore lc c).stamp = p.stamp := rfl
@[simp] theorem Panel.setCore_agenda (p : Panel) (lc : Nat) (c : Core) : (p.setCore lc c).agenda = p.agenda := rfl
@[simp] theorem Panel.setCore_ev (p : Panel) (lc : Nat) (c : Core) : (p.setCore lc c).ev = p.ev := rfl
@[simp] theorem Panel.setCore_mem (p : Panel) (lc : Nat) (c : Core) : (p.setCore lc c).mem = p.mem := rfl
@[simp] theorem Panel.setCore_slices (p : Panel) (lc : Nat) (c : Core) : (p.setCore lc c).slices = p.slices := rfl
@[simp] theorem Panel.setCore_clusters (p : Panel) (lc : Nat) (c : Core) : (p.setCore lc c).clusters = p.clusters := rfl
@[simp] theorem Panel.setCore_hbm (p : Panel) (lc : Nat) (c : Core) : (p.setCore lc c).hbm = p.hbm := rfl
@[simp] theorem Panel.setCore_keys (p : Panel) (lc : Nat) (c : Core) : (p.setCore lc c).keys = p.keys := rfl
@[simp] theorem Panel.setCore_parts (p : Panel) (lc : Nat) (c : Core) : (p.setCore lc c).parts = p.parts := rfl
@[simp] theorem Panel.setCore_blocks (p : Panel) (lc : Nat) (c : Core) : (p.setCore lc c).blocks = p.blocks := rfl
@[simp] theorem Panel.setCore_launches (p : Panel) (lc : Nat) (c : Core) : (p.setCore lc c).launches = p.launches := rfl
@[simp] theorem Panel.setCore_fabric (p : Panel) (lc : Nat) (c : Core) : (p.setCore lc c).fabric = p.fabric := rfl
@[simp] theorem Panel.setCore_accs (p : Panel) (lc : Nat) (c : Core) : (p.setCore lc c).accs = p.accs := rfl
@[simp] theorem Panel.setCore_cur (p : Panel) (lc : Nat) (c : Core) : (p.setCore lc c).cur = p.cur := rfl
@[simp] theorem Panel.setCore_panelId (p : Panel) (lc : Nat) (c : Core) : (p.setCore lc c).panelId = p.panelId := rfl
@[simp] theorem Panel.setCore_nextTag (p : Panel) (lc : Nat) (c : Core) : (p.setCore lc c).nextTag = p.nextTag := rfl
@[simp] theorem Panel.setCore_hostBase (p : Panel) (lc : Nat) (c : Core) : (p.setCore lc c).hostBase = p.hostBase := rfl
@[simp] theorem Panel.setCore_hostLimit (p : Panel) (lc : Nat) (c : Core) : (p.setCore lc c).hostLimit = p.hostLimit := rfl
@[simp] theorem Panel.setCore_mail (p : Panel) (lc : Nat) (c : Core) : (p.setCore lc c).mail = p.mail := rfl
@[simp] theorem Panel.setCore_mailWait (p : Panel) (lc : Nat) (c : Core) : (p.setCore lc c).mailWait = p.mailWait := rfl
@[simp] theorem Panel.setCore_mailSeq (p : Panel) (lc : Nat) (c : Core) : (p.setCore lc c).mailSeq = p.mailSeq := rfl
@[simp] theorem Panel.setCore_extPuts (p : Panel) (lc : Nat) (c : Core) : (p.setCore lc c).extPuts = p.extPuts := rfl
@[simp] theorem Panel.setCore_reports (p : Panel) (lc : Nat) (c : Core) : (p.setCore lc c).reports = p.reports := rfl
@[simp] theorem Panel.setCore_outbox (p : Panel) (lc : Nat) (c : Core) : (p.setCore lc c).outbox = p.outbox := rfl
@[simp] theorem Panel.setCore_svasum (p : Panel) (lc : Nat) (c : Core) : (p.setCore lc c).svasum = p.svasum := rfl
@[simp] theorem Panel.setCore_plans (p : Panel) (lc : Nat) (c : Core) : (p.setCore lc c).plans = p.plans := rfl

@[simp] theorem Panel.updCore_now (p : Panel) (lc : Nat) (f : Core → Core) : (p.updCore lc f).now = p.now := rfl
@[simp] theorem Panel.updCore_evs (p : Panel) (lc : Nat) (f : Core → Core) : (p.updCore lc f).evs = p.evs := rfl
@[simp] theorem Panel.updCore_nid (p : Panel) (lc : Nat) (f : Core → Core) : (p.updCore lc f).nid = p.nid := rfl
@[simp] theorem Panel.updCore_free (p : Panel) (lc : Nat) (f : Core → Core) : (p.updCore lc f).free = p.free := rfl
@[simp] theorem Panel.updCore_stamp (p : Panel) (lc : Nat) (f : Core → Core) : (p.updCore lc f).stamp = p.stamp := rfl
@[simp] theorem Panel.updCore_agenda (p : Panel) (lc : Nat) (f : Core → Core) : (p.updCore lc f).agenda = p.agenda := rfl
@[simp] theorem Panel.updCore_ev (p : Panel) (lc : Nat) (f : Core → Core) : (p.updCore lc f).ev = p.ev := rfl
@[simp] theorem Panel.updCore_mem (p : Panel) (lc : Nat) (f : Core → Core) : (p.updCore lc f).mem = p.mem := rfl
@[simp] theorem Panel.updCore_slices (p : Panel) (lc : Nat) (f : Core → Core) : (p.updCore lc f).slices = p.slices := rfl
@[simp] theorem Panel.updCore_clusters (p : Panel) (lc : Nat) (f : Core → Core) : (p.updCore lc f).clusters = p.clusters := rfl
@[simp] theorem Panel.updCore_hbm (p : Panel) (lc : Nat) (f : Core → Core) : (p.updCore lc f).hbm = p.hbm := rfl
@[simp] theorem Panel.updCore_keys (p : Panel) (lc : Nat) (f : Core → Core) : (p.updCore lc f).keys = p.keys := rfl
@[simp] theorem Panel.updCore_parts (p : Panel) (lc : Nat) (f : Core → Core) : (p.updCore lc f).parts = p.parts := rfl
@[simp] theorem Panel.updCore_blocks (p : Panel) (lc : Nat) (f : Core → Core) : (p.updCore lc f).blocks = p.blocks := rfl
@[simp] theorem Panel.updCore_launches (p : Panel) (lc : Nat) (f : Core → Core) : (p.updCore lc f).launches = p.launches := rfl
@[simp] theorem Panel.updCore_fabric (p : Panel) (lc : Nat) (f : Core → Core) : (p.updCore lc f).fabric = p.fabric := rfl
@[simp] theorem Panel.updCore_accs (p : Panel) (lc : Nat) (f : Core → Core) : (p.updCore lc f).accs = p.accs := rfl
@[simp] theorem Panel.updCore_cur (p : Panel) (lc : Nat) (f : Core → Core) : (p.updCore lc f).cur = p.cur := rfl
@[simp] theorem Panel.updCore_panelId (p : Panel) (lc : Nat) (f : Core → Core) : (p.updCore lc f).panelId = p.panelId := rfl
@[simp] theorem Panel.updCore_nextTag (p : Panel) (lc : Nat) (f : Core → Core) : (p.updCore lc f).nextTag = p.nextTag := rfl
@[simp] theorem Panel.updCore_hostBase (p : Panel) (lc : Nat) (f : Core → Core) : (p.updCore lc f).hostBase = p.hostBase := rfl
@[simp] theorem Panel.updCore_hostLimit (p : Panel) (lc : Nat) (f : Core → Core) : (p.updCore lc f).hostLimit = p.hostLimit := rfl
@[simp] theorem Panel.updCore_mail (p : Panel) (lc : Nat) (f : Core → Core) : (p.updCore lc f).mail = p.mail := rfl
@[simp] theorem Panel.updCore_mailWait (p : Panel) (lc : Nat) (f : Core → Core) : (p.updCore lc f).mailWait = p.mailWait := rfl
@[simp] theorem Panel.updCore_mailSeq (p : Panel) (lc : Nat) (f : Core → Core) : (p.updCore lc f).mailSeq = p.mailSeq := rfl
@[simp] theorem Panel.updCore_extPuts (p : Panel) (lc : Nat) (f : Core → Core) : (p.updCore lc f).extPuts = p.extPuts := rfl
@[simp] theorem Panel.updCore_reports (p : Panel) (lc : Nat) (f : Core → Core) : (p.updCore lc f).reports = p.reports := rfl
@[simp] theorem Panel.updCore_outbox (p : Panel) (lc : Nat) (f : Core → Core) : (p.updCore lc f).outbox = p.outbox := rfl
@[simp] theorem Panel.updCore_svasum (p : Panel) (lc : Nat) (f : Core → Core) : (p.updCore lc f).svasum = p.svasum := rfl
@[simp] theorem Panel.updCore_plans (p : Panel) (lc : Nat) (f : Core → Core) : (p.updCore lc f).plans = p.plans := rfl

@[simp] theorem Panel.setCtx_now (p : Panel) (lc slot : Nat) (c : Ctx) : (p.setCtx lc slot c).now = p.now := rfl
@[simp] theorem Panel.setCtx_evs (p : Panel) (lc slot : Nat) (c : Ctx) : (p.setCtx lc slot c).evs = p.evs := rfl
@[simp] theorem Panel.setCtx_nid (p : Panel) (lc slot : Nat) (c : Ctx) : (p.setCtx lc slot c).nid = p.nid := rfl
@[simp] theorem Panel.setCtx_free (p : Panel) (lc slot : Nat) (c : Ctx) : (p.setCtx lc slot c).free = p.free := rfl
@[simp] theorem Panel.setCtx_stamp (p : Panel) (lc slot : Nat) (c : Ctx) : (p.setCtx lc slot c).stamp = p.stamp := rfl
@[simp] theorem Panel.setCtx_agenda (p : Panel) (lc slot : Nat) (c : Ctx) : (p.setCtx lc slot c).agenda = p.agenda := rfl
@[simp] theorem Panel.setCtx_ev (p : Panel) (lc slot : Nat) (c : Ctx) : (p.setCtx lc slot c).ev = p.ev := rfl
@[simp] theorem Panel.setCtx_mem (p : Panel) (lc slot : Nat) (c : Ctx) : (p.setCtx lc slot c).mem = p.mem := rfl
@[simp] theorem Panel.setCtx_slices (p : Panel) (lc slot : Nat) (c : Ctx) : (p.setCtx lc slot c).slices = p.slices := rfl
@[simp] theorem Panel.setCtx_clusters (p : Panel) (lc slot : Nat) (c : Ctx) : (p.setCtx lc slot c).clusters = p.clusters := rfl
@[simp] theorem Panel.setCtx_hbm (p : Panel) (lc slot : Nat) (c : Ctx) : (p.setCtx lc slot c).hbm = p.hbm := rfl
@[simp] theorem Panel.setCtx_keys (p : Panel) (lc slot : Nat) (c : Ctx) : (p.setCtx lc slot c).keys = p.keys := rfl
@[simp] theorem Panel.setCtx_parts (p : Panel) (lc slot : Nat) (c : Ctx) : (p.setCtx lc slot c).parts = p.parts := rfl
@[simp] theorem Panel.setCtx_blocks (p : Panel) (lc slot : Nat) (c : Ctx) : (p.setCtx lc slot c).blocks = p.blocks := rfl
@[simp] theorem Panel.setCtx_launches (p : Panel) (lc slot : Nat) (c : Ctx) : (p.setCtx lc slot c).launches = p.launches := rfl
@[simp] theorem Panel.setCtx_fabric (p : Panel) (lc slot : Nat) (c : Ctx) : (p.setCtx lc slot c).fabric = p.fabric := rfl
@[simp] theorem Panel.setCtx_accs (p : Panel) (lc slot : Nat) (c : Ctx) : (p.setCtx lc slot c).accs = p.accs := rfl
@[simp] theorem Panel.setCtx_cur (p : Panel) (lc slot : Nat) (c : Ctx) : (p.setCtx lc slot c).cur = p.cur := rfl
@[simp] theorem Panel.setCtx_panelId (p : Panel) (lc slot : Nat) (c : Ctx) : (p.setCtx lc slot c).panelId = p.panelId := rfl
@[simp] theorem Panel.setCtx_nextTag (p : Panel) (lc slot : Nat) (c : Ctx) : (p.setCtx lc slot c).nextTag = p.nextTag := rfl
@[simp] theorem Panel.setCtx_hostBase (p : Panel) (lc slot : Nat) (c : Ctx) : (p.setCtx lc slot c).hostBase = p.hostBase := rfl
@[simp] theorem Panel.setCtx_hostLimit (p : Panel) (lc slot : Nat) (c : Ctx) : (p.setCtx lc slot c).hostLimit = p.hostLimit := rfl
@[simp] theorem Panel.setCtx_mail (p : Panel) (lc slot : Nat) (c : Ctx) : (p.setCtx lc slot c).mail = p.mail := rfl
@[simp] theorem Panel.setCtx_mailWait (p : Panel) (lc slot : Nat) (c : Ctx) : (p.setCtx lc slot c).mailWait = p.mailWait := rfl
@[simp] theorem Panel.setCtx_mailSeq (p : Panel) (lc slot : Nat) (c : Ctx) : (p.setCtx lc slot c).mailSeq = p.mailSeq := rfl
@[simp] theorem Panel.setCtx_extPuts (p : Panel) (lc slot : Nat) (c : Ctx) : (p.setCtx lc slot c).extPuts = p.extPuts := rfl
@[simp] theorem Panel.setCtx_reports (p : Panel) (lc slot : Nat) (c : Ctx) : (p.setCtx lc slot c).reports = p.reports := rfl
@[simp] theorem Panel.setCtx_outbox (p : Panel) (lc slot : Nat) (c : Ctx) : (p.setCtx lc slot c).outbox = p.outbox := rfl
@[simp] theorem Panel.setCtx_svasum (p : Panel) (lc slot : Nat) (c : Ctx) : (p.setCtx lc slot c).svasum = p.svasum := rfl
@[simp] theorem Panel.setCtx_plans (p : Panel) (lc slot : Nat) (c : Ctx) : (p.setCtx lc slot c).plans = p.plans := rfl

@[simp] theorem Panel.updCtx_now (p : Panel) (lc slot : Nat) (f : Ctx → Ctx) : (p.updCtx lc slot f).now = p.now := rfl
@[simp] theorem Panel.updCtx_evs (p : Panel) (lc slot : Nat) (f : Ctx → Ctx) : (p.updCtx lc slot f).evs = p.evs := rfl
@[simp] theorem Panel.updCtx_nid (p : Panel) (lc slot : Nat) (f : Ctx → Ctx) : (p.updCtx lc slot f).nid = p.nid := rfl
@[simp] theorem Panel.updCtx_free (p : Panel) (lc slot : Nat) (f : Ctx → Ctx) : (p.updCtx lc slot f).free = p.free := rfl
@[simp] theorem Panel.updCtx_stamp (p : Panel) (lc slot : Nat) (f : Ctx → Ctx) : (p.updCtx lc slot f).stamp = p.stamp := rfl
@[simp] theorem Panel.updCtx_agenda (p : Panel) (lc slot : Nat) (f : Ctx → Ctx) : (p.updCtx lc slot f).agenda = p.agenda := rfl
@[simp] theorem Panel.updCtx_ev (p : Panel) (lc slot : Nat) (f : Ctx → Ctx) : (p.updCtx lc slot f).ev = p.ev := rfl
@[simp] theorem Panel.updCtx_mem (p : Panel) (lc slot : Nat) (f : Ctx → Ctx) : (p.updCtx lc slot f).mem = p.mem := rfl
@[simp] theorem Panel.updCtx_slices (p : Panel) (lc slot : Nat) (f : Ctx → Ctx) : (p.updCtx lc slot f).slices = p.slices := rfl
@[simp] theorem Panel.updCtx_clusters (p : Panel) (lc slot : Nat) (f : Ctx → Ctx) : (p.updCtx lc slot f).clusters = p.clusters := rfl
@[simp] theorem Panel.updCtx_hbm (p : Panel) (lc slot : Nat) (f : Ctx → Ctx) : (p.updCtx lc slot f).hbm = p.hbm := rfl
@[simp] theorem Panel.updCtx_keys (p : Panel) (lc slot : Nat) (f : Ctx → Ctx) : (p.updCtx lc slot f).keys = p.keys := rfl
@[simp] theorem Panel.updCtx_parts (p : Panel) (lc slot : Nat) (f : Ctx → Ctx) : (p.updCtx lc slot f).parts = p.parts := rfl
@[simp] theorem Panel.updCtx_blocks (p : Panel) (lc slot : Nat) (f : Ctx → Ctx) : (p.updCtx lc slot f).blocks = p.blocks := rfl
@[simp] theorem Panel.updCtx_launches (p : Panel) (lc slot : Nat) (f : Ctx → Ctx) : (p.updCtx lc slot f).launches = p.launches := rfl
@[simp] theorem Panel.updCtx_fabric (p : Panel) (lc slot : Nat) (f : Ctx → Ctx) : (p.updCtx lc slot f).fabric = p.fabric := rfl
@[simp] theorem Panel.updCtx_accs (p : Panel) (lc slot : Nat) (f : Ctx → Ctx) : (p.updCtx lc slot f).accs = p.accs := rfl
@[simp] theorem Panel.updCtx_cur (p : Panel) (lc slot : Nat) (f : Ctx → Ctx) : (p.updCtx lc slot f).cur = p.cur := rfl
@[simp] theorem Panel.updCtx_panelId (p : Panel) (lc slot : Nat) (f : Ctx → Ctx) : (p.updCtx lc slot f).panelId = p.panelId := rfl
@[simp] theorem Panel.updCtx_nextTag (p : Panel) (lc slot : Nat) (f : Ctx → Ctx) : (p.updCtx lc slot f).nextTag = p.nextTag := rfl
@[simp] theorem Panel.updCtx_hostBase (p : Panel) (lc slot : Nat) (f : Ctx → Ctx) : (p.updCtx lc slot f).hostBase = p.hostBase := rfl
@[simp] theorem Panel.updCtx_hostLimit (p : Panel) (lc slot : Nat) (f : Ctx → Ctx) : (p.updCtx lc slot f).hostLimit = p.hostLimit := rfl
@[simp] theorem Panel.updCtx_mail (p : Panel) (lc slot : Nat) (f : Ctx → Ctx) : (p.updCtx lc slot f).mail = p.mail := rfl
@[simp] theorem Panel.updCtx_mailWait (p : Panel) (lc slot : Nat) (f : Ctx → Ctx) : (p.updCtx lc slot f).mailWait = p.mailWait := rfl
@[simp] theorem Panel.updCtx_mailSeq (p : Panel) (lc slot : Nat) (f : Ctx → Ctx) : (p.updCtx lc slot f).mailSeq = p.mailSeq := rfl
@[simp] theorem Panel.updCtx_extPuts (p : Panel) (lc slot : Nat) (f : Ctx → Ctx) : (p.updCtx lc slot f).extPuts = p.extPuts := rfl
@[simp] theorem Panel.updCtx_reports (p : Panel) (lc slot : Nat) (f : Ctx → Ctx) : (p.updCtx lc slot f).reports = p.reports := rfl
@[simp] theorem Panel.updCtx_outbox (p : Panel) (lc slot : Nat) (f : Ctx → Ctx) : (p.updCtx lc slot f).outbox = p.outbox := rfl
@[simp] theorem Panel.updCtx_svasum (p : Panel) (lc slot : Nat) (f : Ctx → Ctx) : (p.updCtx lc slot f).svasum = p.svasum := rfl
@[simp] theorem Panel.updCtx_plans (p : Panel) (lc slot : Nat) (f : Ctx → Ctx) : (p.updCtx lc slot f).plans = p.plans := rfl

@[simp] theorem Panel.updC_now (p : Panel) (f : Ctx → Ctx) : (p.updC f).now = p.now := rfl
@[simp] theorem Panel.updC_evs (p : Panel) (f : Ctx → Ctx) : (p.updC f).evs = p.evs := rfl
@[simp] theorem Panel.updC_nid (p : Panel) (f : Ctx → Ctx) : (p.updC f).nid = p.nid := rfl
@[simp] theorem Panel.updC_free (p : Panel) (f : Ctx → Ctx) : (p.updC f).free = p.free := rfl
@[simp] theorem Panel.updC_stamp (p : Panel) (f : Ctx → Ctx) : (p.updC f).stamp = p.stamp := rfl
@[simp] theorem Panel.updC_agenda (p : Panel) (f : Ctx → Ctx) : (p.updC f).agenda = p.agenda := rfl
@[simp] theorem Panel.updC_ev (p : Panel) (f : Ctx → Ctx) : (p.updC f).ev = p.ev := rfl
@[simp] theorem Panel.updC_mem (p : Panel) (f : Ctx → Ctx) : (p.updC f).mem = p.mem := rfl
@[simp] theorem Panel.updC_slices (p : Panel) (f : Ctx → Ctx) : (p.updC f).slices = p.slices := rfl
@[simp] theorem Panel.updC_clusters (p : Panel) (f : Ctx → Ctx) : (p.updC f).clusters = p.clusters := rfl
@[simp] theorem Panel.updC_hbm (p : Panel) (f : Ctx → Ctx) : (p.updC f).hbm = p.hbm := rfl
@[simp] theorem Panel.updC_keys (p : Panel) (f : Ctx → Ctx) : (p.updC f).keys = p.keys := rfl
@[simp] theorem Panel.updC_parts (p : Panel) (f : Ctx → Ctx) : (p.updC f).parts = p.parts := rfl
@[simp] theorem Panel.updC_blocks (p : Panel) (f : Ctx → Ctx) : (p.updC f).blocks = p.blocks := rfl
@[simp] theorem Panel.updC_launches (p : Panel) (f : Ctx → Ctx) : (p.updC f).launches = p.launches := rfl
@[simp] theorem Panel.updC_fabric (p : Panel) (f : Ctx → Ctx) : (p.updC f).fabric = p.fabric := rfl
@[simp] theorem Panel.updC_accs (p : Panel) (f : Ctx → Ctx) : (p.updC f).accs = p.accs := rfl
@[simp] theorem Panel.updC_cur (p : Panel) (f : Ctx → Ctx) : (p.updC f).cur = p.cur := rfl
@[simp] theorem Panel.updC_panelId (p : Panel) (f : Ctx → Ctx) : (p.updC f).panelId = p.panelId := rfl
@[simp] theorem Panel.updC_nextTag (p : Panel) (f : Ctx → Ctx) : (p.updC f).nextTag = p.nextTag := rfl
@[simp] theorem Panel.updC_hostBase (p : Panel) (f : Ctx → Ctx) : (p.updC f).hostBase = p.hostBase := rfl
@[simp] theorem Panel.updC_hostLimit (p : Panel) (f : Ctx → Ctx) : (p.updC f).hostLimit = p.hostLimit := rfl
@[simp] theorem Panel.updC_mail (p : Panel) (f : Ctx → Ctx) : (p.updC f).mail = p.mail := rfl
@[simp] theorem Panel.updC_mailWait (p : Panel) (f : Ctx → Ctx) : (p.updC f).mailWait = p.mailWait := rfl
@[simp] theorem Panel.updC_mailSeq (p : Panel) (f : Ctx → Ctx) : (p.updC f).mailSeq = p.mailSeq := rfl
@[simp] theorem Panel.updC_extPuts (p : Panel) (f : Ctx → Ctx) : (p.updC f).extPuts = p.extPuts := rfl
@[simp] theorem Panel.updC_reports (p : Panel) (f : Ctx → Ctx) : (p.updC f).reports = p.reports := rfl
@[simp] theorem Panel.updC_outbox (p : Panel) (f : Ctx → Ctx) : (p.updC f).outbox = p.outbox := rfl
@[simp] theorem Panel.updC_svasum (p : Panel) (f : Ctx → Ctx) : (p.updC f).svasum = p.svasum := rfl
@[simp] theorem Panel.updC_plans (p : Panel) (f : Ctx → Ctx) : (p.updC f).plans = p.plans := rfl

@[simp] theorem Panel.putG_now (p : Panel) (r : Reg) (v : W) : (p.putG r v).now = p.now := rfl
@[simp] theorem Panel.putG_evs (p : Panel) (r : Reg) (v : W) : (p.putG r v).evs = p.evs := rfl
@[simp] theorem Panel.putG_nid (p : Panel) (r : Reg) (v : W) : (p.putG r v).nid = p.nid := rfl
@[simp] theorem Panel.putG_free (p : Panel) (r : Reg) (v : W) : (p.putG r v).free = p.free := rfl
@[simp] theorem Panel.putG_stamp (p : Panel) (r : Reg) (v : W) : (p.putG r v).stamp = p.stamp := rfl
@[simp] theorem Panel.putG_agenda (p : Panel) (r : Reg) (v : W) : (p.putG r v).agenda = p.agenda := rfl
@[simp] theorem Panel.putG_ev (p : Panel) (r : Reg) (v : W) : (p.putG r v).ev = p.ev := rfl
@[simp] theorem Panel.putG_mem (p : Panel) (r : Reg) (v : W) : (p.putG r v).mem = p.mem := rfl
@[simp] theorem Panel.putG_slices (p : Panel) (r : Reg) (v : W) : (p.putG r v).slices = p.slices := rfl
@[simp] theorem Panel.putG_clusters (p : Panel) (r : Reg) (v : W) : (p.putG r v).clusters = p.clusters := rfl
@[simp] theorem Panel.putG_hbm (p : Panel) (r : Reg) (v : W) : (p.putG r v).hbm = p.hbm := rfl
@[simp] theorem Panel.putG_keys (p : Panel) (r : Reg) (v : W) : (p.putG r v).keys = p.keys := rfl
@[simp] theorem Panel.putG_parts (p : Panel) (r : Reg) (v : W) : (p.putG r v).parts = p.parts := rfl
@[simp] theorem Panel.putG_blocks (p : Panel) (r : Reg) (v : W) : (p.putG r v).blocks = p.blocks := rfl
@[simp] theorem Panel.putG_launches (p : Panel) (r : Reg) (v : W) : (p.putG r v).launches = p.launches := rfl
@[simp] theorem Panel.putG_fabric (p : Panel) (r : Reg) (v : W) : (p.putG r v).fabric = p.fabric := rfl
@[simp] theorem Panel.putG_accs (p : Panel) (r : Reg) (v : W) : (p.putG r v).accs = p.accs := rfl
@[simp] theorem Panel.putG_cur (p : Panel) (r : Reg) (v : W) : (p.putG r v).cur = p.cur := rfl
@[simp] theorem Panel.putG_panelId (p : Panel) (r : Reg) (v : W) : (p.putG r v).panelId = p.panelId := rfl
@[simp] theorem Panel.putG_nextTag (p : Panel) (r : Reg) (v : W) : (p.putG r v).nextTag = p.nextTag := rfl
@[simp] theorem Panel.putG_hostBase (p : Panel) (r : Reg) (v : W) : (p.putG r v).hostBase = p.hostBase := rfl
@[simp] theorem Panel.putG_hostLimit (p : Panel) (r : Reg) (v : W) : (p.putG r v).hostLimit = p.hostLimit := rfl
@[simp] theorem Panel.putG_mail (p : Panel) (r : Reg) (v : W) : (p.putG r v).mail = p.mail := rfl
@[simp] theorem Panel.putG_mailWait (p : Panel) (r : Reg) (v : W) : (p.putG r v).mailWait = p.mailWait := rfl
@[simp] theorem Panel.putG_mailSeq (p : Panel) (r : Reg) (v : W) : (p.putG r v).mailSeq = p.mailSeq := rfl
@[simp] theorem Panel.putG_extPuts (p : Panel) (r : Reg) (v : W) : (p.putG r v).extPuts = p.extPuts := rfl
@[simp] theorem Panel.putG_reports (p : Panel) (r : Reg) (v : W) : (p.putG r v).reports = p.reports := rfl
@[simp] theorem Panel.putG_outbox (p : Panel) (r : Reg) (v : W) : (p.putG r v).outbox = p.outbox := rfl
@[simp] theorem Panel.putG_svasum (p : Panel) (r : Reg) (v : W) : (p.putG r v).svasum = p.svasum := rfl
@[simp] theorem Panel.putG_plans (p : Panel) (r : Reg) (v : W) : (p.putG r v).plans = p.plans := rfl

@[simp] theorem Panel.putGAt_now (p : Panel) (lc slot r : Nat) (v : W) : (p.putGAt lc slot r v).now = p.now := rfl
@[simp] theorem Panel.putGAt_evs (p : Panel) (lc slot r : Nat) (v : W) : (p.putGAt lc slot r v).evs = p.evs := rfl
@[simp] theorem Panel.putGAt_nid (p : Panel) (lc slot r : Nat) (v : W) : (p.putGAt lc slot r v).nid = p.nid := rfl
@[simp] theorem Panel.putGAt_free (p : Panel) (lc slot r : Nat) (v : W) : (p.putGAt lc slot r v).free = p.free := rfl
@[simp] theorem Panel.putGAt_stamp (p : Panel) (lc slot r : Nat) (v : W) : (p.putGAt lc slot r v).stamp = p.stamp := rfl
@[simp] theorem Panel.putGAt_agenda (p : Panel) (lc slot r : Nat) (v : W) : (p.putGAt lc slot r v).agenda = p.agenda := rfl
@[simp] theorem Panel.putGAt_ev (p : Panel) (lc slot r : Nat) (v : W) : (p.putGAt lc slot r v).ev = p.ev := rfl
@[simp] theorem Panel.putGAt_mem (p : Panel) (lc slot r : Nat) (v : W) : (p.putGAt lc slot r v).mem = p.mem := rfl
@[simp] theorem Panel.putGAt_slices (p : Panel) (lc slot r : Nat) (v : W) : (p.putGAt lc slot r v).slices = p.slices := rfl
@[simp] theorem Panel.putGAt_clusters (p : Panel) (lc slot r : Nat) (v : W) : (p.putGAt lc slot r v).clusters = p.clusters := rfl
@[simp] theorem Panel.putGAt_hbm (p : Panel) (lc slot r : Nat) (v : W) : (p.putGAt lc slot r v).hbm = p.hbm := rfl
@[simp] theorem Panel.putGAt_keys (p : Panel) (lc slot r : Nat) (v : W) : (p.putGAt lc slot r v).keys = p.keys := rfl
@[simp] theorem Panel.putGAt_parts (p : Panel) (lc slot r : Nat) (v : W) : (p.putGAt lc slot r v).parts = p.parts := rfl
@[simp] theorem Panel.putGAt_blocks (p : Panel) (lc slot r : Nat) (v : W) : (p.putGAt lc slot r v).blocks = p.blocks := rfl
@[simp] theorem Panel.putGAt_launches (p : Panel) (lc slot r : Nat) (v : W) : (p.putGAt lc slot r v).launches = p.launches := rfl
@[simp] theorem Panel.putGAt_fabric (p : Panel) (lc slot r : Nat) (v : W) : (p.putGAt lc slot r v).fabric = p.fabric := rfl
@[simp] theorem Panel.putGAt_accs (p : Panel) (lc slot r : Nat) (v : W) : (p.putGAt lc slot r v).accs = p.accs := rfl
@[simp] theorem Panel.putGAt_cur (p : Panel) (lc slot r : Nat) (v : W) : (p.putGAt lc slot r v).cur = p.cur := rfl
@[simp] theorem Panel.putGAt_panelId (p : Panel) (lc slot r : Nat) (v : W) : (p.putGAt lc slot r v).panelId = p.panelId := rfl
@[simp] theorem Panel.putGAt_nextTag (p : Panel) (lc slot r : Nat) (v : W) : (p.putGAt lc slot r v).nextTag = p.nextTag := rfl
@[simp] theorem Panel.putGAt_hostBase (p : Panel) (lc slot r : Nat) (v : W) : (p.putGAt lc slot r v).hostBase = p.hostBase := rfl
@[simp] theorem Panel.putGAt_hostLimit (p : Panel) (lc slot r : Nat) (v : W) : (p.putGAt lc slot r v).hostLimit = p.hostLimit := rfl
@[simp] theorem Panel.putGAt_mail (p : Panel) (lc slot r : Nat) (v : W) : (p.putGAt lc slot r v).mail = p.mail := rfl
@[simp] theorem Panel.putGAt_mailWait (p : Panel) (lc slot r : Nat) (v : W) : (p.putGAt lc slot r v).mailWait = p.mailWait := rfl
@[simp] theorem Panel.putGAt_mailSeq (p : Panel) (lc slot r : Nat) (v : W) : (p.putGAt lc slot r v).mailSeq = p.mailSeq := rfl
@[simp] theorem Panel.putGAt_extPuts (p : Panel) (lc slot r : Nat) (v : W) : (p.putGAt lc slot r v).extPuts = p.extPuts := rfl
@[simp] theorem Panel.putGAt_reports (p : Panel) (lc slot r : Nat) (v : W) : (p.putGAt lc slot r v).reports = p.reports := rfl
@[simp] theorem Panel.putGAt_outbox (p : Panel) (lc slot r : Nat) (v : W) : (p.putGAt lc slot r v).outbox = p.outbox := rfl
@[simp] theorem Panel.putGAt_svasum (p : Panel) (lc slot r : Nat) (v : W) : (p.putGAt lc slot r v).svasum = p.svasum := rfl
@[simp] theorem Panel.putGAt_plans (p : Panel) (lc slot r : Nat) (v : W) : (p.putGAt lc slot r v).plans = p.plans := rfl

@[simp] theorem Panel.goto_now (p : Panel) (t : W) : (p.goto t).now = p.now := rfl
@[simp] theorem Panel.goto_evs (p : Panel) (t : W) : (p.goto t).evs = p.evs := rfl
@[simp] theorem Panel.goto_nid (p : Panel) (t : W) : (p.goto t).nid = p.nid := rfl
@[simp] theorem Panel.goto_free (p : Panel) (t : W) : (p.goto t).free = p.free := rfl
@[simp] theorem Panel.goto_stamp (p : Panel) (t : W) : (p.goto t).stamp = p.stamp := rfl
@[simp] theorem Panel.goto_agenda (p : Panel) (t : W) : (p.goto t).agenda = p.agenda := rfl
@[simp] theorem Panel.goto_ev (p : Panel) (t : W) : (p.goto t).ev = p.ev := rfl
@[simp] theorem Panel.goto_mem (p : Panel) (t : W) : (p.goto t).mem = p.mem := rfl
@[simp] theorem Panel.goto_slices (p : Panel) (t : W) : (p.goto t).slices = p.slices := rfl
@[simp] theorem Panel.goto_clusters (p : Panel) (t : W) : (p.goto t).clusters = p.clusters := rfl
@[simp] theorem Panel.goto_hbm (p : Panel) (t : W) : (p.goto t).hbm = p.hbm := rfl
@[simp] theorem Panel.goto_keys (p : Panel) (t : W) : (p.goto t).keys = p.keys := rfl
@[simp] theorem Panel.goto_parts (p : Panel) (t : W) : (p.goto t).parts = p.parts := rfl
@[simp] theorem Panel.goto_blocks (p : Panel) (t : W) : (p.goto t).blocks = p.blocks := rfl
@[simp] theorem Panel.goto_launches (p : Panel) (t : W) : (p.goto t).launches = p.launches := rfl
@[simp] theorem Panel.goto_fabric (p : Panel) (t : W) : (p.goto t).fabric = p.fabric := rfl
@[simp] theorem Panel.goto_accs (p : Panel) (t : W) : (p.goto t).accs = p.accs := rfl
@[simp] theorem Panel.goto_cur (p : Panel) (t : W) : (p.goto t).cur = p.cur := rfl
@[simp] theorem Panel.goto_panelId (p : Panel) (t : W) : (p.goto t).panelId = p.panelId := rfl
@[simp] theorem Panel.goto_nextTag (p : Panel) (t : W) : (p.goto t).nextTag = p.nextTag := rfl
@[simp] theorem Panel.goto_hostBase (p : Panel) (t : W) : (p.goto t).hostBase = p.hostBase := rfl
@[simp] theorem Panel.goto_hostLimit (p : Panel) (t : W) : (p.goto t).hostLimit = p.hostLimit := rfl
@[simp] theorem Panel.goto_mail (p : Panel) (t : W) : (p.goto t).mail = p.mail := rfl
@[simp] theorem Panel.goto_mailWait (p : Panel) (t : W) : (p.goto t).mailWait = p.mailWait := rfl
@[simp] theorem Panel.goto_mailSeq (p : Panel) (t : W) : (p.goto t).mailSeq = p.mailSeq := rfl
@[simp] theorem Panel.goto_extPuts (p : Panel) (t : W) : (p.goto t).extPuts = p.extPuts := rfl
@[simp] theorem Panel.goto_reports (p : Panel) (t : W) : (p.goto t).reports = p.reports := rfl
@[simp] theorem Panel.goto_outbox (p : Panel) (t : W) : (p.goto t).outbox = p.outbox := rfl
@[simp] theorem Panel.goto_svasum (p : Panel) (t : W) : (p.goto t).svasum = p.svasum := rfl
@[simp] theorem Panel.goto_plans (p : Panel) (t : W) : (p.goto t).plans = p.plans := rfl

@[simp] theorem Panel.stallFor_now (p : Panel) (w : Stall) : (p.stallFor w).now = p.now := rfl
@[simp] theorem Panel.stallFor_evs (p : Panel) (w : Stall) : (p.stallFor w).evs = p.evs := rfl
@[simp] theorem Panel.stallFor_nid (p : Panel) (w : Stall) : (p.stallFor w).nid = p.nid := rfl
@[simp] theorem Panel.stallFor_free (p : Panel) (w : Stall) : (p.stallFor w).free = p.free := rfl
@[simp] theorem Panel.stallFor_stamp (p : Panel) (w : Stall) : (p.stallFor w).stamp = p.stamp := rfl
@[simp] theorem Panel.stallFor_agenda (p : Panel) (w : Stall) : (p.stallFor w).agenda = p.agenda := rfl
@[simp] theorem Panel.stallFor_ev (p : Panel) (w : Stall) : (p.stallFor w).ev = p.ev := rfl
@[simp] theorem Panel.stallFor_mem (p : Panel) (w : Stall) : (p.stallFor w).mem = p.mem := rfl
@[simp] theorem Panel.stallFor_slices (p : Panel) (w : Stall) : (p.stallFor w).slices = p.slices := rfl
@[simp] theorem Panel.stallFor_clusters (p : Panel) (w : Stall) : (p.stallFor w).clusters = p.clusters := rfl
@[simp] theorem Panel.stallFor_hbm (p : Panel) (w : Stall) : (p.stallFor w).hbm = p.hbm := rfl
@[simp] theorem Panel.stallFor_keys (p : Panel) (w : Stall) : (p.stallFor w).keys = p.keys := rfl
@[simp] theorem Panel.stallFor_parts (p : Panel) (w : Stall) : (p.stallFor w).parts = p.parts := rfl
@[simp] theorem Panel.stallFor_blocks (p : Panel) (w : Stall) : (p.stallFor w).blocks = p.blocks := rfl
@[simp] theorem Panel.stallFor_launches (p : Panel) (w : Stall) : (p.stallFor w).launches = p.launches := rfl
@[simp] theorem Panel.stallFor_fabric (p : Panel) (w : Stall) : (p.stallFor w).fabric = p.fabric := rfl
@[simp] theorem Panel.stallFor_accs (p : Panel) (w : Stall) : (p.stallFor w).accs = p.accs := rfl
@[simp] theorem Panel.stallFor_cur (p : Panel) (w : Stall) : (p.stallFor w).cur = p.cur := rfl
@[simp] theorem Panel.stallFor_panelId (p : Panel) (w : Stall) : (p.stallFor w).panelId = p.panelId := rfl
@[simp] theorem Panel.stallFor_nextTag (p : Panel) (w : Stall) : (p.stallFor w).nextTag = p.nextTag := rfl
@[simp] theorem Panel.stallFor_hostBase (p : Panel) (w : Stall) : (p.stallFor w).hostBase = p.hostBase := rfl
@[simp] theorem Panel.stallFor_hostLimit (p : Panel) (w : Stall) : (p.stallFor w).hostLimit = p.hostLimit := rfl
@[simp] theorem Panel.stallFor_mail (p : Panel) (w : Stall) : (p.stallFor w).mail = p.mail := rfl
@[simp] theorem Panel.stallFor_mailWait (p : Panel) (w : Stall) : (p.stallFor w).mailWait = p.mailWait := rfl
@[simp] theorem Panel.stallFor_mailSeq (p : Panel) (w : Stall) : (p.stallFor w).mailSeq = p.mailSeq := rfl
@[simp] theorem Panel.stallFor_extPuts (p : Panel) (w : Stall) : (p.stallFor w).extPuts = p.extPuts := rfl
@[simp] theorem Panel.stallFor_reports (p : Panel) (w : Stall) : (p.stallFor w).reports = p.reports := rfl
@[simp] theorem Panel.stallFor_outbox (p : Panel) (w : Stall) : (p.stallFor w).outbox = p.outbox := rfl
@[simp] theorem Panel.stallFor_svasum (p : Panel) (w : Stall) : (p.stallFor w).svasum = p.svasum := rfl
@[simp] theorem Panel.stallFor_plans (p : Panel) (w : Stall) : (p.stallFor w).plans = p.plans := rfl

@[simp] theorem Panel.block_now (p : Panel) (w : Wake) : (p.block_ w).now = p.now := rfl
@[simp] theorem Panel.block_evs (p : Panel) (w : Wake) : (p.block_ w).evs = p.evs := rfl
@[simp] theorem Panel.block_nid (p : Panel) (w : Wake) : (p.block_ w).nid = p.nid := rfl
@[simp] theorem Panel.block_free (p : Panel) (w : Wake) : (p.block_ w).free = p.free := rfl
@[simp] theorem Panel.block_stamp (p : Panel) (w : Wake) : (p.block_ w).stamp = p.stamp := rfl
@[simp] theorem Panel.block_agenda (p : Panel) (w : Wake) : (p.block_ w).agenda = p.agenda := rfl
@[simp] theorem Panel.block_ev (p : Panel) (w : Wake) : (p.block_ w).ev = p.ev := rfl
@[simp] theorem Panel.block_mem (p : Panel) (w : Wake) : (p.block_ w).mem = p.mem := rfl
@[simp] theorem Panel.block_slices (p : Panel) (w : Wake) : (p.block_ w).slices = p.slices := rfl
@[simp] theorem Panel.block_clusters (p : Panel) (w : Wake) : (p.block_ w).clusters = p.clusters := rfl
@[simp] theorem Panel.block_hbm (p : Panel) (w : Wake) : (p.block_ w).hbm = p.hbm := rfl
@[simp] theorem Panel.block_keys (p : Panel) (w : Wake) : (p.block_ w).keys = p.keys := rfl
@[simp] theorem Panel.block_parts (p : Panel) (w : Wake) : (p.block_ w).parts = p.parts := rfl
@[simp] theorem Panel.block_blocks (p : Panel) (w : Wake) : (p.block_ w).blocks = p.blocks := rfl
@[simp] theorem Panel.block_launches (p : Panel) (w : Wake) : (p.block_ w).launches = p.launches := rfl
@[simp] theorem Panel.block_fabric (p : Panel) (w : Wake) : (p.block_ w).fabric = p.fabric := rfl
@[simp] theorem Panel.block_accs (p : Panel) (w : Wake) : (p.block_ w).accs = p.accs := rfl
@[simp] theorem Panel.block_cur (p : Panel) (w : Wake) : (p.block_ w).cur = p.cur := rfl
@[simp] theorem Panel.block_panelId (p : Panel) (w : Wake) : (p.block_ w).panelId = p.panelId := rfl
@[simp] theorem Panel.block_nextTag (p : Panel) (w : Wake) : (p.block_ w).nextTag = p.nextTag := rfl
@[simp] theorem Panel.block_hostBase (p : Panel) (w : Wake) : (p.block_ w).hostBase = p.hostBase := rfl
@[simp] theorem Panel.block_hostLimit (p : Panel) (w : Wake) : (p.block_ w).hostLimit = p.hostLimit := rfl
@[simp] theorem Panel.block_mail (p : Panel) (w : Wake) : (p.block_ w).mail = p.mail := rfl
@[simp] theorem Panel.block_mailWait (p : Panel) (w : Wake) : (p.block_ w).mailWait = p.mailWait := rfl
@[simp] theorem Panel.block_mailSeq (p : Panel) (w : Wake) : (p.block_ w).mailSeq = p.mailSeq := rfl
@[simp] theorem Panel.block_extPuts (p : Panel) (w : Wake) : (p.block_ w).extPuts = p.extPuts := rfl
@[simp] theorem Panel.block_reports (p : Panel) (w : Wake) : (p.block_ w).reports = p.reports := rfl
@[simp] theorem Panel.block_outbox (p : Panel) (w : Wake) : (p.block_ w).outbox = p.outbox := rfl
@[simp] theorem Panel.block_svasum (p : Panel) (w : Wake) : (p.block_ w).svasum = p.svasum := rfl
@[simp] theorem Panel.block_plans (p : Panel) (w : Wake) : (p.block_ w).plans = p.plans := rfl

@[simp] theorem Panel.retry_now (p : Panel) : (p.retry).now = p.now := rfl
@[simp] theorem Panel.retry_evs (p : Panel) : (p.retry).evs = p.evs := rfl
@[simp] theorem Panel.retry_nid (p : Panel) : (p.retry).nid = p.nid := rfl
@[simp] theorem Panel.retry_free (p : Panel) : (p.retry).free = p.free := rfl
@[simp] theorem Panel.retry_stamp (p : Panel) : (p.retry).stamp = p.stamp := rfl
@[simp] theorem Panel.retry_agenda (p : Panel) : (p.retry).agenda = p.agenda := rfl
@[simp] theorem Panel.retry_ev (p : Panel) : (p.retry).ev = p.ev := rfl
@[simp] theorem Panel.retry_mem (p : Panel) : (p.retry).mem = p.mem := rfl
@[simp] theorem Panel.retry_slices (p : Panel) : (p.retry).slices = p.slices := rfl
@[simp] theorem Panel.retry_clusters (p : Panel) : (p.retry).clusters = p.clusters := rfl
@[simp] theorem Panel.retry_hbm (p : Panel) : (p.retry).hbm = p.hbm := rfl
@[simp] theorem Panel.retry_keys (p : Panel) : (p.retry).keys = p.keys := rfl
@[simp] theorem Panel.retry_parts (p : Panel) : (p.retry).parts = p.parts := rfl
@[simp] theorem Panel.retry_blocks (p : Panel) : (p.retry).blocks = p.blocks := rfl
@[simp] theorem Panel.retry_launches (p : Panel) : (p.retry).launches = p.launches := rfl
@[simp] theorem Panel.retry_fabric (p : Panel) : (p.retry).fabric = p.fabric := rfl
@[simp] theorem Panel.retry_accs (p : Panel) : (p.retry).accs = p.accs := rfl
@[simp] theorem Panel.retry_panelId (p : Panel) : (p.retry).panelId = p.panelId := rfl
@[simp] theorem Panel.retry_nextTag (p : Panel) : (p.retry).nextTag = p.nextTag := rfl
@[simp] theorem Panel.retry_hostBase (p : Panel) : (p.retry).hostBase = p.hostBase := rfl
@[simp] theorem Panel.retry_hostLimit (p : Panel) : (p.retry).hostLimit = p.hostLimit := rfl
@[simp] theorem Panel.retry_mail (p : Panel) : (p.retry).mail = p.mail := rfl
@[simp] theorem Panel.retry_mailWait (p : Panel) : (p.retry).mailWait = p.mailWait := rfl
@[simp] theorem Panel.retry_mailSeq (p : Panel) : (p.retry).mailSeq = p.mailSeq := rfl
@[simp] theorem Panel.retry_extPuts (p : Panel) : (p.retry).extPuts = p.extPuts := rfl
@[simp] theorem Panel.retry_reports (p : Panel) : (p.retry).reports = p.reports := rfl
@[simp] theorem Panel.retry_outbox (p : Panel) : (p.retry).outbox = p.outbox := rfl
@[simp] theorem Panel.retry_svasum (p : Panel) : (p.retry).svasum = p.svasum := rfl
@[simp] theorem Panel.retry_plans (p : Panel) : (p.retry).plans = p.plans := rfl

@[simp] theorem Panel.updBlk_now (p : Panel) (lc tag : Nat) (f : BlkCore → BlkCore) : (p.updBlk lc tag f).now = p.now := rfl
@[simp] theorem Panel.updBlk_evs (p : Panel) (lc tag : Nat) (f : BlkCore → BlkCore) : (p.updBlk lc tag f).evs = p.evs := rfl
@[simp] theorem Panel.updBlk_nid (p : Panel) (lc tag : Nat) (f : BlkCore → BlkCore) : (p.updBlk lc tag f).nid = p.nid := rfl
@[simp] theorem Panel.updBlk_free (p : Panel) (lc tag : Nat) (f : BlkCore → BlkCore) : (p.updBlk lc tag f).free = p.free := rfl
@[simp] theorem Panel.updBlk_stamp (p : Panel) (lc tag : Nat) (f : BlkCore → BlkCore) : (p.updBlk lc tag f).stamp = p.stamp := rfl
@[simp] theorem Panel.updBlk_agenda (p : Panel) (lc tag : Nat) (f : BlkCore → BlkCore) : (p.updBlk lc tag f).agenda = p.agenda := rfl
@[simp] theorem Panel.updBlk_ev (p : Panel) (lc tag : Nat) (f : BlkCore → BlkCore) : (p.updBlk lc tag f).ev = p.ev := rfl
@[simp] theorem Panel.updBlk_mem (p : Panel) (lc tag : Nat) (f : BlkCore → BlkCore) : (p.updBlk lc tag f).mem = p.mem := rfl
@[simp] theorem Panel.updBlk_slices (p : Panel) (lc tag : Nat) (f : BlkCore → BlkCore) : (p.updBlk lc tag f).slices = p.slices := rfl
@[simp] theorem Panel.updBlk_clusters (p : Panel) (lc tag : Nat) (f : BlkCore → BlkCore) : (p.updBlk lc tag f).clusters = p.clusters := rfl
@[simp] theorem Panel.updBlk_hbm (p : Panel) (lc tag : Nat) (f : BlkCore → BlkCore) : (p.updBlk lc tag f).hbm = p.hbm := rfl
@[simp] theorem Panel.updBlk_keys (p : Panel) (lc tag : Nat) (f : BlkCore → BlkCore) : (p.updBlk lc tag f).keys = p.keys := rfl
@[simp] theorem Panel.updBlk_parts (p : Panel) (lc tag : Nat) (f : BlkCore → BlkCore) : (p.updBlk lc tag f).parts = p.parts := rfl
@[simp] theorem Panel.updBlk_blocks (p : Panel) (lc tag : Nat) (f : BlkCore → BlkCore) : (p.updBlk lc tag f).blocks = p.blocks := rfl
@[simp] theorem Panel.updBlk_launches (p : Panel) (lc tag : Nat) (f : BlkCore → BlkCore) : (p.updBlk lc tag f).launches = p.launches := rfl
@[simp] theorem Panel.updBlk_fabric (p : Panel) (lc tag : Nat) (f : BlkCore → BlkCore) : (p.updBlk lc tag f).fabric = p.fabric := rfl
@[simp] theorem Panel.updBlk_accs (p : Panel) (lc tag : Nat) (f : BlkCore → BlkCore) : (p.updBlk lc tag f).accs = p.accs := rfl
@[simp] theorem Panel.updBlk_cur (p : Panel) (lc tag : Nat) (f : BlkCore → BlkCore) : (p.updBlk lc tag f).cur = p.cur := rfl
@[simp] theorem Panel.updBlk_panelId (p : Panel) (lc tag : Nat) (f : BlkCore → BlkCore) : (p.updBlk lc tag f).panelId = p.panelId := rfl
@[simp] theorem Panel.updBlk_nextTag (p : Panel) (lc tag : Nat) (f : BlkCore → BlkCore) : (p.updBlk lc tag f).nextTag = p.nextTag := rfl
@[simp] theorem Panel.updBlk_hostBase (p : Panel) (lc tag : Nat) (f : BlkCore → BlkCore) : (p.updBlk lc tag f).hostBase = p.hostBase := rfl
@[simp] theorem Panel.updBlk_hostLimit (p : Panel) (lc tag : Nat) (f : BlkCore → BlkCore) : (p.updBlk lc tag f).hostLimit = p.hostLimit := rfl
@[simp] theorem Panel.updBlk_mail (p : Panel) (lc tag : Nat) (f : BlkCore → BlkCore) : (p.updBlk lc tag f).mail = p.mail := rfl
@[simp] theorem Panel.updBlk_mailWait (p : Panel) (lc tag : Nat) (f : BlkCore → BlkCore) : (p.updBlk lc tag f).mailWait = p.mailWait := rfl
@[simp] theorem Panel.updBlk_mailSeq (p : Panel) (lc tag : Nat) (f : BlkCore → BlkCore) : (p.updBlk lc tag f).mailSeq = p.mailSeq := rfl
@[simp] theorem Panel.updBlk_extPuts (p : Panel) (lc tag : Nat) (f : BlkCore → BlkCore) : (p.updBlk lc tag f).extPuts = p.extPuts := rfl
@[simp] theorem Panel.updBlk_reports (p : Panel) (lc tag : Nat) (f : BlkCore → BlkCore) : (p.updBlk lc tag f).reports = p.reports := rfl
@[simp] theorem Panel.updBlk_outbox (p : Panel) (lc tag : Nat) (f : BlkCore → BlkCore) : (p.updBlk lc tag f).outbox = p.outbox := rfl
@[simp] theorem Panel.updBlk_svasum (p : Panel) (lc tag : Nat) (f : BlkCore → BlkCore) : (p.updBlk lc tag f).svasum = p.svasum := rfl
@[simp] theorem Panel.updBlk_plans (p : Panel) (lc tag : Nat) (f : BlkCore → BlkCore) : (p.updBlk lc tag f).plans = p.plans := rfl

@[simp] theorem Panel.updCluster_now (p : Panel) (i : Nat) (f : Cluster → Cluster) : (p.updCluster i f).now = p.now := rfl
@[simp] theorem Panel.updCluster_evs (p : Panel) (i : Nat) (f : Cluster → Cluster) : (p.updCluster i f).evs = p.evs := rfl
@[simp] theorem Panel.updCluster_nid (p : Panel) (i : Nat) (f : Cluster → Cluster) : (p.updCluster i f).nid = p.nid := rfl
@[simp] theorem Panel.updCluster_free (p : Panel) (i : Nat) (f : Cluster → Cluster) : (p.updCluster i f).free = p.free := rfl
@[simp] theorem Panel.updCluster_stamp (p : Panel) (i : Nat) (f : Cluster → Cluster) : (p.updCluster i f).stamp = p.stamp := rfl
@[simp] theorem Panel.updCluster_agenda (p : Panel) (i : Nat) (f : Cluster → Cluster) : (p.updCluster i f).agenda = p.agenda := rfl
@[simp] theorem Panel.updCluster_ev (p : Panel) (i : Nat) (f : Cluster → Cluster) : (p.updCluster i f).ev = p.ev := rfl
@[simp] theorem Panel.updCluster_mem (p : Panel) (i : Nat) (f : Cluster → Cluster) : (p.updCluster i f).mem = p.mem := rfl
@[simp] theorem Panel.updCluster_cores (p : Panel) (i : Nat) (f : Cluster → Cluster) : (p.updCluster i f).cores = p.cores := rfl
@[simp] theorem Panel.updCluster_slices (p : Panel) (i : Nat) (f : Cluster → Cluster) : (p.updCluster i f).slices = p.slices := rfl
@[simp] theorem Panel.updCluster_hbm (p : Panel) (i : Nat) (f : Cluster → Cluster) : (p.updCluster i f).hbm = p.hbm := rfl
@[simp] theorem Panel.updCluster_keys (p : Panel) (i : Nat) (f : Cluster → Cluster) : (p.updCluster i f).keys = p.keys := rfl
@[simp] theorem Panel.updCluster_parts (p : Panel) (i : Nat) (f : Cluster → Cluster) : (p.updCluster i f).parts = p.parts := rfl
@[simp] theorem Panel.updCluster_blocks (p : Panel) (i : Nat) (f : Cluster → Cluster) : (p.updCluster i f).blocks = p.blocks := rfl
@[simp] theorem Panel.updCluster_launches (p : Panel) (i : Nat) (f : Cluster → Cluster) : (p.updCluster i f).launches = p.launches := rfl
@[simp] theorem Panel.updCluster_fabric (p : Panel) (i : Nat) (f : Cluster → Cluster) : (p.updCluster i f).fabric = p.fabric := rfl
@[simp] theorem Panel.updCluster_accs (p : Panel) (i : Nat) (f : Cluster → Cluster) : (p.updCluster i f).accs = p.accs := rfl
@[simp] theorem Panel.updCluster_cur (p : Panel) (i : Nat) (f : Cluster → Cluster) : (p.updCluster i f).cur = p.cur := rfl
@[simp] theorem Panel.updCluster_panelId (p : Panel) (i : Nat) (f : Cluster → Cluster) : (p.updCluster i f).panelId = p.panelId := rfl
@[simp] theorem Panel.updCluster_nextTag (p : Panel) (i : Nat) (f : Cluster → Cluster) : (p.updCluster i f).nextTag = p.nextTag := rfl
@[simp] theorem Panel.updCluster_hostBase (p : Panel) (i : Nat) (f : Cluster → Cluster) : (p.updCluster i f).hostBase = p.hostBase := rfl
@[simp] theorem Panel.updCluster_hostLimit (p : Panel) (i : Nat) (f : Cluster → Cluster) : (p.updCluster i f).hostLimit = p.hostLimit := rfl
@[simp] theorem Panel.updCluster_mail (p : Panel) (i : Nat) (f : Cluster → Cluster) : (p.updCluster i f).mail = p.mail := rfl
@[simp] theorem Panel.updCluster_mailWait (p : Panel) (i : Nat) (f : Cluster → Cluster) : (p.updCluster i f).mailWait = p.mailWait := rfl
@[simp] theorem Panel.updCluster_mailSeq (p : Panel) (i : Nat) (f : Cluster → Cluster) : (p.updCluster i f).mailSeq = p.mailSeq := rfl
@[simp] theorem Panel.updCluster_extPuts (p : Panel) (i : Nat) (f : Cluster → Cluster) : (p.updCluster i f).extPuts = p.extPuts := rfl
@[simp] theorem Panel.updCluster_reports (p : Panel) (i : Nat) (f : Cluster → Cluster) : (p.updCluster i f).reports = p.reports := rfl
@[simp] theorem Panel.updCluster_outbox (p : Panel) (i : Nat) (f : Cluster → Cluster) : (p.updCluster i f).outbox = p.outbox := rfl
@[simp] theorem Panel.updCluster_svasum (p : Panel) (i : Nat) (f : Cluster → Cluster) : (p.updCluster i f).svasum = p.svasum := rfl
@[simp] theorem Panel.updCluster_plans (p : Panel) (i : Nat) (f : Cluster → Cluster) : (p.updCluster i f).plans = p.plans := rfl

@[simp] theorem Panel.updSlice_now (p : Panel) (i : Nat) (f : Slice → Slice) : (p.updSlice i f).now = p.now := rfl
@[simp] theorem Panel.updSlice_evs (p : Panel) (i : Nat) (f : Slice → Slice) : (p.updSlice i f).evs = p.evs := rfl
@[simp] theorem Panel.updSlice_nid (p : Panel) (i : Nat) (f : Slice → Slice) : (p.updSlice i f).nid = p.nid := rfl
@[simp] theorem Panel.updSlice_free (p : Panel) (i : Nat) (f : Slice → Slice) : (p.updSlice i f).free = p.free := rfl
@[simp] theorem Panel.updSlice_stamp (p : Panel) (i : Nat) (f : Slice → Slice) : (p.updSlice i f).stamp = p.stamp := rfl
@[simp] theorem Panel.updSlice_agenda (p : Panel) (i : Nat) (f : Slice → Slice) : (p.updSlice i f).agenda = p.agenda := rfl
@[simp] theorem Panel.updSlice_ev (p : Panel) (i : Nat) (f : Slice → Slice) : (p.updSlice i f).ev = p.ev := rfl
@[simp] theorem Panel.updSlice_mem (p : Panel) (i : Nat) (f : Slice → Slice) : (p.updSlice i f).mem = p.mem := rfl
@[simp] theorem Panel.updSlice_cores (p : Panel) (i : Nat) (f : Slice → Slice) : (p.updSlice i f).cores = p.cores := rfl
@[simp] theorem Panel.updSlice_clusters (p : Panel) (i : Nat) (f : Slice → Slice) : (p.updSlice i f).clusters = p.clusters := rfl
@[simp] theorem Panel.updSlice_hbm (p : Panel) (i : Nat) (f : Slice → Slice) : (p.updSlice i f).hbm = p.hbm := rfl
@[simp] theorem Panel.updSlice_keys (p : Panel) (i : Nat) (f : Slice → Slice) : (p.updSlice i f).keys = p.keys := rfl
@[simp] theorem Panel.updSlice_parts (p : Panel) (i : Nat) (f : Slice → Slice) : (p.updSlice i f).parts = p.parts := rfl
@[simp] theorem Panel.updSlice_blocks (p : Panel) (i : Nat) (f : Slice → Slice) : (p.updSlice i f).blocks = p.blocks := rfl
@[simp] theorem Panel.updSlice_launches (p : Panel) (i : Nat) (f : Slice → Slice) : (p.updSlice i f).launches = p.launches := rfl
@[simp] theorem Panel.updSlice_fabric (p : Panel) (i : Nat) (f : Slice → Slice) : (p.updSlice i f).fabric = p.fabric := rfl
@[simp] theorem Panel.updSlice_accs (p : Panel) (i : Nat) (f : Slice → Slice) : (p.updSlice i f).accs = p.accs := rfl
@[simp] theorem Panel.updSlice_cur (p : Panel) (i : Nat) (f : Slice → Slice) : (p.updSlice i f).cur = p.cur := rfl
@[simp] theorem Panel.updSlice_panelId (p : Panel) (i : Nat) (f : Slice → Slice) : (p.updSlice i f).panelId = p.panelId := rfl
@[simp] theorem Panel.updSlice_nextTag (p : Panel) (i : Nat) (f : Slice → Slice) : (p.updSlice i f).nextTag = p.nextTag := rfl
@[simp] theorem Panel.updSlice_hostBase (p : Panel) (i : Nat) (f : Slice → Slice) : (p.updSlice i f).hostBase = p.hostBase := rfl
@[simp] theorem Panel.updSlice_hostLimit (p : Panel) (i : Nat) (f : Slice → Slice) : (p.updSlice i f).hostLimit = p.hostLimit := rfl
@[simp] theorem Panel.updSlice_mail (p : Panel) (i : Nat) (f : Slice → Slice) : (p.updSlice i f).mail = p.mail := rfl
@[simp] theorem Panel.updSlice_mailWait (p : Panel) (i : Nat) (f : Slice → Slice) : (p.updSlice i f).mailWait = p.mailWait := rfl
@[simp] theorem Panel.updSlice_mailSeq (p : Panel) (i : Nat) (f : Slice → Slice) : (p.updSlice i f).mailSeq = p.mailSeq := rfl
@[simp] theorem Panel.updSlice_extPuts (p : Panel) (i : Nat) (f : Slice → Slice) : (p.updSlice i f).extPuts = p.extPuts := rfl
@[simp] theorem Panel.updSlice_reports (p : Panel) (i : Nat) (f : Slice → Slice) : (p.updSlice i f).reports = p.reports := rfl
@[simp] theorem Panel.updSlice_outbox (p : Panel) (i : Nat) (f : Slice → Slice) : (p.updSlice i f).outbox = p.outbox := rfl
@[simp] theorem Panel.updSlice_svasum (p : Panel) (i : Nat) (f : Slice → Slice) : (p.updSlice i f).svasum = p.svasum := rfl
@[simp] theorem Panel.updSlice_plans (p : Panel) (i : Nat) (f : Slice → Slice) : (p.updSlice i f).plans = p.plans := rfl

@[simp] theorem Panel.later_now (p : Panel) (d : Nat) (e : Instr) (args : List Nat) : (p.later d e args).now = p.now := rfl
@[simp] theorem Panel.later_evs (p : Panel) (d : Nat) (e : Instr) (args : List Nat) : (p.later d e args).evs = p.evs := rfl
@[simp] theorem Panel.later_nid (p : Panel) (d : Nat) (e : Instr) (args : List Nat) : (p.later d e args).nid = p.nid := rfl
@[simp] theorem Panel.later_free (p : Panel) (d : Nat) (e : Instr) (args : List Nat) : (p.later d e args).free = p.free := rfl
@[simp] theorem Panel.later_stamp (p : Panel) (d : Nat) (e : Instr) (args : List Nat) : (p.later d e args).stamp = p.stamp := rfl
@[simp] theorem Panel.later_ev (p : Panel) (d : Nat) (e : Instr) (args : List Nat) : (p.later d e args).ev = p.ev := rfl
@[simp] theorem Panel.later_mem (p : Panel) (d : Nat) (e : Instr) (args : List Nat) : (p.later d e args).mem = p.mem := rfl
@[simp] theorem Panel.later_cores (p : Panel) (d : Nat) (e : Instr) (args : List Nat) : (p.later d e args).cores = p.cores := rfl
@[simp] theorem Panel.later_slices (p : Panel) (d : Nat) (e : Instr) (args : List Nat) : (p.later d e args).slices = p.slices := rfl
@[simp] theorem Panel.later_clusters (p : Panel) (d : Nat) (e : Instr) (args : List Nat) : (p.later d e args).clusters = p.clusters := rfl
@[simp] theorem Panel.later_hbm (p : Panel) (d : Nat) (e : Instr) (args : List Nat) : (p.later d e args).hbm = p.hbm := rfl
@[simp] theorem Panel.later_keys (p : Panel) (d : Nat) (e : Instr) (args : List Nat) : (p.later d e args).keys = p.keys := rfl
@[simp] theorem Panel.later_parts (p : Panel) (d : Nat) (e : Instr) (args : List Nat) : (p.later d e args).parts = p.parts := rfl
@[simp] theorem Panel.later_blocks (p : Panel) (d : Nat) (e : Instr) (args : List Nat) : (p.later d e args).blocks = p.blocks := rfl
@[simp] theorem Panel.later_launches (p : Panel) (d : Nat) (e : Instr) (args : List Nat) : (p.later d e args).launches = p.launches := rfl
@[simp] theorem Panel.later_fabric (p : Panel) (d : Nat) (e : Instr) (args : List Nat) : (p.later d e args).fabric = p.fabric := rfl
@[simp] theorem Panel.later_accs (p : Panel) (d : Nat) (e : Instr) (args : List Nat) : (p.later d e args).accs = p.accs := rfl
@[simp] theorem Panel.later_cur (p : Panel) (d : Nat) (e : Instr) (args : List Nat) : (p.later d e args).cur = p.cur := rfl
@[simp] theorem Panel.later_panelId (p : Panel) (d : Nat) (e : Instr) (args : List Nat) : (p.later d e args).panelId = p.panelId := rfl
@[simp] theorem Panel.later_nextTag (p : Panel) (d : Nat) (e : Instr) (args : List Nat) : (p.later d e args).nextTag = p.nextTag := rfl
@[simp] theorem Panel.later_hostBase (p : Panel) (d : Nat) (e : Instr) (args : List Nat) : (p.later d e args).hostBase = p.hostBase := rfl
@[simp] theorem Panel.later_hostLimit (p : Panel) (d : Nat) (e : Instr) (args : List Nat) : (p.later d e args).hostLimit = p.hostLimit := rfl
@[simp] theorem Panel.later_mail (p : Panel) (d : Nat) (e : Instr) (args : List Nat) : (p.later d e args).mail = p.mail := rfl
@[simp] theorem Panel.later_mailWait (p : Panel) (d : Nat) (e : Instr) (args : List Nat) : (p.later d e args).mailWait = p.mailWait := rfl
@[simp] theorem Panel.later_mailSeq (p : Panel) (d : Nat) (e : Instr) (args : List Nat) : (p.later d e args).mailSeq = p.mailSeq := rfl
@[simp] theorem Panel.later_extPuts (p : Panel) (d : Nat) (e : Instr) (args : List Nat) : (p.later d e args).extPuts = p.extPuts := rfl
@[simp] theorem Panel.later_reports (p : Panel) (d : Nat) (e : Instr) (args : List Nat) : (p.later d e args).reports = p.reports := rfl
@[simp] theorem Panel.later_outbox (p : Panel) (d : Nat) (e : Instr) (args : List Nat) : (p.later d e args).outbox = p.outbox := rfl
@[simp] theorem Panel.later_svasum (p : Panel) (d : Nat) (e : Instr) (args : List Nat) : (p.later d e args).svasum = p.svasum := rfl
@[simp] theorem Panel.later_plans (p : Panel) (d : Nat) (e : Instr) (args : List Nat) : (p.later d e args).plans = p.plans := rfl

@[simp] theorem Panel.mailIn_now (p : Panel) (m : Mail) : (p.mailIn m).now = p.now := rfl
@[simp] theorem Panel.mailIn_evs (p : Panel) (m : Mail) : (p.mailIn m).evs = p.evs := rfl
@[simp] theorem Panel.mailIn_nid (p : Panel) (m : Mail) : (p.mailIn m).nid = p.nid := rfl
@[simp] theorem Panel.mailIn_free (p : Panel) (m : Mail) : (p.mailIn m).free = p.free := rfl
@[simp] theorem Panel.mailIn_stamp (p : Panel) (m : Mail) : (p.mailIn m).stamp = p.stamp := rfl
@[simp] theorem Panel.mailIn_agenda (p : Panel) (m : Mail) : (p.mailIn m).agenda = p.agenda := rfl
@[simp] theorem Panel.mailIn_ev (p : Panel) (m : Mail) : (p.mailIn m).ev = p.ev := rfl
@[simp] theorem Panel.mailIn_mem (p : Panel) (m : Mail) : (p.mailIn m).mem = p.mem := rfl
@[simp] theorem Panel.mailIn_cores (p : Panel) (m : Mail) : (p.mailIn m).cores = p.cores := rfl
@[simp] theorem Panel.mailIn_slices (p : Panel) (m : Mail) : (p.mailIn m).slices = p.slices := rfl
@[simp] theorem Panel.mailIn_clusters (p : Panel) (m : Mail) : (p.mailIn m).clusters = p.clusters := rfl
@[simp] theorem Panel.mailIn_hbm (p : Panel) (m : Mail) : (p.mailIn m).hbm = p.hbm := rfl
@[simp] theorem Panel.mailIn_keys (p : Panel) (m : Mail) : (p.mailIn m).keys = p.keys := rfl
@[simp] theorem Panel.mailIn_parts (p : Panel) (m : Mail) : (p.mailIn m).parts = p.parts := rfl
@[simp] theorem Panel.mailIn_blocks (p : Panel) (m : Mail) : (p.mailIn m).blocks = p.blocks := rfl
@[simp] theorem Panel.mailIn_launches (p : Panel) (m : Mail) : (p.mailIn m).launches = p.launches := rfl
@[simp] theorem Panel.mailIn_fabric (p : Panel) (m : Mail) : (p.mailIn m).fabric = p.fabric := rfl
@[simp] theorem Panel.mailIn_accs (p : Panel) (m : Mail) : (p.mailIn m).accs = p.accs := rfl
@[simp] theorem Panel.mailIn_cur (p : Panel) (m : Mail) : (p.mailIn m).cur = p.cur := rfl
@[simp] theorem Panel.mailIn_panelId (p : Panel) (m : Mail) : (p.mailIn m).panelId = p.panelId := rfl
@[simp] theorem Panel.mailIn_nextTag (p : Panel) (m : Mail) : (p.mailIn m).nextTag = p.nextTag := rfl
@[simp] theorem Panel.mailIn_hostBase (p : Panel) (m : Mail) : (p.mailIn m).hostBase = p.hostBase := rfl
@[simp] theorem Panel.mailIn_hostLimit (p : Panel) (m : Mail) : (p.mailIn m).hostLimit = p.hostLimit := rfl
@[simp] theorem Panel.mailIn_mailWait (p : Panel) (m : Mail) : (p.mailIn m).mailWait = p.mailWait := rfl
@[simp] theorem Panel.mailIn_extPuts (p : Panel) (m : Mail) : (p.mailIn m).extPuts = p.extPuts := rfl
@[simp] theorem Panel.mailIn_reports (p : Panel) (m : Mail) : (p.mailIn m).reports = p.reports := rfl
@[simp] theorem Panel.mailIn_outbox (p : Panel) (m : Mail) : (p.mailIn m).outbox = p.outbox := rfl
@[simp] theorem Panel.mailIn_svasum (p : Panel) (m : Mail) : (p.mailIn m).svasum = p.svasum := rfl
@[simp] theorem Panel.mailIn_plans (p : Panel) (m : Mail) : (p.mailIn m).plans = p.plans := rfl

@[simp] theorem Panel.report_now (p : Panel) (ep typ : Nat) (pl : List Nat) : (p.report ep typ pl).now = p.now := rfl
@[simp] theorem Panel.report_evs (p : Panel) (ep typ : Nat) (pl : List Nat) : (p.report ep typ pl).evs = p.evs := rfl
@[simp] theorem Panel.report_nid (p : Panel) (ep typ : Nat) (pl : List Nat) : (p.report ep typ pl).nid = p.nid := rfl
@[simp] theorem Panel.report_free (p : Panel) (ep typ : Nat) (pl : List Nat) : (p.report ep typ pl).free = p.free := rfl
@[simp] theorem Panel.report_stamp (p : Panel) (ep typ : Nat) (pl : List Nat) : (p.report ep typ pl).stamp = p.stamp := rfl
@[simp] theorem Panel.report_agenda (p : Panel) (ep typ : Nat) (pl : List Nat) : (p.report ep typ pl).agenda = p.agenda := rfl
@[simp] theorem Panel.report_ev (p : Panel) (ep typ : Nat) (pl : List Nat) : (p.report ep typ pl).ev = p.ev := rfl
@[simp] theorem Panel.report_mem (p : Panel) (ep typ : Nat) (pl : List Nat) : (p.report ep typ pl).mem = p.mem := rfl
@[simp] theorem Panel.report_cores (p : Panel) (ep typ : Nat) (pl : List Nat) : (p.report ep typ pl).cores = p.cores := rfl
@[simp] theorem Panel.report_slices (p : Panel) (ep typ : Nat) (pl : List Nat) : (p.report ep typ pl).slices = p.slices := rfl
@[simp] theorem Panel.report_clusters (p : Panel) (ep typ : Nat) (pl : List Nat) : (p.report ep typ pl).clusters = p.clusters := rfl
@[simp] theorem Panel.report_hbm (p : Panel) (ep typ : Nat) (pl : List Nat) : (p.report ep typ pl).hbm = p.hbm := rfl
@[simp] theorem Panel.report_keys (p : Panel) (ep typ : Nat) (pl : List Nat) : (p.report ep typ pl).keys = p.keys := rfl
@[simp] theorem Panel.report_parts (p : Panel) (ep typ : Nat) (pl : List Nat) : (p.report ep typ pl).parts = p.parts := rfl
@[simp] theorem Panel.report_blocks (p : Panel) (ep typ : Nat) (pl : List Nat) : (p.report ep typ pl).blocks = p.blocks := rfl
@[simp] theorem Panel.report_launches (p : Panel) (ep typ : Nat) (pl : List Nat) : (p.report ep typ pl).launches = p.launches := rfl
@[simp] theorem Panel.report_fabric (p : Panel) (ep typ : Nat) (pl : List Nat) : (p.report ep typ pl).fabric = p.fabric := rfl
@[simp] theorem Panel.report_accs (p : Panel) (ep typ : Nat) (pl : List Nat) : (p.report ep typ pl).accs = p.accs := rfl
@[simp] theorem Panel.report_cur (p : Panel) (ep typ : Nat) (pl : List Nat) : (p.report ep typ pl).cur = p.cur := rfl
@[simp] theorem Panel.report_panelId (p : Panel) (ep typ : Nat) (pl : List Nat) : (p.report ep typ pl).panelId = p.panelId := rfl
@[simp] theorem Panel.report_nextTag (p : Panel) (ep typ : Nat) (pl : List Nat) : (p.report ep typ pl).nextTag = p.nextTag := rfl
@[simp] theorem Panel.report_hostBase (p : Panel) (ep typ : Nat) (pl : List Nat) : (p.report ep typ pl).hostBase = p.hostBase := rfl
@[simp] theorem Panel.report_hostLimit (p : Panel) (ep typ : Nat) (pl : List Nat) : (p.report ep typ pl).hostLimit = p.hostLimit := rfl
@[simp] theorem Panel.report_mail (p : Panel) (ep typ : Nat) (pl : List Nat) : (p.report ep typ pl).mail = p.mail := rfl
@[simp] theorem Panel.report_mailWait (p : Panel) (ep typ : Nat) (pl : List Nat) : (p.report ep typ pl).mailWait = p.mailWait := rfl
@[simp] theorem Panel.report_mailSeq (p : Panel) (ep typ : Nat) (pl : List Nat) : (p.report ep typ pl).mailSeq = p.mailSeq := rfl
@[simp] theorem Panel.report_extPuts (p : Panel) (ep typ : Nat) (pl : List Nat) : (p.report ep typ pl).extPuts = p.extPuts := rfl
@[simp] theorem Panel.report_outbox (p : Panel) (ep typ : Nat) (pl : List Nat) : (p.report ep typ pl).outbox = p.outbox := rfl
@[simp] theorem Panel.report_svasum (p : Panel) (ep typ : Nat) (pl : List Nat) : (p.report ep typ pl).svasum = p.svasum := rfl
@[simp] theorem Panel.report_plans (p : Panel) (ep typ : Nat) (pl : List Nat) : (p.report ep typ pl).plans = p.plans := rfl

@[simp] theorem Panel.charge_now (p : Panel) (lc tag pj : Nat) : (p.charge lc tag pj).now = p.now := rfl
@[simp] theorem Panel.charge_evs (p : Panel) (lc tag pj : Nat) : (p.charge lc tag pj).evs = p.evs := rfl
@[simp] theorem Panel.charge_nid (p : Panel) (lc tag pj : Nat) : (p.charge lc tag pj).nid = p.nid := rfl
@[simp] theorem Panel.charge_free (p : Panel) (lc tag pj : Nat) : (p.charge lc tag pj).free = p.free := rfl
@[simp] theorem Panel.charge_stamp (p : Panel) (lc tag pj : Nat) : (p.charge lc tag pj).stamp = p.stamp := rfl
@[simp] theorem Panel.charge_agenda (p : Panel) (lc tag pj : Nat) : (p.charge lc tag pj).agenda = p.agenda := rfl
@[simp] theorem Panel.charge_ev (p : Panel) (lc tag pj : Nat) : (p.charge lc tag pj).ev = p.ev := rfl
@[simp] theorem Panel.charge_mem (p : Panel) (lc tag pj : Nat) : (p.charge lc tag pj).mem = p.mem := rfl
@[simp] theorem Panel.charge_slices (p : Panel) (lc tag pj : Nat) : (p.charge lc tag pj).slices = p.slices := rfl
@[simp] theorem Panel.charge_clusters (p : Panel) (lc tag pj : Nat) : (p.charge lc tag pj).clusters = p.clusters := rfl
@[simp] theorem Panel.charge_hbm (p : Panel) (lc tag pj : Nat) : (p.charge lc tag pj).hbm = p.hbm := rfl
@[simp] theorem Panel.charge_keys (p : Panel) (lc tag pj : Nat) : (p.charge lc tag pj).keys = p.keys := rfl
@[simp] theorem Panel.charge_parts (p : Panel) (lc tag pj : Nat) : (p.charge lc tag pj).parts = p.parts := rfl
@[simp] theorem Panel.charge_blocks (p : Panel) (lc tag pj : Nat) : (p.charge lc tag pj).blocks = p.blocks := rfl
@[simp] theorem Panel.charge_launches (p : Panel) (lc tag pj : Nat) : (p.charge lc tag pj).launches = p.launches := rfl
@[simp] theorem Panel.charge_fabric (p : Panel) (lc tag pj : Nat) : (p.charge lc tag pj).fabric = p.fabric := rfl
@[simp] theorem Panel.charge_accs (p : Panel) (lc tag pj : Nat) : (p.charge lc tag pj).accs = p.accs := rfl
@[simp] theorem Panel.charge_cur (p : Panel) (lc tag pj : Nat) : (p.charge lc tag pj).cur = p.cur := rfl
@[simp] theorem Panel.charge_panelId (p : Panel) (lc tag pj : Nat) : (p.charge lc tag pj).panelId = p.panelId := rfl
@[simp] theorem Panel.charge_nextTag (p : Panel) (lc tag pj : Nat) : (p.charge lc tag pj).nextTag = p.nextTag := rfl
@[simp] theorem Panel.charge_hostBase (p : Panel) (lc tag pj : Nat) : (p.charge lc tag pj).hostBase = p.hostBase := rfl
@[simp] theorem Panel.charge_hostLimit (p : Panel) (lc tag pj : Nat) : (p.charge lc tag pj).hostLimit = p.hostLimit := rfl
@[simp] theorem Panel.charge_mail (p : Panel) (lc tag pj : Nat) : (p.charge lc tag pj).mail = p.mail := rfl
@[simp] theorem Panel.charge_mailWait (p : Panel) (lc tag pj : Nat) : (p.charge lc tag pj).mailWait = p.mailWait := rfl
@[simp] theorem Panel.charge_mailSeq (p : Panel) (lc tag pj : Nat) : (p.charge lc tag pj).mailSeq = p.mailSeq := rfl
@[simp] theorem Panel.charge_extPuts (p : Panel) (lc tag pj : Nat) : (p.charge lc tag pj).extPuts = p.extPuts := rfl
@[simp] theorem Panel.charge_reports (p : Panel) (lc tag pj : Nat) : (p.charge lc tag pj).reports = p.reports := rfl
@[simp] theorem Panel.charge_outbox (p : Panel) (lc tag pj : Nat) : (p.charge lc tag pj).outbox = p.outbox := rfl
@[simp] theorem Panel.charge_svasum (p : Panel) (lc tag pj : Nat) : (p.charge lc tag pj).svasum = p.svasum := rfl
@[simp] theorem Panel.charge_plans (p : Panel) (lc tag pj : Nat) : (p.charge lc tag pj).plans = p.plans := rfl

@[simp] theorem Panel.updBlock_now (p : Panel) (t : Nat) (f : Block → Block) : (p.updBlock t f).now = p.now := by
  unfold Panel.updBlock; split <;> rfl
@[simp] theorem Panel.updBlock_evs (p : Panel) (t : Nat) (f : Block → Block) : (p.updBlock t f).evs = p.evs := by
  unfold Panel.updBlock; split <;> rfl
@[simp] theorem Panel.updBlock_nid (p : Panel) (t : Nat) (f : Block → Block) : (p.updBlock t f).nid = p.nid := by
  unfold Panel.updBlock; split <;> rfl
@[simp] theorem Panel.updBlock_free (p : Panel) (t : Nat) (f : Block → Block) : (p.updBlock t f).free = p.free := by
  unfold Panel.updBlock; split <;> rfl
@[simp] theorem Panel.updBlock_stamp (p : Panel) (t : Nat) (f : Block → Block) : (p.updBlock t f).stamp = p.stamp := by
  unfold Panel.updBlock; split <;> rfl
@[simp] theorem Panel.updBlock_agenda (p : Panel) (t : Nat) (f : Block → Block) : (p.updBlock t f).agenda = p.agenda := by
  unfold Panel.updBlock; split <;> rfl
@[simp] theorem Panel.updBlock_ev (p : Panel) (t : Nat) (f : Block → Block) : (p.updBlock t f).ev = p.ev := by
  unfold Panel.updBlock; split <;> rfl
@[simp] theorem Panel.updBlock_mem (p : Panel) (t : Nat) (f : Block → Block) : (p.updBlock t f).mem = p.mem := by
  unfold Panel.updBlock; split <;> rfl
@[simp] theorem Panel.updBlock_cores (p : Panel) (t : Nat) (f : Block → Block) : (p.updBlock t f).cores = p.cores := by
  unfold Panel.updBlock; split <;> rfl
@[simp] theorem Panel.updBlock_slices (p : Panel) (t : Nat) (f : Block → Block) : (p.updBlock t f).slices = p.slices := by
  unfold Panel.updBlock; split <;> rfl
@[simp] theorem Panel.updBlock_clusters (p : Panel) (t : Nat) (f : Block → Block) : (p.updBlock t f).clusters = p.clusters := by
  unfold Panel.updBlock; split <;> rfl
@[simp] theorem Panel.updBlock_hbm (p : Panel) (t : Nat) (f : Block → Block) : (p.updBlock t f).hbm = p.hbm := by
  unfold Panel.updBlock; split <;> rfl
@[simp] theorem Panel.updBlock_keys (p : Panel) (t : Nat) (f : Block → Block) : (p.updBlock t f).keys = p.keys := by
  unfold Panel.updBlock; split <;> rfl
@[simp] theorem Panel.updBlock_parts (p : Panel) (t : Nat) (f : Block → Block) : (p.updBlock t f).parts = p.parts := by
  unfold Panel.updBlock; split <;> rfl
@[simp] theorem Panel.updBlock_launches (p : Panel) (t : Nat) (f : Block → Block) : (p.updBlock t f).launches = p.launches := by
  unfold Panel.updBlock; split <;> rfl
@[simp] theorem Panel.updBlock_fabric (p : Panel) (t : Nat) (f : Block → Block) : (p.updBlock t f).fabric = p.fabric := by
  unfold Panel.updBlock; split <;> rfl
@[simp] theorem Panel.updBlock_accs (p : Panel) (t : Nat) (f : Block → Block) : (p.updBlock t f).accs = p.accs := by
  unfold Panel.updBlock; split <;> rfl
@[simp] theorem Panel.updBlock_cur (p : Panel) (t : Nat) (f : Block → Block) : (p.updBlock t f).cur = p.cur := by
  unfold Panel.updBlock; split <;> rfl
@[simp] theorem Panel.updBlock_panelId (p : Panel) (t : Nat) (f : Block → Block) : (p.updBlock t f).panelId = p.panelId := by
  unfold Panel.updBlock; split <;> rfl
@[simp] theorem Panel.updBlock_nextTag (p : Panel) (t : Nat) (f : Block → Block) : (p.updBlock t f).nextTag = p.nextTag := by
  unfold Panel.updBlock; split <;> rfl
@[simp] theorem Panel.updBlock_hostBase (p : Panel) (t : Nat) (f : Block → Block) : (p.updBlock t f).hostBase = p.hostBase := by
  unfold Panel.updBlock; split <;> rfl
@[simp] theorem Panel.updBlock_hostLimit (p : Panel) (t : Nat) (f : Block → Block) : (p.updBlock t f).hostLimit = p.hostLimit := by
  unfold Panel.updBlock; split <;> rfl
@[simp] theorem Panel.updBlock_mail (p : Panel) (t : Nat) (f : Block → Block) : (p.updBlock t f).mail = p.mail := by
  unfold Panel.updBlock; split <;> rfl
@[simp] theorem Panel.updBlock_mailWait (p : Panel) (t : Nat) (f : Block → Block) : (p.updBlock t f).mailWait = p.mailWait := by
  unfold Panel.updBlock; split <;> rfl
@[simp] theorem Panel.updBlock_mailSeq (p : Panel) (t : Nat) (f : Block → Block) : (p.updBlock t f).mailSeq = p.mailSeq := by
  unfold Panel.updBlock; split <;> rfl
@[simp] theorem Panel.updBlock_extPuts (p : Panel) (t : Nat) (f : Block → Block) : (p.updBlock t f).extPuts = p.extPuts := by
  unfold Panel.updBlock; split <;> rfl
@[simp] theorem Panel.updBlock_reports (p : Panel) (t : Nat) (f : Block → Block) : (p.updBlock t f).reports = p.reports := by
  unfold Panel.updBlock; split <;> rfl
@[simp] theorem Panel.updBlock_outbox (p : Panel) (t : Nat) (f : Block → Block) : (p.updBlock t f).outbox = p.outbox := by
  unfold Panel.updBlock; split <;> rfl
@[simp] theorem Panel.updBlock_svasum (p : Panel) (t : Nat) (f : Block → Block) : (p.updBlock t f).svasum = p.svasum := by
  unfold Panel.updBlock; split <;> rfl
@[simp] theorem Panel.updBlock_plans (p : Panel) (t : Nat) (f : Block → Block) : (p.updBlock t f).plans = p.plans := by
  unfold Panel.updBlock; split <;> rfl

@[simp] theorem Panel.updPart_now (p : Panel) (i : Nat) (f : Partition → Partition) : (p.updPart i f).now = p.now := by
  unfold Panel.updPart; split <;> rfl
@[simp] theorem Panel.updPart_evs (p : Panel) (i : Nat) (f : Partition → Partition) : (p.updPart i f).evs = p.evs := by
  unfold Panel.updPart; split <;> rfl
@[simp] theorem Panel.updPart_nid (p : Panel) (i : Nat) (f : Partition → Partition) : (p.updPart i f).nid = p.nid := by
  unfold Panel.updPart; split <;> rfl
@[simp] theorem Panel.updPart_free (p : Panel) (i : Nat) (f : Partition → Partition) : (p.updPart i f).free = p.free := by
  unfold Panel.updPart; split <;> rfl
@[simp] theorem Panel.updPart_stamp (p : Panel) (i : Nat) (f : Partition → Partition) : (p.updPart i f).stamp = p.stamp := by
  unfold Panel.updPart; split <;> rfl
@[simp] theorem Panel.updPart_agenda (p : Panel) (i : Nat) (f : Partition → Partition) : (p.updPart i f).agenda = p.agenda := by
  unfold Panel.updPart; split <;> rfl
@[simp] theorem Panel.updPart_ev (p : Panel) (i : Nat) (f : Partition → Partition) : (p.updPart i f).ev = p.ev := by
  unfold Panel.updPart; split <;> rfl
@[simp] theorem Panel.updPart_mem (p : Panel) (i : Nat) (f : Partition → Partition) : (p.updPart i f).mem = p.mem := by
  unfold Panel.updPart; split <;> rfl
@[simp] theorem Panel.updPart_cores (p : Panel) (i : Nat) (f : Partition → Partition) : (p.updPart i f).cores = p.cores := by
  unfold Panel.updPart; split <;> rfl
@[simp] theorem Panel.updPart_slices (p : Panel) (i : Nat) (f : Partition → Partition) : (p.updPart i f).slices = p.slices := by
  unfold Panel.updPart; split <;> rfl
@[simp] theorem Panel.updPart_clusters (p : Panel) (i : Nat) (f : Partition → Partition) : (p.updPart i f).clusters = p.clusters := by
  unfold Panel.updPart; split <;> rfl
@[simp] theorem Panel.updPart_hbm (p : Panel) (i : Nat) (f : Partition → Partition) : (p.updPart i f).hbm = p.hbm := by
  unfold Panel.updPart; split <;> rfl
@[simp] theorem Panel.updPart_keys (p : Panel) (i : Nat) (f : Partition → Partition) : (p.updPart i f).keys = p.keys := by
  unfold Panel.updPart; split <;> rfl
@[simp] theorem Panel.updPart_blocks (p : Panel) (i : Nat) (f : Partition → Partition) : (p.updPart i f).blocks = p.blocks := by
  unfold Panel.updPart; split <;> rfl
@[simp] theorem Panel.updPart_launches (p : Panel) (i : Nat) (f : Partition → Partition) : (p.updPart i f).launches = p.launches := by
  unfold Panel.updPart; split <;> rfl
@[simp] theorem Panel.updPart_fabric (p : Panel) (i : Nat) (f : Partition → Partition) : (p.updPart i f).fabric = p.fabric := by
  unfold Panel.updPart; split <;> rfl
@[simp] theorem Panel.updPart_accs (p : Panel) (i : Nat) (f : Partition → Partition) : (p.updPart i f).accs = p.accs := by
  unfold Panel.updPart; split <;> rfl
@[simp] theorem Panel.updPart_cur (p : Panel) (i : Nat) (f : Partition → Partition) : (p.updPart i f).cur = p.cur := by
  unfold Panel.updPart; split <;> rfl
@[simp] theorem Panel.updPart_panelId (p : Panel) (i : Nat) (f : Partition → Partition) : (p.updPart i f).panelId = p.panelId := by
  unfold Panel.updPart; split <;> rfl
@[simp] theorem Panel.updPart_nextTag (p : Panel) (i : Nat) (f : Partition → Partition) : (p.updPart i f).nextTag = p.nextTag := by
  unfold Panel.updPart; split <;> rfl
@[simp] theorem Panel.updPart_hostBase (p : Panel) (i : Nat) (f : Partition → Partition) : (p.updPart i f).hostBase = p.hostBase := by
  unfold Panel.updPart; split <;> rfl
@[simp] theorem Panel.updPart_hostLimit (p : Panel) (i : Nat) (f : Partition → Partition) : (p.updPart i f).hostLimit = p.hostLimit := by
  unfold Panel.updPart; split <;> rfl
@[simp] theorem Panel.updPart_mail (p : Panel) (i : Nat) (f : Partition → Partition) : (p.updPart i f).mail = p.mail := by
  unfold Panel.updPart; split <;> rfl
@[simp] theorem Panel.updPart_mailWait (p : Panel) (i : Nat) (f : Partition → Partition) : (p.updPart i f).mailWait = p.mailWait := by
  unfold Panel.updPart; split <;> rfl
@[simp] theorem Panel.updPart_mailSeq (p : Panel) (i : Nat) (f : Partition → Partition) : (p.updPart i f).mailSeq = p.mailSeq := by
  unfold Panel.updPart; split <;> rfl
@[simp] theorem Panel.updPart_extPuts (p : Panel) (i : Nat) (f : Partition → Partition) : (p.updPart i f).extPuts = p.extPuts := by
  unfold Panel.updPart; split <;> rfl
@[simp] theorem Panel.updPart_reports (p : Panel) (i : Nat) (f : Partition → Partition) : (p.updPart i f).reports = p.reports := by
  unfold Panel.updPart; split <;> rfl
@[simp] theorem Panel.updPart_outbox (p : Panel) (i : Nat) (f : Partition → Partition) : (p.updPart i f).outbox = p.outbox := by
  unfold Panel.updPart; split <;> rfl
@[simp] theorem Panel.updPart_svasum (p : Panel) (i : Nat) (f : Partition → Partition) : (p.updPart i f).svasum = p.svasum := by
  unfold Panel.updPart; split <;> rfl
@[simp] theorem Panel.updPart_plans (p : Panel) (i : Nat) (f : Partition → Partition) : (p.updPart i f).plans = p.plans := by
  unfold Panel.updPart; split <;> rfl

@[simp] theorem Panel.updLaunch_now (p : Panel) (i : Nat) (f : Launch → Launch) : (p.updLaunch i f).now = p.now := by
  unfold Panel.updLaunch; split <;> rfl
@[simp] theorem Panel.updLaunch_evs (p : Panel) (i : Nat) (f : Launch → Launch) : (p.updLaunch i f).evs = p.evs := by
  unfold Panel.updLaunch; split <;> rfl
@[simp] theorem Panel.updLaunch_nid (p : Panel) (i : Nat) (f : Launch → Launch) : (p.updLaunch i f).nid = p.nid := by
  unfold Panel.updLaunch; split <;> rfl
@[simp] theorem Panel.updLaunch_free (p : Panel) (i : Nat) (f : Launch → Launch) : (p.updLaunch i f).free = p.free := by
  unfold Panel.updLaunch; split <;> rfl
@[simp] theorem Panel.updLaunch_stamp (p : Panel) (i : Nat) (f : Launch → Launch) : (p.updLaunch i f).stamp = p.stamp := by
  unfold Panel.updLaunch; split <;> rfl
@[simp] theorem Panel.updLaunch_agenda (p : Panel) (i : Nat) (f : Launch → Launch) : (p.updLaunch i f).agenda = p.agenda := by
  unfold Panel.updLaunch; split <;> rfl
@[simp] theorem Panel.updLaunch_ev (p : Panel) (i : Nat) (f : Launch → Launch) : (p.updLaunch i f).ev = p.ev := by
  unfold Panel.updLaunch; split <;> rfl
@[simp] theorem Panel.updLaunch_mem (p : Panel) (i : Nat) (f : Launch → Launch) : (p.updLaunch i f).mem = p.mem := by
  unfold Panel.updLaunch; split <;> rfl
@[simp] theorem Panel.updLaunch_cores (p : Panel) (i : Nat) (f : Launch → Launch) : (p.updLaunch i f).cores = p.cores := by
  unfold Panel.updLaunch; split <;> rfl
@[simp] theorem Panel.updLaunch_slices (p : Panel) (i : Nat) (f : Launch → Launch) : (p.updLaunch i f).slices = p.slices := by
  unfold Panel.updLaunch; split <;> rfl
@[simp] theorem Panel.updLaunch_clusters (p : Panel) (i : Nat) (f : Launch → Launch) : (p.updLaunch i f).clusters = p.clusters := by
  unfold Panel.updLaunch; split <;> rfl
@[simp] theorem Panel.updLaunch_hbm (p : Panel) (i : Nat) (f : Launch → Launch) : (p.updLaunch i f).hbm = p.hbm := by
  unfold Panel.updLaunch; split <;> rfl
@[simp] theorem Panel.updLaunch_keys (p : Panel) (i : Nat) (f : Launch → Launch) : (p.updLaunch i f).keys = p.keys := by
  unfold Panel.updLaunch; split <;> rfl
@[simp] theorem Panel.updLaunch_parts (p : Panel) (i : Nat) (f : Launch → Launch) : (p.updLaunch i f).parts = p.parts := by
  unfold Panel.updLaunch; split <;> rfl
@[simp] theorem Panel.updLaunch_blocks (p : Panel) (i : Nat) (f : Launch → Launch) : (p.updLaunch i f).blocks = p.blocks := by
  unfold Panel.updLaunch; split <;> rfl
@[simp] theorem Panel.updLaunch_fabric (p : Panel) (i : Nat) (f : Launch → Launch) : (p.updLaunch i f).fabric = p.fabric := by
  unfold Panel.updLaunch; split <;> rfl
@[simp] theorem Panel.updLaunch_accs (p : Panel) (i : Nat) (f : Launch → Launch) : (p.updLaunch i f).accs = p.accs := by
  unfold Panel.updLaunch; split <;> rfl
@[simp] theorem Panel.updLaunch_cur (p : Panel) (i : Nat) (f : Launch → Launch) : (p.updLaunch i f).cur = p.cur := by
  unfold Panel.updLaunch; split <;> rfl
@[simp] theorem Panel.updLaunch_panelId (p : Panel) (i : Nat) (f : Launch → Launch) : (p.updLaunch i f).panelId = p.panelId := by
  unfold Panel.updLaunch; split <;> rfl
@[simp] theorem Panel.updLaunch_nextTag (p : Panel) (i : Nat) (f : Launch → Launch) : (p.updLaunch i f).nextTag = p.nextTag := by
  unfold Panel.updLaunch; split <;> rfl
@[simp] theorem Panel.updLaunch_hostBase (p : Panel) (i : Nat) (f : Launch → Launch) : (p.updLaunch i f).hostBase = p.hostBase := by
  unfold Panel.updLaunch; split <;> rfl
@[simp] theorem Panel.updLaunch_hostLimit (p : Panel) (i : Nat) (f : Launch → Launch) : (p.updLaunch i f).hostLimit = p.hostLimit := by
  unfold Panel.updLaunch; split <;> rfl
@[simp] theorem Panel.updLaunch_mail (p : Panel) (i : Nat) (f : Launch → Launch) : (p.updLaunch i f).mail = p.mail := by
  unfold Panel.updLaunch; split <;> rfl
@[simp] theorem Panel.updLaunch_mailWait (p : Panel) (i : Nat) (f : Launch → Launch) : (p.updLaunch i f).mailWait = p.mailWait := by
  unfold Panel.updLaunch; split <;> rfl
@[simp] theorem Panel.updLaunch_mailSeq (p : Panel) (i : Nat) (f : Launch → Launch) : (p.updLaunch i f).mailSeq = p.mailSeq := by
  unfold Panel.updLaunch; split <;> rfl
@[simp] theorem Panel.updLaunch_extPuts (p : Panel) (i : Nat) (f : Launch → Launch) : (p.updLaunch i f).extPuts = p.extPuts := by
  unfold Panel.updLaunch; split <;> rfl
@[simp] theorem Panel.updLaunch_reports (p : Panel) (i : Nat) (f : Launch → Launch) : (p.updLaunch i f).reports = p.reports := by
  unfold Panel.updLaunch; split <;> rfl
@[simp] theorem Panel.updLaunch_outbox (p : Panel) (i : Nat) (f : Launch → Launch) : (p.updLaunch i f).outbox = p.outbox := by
  unfold Panel.updLaunch; split <;> rfl
@[simp] theorem Panel.updLaunch_svasum (p : Panel) (i : Nat) (f : Launch → Launch) : (p.updLaunch i f).svasum = p.svasum := by
  unfold Panel.updLaunch; split <;> rfl
@[simp] theorem Panel.updLaunch_plans (p : Panel) (i : Nat) (f : Launch → Launch) : (p.updLaunch i f).plans = p.plans := by
  unfold Panel.updLaunch; split <;> rfl

@[simp] theorem Panel.mailTo_now (p : Panel) (to_ typ : Nat) (pl : List Nat) : (p.mailTo to_ typ pl).now = p.now := by
  unfold Panel.mailTo; split <;> rfl
@[simp] theorem Panel.mailTo_evs (p : Panel) (to_ typ : Nat) (pl : List Nat) : (p.mailTo to_ typ pl).evs = p.evs := by
  unfold Panel.mailTo; split <;> rfl
@[simp] theorem Panel.mailTo_nid (p : Panel) (to_ typ : Nat) (pl : List Nat) : (p.mailTo to_ typ pl).nid = p.nid := by
  unfold Panel.mailTo; split <;> rfl
@[simp] theorem Panel.mailTo_free (p : Panel) (to_ typ : Nat) (pl : List Nat) : (p.mailTo to_ typ pl).free = p.free := by
  unfold Panel.mailTo; split <;> rfl
@[simp] theorem Panel.mailTo_stamp (p : Panel) (to_ typ : Nat) (pl : List Nat) : (p.mailTo to_ typ pl).stamp = p.stamp := by
  unfold Panel.mailTo; split <;> rfl
@[simp] theorem Panel.mailTo_agenda (p : Panel) (to_ typ : Nat) (pl : List Nat) : (p.mailTo to_ typ pl).agenda = p.agenda := by
  unfold Panel.mailTo; split <;> rfl
@[simp] theorem Panel.mailTo_ev (p : Panel) (to_ typ : Nat) (pl : List Nat) : (p.mailTo to_ typ pl).ev = p.ev := by
  unfold Panel.mailTo; split <;> rfl
@[simp] theorem Panel.mailTo_mem (p : Panel) (to_ typ : Nat) (pl : List Nat) : (p.mailTo to_ typ pl).mem = p.mem := by
  unfold Panel.mailTo; split <;> rfl
@[simp] theorem Panel.mailTo_cores (p : Panel) (to_ typ : Nat) (pl : List Nat) : (p.mailTo to_ typ pl).cores = p.cores := by
  unfold Panel.mailTo; split <;> rfl
@[simp] theorem Panel.mailTo_slices (p : Panel) (to_ typ : Nat) (pl : List Nat) : (p.mailTo to_ typ pl).slices = p.slices := by
  unfold Panel.mailTo; split <;> rfl
@[simp] theorem Panel.mailTo_clusters (p : Panel) (to_ typ : Nat) (pl : List Nat) : (p.mailTo to_ typ pl).clusters = p.clusters := by
  unfold Panel.mailTo; split <;> rfl
@[simp] theorem Panel.mailTo_hbm (p : Panel) (to_ typ : Nat) (pl : List Nat) : (p.mailTo to_ typ pl).hbm = p.hbm := by
  unfold Panel.mailTo; split <;> rfl
@[simp] theorem Panel.mailTo_keys (p : Panel) (to_ typ : Nat) (pl : List Nat) : (p.mailTo to_ typ pl).keys = p.keys := by
  unfold Panel.mailTo; split <;> rfl
@[simp] theorem Panel.mailTo_parts (p : Panel) (to_ typ : Nat) (pl : List Nat) : (p.mailTo to_ typ pl).parts = p.parts := by
  unfold Panel.mailTo; split <;> rfl
@[simp] theorem Panel.mailTo_blocks (p : Panel) (to_ typ : Nat) (pl : List Nat) : (p.mailTo to_ typ pl).blocks = p.blocks := by
  unfold Panel.mailTo; split <;> rfl
@[simp] theorem Panel.mailTo_launches (p : Panel) (to_ typ : Nat) (pl : List Nat) : (p.mailTo to_ typ pl).launches = p.launches := by
  unfold Panel.mailTo; split <;> rfl
@[simp] theorem Panel.mailTo_fabric (p : Panel) (to_ typ : Nat) (pl : List Nat) : (p.mailTo to_ typ pl).fabric = p.fabric := by
  unfold Panel.mailTo; split <;> rfl
@[simp] theorem Panel.mailTo_accs (p : Panel) (to_ typ : Nat) (pl : List Nat) : (p.mailTo to_ typ pl).accs = p.accs := by
  unfold Panel.mailTo; split <;> rfl
@[simp] theorem Panel.mailTo_cur (p : Panel) (to_ typ : Nat) (pl : List Nat) : (p.mailTo to_ typ pl).cur = p.cur := by
  unfold Panel.mailTo; split <;> rfl
@[simp] theorem Panel.mailTo_panelId (p : Panel) (to_ typ : Nat) (pl : List Nat) : (p.mailTo to_ typ pl).panelId = p.panelId := by
  unfold Panel.mailTo; split <;> rfl
@[simp] theorem Panel.mailTo_nextTag (p : Panel) (to_ typ : Nat) (pl : List Nat) : (p.mailTo to_ typ pl).nextTag = p.nextTag := by
  unfold Panel.mailTo; split <;> rfl
@[simp] theorem Panel.mailTo_hostBase (p : Panel) (to_ typ : Nat) (pl : List Nat) : (p.mailTo to_ typ pl).hostBase = p.hostBase := by
  unfold Panel.mailTo; split <;> rfl
@[simp] theorem Panel.mailTo_hostLimit (p : Panel) (to_ typ : Nat) (pl : List Nat) : (p.mailTo to_ typ pl).hostLimit = p.hostLimit := by
  unfold Panel.mailTo; split <;> rfl
@[simp] theorem Panel.mailTo_extPuts (p : Panel) (to_ typ : Nat) (pl : List Nat) : (p.mailTo to_ typ pl).extPuts = p.extPuts := by
  unfold Panel.mailTo; split <;> rfl
@[simp] theorem Panel.mailTo_reports (p : Panel) (to_ typ : Nat) (pl : List Nat) : (p.mailTo to_ typ pl).reports = p.reports := by
  unfold Panel.mailTo; split <;> rfl
@[simp] theorem Panel.mailTo_outbox (p : Panel) (to_ typ : Nat) (pl : List Nat) : (p.mailTo to_ typ pl).outbox = p.outbox := by
  unfold Panel.mailTo; split <;> rfl
@[simp] theorem Panel.mailTo_svasum (p : Panel) (to_ typ : Nat) (pl : List Nat) : (p.mailTo to_ typ pl).svasum = p.svasum := by
  unfold Panel.mailTo; split <;> rfl
@[simp] theorem Panel.mailTo_plans (p : Panel) (to_ typ : Nat) (pl : List Nat) : (p.mailTo to_ typ pl).plans = p.plans := by
  unfold Panel.mailTo; split <;> rfl

@[simp] theorem Panel.fin_now (p : Panel) : (p.fin).now = p.now := by
  unfold Panel.fin; split <;> rfl
@[simp] theorem Panel.fin_evs (p : Panel) : (p.fin).evs = p.evs := by
  unfold Panel.fin; split <;> rfl
@[simp] theorem Panel.fin_nid (p : Panel) : (p.fin).nid = p.nid := by
  unfold Panel.fin; split <;> rfl
@[simp] theorem Panel.fin_free (p : Panel) : (p.fin).free = p.free := by
  unfold Panel.fin; split <;> rfl
@[simp] theorem Panel.fin_stamp (p : Panel) : (p.fin).stamp = p.stamp := by
  unfold Panel.fin; split <;> rfl
@[simp] theorem Panel.fin_agenda (p : Panel) : (p.fin).agenda = p.agenda := by
  unfold Panel.fin; split <;> rfl
@[simp] theorem Panel.fin_ev (p : Panel) : (p.fin).ev = p.ev := by
  unfold Panel.fin; split <;> rfl
@[simp] theorem Panel.fin_mem (p : Panel) : (p.fin).mem = p.mem := by
  unfold Panel.fin; split <;> rfl
@[simp] theorem Panel.fin_slices (p : Panel) : (p.fin).slices = p.slices := by
  unfold Panel.fin; split <;> rfl
@[simp] theorem Panel.fin_clusters (p : Panel) : (p.fin).clusters = p.clusters := by
  unfold Panel.fin; split <;> rfl
@[simp] theorem Panel.fin_hbm (p : Panel) : (p.fin).hbm = p.hbm := by
  unfold Panel.fin; split <;> rfl
@[simp] theorem Panel.fin_keys (p : Panel) : (p.fin).keys = p.keys := by
  unfold Panel.fin; split <;> rfl
@[simp] theorem Panel.fin_parts (p : Panel) : (p.fin).parts = p.parts := by
  unfold Panel.fin; split <;> rfl
@[simp] theorem Panel.fin_blocks (p : Panel) : (p.fin).blocks = p.blocks := by
  unfold Panel.fin; split <;> rfl
@[simp] theorem Panel.fin_launches (p : Panel) : (p.fin).launches = p.launches := by
  unfold Panel.fin; split <;> rfl
@[simp] theorem Panel.fin_fabric (p : Panel) : (p.fin).fabric = p.fabric := by
  unfold Panel.fin; split <;> rfl
@[simp] theorem Panel.fin_accs (p : Panel) : (p.fin).accs = p.accs := by
  unfold Panel.fin; split <;> rfl
@[simp] theorem Panel.fin_cur (p : Panel) : (p.fin).cur = p.cur := by
  unfold Panel.fin; split <;> rfl
@[simp] theorem Panel.fin_panelId (p : Panel) : (p.fin).panelId = p.panelId := by
  unfold Panel.fin; split <;> rfl
@[simp] theorem Panel.fin_nextTag (p : Panel) : (p.fin).nextTag = p.nextTag := by
  unfold Panel.fin; split <;> rfl
@[simp] theorem Panel.fin_hostBase (p : Panel) : (p.fin).hostBase = p.hostBase := by
  unfold Panel.fin; split <;> rfl
@[simp] theorem Panel.fin_hostLimit (p : Panel) : (p.fin).hostLimit = p.hostLimit := by
  unfold Panel.fin; split <;> rfl
@[simp] theorem Panel.fin_mail (p : Panel) : (p.fin).mail = p.mail := by
  unfold Panel.fin; split <;> rfl
@[simp] theorem Panel.fin_mailWait (p : Panel) : (p.fin).mailWait = p.mailWait := by
  unfold Panel.fin; split <;> rfl
@[simp] theorem Panel.fin_mailSeq (p : Panel) : (p.fin).mailSeq = p.mailSeq := by
  unfold Panel.fin; split <;> rfl
@[simp] theorem Panel.fin_extPuts (p : Panel) : (p.fin).extPuts = p.extPuts := by
  unfold Panel.fin; split <;> rfl
@[simp] theorem Panel.fin_reports (p : Panel) : (p.fin).reports = p.reports := by
  unfold Panel.fin; split <;> rfl
@[simp] theorem Panel.fin_outbox (p : Panel) : (p.fin).outbox = p.outbox := by
  unfold Panel.fin; split <;> rfl
@[simp] theorem Panel.fin_svasum (p : Panel) : (p.fin).svasum = p.svasum := by
  unfold Panel.fin; split <;> rfl
@[simp] theorem Panel.fin_plans (p : Panel) : (p.fin).plans = p.plans := by
  unfold Panel.fin; split <;> rfl

@[simp] theorem Panel.setCore_cores (p : Panel) (lc : Nat) (c : Core) : (p.setCore lc c).cores = SMap.set p.cores lc c := rfl
@[simp] theorem Panel.updCore_cores (p : Panel) (lc : Nat) (f : Core → Core) : (p.updCore lc f).cores = SMap.set p.cores lc (f (p.core lc)) := rfl
@[simp] theorem Panel.retry_cur (p : Panel) : p.retry.cur = { p.cur with stalled := true } := rfl
@[simp] theorem Panel.later_agenda (p : Panel) (d : Nat) (e : Instr) (args : List Nat) : (p.later d e args).agenda = p.agenda ++ [(p.now + d, e, args)] := rfl
theorem Panel.mailTo_room (p : Panel) (to_ typ : Nat) (pl : List Nat) (h : p.boxFull to_ to_ = false) :
    p.mailTo to_ typ pl = p.mailIn { to_ := to_, box := to_, typ := typ, payload := pl } := by simp [Panel.mailTo, h]
theorem Panel.mailTo_full (p : Panel) (to_ typ : Nat) (pl : List Nat) (h : p.boxFull to_ to_ = true) :
    p.mailTo to_ typ pl = { p with mailWait := p.mailWait ++ [{ to_ := to_, box := to_, typ := typ, payload := pl }] } := by simp [Panel.mailTo, h]
@[simp] theorem Panel.report_reports (p : Panel) (ep typ : Nat) (pl : List Nat) : (p.report ep typ pl).reports = p.reports ++ [⟨ep, typ, pl⟩] := rfl
@[simp] theorem Panel.updCluster_clusters (p : Panel) (i : Nat) (f : Cluster → Cluster) : (p.updCluster i f).clusters = SMap.set p.clusters i (f (p.cluster i)) := rfl
@[simp] theorem Panel.updSlice_slices (p : Panel) (i : Nat) (f : Slice → Slice) : (p.updSlice i f).slices = SMap.set p.slices i (f (p.slice i)) := rfl

end Sys2Proof.Machine
end

