-- ==== Sys2Proof/Laws/Tables.lean ====
section
/-! SUPPORT. Laws of tables and of memory bytes: reading after writing, at the same place and at another, whatever the list, and the
canonical form of memory, which every memory operation keeps. -/

namespace Sys2Proof.Machine

/-! ### Tables -/

variable {α : Type}

theorem SMap.find_ins_self (i : Nat) (x : α) (m : SMap α) (h : SMap.find m i = none) : SMap.find (SMap.ins i x m) i = some x := by
  induction m with
  | nil => simp [SMap.ins, SMap.find]
  | cons e t ih =>
    obtain ⟨k, v⟩ := e
    simp only [SMap.find] at h
    split at h
    · simp at h
    · rename_i hk
      by_cases hi : i < k <;> simp [SMap.ins, SMap.find, hi, hk, ih h]

theorem SMap.find_ins_other (i j : Nat) (x : α) (m : SMap α) (h : i ≠ j) : SMap.find (SMap.ins i x m) j = SMap.find m j := by
  induction m with
  | nil => simp [SMap.ins, SMap.find, h]
  | cons e t ih =>
    obtain ⟨k, v⟩ := e
    by_cases hi : i < k <;> simp [SMap.ins, SMap.find, hi, h, ih]

theorem SMap.find_del_self (m : SMap α) (i : Nat) : SMap.find (SMap.del m i) i = none := by
  induction m with
  | nil => rfl
  | cons e t ih =>
    obtain ⟨k, v⟩ := e
    by_cases hk : k = i
    · simpa [SMap.del, hk] using ih
    · simpa [SMap.del, SMap.find, hk] using ih

theorem SMap.find_del_other (m : SMap α) (i j : Nat) (h : i ≠ j) : SMap.find (SMap.del m i) j = SMap.find m j := by
  induction m with
  | nil => rfl
  | cons e t ih =>
    obtain ⟨k, v⟩ := e
    by_cases hk : k = i
    · subst hk; simpa [SMap.del, SMap.find, h] using ih
    · by_cases hj : k = j <;> simp_all [SMap.del, SMap.find]

/-- A table reads back what was put there. -/
@[simp] theorem SMap.find_set_self (m : SMap α) (i : Nat) (x : α) : SMap.find (SMap.set m i x) i = some x :=
  SMap.find_ins_self i x _ (SMap.find_del_self m i)

/-- Every other key keeps its entry. -/
theorem SMap.find_set_other (m : SMap α) (i j : Nat) (x : α) (h : i ≠ j) : SMap.find (SMap.set m i x) j = SMap.find m j := by
  rw [SMap.set, SMap.find_ins_other i j x _ h, SMap.find_del_other m i j h]

@[simp] theorem SMap.getD_set_self (m : SMap α) (i : Nat) (x d : α) : SMap.getD (SMap.set m i x) i d = x := by
  simp [SMap.getD]

theorem SMap.getD_set_other (m : SMap α) (i j : Nat) (x d : α) (h : i ≠ j) : SMap.getD (SMap.set m i x) j d = SMap.getD m j d := by
  simp [SMap.getD, SMap.find_set_other m i j x h]

@[simp] theorem SMap.getD_upd_self (m : SMap α) (i : Nat) (d : α) (f : α → α) :
    SMap.getD (SMap.upd m i d f) i d = f (SMap.getD m i d) := by
  simp [SMap.upd]

theorem SMap.getD_upd_other (m : SMap α) (i j : Nat) (d e : α) (f : α → α) (h : i ≠ j) :
    SMap.getD (SMap.upd m i d f) j e = SMap.getD m j e := SMap.getD_set_other m i j _ e h

/-! ### Bytes -/

/-- A byte read at the address just written is the byte written. -/
@[simp] theorem Memory.get_set_self (m : Memory) (a : Nat) (b : Byte) : Memory.get (Memory.set m a b) a = b := by
  induction m with
  | nil => by_cases hb : b = 0#8 <;> simp [Memory.set, Memory.get, hb]
  | cons e t ih =>
    obtain ⟨k, c⟩ := e
    by_cases h1 : a < k
    · by_cases hb : b = 0#8
      · have hk : k ≠ a := by omega
        simp [Memory.set, Memory.get, h1, hb, hk]
      · simp [Memory.set, Memory.get, h1, hb]
    · by_cases h2 : a = k
      · by_cases hb : b = 0#8
        · subst h2
          simp only [Memory.set, h1, hb, if_true, if_false]
          clear ih
          induction t with
          | nil => rfl
          | cons e t ih =>
            obtain ⟨k, c⟩ := e
            by_cases hk : k ≤ a
            · simpa [List.dropWhile, hk] using ih
            · have h3 : k ≠ a := by omega
              have h4 : a < k := by omega
              simp [List.dropWhile, hk, Memory.get, h3, h4]
        · simp [Memory.set, Memory.get, h1, h2, hb]
      · have hk : k ≠ a := fun h => h2 h.symm
        simp [Memory.set, Memory.get, h1, h2, hk, ih]

theorem Memory.get_dropWhile (t : Memory) (a x : Nat) (h : a < x) :
    Memory.get (t.dropWhile fun e => decide (e.1 ≤ a)) x = Memory.get t x := by
  induction t with
  | nil => rfl
  | cons e t ih =>
    obtain ⟨k, c⟩ := e
    by_cases hk : k ≤ a
    · have h1 : k ≠ x := by omega
      have h2 : ¬ x < k := by omega
      simp [List.dropWhile, hk, Memory.get, h1, h2, ih]
    · simp [List.dropWhile, hk]

theorem Memory.get_dropWhile_below (t : Memory) (a x : Nat) (h : x ≤ a) :
    Memory.get (t.dropWhile fun e => decide (e.1 ≤ a)) x = 0 := by
  induction t with
  | nil => rfl
  | cons e t ih =>
    obtain ⟨k, c⟩ := e
    by_cases hk : k ≤ a
    · simpa [List.dropWhile, hk] using ih
    · have h1 : k ≠ x := by omega
      have h2 : x < k := by omega
      simp [List.dropWhile, hk, Memory.get, h1, h2]

/-- Every other address reads as before, whatever the list. -/
theorem Memory.get_set_other (m : Memory) (a x : Nat) (b : Byte) (h : x ≠ a) : Memory.get (Memory.set m a b) x = Memory.get m x := by
  induction m with
  | nil =>
    have h' : a ≠ x := Ne.symm h
    by_cases hb : b = 0#8 <;> simp [Memory.set, Memory.get, hb, h']
  | cons e t ih =>
    obtain ⟨k, c⟩ := e
    have h' : a ≠ x := Ne.symm h
    by_cases h1 : a < k
    · by_cases hb : b = 0#8
      · simp [Memory.set, h1, hb]
      · by_cases h2 : x < a
        · have h3 : k ≠ x := by omega
          have h4 : x < k := by omega
          simp [Memory.set, Memory.get, h1, hb, h', h2, h3, h4]
        · simp [Memory.set, Memory.get, h1, hb, h', h2]
    · by_cases h2 : a = k
      · subst h2
        by_cases hb : b = 0#8
        · simp only [Memory.set, h1, hb, if_true, if_false, Memory.get, h']
          by_cases h3 : x < a
          · simp [h3, Memory.get_dropWhile_below t a x (by omega)]
          · simp [h3, Memory.get_dropWhile t a x (by omega)]
        · simp [Memory.set, Memory.get, hb, h']
      · simp [Memory.set, Memory.get, h1, h2, ih]

theorem Memory.wfFrom_mono (m : Memory) (lo lo' : Nat) (h : lo' ≤ lo) (hm : Memory.wfFrom lo m = true) :
    Memory.wfFrom lo' m = true := by
  cases m with
  | nil => rfl
  | cons e t => obtain ⟨k, b⟩ := e; simp [Memory.wfFrom] at hm ⊢; exact ⟨⟨by omega, hm.1.2⟩, hm.2⟩

theorem Memory.wfFrom_dropWhile (m : Memory) (a lo : Nat) (h : Memory.wfFrom lo m = true) (ha : a < lo) :
    (m.dropWhile fun e => decide (e.1 ≤ a)) = m := by
  cases m with
  | nil => rfl
  | cons e t =>
    obtain ⟨k, b⟩ := e
    simp [Memory.wfFrom] at h
    have : ¬ k ≤ a := by omega
    simp [List.dropWhile, this]

theorem Memory.wfFrom_set (m : Memory) (lo a : Nat) (b : Byte) (h : Memory.wfFrom lo m = true) (ha : lo ≤ a) :
    Memory.wfFrom lo (Memory.set m a b) = true := by
  induction m generalizing lo with
  | nil => by_cases hb : b = 0#8 <;> simp [Memory.set, Memory.wfFrom, hb, ha]
  | cons e t ih =>
    obtain ⟨k, c⟩ := e
    simp only [Memory.wfFrom, Bool.and_eq_true, decide_eq_true_eq] at h
    by_cases h1 : a < k
    · by_cases hb : b = 0#8
      · simp [Memory.set, h1, hb, Memory.wfFrom, h] ; simpa using h.1.2
      · have : a + 1 ≤ k := by omega
        simp [Memory.set, h1, hb, Memory.wfFrom, ha, this, h]; simpa using h.1.2
    · by_cases h2 : a = k
      · subst h2
        by_cases hb : b = 0#8
        · simp only [Memory.set, h1, hb, if_true, if_false]
          rw [Memory.wfFrom_dropWhile t a (a + 1) h.2 (by omega)]
          exact Memory.wfFrom_mono t (a + 1) lo (by omega) h.2
        · simp [Memory.set, h1, hb, Memory.wfFrom, ha, h.2]
      · simp only [Memory.set, h1, h2, if_false, Memory.wfFrom, Bool.and_eq_true, decide_eq_true_eq]
        exact ⟨h.1, ih (k + 1) h.2 (by omega)⟩

/-- A byte written keeps the canonical form. -/
theorem Memory.wf_set (m : Memory) (a : Nat) (b : Byte) (h : Memory.wf m = true) : Memory.wf (Memory.set m a b) = true :=
  Memory.wfFrom_set m 0 a b h (Nat.zero_le a)

/-- So does a run of bytes. -/
theorem Memory.wf_writeN (m : Memory) (a n v : Nat) (h : Memory.wf m = true) : Memory.wf (Memory.writeN m a n v) = true := by
  induction n generalizing m a v with
  | zero => exact h
  | succ n ih => exact ih _ _ _ (Memory.wf_set m a _ h)

/-- So do bits. -/
theorem Memory.wf_writeBits (m : Memory) (ba w v : Nat) (h : Memory.wf m = true) : Memory.wf (Memory.writeBits m ba w v) = true :=
  Memory.wf_writeN m _ _ _ h

theorem Memory.wfFrom_filter (m : Memory) (lo : Nat) (f : Host.Cell → Bool) (h : Memory.wfFrom lo m = true) :
    Memory.wfFrom lo (m.filter f) = true := by
  induction m generalizing lo with
  | nil => rfl
  | cons e t ih =>
    obtain ⟨k, c⟩ := e
    simp only [Memory.wfFrom, Bool.and_eq_true, decide_eq_true_eq] at h
    by_cases hf : f (k, c) = true
    · simp only [List.filter_cons, hf, if_true, Memory.wfFrom, Bool.and_eq_true, decide_eq_true_eq]
      exact ⟨h.1, ih (k + 1) h.2⟩
    · simp only [List.filter_cons, hf, if_false]
      exact Memory.wfFrom_mono _ (k + 1) lo (by omega) (ih (k + 1) h.2)

/-- So does a run of zeros. -/
theorem Memory.wf_clear (m : Memory) (a n : Nat) (h : Memory.wf m = true) : Memory.wf (Memory.clear m a n) = true :=
  Memory.wfFrom_filter m 0 _ h

/-- So does a run put back. -/
theorem Memory.wf_restore (m : Memory) (a n : Nat) (img : Memory) (h : Memory.wf m = true) :
    Memory.wf (Memory.restore m a n img) = true := by
  unfold Memory.restore
  generalize hc : Memory.clear m a n = acc
  have hacc : Memory.wf acc = true := hc ▸ Memory.wf_clear m a n h
  clear hc
  induction img generalizing acc with
  | nil => exact hacc
  | cons c t ih =>
    simp only [List.foldl_cons]
    apply ih
    split
    · exact Memory.wf_set _ _ _ hacc
    · exact hacc

/-- A run that was cut out and moved is in canonical form. -/
theorem Memory.wfFrom_slice (m : Memory) (a n to_ lo : Nat) (h : Memory.wfFrom lo m = true) (hlo : a ≤ lo) :
    Memory.wfFrom (lo - a + to_) (Memory.slice m a n to_) = true := by
  unfold Memory.slice
  induction m generalizing lo with
  | nil => rfl
  | cons e t ih =>
    obtain ⟨k, c⟩ := e
    simp only [Memory.wfFrom, Bool.and_eq_true, decide_eq_true_eq] at h
    have h2 := ih (k + 1) h.2 (by omega)
    by_cases hf : (decide (a ≤ k) && decide (k < a + n)) = true
    · simp only [List.filter_cons, hf, if_true, List.map_cons, Memory.wfFrom, Bool.and_eq_true, decide_eq_true_eq]
      refine ⟨⟨by omega, h.1.2⟩, ?_⟩
      have : k + 1 - a + to_ = k - a + to_ + 1 := by omega
      rwa [this] at h2
    · simp only [List.filter_cons, hf, if_false]
      exact Memory.wfFrom_mono _ (k + 1 - a + to_) _ (by omega) h2

theorem Memory.get_writeN_other (m : Memory) (a n v x : Nat) (h : x < a ∨ a + n ≤ x) :
    Memory.get (Memory.writeN m a n v) x = Memory.get m x := by
  induction n generalizing m a v with
  | zero => rfl
  | succ n ih =>
    rw [Memory.writeN, ih _ _ _ (by omega), Memory.get_set_other _ _ _ _ (by omega)]

theorem Memory.readN_congr (m m' : Memory) (a n : Nat) (h : ∀ x, a ≤ x → x < a + n → Memory.get m x = Memory.get m' x) :
    Memory.readN m a n = Memory.readN m' a n := by
  induction n generalizing a with
  | zero => rfl
  | succ n ih =>
    rw [Memory.readN, Memory.readN, h a (by omega) (by omega), ih (a + 1) fun x h1 h2 => h x (by omega) (by omega)]

/-- A run of bytes reads back as the number written, reduced to its bytes. -/
theorem Memory.readN_writeN (m : Memory) (a n v : Nat) : Memory.readN (Memory.writeN m a n v) a n = v % 256 ^ n := by
  induction n generalizing m a v with
  | zero => simp [Memory.readN, Nat.mod_one]
  | succ n ih =>
    rw [Memory.readN, Memory.writeN, ih, Memory.get_writeN_other _ _ _ _ _ (by omega), Memory.get_set_self]
    simp only [BitVec.toNat_ofNat]
    rw [show 2 ^ 8 = 256 from rfl, show 256 ^ (n + 1) = 256 * 256 ^ n from by rw [Nat.pow_succ, Nat.mul_comm], Nat.mod_mul]

end Sys2Proof.Machine
end

