-- ==== Sys2Proof/Laws/Ops.lean ====
section
/-! SUPPORT. Laws of the named operations: what a core, a context and a register read after each update, and everything that each shared
operation of a bundle can do. -/

namespace Sys2Proof.Machine

/-! ### Cores and contexts -/

@[simp] theorem Panel.core_setCore_self (p : Panel) (lc : Nat) (c : Core) : (p.setCore lc c).core lc = c := by
  simp [Panel.core]

theorem Panel.core_setCore_other (p : Panel) (lc lc' : Nat) (c : Core) (h : lc ≠ lc') : (p.setCore lc c).core lc' = p.core lc' := by
  simp [Panel.core, SMap.getD_set_other _ _ _ _ _ h]

@[simp] theorem Panel.core_updCore_self (p : Panel) (lc : Nat) (f : Core → Core) : (p.updCore lc f).core lc = f (p.core lc) :=
  Panel.core_setCore_self p lc _

theorem Panel.core_updCore_other (p : Panel) (lc lc' : Nat) (f : Core → Core) (h : lc ≠ lc') : (p.updCore lc f).core lc' = p.core lc' :=
  Panel.core_setCore_other p lc lc' _ h

@[simp] theorem Panel.ctx_setCtx_self (p : Panel) (lc slot : Nat) (c : Ctx) : (p.setCtx lc slot c).ctx lc slot = c := by
  simp [Panel.ctx, Panel.setCtx]

theorem Panel.ctx_setCtx_slot (p : Panel) (lc slot slot' : Nat) (c : Ctx) (h : slot ≠ slot') :
    (p.setCtx lc slot c).ctx lc slot' = p.ctx lc slot' := by
  simp [Panel.ctx, Panel.setCtx, SMap.getD_set_other _ _ _ _ _ h]

theorem Panel.ctx_setCtx_core (p : Panel) (lc lc' slot slot' : Nat) (c : Ctx) (h : lc ≠ lc') :
    (p.setCtx lc slot c).ctx lc' slot' = p.ctx lc' slot' := by
  simp [Panel.ctx, Panel.setCtx, Panel.core_updCore_other p lc lc' _ h]

@[simp] theorem Panel.ctx_updCtx_self (p : Panel) (lc slot : Nat) (f : Ctx → Ctx) : (p.updCtx lc slot f).ctx lc slot = f (p.ctx lc slot) :=
  Panel.ctx_setCtx_self p lc slot _

/-- A context of another slot or core keeps its contents when one is updated. -/
theorem Panel.ctx_updCtx_other (p : Panel) (lc slot lc' slot' : Nat) (f : Ctx → Ctx) (h : lc ≠ lc' ∨ slot ≠ slot') :
    (p.updCtx lc slot f).ctx lc' slot' = p.ctx lc' slot' := by
  by_cases hl : lc = lc'
  · subst hl
    exact Panel.ctx_setCtx_slot p lc slot slot' _ (by simpa using h)
  · exact Panel.ctx_setCtx_core p lc lc' slot slot' _ hl

@[simp] theorem Panel.cc_updC (p : Panel) (f : Ctx → Ctx) : (p.updC f).cc = f p.cc := by
  simp [Panel.cc, Panel.updC]

/-- An update of contexts leaves what else its core holds. -/
theorem Panel.core_updCtx (p : Panel) (lc slot lc' : Nat) (f : Ctx → Ctx) :
    (p.updCtx lc slot f).core lc' = { p.core lc' with ctxs := ((p.updCtx lc slot f).core lc').ctxs } := by
  by_cases h : lc = lc'
  · subst h; simp [Panel.updCtx, Panel.setCtx]
  · simp [Panel.updCtx, Panel.setCtx, Panel.core_updCore_other p lc lc' _ h]

/-! ### Registers (R232, R239) -/

/-- g0 reads zero. -/
@[simp] theorem Ctx.gr_zero (c : Ctx) : c.gr 0 = 0 := rfl

/-- A write of g0 is discarded. -/
@[simp] theorem Ctx.setG_zero (c : Ctx) (v : W) : c.setG 0 v = c := rfl

/-- Every other register reads back what was written. -/
theorem Ctx.gr_setG_self (c : Ctx) (i : Nat) (v : W) (h : i ≠ 0) (h16 : i < 16) : (c.setG i v).gr i = v := by
  simp [Ctx.gr, Ctx.setG, h, h16]

/-- The registers that are not written keep their values. -/
theorem Ctx.gr_setG_other (c : Ctx) (i j : Nat) (v : W) (h : i ≠ j) : (c.setG i v).gr j = c.gr j := by
  by_cases hi : i = 0
  · simp [Ctx.setG, hi]
  · simp [Ctx.gr, Ctx.setG, hi, h]

/-- m0 reads all ones. -/
@[simp] theorem Ctx.mask_zero (c : Ctx) : c.mask 0 = BitVec.allOnes 64 := rfl

@[simp] theorem Ctx.setM_zero (c : Ctx) (v : W) : c.setM 0 v = c := rfl

theorem Ctx.mask_setM_self (c : Ctx) (i : Nat) (v : W) (h : i ≠ 0) (h8 : i < 8) : (c.setM i v).mask i = v := by
  simp [Ctx.mask, Ctx.setM, h, h8]

theorem Ctx.mask_setM_other (c : Ctx) (i j : Nat) (v : W) (h : i ≠ j) : (c.setM i v).mask j = c.mask j := by
  by_cases hi : i = 0
  · simp [Ctx.setM, hi]
  · simp [Ctx.mask, Ctx.setM, hi, h]

theorem Ctx.shape_setSh_self (c : Ctx) (i : Nat) (v : Line) (h : i < 16) : (c.setSh i v).shape i = v := by
  simp [Ctx.shape, Ctx.setSh, h]

theorem Ctx.shape_setSh_other (c : Ctx) (i j : Nat) (v : Line) (h : i ≠ j) : (c.setSh i v).shape j = c.shape j := by
  simp [Ctx.shape, Ctx.setSh, h]

@[simp] theorem Panel.cc_putG (p : Panel) (r : Reg) (v : W) : (p.putG r v).cc = p.cc.setG r.toNat v := by
  simp [Panel.putG]

/-- `put` of a register gives it its value, g0 apart, and leaves the others (R232, R275). -/
theorem Panel.gr_putG (p : Panel) (d r : Reg) (v : W) :
    (p.putG d v).cc.gr r.toNat = if r = d ∧ d ≠ 0 then v else p.cc.gr r.toNat := by
  rw [Panel.cc_putG]
  by_cases h : r = d
  · subst h
    by_cases h0 : r = 0#4
    · subst h0; simp
    · have : r.toNat ≠ 0 := fun e => h0 (BitVec.eq_of_toNat_eq (by simpa using e))
      simp [Ctx.gr_setG_self _ _ _ this r.isLt, h0]
  · have : d.toNat ≠ r.toNat := fun e => h (BitVec.eq_of_toNat_eq e.symm)
    simp [h, Ctx.gr_setG_other _ _ _ _ this]

/-! ### Blocks and partitions -/

theorem Panel.part_updPart_self (p : Panel) (i : Nat) (f : Partition → Partition) (h : (SMap.find p.parts i).isSome = true) :
    (p.updPart i f).part i = f (p.part i) := by
  obtain ⟨q, hq⟩ := Option.isSome_iff_exists.mp h
  simp [Panel.updPart, Panel.part, SMap.getD, hq]

theorem Panel.part_updPart_other (p : Panel) (i j : Nat) (f : Partition → Partition) (h : i ≠ j) :
    (p.updPart i f).part j = p.part j := by
  unfold Panel.updPart
  split <;> simp [Panel.part, SMap.getD_set_other _ _ _ _ _ h]

theorem Panel.block_updBlock_self (p : Panel) (i : Nat) (f : Block → Block) (h : (SMap.find p.blocks i).isSome = true) :
    (p.updBlock i f).block i = f (p.block i) := by
  obtain ⟨q, hq⟩ := Option.isSome_iff_exists.mp h
  simp [Panel.updBlock, Panel.block, SMap.getD, hq]

theorem Panel.block_updBlock_other (p : Panel) (i j : Nat) (f : Block → Block) (h : i ≠ j) :
    (p.updBlock i f).block j = p.block j := by
  unfold Panel.updBlock
  split <;> simp [Panel.block, SMap.getD_set_other _ _ _ _ _ h]

theorem Panel.launch_updLaunch_self (p : Panel) (i : Nat) (f : Launch → Launch) (h : (SMap.find p.launches i).isSome = true) :
    (p.updLaunch i f).launch i = f (p.launch i) := by
  obtain ⟨q, hq⟩ := Option.isSome_iff_exists.mp h
  simp [Panel.updLaunch, Panel.launch, SMap.getD, hq]

/-! ### End of a bundle -/

/-- Everything that the end of a bundle does: a lone or control word moves the pc past the bundle, an A-word nothing (R253, R275). -/
theorem Panel.fin_lone (p : Panel) (h : p.cur.aword = false) : p.fin = p.updC fun c => { c with pc := c.pc + w64 p.cur.len } := by
  simp [Panel.fin, h]

theorem Panel.fin_aword (p : Panel) (h : p.cur.aword = true) : p.fin = p := by
  simp [Panel.fin, h]

@[simp] theorem Panel.cc_goto (p : Panel) (t : W) : (p.goto t).cc = { p.cc with pc := t } := by
  simp [Panel.goto]

theorem Panel.cc_fin (p : Panel) (h : p.cur.aword = false) : p.fin.cc = { p.cc with pc := p.cc.pc + w64 p.cur.len } := by
  simp [Panel.fin_lone p h]

/-- The sources of a lone word are the running context's (R253). -/
theorem Panel.src_lone (p : Panel) (h : p.cur.latch = none) : p.src = p.cc := by
  simp [Panel.src, h]

/-- A bundle that cannot issue yet stalls; nothing else changes (R225). -/
theorem Panel.cc_retry (p : Panel) : p.retry.cc = { p.cc with st := .stall, stall := .retry p.evs } := by
  show (p.updC fun c => { c with st := .stall, stall := .retry p.evs }).cc = _
  simp

@[simp] theorem Panel.atHome_home (p : Panel) (k : Panel → Panel) (h : p.isAway = false) : p.atHome k = k p := by
  simp [Panel.atHome, h]

/-- `jump` to a legal target (R282). -/
theorem Panel.jump_legal (p : Panel) (t : W) (f : Panel → Panel) (h : badTarget t = none) : p.jump t f = (f p).goto t := by
  simp [Panel.jump, h]

/-- `jump` to an illegal one traps and writes nothing (R282). -/
theorem Panel.jump_illegal (p : Panel) (t : W) (f : Panel → Panel) (c : Nat) (h : badTarget t = some c) : p.jump t f = p.trap c t := by
  simp [Panel.jump, h]

/-! ### The halt line, gangs and traps (R450-R454, R466) -/

/-- The halt line of a partition that is halted already does not rise again. -/
theorem Panel.raiseHalt_again (p : Panel) (part site reason cause : Nat) (tval : W) (h : (p.part part).halt = true) :
    p.raiseHalt part site reason cause tval = p := by
  simp [Panel.raiseHalt, h]

@[simp] theorem Panel.raiseHalt_mem (p : Panel) (part site reason cause : Nat) (tval : W) :
    (p.raiseHalt part site reason cause tval).mem = p.mem := by
  unfold Panel.raiseHalt; split <;> simp

@[simp] theorem Panel.raiseHalt_cores (p : Panel) (part site reason cause : Nat) (tval : W) :
    (p.raiseHalt part site reason cause tval).cores = p.cores := by
  unfold Panel.raiseHalt; split <;> simp

@[simp] theorem Panel.raiseHalt_cur (p : Panel) (part site reason cause : Nat) (tval : W) :
    (p.raiseHalt part site reason cause tval).cur = p.cur := by
  unfold Panel.raiseHalt; split <;> simp

@[simp] theorem Panel.ctx_raiseHalt (p : Panel) (part site reason cause : Nat) (tval : W) (lc slot : Nat) :
    (p.raiseHalt part site reason cause tval).ctx lc slot = p.ctx lc slot := by
  simp [Panel.ctx, Panel.core]

theorem Panel.dissolve_keep {β : Type} (f : Panel → β) (hf : ∀ (p : Panel) lc slot g, f (p.updCtx lc slot g) = f p) (p : Panel)
    (gang : List Nat) (slot : Nat) : f (p.dissolve gang slot) = f p := by
  unfold Panel.dissolve
  induction gang generalizing p with
  | nil => rfl
  | cons lc t ih => rw [List.foldl_cons, ih, hf]

@[simp] theorem Panel.dissolve_mem (p : Panel) (gang : List Nat) (slot : Nat) : (p.dissolve gang slot).mem = p.mem :=
  Panel.dissolve_keep (·.mem) (fun _ _ _ _ => rfl) p gang slot

@[simp] theorem Panel.dissolve_parts (p : Panel) (gang : List Nat) (slot : Nat) : (p.dissolve gang slot).parts = p.parts :=
  Panel.dissolve_keep (·.parts) (fun _ _ _ _ => rfl) p gang slot

@[simp] theorem Panel.dissolve_cur (p : Panel) (gang : List Nat) (slot : Nat) : (p.dissolve gang slot).cur = p.cur :=
  Panel.dissolve_keep (·.cur) (fun _ _ _ _ => rfl) p gang slot

/-- A dissolved gang takes nothing from a context but its gang and its step in it (R214-R217). -/
theorem Panel.ctx_dissolve (p : Panel) (gang : List Nat) (slot lc slot' : Nat) :
    ∃ g n, (p.dissolve gang slot).ctx lc slot' = { p.ctx lc slot' with gang := g, gangStep := n } := by
  unfold Panel.dissolve
  induction gang generalizing p with
  | nil => exact ⟨_, _, rfl⟩
  | cons a t ih =>
    obtain ⟨g, n, h⟩ := ih (p.updCtx a slot fun c => { c with gang := [], gangStep := 0 })
    rw [List.foldl_cons, h]
    by_cases ha : a = lc ∧ slot = slot'
    · obtain ⟨rfl, rfl⟩ := ha; exact ⟨g, n, by simp⟩
    · refine ⟨g, n, ?_⟩
      rw [Panel.ctx_updCtx_other _ _ _ _ _ _ (by omega)]

/-- A trap changes no byte of memory where it is delivered. -/
@[simp] theorem Panel.deliver_mem (p : Panel) (lc slot cause : Nat) (tval : W) (impr aword away : Bool) :
    (p.deliver lc slot cause tval impr aword away).mem = p.mem := by
  unfold Panel.deliver
  dsimp only
  split
  · simp
  · split <;> simp

/-- A trap of a thread that is not away is delivered at its slot (R452). -/
theorem Panel.trap_home (p : Panel) (cause : Nat) (tval : W) (h : p.isAway = false) :
    p.trap cause tval = { p.deliver p.cur.core p.cur.slot cause tval false p.cur.aword false with cur := { p.cur with trapped := true } } := by
  simp [Panel.trap, h]

theorem Panel.trap_home_mem (p : Panel) (cause : Nat) (tval : W) (h : p.isAway = false) : (p.trap cause tval).mem = p.mem := by
  simp [Panel.trap_home p cause tval h]

/-! ### Packets -/

@[simp] theorem Panel.inject_mem (p : Panel) (to_ : Nat) (k : Packet) (tree : Bool) : (p.inject to_ k tree).mem = p.mem := by
  unfold Panel.inject; split <;> rfl

@[simp] theorem Panel.requestCkpt_mem (p : Panel) (lc : Nat) : (p.requestCkpt lc).mem = p.mem := by
  unfold Panel.requestCkpt; split <;> rfl

/-- A packet sent changes no byte of memory. -/
@[simp] theorem Panel.send_mem (p : Panel) (from_ to_ : Nat) (x : Pay) : (p.send from_ to_ x).mem = p.mem := by
  unfold Panel.send Panel.sendOn
  dsimp only
  repeat' split
  all_goals simp

/-- A core looked at again changes no byte of memory. -/
@[simp] theorem Panel.stir_mem (p : Panel) (lc : Nat) : (p.stir lc).mem = p.mem := by
  unfold Panel.stir; split <;> simp

@[simp] theorem Panel.pop_mem (p : Panel) (lc : Nat) : (p.pop lc).mem = p.mem := by
  simp [Panel.pop]

@[simp] theorem Panel.ringsOff_mem (p : Panel) (lc tag : Nat) : (p.ringsOff lc tag).mem = p.mem := rfl

/-- A slot given up: its thread and, behind the last of its block, the rings (R221). -/
@[simp] theorem Panel.vacate_mem (p : Panel) (lc slot : Nat) : (p.vacate lc slot).mem = p.mem := by
  unfold Panel.vacate; dsimp only; split <;> simp

/-! ### Rings (R228) -/

/-- A write of HEAD is read back, and an append of the same cycle still sees HEAD as the cycle began. -/
@[simp] theorem Ring.setHead_head (r : Ring) (now h : Nat) : (r.setHead now h).head = h := rfl

@[simp] theorem Ring.setHead_headAtStart (r : Ring) (now h : Nat) : (r.setHead now h).headAtStart now = r.headAtStart now := by
  simp [Ring.setHead, Ring.headAtStart]

/-! ### TVEC (R474) -/

/-- A write of TVEC is read back; a trap of the same cycle still goes where TVEC stood as the cycle began, a trap of another to the new one. -/
@[simp] theorem Block.setTvec_tvec (b : Block) (now : Nat) (t : W) : (b.setTvec now t).tvec = t := rfl

@[simp] theorem Block.setTvec_trapVec (b : Block) (now : Nat) (t : W) : (b.setTvec now t).trapVec now = b.trapVec now := by
  simp [Block.setTvec, Block.trapVec]

theorem Block.setTvec_trapVec_later (b : Block) (now m : Nat) (t : W) (h : m ≠ now) : (b.setTvec now t).trapVec m = t := by
  simp [Block.setTvec, Block.trapVec, Ne.symm h]

/-! ### Memory bytes of cores, queue registers -/

/-- A completion of an engine command changes no byte of memory. -/
@[simp] theorem Panel.complete_mem (p : Panel) (lc tag q : Nat) (entry : W) (slot : Nat) (copies : Bool) :
    (p.complete lc tag q entry slot copies).mem = p.mem := by
  unfold Panel.complete
  repeat' split
  all_goals rfl

/-- A queue register reads back the entries put there (R243). -/
theorem Panel.queue_setQueue (p : Panel) (lc tag q : Nat) (es : List W) : (p.setQueue lc tag q es).queue lc tag q = es := by
  simp [Panel.queue, Panel.blk, Panel.setQueue, Panel.updBlk]

/-- Bytes written to a core's local memory: these bytes, and no other (R81). -/
theorem Panel.get_lmWrite_other (p : Panel) (lc off n v x : Nat) (h : x < lmA lc off ∨ lmA lc off + n ≤ x) :
    Memory.get (p.lmWrite lc off n v).mem x = Memory.get p.mem x := by
  unfold Panel.lmWrite
  split
  · rfl
  · exact Memory.get_writeN_other _ _ _ _ _ h

theorem Panel.lmRead_lmWrite (p : Panel) (lc off n v : Nat) : (p.lmWrite lc off n v).lmRead lc off n = v % 256 ^ n := by
  unfold Panel.lmWrite
  split
  · rename_i h; subst h; simp [Panel.lmRead, Memory.readN, Nat.mod_one]
  · exact Memory.readN_writeN _ _ _ _

theorem Panel.lmWrite_wf (p : Panel) (lc off n v : Nat) (h : Memory.wf p.mem = true) : Memory.wf (p.lmWrite lc off n v).mem = true := by
  unfold Panel.lmWrite
  split
  · exact h
  · exact Memory.wf_writeN _ _ _ _ h

/-- A word that was filled is full, and one that was emptied is not (R89). -/
theorem Panel.isFull_setFull (p : Panel) (lc w : Nat) : (p.setFull lc w).isFull lc w = true := by
  unfold Panel.isFull Panel.setFull
  simp only [Panel.core_updCore_self]
  split <;> simp_all

theorem Panel.isFull_setEmpty (p : Panel) (lc w : Nat) : (p.setEmpty lc w).isFull lc w = false := by
  simp [Panel.isFull, Panel.setEmpty]

/-! ### Hops (R481) -/

/-- The hops between two cores depend on the fabric, the partitions and the route that the first core has adopted, and on nothing else. -/
theorem Panel.trip_congr {p q : Panel} (a b cls : Nat) (hf : p.fabric = q.fabric) (hp : p.parts = q.parts)
    (hr : (p.core a).route = (q.core a).route) : p.trip a b cls = q.trip a b cls := by
  simp [Panel.trip, Panel.part, partOf, Panel.routeOf, hf, hp, hr]

/-! ### The memory of the state after reset -/

theorem reset_memory_wf : Memory.wf State.reset.panel.mem = true := rfl

/-- An instruction that acts on the panel leaves the front end and the turns as they are. -/
theorem onPanel_next (f : Panel → Panel) (s : State) : onPanel f s = .next { s with panel := f s.panel } := rfl

end Sys2Proof.Machine
end

