-- ==== Sys2Proof/Laws/PerInstr.lean ====
section
/-! SUPPORT. The family F of LAWS.json: the word of every instruction has its P bit clear (R250, R253: P is the bundle's, and the encoder
leaves it 0), one lemma per constructor; a step that no word encodes has no word. -/

namespace Sys2Proof.Laws.F

/-- The word of an instruction, where it has one, has bit 31 clear. -/
def Statement (i : Instr) : Prop := ∀ w, encode i = some w → w.toNat < 2 ^ 31

theorem word_lt (n : Nat) (h : n < 2 ^ 31) (w : BitVec 32) (e : some (BitVec.ofNat 32 n) = some w) : w.toNat < 2 ^ 31 := by
  cases e; rw [BitVec.toNat_ofNat]; exact Nat.lt_of_le_of_lt (Nat.mod_le _ _) h

theorem beq (a : BitVec 4) (b : BitVec 4) (o : BitVec 16) : Statement (.beq a b o) := word_lt _ (by simp only [fe]; omega)
theorem bne (a : BitVec 4) (b : BitVec 4) (o : BitVec 16) : Statement (.bne a b o) := word_lt _ (by simp only [fe]; omega)
theorem blt (a : BitVec 4) (b : BitVec 4) (o : BitVec 16) : Statement (.blt a b o) := word_lt _ (by simp only [fe]; omega)
theorem bge (a : BitVec 4) (b : BitVec 4) (o : BitVec 16) : Statement (.bge a b o) := word_lt _ (by simp only [fe]; omega)
theorem bltn (a : BitVec 4) (b : BitVec 4) (o : BitVec 16) : Statement (.bltn a b o) := word_lt _ (by simp only [fe]; omega)
theorem bgen (a : BitVec 4) (b : BitVec 4) (o : BitVec 16) : Statement (.bgen a b o) := word_lt _ (by simp only [fe]; omega)
theorem jal (o : BitVec 24) : Statement (.jal o) := word_lt _ (by simp only [fe]; omega)
theorem jalr (d : BitVec 4) (a : BitVec 4) : Statement (.jalr d a) := word_lt _ (by simp only [fe]; omega)
theorem lpc (d : BitVec 4) : Statement (.lpc d) := word_lt _ (by simp only [fe]; omega)
theorem loop (a : BitVec 4) (b : BitVec 4) : Statement (.loop a b) := word_lt _ (by simp only [fe]; omega)
theorem nop : Statement (.nop) := word_lt _ (by decide)
theorem exit : Statement (.exit) := word_lt _ (by decide)
theorem yield : Statement (.yield) := word_lt _ (by decide)
theorem fuse (d : BitVec 4) (m : BitVec 4) : Statement (.fuse d m) := word_lt _ (by simp only [fe]; omega)
theorem split : Statement (.split) := word_lt _ (by decide)
theorem brk (c : BitVec 8) : Statement (.brk c) := word_lt _ (by simp only [fe]; omega)
theorem trap (c : BitVec 8) : Statement (.trap c) := word_lt _ (by simp only [fe]; omega)
theorem eret : Statement (.eret) := word_lt _ (by decide)
theorem ldB (d : BitVec 4) (a : BitVec 4) (i : BitVec 16) : Statement (.ldB d a i) := word_lt _ (by simp only [fe]; omega)
theorem ldH (d : BitVec 4) (a : BitVec 4) (i : BitVec 16) : Statement (.ldH d a i) := word_lt _ (by simp only [fe]; omega)
theorem ldW (d : BitVec 4) (a : BitVec 4) (i : BitVec 16) : Statement (.ldW d a i) := word_lt _ (by simp only [fe]; omega)
theorem ldD (d : BitVec 4) (a : BitVec 4) (i : BitVec 16) : Statement (.ldD d a i) := word_lt _ (by simp only [fe]; omega)
theorem ldBz (d : BitVec 4) (a : BitVec 4) (i : BitVec 16) : Statement (.ldBz d a i) := word_lt _ (by simp only [fe]; omega)
theorem ldHz (d : BitVec 4) (a : BitVec 4) (i : BitVec 16) : Statement (.ldHz d a i) := word_lt _ (by simp only [fe]; omega)
theorem ldWz (d : BitVec 4) (a : BitVec 4) (i : BitVec 16) : Statement (.ldWz d a i) := word_lt _ (by simp only [fe]; omega)
theorem ldx (d : BitVec 4) (a : BitVec 4) (b : BitVec 4) (h : BitVec 2) (s : BitVec 3) : Statement (.ldx d a b h s) := word_lt _ (by simp only [fe]; omega)
theorem pf (a : BitVec 4) (b : BitVec 4) (h : BitVec 2) : Statement (.pf a b h) := word_lt _ (by simp only [fe]; omega)
theorem migr : Statement (.migr) := word_lt _ (by decide)
theorem stB (d : BitVec 4) (a : BitVec 4) (i : BitVec 16) : Statement (.stB d a i) := word_lt _ (by simp only [fe]; omega)
theorem stH (d : BitVec 4) (a : BitVec 4) (i : BitVec 16) : Statement (.stH d a i) := word_lt _ (by simp only [fe]; omega)
theorem stW (d : BitVec 4) (a : BitVec 4) (i : BitVec 16) : Statement (.stW d a i) := word_lt _ (by simp only [fe]; omega)
theorem stD (d : BitVec 4) (a : BitVec 4) (i : BitVec 16) : Statement (.stD d a i) := word_lt _ (by simp only [fe]; omega)
theorem stx (d : BitVec 4) (a : BitVec 4) (b : BitVec 4) (h : BitVec 2) (s : BitVec 2) : Statement (.stx d a b h s) := word_lt _ (by simp only [fe]; omega)
theorem ldbt (d : BitVec 4) (a : BitVec 4) (s : BitVec 1) (w : BitVec 6) : Statement (.ldbt d a s w) := word_lt _ (by simp only [fe]; omega)
theorem stbt (d : BitVec 4) (a : BitVec 4) (w : BitVec 6) : Statement (.stbt d a w) := word_lt _ (by simp only [fe]; omega)
theorem ldsy (d : BitVec 4) (a : BitVec 4) : Statement (.ldsy d a) := word_lt _ (by simp only [fe]; omega)
theorem ldsyTake (d : BitVec 4) (a : BitVec 4) : Statement (.ldsyTake d a) := word_lt _ (by simp only [fe]; omega)
theorem stfl (a : BitVec 4) (b : BitVec 4) : Statement (.stfl a b) := word_lt _ (by simp only [fe]; omega)
theorem feclr (a : BitVec 4) (b : BitVec 4) : Statement (.feclr a b) := word_lt _ (by simp only [fe]; omega)
theorem amoadd (d : BitVec 4) (a : BitVec 4) (b : BitVec 4) (q : BitVec 1) (r : BitVec 1) (s : BitVec 3) (w : BitVec 1) : Statement (.amoadd d a b q r s w) := word_lt _ (by simp only [fe]; omega)
theorem amoswp (d : BitVec 4) (a : BitVec 4) (b : BitVec 4) (q : BitVec 1) (r : BitVec 1) (s : BitVec 3) (w : BitVec 1) : Statement (.amoswp d a b q r s w) := word_lt _ (by simp only [fe]; omega)
theorem amocas (d : BitVec 4) (a : BitVec 4) (b : BitVec 4) (q : BitVec 1) (r : BitVec 1) (s : BitVec 3) (w : BitVec 1) : Statement (.amocas d a b q r s w) := word_lt _ (by simp only [fe]; omega)
theorem amoand (d : BitVec 4) (a : BitVec 4) (b : BitVec 4) (q : BitVec 1) (r : BitVec 1) (s : BitVec 3) (w : BitVec 1) : Statement (.amoand d a b q r s w) := word_lt _ (by simp only [fe]; omega)
theorem amoor (d : BitVec 4) (a : BitVec 4) (b : BitVec 4) (q : BitVec 1) (r : BitVec 1) (s : BitVec 3) (w : BitVec 1) : Statement (.amoor d a b q r s w) := word_lt _ (by simp only [fe]; omega)
theorem amoxor (d : BitVec 4) (a : BitVec 4) (b : BitVec 4) (q : BitVec 1) (r : BitVec 1) (s : BitVec 3) (w : BitVec 1) : Statement (.amoxor d a b q r s w) := word_lt _ (by simp only [fe]; omega)
theorem amomin (d : BitVec 4) (a : BitVec 4) (b : BitVec 4) (q : BitVec 1) (r : BitVec 1) (s : BitVec 3) (w : BitVec 1) : Statement (.amomin d a b q r s w) := word_lt _ (by simp only [fe]; omega)
theorem amomax (d : BitVec 4) (a : BitVec 4) (b : BitVec 4) (q : BitVec 1) (r : BitVec 1) (s : BitVec 3) (w : BitVec 1) : Statement (.amomax d a b q r s w) := word_lt _ (by simp only [fe]; omega)
theorem amominn (d : BitVec 4) (a : BitVec 4) (b : BitVec 4) (q : BitVec 1) (r : BitVec 1) (s : BitVec 3) (w : BitVec 1) : Statement (.amominn d a b q r s w) := word_lt _ (by simp only [fe]; omega)
theorem amomaxn (d : BitVec 4) (a : BitVec 4) (b : BitVec 4) (q : BitVec 1) (r : BitVec 1) (s : BitVec 3) (w : BitVec 1) : Statement (.amomaxn d a b q r s w) := word_lt _ (by simp only [fe]; omega)
theorem amofadd (d : BitVec 4) (a : BitVec 4) (b : BitVec 4) (q : BitVec 1) (r : BitVec 1) (s : BitVec 3) (w : BitVec 1) : Statement (.amofadd d a b q r s w) := word_lt _ (by simp only [fe]; omega)
theorem fence (f : BitVec 4) (s : BitVec 3) (l : BitVec 1) : Statement (.fence f s l) := word_lt _ (by simp only [fe]; omega)
theorem barinit (a : BitVec 4) (b : BitVec 4) (t : BitVec 1) : Statement (.barinit a b t) := word_lt _ (by simp only [fe]; omega)
theorem bararr (a : BitVec 4) : Statement (.bararr a) := word_lt _ (by simp only [fe]; omega)
theorem barwait (a : BitVec 4) : Statement (.barwait a) := word_lt _ (by simp only [fe]; omega)
theorem barexp (a : BitVec 4) (b : BitVec 4) : Statement (.barexp a b) := word_lt _ (by simp only [fe]; omega)
theorem bartest (d : BitVec 4) (a : BitVec 4) : Statement (.bartest d a) := word_lt _ (by simp only [fe]; omega)
theorem waitc (l : BitVec 4) (s : BitVec 4) (c : BitVec 3) (t : BitVec 3) : Statement (.waitc l s c t) := word_lt _ (by simp only [fe]; omega)
theorem hold (n : BitVec 16) : Statement (.hold n) := word_lt _ (by simp only [fe]; omega)
theorem send (a : BitVec 4) (b : BitVec 4) (n : BitVec 8) : Statement (.send a b n) := word_lt _ (by simp only [fe]; omega)
theorem sendh (a : BitVec 4) (b : BitVec 4) (n : BitVec 8) : Statement (.sendh a b n) := word_lt _ (by simp only [fe]; omega)
theorem mcast (a : BitVec 4) (b : BitVec 4) (n : BitVec 8) : Statement (.mcast a b n) := word_lt _ (by simp only [fe]; omega)
theorem mcrd (d : BitVec 4) (a : BitVec 4) (b : BitVec 4) (l : BitVec 10) : Statement (.mcrd d a b l) := word_lt _ (by simp only [fe]; omega)
theorem ringwait (n : BitVec 2) : Statement (.ringwait n) := word_lt _ (by simp only [fe]; omega)
theorem ringpop (d : BitVec 4) (n : BitVec 2) : Statement (.ringpop d n) := word_lt _ (by simp only [fe]; omega)
theorem rhops (d : BitVec 4) (a : BitVec 4) : Statement (.rhops d a) := word_lt _ (by simp only [fe]; omega)
theorem rcopy (d : BitVec 4) (a : BitVec 4) (b : BitVec 4) (c : BitVec 3) : Statement (.rcopy d a b c) := word_lt _ (by simp only [fe]; omega)
theorem l2pf (d : BitVec 4) (a : BitVec 4) (b : BitVec 4) : Statement (.l2pf d a b) := word_lt _ (by simp only [fe]; omega)
theorem l2drop (a : BitVec 4) (b : BitVec 4) : Statement (.l2drop a b) := word_lt _ (by simp only [fe]; omega)
theorem twperm (a : BitVec 4) : Statement (.twperm a) := word_lt _ (by simp only [fe]; omega)
theorem estat (d : BitVec 4) (e : BitVec 4) : Statement (.estat d e) := word_lt _ (by simp only [fe]; omega)
theorem rcopy2d (s : BitVec 4) (a : BitVec 4) (b : BitVec 4) (c : BitVec 3) : Statement (.rcopy2d s a b c) := word_lt _ (by simp only [fe]; omega)
theorem twalk (s : BitVec 4) (a : BitVec 4) (b : BitVec 4) : Statement (.twalk s a b) := word_lt _ (by simp only [fe]; omega)
theorem twalkWb (s : BitVec 4) (b : BitVec 4) : Statement (.twalkWb s b) := word_lt _ (by simp only [fe]; omega)
theorem hlease (a : BitVec 4) (n : BitVec 6) : Statement (.hlease a n) := word_lt _ (by simp only [fe]; omega)
theorem hfree : Statement (.hfree) := word_lt _ (by decide)
theorem hzero (s : BitVec 4) : Statement (.hzero s) := word_lt _ (by simp only [fe]; omega)
theorem hlda (s : BitVec 4) (a : BitVec 4) (b : BitVec 4) : Statement (.hlda s a b) := word_lt _ (by simp only [fe]; omega)
theorem hldb (s : BitVec 4) (a : BitVec 4) (b : BitVec 4) : Statement (.hldb s a b) := word_lt _ (by simp only [fe]; omega)
theorem hldbt (s : BitVec 4) (a : BitVec 4) (b : BitVec 4) : Statement (.hldbt s a b) := word_lt _ (by simp only [fe]; omega)
theorem hrot : Statement (.hrot) := word_lt _ (by decide)
theorem hmma : Statement (.hmma) := word_lt _ (by decide)
theorem hmmar : Statement (.hmmar) := word_lt _ (by decide)
theorem hstc (s : BitVec 4) (a : BitVec 4) (b : BitVec 4) : Statement (.hstc s a b) := word_lt _ (by simp only [fe]; omega)
theorem haccRd (a : BitVec 4) (v : BitVec 1) (i : BitVec 3) : Statement (.haccRd a v i) := word_lt _ (by simp only [fe]; omega)
theorem haccWr (a : BitVec 4) (v : BitVec 1) (i : BitVec 3) : Statement (.haccWr a v i) := word_lt _ (by simp only [fe]; omega)
theorem tld (s : BitVec 4) (a : BitVec 4) (b : BitVec 4) (t : BitVec 3) : Statement (.tld s a b t) := word_lt _ (by simp only [fe]; omega)
theorem tst (s : BitVec 4) (a : BitVec 4) (b : BitVec 4) (t : BitVec 3) : Statement (.tst s a b t) := word_lt _ (by simp only [fe]; omega)
theorem tldt (s : BitVec 4) (a : BitVec 4) (b : BitVec 4) (t : BitVec 3) : Statement (.tldt s a b t) := word_lt _ (by simp only [fe]; omega)
theorem tstt (s : BitVec 4) (a : BitVec 4) (b : BitVec 4) (t : BitVec 3) : Statement (.tstt s a b t) := word_lt _ (by simp only [fe]; omega)
theorem opatch (a : BitVec 4) (b : BitVec 4) : Statement (.opatch a b) := word_lt _ (by simp only [fe]; omega)
theorem ocfg (a : BitVec 4) (b : BitVec 4) (n : BitVec 2) : Statement (.ocfg a b n) := word_lt _ (by simp only [fe]; omega)
theorem oset (a : BitVec 4) (b : BitVec 4) : Statement (.oset a b) := word_lt _ (by simp only [fe]; omega)
theorem oget (d : BitVec 4) (a : BitVec 4) : Statement (.oget d a) := word_lt _ (by simp only [fe]; omega)
theorem orun (a : BitVec 4) (l : BitVec 1) (n : BitVec 2) : Statement (.orun a l n) := word_lt _ (by simp only [fe]; omega)
theorem ostop (n : BitVec 2) : Statement (.ostop n) := word_lt _ (by simp only [fe]; omega)
theorem osave (a : BitVec 4) (n : BitVec 2) : Statement (.osave a n) := word_lt _ (by simp only [fe]; omega)
theorem orest (a : BitVec 4) (n : BitVec 2) : Statement (.orest a n) := word_lt _ (by simp only [fe]; omega)
theorem ostat (d : BitVec 4) (n : BitVec 2) : Statement (.ostat d n) := word_lt _ (by simp only [fe]; omega)
theorem oinj (a : BitVec 4) (b : BitVec 4) : Statement (.oinj a b) := word_lt _ (by simp only [fe]; omega)
theorem vld (d : BitVec 4) (a : BitVec 4) (b : BitVec 4) (h : BitVec 3) (v : BitVec 1) : Statement (.vld d a b h v) := word_lt _ (by simp only [fe]; omega)
theorem vst (d : BitVec 4) (a : BitVec 4) (b : BitVec 4) (h : BitVec 3) (v : BitVec 1) : Statement (.vst d a b h v) := word_lt _ (by simp only [fe]; omega)
theorem vldb (d : BitVec 4) (a : BitVec 4) (b : BitVec 4) (h : BitVec 3) (v : BitVec 1) : Statement (.vldb d a b h v) := word_lt _ (by simp only [fe]; omega)
theorem vldx (d : BitVec 4) (a : BitVec 4) (b : BitVec 4) (m : BitVec 3) (f : BitVec 3) (i : BitVec 1) (v : BitVec 1) : Statement (.vldx d a b m f i v) := word_lt _ (by simp only [fe]; omega)
theorem vstx (d : BitVec 4) (a : BitVec 4) (b : BitVec 4) (m : BitVec 3) (f : BitVec 3) (i : BitVec 1) (v : BitVec 1) : Statement (.vstx d a b m f i v) := word_lt _ (by simp only [fe]; omega)
theorem vldbt (d : BitVec 4) (a : BitVec 4) (b : BitVec 4) (v : BitVec 1) : Statement (.vldbt d a b v) := word_lt _ (by simp only [fe]; omega)
theorem vstbt (d : BitVec 4) (a : BitVec 4) (b : BitVec 4) (v : BitVec 1) : Statement (.vstbt d a b v) := word_lt _ (by simp only [fe]; omega)
theorem qpush (a : BitVec 4) (q : BitVec 4) : Statement (.qpush a q) := word_lt _ (by simp only [fe]; omega)
theorem qpop (d : BitVec 4) (q : BitVec 4) : Statement (.qpop d q) := word_lt _ (by simp only [fe]; omega)
theorem qpeek (d : BitVec 4) (q : BitVec 4) : Statement (.qpeek d q) := word_lt _ (by simp only [fe]; omega)
theorem qlen (d : BitVec 4) (q : BitVec 4) : Statement (.qlen d q) := word_lt _ (by simp only [fe]; omega)
theorem shld (s : BitVec 4) (a : BitVec 4) : Statement (.shld s a) := word_lt _ (by simp only [fe]; omega)
theorem shst (s : BitVec 4) (a : BitVec 4) : Statement (.shst s a) := word_lt _ (by simp only [fe]; omega)
theorem shset (s : BitVec 4) (i : BitVec 8) (f : BitVec 5) : Statement (.shset s i f) := word_lt _ (by simp only [fe]; omega)
theorem shsetg (s : BitVec 4) (b : BitVec 4) (f : BitVec 5) : Statement (.shsetg s b f) := word_lt _ (by simp only [fe]; omega)
theorem shget (s : BitVec 4) (a : BitVec 4) (f : BitVec 5) : Statement (.shget s a f) := word_lt _ (by simp only [fe]; omega)
theorem vwset (a : BitVec 4) (w : BitVec 2) : Statement (.vwset a w) := word_lt _ (by simp only [fe]; omega)
theorem vwget (d : BitVec 4) (w : BitVec 2) : Statement (.vwget d w) := word_lt _ (by simp only [fe]; omega)
theorem crrd (d : BitVec 4) (c : BitVec 12) : Statement (.crrd d c) := word_lt _ (by simp only [fe]; omega)
theorem crwr (a : BitVec 4) (c : BitVec 12) : Statement (.crwr a c) := word_lt _ (by simp only [fe]; omega)
theorem crset (a : BitVec 4) (c : BitVec 12) : Statement (.crset a c) := word_lt _ (by simp only [fe]; omega)
theorem crclr (a : BitVec 4) (c : BitVec 12) : Statement (.crclr a c) := word_lt _ (by simp only [fe]; omega)
theorem ckpt : Statement (.ckpt) := word_lt _ (by decide)
theorem icinv (a : BitVec 4) (b : BitVec 4) : Statement (.icinv a b) := word_lt _ (by simp only [fe]; omega)
theorem tlbinv (a : BitVec 4) (b : BitVec 4) : Statement (.tlbinv a b) := word_lt _ (by simp only [fe]; omega)
theorem halt : Statement (.halt) := word_lt _ (by decide)
theorem add (d : BitVec 4) (a : BitVec 4) (b : BitVec 4) : Statement (.add d a b) := word_lt _ (by simp only [fe]; omega)
theorem sub (d : BitVec 4) (a : BitVec 4) (b : BitVec 4) : Statement (.sub d a b) := word_lt _ (by simp only [fe]; omega)
theorem mul (d : BitVec 4) (a : BitVec 4) (b : BitVec 4) : Statement (.mul d a b) := word_lt _ (by simp only [fe]; omega)
theorem mulh (d : BitVec 4) (a : BitVec 4) (b : BitVec 4) : Statement (.mulh d a b) := word_lt _ (by simp only [fe]; omega)
theorem mulhn (d : BitVec 4) (a : BitVec 4) (b : BitVec 4) : Statement (.mulhn d a b) := word_lt _ (by simp only [fe]; omega)
theorem div (d : BitVec 4) (a : BitVec 4) (b : BitVec 4) : Statement (.div d a b) := word_lt _ (by simp only [fe]; omega)
theorem divn (d : BitVec 4) (a : BitVec 4) (b : BitVec 4) : Statement (.divn d a b) := word_lt _ (by simp only [fe]; omega)
theorem rem (d : BitVec 4) (a : BitVec 4) (b : BitVec 4) : Statement (.rem d a b) := word_lt _ (by simp only [fe]; omega)
theorem remn (d : BitVec 4) (a : BitVec 4) (b : BitVec 4) : Statement (.remn d a b) := word_lt _ (by simp only [fe]; omega)
theorem and (d : BitVec 4) (a : BitVec 4) (b : BitVec 4) : Statement (.and d a b) := word_lt _ (by simp only [fe]; omega)
theorem or (d : BitVec 4) (a : BitVec 4) (b : BitVec 4) : Statement (.or d a b) := word_lt _ (by simp only [fe]; omega)
theorem xor (d : BitVec 4) (a : BitVec 4) (b : BitVec 4) : Statement (.xor d a b) := word_lt _ (by simp only [fe]; omega)
theorem shl (d : BitVec 4) (a : BitVec 4) (b : BitVec 4) : Statement (.shl d a b) := word_lt _ (by simp only [fe]; omega)
theorem shr (d : BitVec 4) (a : BitVec 4) (b : BitVec 4) : Statement (.shr d a b) := word_lt _ (by simp only [fe]; omega)
theorem sra (d : BitVec 4) (a : BitVec 4) (b : BitVec 4) : Statement (.sra d a b) := word_lt _ (by simp only [fe]; omega)
theorem slt (d : BitVec 4) (a : BitVec 4) (b : BitVec 4) : Statement (.slt d a b) := word_lt _ (by simp only [fe]; omega)
theorem sltn (d : BitVec 4) (a : BitVec 4) (b : BitVec 4) : Statement (.sltn d a b) := word_lt _ (by simp only [fe]; omega)
theorem min (d : BitVec 4) (a : BitVec 4) (b : BitVec 4) : Statement (.min d a b) := word_lt _ (by simp only [fe]; omega)
theorem max (d : BitVec 4) (a : BitVec 4) (b : BitVec 4) : Statement (.max d a b) := word_lt _ (by simp only [fe]; omega)
theorem minn (d : BitVec 4) (a : BitVec 4) (b : BitVec 4) : Statement (.minn d a b) := word_lt _ (by simp only [fe]; omega)
theorem maxn (d : BitVec 4) (a : BitVec 4) (b : BitVec 4) : Statement (.maxn d a b) := word_lt _ (by simp only [fe]; omega)
theorem clz (d : BitVec 4) (a : BitVec 4) : Statement (.clz d a) := word_lt _ (by simp only [fe]; omega)
theorem ctz (d : BitVec 4) (a : BitVec 4) : Statement (.ctz d a) := word_lt _ (by simp only [fe]; omega)
theorem popc (d : BitVec 4) (a : BitVec 4) : Statement (.popc d a) := word_lt _ (by simp only [fe]; omega)
theorem sel (d : BitVec 4) (a : BitVec 4) (b : BitVec 4) : Statement (.sel d a b) := word_lt _ (by simp only [fe]; omega)
theorem bext (d : BitVec 4) (a : BitVec 4) (p : BitVec 6) (l : BitVec 6) : Statement (.bext d a p l) := word_lt _ (by simp only [fe]; omega)
theorem bins (d : BitVec 4) (a : BitVec 4) (p : BitVec 6) (l : BitVec 6) : Statement (.bins d a p l) := word_lt _ (by simp only [fe]; omega)
theorem addi (d : BitVec 4) (a : BitVec 4) (i : BitVec 16) : Statement (.addi d a i) := word_lt _ (by simp only [fe]; omega)
theorem andi (d : BitVec 4) (a : BitVec 4) (i : BitVec 16) : Statement (.andi d a i) := word_lt _ (by simp only [fe]; omega)
theorem ori (d : BitVec 4) (a : BitVec 4) (i : BitVec 16) : Statement (.ori d a i) := word_lt _ (by simp only [fe]; omega)
theorem xori (d : BitVec 4) (a : BitVec 4) (i : BitVec 16) : Statement (.xori d a i) := word_lt _ (by simp only [fe]; omega)
theorem slti (d : BitVec 4) (a : BitVec 4) (i : BitVec 16) : Statement (.slti d a i) := word_lt _ (by simp only [fe]; omega)
theorem lui (d : BitVec 4) (i : BitVec 16) : Statement (.lui d i) := word_lt _ (by simp only [fe]; omega)
theorem shli (d : BitVec 4) (a : BitVec 4) (i : BitVec 6) : Statement (.shli d a i) := word_lt _ (by simp only [fe]; omega)
theorem shri (d : BitVec 4) (a : BitVec 4) (i : BitVec 6) : Statement (.shri d a i) := word_lt _ (by simp only [fe]; omega)
theorem srai (d : BitVec 4) (a : BitVec 4) (i : BitVec 6) : Statement (.srai d a i) := word_lt _ (by simp only [fe]; omega)
theorem vadd (d : BitVec 5) (a : BitVec 5) (b : BitVec 5) (f : BitVec 3) (m : BitVec 3) (r : BitVec 2) (s : BitVec 1) : Statement (.vadd d a b f m r s) := word_lt _ (by simp only [fe]; omega)
theorem vsub (d : BitVec 5) (a : BitVec 5) (b : BitVec 5) (f : BitVec 3) (m : BitVec 3) (r : BitVec 2) (s : BitVec 1) : Statement (.vsub d a b f m r s) := word_lt _ (by simp only [fe]; omega)
theorem vmul (d : BitVec 5) (a : BitVec 5) (b : BitVec 5) (f : BitVec 3) (m : BitVec 3) (r : BitVec 2) (s : BitVec 1) : Statement (.vmul d a b f m r s) := word_lt _ (by simp only [fe]; omega)
theorem vfma (d : BitVec 5) (a : BitVec 5) (b : BitVec 5) (f : BitVec 3) (m : BitVec 3) (r : BitVec 2) (s : BitVec 1) : Statement (.vfma d a b f m r s) := word_lt _ (by simp only [fe]; omega)
theorem vfms (d : BitVec 5) (a : BitVec 5) (b : BitVec 5) (f : BitVec 3) (m : BitVec 3) (r : BitVec 2) (s : BitVec 1) : Statement (.vfms d a b f m r s) := word_lt _ (by simp only [fe]; omega)
theorem vfnma (d : BitVec 5) (a : BitVec 5) (b : BitVec 5) (f : BitVec 3) (m : BitVec 3) (r : BitVec 2) (s : BitVec 1) : Statement (.vfnma d a b f m r s) := word_lt _ (by simp only [fe]; omega)
theorem vmin (d : BitVec 5) (a : BitVec 5) (b : BitVec 5) (f : BitVec 3) (m : BitVec 3) (r : BitVec 2) (s : BitVec 1) : Statement (.vmin d a b f m r s) := word_lt _ (by simp only [fe]; omega)
theorem vmax (d : BitVec 5) (a : BitVec 5) (b : BitVec 5) (f : BitVec 3) (m : BitVec 3) (r : BitVec 2) (s : BitVec 1) : Statement (.vmax d a b f m r s) := word_lt _ (by simp only [fe]; omega)
theorem vand (d : BitVec 5) (a : BitVec 5) (b : BitVec 5) (f : BitVec 3) (m : BitVec 3) (r : BitVec 2) : Statement (.vand d a b f m r) := word_lt _ (by simp only [fe]; omega)
theorem vor (d : BitVec 5) (a : BitVec 5) (b : BitVec 5) (f : BitVec 3) (m : BitVec 3) (r : BitVec 2) : Statement (.vor d a b f m r) := word_lt _ (by simp only [fe]; omega)
theorem vxor (d : BitVec 5) (a : BitVec 5) (b : BitVec 5) (f : BitVec 3) (m : BitVec 3) (r : BitVec 2) : Statement (.vxor d a b f m r) := word_lt _ (by simp only [fe]; omega)
theorem vshl (d : BitVec 5) (a : BitVec 5) (b : BitVec 5) (f : BitVec 3) (m : BitVec 3) (r : BitVec 2) (s : BitVec 1) : Statement (.vshl d a b f m r s) := word_lt _ (by simp only [fe]; omega)
theorem vshr (d : BitVec 5) (a : BitVec 5) (b : BitVec 5) (f : BitVec 3) (m : BitVec 3) (r : BitVec 2) : Statement (.vshr d a b f m r) := word_lt _ (by simp only [fe]; omega)
theorem vsra (d : BitVec 5) (a : BitVec 5) (b : BitVec 5) (f : BitVec 3) (m : BitVec 3) (r : BitVec 2) : Statement (.vsra d a b f m r) := word_lt _ (by simp only [fe]; omega)
theorem vcmp (c : BitVec 2) (d : BitVec 3) (a : BitVec 5) (b : BitVec 5) (f : BitVec 3) (m : BitVec 3) (r : BitVec 2) : Statement (.vcmp c d a b f m r) := word_lt _ (by simp only [fe]; omega)
theorem vsel (d : BitVec 5) (a : BitVec 5) (b : BitVec 5) (f : BitVec 3) (m : BitVec 3) (r : BitVec 2) : Statement (.vsel d a b f m r) := word_lt _ (by simp only [fe]; omega)
theorem vbcast (d : BitVec 5) (a : BitVec 4) (f : BitVec 3) (m : BitVec 3) (r : BitVec 2) : Statement (.vbcast d a f m r) := word_lt _ (by simp only [fe]; omega)
theorem vins (d : BitVec 5) (a : BitVec 4) (b : BitVec 4) (f : BitVec 3) (m : BitVec 3) (r : BitVec 2) : Statement (.vins d a b f m r) := word_lt _ (by simp only [fe]; omega)
theorem vext (d : BitVec 4) (a : BitVec 5) (b : BitVec 4) (f : BitVec 3) (r : BitVec 2) : Statement (.vext d a b f r) := word_lt _ (by simp only [fe]; omega)
theorem vperm (d : BitVec 5) (a : BitVec 5) (b : BitVec 5) (f : BitVec 3) (m : BitVec 3) (r : BitVec 2) : Statement (.vperm d a b f m r) := word_lt _ (by simp only [fe]; omega)
theorem vshuf (d : BitVec 5) (a : BitVec 5) (b : BitVec 5) (f : BitVec 3) (p : BitVec 3) (r : BitVec 2) : Statement (.vshuf d a b f p r) := word_lt _ (by simp only [fe]; omega)
theorem vred (d : BitVec 5) (a : BitVec 5) (o : BitVec 5) (f : BitVec 3) (m : BitVec 3) (r : BitVec 2) (s : BitVec 1) : Statement (.vred d a o f m r s) := word_lt _ (by simp only [fe]; omega)
theorem vscan (d : BitVec 5) (a : BitVec 5) (o : BitVec 5) (f : BitVec 3) (m : BitVec 3) (r : BitVec 2) (s : BitVec 1) : Statement (.vscan d a o f m r s) := word_lt _ (by simp only [fe]; omega)
theorem vdot (d : BitVec 5) (a : BitVec 5) (b : BitVec 5) (f : BitVec 3) (m : BitVec 3) (r : BitVec 2) (s : BitVec 1) : Statement (.vdot d a b f m r s) := word_lt _ (by simp only [fe]; omega)
theorem vmov (d : BitVec 5) (a : BitVec 5) (f : BitVec 3) (m : BitVec 3) (r : BitVec 2) : Statement (.vmov d a f m r) := word_lt _ (by simp only [fe]; omega)
theorem vabs (d : BitVec 5) (a : BitVec 5) (f : BitVec 3) (m : BitVec 3) (r : BitVec 2) (s : BitVec 1) : Statement (.vabs d a f m r s) := word_lt _ (by simp only [fe]; omega)
theorem vneg (d : BitVec 5) (a : BitVec 5) (f : BitVec 3) (m : BitVec 3) (r : BitVec 2) (s : BitVec 1) : Statement (.vneg d a f m r s) := word_lt _ (by simp only [fe]; omega)
theorem vnot (d : BitVec 5) (a : BitVec 5) (f : BitVec 3) (m : BitVec 3) (r : BitVec 2) : Statement (.vnot d a f m r) := word_lt _ (by simp only [fe]; omega)
theorem vrcp (d : BitVec 5) (a : BitVec 5) (f : BitVec 3) (m : BitVec 3) (r : BitVec 2) (s : BitVec 1) : Statement (.vrcp d a f m r s) := word_lt _ (by simp only [fe]; omega)
theorem vrsq (d : BitVec 5) (a : BitVec 5) (f : BitVec 3) (m : BitVec 3) (r : BitVec 2) (s : BitVec 1) : Statement (.vrsq d a f m r s) := word_lt _ (by simp only [fe]; omega)
theorem vexp2 (d : BitVec 5) (a : BitVec 5) (f : BitVec 3) (m : BitVec 3) (r : BitVec 2) (s : BitVec 1) : Statement (.vexp2 d a f m r s) := word_lt _ (by simp only [fe]; omega)
theorem vlog2 (d : BitVec 5) (a : BitVec 5) (f : BitVec 3) (m : BitVec 3) (r : BitVec 2) (s : BitVec 1) : Statement (.vlog2 d a f m r s) := word_lt _ (by simp only [fe]; omega)
theorem mset (d : BitVec 3) (a : BitVec 5) (f : BitVec 3) : Statement (.mset d a f) := word_lt _ (by simp only [fe]; omega)
theorem mand (d : BitVec 3) (a : BitVec 3) (b : BitVec 3) : Statement (.mand d a b) := word_lt _ (by simp only [fe]; omega)
theorem mor (d : BitVec 3) (a : BitVec 3) (b : BitVec 3) : Statement (.mor d a b) := word_lt _ (by simp only [fe]; omega)
theorem mnot (d : BitVec 3) (a : BitVec 3) : Statement (.mnot d a) := word_lt _ (by simp only [fe]; omega)
theorem vcvt (d : BitVec 5) (a : BitVec 5) (b : BitVec 5) (f : BitVec 3) (m : BitVec 3) (r : BitVec 2) (s : BitVec 1) : Statement (.vcvt d a b f m r s) := word_lt _ (by simp only [fe]; omega)
theorem vqnt (d : BitVec 5) (a : BitVec 5) (b : BitVec 5) (r : BitVec 2) (s : BitVec 1) : Statement (.vqnt d a b r s) := word_lt _ (by simp only [fe]; omega)
theorem vdqnt (d : BitVec 5) (a : BitVec 5) (r : BitVec 2) (s : BitVec 1) : Statement (.vdqnt d a r s) := word_lt _ (by simp only [fe]; omega)
theorem vrscale (d : BitVec 5) (a : BitVec 5) (b : BitVec 4) (r : BitVec 2) (s : BitVec 1) : Statement (.vrscale d a b r s) := word_lt _ (by simp only [fe]; omega)
theorem vpack (d : BitVec 5) (a : BitVec 5) (b : BitVec 5) (f : BitVec 3) (m : BitVec 3) (r : BitVec 2) (s : BitVec 1) : Statement (.vpack d a b f m r s) := word_lt _ (by simp only [fe]; omega)
theorem vunpk (d : BitVec 5) (a : BitVec 5) (b : BitVec 5) (f : BitVec 3) (m : BitVec 3) (r : BitVec 2) (s : BitVec 1) : Statement (.vunpk d a b f m r s) := word_lt _ (by simp only [fe]; omega)
theorem ogetVector (d : BitVec 5) (g : BitVec 4) (f : BitVec 3) (m : BitVec 3) : Statement (.ogetVector d g f m) := word_lt _ (by simp only [fe]; omega)
theorem osetVector (a : BitVec 5) (g : BitVec 4) (f : BitVec 3) (m : BitVec 3) : Statement (.osetVector a g f m) := word_lt _ (by simp only [fe]; omega)
theorem divResult : Statement .divResult := nofun
theorem issueGapEnd : Statement .issueGapEnd := nofun
theorem holdEnd : Statement .holdEnd := nofun
theorem fuseTimeout : Statement .fuseTimeout := nofun
theorem barrierStaggerEnd : Statement .barrierStaggerEnd := nofun
theorem migrateAfterStall : Statement .migrateAfterStall := nofun
theorem waitTableRetry : Statement .waitTableRetry := nofun
theorem retentionEntry : Statement .retentionEntry := nofun
theorem bankWake : Statement .bankWake := nofun
theorem remoteAccessArrival : Statement .remoteAccessArrival := nofun
theorem remoteAtomicArrival : Statement .remoteAtomicArrival := nofun
theorem barrierOpArrival : Statement .barrierOpArrival := nofun
theorem pendDecrement : Statement .pendDecrement := nofun
theorem twpermArrival : Statement .twpermArrival := nofun
theorem messageArrival : Statement .messageArrival := nofun
theorem handlerMessageArrival : Statement .handlerMessageArrival := nofun
theorem handlerStart : Statement .handlerStart := nofun
theorem migrationContextArrival : Statement .migrationContextArrival := nofun
theorem migrationBounceArrival : Statement .migrationBounceArrival := nofun
theorem homeReturnArrival : Statement .homeReturnArrival := nofun
theorem wakeMessage : Statement .wakeMessage := nofun
theorem lineDelivery : Statement .lineDelivery := nofun
theorem remoteLoadResponse : Statement .remoteLoadResponse := nofun
theorem loadResponse : Statement .loadResponse := nofun
theorem storeAcknowledgement : Statement .storeAcknowledgement := nofun
theorem messageResponse : Statement .messageResponse := nofun
theorem errorResponse : Statement .errorResponse := nofun
theorem l1FillResponse : Statement .l1FillResponse := nofun
theorem messageDivert : Statement .messageDivert := nofun
theorem sliceRequest : Statement .sliceRequest := nofun
theorem mcrdLineRequest : Statement .mcrdLineRequest := nofun
theorem l2pfLineRequest : Statement .l2pfLineRequest := nofun
theorem l2dropLineRequest : Statement .l2dropLineRequest := nofun
theorem hbmFillReturn : Statement .hbmFillReturn := nofun
theorem l2Scrub : Statement .l2Scrub := nofun
theorem hbmScrub : Statement .hbmScrub := nofun
theorem frameInitialisation : Statement .frameInitialisation := nofun
theorem hostRegionAccess : Statement .hostRegionAccess := nofun
theorem hostCompletion : Statement .hostCompletion := nofun
theorem peerRequest : Statement .peerRequest := nofun
theorem peerResponse : Statement .peerResponse := nofun
theorem tlbWalkComplete : Statement .tlbWalkComplete := nofun
theorem pageResolution : Statement .pageResolution := nofun
theorem tlbinvCompletion : Statement .tlbinvCompletion := nofun
theorem engineLineData : Statement .engineLineData := nofun
theorem relayComplete : Statement .relayComplete := nofun
theorem mcrdComplete : Statement .mcrdComplete := nofun
theorem twalkTile : Statement .twalkTile := nofun
theorem twalkComplete : Statement .twalkComplete := nofun
theorem l2pfComplete : Statement .l2pfComplete := nofun
theorem l2dropComplete : Statement .l2dropComplete := nofun
theorem heldCompletionLand : Statement .heldCompletionLand := nofun
theorem tileOpComplete : Statement .tileOpComplete := nofun
theorem hoopCommandComplete : Statement .hoopCommandComplete := nofun
theorem hoopLeaseGrant : Statement .hoopLeaseGrant := nofun
theorem hoopLeaseExpiry : Statement .hoopLeaseExpiry := nofun
theorem osierBoundary : Statement .osierBoundary := nofun
theorem osierStrokeEnqueue : Statement .osierStrokeEnqueue := nofun
theorem alignedRunStart : Statement .alignedRunStart := nofun
theorem blockPlacement : Statement .blockPlacement := nofun
theorem blockRetire : Statement .blockRetire := nofun
theorem parklimitExpiry : Statement .parklimitExpiry := nofun
theorem blockCapture : Statement .blockCapture := nofun
theorem yieldDeadline : Statement .yieldDeadline := nofun
theorem readmission : Statement .readmission := nofun
theorem haltLineArrival : Statement .haltLineArrival := nofun
theorem quiesce : Statement .quiesce := nofun
theorem debugHaltRequest : Statement .debugHaltRequest := nofun
theorem haltRelease : Statement .haltRelease := nofun
theorem debugReset : Statement .debugReset := nofun
theorem debugStore : Statement .debugStore := nofun
theorem replayLatchLoad : Statement .replayLatchLoad := nofun
theorem heartbeat : Statement .heartbeat := nofun
theorem containment : Statement .containment := nofun
theorem checkpoint : Statement .checkpoint := nofun
theorem checkpointPeriodExpiry : Statement .checkpointPeriodExpiry := nofun
theorem checkpointAck : Statement .checkpointAck := nofun
theorem routeCommit : Statement .routeCommit := nofun
theorem routeAdopt : Statement .routeAdopt := nofun
theorem autoWindow : Statement .autoWindow := nofun
theorem svasumFrame : Statement .svasumFrame := nofun
theorem svasumTraining : Statement .svasumTraining := nofun
theorem weightShardArrival : Statement .weightShardArrival := nofun
theorem shardTimeout : Statement .shardTimeout := nofun
theorem queueEnable : Statement .queueEnable := nofun
theorem queueDisable : Statement .queueDisable := nofun
theorem queueUnmap : Statement .queueUnmap := nofun
theorem queueRemap : Statement .queueRemap := nofun
theorem qcbTailWrite : Statement .qcbTailWrite := nofun
theorem qcbWakeWrite : Statement .qcbWakeWrite := nofun
theorem qcbErrackWrite : Statement .qcbErrackWrite := nofun
theorem qcbCancelWrite : Statement .qcbCancelWrite := nofun
theorem queueWaitRetest : Statement .queueWaitRetest := nofun
theorem nopPacket : Statement .nopPacket := nofun
theorem launchPacket : Statement .launchPacket := nofun
theorem launchrange : Statement .launchrange := nofun
theorem indirect : Statement .indirect := nofun
theorem returnPacket : Statement .returnPacket := nofun
theorem pred : Statement .pred := nofun
theorem loopPacket : Statement .loopPacket := nofun
theorem signal : Statement .signal := nofun
theorem waitsig : Statement .waitsig := nofun
theorem fetchfence : Statement .fetchfence := nofun
theorem weightsel : Statement .weightsel := nofun
theorem copyPacket : Statement .copyPacket := nofun
theorem copyComplete : Statement .copyComplete := nofun
theorem admission : Statement .admission := nofun
theorem stagingComplete : Statement .stagingComplete := nofun
theorem completionRecordWrite : Statement .completionRecordWrite := nofun
theorem energyCharge : Statement .energyCharge := nofun
theorem huddleRequest : Statement .huddleRequest := nofun
theorem huddleWindowClose : Statement .huddleWindowClose := nofun
theorem huddleFetchAdd : Statement .huddleFetchAdd := nofun
theorem moduleReset : Statement .moduleReset := nofun
theorem pcieLinkTraining : Statement .pcieLinkTraining := nofun
theorem hostBar2Read : Statement .hostBar2Read := nofun
theorem hostBar2Write : Statement .hostBar2Write := nofun
theorem rpheadWrite : Statement .rpheadWrite := nofun
theorem attest : Statement .attest := nofun
theorem pubkey : Statement .pubkey := nofun
theorem keyload : Statement .keyload := nofun
theorem keyclear : Statement .keyclear := nofun
theorem counter : Statement .counter := nofun
theorem panelSet : Statement .panelSet := nofun
theorem wbPlan : Statement .wbPlan := nofun
theorem wbStart : Statement .wbStart := nofun
theorem partReset : Statement .partReset := nofun
theorem reservedMailboxRequest : Statement .reservedMailboxRequest := nofun
theorem powerWindow : Statement .powerWindow := nofun
theorem junctionTemperatureLimit : Statement .junctionTemperatureLimit := nofun
theorem thermalTrip : Statement .thermalTrip := nofun
theorem siteFault : Statement .siteFault := nofun
theorem softError : Statement .softError := nofun
theorem partitionCreate : Statement .partitionCreate := nofun
theorem peerTableWrite : Statement .peerTableWrite := nofun
theorem pageTableChange : Statement .pageTableChange := nofun
theorem fetchAheadRead : Statement .fetchAheadRead := nofun

end Sys2Proof.Laws.F
end

