-- ==== Sys2Proof/Tests/Slice0.lean ====
section
/-! SUPPORT. Tests: terms that are not well formed, words of the spec's encodings, small states that meet the hypotheses of the
statements, and single instructions with results from outside the model. -/

namespace Sys2Proof.Tests

open Sys2Proof Sys2Proof.Machine

set_option Elab.async false

/-! ### Terms that are not well formed -/

theorem test_wf_scalar : ([.beq 0 0 0, .fuse 0 5, .fuse 0 1, .ldx 0 0 0 0 7, .amoadd 0 0 0 1 0 6 0, .amoswp 0 0 0 0 0 1 0, .fence 3 0 0, .fence 12 0 0, .fence 15 6 0, .send 0 0 0, .sendh 0 0 0,
    .sendh 0 0 10, .mcast 0 0 0, .estat 0 11, .qpush 0 7, .qpop 0 2, .qpeek 0 2, .qlen 0 5, .shset 0 0 19, .shsetg 0 0 19, .shget 0 0 19, .vwset 0 3, .vwget 0 3] : List Instr).all (fun i => !i.wf) = true := by
  decide +kernel

theorem test_wf_vector : ([.vld 0 0 0 7 0, .vst 0 0 0 7 0, .vldb 0 0 0 7 0, .vadd 0 0 0 4 0 1 0, .vand 0 0 0 1 0 0, .vsel 0 0 0 1 0 1, .vrcp 0 0 4 0 0 0, .vrsq 0 0 4 0 0 0,
    .vexp2 0 0 4 0 0 0, .vlog2 0 0 4 0 0 0, .vred 0 0 6 4 0 0 0, .vred 0 0 3 1 0 0 0, .vdot 0 0 0 1 0 0 0, .vdot 0 0 0 6 0 0 0, .vabs 0 0 1 0 0 1, .vneg 0 0 1 0 0 1, .vcvt 0 0 9 4 0 0 0,
    .vcvt 0 0 20 1 0 0 0, .vqnt 0 0 1 0 0, .vqnt 0 0 18 0 0, .ogetVector 0 0 3 0, .osetVector 0 0 3 0] : List Instr).all (fun i => !i.wf) = true := by
  decide +kernel

theorem test_wf_good : ([.beq 0 0 1, .fuse 0 3, .ldx 0 0 0 0 6, .amoadd 0 0 0 1 0 5 0, .fence 15 5 0, .send 0 0 255, .sendh 0 0 9, .estat 0 10, .shset 0 0 18, .vwset 0 2, .vld 0 0 0 6 0, .vadd 0 0 0 4 0 2 1,
    .vred 0 0 2 1 0 0 0, .vqnt 0 0 8 0 0, .powerWindow, .moduleReset] : List Instr).all Instr.wf = true := by decide +kernel

/-! ### Words of the encoding maps -/

theorem test_words_control_1 :
    decodeTableWord 32 0x006CA3C5 = some (.beq 6 12 41925) ∧
    decodeTableWord 32 0x016CA3C5 = some (.bne 6 12 41925) ∧
    decodeTableWord 32 0x026CA3C5 = some (.blt 6 12 41925) ∧
    decodeTableWord 32 0x036CA3C5 = some (.bge 6 12 41925) ∧
    decodeTableWord 32 0x046CA3C5 = some (.bltn 6 12 41925) ∧
    decodeTableWord 32 0x056CA3C5 = some (.bgen 6 12 41925) ∧
    decodeTableWord 32 0x0609A3C5 = some (.jal 631749) ∧
    decodeTableWord 32 0x07960100 = some (.jalr 9 6) ∧
    decodeTableWord 32 0x07900200 = some (.lpc 9) ∧
    decodeTableWord 32 0x0706C300 = some (.loop 6 12) ∧
    decodeTableWord 32 0x07000400 = some (.nop) ∧
    decodeTableWord 32 0x07000500 = some (.exit) := by decide +kernel

theorem test_words_control_2 :
    decodeTableWord 32 0x07000600 = some (.yield) ∧
    decodeTableWord 32 0x07900706 = some (.fuse 9 6) ∧
    decodeTableWord 32 0x07000800 = some (.split) ∧
    decodeTableWord 32 0x0700095A = some (.brk 90) ∧
    decodeTableWord 32 0x07000AA7 = some (.trap 167) ∧
    decodeTableWord 32 0x07000B00 = some (.eret) := by decide +kernel

theorem test_words_load :
    decodeTableWord 32 0x0896C3A5 = some (.ldB 9 6 50085) ∧
    decodeTableWord 32 0x0996C3A5 = some (.ldH 9 6 50085) ∧
    decodeTableWord 32 0x0A96C3A5 = some (.ldW 9 6 50085) ∧
    decodeTableWord 32 0x0B96C3A5 = some (.ldD 9 6 50085) ∧
    decodeTableWord 32 0x0C96C3A5 = some (.ldBz 9 6 50085) ∧
    decodeTableWord 32 0x0D96C3A5 = some (.ldHz 9 6 50085) ∧
    decodeTableWord 32 0x0E96C3A5 = some (.ldWz 9 6 50085) ∧
    decodeTableWord 32 0x0F96C015 = some (.ldx 9 6 12 2 5) ∧
    decodeTableWord 32 0x0F06C110 = some (.pf 6 12 2) ∧
    decodeTableWord 32 0x0F000200 = some (.migr) := by decide +kernel

theorem test_words_store :
    decodeTableWord 32 0x1096C3A5 = some (.stB 9 6 50085) ∧
    decodeTableWord 32 0x1196C3A5 = some (.stH 9 6 50085) ∧
    decodeTableWord 32 0x1296C3A5 = some (.stW 9 6 50085) ∧
    decodeTableWord 32 0x1396C3A5 = some (.stD 9 6 50085) ∧
    decodeTableWord 32 0x1496C012 = some (.stx 9 6 12 2 2) := by decide +kernel

theorem test_words_bits_sync_atomics_1 :
    decodeTableWord 32 0x18960065 = some (.ldbt 9 6 1 37) ∧
    decodeTableWord 32 0x19960025 = some (.stbt 9 6 37) ∧
    decodeTableWord 32 0x1A960000 = some (.ldsy 9 6) ∧
    decodeTableWord 32 0x1A960100 = some (.ldsyTake 9 6) ∧
    decodeTableWord 32 0x1A06C200 = some (.stfl 6 12) ∧
    decodeTableWord 32 0x1A06C300 = some (.feclr 6 12) ∧
    decodeTableWord 32 0x1C96C055 = some (.amoadd 9 6 12 1 0 5 1) ∧
    decodeTableWord 32 0x1C96C0D5 = some (.amoswp 9 6 12 1 0 5 1) ∧
    decodeTableWord 32 0x1C96C155 = some (.amocas 9 6 12 1 0 5 1) ∧
    decodeTableWord 32 0x1C96C1D5 = some (.amoand 9 6 12 1 0 5 1) ∧
    decodeTableWord 32 0x1C96C255 = some (.amoor 9 6 12 1 0 5 1) ∧
    decodeTableWord 32 0x1C96C2D5 = some (.amoxor 9 6 12 1 0 5 1) := by decide +kernel

theorem test_words_bits_sync_atomics_2 :
    decodeTableWord 32 0x1C96C355 = some (.amomin 9 6 12 1 0 5 1) ∧
    decodeTableWord 32 0x1C96C3D5 = some (.amomax 9 6 12 1 0 5 1) ∧
    decodeTableWord 32 0x1C96C455 = some (.amominn 9 6 12 1 0 5 1) ∧
    decodeTableWord 32 0x1C96C4D5 = some (.amomaxn 9 6 12 1 0 5 1) ∧
    decodeTableWord 32 0x1C96C555 = some (.amofadd 9 6 12 1 0 5 1) := by decide +kernel

theorem test_words_order_barriers :
    decodeTableWord 32 0x24000670 = some (.fence 6 3 1) ∧
    decodeTableWord 32 0x2506C001 = some (.barinit 6 12 1) ∧
    decodeTableWord 32 0x25060100 = some (.bararr 6) ∧
    decodeTableWord 32 0x25060200 = some (.barwait 6) ∧
    decodeTableWord 32 0x2506C300 = some (.barexp 6 12) ∧
    decodeTableWord 32 0x25960400 = some (.bartest 9 6) ∧
    decodeTableWord 32 0x2600366A = some (.waitc 13 9 5 2) ∧
    decodeTableWord 32 0x2700BEEF = some (.hold 48879) := by decide +kernel

theorem test_words_messages_engines_1 :
    decodeTableWord 32 0x2806C02B = some (.send 6 12 43) ∧
    decodeTableWord 32 0x2806C107 = some (.sendh 6 12 7) ∧
    decodeTableWord 32 0x2806C22B = some (.mcast 6 12 43) ∧
    decodeTableWord 32 0x2996C2A5 = some (.mcrd 9 6 12 677) ∧
    decodeTableWord 32 0x2A000003 = some (.ringwait 3) ∧
    decodeTableWord 32 0x2A900103 = some (.ringpop 9 3) ∧
    decodeTableWord 32 0x2A960200 = some (.rhops 9 6) ∧
    decodeTableWord 32 0x2C96C006 = some (.rcopy 9 6 12 6) ∧
    decodeTableWord 32 0x2C96C100 = some (.l2pf 9 6 12) ∧
    decodeTableWord 32 0x2C06C200 = some (.l2drop 6 12) ∧
    decodeTableWord 32 0x2C060300 = some (.twperm 6) ∧
    decodeTableWord 32 0x2C900409 = some (.estat 9 9) := by decide +kernel

theorem test_words_messages_engines_2 :
    decodeTableWord 32 0x2DA6C006 = some (.rcopy2d 10 6 12 6) ∧
    decodeTableWord 32 0x2EA6C000 = some (.twalk 10 6 12) ∧
    decodeTableWord 32 0x2EA0C001 = some (.twalkWb 10 12) := by decide +kernel

theorem test_words_hoop_tiles_osier_vmem_1 :
    decodeTableWord 32 0x3006002D = some (.hlease 6 45) ∧
    decodeTableWord 32 0x30000100 = some (.hfree) ∧
    decodeTableWord 32 0x31500000 = some (.hzero 5) ∧
    decodeTableWord 32 0x3156C100 = some (.hlda 5 6 12) ∧
    decodeTableWord 32 0x3156C200 = some (.hldb 5 6 12) ∧
    decodeTableWord 32 0x3156C300 = some (.hldbt 5 6 12) ∧
    decodeTableWord 32 0x31000400 = some (.hrot) ∧
    decodeTableWord 32 0x31000500 = some (.hmma) ∧
    decodeTableWord 32 0x31000600 = some (.hmmar) ∧
    decodeTableWord 32 0x3156C700 = some (.hstc 5 6 12) ∧
    decodeTableWord 32 0x3106080D = some (.haccRd 6 1 5) ∧
    decodeTableWord 32 0x3106081D = some (.haccWr 6 1 5) := by decide +kernel

theorem test_words_hoop_tiles_osier_vmem_2 :
    decodeTableWord 32 0x3256C003 = some (.tld 5 6 12 3) ∧
    decodeTableWord 32 0x3256C103 = some (.tst 5 6 12 3) ∧
    decodeTableWord 32 0x3256C203 = some (.tldt 5 6 12 3) ∧
    decodeTableWord 32 0x3256C303 = some (.tstt 5 6 12 3) ∧
    decodeTableWord 32 0x3406C000 = some (.opatch 6 12) ∧
    decodeTableWord 32 0x3406C103 = some (.ocfg 6 12 3) ∧
    decodeTableWord 32 0x3406C200 = some (.oset 6 12) ∧
    decodeTableWord 32 0x34960300 = some (.oget 9 6) ∧
    decodeTableWord 32 0x34060407 = some (.orun 6 1 3) ∧
    decodeTableWord 32 0x34000503 = some (.ostop 3) ∧
    decodeTableWord 32 0x34060603 = some (.osave 6 3) ∧
    decodeTableWord 32 0x34060703 = some (.orest 6 3) := by decide +kernel

theorem test_words_hoop_tiles_osier_vmem_3 :
    decodeTableWord 32 0x34900803 = some (.ostat 9 3) ∧
    decodeTableWord 32 0x3406C900 = some (.oinj 6 12) ∧
    decodeTableWord 32 0x3696C00B = some (.vld 9 6 12 5 1) ∧
    decodeTableWord 32 0x3696C109 = some (.vst 9 6 12 4 1) ∧
    decodeTableWord 32 0x3696C207 = some (.vldb 9 6 12 3 1) ∧
    decodeTableWord 32 0x3796C0B7 = some (.vldx 9 6 12 5 5 1 1) ∧
    decodeTableWord 32 0x3796C1B7 = some (.vstx 9 6 12 5 5 1 1) ∧
    decodeTableWord 32 0x3796C201 = some (.vldbt 9 6 12 1) ∧
    decodeTableWord 32 0x3796C301 = some (.vstbt 9 6 12 1) := by decide +kernel

theorem test_words_queues_shapes_control_1 :
    decodeTableWord 32 0x3806000D = some (.qpush 6 13) ∧
    decodeTableWord 32 0x3890010B = some (.qpop 9 11) ∧
    decodeTableWord 32 0x38900203 = some (.qpeek 9 3) ∧
    decodeTableWord 32 0x38900302 = some (.qlen 9 2) ∧
    decodeTableWord 32 0x39560000 = some (.shld 5 6) ∧
    decodeTableWord 32 0x39560100 = some (.shst 5 6) ∧
    decodeTableWord 32 0x395A5290 = some (.shset 5 165 18) ∧
    decodeTableWord 32 0x3950C388 = some (.shsetg 5 12 17) ∧
    decodeTableWord 32 0x39560448 = some (.shget 5 6 9) ∧
    decodeTableWord 32 0x3A060002 = some (.vwset 6 2) ∧
    decodeTableWord 32 0x3A900101 = some (.vwget 9 1) ∧
    decodeTableWord 32 0x3C90002A = some (.crrd 9 42) := by decide +kernel

theorem test_words_queues_shapes_control_2 :
    decodeTableWord 32 0x3D0601F3 = some (.crwr 6 499) ∧
    decodeTableWord 32 0x3E060015 = some (.crset 6 21) ∧
    decodeTableWord 32 0x3E160083 = some (.crclr 6 131) ∧
    decodeTableWord 32 0x3E200000 = some (.ckpt) ∧
    decodeTableWord 32 0x3E36C000 = some (.icinv 6 12) ∧
    decodeTableWord 32 0x3E46C000 = some (.tlbinv 6 12) ∧
    decodeTableWord 32 0x3E500000 = some (.halt) := by decide +kernel

theorem test_words_scalar_1 :
    decodeTableWord 32 0x4096C000 = some (.add 9 6 12) ∧
    decodeTableWord 32 0x4096C001 = some (.sub 9 6 12) ∧
    decodeTableWord 32 0x4096C002 = some (.mul 9 6 12) ∧
    decodeTableWord 32 0x4096C003 = some (.mulh 9 6 12) ∧
    decodeTableWord 32 0x4096C004 = some (.mulhn 9 6 12) ∧
    decodeTableWord 32 0x4096C005 = some (.div 9 6 12) ∧
    decodeTableWord 32 0x4096C006 = some (.divn 9 6 12) ∧
    decodeTableWord 32 0x4096C007 = some (.rem 9 6 12) ∧
    decodeTableWord 32 0x4096C008 = some (.remn 9 6 12) ∧
    decodeTableWord 32 0x4096C009 = some (.and 9 6 12) ∧
    decodeTableWord 32 0x4096C00A = some (.or 9 6 12) ∧
    decodeTableWord 32 0x4096C00B = some (.xor 9 6 12) := by decide +kernel

theorem test_words_scalar_2 :
    decodeTableWord 32 0x4096C00C = some (.shl 9 6 12) ∧
    decodeTableWord 32 0x4096C00D = some (.shr 9 6 12) ∧
    decodeTableWord 32 0x4096C00E = some (.sra 9 6 12) ∧
    decodeTableWord 32 0x4096C00F = some (.slt 9 6 12) ∧
    decodeTableWord 32 0x4096C010 = some (.sltn 9 6 12) ∧
    decodeTableWord 32 0x4096C011 = some (.min 9 6 12) ∧
    decodeTableWord 32 0x4096C012 = some (.max 9 6 12) ∧
    decodeTableWord 32 0x4096C013 = some (.minn 9 6 12) ∧
    decodeTableWord 32 0x4096C014 = some (.maxn 9 6 12) ∧
    decodeTableWord 32 0x40960015 = some (.clz 9 6) ∧
    decodeTableWord 32 0x40960016 = some (.ctz 9 6) ∧
    decodeTableWord 32 0x40960017 = some (.popc 9 6) := by decide +kernel

theorem test_words_scalar_3 :
    decodeTableWord 32 0x4096C018 = some (.sel 9 6 12) ∧
    decodeTableWord 32 0x41960A56 = some (.bext 9 6 41 22) ∧
    decodeTableWord 32 0x42960366 = some (.bins 9 6 13 38) ∧
    decodeTableWord 32 0x4396C3A5 = some (.addi 9 6 50085) ∧
    decodeTableWord 32 0x4496C3A5 = some (.andi 9 6 50085) ∧
    decodeTableWord 32 0x4596C3A5 = some (.ori 9 6 50085) ∧
    decodeTableWord 32 0x4696C3A5 = some (.xori 9 6 50085) ∧
    decodeTableWord 32 0x4796C3A5 = some (.slti 9 6 50085) := by decide +kernel

theorem test_words_immediates :
    decodeTableWord 32 0x4890C3A5 = some (.lui 9 50085) ∧
    decodeTableWord 32 0x49960025 = some (.shli 9 6 37) ∧
    decodeTableWord 32 0x4A960025 = some (.shri 9 6 37) ∧
    decodeTableWord 32 0x4B960025 = some (.srai 9 6 37) := by decide +kernel

theorem test_words_varith :
    decodeTableWord 32 0x50ABB76D = some (.vadd 21 14 27 5 5 2 1) ∧
    decodeTableWord 32 0x51ABB76D = some (.vsub 21 14 27 5 5 2 1) ∧
    decodeTableWord 32 0x52ABB76D = some (.vmul 21 14 27 5 5 2 1) ∧
    decodeTableWord 32 0x53ABB76D = some (.vfma 21 14 27 5 5 2 1) ∧
    decodeTableWord 32 0x54ABB76D = some (.vfms 21 14 27 5 5 2 1) ∧
    decodeTableWord 32 0x55ABB76D = some (.vfnma 21 14 27 5 5 2 1) ∧
    decodeTableWord 32 0x56ABB76D = some (.vmin 21 14 27 5 5 2 1) ∧
    decodeTableWord 32 0x57ABB76D = some (.vmax 21 14 27 5 5 2 1) := by decide +kernel

theorem test_words_vbits_vcmp :
    decodeTableWord 32 0x58ABB76C = some (.vand 21 14 27 5 5 2) ∧
    decodeTableWord 32 0x59ABB76C = some (.vor 21 14 27 5 5 2) ∧
    decodeTableWord 32 0x5AABB76C = some (.vxor 21 14 27 5 5 2) ∧
    decodeTableWord 32 0x5BABB76D = some (.vshl 21 14 27 5 5 2 1) ∧
    decodeTableWord 32 0x5CABB76C = some (.vshr 21 14 27 5 5 2) ∧
    decodeTableWord 32 0x5DABB76C = some (.vsra 21 14 27 5 5 2) ∧
    decodeTableWord 32 0x5EABB76C = some (.vcmp 2 5 14 27 5 5 2) ∧
    decodeTableWord 32 0x5FABB76C = some (.vsel 21 14 27 5 5 2) := by decide +kernel

theorem test_words_vmove_vred :
    decodeTableWord 32 0x60A9816C = some (.vbcast 21 6 5 5 2) ∧
    decodeTableWord 32 0x61A9996C = some (.vins 21 6 12 5 5 2) ∧
    decodeTableWord 32 0x624B9944 = some (.vext 9 14 12 5 2) ∧
    decodeTableWord 32 0x63ABB76C = some (.vperm 21 14 27 5 5 2) ∧
    decodeTableWord 32 0x64ABB74C = some (.vshuf 21 14 27 5 1 2) ∧
    decodeTableWord 32 0x65AB896D = some (.vred 21 14 4 5 5 2 1) ∧
    decodeTableWord 32 0x66AB8B6D = some (.vscan 21 14 5 5 5 2 1) ∧
    decodeTableWord 32 0x67ABB72D = some (.vdot 21 14 27 4 5 2 1) := by decide +kernel

theorem test_words_vunary_masks :
    decodeTableWord 32 0x6EAB816C = some (.vmov 21 14 5 5 2) ∧
    decodeTableWord 32 0x6EAB836D = some (.vabs 21 14 5 5 2 1) ∧
    decodeTableWord 32 0x6EAB856D = some (.vneg 21 14 5 5 2 1) ∧
    decodeTableWord 32 0x6EAB876C = some (.vnot 21 14 5 5 2) ∧
    decodeTableWord 32 0x6EAB886B = some (.vrcp 21 14 1 5 1 1) ∧
    decodeTableWord 32 0x6EAB8AAF = some (.vrsq 21 14 2 5 3 1) ∧
    decodeTableWord 32 0x6EAB8CED = some (.vexp2 21 14 3 5 2 1) ∧
    decodeTableWord 32 0x6EAB8E2D = some (.vlog2 21 14 0 5 2 1) ∧
    decodeTableWord 32 0x6F2CC140 = some (.mset 5 19 5) ∧
    decodeTableWord 32 0x6F68CC00 = some (.mand 5 3 6) ∧
    decodeTableWord 32 0x6FA8CC00 = some (.mor 5 3 6) ∧
    decodeTableWord 32 0x6FE8C000 = some (.mnot 5 3) := by decide +kernel

theorem test_words_vconvert :
    decodeTableWord 32 0x70ABABAD = some (.vcvt 21 14 21 6 5 2 1) ∧
    decodeTableWord 32 0x71ABB045 = some (.vqnt 21 14 24 2 1) ∧
    decodeTableWord 32 0x72AB8045 = some (.vdqnt 21 14 2 1) ∧
    decodeTableWord 32 0x73AB9805 = some (.vrscale 21 14 12 2 1) ∧
    decodeTableWord 32 0x74ABAD2D = some (.vpack 21 14 22 4 5 2 1) ∧
    decodeTableWord 32 0x75ABB9AD = some (.vunpk 21 14 28 6 5 2 1) := by decide +kernel

theorem test_words_ovector :
    decodeTableWord 32 0x78A816A8 = some (.ogetVector 21 11 2 5) ∧
    decodeTableWord 32 0x79039668 = some (.osetVector 14 11 1 5) := by decide +kernel

/-! ### Small states -/

/-- A thread of block 1. -/
def thr : Ctx := { st := .ready, pc := 0x40000, btag := 1 }

/-- A thread whose named g registers hold the given numbers. -/
def regs (l : List (Nat × Nat)) (c : Ctx) : Ctx := l.foldl (fun c e => c.setG e.1 (w64 e.2)) c

/-- One thread in slot 0 of core 0, of a block that is tag 1; the rest of the core and of the panel as given. -/
def pan (c : Ctx) (b : Block := handBlock) (k : Core := {}) : Panel :=
  { parts := [(0, handPart)], launches := [(1, { part := 0, queue := 0, seq := 1, st := .placed })], blocks := [(1, b)],
    cores := [(0, { k with ctxs := (0, c) :: k.ctxs })], nextTag := 2, fabric := { cword0 := 0xFF04 } }

def sta (p : Panel) : State := { panel := p }

/-- A block of two cores, (0, 0) and (1, 0). -/
def two : Block := { handBlock with w := 2 }

/-- An access in flight of the thread in slot 0 of core 0. -/
def acc0 : Access := { id := 1, core := 0, slot := 0, btag := 1, kind := .store, cls := .stores, va := 0x40000, size := 8, stage := .out }

/-- A load of that thread through the mesh window, of bytes 8 to 15 of its own core. -/
def accM : Access := { acc0 with kind := .load, cls := .loads, va := 8, items := [⟨64, 64, 0, 64, false⟩] }

/-- A release of that thread through the mesh window, of bytes 64 to 71 of its own core. -/
def accR : Access := { acc0 with kind := .amo, cls := .loads, va := 64, rel := true, items := [⟨64, 512, 0, 64, false⟩] }

/-- A block whose threads are not light: 4 vectors from window offset 0, of a register window of 64 vectors. -/
def wide : Block := { handBlock with light := false, hoop := true }
def vthr : Ctx := { thr with rsSize := 64, vv := 0x1000 }

/-- The mesh window's address of byte `o` of the block's core (x, 0). -/
def mesh (x o : Nat) : Nat := 0xFFFFF * 2 ^ 35 + x * 2 ^ 26 + o

/-! ### Witnesses of the statements' hypotheses, clause by clause

Statement and witnesses (a statement without hypotheses has none):

- DecodeOfEncode: test_meets_DecodeOfEncode
- SpecWordsDecode: test_meets_WordsThatAreNoBundle
- ScalarResults: test_meets_DivisionResults
- ScalarFrame: test_meets_ScalarFrame
- BranchAndJumpResults: test_meets_BranchResults, test_meets_JumpResults
- ThreadEndsAndFuse: test_meets_ThreadEnds, test_meets_FuseResults
- TrapsTaken: test_meets_TrapEntry, test_meets_FatalTraps, test_meets_PrivilegedWords
- LocalLoadsAndStores: test_meets_LocalLoads, test_meets_LocalStores
- OtherScalarAccesses: test_meets_OtherScalarAccesses, test_meets_StrictRanges
- SyncWordsAndAtomics: test_meets_FullEmptyWords, test_meets_LocalAtomics
- OrderingAndHints: test_meets_HintsComplete, test_meets_FenceResults, test_meets_WaitcAndHold
- BarrierResults: test_meets_BarrierResults
- QueuesAndRings: test_meets_QueueResults, test_meets_RingResults
- MessagesSent: test_meets_MessagesSent
- ExactIntegerSteps: test_meets_IntegerSegments, test_meets_CellStep
- VectorArithmetic: test_meets_LaneWise
- LaneMovementAndMasks: test_meets_LaneWise, test_meets_MaskResults
- ReductionsAndConversions: test_meets_LaneWise, test_meets_ConversionResults
- VectorMemory: test_meets_VectorMemory, test_meets_BlockLoad
- ShapesAndViews: test_meets_ShapeResults, test_meets_ViewResults
- TileOperations: test_meets_TileIssueResults, test_meets_TileLoadPerformed
- ControlRegisters: test_meets_ControlReads, test_meets_ControlWrites, test_meets_SystemResults
- EngineCommandsIssue: test_meets_EngineIssueResults, test_meets_PermitAndStatus
- EnginesWork: test_meets_EngineCompletions, test_meets_HeldCompletionLands, test_meets_EngineSteps
- HoopAtIssue: test_meets_HoopLeases, test_meets_HoopCommandsIssue, test_meets_HoopBadShapes
- HoopPerformed: test_meets_HoopCommandsPerformed, test_meets_HoopStep, test_meets_AccumulatorViews
- OsierCells: test_meets_CellAccesses, test_meets_CellGroups, test_meets_ArraySteps
- OsierDomains: test_meets_PatchResults, test_meets_DomainResults, test_meets_ImageResults
- TimersAndRetention: test_meets_TimerEvents, test_meets_RetentionEvents
- AccessArrivals: test_meets_AccessArrivals
- MessagesAtTheirTarget: test_meets_MessageArrivals, test_meets_DivertedMessages
- ThreadArrivals: test_meets_ThreadArrivals
- ResponseEvents: test_meets_ResponseEvents
- SliceEvents: test_meets_SliceEvents
- MemoryErrors: test_meets_MemoryErrors
- ExternalAccesses: test_meets_ExternalAccesses
- TranslationEvents: test_meets_TranslationEvents
- BlockPlacement: test_meets_BlockPlacement
- BlockSwap: test_meets_BlockSwap
- HaltsAndDebug: test_meets_HaltLine, test_meets_DebugStores
- RouteEvents: test_meets_RouteEvents_held, test_meets_RouteEvents
- CheckpointEvents: test_meets_CheckpointEvents
- FailureEvents: test_meets_FailureEvents
- LinkEvents: test_meets_LinkEvents
- QueueEvents: test_meets_QueueEvents
- PacketResults: test_meets_PacketResults, test_meets_PacketResults_read
- LaunchPackets: test_meets_LaunchPackets, test_meets_LaunchPackets_copy
- LaunchEvents: test_meets_LaunchEvents
- RangeTasks: test_meets_RangeTasks
- BringUpAndPower: test_meets_BringUp, test_meets_PowerEvents
- PartitionsAndWindow: test_meets_PartitionsAndWindow
- MailboxResults: test_meets_MailboxResults, test_meets_MailboxResults_plan
- StepRunsDecoded: test_meets_StepRunsDecoded, test_meets_StepRunsDecoded_pairs
- OtherStepEffects: test_meets_BundleCommits, test_meets_OtherTurns
- StepsAndWordsAnswer: test_meets_StepAnswers
- ResetState: test_meets_ResetState
- FrontStaysConsistent: test_meets_FrontStaysConsistent
- Breakpoints: test_meets_Breakpoints
- TrapLoop: test_meets_TrapLoop
- LoopInstruction: test_meets_LoopInstruction
-/

theorem test_meets_DecodeOfEncode : (Instr.beq 0 0 0xFFFF).wf = true ∧ encode (.beq 0 0 0xFFFF) = some 0xFFFF := by decide +kernel

theorem test_meets_WordsThatAreNoBundle :
    let n : BitVec 32 := 0x87000400
    let m : BitVec 32 := 0x40000000
    (n.getLsbD 31 = true ∧ n.getLsbD 30 = false ∧ 4 % 8 ≠ 0) ∧ ((0xC0000000 : BitVec 32).getLsbD 31 = true ∧ (0xC0000000 : BitVec 32).getLsbD 30 = true) ∧
    ((0x07000400 : BitVec 32).getLsbD 30 = false) ∧ (m.getLsbD 31 = false ∧ m.getLsbD 30 = true) ∧
    (∃ c a, decodeWord n = .ok c ∧ decodeWord m = .ok a ∧ sameDest c.dest a.dest = false) := by
  refine ⟨by decide, by decide, by decide, by decide, .nop, .add 0 0 0, by decide +kernel, by decide +kernel, by decide +kernel⟩

theorem test_meets_DivisionResults : let p := pan (regs [(1, 7), (2, 2 ^ 64 - 2)] thr)
    p.gv 1 ≠ 0 ∧ p.gv 2 ≠ 0 ∧ p.gv 0 = 0 ∧ (3 : Reg) ≠ 0 := by decide +kernel

theorem test_meets_ScalarFrame : ∃ t, exec (.add 0 1 2) (sta (pan thr)) = .next t := ⟨_, rfl⟩

theorem test_meets_BranchResults : let p := pan thr
    (Target (p.cc.pc + BitVec.ofInt 64 ((0 : BitVec 16).toInt * 4))) ∧ ¬ Target (p.cc.pc + BitVec.ofInt 64 ((0xFFFF : BitVec 16).toInt * 4)) ∧
    (let q := pan { thr with pc := 0x40002 }; (q.cc.pc + BitVec.ofInt 64 ((0 : BitVec 16).toInt * 4)).toNat % 4 ≠ 0) ∧
    decide (p.gv 0 = p.gv 1) = true ∧ decide (p.gv 0 ≠ p.gv 1) = false := by decide +kernel

theorem test_meets_JumpResults : let p := pan (regs [(1, 0x40000), (2, 1), (3, 0x40002), (4, 0x3FFFC)] thr)
    Target (p.gv 1) ∧ p.gv 2 - 1 = 0 ∧ p.gv 1 - 1 ≠ 0 ∧ (p.gv 3).toNat % 4 ≠ 0 ∧ ((p.gv 4).toNat % 4 = 0 ∧ ¬ Target (p.gv 4)) ∧ p.gv 0 - 1 ≠ 0 := by
  decide +kernel

theorem test_meets_ThreadEnds : let p := pan thr
    p.isHandler = false ∧
    (p.isAway = false ∧ p.cc.ldc = 0 ∧ p.cc.stc = 0 ∧ p.cc.cpc = 0 ∧ p.cc.tlc = 0) := by decide +kernel

theorem test_meets_FuseResults : let p := pan thr two { ctxs := [] }
    let q : Panel := { p with cores := p.cores ++ [(1, { ctxs := [(0, { thr with st := .stall, stall := .fuse 3 4 0 })] })] }
    (p.isAway = false ∧ p.isHandler = false ∧ p.cc.st ≠ .parked ∧ p.cc.gang = [] ∧ p.cur.aword = false ∧ p.cur.latch = none ∧ p.cur.len = 4) ∧
    ¬ (bt (6 : BitVec 4).toNat (cx 0 % 4) = true) ∧
    (bt (3 : BitVec 4).toNat (cx 0 % 4) = true ∧ ∀ k ∈ fuseCores 0 3, k ∈ blockCores p.cb) ∧
    (∀ j, j < 4 → rowCore 0 j ≠ 0 → fuseMask (p.ctx (rowCore 0 j) 0).stall = none) ∧ (∃ k ∈ fuseCores 0 3, k ≠ 0) ∧
    (∀ j, j < 4 → rowCore 0 j ≠ 0 → rowCore 0 j ∉ fuseCores 0 3 → fuseMask (q.ctx (rowCore 0 j) 0).stall = none) ∧
    (∀ k ∈ fuseCores 0 3, k ≠ 0 → fuseMask (q.ctx k 0).stall = some 3 ∧ (q.ctx k 0).btag = q.cc.btag) := by decide +kernel

theorem test_meets_TrapEntry : let p := pan thr { handBlock with tvec := 0x50000 }
    let q : Panel := { p with parts := [(0, { handPart with dbgarm := true })] }
    (p.isAway = false ∧ p.isHandler = false ∧ p.cb.trapVec p.now ≠ 0 ∧ p.cc.pc ≠ p.cb.trapVec p.now ∧ (p.part p.cb.part).dbgarm = false) ∧
    ((q.part q.cb.part).dbgarm = true ∧ (SMap.find q.parts q.cb.part).isSome = true ∧ (q.part q.cb.part).halt = false) ∧
    (let r : Panel := { p with cur := { p.cur with slot := 14 } }; r.isAway = true ∧ r.cc.ldc = 0 ∧ r.cc.stc = 0) := by decide +kernel

theorem test_meets_FatalTraps : let p := pan thr
    let q := pan thr { handBlock with tvec := 0x40000 }
    ((SMap.find p.parts p.cb.part).isSome = true ∧ (p.part p.cb.part).halt = false ∧ p.cb.trapVec p.now = 0) ∧ q.cc.pc = q.cb.trapVec q.now := by decide +kernel

theorem test_meets_PrivilegedWords : let p := pan { thr with tpc := 0x40000 } { handBlock with priv := true }
    let q := pan { thr with tpc := 0x40002 } { handBlock with priv := true }
    (p.isAway = false ∧ p.slevel = true ∧ (p.part p.cb.part).halt = false ∧ (SMap.find p.parts p.cb.part).isSome = true ∧ Target p.cc.tpc) ∧
    q.cc.tpc.toNat % 4 ≠ 0 ∧ ((pan thr).cc.tpc.toNat % 4 = 0 ∧ ¬ Target (pan thr).cc.tpc) ∧ (pan thr).slevel = false := by decide +kernel

theorem test_meets_LocalLoads : let p := pan (regs [(1, 8), (2, 64)] thr)
    (p.isAway = false ∧ p.isHandler = false ∧ p.acqBusy = false) ∧ place p p.src (p.gv 1 + (0 : BitVec 16).signExtend 64).toNat 8 = .lm 0 8 false ∧
    place p p.src (p.gv 1 + p.gv 1 * 2 ^ (3 : BitVec 2).toNat).toNat 8 = .lm 0 72 false ∧
    place p p.src (p.gv 0 + (0xFF8 : BitVec 16).signExtend 64).toNat 8 = .lm 0 4088 false ∧
    placeBits p p.src (p.gv 2).toNat ((63 : BitVec 6).toNat + 1) = .lm 0 8 false ∧ (∀ st n, p.meshOpen st 0 8 n = false) ∧
    (let q : Panel := { p with accs := [(1, accM)] }
     q.isAway = false ∧ q.isHandler = false ∧ q.acqBusy = false ∧ place q q.src (q.gv 1 + (0 : BitVec 16).signExtend 64).toNat 8 = .lm 0 8 false ∧
       q.meshOpen false 0 8 8 = true ∧ q.meshOpen true 0 8 8 = true) :=
  ⟨by decide +kernel, by decide +kernel, by decide +kernel, by decide +kernel, by decide +kernel, fun _ _ => rfl, by decide +kernel⟩

theorem test_meets_OtherScalarAccesses : let p := pan (regs [(1, mesh 1 16), (2, 0x40000), (3, 2 ^ 55), (4, mesh 2 0)] thr) two
    let q := pan { thr with ldc := 15, stc := 15, bx := 1 } two
    place p p.src (p.gv 3).toNat 8 = .bad 3 ∧ place p p.src (p.gv 4).toNat 8 = .bad 5 ∧
    (let r := pan { thr with bx := 1 } two
     place r r.src (mesh 0 16) 8 = .lm 1 16 true ∧ 1 = r.home ∧ r.cc.ldc < 15 ∧ r.cc.stc < 15) ∧
    (place q q.src (mesh 0 16) 8 = .lm 1 16 true ∧ 1 = q.home ∧ 15 ≤ q.cc.ldc ∧ 15 ≤ q.cc.stc) ∧
    (place p p.src (p.gv 2).toNat 8 = .paged ∧ strictOk p.cl (p.gv 2).toNat 8 1 = true ∧ p.l1Read p.cur.core (p.gv 2).toNat 8 = none ∧
      tlbFind (p.cluster (clusterOf p.cur.core)) p.cb.part p.cb.asid ((p.gv 2).toNat / 65536) = none ∧
      l1Find (p.core (l1Core p p.cur.core (64 * ((p.gv 2).toNat / 64)))).l1d ((p.gv 2).toNat / 64) p.cb.part p.cb.asid = none ∧
      p.l1Check p.cur.core (p.gv 2).toNat 8 = p ∧ p.regionTrap { mkAcc .load .none (p.gv 2).toNat 8 with dest := .g 1, sx := true } = none ∧
      p.regionTrap { mkAcc .store .none (p.gv 2).toNat 8 with data := 0 } = none ∧ strictOk p.cl (p.gv 2).toNat 8 2 = true) ∧
    (let r := pan thr handBlock { l1d := [⟨0x1000, 0, 0, 5, 3, 0, 0x55, 0⟩] }
     let u : Panel := { r with accs := [(1, { acc0 with slot := 1 })] }
     (r.l1Check 0 0x40000 8 = r ∧ r.l1Read 0 0x40000 8 = some 0x55 ∧ r.pendingBytes 0 0 0x40000 8 = false ∧ r.loadOpen 0 0 0x40000 8 = false) ∧
       u.l1Check 0 0x40000 8 = u ∧ u.l1Read 0 0x40000 8 = some 0x55 ∧ u.pendingBytes 0 0 0x40000 8 = true) := by decide +kernel

theorem test_meets_FullEmptyWords : let p := pan (regs [(1, 8), (2, 16), (3, 12)] thr) handBlock { fe := [1] }
    (regionOf (p.gv 1).toNat = .private_ ∧ (p.gv 1).toNat % 8 = 0 ∧ place p p.src (p.gv 1).toNat 8 = .lm 0 8 false ∧ p.isFull 0 1 = true ∧ p.quiet = true ∧ p.cc.st ≠ .parked ∧
      (p.core 0).waits = [] ∧ p.isAway = false ∧ p.isHandler = false ∧ p.acqBusy = false ∧ p.relBusy = false ∧ p.meshOpen false 0 8 8 = false) ∧
    (let q : Panel := { p with accs := [(1, accR)] }; q.acqBusy = false ∧ q.relBusy = true ∧ place q q.src (q.gv 1).toNat 8 = .lm 0 8 false) ∧
    p.meshOpen false 0 16 8 = false ∧ p.meshOpen true 0 8 16 = false ∧
    (place p p.src (p.gv 2).toNat 8 = .lm 0 16 false ∧ p.isFull 0 2 = false) ∧ (p.gv 3).toNat % 8 ≠ 0 ∧
    (0 < (p.gv 2).toNat ∧ (p.gv 2).toNat % 8 = 0 ∧ place p p.src (p.gv 1).toNat (p.gv 2).toNat = .lm 0 8 false) := by decide +kernel

theorem test_meets_LocalAtomics : let p := pan (regs [(1, 8)] thr)
    p.isAway = false ∧ p.isHandler = false ∧ p.acqBusy = false ∧ p.quiet = true ∧ p.relBusy = false ∧ p.meshOpen false 0 8 8 = false ∧ p.meshOpen false 0 8 4 = false ∧
      (p.gv 1).toNat / 2 ^ 55 = 0 ∧ (p.gv 1).toNat % 8 = 0 ∧
      place p p.src (p.gv 1).toNat 8 = .lm 0 8 false ∧ place p p.src (p.gv 1).toNat 4 = .lm 0 8 false := by decide +kernel

theorem test_meets_HintsComplete : let p := pan (regs [(1, 0x40000)] thr)
    let q : Panel := { p with clusters := [(0, { tlb := [⟨0, 0, 4, 1, 4, 0, 9⟩] })] }
    regionOf (p.gv 0 + p.gv 0 * 2 ^ (0 : BitVec 2).toNat).toNat ≠ .paged ∧
    (let ea := (q.gv 1 + q.gv 0 * 2 ^ (0 : BitVec 2).toNat).toNat
     let x : Tlb := ⟨0, 0, 4, 1, 4, 0, 9⟩
     regionOf ea = .paged ∧ strictOk q.cl ea 1 1 = true ∧ q.known (clusterOf q.cur.core) q.cb.part q.cb.asid (ea / 65536) = some x ∧
       permitted x.attr 1 q.slevel = true ∧ region ((x.pfn + (ea / 65536 - x.vpn)) * 65536) = 0 ∧ q.l1Read q.cur.core ea 1 = none) ∧
    (p.cb.light = true ∧ p.cc.gang = []) ∧ wide.light = false := by decide +kernel

/-- The panel of `pan` with bytes in core 0's local memory. -/
def mem (p : Panel) (off n v : Nat) : Panel := { p with mem := Memory.writeN p.mem (lmA 0 off) n v }

/-- A shape record: base, format, element bits, columns, rows, row stride; 8 by 8 elements by 1 by 1. -/
def shp (base fmt eb cols rows str1 : Nat) (desc : Bool := false) : Line :=
  BitVec.ofNat 512 (base + fmt * 2 ^ 64 + eb * 2 ^ 72 + 8 * 2 ^ 168 + 8 * 2 ^ 200 + 2 ^ 232 + 2 ^ 264 + (if desc then 2 ^ 496 else eb * 2 ^ 296) + str1 * 2 ^ 328 +
    rows * 2 ^ 424 + cols * 2 ^ 440)

theorem test_meets_FenceResults : let p := pan thr
    let q : Panel := { p with accs := [(1, acc0)] }
    p.fenceBusy true true true 5 false = false ∧ q.fenceBusy false true false 0 false = true ∧ q.fenceBusy true false true 0 false = true ∧ (6 : BitVec 4).getLsbD 1 = true ∧ (5 : BitVec 4).getLsbD 1 = false ∧
      (p.cluster (clusterOf p.cur.core)).fused = false := by decide +kernel

theorem test_meets_WaitcAndHold : let p := pan { thr with ldc := 15, tlc := 7 }
    let q : Panel := { p with cur := { p.cur with slot := 12 }, cores := [(0, { ctxs := [(12, { thr with ldc := 1 })] })] }
    (p.cc.ldc ≤ 15 ∧ p.cc.stc ≤ 0 ∧ p.cc.cpc ≤ 0 ∧ p.cc.tlc ≤ 7) ∧ (¬ (p.cc.ldc ≤ 14) ∧ p.isHandler = false ∧ p.cc.st ≠ .parked) ∧
    (¬ (q.cc.ldc ≤ 0) ∧ q.isHandler = true) ∧ p.isAway = false := by decide +kernel

theorem test_meets_BarrierResults :
    let c := regs [(1, 16), (2, 1), (3, 65535), (4, 2 ^ 31 - 1)] thr
    let p := mem (pan c) 16 16 (mkObj 1 0 true 0 1 2)
    let q := mem (pan { c with arr := some (arrOf handBlock 0 16 1) }) 16 16 (mkObj 1 5 true 0 2 2)
    (p.isAway = false ∧ p.isHandler = false ∧ p.acqBusy = false ∧ regionOf (p.gv 1).toNat = .private_ ∧ (p.gv 1).toNat % 16 = 0 ∧
      place p p.src (p.gv 1).toNat 16 = .lm 0 16 false ∧ p.cc.btag < 2 ^ 32 ∧ p.relBusy = false ∧ p.meshOpen true 0 16 16 = false) ∧
    (0 < (p.gv 2).toNat ∧ (p.gv 3).toNat < 2 ^ 16) ∧ (objOk (p.obj 0 16) 1 = true ∧ objArr (p.obj 0 16) < objExp (p.obj 0 16) ∧ p.quiet = true ∧ p.cc.st ≠ .parked) ∧
    (objOk (q.obj 0 16) 1 = true ∧ q.cc.arr = some (arrOf q.cb 0 16 1) ∧ 1 ≠ objPhase (q.obj 0 16)) ∧
    ((∀ f' : Fin 2, p.cc.arr ≠ some (arrOf p.cb 0 16 f')) ∧ 0 = objPhase (p.obj 0 16)) ∧
    (objPend (p.obj 0 16) + (p.gv 4).toInt < (2 ^ 31 : Int) ∧ -(2 ^ 31 : Int) ≤ objPend (p.obj 0 16) + (p.gv 4).toInt) ∧
    objOk ((pan c).obj 0 16) 1 = false := by decide +kernel

theorem test_meets_QueueResults :
    let p := pan thr handBlock { blk := [(1, { q := [(8, List.replicate 15 7), (15, List.replicate 16 7), (3, [9])] })] }
    (p.isAway = false ∧ p.isHandler = false ∧ (p.queue 0 1 8).length < 16) ∧ 16 ≤ (p.queue 0 1 15).length ∧
    (queueOk 1 3 = true ∧ p.queue 0 1 3 = 9 :: []) ∧ (queueOk 1 4 = true ∧ p.queue 0 1 4 = [] ∧ p.ldsyOpen = false) ∧
    (let r : Panel := { p with accs := [(1, { accM with kind := .ldsy })] }; r.queue 0 1 4 = [] ∧ r.ldsyOpen = true) ∧ queueOk 2 2 = true ∧ queueOk 1 2 = false ∧ queueOk 2 5 = false := by
  decide +kernel

theorem test_meets_MessagesSent :
    let p := pan (regs [(1, 2 ^ 20), (2, 4), (3, 0xFF), (4, 2 ^ 26 + 3), (5, 3), (6, 1)] { thr with stc := 14 }) two
    let q := pan { thr with stc := 15 } two
    (p.isAway = false ∧ p.isHandler = false ∧ p.acqBusy = false ∧ p.relBusy = false ∧ payloadPlace p (p.gv 2).toNat 1 = .error 4) ∧
    (let r : Panel := { p with accs := [(1, accR)] }; r.acqBusy = false ∧ r.relBusy = true ∧ destTarget r r.src (r.gv 6).toNat true = .ok 1) ∧ payloadPlace p (p.gv 0).toNat 255 = .ok 0 ∧
    destTarget p p.src (p.gv 1).toNat true = .error 3 ∧ (destTarget q q.src 0 true = .ok 0 ∧ 15 ≤ q.cc.stc) ∧
    (destTarget p p.src (p.gv 6).toNat true = .ok 1 ∧ p.cc.stc < 15) ∧ (destTarget p p.src (p.gv 6).toNat false = .ok 1 ∧ 1 ∈ blockCores p.cb) ∧
    ((p.gv 5).toNat.testBit 26 = false ∧ maskTargets p p.src (p.gv 5).toNat true = .ok [0, 1]) ∧
    ((p.gv 4).toNat.testBit 26 = true ∧ (p.gv 4).toNat.testBit 27 = false ∧ (p.gv 4).toNat / 2 ^ 24 % 4 = 0 ∧ maskTargets p p.src (p.gv 4).toNat true = .ok [0, 1]) ∧
    ((p.gv 4).toNat.testBit 26 = true ∧ 9 < (10 : BitVec 8).toNat) := by
  decide +kernel

theorem test_meets_RingResults :
    let p := mem (pan (regs [(1, 0), (2, 1)] thr) two { rings := [(0, ⟨1, true, 4, 0, 64, 8, 24, 0, 0⟩), (1, ⟨1, true, 4, 0, 64, 8, 8, 0, 0⟩)] }) 40 8 0x10008
    (p.isAway = false ∧ p.isHandler = false ∧ p.relBusy = false ∧ p.myRing 2 = none) ∧ (p.myRing 0 = some ⟨1, true, 4, 0, 64, 8, 24, 0, 0⟩ ∧ p.cc.ldc < 15 ∧
      p.winRead (8 * 4 + 8) / 2 ^ 16 % 16 ≠ 2) ∧ p.myRing 1 = some ⟨1, true, 4, 0, 64, 8, 8, 0, 0⟩ ∧
    (let r : Panel := { p with accs := [(1, accR)] }; r.relBusy = true ∧ r.myRing 0 = p.myRing 0) ∧ destTarget p p.src (p.gv 2).toNat false = .ok 1 ∧
    destTarget p p.src (2 ^ 19) false = .error 3 := by decide +kernel

theorem test_meets_LaneWise : let p := pan vthr wide
    (p.isAway = false ∧ ∀ v ∈ [3, 0, 1], vecOk p p.src v 1 = true) ∧ vecOk p p.src 4 1 = false ∧
    (let q : Panel := { p with cur := { p.cur with slot := 14 } }; q.isAway = true) := by decide +kernel

theorem test_meets_ConversionResults :
    let p := mem (pan vthr wide) 0 1 0
    let q : Panel := { p with mem := Memory.writeN p.mem (vecAddr p p.src 0) 64 0x18 }
    (p.isAway = false ∧ vecOk p p.src 0 1 = true ∧ vecOk p p.src 2 2 = true ∧ overlapBad (groupAddrs p p.src 2 2) (groupAddrs p p.src 0 1) = false) ∧
    overlapBad (groupAddrs p p.src 0 2) (groupAddrs p p.src 0 1) = true ∧ vecOk p p.src 3 2 = false ∧
    fmtBits ((p.vec 0).toNat % 256) = 0 ∧ fmtBits ((q.vec 0).toNat % 256) ≠ 0 ∧ cdiv (fmtCount 0x13) 16 = 11 ∧
    ((p.vec 0).toNat % 256 ≠ 8 ∧ isBfp ((p.vec 0).toNat % 256) = false) ∧ isBfp ((q.vec 0).toNat % 256) = true ∧
    (let r := pan { thr with rsSize := 1024, vv := 0x8000 } wide
     vecOk r r.src 0 1 = true ∧ vecOk r r.src 1 16 = true ∧ overlapBad (groupAddrs r r.src 0 1) (groupAddrs r r.src 1 16) = false) := by decide +kernel

theorem test_meets_VectorMemory :
    let b := { wide with w := 2 }
    let p := pan (regs [(1, 64), (2, mesh 1 0), (3, 2 ^ 55), (4, 2 ^ 16), (5, 3 + 2 ^ 16 + 2 ^ 35), (6, 512)] vthr) b
    ((p.isAway = false ∧ vecOk p p.src 3 1 = true ∧ p.acqBusy = false ∧ p.cur.latch = none) ∧
    (let q : Panel := { p with accs := [(1, { accM with items := [⟨64, 512, 0, 64, false⟩] })] }
     q.acqBusy = false ∧ place q q.src (q.gv 1 + q.gv 0).toNat 64 = .lm 0 64 false ∧ q.meshOpen false 0 64 64 = true ∧ q.meshOpen true 0 64 64 = true) ∧
    (let q := pan { vthr with ldc := 15, stc := 15 } b
     place q q.src (mesh 1 0) 64 = .lm 1 0 true ∧ 15 ≤ q.cc.ldc ∧ 15 ≤ q.cc.stc) ∧
    place p p.src (p.gv 3).toNat 64 = .bad 3 ∧
    place p p.src (p.gv 1 + p.gv 0).toNat 64 = .lm 0 64 false ∧ (place p p.src (p.gv 2).toNat 64 = .lm 1 0 true ∧ p.cc.ldc < 15 ∧ p.cc.stc < 15) ∧
    (∀ j, j < 512 / 64 → place p p.src (p.gv 1 + BitVec.ofNat 64 (lane 64 (p.vec 0) j * 8)).toNat 8 = .lm 0 64 false) ∧
    bitCtlOk (p.gv 0).toNat false = false ∧ bitCtlOk (p.gv 5).toNat true = true ∧
    placeBits p p.src (p.gv 6).toNat ((1 - 1) * 8 + 4) = .lm 0 64 false) ∧ p.MeshCalm := by
  refine ⟨by decide +kernel, fun _ _ _ _ => rfl⟩

theorem test_meets_BlockLoad :
    let p := mem (mem (mem (pan (regs [(1, 64), (2, mesh 1 0)] vthr) { wide with w := 2 }) 64 1 0x12) 128 1 0xFF) 192 1 0x77
    place p p.src (p.gv 1).toNat 64 = .lm 0 64 false ∧ fmtBits (Memory.readN p.mem (lmA 0 64) 64 % 256) ≠ 0 ∧
    Memory.readN p.mem (lmA 0 128) 64 % 256 = 0xFF ∧ fmtBits (Memory.readN p.mem (lmA 0 192) 64 % 256) = 0 ∧
    p.meshOpen false 0 64 64 = false ∧ p.isAway = false ∧ vecOk p p.src 3 1 = true ∧ p.acqBusy = false ∧
    place p p.src ((p.gv 1).toNat + 8) 64 = .lm 0 72 false ∧ (place p p.src (p.gv 2).toNat 64 = .lm 1 0 true ∧ (p.gv 2).toNat % 64 = 0 ∧ p.cc.ldc < 15 ∧ p.cc.st ≠ .parked) := by
  decide +kernel

theorem test_meets_ShapeResults : let p := pan (regs [(1, 64), (2, 72), (3, mesh 1 64)] thr) two
    (p.isAway = false ∧ p.acqBusy = false ∧ (16 : BitVec 5) = 16 ∧ (p.gv 2).toNat % 64 ≠ 0 ∧ (p.gv 1).toNat / 2 ^ 55 = 0 ∧
      place p p.src (p.gv 1).toNat 64 = .lm 0 64 false ∧
      ((p.gv 3).toNat / 2 ^ 55 = 0 ∧ (p.gv 3).toNat % 64 = 0 ∧ place p p.src (p.gv 3).toNat 64 = .lm 1 64 true ∧ p.isHandler = false ∧ p.cc.ldc < 15) ∧
      (let q : Panel := { p with cur := { p.cur with slot := 12 }, cores := [(0, { ctxs := [(12, regs [(3, mesh 1 64)] thr)] })] }
       q.isAway = false ∧ q.acqBusy = false ∧ place q q.src (q.gv 3).toNat 64 = .lm 1 64 true ∧ q.isHandler = true)) ∧ p.MeshCalm := by
  refine ⟨by decide +kernel, fun _ _ _ _ => rfl⟩

theorem test_meets_ViewResults : let p := pan (regs [(1, 32 * 2 ^ 10), (2, 8 * 2 ^ 16 + 2 ^ 10), (3, 33 * 2 ^ 10), (4, 2 ^ 11)] { vthr with rsSize := 32 }) { wide with hoop := false }
    (p.cb.light = false ∧ p.isHandler = false) ∧ ((p.gv 1).toNat / 2 ^ 10 % 64 ≤ 32 ∧ 64 * ((p.gv 1).toNat % 2 ^ 10 + (32 - 1) * 1) + 64 ≤ 64 * p.cc.rsSize) ∧
    ((p.gv 2).toNat / 2 ^ 16 % 16 ≤ 8 ∧ (p.gv 2).toNat / 2 ^ 10 % 64 ≠ 0 ∧ 64 * (0 + 8 * 1) ≤ 64 * p.cc.rsSize) ∧ 32 < (p.gv 3).toNat / 2 ^ 10 % 64 ∧
    ((p.gv 4).toNat / 2 ^ 11 % 16 ≠ 0 ∧ p.cb.hoop = false) ∧ (p.gv 1).toNat / 2 ^ 11 % 16 = 0 ∧ (pan thr).cb.light = true := by decide +kernel

theorem test_meets_TileIssueResults :
    let p := pan { vthr with tv := BitVec.ofNat 64 (2 * 2 ^ 16 + 2 ^ 10), sh := Vector.replicate 16 (shp 64 0 8 8 8 8) } wide
    let q := pan { vthr with tv := BitVec.ofNat 64 (2 * 2 ^ 16 + 2 ^ 10), tlc := 7, sh := Vector.replicate 16 (shp 64 0 16 8 8 16) } wide
    (p.acqBusy = false ∧ ({ p with accs := [(1, { accM with kind := .amo, acq := true })] } : Panel).acqBusy = true) ∧
    (tileCount p.src ≤ (2 : BitVec 3).toNat ∧ ¬ tileCount p.src ≤ (1 : BitVec 3).toNat) ∧ noViews p = false ∧ shapeOk 0 = false ∧
    (shapeOk (p.src.shape 0) = true ∧ shDesc (p.src.shape 0) = false ∧ tileBits (p.src.shape 0) ≤ 8 * tileSize p.src ∧ tileInside (p.src.shape 0) 0 0 = true ∧
      rowsBad p p.src (p.src.shape 0) (tileRows (p.src.shape 0) 0 0) = none ∧ p.cc.tlc < 7) ∧
    (regionOf (shBase (p.src.shape 0)) = .private_ ∧ shRes (shp 0x50000 0 8 8 8 8) = 0 ∧ shapeOk (shp 0x50000 0 8 8 8 8) = true ∧
      shDesc (shp 0x50000 0 8 8 8 8) = false ∧ tileInside (shp 0x50000 0 8 8 8 8) 0 0 = true ∧ regionOf (shBase (shp 0x50000 0 8 8 8 8)) = .paged) ∧
    (8 * tileSize q.src < tileBits (q.src.shape 0) ∧ 7 ≤ q.cc.tlc) := by decide +kernel

theorem test_meets_TileLoadPerformed :
    let o : TileOp := { slot := 0, btag := 1, sub := 0, shape := shp 64 0 8 8 8 8, orgA := 0, orgB := 0, rsOff := rsA 0 0, rsLen := 64, due := 5 }
    let m : TileOp := { o with num := 1 }
    let p : Panel := { pan vthr wide { tiles := [o, m] } with ev := [0, 0], now := 5 }
    p.ev = [0, 0] ∧ (p.core 0).tiles = o :: [m] ∧ o.sent = false ∧ (∀ k ∈ [m], k.num ≠ o.num) ∧
    (o.units.all fun i => !o.inside i || (match tensorPlace p (p.ctx 0 0) o.shape (o.bit i / 8) 1 with | .lm _ _ m => !m | _ => true)) = true ∧ o.slot = 0 ∧ o.due ≤ p.now ∧ o.sub = 0 ∧ shDesc o.shape = false ∧ tileBits o.shape ≤ 8 * o.rsLen := by decide +kernel

theorem test_meets_ControlReads : let p := pan thr handBlock { rings := [(1, { btag := 7, en := true })] }
    p.isAway = false ∧ crAccess 0x3FF = none ∧ (crAccess 0x006 = some (2, 2) ∧ p.foreignRing 6 = false) ∧
    (crAccess 0x100 = some (0, 2) ∨ crAccess 0x100 = some (0, 1)) := by decide +kernel

theorem test_meets_ControlWrites : let p := pan (regs [(1, 0x50000), (2, 8)] thr)
    p.isAway = false ∧ (SMap.find p.blocks p.cc.btag).isSome = true ∧ (p.gv 0 = 0 ∧ Target (p.gv 1)) ∧ (p.gv 2 ≠ 0 ∧ ¬ Target (p.gv 2)) ∧ p.slevel = false ∧
    (pan thr { handBlock with priv := true }).slevel = true ∧ (pan { thr with user := true } { handBlock with priv := true }).slevel = false := by decide +kernel

theorem test_meets_SystemResults : let p := pan thr
    let q : Panel := { pan thr with accs := [(1, acc0)], parts := [(0, { handPart with ckEn := true })] }
    ((pan thr { handBlock with priv := true }).slevel = true ∧ p.slevel = false ∧ p.cc.st ≠ .parked) ∧
    (p.part p.cb.part).ckEn = false ∧ (q.part q.cb.part).ckEn = true ∧
    ((q.accsOf q.cur.core q.cur.slot).any fun x => x.stage.open_ && kindWrites x.kind) = true ∧
    ((p.accsOf p.cur.core p.cur.slot).any fun x => x.stage.open_ && kindWrites x.kind) = false := by decide +kernel

/-- The panel of `pan` with what cluster 0 holds. -/
def clus (p : Panel) (c : Cluster) : Panel := { p with clusters := [(0, c)] }

/-- A translation of virtual page 4 to physical page 4, readable, writable and open to user level. -/
def tlb4 : Tlb := ⟨0, 0, 4, 1, 4, 0, 11⟩

theorem test_meets_EngineIssueResults :
    let d2 := shp 64 0 8 8 8 8
    let dp := shp 0x40000 0 8 8 8 8
    let p := pan (regs [(1, 8), (2, 64), (3, 0x40000), (4, 64), (5, 1), (6, 2 ^ 32 + 8), (7, 2 ^ 24 + 64)] { vthr with sh := Vector.ofFn fun i => if i = 0 then d2 else if i = 1 then dp else 0 }) wide
    let q := clus (pan { vthr with cpc := 7 } wide) { relay := [(0, { busy := true })] }
    (p.isAway = false ∧ p.acqBusy = false ∧ p.cl.strict = false) ∧
    ((p.gv 1).toNat / 2 ^ 32 = 0 ∧ (∃ y z, rangeCheck p false (p.gv 2).toNat 8 = .ok y ∧ rangeCheck p false (p.gv 4).toNat 8 = .ok z) ∧
      p.peerBad false (p.gv 2).toNat 8 = none ∧ p.peerBad true (p.gv 4).toNat 8 = none ∧ (p.chan 0 0).busy = false ∧ p.cc.cpc < 7) ∧
    ((q.chan 0 0).busy = true ∧ 7 ≤ q.cc.cpc) ∧ (p.gv 6).toNat / 2 ^ 32 % 2 ^ 9 ≠ 0 ∧ row2d (p.src.shape 2) = none ∧
    (row2d (p.src.shape 0) = some 8 ∧ shSwz (p.src.shape 0) = 0 ∧ shBase (p.src.shape 0) / 2 ^ 55 = 0 ∧
      (∀ i, i < shExt (p.src.shape 0) 1 → (∃ y, rangeCheck p (shRes (p.src.shape 0) == 1) (shBase (p.src.shape 0) + i * shStr (p.src.shape 0) 1) 8 = .ok y) ∧
        p.peerBad false (shBase (p.src.shape 0) + i * shStr (p.src.shape 0) 1) 8 = none) ∧
      (∃ z, rangeCheck p false (p.gv 2).toNat (8 * 8) = .ok z) ∧ p.peerBad true (p.gv 2).toNat (8 * 8) = none) ∧
    (regionOf (p.gv 3).toNat = .paged ∧ (p.gv 1).toNat ≠ 0 ∧ regionOf ((p.gv 3).toNat + (p.gv 1).toNat - 1) = .paged) ∧ regionOf (p.gv 1).toNat ≠ .paged ∧
    ((p.gv 3).toNat % 64 = 0 ∧ (p.gv 2).toNat % 64 = 0 ∧ maskTargets p p.src (p.gv 5).toNat false = .ok [0] ∧ (p.gv 2).toNat + 64 * (15 + 1) ≤ p.cb.lmSize * 1024) ∧
    ((p.gv 7).toNat = 1 * 2 ^ 24 + 64 ∧ shapeOk (p.src.shape 1) = true ∧ shRes (p.src.shape 1) = 0 ∧ regionOf (shBase (p.src.shape 1)) = .paged ∧
      regionOf (tensorLast (p.src.shape 1)) = .paged ∧ (shExt (p.src.shape 1) 0 % shCols (p.src.shape 1) = 0 ∧ shExt (p.src.shape 1) 1 % shRows (p.src.shape 1) = 0) ∧
      shDesc (p.src.shape 1) = false ∧ 64 + (1 + 1) * walkTile (p.src.shape 1) ≤ p.cb.lmSize * 1024 ∧ (p.core 0).walk.busy = false) := by
  decide +kernel

theorem test_meets_PermitAndStatus :
    let p := pan (regs [(1, 1)] thr) two { blk := [(1, { q := [(2, List.replicate 31 1)] })] }
    let q := pan { thr with stc := 14 } two { blk := [(1, { q := [(2, List.replicate 32 1)] })] }
    (p.isAway = false ∧ p.acqBusy = false ∧ p.heldTo 1 = false) ∧
    (destTarget p p.src (p.gv 0).toNat false = .ok 0 ∧ 0 ∈ blockCores p.cb ∧ (p.queue 0 1 2).length < 32) ∧ 32 ≤ (q.queue 0 1 2).length ∧
    (destTarget p p.src (p.gv 1).toNat false = .ok 1 ∧ 1 ∈ blockCores p.cb ∧ q.cc.stc < 15) ∧
    ((p.cluster 0).hoop.holder = none ∧ (p.cluster 0).hoop.cmds = [] ∧ (p.cluster 0).hoop.parked = false ∧ (p.core 0).pf = [] ∧ (p.core 0).drop = []) := by decide +kernel

theorem test_meets_EngineCompletions :
    let x : Bulk := { slot := 0, btag := 1, va := 0x40000, lines := 2, next := 2, back := 2 }
    let p := clus (pan { thr with cpc := 1 } handBlock { mcrd := [x], pf := [x], drop := [x], walk := { busy := true, btag := 1, tiles := 3, tile := 3 } })
      { relay := [(0, { busy := true, len := 8, done := 8, core := 0, slot := 0, btag := 1 })] }
    ((p.queue 0 1 1).length < qDepth 1 ∧ ∀ h ∈ (p.blk 0 1).held, h.q ≠ 1) ∧
    ((p.chan 0 0).busy = true ∧ (p.chan 0 0).busyLine = false ∧ (p.chan 0 0).dying = false ∧ (p.chan 0 0).decs = 0 ∧ (p.chan 0 0).len ≤ (p.chan 0 0).done) ∧
    ((p.core 0).walk.busy = true ∧ (p.core 0).walk.dying = false ∧ (p.core 0).walk.left = 0 ∧ (p.core 0).walk.busyLine = false ∧ (p.core 0).walk.tiles ≤ (p.core 0).walk.tile) ∧
    ((p.core 0).mcrd = x :: [] ∧ x.lines ≤ x.next ∧ x.next * x.dests.length ≤ x.land ∧ x.dying = false ∧ x.btag = 1) ∧
    ((p.core 0).pf = x :: [] ∧ x.back = x.next ∧ x.flight = [] ∧ x.mask = 0) ∧ (p.core 0).drop = x :: [] := by decide +kernel

theorem test_meets_HeldCompletionLands : let p : Panel := { pan thr handBlock { blk := [(1, { held := [⟨1, 5, 0, true⟩] })] } with ev := [0, 1] }
    p.ev = [0, 1] ∧ (p.blk 0 1).held = ⟨1, 5, 0, true⟩ :: [] ∧ (p.queue 0 1 1).length < qDepth 1 := by decide +kernel

theorem test_meets_EngineSteps :
    let x : Bulk := { slot := 0, btag := 1, va := 0x40000, lines := 2, dests := [0], off := 64 }
    let x8 : Bulk := { x with va := 0x80000 }
    let c : Chan := { busy := true, src := 8, dst := 72, len := 100, core := 0, slot := 0, btag := 1 }
    let w : Walk := { busy := true, btag := 1, tiles := 1, shape := shp 0x40000 0 8 1 1 8, dests := [0] }
    let fp : Packet := ⟨.line 128 1 7 (2 ^ (8 * 1) - 1) [1, 2] (.relay 0 0 0), 0, none⟩
    let fq : Packet := ⟨.twperm 1 1, 0, some 0⟩
    let fr : Packet := ⟨.pend 16 1 4 0 0 0, 0, none⟩
    let k : Core := { mcrd := [x], pf := [x], drop := [x], walk := w, fifo := [fp] }
    let p := clus (pan vthr wide k) { relay := [(0, c)], tlb := [tlb4, ⟨0, 0, 8, 1, 8, 0, 8⟩] }
    let q : Panel := { clus (pan vthr wide { k with blk := [(1, { q := [(2, [1])] })], fifo := [fq] }) {} with accs := [(1, { acc0 with kind := .twperm, target := 0 })] }
    let r := mem (pan vthr wide { fifo := [fr] }) 16 16 (mkObj 1 8 false 0 1 1)
    let e : Ctx := engCtx p 0 0 1
    (engPlace p 0 e false 8 56 1 = .lm 0 8 ∧ engPlace p 0 e false 72 56 2 = .lm 0 72 ∧
      min (100 - 0) (min (64 - 8 % 64) (64 - 72 % 64)) = 56 ∧ c.busyLine = false ∧ c.shape = none) ∧
    (p.Arrived 0 fp [] ∧ (p.core 0).waits = [] ∧ (let d : Panel := clus p { relay := [(0, { c with busyLine := true })] }; (d.chan 0 0).busyLine = true ∧ d.Arrived 0 fp [])) ∧
    (w.busy = true ∧ w.parked = false ∧ w.dying = false ∧ w.busyLine = false ∧ w.status = 0 ∧ w.tile < w.tiles ∧ w.permit = false ∧ p.queue 0 1 2 = []) ∧ q.queue 0 1 2 = 1 :: [] ∧
    (x.parked = false ∧ x.dying = false ∧ x.next < x.lines ∧ x.status = 0 ∧ x.dests ≠ [] ∧ x.next * x.dests.length < x.land + 8 * x.dests.length ∧ x.lastAt p 0 = .ok 0x1001 0 ∧ x.next < x.back + 8) ∧
    (engPlace p 0 e false (x.va + 64 * x.next) 64 1 = .mem 0x40000 0 11 ∧ region 0x40000 = 0) ∧ engPlace p 0 e false (x8.va + 64 * x8.next) 64 1 = .fault 8 ∧
    (r.Arrived 0 fr [] ∧ objOk (r.obj 0 16) 1 = true ∧ objPend (r.obj 0 16) ≠ 4 ∧ -(2 ^ 31 : Int) ≤ objPend (r.obj 0 16) - 4) ∧
    (q.Arrived 0 fq [] ∧ (q.acc 1).isSome = true ∧ ∀ e ∈ q.accs, 1 ∉ e.2.after) := by
  unfold Panel.Arrived; decide +kernel

theorem test_meets_HoopLeases :
    let p := pan (regs [(1, 1), (2, 65537)] thr) wide
    let q := clus (pan { thr with st := .blocked } wide) { hoop := { holder := some (0, 0, 1), leaseEnd := 0 } }
    let r := clus (pan { thr with st := .blocked } wide) { hoop := { reqs := [(0, 0, 64, 65536)] } }
    (p.isAway = false ∧ p.isHandler = false ∧ p.cc.st ≠ .parked ∧ p.cb.hoop = true ∧ p.holds 0 0 = false) ∧ (pan thr).cb.hoop = false ∧ (q.isAway = false ∧ q.cb.hoop = true ∧ q.holds 0 0 = true) ∧
    ((r.cluster 0).hoop.holder = none ∧ (r.cluster 0).hoop.reqs = [(0, 0, 64, 65536)] ∧ (r.ctx 0 0).st ≠ .parked ∧ (r.ctx 0 0).gapUntil ≤ r.now) ∧
    ((q.cluster 0).hoop.holder.isSome = true ∧ (q.cluster 0).hoop.leaseEnd ≤ q.now) := by decide +kernel

theorem test_meets_HoopCommandsIssue :
    let s1 := shp 64 0 8 8 8 8
    let p := clus (pan { vthr with sh := Vector.replicate 16 s1 } wide) { hoop := { holder := some (0, 0, 1), leaseN := 1, leaseEnd := 9 } }
    let q := clus (pan { vthr with tlc := 7 } wide) { hoop := { holder := some (0, 0, 1), leaseN := 2, leaseEnd := 9 } }
    (p.isAway = false ∧ p.cb.hoop = true ∧ p.acqBusy = false ∧ p.holds 0 0 = true ∧ p.cl.strict = false ∧ p.cc.tlc < 7 ∧ (p.cluster 0).hoop.leaseN ≤ 1) ∧ (7 ≤ q.cc.tlc ∧ q.holds 0 0 = true) ∧
    ((hldaBad 0 0 p (p.src.shape 0)).isNone = true ∨ (hldaBad 0 0 p (p.src.shape 0)).isSome = true) ∧ (hldbBad false 0 0 q (q.src.shape 0)).isSome = true ∧
    (pan thr wide).holds 0 0 = false := by decide +kernel

theorem test_meets_AccumulatorViews :
    let p := pan { vthr with rsSize := 512, vv := 0x8000, av := BitVec.ofNat 64 (2 * 2 ^ 11) } wide
    p.isAway = false ∧ p.cb.hoop = true ∧ accCount p.src ≤ (2 : BitVec 3).toNat ∧ (noViews p = false ∧ (1 : BitVec 3).toNat < accCount p.src ∧ vecOk p p.src 8 (2 * accCols p.src) = true) ∧
    (p.cluster 0).hoop.cmds = [] ∧
    (let k : HCmd := { sub := 5, shape := 0, a := 0, b := 0, core := 0, slot := 0, btag := 1, rmode := 0 }
     ((clus p { hoop := { cmds := [k] } }).cluster 0).hoop.cmds = k :: [] ∧ p.cc.haccAt = none) := by
  decide +kernel

theorem test_meets_IntegerSegments : let a : Elem := { code := 8, scale := 255, raw := 127 }
    a.scale = 255 ∧ ({ a with scale := 0 }.scale = 0) ∧ 0 ≤ unitExp 8 128 + unitExp 8 128 - (-4) := by decide +kernel

theorem test_meets_CellStep : let x : Cell := { y := 15, q := 15, k := 4 }
    x.q < 2 ^ x.k ∧ (x.y + 0 * 2 ^ x.s).natAbs < 2 ^ x.k ∧ 2 ^ x.k ≤ (x.y + 1 * 2 ^ x.s).natAbs := by decide +kernel

theorem test_meets_CellAccesses :
    let c := { vthr with g := (regs [(1, 0), (2, 7), (3, 2 ^ 12), (4, 3 * 2 ^ 12), (5, 16)] vthr).g }
    let p := clus (pan c wide) { cells := [(0, { y := 3, k := 4 })] }
    let q := clus (pan c wide) { cells := [(0, { k := 4 })], doms := [(0, { state := 1 })] }
    p.isAway = false ∧ p.cb.hoop = true ∧ ((p.gv 1).toNat = 0 * 2 ^ 12 + 0 ∧ (p.gv 3).toNat = 1 * 2 ^ 12 + 0 ∧ (p.gv 4).toNat = 3 * 2 ^ 12 + 0) ∧
    (domOf (p.cluster 0) (cellOf (p.cluster 0) 0).dom).state ≠ 1 ∧ ((domOf (q.cluster 0) (cellOf (q.cluster 0) 0).dom).state = 1 ∧ (domOf (q.cluster 0) (cellOf (q.cluster 0) 0).dom).haltStop = false ∧ q.cc.st ≠ .parked) ∧
    ((p.gv 2).toInt.natAbs < 2 ^ 31 ∧ (p.gv 2).toInt.natAbs < 2 ^ (cellOf (p.cluster 0) 0).k ∧ (p.gv 2).toNat < 2 ^ 4) ∧
    ((cellOf (p.cluster 0) 0).k ≠ 0 ∧ ((cellOf (p.cluster 0) 0).y + (p.gv 0).toInt * 2 ^ 0).natAbs < 2 ^ 4) ∧ 2 ^ 4 ≤ (p.gv 5).toNat ∧
    2 ^ 4 ≤ ((cellOf (p.cluster 0) 0).y + (p.gv 5).toInt * 2 ^ (cellOf (p.cluster 0) 0).s).natAbs := by decide +kernel

theorem test_meets_PatchResults :
    let e := 3 + 4 * 2 ^ 16 + 0x800 * 2 ^ 32 + 0x800 * 2 ^ 48 + 0x800 * 2 ^ 64 + 0x800 * 2 ^ 80 + 0x800 * 2 ^ 96
    let p := mem (pan (regs [(1, 16), (2, 1), (3, 2048), (4, 2049), (5, 24), (6, 0x40000)] thr) wide) 16 16 e
    let q := mem (pan (regs [(1, 16), (2, 1)] thr) wide) 16 16 (e + 2 ^ 31)
    p.isAway = false ∧ p.cb.hoop = true ∧ p.acqBusy = false ∧ regionOf (p.gv 6).toNat ≠ .private_ ∧ (regionOf (p.gv 5).toNat = .private_ ∧ (p.gv 5).toNat % 16 ≠ 0) ∧
    ((p.gv 0).toNat = 0 ∧ 2048 < (p.gv 4).toNat) ∧ (place p p.src 16 (16 * 1) = .lm 0 16 false ∧ patchBad (p.cluster 0) (patchEntries p 16 16 1) = none) ∧
    (patchBad (q.cluster 0) (patchEntries q 16 16 1)).isSome = true ∧ 0 < (p.gv 3).toNat := by decide +kernel

theorem test_meets_DomainResults :
    let p := pan (regs [(1, 2), (2, 65536), (3, 2 ^ 32), (4, 65537), (5, 2 ^ 32 - 1)] thr) wide
    let q := clus (pan thr wide) { doms := [(0, { state := 1 }), (1, {})] }
    (p.isAway = false ∧ p.cb.hoop = true ∧ (domOf (p.cluster 0) 0).state ≠ 1 ∧ 2 ≤ (p.gv 1).toNat ∧ (p.gv 2).toNat ≤ 65536 ∧ (p.gv 5).toNat < 2 ^ 48) ∧
    (domOf (q.cluster 0) 0).state = 1 ∧ ((p.gv 0).toNat < 2 ∧ 65536 < (p.gv 4).toNat) ∧ 2 ^ 32 ≤ (p.gv 3).toNat ∧ (p.cc.tlc < 7 ∧ (p.gv 5).toNat < 2 ^ 32) ∧
    ((p.queue 0 1 3).length < 32 ∧ (p.blk 0 1).held = []) ∧ 0 < (domOf (p.cluster 0) 0).period := by decide +kernel

theorem test_meets_ImageResults :
    let p := clus (mem (mem (pan (regs [(1, 0)] thr) wide) 16 16 ((4 + 2 ^ 12) * 2 ^ 64)) 4096 64 (2 ^ 32)) { cells := [(1, { k := 4, dom := 1 })] }
    let q := clus (pan thr wide) { strokes := [⟨1, 1, 5, 2⟩] }
    (p.isAway = false ∧ p.cb.hoop = true ∧ p.acqBusy = false ∧ imagePlace p (p.gv 1).toNat = .ok 0 ∧ (domOf (p.cluster 0) 1).state ≠ 1 ∧ p.cc.tlc < 7 ∧ (p.core 0).waits = []) ∧
    inFlight (p.cluster 0) 1 = false ∧ inFlight (q.cluster 0) 0 = true ∧
    ((∀ i, i < 256 → (cellOf (p.cluster 0) i).dom = 1 → recordBad (p.cluster 0) i 1 (p.lmRead 0 (16 * i) 16) = false) ∧ domBad (p.lmRead 0 4096 64) = false) := by decide +kernel

theorem test_meets_CellGroups : let p := clus (pan vthr wide) { cells := (List.range 16).map fun i => (i, { k := 4 }) }
    (p.isAway = false ∧ p.cb.hoop = true ∧ vecOk p p.src 4 1 = false ∧ vecOk p p.src 3 1 = true) ∧
    (∀ i, i < 16 → (domOf (p.cluster 0) (cellOf (p.cluster 0) i).dom).state ≠ 1) ∧
    (∀ i, i < 16 → (sgn 32 (lane 32 (p.vec 3) i)).natAbs < 2 ^ (cellOf (p.cluster 0) i).k) := by decide +kernel

theorem test_meets_ArraySteps :
    let y : Domain := { state := 1, begun := false, next := 5, period := 2 }
    let p : Panel := { clus (pan thr wide) { doms := [(0, y)], cells := [(0, { k := 4, q := 3 })] } with now := 5, ev := [0, 5] }
    let z : Domain := { y with begun := true, latched := [(0, 1, 0)] }
    let q : Panel := { clus (pan thr wide) { doms := [(0, z)], cells := [(0, { k := 4, q := 3 })] } with now := 5, ev := [0] }
    let r : Panel := { clus (pan thr wide) { strokes := [⟨256, 1, 5, 3⟩], cells := [(256, { k := 4, xsrc := 3 })] } with now := 5, ev := [0] }
    (y.state = 1 ∧ y.haltStop = false ∧ y.next = p.now ∧ (p.cluster 0).strokes = [] ∧ p.domHeld 0 y = false) ∧
    (z.begun = true ∧ (q.cluster 0).oacts = [] ∧ (stepCell (cellOf (q.cluster 0) 0) 1 0).2 = false) ∧
    ((cellOf (r.cluster 0) 256).k ≠ 0 ∧ 3 ∈ sources (cellOf (r.cluster 0) 256) ∧ queuedLink (r.cluster 0) 256 3 = true ∧ (cellOf (r.cluster 0) 256).fifo.length < 16) := by
  decide +kernel

theorem test_meets_HoopCommandsPerformed :
    let x : HCmd := { sub := 5, shape := 0, a := 0, b := 0, core := 0, slot := 0, btag := 1, rmode := 0 }
    let p : Panel := { clus (pan { vthr with tlc := 1 } wide) { hoop := { cmds := [x] } } with ev := [0] }
    (p.cluster 0).hoop.cmds = x :: [] ∧ (p.cluster 0).hoop.parked = false ∧ x.status = 0 ∧ (p.cluster 0).hoop.bind = none ∧ (p.queue 0 1 0).length < 32 ∧ (p.blk 0 1).held = [] ∧
      Memory.wf p.mem = true := by decide +kernel

theorem test_meets_HoopStep :
    let x : HCmd := { sub := 5, shape := 0, a := 0, b := 0, core := 0, slot := 0, btag := 1, rmode := 0 }
    let p := clus (pan vthr wide) { hoop := { cmds := [x], bind := some (shp 64 2 32 8 16 32, 0, 0, 0), latFmt := 2, latK := 0 } }
    (p.cluster 0).hoop.bind ≠ none ∧ (hmmaStep p 0 x).status = 0 ∧ (hmmaStep p 0 x).poison = false := by decide +kernel

/-- The panel of `pan` with an event's operands and the cycle. -/
def evt (p : Panel) (args : List Nat) (now : Nat := 0) : Panel := { p with ev := args, now := now }

theorem test_meets_TimerEvents :
    let p (c : Ctx) : Panel := evt (pan c) [0, 0] 5000
    let free (c : Ctx) : Prop := c.st ≠ .parked ∧ c.gapUntil ≤ 5000
    ((p { thr with div := [(1, 7, 5000)] }).ctx 0 0).div = [(1, 7, 5000)] ∧ ((p { thr with st := .gap, gapUntil := 5000 }).ctx 0 0).st = .gap ∧
    (((p { thr with stall := .hold 5000 }).ctx 0 0).stall = .hold 5000 ∧ free ((p { thr with stall := .hold 5000 }).ctx 0 0)) ∧
    (((p { thr with stall := .fuse 3 2 904 }).ctx 0 0).stall = .fuse 3 2 904 ∧ 904 + 4096 ≤ 5000) ∧
    (((p { thr with st := .blocked, wake := .stagger 5000 }).ctx 0 0).wake = .stagger 5000) ∧ ((p { thr with stall := .migrate }).ctx 0 0).stall = .migrate ∧
    (let e : WaitEnt := ⟨1, 0, 0, false, 0, false, 0, 3, false, 5000⟩
     let q := evt (pan { thr with st := .blocked, wake := .ldsy 8 3 false } handBlock { fe := [1], waits := [e] }) [0, 0] 5000
     q.cores = [(0, q.core 0)] ∧ (q.core 0).waits = [e] ∧ e.core = 0 ∧ e.slot = 0 ∧ e.entered = false ∧ e.retryAt ≤ q.now ∧ e.bar = false ∧ q.isFull 0 e.off = true ∧
       e.take = false ∧ e.acc = 0) := by decide +kernel

theorem test_meets_RetentionEvents :
    let p := evt (pan { thr with st := .blocked, wake := .qpop 8 1 } handBlock { blk := [(1, { rfpwr := 1 })] }) [0] 256
    let q := evt (pan thr handBlock { retDepth := 1, wakeAt := 256 }) [0] 256
    (p.core 0).idleSince + 256 ≤ p.now ∧ (p.core 0).retDepth = 0 ∧ retentionOk p 0 = true ∧ retentionOk q 0 = false ∧ ((q.core 0).retDepth ≠ 0 ∧ (q.core 0).wakeAt ≠ 0 ∧ (q.core 0).wakeAt ≤ q.now) := by
  decide +kernel

theorem test_meets_AccessArrivals :
    let a : Access := { acc0 with items := [⟨64, 128, 0, 64, false⟩] }
    let p : Panel := { evt (pan thr two { fifo := [⟨.access 1, 1, none⟩] }) [0] with accs := [(1, a)] }
    let b : Access := { acc0 with kind := .amo, wide := true, items := [⟨64, 128, 0, 64, false⟩] }
    let q : Panel := { evt (pan thr two { fifo := [⟨.amo 1, 1, none⟩] }) [0] with accs := [(1, b)] }
    let r : Panel := { evt (mem (pan thr two { fifo := [⟨.bar 1 16 0 0 0 1 0 none 1, 0, none⟩] }) 16 16 (mkObj 1 0 false 0 0 2)) [0] with accs := [(1, { acc0 with kind := .barrier })] }
    (p.acc 1 = some a ∧ a.id = 1 ∧ (∀ e ∈ p.accs, 1 ∉ e.2.after) ∧ p.Arrived 0 ⟨.access 1, 1, none⟩ []) ∧
    (q.acc 1 = some b ∧ itemOff b = 16 ∧ q.Arrived 0 ⟨.amo 1, 1, none⟩ []) ∧
    (r.mine { acc0 with kind := .barrier } = true ∧ (r.core 0).waits = [] ∧ (r.ctx 0 0).btag < 2 ^ 32 ∧ objOk (r.obj 0 16) 1 = true ∧ objArr (r.obj 0 16) + 1 < objExp (r.obj 0 16) ∧
      (r.ctx 0 0).arr = none ∧ r.Arrived 0 ⟨.bar 1 16 0 0 0 1 0 none 1, 0, none⟩ []) := by unfold Panel.Arrived; decide +kernel

theorem test_meets_MessageArrivals :
    let a : Access := { acc0 with kind := .send }
    let m : Packet := ⟨.msg 0 [5, 6] 0 0 false 1 1 false 1 0, 0, some 3⟩
    let h : Packet := ⟨.handler [0x40000, 6] 0 0 1 1 1 0, 0, some 3⟩
    let p : Panel := { evt (pan thr two { fifo := [m], rings := [(0, ⟨1, true, 4, 0, 64, 0, 0, 0, 0⟩)] }) [0] with accs := [(1, a)] }
    let q : Panel := { evt (pan thr two { fifo := [h] }) [0] with accs := [(1, a)] }
    let r : Panel := { evt (pan thr two { fifo := [h], hq := List.replicate 4 h.pay }) [0] with accs := [(1, a)] }
    (p.acc 1 = some a ∧ (∀ e ∈ p.accs, 1 ∉ e.2.after) ∧ 1 ≤ a.copies ∧ p.Arrived 0 m [] ∧ p.residentAt 1 0 = true) ∧ (q.Arrived 0 h [] ∧ r.Arrived 0 h []) ∧
    ((SMap.getD (p.core 0).rings 0 {}).en = true ∧ (∃ t, ringFit { SMap.getD (p.core 0).rings 0 {} with head := (SMap.getD (p.core 0).rings 0 {}).headAtStart p.now } 16 = .ok (0, false, t)) ∧ (p.queue 0 1 4).length < 32) ∧
    (SMap.getD (q.core 0).rings 0 {}).en = false ∧ ((q.block 1).st = .resident ∧ q.residentAt 1 0 = true ∧ (q.core 0).hq = [] ∧ (q.ctx 0 12).st = .empty) ∧ 4 ≤ (r.core 0).hq.length ∧
    (pan thr two { hq := [h.pay] } |>.core 0).hq = [h.pay] := by
  refine ⟨by unfold Panel.Arrived; decide +kernel, by unfold Panel.Arrived; decide +kernel, ⟨by decide +kernel, ⟨24, by decide +kernel⟩, by decide +kernel⟩, by decide +kernel, by decide +kernel, by decide +kernel, by decide +kernel⟩

theorem test_meets_ThreadArrivals :
    let c : Ctx := { thr with homeCore := 0, homeSlot := 0 }
    let k (x : Pay) : Panel := evt (pan { thr with st := .away } two { fifo := [⟨x, 1, none⟩] }) [0]
    let full := evt (pan { thr with st := .away } two { fifo := [⟨.mig c 0 0 0 0 0 1 0, 1, none⟩], ctxs := [(14, thr), (15, thr)] }) [0]
    (∀ x ∈ [Pay.mig c 0 0 0 0 0 1 0, .mig c 3 (w64 (mesh 0 8)) 5 63 0 1 0, .bounce c 0, .home c 0 0 0 0 0 0, .wake 0],
      (k x).Arrived 0 ⟨x, 1, none⟩ [] ∧ ((k x).ctx 0 14).st = .empty ∧ (k x).awaits c = true ∧ (k x).groupParked c.homeCore c.btag = false ∧ (k x).groupParked 0 c.btag = false) ∧
    (full.Arrived 0 ⟨.mig c 0 0 0 0 0 1 0, 1, none⟩ [] ∧ full.awaits c = true ∧ full.groupParked 0 c.btag = false ∧ 1 ≠ 0 ∧ c.homeSlot < 12) ∧
    ((full.ctx 0 14).st ≠ .empty ∧ (full.ctx 0 15).st ≠ .empty) ∧ meshPlace (k (.wake 0)) c (w64 (mesh 0 8)).toNat 1 = .lm 0 8 true ∧ 63 % 8 = 7 ∧
    (c.pend = [] ∧ c.st ≠ .blocked ∧ c.gapUntil ≤ 0) ∧
    (let w := evt (pan { thr with st := .blocked, wake := .barrier 1 16 0 8 } two { fifo := [⟨.wake 0, 1, none⟩], ctxs := [(2, { thr with st := .away })] }) [0]
     let c : Ctx := { thr with homeCore := 0, homeSlot := 2 }
     w.Arrived 0 ⟨.wake 0, 1, none⟩ [] ∧ (w.ctx 0 0).wake = .barrier 1 16 0 8 ∧ (w.ctx 0 0).st = .blocked ∧ objStag (w.obj 1 16) = false ∧
       w.awaits c = true ∧ w.groupParked c.homeCore c.btag = false ∧ w.groupParked 0 c.btag = false) := by unfold Panel.Arrived; decide +kernel

theorem test_meets_ResponseEvents :
    let l : Access := { acc0 with kind := .load, cls := .loads, dest := .g 3, stage := .performed, fill := 1, lines := [(0x1000, 0, 0x55)], parts := [⟨0x1000, 0, 8, 0, 0, true, 0⟩] }
    let p (a : Access) (e : List Nat) : Panel := { evt (pan { thr with ldc := 1, stc := 1 }) e with accs := [(1, a)] }
    ((p l [1]).acc 1 = some l ∧ l.id = 1 ∧ (p l [1]).mine l = true ∧ l.acq = false ∧ l.items = [] ∧ l.patch = [] ∧ l.ofTile = false ∧ awaySlot l.slot = false ∧ ((p l [1]).block l.btag).st ≠ .absent) ∧
    (let st := { acc0 with stage := .performed }; (p st [1]).acc 1 = some st ∧ (p st [1]).mine st = true ∧ st.dest = .none) ∧
    (let m := { acc0 with kind := .send, data := 1 }; (p m [1, 0, 0]).mine m = true ∧ m.got + 1 = m.data ∧ m.quiet = false) ∧
    (let e := { l with stage := .error, err := 0x33 }; e.dest ≠ .none ∧ 0x30 ≤ e.err ∧ e.err < 256 ∧ thr.undo = none) ∧
    (let e : Access := { acc0 with kind := .barrier, stage := .error, pc := 0x40000 }
     let u : Undo := { lo := 1, g := [(3, 7)] }
     let q : Panel := { evt (pan { thr with undo := some u }) [1] with accs := [(1, e)], blocks := [(e.btag, { (pan thr).block e.btag with tvec := 0x50000 })] }
     q.acc 1 = some e ∧ e.id = 1 ∧ q.mine e = true ∧ (q.ctx e.core e.slot).undo = some u ∧ u.lo ≤ 1 ∧ u.mem = [] ∧ u.cells = [] ∧ awaySlot e.slot = false ∧ (q.block e.btag).trapVec q.now ≠ 0 ∧
       e.pc ≠ (q.block e.btag).trapVec q.now) := by decide +kernel

/-- Page tables of address space 0 that map virtual page 4 to physical page 4, with leaf bits W, R and UL. -/
def paged (p : Panel) : Panel :=
  { p with
    parts := [(0, { p.part 0 with asids := [(0, 16)] })]
    mem := Memory.writeN (Memory.writeN (Memory.writeN p.mem (16 * 65536) 8 (1 + 17 * 65536)) (17 * 65536) 8 (1 + 18 * 65536)) (18 * 65536 + 32) 8 (4 * 65536 + 0x1F) }

/-- Line 0x1000 held by slice `sc`. -/
def held (p : Panel) (sc : Nat) (l : L2Line) : Panel := { p with slices := [(sc, { lines := [l] })] }

def l2 : L2Line := ⟨0x1000, 0, 0x55, false, false, 0, 0⟩

theorem test_meets_SliceEvents :
    let a : Access := { acc0 with parts := [⟨0x1000, 8, 8, 0, 0, false, 0⟩] }
    let sc := homeSlice (handPart) 0x1000
    let q (k : Slice) (e : List Nat) (a : Access) : Panel := { evt (pan thr) e with accs := [(1, a)], slices := [(sc, k)] }
    let k : Slice := { ing := [⟨.acc 1 0, 0, 0x1000, 0⟩], lines := [l2] }
    let p := q k [sc] a
    (p.acc 1 = some a ∧ a.id = 1 ∧ a.err = 0 ∧ a.got = 0 ∧ a.fill = 0 ∧ (∀ e ∈ p.accs, 1 ∉ e.2.after) ∧ p.routeLine 0x1000 = none ∧ p.watched 0x1000 = none ∧
      lineRegion 0x1000 = 0 ∧ (p.slice sc).vc = [] ∧ (p.slice sc).ing = [⟨.acc 1 0, a.core, 0x1000, 0⟩] ∧ (p.slice sc).tagBad = false ∧ SMap.find (p.slice sc).soft 0x1000 = none ∧ (p.slice sc).mshr = [] ∧ l2Find (p.slice sc) 0x1000 = some l2 ∧ l2.key = 0 ∧ l2.poison = false) ∧
    (let r := q { k with lines := [{ l2 with poison := true }] } [sc] { a with kind := .load }; l2Find (r.slice sc) 0x1000 = some { l2 with poison := true }) ∧
    (let r := q { k with lines := [{ l2 with key := 1 }] } [sc] a; l2Find (r.slice sc) 0x1000 = some { l2 with key := 1 }) ∧
    ((amoNew 0 false 0 5 1 1).isSome = true) ∧ l2Find { k with lines := [] } 0x1000 = none ∧
    (let r := q { mshr := [⟨0x1000, [⟨.acc 1 0, 0, 0x1000, 0⟩]⟩] } [sc, 0x1000] { a with kind := .load }
     let x := r.part (partOf r sc)
     (r.slice sc).ing = [] ∧ l2Find (r.slice sc) 0x1000 = none ∧ frameTag r.hbm (0x1000 / 1024) = 0 ∧ homeSlice x 0x1000 = sc ∧ SMap.find r.hbm.soft 0x1000 = none ∧ 0x1000 ∉ r.hbm.poison ∧
       (∀ e ∈ r.accs, e.2.stage ≠ .held ∧ e.2.stage ≠ .tlb) ∧ ∃ w, w < lineWays x ∧ ∀ y ∈ (r.slice sc).lines, y.set = homeSet x 0x1000 → y.way ≠ w) ∧
    (frameTag { tags := [(4, 1)] } (0x1000 / 1024) ≠ 0) := by
  refine ⟨by decide +kernel, by decide +kernel, by decide +kernel, by decide +kernel, by decide +kernel, ⟨by decide +kernel, by decide +kernel, by decide +kernel, by decide +kernel,
    by decide +kernel, by decide +kernel, by decide +kernel, 0, by decide +kernel, by decide +kernel⟩, by decide +kernel⟩

theorem test_meets_MemoryErrors :
    let p (k : Slice) (h : Hbm) (e : List Nat) : Panel := { evt (pan thr) e with slices := [(0, k)], hbm := h }
    let k (v : Nat) (d : Bool) : Slice := { lines := [{ l2 with dirty := d }], soft := [(0x1000, v)] }
    (l2Find ((p (k 1 false) {} [0, 0, 0x1000, 7]).slice 0) 0x1000 = some l2 ∧ 0x1000 < hbmSize / 64) ∧ (SMap.find (k 1 false).soft 0x1000 = some 1 ∧ softCount 1 2 = 0 ∧ (k 1 false).tagBad = false) ∧
    (SMap.find (k 2 true).soft 0x1000 = some 2 ∧ softCount 2 2 ≠ 0) ∧ l2Find (k 2 true) 0x1000 = some { l2 with dirty := true } ∧ l2Find (k 2 false) 0x1000 = some l2 ∧ l2.dirty = false ∧
    (let q := p { k 2 true with tagBad := true } {} [0, 0x1000]
     (q.slice 0).tagBad = true ∧ (SMap.find q.parts (partOf q 0)).isSome = true ∧ (q.part (partOf q 0)).halt = false) ∧
    (let q := p {} { soft := [(0x1000, 2)] } [(hbmPlace handPart (64 * 0x1000)).1, 0x1000]
     partOfHbm q (64 * 0x1000) = some (0, handPart) ∧ SMap.find q.hbm.soft 0x1000 = some 2 ∧ softCount 2 2 ≠ 0 ∧ softCount 64 2 = 0) ∧
    (let q := sta (p {} {} [7, 0, 0]); (∀ e ∈ q.front.eps, e.2.held.length < 64) ∧ (q.panel.slice 0).cnt.corr < 2 ^ 32 ∧ (q.panel.slice 0).cnt.uncorr < 2 ^ 16) ∧
    (let q := p {} {} [5, 255]; q.frameHeld 5 = false ∧ (∀ e ∈ q.hbm.initq, e.1 ≠ 5) ∧ 5 < hbmSize / 65536 ∧ Memory.wf q.mem = true) := by decide +kernel

theorem test_meets_ExternalAccesses :
    let x : Part := ⟨(2 * 2 ^ 48 + 2 ^ 47) / 64, 8, 8, 0, 0, false, 0⟩
    let y : Part := { x with line := 3 * 2 ^ 48 / 64 }
    let a : Access := { acc0 with parts := [x], kind := .load }
    let p : Panel := { evt (pan thr) [2] with accs := [(1, a)], hostBase := [0, 4096], hostLimit := [0, 16] }
    let q : Panel := { p with hostLimit := [0, 15] }
    let sc := homeSlice handPart 0x1000
    let r : Panel := { held (evt (pan thr) [5, 0, 0x40000, 0, 0, 3, 8]) sc l2 with parts := [(0, { handPart with peers := [(0, BitVec.ofNat 64 (2 ^ 63 + 3 * 2 ^ 58 + 5 * 2 ^ 39))] })] }
    (p.acc 1 = some a ∧ a.stage = .out ∧ x.done = false ∧ x.pos = 0 ∧ (∀ e ∈ p.accs, 1 ∉ e.2.after) ∧ lineRegion x.line = 2 ∧ bf x.pa 46 0 + x.len ≤ p.hostLimit.getD (bf x.pa 47 47) 0) ∧
    (lineRegion y.line ≠ 0 ∧ a.fill = 0 ∧ a.got = 0 ∧ 0 < x.len) ∧ q.hostLimit.getD (bf x.pa 47 47) 0 < bf x.pa 46 0 + x.len ∧ a.slot < 16 ∧
    (peerOk (r.part 0) 5 3 0x40000 8 = true ∧ 0x40000 % 64 + 8 ≤ 64 ∧ (r.slice sc).tagBad = false ∧ (r.slice sc).mshr = [] ∧ (r.slice sc).ing = [] ∧ (r.slice sc).vc = [] ∧ SMap.find (r.slice sc).soft 0x1000 = none ∧
      l2Find (r.slice sc) 0x1000 = some l2 ∧ l2.key = frameTag r.hbm (0x1000 / 1024) ∧ r.routeLine 0x1000 = none ∧ r.watched 0x1000 = none) ∧
    peerOk (r.part 0) 5 4 0x40000 8 = false := by decide +kernel

theorem test_meets_TranslationEvents :
    let a : Access := { acc0 with stage := .tlb }
    let w (j : List Nat) (r : WalkR) : TlbWalk := { part := 0, asid := 0, vpn := 4, joined := j, res := some r }
    let t : Tlb := ⟨0, 0, 4, 1, 4, 0, 11⟩
    let p (r : WalkR) := clus (evt (pan thr) [0, 0]) { walks := [w [] r] }
    let q : Panel := { clus (evt (pan thr) [0, 0]) { walks := [w [1] .notPresent] } with accs := [(1, a)] }
    (((p (.ok t)).cluster 0).walks = [w [] (.ok t)] ∧ (∀ e ∈ (p (.ok t)).accs, e.2.stage ≠ .tlb) ∧ (p (.ok t)).badSlot t = false ∧ ((p .notPresent).cluster 0).walks = [w [] .notPresent]) ∧
    ((q.cluster 0).walks = [w [1] .notPresent] ∧ q.acc 1 = some a ∧ a.stage = .tlb ∧ a.kind = .store ∧ a.ofTile = false ∧ a.hint = false ∧ a.slot < 12 ∧ (q.ctx 0 0).btag = a.btag ∧ (q.ctx 0 0).st = .ready ∧
      (SMap.find q.parts (q.block a.btag).part).isSome = true) ∧
    (let r : Panel := { evt (pan thr) [0, 0, 7] with launches := [(1, { part := 0, queue := 0, seq := 1, lease := [7] })] }; r.pinHolds 0 0 7 [] = true ∧ r.pinHolds 0 0 8 [] = false ∧
      r.pinHolds 0 0 8 [2 ^ 52 + 0, 2 ^ 63 + 16 * 65536] = false) ∧
    bt (2 ^ 63 + 16 * 65536) 63 = true := by decide +kernel

theorem test_meets_TranslationEvents_records :
    (let b : Access := { acc0 with kind := .load, cls := .loads, dest := .g 3, stage := .parked, fault := 1, fpage := 4 }
     let r : Panel := { evt (pan { thr with st := .parked, ldc := 1 } handBlock { parked := [1] }) [0, 0, 4, 1] with parts := [(0, { handPart with faults := [(0, 4)] })], accs := [(1, b)], launches := [] }
     (0, 4) ∈ (r.part 0).faults ∧ (r.part 0).deferred = [] ∧ (r.part 0).queues = [] ∧ (r.part 0).copies = [] ∧ r.cores = [(0, r.core 0)] ∧ (r.core 0).parked = [1] ∧ (r.core 0).walk.busy = false ∧
       (r.core 0).pf = [] ∧ (r.core 0).drop = [] ∧ (r.core 0).mcrd = [] ∧ r.clusters = [] ∧ b.verdict = 0 ∧ b.core = 0 ∧ b.slot = 0 ∧
       (r.ctx 0 0).btag = b.btag ∧ (r.ctx 0 0).st = .parked ∧ (r.block b.btag).part = 0 ∧ (r.block b.btag).asid = 0 ∧ (r.block b.btag).st = .resident) ∧
    (let r : Panel := { evt (pan { thr with st := .stall, stall := .tlbinv }) [0, 0] with parts := [(0, { handPart with tlbinvs := [(0, 0, 0, 4, 1, 2)] })] }
     (r.part (partOf r 0)).tlbinvs = [(0, 0, 0, 4, 1, 2)] ∧ (r.ctx 0 0).stall = .tlbinv ∧ (r.ctx 0 0).st ≠ .parked ∧ (r.ctx 0 0).gapUntil ≤ r.now ∧ r.underWay (partOf r 0) 0 4 1 2 = false ∧
       ({ r with accs := [(1, { acc0 with va := 4 * 65536, parts := [⟨0x1000, 0, 8, 0, 0, false, 0⟩] })] } : Panel).underWay (partOf r 0) 0 4 1 2 = true) := by
  refine ⟨?_, ?_⟩ <;> decide +kernel

theorem test_meets_BlockPlacement :
    let p : Panel := { evt (pan thr) [0, 2, 1, 0, 0, 0] with launches := [(2, { part := 0, queue := 0, seq := 2, st := .placing, entry := 0x40000 })] }
    (SMap.find p.launches 2 = some (p.launch 2) ∧ (p.launch 2).part = 0 ∧ (p.launch 2).st = .placing ∧ (p.launch 2).range = none ∧ (p.launch 2).pinned = false ∧ (p.launch 2).quota = 1 ∧
      (p.launch 2).w = 1 ∧ (p.launch 2).h = 1 ∧ (p.part 0).schedHalted = false ∧ (p.part 0).readmit = [] ∧ p.room (p.launch 2).need [] 1 0 0 0 [] = true ∧ (p.freeSlots [] (coreXY 1 0)).head? = some 0) ∧
    (let q := evt { pan thr with cores := [] } [1]
     (q.block 1).st = .resident ∧ (∀ c ∈ blockCores (q.block 1), tagSlots q c 1 = [] ∧ (q.core c).hq = []) ∧ q.enginesBusy 1 = false ∧ q.domsRun 1 = false ∧ (q.launch (q.block 1).launch).preempt = false) ∧
    (let q := evt (pan thr) [1]; ∃ c ∈ blockCores (q.block 1), tagSlots q c 1 ≠ []) := by decide +kernel

theorem test_meets_BlockSwap :
    let park (b : Block) : Panel := evt (pan { thr with st := .parked } b) [1]
    ((park handBlock).swapDue 1 = true ∧ (evt (pan thr) [1]).swapDue 1 = false ∧ handBlock.pinned = false ∧ handBlock.parkReported = false ∧ ((park handBlock).part 0).schedHalted = false) ∧
    (let p : Panel := { park { handBlock with st := .taking } with ev := [1, 0] }
     let q := p.freezeGroups 1
     q.drained 1 = true ∧ (p.block 1).yieldAt = none ∧ q.groupOf (blockCore (p.block 1) 0 0) 1 = [0] ∧ (SMap.find p.parts (p.block 1).part).isSome = true) ∧
    (let p := evt (pan thr { handBlock with st := .taking, yieldAt := some 0 }) [1] 1
     let r := evt (pan thr { handBlock with st := .taking, yieldAt := some 0, yieldLate := true }) [1] 1
     (evt p [1]).now ≤ 0 ∧ (r.block 1).yieldLate = true ∧
     ((p.freezeGroups 1).drained 1 = false ∧ (p.block 1).yieldAt = some 0 ∧ 0 < p.now ∧ (p.block 1).yieldLate = false ∧ ∃ c ∈ blockCores (p.block 1), c ∉ ((p.freezeGroups 1).block 1).taken)) ∧
    (let p := park { handBlock with st := .taking, yieldAt := some 0 }; ∀ c ∈ blockCores (p.block 1), c ∈ ((p.freezeGroups 1).block 1).taken) ∧
    (let p : Panel := { evt (pan thr { handBlock with st := .absent, recCtxs := [(0, [(0, thr)])] }) [1, 2, 0, 0, 0] with cores := [], parts := [(0, { handPart with readmit := [1] })] }
     let b := p.block 1
     (p.leaseAgain b.launch).isNone = true ∧ p.room ⟨b.part, b.asid, b.q, 1, 1, b.lmSize, b.regs, false, false⟩ [] 2 0 0 0 [] = true ∧ (p.freeSlots [] (coreXY 2 0)).head? = some 0) := by decide +kernel

theorem test_meets_DivertedMessages :
    let m : Packet := ⟨.msg 0 [5] 0 0 false 1 1 false 1 0, 0, some 3⟩
    let p (b : Block) : Panel := { evt (pan thr b) [0] with parts := [(0, { handPart with divert := [(3, m)] })], accs := [(1, acc0)] }
    ((p handBlock).part 0).divert = [(3, m)] ∧ (p handBlock).acc 1 = some acc0 ∧ (∀ e ∈ (p handBlock).accs, 1 ∉ e.2.after) ∧ ((p handBlock).block 1).st = .resident ∧
    ((p { handBlock with st := .ended }).block 1).st = .ended ∧ (((p { handBlock with st := .absent }).block 1).st = .absent ∧ (shadowRing { handBlock with st := .absent } 0 0).en = false) ∧
    ((p { handBlock with st := .taking }).block 1).st = .taking ∧
    (let b (size : Nat) : Block := { handBlock with st := .absent, recRings := [(0, [(0, { btag := 1, en := true, base := 4, size := size })])] }
     ((p (b 64)).block 1).st = .absent ∧ (shadowRing (b 64) 0 0).en = true ∧ (match ringFit (shadowRing (b 64) 0 0) 8 with | .ok _ => true | _ => false) = true ∧
       (shadowRing (b 8) 0 0).en = true ∧ (match ringFit (shadowRing (b 8) 0 0) 8 with | .error _ => true | _ => false) = true) := by decide +kernel

theorem test_meets_HaltLine :
    let p (q : Partition) (e : List Nat) (c : Ctx := thr) : Panel := { evt (pan c) e with parts := [(0, q)] }
    let up : Partition := { handPart with halt := true, hReason := 2 }
    let e0 := (p up [0, 0]).fabric
    let s0 := siteOf e0 0
    (siteInPart handPart 0 = true ∧ handPart.halt = false) ∧ (siteInPart up 4 = true ∧ 4 ∉ up.hSites ∧ (coreAtSite e0 s0).isSome = true) ∧
    coreAtSite e0 289 = none ∧ siteInPart up 289 = true ∧ 289 ∉ up.hSites ∧ ({ up with hSites := [0] }.hSites = [0]) ∧ (p up [0]).accs = [] ∧
    (let q : Panel := { p up [0] with blocks := [], clusters := [] }; (q.part 0).queues = [] ∧ (q.part 0).copies = []) ∧ { up with hReason := 1 }.hReason = 1 ∧
    (let q : Panel := { p { up with hReason := 3 } [0] with launches := [] }; q.blocks = [(1, handBlock)] ∧ handBlock.part = 0 ∧ handBlock.st = .resident) ∧
    (let q := p { up with hSites := [s0] } [0, 0, 5]; (q.part (partOf q 0)).halt = true ∧ siteOf q.fabric 0 ∈ (q.part (partOf q 0)).hSites ∧ (q.ctx 0 0).st ≠ .empty) := by decide +kernel

theorem test_meets_DebugStores :
    let sc := homeSlice handPart 0x1000
    let p := held (paged (evt (pan thr) [0, 0, 0x40004, 0x5A])) sc l2
    p.ev = [0, 0, 0x40004, 0x5A] ∧ regionOf 0x40004 = .paged ∧ p.walk 0 0 (0x40004 / 65536) = .ok ⟨0, 0, 4, 1, 4, 0, 11⟩ ∧ region (4 * 65536 + (0x40004 - 4 * 65536)) = 0 ∧
    homeSlice (p.part 0) 0x1000 = sc ∧ SMap.find (p.slice sc).soft 0x1000 = none ∧ l2Find (p.slice sc) 0x1000 = some l2 ∧ l2.key = 0 ∧ p.routeLine 0x1000 = none ∧ p.watched 0x1000 = none := by
  decide +kernel

/-- The five lines of a route block, the first with the given contents. -/
def routeLines (l0 : Nat) (k : Nat) : L2Line := ⟨k, 0, BitVec.ofNat 512 (if k = 0 then l0 else 0), false, false, 0, 0⟩

theorem test_meets_RouteEvents_held :
    let p (l0 : Nat) : Panel := { evt (pan thr) [0] with slices := (List.range 5).map fun k => (homeSlice handPart k, { lines := (List.range 5).map (routeLines l0) }) }
    ([0, 16 * 2 ^ 32].all fun l0 => (List.range 5).all fun k =>
      ((p l0).part 0).count != 0 && !((p l0).slice (homeSlice ((p l0).part 0) k)).tagBad && ((p l0).slice (homeSlice ((p l0).part 0) k)).mshr == [] &&
        ((p l0).slice (homeSlice ((p l0).part 0) k)).ing == [] && ((p l0).slice (homeSlice ((p l0).part 0) k)).vc == [] && !(routeLines l0 k).poison && !((p l0).part 0).schedHalted && SMap.find ((p l0).slice (homeSlice ((p l0).part 0) k)).soft k == none &&
        l2Find ((p l0).slice (homeSlice ((p l0).part 0) k)) k == some (routeLines l0 k) && (routeLines l0 k).key == 0) = true ∧
    routeBad handPart 0 0 = true ∧ routeBad handPart (16 * 2 ^ 32) 0 = false := by decide +kernel

theorem test_meets_RouteEvents :
    (let q : Panel := { evt (pan thr handBlock { route := [(0, 1)] }) [0, 0] with accs := [(1, acc0)] }
     (SMap.find (q.core 0).route 0).isSome = true ∧ q.inFlight 0 0 = true ∧ ({ q with accs := [] } : Panel).inFlight 0 0 = false) ∧
    (let r : Partition := { handPart with hyst := 8 }
     r.thresh * 1 < 16 * 2 ∧ (16 * 0 ≤ r.thresh * 1 ∧ 16 * 0 < r.hyst * 1) ∧ 16 * 1 ≤ r.thresh * 1 ∧ r.hyst * 1 ≤ 16 * 1) := by decide +kernel

theorem test_meets_CheckpointEvents :
    let y : Partition := { handPart with ckEn := true, period := 1 }
    let p (k : Core) (e : List Nat) : Panel := { evt (pan { thr with st := .blocked, wake := .qpop 8 1 } { handBlock with replayable := true } k) e with parts := [(0, y)] }
    let q := p { ckptReq := true, seqIn := [(1, 3)] } [0]
    (y.ckNext ≤ 0 ∧ inPart y 0 = true) ∧ ((q.core 0).ckptReq = true ∧ q.ckptOk 0 = true ∧ (q.part (partOf q 0)).ckEn = true ∧ Memory.wf q.mem = true ∧ (q.ctx 0 0).btag ∈ q.replayTags 0) ∧
    ({ q with cores := [(0, { q.core 0 with ctxs := [(0, { thr with stc := 1 })] })], accs := [(1, acc0)] } : Panel).ckptOk 0 = false := by decide +kernel

theorem test_meets_FailureEvents :
    let p (e : List Nat) (f : Fabric := { cword0 := 0xFF04 }) : Panel := { evt (pan thr) e with fabric := f }
    let x := siteOf (p []).fabric 0
    let ev : Fabric := { cword0 := 0xFF04, events := [0] }
    coreAtSite (p []).fabric x = some 0 ∧
    (∃ e ∈ neighbours 0, let f : Fabric := { cword0 := 0xFF04, silent := [e.2] }; (coreAtSite f 0).isSome = true ∧ 0 ∉ f.silent ∧ (coreAtSite f e.2).isSome = true) ∧
    (∃ e ∈ neighbours 0, e.2 ≠ 0) ∧
    (let q : Panel := { p [0, 0] ev with parts := [(0, { handPart with halt := true })] }; 0 ∈ q.fabric.events ∧ (q.part (partOf q 0)).halt = true) ∧
    (let q : Panel := { p [0, 1] ev with blocks := [], cores := [] }; spareFree q.fabric 0 = true ∧ siteOf q.fabric 0 ∉ q.fabric.badRouter ∧ (q.slice 0).tagBad = false ∧ (q.part (partOf q 0)).halt = false) ∧
    (let q := p [0, 0] ev
     q.blocks = [(1, handBlock)] ∧ 0 ∈ blockCores handBlock ∧ SMap.find q.launches 1 = some (q.launch 1) ∧ (q.launch 1).st = .placed ∧ (q.core 0).fifo = [] ∧ (q.core 0).net = [] ∧ siteOf q.fabric 0 ∉ q.fabric.badRouter ∧ (q.slice 0).tagBad = false ∧ handBlock.st = .resident) ∧
    (p [x, 1]).fabric.events = [] ∧ ((p [x, 1]).core 0).failed = false := by decide +kernel

theorem test_meets_LinkEvents :
    let z : Plan := { setid := 1, gen := 7, nshard := 1, dest := 0x40000, shlen := 64, key := 0, parent := 2, depth := 1, part := 0, child := 5, descva := 0, asid := 0, reader := 9, desc := 0, started := true }
    let p (z : Plan) (e : List Nat) : Panel := { evt (pan thr) e with plans := [z] }
    let z2 : Plan := { z with nshard := 2 }
    let sc := homeSlice handPart 0x1000
    let q := held (p z2 [1, 7, 0, 1, 99]) sc l2
    (let x : Port := { up := true }; x.training = false ∧ x.retries < 8 ∧ 8 ≤ ({ x with retries := 8 } : Port).retries) ∧
    (let q : Panel := { (evt (pan thr) [3, 1, 9]) with panelId := 5, parts := [(0, { handPart with peers := [(4, BitVec.ofNat 64 (2 ^ 63 + 9 * 2 ^ 39))], ports := [(4, (7, 8))] })], svasum := [(3, { up := true }), (7, { up := true })] };
      q.portTo 9 = some 7 ∧ (9 : Nat) ≠ q.panelId) ∧
    ((q.planOf 1 = some z2 ∧ z2.isReader = false ∧ (z2.dest + 0 * 64) / 64 = 0x1000) ∧ (q.slice sc).tagBad = false ∧ (q.slice sc).mshr = [] ∧ (q.slice sc).ing = [] ∧ (q.slice sc).vc = [] ∧ SMap.find (q.slice sc).soft 0x1000 = none ∧ l2Find (q.slice sc) 0x1000 = some l2 ∧ l2.key = z2.key ∧
      z2.present = [] ∧ z2.missing = [] ∧ z2.shlen = 64 ∧
      q.routeLine 0x1000 = none ∧ q.watched 0x1000 = none) ∧
    ((p z [1, 0]).planOf 1 = some z ∧ SMap.getD z.tries 0 0 < 3 ∧ 3 ≤ SMap.getD ({ z with tries := [(0, 3)] } : Plan).tries 0 0) := by decide +kernel

/-- The panel of one mapped queue of address space 0. -/
def quq (p : Panel) (q : Queue) : Panel := { p with parts := [(0, { p.part 0 with queues := [(0, q)] })], launches := [] }

/-- A queue that holds a packet of `n` units, whole, at the end of what is to be parsed. -/
def pkq (n v : Nat) : Queue :=
  { mapped := true, state := 2, rbase := 0x40000, tail := 16 * n, levels := [{ va := 0x40000, len := 4096, pos := 0 }]
    buf := (List.range n).map fun i => (0, 0x40000 + 16 * i, bf v (128 * i + 127) (128 * i)) }

/-- A packet: its type, its units, its flags and what follows its first word. -/
def pkt (typ n f rest : Nat) : Nat := typ + n * 2 ^ 8 + 2 ^ 16 + f * 2 ^ 20 + rest * 2 ^ 32

theorem test_meets_QueueEvents :
    let ro := 0x40000 + 12 * 2 ^ 96 + 2 ^ 116
    let line (k v : Nat) : L2Line := ⟨k, 0, BitVec.ofNat 512 v, false, false, 0, 0⟩
    let idle : Queue := { pkq 0 0 with state := 1 }
    let p (q : Queue) : Panel := quq (evt (pan thr) [0, 0]) q
    (let q : Panel := { evt (pan thr) [0, 0] with parts := [(0, { handPart with qtab := [(0, BitVec.ofNat 64 (2 ^ 63 + 0x10000))] })], slices := [(homeSlice handPart 0x400, { lines := [line 0x400 ro, line 0x401 0] })] }
     bt (SMap.getD (q.part 0).qtab 0 0).toNat 63 = true ∧ bf (SMap.getD (q.part 0).qtab 0 0).toNat 51 7 * 128 = 0x10000 ∧ inHbm handPart 0x10000 = true ∧ inHbm handPart (0x10000 + 127) = true ∧
       homeSlice handPart 0x401 = homeSlice handPart 0x400 ∧ l2Find (q.slice (homeSlice handPart 0x400)) 0x401 = some (line 0x401 0) ∧ SMap.find (q.slice (homeSlice handPart 0x400)).soft 0x400 = none ∧
       (q.slice (homeSlice handPart 0x400)).tagBad = false ∧ (line 0x400 ro).key = 0 ∧ (line 0x400 ro).poison = false ∧ (line 0x401 0).poison = false ∧ (∀ e ∈ q.slices, e.2.mshr = [] ∧ e.2.ing = [] ∧ e.2.vc = []) ∧
       (q.queueOf 0 0).state = 0 ∧ mappedCount (q.part 0) < 64) ∧
    halfBad 0 0 = true ∧ (halfBad 0 ro = false ∧ 0 < 2 ^ bf ro 100 96) ∧
    ((SMap.find ((p idle).part 0).queues 0).isSome = true ∧ mayUnmap ((p idle).part 0) idle = true ∧ idle.state ≠ 0 ∧ (p idle).forwarded 0 0 = false ∧ ({ p idle with agenda := [(1, .qcbTailWrite, [0, 0, 0])] } : Panel).forwarded 0 0 = true ∧ idle.levels.length = 1 ∧ idle.tail = idle.ring.pos ∧ 0 < 2 ^ idle.rlog2) ∧
    mayUnmap ((p { idle with state := 2 }).part 0) { idle with state := 2 } = false ∧
    (let q : Panel := { p { idle with mapped := false, qcb := 0x10000 } with slices := [(homeSlice handPart 0x400, { lines := [line 0x401 0] })] }
     mappedCount (q.part 0) < 64 ∧ idle.pcancel = false ∧ idle.perrack = false ∧
       (match q.engineRead (q.part 0) (0x10000 / 64 + 1) 0 with | .ok (d, y) => d == 0 && decide (y.parts = q.parts) | .error _ => false) = true) ∧
    { idle with state := 3 }.state = 3 ∧
    (let l : Launch := { part := 0, queue := 0, seq := 1, st := .placing }; l.part = 0 ∧ l.queue = 0) ∧
    (let w : Queue := { pkq 2 (pkt 9 2 0 0) with state := 3, rlog2 := 12 }; w.next = .pkt 9 0 32 (pkt 9 2 0 0) ∧ w.tail % 16 = 0 ∧ w.tail < 2 ^ w.rlog2) ∧
    (let w : Queue := { idle with tail := 16, rlog2 := 12 }
     let l : Level := { va := 0x40000, len := 4096, pos := 0 }
     (∀ e ∈ (p w).slices, e.2.mshr = [] ∧ e.2.ing = [] ∧ e.2.vc = []) ∧ w.levels = [l] ∧ l.len = 2 ^ w.rlog2 ∧ l.pos < l.len ∧ l.loop = none ∧ l.pos ≠ w.tail ∧ w.tail % 16 = 0 ∧ w.tail < 2 ^ w.rlog2 ∧ w.fpage = none ∧ w.buf = [] ∧
       w.state = 1 ∧ (p w).launches = []) := by decide +kernel

/-- A page mapped, and its home slice, which holds the lines of its tables and its first line, with a word in it: in the order in which a read uses them. -/
def word (p : Panel) (v : Nat) : Panel :=
  { paged p with
    slices := [(homeSlice handPart 0x1000, { lines := [(16384, 1 + 17 * 65536), (17408, 1 + 18 * 65536), (18432, (4 * 65536 + 0x1F) * 2 ^ 256), (0x1000, v)].map fun e =>
      { l2 with line := e.1, data := BitVec.ofNat 512 e.2 } })] }

theorem test_meets_PacketResults :
    let p (n v : Nat) : Panel := quq (evt (pan thr) [0, 0]) (pkq n v)
    let one (typ n f rest : Nat) : Prop := (pkq n (pkt typ n f rest)).next = .pkt typ f (16 * n) (pkt typ n f rest) ∧ (0 + 16 * n) % 4096 = (pkq n (pkt typ n f rest)).tail
    (SMap.find ((p 1 (pkt 1 1 0 0)).part 0).queues 0 = some (pkq 1 (pkt 1 1 0 0)) ∧ (pkq 1 (pkt 1 1 0 0)).fpage = none ∧ ∀ u ∈ (pkq 1 (pkt 1 1 0 0)).buf, u.1 = 0) ∧
    one 1 1 0 0 ∧ one 10 1 0 0 ∧ one 11 1 0 0 ∧ one 5 1 0 0 ∧ one 4 1 0 (64 + 0x40000 * 2 ^ 32) ∧ one 4 1 0 0 ∧ one 7 1 0 (3 + 2 * 2 ^ 16) ∧
    one 6 2 0 (1 + 0x40000 * 2 ^ 32) ∧ one 9 2 0 (0x40000 * 2 ^ 32) ∧ one 8 2 0 (0x40000 * 2 ^ 32) ∧ one 8 2 2 (1 + 0x40000 * 2 ^ 32) ∧ one 12 2 0 0 ∧ bt (pkq 2 0).eng 3 = false ∧
    bt ({ pkq 2 0 with eng := 8 } : Queue).eng 3 = true ∧ (sigTest 0 5 5 (2 ^ 64 - 1) = true ∧ sigTest 0 5 6 (2 ^ 64 - 1) = false) ∧
    (let inner (lp : Option (Nat × Nat × Nat × Nat)) (ring : Nat) : Queue :=
       { pkq 1 (pkt 5 1 0 0) with levels := [{ va := 0x40000, len := 4096, pos := 0, loop := lp }, { va := 0x80000, len := 4096, pos := ring }], buf := [(1, 0x40000, pkt 5 1 0 0)] }
     (inner none 16).next = .pkt 5 0 16 (pkt 5 1 0 0) ∧ (inner (some (0, 1, 1, 1)) 16).next = .pkt 5 0 16 (pkt 5 1 0 0) ∧ 16 = (inner none 16).tail ∧ bf (pkt 5 1 0 0) 127 32 = 0) := by decide +kernel

theorem test_meets_PacketResults_read : let q := quq (word (evt (pan thr) [0, 0]) 5) (pkq 2 0)
    let w (z : Panel) (v : Nat) : Bool := match z.frontWrite 0 0 false 0x40000 8 v with
      | .ok 0 y => decide (y.parts = q.parts ∧ ∀ e ∈ y.slices, e.2.mshr = [] ∧ e.2.ing = [] ∧ e.2.vc = [])
      | _ => false
    (q.part 0).copies = [] ∧ (∀ e ∈ q.slices, e.2.mshr = [] ∧ e.2.ing = [] ∧ e.2.vc = []) ∧
    (match q.frontRead 0 0 false none 0x40000 8 with
      | .ok v z => v == 5 && decide (z.parts = q.parts ∧ ∀ e ∈ z.slices, e.2.mshr = [] ∧ e.2.ing = [] ∧ e.2.vc = []) && w z ((v + 1) % 2 ^ 64)
      | _ => false) = true ∧ w q 7 = true := by decide +kernel

/-- A front-end read of `n` bytes that gives `v` and leaves the partitions and no slice busy; with `again`, one more on what it leaves. -/
def reads (q : Panel) (va n : Nat) (key : Option Nat) (v : Nat) (again : Bool) : Bool :=
  match q.frontRead 0 0 false key va n with
  | .ok w z =>
    if again then
      match z.frontRead 0 0 false key va n with
      | .ok u y => w == v && u == v && decide (y.parts = q.parts ∧ ∀ e ∈ y.slices, e.2.mshr = [] ∧ e.2.ing = [] ∧ e.2.vc = [])
      | _ => false
    else w == v && decide (z.parts = q.parts ∧ ∀ e ∈ z.slices, e.2.mshr = [] ∧ e.2.ing = [] ∧ e.2.vc = [])
  | _ => false

theorem test_meets_LaunchPackets :
    let d := 0x40000 + 2 ^ 64 + 2 ^ 100
    let p (typ n rest v : Nat) : Panel := quq (word (evt (pan thr) [0, 0]) v) (pkq n (pkt typ n 0 rest))
    let q := p 2 2 (0x40000 * 2 ^ 32) d
    let check (range : Option (Nat × Nat × Nat)) (d : Nat) := launchCheck q.fabric (q.part 0) 0 (0x40000 % 64 == 0) d (launchOf 0 0 (q.queueOf 0 0) d 0 0 range)
    ((q.queueOf 0 0).next = .pkt 2 0 32 (pkt 2 2 0 (0x40000 * 2 ^ 32)) ∧ reads q 0x40000 64 none d true = true ∧ compBad 0 = false ∧ check none d = .ok []) ∧
    (check none 0 = .error (6, 0, 0)) ∧ (check (some (0, 10, 1)) d = .ok [] ∧ check (some (10, 10, 1)) d = .ok []) ∧
    (p 3 4 (0x40000 * 2 ^ 32 + 10 * 2 ^ 288 + 2 ^ 352) d |>.queueOf 0 0).next = .pkt 3 0 64 (pkt 3 4 0 (0x40000 * 2 ^ 32 + 10 * 2 ^ 288 + 2 ^ 352)) ∧
    (let q := quq (word (evt (pan thr) [0, 0, 0x1000]) 5) { pkq 2 0 with buf := [] }
     reads q (64 * 0x1000) 64 (some (q.queueOf 0 0).keyid) 5 false = true ∧ (q.queueOf 0 0).wanted 0x1000 0 { va := 0x40000, len := 4096, pos := 0 } = [(0, 0x40000), (0, 0x40010)]) := by decide +kernel

theorem test_meets_LaunchPackets_copy :
    let c (n : Nat) : Copy := { queue := 0, src := 0x40000, dst := 0x40008, len := n, asid := 0, priv := false }
    let q := word (evt (pan thr) [0, 3]) 5
    ((c 8).done < (c 8).len ∧ min 8 (min (64 - 0x40000 % 64) (64 - 0x40008 % 64)) = 8 ∧ min 60 (min (64 - 0x40000 % 64) (64 - 0x40008 % 64)) = 56) ∧
    SMap.find (({ q with parts := [(0, { q.part 0 with copies := [(3, c 8)] })] } : Panel).part 0).copies 3 = some (c 8) ∧
    ([8, 56].all fun n => match q.frontRead 0 0 false none 0x40000 n with
      | .ok v z => v == 5 && (match z.frontWrite 0 0 false 0x40008 n 5 with | .ok 0 y => decide (y.parts = q.parts) | _ => false)
      | _ => false) = true := by decide +kernel

theorem test_meets_LaunchEvents :
    let l : Launch := { part := 0, queue := 0, seq := 1 }
    let p (l : Launch) (e : List Nat) : Panel := { quq (paged (evt (pan thr) e)) (pkq 0 0) with launches := [(1, l)] }
    let q := p l [0, 1]
    let r : Panel := { q with mem := Memory.writeN q.mem (18 * 65536 + 32) 8 (4 * 65536 + 0x1B) }
    (SMap.find q.launches 1 = some l ∧ q.nextAdmit 0 = some 1 ∧ (q.queueOf 0 0).wsel = 0 ∧ (q.leaseScan 1 []).1 = .ok) ∧
    ((q.leaseScan 1 [(0, 4, 1)]).1 = .ok ∧ pagesFrom 0x40000 64 = [4]) ∧ (r.leaseScan 1 [(0, 4, 2)]).1 = .unmapped 0 ∧ (q.leaseScan 1 [(0, 5, 1)]).1 = .fault 5 ∧ q.slices = [] ∧
    (let st : Launch := { l with st := .staging }
     (∀ e ∈ (p st [1]).clusters, ∀ y ∈ e.2.stage, y.launch ≠ 1 ∨ y.core ≠ 0) ∧ ∃ e ∈ (clus (p st [1]) { stage := [{ launch := 1, core := 0, off := 0, va := 0x40000, len := 64, done := 0 }] }).clusters, ∃ y ∈ e.2.stage, y.launch = 1 ∧ y.core = 0) ∧
    (let e : Launch := { l with st := .ended }
     ({ p e [1] with accs := [(1, acc0)] } : Panel).launchBusy 1 = true ∧ (p e [1]).launchBusy 1 = false ∧ e.comp = 0 ∧ ((p e [1]).part 0).deferred = []) ∧
    (let e : Launch := { l with st := .ended, comp := 0x40008 }
     let q : Panel := { quq (word (evt (pan thr) [1]) 5) (pkq 0 0) with launches := [(1, e)] }
     (match q.frontWrite 0 0 false 0x40008 32 (recordWord e) with | .ok 0 y => decide (y.parts = q.parts ∧ y.launches = q.launches ∧ ∀ e ∈ y.slices, e.2.mshr = [] ∧ e.2.ing = [] ∧ e.2.vc = []) | _ => false) = true) ∧
    (let b (n : Nat) : Launch := { l with st := .placed, budget := 2, ebudget := n, carry := 1000000 }
     (b 0).live = true ∧ (p (b 1) [0]).launches = [(1, b 1)] ∧ ((p (b 1) [0]).counted 1 + (b 1).carry) / 1000000 = 1) := by decide +kernel

theorem test_meets_RangeTasks :
    let l : Launch := { part := 0, queue := 0, seq := 1, st := .placing, range := some (0, 10, 2) }
    let p (e : List Nat) (q : Partition := handPart) (now : Nat := 0) : Panel := { evt (pan thr) e now with launches := [(1, l)], parts := [(0, q)] }
    (SMap.find (p [1, 0]).launches 1 = some l ∧ 0 ∉ l.asked ∧ l.slots = [] ∧ ((p [1, 0]).fitAt l.need [] (cx 0) (cy 0)).isSome = true ∧ ((p [1, 0]).part 0).schedHalted = false ∧
      SMap.find handPart.nodes (chipOf 0) = none) ∧
    (let n : Node := ⟨List.replicate 63 (1, 0), 0⟩; SMap.find ((p [1, 0] { handPart with nodes := [(chipOf 0, n)] }).part 0).nodes (chipOf 0) = some n ∧ n.reqs.length = 63 ∧ 1 < 63) ∧
    (0 ∈ ({ l with asked := [0] } : Launch).asked ∧ (p [1, 289]).fitAt l.need [] (cx 289) (cy 289) = none) ∧
    (let n : Node := ⟨[(1, 0)], 0⟩; n.opened + 16 ≤ (p [0, 0] { handPart with nodes := [(chipOf 0, n)] } 16).now ∧ (p [0, 0]).now < n.opened + 16 ∧ n.reqs.length < 63) ∧
    ((p [0] { handPart with fadds := [(0, [(1, 0)])] }).part 0).fadds = [(0, [(1, 0)])] ∧ (if 2 * 2 ≤ 10 - 0 then 2 * ((10 - 0) / 2 / 2) else 10) = 4 := by decide +kernel

/-- A state whose endpoint 0 is trained and whose module is ready. -/
def host (p : Panel) (f : Front := {}) : State := { panel := p, front := { f with ready := true, phase := 6, eps := [(0, { gts := 32, width := 16 })] } }

/-- A firmware copy that both keys sign. -/
def good : FwCopy := { version := 5, ecdsa := some 0, lms := some 0 }

theorem test_meets_BringUp :
    (let p : Panel := { ev := [7] ++ [1, 1], fabric := { bad := [300] } }; p.ev = [7] ++ [1, 1] ∧ twoFailed (p.fabric.bad ++ [7]).eraseDups = false) ∧
    fwError {} {} ≠ 0 ∧ fwError { counter := 10 } good ≠ 0 ∧ fwError {} good = 0 ∧ twoFailed [0, 1].eraseDups = true ∧ twoFailed [0, 4].eraseDups = false ∧
    (let p : Panel := { hostBase := [0, 0], hostLimit := [0, 0], ev := [0, 32, 16, 7, 8] }; p.hostBase.length = 2 ∧ p.hostLimit.length = 2) ∧ (host {}).front.ready = true ∧ ({} : Front).ready = false ∧
    (({} : Front).unserved ++ ((({} : Panel).cores.filter fun (e : Nat × Core) => e.2.failed).map (·.1))).eraseDups = [] ∧ (({ unserved := [3] } : Front).unserved ++ []).eraseDups = [3] := by
  decide +kernel

theorem test_meets_PartitionsAndWindow :
    SMap.find ({} : Panel).parts 0 = none ∧ partOk {} handPart = true ∧ partOk { parts := [(1, handPart)] } handPart = false ∧ (host {}).front.ready = true ∧
    (let p := clus (pan thr) { tlb := [tlb4] }; (SMap.find p.parts 0).isSome = true ∧
      (SMap.getD ({ handPart with peers := [(5, BitVec.ofNat 64 (2 ^ 63))] } : Partition).peers 5 0).getLsbD 63 = true ∧ BitVec.ofNat 64 (2 ^ 63) ≠ BitVec.ofNat 64 0) ∧
    ((host {}).front.ep 0).width ≠ 0 ∧ hbmSize ≤ hbmSize / 64 * 64 ∧ (partOfHbm {} (64 * (0x1000 / 64)) = none ∧ 0x1000 / 64 * 64 < hbmSize ∧ frameTag ({} : Panel).hbm (0x1000 / 64 / 1024) = 0 ∧ 0x1000 / 64 ∉ ({} : Panel).hbm.poison ∧ SMap.find ({} : Panel).hbm.soft (0x1000 / 64) = none) ∧
    0x1000 % 64 + 8 ≤ 64 ∧ (let chans := (List.range 6).map fun j => j; 0 :: 0 :: 0 :: 2 :: 2 :: 0 :: 6 :: (chans ++ [1, 2, 3]) = [0, 0, 0, 2, 2, 0, 6, 0, 1, 2, 3, 4, 5, 1, 2, 3] ∧ chans.length = 6 ∧ chans ++ [1, 2, 3, 4] = [0, 1, 2, 3, 4, 5, 1, 2, 3, 4] ∧
      SMap.find (pan thr).parts 0 = some handPart) := by decide +kernel

theorem test_meets_MailboxResults :
    let s : State := host (pan thr)
    let f : Front := { s.front with counter := 3, version := 5 }
    (s.hostOk 0 = true ∧ s.panel.reports = [] ∧ (s.front.ep 0).held = [] ∧ (s.front.ep 0).room = true) ∧ 2 ^ 30 ≤ ({ f with lmsUsed := 2 ^ 30 } : Front).lmsUsed ∧ f.lmsUsed < 2 ^ 30 ∧
    keyFree s.panel 0 = false ∧ keyFree s.panel 5 = true ∧ (2 < f.counter ∧ f.version < 6 ∧ f.counter ≤ 4 ∧ 4 ≤ f.version) ∧ ({ f with assigned := some 1 } : Front).assigned.isSome = true ∧
    (s.panel.part 0).halt = false ∧
    (let p : Panel := { pan thr with parts := [(0, { handPart with halt := true })], launches := [], blocks := [] }; (p.part 0).halt = true ∧ (p.part 0).queues = []) ∧
    s.panel.parts.find? (fun (x : Nat × Partition) => inHbm x.2 (2 ^ 40)) = none ∧ s.panel.planOf 9 = none ∧
    ((s.front.ep 0).rqCount = 0 ∧ (s.front.ep 0).rqTail = (s.front.ep 0).rqHead ∧
      (let v := 0x0108 + 1 * 2 ^ 20 + 9 * 2 ^ 32 + 3 * 2 ^ 64; let e : Endpoint := { width := 16, rqTail := 1, reqs := [(0, v)] }; let h := SMap.getD e.reqs e.rqHead 0; let g : Endpoint := { e with rqTail := 0 }
       e.rqTail ≠ e.rqHead ∧ (e.rqTail + 1) % 16 ≠ e.rqHead ∧ ({ e with rqTail := 15 } : Endpoint).rqTail ≠ e.rqHead ∧ (15 + 1) % 16 = e.rqHead ∧ e.rqTail = (e.rqHead + 1) % 16 ∧ bf h 15 0 = 0x108 ∧ bf h 23 20 = e.version / 16 ∧ bf h 47 32 = 9 ∧ bf h 71 64 = 3 ∧
       e.held = [] ∧ e.room = true ∧ g.rqTail = g.rqHead ∧ (1 : Nat) % 16 ≠ g.rqHead ∧ (1 + 16 - 0) % 16 + (0 + 16 - 0) % 16 < 16 ∧ 16 ≤ (0 + 16 - 1) % 16 + (1 + 16 - 0) % 16)) ∧ (2 : Nat) ≠ (s.front.ep 0).version / 16 := by decide +kernel

theorem test_meets_MailboxResults_plan :
    let v := 1 + 2 ^ 16 + 7 * 2 ^ 32 + 0x80000 * 2 ^ 64 + 64 * 2 ^ 128 + 0xFF * 2 ^ 200 + 1 * 2 ^ 224 + 7 * 2 ^ 512
    let sc := homeSlice handPart 0x1000
    let p (v : Nat) : Panel := { pan thr with slices := [(sc, { lines := [{ l2 with data := BitVec.ofNat 512 v }, { l2 with line := 0x1001, data := BitVec.ofNat 512 (v / 2 ^ 512) }] })] }
    let rd (v : Nat) := ownBytes handPart (splitLines id (fun _ => 0) 129 0x40000 0 128) 0 (p v)
    (p v).parts.find? (fun (x : Nat × Partition) => inHbm x.2 0x40000) = some (0, handPart) ∧
    (match rd v with
      | (some w, y) => w == v && y.reports == [] && (match planRead y w with | some z => z.part == 0 && z.isReader | none => false)
      | _ => false) = true ∧
    (match rd 0 with
      | (some w, y) => y.reports == [] && planRead y w == none
      | _ => false) = true ∧
    (let x : Plan := { setid := 1, gen := 7, nshard := 1, dest := 0x40000, shlen := 64, key := 0, parent := 255, depth := 0, part := 0, child := 1, descva := 0x40000, asid := 0, reader := 0, desc := 7 }
     let q : Panel := { word (pan thr) 5 with plans := [x] }
     let r := shardLines (q.part 0) x 0 q
     q.planOf 1 = some x ∧ x.isReader = true ∧ r.1 = some [5] ∧
       (match ((r.2.toChildren x 0 [5]).setPlan { x with started := true, present := [0] }).frontWrite 0 0 true 0x40000 64 7 with
        | .ok 0 z => z.outbox == (r.2.toChildren x 0 [5]).outbox && z.reports == []
        | _ => false) = true) := by decide +kernel

theorem test_meets_PowerEvents :
    let r : Report := ⟨0, 0x8204, []⟩
    let s : State := { host {} with front := { (host {}).front with eps := [(0, { width := 16, held := [r] })], cool := 15, hot := [3] } }
    s.hostOk 0 = true ∧ (s.front.ep 0).held = [r] ∧ ((s.front.ep 0).rpTail + 1) % 16 ≠ 5 % 16 ∧ 15 ≤ s.front.cool ∧ ({} : Front).cool < 15 ∧ 3 ∈ s.front.hot ∧ 2 ∉ s.front.hot := by
  decide +kernel

/-- R513: a write of RQTAIL brings the request at RQHEAD before its owner. -/
theorem test_doorbell :
    let v := 0x0108 + 1 * 2 ^ 20 + 9 * 2 ^ 32 + 3 * 2 ^ 64
    let s : State := host { pan thr with ev := [0, 0x100, 8, 1, 1] }
    (match execHostBar2Write { s with front := s.front.updEp 0 fun e => { e with reqs := [(0, v)] } } with
      | .next t => (t.front.ep 0).rqTail == 1 && t.panel.agenda.any fun e => e.2.1 == .partReset && e.2.2 == [2, 9, 3]
      | _ => false) = true := by decide +kernel

theorem test_meets_MaskResults : (pan vthr wide).Mapped [0] ∧ (pan vthr wide).isAway = false :=
  ⟨⟨by decide +kernel, by decide +kernel⟩, by decide +kernel⟩

theorem test_meets_LocalStores : let p := pan (regs [(1, 0x10000)] thr)
    (p.isAway = false ∧ p.isHandler = false ∧ p.acqBusy = false) ∧ place p p.src 0x10000 8 = .lm 0 0x10000 false ∧ place p p.src (p.gv 1 + p.gv 0 * 2 ^ 1).toNat 4 = .lm 0 0x10000 false ∧ placeBits p p.src 0x10000 33 = .lm 0 0x2000 false := by
  decide +kernel

theorem test_meets_HoopBadShapes : let p := clus (pan thr { handBlock with hoop := true }) { hoop := { holder := some (0, 0, 1) } }
    p.isAway = false ∧ p.cb.hoop = true ∧ p.acqBusy = false ∧ p.holds p.cur.core p.cur.slot = true ∧ shapeOk (p.src.shape 0) = false := by decide +kernel

/-- A state that is about to issue the words of `w` at the pc of its one thread. -/
def about (w : Nat) : State := State.reset.place w

theorem test_meets_StepRunsDecoded :
    let s := about 0x43110040
    let q := about (0x87000400 + 0x43110040 * 2 ^ 32)
    let t := about (0x87000400 + 0x87000400 * 2 ^ 32)
    (s.front.off = false ∧ s.turns = [.issue 0 0] ∧ s.panel.pick 0 = some 0 ∧ ((s.panel.landDiv 0 0).ctx 0 0).pend = [] ∧ badTarget ((s.panel.landDiv 0 0).ctx 0 0).pc = none) ∧
    ((s.panel.landDiv 0 0).fetch 0 0 = some (0x43110040, 0) ∧ decodeBundle 0x40000 0x43110040 0 = .ok (.lone (.addi 1 1 64)) ∧
      (s.panel.landDiv 0 0).scoreboard 0 0 (usesOfBundle (.lone (.addi 1 1 64))) = .none) ∧
    ((q.panel.landDiv 0 0).fetch 0 0 = some (0x87000400, 0x43110040) ∧ (t.panel.landDiv 0 0).fetch 0 0 = some (0x87000400, 0x87000400)) := by decide +kernel

/-- Both words of the pair `w` executed as a step executes them, and what is asked of the C-word's state, the A-word's alone and the A-word's after it. -/
def pairRuns (w : Nat) (x a : Instr) (ok : State → State → State → Bool) : Bool :=
  let s := about w
  let w2 : BitVec 32 := BitVec.ofNat 32 (w / 2 ^ 32)
  let p := s.panel.landDiv 0 0
  let s1 : State := { s with turns := [], panel := p.begin_ 0 0 8 (w64 (w % 2 ^ 32)) }
  decodeBundle 0x40000 (BitVec.ofNat 32 w) w2 == .ok (.pair x a) && p.codeCheck 0 0 == p && p.scoreboard 0 0 (usesOfBundle (.pair x a)) == .none &&
    match exec x s1, exec a (s1.aword w2 none) with
    | .next t, .next u => (match exec a (t.aword w2 (some (s1.panel.ctx 0 0, s1.panel.mem))) with
      | .next v => ok t u v
      | _ => false)
    | _, _ => false

theorem test_meets_StepRunsDecoded_pairs :
    pairRuns (0x87000400 + 0x43110040 * 2 ^ 32) .nop (.addi 1 1 64) (fun t u v => !t.ended && !u.ended && (v.panel.ctx 0 0).gr 1 == 64) = true ∧
    pairRuns (0x87000500 + 0x43110040 * 2 ^ 32) .exit (.addi 1 1 64) (fun t u _ => !retrying (t.panel.ctx 0 0) && !u.ended) = true ∧
    (let p := (about 0x43110040).panel.landDiv 0 0; p.codeCheck 0 0 = p ∧ ∀ a ∈ p.accsOf 0 0, a.waits = false) := by decide +kernel

theorem test_meets_BundleCommits :
    let s := about 0x43110040
    (∃ t, exec (.addi 1 1 64) { s with panel := s.panel.begin_ 0 0 4 0x43110040 } = .next t ∧ t.panel.cur.stalled = false ∧ (s.panel.core 0).log = []) ∧
    (let p : Panel := { pan { thr with st := .stall, stall := .retry 3 } with cur := { (pan thr).cur with stalled := true } }; p.cur.stalled = true ∧ (p.ctx 0 0).stall = .retry 3) := by
  refine ⟨⟨_, rfl, by decide +kernel, by decide +kernel⟩, by decide +kernel⟩

theorem test_meets_OtherTurns :
    (∃ t, exec .powerWindow { panel := evt {} [0] } = .next t ∧ encode .powerWindow = none ∧ ({} : Panel).stops .powerWindow [0] = false) ∧ (encode .yield).isSome = true ∧
    (let p := pan { thr with st := .blocked, wake := .qpop 8 1 } handBlock { blk := [(1, { q := [(8, [5])] })] }
     p.wakes 0 0 = true ∧ (p.ctx 0 0).wake = .qpop 8 1 ∧ p.queue 0 1 8 = [5]) := by
  refine ⟨⟨_, rfl, by decide +kernel, by decide +kernel⟩, by decide +kernel⟩

theorem test_meets_StepAnswers : State.reset.front.off = false ∧ ({ State.reset with front := { State.reset.front with off := true } } : State).front.off = true := by decide +kernel

theorem test_meets_FrontStaysConsistent : State.reset.front.Inv ∧ ∃ t, step State.reset = .next t :=
  ⟨⟨by decide +kernel, by decide +kernel, by decide +kernel, fun _ => Nat.zero_le _⟩, _, rfl⟩

theorem test_meets_StrictRanges :
    let l : Launch := { part := 0, queue := 0, seq := 1, st := .placed, strict := true, ws := [⟨0x50000, 64, true, 3, 0, 0⟩] }
    let p : Panel := { pan (regs [(1, 0x40000)] thr) with launches := [(1, l)] }
    (p.isAway = false ∧ p.isHandler = false ∧ p.acqBusy = false) ∧ SMap.find p.launches p.cb.launch = some l ∧ SMap.find p.blocks p.cc.btag = some p.cb ∧ p.cb.st = .resident ∧ place p p.src 0x40000 8 = .paged ∧ strictOk p.cl 0x40000 8 1 = false := by
  decide +kernel

theorem test_meets_Breakpoints :
    let p (tvec : W) (d : Bool) : Panel := { pan thr { handBlock with tvec := tvec } with parts := [(0, { handPart with dbgarm := d })] }
    ((p 0x80000 false).isAway = false ∧ (p 0x80000 false).cb.trapVec (p 0x80000 false).now ≠ 0 ∧ (p 0x80000 false).cc.pc ≠ (p 0x80000 false).cb.trapVec (p 0x80000 false).now) ∧ ((p 0 false).cb.trapVec (p 0 false).now = 0 ∧ ((p 0 false).part 0).halt = false) ∧
    (((p 0x80000 true).part 0).dbgarm = true ∧ (p 0x80000 true).cc.pc ≠ (p 0x80000 true).cb.trapVec (p 0x80000 true).now) := by decide +kernel

theorem test_meets_TrapLoop : let p (pc : W) := pan { thr with pc := pc } { handBlock with tvec := 0x80000 }
    (p 0x80000).isAway = false ∧ (p 0x80000).cc.pc = (p 0x80000).cb.trapVec (p 0x80000).now ∧ (p 0x40000).cc.pc ≠ (p 0x40000).cb.trapVec (p 0x40000).now ∧ (SMap.find (p 0x80000).parts 0).isSome = true := by decide +kernel

theorem test_meets_LoopInstruction : let p := pan (regs [(1, 1), (2, 0x40000), (3, 0x40002), (4, 8)] thr)
    p.gv 1 - 1 = 0 ∧ (p.gv 2 - 1 ≠ 0 ∧ Target (p.gv 2)) ∧ (p.gv 3).toNat % 4 ≠ 0 ∧ ((p.gv 4).toNat % 4 = 0 ∧ ¬ Target (p.gv 4)) ∧ p.gv 0 = 0 ∧
    ((0x43110040 : BitVec 32).getLsbD 31 = false ∧ (0x43110040 : BitVec 32).getLsbD 30 = true ∧ decodeWord 0x43110040 = .ok (.addi 1 1 64) ∧ sameDest (Instr.loop 1 2).dest (Instr.addi 1 1 64).dest = true) := by
  decide +kernel

theorem test_meets_ResetState : State.reset.front.phase = 0 := by decide

/-! ### Single steps, with results from the spec's own examples or worked by hand -/

/-- The panel after one instruction. -/
def after (i : Instr) (p : Panel) : Panel := match exec i (sta p) with
  | .next t => t.panel
  | _ => p

/-- The panel after one step. -/
def stepped (s : State) : Panel := match step s with
  | .next t => t.panel
  | _ => {}

/-- By hand: 2^64 − 64 + 64 wraps to 0. -/
theorem test_addi_wraps : (after (.addi 1 1 64) (pan (regs [(1, 2 ^ 64 - 64)] thr))).gv 1 = 0 := by decide +kernel

/-- R279's example: BEXT g5, g6, 12, 8 writes g6[19:12]. -/
theorem test_bext_example : (after (.bext 5 6 12 7) (pan (regs [(6, 0xABCDE123)] thr))).gv 5 = 0xDE := by decide +kernel

/-- R284: a LOOP whose counter is 0 wraps and runs on. -/
theorem test_loop_wraps : let p := after (.loop 1 2) (pan (regs [(2, 0x40000)] { thr with pc := 0x40100 }))
    p.gv 1 = BitVec.allOnes 64 ∧ p.cc.pc = 0x40000 := by decide +kernel

/-- The example of R327, step 3: the entry at HEAD 0 of a ring at window offset 0x100 has LEN 40 and its payload at 0x108; the next HEAD is 48. -/
theorem test_ringpop_example :
    let p := mem (pan thr handBlock { rings := [(0, { btag := 1, en := true, base := 0x20, size := 128, tail := 96 })] }) 0x100 8 40
    (after (.ringpop 5 0) p).gv 5 = 0x8000028000C00108 := by decide +kernel

/-- R292: LDBT.S of three bits at bit address 0x101F of a word that holds 0x8002 at 0x203 by bytes 0x80, 0x02. -/
theorem test_ldbt_example : (after (.ldbt 7 8 1 2) (mem (pan (regs [(8, 0x101F)] thr)) 0x203 2 0x0280)).gv 7 = BitVec.ofInt 64 (-3) := by decide +kernel

/-- The example of R69: bytes 0 to 3 of the BFP4 block of 2.5, −3.2, 0.3 and 1.0 under RNE and under RDN. -/
theorem test_quantise_example : let xs := [0x40200000, 0xC04CCCCD, 0x3E99999A, 0x3F800000].map (unpack (fpFmt 1)) ++ List.replicate 120 (unpack (fpFmt 1) 0)
    quantise 0 0x14 xs % 2 ^ 32 = 0x21A58014 ∧ quantise 3 0x14 xs % 2 ^ 32 = 0x20958014 := by decide +kernel

/-- R53: 1 + 2^−24 in FP32 is a tie, and the even neighbour is 1; 2^−24 more than half an ulp is not. -/
theorem test_fp_add_tie : fpAdd (fpFmt 1) 0 0x3F800000 0x33800000 = 0x3F800000 ∧ fpAdd (fpFmt 1) 0 0x3F800001 0x33800000 = 0x3F800002 := by decide +kernel

/-- The decay example of chapter 15: steps 1 and 2 of a cell with K 4 and y 12. -/
theorem test_cell_example : let c : Cell := { k := 4, y := 12 }
    (stepCell c 1 0).1.q = 12 ∧ (stepCell c 1 0).1.out = 0 ∧ (stepCell { c with q := 12 } 1 0).1.q = 8 ∧ (stepCell { c with q := 12 } 1 0).1.out = 1 := by decide +kernel

/-- R450: ILLEGAL_INSTRUCTION of word 0 with a handler: cause and pc, by a whole step. -/
theorem test_step_illegal : let p := stepped (let s := State.reset.place 0; { s with panel := { s.panel with blocks := [(s.panel.nextTag - 1, { handBlock with tvec := 0x80000 })] } })
    ((p.ctx 0 0).tcause.toNat = 0x01 ∧ (p.ctx 0 0).pc = 0x80000 ∧ (p.ctx 0 0).tpc = 0x40000) := by decide +kernel

/-- A whole step of ADDI g1, g1, 64 from reset. -/
theorem test_step_addi : let p := stepped (State.reset.withFetchWord 32 0x43110040)
    (p.ctx 0 0).gr 1 = 64 ∧ (p.ctx 0 0).pc = 0x40004 := by decide +kernel

/-- A whole step of a pair, NOP before ADDI: the pc passes both words. -/
theorem test_step_pair : let p := stepped (State.reset.place (0x87000400 + 0x43110040 * 2 ^ 32))
    (p.ctx 0 0).gr 1 = 64 ∧ (p.ctx 0 0).pc = 0x40008 := by decide +kernel

/-- A store, then the byte it leaves alone. -/
theorem test_store_half : let p := after (.stH 5 0 0x203) (mem (pan (regs [(5, 0x12340280)] thr)) 0x200 8 0x1111111111111111)
    Memory.readN p.mem (lmA 0 0x200) 8 = 0x1111110280111111 := by decide +kernel

/-- FIPS 197, appendix C.3: the cipher with the key 00 01 … 1f on the block 00 11 … ff (R136). -/
theorem test_aes_vector : aesBlock (roundKeys (List.range 32)) ((List.range 16).map (· * 17)) =
    [0x8e, 0xa2, 0xb7, 0xca, 0x51, 0x67, 0x45, 0xbf, 0xea, 0xfc, 0x49, 0x90, 0x4b, 0x49, 0x60, 0x89] := by decide +kernel

/-- R474: TVEC written while another thread traps in that cycle; the trap goes where TVEC stood before. -/
theorem test_trap_takes_the_tvec_that_the_cycle_found :
    let b := { handBlock with tvec := 0x80000 }
    ((after (.trap 5) { pan thr (b.setTvec 7 0x90000) with now := 7 }).ctx 0 0).pc = 0x80000 ∧
    ((after (.trap 5) { pan thr (b.setTvec 7 0x90000) with now := 8 }).ctx 0 0).pc = 0x90000 := by decide +kernel

/-- R441: a store of one word takes one bank cycle, 20 pJ. -/
theorem test_store_costs_a_bank_cycle :
    SMap.getD ((after (.stD 5 0 0x200) (pan thr)).core 0).energy handBlock.launch 0 = 20 := by decide +kernel

/-- R253: a DIV-group result that an A-word has on its way lands; a trap of the C-word after that gives the register its old value back. -/
theorem test_trap_of_the_cword_undoes_a_landed_division :
    let p := pan (regs [(11, 5)] thr)
    let q := { p.updCtx 0 0 (fun c => { c with div := [(11, 7, 3)] }) with nid := p.nid + 1 }
    let r := { q.keepUndo p 0 0 p.nid with now := 5 }.landDiv 0 0
    (r.ctx 0 0).gr 11 = 7 ∧ (match (r.ctx 0 0).undo with | some u => (((r.undoAword 0 0 u).ctx 0 0).gr 11 == 5) | none => false) = true := by decide +kernel

/-- R285, R452: an ERET with PRIV clear in TSTATE leaves the thread at U level. -/
theorem test_eret_restores_the_level :
    let p := after .eret (pan { thr with tpc := 0x40000 } { handBlock with priv := true })
    let q := after .eret (pan { thr with tpc := 0x40000, tstate := 4 } { handBlock with priv := true })
    p.slevelOf (p.ctx 0 0) = false ∧ q.slevelOf (q.ctx 0 0) = true := by decide +kernel

/-- R224: YIELD is a blocking point, also when no block is being taken. -/
theorem test_yield_blocks : ((after .yield (pan thr)).ctx 0 0).st = .blocked := by decide +kernel

/-- R416: a mailbox holds 16 entries; the seventeenth waits, and goes in when the owner takes the oldest. -/
theorem test_full_mailbox :
    let p := (List.range 17).foldl (fun (r : Panel) i => r.mailTo 1 1 [i]) (pan thr)
    let q := p.mailTake 1 1
    p.mail.length = 16 ∧ p.mailWait.length = 1 ∧ q.mail.map (fun m => (m.payload, m.seq)) = (List.range 16).map (fun i => ([i + 1], i + 1)) ∧ q.mailWait = [] := by
  decide +kernel

/-- R458, R459: the context slots follow the header's 64 bytes; g5 stands in bytes 40 to 47 of a slot and the pc in bytes 128 to 135. -/
theorem test_swap_record_context :
    let p := (pan thr { handBlock with st := .absent, recCtxs := [(0, [(0, regs [(5, 0x1234)] thr)])] }).writeSwap 1 (2 ^ 20)
    Memory.readN p.mem (2 ^ 20 + 64 + 40) 8 = 0x1234 ∧ Memory.readN p.mem (2 ^ 20 + 64 + 128) 8 = 0x40000 := by decide +kernel

end Sys2Proof.Tests
end

section
/-! The state after reset: what the tables, the memory and the contexts answer where nothing is listed. -/

namespace Sys2Proof.Machine

@[simp] theorem SMap.getD_nil {α : Type} (i : Nat) (d : α) : SMap.getD ([] : SMap α) i d = d := rfl

@[simp] theorem Memory.get_nil (a : Nat) : Memory.get [] a = 0 := rfl

/-- Where no core is listed, every slot of every core holds the context of the Reset column (R7). -/
theorem Panel.ctx_of_cores_nil {p : Panel} (h : p.cores = []) (lc slot : Nat) : p.ctx lc slot = {} := by
  have hcore : p.core lc = {} := by rw [Panel.core, h, SMap.getD_nil]
  rw [Panel.ctx, hcore, SMap.getD_nil]

/-- Every general register of a fresh context is 0: g0 because it always reads so, an index in the file because the file is filled
with zeros, and an index past the file by the default. -/
@[simp] theorem Ctx.gr_default (r : Nat) : ({} : Ctx).gr r = 0 := by
  have hfile : ((Vector.replicate 16 (0 : W))[r]?).getD 0 = 0 := by
    rw [Vector.getElem?_replicate]
    split
    · rfl
    · rfl
  rw [Ctx.gr, hfile, ite_self]

/-- The front end's invariant holds at reset: not ready, no error, no signature made, no clock slowed. -/
theorem Front.inv_reset : State.reset.front.Inv := by
  refine ⟨fun hready => ?ready, fun herr => ?error, ?signatures, fun c => ?clocks⟩
  case ready => exact absurd hready Bool.false_ne_true
  case error => exact absurd rfl herr
  case signatures => exact Nat.zero_le _
  case clocks => exact Nat.zero_le _

/-- Settles O56: every table of the reset state is empty, so each read answers its default, and the front end stands as at power-on. -/
theorem resetState : Obligations.ResetState := by
  have hmem (a : Nat) : Memory.get State.reset.panel.mem a = 0 := Memory.get_nil a
  have hctx (lc slot : Nat) : State.reset.panel.ctx lc slot = {} := Panel.ctx_of_cores_nil rfl lc slot
  have hempty (lc slot : Nat) :
      (State.reset.panel.ctx lc slot).st = .empty ∧ ∀ r, (State.reset.panel.ctx lc slot).gr r = 0 := by
    rw [hctx]
    exact ⟨rfl, Ctx.gr_default⟩
  exact ⟨rfl, rfl, rfl, rfl, hmem, reset_memory_wf, hempty, rfl, rfl, rfl, rfl, Front.inv_reset, Host.Check.core_reset⟩

end Sys2Proof.Machine
end

section
/-! Bring-up, held reports, power and clocks (R14, R17, R138, R511-R513, R516, R519, R520). -/

namespace Sys2Proof.Machine

/-! ### Tables filled and clocks stepped in a fold -/

/-- A table in which some keys have all been given one record. -/
theorem SMap.getD_foldl_set {α : Type} (ks : List Nat) (m : SMap α) (x d : α) (i : Nat) :
    SMap.getD (ks.foldl (fun m k => SMap.set m k x) m) i d = if i ∈ ks then x else SMap.getD m i d := by
  induction ks generalizing m with
  | nil => simp
  | cons k ks ih =>
    rw [List.foldl_cons, ih]
    by_cases hi : k = i
    · subst hi
      simp
    · simp [SMap.getD_set_other m k i x d hi, Ne.symm hi]

/-- A clock after one step (R519). -/
def clockStep (down : Bool) (n : Nat) : Nat := if down then min (n + 1) 20 else n - 1

/-- Steps of the clocks of some chiplets change nothing of the front end but its clocks. -/
theorem Front.foldl_step_frame (cs : List Nat) (down : Bool) (f : Front) :
    cs.foldl (fun (f : Front) c => f.step c down) f = { f with clock := (cs.foldl (fun (f : Front) c => f.step c down) f).clock } := by
  induction cs generalizing f with
  | nil => rfl
  | cons c cs ih => rw [List.foldl_cons, ih]; rfl

theorem Front.clock_step_self (f : Front) (c : Nat) (down : Bool) :
    SMap.getD (f.step c down).clock c 0 = clockStep down (SMap.getD f.clock c 0) := by
  rw [Front.step, SMap.getD_upd_self, clockStep]

theorem Front.clock_step_other (f : Front) (c i : Nat) (down : Bool) (h : c ≠ i) :
    SMap.getD (f.step c down).clock i 0 = SMap.getD f.clock i 0 := by
  rw [Front.step, SMap.getD_upd_other _ _ _ _ _ _ h]

/-- Chiplets named once each make one step, the others keep their clocks. -/
theorem Front.clock_foldl_step (cs : List Nat) (down : Bool) (f : Front) (i : Nat) (hcs : cs.Nodup) :
    SMap.getD (cs.foldl (fun (f : Front) c => f.step c down) f).clock i 0 =
      if i ∈ cs then clockStep down (SMap.getD f.clock i 0) else SMap.getD f.clock i 0 := by
  induction cs generalizing f with
  | nil => simp
  | cons c cs ih =>
    obtain ⟨hc, hcs⟩ := List.nodup_cons.mp hcs
    rw [List.foldl_cons, ih _ hcs]
    by_cases hi : c = i
    · subst hi
      simp [hc, Front.clock_step_self]
    · simp [Front.clock_step_other f c i down hi, Ne.symm hi]

/-! ### Bring-up (R14, R17, R511, R512, R516) -/

/-- Root accepts a copy that both fused keys sign and whose version is not below the counter (R516). -/
theorem fwError_eq_zero_iff (f : Front) (x : FwCopy) :
    fwError f x = 0 ↔ x.ecdsa = some f.keyEcdsa ∧ x.lms = some f.keyLms ∧ f.counter ≤ x.version := by
  unfold fwError
  by_cases he : x.ecdsa = some f.keyEcdsa
  · by_cases hl : x.lms = some f.keyLms
    · simp [he, hl]
    · simp [he, hl]
  · simp [he]

theorem bootCopy_ok (f : Front) (h : fwError f (f.flash.getD 0 {}) = 0 ∨ fwError f (f.flash.getD 1 {}) = 0) :
    bootCopy f = .ok (if fwError f (f.flash.getD 0 {}) = 0 then f.flash.getD 0 {} else f.flash.getD 1 {}) := by
  unfold bootCopy
  by_cases ha : fwError f (f.flash.getD 0 {}) = 0
  · simp only [ha, if_true]
  · simp only [ha, h.resolve_left ha, if_true, if_false]

theorem bootCopy_error (f : Front) (ha : fwError f (f.flash.getD 0 {}) ≠ 0) (hb : fwError f (f.flash.getD 1 {}) ≠ 0) :
    bootCopy f = .error (fwError f (f.flash.getD 1 {})) := by
  simp only [bootCopy, ha, hb, if_false]

/-- Cores that stay out of service change no failed site (R20). -/
@[simp] theorem stayOut_bad (f : Fabric) (out : List Nat) : (stayOut f out).bad = f.bad := by
  unfold stayOut
  induction out generalizing f with
  | nil => rfl
  | cons lc out ih => rw [List.foldl_cons, ih]

/-- The sites that are out after the self-test: those that ever failed it, and those that fail it now (R14). -/
def State.sitesOut (s : State) (failed : List Nat) : List Nat := (s.panel.fabric.bad ++ failed).eraseDups

/-- The cores that are out of service over a module reset (R20; log 88). -/
def State.coresOut (s : State) : List Nat :=
  (s.front.unserved ++ ((s.panel.cores.filter fun (e : Nat × Core) => e.2.failed).map (·.1))).eraseDups

/-- The front end as a reset leaves it before Root's phases: flash, fuses, LMS count, links and what stays out of service (R511, R516). -/
def State.rootFront (s : State) : Front :=
  { unserved := s.coresOut, counter := s.front.counter, lmsUsed := s.front.lmsUsed, flash := s.front.flash
    keyEcdsa := s.front.keyEcdsa, keyLms := s.front.keyLms
    eps := s.front.eps.map fun (e : Nat × Endpoint) => (e.1, { gts := e.2.gts, width := e.2.width })
    dma := s.front.dma }

/-- The panel as a reset leaves it before Root's phases: sites that failed a test, and the host's windows. -/
def State.rootPanel (s : State) : Panel :=
  { free := s.panel.free, evs := s.panel.evs, fabric := { bad := s.panel.fabric.bad }
    hostBase := s.panel.hostBase, hostLimit := s.panel.hostLimit }

/-- Bring-up stopped in PHASE 0xFF with an error (R512). -/
def State.rootStop (s : State) (f : Fabric) (e : Nat) : State :=
  { panel := { s.rootPanel with fabric := f }, front := { s.rootFront with phase := 0xFF, error := e }, turns := s.turns }

/-- Bring-up at READY with a firmware copy (R512). -/
def State.rootReady (s : State) (failed : List Nat) (x : FwCopy) : State :=
  { panel := { s.rootPanel with
      fabric := stayOut (bringFabric (s.sitesOut failed)) s.coresOut
      cores := s.coresOut.foldl (fun (m : SMap Core) lc => SMap.set m lc { failed := true }) []
      outbox := [.msix 0 0, .msix 1 0] }
    front := { s.rootFront with ready := true, phase := 6, progress := 100, version := x.version }
    turns := s.turns }

/-- Root's phases in their order: self-test, firmware, HBM training, clusters with two failed sites (R512; log 22). -/
theorem exec_moduleReset (s : State) (failed : List Nat) (hbm selfTest : Nat) (hev : s.panel.ev = failed ++ [hbm, selfTest]) :
    exec .moduleReset s = .next
      (if selfTest = 0 then s.rootStop s.rootPanel.fabric 6
      else match bootCopy s.front with
        | .error e => s.rootStop s.rootPanel.fabric e
        | .ok x =>
          if hbm = 0 then s.rootStop s.rootPanel.fabric 4
          else if twoFailed (s.sitesOut failed) then s.rootStop { bad := s.sitesOut failed } 5
          else s.rootReady failed x) := by
  have hlen : ¬ s.panel.ev.length < 2 := by simp [hev]
  have hn : s.panel.ev.length - 2 = failed.length := by simp [hev]
  have htake : s.panel.ev.take failed.length = failed := by simp [hev]
  have hself : s.panel.ev.getD (failed.length + 1) 0 = selfTest := by simp [hev, List.getD]
  have htrain : s.panel.ev.getD failed.length 0 = hbm := by simp [hev, List.getD]
  show execModuleReset s = _
  unfold execModuleReset
  simp only [hlen, hn, htake, hself, htrain, if_false]
  rfl

/-- A stop of bring-up shows its error and leaves no partition. -/
theorem State.rootStop_shows (s : State) (f : Fabric) (e : Nat) :
    (s.rootStop f e).front.ready = false ∧ (s.rootStop f e).front.phase = 0xFF ∧ (s.rootStop f e).front.error = e ∧
      (s.rootStop f e).panel.parts = [] := ⟨rfl, rfl, rfl, rfl⟩

/-- Every core that stays out of service is marked failed after bring-up (R20). -/
theorem State.rootReady_core_failed (s : State) (failed : List Nat) (x : FwCopy) (lc : Nat) (h : lc ∈ s.coresOut) :
    ((s.rootReady failed x).panel.core lc).failed = true := by
  show (SMap.getD (s.coresOut.foldl (fun (m : SMap Core) lc => SMap.set m lc { failed := true }) []) lc {}).failed = true
  rw [SMap.getD_foldl_set, if_pos h]

theorem State.rootReady_cores_nil (s : State) (failed : List Nat) (x : FwCopy) (h : s.coresOut = []) :
    (s.rootReady failed x).panel.cores = [] := by
  simp only [State.rootReady, h, List.foldl_nil]

theorem State.mem_rootReady_bad (s : State) (failed : List Nat) (x : FwCopy) (site : Nat) (h : site ∈ s.panel.fabric.bad ∨ site ∈ failed) :
    site ∈ (s.rootReady failed x).panel.fabric.bad := by
  show site ∈ (stayOut (bringFabric (s.sitesOut failed)) s.coresOut).bad
  simpa [bringFabric, State.sitesOut] using h

/-- The links' part of bring-up (R42, R497, R512): an endpoint's rate and width, and the host's window before READY. -/
theorem exec_pcieLinkTraining (s : State) (i : Nat) (hi : i < 2) (hev : s.panel.arg 0 = i) :
    exec .pcieLinkTraining s = .next
      { s with
        front := s.front.updEp i fun e => { e with gts := s.panel.arg 1, width := s.panel.arg 2 }
        panel := if s.panel.ev.length < 5 ∨ s.front.ready then s.panel
          else { s.panel with hostBase := s.panel.hostBase.set i (s.panel.arg 3), hostLimit := s.panel.hostLimit.set i (s.panel.arg 4) } } := by
  show execPcieLinkTraining s = _
  unfold execPcieLinkTraining
  simp only [hev, Nat.not_le.mpr hi, if_false]
  split <;> rfl

@[simp] theorem Front.ep_updEp_self (f : Front) (i : Nat) (g : Endpoint → Endpoint) : (f.updEp i g).ep i = g (f.ep i) :=
  SMap.getD_upd_self _ _ _ _

/-! ### Held reports (R513) -/

/-- Room for one report and one report held: it takes the slot at the tail, and nothing is held any more. -/
theorem State.postHeld_one (s : State) (i k : Nat) (r : Report) (hheld : (s.front.ep i).held = [r]) (hroom : (s.front.ep i).room = true) :
    s.postHeld i (k + 2) =
      { s with front := s.front.updEp i fun e => { e.put r with held := [] }, panel := { s.panel with outbox := s.panel.outbox ++ [.msix i 1] } } := by
  rw [State.postHeld]
  simp only [hheld, hroom, if_true]
  rw [State.postHeld]
  simp

/-- A write of RPHEAD that frees a slot for the one report held (R513). -/
theorem exec_rpheadWrite_one (s : State) (i h : Nat) (r : Report) (hev : s.panel.ev = [i, h]) (hok : s.hostOk i = true)
    (hheld : (s.front.ep i).held = [r]) (hfree : ((s.front.ep i).rpTail + 1) % 16 ≠ h % 16) :
    exec .rpheadWrite s = .next
      { s with
        front := (s.front.updEp i fun e => { e with rpHead := h % 16 }).updEp i fun e => { e.put r with held := [] }
        panel := { s.panel with outbox := s.panel.outbox ++ [.msix i 1] } } := by
  have harg0 : s.panel.arg 0 = i := by simp [Panel.arg, hev]
  have harg1 : s.panel.arg 1 = h := by simp [Panel.arg, hev]
  show execRpheadWrite s = _
  rw [execRpheadWrite, harg0, harg1, hok, State.setRpHead, State.postHeld_one _ i 14 r]
  · rfl
  · simpa using hheld
  · simpa [Endpoint.room] using hfree

/-! ### Power and clocks (R519, R520) -/

/-- The front end after a power window: it slows all, counts the window, raises all but the hot, or counts anew (R519). -/
def Front.afterWindow (f : Front) (mw : Nat) : Front :=
  if 20000000 ≤ mw then (List.range 256).foldl (fun (f : Front) c => f.step c true) { f with cool := 0 }
  else if mw < 19000000 then
    if f.cool + 1 < 16 then { f with cool := f.cool + 1 }
    else
      ((List.range 256).filter fun c => !f.hot.contains c && SMap.getD f.clock c 0 != 0).foldl
        (fun (f : Front) c => f.step c false) { f with cool := 0 }
  else { f with cool := 0 }

theorem exec_powerWindow (s : State) (mw : Nat) (hev : s.panel.ev = [mw]) :
    exec .powerWindow s = .next { s with front := s.front.afterWindow mw } := by
  have harg : s.panel.arg 0 = mw := by simp [Panel.arg, hev]
  show execPowerWindow s = _
  simp only [execPowerWindow, Front.afterWindow, harg]
  split
  · rfl
  · split
    · split
      · rfl
      · rfl
    · rfl

/-- The front end after a reading of a chiplet's temperature (R519). -/
def Front.afterReading (f : Front) (c deg : Nat) : Front :=
  if 95 ≤ deg ∨ (c ∈ f.hot ∧ 92 ≤ deg) then Front.step { f with hot := if c ∈ f.hot then f.hot else f.hot ++ [c] } c true
  else { f with hot := f.hot.filter (· != c) }

theorem exec_junctionTemperatureLimit (s : State) (c deg : Nat) (hev : s.panel.ev = [c, deg]) :
    exec .junctionTemperatureLimit s = .next { s with front := s.front.afterReading c deg } := by
  have harg0 : s.panel.arg 0 = c := by simp [Panel.arg, hev]
  have harg1 : s.panel.arg 1 = deg := by simp [Panel.arg, hev]
  show execJunctionTemperatureLimit s = _
  simp only [execJunctionTemperatureLimit, Front.afterReading, harg0, harg1, List.contains_iff_mem]
  split
  · rfl
  · rfl

/-- A chiplet at its limit is hot and makes one step down. -/
theorem Front.afterReading_hot (f : Front) (c deg : Nat) (h : 95 ≤ deg ∨ (c ∈ f.hot ∧ 92 ≤ deg)) :
    c ∈ (f.afterReading c deg).hot ∧ SMap.getD (f.afterReading c deg).clock c 0 = min (SMap.getD f.clock c 0 + 1) 20 := by
  rw [Front.afterReading, if_pos h]
  refine ⟨?_, Front.clock_step_self _ c true⟩
  by_cases hc : c ∈ f.hot
  · simp [Front.step, hc]
  · simp [Front.step, hc]

/-- A chiplet below its limit is hot no more and keeps its clock. -/
theorem Front.afterReading_cool (f : Front) (c deg : Nat) (h : deg < 92 ∨ (c ∉ f.hot ∧ deg < 95)) :
    c ∉ (f.afterReading c deg).hot ∧ (f.afterReading c deg).clock = f.clock := by
  have hnot : ¬ (95 ≤ deg ∨ (c ∈ f.hot ∧ 92 ≤ deg)) := by
    rintro (h95 | ⟨hc, h92⟩)
    · omega
    · exact h.elim (fun hlow => by omega) fun hcool => hcool.1 hc
  rw [Front.afterReading, if_neg hnot]
  exact ⟨by simp, rfl⟩

/-- At 20 kW every chiplet slows one step. -/
theorem Front.afterWindow_slows (f : Front) (mw c : Nat) (hmw : 20000000 ≤ mw) (hc : c < 256) :
    SMap.getD (f.afterWindow mw).clock c 0 = min (SMap.getD f.clock c 0 + 1) 20 := by
  rw [Front.afterWindow, if_pos hmw, Front.clock_foldl_step _ _ _ _ List.nodup_range, if_pos (List.mem_range.mpr hc)]
  rfl

/-- The sixteenth window under 19 kW raises every chiplet that is not hot by one step, down to none below 1.5 GHz. -/
theorem Front.afterWindow_raises (f : Front) (mw : Nat) (hmw : mw < 19000000) (hcool : 15 ≤ f.cool) :
    (f.afterWindow mw).cool = 0 ∧ ∀ c, c < 256 →
      SMap.getD (f.afterWindow mw).clock c 0 = if c ∈ f.hot then SMap.getD f.clock c 0 else SMap.getD f.clock c 0 - 1 := by
  rw [Front.afterWindow, if_neg (by omega), if_pos hmw, if_neg (by omega)]
  refine ⟨by rw [Front.foldl_step_frame], fun c hc => ?_⟩
  rw [Front.clock_foldl_step _ _ _ _ (List.nodup_range.filter _)]
  by_cases hh : c ∈ f.hot
  · simp [hh]
  · by_cases hz : SMap.getD f.clock c 0 = 0
    · simp [hh, hz]
    · simp [hh, hz, hc, clockStep]

/-- A module that has tripped its power off (R520). -/
def State.tripped (s : State) : State :=
  { s with front := { s.front with
      off := true, ready := false
      eps := s.front.eps.map fun (e : Nat × Endpoint) => (e.1, { e.2 with gts := 0, width := 0 }) } }

/-- A reading at or above 110 °C takes the module's power, and a lower one changes nothing (R520). -/
theorem exec_thermalTrip (s : State) (c deg : Nat) (hev : s.panel.ev = [c, deg]) :
    exec .thermalTrip s = .next (if deg < 110 then s else s.tripped) := by
  have harg1 : s.panel.arg 1 = deg := by simp [Panel.arg, hev]
  show execThermalTrip s = _
  rw [execThermalTrip, harg1]
  rfl

/-- A module without power steps no more (R520). -/
theorem step_off (s : State) (h : s.front.off = true) : step s = .fault .poweredOff := by
  rw [step, if_pos h]

/-! ### The clauses of the statement -/

/-- Each of the four failures stops bring-up, and without one the module is ready. -/
theorem bringUp_outcomes (s : State) (failed : List Nat) (hbm selfTest : Nat) (hev : s.panel.ev = failed ++ [hbm, selfTest]) :
    let a := fwError s.front (s.front.flash.getD 0 {})
    let b := fwError s.front (s.front.flash.getD 1 {})
    let next (t : State) : Prop := exec .moduleReset s = .next t
    (selfTest = 0 → next (s.rootStop s.rootPanel.fabric 6)) ∧
    (selfTest ≠ 0 → a ≠ 0 → b ≠ 0 → next (s.rootStop s.rootPanel.fabric b)) ∧
    (selfTest ≠ 0 → a = 0 ∨ b = 0 → hbm = 0 → next (s.rootStop s.rootPanel.fabric 4)) ∧
    (selfTest ≠ 0 → a = 0 ∨ b = 0 → hbm ≠ 0 → twoFailed (s.sitesOut failed) = true → next (s.rootStop { bad := s.sitesOut failed } 5)) ∧
    (selfTest ≠ 0 → a = 0 ∨ b = 0 → hbm ≠ 0 → twoFailed (s.sitesOut failed) = false →
      next (s.rootReady failed (if a = 0 then s.front.flash.getD 0 {} else s.front.flash.getD 1 {}))) := by
  intro a b next
  have hexec := exec_moduleReset s failed hbm selfTest hev
  refine ⟨fun h0 => ?_, fun h1 ha hb => ?_, fun h1 hab hh => ?_, fun h1 hab hh htwo => ?_, fun h1 hab hh htwo => ?_⟩
  · simpa only [next, h0, if_true] using hexec
  · simpa only [next, h1, if_false, bootCopy_error s.front ha hb] using hexec
  · simpa only [next, h1, hh, if_true, if_false, bootCopy_ok s.front hab] using hexec
  · simpa only [next, h1, hh, htwo, if_true, if_false, bootCopy_ok s.front hab] using hexec
  · simpa only [next, h1, hh, htwo, if_false, Bool.false_eq_true, bootCopy_ok s.front hab] using hexec

/-- Settles O50: bring-up, held reports, power and clocks, each from the equation of its event. -/
theorem bringUpAndPower : Obligations.BringUpAndPower := by
  unfold Obligations.BringUpAndPower
  refine ⟨fun s => ⟨fun failed hbm selfTest hev => ?bringUp, fwError_eq_zero_iff s.front, fun i g w base lim hi hb hl hev => ?link⟩,
    fun s => ⟨fun i h r hev hok hheld hfree => ?held, fun mw hev => ?window, fun c deg hev => ?heat⟩⟩
  case bringUp =>
    obtain ⟨hself, hboth, htrain, htwo, hready⟩ := bringUp_outcomes s failed hbm selfTest hev
    refine ⟨fun h0 => ⟨_, hself h0, State.rootStop_shows ..⟩, fun h1 ha hb => ⟨_, hboth h1 ha hb, State.rootStop_shows ..⟩,
      fun h1 hab hh => ⟨_, htrain h1 hab hh, State.rootStop_shows ..⟩, fun h1 hab hh h2 => ⟨_, htwo h1 hab hh h2, State.rootStop_shows ..⟩,
      fun h1 hab hh h2 => ⟨_, hready h1 hab hh h2, rfl, rfl, rfl, rfl, rfl, rfl, apply_ite FwCopy.version _ _ _, rfl, rfl, rfl,
        State.rootReady_cores_nil s failed _, State.rootReady_core_failed s failed _, rfl, rfl, rfl, rfl, rfl, rfl, rfl,
        fun site h => State.mem_rootReady_bad s failed _ site (.inl h), fun site h => State.mem_rootReady_bad s failed _ site (.inr h)⟩⟩
  case link =>
    have harg (k : Nat) (hk : k < 3) : s.panel.arg k = [i, g, w].getD k 0 := by
      obtain hev | hev := hev
      · rw [Panel.arg, hev]
      · rw [Panel.arg, hev]
        match k, hk with
        | 0, _ | 1, _ | 2, _ => rfl
    have h1 : s.panel.arg 1 = g := harg 1 (by omega)
    have h2 : s.panel.arg 2 = w := harg 2 (by omega)
    refine ⟨_, exec_pcieLinkTraining s i hi (harg 0 (by omega)), ?_, ?_, rfl, fun hev5 hnot => ?_, fun hready => ?_⟩
    · simp [h1]
    · simp [h2]
    · simp [hev5, hnot, Panel.arg, hb, hl, hi]
    · simp [hready]
  case held =>
    refine ⟨_, exec_rpheadWrite_one s i h r hev hok hheld hfree, ?_, ?_, rfl⟩
    · simp
    · simp [Endpoint.put]
  case window =>
    have hexec := exec_powerWindow s mw hev
    refine ⟨fun hmw => ⟨_, hexec, rfl, fun c => Front.afterWindow_slows s.front mw c hmw⟩, fun hmw hcool => ?_,
      fun hmw hcool => ⟨_, hexec, rfl, Front.afterWindow_raises s.front mw hmw hcool⟩, fun hlow hhigh => ?_⟩
    · rw [hexec, Front.afterWindow, if_neg (by omega), if_pos hmw, if_pos (by omega)]
    · rw [hexec, Front.afterWindow, if_neg (by omega), if_neg (by omega)]
  case heat =>
    have hexec := exec_junctionTemperatureLimit s c deg hev
    have htrip := exec_thermalTrip s c deg hev
    refine ⟨fun hhot => ⟨_, hexec, rfl, Front.afterReading_hot s.front c deg hhot⟩,
      fun hcool => ⟨_, hexec, rfl, Front.afterReading_cool s.front c deg hcool⟩, fun hdeg => ?_, fun hdeg => by rw [htrip, if_pos hdeg]⟩
    rw [if_neg (by omega)] at htrip
    exact ⟨s.tripped, htrip, rfl, rfl, rfl, step_off s.tripped rfl⟩

end Sys2Proof.Machine
end

section
/-! Bytes of a number and of a run of memory, one at a time (R4). -/

namespace Sys2Proof.Machine

/-- Byte `j` of a number, lowest first. -/
def byteAt (v j : Nat) : Nat := v / 256 ^ j % 256

theorem byteAt_zero (v : Nat) : byteAt v 0 = v % 256 := by
  rw [byteAt, Nat.pow_zero, Nat.div_one]

theorem byteAt_succ (v j : Nat) : byteAt v (j + 1) = byteAt (v / 256) j := by
  rw [byteAt, byteAt, Nat.div_div_eq_div_mul, Nat.pow_succ, Nat.mul_comm]

/-- The bytes below a place do not see what stands from it on. -/
theorem byteAt_add_low (a b k j : Nat) (h : j < k) : byteAt (a + 256 ^ k * b) j = byteAt a j := by
  obtain ⟨r, rfl⟩ := Nat.exists_eq_add_of_le h
  have hpow : 256 ^ (j.succ + r) * b = 256 ^ j * (256 * (256 ^ r * b)) := by
    rw [Nat.pow_add, Nat.pow_succ]
    ring
  rw [byteAt, byteAt, hpow, Nat.add_mul_div_left _ _ (by positivity), Nat.add_mul_mod_self_left]

/-- The bytes from a place on are those of what stands there. -/
theorem byteAt_add_high (a b k j : Nat) (ha : a < 256 ^ k) (h : k ≤ j) : byteAt (a + 256 ^ k * b) j = byteAt b (j - k) := by
  obtain ⟨r, rfl⟩ := Nat.exists_eq_add_of_le h
  rw [byteAt, byteAt, Nat.add_sub_cancel_left, Nat.pow_add, ← Nat.div_div_eq_div_mul, Nat.add_mul_div_left _ _ (by positivity),
    Nat.div_eq_of_lt ha, Nat.zero_add]

theorem byteAt_mod (v k j : Nat) (h : j < k) : byteAt (v % 256 ^ k) j = byteAt v j := by
  conv_rhs => rw [← Nat.mod_add_div v (256 ^ k)]
  rw [byteAt_add_low _ _ _ _ h]

theorem byteAt_div (v k j : Nat) : byteAt (v / 256 ^ k) j = byteAt v (k + j) := by
  rw [byteAt, byteAt, Nat.div_div_eq_div_mul, Nat.pow_add]

theorem pow_256 (i : Nat) : (256 : Nat) ^ i = 2 ^ (8 * i) := by
  rw [Nat.pow_mul]

/-- A word of `k` bytes made from a number. -/
theorem toNat_ofNat_bytes (x k w : Nat) (h : w = 8 * k) : (BitVec.ofNat w x).toNat = x % 256 ^ k := by
  subst h
  rw [BitVec.toNat_ofNat, pow_256]

/-- Some bytes of a number are the bits at their place. -/
theorem bf_bytes (v off n : Nat) (hn : 0 < n) : bf v (8 * (off + n) - 1) (8 * off) = v / 256 ^ off % 256 ^ n := by
  rw [bf, show 8 * (off + n) - 1 + 1 - 8 * off = 8 * n by omega, Nat.shiftRight_eq_div_pow, pow_256, pow_256]

/-- Bytes put into a number: those below, the new ones, those above. -/
theorem putBits_bytes (d off n v : Nat) (hn : 0 < n) :
    putBits d (8 * (off + n) - 1) (8 * off) v = d % 256 ^ off + 256 ^ off * (v % 256 ^ n + 256 ^ n * (d / 256 ^ (off + n))) := by
  have hd : d = d % 256 ^ off + 256 ^ off * (d / 256 ^ off % 256 ^ n + 256 ^ n * (d / 256 ^ (off + n))) := by
    rw [Nat.pow_add, ← Nat.div_div_eq_div_mul, Nat.mod_add_div, Nat.mod_add_div]
  have hw : 8 * (off + n) - 1 + 1 - 8 * off = 8 * n := by omega
  rw [putBits, bf_bytes _ _ _ hn, hw, ← pow_256, ← pow_256]
  generalize d % 256 ^ off = low at *
  generalize d / 256 ^ off % 256 ^ n = old at *
  generalize d / 256 ^ (off + n) = high at *
  rw [hd, show low + 256 ^ off * (old + 256 ^ n * high) = low + 256 ^ off * (256 ^ n * high) + old * 256 ^ off by ring,
    Nat.add_sub_cancel]
  ring

/-- The bytes of a line after a write of some of them. -/
theorem byteAt_lineWrite (d : Line) (off n v j : Nat) (hn : 0 < n) (hj : j < 64) :
    byteAt (lineWrite d off n v).toNat j = if off ≤ j ∧ j < off + n then byteAt v (j - off) else byteAt d.toNat j := by
  have hlow : d.toNat % 256 ^ off < 256 ^ off := Nat.mod_lt _ (by positivity)
  have hmid : v % 256 ^ n < 256 ^ n := Nat.mod_lt _ (by positivity)
  rw [lineWrite, toNat_ofNat_bytes _ 64 _ rfl, byteAt_mod _ _ _ hj, putBits_bytes _ _ _ _ hn]
  by_cases h1 : off ≤ j
  · rw [byteAt_add_high _ _ _ _ hlow h1]
    by_cases h2 : j < off + n
    · rw [byteAt_add_low _ _ _ _ (by omega), byteAt_mod _ _ _ (by omega), if_pos ⟨h1, h2⟩]
    · rw [byteAt_add_high _ _ _ _ hmid (by omega), byteAt_div, if_neg (by omega), show off + n + (j - off - n) = j by omega]
  · rw [byteAt_add_low _ _ _ _ (by omega), byteAt_mod _ _ _ (by omega), if_neg (by omega)]

/-! ### Runs of memory -/

/-- A byte just written. -/
theorem Memory.get_writeN_byte (m : Memory) (a n v j : Nat) (h : j < n) :
    (Memory.get (Memory.writeN m a n v) (a + j)).toNat = byteAt v j := by
  induction n generalizing m a v j with
  | zero => omega
  | succ n ih =>
    rw [Memory.writeN]
    cases j with
    | zero =>
      rw [Memory.get_writeN_other _ _ _ _ _ (by omega), Nat.add_zero, Memory.get_set_self, byteAt_zero, BitVec.toNat_ofNat]
    | succ j => rw [show a + (j + 1) = a + 1 + j by omega, ih _ _ _ _ (by omega), byteAt_succ]

/-- A byte of the number that a run holds. -/
theorem Memory.byteAt_readN (m : Memory) (a n j : Nat) (h : j < n) : byteAt (Memory.readN m a n) j = (Memory.get m (a + j)).toNat := by
  induction n generalizing a j with
  | zero => omega
  | succ n ih =>
    have hb : (Memory.get m a).toNat < 256 := (Memory.get m a).isLt
    rw [Memory.readN]
    cases j with
    | zero => rw [byteAt_zero, Nat.add_mul_mod_self_left, Nat.mod_eq_of_lt hb, Nat.add_zero]
    | succ j =>
      rw [byteAt_succ, Nat.add_mul_div_left _ _ (by norm_num), Nat.div_eq_of_lt hb, Nat.zero_add, ih _ _ (by omega),
        show a + 1 + j = a + (j + 1) by omega]

theorem Memory.readN_lt (m : Memory) (a n : Nat) : Memory.readN m a n < 256 ^ n := by
  induction n generalizing a with
  | zero => simp [Memory.readN]
  | succ n ih =>
    have hb : (Memory.get m a).toNat < 256 := (Memory.get m a).isLt
    have ht := ih (a + 1)
    rw [Memory.readN, Nat.pow_succ]
    omega

/-- A run of bytes in two parts. -/
theorem Memory.readN_add (m : Memory) (a j k : Nat) :
    Memory.readN m a (j + k) = Memory.readN m a j + 256 ^ j * Memory.readN m (a + j) k := by
  induction j generalizing a with
  | zero => simp [Memory.readN]
  | succ j ih =>
    rw [Nat.succ_add, Memory.readN, ih, Memory.readN, Nat.pow_succ, show a + 1 + j = a + (j + 1) by omega]
    ring

/-- A run within a longer one is the bits at its place. -/
theorem Memory.bf_readN (m : Memory) (a off n k : Nat) (hn : 0 < n) (hk : off + n ≤ k) :
    bf (Memory.readN m a k) (8 * (off + n) - 1) (8 * off) = Memory.readN m (a + off) n := by
  obtain ⟨r, rfl⟩ := Nat.exists_eq_add_of_le hk
  rw [bf_bytes _ _ _ hn, Nat.add_assoc, Memory.readN_add, Nat.add_mul_div_left _ _ (by positivity),
    Nat.div_eq_of_lt (Memory.readN_lt m a off), Nat.zero_add, Memory.readN_add, Nat.add_mul_mod_self_left,
    Nat.mod_eq_of_lt (Memory.readN_lt m (a + off) n)]

/-- The bytes of a line of HBM (log 5). -/
theorem hbmLine_toNat (m : Memory) (line : Nat) : (hbmLine m line).toNat = Memory.readN m (64 * line) 64 := by
  rw [hbmLine, toNat_ofNat_bytes _ 64 _ rfl, Nat.mod_eq_of_lt (Memory.readN_lt m (64 * line) 64)]

/-- A line written back with some of its bytes replaced is a write of those bytes. -/
theorem Memory.get_writeN_lineWrite (m : Memory) (line off n v x : Nat) (d : Line) (hn : 0 < n) (hfit : off + n ≤ 64)
    (hd : n = 64 ∨ d = hbmLine m line) :
    Memory.get (Memory.writeN m (64 * line) 64 (lineWrite d off n v).toNat) x = Memory.get (Memory.writeN m (64 * line + off) n v) x := by
  by_cases hx : x < 64 * line ∨ 64 * line + 64 ≤ x
  · rw [Memory.get_writeN_other _ _ _ _ _ hx, Memory.get_writeN_other _ _ _ _ _ (by omega)]
  · obtain ⟨j, rfl⟩ := Nat.exists_eq_add_of_le (show 64 * line ≤ x by omega)
    have hj : j < 64 := by omega
    apply BitVec.eq_of_toNat_eq
    rw [Memory.get_writeN_byte _ _ _ _ _ hj, byteAt_lineWrite _ _ _ _ _ hn hj]
    by_cases hin : off ≤ j ∧ j < off + n
    · rw [if_pos hin, show 64 * line + j = 64 * line + off + (j - off) by omega, Memory.get_writeN_byte _ _ _ _ _ (by omega)]
    · rw [if_neg hin, Memory.get_writeN_other _ _ _ _ _ (by omega), hd.resolve_left (by omega), hbmLine_toNat,
        Memory.byteAt_readN _ _ _ _ hj]

end Sys2Proof.Machine
end

section
/-! Partitions, peer slots and the raw window (R24, R43, R132, R139, R144, R497). -/

namespace Sys2Proof.Machine

/-! ### Partitions (R24, R132, R433, R454) -/

@[simp] theorem Panel.once_parts (p : Panel) (d : Nat) (e : Instr) (args : List Nat) : (p.once d e args).parts = p.parts := by
  unfold Panel.once
  split
  · rfl
  · rfl

@[simp] theorem Panel.once_mem (p : Panel) (d : Nat) (e : Instr) (args : List Nat) : (p.once d e args).mem = p.mem := by
  unfold Panel.once
  split
  · rfl
  · rfl

@[simp] theorem Panel.admitNext_parts (p : Panel) (pi : Nat) : (p.admitNext pi).parts = p.parts := by
  unfold Panel.admitNext
  split
  · simp
  · rfl

@[simp] theorem Panel.admitNext_mem (p : Panel) (pi : Nat) : (p.admitNext pi).mem = p.mem := by
  unfold Panel.admitNext
  split
  · simp
  · rfl

/-- What every step of a fold keeps, the fold keeps. -/
theorem Panel.foldl_keeps {α β : Type} (f : Panel → α → Panel) (g : Panel → β) (h : ∀ q a, g (f q a) = g q) (l : List α) (p : Panel) :
    g (l.foldl f p) = g p := by
  induction l generalizing p with
  | nil => rfl
  | cons a l ih => rw [List.foldl_cons, ih, h]

theorem Panel.find_updPart_self (p : Panel) (pi : Nat) (f : Partition → Partition) (x : Partition) (h : SMap.find p.parts pi = some x) :
    SMap.find (p.updPart pi f).parts pi = some (f x) := by
  simp [Panel.updPart, h]

/-- A control word written changes its partition's three fields, and no byte of memory (R433, R454). -/
theorem Panel.setControls_mem (p : Panel) (pi budget thr pf : Nat) : (p.setControls pi budget thr pf).mem = p.mem := by
  unfold Panel.setControls
  rw [Panel.admitNext_mem, Panel.foldl_keeps _ Panel.mem fun q e => Panel.once_mem q 1 _ _]
  exact Panel.updPart_mem ..

theorem Panel.find_setControls (p : Panel) (pi budget thr pf : Nat) (x : Partition) (h : SMap.find p.parts pi = some x) :
    SMap.find (p.setControls pi budget thr pf).parts pi =
      some { x with l2budget := bf budget 23 0, stagethr := bf thr 31 0, dbgarm := bt pf 63, yieldDl := bf pf 55 32, parkLimit := bf pf 31 0 } := by
  unfold Panel.setControls
  rw [Panel.admitNext_parts, Panel.foldl_keeps _ Panel.parts fun q e => Panel.once_parts q 1 _ _]
  exact Panel.find_updPart_self p pi _ x h

/-- A partition over the whole panel has BASE 0 and every channel (R135). -/
def Partition.overPanel (q : Partition) : Partition :=
  if q.wc = 16 ∧ q.hc = 16 then { q with base := 0, count := 1536, chans := wholeChans } else q

/-- Place `j` of the whole panel's channels (R135). -/
theorem getElem?_wholeChans (j : Nat) (h : j < 1536) : wholeChans[j]? = some (j % 48 * 32 + j / 48) := by
  simp [wholeChans, h]

/-- The partition that a PARTITION_CREATE asks for (R24, R132). -/
def askedPart (cx0 cy0 wc hc base m : Nat) (chans : List Nat) (grant l2b thr : Nat) : Partition :=
  Partition.overPanel
    { cx0 := cx0, cy0 := cy0, wc := wc, hc := hc, base := base, count := m, chans := chans, grant := grant % 2 ^ 256
      l2budget := bf l2b 23 0, stagethr := bf thr 31 0 }

/-- The operands behind a list of channels. -/
theorem Panel.arg_behind (p : Panel) (pre chans post : List Nat) (j : Nat) (hev : p.ev = pre ++ (chans ++ post)) :
    p.arg (pre.length + j + chans.length) = post.getD j 0 := by
  have hj : pre.length + j + chans.length = (pre ++ chans).length + j := by
    rw [List.length_append]
    omega
  rw [Panel.arg, hev, hj, ← List.append_assoc, List.getD, List.getElem?_append_right (Nat.le_add_right _ _), Nat.add_sub_cancel_left]
  rfl

/-- What a PARTITION_CREATE asks for, with its control words where it brings them. -/
theorem exec_partitionCreate (s : State) (pi cx0 cy0 wc hc base m grant l2b thr : Nat) (chans more : List Nat)
    (hev : s.panel.ev = [pi, cx0, cy0, wc, hc, base, m] ++ (chans ++ (grant :: l2b :: thr :: more))) (hm : chans.length = m) :
    let p := s.panel
    let pf := more.getD 0 0
    let q0 := askedPart cx0 cy0 wc hc base m chans grant l2b thr
    let q := if more = [] then q0 else { q0 with dbgarm := bt pf 63, yieldDl := bf pf 55 32, parkLimit := bf pf 31 0 }
    exec .partitionCreate s = .next
      (if s.front.ready ∧ (SMap.find p.parts pi).isSome ∧ more ≠ [] then { s with panel := p.setControls pi l2b thr pf }
      else if !s.front.ready ∨ 16 ≤ pi ∨ (SMap.find p.parts pi).isSome ∨ !partOk p q then s
      else { s with panel := Panel.later { p with parts := SMap.set p.parts pi q } 4096 .energyCharge [pi] }) := by
  subst hm
  have harg (k : Nat) (hk : k < 7) : s.panel.arg k = [pi, cx0, cy0, wc, hc, base, chans.length].getD k 0 := by
    rw [Panel.arg, hev, List.getD, List.getElem?_append_left hk]
    rfl
  have h0 : s.panel.arg 0 = pi := harg 0 (by omega)
  have h1 : s.panel.arg 1 = cx0 := harg 1 (by omega)
  have h2 : s.panel.arg 2 = cy0 := harg 2 (by omega)
  have h3 : s.panel.arg 3 = wc := harg 3 (by omega)
  have h4 : s.panel.arg 4 = hc := harg 4 (by omega)
  have h5 : s.panel.arg 5 = base := harg 5 (by omega)
  have h6 : s.panel.arg 6 = chans.length := harg 6 (by omega)
  have h7 : s.panel.arg (7 + chans.length) = grant := Panel.arg_behind s.panel _ chans _ 0 hev
  have h8 : s.panel.arg (8 + chans.length) = l2b := Panel.arg_behind s.panel _ chans _ 1 hev
  have h9 : s.panel.arg (9 + chans.length) = thr := Panel.arg_behind s.panel _ chans _ 2 hev
  have h10 : s.panel.arg (10 + chans.length) = more.getD 0 0 := Panel.arg_behind s.panel _ chans _ 3 hev
  have hchans : (s.panel.ev.drop 7).take chans.length = chans := by
    rw [hev]
    exact List.take_left
  have hlen : s.panel.ev.length = 10 + chans.length + more.length := by
    rw [hev]
    simp
    omega
  have hmore : 10 + chans.length < s.panel.ev.length ↔ more ≠ [] := by
    rw [hlen, ← List.length_pos_iff]
    omega
  have hnone : s.panel.ev.length ≤ 10 + chans.length ↔ more = [] := by
    rw [hlen, ← List.length_eq_zero_iff]
    omega
  show execPartitionCreate s = _
  simp only [execPartitionCreate, h0, h1, h2, h3, h4, h5, h6, h7, h8, h9, h10, hchans, hmore, hnone]
  rfl

/-- A partition that does not exist is created where it is legal, and nothing changes where it is not (R24, R132). -/
theorem exec_partitionCreate_new (s : State) (pi cx0 cy0 wc hc base m grant l2b thr : Nat) (chans : List Nat)
    (hev : s.panel.ev = [pi, cx0, cy0, wc, hc, base, m] ++ (chans ++ [grant, l2b, thr])) (hm : chans.length = m)
    (hnew : SMap.find s.panel.parts pi = none) :
    exec .partitionCreate s = .next
      (if s.front.ready = false ∨ 16 ≤ pi ∨ partOk s.panel (askedPart cx0 cy0 wc hc base m chans grant l2b thr) = false then s
      else
        { s with
          panel := Panel.later { s.panel with parts := SMap.set s.panel.parts pi (askedPart cx0 cy0 wc hc base m chans grant l2b thr) }
            4096 .energyCharge [pi] }) := by
  simpa only [hnew, if_true, ne_eq, not_true, and_false, if_false, Option.isSome_none, Bool.false_eq_true, false_or, Bool.not_eq_true']
    using exec_partitionCreate s pi cx0 cy0 wc hc base m grant l2b thr chans [] hev hm

/-- Of a partition that exists the control words are written (R433, R454). -/
theorem exec_partitionCreate_controls (s : State) (pi cx0 cy0 wc hc base m grant l2b thr pf : Nat) (chans : List Nat)
    (hev : s.panel.ev = [pi, cx0, cy0, wc, hc, base, m] ++ (chans ++ [grant, l2b, thr, pf])) (hm : chans.length = m)
    (hold : (SMap.find s.panel.parts pi).isSome = true) (hready : s.front.ready = true) :
    exec .partitionCreate s = .next { s with panel := s.panel.setControls pi l2b thr pf } :=
  (exec_partitionCreate s pi cx0 cy0 wc hc base m grant l2b thr chans [pf] hev hm).trans
    (congrArg _ (if_pos ⟨hready, hold, List.cons_ne_nil _ _⟩))

/-! ### Peer slots (R43) -/

@[simp] theorem Panel.dropTlbs_mem (p : Panel) (pi : Nat) : (p.dropTlbs pi).mem = p.mem := rfl

@[simp] theorem Panel.dropTlbs_parts (p : Panel) (pi : Nat) : (p.dropTlbs pi).parts = p.parts := rfl

/-- A table with a function applied to every record. -/
theorem SMap.find_map {α β : Type} (m : SMap α) (f : α → β) (i : Nat) :
    SMap.find (m.map fun (e : Nat × α) => (e.1, f e.2)) i = (SMap.find m i).map f := by
  induction m with
  | nil => rfl
  | cons e t ih =>
    obtain ⟨k, v⟩ := e
    simp only [List.map_cons, SMap.find, ih]
    split
    · rfl
    · rfl

/-- No TLB holds a translation of a partition whose translations have gone. -/
theorem Panel.part_ne_of_mem_dropTlbs (p : Panel) (pi c : Nat) (e : Tlb) (h : e ∈ ((p.dropTlbs pi).cluster c).tlb) : e.part ≠ pi := by
  have hfind := SMap.find_map p.clusters (fun x : Cluster => { x with
    tlb := x.tlb.filter fun t => t.part != pi, wcache := x.wcache.filter fun w => w.1 != pi
    wout := x.wout.filter fun w => w.1 != pi }) c
  rw [Panel.cluster, Panel.dropTlbs, SMap.getD, hfind] at h
  cases hc : SMap.find p.clusters c with
  | none => simp [hc] at h
  | some x =>
    simp only [hc, Option.map_some, Option.getD_some, List.mem_filter, bne_iff_ne] at h
    exact h.2

/-- A peer slot written stands in the partition and in its HBM. -/
theorem Panel.part_putPeer (p : Panel) (pi n : Nat) (w : W) (h : (SMap.find p.parts pi).isSome = true) :
    (p.putPeer pi n w).part pi = { p.part pi with peers := SMap.set (p.part pi).peers n w } :=
  Panel.part_updPart_self _ pi _ h

theorem Panel.putPeer_mem (p : Panel) (pi n : Nat) (w : W) :
    (p.putPeer pi n w).mem = Memory.writeN p.mem (parkBase (p.part pi) - 40960 + 8 * n) 8 w.toNat := by
  simp [Panel.putPeer]

@[simp] theorem Panel.putPeer_clusters (p : Panel) (pi n : Nat) (w : W) : (p.putPeer pi n w).clusters = p.clusters := by
  simp [Panel.putPeer]

theorem Panel.isSome_find_putPeer (p : Panel) (pi n : Nat) (w : W) (h : (SMap.find p.parts pi).isSome = true) :
    (SMap.find (p.putPeer pi n w).parts pi).isSome = true := by
  obtain ⟨x, hx⟩ := Option.isSome_iff_exists.mp h
  exact Option.isSome_iff_exists.mpr ⟨_, Panel.find_updPart_self _ pi _ x hx⟩

/-- The panel before a slot changes: where a valid slot does, the partition's translations have gone (R43). -/
def Panel.beforeSlot (p : Panel) (pi : Nat) (old w : W) : Panel := if bt old.toNat 63 ∧ old ≠ w then p.dropTlbs pi else p

@[simp] theorem Panel.beforeSlot_mem (p : Panel) (pi : Nat) (old w : W) : (p.beforeSlot pi old w).mem = p.mem := by
  unfold Panel.beforeSlot
  split
  · rfl
  · rfl

@[simp] theorem Panel.beforeSlot_parts (p : Panel) (pi : Nat) (old w : W) : (p.beforeSlot pi old w).parts = p.parts := by
  unfold Panel.beforeSlot
  split
  · rfl
  · rfl

@[simp] theorem Panel.part_beforeSlot (p : Panel) (pi j : Nat) (old w : W) : (p.beforeSlot pi old w).part j = p.part j := by
  rw [Panel.part, Panel.beforeSlot_parts, Panel.part]

/-- PEER_TABLE_WRITE of a slot without its ports (R43). -/
theorem exec_peerTableWrite (s : State) (pi i v : Nat) (hev : s.panel.ev = [pi, i, v]) (hi : i < 4096)
    (hpi : (SMap.find s.panel.parts pi).isSome = true) :
    let w := w64 (v / 2 ^ 20 * 2 ^ 20)
    exec .peerTableWrite s = .next { s with panel :=
      ((s.panel.beforeSlot pi (SMap.getD (s.panel.part pi).peers i 0) w).putPeer pi i w).updPart pi fun q => q } := by
  have h0 : s.panel.arg 0 = pi := by simp [Panel.arg, hev]
  have h1 : s.panel.arg 1 = i := by simp [Panel.arg, hev]
  have h2 : s.panel.arg 2 = v := by simp [Panel.arg, hev]
  have hlen : s.panel.ev.length < 5 := by simp [hev]
  have hgo : ¬ (4096 ≤ i ∨ (SMap.find s.panel.parts pi).isNone) := by
    rw [Option.isNone_iff_eq_none, ← Option.not_isSome_iff_eq_none]
    simp [hpi, hi]
  show execPeerTableWrite s = _
  simp only [execPeerTableWrite, onPanel, h0, h1, h2, hlen, hgo, if_true, if_false]
  rfl

/-! ### The raw window (R139, R144, R497) -/

/-- Bytes that lie in one line are one part. -/
theorem splitLines_one (x n : Nat) (hn : 0 < n) (hfit : x % 64 + n ≤ 64) :
    splitLines id (fun _ => 0) (n + 1) x 0 n = [⟨x / 64, x % 64, n, 0, 0, false, 0⟩] := by
  obtain ⟨k, rfl⟩ := Nat.exists_eq_succ_of_ne_zero hn.ne'
  have hmin : min k.succ (64 - x % 64) = k.succ := by omega
  rw [splitLines]
  simp only [hmin, Nat.sub_self, Nat.succ_ne_zero, if_false, id]
  rw [splitLines]
  simp

/-- A line of no partition stands in no slice. -/
theorem Panel.flushLine_unowned (p : Panel) (line : Nat) (h : partOfHbm p (64 * line) = none) : p.flushLine line = p := by
  rw [Panel.flushLine, h]

/-- Reading a line of HBM finds its soft errors and moves no byte and no tag. -/
theorem Panel.hbmFindAt_mem (p : Panel) (spot : Nat × Nat) (line : Nat) : (p.hbmFindAt spot line).mem = p.mem := by
  unfold Panel.hbmFindAt
  split
  · rfl
  · dsimp only
    split
    · rfl
    · rfl

theorem Panel.hbmFindAt_tags (p : Panel) (spot : Nat × Nat) (line : Nat) : (p.hbmFindAt spot line).hbm.tags = p.hbm.tags := by
  unfold Panel.hbmFindAt
  split
  · rfl
  · dsimp only
    split
    · rfl
    · rfl

/-- Under key slot 0 the stored bytes of a line are its bytes (R136). -/
theorem Panel.stored_plain (p : Panel) (line : Nat) (h : frameTag p.hbm (line / 1024) = 0) : p.stored line = hbmLine p.mem line := by
  simp [Panel.stored, h]

theorem Panel.putStored_plain_mem (p : Panel) (line : Nat) (d : Line) (h : frameTag p.hbm (line / 1024) = 0) :
    (p.putStored line d).mem = Memory.writeN p.mem (64 * line) 64 d.toNat := by
  simp [Panel.putStored, h]

/-- A raw read of a sound line of no partition. -/
theorem Panel.rawLine_sound (p : Panel) (line : Nat) (hown : partOfHbm p (64 * line) = none) (hpoison : line ∉ p.hbm.poison)
    (hsoft : SMap.find p.hbm.soft line = none) (htag : frameTag p.hbm (line / 1024) = 0) :
    p.rawLine line = (Memory.readN p.mem (64 * line) 64, false, p) := by
  have hfind (spot : Nat × Nat) : p.hbmFindAt spot line = p := by rw [Panel.hbmFindAt, hsoft]
  simp [Panel.rawLine, Panel.flushLine_unowned p line hown, hfind, hpoison, Panel.stored_plain p line htag, hbmLine_toNat]

theorem Panel.rawWrite_unowned (p : Panel) (line off n v : Nat) (hown : partOfHbm p (64 * line) = none) :
    p.rawWrite line off n v = p.rawPut line off n v := by
  simp only [Panel.rawWrite, Panel.flushLine_unowned p line hown, hown]

theorem Panel.rawPut_whole_mem (p : Panel) (line off v : Nat) (htag : frameTag p.hbm (line / 1024) = 0) :
    (p.rawPut line off 64 v).mem = Memory.writeN p.mem (64 * line) 64 (lineWrite 0 off 64 v).toNat := by
  simp only [Panel.rawPut, if_true, Panel.putStored_plain_mem p line _ htag]

theorem Panel.rawPut_part_mem (p : Panel) (line off n v : Nat) (hn : n ≠ 64) (htag : frameTag p.hbm (line / 1024) = 0) :
    (p.rawPut line off n v).mem = Memory.writeN p.mem (64 * line) 64 (lineWrite (hbmLine p.mem line) off n v).toNat := by
  have htag' (spot : Nat × Nat) : frameTag (p.hbmFindAt spot line).hbm (line / 1024) = 0 := by
    rw [frameTag, Panel.hbmFindAt_tags]
    exact htag
  simp only [Panel.rawPut, hn, if_false, Panel.putStored_plain_mem _ line _ (htag' _), Panel.stored_plain _ line (htag' _),
    Panel.hbmFindAt_mem]

/-- A raw write to a line of no partition under key slot 0 writes its bytes and no other. -/
theorem Panel.get_rawWrite (p : Panel) (line off n v a : Nat) (hn : 0 < n) (hfit : off + n ≤ 64) (hown : partOfHbm p (64 * line) = none)
    (htag : frameTag p.hbm (line / 1024) = 0) :
    Memory.get (p.rawWrite line off n v).mem a = Memory.get (Memory.writeN p.mem (64 * line + off) n v) a := by
  rw [Panel.rawWrite_unowned p line off n v hown]
  by_cases h64 : n = 64
  · subst h64
    rw [Panel.rawPut_whole_mem p line off v htag]
    exact Memory.get_writeN_lineWrite _ _ _ _ _ _ _ hn hfit (.inl rfl)
  · rw [Panel.rawPut_part_mem p line off n v h64 htag]
    exact Memory.get_writeN_lineWrite _ _ _ _ _ _ _ hn hfit (.inr rfl)

/-- Reads of the HBM window of `n` bytes within a line: zeros before READY; then zeros, unsupported, above HBM, and the stored bytes of a line
of no partition. -/
theorem exec_hostBar2Read (s : State) (i x n : Nat) (hev : s.panel.ev = [i, x, n]) (hi : i < 2) (hw : (s.front.ep i).width ≠ 0)
    (hn : 0 < n) (hfit : x % 64 + n ≤ 64) :
    exec .hostBar2Read s = .next
      (if s.front.ready = false then { s with front := { s.front with barRead := some (toBytes n 0, false, false) } }
      else
        let r := rawBytes [⟨x / 64, x % 64, n, 0, 0, false, 0⟩] [] false false s.panel
        { s with panel := r.2.2.2, front := { s.front with barRead := some (r.1, r.2.1, r.2.2.1) } }) := by
  have h0 : s.panel.arg 0 = i := by simp [Panel.arg, hev]
  have h1 : s.panel.arg 1 = x := by simp [Panel.arg, hev]
  have h2 : s.panel.arg 2 = n := by simp [Panel.arg, hev]
  have h3 : s.panel.arg 3 = 0 := by simp [Panel.arg, hev]
  have hgo : ¬ (2 ≤ i ∨ (s.front.ep i).width = 0) := by omega
  show execHostBar2Read s = _
  simp only [execHostBar2Read, h0, h1, h2, h3, hgo, if_false, Nat.zero_ne_one, splitLines_one x n hn hfit, Bool.not_eq_true']

theorem rawBytes_above (p : Panel) (line off n : Nat) (h : hbmSize ≤ 64 * line) :
    rawBytes [⟨line, off, n, 0, 0, false, 0⟩] [] false false p = (toBytes n 0, false, true, p) := by
  simp [rawBytes, h]

theorem rawBytes_unowned (p : Panel) (line off n : Nat) (hn : 0 < n) (hfit : off + n ≤ 64) (h : 64 * line < hbmSize)
    (hown : partOfHbm p (64 * line) = none) (hpoison : line ∉ p.hbm.poison) (hsoft : SMap.find p.hbm.soft line = none)
    (htag : frameTag p.hbm (line / 1024) = 0) :
    rawBytes [⟨line, off, n, 0, 0, false, 0⟩] [] false false p = (Memory.bytes p.mem (64 * line + off) n, false, false, p) := by
  simp [rawBytes, Nat.not_le.mpr h, Panel.rawLine_sound p line hown hpoison hsoft htag, Memory.bf_readN _ _ _ _ _ hn hfit, Memory.bytes]

/-- Writes to the HBM window of `n` bytes within a line: none before READY or above HBM. -/
theorem exec_hostBar2Write (s : State) (i x n v : Nat) (hev : s.panel.ev = [i, x, n, v]) (hi : i < 2) (hw : (s.front.ep i).width ≠ 0)
    (hn : 0 < n) (hfit : x % 64 + n ≤ 64) :
    exec .hostBar2Write s = .next
      (if s.front.ready = true ∧ 64 * (x / 64) < hbmSize then { s with panel := s.panel.rawWrite (x / 64) (x % 64) n v } else s) := by
  have h0 : s.panel.arg 0 = i := by simp [Panel.arg, hev]
  have h1 : s.panel.arg 1 = x := by simp [Panel.arg, hev]
  have h2 : s.panel.arg 2 = n := by simp [Panel.arg, hev]
  have h3 : s.panel.arg 3 = v := by simp [Panel.arg, hev]
  have h4 : s.panel.arg 4 = 0 := by simp [Panel.arg, hev]
  have hok : s.hostOk i = s.front.ready := by simp [State.hostOk, hi, hw]
  show execHostBar2Write s = _
  simp only [execHostBar2Write, h0, h1, h2, h3, h4, hok, splitLines_one x n hn hfit]
  cases hready : s.front.ready with
  | false => simp
  | true =>
    by_cases hline : 64 * (x / 64) < hbmSize
    · simp [hline]
    · simp [hline]

/-! ### The statement -/

/-- Settles O51: each event from its equation; the window's bytes from those of one line. -/
theorem partitionsAndWindow : Obligations.PartitionsAndWindow := by
  unfold Obligations.PartitionsAndWindow
  intro s
  refine ⟨fun pi cx0 cy0 wc hc base m chans grant l2b thr hev hm hnew => ?create,
    fun pi cx0 cy0 wc hc base m chans grant l2b thr pf x hev hm hold hready => ?controls, fun pi i v hev hi hpi => ?peer,
    fun i x n hev hi hw hn hfit => ?read, fun i x n v hev hi hw hn hfit => ?write⟩
  case create =>
    have hexec := exec_partitionCreate_new s pi cx0 cy0 wc hc base m grant l2b thr chans hev hm hnew
    refine ⟨fun h16 h16' j hj => ?_, fun hready hpi hok => ?_, fun hbad => hexec.trans (congrArg _ (if_pos hbad))⟩
    · simp only [h16, h16', and_self, if_true]
      exact getElem?_wholeChans j hj
    · have hgood : ¬ (s.front.ready = false ∨ 16 ≤ pi ∨ partOk s.panel (askedPart cx0 cy0 wc hc base m chans grant l2b thr) = false) := by
        have hok' : partOk s.panel (askedPart cx0 cy0 wc hc base m chans grant l2b thr) = true := hok
        simp [hready, hpi, hok']
      exact ⟨_, hexec.trans (congrArg _ (if_neg hgood)), SMap.find_set_self _ _ _, rfl, rfl⟩
  case controls =>
    exact ⟨_, exec_partitionCreate_controls s pi cx0 cy0 wc hc base m grant l2b thr pf chans hev hm (by simp [hold]) hready,
      Panel.setControls_mem .., Panel.find_setControls _ _ _ _ _ _ hold⟩
  case peer =>
    have hsome : (SMap.find (s.panel.beforeSlot pi (SMap.getD (s.panel.part pi).peers i 0) (w64 (v / 2 ^ 20 * 2 ^ 20))).parts pi).isSome = true := by
      simpa using hpi
    refine ⟨_, exec_peerTableWrite s pi i v hev hi hpi, ?_, ?_, fun a ha => ?_, fun hvalid hchange c e he => ?_⟩
    · rw [Panel.part_updPart_self _ _ _ (Panel.isSome_find_putPeer _ _ _ _ hsome), Panel.part_putPeer _ _ _ _ hsome]
      exact SMap.find_set_self _ _ _
    · rw [Panel.updPart_mem, Panel.putPeer_mem, Panel.part_beforeSlot, Memory.readN_writeN, pow_256]
      exact Nat.mod_eq_of_lt (BitVec.isLt _)
    · rw [Panel.updPart_mem, Panel.putPeer_mem, Panel.part_beforeSlot, Panel.beforeSlot_mem]
      exact Memory.get_writeN_other _ _ _ _ _ ha
    · refine Panel.part_ne_of_mem_dropTlbs s.panel pi c e ?_
      rw [Panel.cluster, Panel.updPart_clusters, Panel.putPeer_clusters, Panel.beforeSlot, if_pos ⟨hvalid, hchange⟩] at he
      exact he
  case read =>
    have hexec := exec_hostBar2Read s i x n hev hi hw hn hfit
    refine ⟨fun hready => ?_, fun hready hline => ?_, fun hready hline hown hpoison hsoft htag => ?_⟩
    · rw [hexec, if_pos hready]
    · rw [hexec, if_neg (by simp [hready]), rawBytes_above _ _ _ _ (by omega)]
    · rw [hexec, if_neg (by simp [hready]), rawBytes_unowned _ _ _ _ hn hfit (by omega) hown hpoison hsoft htag, Nat.div_add_mod]
  case write =>
    have hexec := exec_hostBar2Write s i x n v hev hi hw hn hfit
    refine ⟨fun hready => ?_, fun hready hline => ?_, fun hready hline hown htag => ?_⟩
    · rw [hexec, if_neg (by simp [hready])]
    · rw [hexec, if_neg (by omega)]
    · rw [if_pos ⟨hready, by omega⟩] at hexec
      have hbytes (a : Nat) : Memory.get (s.panel.rawWrite (x / 64) (x % 64) n v).mem a = Memory.get (Memory.writeN s.panel.mem x n v) a := by
        rw [Panel.get_rawWrite _ _ _ _ _ _ hn hfit hown htag, Nat.div_add_mod]
      refine ⟨_, hexec, ?_, fun a ha => ?_⟩
      · rw [Memory.readN_congr _ _ _ _ fun a _ _ => hbytes a, Memory.readN_writeN, pow_256]
      · exact (hbytes a).trans (Memory.get_writeN_other _ _ _ _ _ ha)

end Sys2Proof.Machine
end

section
/-! Containment where no entry can name the bye-stake. A cluster word's BYE field has four bits, an entry's SITE field eight (R17): BYE 15 in the last
clusters of a chiplet stands past site 255. R17 reserves BYE 9 to 15, and bring-up leaves none (R14), but the statement of failures asks nothing of BYE. -/

namespace Sys2Proof.Machine

/-- A panel that is to contain core 2560, the first of cluster 20, with a bye-stake that passes its test; every cluster word has BYE 15 and spares no core. -/
def byeFifteen : Panel := { ev := [2560, 1], fabric := { cword0 := 0xFF0F, events := [2560] } }

/-- BYE 15 of cluster 20 is site 258 of the chiplet, of which an entry keeps 258 mod 256: the cluster's word expresses no such entry, so the routers
refuse the write and containment leaves the word as it was. -/
theorem execContainment_byeFifteen_cword {t : State} (h : exec .containment { panel := byeFifteen } = .next t) :
    cword t.panel.fabric 20 = 0xFF0F := by
  have hrun : (match exec .containment { panel := byeFifteen } with | .next t => cword t.panel.fabric 20 | _ => 0) = 0xFF0F := by
    decide +kernel
  rwa [h] at hrun

/-- Refutes O43: with a spare, the cluster's word need not name the bye-stake. At BYE 15 of cluster 20 the routers refuse the entry and the word stays
0xFF0F, where the statement has it spare the cluster's first core, 0xFF8F. The clause lacks the premise that BYE is at most 8. -/
theorem not_failureEvents : ¬ Obligations.FailureEvents := by
  intro h
  obtain ⟨-, -, -, hspare, -⟩ := h { panel := byeFifteen } 0 2560
  obtain ⟨t, ht, -, -, -, hword, -⟩ := hspare rfl rfl rfl (by decide) (by decide) rfl rfl (by decide)
  rw [show clusterOf 2560 = 20 by decide, execContainment_byeFifteen_cword ht] at hword
  exact absurd hword (by decide)

end Sys2Proof.Machine
end

section
/-! Scalar loads and stores (R30, R84, R86, R87, R95, R287, R292): what each form asks of the panel, and what an access to the thread's own window
does there. -/

namespace Sys2Proof.Machine

/-! ### Bits of numbers and of memory (R3, R86, R87) -/

/-- Bits put into a number: those below, the new ones, those above. -/
theorem putBits_eq (d lo w v : Nat) (hw : 0 < w) :
    putBits d (lo + w - 1) lo v = 2 ^ lo * (2 ^ w * (d / 2 ^ (lo + w)) + v % 2 ^ w) + d % 2 ^ lo := by
  have hd : d = 2 ^ lo * (2 ^ w * (d / 2 ^ (lo + w)) + d / 2 ^ lo % 2 ^ w) + d % 2 ^ lo := by
    rw [Nat.pow_add, ← Nat.div_div_eq_div_mul, Nat.div_add_mod, Nat.div_add_mod]
  have hwidth : lo + w - 1 + 1 - lo = w := by omega
  rw [putBits, bf, hwidth, Nat.shiftRight_eq_div_pow]
  generalize d / 2 ^ lo % 2 ^ w = old at *
  generalize d / 2 ^ (lo + w) = high at *
  generalize d % 2 ^ lo = low at *
  rw [hd, show 2 ^ lo * (2 ^ w * high + old) + low = 2 ^ lo * (2 ^ w * high) + low + old * 2 ^ lo by ring, Nat.add_sub_cancel]
  ring

/-- A bit of a number after bits were put into it. -/
theorem testBit_putBits (d lo w v j : Nat) (hw : 0 < w) :
    (putBits d (lo + w - 1) lo v).testBit j = if lo ≤ j ∧ j < lo + w then v.testBit (j - lo) else d.testBit j := by
  have hlow : d % 2 ^ lo < 2 ^ lo := Nat.mod_lt _ (by positivity)
  have hmid : v % 2 ^ w < 2 ^ w := Nat.mod_lt _ (by positivity)
  rw [putBits_eq d lo w v hw, Nat.testBit_two_pow_mul_add _ hlow]
  by_cases h1 : j < lo
  · rw [if_pos h1, if_neg (by omega), Nat.testBit_mod_two_pow]
    simp [h1]
  · rw [if_neg h1, Nat.testBit_two_pow_mul_add _ hmid]
    by_cases h2 : j < lo + w
    · rw [if_pos (by omega), if_pos (by omega), Nat.testBit_mod_two_pow]
      simp [show j - lo < w by omega]
    · rw [if_neg (by omega), if_neg (by omega), Nat.testBit_div_two_pow]
      congr 1
      omega

/-- The data of one item that fills its place. -/
theorem putBits_zero (w v : Nat) (hw : 0 < w) : putBits 0 (0 + w - 1) 0 v = v % 2 ^ w := by
  rw [putBits_eq 0 0 w v hw]
  simp

theorem bf_low (v w : Nat) (hw : 0 < w) : bf v (0 + w - 1) 0 = v % 2 ^ w := by
  rw [bf, show 0 + w - 1 + 1 - 0 = w by omega, Nat.shiftRight_zero]

/-- The low bits of a run do not depend on how many bytes follow them. -/
theorem Memory.readN_field (m : Memory) (a n k r w : Nat) (hk : n ≤ k) (hfit : r + w ≤ 8 * n) :
    Memory.readN m a k / 2 ^ r % 2 ^ w = Memory.readN m a n / 2 ^ r % 2 ^ w := by
  obtain ⟨j, rfl⟩ := Nat.exists_eq_add_of_le hk
  obtain ⟨i, hi⟩ := Nat.exists_eq_add_of_le hfit
  rw [Memory.readN_add, pow_256, hi, Nat.pow_add, Nat.pow_add, Nat.mul_assoc, Nat.mul_assoc,
    Nat.add_mul_div_left _ _ (by positivity), Nat.add_mul_mod_self_left]

/-- Bits of memory within a byte and those that follow it. -/
theorem Memory.readBits_byte (m : Memory) (a k w : Nat) (hk : k < 8) :
    Memory.readBits m (8 * a + k) w = Memory.readN m a ((k + w + 7) / 8) / 2 ^ k % 2 ^ w := by
  rw [Memory.readBits, show (8 * a + k) / 8 = a by omega, show (8 * a + k) % 8 = k by omega, Nat.shiftRight_eq_div_pow]

theorem Memory.writeBits_byte (m : Memory) (a k w v : Nat) (hk : k < 8) :
    Memory.writeBits m (8 * a + k) w v =
      Memory.writeN m a ((k + w + 7) / 8) (putBits (Memory.readN m a ((k + w + 7) / 8)) (k + w - 1) k v) := by
  rw [Memory.writeBits, show (8 * a + k) / 8 = a by omega, show (8 * a + k) % 8 = k by omega]

/-- Whole bytes read as bits. -/
theorem Memory.readBits_bytes (m : Memory) (a n : Nat) : Memory.readBits m (8 * a) (8 * n) = Memory.readN m a n := by
  have h := Memory.readBits_byte m a 0 (8 * n) (by omega)
  rwa [Nat.add_zero, show (0 + 8 * n + 7) / 8 = n by omega, Nat.pow_zero, Nat.div_one, ← pow_256,
    Nat.mod_eq_of_lt (Memory.readN_lt m a n)] at h

/-- Whole bytes written as bits read back. -/
theorem Memory.readN_writeBits_bytes (m : Memory) (a n v : Nat) (hn : 0 < n) :
    Memory.readN (Memory.writeBits m (8 * a) (8 * n) v) a n = v % 2 ^ (8 * n) := by
  have h := Memory.writeBits_byte m a 0 (8 * n) v (by omega)
  rw [Nat.add_zero, show (0 + 8 * n + 7) / 8 = n by omega] at h
  rw [h, Memory.readN_writeN, putBits_eq _ _ _ _ (by omega), pow_256]
  simp [Nat.mod_one]

/-- Bits written leave every byte that holds none of them. -/
theorem Memory.get_writeBits_other (m : Memory) (a k w v x : Nat) (hk : k < 8) (h : x < a ∨ a + (k + w + 7) / 8 ≤ x) :
    Memory.get (Memory.writeBits m (8 * a + k) w v) x = Memory.get m x := by
  rw [Memory.writeBits_byte m a k w v hk]
  exact Memory.get_writeN_other _ _ _ _ _ h

/-- A bit of the bytes that bits were written to: the bit written, or the one that stood there. -/
theorem Memory.testBit_writeBits (m : Memory) (a k w v j : Nat) (hk : k < 8) (hw : 0 < w) (hj : j < 8 * ((k + w + 7) / 8)) :
    (Memory.readN (Memory.writeBits m (8 * a + k) w v) a ((k + w + 7) / 8)).testBit j =
      if k ≤ j ∧ j < k + w then v.testBit (j - k) else (Memory.readN m a ((k + w + 7) / 8)).testBit j := by
  rw [Memory.writeBits_byte m a k w v hk, Memory.readN_writeN, pow_256, Nat.testBit_mod_two_pow, testBit_putBits _ _ _ _ _ hw]
  simp [hj]

/-! ### Items -/

theorem lmA_bits (lc off k : Nat) : 8 * lmA lc 0 + (8 * off + k) = 8 * lmA lc off + k := by
  unfold lmA
  omega

/-- The low 64 bits of a number that was reduced to them. -/
theorem ofNat_mod_64 (v : Nat) : BitVec.ofNat 64 (v % 2 ^ 64) = BitVec.ofNat 64 v := by
  simp [← BitVec.toNat_inj]

theorem ofNat_cut_64 (v : Int) : BitVec.ofNat 64 (cut 64 v) = BitVec.ofInt 64 v := by
  rw [← BitVec.toNat_inj, BitVec.toNat_ofNat, BitVec.toNat_ofInt, cut]
  omega

/-- One item read into a register: its bits, sign- or zero-extended to 64 (R51). -/
theorem w64_readItems_one (m : Memory) (lc off k w : Nat) (sx : Bool) (hw : 0 < w) :
    w64 (readItems m lc [⟨w, 8 * off + k, 0, 64, sx⟩]) =
      if sx then BitVec.ofInt 64 (sgn w (Memory.readBits m (8 * lmA lc off + k) w))
      else BitVec.ofNat 64 (Memory.readBits m (8 * lmA lc off + k) w) := by
  have hput (v : Nat) : w64 (putBits 0 (0 + 64 - 1) 0 v) = BitVec.ofNat 64 v := by
    rw [putBits_zero _ _ (by omega), w64, ofNat_mod_64]
  rw [readItems, List.foldl_cons, List.foldl_nil, if_neg hw.ne', hput, lmA_bits]
  generalize Memory.readBits m (8 * lmA lc off + k) w = v
  cases sx with
  | true => rw [if_pos rfl, if_pos rfl, ofNat_cut_64]
  | false => rw [if_neg Bool.false_ne_true, if_neg Bool.false_ne_true, ofNat_mod_64]

/-- One item written: its bits of the core's local memory, and the core's note of the page (R487). -/
theorem Panel.writeItems_one (p : Panel) (lc off k w data : Nat) (sx : Bool) (hw : 0 < w) :
    ∃ f, p.writeItems lc [⟨w, 8 * off + k, 0, 64, sx⟩] data =
      ({ p with mem := Memory.writeBits p.mem (8 * lmA lc 0 + (8 * off + k)) w (bf data (0 + w - 1) 0) }).updCore lc f := by
  rw [Panel.writeItems, List.foldl_cons, List.foldl_nil, if_neg hw.ne']
  exact ⟨_, rfl⟩

theorem Panel.writeItems_one_mem (p : Panel) (lc off k w data : Nat) (sx : Bool) (hw : 0 < w) :
    (p.writeItems lc [⟨w, 8 * off + k, 0, 64, sx⟩] data).mem = Memory.writeBits p.mem (8 * lmA lc off + k) w (data % 2 ^ w) := by
  obtain ⟨f, hf⟩ := Panel.writeItems_one p lc off k w data sx hw
  rw [hf, Panel.updCore_mem, lmA_bits, bf_low data w hw]

/-- A context of a core whose other contents change. -/
theorem Panel.ctx_updCore (p : Panel) (lc lc' slot : Nat) (f : Core → Core) (hf : ∀ c, (f c).ctxs = c.ctxs) :
    (p.updCore lc f).ctx lc' slot = p.ctx lc' slot := by
  by_cases h : lc = lc'
  · subst h
    simp [Panel.ctx, hf]
  · rw [Panel.ctx, Panel.core_updCore_other p lc lc' f h, Panel.ctx]

theorem Panel.ctx_setMem (p : Panel) (m : Memory) (lc slot : Nat) : ({ p with mem := m } : Panel).ctx lc slot = p.ctx lc slot := rfl

theorem Panel.ctx_writeItems (p : Panel) (lc data lc' slot : Nat) (its : List Item) :
    (p.writeItems lc its data).ctx lc' slot = p.ctx lc' slot := by
  unfold Panel.writeItems
  refine Panel.foldl_keeps _ (fun q => q.ctx lc' slot) (fun q i => ?_) its p
  split
  · rfl
  · rw [Panel.ctx_updCore, Panel.ctx_setMem]
    exact fun _ => rfl

theorem Panel.writeItems_cur (p : Panel) (lc data : Nat) (its : List Item) : (p.writeItems lc its data).cur = p.cur := by
  unfold Panel.writeItems
  refine Panel.foldl_keeps _ Panel.cur (fun q i => ?_) its p
  split
  · rfl
  · exact Panel.updCore_cur _ _ _

/-! ### The end of an access at the banks (R84, R95) -/

@[simp] theorem Panel.bill_mem (p : Panel) (lc launch pj : Nat) : (p.bill lc launch pj).mem = p.mem := rfl

@[simp] theorem Panel.bill_cur (p : Panel) (lc launch pj : Nat) : (p.bill lc launch pj).cur = p.cur := rfl

@[simp] theorem Panel.ctx_bill (p : Panel) (lc launch pj lc' slot : Nat) : (p.bill lc launch pj).ctx lc' slot = p.ctx lc' slot :=
  Panel.ctx_updCore p lc lc' slot _ fun _ => rfl

/-- Energy counted is no matter of a thread. -/
@[simp] theorem Panel.cc_bankCharge (p : Panel) (lc tag n : Nat) : (p.bankCharge lc tag n).cc = p.cc :=
  Panel.ctx_bill p lc _ _ _ _

@[simp] theorem Panel.cc_later (p : Panel) (d : Nat) (e : Instr) (args : List Nat) : (p.later d e args).cc = p.cc := rfl

/-- The bank cycles of an access lengthen its thread's gap and change no byte, no register and no pc. -/
theorem Panel.bankGap_frame (p : Panel) (k : Nat) :
    (p.bankGap k).mem = p.mem ∧ (p.bankGap k).cur = p.cur ∧ ∃ x, (p.bankGap k).cc = { p.cc with gapUntil := x } := by
  unfold Panel.bankGap
  dsimp only
  split
  · exact ⟨rfl, rfl, _, Panel.cc_bankCharge ..⟩
  · refine ⟨rfl, rfl, max p.cc.gapUntil (p.now + 8 + (k - 1)), ?_⟩
    rw [Panel.cc_later, Panel.cc_updC, Panel.cc_bankCharge]
    rfl

/-- A thread's context at the end of its bundle: only the pc moves. -/
theorem Panel.cc_fin_eq (p : Panel) : p.fin.cc = { p.cc with pc := if p.cur.aword then p.cc.pc else p.cc.pc + w64 p.cur.len } := by
  cases h : p.cur.aword with
  | true => rw [Panel.fin_aword p h]; rfl
  | false => rw [Panel.cc_fin p h]; rfl

/-- The end of an access at the banks: memory and registers stand, the pc moves on as at the end of any bundle. -/
theorem Panel.bankGap_fin (p : Panel) (k : Nat) :
    ((p.bankGap k).fin).mem = p.mem ∧ ((p.bankGap k).fin).cc.g = p.cc.g ∧ ((p.bankGap k).fin).cc.pc = p.fin.cc.pc := by
  obtain ⟨hmem, hcur, x, hcc⟩ := p.bankGap_frame k
  simp only [Panel.fin_mem, Panel.cc_fin_eq, hmem, hcc, hcur, and_self]

/-! ### Accesses to the thread's own window -/

/-- Forgetting the run target moves no pc and changes no register and no byte. -/
theorem Panel.cc_untrack (p : Panel) : p.untrack.cc = { p.cc with tracker := none } := Panel.cc_updC p _

theorem Panel.untrack_mem (p : Panel) : p.untrack.mem = p.mem := rfl

theorem Panel.pc_fin_untrack (p : Panel) : p.untrack.fin.cc.pc = p.fin.cc.pc := by
  rw [Panel.cc_fin_eq, Panel.cc_fin_eq, Panel.cc_untrack]
  rfl

/-- The words that a scalar access of bits touches (R84, R95). -/
theorem words_of_bytes (off n : Nat) (hn : 0 < n) : (8 * (off % 8) + 8 * n - 1) / 64 + 1 = wordsTouched off n := by
  rw [wordsTouched, if_neg hn.ne']
  omega

/-- A scalar access to the thread's own window, at home: it waits for the thread's mesh-window accesses to its bytes, or is performed at the
banks (R95, R182, R183). -/
theorem Panel.scalarAcc_own (p : Panel) (x : ScalarAcc) (lc off : Nat) (hplace : x.place = .lm lc off false) (hhome : p.isAway = false) :
    p.scalarAcc x = if p.meshOpen x.store lc off x.size = true then p.retry else p.untrack.localAcc x lc off := by
  unfold Panel.scalarAcc
  simp [hplace, hhome]

/-- A load at the banks: its register, and the gap. -/
theorem Panel.localAcc_load (p : Panel) (x : ScalarAcc) (lc off : Nat) (v : W) (hst : x.store = false)
    (hv : w64 (readItems p.mem lc [⟨x.w, 8 * off + x.bit, 0, 64, x.sx⟩]) = v) :
    p.localAcc x lc off =
      ((p.updC fun c => c.setG x.reg v).bankGap ((8 * (off % 8) + x.bit + x.w - 1) / 64 + 1)).fin := by
  simp [Panel.localAcc, hst, hv]

/-- A store at the banks: its bits, and no register. -/
theorem Panel.localAcc_store (p : Panel) (x : ScalarAcc) (lc off : Nat) (hst : x.store = true) (hw : 0 < x.w) :
    (p.localAcc x lc off).mem = Memory.writeBits p.mem (8 * lmA lc off + x.bit) x.w (x.data.toNat % 2 ^ x.w) ∧
      (p.localAcc x lc off).cc.g = p.cc.g ∧ (p.localAcc x lc off).cc.pc = p.fin.cc.pc := by
  let q := p.writeItems lc [⟨x.w, 8 * off + x.bit, 0, 64, x.sx⟩] x.data.toNat
  have hcur : q.cur = p.cur := Panel.writeItems_cur ..
  have hcc : q.cc = p.cc := by
    rw [Panel.cc, hcur]
    exact Panel.ctx_writeItems ..
  have hacc : p.localAcc x lc off = (q.bankGap ((8 * (off % 8) + x.bit + x.w - 1) / 64 + 1)).fin := by
    simp [Panel.localAcc, hst, q]
  obtain ⟨hmem, hg, hpc⟩ := q.bankGap_fin ((8 * (off % 8) + x.bit + x.w - 1) / 64 + 1)
  rw [hacc, hmem, hg, hpc, Panel.cc_fin_eq, Panel.cc_fin_eq, hcur, hcc]
  exact ⟨Panel.writeItems_one_mem p lc off x.bit x.w _ _ hw, rfl, rfl⟩

/-! ### The forms of an instruction (R287, R292) -/

/-- A scalar load or store of `n` bytes as its instruction gives it to the core (R287). -/
def Panel.wordAcc (p : Panel) (store : Bool) (ea n : Nat) (sx : Bool) (r : Reg) : ScalarAcc :=
  { store := store, va := ea, size := n, place := place p p.src ea n, w := 8 * n, sx := sx, reg := r.toNat
    data := if store then p.gv r else 0, addr := w64 ea, mkind := if store then 3 else if sx then 1 else 2 }

theorem Panel.word_eq (p : Panel) (store : Bool) (ea n : Nat) (sx : Bool) (r : Reg) (h : p.acqBusy = false) :
    p.word store ea n sx r = p.scalarAcc (p.wordAcc store ea n sx r) := by
  simp [Panel.word, Panel.memory, h, Panel.wordAcc]

/-- The base-and-offset loads and stores: bytes, store or load, sign extension (R287). -/
def wordForms (d a : Reg) (m : BitVec 16) : List (Instr × Nat × Bool × Bool) :=
  [(.ldB d a m, 1, false, true), (.ldH d a m, 2, false, true), (.ldW d a m, 4, false, true), (.ldD d a m, 8, false, true),
    (.ldBz d a m, 1, false, false), (.ldHz d a m, 2, false, false), (.ldWz d a m, 4, false, false),
    (.stB d a m, 1, true, false), (.stH d a m, 2, true, false), (.stW d a m, 4, true, false), (.stD d a m, 8, true, false)]

/-- Each of them is one scalar access of its bytes at base plus offset. -/
theorem exec_wordForm (s : State) (d a : Reg) (m : BitVec 16) {i : Instr} {n : Nat} {st sx : Bool}
    (h : (i, n, st, sx) ∈ wordForms d a m) :
    0 < n ∧ exec i s = s.to (s.panel.word st (s.panel.gv a + m.signExtend 64).toNat n sx d) := by
  simp only [wordForms, List.mem_cons, Prod.mk.injEq, List.not_mem_nil, or_false] at h
  rcases h with ⟨rfl, rfl, rfl, rfl⟩ | ⟨rfl, rfl, rfl, rfl⟩ | ⟨rfl, rfl, rfl, rfl⟩ | ⟨rfl, rfl, rfl, rfl⟩ | ⟨rfl, rfl, rfl, rfl⟩ |
    ⟨rfl, rfl, rfl, rfl⟩ | ⟨rfl, rfl, rfl, rfl⟩ | ⟨rfl, rfl, rfl, rfl⟩ | ⟨rfl, rfl, rfl, rfl⟩ | ⟨rfl, rfl, rfl, rfl⟩ | ⟨rfl, rfl, rfl, rfl⟩
  all_goals exact ⟨by decide, rfl⟩

/-- The scaled index of an address (R287). -/
theorem eaIdx_eq (a b : W) (h : Nat) : eaIdx a b h = (a + b * 2 ^ h).toNat := by
  have hpow : BitVec.twoPow 64 h = 2 ^ h := by
    rw [← BitVec.toNat_inj, BitVec.toNat_twoPow, BitVec.toNat_pow]
    simp [Nat.pow_mod]
  rw [eaIdx, BitVec.shiftLeft_eq_mul_twoPow, hpow]

/-- LDX and STX are scalar accesses of the same kind (R257, R287). -/
theorem exec_ldx (s : State) (d a b : Reg) (h : BitVec 2) (k : Nat) (hk : k < 7) :
    exec (.ldx d a b h (BitVec.ofNat 3 k)) s =
      s.to (s.panel.word false (s.panel.gv a + s.panel.gv b * 2 ^ h.toNat).toNat (2 ^ (k % 4)) (decide (k < 4)) d) := by
  have hcode : (BitVec.ofNat 3 k).toNat = k := Nat.mod_eq_of_lt (by omega)
  rw [← eaIdx_eq]
  show s.to (s.panel.word false _ (2 ^ ((BitVec.ofNat 3 k).toNat % 4)) ((BitVec.ofNat 3 k).toNat < 4) d) = _
  rw [hcode]

theorem exec_stx (s : State) (d a b : Reg) (h k : BitVec 2) :
    exec (.stx d a b h k) s = s.to (s.panel.word true (s.panel.gv a + s.panel.gv b * 2 ^ h.toNat).toNat (2 ^ k.toNat) false d) := by
  rw [← eaIdx_eq]
  rfl

/-- A bit-granular access of `w` bits as its instruction gives it to the core (R86, R292). -/
def Panel.bitsAcc (p : Panel) (store : Bool) (ba w : Nat) (sx : Bool) (r : Reg) : ScalarAcc :=
  { store := store, va := if bf ba 63 58 ≠ 0 then ba else ba / 8, size := (ba + w - 1) / 8 - ba / 8 + 1, place := placeBits p p.src ba w
    bit := ba % 8, w := w, sx := sx, reg := r.toNat, data := if store then p.gv r else 0
    addr := w64 ba, mkind := if store then 5 else if sx then 6 else 4 }

theorem Panel.bits_eq (p : Panel) (store : Bool) (ba w : Nat) (sx : Bool) (r : Reg) (h : p.acqBusy = false) :
    p.bits store ba w sx r = p.scalarAcc (p.bitsAcc store ba w sx r) := by
  simp [Panel.bits, Panel.memory, h, Panel.bitsAcc]

/-! ### Loads and stores of the thread's own window -/

/-- A load or store of bytes of the thread's own window waits for its mesh-window accesses to the same bytes, or is performed at the banks
(R182, R183). -/
theorem Panel.word_own (p : Panel) (st sx : Bool) (ea n lc off : Nat) (d : Reg) (hcalm : p.Calm) (hplace : place p p.src ea n = .lm lc off false) :
    p.word st ea n sx d = if p.meshOpen st lc off n = true then p.retry else p.untrack.localAcc (p.wordAcc st ea n sx d) lc off := by
  obtain ⟨⟨hhome, -⟩, hacq⟩ := hcalm
  rw [Panel.word_eq p _ _ _ _ _ hacq, Panel.scalarAcc_own p _ lc off hplace hhome]
  rfl

/-- A load of bytes of the thread's own window (R84, R95). -/
theorem Panel.word_load_own (p : Panel) (ea n lc off : Nat) (sx : Bool) (d : Reg) (hcalm : p.Calm) (hn : 0 < n)
    (hplace : place p p.src ea n = .lm lc off false) (hmesh : p.meshOpen false lc off n = false) :
    p.word false ea n sx d =
      ((p.untrack.updC fun c => c.setG d.toNat
        (if sx then BitVec.ofInt 64 (sgn (8 * n) (Memory.readN p.mem (lmA lc off) n)) else BitVec.ofNat 64 (Memory.readN p.mem (lmA lc off) n))).bankGap
          (wordsTouched off n)).fin := by
  have hv := w64_readItems_one p.untrack.mem lc off 0 (8 * n) sx (by omega)
  rw [Nat.add_zero (8 * lmA lc off), Memory.readBits_bytes, p.untrack_mem] at hv
  rw [Panel.word_own p _ _ _ _ _ _ _ hcalm hplace, if_neg (by simp [hmesh]), ← words_of_bytes off n hn]
  exact p.untrack.localAcc_load (p.wordAcc false ea n sx d) lc off _ rfl hv

/-- What a store to `n` bytes of a core's local memory leaves: the register's low bytes there, every other byte, every register, and the pc behind
the bundle. -/
def StoredBytes (s : State) (d : Reg) (lc off n : Nat) (t : State) : Prop :=
  Memory.readN t.panel.mem (lmA lc off) n = (s.panel.gv d).toNat % 2 ^ (8 * n) ∧ SameBytesBut (lmA lc off) n s t ∧
    t.panel.cc.g = s.panel.cc.g ∧ t.panel.cc.pc = s.panel.fin.cc.pc

/-- A store to bytes of the thread's own window (R84). -/
theorem Panel.word_store_own (s : State) (ea n lc off : Nat) (sx : Bool) (d : Reg) (hcalm : s.panel.Calm) (hn : 0 < n)
    (hplace : place s.panel s.panel.src ea n = .lm lc off false) (hmesh : s.panel.meshOpen true lc off n = false) :
    StoredBytes s d lc off n { s with panel := s.panel.word true ea n sx d } := by
  let p := s.panel
  let x := p.wordAcc true ea n sx d
  have hword : p.word true ea n sx d = p.untrack.localAcc x lc off := by
    rw [Panel.word_own p _ _ _ _ _ _ _ hcalm hplace, if_neg (by simp [p, hmesh])]
  obtain ⟨hmem, hg, hpc⟩ := p.untrack.localAcc_store x lc off rfl (show 0 < 8 * n by omega)
  have hmem' : (p.untrack.localAcc x lc off).mem =
      Memory.writeBits p.mem (8 * lmA lc off + 0) (8 * n) ((p.gv d).toNat % 2 ^ (8 * n)) := hmem
  show _ ∧ (∀ b, _ → _) ∧ _
  rw [hword, hmem', hg, hpc, Panel.cc_untrack, Panel.pc_fin_untrack]
  refine ⟨?_, fun b hb => ?_, rfl, rfl⟩
  · rw [Nat.add_zero, Memory.readN_writeBits_bytes _ _ _ _ hn, Nat.mod_mod]
  · exact Memory.get_writeBits_other _ _ _ _ _ _ (by omega) (by omega)

/-- A bit-granular access to the thread's own window, when none of its mesh-window accesses is open there (R182, R183, R292). -/
theorem Panel.bits_own (p : Panel) (st sx : Bool) (ba w lc off : Nat) (d : Reg) (hcalm : p.Calm)
    (hplace : placeBits p p.src ba w = .lm lc off false) (hmesh : ∀ n, p.meshOpen st lc off n = false) :
    p.bits st ba w sx d = p.untrack.localAcc (p.bitsAcc st ba w sx d) lc off := by
  obtain ⟨⟨hhome, -⟩, hacq⟩ := hcalm
  have hopen : p.meshOpen (p.bitsAcc st ba w sx d).store lc off (p.bitsAcc st ba w sx d).size = false := hmesh _
  rw [Panel.bits_eq p _ _ _ _ _ hacq, Panel.scalarAcc_own p _ lc off hplace hhome, if_neg (by simp [hopen])]

/-- A load of bits of the thread's own window: the register takes the bits at their place in its bytes, and no byte changes (R86). -/
theorem Panel.bits_load_own (p : Panel) (sx : Bool) (ba w lc off : Nat) (d : Reg) (hcalm : p.Calm) (hw : 0 < w) (hw64 : w ≤ 64)
    (hplace : placeBits p p.src ba w = .lm lc off false) (hmesh : ∀ n, p.meshOpen false lc off n = false) :
    let v := Memory.readN p.mem (lmA lc off) 9 / 2 ^ (ba % 8) % 2 ^ w
    (p.bits false ba w sx d).cc.g = (p.cc.setG d.toNat (if sx then BitVec.ofInt 64 (sgn w v) else BitVec.ofNat 64 v)).g ∧
      (p.bits false ba w sx d).mem = p.mem := by
  have hv := w64_readItems_one p.untrack.mem lc off (ba % 8) w sx hw
  rw [Memory.readBits_byte _ _ _ _ (by omega), ← Memory.readN_field _ _ ((ba % 8 + w + 7) / 8) 9 _ _ (by omega) (by omega), p.untrack_mem] at hv
  generalize Memory.readN p.mem (lmA lc off) 9 / 2 ^ (ba % 8) % 2 ^ w = v at hv
  rw [Panel.bits_own p _ _ _ _ _ _ _ hcalm hplace hmesh, p.untrack.localAcc_load (p.bitsAcc false ba w sx d) lc off _ rfl hv]
  obtain ⟨hmem, hg, -⟩ := Panel.bankGap_fin (p.untrack.updC fun c => c.setG d.toNat
    (if sx then BitVec.ofInt 64 (sgn w v) else BitVec.ofNat 64 v)) ((8 * (off % 8) + ba % 8 + w - 1) / 64 + 1)
  refine ⟨hg.trans ?_, hmem⟩
  rw [Panel.cc_updC, Panel.cc_untrack, Ctx.setG, Ctx.setG]
  split
  · rfl
  · rfl

/-- A store of bits to the thread's own window: its bits, every other bit of the bytes it touches, every other byte and every register (R87). -/
theorem Panel.bits_store_own (s : State) (sx : Bool) (ba w lc off : Nat) (d : Reg) (hcalm : s.panel.Calm) (hw : 0 < w)
    (hplace : placeBits s.panel s.panel.src ba w = .lm lc off false) (hmesh : ∀ n, s.panel.meshOpen true lc off n = false) :
    let t : State := { s with panel := s.panel.bits true ba w sx d }
    let n := (ba % 8 + w + 7) / 8
    t.panel.cc.g = s.panel.cc.g ∧ SameBytesBut (lmA lc off) n s t ∧
      ∀ j, j < 8 * n → (Memory.readN t.panel.mem (lmA lc off) n).testBit j =
        if ba % 8 ≤ j ∧ j < ba % 8 + w then ((s.panel.gv d).toNat % 2 ^ w).testBit (j - ba % 8)
        else (Memory.readN s.panel.mem (lmA lc off) n).testBit j := by
  let p := s.panel
  obtain ⟨hmem, hg, -⟩ := p.untrack.localAcc_store (p.bitsAcc true ba w sx d) lc off rfl hw
  have hmem' : (p.untrack.localAcc (p.bitsAcc true ba w sx d) lc off).mem =
      Memory.writeBits p.mem (8 * lmA lc off + ba % 8) w ((p.gv d).toNat % 2 ^ w) := hmem
  rw [← Panel.bits_own p _ _ _ _ _ _ _ hcalm hplace hmesh] at hmem' hg
  rw [Panel.cc_untrack] at hg
  refine ⟨hg, fun b hb => ?_, fun j hj => ?_⟩
  · exact (congrArg (Memory.get · b) hmem').trans (Memory.get_writeBits_other _ _ _ _ _ _ (by omega) hb)
  · show (Memory.readN (p.bits true ba w sx d).mem _ _).testBit j = _
    rw [hmem']
    exact Memory.testBit_writeBits _ _ _ _ _ _ (by omega) hw hj

/-! ### The statement -/

/-- Settles O8: each form is one access of its bytes or bits, which the banks perform. -/
theorem localLoadsAndStores : Obligations.LocalLoadsAndStores := by
  unfold Obligations.LocalLoadsAndStores
  refine ⟨fun s d a b m h hcalm => ⟨?loads, ?ldx, ?ldbt⟩, fun s d a b m h hcalm => ⟨?stores, ?stx, ?stbt⟩⟩
  case loads =>
    intro i n sx hmem lc off hplace
    have hform : (i, n, false, sx) ∈ wordForms d a m := by simpa [wordForms] using hmem
    obtain ⟨hn, hexec⟩ := exec_wordForm s d a m hform
    refine ⟨fun hopen => ?_, fun hopen => ?_⟩
    · rw [hexec, Panel.word_own _ _ _ _ _ _ _ _ hcalm hplace, if_pos hopen]
    · rw [hexec, Panel.word_load_own _ _ _ _ _ _ _ hcalm hn hplace hopen]
  case ldx =>
    intro k hk lc off n hn hplace hopen
    subst hn
    rw [exec_ldx s d a b h k hk, Panel.word_load_own _ _ _ _ _ _ _ hcalm (by positivity) hplace hopen]
    simp only [decide_eq_true_eq]
  case ldbt =>
    intro sx w lc off hplace hopen
    obtain ⟨hg, hmem⟩ := Panel.bits_load_own s.panel (sx == 1) _ _ lc off d hcalm (by omega) (by omega) hplace hopen
    refine ⟨_, rfl, hg.trans ?_, hmem⟩
    simp only [beq_iff_eq]
  case stores =>
    intro i n hmem lc off hplace
    have hform : (i, n, true, false) ∈ wordForms d a m := by simpa [wordForms] using hmem
    obtain ⟨hn, hexec⟩ := exec_wordForm s d a m hform
    refine ⟨fun hopen => ?_, fun hopen => ⟨_, hexec, Panel.word_store_own s _ _ _ _ _ _ hcalm hn hplace hopen⟩⟩
    rw [hexec, Panel.word_own _ _ _ _ _ _ _ _ hcalm hplace, if_pos hopen]
  case stx =>
    intro k lc off n hn hplace hopen
    subst hn
    exact ⟨_, exec_stx s d a b h k, Panel.word_store_own s _ _ _ _ _ _ hcalm (by positivity) hplace hopen⟩
  case stbt =>
    intro w lc off hplace hopen
    obtain ⟨hg, hbytes, hbits⟩ := Panel.bits_store_own s false _ _ lc off d hcalm (by omega) hplace hopen
    have hlen : ((s.panel.gv a).toNat % 8 + (w.toNat + 1) + 7) / 8 = ((s.panel.gv a).toNat % 8 + w.toNat + 8) / 8 := by omega
    rw [hlen] at hbytes hbits
    refine ⟨_, rfl, hg, hbytes, fun j hj => (hbits j hj).trans ?_⟩
    by_cases hin : (s.panel.gv a).toNat % 8 ≤ j ∧ j ≤ (s.panel.gv a).toNat % 8 + w.toNat
    · rw [if_pos hin, if_pos (by omega), Nat.testBit_mod_two_pow, BitVec.testBit_toNat]
      simp [show j - (s.panel.gv a).toNat % 8 < w.toNat + 1 by omega]
    · rw [if_neg hin, if_neg (by omega)]

end Sys2Proof.Machine
end

section
/-! Host and peer accesses (R42-R44): an access of one line at its home slice, its answer, and a peer's request. -/

namespace Sys2Proof.Machine

/-! ### The access table -/

theorem SMap.mem_of_find {α : Type} {m : SMap α} {i : Nat} {x : α} (h : SMap.find m i = some x) : (i, x) ∈ m := by
  induction m with
  | nil => cases h
  | cons e t ih =>
    obtain ⟨k, v⟩ := e
    by_cases hk : k = i
    · simp_all [SMap.find]
    · exact List.mem_cons_of_mem _ (ih (by simpa [SMap.find, hk] using h))

theorem SMap.mem_ins {α : Type} {m : SMap α} {i : Nat} {x : α} {e : Nat × α} (h : e ∈ SMap.ins i x m) : e = (i, x) ∨ e ∈ m := by
  induction m with
  | nil => exact .inl (List.mem_singleton.mp h)
  | cons c t ih =>
    obtain ⟨k, v⟩ := c
    rw [SMap.ins] at h
    split at h
    · exact List.mem_cons.mp h
    · rcases List.mem_cons.mp h with rfl | ht
      · exact .inr List.mem_cons_self
      · exact (ih ht).imp_right (List.mem_cons_of_mem _)

/-- An entry of a table after one was put there is that one, or stood there before. -/
theorem SMap.mem_set {α : Type} {m : SMap α} {i : Nat} {x : α} {e : Nat × α} (h : e ∈ SMap.set m i x) : e = (i, x) ∨ e ∈ m :=
  (SMap.mem_ins h).imp_right List.mem_of_mem_filter

/-- An access of the table changed. -/
theorem Panel.updAcc_eq {p : Panel} {id : Nat} {a : Access} (h : p.acc id = some a) (f : Access → Access) :
    p.updAcc id f = { p with accs := SMap.set p.accs id (f a) } := by
  rw [Panel.updAcc, h]

/-- No access waits for a number that none of the table's accesses names. -/
theorem Panel.unawaited_set {p : Panel} {id : Nat} (h : p.Unawaited id) (i : Nat) {a : Access} (ha : id ∉ a.after) :
    ({ p with accs := SMap.set p.accs i a } : Panel).Unawaited id := by
  intro e he
  rcases SMap.mem_set he with rfl | hmem
  · exact ha
  · exact h e hmem

/-- An access performed for which none waits lets nothing else go on (R183, R186). -/
theorem Panel.performed_unawaited {p : Panel} {id : Nat} {a : Access} (h : p.acc id = some a) (hun : p.Unawaited id) :
    p.performed id = { p with accs := SMap.set p.accs id { a with stage := .performed } } := by
  have hafter : id ∉ a.after := hun _ (SMap.mem_of_find h)
  have hnone := Panel.unawaited_set (a := { a with stage := .performed }) hun id hafter
  rw [Panel.performed, Panel.updAcc_eq h]
  have hws : (((SMap.set p.accs id { a with stage := .performed }).map (·.2)).filter fun x => x.after.contains id) = [] := by
    simp only [List.filter_eq_nil_iff, List.mem_map, List.contains_eq_mem, decide_eq_true_eq]
    rintro x ⟨e, he, rfl⟩
    exact hnone e he
  simp only [hws, List.map_nil, List.foldl_nil]

/-! ### Answers (R42, R44) -/

/-- What a number of a host or peer access of one line names. -/
theorem extPart_one {p : Panel} {id : Nat} {a : Access} {x : Part} (h : p.acc id = some a) (hst : a.stage = .out) (hparts : a.parts = [x])
    (hdone : x.done = false) (hreg : lineRegion x.line ≠ 0) : extPart p (2 * id) = some (a, x) := by
  have hhalf : 2 * id / 2 = id := by omega
  have heven : 2 * id % 2 = 0 := by omega
  simp [extPart, hhalf, heven, h, hst, hparts, hdone, hreg]

/-- What a failed access leaves: an error response that carries the cause, and no byte of memory (R143). -/
def FailedWith (s t : State) (id cause : Nat) : Prop :=
  ∃ y, t.panel.acc id = some y ∧ y.stage = .error ∧ y.err = cause ∧
    (s.panel.now + 10, Instr.errorResponse, [id]) ∈ t.panel.agenda ∧ t.panel.mem = s.panel.mem

theorem Panel.extFail_eq {p : Panel} {id : Nat} {a : Access} (cause : Nat) (h : p.acc id = some a) (hun : p.Unawaited id) :
    p.extFail id cause =
      { p with
        accs := SMap.set (SMap.set p.accs id { a with stage := .performed }) id { a with stage := .error, err := cause }
        agenda := p.agenda ++ [(p.now + 10, .errorResponse, [id])] } := by
  have hacc : ({ p with accs := SMap.set p.accs id { a with stage := .performed } } : Panel).acc id = some { a with stage := .performed } :=
    SMap.find_set_self _ _ _
  rw [Panel.extFail, Panel.performed_unawaited h hun, Panel.updAcc_eq hacc]
  rfl

/-- A thread's access to host or peer memory of one line fails (R42, R44). -/
theorem Panel.extBad_one {p : Panel} {id : Nat} {a : Access} {x : Part} (cause : Nat) (hid : a.id = id)
    (hslot : a.slot < 16) (hext : extPart p (2 * id) = some (a, x)) :
    p.extBad (2 * id) cause = p.extFail id cause := by
  have hstage : a.staging = false := by
    simp only [Access.staging, beq_eq_false_iff_ne]
    omega
  simp [Panel.extBad, hext, hstage, hid, Nat.not_le.mpr hslot]

theorem failedWith_extBad (s : State) {id : Nat} {a : Access} {x : Part} (cause : Nat) (h : s.panel.acc id = some a) (hid : a.id = id)
    (hslot : a.slot < 16) (hun : s.panel.Unawaited id) (hext : extPart s.panel (2 * id) = some (a, x)) :
    FailedWith s { s with panel := s.panel.extBad (2 * id) cause } id cause := by
  rw [Panel.extBad_one cause hid hslot hext, Panel.extFail_eq cause h hun]
  exact ⟨_, SMap.find_set_self _ _ _, rfl, rfl, List.mem_append_right _ (List.mem_singleton_self _), rfl⟩

/-- The hops to an access's home slice do not see the access table. -/
theorem Panel.sliceHops_setAccs (p : Panel) (m : SMap Access) (a : Access) : ({ p with accs := m } : Panel).sliceHops a = p.sliceHops a := rfl

theorem Panel.sliceHops_congr (p : Panel) (a b : Access) {x y : Part} (ha : a.parts = [x]) (hb : b.parts = [y]) (hline : y.line = x.line)
    (hcore : b.core = a.core) (htag : b.btag = a.btag) : p.sliceHops b = p.sliceHops a := by
  simp [Panel.sliceHops, ha, hb, hline, hcore, htag]

/-- The response to a plain load: its load response, and nothing of memory or of the table (R143). -/
theorem respond_load (p : Panel) (a : Access) (hkind : a.kind = .load) (hfill : a.fill = 0) :
    (respond p a).mem = p.mem ∧ (respond p a).accs = p.accs ∧
      (p.now + (10 + 2 * p.sliceHops a), Instr.loadResponse, [a.id]) ∈ (respond p a).agenda := by
  have hresp : respond p a = (p.billAnswer a.id (p.sliceHops a)).later (10 + 2 * p.sliceHops a) .loadResponse [a.id] := by
    simp [respond, hkind, hfill]
  have hbill : (p.billAnswer a.id (p.sliceHops a)).mem = p.mem ∧ (p.billAnswer a.id (p.sliceHops a)).accs = p.accs ∧
      (p.billAnswer a.id (p.sliceHops a)).now = p.now := by
    unfold Panel.billAnswer
    split
    · exact ⟨rfl, rfl, rfl⟩
    · exact ⟨rfl, rfl, rfl⟩
  obtain ⟨hmem, haccs, hnow⟩ := hbill
  rw [hresp, ← hnow]
  exact ⟨hmem, haccs, List.mem_append_right _ (List.mem_singleton_self _)⟩

/-- A load's access of one line with its bytes: they are all that it has got. -/
def Access.got_ (a : Access) (x : Part) (data : Nat) : Access := { a with got := data % 2 ^ (8 * x.len), parts := [{ x with done := true }] }

/-- The answer to a load of one line of host or peer memory performs it, and its response follows (R42, R44). -/
theorem Panel.extDone_load {p : Panel} {a : Access} {x : Part} (data : Nat) (h : p.acc a.id = some a) (hslot : a.slot < 16)
    (hext : extPart p (2 * a.id) = some (a, x)) (hparts : a.parts = [x]) (hpos : x.pos = 0) (hfill : a.fill = 0)
    (hgot : a.got = 0) (hlen : 0 < x.len) :
    p.extDone (2 * a.id) data =
      respond (({ p with accs := SMap.set p.accs a.id (a.got_ x data) } : Panel).performed a.id) (a.got_ x data) := by
  have hstage : ¬ a.staging = true := by
    simp only [Access.staging, beq_iff_eq]
    omega
  have hbytes : putBits a.got (8 * (x.pos + x.len) - 1) (8 * x.pos) (data % 2 ^ (8 * x.len)) = data % 2 ^ (8 * x.len) := by
    have hput := putBits_zero (8 * x.len) (data % 2 ^ (8 * x.len)) (by omega)
    rw [Nat.mod_mod, Nat.zero_add] at hput
    rw [hgot, hpos, Nat.zero_add, Nat.mul_zero, hput]
  have heven : 2 * a.id % 2 = 0 := by omega
  rw [Panel.extDone, hext]
  dsimp only
  rw [if_neg hstage, if_neg (by omega), Panel.updAcc_eq h]
  simp only [Panel.acc, SMap.find_set_self, hbytes, heven, hparts, if_neg (show ¬ a.fill = 4 by omega)]
  rfl

/-- A load of one line of host or peer memory is answered with its bytes. -/
theorem extDone_answers (s : State) {a : Access} {x : Part} (data : Nat) (h : s.panel.acc a.id = some a)
    (hslot : a.slot < 16) (hun : s.panel.Unawaited a.id) (hext : extPart s.panel (2 * a.id) = some (a, x)) (hparts : a.parts = [x])
    (hpos : x.pos = 0) (hkind : a.kind = .load) (hfill : a.fill = 0) (hgot : a.got = 0) (hlen : 0 < x.len) :
    let q := s.panel.extDone (2 * a.id) data
    ∃ y, q.acc a.id = some y ∧ y.stage = .performed ∧ y.got = data % 2 ^ (8 * x.len) ∧
      (s.panel.now + (10 + 2 * s.panel.sliceHops a), Instr.loadResponse, [a.id]) ∈ q.agenda ∧ q.mem = s.panel.mem := by
  let b := a.got_ x data
  let m := SMap.set s.panel.accs a.id b
  let r : Panel := { s.panel with accs := SMap.set m a.id { b with stage := .performed } }
  have hacc : ({ s.panel with accs := m } : Panel).acc a.id = some b := SMap.find_set_self _ _ _
  have hperf : ({ s.panel with accs := m } : Panel).performed a.id = r :=
    Panel.performed_unawaited hacc (Panel.unawaited_set hun a.id (hun _ (SMap.mem_of_find h)))
  obtain ⟨hmem, haccs, hlater⟩ := respond_load r b hkind hfill
  have hhops : r.sliceHops b = s.panel.sliceHops a :=
    (Panel.sliceHops_setAccs _ _ _).trans (Panel.sliceHops_congr _ a b hparts rfl rfl rfl rfl)
  rw [hhops] at hlater
  rw [Panel.extDone_load data h hslot hext hparts hpos hfill hgot hlen, hperf]
  refine ⟨{ b with stage := .performed }, ?_, rfl, rfl, hlater, hmem⟩
  rw [Panel.acc, haccs]
  exact SMap.find_set_self _ _ _

/-! ### The events (R42, R44) -/

/-- The completion of a host access and the response of a peer answer an access with its bytes, or fail it with their cause. -/
theorem exec_extAnswer (s : State) {i : Instr} {cause : Nat} (h : (i, cause) ∈ [(Instr.hostCompletion, 0x35), (.peerResponse, 0x36)]) :
    exec i s = s.to
      (if s.panel.arg 1 = 1 then s.panel.extDone (s.panel.arg 0) (s.panel.arg 2) else s.panel.extBad (s.panel.arg 0) cause) := by
  simp only [List.mem_cons, Prod.mk.injEq, List.not_mem_nil, or_false] at h
  rcases h with ⟨rfl, rfl⟩ | ⟨rfl, rfl⟩
  · rfl
  · rfl

/-- What goes out to an endpoint for a line of a host access (R42). -/
def hostOut (p : Panel) (n : Nat) (a : Access) (x : Part) : Out :=
  let at_ := p.hostBase.getD (bf x.pa 47 47) 0 + bf x.pa 46 0
  if needOf a.kind = 2 then .pcieWrite (bf x.pa 47 47) n at_ x.len (a.data >>> (8 * x.pos) % 2 ^ (8 * x.len))
  else .pcieRead (bf x.pa 47 47) n at_ x.len

theorem exec_hostRegionAccess (s : State) {n : Nat} {a : Access} {x : Part} (hev : s.panel.ev = [n]) (hext : extPart s.panel n = some (a, x))
    (hreg : lineRegion x.line = 2) :
    exec .hostRegionAccess s = s.to
      (if s.panel.hostLimit.getD (bf x.pa 47 47) 0 < bf x.pa 46 0 + x.len then s.panel.extBad n 0x35
        else { s.panel with outbox := s.panel.outbox ++ [hostOut s.panel n a x] }) := by
  have harg : s.panel.arg 0 = n := by simp [Panel.arg, hev]
  show execHostRegionAccess s = _
  simp only [execHostRegionAccess, onPanel, harg, hext, hreg, ne_eq, not_true_eq_false, if_false]
  rfl

/-! ### A line at its home slice for the front end (R137, R142, R143) -/

@[simp] theorem Panel.slice_updSlice_self (p : Panel) (sc : Nat) (f : Slice → Slice) : (p.updSlice sc f).slice sc = f (p.slice sc) := by
  simp [Panel.slice, Panel.updSlice]

/-- Nothing waits at a slice, and nothing is on its way to it (R122, R123). -/
def Slice.Idle (k : Slice) : Prop := k.mshr = [] ∧ k.ing = [] ∧ k.vc = []

/-- At an idle slice only the count of demand requests moves before an access of the front end (R436). -/
theorem Panel.settled_idle (p : Panel) (sc : Nat) (h : (p.slice sc).Idle) : p.settled sc = p.updSlice sc fun s => { s with demand := s.demand + 1 } := by
  obtain ⟨hmshr, hing, hvc⟩ := h
  simp only [Panel.settled, hmshr, hing, hvc, List.length_nil, Nat.mul_zero, Nat.add_zero, Panel.settleSlice]

/-- A line without errors is sound where it is read (R140). -/
theorem Panel.l2Check_sound (p : Panel) (sc line : Nat) (h : SMap.find (p.slice sc).soft line = none) : p.l2Check sc line = p := by
  rw [Panel.l2Check, h]

theorem l2Find_line {k : Slice} {line : Nat} {l : L2Line} (h : l2Find k line = some l) : l.line = line := by
  simpa using List.find?_some h

/-- A line that becomes the most recently used of its slice stays what it is. -/
theorem Panel.l2Find_touch (p : Panel) (sc line : Nat) (l : L2Line) (h : l2Find (p.slice sc) line = some l) :
    l2Find ((p.touch sc line).slice sc) line = some l := by
  have hline := l2Find_line h
  have hgone : ((p.slice sc).lines.filter fun x => x.line != line).find? (fun x => x.line == line) = none := by
    simp
  rw [Panel.touch, h, Panel.slice_updSlice_self, l2Find, List.find?_append, hgone]
  simp [hline]

/-- A line written at its slice (R142, R143). -/
theorem Panel.l2Find_setLine (p : Panel) (sc line : Nat) (whole : Bool) (f : Line → Line) (l : L2Line) (h : l2Find (p.slice sc) line = some l) :
    l2Find ((p.setLine sc line whole f).slice sc) line = some { l with data := f l.data, dirty := true, poison := l.poison && !whole } := by
  let g := fun x : L2Line => if x.line == line then { x with data := f x.data, dirty := true, poison := x.poison && !whole } else x
  have hg (x : L2Line) : (g x).line = x.line := by
    simp only [g]
    split
    · rfl
    · rfl
  have hmap : l2Find ((p.setLine sc line whole f).slice sc) line = (l2Find (p.slice sc) line).map g := by
    rw [Panel.setLine, Panel.slice_updSlice_self, l2Find, List.find?_map, l2Find,
      show ((fun x : L2Line => x.line == line) ∘ g) = fun x => x.line == line from funext fun x => congrArg (· == line) (hg x)]
  rw [hmap, h, Option.map_some]
  simp [g, l2Find_line h]

/-- What an access of the front end to a line that its home slice holds, sound and under its key, starts from: the line, with memory, the tables and
what has gone out as they were. -/
theorem Panel.settled_hit (p : Panel) (sc line : Nat) (l : L2Line) (hidle : (p.slice sc).Idle) (hsoft : SMap.find (p.slice sc).soft line = none)
    (hfind : l2Find (p.slice sc) line = some l) :
    (p.settled sc).l2Check sc line = p.updSlice sc (fun s => { s with demand := s.demand + 1 }) ∧
      l2Find ((p.updSlice sc fun s => { s with demand := s.demand + 1 }).slice sc) line = some l := by
  have hsoft' : SMap.find ((p.updSlice sc fun s => { s with demand := s.demand + 1 }).slice sc).soft line = none := by
    rw [Panel.slice_updSlice_self]
    exact hsoft
  rw [Panel.settled_idle p sc hidle, Panel.l2Check_sound _ _ _ hsoft', Panel.slice_updSlice_self]
  exact ⟨rfl, hfind⟩

theorem Panel.touch_frame (p : Panel) (sc line : Nat) :
    (p.touch sc line).mem = p.mem ∧ (p.touch sc line).outbox = p.outbox ∧ (p.touch sc line).parts = p.parts := by
  unfold Panel.touch
  split
  · exact ⟨rfl, rfl, rfl⟩
  · exact ⟨rfl, rfl, rfl⟩

/-- A read by the front end of a line that its home slice holds. -/
theorem Panel.engineRead_hit (p : Panel) (q : Partition) (line key : Nat) (l : L2Line) (htag : (p.slice (homeSlice q line)).tagBad = false)
    (hidle : (p.slice (homeSlice q line)).Idle) (hsoft : SMap.find (p.slice (homeSlice q line)).soft line = none)
    (hfind : l2Find (p.slice (homeSlice q line)) line = some l) (hkey : l.key = key) (hpoison : l.poison = false) :
    ∃ r, p.engineRead q line key = .ok (l.data, r) ∧ r.mem = p.mem ∧ r.outbox = p.outbox ∧ l2Find (r.slice (homeSlice q line)) line = some l := by
  obtain ⟨hset, hhit⟩ := p.settled_hit (homeSlice q line) line l hidle hsoft hfind
  obtain ⟨hmem, hout, -⟩ := (p.updSlice (homeSlice q line) fun s => { s with demand := s.demand + 1 }).touch_frame (homeSlice q line) line
  refine ⟨_, ?_, hmem, hout, Panel.l2Find_touch _ _ _ _ hhit⟩
  simp only [Panel.engineRead, htag, Bool.false_eq_true, if_false, hset, hhit, hkey, hpoison, ne_eq, not_true_eq_false]

/-- A write by the front end to a line that its home slice holds, outside route blocks and queue control blocks. -/
theorem Panel.engineWrite_hit (p : Panel) (q : Partition) (line key off n v : Nat) (l : L2Line) (htag : (p.slice (homeSlice q line)).tagBad = false)
    (hidle : (p.slice (homeSlice q line)).Idle) (hsoft : SMap.find (p.slice (homeSlice q line)).soft line = none)
    (hfind : l2Find (p.slice (homeSlice q line)) line = some l) (hkey : l.key = key) (hpoison : l.poison = false)
    (hroute : p.routeLine line = none) (hwatch : p.watched line = none) :
    ∃ r, p.engineWrite q line key off n v = .ok r ∧ r.mem = p.mem ∧ r.outbox = p.outbox ∧
      l2Find (r.slice (homeSlice q line)) line = some { l with data := lineWrite l.data off n v, dirty := true } := by
  let p1 := (p.updSlice (homeSlice q line) fun s => { s with demand := s.demand + 1 }).touch (homeSlice q line) line
  obtain ⟨hset, hhit⟩ := p.settled_hit (homeSlice q line) line l hidle hsoft hfind
  obtain ⟨hmem, hout, hparts⟩ := (p.updSlice (homeSlice q line) fun s => { s with demand := s.demand + 1 }).touch_frame (homeSlice q line) line
  have hroute' : p1.routeLine line = none := by rwa [Panel.routeLine, hparts]
  have hwatch' : p1.watched line = none := by rwa [Panel.watched, hparts]
  have hput : p1.slicePut (homeSlice q line) line off n v false = p1.setLine (homeSlice q line) line (n == 64) fun d => lineWrite d off n v := by
    rw [Panel.slicePut, hroute', hwatch']
  have hwrite : p.engineWrite q line key off n v = .ok (p1.setLine (homeSlice q line) line (n == 64) fun d => lineWrite d off n v) := by
    simp only [Panel.engineWrite, Panel.withLine, htag, Bool.false_eq_true, if_false, hset, hhit, hkey, ne_eq, not_true_eq_false]
    exact congrArg _ hput
  have hline := Panel.l2Find_setLine p1 _ _ (n == 64) (fun d => lineWrite d off n v) l (Panel.l2Find_touch _ _ _ _ hhit)
  rw [hpoison, Bool.false_and, ← hpoison] at hline
  exact ⟨_, hwrite, hmem, hout, hline⟩

/-! ### A peer's request (R44) -/

/-- A refused request: a negative response and nothing else. -/
theorem exec_peerRequest_refused (s : State) {panel rpart off op data mypart n : Nat} (hev : s.panel.ev = [panel, rpart, off, op, data, mypart, n])
    (hbad : peerOk (s.panel.part rpart) panel mypart off n = false) :
    exec .peerRequest s = s.to { s.panel with outbox := s.panel.outbox ++ [.peerAnswer panel false 0] } := by
  show execPeerRequest s = _
  simp only [execPeerRequest, onPanel, Panel.arg, hev, List.getD_cons_zero, List.getD_cons_succ, hbad, Bool.not_false, or_true, if_true]
  rfl

/-- An admitted request that is performed: its answer goes out. -/
theorem exec_peerRequest_done (s : State) {panel rpart off op data mypart n d : Nat} {r : Panel}
    (hev : s.panel.ev = [panel, rpart, off, op, data, mypart, n]) (hn : 0 < n) (hn64 : n ≤ 64)
    (hok : peerOk (s.panel.part rpart) panel mypart off n = true)
    (hdo : s.panel.peerDo (s.panel.part rpart) off n op data = .ok (d, r)) :
    exec .peerRequest s = s.to { r with outbox := r.outbox ++ [.peerAnswer panel true d] } := by
  have hgo : ¬ (n = 0 ∨ 64 < n ∨ false = true) := by simp; omega
  show execPeerRequest s = _
  simp only [execPeerRequest, onPanel, Panel.arg, hev, List.getD_cons_zero, List.getD_cons_succ, hok, Bool.not_true, hgo, if_false, hdo]
  rfl

/-- Bytes of one line are one piece of an access. -/
theorem piecesOf_one (va n : Nat) (hn : 0 < n) (hfit : va % 64 + n ≤ 64) : piecesOf va n = [⟨va / 64, va % 64, n, 0, 0, false, 0⟩] :=
  splitLines_one va n hn hfit

/-- The line of a peer's request stands sound at its idle home slice under its frame's key (log 17). -/
structure HeldAt (p : Panel) (q : Partition) (line : Nat) (l : L2Line) : Prop where
  tagsGood : (p.slice (homeSlice q line)).tagBad = false
  idle : (p.slice (homeSlice q line)).Idle
  sound : SMap.find (p.slice (homeSlice q line)).soft line = none
  found : l2Find (p.slice (homeSlice q line)) line = some l
  key : l.key = ownKey p line
  clean : l.poison = false

/-- A peer's read within a held line brings its bytes. -/
theorem Panel.peerDo_read {p : Panel} {q : Partition} {off n : Nat} {l : L2Line} (data : Nat) (hn : 0 < n) (hfit : off % 64 + n ≤ 64)
    (h : HeldAt p q (off / 64) l) :
    ∃ r, p.peerDo q off n 0 data = .ok (bf l.data.toNat (8 * (off % 64 + n) - 1) (8 * (off % 64)), r) ∧ r.mem = p.mem ∧ r.outbox = p.outbox ∧
      l2Find (r.slice (homeSlice q (off / 64))) (off / 64) = some l := by
  obtain ⟨r, hread, hmem, hout, hline⟩ := p.engineRead_hit q _ _ l h.tagsGood h.idle h.sound h.found h.key h.clean
  have hput : putBits 0 (8 * (0 + n) - 1) (8 * 0) (bf l.data.toNat (8 * (off % 64 + n) - 1) (8 * (off % 64))) =
      bf l.data.toNat (8 * (off % 64 + n) - 1) (8 * (off % 64)) := by
    have hlow := putBits_zero (8 * n) (bf l.data.toNat (8 * (off % 64 + n) - 1) (8 * (off % 64))) (by omega)
    rw [bf_bytes _ _ _ hn, ← pow_256, Nat.mod_mod, Nat.zero_add] at hlow
    rw [bf_bytes _ _ _ hn, Nat.zero_add, Nat.mul_zero, hlow]
  refine ⟨r, ?_, hmem, hout, hline⟩
  simp only [Panel.peerDo, if_true, piecesOf_one off n hn hfit, Panel.peerRead, hread, hput]

/-- A peer's write within a held line, outside route blocks and queue control blocks, puts its bytes there. -/
theorem Panel.peerDo_write {p : Panel} {q : Partition} {off n : Nat} {l : L2Line} (data : Nat) (hn : 0 < n) (hfit : off % 64 + n ≤ 64)
    (h : HeldAt p q (off / 64) l) (hroute : p.routeLine (off / 64) = none) (hwatch : p.watched (off / 64) = none) :
    ∃ r, p.peerDo q off n 1 data = .ok (0, r) ∧ r.mem = p.mem ∧ r.outbox = p.outbox ∧
      l2Find (r.slice (homeSlice q (off / 64))) (off / 64) =
        some { l with data := lineWrite l.data (off % 64) n (data % 2 ^ (8 * n)), dirty := true } := by
  obtain ⟨r, hwrite, hmem, hout, hline⟩ := p.engineWrite_hit q _ _ (off % 64) n (data % 2 ^ (8 * n)) l h.tagsGood h.idle h.sound h.found h.key
    h.clean hroute hwatch
  refine ⟨r, ?_, hmem, hout, hline⟩
  simp only [Panel.peerDo, Nat.one_ne_zero, if_false, if_true, piecesOf_one off n hn hfit, Panel.peerWrite, Nat.mul_zero, Nat.shiftRight_zero,
    hwrite]
  rfl

/-! ### The statement -/

/-- Settles O36: the events of a thread's access of one line from what its number names, a peer's request from the line at its home slice. -/
theorem externalAccesses : Obligations.ExternalAccesses := by
  unfold Obligations.ExternalAccesses
  intro s id data a x
  refine ⟨fun hacc hid hst hslot hparts hdone hpos hun => ?thread, fun panel rpart off op mypart n hev => ⟨fun hbad => ?refused, ?held⟩⟩
  case thread =>
    subst hid
    have hext (hreg : lineRegion x.line ≠ 0) := extPart_one hacc hst hparts hdone hreg
    have hfails (cause : Nat) (hreg : lineRegion x.line ≠ 0) := failedWith_extBad s cause hacc rfl hslot hun (hext hreg)
    refine ⟨fun hev hreg hbelow => ?out, fun hev hreg habove => ?beyond, fun i cause hi hreg => ⟨fun hev hkind hfill hgot hlen => ?answer, fun hev => ?fail⟩⟩
    case out =>
      have hexec := exec_hostRegionAccess s hev (hext (by omega)) hreg
      rw [if_neg (by omega)] at hexec
      refine ⟨fun hkind => ?_, fun hkind => ?_⟩
      · rw [hexec, hostOut, hkind, if_neg (by decide)]
      · rw [hexec, hostOut, hkind, if_pos (by decide), hpos, Nat.mul_zero, Nat.shiftRight_zero]
    case beyond =>
      have hexec := exec_hostRegionAccess s hev (hext (by omega)) hreg
      rw [if_pos habove] at hexec
      obtain ⟨y, hy⟩ := hfails 0x35 (by omega)
      exact ⟨_, y, hexec, hy⟩
    case answer =>
      have hexec := exec_extAnswer s hi
      simp only [Panel.arg, hev, List.getD_cons_zero, List.getD_cons_succ, if_true] at hexec
      obtain ⟨y, hy⟩ := extDone_answers s data hacc hslot hun (hext hreg) hparts hpos hkind hfill hgot hlen
      exact ⟨_, y, hexec, hy⟩
    case fail =>
      have hexec := exec_extAnswer s hi
      simp only [Panel.arg, hev, List.getD_cons_zero, List.getD_cons_succ, Nat.zero_ne_one, if_false] at hexec
      obtain ⟨y, hy⟩ := hfails cause hreg
      exact ⟨_, y, hexec, hy⟩
  case refused => exact exec_peerRequest_refused s hev hbad
  case held =>
    intro l hn hfit hok htag hmshr hing hvc hsoft hfind hkey hpoison
    have hheld : HeldAt s.panel (s.panel.part rpart) (off / 64) l := ⟨htag, ⟨hmshr, hing, hvc⟩, hsoft, hfind, hkey, hpoison⟩
    refine ⟨fun hop => ?_, fun hop hroute hwatch => ?_⟩
    · subst hop
      obtain ⟨r, hdo, hmem, hout, hline⟩ := Panel.peerDo_read data hn hfit hheld
      exact ⟨_, exec_peerRequest_done s hev hn (by omega) hok hdo, hmem, by rw [hout], hline⟩
    · subst hop
      obtain ⟨r, hdo, hmem, hout, hline⟩ := Panel.peerDo_write data hn hfit hheld hroute hwatch
      exact ⟨_, exec_peerRequest_done s hev hn (by omega) hok hdo, hmem, by rw [hout], hline⟩

end Sys2Proof.Machine
end

section
/-! Scalar accesses outside the thread's own window (R28-R36, R97, R108, R263): what an access that leaves its core keeps, and what each place makes
of a load or store. -/

namespace Sys2Proof.Machine

/-! ### An access on its way -/

/-- An access is still the one that was issued: its issuer, kind, bytes and destination (R167). -/
structure Access.Same (a b : Access) : Prop where
  core : b.core = a.core
  slot : b.slot = a.slot
  btag : b.btag = a.btag
  kind : b.kind = a.kind
  va : b.va = a.va
  size : b.size = a.size
  dest : b.dest = a.dest
  items : b.items = a.items

theorem Access.Same.refl (a : Access) : a.Same a := ⟨rfl, rfl, rfl, rfl, rfl, rfl, rfl, rfl⟩

/-- At another stage it is the same access. -/
theorem Access.Same.stage (a : Access) (st : AStage) : a.Same { a with stage := st } := ⟨rfl, rfl, rfl, rfl, rfl, rfl, rfl, rfl⟩

/-- So it is with other bytes written around it. -/
theorem Access.Same.patch (a : Access) (x : List (Nat × Nat × Nat × Nat)) : a.Same { a with patch := x } :=
  ⟨rfl, rfl, rfl, rfl, rfl, rfl, rfl, rfl⟩

theorem Access.Same.trans {a b c : Access} (hab : a.Same b) (hbc : b.Same c) : a.Same c :=
  ⟨hbc.core.trans hab.core, hbc.slot.trans hab.slot, hbc.btag.trans hab.btag, hbc.kind.trans hab.kind, hbc.va.trans hab.va,
    hbc.size.trans hab.size, hbc.dest.trans hab.dest, hbc.items.trans hab.items⟩

/-- From one panel to another only requests and packets have moved: every byte, every thread and every access of the table stands. -/
structure Panel.Onward (p q : Panel) : Prop where
  mem : q.mem = p.mem
  cur : q.cur = p.cur
  ctx : ∀ lc slot, q.ctx lc slot = p.ctx lc slot
  accs : ∀ id a, p.acc id = some a → ∃ b, q.acc id = some b ∧ a.Same b

namespace Panel.Onward

theorem refl (p : Panel) : p.Onward p := ⟨rfl, rfl, fun _ _ => rfl, fun _ a h => ⟨a, h, .refl a⟩⟩

theorem trans {p q r : Panel} (hpq : p.Onward q) (hqr : q.Onward r) : p.Onward r := by
  refine ⟨hqr.mem.trans hpq.mem, hqr.cur.trans hpq.cur, fun lc slot => (hqr.ctx lc slot).trans (hpq.ctx lc slot), fun id a h => ?_⟩
  obtain ⟨b, hb, hab⟩ := hpq.accs id a h
  obtain ⟨c, hc, hbc⟩ := hqr.accs id b hb
  exact ⟨c, hc, hab.trans hbc⟩

/-- Where the access table is the same, nothing has happened to its accesses. -/
theorem of_accs {p q : Panel} (hmem : q.mem = p.mem) (hcur : q.cur = p.cur) (hctx : ∀ lc slot, q.ctx lc slot = p.ctx lc slot)
    (haccs : q.accs = p.accs) : p.Onward q :=
  ⟨hmem, hcur, hctx, fun id a h => ⟨a, by rwa [Panel.acc, haccs], .refl a⟩⟩

theorem cc {p q : Panel} (h : p.Onward q) : q.cc = p.cc := by
  rw [Panel.cc, h.cur, h.ctx]
  rfl

end Panel.Onward

theorem Panel.onward_later (p : Panel) (d : Nat) (e : Instr) (args : List Nat) : p.Onward (p.later d e args) :=
  .of_accs rfl rfl (fun _ _ => rfl) rfl

theorem Panel.onward_updCluster (p : Panel) (cl : Nat) (f : Cluster → Cluster) : p.Onward (p.updCluster cl f) :=
  .of_accs rfl rfl (fun _ _ => rfl) rfl

theorem Panel.onward_updSlice (p : Panel) (sc : Nat) (f : Slice → Slice) : p.Onward (p.updSlice sc f) :=
  .of_accs rfl rfl (fun _ _ => rfl) rfl

theorem Panel.onward_updCore (p : Panel) (lc : Nat) (f : Core → Core) (hf : ∀ c, (f c).ctxs = c.ctxs) : p.Onward (p.updCore lc f) :=
  .of_accs rfl rfl (fun lc' slot => Panel.ctx_updCore p lc lc' slot f hf) rfl

theorem Panel.onward_updAcc (p : Panel) (id : Nat) (f : Access → Access) (hf : ∀ a : Access, a.Same (f a)) : p.Onward (p.updAcc id f) := by
  cases h : p.acc id with
  | none =>
    rw [Panel.updAcc, h]
    exact .refl p
  | some x =>
    rw [Panel.updAcc_eq h]
    refine ⟨rfl, rfl, fun _ _ => rfl, fun j a hj => ?_⟩
    by_cases hij : id = j
    · subst hij
      obtain rfl : a = x := Option.some.inj (hj.symm.trans h)
      exact ⟨f a, SMap.find_set_self _ _ _, hf a⟩
    · exact ⟨a, (SMap.find_set_other _ _ _ _ hij).trans hj, .refl a⟩

/-! ### Packets (R94, R475, R488) -/

theorem Panel.onward_requestCkpt (p : Panel) (lc : Nat) : p.Onward (p.requestCkpt lc) := by
  unfold Panel.requestCkpt
  split
  · exact .refl p
  · refine (p.onward_updCore lc _ ?_).trans (Panel.onward_later ..)
    exact fun _ => rfl

theorem Panel.onward_inject (p : Panel) (to_ : Nat) (k : Packet) (tree : Bool) : p.Onward (p.inject to_ k tree) := by
  have hat (h : Nat) : p.Onward (p.injectAt to_ h k) := by
    refine (p.onward_updCore to_ _ ?_).trans (Panel.onward_later ..)
    exact fun _ => rfl
  unfold Panel.inject
  split
  · exact hat _
  · refine (hat _).trans (Panel.onward_updCore _ _ _ ?_)
    exact fun _ => rfl

/-- A packet sent moves nothing but the network and the sender's log. -/
theorem Panel.onward_send (p : Panel) (from_ to_ : Nat) (x : Pay) : p.Onward (p.send from_ to_ x) := by
  unfold Panel.send Panel.sendOn
  split
  · dsimp only
    generalize hlog : p.updCore from_ _ = p1
    have hlogged : p.Onward p1 := by
      rw [← hlog]
      exact p.onward_updCore from_ _ fun _ => rfl
    refine .trans ?_ (Panel.onward_inject ..)
    split
    · split
      · exact hlogged.trans (Panel.onward_requestCkpt ..)
      · exact hlogged
    · exact hlogged
  · exact Panel.onward_inject ..

/-! ### Page walks (R151-R154) -/

theorem Panel.onward_updWalkEnt (p : Panel) (cl num : Nat) (f : TlbWalk → TlbWalk) : p.Onward (p.updWalkEnt cl num f) :=
  p.onward_updCluster cl _

theorem Panel.onward_walkRead (p : Panel) (cl : Nat) (w : TlbWalk) (level table d : Nat) : p.Onward (p.walkRead cl w level table d) :=
  ((p.onward_updWalkEnt cl w.num _).trans (Panel.onward_updSlice ..)).trans (Panel.onward_later ..)

theorem Panel.onward_walkEnd (p : Panel) (cl num d : Nat) (r : WalkR) : p.Onward (p.walkEnd cl num d r) :=
  (p.onward_updWalkEnt cl num _).trans (Panel.onward_later ..)

theorem Panel.onward_walkStart (p : Panel) (cl : Nat) (w : TlbWalk) : p.Onward (p.walkStart cl w) := by
  unfold Panel.walkStart
  dsimp only
  split
  · exact p.onward_walkEnd ..
  · exact p.onward_walkRead ..
  · exact p.onward_walkRead ..
  · split
    · exact p.onward_walkRead ..
    · exact p.onward_walkEnd ..

theorem Panel.onward_walkers (p : Panel) (cl k : Nat) : p.Onward (p.walkers cl k) := by
  induction k generalizing p with
  | zero => exact .refl p
  | succ k ih =>
    unfold Panel.walkers
    dsimp only
    split
    · exact .refl p
    · split
      · exact (p.onward_walkStart cl _).trans (ih _)
      · exact .refl p

/-- A page that enters the walk table moves only its cluster, and requests to slices. -/
theorem Panel.onward_walkFor (p : Panel) (cl part asid vpn core : Nat) (ids engs : List Nat) :
    p.Onward (p.walkFor cl part asid vpn core ids engs) :=
  (p.onward_updCluster cl _).trans (Panel.onward_walkers ..)

/-! ### The way out of a core (R108, R167) -/

theorem Panel.onward_dispatchMesh (p : Panel) (a : Access) : p.Onward (p.dispatchMesh a) :=
  (p.onward_updAcc a.id _ fun a => .stage a .out).trans (Panel.onward_send ..)

theorem mem_pagesOf (a : Access) : a.va / 65536 ∈ pagesOf a := by
  simp only [pagesOf, upto, List.mem_map, List.mem_range]
  exact ⟨0, by omega, by omega⟩

/-- An access whose first page no TLB entry holds and no L1 line stands for waits for a walk (R108, R151, R154). -/
theorem Panel.onward_tlbTry_miss (p : Panel) (id : Nat) (a : Access) (ha : p.acc id = some a) (hl1 : l1Tlb p a = [])
    (htlb : tlbFind (p.cluster (clusterOf a.core)) (p.block a.btag).part (p.block a.btag).asid (a.va / 65536) = none) :
    p.Onward (p.tlbTry id) := by
  have hwait : p.Onward (p.updAcc id fun a => { a with stage := .tlb }) := p.onward_updAcc id _ fun a => .stage a .tlb
  unfold Panel.tlbTry
  simp only [ha, hl1, List.find?_nil]
  split
  · exact .refl p
  · split
    next v t hfirst =>
      split
      · split
        · exact hwait
        · exact hwait.trans (Panel.onward_updWalkEnt ..)
      · split
        · exact hwait
        · exact hwait.trans (Panel.onward_walkFor ..)
    next hall =>
      have hpage := List.find?_eq_none.mp hall (a.va / 65536, _) (List.mem_map_of_mem (mem_pagesOf a))
      simp [htlb] at hpage

/-- A mesh-window access that enters the table waits behind others or goes its way. -/
theorem Panel.onward_dispatch_mesh (p : Panel) (id : Nat) (a : Access) (ha : p.acc id = some a) (hitems : a.items ≠ []) :
    p.Onward (p.dispatch id) := by
  unfold Panel.dispatch
  simp only [ha, hitems, if_false]
  split
  · exact p.onward_dispatchMesh a
  · exact .refl p

/-- So does a paged access that misses. -/
theorem Panel.onward_dispatch_miss (p : Panel) (id : Nat) (a : Access) (ha : p.acc id = some a) (hitems : a.items = []) (hl1 : l1Tlb p a = [])
    (htlb : tlbFind (p.cluster (clusterOf a.core)) (p.block a.btag).part (p.block a.btag).asid (a.va / 65536) = none) :
    p.Onward (p.dispatch id) := by
  unfold Panel.dispatch
  simp only [ha, hitems, if_true]
  split
  · exact p.onward_tlbTry_miss id a ha hl1 htlb
  · exact .refl p

/-! ### What a translation is looked up in (R108, R114, R154) -/

/-- Two panels have the same TLBs and L1 data caches, for the same blocks. -/
def Panel.SameCaches (p q : Panel) : Prop := q.clusters = p.clusters ∧ q.blocks = p.blocks ∧ ∀ lc, (q.core lc).l1d = (p.core lc).l1d

namespace Panel.SameCaches

theorem refl (p : Panel) : p.SameCaches p := ⟨rfl, rfl, fun _ => rfl⟩

theorem trans {p q r : Panel} (hpq : p.SameCaches q) (hqr : q.SameCaches r) : p.SameCaches r := by
  obtain ⟨hc, hb, hl⟩ := hpq
  obtain ⟨hc', hb', hl'⟩ := hqr
  exact ⟨hc'.trans hc, hb'.trans hb, fun lc => (hl' lc).trans (hl lc)⟩

theorem cluster {p q : Panel} (h : p.SameCaches q) (cl : Nat) : q.cluster cl = p.cluster cl := by
  rw [Panel.cluster, h.1, Panel.cluster]

theorem block {p q : Panel} (h : p.SameCaches q) (tag : Nat) : q.block tag = p.block tag := by
  rw [Panel.block, h.2.1, Panel.block]

theorem l1d {p q : Panel} (h : p.SameCaches q) (lc va : Nat) : (q.core (l1Core q lc va)).l1d = (p.core (l1Core p lc va)).l1d := by
  rw [h.2.2, l1Core, h.cluster, l1Core]

end Panel.SameCaches

theorem Panel.sameCaches_updC (p : Panel) (f : Ctx → Ctx) : p.SameCaches (p.updC f) := by
  refine ⟨rfl, rfl, fun lc => ?_⟩
  rw [Panel.updC, Panel.core_updCtx]

theorem Panel.sameCaches_updCore (p : Panel) (lc : Nat) (f : Core → Core) (hf : ∀ c, (f c).l1d = c.l1d) : p.SameCaches (p.updCore lc f) := by
  refine ⟨rfl, rfl, fun lc' => ?_⟩
  by_cases h : lc = lc'
  · subst h
    rw [Panel.core_updCore_self, hf]
  · rw [Panel.core_updCore_other p lc lc' f h]

theorem Panel.sameCaches_fin (p : Panel) : p.SameCaches p.fin := by
  unfold Panel.fin
  split
  · exact .refl p
  · exact p.sameCaches_updC _

theorem Panel.sameCaches_updAcc (p : Panel) (id : Nat) (f : Access → Access) : p.SameCaches (p.updAcc id f) := by
  unfold Panel.updAcc
  split
  · exact .refl p
  · exact .refl p

/-- The first piece of an access holds its first byte. -/
theorem piecesOf_head (va size : Nat) (h : 0 < size) : ∃ x t, piecesOf va size = x :: t ∧ x.line = va / 64 := by
  rw [piecesOf, splitLines, if_neg h.ne']
  exact ⟨_, _, rfl, rfl⟩

/-- An access that is no store hitting the L1 finds no translation there (R108). -/
theorem l1Tlb_miss (p : Panel) (a : Access) (hsize : 0 < a.size)
    (h : a.kind = .load ∨
      l1Find (p.core (l1Core p a.core (64 * (a.va / 64)))).l1d (a.va / 64) (p.block a.btag).part (p.block a.btag).asid = none) :
    l1Tlb p a = [] := by
  unfold l1Tlb
  split
  · rfl
  next hstore =>
    rcases h with hload | hmiss
    · exact absurd (.inl ⟨by simp [hload], by simp [hload]⟩) hstore
    · obtain ⟨x, t, hpieces, hline⟩ := piecesOf_head a.va a.size hsize
      simp [storeHits, hpieces, hline, hmiss]

/-! ### Issue (R108, R167, R263) -/

/-- An access as it enters the table: its own fields, with its number, issuer and pc. -/
def Panel.numbered (p : Panel) (a : Access) : Access :=
  { a with
    id := p.nid, core := p.cur.core, slot := p.cur.slot, btag := p.cc.btag, pc := p.cc.pc, level := p.slevel
    seq := (p.core p.cur.core).accSeq }

/-- A thread's context with the counter of a class one higher (R263). -/
def Ctx.counted (c : Ctx) : CClass → Ctx
  | .none => c
  | .loads => { c with ldc := c.ldc + 1 }
  | .stores => { c with stc := c.stc + 1 }

/-- What entering the table does: the access stands there under its number, its counter is one higher, and no byte has changed. -/
structure Panel.Entered (p : Panel) (a : Access) (q : Panel) : Prop where
  mem : q.mem = p.mem
  cur : q.cur = p.cur
  caches : p.SameCaches q
  cc : q.cc = p.cc.counted a.cls
  acc : ∃ patch, q.acc p.nid = some { p.numbered a with patch := patch }

theorem Panel.enter_entered (p : Panel) (a : Access) : p.Entered a (p.enter a) := by
  unfold Panel.enter
  dsimp only
  generalize hpatch : ite (a.fill = 1) _ _ = patch
  clear hpatch
  generalize htable : SMap.set p.accs p.nid _ = table
  have hfind : SMap.find table p.nid = some { p.numbered a with patch := patch } := by
    rw [← htable]
    exact SMap.find_set_self _ _ _
  clear htable
  generalize hq : Panel.updCore _ _ _ = q
  have hmem : q.mem = p.mem := by rw [← hq]; rfl
  have hcur : q.cur = p.cur := by rw [← hq]; rfl
  have hcaches : p.SameCaches q := by
    rw [← hq]
    exact Panel.sameCaches_updCore ({ p with nid := p.nid + 1, accs := table }) p.cur.core _ fun _ => rfl
  have hcc : q.cc = p.cc := by
    rw [← hq]
    exact Panel.ctx_updCore _ _ _ _ _ fun _ => rfl
  have hacc : ∃ patch, q.acc p.nid = some { p.numbered a with patch := patch } := by
    rw [← hq]
    exact ⟨patch, hfind⟩
  clear hq hfind
  split
  next hcls => exact ⟨hmem, hcur, hcaches, by rw [hcc, hcls]; rfl, hacc⟩
  next hcls => exact ⟨hmem, hcur, hcaches.trans (q.sameCaches_updC _), by rw [Panel.incL, Panel.cc_updC, hcc, hcls]; rfl, hacc⟩
  next hcls => exact ⟨hmem, hcur, hcaches.trans (q.sameCaches_updC _), by rw [Panel.incS, Panel.cc_updC, hcc, hcls]; rfl, hacc⟩

/-- What issuing an access does: the thread's counter is one higher and its bundle ends, the access stands in the table, and no byte has changed. -/
structure Panel.IssuedFrom (p : Panel) (a : Access) (t : Panel) : Prop where
  mem : t.mem = p.mem
  cc : ∃ pc, t.cc = { p.cc.counted a.cls with pc := pc }
  acc : ∃ b, t.acc p.nid = some b ∧ (p.numbered a).Same b

/-- The access that stands there after issue and before the TLB, and the panel it stands in. -/
structure Panel.Waiting (p : Panel) (a : Access) (t : Panel) : Prop extends p.IssuedFrom a t where
  caches : p.SameCaches t

theorem Panel.fin_acc (p : Panel) (id : Nat) : p.fin.acc id = p.acc id := by rw [Panel.acc, Panel.fin_accs, Panel.acc]

theorem Panel.enter_waiting (p : Panel) (a : Access) (f : Panel → Panel) (hf : (p.enter a).Onward (f (p.enter a)))
    (hcaches : (p.enter a).SameCaches (f (p.enter a))) : p.Waiting a (f (p.enter a)).fin := by
  have hent := p.enter_entered a
  obtain ⟨patch, hacc⟩ := hent.acc
  obtain ⟨b, hb, hsame⟩ := hf.accs _ _ hacc
  refine ⟨⟨?_, ?_, b, ?_, ?_⟩, ?_⟩
  · rw [Panel.fin_mem, hf.mem, hent.mem]
  · rw [Panel.cc_fin_eq, hf.cc, hent.cc]
    exact ⟨_, rfl⟩
  · rw [Panel.fin_acc, hb]
  · exact (Access.Same.patch _ patch).trans hsame
  · exact (hent.caches.trans hcaches).trans (Panel.sameCaches_fin _)

theorem Panel.IssuedFrom.onward {p q r : Panel} {a : Access} (h : p.IssuedFrom a q) (hqr : q.Onward r) : p.IssuedFrom a r := by
  obtain ⟨b, hb, hab⟩ := h.acc
  obtain ⟨c, hc, hbc⟩ := hqr.accs _ _ hb
  exact ⟨hqr.mem.trans h.mem, by rw [hqr.cc]; exact h.cc, c, hc, hab.trans hbc⟩

/-- A mesh-window access is issued (R97, R263). -/
theorem Panel.issueFin_mesh (p : Panel) (a : Access) (hitems : a.items ≠ []) : p.IssuedFrom a (p.issueFin a) := by
  have hwait := p.enter_waiting a id (.refl _) (.refl _)
  obtain ⟨b, hb, hsame⟩ := hwait.acc
  refine hwait.toIssuedFrom.onward (Panel.onward_dispatch_mesh _ _ b hb ?_)
  rw [hsame.items]
  exact hitems

/-- A paged access whose first page and line no TLB entry and no L1 line holds is issued (R108, R263). -/
theorem Panel.issueFin_paged (p : Panel) (a : Access) (f : Panel → Panel) (hf : (p.enter a).Onward (f (p.enter a)))
    (hcaches : (p.enter a).SameCaches (f (p.enter a))) (hitems : a.items = []) (hsize : 0 < a.size)
    (hl1 : a.kind = .load ∨
      l1Find (p.core (l1Core p p.cur.core (64 * (a.va / 64)))).l1d (a.va / 64) p.cb.part p.cb.asid = none)
    (htlb : tlbFind (p.cluster (clusterOf p.cur.core)) p.cb.part p.cb.asid (a.va / 65536) = none) :
    p.IssuedFrom a (p.issueFin a f) := by
  have hwait := p.enter_waiting a f hf hcaches
  obtain ⟨b, hb, hsame⟩ := hwait.acc
  have hblock : (f (p.enter a)).fin.block b.btag = p.cb := by rw [hwait.caches.block, hsame.btag]; rfl
  refine hwait.toIssuedFrom.onward (Panel.onward_dispatch_miss _ _ b hb (hsame.items.trans hitems) (l1Tlb_miss _ b ?_ ?_) ?_)
  · rw [hsame.size]
    exact hsize
  · rw [hsame.kind, hblock, hwait.caches.l1d, hsame.core, hsame.va]
    exact hl1
  · rw [hblock, hwait.caches.cluster, hsame.core, hsame.va]
    exact htlb

/-- An access once a store's bytes have been laid over the lines it has on their way (R108). -/
def Panel.patched (p : Panel) (a b : Access) : Access :=
  if b.fill == 1 && p.shareL1 b.core a.core && p.lineMeets b a then { b with patch := b.patch ++ patchOf a } else b

theorem Panel.same_patched (p : Panel) (a b : Access) : b.Same (p.patched a b) := by
  unfold Panel.patched
  split
  · exact .patch b _
  · exact .refl b

theorem Panel.storeFills_accs (p : Panel) (a : Access) : (p.storeFills a).accs = p.accs.map fun e : Nat × Access => (e.1, p.patched a e.2) := by
  refine List.map_congr_left fun e _ => ?_
  unfold Panel.patched
  split
  · rfl
  · rfl

theorem Panel.onward_storeFills (p : Panel) (a : Access) : p.Onward (p.storeFills a) := by
  refine ⟨rfl, rfl, fun _ _ => rfl, fun id b hb => ⟨p.patched a b, ?_, p.same_patched a b⟩⟩
  rw [Panel.acc, Panel.storeFills_accs, SMap.find_map, ← Panel.acc, hb]
  rfl

theorem Panel.sameCaches_storeFills (p : Panel) (a : Access) : p.SameCaches (p.storeFills a) := ⟨rfl, rfl, fun _ => rfl⟩

/-- A store whose first line the L1 does not hold writes nothing there (R108). -/
theorem Panel.storeThrough_miss (p : Panel) (id : Nat) (a : Access) (ha : p.acc id = some a) (hsize : 0 < a.size)
    (hmiss : l1Find (p.core (l1Core p a.core (64 * (a.va / 64)))).l1d (a.va / 64) (p.block a.btag).part (p.block a.btag).asid = none) :
    p.Onward (p.storeThrough id) ∧ p.SameCaches (p.storeThrough id) := by
  have hthru : p.Onward (p.updAcc id fun a => { a with thru := true }) := p.onward_updAcc id _ fun a => ⟨rfl, rfl, rfl, rfl, rfl, rfl, rfl, rfl⟩
  obtain ⟨x, t, hpieces, hline⟩ := piecesOf_head a.va a.size hsize
  have hnot : (storeHits p a).all Option.isSome = false := by simp [storeHits, hpieces, hline, hmiss]
  unfold Panel.storeThrough
  simp only [ha, hnot, Bool.false_eq_true, if_false]
  split
  · exact ⟨hthru, p.sameCaches_updAcc id _⟩
  · split
    · exact ⟨p.onward_storeFills a, p.sameCaches_storeFills a⟩
    · exact ⟨hthru, p.sameCaches_updAcc id _⟩

/-! ### What the issuing thread sees -/

/-- A scalar load or store has left the core: its class counts one more, its access stands in the table, and it has written neither a register nor a
byte (R97, R263). -/
structure Panel.Left (p : Panel) (st : Bool) (ea n : Nat) (dest : Dest) (t : Panel) : Prop where
  mem : t.mem = p.mem
  g : t.cc.g = p.cc.g
  load : st = false → t.cc.ldc = p.cc.ldc + 1
  store : st = true → t.cc.stc = p.cc.stc + 1
  acc : ∃ a, t.acc p.nid = some a ∧ a.core = p.cur.core ∧ a.slot = p.cur.slot ∧ a.kind = (if st then .store else .load) ∧ a.va = ea ∧
    a.size = n ∧ a.dest = dest

theorem Panel.IssuedFrom.left {p t : Panel} {a : Access} (h : p.IssuedFrom a t) (st : Bool) (hkind : a.kind = if st then .store else .load)
    (hcls : a.cls = if st then .stores else .loads) : p.Left st a.va a.size a.dest t := by
  obtain ⟨pc, hcc⟩ := h.cc
  obtain ⟨b, hb, hsame⟩ := h.acc
  have hacc : ∃ b, t.acc p.nid = some b ∧ b.core = p.cur.core ∧ b.slot = p.cur.slot ∧ b.kind = (if st then .store else .load) ∧ b.va = a.va ∧
      b.size = a.size ∧ b.dest = a.dest :=
    ⟨b, hb, hsame.core, hsame.slot, hsame.kind.trans hkind, hsame.va, hsame.size, hsame.dest⟩
  cases st with
  | false => exact ⟨h.mem, by rw [hcc, hcls]; rfl, fun _ => by rw [hcc, hcls]; rfl, nofun, hacc⟩
  | true => exact ⟨h.mem, by rw [hcc, hcls]; rfl, nofun, fun _ => by rw [hcc, hcls]; rfl, hacc⟩

/-! ### Each place (R28-R32, R36, R97) -/

/-- An address of no region, or outside its window or rectangle, traps (R28-R32, R36). -/
theorem Panel.scalarAcc_bad (p : Panel) (x : ScalarAcc) (c : Nat) (hhome : p.isAway = false) (hplace : x.place = .bad c) :
    p.scalarAcc x = p.trap c (w64 x.va) := by
  simp [Panel.scalarAcc, hplace, Panel.badAddr, hhome]

/-- A thread that reaches another core without moving there: what it remembers of its reaches (R209, R263). -/
def Panel.still (p : Panel) (lc : Nat) : Panel := if lc = p.home then p.untrack else p.updC fun c => { c with migr := false }

theorem Panel.still_eq (p : Panel) (lc : Nat) : ∃ f : Ctx → Ctx, p.still lc = p.updC f ∧ ∀ c, (f c).g = c.g ∧ (f c).ldc = c.ldc ∧ (f c).stc = c.stc := by
  unfold Panel.still
  split
  · exact ⟨_, rfl, fun c => ⟨rfl, rfl, rfl⟩⟩
  · exact ⟨_, rfl, fun c => ⟨rfl, rfl, rfl⟩⟩

/-- What leaves from there has left from the panel before. -/
theorem Panel.Left.of_still {p t : Panel} {lc : Nat} {st : Bool} {ea n : Nat} {dest : Dest} (h : (p.still lc).Left st ea n dest t) :
    p.Left st ea n dest t := by
  obtain ⟨f, hf, hkeeps⟩ := p.still_eq lc
  rw [hf] at h
  obtain ⟨hg, hldc, hstc⟩ := hkeeps p.cc
  obtain ⟨mem, g, load, store, acc⟩ := h
  rw [Panel.cc_updC] at g load store
  exact ⟨mem, g.trans hg, fun hst => (load hst).trans (congrArg (· + 1) hldc), fun hst => (store hst).trans (congrArg (· + 1) hstc), acc⟩

/-- Through the mesh window to its own core, or to one outside its block: a remote access, where its counter has room (R97, R263). -/
theorem Panel.scalarAcc_remote (p : Panel) (x : ScalarAcc) (lc off : Nat) (hplain : p.Plain) (hplace : x.place = .lm lc off true)
    (hout : lc = p.home ∨ lc ∉ blockCores p.cb) :
    p.scalarAcc x = if x.store ∧ ¬ p.roomS ∨ ¬ x.store ∧ ¬ p.roomL then p.retry else (p.still lc).remoteAcc x lc off := by
  obtain ⟨haway, hhandler⟩ := hplain
  unfold Panel.scalarAcc
  by_cases hhome : lc = p.home
  · simp [hplace, haway, hhandler, Panel.trackTo, Panel.still, hhome]
  · have hblock : lc ∉ blockCores p.cb := hout.resolve_left hhome
    simp [hplace, haway, hhandler, Panel.trackTo, Panel.still, hhome, hblock]

/-- The counter of an access's class is full (R263). -/
theorem Panel.full_iff (p : Panel) (st : Bool) :
    (st = true ∧ ¬ p.roomS ∨ ¬ st = true ∧ ¬ p.roomL) ↔ 15 ≤ if st then p.cc.stc else p.cc.ldc := by
  cases st with
  | false => simp [Panel.roomL]
  | true => simp [Panel.roomS]

/-! ### Paged accesses (R108, R177, R183) -/

/-- A paged load that the L1 holds: its line's bytes, once nothing older has still to be performed on them. -/
theorem Panel.pagedLoad_hit (p : Panel) (a : Access) (k : Nat → Panel → Panel) (v : Nat) (hhome : p.isAway = false)
    (hstrict : strictOk p.cl a.va a.size 1 = true) (hroom : p.roomL = true) (hcheck : p.l1Check p.cur.core a.va a.size = p)
    (hread : p.l1Read p.cur.core a.va a.size = some v) :
    p.pagedLoad a k =
      if p.pendingBytes p.cur.core p.cur.slot a.va a.size = true ∨ p.loadOpen p.cur.core p.cur.slot a.va a.size = true then p.retry
      else (k v p).fin := by
  simp [Panel.pagedLoad, Panel.strict, hstrict, hroom, hhome, hcheck, hread]

/-- One that the L1 does not hold is issued, unless its page's region raises a trap. -/
theorem Panel.pagedLoad_miss (p : Panel) (a : Access) (k : Nat → Panel → Panel) (hhome : p.isAway = false)
    (hstrict : strictOk p.cl a.va a.size 1 = true) (hroom : p.roomL = true) (hcheck : p.l1Check p.cur.core a.va a.size = p)
    (hread : p.l1Read p.cur.core a.va a.size = none) (hregion : p.regionTrap a = none) :
    p.pagedLoad a k = p.issueFin { a with cls := .loads, fill := 1, after := p.afterOf false a.va a.size } := by
  simp [Panel.pagedLoad, Panel.strict, hstrict, hroom, hhome, hcheck, hread, Panel.regions, hregion]

/-- A paged store is issued, unless its page's region raises a trap. -/
theorem Panel.pagedStore_home (p : Panel) (a : Access) (hhome : p.isAway = false) (hstrict : strictOk p.cl a.va a.size 2 = true)
    (hroom : p.roomS = true) (hregion : p.regionTrap a = none) :
    p.pagedStore a = p.issueFin { a with cls := .stores, after := p.afterStore a.va a.size } fun q => q.storeThrough p.nid := by
  simp [Panel.pagedStore, Panel.strict, hstrict, hroom, hhome, Panel.regions, hregion]

/-- A store that misses the L1 and the TLB is issued, and its bytes stay in its access. -/
theorem Panel.issueFin_store (p : Panel) (a : Access) (hitems : a.items = []) (hsize : 0 < a.size)
    (hl1 : l1Find (p.core (l1Core p p.cur.core (64 * (a.va / 64)))).l1d (a.va / 64) p.cb.part p.cb.asid = none)
    (htlb : tlbFind (p.cluster (clusterOf p.cur.core)) p.cb.part p.cb.asid (a.va / 65536) = none) :
    p.IssuedFrom a (p.issueFin a fun q => q.storeThrough p.nid) := by
  have hent := p.enter_entered a
  obtain ⟨patch, hacc⟩ := hent.acc
  obtain ⟨hon, hcaches⟩ := (p.enter a).storeThrough_miss p.nid _ hacc hsize (by rw [hent.caches.l1d, hent.caches.block]; exact hl1)
  exact p.issueFin_paged a _ hon hcaches hitems hsize (.inr hl1) htlb

/-! ### What each of them leaves (R287) -/

/-- The access that goes to another core (R97). -/
def Panel.remote (p : Panel) (x : ScalarAcc) (core off : Nat) : Access :=
  { mkAcc (if x.store then .store else .load) (if x.store then .stores else .loads) x.va x.size with
    dest := if x.store then .none else .g x.reg
    data := x.data.toNat
    target := core
    items := [⟨x.w, 8 * off + x.bit, 0, 64, x.sx⟩]
    sx := x.sx
    after := p.afterMesh false x.va x.size core }

theorem Panel.remoteAcc_left (p : Panel) (x : ScalarAcc) (core off : Nat) :
    p.Left x.store x.va x.size (if x.store then .none else .g x.reg) (p.remoteAcc x core off) :=
  (p.issueFin_mesh (p.remote x core off) (List.cons_ne_nil _ _)).left x.store rfl rfl

/-- A scalar access through the mesh window has left, where its counter has room (R97, R263). -/
theorem Panel.word_remote (p : Panel) (st : Bool) (ea n : Nat) (sx : Bool) (d : Reg) (lc off : Nat) (hcalm : p.Calm)
    (hplace : place p p.src ea n = .lm lc off true) (hout : lc = p.home ∨ lc ∉ blockCores p.cb)
    (hroom : (if st then p.cc.stc else p.cc.ldc) < 15) : p.Left st ea n (if st then .none else .g d.toNat) (p.word st ea n sx d) := by
  obtain ⟨hplain, hacq⟩ := hcalm
  rw [Panel.word_eq p _ _ _ _ _ hacq, Panel.scalarAcc_remote p _ lc off hplain hplace hout,
    if_neg (mt (p.full_iff (p.wordAcc st ea n sx d).store).mp (Nat.not_le.mpr hroom))]
  exact .of_still ((p.still lc).remoteAcc_left (p.wordAcc st ea n sx d) lc off)

/-- Where it has none, the bundle waits (R263). -/
theorem Panel.word_remote_full (p : Panel) (st : Bool) (ea n : Nat) (sx : Bool) (d : Reg) (lc off : Nat) (hcalm : p.Calm)
    (hplace : place p p.src ea n = .lm lc off true) (hout : lc = p.home ∨ lc ∉ blockCores p.cb)
    (hfull : 15 ≤ if st then p.cc.stc else p.cc.ldc) : p.word st ea n sx d = p.retry := by
  obtain ⟨hplain, hacq⟩ := hcalm
  rw [Panel.word_eq p _ _ _ _ _ hacq, Panel.scalarAcc_remote p _ lc off hplain hplace hout]
  exact if_pos ((p.full_iff st).mpr hfull)

theorem Panel.word_paged_load (p : Panel) (ea n : Nat) (sx : Bool) (d : Reg) (hacq : p.acqBusy = false) (hplace : place p p.src ea n = .paged) :
    p.word false ea n sx d = p.pagedLoad { mkAcc .load .none ea n with dest := .g d.toNat, sx := sx } fun v q =>
      q.updC fun c => c.setG d.toNat (if sx then sext64 (8 * n) v else w64 v) := by
  rw [Panel.word_eq p _ _ _ _ _ hacq]
  simp [Panel.scalarAcc, Panel.wordAcc, hplace]

theorem Panel.word_paged_store (p : Panel) (ea n : Nat) (sx : Bool) (d : Reg) (hacq : p.acqBusy = false) (hplace : place p p.src ea n = .paged) :
    p.word true ea n sx d = p.pagedStore { mkAcc .store .none ea n with data := (p.gv d).toNat } := by
  rw [Panel.word_eq p _ _ _ _ _ hacq]
  simp [Panel.scalarAcc, Panel.wordAcc, hplace]

/-- A paged load that misses the L1 and the TLB has left (R108, R191). -/
theorem Panel.word_load_miss (p : Panel) (ea n : Nat) (sx : Bool) (d : Reg) (hcalm : p.Calm) (hn : 0 < n) (hplace : place p p.src ea n = .paged)
    (hstrict : strictOk p.cl ea n 1 = true) (hroom : p.cc.ldc < 15) (hcheck : p.l1Check p.cur.core ea n = p)
    (hread : p.l1Read p.cur.core ea n = none) (hregion : p.regionTrap { mkAcc .load .none ea n with dest := .g d.toNat, sx := sx } = none)
    (htlb : tlbFind (p.cluster (clusterOf p.cur.core)) p.cb.part p.cb.asid (ea / 65536) = none) :
    p.Left false ea n (.g d.toNat) (p.word false ea n sx d) := by
  obtain ⟨⟨hhome, -⟩, hacq⟩ := hcalm
  rw [Panel.word_paged_load p ea n sx d hacq hplace,
    p.pagedLoad_miss { mkAcc .load .none ea n with dest := .g d.toNat, sx := sx } _ hhome hstrict (decide_eq_true hroom) hcheck hread hregion]
  exact (p.issueFin_paged { mkAcc .load .none ea n with dest := .g d.toNat, sx := sx, cls := .loads, fill := 1, after := p.afterOf false ea n } id
    (.refl _) (.refl _) rfl hn (.inl rfl) htlb).left false rfl rfl

/-- So has a paged store (R108, R191). -/
theorem Panel.word_store_miss (p : Panel) (ea n : Nat) (sx : Bool) (d : Reg) (hcalm : p.Calm) (hn : 0 < n) (hplace : place p p.src ea n = .paged)
    (hstrict : strictOk p.cl ea n 2 = true) (hroom : p.cc.stc < 15)
    (hregion : p.regionTrap { mkAcc .store .none ea n with data := (p.gv d).toNat } = none)
    (hl1 : l1Find (p.core (l1Core p p.cur.core (64 * (ea / 64)))).l1d (ea / 64) p.cb.part p.cb.asid = none)
    (htlb : tlbFind (p.cluster (clusterOf p.cur.core)) p.cb.part p.cb.asid (ea / 65536) = none) :
    p.Left true ea n .none (p.word true ea n sx d) := by
  obtain ⟨⟨hhome, -⟩, hacq⟩ := hcalm
  rw [Panel.word_paged_store p ea n sx d hacq hplace,
    p.pagedStore_home { mkAcc .store .none ea n with data := (p.gv d).toNat } hhome hstrict (decide_eq_true hroom) hregion]
  exact (p.issueFin_store { mkAcc .store .none ea n with data := (p.gv d).toNat, cls := .stores, after := p.afterStore ea n }
    rfl hn hl1 htlb).left true rfl rfl

/-- A paged load that the L1 holds takes the line's bytes, once nothing older has still to be performed on them (R108, R177, R183). -/
theorem Panel.word_load_hit (p : Panel) (ea n v : Nat) (sx : Bool) (d : Reg) (hcalm : p.Calm) (hplace : place p p.src ea n = .paged)
    (hstrict : strictOk p.cl ea n 1 = true) (hroom : p.cc.ldc < 15) (hcheck : p.l1Check p.cur.core ea n = p)
    (hread : p.l1Read p.cur.core ea n = some v) :
    p.word false ea n sx d =
      if p.pendingBytes p.cur.core p.cur.slot ea n = true ∨ p.loadOpen p.cur.core p.cur.slot ea n = true then p.retry
      else (p.putG d (if sx then BitVec.ofInt 64 (sgn (8 * n) v) else BitVec.ofNat 64 v)).fin := by
  obtain ⟨⟨hhome, -⟩, hacq⟩ := hcalm
  rw [Panel.word_paged_load p ea n sx d hacq hplace,
    p.pagedLoad_hit { mkAcc .load .none ea n with dest := .g d.toNat, sx := sx } _ v hhome hstrict (decide_eq_true hroom) hcheck hread]
  rfl

end Sys2Proof.Machine
end

section
/-! What ends a launch (R165, R437): the launches of a panel and the states of its blocks, and the functions that change neither. -/

namespace Sys2Proof.Machine

/-- The launches, and the state of each block (R413, R437). -/
def Panel.ends (p : Panel) : SMap Launch × (Nat → BState) := (p.launches, fun t => (p.block t).st)

theorem Panel.ends_of {p q : Panel} (hlaunches : q.launches = p.launches) (hblocks : q.blocks = p.blocks) : q.ends = p.ends := by
  simp only [Panel.ends, Panel.block, hlaunches, hblocks]

/-! ### State operations -/

theorem Panel.ends_setCore (p : Panel) (lc : Nat) (c : Core) : (p.setCore lc c).ends = p.ends := Panel.ends_of rfl rfl

theorem Panel.ends_updCore (p : Panel) (lc : Nat) (f : Core → Core) : (p.updCore lc f).ends = p.ends := Panel.ends_of rfl rfl

theorem Panel.ends_setCtx (p : Panel) (lc slot : Nat) (c : Ctx) : (p.setCtx lc slot c).ends = p.ends := Panel.ends_of rfl rfl

theorem Panel.ends_updCtx (p : Panel) (lc slot : Nat) (f : Ctx → Ctx) : (p.updCtx lc slot f).ends = p.ends := Panel.ends_of rfl rfl

theorem Panel.ends_updPart (p : Panel) (i : Nat) (f : Partition → Partition) : (p.updPart i f).ends = p.ends :=
  Panel.ends_of (p.updPart_launches i f) (p.updPart_blocks i f)

theorem Panel.ends_updCluster (p : Panel) (i : Nat) (f : Cluster → Cluster) : (p.updCluster i f).ends = p.ends := Panel.ends_of rfl rfl

theorem Panel.ends_updSlice (p : Panel) (i : Nat) (f : Slice → Slice) : (p.updSlice i f).ends = p.ends := Panel.ends_of rfl rfl

theorem Panel.ends_later (p : Panel) (d : Nat) (e : Instr) (args : List Nat) : (p.later d e args).ends = p.ends := Panel.ends_of rfl rfl

theorem Panel.ends_once (p : Panel) (d : Nat) (e : Instr) (args : List Nat) : (p.once d e args).ends = p.ends := by
  unfold Panel.once
  split
  · rfl
  · exact p.ends_later ..

theorem Panel.ends_mailTo (p : Panel) (to_ typ : Nat) (pl : List Nat) : (p.mailTo to_ typ pl).ends = p.ends :=
  Panel.ends_of (p.mailTo_launches to_ typ pl) (p.mailTo_blocks to_ typ pl)

theorem Panel.ends_report (p : Panel) (ep typ : Nat) (pl : List Nat) : (p.report ep typ pl).ends = p.ends := Panel.ends_of rfl rfl

theorem Panel.ends_bill (p : Panel) (lc launch pj : Nat) : (p.bill lc launch pj).ends = p.ends := p.ends_updCore ..

theorem Panel.ends_charge (p : Panel) (lc tag pj : Nat) : (p.charge lc tag pj).ends = p.ends := p.ends_bill ..

theorem Panel.ends_updAcc (p : Panel) (id : Nat) (f : Access → Access) : (p.updAcc id f).ends = p.ends := by
  unfold Panel.updAcc
  split
  · exact Panel.ends_of rfl rfl
  · rfl

theorem Panel.ends_delAcc (p : Panel) (id : Nat) : (p.delAcc id).ends = p.ends := Panel.ends_of rfl rfl

theorem Panel.ends_foldl {α : Type} (f : Panel → α → Panel) (h : ∀ q a, (f q a).ends = q.ends) (l : List α) (p : Panel) :
    (l.foldl f p).ends = p.ends := Panel.foldl_keeps f Panel.ends h l p

/-! ### Threads, traps and halts (R450-R456) -/

theorem Panel.ends_rouse (p : Panel) (lc : Nat) : (p.rouse lc).ends = p.ends := by
  unfold Panel.rouse
  dsimp only
  split
  · exact (Panel.ends_later ..).trans (p.ends_setCore ..)
  · exact p.ends_setCore ..

theorem Panel.ends_rouseOf (p : Panel) (lc slot : Nat) : (p.rouseOf lc slot).ends = p.ends := by
  unfold Panel.rouseOf
  split
  · rfl
  · exact p.ends_rouse lc

theorem Panel.ends_ready (p : Panel) (lc slot : Nat) : (p.ready lc slot).ends = p.ends := (Panel.ends_rouse ..).trans (p.ends_updCtx ..)

theorem Panel.ends_raiseHalt (p : Panel) (part site reason cause : Nat) (tval : W) : (p.raiseHalt part site reason cause tval).ends = p.ends := by
  unfold Panel.raiseHalt
  split
  · rfl
  · exact (Panel.ends_report ..).trans ((Panel.ends_later ..).trans (p.ends_updPart ..))

theorem Panel.ends_fatalAt (p : Panel) (lc cause : Nat) (tval : W) : (p.fatalAt lc cause tval).ends = p.ends := p.ends_raiseHalt ..

theorem Panel.ends_dissolve (p : Panel) (gang : List Nat) (slot : Nat) : (p.dissolve gang slot).ends = p.ends :=
  Panel.ends_foldl _ (fun q lc => q.ends_updCtx lc slot _) gang p

theorem Panel.ends_deliver (p : Panel) (lc slot cause : Nat) (tval : W) (impr aword away : Bool) :
    (p.deliver lc slot cause tval impr aword away).ends = p.ends := by
  unfold Panel.deliver
  dsimp only
  generalize hq : Panel.updCtx (p.dissolve _ slot) lc slot _ = q
  have hkept : q.ends = p.ends := by
    rw [← hq]
    exact (Panel.ends_updCtx ..).trans (p.ends_dissolve ..)
  split
  · exact (q.ends_raiseHalt ..).trans hkept
  · split
    · exact (q.ends_raiseHalt ..).trans hkept
    · exact hkept

/-! ### Counters and accesses (R167, R263) -/

theorem Panel.ends_moveCheck (p : Panel) (lc slot : Nat) : (p.moveCheck lc slot).ends = p.ends := by
  unfold Panel.moveCheck
  dsimp only
  split
  · exact p.ends_later ..
  · rfl

theorem Panel.ends_decL (p : Panel) (lc slot : Nat) : (p.decL lc slot).ends = p.ends := (Panel.ends_moveCheck ..).trans (p.ends_updCtx ..)

theorem Panel.ends_decS (p : Panel) (lc slot : Nat) : (p.decS lc slot).ends = p.ends := (Panel.ends_moveCheck ..).trans (p.ends_updCtx ..)

theorem Panel.ends_decC (p : Panel) (lc slot : Nat) : (p.decC lc slot).ends = p.ends := p.ends_updCtx ..

theorem Panel.ends_uncount (p : Panel) (a : Access) : (p.uncount a).ends = p.ends := by
  unfold Panel.uncount
  split
  · rfl
  · split
    · rfl
    · exact p.ends_decL ..
    · exact p.ends_decS ..

theorem Panel.ends_unwait (p : Panel) (id : Nat) : (p.unwait id).ends = p.ends := by
  unfold Panel.unwait
  split
  · exact Panel.ends_of rfl rfl
  · rfl

theorem Panel.ends_discard (p : Panel) (a : Access) : (p.discard a).ends = p.ends :=
  (Panel.ends_unwait ..).trans ((Panel.ends_delAcc ..).trans (p.ends_uncount a))

theorem Panel.ends_undoAword (p : Panel) (lc slot : Nat) (u : Undo) : (p.undoAword lc slot u).ends = p.ends := by
  unfold Panel.undoAword
  dsimp only
  generalize hq : u.cells.foldl _ _ = q
  have hkept : q.ends = p.ends := by
    rw [← hq]
    refine (Panel.ends_foldl _ (fun r e => r.ends_updCluster ..) ..).trans ?_
    exact Panel.ends_of rfl rfl
  split
  · exact hkept
  · exact (q.ends_updCluster ..).trans hkept

theorem Panel.ends_undoFor (p : Panel) (a : Access) : (p.undoFor a).ends = p.ends := by
  unfold Panel.undoFor
  split
  · split
    · exact p.ends_undoAword ..
    · rfl
  · rfl

theorem Panel.ends_accRaise (p : Panel) (a : Access) (cause : Nat) (tval : W) : (p.accRaise a cause tval).ends = p.ends := by
  have hback (f : Ctx → Ctx) : ((p.undoFor a).updCtx a.core a.slot f).ends = p.ends := (Panel.ends_updCtx ..).trans (p.ends_undoFor a)
  unfold Panel.accRaise
  dsimp only
  split
  · exact (Panel.ends_ready ..).trans ((Panel.ends_updCtx ..).trans (hback _))
  · exact (Panel.ends_rouseOf ..).trans ((Panel.ends_deliver ..).trans (hback _))

theorem Panel.ends_accTrap (p : Panel) (a : Access) (cause : Nat) (tval : W) : (p.accTrap a cause tval).ends = p.ends := by
  unfold Panel.accTrap
  dsimp only
  split
  · split
    · exact (Panel.ends_of rfl rfl).trans (p.ends_accRaise a cause tval)
    · exact p.ends_accRaise a cause tval
  · rfl

/-! ### Packets (R94, R475, R488) -/

theorem Panel.ends_requestCkpt (p : Panel) (lc : Nat) : (p.requestCkpt lc).ends = p.ends := by
  unfold Panel.requestCkpt
  split
  · rfl
  · exact (Panel.ends_later ..).trans (p.ends_updCore ..)

theorem Panel.ends_injectAt (p : Panel) (to_ h : Nat) (k : Packet) : (p.injectAt to_ h k).ends = p.ends :=
  (Panel.ends_later ..).trans (p.ends_updCore ..)

theorem Panel.ends_inject (p : Panel) (to_ : Nat) (k : Packet) (tree : Bool) : (p.inject to_ k tree).ends = p.ends := by
  unfold Panel.inject
  split
  · exact p.ends_injectAt ..
  · exact (Panel.ends_bill ..).trans (p.ends_injectAt ..)

theorem Panel.ends_sendOn (p : Panel) (tree : Bool) (from_ to_ : Nat) (x : Pay) : (p.sendOn tree from_ to_ x).ends = p.ends := by
  unfold Panel.sendOn
  split
  · dsimp only
    generalize hq : p.updCore from_ _ = q
    have hlogged : q.ends = p.ends := by
      rw [← hq]
      exact p.ends_updCore ..
    refine (Panel.ends_inject ..).trans ?_
    split
    · split
      · exact (Panel.ends_requestCkpt ..).trans hlogged
      · exact hlogged
    · exact hlogged
  · exact p.ends_inject ..

theorem Panel.ends_send (p : Panel) (from_ to_ : Nat) (x : Pay) : (p.send from_ to_ x).ends = p.ends := p.ends_sendOn ..

theorem Panel.ends_treeCharge (p : Panel) (from_ tag flits : Nat) (ts : List Nat) : (p.treeCharge from_ tag flits ts).ends = p.ends :=
  p.ends_charge ..

/-! ### Parked accesses (R191, R255) -/

theorem Panel.ends_writeRecord (p : Panel) (lc : Nat) : (p.writeRecord lc).ends = p.ends := Panel.ends_of rfl rfl

/-- Parking changes only what a block has reported. -/
theorem Panel.ends_parkReported (p : Panel) (t : Nat) (f : Block → Bool) :
    (p.updBlock t fun b => { b with parkReported := f b }).ends = p.ends := by
  refine Prod.ext (p.updBlock_launches t _) (funext fun u => ?_)
  change (Panel.block _ u).st = (p.block u).st
  by_cases h : t = u
  · subst h
    cases hfind : SMap.find p.blocks t with
    | none => simp [Panel.updBlock, hfind]
    | some b => simp [Panel.updBlock, Panel.block, SMap.getD, hfind]
  · rw [p.block_updBlock_other t u _ h]

theorem Panel.ends_park (p : Panel) (a : Access) (fault page : Nat) : (p.park a fault page).ends = p.ends := by
  unfold Panel.park
  split
  · exact p.ends_discard a
  · split
    · exact (Panel.ends_accTrap ..).trans (p.ends_discard a)
    · dsimp only
      generalize hq : Panel.later (Panel.updBlock (Panel.mailTo _ _ _ _) _ _) _ _ _ = q
      have hkept : q.ends = p.ends := by
        rw [← hq]
        refine (Panel.ends_later ..).trans ((Panel.ends_parkReported ..).trans ((Panel.ends_mailTo ..).trans ((Panel.ends_writeRecord ..).trans
          ((Panel.ends_updPart ..).trans ((Panel.ends_foldl _ (fun r s => ?_) ..).trans ((Panel.ends_updCore ..).trans
            ((Panel.ends_foldl _ (fun r i => ?_) ..).trans (p.ends_updAcc ..))))))))
        · exact r.ends_updCtx ..
        · exact r.ends_updAcc ..
      split
      · exact hkept
      · exact (q.ends_later ..).trans hkept

/-! ### Translation and the way to a slice (R108, R151-R154, R167) -/

theorem Panel.ends_dispatchMesh (p : Panel) (a : Access) : (p.dispatchMesh a).ends = p.ends := (Panel.ends_send ..).trans (p.ends_updAcc ..)

theorem Panel.ends_billReq (p : Panel) (r : Req) (pj : Nat → Nat) : (p.billReq r pj).ends = p.ends := by
  unfold Panel.billReq
  split
  · exact p.ends_bill ..
  · rfl

theorem Panel.ends_ask (p : Panel) (q : Partition) (from_ : Nat) (r : Req) : (p.ask q from_ r).ends = p.ends :=
  (Panel.ends_later ..).trans ((Panel.ends_updSlice ..).trans (p.ends_billReq ..))

theorem Panel.ends_storeL1 (p : Panel) (a : Access) : (p.storeL1 a).ends = p.ends := Panel.ends_foldl _ (fun q _ => q.ends_updCore ..) _ p

theorem Panel.ends_storeFills (p : Panel) (a : Access) : (p.storeFills a).ends = p.ends := Panel.ends_of rfl rfl

theorem Panel.ends_leave (p : Panel) (a : Access) (ts : List Tlb) : (p.leave a ts).ends = p.ends := by
  unfold Panel.leave
  dsimp only
  split
  · exact p.ends_discard a
  · split
    · exact (Panel.ends_accTrap ..).trans (p.ends_discard a)
    · refine (Panel.ends_foldl _ (fun r e => r.ends_ask ..) _ _).trans ?_
      split
      · exact (Panel.ends_storeFills ..).trans ((Panel.ends_storeL1 ..).trans (p.ends_updAcc ..))
      · exact p.ends_updAcc ..

theorem Panel.ends_updWalkEnt (p : Panel) (cl num : Nat) (f : TlbWalk → TlbWalk) : (p.updWalkEnt cl num f).ends = p.ends := p.ends_updCluster ..

theorem Panel.ends_walkRead (p : Panel) (cl : Nat) (w : TlbWalk) (level table d : Nat) : (p.walkRead cl w level table d).ends = p.ends :=
  (Panel.ends_later ..).trans ((Panel.ends_updSlice ..).trans (p.ends_updWalkEnt ..))

theorem Panel.ends_walkEnd (p : Panel) (cl num d : Nat) (r : WalkR) : (p.walkEnd cl num d r).ends = p.ends :=
  (Panel.ends_later ..).trans (p.ends_updWalkEnt ..)

theorem Panel.ends_walkStart (p : Panel) (cl : Nat) (w : TlbWalk) : (p.walkStart cl w).ends = p.ends := by
  unfold Panel.walkStart
  dsimp only
  split
  · exact p.ends_walkEnd ..
  · exact p.ends_walkRead ..
  · exact p.ends_walkRead ..
  · split
    · exact p.ends_walkRead ..
    · exact p.ends_walkEnd ..

theorem Panel.ends_walkers (p : Panel) (cl k : Nat) : (p.walkers cl k).ends = p.ends := by
  induction k generalizing p with
  | zero => rfl
  | succ k ih =>
    unfold Panel.walkers
    dsimp only
    split
    · rfl
    · split
      · exact (ih _).trans (p.ends_walkStart ..)
      · rfl

theorem Panel.ends_walkFor (p : Panel) (cl part asid vpn core : Nat) (ids engs : List Nat) :
    (p.walkFor cl part asid vpn core ids engs).ends = p.ends := (Panel.ends_walkers ..).trans (p.ends_updCluster ..)

theorem Panel.ends_translated (p : Panel) (a : Access) (found : List (Nat × Tlb)) : (p.translated a found).ends = p.ends := by
  unfold Panel.translated
  dsimp only
  split
  · exact (Panel.ends_accTrap ..).trans (p.ends_discard a)
  · split
    · exact p.ends_park ..
    · split
      · rfl
      · exact p.ends_leave ..

theorem Panel.ends_tlbTry (p : Panel) (id : Nat) : (p.tlbTry id).ends = p.ends := by
  have hstaged (f : Access → Access) : (p.updAcc id f).ends = p.ends := p.ends_updAcc id f
  unfold Panel.tlbTry
  split
  · rfl
  · dsimp only
    split
    · rfl
    · split
      · split
        · split
          · exact hstaged _
          · exact (Panel.ends_updWalkEnt ..).trans (hstaged _)
        · split
          · exact hstaged _
          · exact (Panel.ends_walkFor ..).trans (hstaged _)
      · split
        · exact hstaged _
        · exact (Panel.ends_translated ..).trans (hstaged _)

theorem Panel.ends_dispatch (p : Panel) (id : Nat) : (p.dispatch id).ends = p.ends := by
  unfold Panel.dispatch
  split
  · rfl
  · split
    · split
      · exact p.ends_tlbTry id
      · exact p.ends_dispatchMesh _
    · rfl

theorem Panel.ends_performed (p : Panel) (id : Nat) : (p.performed id).ends = p.ends :=
  (Panel.ends_foldl _ (fun q i => (Panel.ends_dispatch ..).trans (q.ends_updAcc i _)) _ _).trans (p.ends_updAcc ..)

theorem Panel.ends_ite {p q r : Panel} (c : Prop) [Decidable c] (hq : q.ends = p.ends) (hr : r.ends = p.ends) : (if c then q else r).ends = p.ends := by
  split
  · exact hq
  · exact hr

/-! ### Lines at a slice (R120-R149) -/

theorem Panel.ends_billAnswer (p : Panel) (id h : Nat) : (p.billAnswer id h).ends = p.ends := by
  unfold Panel.billAnswer
  split
  · exact p.ends_charge ..
  · rfl

theorem Panel.ends_hbmFindAt (p : Panel) (spot : Nat × Nat) (line : Nat) : (p.hbmFindAt spot line).ends = p.ends := by
  unfold Panel.hbmFindAt
  split
  · rfl
  · dsimp only
    split
    · exact Panel.ends_of rfl rfl
    · exact Panel.ends_of rfl rfl

theorem Panel.ends_l2Check (p : Panel) (sc line : Nat) : (p.l2Check sc line).ends = p.ends := by
  unfold Panel.l2Check
  split
  · exact p.ends_updSlice ..
  · rfl

theorem Panel.ends_writeBack (p : Panel) (l : L2Line) : (p.writeBack l).ends = p.ends := by
  unfold Panel.writeBack
  split
  · rfl
  · exact Panel.ends_of rfl rfl

theorem Panel.ends_dropLine (p : Panel) (sc line : Nat) : (p.dropLine sc line).ends = p.ends := by
  unfold Panel.dropLine
  dsimp only
  split
  · exact p.ends_l2Check ..
  · exact (Panel.ends_updSlice ..).trans ((Panel.ends_writeBack ..).trans (p.ends_l2Check ..))

theorem Panel.ends_touch (p : Panel) (sc line : Nat) : (p.touch sc line).ends = p.ends := by
  unfold Panel.touch
  split
  · rfl
  · exact p.ends_updSlice ..

theorem Panel.ends_putWay (p : Panel) (sc set line key way : Nat) : (p.putWay sc set line key way).ends = p.ends := p.ends_updSlice ..

theorem Panel.ends_placeLine (p : Panel) (q : Partition) (line key : Nat) : (p.placeLine q line key).ends = p.ends := by
  have hfound : (p.hbmFind q line).ends = p.ends := p.ends_hbmFindAt ..
  unfold Panel.placeLine
  dsimp only
  split
  · exact (Panel.ends_putWay ..).trans hfound
  · split
    · exact (Panel.ends_putWay ..).trans ((Panel.ends_dropLine ..).trans hfound)
    · exact hfound

theorem Panel.ends_sliceLost (p : Panel) (sc : Nat) : (p.sliceLost sc).ends = p.ends := (Panel.ends_fatalAt ..).trans (p.ends_updSlice ..)

theorem Panel.ends_setLine (p : Panel) (sc line : Nat) (whole : Bool) (f : Line → Line) : (p.setLine sc line whole f).ends = p.ends :=
  p.ends_updSlice ..

theorem Panel.ends_control (p : Panel) (sc line pi qi off n v : Nat) : (p.control sc line pi qi off n v).ends = p.ends := by
  have hlater (c : Prop) [Decidable c] (q : Panel) (e : Instr) (args : List Nat) : (if c then q.later 1 e args else q).ends = q.ends := by
    split
    · exact q.ends_later ..
    · rfl
  unfold Panel.control
  dsimp only
  generalize ite (off ≤ 8 ∧ 8 < off + n) _ _ = b
  split
  · exact (hlater ..).trans ((hlater ..).trans ((hlater ..).trans (hlater ..)))
  · split
    · rfl
    · generalize hq : Panel.updPart (p.setLine _ _ _ _) _ _ = q
      have hkept : q.ends = p.ends := by
        rw [← hq]
        exact (Panel.ends_updPart ..).trans (p.ends_setLine ..)
      exact Panel.ends_ite _ hkept ((q.ends_mailTo ..).trans hkept)

theorem Panel.ends_routeWrite (p : Panel) (sc line pi k off n v : Nat) (slevel : Bool) : (p.routeWrite sc line pi k off n v slevel).ends = p.ends := by
  unfold Panel.routeWrite
  dsimp only
  split
  · exact (Panel.ends_later ..).trans (p.ends_setLine ..)
  · exact p.ends_setLine ..

theorem Panel.ends_slicePut (p : Panel) (sc line off n v : Nat) (slevel : Bool) : (p.slicePut sc line off n v slevel).ends = p.ends := by
  unfold Panel.slicePut
  split
  · exact p.ends_routeWrite ..
  · split
    · exact p.ends_control ..
    · exact p.ends_setLine ..

theorem Panel.ends_slicePutMask (p : Panel) (sc line off n data mask : Nat) (level : Bool) :
    (p.slicePutMask sc line off n data mask level).ends = p.ends := by
  unfold Panel.slicePutMask
  split
  · exact p.ends_slicePut ..
  · refine Panel.ends_foldl _ (fun q i => ?_) _ p
    dsimp only
    split
    · rfl
    · exact q.ends_slicePut ..

/-! ### Accesses performed at a slice (R113, R120, R137) -/

theorem Panel.ends_respond (p : Panel) (a : Access) : (respond p a).ends = p.ends := (Panel.ends_later ..).trans (p.ends_billAnswer ..)

theorem Panel.ends_sliceError (p : Panel) (id cause : Nat) : (p.sliceError id cause).ends = p.ends :=
  (Panel.ends_later ..).trans ((Panel.ends_updAcc ..).trans (p.ends_performed id))

theorem Panel.ends_staleFills (p : Panel) (lc line : Nat) : (p.staleFills lc line).ends = p.ends := Panel.ends_of rfl rfl

theorem Panel.ends_dropCopy (p : Panel) (lc line : Nat) : (p.dropCopy lc line).ends = p.ends := by
  refine Panel.ends_foldl _ (fun q k => ?_) _ p
  dsimp only
  split
  · exact q.ends_updCore ..
  · rfl

theorem Panel.ends_peerOut (p : Panel) (id part slot w o size op data : Nat) : (p.peerOut id part slot w o size op data).ends = p.ends := by
  unfold Panel.peerOut
  split
  · exact Panel.ends_of rfl rfl
  · exact p.ends_later ..

theorem Panel.ends_performPart (p : Panel) (sc id part : Nat) (l : L2Line) : (p.performPart sc id part l).ends = p.ends := by
  unfold Panel.performPart
  split
  · rfl
  next a _ =>
    split
    · rfl
    next x _ =>
      split
      · exact p.ends_sliceError ..
      · split
        · exact p.ends_sliceError ..
        · dsimp only
          generalize hq : Panel.updAcc _ id _ = q
          have hkept : q.ends = p.ends := by
            rw [← hq, Panel.ends_updAcc]
            have hamo (r : Panel) (hr : r.ends = p.ends) :
                (if a.kind = .amo then (r.dropCopy a.core l.line).staleFills a.core l.line else r).ends = p.ends :=
              Panel.ends_ite _ ((Panel.ends_staleFills ..).trans ((r.ends_dropCopy ..).trans hr)) hr
            have hstamp (r : Panel) (hr : r.ends = p.ends) : (if a.fill ≠ 0 then { r with stamp := r.stamp + 1 } else r).ends = p.ends :=
              Panel.ends_ite _ ((Panel.ends_of rfl rfl).trans hr) hr
            refine hstamp _ (hamo _ ?_)
            split
            · exact p.ends_slicePut ..
            · exact p.ends_slicePut ..
            · split
              · exact p.ends_slicePut ..
              · rfl
            all_goals rfl
          split
          · exact hkept
          · exact Panel.ends_ite _ ((Panel.ends_respond ..).trans ((q.ends_performed id).trans hkept)) hkept

theorem Panel.ends_performExt (p : Panel) (id part : Nat) : (p.performExt id part).ends = p.ends := by
  unfold Panel.performExt
  split
  · rfl
  · split
    · rfl
    · dsimp only
      split
      · exact (Panel.ends_later ..).trans (p.ends_bill ..)
      · split
        · refine (Panel.ends_peerOut ..).trans ?_
          split
          · exact p.ends_bill ..
          · rfl
        · exact p.ends_later ..

/-! ### The engines' requests (R347-R360, R366, R437) -/

theorem Panel.ends_updChan (p : Panel) (cl ch : Nat) (f : Chan → Chan) : (p.updChan cl ch f).ends = p.ends := p.ends_updCluster ..

theorem Panel.ends_updWalk (p : Panel) (lc : Nat) (f : Walk → Walk) : (p.updWalk lc f).ends = p.ends := p.ends_updCore ..

theorem Panel.ends_updRds (p : Panel) (e : Eng) (f : List Rd → List Rd) : (p.updRds e f).ends = p.ends := by
  unfold Panel.updRds
  cases e with
  | relay cl ch => exact p.ends_updChan ..
  | walk core => exact p.ends_updWalk ..
  | hoop cl => exact p.ends_updCluster ..

theorem Panel.ends_engGot (p : Panel) (e : Eng) (cmd rd d err : Nat) (data : Line) : (p.engGot e cmd rd d err data).ends = p.ends := by
  unfold Panel.engGot
  split
  · rfl
  · exact (Panel.ends_later ..).trans (p.ends_updRds ..)

theorem Panel.ends_engFatal (p : Panel) (core slot tag cause va : Nat) : (p.engFatal core slot tag cause va).ends = p.ends := by
  have hraised : (p.fatalAt core cause (w64 va)).ends = p.ends := p.ends_fatalAt ..
  unfold Panel.engFatal
  exact Panel.ends_ite _ ((Panel.ends_decC ..).trans hraised) hraised

theorem Panel.ends_relayNext (p : Panel) (cl ch : Nat) : (p.relayNext cl ch).ends = p.ends := by
  unfold Panel.relayNext
  exact Panel.ends_ite _ (p.ends_later ..) (Panel.ends_ite _ (p.ends_later ..) rfl)

theorem Panel.ends_relayAdvance (p : Panel) (cl ch n : Nat) : (p.relayAdvance cl ch n).ends = p.ends := by
  have hpos (f : Cluster → Cluster) (g : Chan → Chan) : ((p.updCluster cl f).updChan cl ch g).ends = p.ends :=
    (Panel.ends_updChan ..).trans (p.ends_updCluster ..)
  unfold Panel.relayAdvance
  refine Panel.ends_ite _ (hpos ..) ((Panel.ends_relayNext ..).trans (Panel.ends_ite _ ((Panel.ends_send ..).trans (hpos ..)) (hpos ..)))

theorem Panel.ends_relayFatal (p : Panel) (cl ch cause va : Nat) : (p.relayFatal cl ch cause va).ends = p.ends := by
  unfold Panel.relayFatal
  exact Panel.ends_ite _ ((Panel.ends_fatalAt ..).trans (p.ends_updChan ..)) ((Panel.ends_engFatal ..).trans (p.ends_updChan ..))

theorem Panel.ends_walkNext (p : Panel) (lc : Nat) : (p.walkNext lc).ends = p.ends := by
  unfold Panel.walkNext
  exact Panel.ends_ite _ (p.ends_later ..) (Panel.ends_ite _ (p.ends_later ..) rfl)

theorem Panel.ends_walkFatal (p : Panel) (lc cause va : Nat) : (p.walkFatal lc cause va).ends = p.ends := by
  unfold Panel.walkFatal
  exact Panel.ends_ite _ ((Panel.ends_fatalAt ..).trans (p.ends_updWalk ..)) ((Panel.ends_engFatal ..).trans (p.ends_updWalk ..))

theorem Panel.ends_engPut (p : Panel) (e : Eng) (cmd n : Nat) : (p.engPut e cmd n).ends = p.ends := by
  unfold Panel.engPut
  refine Panel.ends_ite _ rfl ?_
  cases e with
  | relay cl ch => exact p.ends_relayAdvance ..
  | walk core => exact (Panel.ends_walkNext ..).trans (p.ends_updWalk ..)
  | hoop cl => rfl

theorem Panel.ends_engPutFail (p : Panel) (e : Eng) (cmd line cause : Nat) : (p.engPutFail e cmd line cause).ends = p.ends := by
  unfold Panel.engPutFail
  refine Panel.ends_ite _ rfl ?_
  cases e with
  | relay cl ch => exact p.ends_relayFatal ..
  | walk core => exact p.ends_walkFatal ..
  | hoop cl => rfl

theorem Panel.ends_engRead (p : Panel) (sc : Nat) (e : Eng) (cmd rd : Nat) (l : L2Line) (key : Nat) : (p.engRead sc e cmd rd l key).ends = p.ends :=
  (Panel.ends_engGot ..).trans (p.ends_charge ..)

theorem Panel.ends_engWrite (p : Panel) (sc : Nat) (e : Eng) (cmd off n data mask : Nat) (l : L2Line) (key : Nat) :
    (p.engWrite sc e cmd off n data mask l key).ends = p.ends := by
  unfold Panel.engWrite
  exact Panel.ends_ite _ (p.ends_engPutFail ..) ((Panel.ends_engPut ..).trans ((Panel.ends_charge ..).trans (p.ends_slicePutMask ..)))

theorem Panel.ends_bulkAnswer (p : Panel) (pf : Bool) (lc num : Nat) (ok : Bool) (flight : List (Nat × Nat)) :
    (p.bulkAnswer pf lc num ok flight).ends = p.ends := by
  unfold Panel.bulkAnswer
  split
  · rfl
  · refine Panel.ends_ite _ rfl (Panel.ends_ite _ ?_ ?_)
    · exact (Panel.ends_later ..).trans (p.ends_updCore ..)
    · exact (Panel.ends_later ..).trans (p.ends_updCore ..)

theorem Panel.ends_mcrdFail (p : Panel) (lc num idx cause : Nat) : (p.mcrdFail lc num idx cause).ends = p.ends := by
  unfold Panel.mcrdFail
  split
  · rfl
  next x t _ =>
    have hraised : ((p.updCore lc fun c => { c with mcrd := t }).fatalAt lc cause (w64 (x.va + 64 * idx))).ends = p.ends :=
      (Panel.ends_fatalAt ..).trans (p.ends_updCore ..)
    have hcounted := Panel.ends_ite ((p.ctx lc x.slot).btag = x.btag) ((Panel.ends_decC _ lc x.slot).trans hraised) hraised
    exact Panel.ends_ite _ rfl (Panel.ends_ite _ hcounted ((Panel.ends_later ..).trans hcounted))

theorem Panel.ends_mcrdLine (p : Panel) (sc lc num idx : Nat) (l : L2Line) (key : Nat) : (p.mcrdLine sc lc num idx l key).ends = p.ends := by
  unfold Panel.mcrdLine
  split
  · rfl
  · refine Panel.ends_ite _ rfl (Panel.ends_ite _ (p.ends_mcrdFail ..) (Panel.ends_ite _ (p.ends_mcrdFail ..) ?_))
    exact (Panel.ends_foldl _ (fun r t => r.ends_sendOn ..) _ _).trans ((Panel.ends_treeCharge ..).trans (p.ends_updCore ..))

/-! ### Staging (R437) -/

theorem Panel.ends_stageNext (p : Panel) (cl num n : Nat) : (p.stageNext cl num n).ends = p.ends := by
  unfold Panel.stageNext
  split
  · rfl
  next x _ =>
    refine Panel.ends_ite _ ?_ ((Panel.ends_once ..).trans (p.ends_updCluster ..))
    have hdone (q : Panel) (c : Prop) [Decidable c] : (if c then q else q.later 1 .stagingComplete [x.launch]).ends = q.ends :=
      Panel.ends_ite _ rfl (q.ends_later ..)
    exact Panel.ends_ite _ ((hdone ..).trans (p.ends_updCluster ..)) ((Panel.ends_once ..).trans ((hdone ..).trans (p.ends_updCluster ..)))

theorem Panel.ends_stageFail (p : Panel) (cl num cause : Nat) : (p.stageFail cl num cause).ends = p.ends := by
  unfold Panel.stageFail
  split
  · rfl
  · exact Panel.ends_ite _ (p.ends_stageNext ..) (p.ends_raiseHalt ..)

theorem Panel.ends_stageSend (p : Panel) (cl num n bytes : Nat) : (p.stageSend cl num n bytes).ends = p.ends := by
  unfold Panel.stageSend
  split
  · rfl
  · exact p.ends_send ..

theorem Panel.ends_stageLine (p : Panel) (cl num : Nat) (l : L2Line) (key : Nat) : (p.stageLine cl num l key).ends = p.ends := by
  unfold Panel.stageLine
  split
  · rfl
  · exact Panel.ends_ite _ (p.ends_stageFail ..) (Panel.ends_ite _ (p.ends_stageNext ..) (Panel.ends_ite _ (p.ends_stageFail ..) (p.ends_stageSend ..)))

/-! ### Requests of a slice (R120-R123) -/

theorem Panel.ends_walkStep (p : Panel) (cl num : Nat) (l : L2Line) : (p.walkStep cl num l).ends = p.ends := by
  unfold Panel.walkStep
  split
  · rfl
  · refine Panel.ends_ite _ rfl (Panel.ends_ite _ (p.ends_walkEnd ..) (Panel.ends_ite _ (p.ends_walkEnd ..) (Panel.ends_ite _ (p.ends_walkEnd ..)
      (Panel.ends_ite _ (p.ends_walkEnd ..) (Panel.ends_ite _ (p.ends_walkEnd ..) ?_)))))
    exact (Panel.ends_walkRead ..).trans (p.ends_updCluster ..)

theorem Panel.ends_performReq (p : Panel) (sc : Nat) (r : Req) : (p.performReq sc r).ends = p.ends := by
  unfold Panel.performReq
  split
  · split
    · exact p.ends_performExt ..
    all_goals rfl
  · split
    · rfl
    · split
      · exact p.ends_performPart ..
      · exact p.ends_bulkAnswer ..
      · refine Panel.ends_ite _ ?_ ((Panel.ends_bulkAnswer ..).trans (p.ends_fatalAt ..))
        exact (Panel.ends_bulkAnswer ..).trans ((Panel.ends_dropLine ..).trans (Panel.ends_ite _ (p.ends_billReq ..) rfl))
      · exact p.ends_mcrdLine ..
      · exact p.ends_walkStep ..
      · exact p.ends_stageLine ..
      · exact p.ends_engRead ..
      · exact p.ends_engWrite ..

theorem Panel.ends_failReq (p : Panel) (r : Req) (cause : Nat) : (p.failReq r cause).ends = p.ends := by
  unfold Panel.failReq
  split
  · exact p.ends_sliceError ..
  · exact p.ends_bulkAnswer ..
  · exact p.ends_bulkAnswer ..
  · exact p.ends_mcrdFail ..
  · exact p.ends_walkEnd ..
  · exact p.ends_stageFail ..
  · exact p.ends_engGot ..
  · exact p.ends_engPutFail ..

theorem Panel.ends_pfAgain (p : Panel) (q : Partition) (line key : Nat) : (p.pfAgain q line key).ends = p.ends :=
  Panel.ends_foldl _ (fun r _ => (Panel.ends_ask ..).trans (r.ends_updCore ..)) _ p

theorem Panel.ends_finishFetch (p : Panel) (sc : Nat) (m : Mshr) : (p.finishFetch sc m).ends = p.ends := by
  have hbill (r : Panel) (line n : Nat) (hr : r.ends = p.ends) :
      Panel.ends (match m.waiters with
        | x :: _ => if n = 0 then r else r.billReq x fun _ => r.hbmPj (p.part (partOf p sc)) sc line n
        | [] => r) = p.ends := by
    split
    · exact Panel.ends_ite _ hr ((r.ends_billReq ..).trans hr)
    · exact hr
  have hleft : (p.updSlice sc fun s => { s with mshr := s.mshr.erase m }).ends = p.ends := p.ends_updSlice ..
  unfold Panel.finishFetch
  dsimp only
  split
  · refine (Panel.ends_foldl _ (fun r _ => r.ends_performReq ..) _ _).trans (hbill _ _ _ ((Panel.ends_placeLine ..).trans (hbill _ _ _ hleft)))
  · exact (Panel.ends_pfAgain ..).trans ((Panel.ends_foldl _ (fun r _ => r.ends_failReq ..) _ _).trans (hbill _ _ _ hleft))

theorem Panel.ends_fetchLine (p : Panel) (sc line : Nat) (rs : List Req) : (p.fetchLine sc line rs).ends = p.ends :=
  (Panel.ends_later ..).trans (p.ends_updSlice ..)

theorem Panel.ends_takeReq (p : Panel) (sc : Nat) (r : Req) : (p.takeReq sc r).ends = p.ends := by
  unfold Panel.takeReq
  extract_lets q c
  have hq : q.ends = p.ends := p.ends_updSlice ..
  have hc : c.ends = p.ends := (q.ends_l2Check ..).trans hq
  clear_value q c
  refine Panel.ends_ite _ ((q.ends_performReq ..).trans hq) (Panel.ends_ite _ (Panel.ends_ite _ ?_ ((q.ends_updSlice ..).trans hq)) ?_)
  · split
    · exact (q.ends_bulkAnswer ..).trans hq
    all_goals exact hq
  · refine Panel.ends_ite _ ((Panel.ends_performReq ..).trans ((c.ends_touch ..).trans hc)) (Panel.ends_ite _ ?_
      (Panel.ends_ite _ ((c.ends_fetchLine ..).trans hc) ((c.ends_updSlice ..).trans hc)))
    split
    · exact (c.ends_bulkAnswer ..).trans hc
    all_goals exact hc

/-- A slice that works off what it holds leaves launches and blocks as they are (R122, R123). -/
theorem Panel.ends_settleSlice (p : Panel) (sc k : Nat) : (p.settleSlice sc k).ends = p.ends := by
  induction k generalizing p with
  | zero => rfl
  | succ k ih =>
    unfold Panel.settleSlice
    split
    · exact (ih _).trans (p.ends_finishFetch ..)
    · split
      · exact (ih _).trans (p.ends_takeReq ..)
      · split
        · exact (ih _).trans (p.ends_updSlice ..)
        · rfl

theorem Panel.ends_settled (p : Panel) (sc : Nat) : (p.settled sc).ends = p.ends := (Panel.ends_updSlice ..).trans (p.ends_settleSlice ..)

/-! ### A queue that stops (R149, R429, R437) -/

/-- The panel after a line has been reached, or not (R142). -/
def panelOf : Except (Nat × Panel) Panel → Panel
  | .ok r => r
  | .error e => e.2

theorem Panel.ends_withLine (p : Panel) (q : Partition) (line key : Nat) (go : Panel → Panel) (hgo : ∀ r, (go r).ends = r.ends) :
    (panelOf (p.withLine q line key go)).ends = p.ends := by
  have hchecked (sc : Nat) : ((p.settled sc).l2Check sc line).ends = p.ends := (Panel.ends_l2Check ..).trans (p.ends_settled sc)
  unfold Panel.withLine
  dsimp only
  split
  · exact p.ends_sliceLost _
  · split
    · split
      · exact hchecked _
      · exact (hgo _).trans ((Panel.ends_touch ..).trans (hchecked _))
    · split
      · exact hchecked _
      · exact (hgo _).trans ((Panel.ends_placeLine ..).trans (hchecked _))

theorem Panel.ends_lineFatal (q : Partition) (line : Nat) (e : Nat × Panel) : (lineFatal q line e).ends = e.2.ends := by
  unfold lineFatal
  exact Panel.ends_ite _ rfl (Panel.ends_fatalAt ..)

theorem Panel.ends_ownWrite (p : Panel) (q : Partition) (line off n v : Nat) : (p.ownWrite q line off n v).ends = p.ends := by
  have hline := p.ends_withLine q line 0 (fun p => p.setLine (homeSlice q line) line (n == 64) fun d => lineWrite d off n v) fun r => r.ends_setLine ..
  unfold Panel.ownWrite
  split
  next r hr =>
    rw [hr] at hline
    exact hline
  next e he =>
    rw [he] at hline
    exact (Panel.ends_lineFatal ..).trans hline

theorem Panel.ends_updQueue (p : Panel) (pi qi : Nat) (f : Queue → Queue) : (p.updQueue pi qi f).ends = p.ends := p.ends_updPart ..

theorem Panel.ends_flushQueue (p : Panel) (pi qi : Nat) : (p.flushQueue pi qi).ends = p.ends := by
  unfold Panel.flushQueue
  refine Panel.ends_ite _ (p.ends_ownWrite ..) ?_
  split
  · rfl
  · exact p.ends_ownWrite ..

theorem Panel.ends_queueStop (p : Panel) (pi qi code : Nat) : (p.queueStop pi qi code).ends = p.ends := by
  unfold Panel.queueStop
  exact Panel.ends_ite _ rfl ((Panel.ends_report ..).trans ((Panel.ends_flushQueue ..).trans (p.ends_updQueue ..)))

theorem Panel.ends_launchStatus (p : Panel) (pi qi status : Nat) : (p.launchStatus pi qi status).ends = p.ends := by
  unfold Panel.launchStatus
  exact Panel.ends_ite _ rfl (p.ends_queueStop ..)

/-! ### Blocks that stop (R437) -/

theorem Panel.ends_clearCluster (p : Panel) (cl tag : Nat) : (p.clearCluster cl tag).ends = p.ends := p.ends_updCluster ..

theorem Panel.ends_clearCore (p : Panel) (lc tag : Nat) : (p.clearCore lc tag).ends = p.ends :=
  (Panel.ends_later ..).trans ((Panel.ends_updCore ..).trans ((Panel.ends_updCore ..).trans
    (Panel.ends_foldl _ (fun q _ => q.ends_setCtx ..) _ p)))

theorem Panel.ends_dropL1 (p : Panel) (lc : Nat) : (dropL1 p lc).ends = p.ends := Panel.ends_of rfl rfl

theorem Panel.ends_dropFused (p : Panel) (cl : Nat) : (dropFused p cl).ends = p.ends := Panel.ends_foldl _ (fun q _ => q.ends_dropL1 _) _ p

/-- The launches stand. -/
theorem Panel.launches_of_ends {p q : Panel} (h : q.ends = p.ends) : q.launches = p.launches := congrArg Prod.fst h

theorem Panel.state_of_ends {p q : Panel} (h : q.ends = p.ends) (t : Nat) : (q.block t).st = (p.block t).st := congrFun (congrArg Prod.snd h) t

/-- The block that is set to stop has stopped, whether or not it was there. -/
theorem Panel.state_updBlock_ended (p : Panel) (tag t : Nat) :
    ((p.updBlock tag fun b => { b with st := .ended }).block t).st = if tag = t then .ended else (p.block t).st := by
  split
  next h =>
    subst h
    cases hfind : SMap.find p.blocks tag with
    | none => simp [Panel.updBlock, hfind, Panel.block, SMap.getD, noBlock]
    | some b => simp [Panel.updBlock, hfind, Panel.block, SMap.getD]
  next h => rw [p.block_updBlock_other tag t _ h]

/-- Stopping a block ends it, and no other block and no launch. -/
theorem Panel.stopBlock_ends (p : Panel) (tag : Nat) :
    (p.stopBlock tag).launches = p.launches ∧ ∀ t, ((p.stopBlock tag).block t).st = if tag = t then .ended else (p.block t).st := by
  unfold Panel.stopBlock
  dsimp only
  generalize hq : List.foldl (fun q cl => (dropFused q cl).updCluster cl _) _ _ = q
  have hkept : q.ends = p.ends := by
    rw [← hq]
    refine (Panel.ends_foldl _ (fun r cl => (Panel.ends_updCluster ..).trans (r.ends_dropFused cl)) _ _).trans ?_
    refine (Panel.ends_foldl _ (fun r _ => (Panel.ends_unwait ..).trans (r.ends_delAcc _)) _ _).trans ?_
    refine (Panel.ends_foldl _ (fun r lc => r.ends_clearCore lc tag) _ _).trans ?_
    exact Panel.ends_foldl _ (fun r cl => r.ends_clearCluster cl tag) _ p
  refine ⟨(q.updBlock_launches tag _).trans (Panel.launches_of_ends hkept), fun t => ?_⟩
  rw [q.state_updBlock_ended, Panel.state_of_ends hkept]

theorem Panel.stopBlocks_ends (tags : List Nat) (p : Panel) :
    (tags.foldl (fun q t => q.stopBlock t) p).launches = p.launches ∧
      ∀ t, ((tags.foldl (fun q t => q.stopBlock t) p).block t).st = if t ∈ tags then .ended else (p.block t).st := by
  induction tags generalizing p with
  | nil => exact ⟨rfl, fun t => by simp⟩
  | cons x tags ih =>
    obtain ⟨hlaunches, hst⟩ := ih (p.stopBlock x)
    obtain ⟨hl, hs⟩ := p.stopBlock_ends x
    refine ⟨hlaunches.trans hl, fun t => ?_⟩
    rw [List.foldl_cons, hst, hs]
    grind

/-! ### A launch that ends (R165, R437) -/

/-- A launch has ended with a status and an address, and a block has stopped. -/
structure Panel.Ended (p : Panel) (i status addr tag : Nat) : Prop where
  state : (p.launch i).st = .ended
  status : (p.launch i).status = status
  addr : (p.launch i).addr = addr
  block : (p.block tag).st = .ended

theorem Panel.Ended.of_ends {p q : Panel} {i status addr tag : Nat} (h : p.Ended i status addr tag) (hq : q.ends = p.ends) :
    q.Ended i status addr tag := by
  have hlaunch : q.launch i = p.launch i := by rw [Panel.launch, Panel.launches_of_ends hq, Panel.launch]
  exact ⟨hlaunch ▸ h.state, hlaunch ▸ h.status, hlaunch ▸ h.addr, (Panel.state_of_ends hq tag).trans h.block⟩

/-- A launch that is placed ends with the status and the address, and a block of it that runs stops. -/
theorem Panel.endLaunch_ended (p : Panel) (i status addr tag : Nat) (l : Launch) (b : Block) (hl : SMap.find p.launches i = some l)
    (hplaced : l.st = .placed) (hb : SMap.find p.blocks tag = some b) (hof : b.launch = i) (hrun : b.st = .resident) :
    (p.endLaunch i status addr).Ended i status addr tag := by
  have hlaunch : p.launch i = l := by simp [Panel.launch, SMap.getD, hl]
  unfold Panel.endLaunch
  rw [hlaunch, if_neg (by simp [hplaced])]
  extract_lets tags p1 p2 p3 p4
  have htag : tag ∈ tags := by
    refine List.mem_map.mpr ⟨(tag, b), List.mem_filter.mpr ⟨SMap.mem_of_find hb, ?_⟩, rfl⟩
    simp [hof, hrun]
  obtain ⟨hlaunches, hst⟩ := p.stopBlocks_ends tags
  have hkept : p3.ends = p1.ends := (Panel.ends_updPart ..).trans (Panel.ends_of rfl rfl)
  have hthere : (SMap.find p3.launches i).isSome = true := by
    rw [Panel.launches_of_ends hkept, hlaunches, hl]
    rfl
  have hended : p4.launch i = { p3.launch i with st := .ended, status := status, addr := addr, range := none, slots := [], asked := [] } :=
    p3.launch_updLaunch_self i _ hthere
  have hstopped : (p4.block tag).st = .ended := by
    have hblocks : p4.blocks = p3.blocks := p3.updLaunch_blocks i _
    rw [Panel.block, hblocks, ← Panel.block, Panel.state_of_ends hkept, hst, if_pos htag]
  have hp4 : p4.Ended i status addr tag := ⟨by rw [hended], by rw [hended], by rw [hended], hstopped⟩
  exact hp4.of_ends ((Panel.ends_later ..).trans (p4.ends_launchStatus ..))

/-- An access outside what a strict launch declares ends the launch with status 7 and its address, and stops its thread (R164, R165). -/
theorem Panel.violation_ended (p : Panel) (va : Nat) (l : Launch) (hl : SMap.find p.launches p.cb.launch = some l) (hplaced : l.st = .placed)
    (hb : SMap.find p.blocks p.cc.btag = some p.cb) (hrun : p.cb.st = .resident) :
    (p.violation va).Ended p.cb.launch 7 va p.cc.btag ∧ (p.violation va).cur.trapped = true :=
  ⟨(p.endLaunch_ended _ 7 va _ l _ hl hplaced hb rfl hrun).of_ends (Panel.ends_of rfl rfl), rfl⟩

end Sys2Proof.Machine
end

section
/-! The scalar loads and stores of R287 outside the thread's own window, and in strict launches (R28-R36, R97, R108, R164, R165). -/

namespace Sys2Proof.Machine

theorem Panel.word_bad (p : Panel) (st : Bool) (ea n : Nat) (sx : Bool) (d : Reg) (c : Nat) (hcalm : p.Calm) (hplace : place p p.src ea n = .bad c) :
    p.word st ea n sx d = p.trap c (BitVec.ofNat 64 ea) := by
  obtain ⟨⟨hhome, -⟩, hacq⟩ := hcalm
  rw [Panel.word_eq p _ _ _ _ _ hacq]
  exact p.scalarAcc_bad _ c hhome hplace

/-- A paged access outside what a strict launch declares ends the launch (R164, R165). -/
theorem Panel.word_strict (p : Panel) (st : Bool) (ea n : Nat) (sx : Bool) (d : Reg) (hcalm : p.Calm) (hplace : place p p.src ea n = .paged)
    (hout : strictOk p.cl ea n (if st then 2 else 1) = false) : p.word st ea n sx d = p.violation ea := by
  cases st with
  | false =>
    rw [Panel.word_paged_load p ea n sx d hcalm.2 hplace]
    exact if_neg (ne_true_of_eq_false hout)
  | true =>
    rw [Panel.word_paged_store p ea n sx d hcalm.2 hplace]
    exact if_neg (ne_true_of_eq_false hout)

/-- The same loads and stores with the right that they need of a declared range: 1 to read, 2 to write (R164). -/
def strictForms (d a : Reg) (m : BitVec 16) : List (Instr × Nat × Nat) := (wordForms d a m).map fun x => (x.1, x.2.1, if x.2.2.1 then 2 else 1)

/-- Settles O9: each place of an address by the panel that the access leaves; a strict violation by what ending a launch does to launches and blocks. -/
theorem otherScalarAccesses : Obligations.OtherScalarAccesses := by
  unfold Obligations.OtherScalarAccesses
  refine ⟨?elsewhere, ?strict⟩
  case elsewhere =>
    intro s d a m p ea hcalm i n st sx hform
    obtain ⟨hn, hexec⟩ := exec_wordForm s d a m hform
    refine ⟨fun c hplace => ?_, fun lc off hplace hout => ⟨?_, ?_, ?_, ?_⟩, fun hplace hstrict => ⟨?_, ?_, ?_, ?_⟩⟩
    · rw [hexec, Panel.word_bad _ _ _ _ _ _ _ hcalm hplace]
    · rintro rfl hroom
      have hleft := p.word_remote false ea n sx d lc off hcalm hplace hout hroom
      exact ⟨_, hexec, hleft.load rfl, hleft.g, hleft.acc, hleft.mem⟩
    · rintro rfl hroom
      have hleft := p.word_remote true ea n sx d lc off hcalm hplace hout hroom
      exact ⟨_, hexec, hleft.store rfl, hleft.g, hleft.acc, hleft.mem⟩
    · rintro rfl hfull
      exact hexec.trans (congrArg s.to (p.word_remote_full false ea n sx d lc off hcalm hplace hout hfull))
    · rintro rfl hfull
      exact hexec.trans (congrArg s.to (p.word_remote_full true ea n sx d lc off hcalm hplace hout hfull))
    · rintro v rfl hroom hcheck hread hwait
      rw [hexec, Panel.word_load_hit _ _ _ v _ _ hcalm hplace hstrict hroom hcheck hread, if_pos hwait]
    · rintro v rfl hroom hcheck hread hpending hopen
      rw [hexec, Panel.word_load_hit _ _ _ v _ _ hcalm hplace hstrict hroom hcheck hread,
        if_neg (not_or.mpr ⟨ne_true_of_eq_false hpending, ne_true_of_eq_false hopen⟩)]
      rfl
    · rintro rfl hroom hcheck hread hregion htlb
      have hleft := p.word_load_miss ea n sx d hcalm hn hplace hstrict hroom hcheck hread hregion htlb
      exact ⟨_, hexec, hleft.load rfl, hleft.g, hleft.acc, hleft.mem⟩
    · rintro rfl hroom hregion hl1 htlb
      have hleft := p.word_store_miss ea n sx d hcalm hn hplace hstrict hroom hregion hl1 htlb
      exact ⟨_, hexec, hleft.store rfl, hleft.g, hleft.acc, hleft.mem⟩
  case strict =>
    intro s d a m l p ea hcalm hl hplaced hb hrun i n need hform hplace hstrict
    obtain ⟨⟨i', n', st, sx⟩, hword, heq⟩ := List.mem_map.mp (show (i, n, need) ∈ strictForms d a m from hform)
    obtain ⟨rfl, rfl, rfl⟩ : i' = i ∧ n' = n ∧ (if st then 2 else 1) = need := by simpa using heq
    obtain ⟨-, hexec⟩ := exec_wordForm s d a m hword
    rw [Panel.word_strict _ _ _ _ _ _ hcalm hplace hstrict] at hexec
    obtain ⟨hended, htrapped⟩ := p.violation_ended ea l hl hplaced hb hrun
    exact ⟨_, hexec, hended.state, hended.status, hended.addr, hended.block, htrapped⟩

end Sys2Proof.Machine
end

section
/-! Exact integer arithmetic of lanes, of product segments and of integrator cells (R51, R52, R77, R331, R392). -/

namespace Sys2Proof.Machine

/-! ### Integers in a field of bits (R51, R52) -/

theorem cut_lt (w : Nat) (v : Int) : cut w v < 2 ^ w := by
  have hlt := Int.emod_lt_of_pos v (b := 2 ^ w) (by positivity)
  rw [cut, Int.toNat_lt (Int.emod_nonneg v (by positivity))]
  exact_mod_cast hlt

/-- The low bits of an integer, read back as one. -/
theorem cast_cut (w : Nat) (v : Int) : (cut w v : Int) = v % 2 ^ w := Int.toNat_of_nonneg (Int.emod_nonneg v (by positivity))

/-- The low bits of an integer within the signed range are the integer. -/
theorem sgn_cut (n : Nat) (v : Int) (hlo : -(2 ^ n) ≤ v) (hhi : v < 2 ^ n) : sgn (n + 1) (cut (n + 1) v) = v := by
  have hpow : (2 : Int) ^ (n + 1) = 2 * 2 ^ n := pow_succ' 2 n
  have hmod : ((cut (n + 1) v % 2 ^ (n + 1) : Nat) : Int) = v % (2 * 2 ^ n) := by
    rw [Nat.mod_eq_of_lt (cut_lt _ v), cast_cut, hpow]
  have hge : 2 ^ n ≤ cut (n + 1) v % 2 ^ (n + 1) ↔ (2 : Int) ^ n ≤ v % (2 * 2 ^ n) := by
    rw [← hmod]
    exact_mod_cast Iff.rfl
  rw [sgn, Nat.add_sub_cancel]
  push_cast at hmod
  rw [hmod, hpow]
  simp only [hge]
  generalize (2 : Int) ^ n = m at *
  by_cases hneg : v < 0
  · have hv : v % (2 * m) = v + 2 * m := by
      rw [← Int.add_emod_right, Int.emod_eq_of_lt (by omega) (by omega)]
    rw [hv, if_pos (by omega)]
    omega
  · rw [Int.emod_eq_of_lt (by omega) (by omega), if_neg (by omega)]

/-! ### Lanes (R51, R52, R331) -/

theorem reduce_wrap (n : Nat) (u : Bool) (v : Int) : reduce n u false v = cut n v := rfl

/-- An unsigned saturated result is the nearest number of the lane's range. -/
theorem reduce_unsigned (n : Nat) (v : Int) : (reduce n true true v : Int) = max 0 (min (2 ^ n - 1) v) := by
  have hpos : 0 < 2 ^ n := by positivity
  have hcast : ((2 ^ n : Nat) : Int) = 2 ^ n := by norm_cast
  rw [reduce, if_neg (by decide), if_pos rfl, ← hcast]
  generalize 2 ^ n = m at *
  split
  · omega
  · split
    · omega
    · omega

/-- A signed saturated result is the low bits of the nearest number of the lane's range. -/
theorem reduce_signed (n : Nat) (v : Int) :
    reduce (n + 1) false true v = cut (n + 1) (max (-(2 ^ n)) (min (2 ^ n - 1) v)) := by
  have hpos : (0 : Int) < 2 ^ n := by positivity
  have hpow : (2 : Int) ^ (n + 1) = 2 * 2 ^ n := pow_succ' 2 n
  have hcast : ((2 ^ n : Nat) : Int) = 2 ^ n := by norm_cast
  have hone : 0 < 2 ^ n := by positivity
  rw [reduce, if_neg (by decide), if_neg (by decide), Nat.add_sub_cancel]
  split
  next hbelow =>
    rw [max_eq_left (by omega), ← Int.natCast_inj, cast_cut, hpow, hcast, ← Int.add_emod_right, Int.emod_eq_of_lt (by omega) (by omega)]
    omega
  next hnot =>
    split
    next habove =>
      rw [min_eq_left (by omega), max_eq_right (by omega), ← Int.natCast_inj, cast_cut, hpow, Int.emod_eq_of_lt (by omega) (by omega)]
      omega
    next hin => rw [min_eq_right (by omega), max_eq_right (by omega)]

/-- A saturated result read in its signedness is the nearest number of the lane's range. -/
theorem laneVal_reduce (n : Nat) (u : Bool) (v : Int) (hn : 0 < n) :
    reduce n u true v < 2 ^ n ∧
      laneVal n u (reduce n u true v) = max (if u then 0 else -(2 ^ (n - 1))) (min (if u then 2 ^ n - 1 else 2 ^ (n - 1) - 1) v) := by
  obtain ⟨n, rfl⟩ := Nat.exists_eq_add_of_lt hn
  rw [Nat.zero_add, Nat.add_sub_cancel]
  cases u with
  | true =>
    have hval := reduce_unsigned (n + 1) v
    have hlt : reduce (n + 1) true true v < 2 ^ (n + 1) := by
      have hpos : 0 < 2 ^ (n + 1) := by positivity
      zify at hpos ⊢
      omega
    refine ⟨hlt, ?_⟩
    rw [laneVal, if_pos rfl, if_pos rfl, if_pos rfl, ← hval]
    exact_mod_cast Nat.mod_eq_of_lt hlt
  | false =>
    have hpos : (0 : Int) < 2 ^ n := by positivity
    rw [reduce_signed, laneVal, if_neg Bool.false_ne_true, if_neg Bool.false_ne_true, if_neg Bool.false_ne_true]
    exact ⟨cut_lt _ _, sgn_cut n _ (by omega) (by omega)⟩

/-! ### Segments of integer products (R77) -/

/-- The exact sum of a segment's mantissa products. -/
def mantSum (ps : List (Elem × Elem)) : Int := (ps.map fun e => e.1.mant * e.2.mant).sum

theorem foldl_mant (ps : List (Elem × Elem)) (t : Int) :
    ps.foldl (fun (t : Int) e => t + e.1.mant * e.2.mant) t = t + mantSum ps := by
  induction ps generalizing t with
  | nil => exact (Int.add_zero t).symm
  | cons e ps ih =>
    rw [List.foldl_cons, ih, mantSum, mantSum, List.map_cons, List.sum_cons]
    omega

theorem sgn_cut_sat64 (v : Int) : sgn 64 (cut 64 (sat64 v)) = sat64 v :=
  sgn_cut 63 _ (by rw [sat64]; omega) (by rw [sat64]; omega)

/-- A segment whose first blocks both have a scale of a number adds its sum, scaled to the entry, and clamps (R77). -/
theorem intSegment_scaled (ea : Int) (acc : Acc) (a b : Elem) (ps : List (Elem × Elem)) (ha : a.scale ≠ 255) (hb : b.scale ≠ 255)
    (ha0 : a.scale ≠ 0) (hb0 : b.scale ≠ 0) (hd : 0 ≤ unitExp a.code a.scale + unitExp b.code b.scale - ea) :
    sgn 64 (intSegment ea acc ((a, b) :: ps)).bits =
        sat64 (sgn 64 acc.bits + mantSum ((a, b) :: ps) * 2 ^ (unitExp a.code a.scale + unitExp b.code b.scale - ea).toNat) ∧
      (intSegment ea acc ((a, b) :: ps)).nan = acc.nan := by
  simp only [intSegment, ha, hb, ha0, hb0, hd, or_self, if_false, if_true, foldl_mant, Int.zero_add, sgn_cut_sat64, and_self]

/-! ### A step of a cell (R392) -/

/-- What a step of a cell from `x` to `r` accounts for: y has become `y1`, and `t` stands as remainder and stroke. -/
structure Cell.Stepped (x : Cell) (y1 t : Int) (r : Cell) : Prop where
  y : r.y = y1
  q : r.q < 2 ^ x.k
  outLo : -1 ≤ r.out
  outHi : r.out ≤ 1
  exact : (r.q : Int) + r.out * 2 ^ x.k = t
  k : r.k = x.k
  s : r.s = x.s
  dom : r.dom = x.dom
  fifo : r.fifo = x.fifo

theorem Cell.stepped_emit {x : Cell} {y1 t q v : Int} (hq : 0 ≤ q ∧ q < 2 ^ x.k) (hv : -1 ≤ v ∧ v ≤ 1) (ht : q + v * 2 ^ x.k = t) :
    x.Stepped y1 t { x with y := y1, q := q.toNat, out := v } := by
  obtain ⟨hq0, hqm⟩ := hq
  refine ⟨rfl, ?_, hv.1, hv.2, ?_, rfl, rfl, rfl, rfl⟩
  · zify
    rwa [Int.toNat_of_nonneg hq0]
  · rw [← ht, Int.toNat_of_nonneg hq0]

/-- A cell whose y leaves its range overruns and stays as it was (R392). -/
theorem stepCell_overrun (x : Cell) (dx dsum : Int) (h : 2 ^ x.k ≤ (x.y + dsum * 2 ^ x.s).natAbs) : stepCell x dx dsum = (x, true) := by
  zify at h
  rw [stepCell, if_pos (by rw [le_abs'] at h; exact h)]

/-- A cell that keeps its y in range emits at most one stroke, and loses nothing (R392). -/
theorem stepCell_stepped (x : Cell) (dx dsum : Int) (hq : x.q < 2 ^ x.k) (hlo : -1 ≤ dx) (hhi : dx ≤ 1)
    (h : (x.y + dsum * 2 ^ x.s).natAbs < 2 ^ x.k) :
    ∃ r, stepCell x dx dsum = (r, false) ∧ x.Stepped (x.y + dsum * 2 ^ x.s) (x.q + (x.y + dsum * 2 ^ x.s) * dx) r := by
  zify at hq h
  unfold stepCell
  dsimp only
  generalize x.y + dsum * 2 ^ x.s = y1 at *
  obtain ⟨hlow, hhigh⟩ := abs_lt.mp h
  have hstroke : -2 ^ x.k < y1 * dx ∧ y1 * dx < 2 ^ x.k := by
    obtain rfl | rfl | rfl : dx = -1 ∨ dx = 0 ∨ dx = 1 := by omega
    · omega
    · omega
    · omega
  generalize y1 * dx = t at *
  rw [if_neg (by omega)]
  split
  next hup => exact ⟨_, rfl, Cell.stepped_emit (by omega) (by omega) (by omega)⟩
  next hnot =>
    split
    next hdown => exact ⟨_, rfl, Cell.stepped_emit (by omega) (by omega) (by omega)⟩
    next hin => exact ⟨_, rfl, Cell.stepped_emit (by omega) (by omega) (by omega)⟩

/-- Settles O15: lanes by the value of their low bits, segments by the sum of their products, a cell's step by its three outcomes. -/
theorem exactIntegerSteps : Obligations.ExactIntegerSteps := by
  unfold Obligations.ExactIntegerSteps
  refine ⟨fun n u v hn => ?lanes, fun ea acc a0 b0 ps => ⟨fun hnan => ?nan, fun ha hb hzero => ?zero, ?scaled⟩,
    fun x dx dsum => fun hq hlo hhi => ⟨fun hin => ?step, stepCell_overrun x dx dsum⟩⟩
  case lanes =>
    obtain ⟨hlt, hval⟩ := laneVal_reduce n u v hn
    refine ⟨cut_lt n v, hlt, ?_, hval⟩
    rw [reduce_wrap, cast_cut, Int.emod_sub_emod, Int.sub_self, Int.zero_emod]
  case nan => exact if_pos hnan
  case zero => exact (if_neg (not_or.mpr ⟨ha, hb⟩)).trans (if_pos hzero)
  case scaled => exact fun ha hb ha0 hb0 hd => intSegment_scaled ea acc a0 b0 ps ha hb ha0 hb0 hd
  case step =>
    obtain ⟨r, hr, hstep⟩ := stepCell_stepped x dx dsum hq hlo hhi hin
    obtain ⟨hy, hq', hout, hout', hexact, hk, hs, hdom, hfifo⟩ := hstep
    rw [hr]
    exact ⟨rfl, hy, hq', hout, hout', hexact, hk, hs, hdom, hfifo⟩

end Sys2Proof.Machine
end

section
/-! Memory bit by bit (R3, R86, R87), and the lanes of a vector that accesses fill or empty (R51, R334-R338). -/

namespace Sys2Proof.Machine

/-! ### Bits of memory -/

/-- Bit `y mod 8` of byte `y div 8` (R86). -/
def Memory.bit (m : Memory) (y : Nat) : Bool := (Memory.get m (y / 8)).getLsbD (y % 8)

theorem Memory.testBit_readN (m : Memory) (a n k : Nat) (h : k < 8 * n) : (Memory.readN m a n).testBit k = m.bit (8 * a + k) := by
  induction n generalizing a k with
  | zero => omega
  | succ n ih =>
    rw [Memory.readN, Nat.add_comm, show 256 = 2 ^ 8 from rfl, Nat.testBit_two_pow_mul_add _ (Memory.get m a).isLt]
    by_cases hk : k < 8
    · rw [if_pos hk, Memory.bit, show (8 * a + k) / 8 = a by omega, show (8 * a + k) % 8 = k by omega, BitVec.testBit_toNat]
    · rw [if_neg hk, ih _ _ (by omega), show 8 * (a + 1) + (k - 8) = 8 * a + k by omega]

theorem Memory.testBit_readBits (m : Memory) (ba w j : Nat) (h : j < w) : (Memory.readBits m ba w).testBit j = m.bit (ba + j) := by
  rw [Memory.readBits, Nat.testBit_mod_two_pow, Nat.testBit_shiftRight, Memory.testBit_readN _ _ _ _ (by omega), ← Nat.add_assoc, Nat.div_add_mod]
  simp [h]

theorem Memory.readBits_lt (m : Memory) (ba w : Nat) : Memory.readBits m ba w < 2 ^ w := Nat.mod_lt _ (by positivity)

/-- A number below a power of two whose bits are those of a run of memory is what the run holds. -/
theorem Memory.readBits_eq {m : Memory} {ba w v : Nat} (hv : v < 2 ^ w) (h : ∀ j, j < w → m.bit (ba + j) = v.testBit j) :
    Memory.readBits m ba w = v := by
  refine Nat.eq_of_testBit_eq fun j => ?_
  by_cases hj : j < w
  · rw [Memory.testBit_readBits _ _ _ _ hj, h j hj]
  · have hpow : 2 ^ w ≤ 2 ^ j := Nat.pow_le_pow_right (by omega) (by omega)
    rw [Nat.testBit_lt_two_pow ((m.readBits_lt ba w).trans_le hpow), Nat.testBit_lt_two_pow (hv.trans_le hpow)]

theorem Memory.readBits_congr {m m' : Memory} {ba w : Nat} (h : ∀ j, j < w → m.bit (ba + j) = m'.bit (ba + j)) :
    Memory.readBits m ba w = Memory.readBits m' ba w :=
  Memory.readBits_eq (m'.readBits_lt ba w) fun j hj => (h j hj).trans (m'.testBit_readBits ba w j hj).symm

/-- A byte is its eight bits. -/
theorem Memory.get_congr {m m' : Memory} {y : Nat} (h : ∀ j, j < 8 → m.bit (8 * y + j) = m'.bit (8 * y + j)) : Memory.get m y = Memory.get m' y := by
  refine BitVec.eq_of_getLsbD_eq fun j hj => ?_
  have hbit := h j hj
  rwa [Memory.bit, Memory.bit, show (8 * y + j) / 8 = y by omega, show (8 * y + j) % 8 = j by omega] at hbit

/-- Bits written are what is read, and every other bit stands (R87). -/
theorem Memory.bit_writeBits (m : Memory) (ba w v y : Nat) (hw : 0 < w) :
    (Memory.writeBits m ba w v).bit y = if ba ≤ y ∧ y < ba + w then v.testBit (y - ba) else m.bit y := by
  obtain ⟨a, k, hk, rfl⟩ : ∃ a k, k < 8 ∧ ba = 8 * a + k := ⟨ba / 8, ba % 8, by omega, by omega⟩
  by_cases hin : a ≤ y / 8 ∧ y / 8 < a + (k + w + 7) / 8
  · obtain ⟨j, rfl⟩ := Nat.exists_eq_add_of_le (show 8 * a ≤ y by omega)
    have hj : j < 8 * ((k + w + 7) / 8) := by omega
    rw [← Memory.testBit_readN _ _ _ _ hj, Memory.testBit_writeBits _ _ _ _ _ _ hk hw hj, Memory.testBit_readN _ _ _ _ hj]
    by_cases hbit : k ≤ j ∧ j < k + w
    · rw [if_pos hbit, if_pos (by omega), show 8 * a + j - (8 * a + k) = j - k by omega]
    · rw [if_neg hbit, if_neg (by omega)]
  · rw [Memory.bit, Memory.get_writeBits_other _ _ _ _ _ _ hk (by omega), if_neg (by omega), Memory.bit]

theorem Memory.readBits_writeBits (m : Memory) (ba w v : Nat) (hw : 0 < w) : Memory.readBits (Memory.writeBits m ba w v) ba w = v % 2 ^ w := by
  refine Memory.readBits_eq (Nat.mod_lt _ (by positivity)) fun j hj => ?_
  rw [Memory.bit_writeBits _ _ _ _ _ hw, if_pos (by omega), Nat.add_sub_cancel_left, Nat.testBit_mod_two_pow]
  simp [hj]

theorem Memory.bit_writeN (m : Memory) (a n v k : Nat) (h : k < 8 * n) : (Memory.writeN m a n v).bit (8 * a + k) = v.testBit k := by
  rw [← Memory.testBit_readN _ _ _ _ h, Memory.readN_writeN, pow_256, Nat.testBit_mod_two_pow]
  simp [h]

/-! ### Runs of one width written in order -/

/-- Runs of `w` bits at `B i`, written for the indices of a list in its order. -/
def Memory.writeAll (m : Memory) (w : Nat) (B f : Nat → Nat) (is : List Nat) : Memory :=
  is.foldl (fun m i => Memory.writeBits m (B i) w (f i)) m

/-- A bit of none of the runs stands. -/
theorem Memory.bit_writeAll_other (m : Memory) (w : Nat) (B f : Nat → Nat) (is : List Nat) (y : Nat) (hw : 0 < w)
    (h : ∀ i ∈ is, y < B i ∨ B i + w ≤ y) : (m.writeAll w B f is).bit y = m.bit y := by
  induction is generalizing m with
  | nil => rfl
  | cons i is ih =>
    have hi := h i List.mem_cons_self
    exact (ih _ fun k hk => h k (List.mem_cons_of_mem _ hk)).trans ((m.bit_writeBits _ _ _ _ hw).trans (if_neg (by omega)))

theorem Memory.readBits_writeAll_other (m : Memory) (w : Nat) (B f : Nat → Nat) (is : List Nat) (ba n : Nat) (hw : 0 < w)
    (h : ∀ i ∈ is, ba + n ≤ B i ∨ B i + w ≤ ba) : Memory.readBits (m.writeAll w B f is) ba n = Memory.readBits m ba n :=
  Memory.readBits_congr fun j hj => m.bit_writeAll_other w B f is _ hw fun i hi => by
    have := h i hi
    omega

/-- A run that no later one touches reads back what was written (R337, R338). -/
theorem Memory.readBits_writeAll (m : Memory) (w : Nat) (B f : Nat → Nat) (is : List Nat) (j : Nat) (hw : 0 < w) (hj : j ∈ is)
    (hsort : is.Pairwise (· < ·)) (h : ∀ i ∈ is, j < i → B j + w ≤ B i ∨ B i + w ≤ B j) :
    Memory.readBits (m.writeAll w B f is) (B j) w = f j % 2 ^ w := by
  induction is generalizing m with
  | nil => cases hj
  | cons i is ih =>
    obtain ⟨hlater, hsort⟩ := List.pairwise_cons.mp hsort
    rcases List.mem_cons.mp hj with rfl | hj
    · have hrest := (m.writeBits (B j) w (f j)).readBits_writeAll_other w B f is (B j) w hw fun k hk =>
        h k (List.mem_cons_of_mem _ hk) (hlater k hk)
      exact hrest.trans (m.readBits_writeBits _ _ _ hw)
    · exact ih _ hj hsort fun k hk => h k (List.mem_cons_of_mem _ hk)

/-! ### Lanes of a number (R51, R330) -/

/-- Field `j` of a number cut in fields of `n` bits. -/
def field (n v j : Nat) : Nat := v / 2 ^ (n * j) % 2 ^ n

theorem testBit_field (n v j k : Nat) : (field n v j).testBit k = (decide (k < n) && v.testBit (n * j + k)) := by
  rw [field, Nat.testBit_mod_two_pow, Nat.testBit_div_two_pow, Nat.add_comm k]

theorem field_lt (n v j : Nat) : field n v j < 2 ^ n := Nat.mod_lt _ (by positivity)

theorem bf_field (n v j w : Nat) (hw : 0 < w) (hwn : w ≤ n) : bf v (n * j + w - 1) (n * j) = field n v j % 2 ^ w := by
  rw [bf, show n * j + w - 1 + 1 - n * j = w by omega, Nat.shiftRight_eq_div_pow, field, Nat.mod_mod_of_dvd _ (Nat.pow_dvd_pow 2 hwn)]

theorem lane_eq_field (n : Nat) (v : Line) (j : Nat) (hn : 0 < n) : lane n v j = field n v.toNat j := by
  rw [lane, bf_field n _ j n hn le_rfl, Nat.mod_eq_of_lt (field_lt n _ j)]

/-- A lane of a vector lies within its 512 bits. -/
theorem lane_fits {n j : Nat} (h : j < 512 / n) : n * j + n ≤ 512 :=
  calc n * j + n = n * (j + 1) := (Nat.mul_succ n j).symm
    _ ≤ n * (512 / n) := Nat.mul_le_mul_left n h
    _ ≤ 512 := Nat.mul_div_le 512 n

/-- Fields of different numbers share no bit. -/
theorem field_apart {n i j : Nat} (h : i ≠ j) : n * i + n ≤ n * j ∨ n * j + n ≤ n * i := by
  rcases Nat.lt_or_gt_of_ne h with hlt | hgt
  · exact .inl ((Nat.mul_succ n i).symm.trans_le (Nat.mul_le_mul_left n hlt))
  · exact .inr ((Nat.mul_succ n j).symm.trans_le (Nat.mul_le_mul_left n hgt))

/-- A field put into a number. -/
theorem field_putBits (n d i v j : Nat) (hn : 0 < n) :
    field n (putBits d (n * i + n - 1) (n * i) v) j = if j = i then v % 2 ^ n else field n d j := by
  refine Nat.eq_of_testBit_eq fun k => ?_
  rw [testBit_field, testBit_putBits _ _ _ _ _ hn]
  by_cases hk : k < n
  · by_cases hij : j = i
    · subst hij
      rw [if_pos (by omega), if_pos rfl, Nat.testBit_mod_two_pow, Nat.add_sub_cancel_left]
    · have := field_apart (n := n) hij
      rw [if_neg (by omega), if_neg hij, testBit_field]
  · have hlt : (if j = i then v % 2 ^ n else field n d j) < 2 ^ n := by
      split
      · exact Nat.mod_lt _ (by positivity)
      · exact field_lt n d j
    rw [Nat.testBit_lt_two_pow (hlt.trans_le (Nat.pow_le_pow_right (by omega) (by omega)))]
    simp [hk]

/-- A lane of the vector in 64 bytes of memory is the bits at its place (R330). -/
theorem lane_readN (m : Memory) (x n j : Nat) (hn : 0 < n) (hj : j < 512 / n) :
    lane n (BitVec.ofNat 512 (Memory.readN m x 64)) j = Memory.readBits m (8 * x + n * j) n := by
  have hfit := lane_fits hj
  rw [lane_eq_field _ _ _ hn]
  refine (Memory.readBits_eq (field_lt n _ j) fun k hk => ?_).symm
  rw [testBit_field, toNat_ofNat_bytes _ 64 _ rfl, Nat.mod_eq_of_lt (m.readN_lt x 64), Memory.testBit_readN _ _ _ _ (by omega), ← Nat.add_assoc]
  simp [hk]

/-- A lane of a vector just written. -/
theorem readBits_writeN_lane (m : Memory) (x v n j : Nat) (hj : j < 512 / n) :
    Memory.readBits (Memory.writeN m x 64 v) (8 * x + n * j) n = field n v j := by
  have hfit := lane_fits hj
  refine Memory.readBits_eq (field_lt n v j) fun k hk => ?_
  rw [Nat.add_assoc, Memory.bit_writeN _ _ _ _ _ (by omega), testBit_field]
  simp [hk]

/-! ### Items of lanes (R334-R338) -/

/-- The item of lane `j` of `n` bits: `w` bits at bit `B j` of local memory. -/
def laneItem (w n : Nat) (B : Nat → Nat) (sx : Bool) (j : Nat) : Item := ⟨w, B j, n * j, n, sx⟩

/-- What a lane takes from the bits of its item (R51, R86). -/
def laneRead (m : Memory) (lc w n : Nat) (B : Nat → Nat) (sx : Bool) (j : Nat) : Nat :=
  let v := Memory.readBits m (8 * lmA lc 0 + B j) w
  if sx then cut n (sgn w v) else v % 2 ^ n

theorem laneRead_lt (m : Memory) (lc w n : Nat) (B : Nat → Nat) (sx : Bool) (j : Nat) : laneRead m lc w n B sx j < 2 ^ n := by
  rw [laneRead]
  split
  · exact cut_lt n _
  · exact Nat.mod_lt _ (by positivity)

/-- The data of items read: each lane that an item names holds its bits, and every other is zero. -/
theorem field_readItems (m : Memory) (lc w n : Nat) (B : Nat → Nat) (sx : Bool) (is : List Nat) (j : Nat) (hw : 0 < w) (hn : 0 < n) :
    field n (readItems m lc (is.map (laneItem w n B sx))) j = if j ∈ is then laneRead m lc w n B sx j else 0 := by
  have hfold (acc : Nat) : field n (is.foldl (fun acc i => putBits acc (n * i + n - 1) (n * i) (laneRead m lc w n B sx i)) acc) j =
      if j ∈ is then laneRead m lc w n B sx j else field n acc j := by
    induction is generalizing acc with
    | nil => simp
    | cons i is ih =>
      rw [List.foldl_cons, ih, field_putBits _ _ _ _ _ hn]
      by_cases hmem : j ∈ is
      · rw [if_pos hmem, if_pos (List.mem_cons_of_mem _ hmem)]
      · rw [if_neg hmem]
        by_cases hij : j = i
        · subst hij
          rw [if_pos rfl, if_pos List.mem_cons_self, Nat.mod_eq_of_lt (laneRead_lt ..)]
        · rw [if_neg hij, if_neg (by simp [hij, hmem])]
  have hzero : field n 0 j = 0 := by simp [field]
  have hitems : readItems m lc (is.map (laneItem w n B sx)) =
      is.foldl (fun acc i => putBits acc (n * i + n - 1) (n * i) (laneRead m lc w n B sx i)) 0 := by
    rw [readItems, List.foldl_map]
    simp only [laneItem, hw.ne', if_false]
    rfl
  rw [hitems, hfold, hzero]

/-- Items written: the bits of each lane at its place, in the order of the items (R87). -/
theorem Panel.writeItems_mem (p : Panel) (lc w n : Nat) (B : Nat → Nat) (sx : Bool) (is : List Nat) (data : Nat) (hw : 0 < w) (hwn : w ≤ n) :
    (p.writeItems lc (is.map (laneItem w n B sx)) data).mem =
      p.mem.writeAll w (fun j => 8 * lmA lc 0 + B j) (fun j => field n data j % 2 ^ w) is := by
  unfold Panel.writeItems
  rw [List.foldl_map]
  induction is generalizing p with
  | nil => rfl
  | cons i is ih =>
    rw [List.foldl_cons, ih, Memory.writeAll, Memory.writeAll, List.foldl_cons]
    simp only [laneItem, if_neg hw.ne', Panel.updCore_mem, bf_field n _ _ w hw hwn]

/-- Lanes of a vector in register space written each at its place, from the fields of a number (R337). -/
theorem foldl_laneItem_writes (m : Memory) (x w n : Nat) (B : Nat → Nat) (sx : Bool) (is : List Nat) (v : Nat) (hn : 0 < n) :
    (is.map (laneItem w n B sx)).foldl (fun m i => Memory.writeBits m (8 * x + i.pos) i.pw (bf v (i.pos + i.pw - 1) i.pos)) m =
      m.writeAll n (fun j => 8 * x + n * j) (field n v) is := by
  rw [List.foldl_map]
  simp only [laneItem, bf_field n v _ n hn le_rfl, Nat.mod_eq_of_lt (field_lt n v _), Memory.writeAll]

end Sys2Proof.Machine
end

section
/-! Vector loads and stores (R182, R183, R236, R266, R333-R338): what each instruction asks of the panel, and the three ways an access to local memory
goes. -/

namespace Sys2Proof.Machine

/-! ### Before the access (R187, R237, R265, R266, R333) -/

theorem Panel.views_mapped (p : Panel) (vs : List Nat) (k : Panel → Panel) (h : p.Mapped vs) : p.views (vs.map fun v => (v, 1)) k = k p := by
  obtain ⟨hhome, hok⟩ := h
  rw [Panel.views, Panel.atHome_home p _ hhome, if_pos (by simpa using hok)]

theorem Panel.memory_calm (p : Panel) (k : Panel → Panel) (h : p.acqBusy = false) : p.memory k = k p := by
  simp [Panel.memory, h]

/-- The vectors of one view register lie at whole vectors from each other (R236). -/
theorem vecAddr_eq (p : Panel) (c : Ctx) (i : Nat) :
    vecAddr p c i = rsA p.cur.core 0 + 64 * (c.rsBase + bf c.vv.toNat 9 0 + i * (bf c.vv.toNat 19 16 + 1)) := by
  rw [vecAddr, rsWin, vecOff, rsA, rsA]
  ring

/-- Two of them are the same or share no byte (R266). -/
theorem overlapBad_vecs (p : Panel) (c : Ctx) (i j : Nat) : overlapBad (groupAddrs p c i 1) (groupAddrs p c j 1) = false := by
  have hone (k : Nat) : groupAddrs p c k 1 = [vecAddr p c k] := rfl
  rw [hone, hone, vecAddr_eq, vecAddr_eq]
  generalize c.rsBase + _ + i * _ = x
  generalize c.rsBase + _ + j * _ = y
  by_cases h : x = y
  · subst h
    simp [overlapBad, sameBytes]
  · simp [overlapBad, shareByte]
    omega

theorem Panel.apart_vecs (p : Panel) (d : Nat) (vs : List Nat) (k : Panel → Panel) : p.apart (d, 1) (vs.map fun v => (v, 1)) k = k p := by
  rw [Panel.apart, if_neg]
  simp [overlapBad_vecs]

/-- A source vector of a lone word, or of a C-word, as it stands (R253). -/
theorem Panel.vec_lone (p : Panel) (i : Nat) (h : p.cur.latch = none) : p.vec i = p.vecNow i := by
  rw [Panel.vec, Panel.srcMem, h, Panel.vecNow]

/-! ### The end of an access at the banks (R84, R98) -/

/-- Bank cycles and the run target change no byte, no register and no mask. -/
theorem Panel.banks_frame (p : Panel) (k : Nat) :
    (p.untrack.bankGap k).fin.mem = p.mem ∧ (p.untrack.bankGap k).fin.cc.g = p.cc.g ∧ (p.untrack.bankGap k).fin.cc.m = p.cc.m := by
  obtain ⟨hmem, -, x, hcc⟩ := p.untrack.bankGap_frame k
  rw [Panel.fin_mem, hmem, Panel.cc_fin_eq, hcc, Panel.cc_untrack]
  exact ⟨rfl, rfl, rfl⟩

/-- Items written touch no context. -/
theorem Panel.cc_writeItems (p : Panel) (lc data : Nat) (its : List Item) : (p.writeItems lc its data).cc = p.cc := by
  rw [Panel.cc, Panel.writeItems_cur, Panel.ctx_writeItems, Panel.cc]

/-! ### Accesses to local memory (R182, R183, R335-R338) -/

section
variable (p : Panel) (va size core cost data : Nat) (its : List Item)

/-- An access to the thread's own window waits for the thread's mesh-window accesses to its bytes (R182, R183). -/
theorem Panel.vecLocal_wait (store : Bool) (dest : Dest) (i : Item) (hi : i ∈ its)
    (h : p.meshOpen store core (i.bit / 8) ((i.bit % 8 + i.w + 7) / 8) = true) :
    p.vecLocal store va size core false its cost data dest = p.retry :=
  if_pos ⟨rfl, List.any_eq_true.mpr ⟨i, hi, h⟩⟩

/-- None of the thread's mesh-window accesses is open at an item's bytes. -/
def Panel.itemsCalm (store : Bool) : Prop := ∀ i ∈ its, p.meshOpen store core (i.bit / 8) ((i.bit % 8 + i.w + 7) / 8) = false

theorem Panel.MeshCalm.items {p : Panel} (h : p.MeshCalm) (store : Bool) : p.itemsCalm core its store := fun _ _ => h _ _ _ _

variable {p its core}

theorem Panel.vecLocal_store (dest : Dest) (h : p.itemsCalm core its true) :
    p.vecLocal true va size core false its cost data dest = ((p.writeItems core its data).untrack.bankGap cost).fin := by
  have hany : its.any (fun i => p.meshOpen true core (i.bit / 8) ((i.bit % 8 + i.w + 7) / 8)) = false := by simpa [Panel.itemsCalm] using h
  simp [Panel.vecLocal, hany]

/-- What a vector load leaves in memory (R335, R337, R338). -/
def Panel.loaded (p : Panel) (core : Nat) (its : List Item) : Dest → Memory
  | .vec x => Memory.writeN p.mem x 64 (readItems p.mem core its)
  | .lanes x => its.foldl (fun m i => Memory.writeBits m (8 * x + i.pos) i.pw (bf (readItems p.mem core its) (i.pos + i.pw - 1) i.pos)) p.mem
  | .none => p.mem
  | .g _ => p.mem
  | .sh _ => p.mem
  | .tile _ => p.mem

theorem Panel.vecLocal_load (dest : Dest) (h : p.itemsCalm core its false) :
    p.vecLocal false va size core false its cost data dest = (({ p with mem := p.loaded core its dest } : Panel).untrack.bankGap cost).fin := by
  have hany : its.any (fun i => p.meshOpen false core (i.bit / 8) ((i.bit % 8 + i.w + 7) / 8)) = false := by simpa [Panel.itemsCalm] using h
  cases dest
  all_goals simp [Panel.vecLocal, hany, Panel.loaded]

end

/-! ### The way through the mesh window (R98, R263) -/

theorem Panel.cc_updCore (p : Panel) (lc : Nat) (f : Core → Core) (hf : ∀ c, (f c).ctxs = c.ctxs) : (p.updCore lc f).cc = p.cc :=
  p.ctx_updCore lc p.cur.core p.cur.slot f hf

/-- The run tracker touches no byte, no register and no counter. -/
theorem Panel.trackTo_frame (p : Panel) (t : Nat) (mesh : Bool) :
    (p.trackTo t mesh).mem = p.mem ∧ (p.trackTo t mesh).cur = p.cur ∧ (p.trackTo t mesh).nid = p.nid ∧
      ∃ x, (p.trackTo t mesh).cc = { p.cc with tracker := x } := by
  have htrack (x y : Nat) : (p.track x y).mem = p.mem ∧ (p.track x y).cur = p.cur ∧ (p.track x y).nid = p.nid ∧
      ∃ x', (p.track x y).cc = { p.cc with tracker := x' } := by
    unfold Panel.track
    dsimp only
    split
    · exact ⟨rfl, rfl, rfl, _, Panel.cc_updC ..⟩
    · split
      · exact ⟨rfl, rfl, rfl, _, Panel.cc_updC ..⟩
      · refine ⟨rfl, rfl, rfl, some ⟨x, y, 1, pcHash p.cc.pc⟩, ?_⟩
        rw [Panel.cc_updC, Panel.cc_updCore]
        exact fun _ => rfl
  unfold Panel.trackTo
  dsimp only
  split
  · exact ⟨rfl, rfl, rfl, _, p.cc_untrack⟩
  · split
    · exact htrack _ _
    · exact ⟨rfl, rfl, rfl, p.cc.tracker, rfl⟩

/-- A mesh-window access is issued, and its thread changes at once (R97, R263). -/
theorem Panel.issueFin_mesh_updC (p : Panel) (a : Access) (f : Ctx → Ctx) (hitems : a.items ≠ []) :
    let t := p.issueFin a fun q => q.updC f
    t.mem = p.mem ∧ (∃ pc, t.cc = { f (p.cc.counted a.cls) with pc := pc }) ∧ ∃ b, t.acc p.nid = some b ∧ (p.numbered a).Same b := by
  intro t
  obtain ⟨hmem, -, -, hcc, patch, hacc⟩ := p.enter_entered a
  have hfin : ((p.enter a).updC f).fin.acc p.nid = some { p.numbered a with patch := patch } := (Panel.fin_acc _ _).trans hacc
  have hon : ((p.enter a).updC f).fin.Onward t := Panel.onward_dispatch_mesh _ _ _ hfin hitems
  obtain ⟨b, hb, hsame⟩ := hon.accs _ _ hfin
  refine ⟨?_, ?_, b, hb, (Access.Same.patch _ patch).trans hsame⟩
  · rw [hon.mem, Panel.fin_mem, Panel.updC_mem, hmem]
  · rw [hon.cc, Panel.cc_fin_eq, Panel.cc_updC, hcc]
    exact ⟨_, rfl⟩

/-- The access through the mesh window that a vector instruction issues (R335, R337, R338). -/
def Panel.vecAcc (p : Panel) (store : Bool) (va size core : Nat) (its : List Item) (data : Nat) (dest : Dest) : Access :=
  { mkAcc (if store then .vstore else .vload) (if store then .stores else .loads) va size with
    dest := dest, data := data, target := core, items := its, after := p.afterMesh false va size core }

/-- Through the mesh window an access waits for room in its class, and is issued (R97, R263). -/
theorem Panel.vecLocal_mesh (p : Panel) (store : Bool) (va size core : Nat) (its : List Item) (cost data : Nat) (dest : Dest) :
    p.vecLocal store va size core true its cost data dest =
      if 15 ≤ (if store then p.cc.stc else p.cc.ldc) then p.retry
      else (p.trackTo core true).issueFin (p.vecAcc store va size core its data dest) := by
  simp only [← p.full_iff store]
  rfl

/-- The access in the table behind an issue to a core is that of the thread before it looked at its run target. -/
theorem issued_of_tracked (s : State) (core : Nat) (a b : Access) (t : Panel) (hb : t.acc (s.panel.trackTo core true).nid = some b)
    (hsame : ((s.panel.trackTo core true).numbered a).Same b) : Issued s { s with panel := t } a.kind a.va a.size a.dest := by
  obtain ⟨-, hcur, hnid, -⟩ := s.panel.trackTo_frame core true
  rw [hnid] at hb
  exact ⟨b, hb, hsame.core.trans (congrArg Cur.core hcur), hsame.slot.trans (congrArg Cur.slot hcur), hsame.kind, hsame.va, hsame.size, hsame.dest⟩

/-- What an access through the mesh window leaves, where its class has room: its class counts one more, its access stands in the table, and no register
and no byte has changed (R97, R263). -/
theorem vecAcc_issued (s : State) (store : Bool) (va size core : Nat) (its : List Item) (data : Nat) (dest : Dest) (hits : its ≠ []) :
    let p := s.panel
    let t : State := { s with panel := (p.trackTo core true).issueFin (p.vecAcc store va size core its data dest) }
    (store = false → t.panel.cc.ldc = p.cc.ldc + 1) ∧ (store = true → t.panel.cc.stc = p.cc.stc + 1) ∧
      Issued s t (if store then .vstore else .vload) va size dest ∧ t.panel.mem = p.mem ∧ t.panel.cc.g = p.cc.g := by
  intro p t
  obtain ⟨hmem, -, -, x, hcc⟩ := p.trackTo_frame core true
  obtain ⟨hmem', ⟨pc, hcc'⟩, b, hb, hsame⟩ := (p.trackTo core true).issueFin_mesh (p.vecAcc store va size core its data dest) hits
  have hissued : Issued s t (if store then .vstore else .vload) va size dest := issued_of_tracked s core _ b _ hb hsame
  have hctx : t.panel.cc = { ({ p.cc with tracker := x } : Ctx).counted (if store then .stores else .loads) with pc := pc } := by
    rw [← hcc]
    exact hcc'
  refine ⟨?_, ?_, hissued, hmem'.trans hmem, ?_⟩
  · rintro rfl
    rw [hctx]
    rfl
  · rintro rfl
    rw [hctx]
    rfl
  · rw [hctx]
    cases store with
    | false => rfl
    | true => rfl

end Sys2Proof.Machine
end

section
/-! The vector memory instructions (R63, R334-R338): one vector, gathers and scatters, bit vectors and described blocks. -/

namespace Sys2Proof.Machine

/-! ### What an access to the thread's own window leaves -/

theorem Panel.vecLocal_loaded (p : Panel) (va size lc cost data : Nat) (its : List Item) (dest : Dest) (h : p.itemsCalm lc its false) :
    (p.vecLocal false va size lc false its cost data dest).mem = p.loaded lc its dest ∧
      (p.vecLocal false va size lc false its cost data dest).cc.g = p.cc.g ∧
      (p.vecLocal false va size lc false its cost data dest).cc.m = p.cc.m := by
  rw [Panel.vecLocal_load va size cost data dest h]
  exact Panel.banks_frame _ _

theorem Panel.vecLocal_stored (p : Panel) (va size lc cost data : Nat) (its : List Item) (dest : Dest) (h : p.itemsCalm lc its true) :
    (p.vecLocal true va size lc false its cost data dest).mem = (p.writeItems lc its data).mem ∧
      (p.vecLocal true va size lc false its cost data dest).cc.g = p.cc.g := by
  obtain ⟨hmem, hg, -⟩ := (p.writeItems lc its data).banks_frame cost
  rw [Panel.vecLocal_store va size cost data dest h, hmem, hg, p.cc_writeItems]
  exact ⟨rfl, rfl⟩

theorem lmA_bytes (lc off : Nat) : 8 * lmA lc 0 + 8 * off = 8 * lmA lc off := by
  unfold lmA
  omega

/-- A byte of none of the runs stands. -/
theorem Memory.get_writeAll_other (m : Memory) (w : Nat) (B f : Nat → Nat) (is : List Nat) (y : Nat) (hw : 0 < w)
    (h : ∀ i ∈ is, 8 * y + 8 ≤ B i ∨ B i + w ≤ 8 * y) : Memory.get (m.writeAll w B f is) y = Memory.get m y :=
  Memory.get_congr fun j hj => m.bit_writeAll_other w B f is _ hw fun i hi => by
    have := h i hi
    omega

/-- One vector result, by the bits of its lanes. -/
theorem vecResult_of {s : State} {i : Instr} {q : Panel} {n d : Nat} {mask : W} {f : Nat → Nat} (hexec : exec i s = s.to q) (hn : 0 < n)
    (hlanes : ∀ j, j < 512 / n → Memory.readBits q.mem (8 * vecAddr s.panel s.panel.src d + n * j) n =
      if bt mask.toNat j then f j % 2 ^ n else Memory.readBits s.panel.mem (8 * vecAddr s.panel s.panel.src d + n * j) n)
    (hframe : SameBytesBut (vecAddr s.panel s.panel.src d) 64 s { s with panel := q }) (hg : q.cc.g = s.panel.cc.g) (hm : q.cc.m = s.panel.cc.m) :
    VecResult i s n d mask f := by
  refine ⟨_, hexec, fun j hj => ?_, hframe, hg, hm⟩
  rw [lane_readN _ _ _ _ hn hj, Panel.vecNow, lane_readN _ _ _ _ hn hj]
  exact hlanes j hj

/-! ### VLD and VST (R334, R335) -/

/-- The one item of 64 bytes at an offset of local memory. -/
def vecItem (off : Nat) : List Item := [0].map (laneItem 512 512 (fun _ => 8 * off) false)

theorem vecItem_calm (p : Panel) (store : Bool) (lc off : Nat) (h : p.meshOpen store lc off 64 = false) : p.itemsCalm lc (vecItem off) store := by
  intro i hi
  obtain rfl : i = laneItem 512 512 (fun _ => 8 * off) false 0 := List.mem_singleton.mp hi
  show p.meshOpen store lc (8 * off / 8) ((8 * off % 8 + 512 + 7) / 8) = false
  rwa [show 8 * off / 8 = off by omega, show (8 * off % 8 + 512 + 7) / 8 = 64 by omega]

theorem field_whole (v : Nat) : field 512 v 0 = v % 256 ^ 64 := by
  rw [field, pow_256, Nat.mul_zero, Nat.pow_zero, Nat.div_one]

/-- The 64 bytes that its item reads. -/
theorem readItems_vecItem (m : Memory) (lc off : Nat) : readItems m lc (vecItem off) % 256 ^ 64 = Memory.readN m (lmA lc off) 64 := by
  have hread := field_readItems m lc 512 512 (fun _ => 8 * off) false [0] 0 (by omega) (by omega)
  have hbytes : Memory.readBits m (8 * lmA lc off) 512 = Memory.readN m (lmA lc off) 64 := m.readBits_bytes (lmA lc off) 64
  rw [← field_whole, vecItem, hread, if_pos List.mem_cons_self, laneRead]
  rw [lmA_bytes, if_neg Bool.false_ne_true, Nat.mod_eq_of_lt (m.readBits_lt _ _), hbytes]

/-- A load or store of one vector as its instruction gives it to the core (R334, R335). -/
theorem Panel.vmem_lm (p : Panel) (store : Bool) (v : Nat) (a b : Reg) (h : BitVec 3) (lc off : Nat) (mesh : Bool) (hmap : p.Mapped [v])
    (hacq : p.acqBusy = false) (hplace : place p p.src (p.gv a + p.gv b * 2 ^ h.toNat).toNat 64 = .lm lc off mesh) :
    p.vmem store v a b h = p.vecLocal store (p.gv a + p.gv b * 2 ^ h.toNat).toNat 64 lc mesh (vecItem off) (groupsTouched off 64)
      (if store then (p.vec v).toNat else 0) (.vec (vecAddr p p.src v)) := by
  refine (p.views_mapped [v] _ hmap).trans ((p.memory_calm _ hacq).trans ?_)
  simp only [eaIdx_eq, hplace]
  rfl

theorem Panel.vmem_bad (p : Panel) (store : Bool) (v : Nat) (a b : Reg) (h : BitVec 3) (c : Nat) (hmap : p.Mapped [v])
    (hacq : p.acqBusy = false) (hplace : place p p.src (p.gv a + p.gv b * 2 ^ h.toNat).toNat 64 = .bad c) :
    p.vmem store v a b h = p.trap c (BitVec.ofNat 64 (p.gv a + p.gv b * 2 ^ h.toNat).toNat) := by
  refine (p.views_mapped [v] _ hmap).trans ((p.memory_calm _ hacq).trans ?_)
  simp only [eaIdx_eq, hplace]
  rfl

section
variable (s : State) (va cost data V lc off : Nat)

/-- A vector loaded from the thread's own window (R335). -/
theorem vecItem_loaded (h : s.panel.meshOpen false lc off 64 = false) :
    let x := vecAddr s.panel s.panel.src V
    let t : State := { s with panel := s.panel.vecLocal false va 64 lc false (vecItem off) cost data (.vec x) }
    Memory.readN t.panel.mem x 64 = Memory.readN s.panel.mem (lmA lc off) 64 ∧ SameBytesBut x 64 s t ∧ t.panel.cc.g = s.panel.cc.g := by
  intro x t
  obtain ⟨hmem, hg, -⟩ := s.panel.vecLocal_loaded va 64 lc cost data _ (.vec x) (vecItem_calm _ _ _ _ h)
  have hmem' : t.panel.mem = Memory.writeN s.panel.mem x 64 (readItems s.panel.mem lc (vecItem off)) := hmem
  refine ⟨?_, fun y hy => ?_, hg⟩
  · rw [hmem', Memory.readN_writeN, readItems_vecItem]
  · rw [hmem', Memory.get_writeN_other _ _ _ _ _ hy]

/-- A vector stored to the thread's own window (R335). -/
theorem vecItem_stored (dest : Dest) (h : s.panel.meshOpen true lc off 64 = false) :
    let t : State := { s with panel := s.panel.vecLocal true va 64 lc false (vecItem off) cost data dest }
    Memory.readN t.panel.mem (lmA lc off) 64 = data % 256 ^ 64 ∧ SameBytesBut (lmA lc off) 64 s t ∧ t.panel.cc.g = s.panel.cc.g := by
  intro t
  obtain ⟨hmem, hg⟩ := s.panel.vecLocal_stored va 64 lc cost data _ dest (vecItem_calm _ _ _ _ h)
  have hmem' : t.panel.mem = s.panel.mem.writeAll 512 (fun _ => 8 * lmA lc off) (fun j => field 512 data j % 2 ^ 512) [0] := by
    refine hmem.trans ((s.panel.writeItems_mem lc 512 512 (fun _ => 8 * off) false [0] data (by omega) le_rfl).trans ?_)
    rw [lmA_bytes]
  refine ⟨?_, fun y hy => ?_, hg⟩
  · have hread := s.panel.mem.readBits_writeAll 512 (fun _ => 8 * lmA lc off) (fun j => field 512 data j % 2 ^ 512) [0] 0 (by omega)
      List.mem_cons_self (List.pairwise_singleton _ _) (by simp)
    rw [← Memory.readBits_bytes, hmem', ← field_whole]
    exact hread.trans (by rw [Nat.mod_mod, Nat.mod_eq_of_lt (field_lt ..)])
  · rw [hmem']
    exact Memory.get_writeAll_other _ _ _ _ _ _ (by omega) fun i _ => by omega

end

/-- The bytes of a source vector, as a number. -/
theorem Panel.toNat_vec (p : Panel) (i : Nat) (h : p.cur.latch = none) : (p.vec i).toNat % 256 ^ 64 = Memory.readN p.mem (vecAddr p p.src i) 64 := by
  rw [p.vec_lone i h, Panel.vecNow, toNat_ofNat_bytes _ 64 _ rfl, Nat.mod_mod, Nat.mod_eq_of_lt (Memory.readN_lt ..)]

/-! ### VLDX and VSTX (R36, R337) -/

/-- A place in the thread's own window is an offset from the start of its block's window, whose bytes lie within it (R30). -/
theorem place_own {p : Panel} {c : Ctx} {va size lc off : Nat} (h : place p c va size = .lm lc off false) :
    off = (p.block c.btag).lmBase * 1024 + va ∧ va + size - 1 < (p.block c.btag).lmSize * 1024 := by
  unfold place at h
  split at h
  · cases h
  · split at h
    · cases h
    · split at h
      · cases h
      · unfold privPlace at h
        dsimp only at h
        split at h
        next hin =>
          obtain ⟨-, rfl, -⟩ := Place.lm.inj h
          exact ⟨rfl, hin⟩
        next => cases h
      · unfold meshPlace at h
        dsimp only at h
        split at h
        · cases h
        · split at h
          all_goals
            split at h
            · cases h
            · cases h
      · cases h

/-- A lane in the window of its base is where its address says (R337). -/
theorem gatherPlace_own (p : Panel) (base ea n lc o off : Nat) (hn : 0 < n) (hlatch : p.cur.latch = none)
    (hbase : place p p.src base 1 = .lm lc o false) (hlane : place p p.src ea n = .lm lc off false) :
    gatherPlace p base ea n = .lm lc off false := by
  obtain ⟨rfl, hin⟩ := place_own hlane
  have hblock : p.block p.src.btag = p.cb := by rw [Panel.src_lone p hlatch, Panel.cb]
  unfold gatherPlace
  rw [hblock] at hin hlane ⊢
  simp only [hbase, hlane]
  exact if_pos ⟨trivial, trivial, .inr ⟨by omega, by omega⟩⟩

/-- No lane fails where each lies in the window of the base. -/
theorem gatherBad_own (p : Panel) (base n lc o : Nat) (act : List (Nat × Nat)) (hn : 0 < n) (hlatch : p.cur.latch = none)
    (hbase : place p p.src base 1 = .lm lc o false) (hlanes : ∀ e ∈ act, ∃ off, place p p.src e.2 n = .lm lc off false) :
    gatherBad p base n act = none := by
  induction act with
  | nil => rfl
  | cons e act ih =>
    obtain ⟨off, hoff⟩ := hlanes e List.mem_cons_self
    obtain ⟨i, ea⟩ := e
    unfold gatherBad
    rw [gatherPlace_own p base ea n lc o off hn hlatch hbase hoff]
    exact ih fun e he => hlanes e (List.mem_cons_of_mem _ he)

/-- The lanes that a mask selects, in their order (R330). -/
def activeLanes (n : Nat) (mask : W) : List Nat := (List.range (512 / n)).filter fun i => bt mask.toNat i

theorem mem_activeLanes {n : Nat} {mask : W} {j : Nat} : j ∈ activeLanes n mask ↔ j < 512 / n ∧ bt mask.toNat j = true := by
  rw [activeLanes, List.mem_filter, List.mem_range]

theorem activeLanes_sorted (n : Nat) (mask : W) : (activeLanes n mask).Pairwise (· < ·) := List.pairwise_lt_range.filter _

theorem laneBits_bytes (f : Nat) : 0 < laneBits f / 8 ∧ 8 * (laneBits f / 8) = laneBits f := by
  unfold laneBits
  split
  all_goals decide

/-- The address of a lane: the base and its index times the lane's bytes (R337). -/
def Panel.laneEa (p : Panel) (vi : Nat) (a : Reg) (n j : Nat) : Nat := (p.gv a + BitVec.ofNat 64 (lane n (p.vec vi) j * (n / 8))).toNat

/-- What a gather or scatter of the thread's own window asks for: the lanes of its mask, each at its own offset. -/
structure Panel.Gathers (p : Panel) (v vi : Nat) (a : Reg) (m : BitVec 3) (n lc : Nat) (off : Nat → Nat) : Prop where
  mapped : p.Mapped [v, vi]
  noAcquire : p.acqBusy = false
  lone : p.cur.latch = none
  base : ∃ o, place p p.src (p.gv a).toNat 1 = .lm lc o false
  lanes : ∀ j ∈ activeLanes n (p.src.mask m.toNat), place p p.src (p.laneEa vi a n j) (n / 8) = .lm lc (off j) false

/-- The items of the lanes that a mask selects. -/
def laneItems (n : Nat) (mask : W) (off : Nat → Nat) : List Item := (activeLanes n mask).map (laneItem n n (fun j => 8 * off j) false)

/-- A gather or scatter of the thread's own window is one access of its lanes, or of none (R337). -/
theorem Panel.Gathers.eq {p : Panel} {v vi : Nat} {a : Reg} {m f : BitVec 3} {n lc : Nat} {off : Nat → Nat} (h : p.Gathers v vi a m n lc off)
    (hf : laneBits f.toNat = n) (hn : 0 < n / 8) (store : Bool) :
    ∃ o cost, p.gather store v vi a m f =
      if activeLanes n (p.src.mask m.toNat) = [] then p.vecLocal store (p.gv a).toNat 1 lc false [⟨0, 8 * o, 0, 0, false⟩] 1 0 .none
      else p.vecLocal store (p.gv a).toNat (n / 8) lc false (laneItems n (p.src.mask m.toNat) off) cost
        (if store then (p.vec v).toNat else 0) (.lanes (vecAddr p p.src v)) := by
  obtain ⟨hmap, hacq, hlatch, ⟨o, hbase⟩, hlanes⟩ := h
  have hact : (List.range (512 / n)).filter (fun i => bt (p.mv m).toNat i) = activeLanes n (p.src.mask m.toNat) := rfl
  have hea (j : Nat) : (w64 (p.gv a).toNat + w64 (lane n (p.vec vi) j * (n / 8))).toNat = p.laneEa vi a n j := by
    simp [w64, Panel.laneEa]
  have hbad : gatherBad p (p.gv a).toNat (n / 8) ((activeLanes n (p.src.mask m.toNat)).map fun i => (i, p.laneEa vi a n i)) = none := by
    refine gatherBad_own p _ (n / 8) lc o _ hn hlatch hbase fun e he => ?_
    obtain ⟨j, hj, rfl⟩ := List.mem_map.mp he
    exact ⟨off j, hlanes j hj⟩
  have hitems (F : Nat → Option Item) (hF : ∀ j ∈ activeLanes n (p.src.mask m.toNat), F j = some (laneItem n n (fun j => 8 * off j) false j)) :
      (activeLanes n (p.src.mask m.toNat)).filterMap F = laneItems n (p.src.mask m.toNat) off :=
    List.filterMap_eq_map_iff_forall_eq_some.mpr hF
  have hvs : (if store then [] else [(vi, 1)]) = (if store then [] else [vi]).map fun v => (v, 1) := by
    cases store with
    | false => rfl
    | true => rfl
  refine ⟨o, max 1 (distinctUnits 64 ((laneItems n (p.src.mask m.toNat) off).map fun i => (i.bit / 8, n / 8))),
    (p.views_mapped [v, vi] _ hmap).trans ?_⟩
  rw [hvs, Panel.apart_vecs, Panel.memory_calm _ _ hacq]
  simp only [hf, hact, hea, hbad, hbase, List.filterMap_map, List.map_eq_nil_iff]
  rw [hitems _ fun j hj => by simp only [Function.comp, hlanes j hj]; rfl]

/-- A gather from the thread's own window: the lanes of its mask hold their bytes (R337). -/
theorem Panel.Gathers.loaded {p : Panel} {v vi : Nat} {a : Reg} {m f : BitVec 3} {n lc : Nat} {off : Nat → Nat} (h : p.Gathers v vi a m n lc off)
    (hcalm : p.MeshCalm) (hf : laneBits f.toNat = n) (hn : 0 < n / 8) :
    let q := p.gather false v vi a m f
    q.mem = p.mem.writeAll n (fun j => 8 * vecAddr p p.src v + n * j) (field n (readItems p.mem lc (laneItems n (p.src.mask m.toNat) off)))
        (activeLanes n (p.src.mask m.toNat)) ∧
      q.cc.g = p.cc.g ∧ q.cc.m = p.cc.m := by
  obtain ⟨o, cost, heq⟩ := h.eq hf hn false
  dsimp only
  rw [heq]
  split
  next hnil =>
    rw [hnil]
    exact p.vecLocal_loaded _ _ _ _ _ _ .none (hcalm.items lc _ false)
  next =>
    obtain ⟨hmem, hg, hm⟩ := p.vecLocal_loaded (p.gv a).toNat (n / 8) lc cost 0 _ (.lanes (vecAddr p p.src v))
      (hcalm.items lc (laneItems n (p.src.mask m.toNat) off) false)
    exact ⟨hmem.trans (foldl_laneItem_writes _ _ _ _ _ _ _ _ (by omega)), hg, hm⟩

/-- A scatter to the thread's own window: each lane of its mask, in their order, at its place (R337). -/
theorem Panel.Gathers.stored {p : Panel} {v vi : Nat} {a : Reg} {m f : BitVec 3} {n lc : Nat} {off : Nat → Nat} (h : p.Gathers v vi a m n lc off)
    (hcalm : p.MeshCalm) (hf : laneBits f.toNat = n) (hn : 0 < n / 8) :
    let q := p.gather true v vi a m f
    q.mem = p.mem.writeAll n (fun j => 8 * lmA lc (off j)) (fun j => field n (p.vec v).toNat j % 2 ^ n) (activeLanes n (p.src.mask m.toNat)) ∧
      q.cc.g = p.cc.g := by
  obtain ⟨o, cost, heq⟩ := h.eq hf hn true
  dsimp only
  rw [heq]
  split
  next hnil =>
    rw [hnil]
    exact p.vecLocal_stored _ _ _ _ _ _ .none (hcalm.items lc _ true)
  next =>
    obtain ⟨hmem, hg⟩ := p.vecLocal_stored (p.gv a).toNat (n / 8) lc cost (p.vec v).toNat _ (.lanes (vecAddr p p.src v))
      (hcalm.items lc (laneItems n (p.src.mask m.toNat) off) true)
    refine ⟨hmem.trans ((p.writeItems_mem lc n n _ false _ _ (by omega) le_rfl).trans ?_), hg⟩
    simp only [lmA_bytes]

/-! ### VLDBT and VSTBT (R86, R87, R338) -/

theorem w64_toNat (v : W) : w64 v.toNat = v := by rw [w64, BitVec.ofNat_toNat, BitVec.setWidth_eq]

theorem bf_eq (n hi lo : Nat) : bf n hi lo = n / 2 ^ lo % 2 ^ (hi + 1 - lo) := by rw [bf, Nat.shiftRight_eq_div_pow]

/-- The fields of a bit-vector control value: element width, lane width, count and stride (R338). -/
def bitWidth (ctl : Nat) : Nat := ctl % 64 + 1
def bitLane (ctl : Nat) : Nat := 8 * 2 ^ (ctl / 2 ^ 8 % 4)
def bitCount (ctl : Nat) : Nat := ctl / 2 ^ 16 % 2 ^ 7
def bitStride (ctl : Nat) : Nat := ctl / 2 ^ 32

/-- An admitted control value names elements that fit their lanes, and lanes that fit a vector (R338). -/
theorem bitCtlOk_fits {ctl : Nat} {store : Bool} (h : bitCtlOk ctl store = true) :
    bitWidth ctl ≤ bitLane ctl ∧ bitCount ctl ≤ 512 / bitLane ctl := by
  simp only [bitCtlOk, bf_eq, Bool.and_eq_true, decide_eq_true_eq] at h
  obtain ⟨⟨-, hcount⟩, hwidth⟩ := h
  rw [Nat.pow_zero, Nat.div_one] at hwidth
  exact ⟨hwidth, hcount⟩

/-- Bit of local memory at which element `j` of a bit vector lies (R338). -/
def bitAt (off ba stride j : Nat) : Nat := 8 * off + ba % 8 + j * stride

theorem lmA_bitAt (lc off ba stride j : Nat) : 8 * lmA lc 0 + bitAt off ba stride j = 8 * lmA lc off + ba % 8 + j * stride := by
  unfold bitAt lmA
  omega

/-- The items of a bit vector. -/
def bitItems (ctl off ba : Nat) : List Item :=
  (List.range (bitCount ctl)).map (laneItem (bitWidth ctl) (bitLane ctl) (bitAt off ba (bitStride ctl)) (ctl.testBit 6))

theorem Panel.bitVec_badCtl (p : Panel) (store : Bool) (v : Nat) (a b : Reg) (hmap : p.Mapped [v]) (hacq : p.acqBusy = false)
    (hctl : bitCtlOk (p.gv b).toNat store = false) : p.bitVec store v a b = p.trap 0x03 (p.gv b) := by
  refine (p.views_mapped [v] _ hmap).trans ((p.memory_calm _ hacq).trans ?_)
  simp only [hctl, Bool.not_false, if_true, w64_toNat]

/-- A bit vector of an admitted control value is one access of its elements (R338). -/
theorem Panel.bitVec_lm (p : Panel) (store : Bool) (v : Nat) (a b : Reg) (lc off : Nat) (mesh : Bool) (hmap : p.Mapped [v])
    (hacq : p.acqBusy = false) (hctl : bitCtlOk (p.gv b).toNat store = true)
    (hplace : placeBits p p.src (p.gv a).toNat ((bitCount (p.gv b).toNat - 1) * bitStride (p.gv b).toNat + bitWidth (p.gv b).toNat) =
      .lm lc off mesh) :
    ∃ va size cost, p.bitVec store v a b = p.vecLocal store va size lc mesh (bitItems (p.gv b).toNat off (p.gv a).toNat) cost
      (if store then (p.vec v).toNat else 0) (.vec (vecAddr p p.src v)) := by
  have hwidth : bf (p.gv b).toNat 5 0 + 1 = bitWidth (p.gv b).toNat := by
    rw [bf_eq, Nat.pow_zero, Nat.div_one]
    rfl
  have hlane : 8 * 2 ^ bf (p.gv b).toNat 9 8 = bitLane (p.gv b).toNat := by
    rw [bf_eq]
    rfl
  have hcount : bf (p.gv b).toNat 22 16 = bitCount (p.gv b).toNat := by rw [bf_eq, bitCount]
  have hstride : bf (p.gv b).toNat 63 32 = bitStride (p.gv b).toNat := by
    rw [bf_eq, bitStride, Nat.mod_eq_of_lt]
    have := (p.gv b).isLt
    omega
  let total := (bitCount (p.gv b).toNat - 1) * bitStride (p.gv b).toNat + bitWidth (p.gv b).toNat
  refine ⟨(p.gv a).toNat / 8, ((p.gv a).toNat + total - 1) / 8 - (p.gv a).toNat / 8 + 1,
    distinctUnits 64 ((bitItems (p.gv b).toNat off (p.gv a).toNat).map fun i => (i.bit, bitWidth (p.gv b).toNat)),
    (p.views_mapped [v] _ hmap).trans ((p.memory_calm _ hacq).trans ?_)⟩
  simp only [hwidth, hlane, hcount, hstride, hctl, hplace, Bool.not_true, Bool.false_eq_true, if_false]
  rfl

theorem Panel.bitVec_loaded {p : Panel} {V : Nat} {a b : Reg} {lc off : Nat} (hmap : p.Mapped [V]) (hacq : p.acqBusy = false) (hcalm : p.MeshCalm)
    (hctl : bitCtlOk (p.gv b).toNat false = true)
    (hplace : placeBits p p.src (p.gv a).toNat ((bitCount (p.gv b).toNat - 1) * bitStride (p.gv b).toNat + bitWidth (p.gv b).toNat) =
      .lm lc off false) :
    (p.bitVec false V a b).mem =
        Memory.writeN p.mem (vecAddr p p.src V) 64 (readItems p.mem lc (bitItems (p.gv b).toNat off (p.gv a).toNat)) ∧
      (p.bitVec false V a b).cc.g = p.cc.g ∧ (p.bitVec false V a b).cc.m = p.cc.m := by
  obtain ⟨va, size, cost, heq⟩ := p.bitVec_lm false V a b lc off false hmap hacq hctl hplace
  rw [heq]
  exact p.vecLocal_loaded va size lc cost 0 _ (.vec (vecAddr p p.src V)) (hcalm.items lc _ false)

theorem bt_allOnes (j : Nat) (h : j < 64) : bt (BitVec.allOnes 64).toNat j = true := by
  rw [bt, BitVec.toNat_allOnes, Nat.testBit_two_pow_sub_one]
  simpa using h

/-- What lane `j` takes from a bit vector: its element, extended, or zero above the last (R86, R338). -/
def bitElem (m : Memory) (lc ctl off ba j : Nat) : Nat :=
  let v := Memory.readBits m (8 * lmA lc off + ba % 8 + j * bitStride ctl) (bitWidth ctl)
  if j < bitCount ctl then (if ctl.testBit 6 then cut (bitLane ctl) (sgn (bitWidth ctl) v) else v) else 0

theorem bitLane_ge (ctl : Nat) : 8 ≤ bitLane ctl := Nat.le_mul_of_pos_right 8 (by positivity)

theorem field_bitItems (m : Memory) (lc ctl off ba j : Nat) :
    field (bitLane ctl) (readItems m lc (bitItems ctl off ba)) j = bitElem m lc ctl off ba j % 2 ^ bitLane ctl := by
  have hlane : 0 < bitLane ctl := by have := bitLane_ge ctl; omega
  rw [bitItems, field_readItems _ _ _ _ _ _ _ _ (show 0 < bitWidth ctl from Nat.succ_pos _) hlane, laneRead, bitElem, lmA_bitAt]
  simp only [List.mem_range]
  split
  · split
    · exact (Nat.mod_eq_of_lt (cut_lt _ _)).symm
    · rfl
  · exact (Nat.zero_mod _).symm

/-- A bit vector of the thread's own window loaded: each element in its lane, the lanes above them zero (R86, R338). -/
theorem vecResult_bitVec {s : State} {i : Instr} {V : Nat} {a b : Reg} {lc off : Nat} (hexec : exec i s = s.to (s.panel.bitVec false V a b))
    (hmap : s.panel.Mapped [V]) (hacq : s.panel.acqBusy = false) (hcalm : s.panel.MeshCalm) (hctl : bitCtlOk (s.panel.gv b).toNat false = true)
    (hplace : placeBits s.panel s.panel.src (s.panel.gv a).toNat
      ((bitCount (s.panel.gv b).toNat - 1) * bitStride (s.panel.gv b).toNat + bitWidth (s.panel.gv b).toNat) = .lm lc off false) :
    VecResult i s (bitLane (s.panel.gv b).toNat) V (BitVec.allOnes 64)
      (bitElem s.panel.mem lc (s.panel.gv b).toNat off (s.panel.gv a).toNat) := by
  obtain ⟨hmem, hg, hm⟩ := Panel.bitVec_loaded hmap hacq hcalm hctl hplace
  have hlane := bitLane_ge (s.panel.gv b).toNat
  refine vecResult_of hexec (by omega) (fun j hj => ?_) (fun y hy => ?_) hg hm
  · rw [hmem, readBits_writeN_lane _ _ _ _ _ hj, field_bitItems, bt_allOnes j (hj.trans_le (Nat.div_le_div_left hlane (by omega))), if_pos rfl]
  · show Memory.get (s.panel.bitVec false V a b).mem y = _
    rw [hmem]
    exact Memory.get_writeN_other _ _ _ _ _ hy

/-- A bit vector stored to the thread's own window: each element's bits in their order, and no other bit (R87, R338). -/
theorem Panel.bitVec_stored {p : Panel} {V : Nat} {a b : Reg} {lc off : Nat} (hmap : p.Mapped [V]) (hacq : p.acqBusy = false) (hcalm : p.MeshCalm)
    (hctl : bitCtlOk (p.gv b).toNat true = true)
    (hplace : placeBits p p.src (p.gv a).toNat ((bitCount (p.gv b).toNat - 1) * bitStride (p.gv b).toNat + bitWidth (p.gv b).toNat) =
      .lm lc off false) :
    let ctl := (p.gv b).toNat
    (p.bitVec true V a b).mem = p.mem.writeAll (bitWidth ctl) (fun j => 8 * lmA lc off + (p.gv a).toNat % 8 + j * bitStride ctl)
        (fun j => field (bitLane ctl) (p.vec V).toNat j % 2 ^ bitWidth ctl) (List.range (bitCount ctl)) ∧
      (p.bitVec true V a b).cc.g = p.cc.g := by
  intro ctl
  obtain ⟨va, size, cost, heq⟩ := p.bitVec_lm true V a b lc off false hmap hacq hctl hplace
  obtain ⟨hmem, hg⟩ := p.vecLocal_stored va size lc cost (p.vec V).toNat _ (.vec (vecAddr p p.src V))
    (hcalm.items lc (bitItems ctl off (p.gv a).toNat) true)
  rw [heq]
  refine ⟨hmem.trans ((p.writeItems_mem lc _ _ _ _ _ _ (Nat.succ_pos _) (bitCtlOk_fits hctl).1).trans ?_), hg⟩
  simp only [lmA_bitAt]
  rfl

/-! ### VLDB (R63, R336) -/

section
variable (p : Panel) (v : Nat) (a b : Reg) (h : BitVec 3) (lc off : Nat)

theorem Panel.vldb_misaligned (hmap : p.Mapped [v]) (hacq : p.acqBusy = false) (hal : (p.gv a + p.gv b * 2 ^ h.toNat).toNat % 64 ≠ 0) :
    p.vldb v a b h = p.trap 0x03 (p.gv a + p.gv b * 2 ^ h.toNat) := by
  refine (p.views_mapped [v] _ hmap).trans ((p.memory_calm _ hacq).trans ?_)
  simp only [eaIdx_eq, hal, ne_eq, not_false_eq_true, if_true, w64_toNat]

/-- An aligned block of the thread's own window: its header is checked behind the access at the banks (R63, R336). -/
theorem Panel.vldb_own (hmap : p.Mapped [v]) (hacq : p.acqBusy = false) (hal : (p.gv a + p.gv b * 2 ^ h.toNat).toNat % 64 = 0)
    (hplace : place p p.src (p.gv a + p.gv b * 2 ^ h.toNat).toNat 64 = .lm lc off false) (hopen : p.meshOpen false lc off 64 = false) :
    let w := Memory.readN p.mem (lmA lc off) 64
    let q := p.untrack.bankGap (groupsTouched off 64)
    (∀ c, headerBad (w % 256) = some c → p.vldb v a b h = q.trap c (p.gv a + p.gv b * 2 ^ h.toNat)) ∧
      (headerBad (w % 256) = none → p.vldb v a b h = ({ q with mem := Memory.writeN q.mem (vecAddr p p.src v) 64 w } : Panel).fin) := by
  intro w q
  have hw : p.lmRead lc off 64 = w := rfl
  refine ⟨fun c hbad => ?_, fun hgood => ?_⟩
  · refine (p.views_mapped [v] _ hmap).trans ((p.memory_calm _ hacq).trans ?_)
    simp only [eaIdx_eq, hal, hplace, hopen, hw, hbad, w64_toNat, ne_eq, not_true_eq_false, Bool.not_false, Bool.false_eq_true, if_true, if_false]
    rfl
  · refine (p.views_mapped [v] _ hmap).trans ((p.memory_calm _ hacq).trans ?_)
    simp only [eaIdx_eq, hal, hplace, hopen, hw, hgood, ne_eq, not_true_eq_false, Bool.not_false, Bool.false_eq_true, if_true, if_false]
    rfl

/-- The access that asks for a block of another core (R336). -/
def Panel.blockAcc (ea x : Nat) : Access :=
  { mkAcc .fmtLoad .loads ea 64 with
    dest := .vec x, target := lc, items := [⟨512, 8 * off, 0, 512, false⟩], after := p.afterMesh false ea 64 lc }

/-- A block of another core is asked for, and the thread waits (R336). -/
theorem Panel.vldb_mesh (hmap : p.Mapped [v]) (hacq : p.acqBusy = false) (hal : (p.gv a + p.gv b * 2 ^ h.toNat).toNat % 64 = 0)
    (hplace : place p p.src (p.gv a + p.gv b * 2 ^ h.toNat).toNat 64 = .lm lc off true) (hroom : p.cc.ldc < 15) :
    p.vldb v a b h = (p.trackTo lc true).issueFin (p.blockAcc lc off (p.gv a + p.gv b * 2 ^ h.toNat).toNat (vecAddr p p.src v))
      fun q => q.block_ .remote := by
  have hroom' : p.roomL = true := decide_eq_true hroom
  refine (p.views_mapped [v] _ hmap).trans ((p.memory_calm _ hacq).trans ?_)
  simp only [eaIdx_eq, hal, hplace, hroom', ne_eq, not_true_eq_false, Bool.not_true, Bool.false_eq_true, if_false]
  rfl

end

/-- A header of a format is good, poison and every other are not (R63). -/
theorem headerBad_eq (code : Nat) : (fmtBits code ≠ 0 → headerBad code = none) ∧ (code = 0xFF → headerBad code = some 0x33) ∧
    (code ≠ 0xFF → fmtBits code = 0 → headerBad code = some 0x09) := by
  refine ⟨fun hfmt => ?_, fun hpoison => if_pos hpoison, fun hcode hfmt => (if_neg hcode).trans (if_pos hfmt)⟩
  have hcode : code ≠ 0xFF := by
    rintro rfl
    exact hfmt rfl
  exact (if_neg hcode).trans (if_neg hfmt)

/-- The block asked for stands in the access table, its thread is at a blocking point, and no byte has changed (R336). -/
theorem blockAcc_issued (s : State) (lc off ea x : Nat) (hst : s.panel.cc.st ≠ .parked) :
    let t : State := { s with panel := (s.panel.trackTo lc true).issueFin (s.panel.blockAcc lc off ea x) fun q => q.block_ .remote }
    t.panel.cc.ldc = s.panel.cc.ldc + 1 ∧ t.panel.cc.st = .blocked ∧ t.panel.cc.wake = .remote ∧ Issued s t .fmtLoad ea 64 (.vec x) ∧
      t.panel.mem = s.panel.mem := by
  intro t
  obtain ⟨hmem, -, -, y, hcc⟩ := s.panel.trackTo_frame lc true
  obtain ⟨hmem', ⟨pc, hcc'⟩, b, hb, hsame⟩ := (s.panel.trackTo lc true).issueFin_mesh_updC (s.panel.blockAcc lc off ea x)
    (fun c => { c with st := if c.st = .parked then .parked else .blocked, wake := .remote }) (List.cons_ne_nil _ _)
  rw [hcc] at hcc'
  have hctx : t.panel.cc = _ := hcc'
  refine ⟨by rw [hctx]; rfl, by rw [hctx]; exact if_neg hst, by rw [hctx], issued_of_tracked s lc _ b _ hb hsame, hmem'.trans hmem⟩

/-! ### What gathers, scatters and bit vectors leave (R337, R338) -/

/-- Whole bytes of local memory that a lane takes (R337). -/
theorem laneRead_bytes (m : Memory) (lc n : Nat) (off : Nat → Nat) (j : Nat) (hn : 8 * (n / 8) = n) :
    laneRead m lc n n (fun j => 8 * off j) false j = Memory.readN m (lmA lc (off j)) (n / 8) % 2 ^ n := by
  have hbytes := m.readBits_bytes (lmA lc (off j)) (n / 8)
  rw [hn] at hbytes
  rw [laneRead, if_neg Bool.false_ne_true, lmA_bytes, hbytes]

/-- A gather from the thread's own window: one vector result of the lanes' bytes (R337). -/
theorem vecResult_gather {s : State} {i : Instr} {v vi : Nat} {a : Reg} {m f : BitVec 3} {lc : Nat} {off : Nat → Nat}
    (hexec : exec i s = s.to (s.panel.gather false v vi a m f)) (h : s.panel.Gathers v vi a m (laneBits f.toNat) lc off) (hcalm : s.panel.MeshCalm) :
    VecResult i s (laneBits f.toNat) v (s.panel.src.mask m.toNat) fun j =>
      Memory.readN s.panel.mem (lmA lc (off j)) (laneBits f.toNat / 8) := by
  obtain ⟨hn, hn8⟩ := laneBits_bytes f.toNat
  obtain ⟨hmem, hg, hm⟩ := h.loaded hcalm rfl hn
  generalize laneBits f.toNat = n at *
  have hpos : 0 < n := by omega
  refine vecResult_of hexec hpos (fun j hj => ?_) (fun y hy => ?_) hg hm
  · rw [hmem]
    by_cases hact : bt (s.panel.src.mask m.toNat).toNat j = true
    · have hmask : j ∈ activeLanes n (s.panel.src.mask m.toNat) := mem_activeLanes.mpr ⟨hj, hact⟩
      have hlane := s.panel.mem.readBits_writeAll n (fun j => 8 * vecAddr s.panel s.panel.src v + n * j)
        (field n (readItems s.panel.mem lc (laneItems n (s.panel.src.mask m.toNat) off))) _ j hpos hmask (activeLanes_sorted n _)
        fun k _ hk => by
          have := field_apart (n := n) hk.ne
          omega
      rw [if_pos hact, ← laneRead_bytes s.panel.mem lc n off j hn8]
      refine hlane.trans ?_
      rw [Nat.mod_eq_of_lt (field_lt ..), laneItems, field_readItems _ _ _ _ _ _ _ _ hpos hpos, if_pos hmask]
    · rw [if_neg hact]
      refine Memory.readBits_writeAll_other _ _ _ _ _ _ _ hpos fun k hk => ?_
      obtain ⟨-, hkact⟩ := mem_activeLanes.mp hk
      have := field_apart (n := n) (show k ≠ j from fun e => hact (e ▸ hkact))
      omega
  · show Memory.get (s.panel.gather false v vi a m f).mem y = _
    rw [hmem]
    refine Memory.get_writeAll_other _ _ _ _ _ _ hpos fun k hk => ?_
    have := lane_fits (mem_activeLanes.mp hk).1
    omega

/-- A scatter to the thread's own window: each lane that no later one overwrites holds its bytes, and no other byte has changed (R337). -/
theorem gather_stored {p : Panel} {v vi : Nat} {a : Reg} {m f : BitVec 3} {lc : Nat} {off : Nat → Nat}
    (h : p.Gathers v vi a m (laneBits f.toNat) lc off) (hcalm : p.MeshCalm) :
    let n := laneBits f.toNat
    let act := activeLanes n (p.src.mask m.toNat)
    let q := p.gather true v vi a m f
    q.cc.g = p.cc.g ∧
      (∀ j ∈ act, (∀ i ∈ act, j < i → off i + n / 8 ≤ off j ∨ off j + n / 8 ≤ off i) →
        Memory.readN q.mem (lmA lc (off j)) (n / 8) = lane n (p.vec v) j) ∧
      ∀ y, (∀ j ∈ act, y < lmA lc (off j) ∨ lmA lc (off j) + n / 8 ≤ y) → Memory.get q.mem y = Memory.get p.mem y := by
  obtain ⟨hn, hn8⟩ := laneBits_bytes f.toNat
  obtain ⟨hmem, hg⟩ := h.stored hcalm rfl hn
  dsimp only
  generalize laneBits f.toNat = n at *
  have hpos : 0 < n := by omega
  refine ⟨hg, fun j hj hlater => ?_, fun y hy => ?_⟩
  · have hread := p.mem.readBits_writeAll n (fun j => 8 * lmA lc (off j)) (fun j => field n (p.vec v).toNat j % 2 ^ n) _ j hpos hj
      (activeLanes_sorted n _) fun i hi hji => by
        have := hlater i hi hji
        unfold lmA
        omega
    have hbytes := Memory.readBits_bytes (p.gather true v vi a m f).mem (lmA lc (off j)) (n / 8)
    rw [hn8] at hbytes
    rw [← hbytes, hmem, lane_eq_field _ _ _ hpos]
    exact hread.trans (by rw [Nat.mod_mod, Nat.mod_eq_of_lt (field_lt ..)])
  · rw [hmem]
    refine Memory.get_writeAll_other _ _ _ _ _ _ hpos fun j hj => ?_
    have := hy j hj
    omega

/-- Bits stored to the thread's own window: each element that no later one overlaps stands, and no other bit has changed (R87, R338). -/
theorem bitVec_bits {p : Panel} {V : Nat} {a b : Reg} {lc off : Nat} (hmap : p.Mapped [V]) (hacq : p.acqBusy = false) (hcalm : p.MeshCalm)
    (hctl : bitCtlOk (p.gv b).toNat true = true)
    (hplace : placeBits p p.src (p.gv a).toNat ((bitCount (p.gv b).toNat - 1) * bitStride (p.gv b).toNat + bitWidth (p.gv b).toNat) =
      .lm lc off false) :
    let w := bitWidth (p.gv b).toNat
    let c := bitCount (p.gv b).toNat
    let stride := bitStride (p.gv b).toNat
    let B (j : Nat) : Nat := 8 * lmA lc off + (p.gv a).toNat % 8 + j * stride
    let q := p.bitVec true V a b
    q.cc.g = p.cc.g ∧
      (∀ j, j < c → (∀ i, j < i → i < c → w ≤ (i - j) * stride) →
        Memory.readBits q.mem (B j) w = lane (bitLane (p.gv b).toNat) (p.vec V) j % 2 ^ w) ∧
      ∀ y, (∀ j, j < c → y < B j ∨ B j + w ≤ y) → q.mem.bit y = p.mem.bit y := by
  obtain ⟨hmem, hg⟩ := Panel.bitVec_stored hmap hacq hcalm hctl hplace
  have hpos : 0 < bitWidth (p.gv b).toNat := Nat.succ_pos _
  have hlane := bitLane_ge (p.gv b).toNat
  dsimp only
  rw [hmem]
  refine ⟨hg, fun j hj hlater => ?_, fun y hy => ?_⟩
  · refine (Memory.readBits_writeAll _ _ (fun j => 8 * lmA lc off + (p.gv a).toNat % 8 + j * bitStride (p.gv b).toNat) _ _ j hpos
      (List.mem_range.mpr hj) List.pairwise_lt_range fun i hi hji => ?_).trans ?_
    · have hgap := hlater i hji (List.mem_range.mp hi)
      rw [Nat.sub_mul] at hgap
      omega
    · rw [Nat.mod_mod, lane_eq_field _ _ _ (by omega)]
  · exact Memory.bit_writeAll_other _ _ _ _ _ _ hpos fun j hj => hy j (List.mem_range.mp hj)

/-- An instruction that leaves other bytes completes with them and with the registers as they were. -/
theorem Panel.fin_withMem (q : Panel) (m : Memory) :
    ({ q with mem := m } : Panel).fin.mem = m ∧ ({ q with mem := m } : Panel).fin.cc.g = q.cc.g := by
  refine ⟨Panel.fin_mem _, ?_⟩
  rw [Panel.cc_fin_eq]
  rfl

/-- What a described block leaves once its bytes have come to register space (R336). -/
theorem Panel.blockLoaded_frame (p : Panel) (k x w : Nat) :
    let q := p.untrack.bankGap k
    ({ q with mem := Memory.writeN q.mem x 64 w } : Panel).fin.mem = Memory.writeN p.mem x 64 w ∧
      ({ q with mem := Memory.writeN q.mem x 64 w } : Panel).fin.cc.g = p.cc.g := by
  intro q
  obtain ⟨hmem, -, z, hcc⟩ := p.untrack.bankGap_frame k
  have hg : q.cc.g = p.cc.g := by rw [hcc, Panel.cc_untrack]
  have hqmem : q.mem = p.mem := hmem
  obtain ⟨hfmem, hfg⟩ := q.fin_withMem (Memory.writeN q.mem x 64 w)
  exact ⟨hfmem.trans (congrArg (Memory.writeN · x 64 w) hqmem), hfg.trans hg⟩

/-! ### What the instructions do -/

/-- A vector of the thread's own window waits for the thread's mesh-window accesses to its bytes (R182, R183). -/
theorem vecItem_wait (p : Panel) (store : Bool) (va lc off cost data : Nat) (dest : Dest) (h : p.meshOpen store lc off 64 = true) :
    p.vecLocal store va 64 lc false (vecItem off) cost data dest = p.retry := by
  refine p.vecLocal_wait va 64 lc cost data _ store dest (laneItem 512 512 (fun _ => 8 * off) false 0) List.mem_cons_self ?_
  show p.meshOpen store lc (8 * off / 8) ((8 * off % 8 + 512 + 7) / 8) = true
  rwa [show 8 * off / 8 = off by omega, show (8 * off % 8 + 512 + 7) / 8 = 64 by omega]

section
variable {s : State} {d a b : BitVec 4} {h : BitVec 3} {v : BitVec 1} {lc off : Nat}

/-- The address of a base and a scaled index (R334). -/
def Panel.eaScaled (p : Panel) (a b : Reg) (h : BitVec 3) : Nat := (p.gv a + p.gv b * 2 ^ h.toNat).toNat

/-- The two instructions of one vector: a load (VLD) and a store (VST). -/
def vecMove (store : Bool) (d a b : BitVec 4) (h : BitVec 3) (v : BitVec 1) : Instr := if store then .vst d a b h v else .vld d a b h v

theorem exec_vecMove (store : Bool) (s : State) (d a b : BitVec 4) (h : BitVec 3) (v : BitVec 1) :
    exec (vecMove store d a b h v) s = s.to (s.panel.vmem store (16 * v.toNat + d.toNat) a b h) := by
  cases store with
  | false => rfl
  | true => rfl

section
variable (store : Bool) (hmap : s.panel.Mapped [16 * v.toNat + d.toNat]) (hacq : s.panel.acqBusy = false)
include hmap hacq

/-- An address that no place answers for traps with its cause. -/
theorem exec_vecMove_bad {c : Nat} (hplace : place s.panel s.panel.src (s.panel.eaScaled a b h) 64 = .bad c) :
    exec (vecMove store d a b h v) s = s.to (s.panel.trap c (BitVec.ofNat 64 (s.panel.eaScaled a b h))) :=
  (exec_vecMove ..).trans (congrArg s.to (s.panel.vmem_bad store _ a b h c hmap hacq hplace))

/-- On the thread's own window an open mesh-window access to the bytes holds the vector back (R182, R183). -/
theorem exec_vecMove_wait (hplace : place s.panel s.panel.src (s.panel.eaScaled a b h) 64 = .lm lc off false)
    (hopen : s.panel.meshOpen store lc off 64 = true) : exec (vecMove store d a b h v) s = s.to s.panel.retry :=
  (exec_vecMove ..).trans (congrArg s.to ((s.panel.vmem_lm store _ a b h lc off false hmap hacq hplace).trans (vecItem_wait _ store _ _ _ _ _ _ hopen)))

/-- A full class holds the vector back at the mesh window (R263). -/
theorem exec_vecMove_full (hplace : place s.panel s.panel.src (s.panel.eaScaled a b h) 64 = .lm lc off true)
    (hfull : 15 ≤ (if store then s.panel.cc.stc else s.panel.cc.ldc)) : exec (vecMove store d a b h v) s = s.to s.panel.retry :=
  (exec_vecMove ..).trans (congrArg s.to ((s.panel.vmem_lm store _ a b h lc off true hmap hacq hplace).trans
    ((s.panel.vecLocal_mesh store ..).trans (if_pos hfull))))

/-- Through the mesh window a vector is issued and counted. The access keeps the vector's place as its destination, a load's and a store's alike. -/
theorem exec_vecMove_issued (hplace : place s.panel s.panel.src (s.panel.eaScaled a b h) 64 = .lm lc off true)
    (hroom : (if store then s.panel.cc.stc else s.panel.cc.ldc) < 15) :
    ∃ t, exec (vecMove store d a b h v) s = .next t ∧ (store = false → t.panel.cc.ldc = s.panel.cc.ldc + 1) ∧
      (store = true → t.panel.cc.stc = s.panel.cc.stc + 1) ∧
      Issued s t (if store then .vstore else .vload) (s.panel.eaScaled a b h) 64 (.vec (vecAddr s.panel s.panel.src (16 * v.toNat + d.toNat))) ∧
      t.panel.mem = s.panel.mem ∧ t.panel.cc.g = s.panel.cc.g :=
  ⟨_, (exec_vecMove ..).trans (congrArg s.to ((s.panel.vmem_lm store _ a b h lc off true hmap hacq hplace).trans
    ((s.panel.vecLocal_mesh store ..).trans (if_neg (Nat.not_le.mpr hroom))))),
    vecAcc_issued s store _ 64 lc (vecItem off) _ _ (List.cons_ne_nil _ _)⟩

/-- VLD on the thread's own window (R335). -/
theorem exec_vld_own (hplace : place s.panel s.panel.src (s.panel.eaScaled a b h) 64 = .lm lc off false)
    (hopen : s.panel.meshOpen false lc off 64 = false) :
    let x := vecAddr s.panel s.panel.src (16 * v.toNat + d.toNat)
    ∃ t, exec (.vld d a b h v) s = .next t ∧ Memory.readN t.panel.mem x 64 = Memory.readN s.panel.mem (lmA lc off) 64 ∧
      SameBytesBut x 64 s t ∧ t.panel.cc.g = s.panel.cc.g :=
  ⟨_, congrArg s.to (s.panel.vmem_lm false _ a b h lc off false hmap hacq hplace), vecItem_loaded s _ _ _ _ lc off hopen⟩

/-- VST on the thread's own window (R335). -/
theorem exec_vst_own (hlatch : s.panel.cur.latch = none) (hplace : place s.panel s.panel.src (s.panel.eaScaled a b h) 64 = .lm lc off false)
    (hopen : s.panel.meshOpen true lc off 64 = false) :
    ∃ t, exec (.vst d a b h v) s = .next t ∧
      Memory.readN t.panel.mem (lmA lc off) 64 = Memory.readN s.panel.mem (vecAddr s.panel s.panel.src (16 * v.toNat + d.toNat)) 64 ∧
      SameBytesBut (lmA lc off) 64 s t ∧ t.panel.cc.g = s.panel.cc.g := by
  obtain ⟨hbytes, hframe, hg⟩ := vecItem_stored s (s.panel.eaScaled a b h) (groupsTouched off 64) (s.panel.vec (16 * v.toNat + d.toNat)).toNat lc off
    (.vec (vecAddr s.panel s.panel.src (16 * v.toNat + d.toNat))) hopen
  exact ⟨_, congrArg s.to (s.panel.vmem_lm true _ a b h lc off false hmap hacq hplace), hbytes.trans (s.panel.toNat_vec _ hlatch), hframe, hg⟩

end

variable {m f : BitVec 3} {iv : BitVec 1} {offs : Nat → Nat}

/-- VLDX: a gather from the thread's own window (R337). -/
theorem exec_vldx (h : s.panel.Gathers (16 * v.toNat + d.toNat) (16 * iv.toNat + b.toNat) a m (laneBits f.toNat) lc offs) (hcalm : s.panel.MeshCalm) :
    VecResult (.vldx d a b m f iv v) s (laneBits f.toNat) (16 * v.toNat + d.toNat) (s.panel.src.mask m.toNat) fun j =>
      Memory.readN s.panel.mem (lmA lc (offs j)) (laneBits f.toNat / 8) :=
  vecResult_gather rfl h hcalm

/-- VSTX: a scatter to the thread's own window (R337). -/
theorem exec_vstx (h : s.panel.Gathers (16 * v.toNat + d.toNat) (16 * iv.toNat + b.toNat) a m (laneBits f.toNat) lc offs) (hcalm : s.panel.MeshCalm) :
    let n := laneBits f.toNat
    let act := activeLanes n (s.panel.src.mask m.toNat)
    ∃ t, exec (.vstx d a b m f iv v) s = .next t ∧ t.panel.cc.g = s.panel.cc.g ∧
      (∀ j ∈ act, (∀ i ∈ act, j < i → offs i + n / 8 ≤ offs j ∨ offs j + n / 8 ≤ offs i) →
        Memory.readN t.panel.mem (lmA lc (offs j)) (n / 8) = lane n (s.panel.vec (16 * v.toNat + d.toNat)) j) ∧
      ∀ y, (∀ j ∈ act, y < lmA lc (offs j) ∨ lmA lc (offs j) + n / 8 ≤ y) → Memory.get t.panel.mem y = Memory.get s.panel.mem y :=
  ⟨_, rfl, gather_stored h hcalm⟩

section
variable (hmap : s.panel.Mapped [16 * v.toNat + d.toNat]) (hacq : s.panel.acqBusy = false)
include hmap hacq

/-- A control value that names no bit vector traps (R338). -/
theorem exec_vldbt_badCtl (hctl : bitCtlOk (s.panel.gv b).toNat false = false) : exec (.vldbt d a b v) s = s.to (s.panel.trap 0x03 (s.panel.gv b)) :=
  congrArg s.to (s.panel.bitVec_badCtl false _ a b hmap hacq hctl)

theorem exec_vstbt_badCtl (hctl : bitCtlOk (s.panel.gv b).toNat true = false) : exec (.vstbt d a b v) s = s.to (s.panel.trap 0x03 (s.panel.gv b)) :=
  congrArg s.to (s.panel.bitVec_badCtl true _ a b hmap hacq hctl)

/-- VLDB at an address that is no whole line traps (R336). -/
theorem exec_vldb_misaligned (hal : s.panel.eaScaled a b h % 64 ≠ 0) :
    exec (.vldb d a b h v) s = s.to (s.panel.trap 0x03 (s.panel.gv a + s.panel.gv b * 2 ^ h.toNat)) :=
  congrArg s.to (s.panel.vldb_misaligned _ a b h hmap hacq hal)

/-- VLDB of a block in the thread's own window: loaded where its header names a format, and a trap with TVAL the address elsewhere (R63, R336). -/
theorem exec_vldb_own (hplace : place s.panel s.panel.src (s.panel.eaScaled a b h) 64 = .lm lc off false) (hal : s.panel.eaScaled a b h % 64 = 0)
    (hopen : s.panel.meshOpen false lc off 64 = false) :
    let x := vecAddr s.panel s.panel.src (16 * v.toNat + d.toNat)
    let w := Memory.readN s.panel.mem (lmA lc off) 64
    let q := s.panel.untrack.bankGap (groupsTouched off 64)
    let e : W := s.panel.gv a + s.panel.gv b * 2 ^ h.toNat
    (fmtBits (w % 256) ≠ 0 → ∃ t, exec (.vldb d a b h v) s = .next t ∧ Memory.readN t.panel.mem x 64 = w ∧ SameBytesBut x 64 s t ∧
      t.panel.cc.g = s.panel.cc.g) ∧
    (w % 256 = 0xFF → exec (.vldb d a b h v) s = s.to (q.trap 0x33 e)) ∧
    (w % 256 ≠ 0xFF → fmtBits (w % 256) = 0 → exec (.vldb d a b h v) s = s.to (q.trap 0x09 e)) := by
  intro x w q e
  obtain ⟨hbad, hgood⟩ := s.panel.vldb_own _ a b h lc off hmap hacq hal hplace hopen
  obtain ⟨hformat, hpoison, hunknown⟩ := headerBad_eq (w % 256)
  refine ⟨fun hfmt => ?_, fun hcode => congrArg s.to (hbad _ (hpoison hcode)), fun hcode hfmt => congrArg s.to (hbad _ (hunknown hcode hfmt))⟩
  obtain ⟨hmem, hg⟩ := s.panel.blockLoaded_frame (groupsTouched off 64) x w
  refine ⟨_, congrArg s.to (hgood (hformat hfmt)), ?_, fun y hy => ?_, hg⟩
  · exact (congrArg (Memory.readN · x 64) hmem).trans ((Memory.readN_writeN ..).trans (Nat.mod_eq_of_lt (Memory.readN_lt ..)))
  · exact (congrArg (Memory.get · y) hmem).trans (Memory.get_writeN_other _ _ _ _ _ hy)

/-- VLDB of a block of another core: it is asked for, and the thread waits (R336). -/
theorem exec_vldb_mesh (hplace : place s.panel s.panel.src (s.panel.eaScaled a b h) 64 = .lm lc off true) (hal : s.panel.eaScaled a b h % 64 = 0)
    (hroom : s.panel.cc.ldc < 15) (hst : s.panel.cc.st ≠ .parked) :
    ∃ t, exec (.vldb d a b h v) s = .next t ∧ t.panel.cc.ldc = s.panel.cc.ldc + 1 ∧ t.panel.cc.st = .blocked ∧ t.panel.cc.wake = .remote ∧
      Issued s t .fmtLoad (s.panel.eaScaled a b h) 64 (.vec (vecAddr s.panel s.panel.src (16 * v.toNat + d.toNat))) ∧ t.panel.mem = s.panel.mem :=
  ⟨_, congrArg s.to (s.panel.vldb_mesh _ a b h lc off hmap hacq hal hplace hroom), blockAcc_issued s lc off _ _ hst⟩

section
variable (hcalm : s.panel.MeshCalm)
  (hplace : placeBits s.panel s.panel.src (s.panel.gv a).toNat
    ((bitCount (s.panel.gv b).toNat - 1) * bitStride (s.panel.gv b).toNat + bitWidth (s.panel.gv b).toNat) = .lm lc off false)
include hcalm hplace

/-- VLDBT: a bit vector of the thread's own window loaded (R86, R338). -/
theorem exec_vldbt (hctl : bitCtlOk (s.panel.gv b).toNat false = true) :
    VecResult (.vldbt d a b v) s (bitLane (s.panel.gv b).toNat) (16 * v.toNat + d.toNat) (BitVec.allOnes 64)
      (bitElem s.panel.mem lc (s.panel.gv b).toNat off (s.panel.gv a).toNat) :=
  vecResult_bitVec rfl hmap hacq hcalm hctl hplace

/-- VSTBT: a bit vector stored to the thread's own window (R87, R338). -/
theorem exec_vstbt (hctl : bitCtlOk (s.panel.gv b).toNat true = true) :
    let w := bitWidth (s.panel.gv b).toNat
    let c := bitCount (s.panel.gv b).toNat
    let stride := bitStride (s.panel.gv b).toNat
    let B (j : Nat) : Nat := 8 * lmA lc off + (s.panel.gv a).toNat % 8 + j * stride
    ∃ t, exec (.vstbt d a b v) s = .next t ∧ t.panel.cc.g = s.panel.cc.g ∧
      (∀ j, j < c → (∀ i, j < i → i < c → w ≤ (i - j) * stride) →
        Memory.readBits t.panel.mem (B j) w = lane (bitLane (s.panel.gv b).toNat) (s.panel.vec (16 * v.toNat + d.toNat)) j % 2 ^ w) ∧
      ∀ y, (∀ j, j < c → y < B j ∨ B j + w ≤ y) → t.panel.mem.bit y = s.panel.mem.bit y :=
  ⟨_, rfl, bitVec_bits hmap hacq hcalm hctl hplace⟩

end
end
end

/-! ### The statement -/

/-- Thread 0 of core 0, in a block that is no fast-lane one, with core 0's own mesh window in each g register. -/
def vstOwnCore : Panel :=
  { blocks := [(1, { handBlock with light := false })], fabric := { cword0 := 0xFF04 },
    cores := [(0, { ctxs := [(0, { btag := 1, vv := 0x400, g := Vector.replicate 16 0x7FFFF800000000 })] })] }

theorem vstOwnCore_mapped : vstOwnCore.Mapped [0] := ⟨by decide +kernel, by decide +kernel⟩

theorem vstOwnCore_place : place vstOwnCore vstOwnCore.src (vstOwnCore.eaScaled 1 0 0) 64 = .lm 0 0 true := by decide +kernel

/-- Refutes O19: through the mesh window VST is issued with its vector's place as the access's destination, where the statement has it keep none. The other
clauses are the theorems above. -/
theorem not_vectorMemory : ¬ Obligations.VectorMemory := by
  intro h
  obtain ⟨hlanes, -⟩ := h
  have hacq : vstOwnCore.acqBusy = false := by decide +kernel
  have hroom : vstOwnCore.cc.stc < 15 := by decide +kernel
  obtain ⟨-, -, hmesh, -⟩ := hlanes { panel := vstOwnCore } 0 1 0 0 0 0 0 0 vstOwnCore_mapped hacq rfl
  obtain ⟨-, hstore, -⟩ := hmesh 0 0 vstOwnCore_place
  obtain ⟨t, ht, -, ⟨x, hx, -, -, -, -, -, hnone⟩, -⟩ := hstore hroom
  obtain ⟨u, hu, -, -, ⟨y, hy, -, -, -, -, -, hvec⟩, -⟩ :=
    exec_vecMove_issued (s := { panel := vstOwnCore }) (d := 0) (a := 1) (b := 0) (h := 0) (v := 0) true vstOwnCore_mapped hacq vstOwnCore_place hroom
  cases ht.symm.trans hu
  obtain rfl : x = y := Option.some.inj (hx.symm.trans hy)
  exact Dest.noConfusion (hnone.symm.trans hvec)

end Sys2Proof.Machine
end

section
/-! Book-keeping beside an event (R225, R246, R247, R441): what the agenda, the energy counts and the idle time of cores leave alone, and the shared
operations that change nothing else, or little else. -/

namespace Sys2Proof.Machine

/-- A core with other counts of energy and other cycles of its wake and of its idle run. -/
def Core.booked (c : Core) (energy : SMap Nat) (wake idle : Nat) : Core := { c with energy := energy, wakeAt := wake, idleSince := idle }

/-- From one panel to another only books were kept: events came to the agenda, and cores counted energy (R441) and idle time (R246, R247). -/
structure Panel.Booked (p q : Panel) : Prop where
  rest : q = { p with agenda := q.agenda, cores := q.cores }
  agenda : ∀ e ∈ p.agenda, e ∈ q.agenda
  core : ∀ lc, ∃ energy wake idle, q.core lc = (p.core lc).booked energy wake idle

namespace Panel.Booked

theorem refl (p : Panel) : p.Booked p := ⟨rfl, fun _ h => h, fun _ => ⟨_, _, _, rfl⟩⟩

theorem trans {p q r : Panel} (hpq : p.Booked q) (hqr : q.Booked r) : p.Booked r := by
  refine ⟨?_, fun e h => hqr.agenda e (hpq.agenda e h), fun lc => ?_⟩
  · rw [hqr.rest, hpq.rest]
  · obtain ⟨e, w, i, hq⟩ := hpq.core lc
    obtain ⟨e', w', i', hr⟩ := hqr.core lc
    exact ⟨e', w', i', by rw [hr, hq]; rfl⟩

section
variable {p q : Panel} (h : p.Booked q)
include h

theorem mem : q.mem = p.mem := (congrArg Panel.mem h.rest :)
theorem now : q.now = p.now := (congrArg Panel.now h.rest :)
theorem cur : q.cur = p.cur := (congrArg Panel.cur h.rest :)
theorem accs : q.accs = p.accs := (congrArg Panel.accs h.rest :)
theorem blocks : q.blocks = p.blocks := (congrArg Panel.blocks h.rest :)
theorem parts : q.parts = p.parts := (congrArg Panel.parts h.rest :)
theorem fabric : q.fabric = p.fabric := (congrArg Panel.fabric h.rest :)
theorem clusters : q.clusters = p.clusters := (congrArg Panel.clusters h.rest :)

theorem acc (id : Nat) : q.acc id = p.acc id := by rw [Panel.acc, h.accs, Panel.acc]

theorem block (tag : Nat) : q.block tag = p.block tag := by rw [Panel.block, h.blocks, Panel.block]

/-- What a core's books do not hold stands. -/
theorem field {α : Type} (f : Core → α) (hf : ∀ c e w i, f (c.booked e w i) = f c) (lc : Nat) : f (q.core lc) = f (p.core lc) := by
  obtain ⟨e, w, i, hq⟩ := h.core lc
  rw [hq, hf]

theorem ctx (lc slot : Nat) : q.ctx lc slot = p.ctx lc slot := h.field (fun c => SMap.getD c.ctxs slot {}) (fun _ _ _ _ => rfl) lc

theorem cc : q.cc = p.cc := by rw [Panel.cc, h.cur, h.ctx, Panel.cc]

theorem trip (a b cls : Nat) : q.trip a b cls = p.trip a b cls :=
  Panel.trip_congr a b cls h.fabric h.parts (h.field Core.route (fun _ _ _ _ => rfl) a)

/-- The same change of a core on both sides leaves books between them. -/
theorem updCore (lc : Nat) (f : Core → Core) (hf : ∀ c e w i, f (c.booked e w i) = (f c).booked e w i) : (p.updCore lc f).Booked (q.updCore lc f) := by
  refine ⟨?_, h.agenda, fun k => ?_⟩
  · show { q with cores := (q.updCore lc f).cores } = _
    rw [h.rest]
    rfl
  · obtain ⟨e, w, i, hq⟩ := h.core k
    by_cases hk : lc = k
    · subst hk
      exact ⟨e, w, i, by rw [Panel.core_updCore_self, Panel.core_updCore_self, hq, hf]⟩
    · exact ⟨e, w, i, by rw [Panel.core_updCore_other _ _ _ _ hk, Panel.core_updCore_other _ _ _ _ hk, hq]⟩

theorem updCtx (lc slot : Nat) (f : Ctx → Ctx) : (p.updCtx lc slot f).Booked (q.updCtx lc slot f) := by
  rw [Panel.updCtx, Panel.updCtx, h.ctx]
  exact h.updCore lc _ fun _ _ _ _ => rfl

theorem setMem (m : Memory) : ({ p with mem := m } : Panel).Booked { q with mem := m } :=
  ⟨by conv_lhs => rw [h.rest], h.agenda, h.core⟩

theorem setAccs (m : SMap Access) : ({ p with accs := m } : Panel).Booked { q with accs := m } :=
  ⟨by conv_lhs => rw [h.rest], h.agenda, h.core⟩

theorem delAcc (id : Nat) : (p.delAcc id).Booked (q.delAcc id) := by
  rw [Panel.delAcc, Panel.delAcc, h.accs]
  exact h.setAccs _

end
end Panel.Booked

/-! ### Books kept -/

theorem Panel.booked_later (p : Panel) (d : Nat) (e : Instr) (args : List Nat) : p.Booked (p.later d e args) :=
  ⟨rfl, fun _ h => List.mem_append_left _ h, fun _ => ⟨_, _, _, rfl⟩⟩

/-- A core that keeps its books. -/
theorem Panel.booked_setCore (p : Panel) (lc : Nat) (c : Core) (hc : ∃ e w i, c = (p.core lc).booked e w i) : p.Booked (p.setCore lc c) := by
  refine ⟨rfl, fun _ h => h, fun k => ?_⟩
  by_cases hk : lc = k
  · subst hk
    rwa [Panel.core_setCore_self]
  · rw [Panel.core_setCore_other _ _ _ _ hk]
    exact ⟨_, _, _, rfl⟩

theorem Panel.booked_bill (p : Panel) (lc launch pj : Nat) : p.Booked (p.bill lc launch pj) :=
  p.booked_setCore lc _ ⟨_, _, _, rfl⟩

theorem Panel.booked_bankCharge (p : Panel) (lc tag n : Nat) : p.Booked (p.bankCharge lc tag n) := p.booked_bill ..

theorem Panel.booked_billAnswer (p : Panel) (id h : Nat) : p.Booked (p.billAnswer id h) := by
  unfold Panel.billAnswer
  split
  · exact p.booked_bill ..
  · exact .refl p

theorem Panel.booked_rouse (p : Panel) (lc : Nat) : p.Booked (p.rouse lc) := by
  unfold Panel.rouse
  dsimp only
  split
  · exact (p.booked_setCore lc _ ⟨_, _, _, rfl⟩).trans (Panel.booked_later ..)
  · exact p.booked_setCore lc _ ⟨_, _, _, rfl⟩

theorem Panel.booked_rouseOf (p : Panel) (lc slot : Nat) : p.Booked (p.rouseOf lc slot) := by
  unfold Panel.rouseOf
  split
  · exact .refl p
  · exact p.booked_rouse lc

theorem Panel.booked_moveCheck (p : Panel) (lc slot : Nat) : p.Booked (p.moveCheck lc slot) := by
  unfold Panel.moveCheck
  dsimp only
  split
  · exact Panel.booked_later ..
  · exact .refl p

theorem Panel.booked_stir (p : Panel) (lc : Nat) : p.Booked (p.stir lc) := by
  unfold Panel.stir
  split
  · exact Panel.booked_later ..
  · exact Panel.booked_later ..
  · exact .refl p

/-! ### Threads made ready -/

/-- A context whose waits are cleared (R226). -/
def Ctx.freed (c : Ctx) (now : Nat) : Ctx := { c with st := c.free now, stall := .none, wake := .none, since := now }

theorem Ctx.free_of_free {c : Ctx} {now : Nat} (h : c.Free now) : c.free now = .ready := by
  rw [Ctx.free, if_neg h.1, if_neg (by have := h.2; omega)]

/-- A thread made ready: its waits are cleared, and its core leaves retention (R226, R247). -/
theorem Panel.booked_ready (p : Panel) (lc slot : Nat) : (p.updCtx lc slot fun c => c.freed p.now).Booked (p.ready lc slot) :=
  Panel.booked_rouse ..

theorem Panel.ctx_ready (p : Panel) (lc slot : Nat) : (p.ready lc slot).ctx lc slot = (p.ctx lc slot).freed p.now := by
  rw [(p.booked_ready lc slot).ctx, Panel.ctx_updCtx_self]

@[simp] theorem Panel.ready_mem (p : Panel) (lc slot : Nat) : (p.ready lc slot).mem = p.mem := (p.booked_ready lc slot).mem

end Sys2Proof.Machine
end

section
/-! Timers of threads and of cores, and retention (R90, R99, R211, R214, R245-R247, R277, R311, R315). -/

namespace Sys2Proof.Machine

/-! ### Threads whose waits end -/

/-- What the end of a wait leaves: the thread ready, its registers and its pc as they were, and every byte of memory. -/
def FreedOf (s : State) (lc slot : Nat) (t : State) : Prop :=
  (t.panel.ctx lc slot).st = .ready ∧ (t.panel.ctx lc slot).stall = .none ∧ (t.panel.ctx lc slot).g = (s.panel.ctx lc slot).g ∧
    (t.panel.ctx lc slot).pc = (s.panel.ctx lc slot).pc ∧ t.panel.mem = s.panel.mem

theorem freedOf_ready (s : State) (lc slot : Nat) (h : (s.panel.ctx lc slot).Free s.panel.now) :
    FreedOf s lc slot { s with panel := s.panel.ready lc slot } := by
  unfold FreedOf
  rw [Panel.ctx_ready, Panel.ready_mem]
  exact ⟨Ctx.free_of_free h, rfl, rfl, rfl, rfl⟩

/-- A context with a register more written is as free as it was. -/
theorem Ctx.Free.setG {c : Ctx} {now : Nat} (h : c.Free now) (i : Nat) (v : W) : (c.setG i v).Free now := by
  unfold Ctx.Free at h ⊢
  rwa [Ctx.setG_st, Ctx.setG_gapUntil]

section
variable (s : State) (lc slot : Nat) (hev : s.panel.ev = [lc, slot])
include hev

theorem exec_holdEnd_due (u : Nat) (hst : (s.panel.ctx lc slot).stall = .hold u) (hu : u ≤ s.panel.now) :
    exec .holdEnd s = s.to (s.panel.ready lc slot) := by
  show execHoldEnd s = _
  simp [execHoldEnd, onPanel, Panel.arg, hev, hst, hu, State.to]

theorem exec_fuseTimeout_due (m d u : Nat) (hst : (s.panel.ctx lc slot).stall = .fuse m d u) (hu : u + 4096 ≤ s.panel.now) :
    exec .fuseTimeout s = s.to (s.panel.fuseEnd lc slot 0 []) := by
  show execFuseTimeout s = _
  simp [execFuseTimeout, onPanel, Panel.arg, hev, hst, hu, State.to]

theorem exec_barrierStaggerEnd_due (u : Nat) (hwake : (s.panel.ctx lc slot).wake = .stagger u) (hst : (s.panel.ctx lc slot).st = .blocked)
    (hu : u ≤ s.panel.now) : exec .barrierStaggerEnd s = s.to (s.panel.ready lc slot) := by
  show execBarrierStaggerEnd s = _
  simp [execBarrierStaggerEnd, onPanel, Panel.arg, hev, hwake, hst, hu, State.to]

theorem exec_migrateAfterStall_due (hst : (s.panel.ctx lc slot).stall = .migrate) (hl : (s.panel.ctx lc slot).ldc = 0)
    (hs : (s.panel.ctx lc slot).stc = 0) : exec .migrateAfterStall s = s.to (s.panel.ready lc slot) := by
  show execMigrateAfterStall s = _
  simp [execMigrateAfterStall, onPanel, Panel.arg, hev, hst, hl, hs, State.to]

/-- The one result due of a division is written, and none is left (R277). -/
theorem exec_divResult_due (r : Nat) (v : W) (due : Nat) (hdiv : (s.panel.ctx lc slot).div = [(r, v, due)]) (hdue : due ≤ s.panel.now) :
    exec .divResult s = s.to (s.panel.updCtx lc slot fun c => { c.setG r v with div := [] }) := by
  show execDivResult s = _
  simp [execDivResult, onPanel, Panel.arg, hev, Panel.updCtx, hdiv, hdue, State.to]

/-- A gap that has passed ends (R211). -/
theorem exec_issueGapEnd_due (hst : (s.panel.ctx lc slot).st = .gap) (hgap : (s.panel.ctx lc slot).gapUntil ≤ s.panel.now) :
    exec .issueGapEnd s = s.to (s.panel.updCtx lc slot fun c => { c with st := .ready, since := s.panel.now }) := by
  show execIssueGapEnd s = _
  simp [execIssueGapEnd, onPanel, Panel.arg, hev, Panel.updCtx, hst, hgap, State.to]

/-- A wait that a full table had refused, tried again at a full word that it does not take: it leaves the table and is served (R90, R91). -/
theorem exec_waitTableRetry_served (k : Nat) (e : WaitEnt) (hcores : s.panel.cores = [(k, s.panel.core k)]) (hwaits : (s.panel.core k).waits = [e])
    (hcore : e.core = lc) (hslot : e.slot = slot) (hent : e.entered = false) (hat : e.retryAt ≤ s.panel.now) (hbar : e.bar = false)
    (hfull : s.panel.isFull k e.off = true) (htake : e.take = false) :
    exec .waitTableRetry s = s.to ((s.panel.updCore k fun c => { c with waits := [] }).serveOne k e.off e) := by
  have hgone : (s.panel.updCore k fun c => { c with waits := c.waits.erase e }) = s.panel.updCore k fun c => { c with waits := [] } := by
    simp only [Panel.updCore, hwaits, List.erase_cons_head]
  have hfull' : (s.panel.updCore k fun c => { c with waits := [] }).isFull k e.off = true := by
    rwa [Panel.isFull, Panel.core_updCore_self]
  show execWaitTableRetry s = _
  simp only [execWaitTableRetry, onPanel, Panel.arg, hev, State.to]
  rw [hcores]
  simp [hwaits, hcore, hslot, hent, hat, hbar, hgone, Panel.waitWord, hfull', htake]

end

/-! ### What is left of the thread -/

/-- A waiting FUSE that ends: its register takes the value and its thread is ready. -/
theorem Panel.ctx_fuseEnd (p : Panel) (lc slot : Nat) (v : W) (gang : List Nat) :
    (p.fuseEnd lc slot v gang).ctx lc slot =
      Ctx.freed { (p.ctx lc slot).setG (fuseDest (p.ctx lc slot).stall) v with gang := gang, gangStep := 0 } p.now := by
  rw [Panel.fuseEnd, Panel.ctx_ready, Panel.ctx_updCtx_self]
  rfl

/-- An LDSY of a thread of the chip, served: its register takes the word and it is ready. -/
theorem Panel.ctx_serveOne (p : Panel) (lc word : Nat) (e : WaitEnt) (h : e.acc = 0) :
    (p.serveOne lc word e).ctx e.core e.slot = ((p.ctx e.core e.slot).setG e.dest (w64 (p.lmRead lc (8 * word) 8))).freed p.now := by
  rw [Panel.serveOne, if_neg (not_not_intro h), Panel.ctx_ready, Panel.putGAt, Panel.ctx_updCtx_self]
  rfl

/-- A served LDSY leaves the wait tables. -/
theorem Panel.waits_serveOne (p : Panel) (lc word k : Nat) (e : WaitEnt) (h : e.acc = 0) : ((p.serveOne lc word e).core k).waits = (p.core k).waits := by
  rw [Panel.serveOne, if_neg (not_not_intro h), (Panel.booked_ready _ _ _).field Core.waits (fun _ _ _ _ => rfl), Panel.core_updCtx, Panel.putGAt,
    Panel.core_updCtx]

/-! ### Retention -/

/-- A core that may enter retention has a depth to enter. -/
theorem retDepth_of_ok {p : Panel} {lc : Nat} (h : retentionOk p lc = true) : retDepth p lc ≠ 0 := by
  unfold retentionOk at h
  rw [Bool.and_eq_true] at h
  exact bne_iff_ne.mp h.1

section
variable (s : State) (lc : Nat) (hev : s.panel.ev = [lc])
include hev

theorem exec_retentionEntry_due (hok : retentionOk s.panel lc = true) (hidle : (s.panel.core lc).idleSince + 256 ≤ s.panel.now)
    (hdepth : (s.panel.core lc).retDepth = 0) :
    exec .retentionEntry s = s.to (s.panel.updCore lc fun c => { c with retDepth := retDepth s.panel lc, wakeAt := 0 }) := by
  show execRetentionEntry s = _
  simp [execRetentionEntry, onPanel, Panel.arg, hev, hok, hidle, hdepth, State.to]

theorem exec_retentionEntry_not (hok : retentionOk s.panel lc = false) : exec .retentionEntry s = .next s := by
  show execRetentionEntry s = _
  simp [execRetentionEntry, onPanel, Panel.arg, hev, hok]

theorem exec_bankWake_due (hdepth : (s.panel.core lc).retDepth ≠ 0) (hwake : (s.panel.core lc).wakeAt ≠ 0) (hat : (s.panel.core lc).wakeAt ≤ s.panel.now) :
    exec .bankWake s = s.to (s.panel.updCore lc fun c => { c with retDepth := 0, wakeAt := 0 }) := by
  show execBankWake s = _
  simp [execBankWake, onPanel, Panel.arg, hev, Panel.updCore, hdepth, hwake, hat, State.to]

end

/-- Settles O29: each event is one equation, and what it leaves of the thread or of the core is read from it. -/
theorem timersAndRetention : Obligations.TimersAndRetention := by
  unfold Obligations.TimersAndRetention
  refine ⟨fun s lc slot => ?_, fun s lc => ?_⟩
  · intro p c freed hev
    refine ⟨?div, ?gap, ?hold, ?fuse, ?stagger, ?migrate, ?wait⟩
    case div =>
      intro r v due hdiv hdue
      refine ⟨_, exec_divResult_due s lc slot hev r v due hdiv hdue, ?_⟩
      rw [Panel.ctx_updCtx_self]
      exact ⟨rfl, rfl, Ctx.setG_pc .., rfl⟩
    case gap =>
      intro hst hgap
      refine ⟨_, exec_issueGapEnd_due s lc slot hev hst hgap, ?_⟩
      rw [Panel.ctx_updCtx_self]
      exact ⟨rfl, rfl, rfl, rfl⟩
    case hold => exact fun u hst hu hfree => ⟨_, exec_holdEnd_due s lc slot hev u hst hu, freedOf_ready s lc slot hfree⟩
    case stagger => exact fun u hwake hst hu hfree => ⟨_, exec_barrierStaggerEnd_due s lc slot hev u hwake hst hu, freedOf_ready s lc slot hfree⟩
    case migrate => exact fun hst hl hs hfree => ⟨_, exec_migrateAfterStall_due s lc slot hev hst hl hs, freedOf_ready s lc slot hfree⟩
    case fuse =>
      intro m d u hst hu hfree
      refine ⟨_, exec_fuseTimeout_due s lc slot hev m d u hst hu, ?_⟩
      have hdest : fuseDest (p.ctx lc slot).stall = d := by rw [show (p.ctx lc slot).stall = _ from hst]; rfl
      rw [Panel.ctx_fuseEnd, hdest]
      exact ⟨Ctx.free_of_free (hfree.setG d 0), rfl, rfl, Panel.ready_mem ..⟩
    case wait =>
      intro e k hcores hwaits hcore hslot hent hat hbar hfull htake hacc hfree
      refine ⟨_, exec_waitTableRetry_served s lc slot hev k e hcores hwaits hcore hslot hent hat hbar hfull htake, ?_⟩
      have hctx : (p.updCore k fun c => { c with waits := [] }).ctx lc slot = c := Panel.ctx_updCore p k lc slot _ fun _ => rfl
      subst hcore hslot
      rw [Panel.ctx_serveOne _ _ _ _ hacc, Panel.waits_serveOne _ _ _ _ _ hacc, Panel.core_updCore_self, hctx]
      exact ⟨rfl, Ctx.free_of_free (hfree.setG _ _), rfl⟩
  · intro p k hev
    refine ⟨fun hok hidle hdepth => ?entry, exec_retentionEntry_not s lc hev, fun hdepth hwake hat => ?wake⟩
    case entry =>
      refine ⟨_, exec_retentionEntry_due s lc hev hok hidle hdepth, ?_⟩
      rw [Panel.core_updCore_self]
      exact ⟨rfl, retDepth_of_ok hok, rfl, rfl⟩
    case wake =>
      refine ⟨_, exec_bankWake_due s lc hev hdepth hwake hat, ?_⟩
      rw [Panel.core_updCore_self]
      exact ⟨rfl, rfl, rfl⟩

end Sys2Proof.Machine
end

section
/-! Responses to the accesses of a thread that is still there (R108, R143, R263, R288, R319, R321). -/

namespace Sys2Proof.Machine

/-! ### The counter of an access -/

/-- A context whose counter no longer counts an access (R263). -/
def Access.counted (a : Access) (c : Ctx) : Ctx :=
  match a.cls with
  | .none => c
  | .loads => { c with ldc := c.ldc - 1 }
  | .stores => { c with stc := c.stc - 1 }

theorem Access.counted_ldc {a : Access} (h : a.cls = .loads) (c : Ctx) : (a.counted c).ldc = c.ldc - 1 := by rw [Access.counted, h]

theorem Access.counted_stc {a : Access} (h : a.cls = .stores) (c : Ctx) : (a.counted c).stc = c.stc - 1 := by rw [Access.counted, h]

/-- Nothing of a context but its two counters changes with what they count. -/
theorem Access.counted_eq (a : Access) (c : Ctx) : ∃ l s, a.counted c = { c with ldc := l, stc := s } := by
  unfold Access.counted
  split
  · exact ⟨c.ldc, c.stc, rfl⟩
  · exact ⟨_, c.stc, rfl⟩
  · exact ⟨c.ldc, _, rfl⟩

/-- A panel whose thread no longer counts an access, which is gone from the table (R263). -/
def Panel.answered (p : Panel) (a : Access) : Panel :=
  match a.cls with
  | .none => p.delAcc a.id
  | .loads => (p.updCtx a.core a.slot a.counted).delAcc a.id
  | .stores => (p.updCtx a.core a.slot a.counted).delAcc a.id

section
variable (p : Panel) (a : Access)

theorem Panel.ctx_answered : (p.answered a).ctx a.core a.slot = a.counted (p.ctx a.core a.slot) := by
  unfold Panel.answered
  cases h : a.cls with
  | none => rw [Access.counted, h]; rfl
  | loads => exact Panel.ctx_updCtx_self ..
  | stores => exact Panel.ctx_updCtx_self ..

/-- What the thread's counters do not hold stands, but for the access. -/
theorem Panel.answered_keeps {α : Type} (f : Panel → α) (hf : ∀ (q : Panel) lc c, f (q.setCore lc c) = f q) (hd : ∀ q : Panel, f (q.delAcc a.id) = f q) :
    f (p.answered a) = f p := by
  unfold Panel.answered
  split
  · exact hd p
  · exact (hd _).trans (hf _ _ _)
  · exact (hd _).trans (hf _ _ _)

@[simp] theorem Panel.answered_mem : (p.answered a).mem = p.mem := p.answered_keeps a Panel.mem (fun _ _ _ => rfl) fun _ => rfl
@[simp] theorem Panel.answered_now : (p.answered a).now = p.now := p.answered_keeps a Panel.now (fun _ _ _ => rfl) fun _ => rfl
@[simp] theorem Panel.answered_blocks : (p.answered a).blocks = p.blocks := p.answered_keeps a Panel.blocks (fun _ _ _ => rfl) fun _ => rfl

theorem Panel.acc_answered : (p.answered a).acc a.id = none := by
  unfold Panel.answered
  split <;> exact SMap.find_del_self ..

/-- An answer that counts its access no more and takes it from the table keeps books beside it. -/
theorem Panel.booked_answered (hmine : p.mine a = true) : (p.answered a).Booked ((p.uncount a).delAcc a.id) := by
  unfold Panel.answered Panel.uncount Access.counted
  rw [hmine]
  cases a.cls with
  | none => exact .refl _
  | loads => exact (Panel.booked_moveCheck ..).delAcc _
  | stores => exact (Panel.booked_moveCheck ..).delAcc _

theorem Panel.mine_congr {p q : Panel} {a : Access} (hb : (q.ctx a.core a.slot).btag = (p.ctx a.core a.slot).btag)
    (hs : (q.ctx a.core a.slot).st = (p.ctx a.core a.slot).st) : q.mine a = p.mine a := by
  rw [Panel.mine, hb, hs, Panel.mine]

theorem Panel.btag_of_mine {p : Panel} {a : Access} (h : p.mine a = true) : (p.ctx a.core a.slot).btag = a.btag := by
  rw [Panel.mine, Bool.and_eq_true, beq_iff_eq] at h
  exact h.1

theorem Panel.mine_answered : (p.answered a).mine a = p.mine a := by
  obtain ⟨l, s, h⟩ := a.counted_eq (p.ctx a.core a.slot)
  exact Panel.mine_congr (by rw [Panel.ctx_answered, h]) (by rw [Panel.ctx_answered, h])

end

/-! ### What an answer leaves -/

/-- What an answer leaves: its access gone from the table, every byte of memory, and of its thread what is said. -/
def AnsweredWith (p : Panel) (a : Access) (ok : Ctx → Prop) (q : Panel) : Prop := q.acc a.id = none ∧ q.mem = p.mem ∧ ok (q.ctx a.core a.slot)

theorem Panel.Booked.answeredWith {p q r : Panel} {a : Access} {ok : Ctx → Prop} (h : q.Booked r) (hq : AnsweredWith p a ok q) : AnsweredWith p a ok r := by
  obtain ⟨hacc, hmem, hok⟩ := hq
  exact ⟨by rw [h.acc, hacc], by rw [h.mem, hmem], by rwa [h.ctx]⟩

theorem AnsweredWith.answered (p : Panel) (a : Access) (ok : Ctx → Prop) (h : ok (a.counted (p.ctx a.core a.slot))) : AnsweredWith p a ok (p.answered a) :=
  ⟨p.acc_answered a, p.answered_mem a, by rwa [Panel.ctx_answered]⟩

theorem AnsweredWith.uncount {p : Panel} {a : Access} {ok : Ctx → Prop} (hmine : p.mine a = true) (h : ok (a.counted (p.ctx a.core a.slot))) :
    AnsweredWith p a ok ((p.uncount a).delAcc a.id) :=
  (p.booked_answered a hmine).answeredWith (.answered p a ok h)

/-! ### Loads -/

/-- The value that a load's g register takes (R288). -/
def Access.value (a : Access) : W := if a.items ≠ [] then w64 a.got else if a.sx then sext64 (8 * a.size) a.got else w64 a.got

theorem Panel.writeDest_g {p : Panel} {a : Access} {r : Nat} (hmine : p.mine a = true) (hk : a.kind = .load) (hd : a.dest = .g r) :
    p.writeDest a = p.putGAt a.core a.slot r a.value := by
  simp [Panel.writeDest, hmine, hd, hk, Access.value]

theorem Panel.tileAnswer_of_not_tile (p : Panel) (a : Access) (h : ∀ n, a.dest ≠ .tile n) : p.tileAnswer a = p := by
  unfold Panel.tileAnswer
  split
  · next n hn => exact absurd hn (h n)
  all_goals rfl

/-- A thread that waits for the answer of a load is made ready, or none waits for it. -/
theorem Panel.wakeRemote_load (p : Panel) (a : Access) (hk : a.kind = .load) : p.wakeRemote a = p ∨ p.wakeRemote a = p.ready a.core a.slot := by
  have hno : a.kind ≠ .fmtLoad := by rw [hk]; exact nofun
  simp only [Panel.wakeRemote, hno, and_false, if_false]
  split
  · exact .inl rfl
  · split
    · exact .inr rfl
    · exact .inl rfl

theorem AnsweredWith.ready {p q : Panel} {a : Access} {ok : Ctx → Prop} (h : AnsweredWith p a ok q) (hok : ∀ c n, ok c → ok (c.freed n)) :
    AnsweredWith p a ok (q.ready a.core a.slot) := by
  obtain ⟨hacc, hmem, hctx⟩ := h
  exact ⟨((Panel.booked_ready ..).acc _).trans hacc, (Panel.ready_mem ..).trans hmem, by rw [Panel.ctx_ready]; exact hok _ _ hctx⟩

theorem Panel.finishLoad_load {p : Panel} {a : Access} (hk : a.kind = .load) (hd : ∀ n, a.dest ≠ .tile n) :
    p.finishLoad a = (((p.writeDest a).uncount a).delAcc a.id).wakeRemote a := by
  simp only [Panel.finishLoad, hk, reduceCtorEq, false_and, and_false, if_false]
  exact Panel.tileAnswer_of_not_tile _ a hd

theorem Panel.l1d_updCtx (p : Panel) (lc slot k : Nat) (f : Ctx → Ctx) : ((p.updCtx lc slot f).core k).l1d = (p.core k).l1d := by
  rw [Panel.core_updCtx]

theorem Panel.l1d_answered (p : Panel) (a : Access) (k : Nat) : ((p.answered a).core k).l1d = (p.core k).l1d := by
  unfold Panel.answered
  split
  · rfl
  · exact Panel.l1d_updCtx ..
  · exact Panel.l1d_updCtx ..

section
variable {p : Panel} {a : Access} {r : Nat} (hmine : p.mine a = true) (hk : a.kind = .load) (hd : a.dest = .g r)
include hmine hk hd

/-- A load that returns: its register is written and it is answered, with books kept; its thread, if it waits, is made ready. -/
theorem Panel.finishLoad_cases : ∃ q, ((p.putGAt a.core a.slot r a.value).answered a).Booked q ∧
    (p.finishLoad a = q ∨ p.finishLoad a = q.ready a.core a.slot) := by
  have hminew : (p.putGAt a.core a.slot r a.value).mine a = true :=
    (Panel.mine_congr (by rw [Panel.putGAt, Panel.ctx_updCtx_self, Ctx.setG_btag]) (by rw [Panel.putGAt, Panel.ctx_updCtx_self, Ctx.setG_st])).trans hmine
  rw [Panel.finishLoad_load hk (by rw [hd]; exact nofun), Panel.writeDest_g hmine hk hd]
  exact ⟨_, Panel.booked_answered _ a hminew, Panel.wakeRemote_load _ a hk⟩

/-- What a load that returns leaves: its access gone, its register with its value and its counter lower (R263, R288). -/
theorem Panel.finishLoad_g (hcls : a.cls = .loads) :
    AnsweredWith p a (fun x => x.g = ((p.ctx a.core a.slot).setG r a.value).g ∧ x.ldc = (p.ctx a.core a.slot).ldc - 1) (p.finishLoad a) := by
  obtain ⟨q, hbook, hq⟩ := Panel.finishLoad_cases hmine hk hd
  have hans : AnsweredWith p a (fun x => x.g = ((p.ctx a.core a.slot).setG r a.value).g ∧ x.ldc = (p.ctx a.core a.slot).ldc - 1) q := by
    refine hbook.answeredWith ⟨Panel.acc_answered _ a, Panel.answered_mem _ a, ?_⟩
    obtain ⟨l, s, hc⟩ := a.counted_eq ((p.ctx a.core a.slot).setG r a.value)
    rw [Panel.ctx_answered, Panel.putGAt, Panel.ctx_updCtx_self]
    exact ⟨by rw [hc], (Access.counted_ldc hcls _).trans (by rw [Ctx.setG_ldc])⟩
  obtain h | h := hq
  · rwa [h]
  · rw [h]
    exact hans.ready fun _ _ hc => hc

/-- A load that returns leaves every L1 as it is. -/
theorem Panel.l1d_finishLoad (k : Nat) : ((p.finishLoad a).core k).l1d = (p.core k).l1d := by
  obtain ⟨q, hbook, hq⟩ := Panel.finishLoad_cases hmine hk hd
  have hans : (q.core k).l1d = (p.core k).l1d := by
    rw [hbook.field Core.l1d (fun _ _ _ _ => rfl), Panel.l1d_answered, Panel.putGAt, Panel.l1d_updCtx]
  obtain h | h := hq
  · rwa [h]
  · rw [h, (Panel.booked_ready ..).field Core.l1d (fun _ _ _ _ => rfl), Panel.l1d_updCtx, hans]

end

/-! ### Fills -/

/-- A line placed in an L1 that holds no later reading of it stands there (R108, R110). -/
theorem mem_l1Place (ls : List L1Line) (set : Nat → Nat) (ways seed : Nat) (x : L1Line) (h : ∀ l ∈ ls, l.pline = x.pline → l.stamp ≤ x.stamp) :
    x ∈ l1Place ls set ways seed x := by
  have hno : ¬ (ls.any fun l => l.pline == x.pline && decide (x.stamp < l.stamp)) = true := by
    rw [List.any_eq_true]
    rintro ⟨l, hl, hlate⟩
    rw [Bool.and_eq_true, beq_iff_eq, decide_eq_true_eq] at hlate
    exact absurd (h l hl hlate.1) (by omega)
  rw [l1Place, if_neg hno]
  dsimp only
  split
  · simp
  · split <;> simp

/-- The line that a fill of one part leaves (R105, R108). -/
def fillLine (p : Panel) (a : Access) (x : Part) (e : Nat × Nat × Line) : L1Line :=
  ⟨a.va / 64, (p.block a.btag).part, (p.block a.btag).asid, e.1, x.attr, x.key, e.2.2, e.2.1⟩

/-- A fill of one line that no store has patched: it is placed in the L1 data cache of its thread. -/
theorem Panel.fillL1_one {p : Panel} {a : Access} {pl n : Nat} {d : Line} {x : Part} (hf : a.fill = 1) (hl : a.lines = [(pl, n, d)]) (hp : a.patch = [])
    (hx : a.parts = [x]) (hpl : x.line = pl) (hpos : x.pos = 0) :
    p.fillL1 a = p.updCore (l1Core p a.core (64 * (a.va / 64))) fun c =>
      { c with l1d := l1Place c.l1d (l1Set (p.cluster (clusterOf a.core)).fused) 6 p.evs (fillLine p a x (pl, n, d)), l1Bad := c.l1Bad.filter (· != 2 * pl) } := by
  simp [Panel.fillL1, hl, hx, hpl, hpos, hp, hf, patchLine, fillLine]

/-! ### Traps -/

/-- A context stopped by a trap of class F (R450, R454). -/
def Ctx.StoppedBy (c : Ctx) (cause : Nat) (tval : W) (d : Ctx) : Prop :=
  d.g = c.g ∧ d.ldc = c.ldc ∧ d.st = .stall ∧ d.stall = .fatal ∧ d.tcause.toNat = 0x200 + cause ∧ d.tval = tval

/-- A trap of class F stops its thread with its cause (R450). -/
theorem Panel.deliver_fatal (p : Panel) (lc slot cause : Nat) (tval : W) (impr aword away : Bool) (hlo : 0x30 ≤ cause) (hhi : cause < 256) :
    (p.ctx lc slot).StoppedBy cause tval ((p.deliver lc slot cause tval impr aword away).ctx lc slot) := by
  have hcls : causeClass cause = 2 := if_pos hlo
  have hdbg : cause ≠ 0x10 := by omega
  obtain ⟨g, n, hd⟩ := Panel.ctx_dissolve p (p.ctx lc slot).gang slot lc slot
  simp only [Panel.deliver, hcls, hdbg, false_and, if_false, true_or, if_true, Panel.ctx_raiseHalt, Panel.ctx_updCtx_self, hd, Ctx.StoppedBy]
  simp
  omega

/-- What a trap at its routine leaves of a context (R450, R453). -/
def Ctx.TrappedTo (c : Ctx) (cause : Nat) (vec : W) (d : Ctx) : Prop :=
  d.g = c.g ∧ d.tcause.toNat = cause ∧ d.tpc = c.pc ∧ d.pc = vec ∧ d.undo = c.undo

/-- A trap of class U elsewhere than at a set TVEC goes there (R450, R453). -/
theorem Panel.deliver_routine {p : Panel} {lc slot : Nat} {c : Ctx} {vec : W} (hc : p.ctx lc slot = c) (hb : (p.block c.btag).trapVec p.now = vec)
    (cause : Nat) (tval : W) (impr aword away : Bool) (hlo : cause < 0x20) (hdbg : cause ≠ 0x10) (hvec : vec ≠ 0) (hpc : c.pc ≠ vec) :
    c.TrappedTo cause vec ((p.deliver lc slot cause tval impr aword away).ctx lc slot) := by
  have hcls : causeClass cause = 0 := by rw [causeClass, if_neg (by omega), if_neg (by omega)]
  have hnot : (0 : Nat) ≠ 2 := nofun
  obtain ⟨g, n, hd⟩ := Panel.ctx_dissolve p c.gang slot lc slot
  simp only [Panel.deliver, hc, hb, hcls, hdbg, hvec, hpc, hnot, false_and, and_false, if_false, or_self, Panel.ctx_updCtx_self, hd, Ctx.TrappedTo]
  simp
  omega

/-- A trap takes no access from the table. -/
theorem Panel.deliver_accs (p : Panel) (lc slot cause : Nat) (tval : W) (impr aword away : Bool) :
    (p.deliver lc slot cause tval impr aword away).accs = p.accs := by
  have hraise (q : Panel) (part site reason c : Nat) : (q.raiseHalt part site reason c tval).accs = q.accs := by
    unfold Panel.raiseHalt Panel.updPart
    split
    · rfl
    · split <;> rfl
  unfold Panel.deliver
  dsimp only
  split
  · rw [hraise]
    exact Panel.dissolve_keep Panel.accs (fun _ _ _ _ => rfl) ..
  · split
    · rw [hraise]
      exact Panel.dissolve_keep Panel.accs (fun _ _ _ _ => rfl) ..
    · exact Panel.dissolve_keep Panel.accs (fun _ _ _ _ => rfl) ..

/-- A context without what the A-word of its last pair wrote in it (R253). -/
def Undo.undone (u : Undo) (c : Ctx) : Ctx :=
  { u.m.foldl (fun (x : Ctx) e => x.setM e.1 e.2) (u.g.foldl (fun (x : Ctx) e => x.setG e.1 e.2) c) with
    flags := c.flags &&& ~~~u.flags
    div := c.div.filter fun e => !u.div.contains e
    undo := none }

theorem Undo.undone_keeps {α : Type} (f : Ctx → α) (hm : ∀ c i v, f (Ctx.setM c i v) = f c) (hr : ∀ (c : Ctx) a b, f { c with flags := a, div := b, undo := none } = f c)
    (u : Undo) (c : Ctx) : f (u.undone c) = f (u.g.foldl (fun (x : Ctx) e => x.setG e.1 e.2) c) := by
  unfold Undo.undone
  refine (hr _ _ _).trans ?_
  generalize u.g.foldl (fun (x : Ctx) e => x.setG e.1 e.2) c = x
  induction u.m generalizing x with
  | nil => rfl
  | cons e l ih => rw [List.foldl_cons, ih, hm]

/-- An A-word that wrote registers alone is taken back in its context, and in the turns its cluster owes it. -/
theorem Panel.undoAword_regs (p : Panel) (lc slot : Nat) (u : Undo) (hmem : u.mem = []) (hcells : u.cells = []) :
    ∃ cs, p.undoAword lc slot u = { p.updCtx lc slot u.undone with clusters := cs } := by
  unfold Panel.undoAword
  rw [hmem, hcells]
  dsimp only [List.foldl_nil]
  split
  · exact ⟨_, rfl⟩
  · exact ⟨_, rfl⟩

/-! ### Errors -/

/-- A register written among registers. -/
theorem Ctx.setG_g_congr {c d : Ctx} (h : c.g = d.g) (i : Nat) (v : W) : (c.setG i v).g = (d.setG i v).g := by
  unfold Ctx.setG
  split
  · exact h
  · rw [h]

theorem foldl_setG_btag (l : List (Nat × W)) (c : Ctx) : (l.foldl (fun (x : Ctx) e => x.setG e.1 e.2) c).btag = c.btag := by
  induction l generalizing c with
  | nil => rfl
  | cons e l ih => rw [List.foldl_cons, ih, Ctx.setG_btag]

/-- An error of class F of a thread's access: the thread is stopped at the access's bundle (R143, R454). -/
theorem AnsweredWith.accFatal {p q : Panel} {a : Access} {c : Ctx} (h : AnsweredWith p a (fun x => x = c) q) (hmine : q.mine a = true)
    (hundo : c.undo = none) (hhome : awaySlot a.slot = false) (hlo : 0x30 ≤ a.err) (hhi : a.err < 256) :
    AnsweredWith p a (c.StoppedBy a.err (w64 a.va)) (q.accFatal a a.err) := by
  obtain ⟨hacc, hmem, rfl⟩ := h
  have hraise : q.accFatal a a.err =
      ((q.updCtx a.core a.slot fun c => { c with pc := a.pc }).deliver a.core a.slot a.err (w64 a.va) false false false).rouseOf a.core a.slot := by
    simp [Panel.accFatal, hmine, Panel.accRaise, Panel.undoFor, hundo, hhome]
  rw [hraise]
  refine (Panel.booked_rouseOf ..).answeredWith ⟨?_, ?_, ?_⟩
  · rw [Panel.acc, Panel.deliver_accs]
    exact hacc
  · rw [Panel.deliver_mem]
    exact hmem
  · have hstop := (q.updCtx a.core a.slot fun c => { c with pc := a.pc }).deliver_fatal a.core a.slot a.err (w64 a.va) false false false hlo hhi
    rwa [Panel.ctx_updCtx_self] at hstop

/-- The trap of a barrier instruction of a pair: the A-word is taken back, and the routine starts (R199, R253). -/
theorem AnsweredWith.accTrap_undo {p q : Panel} {a : Access} {c : Ctx} {u : Undo} {cause : Nat} (h : AnsweredWith p a (fun x => x = c) q) (hmine : q.mine a = true)
    (hundo : c.undo = some u) (hu : u.lo ≤ a.id) (hum : u.mem = []) (huc : u.cells = []) (hhome : awaySlot a.slot = false) (hlo : cause < 0x20)
    (hdbg : cause ≠ 0x10) (tval : W) (hvec : (q.block a.btag).trapVec q.now ≠ 0) (hpc : a.pc ≠ (q.block a.btag).trapVec q.now) :
    AnsweredWith p a ({ u.undone c with pc := a.pc }.TrappedTo cause ((q.block a.btag).trapVec q.now)) (q.accTrap a cause tval) := by
  obtain ⟨hacc, hmem, rfl⟩ := h
  obtain ⟨cs, hback⟩ := q.undoAword_regs a.core a.slot u hum huc
  have hraise : q.accRaise a cause tval =
      ((({ q.updCtx a.core a.slot u.undone with clusters := cs } : Panel).updCtx a.core a.slot fun c => { c with pc := a.pc }).deliver a.core a.slot cause tval
        false false false).rouseOf a.core a.slot := by
    simp [Panel.accRaise, Panel.undoFor, hundo, hu, hhome, hback]
  have hans : AnsweredWith p a ({ u.undone (q.ctx a.core a.slot) with pc := a.pc }.TrappedTo cause ((q.block a.btag).trapVec q.now)) (q.accRaise a cause tval) := by
    rw [hraise]
    have hctx : (({ q.updCtx a.core a.slot u.undone with clusters := cs } : Panel).updCtx a.core a.slot fun c => { c with pc := a.pc }).ctx a.core a.slot =
        { u.undone (q.ctx a.core a.slot) with pc := a.pc } := by
      rw [Panel.ctx_updCtx_self]
      exact congrArg (fun c : Ctx => { c with pc := a.pc }) (Panel.ctx_updCtx_self ..)
    have htag : (u.undone (q.ctx a.core a.slot)).btag = a.btag :=
      (u.undone_keeps Ctx.btag (fun _ _ _ => Ctx.setM_btag ..) (fun _ _ _ => rfl) _).trans
        ((foldl_setG_btag _ _).trans (Panel.btag_of_mine hmine))
    refine (Panel.booked_rouseOf ..).answeredWith ⟨?_, ?_, ?_⟩
    · rw [Panel.acc, Panel.deliver_accs]
      exact hacc
    · rw [Panel.deliver_mem]
      exact hmem
    · exact Panel.deliver_routine hctx (congrArg (fun tag => (q.block tag).trapVec q.now) htag) cause tval false false false hlo hdbg hvec hpc
  unfold Panel.accTrap
  rw [hmine, if_pos rfl]
  dsimp only
  split
  · exact hans
  · exact hans

/-! ### Messages -/

/-- An imprecise trap that waits with its thread (R321). -/
theorem AnsweredWith.trapThread {p q : Panel} {a : Access} {c : Ctx} (h : AnsweredWith p a (fun x => x = c) q) (cause : Nat) (tval : W) :
    AnsweredWith p a (fun x => x = { c with pend := c.pend ++ [⟨cause, tval, true, false⟩] }) (q.trapThread a.core a.slot cause tval) := by
  obtain ⟨hacc, hmem, rfl⟩ := h
  exact ⟨hacc, hmem, Panel.ctx_updCtx_self ..⟩

/-- The last copy of a message answered: its access is counted no more and gone (R319). -/
theorem AnsweredWith.lastCopy {p : Panel} {a : Access} (hacc : p.acc a.id = some a) (hmine : p.mine a = true) (hst : (p.block a.btag).st ≠ .absent) :
    AnsweredWith p a (fun x => x = a.counted (p.ctx a.core a.slot))
      (((p.updAcc a.id fun a => { a with got := a.got + 1 }).uncountSaved a).delAcc a.id) := by
  rw [Panel.updAcc_eq hacc]
  generalize hw : ({ p with accs := SMap.set p.accs a.id { a with got := a.got + 1 } } : Panel) = w
  have hctx : w.ctx a.core a.slot = p.ctx a.core a.slot := by rw [← hw]; rfl
  have hhere : w.uncountSaved a = w.uncount a := if_neg (by rw [← hw]; exact hst)
  have hminew : w.mine a = true := (Panel.mine_congr (by rw [hctx]) (by rw [hctx])).trans hmine
  have hmem : w.mem = p.mem := by rw [← hw]
  obtain ⟨hgone, hbytes, hc⟩ := AnsweredWith.uncount (ok := fun x => x = a.counted (w.ctx a.core a.slot)) hminew rfl
  rw [hhere]
  exact ⟨hgone, hbytes.trans hmem, hctx ▸ hc⟩

section
variable {s : State} {id : Nat} {a : Access} (hacc : s.panel.acc id = some a) (hid : a.id = id)
include hacc

theorem exec_loadResponse_performed (hev : s.panel.ev = [id]) (hstage : a.stage = .performed) : exec .loadResponse s = s.to (s.panel.finishLoad a) := by
  show execLoadResponse s = _
  simp [execLoadResponse, onPanel, Panel.arg, hev, hacc, hstage, State.to]

theorem exec_remoteLoadResponse_performed (hev : s.panel.ev = [id]) (hstage : a.stage = .performed) (hk : a.kind ≠ .barrier) :
    exec .remoteLoadResponse s = s.to (s.panel.finishLoad a) := by
  show execRemoteLoadResponse s = _
  simp [execRemoteLoadResponse, onPanel, Panel.arg, hev, hacc, hstage, hk, State.to]

theorem exec_l1FillResponse_performed (hev : s.panel.ev = [id]) (hstage : a.stage = .performed) :
    exec .l1FillResponse s = s.to ((s.panel.fillL1 a).finishLoad a) := by
  show execL1FillResponse s = _
  simp [execL1FillResponse, onPanel, Panel.arg, hev, hacc, hstage, State.to]

theorem exec_storeAcknowledgement_performed (hev : s.panel.ev = [id]) (hstage : a.stage = .performed) (hk : a.kind ≠ .barrier) :
    exec .storeAcknowledgement s = s.to (((s.panel.uncount a).delAcc a.id).tileAnswer a) := by
  show execStoreAcknowledgement s = _
  simp [execStoreAcknowledgement, onPanel, Panel.arg, hev, hacc, hstage, hk, State.to]

theorem exec_messageResponse_accepted (k : Nat) (hev : s.panel.ev = [id, 0, k]) (hlast : a.got + 1 = a.data) :
    exec .messageResponse s = s.to (((s.panel.updAcc a.id fun a => { a with got := a.got + 1 }).uncountSaved a).delAcc a.id) := by
  show execMessageResponse s = _
  simp [execMessageResponse, onPanel, Panel.arg, hev, hacc, hlast, State.to]

theorem exec_messageResponse_refused (st k : Nat) (hev : s.panel.ev = [id, st, k]) (hlast : a.got + 1 = a.data) (hst : st ≠ 0) (hq : a.quiet = false)
    (hblock : (s.panel.block a.btag).st ≠ .absent) (hmine : s.panel.mine a = true) :
    exec .messageResponse s = s.to ((((s.panel.updAcc a.id fun a => { a with got := a.got + 1 }).uncountSaved a).delAcc a.id).trapThread a.core a.slot 0x11
      (w64 (a.ring * 2 ^ 24 + cy k * 2 ^ 16 + cx k * 2 ^ 8 + st))) := by
  show execMessageResponse s = _
  simp [execMessageResponse, onPanel, Panel.arg, hev, hacc, hlast, hst, hq, hblock, hmine, State.to]

theorem exec_errorResponse_fatal (hev : s.panel.ev = [id]) (hstage : a.stage = .error) (hk : a.kind ≠ .barrier) (hc : a.err ≠ 0x0C) (haside : a.aside = false) :
    exec .errorResponse s = s.to (((s.panel.uncount a).delAcc a.id).accFatal a a.err) := by
  show execErrorResponse s = _
  simp [execErrorResponse, onPanel, Panel.arg, hev, hacc, hstage, hk, hc, haside, State.to]

theorem exec_errorResponse_barrier (hev : s.panel.ev = [id]) (hstage : a.stage = .error) (hk : a.kind = .barrier) :
    exec .errorResponse s = s.to (((s.panel.uncount a).delAcc a.id).accTrap a 0x0B (w64 a.data1)) := by
  show execErrorResponse s = _
  simp [execErrorResponse, onPanel, Panel.arg, hev, hacc, hstage, hk, State.to]

end

/-- A load into a register is no access aside from its thread's program. -/
theorem Access.aside_load {a : Access} (hk : a.kind = .load) (hd : a.dest ≠ .none) (ht : a.ofTile = false) : a.aside = false := by
  simp [Access.aside, Access.hint, hk, ht, hd]

/-! ### The obligation -/

theorem AnsweredWith.mine {p q : Panel} {a : Access} (h : AnsweredWith p a (fun x => x = a.counted (p.ctx a.core a.slot)) q) (hmine : p.mine a = true) :
    q.mine a = true := by
  obtain ⟨-, -, hctx⟩ := h
  obtain ⟨l, n, hc⟩ := a.counted_eq (p.ctx a.core a.slot)
  exact (Panel.mine_congr (by rw [hctx, hc]) (by rw [hctx, hc])).trans hmine

theorem AnsweredWith.mono {p q : Panel} {a : Access} {ok ok' : Ctx → Prop} (h : AnsweredWith p a ok q) (himp : ∀ c, ok c → ok' c) : AnsweredWith p a ok' q := by
  obtain ⟨hacc, hmem, hok⟩ := h
  exact ⟨hacc, hmem, himp _ hok⟩

section
variable {s : State} {a : Access} (hacc : s.panel.acc a.id = some a) (hmine : s.panel.mine a = true)
include hacc hmine

/-- A load of one line that misses the L1: its line stands there afterwards, and its register has its value (R108). -/
theorem l1FillResponse_places {r pl n : Nat} {d : Line} {x : Part} (hev : s.panel.ev = [a.id]) (hstage : a.stage = .performed) (hk : a.kind = .load)
    (hcls : a.cls = .loads) (hd : a.dest = .g r) (hf : a.fill = 1) (hl : a.lines = [(pl, n, d)]) (hp : a.patch = []) (hx : a.parts = [x])
    (hpl : x.line = pl) (hpos : x.pos = 0)
    (hlate : ∀ l ∈ (s.panel.core (l1Core s.panel a.core (64 * (a.va / 64)))).l1d, l.pline = pl → l.stamp ≤ n) :
    ∃ q, exec .l1FillResponse s = s.to q ∧
      AnsweredWith s.panel a (fun y => y.g = ((s.panel.ctx a.core a.slot).setG r a.value).g ∧ y.ldc = (s.panel.ctx a.core a.slot).ldc - 1) q ∧
      fillLine s.panel a x (pl, n, d) ∈ (q.core (l1Core s.panel a.core (64 * (a.va / 64)))).l1d := by
  refine ⟨_, exec_l1FillResponse_performed hacc hev hstage, ?_⟩
  rw [Panel.fillL1_one hf hl hp hx hpl hpos]
  generalize hw : s.panel.updCore _ _ = w
  have hctx : w.ctx a.core a.slot = s.panel.ctx a.core a.slot := by rw [← hw]; exact Panel.ctx_updCore _ _ _ _ _ fun _ => rfl
  have hminew : w.mine a = true := (Panel.mine_congr (by rw [hctx]) (by rw [hctx])).trans hmine
  have hmem : w.mem = s.panel.mem := by rw [← hw]; rfl
  constructor
  · obtain ⟨hgone, hbytes, hok⟩ := Panel.finishLoad_g hminew hk hd hcls
    exact ⟨hgone, hbytes.trans hmem, hctx ▸ hok⟩
  · rw [Panel.l1d_finishLoad hminew hk hd, ← hw, Panel.core_updCore_self]
    exact mem_l1Place _ _ _ _ _ hlate

/-- An error of class F of a load into a register (R143, R454). -/
theorem errorResponse_stops (hev : s.panel.ev = [a.id]) (hstage : a.stage = .error) (hk : a.kind = .load) (hd : a.dest ≠ .none) (ht : a.ofTile = false)
    (hhome : awaySlot a.slot = false) (hlo : 0x30 ≤ a.err) (hhi : a.err < 256) (hundo : (s.panel.ctx a.core a.slot).undo = none) :
    ∃ q, exec .errorResponse s = s.to q ∧
      AnsweredWith s.panel a ((a.counted (s.panel.ctx a.core a.slot)).StoppedBy a.err (w64 a.va)) q := by
  have hans := AnsweredWith.uncount (ok := fun x => x = a.counted (s.panel.ctx a.core a.slot)) hmine rfl
  refine ⟨_, exec_errorResponse_fatal hacc hev hstage (by rw [hk]; exact nofun) (by omega) (Access.aside_load hk hd ht), ?_⟩
  obtain ⟨l, n, hc⟩ := a.counted_eq (s.panel.ctx a.core a.slot)
  exact hans.accFatal (hans.mine hmine) (by rw [hc]; exact hundo) hhome hlo hhi

/-- The trap of a barrier instruction beside an A-word that wrote a register (R199, R253). -/
theorem errorResponse_undoes {u : Undo} (hev : s.panel.ev = [a.id]) (hstage : a.stage = .error) (hk : a.kind = .barrier)
    (hundo : (s.panel.ctx a.core a.slot).undo = some u) (hu : u.lo ≤ a.id) (hum : u.mem = []) (huc : u.cells = []) (hhome : awaySlot a.slot = false)
    (hvec : (s.panel.block a.btag).trapVec s.panel.now ≠ 0) (hpc : a.pc ≠ (s.panel.block a.btag).trapVec s.panel.now) :
    ∃ q, exec .errorResponse s = s.to q ∧
      AnsweredWith s.panel a ({ u.undone (a.counted (s.panel.ctx a.core a.slot)) with pc := a.pc }.TrappedTo 0x0B ((s.panel.block a.btag).trapVec s.panel.now)) q := by
  have hans := AnsweredWith.uncount (ok := fun x => x = a.counted (s.panel.ctx a.core a.slot)) hmine rfl
  have hvecq : (((s.panel.uncount a).delAcc a.id).block a.btag).trapVec ((s.panel.uncount a).delAcc a.id).now =
      (s.panel.block a.btag).trapVec s.panel.now := by
    rw [(s.panel.booked_answered a hmine).block, (s.panel.booked_answered a hmine).now, Panel.answered_now, Panel.block, Panel.answered_blocks, Panel.block]
  refine ⟨_, exec_errorResponse_barrier hacc hev hstage hk, ?_⟩
  obtain ⟨l, n, hc⟩ := a.counted_eq (s.panel.ctx a.core a.slot)
  rw [← hvecq]
  exact hans.accTrap_undo (hans.mine hmine) (by rw [hc]; exact hundo) hu hum huc hhome (by decide) (by decide) _ (by rwa [hvecq]) (by rwa [hvecq])

end

/-- A response event that answers an access and leaves of its thread what is said. -/
def Responds (s : State) (a : Access) (i : Instr) (ok : State → Ctx → Prop) : Prop :=
  ∃ t, exec i s = .next t ∧ t.panel.acc a.id = none ∧ t.panel.mem = s.panel.mem ∧ ok t (t.panel.ctx a.core a.slot)

theorem responds_of {s : State} {a : Access} {i : Instr} {q : Panel} {ok : State → Ctx → Prop} (hex : exec i s = s.to q)
    (hans : AnsweredWith s.panel a (ok { s with panel := q }) q) : Responds s a i ok := ⟨_, hex, hans⟩

/-- Settles O33: every response takes its access from the table and its thread's counter down; what else it leaves of the thread follows from the
load's result, the L1's line or the trap that it delivers. -/
theorem responseEvents : Obligations.ResponseEvents := by
  unfold Obligations.ResponseEvents
  intro s id a p c after hacc hid hmine
  subst hid
  have hafter : after = Responds s a := rfl
  clear_value after
  subst hafter
  obtain ⟨l, n, hc⟩ := a.counted_eq c
  refine ⟨fun r hev hstage hk hcls hd hacq => ⟨fun hitems => ?remote, fun hitems => ?near, fun pl n d x hitems hf hl hp hx hpl hpos hlate => ?fill⟩, ?store, ?accepted,
    ?refused, ?fatal, ?barrier⟩
  case remote =>
    have hval : a.value = BitVec.ofNat 64 a.got := if_pos hitems
    exact responds_of (exec_remoteLoadResponse_performed hacc hev hstage (by rw [hk]; exact nofun)) (hval ▸ Panel.finishLoad_g hmine hk hd hcls)
  case near =>
    have hval : a.value = if a.sx then BitVec.ofInt 64 (sgn (8 * a.size) a.got) else BitVec.ofNat 64 a.got := if_neg (not_not_intro hitems)
    exact responds_of (exec_loadResponse_performed hacc hev hstage) ((hval ▸ Panel.finishLoad_g hmine hk hd hcls).mono fun _ h => h.symm)
  case fill =>
    have hval : a.value = if a.sx then BitVec.ofInt 64 (sgn (8 * a.size) a.got) else BitVec.ofNat 64 a.got := if_neg (not_not_intro hitems)
    obtain ⟨q, hex, ⟨hgone, hmem, hg, hldc⟩, hline⟩ := l1FillResponse_places hacc hmine hev hstage hk hcls hd hf hl hp hx hpl hpos hlate
    exact ⟨_, hex, hgone, hmem, hldc, hval ▸ hg, _, hline, rfl, rfl, rfl⟩
  case store =>
    intro hev hstage hk hcls hd
    have hex := exec_storeAcknowledgement_performed hacc hev hstage (by rw [hk]; exact nofun)
    rw [Panel.tileAnswer_of_not_tile _ a (by rw [hd]; exact nofun)] at hex
    exact responds_of hex (.uncount hmine ⟨Access.counted_stc hcls c, by rw [hc]⟩)
  case accepted =>
    intro k hev hblock hk hcls hlast
    refine responds_of (exec_messageResponse_accepted hacc k hev hlast) ((AnsweredWith.lastCopy hacc hmine hblock).mono ?_)
    rintro x rfl
    exact ⟨Access.counted_stc hcls c, by rw [hc], by rw [hc]⟩
  case refused =>
    intro st k hev hblock hst hk hcls hlast hquiet
    refine responds_of (exec_messageResponse_refused hacc st k hev hlast hst hquiet hblock hmine)
      (((AnsweredWith.lastCopy hacc hmine hblock).trapThread 0x11 _).mono ?_)
    rintro x rfl
    exact ⟨Access.counted_stc hcls c, by rw [hc], by rw [hc]; rfl⟩
  case fatal =>
    intro hev hstage hk hcls hd ht hhome hlo hhi hundo
    obtain ⟨q, hex, hans⟩ := errorResponse_stops hacc hmine hev hstage hk hd ht hhome hlo hhi hundo
    refine responds_of hex (hans.mono ?_)
    rintro x ⟨hg, hldc, hstop⟩
    exact ⟨by rw [hg, hc], hldc.trans (Access.counted_ldc hcls c), hstop⟩
  case barrier =>
    intro u r v hev hstage hk hundo hu hug hum huc hhome hvec hpc
    obtain ⟨q, hex, hans⟩ := errorResponse_undoes hacc hmine hev hstage hk hundo hu hum huc hhome hvec hpc
    refine responds_of hex (hans.mono ?_)
    rintro x ⟨hg, hcause, htpc, hgo, hnone⟩
    refine ⟨hg.trans ?_, hcause, htpc, hgo, hnone⟩
    show (u.undone (a.counted c)).g = _
    rw [u.undone_keeps Ctx.g (fun _ _ _ => Ctx.setM_g ..) (fun _ _ _ => rfl), hug]
    exact Ctx.setG_g_congr (by rw [hc]) r v

end Sys2Proof.Machine
end

section
/-! Packets at the core they arrive at (R94, R481): an arrival event finds its packet at the head of the FIFO, and takes it off. -/

namespace Sys2Proof.Machine

/-! ### The head of the FIFO -/

section
variable {p : Panel} {lc : Nat} {k : Packet} {rest : List Packet} (h : p.Arrived lc k rest)
include h

/-- No packet is on its way in, and the head is performed by its own event. -/
theorem Panel.Arrived.incoming (hev : p.ev = [lc]) : p.incoming (payEvent k.pay) = p := by
  obtain ⟨hfifo, hnet, hrun, -⟩ := h
  have harg : p.arg 0 = lc := by rw [Panel.arg, hev]; rfl
  simp [Panel.incoming, harg, hrun, hnet, Panel.enterFifo, Panel.head, Panel.headK, hfifo]

theorem Panel.Arrived.headK : p.headK lc = some k := by
  obtain ⟨hfifo, -, hrun, -⟩ := h
  simp [Panel.headK, hrun, hfifo]

/-- A packet performed leaves the FIFO, its number is noted, and only books are kept beside it (R94, R489). -/
theorem Panel.Arrived.booked_pop : ∃ sq, (p.updCore lc fun c => { c with fifo := rest, seqIn := sq }).Booked (p.pop lc) := by
  obtain ⟨hfifo, -, -, -⟩ := h
  refine ⟨(match k.seq with
    | some n => if forwardedSrc ≤ k.src then (p.core lc).seqIn else SMap.set (p.core lc).seqIn k.src (max (n + 1) (SMap.getD (p.core lc).seqIn k.src 0))
    | none => (p.core lc).seqIn), ?_⟩
  rw [Panel.pop, Panel.updCore, Panel.updCore, hfifo]
  exact Panel.booked_stir ..

theorem Panel.Arrived.fifo_pop : ((p.pop lc).core lc).fifo = rest := by
  obtain ⟨sq, hb⟩ := h.booked_pop
  rw [hb.field Core.fifo (fun _ _ _ _ => rfl), Panel.core_updCore_self]

/-- What a core's FIFO and its notes of numbers do not hold stands. -/
theorem Panel.Arrived.core_pop {α : Type} (f : Core → α) (hf : ∀ c e w i, f (c.booked e w i) = f c) (hq : ∀ c a b, f { c with fifo := a, seqIn := b } = f c)
    (lc' : Nat) : f ((p.pop lc).core lc') = f (p.core lc') := by
  obtain ⟨sq, hb⟩ := h.booked_pop
  rw [hb.field f hf]
  by_cases hlc : lc = lc'
  · subst hlc
    rw [Panel.core_updCore_self, hq]
  · rw [Panel.core_updCore_other _ _ _ _ hlc]

theorem Panel.Arrived.ctx_pop (lc' slot : Nat) : (p.pop lc).ctx lc' slot = p.ctx lc' slot :=
  h.core_pop (fun c => SMap.getD c.ctxs slot {}) (fun _ _ _ _ => rfl) (fun _ _ _ => rfl) lc'

end

/-- What a FIFO does not hold stands when its head leaves. -/
theorem Panel.Arrived.pop_keeps {α : Type} {p : Panel} {lc : Nat} {k : Packet} {rest : List Packet} (h : p.Arrived lc k rest) (f : Panel → α)
    (hf : ∀ q ag cs, f { q with agenda := ag, cores := cs } = f q) : f (p.pop lc) = f p := by
  obtain ⟨sq, hb⟩ := h.booked_pop
  rw [hb.rest]
  exact (hf _ _ _).trans (hf p p.agenda _)

/-! ### Work at the banks of a core -/

/-- From one panel to another no packet moved, no route changed, and no access changed. -/
structure Panel.AtBanks (p q : Panel) : Prop where
  now : q.now = p.now
  fabric : q.fabric = p.fabric
  parts : q.parts = p.parts
  accs : q.accs = p.accs
  fifo : ∀ lc, (q.core lc).fifo = (p.core lc).fifo
  route : ∀ lc, (q.core lc).route = (p.core lc).route

namespace Panel.AtBanks

theorem refl (p : Panel) : p.AtBanks p := ⟨rfl, rfl, rfl, rfl, fun _ => rfl, fun _ => rfl⟩

theorem trans {p q r : Panel} (h : p.AtBanks q) (h' : q.AtBanks r) : p.AtBanks r :=
  ⟨h'.now.trans h.now, h'.fabric.trans h.fabric, h'.parts.trans h.parts, h'.accs.trans h.accs, fun lc => (h'.fifo lc).trans (h.fifo lc),
    fun lc => (h'.route lc).trans (h.route lc)⟩

theorem of_booked {p q : Panel} (h : p.Booked q) : p.AtBanks q :=
  ⟨h.now, (congrArg Panel.fabric h.rest :), h.parts, h.accs, h.field Core.fifo fun _ _ _ _ => rfl, h.field Core.route fun _ _ _ _ => rfl⟩

theorem setMem (p : Panel) (m : Memory) : p.AtBanks { p with mem := m } := ⟨rfl, rfl, rfl, rfl, fun _ => rfl, fun _ => rfl⟩

theorem updCore (p : Panel) (lc : Nat) (f : Core → Core) (hf : ∀ c, (f c).fifo = c.fifo) (hr : ∀ c, (f c).route = c.route) : p.AtBanks (p.updCore lc f) := by
  refine ⟨rfl, rfl, rfl, rfl, fun k => ?_, fun k => ?_⟩
  · by_cases hk : lc = k
    · subst hk
      rw [Panel.core_updCore_self, hf]
    · rw [Panel.core_updCore_other _ _ _ _ hk]
  · by_cases hk : lc = k
    · subst hk
      rw [Panel.core_updCore_self, hr]
    · rw [Panel.core_updCore_other _ _ _ _ hk]

theorem updCtx (p : Panel) (lc slot : Nat) (f : Ctx → Ctx) : p.AtBanks (p.updCtx lc slot f) := by
  unfold Panel.updCtx Panel.setCtx
  exact updCore p lc _ (fun _ => rfl) fun _ => rfl

theorem write (p : Panel) (m : Memory) (lc : Nat) (f : Core → Core) (hf : ∀ c, (f c).fifo = c.fifo) (hr : ∀ c, (f c).route = c.route) :
    p.AtBanks (({ p with mem := m } : Panel).updCore lc f) :=
  (setMem p m).trans (updCore _ lc f hf hr)

theorem lmWrite (p : Panel) (lc off n v : Nat) : p.AtBanks (p.lmWrite lc off n v) := by
  unfold Panel.lmWrite
  split
  · exact refl p
  · exact write p _ lc _ (fun _ => rfl) fun _ => rfl

theorem writeItems (p : Panel) (lc : Nat) (its : List Item) (data : Nat) : p.AtBanks (p.writeItems lc its data) := by
  unfold Panel.writeItems
  induction its generalizing p with
  | nil => exact refl p
  | cons i its ih =>
    rw [List.foldl_cons]
    split
    · exact ih p
    · refine trans ?_ (ih _)
      exact write p _ lc _ (fun _ => rfl) fun _ => rfl

theorem acc {p q : Panel} (h : p.AtBanks q) (id : Nat) : q.acc id = p.acc id := by rw [Panel.acc, h.accs, Panel.acc]

theorem unawaited {p q : Panel} (h : p.AtBanks q) {id : Nat} (hun : p.Unawaited id) : q.Unawaited id := by
  rwa [Panel.Unawaited, h.accs]

theorem trip {p q : Panel} (h : p.AtBanks q) (a b cls : Nat) : q.trip a b cls = p.trip a b cls := Panel.trip_congr a b cls h.fabric h.parts (h.route a)

end Panel.AtBanks

/-! ### The answer -/

/-- An access performed at another core: its answer stands on the agenda, 14 cycles and two a hop from now (R481). -/
theorem Panel.ackBy_sends {p : Panel} {id : Nat} {a : Access} (h : p.acc id = some a) (hun : p.Unawaited id) (e : Instr) :
    (p.ackBy id e).acc id = some { a with stage := .performed } ∧ (p.ackBy id e).mem = p.mem ∧ (∀ lc, ((p.ackBy id e).core lc).fifo = (p.core lc).fifo) ∧
      (p.now + (14 + 2 * p.trip a.target a.core 1), e, [id]) ∈ (p.ackBy id e).agenda := by
  have hhops : p.backHops id = p.trip a.target a.core 1 := by rw [Panel.backHops, h]
  rw [Panel.ackBy, Panel.performed_unawaited h hun, hhops]
  generalize hw : ({ p with accs := SMap.set p.accs id { a with stage := .performed } } : Panel) = w
  have hb : w.Booked (w.billAnswer id (p.trip a.target a.core 1)) := w.booked_billAnswer ..
  have hl := hb.trans (Panel.booked_later _ (14 + 2 * p.trip a.target a.core 1) e [id])
  refine ⟨?_, ?_, fun lc => ?_, ?_⟩
  · rw [hl.acc, ← hw]
    exact SMap.find_set_self ..
  · rw [hl.mem, ← hw]
  · rw [hl.field Core.fifo (fun _ _ _ _ => rfl), ← hw]
    rfl
  · have hnow : (w.billAnswer id (p.trip a.target a.core 1)).now = p.now := by rw [hb.now, ← hw]
    rw [← hnow]
    exact List.mem_append_right _ (List.mem_singleton_self _)

/-- What an access performed where it arrived leaves: its packet gone, the access performed, and its answer on the way (R94, R481). -/
def Answering (p : Panel) (lc id : Nat) (a : Access) (rest : List Packet) (ev : Instr) (got : Nat) (q : Panel) : Prop :=
  (q.core lc).fifo = rest ∧ q.acc id = some { a with got := got, stage := .performed } ∧
    (p.now + (14 + 2 * p.trip a.target a.core 1), ev, [id]) ∈ q.agenda

/-- The answer of an access that has been performed with what it has read. -/
theorem Panel.ackBy_answering {p w : Panel} {lc id : Nat} {a : Access} {rest : List Packet} {got : Nat} (ev : Instr)
    (hacc : w.acc id = some { a with got := got }) (hun : w.Unawaited id) (hnow : w.now = p.now) (hfifo : (w.core lc).fifo = rest)
    (htrip : w.trip a.target a.core 1 = p.trip a.target a.core 1) :
    Answering p lc id a rest ev got (w.ackBy id ev) ∧ (w.ackBy id ev).mem = w.mem := by
  obtain ⟨hdone, hmem, hstay, hsent⟩ := Panel.ackBy_sends hacc hun ev
  rw [hnow, htrip] at hsent
  exact ⟨⟨(hstay lc).trans hfifo, hdone, hsent⟩, hmem⟩

section
variable {p w : Panel} {lc id : Nat} {k : Packet} {rest : List Packet} {a : Access} (h : p.Arrived lc k rest) (hacc : p.acc id = some a)
  (hun : p.Unawaited id) (hw : (p.pop lc).AtBanks w)
include h hw

theorem Panel.Arrived.accs_atBanks : w.accs = p.accs := hw.accs.trans (h.pop_keeps Panel.accs fun _ _ _ => rfl)

theorem Panel.Arrived.now_atBanks : w.now = p.now := hw.now.trans (h.pop_keeps Panel.now fun _ _ _ => rfl)

theorem Panel.Arrived.fifo_atBanks : (w.core lc).fifo = rest := (hw.fifo lc).trans h.fifo_pop

theorem Panel.Arrived.trip_atBanks (x y cls : Nat) : w.trip x y cls = p.trip x y cls :=
  (hw.trip ..).trans (Panel.trip_congr _ _ _ (h.pop_keeps Panel.fabric fun _ _ _ => rfl) (h.pop_keeps Panel.parts fun _ _ _ => rfl)
    (h.core_pop Core.route (fun _ _ _ _ => rfl) (fun _ _ _ => rfl) _))

include hacc hun

/-- An access performed at the banks where its packet arrived. -/
theorem Panel.Arrived.answering (ev : Instr) : Answering p lc id a rest ev a.got (w.ackBy id ev) ∧ (w.ackBy id ev).mem = w.mem := by
  have haccs := h.accs_atBanks hw
  exact Panel.ackBy_answering ev (by rw [Panel.acc, haccs]; exact hacc) (by rwa [Panel.Unawaited, haccs]) (h.now_atBanks hw) (h.fifo_atBanks hw)
    (h.trip_atBanks hw ..)

/-- An access performed at the banks where its packet arrived, with what it has read. -/
theorem Panel.Arrived.answering_got (got : Nat) (ev : Instr) :
    Answering p lc id a rest ev got ((w.updAcc id fun a => { a with got := got }).ackBy id ev) ∧
      ((w.updAcc id fun a => { a with got := got }).ackBy id ev).mem = w.mem := by
  have haccs := h.accs_atBanks hw
  have haccw : w.acc id = some a := by rw [Panel.acc, haccs]; exact hacc
  have hafter : id ∉ a.after := hun _ (SMap.mem_of_find hacc)
  have hnow := h.now_atBanks hw
  have hfifo := h.fifo_atBanks hw
  have htrip := h.trip_atBanks hw a.target a.core 1
  rw [Panel.updAcc_eq haccw]
  exact Panel.ackBy_answering (w := { w with accs := SMap.set w.accs id { a with got := got } }) ev (SMap.find_set_self ..)
    (Panel.unawaited_set (by rwa [Panel.Unawaited, haccs]) id hafter) hnow hfifo htrip

end

end Sys2Proof.Machine
end

section
/-! Accesses, atomics and barrier operations performed where they arrive (R94, R199-R201, R304, R310). -/

namespace Sys2Proof.Machine

/-! ### Loads, stores and atomics -/

theorem readItems_one (m : Memory) (lc off n : Nat) (sx : Bool) (hn : 0 < n) (hn8 : n ≤ 8) :
    readItems m lc [⟨8 * n, 8 * off, 0, 64, sx⟩] =
      if sx then cut 64 (sgn (8 * n) (Memory.readN m (lmA lc off) n)) else Memory.readN m (lmA lc off) n := by
  have hbits : Memory.readBits m (8 * lmA lc 0 + 8 * off) (8 * n) = Memory.readN m (lmA lc off) n := by
    have h := lmA_bits lc off 0
    rw [Nat.add_zero, Nat.add_zero] at h
    rw [h, Memory.readBits_bytes]
  have hlt : Memory.readN m (lmA lc off) n < 2 ^ 64 := by
    refine Nat.lt_of_lt_of_le (Memory.readN_lt m _ n) ?_
    rw [pow_256]
    exact Nat.pow_le_pow_right (by decide) (by omega)
  rw [readItems, List.foldl_cons, List.foldl_nil, if_neg (show ¬ 8 * n = 0 by omega)]
  dsimp only
  rw [hbits, putBits_zero _ _ (by decide)]
  cases sx with
  | true => rw [if_pos rfl, if_pos rfl, Nat.mod_eq_of_lt (cut_lt 64 _)]
  | false => rw [if_neg nofun, if_neg nofun, Nat.mod_mod, Nat.mod_eq_of_lt hlt]

theorem Panel.writeItems_bytes (p : Panel) (lc off n data : Nat) (sx : Bool) (hn : 0 < n) :
    (p.writeItems lc [⟨8 * n, 8 * off, 0, 64, sx⟩] data).mem = Memory.writeBits p.mem (8 * lmA lc off) (8 * n) (data % 2 ^ (8 * n)) :=
  p.writeItems_one_mem lc off 0 (8 * n) data sx (by omega)

/-- An atomic at the banks: what it reads, what it leaves of memory, and no packet or access moved (R304, R305). -/
theorem Panel.amoLocal_atBanks (p : Panel) (lc off op : Nat) (wide : Bool) (rnd x c : Nat) :
    (p.amoLocal lc off op wide rnd x c).1 = p.lmRead lc off (if wide then 8 else 4) ∧ p.AtBanks (p.amoLocal lc off op wide rnd x c).2 ∧
      (p.amoLocal lc off op wide rnd x c).2.mem =
        match amoNew op wide rnd (p.lmRead lc off (if wide then 8 else 4)) x c with
        | some v => Memory.writeN p.mem (lmA lc off) (if wide then 8 else 4) v
        | none => p.mem := by
  rw [Panel.amoLocal]
  cases h : amoNew op wide rnd (p.lmRead lc off (if wide then 8 else 4)) x c with
  | none => exact ⟨rfl, .refl p, rfl⟩
  | some v =>
    refine ⟨rfl, .lmWrite .., ?_⟩
    cases wide <;> rfl

/-! ### Barrier objects -/

theorem objArr_lt (o : Nat) : objArr o < 2 ^ 16 := Nat.mod_lt _ (by decide)
theorem objExp_lt (o : Nat) : objExp o < 2 ^ 16 := Nat.mod_lt _ (by decide)
theorem objPhase_lt (o : Nat) : objPhase o < 2 := Nat.mod_lt _ (by decide)

section
variable (tag : Nat) (pend : Int) (stag : Bool) (phase arr ex : Nat) (hphase : phase < 2) (harr : arr < 2 ^ 16) (hex : ex < 2 ^ 16)

theorem b2n_le (b : Bool) : b2n b ≤ 1 := by cases b <;> decide

include hex in
theorem objExp_mkObj : objExp (mkObj tag pend stag phase arr ex) = ex := by
  rw [objExp, bf_eq, mkObj]
  omega

include harr hex in
theorem objArr_mkObj : objArr (mkObj tag pend stag phase arr ex) = arr := by
  rw [objArr, bf_eq, mkObj]
  omega

include hphase harr hex in
theorem mkObj_lt (htag : tag < 2 ^ 32) : mkObj tag pend stag phase arr ex < 256 ^ 16 := by
  have hpend := cut_lt 32 pend
  have hstag := b2n_le stag
  rw [mkObj]
  omega

end

/-- With no wait at a core, an object changed there releases none (R201). -/
theorem Panel.barRelease_none (p : Panel) (lc off : Nat) (hwaits : (p.core lc).waits = []) :
    p.barRelease lc off = p.updCore lc fun c => { c with waits := [] } := by
  simp [Panel.barRelease, hwaits, Panel.updCore]

/-- An object written whose phase is not complete, at a core with no wait (R201). -/
theorem Panel.objWrite_open (p : Panel) (lc off o : Nat) (test : Bool) (hopen : objArr o ≠ objExp o) (hwaits : (p.core lc).waits = []) :
    p.AtBanks (p.objWrite lc off o test) ∧ (p.objWrite lc off o test).mem = Memory.writeN p.mem (lmA lc off) 16 o := by
  have hw : ((p.lmWrite lc off 16 o).core lc).waits = [] := by
    rw [Panel.lmWrite, if_neg (by decide), Panel.core_updCore_self]
    exact hwaits
  have hno : ¬ (test = true ∧ objArr o = objExp o ∧ objPend o = 0) := fun h => hopen h.2.1
  rw [Panel.objWrite, if_neg hno, Panel.barRelease_none _ _ _ hw]
  constructor
  · refine (Panel.AtBanks.lmWrite p lc off 16 o).trans ?_
    exact Panel.AtBanks.updCore _ lc _ (fun _ => rfl) fun _ => rfl
  · rw [Panel.updCore_mem, Panel.lmWrite, if_neg (by decide), Panel.updCore_mem]

section
variable (p : Panel) (lc off core slot : Nat) (val : W) (sx : Bool) (hok : objOk (p.obj lc off) (p.ctx core slot).btag = true)
include hok

section
variable (hopen : objArr (p.obj lc off) + 1 < objExp (p.obj lc off)) (hwaits : (p.core lc).waits = [])
include hopen hwaits

/-- BARARR of all but the last arrival (R200, R310). -/
theorem Panel.barDo_arrive : ∃ r, p.barDo 1 lc off val sx core slot = (.done 0, r) ∧ p.AtBanks r ∧
    r.mem = Memory.writeN p.mem (lmA lc off) 16 (mkObj (p.ctx core slot).btag (objPend (p.obj lc off)) (objStag (p.obj lc off)) (objPhase (p.obj lc off))
      (objArr (p.obj lc off) + 1) (objExp (p.obj lc off))) := by
  have hexp := objExp_lt (p.obj lc off)
  generalize hq : (p.updCtx core slot fun c => { c with arr := some (arrOf (p.block (p.ctx core slot).btag) lc off (objPhase (p.obj lc off))) }) = q
  have hbanks : p.AtBanks q := by rw [← hq]; exact .updCtx ..
  have hqw : (q.core lc).waits = [] := by rw [← hq, Panel.core_updCtx]; exact hwaits
  have hqo : q.obj lc off = p.obj lc off := by rw [← hq]; rfl
  have hqm : q.mem = p.mem := by rw [← hq]; rfl
  have hnot : ¬ (objExp (p.obj lc off) < objArr (p.obj lc off) + 1) := by omega
  obtain ⟨hb, hmem⟩ := q.objWrite_open lc off (mkObj (p.ctx core slot).btag (objPend (p.obj lc off)) (objStag (p.obj lc off)) (objPhase (p.obj lc off))
    (objArr (p.obj lc off) + 1) (objExp (p.obj lc off))) true (by rw [objArr_mkObj _ _ _ _ _ _ (by omega) hexp, objExp_mkObj _ _ _ _ _ _ hexp]; omega) hqw
  refine ⟨_, ?_, hbanks.trans hb, by rw [hmem, hqm]⟩
  simp [Panel.barDo, hq, Panel.arrive, hqo, hok, hnot]

/-- BAREXP within the range of PEND, while arrivals are missing (R199, R200). -/
theorem Panel.barDo_expect (hlo : -(2 ^ 31 : Int) ≤ objPend (p.obj lc off) + val.toInt) (hhi : objPend (p.obj lc off) + val.toInt < (2 ^ 31 : Int)) :
    ∃ r, p.barDo 3 lc off val sx core slot = (.done 0, r) ∧ p.AtBanks r ∧
      r.mem = Memory.writeN p.mem (lmA lc off) 16 (mkObj (p.ctx core slot).btag (objPend (p.obj lc off) + val.toInt) (objStag (p.obj lc off))
        (objPhase (p.obj lc off)) (objArr (p.obj lc off)) (objExp (p.obj lc off))) := by
  have hexp := objExp_lt (p.obj lc off)
  obtain ⟨hb, hmem⟩ := p.objWrite_open lc off (mkObj (p.ctx core slot).btag (objPend (p.obj lc off) + val.toInt) (objStag (p.obj lc off))
    (objPhase (p.obj lc off)) (objArr (p.obj lc off)) (objExp (p.obj lc off))) true
    (by rw [objArr_mkObj _ _ _ _ _ _ (by omega) hexp, objExp_mkObj _ _ _ _ _ _ hexp]; omega) hwaits
  refine ⟨_, ?_, hb, hmem⟩
  simp only [Panel.barDo, hok, Bool.not_true, Bool.false_eq_true, hlo.not_gt, hhi.not_ge, or_self, if_false]

end

/-- BARTEST of a thread that has not arrived (R310). -/
theorem Panel.barDo_test (harr : (p.ctx core slot).arr = none) : p.barDo 4 lc off val sx core slot = (.done (w64 (bf (p.obj lc off) 33 0)), p) := by
  simp [Panel.barDo, hok, harr, recNames, barDone, b2n]

end

/-! ### The events -/

theorem Panel.Arrived.acc_pop {p : Panel} {lc : Nat} {k : Packet} {rest : List Packet} (h : p.Arrived lc k rest) (id : Nat) : (p.pop lc).acc id = p.acc id :=
  h.pop_keeps (fun q => q.acc id) fun _ _ _ => rfl

section
variable {s : State} {lc id src : Nat} {seq : Option Nat} {rest : List Packet} {a : Access} (hev : s.panel.ev = [lc]) (hacc : s.panel.acc id = some a)
include hev hacc

theorem exec_remoteAccessArrival_arrived (h : s.panel.Arrived lc ⟨.access id, src, seq⟩ rest) :
    exec .remoteAccessArrival s = s.to ((s.panel.pop lc).performMesh lc a) := by
  have harg : s.panel.arg 0 = lc := by rw [Panel.arg, hev]; rfl
  have hstale := h.2.2.2
  show execRemoteAccessArrival s = _
  simp only [execRemoteAccessArrival, onPanel, harg, show s.panel.incoming .remoteAccessArrival = s.panel from h.incoming hev, h.headK, h.acc_pop, hacc, hstale]
  rfl

theorem exec_remoteAtomicArrival_arrived (h : s.panel.Arrived lc ⟨.amo id, src, seq⟩ rest) :
    exec .remoteAtomicArrival s = s.to ((((((s.panel.pop lc).bankCharge lc a.btag 1).amoLocal lc (itemOff a) a.op a.wide a.rnd
      (if a.op = 2 then a.data1 else a.data) a.data).2.updAcc id fun b => { b with got :=
        (((s.panel.pop lc).bankCharge lc a.btag 1).amoLocal lc (itemOff a) a.op a.wide a.rnd (if a.op = 2 then a.data1 else a.data) a.data).1 })).ackBy id
          .remoteLoadResponse) := by
  have harg : s.panel.arg 0 = lc := by rw [Panel.arg, hev]; rfl
  have hstale := h.2.2.2
  show execRemoteAtomicArrival s = _
  simp only [execRemoteAtomicArrival, onPanel, harg, show s.panel.incoming .remoteAtomicArrival = s.panel from h.incoming hev, h.headK, h.acc_pop, hacc, hstale]
  rfl

theorem exec_barrierOpArrival_done {op off core slot tag dest : Nat} {val v : W} {arr : Option ArrRec} {r : Panel}
    (h : s.panel.Arrived lc ⟨.bar op off val core slot tag dest arr id, src, seq⟩ rest) (hmine : s.panel.mine a = true) (hop : op ≠ 2)
    (hdo : ((s.panel.pop lc).bankCharge lc tag 1).barDo op lc off val a.wide core slot = (.done v, r)) :
    exec .barrierOpArrival s = s.to ((r.updAcc id fun a => { a with got := v.toNat }).ackBy id
      (match barClass op with | .none => .remoteLoadResponse | .loads => .remoteLoadResponse | .stores => .storeAcknowledgement)) := by
  have harg : s.panel.arg 0 = lc := by rw [Panel.arg, hev]; rfl
  have hstale := h.2.2.2
  have hminep : (s.panel.pop lc).mine a = true := (Panel.mine_congr (by rw [h.ctx_pop]) (by rw [h.ctx_pop])).trans hmine
  show execBarrierOpArrival s = _
  simp only [execBarrierOpArrival, onPanel, harg, show s.panel.incoming .barrierOpArrival = s.panel from h.incoming hev, h.headK, h.acc_pop, hacc, hstale, hminep,
    hdo, hop]
  rfl

end

/-! ### The obligation -/

/-- An arrival event that performs an access and sends its answer (R94, R481). -/
def ArrivalDone (s : State) (lc id : Nat) (a : Access) (rest : List Packet) (i ev : Instr) (ok : State → Access → Prop) : Prop :=
  ∃ t y, exec i s = .next t ∧ (t.panel.core lc).fifo = rest ∧ t.panel.acc id = some y ∧ y.stage = .performed ∧
    (s.panel.now + (14 + 2 * s.panel.trip a.target a.core 1), ev, [id]) ∈ t.panel.agenda ∧ ok t y

theorem arrivalDone_of {s : State} {lc id : Nat} {a : Access} {rest : List Packet} {i ev : Instr} {ok : State → Access → Prop} {q : Panel} {got : Nat}
    (hex : exec i s = s.to q) (hans : Answering s.panel lc id a rest ev got q)
    (hok : ok { s with panel := q } { a with got := got, stage := .performed }) : ArrivalDone s lc id a rest i ev ok := by
  obtain ⟨hfifo, hacc, hsent⟩ := hans
  exact ⟨_, _, hex, hfifo, hacc, rfl, hsent, hok⟩

section
variable {s : State} {lc src : Nat} {seq : Option Nat} {rest : List Packet} {a : Access} {id off n : Nat} (hev : s.panel.ev = [lc])
  (hacc : s.panel.acc id = some a) (hun : s.panel.Unawaited id)
include hev hacc hun

section
variable (hid : a.id = id) (h : s.panel.Arrived lc ⟨.access id, src, seq⟩ rest) (hitems : a.items = [⟨8 * n, 8 * off, 0, 64, a.sx⟩]) (hn : 0 < n)
include hid h hitems hn

/-- A store of `n` bytes performed where it arrived (R94). -/
theorem storeArrival_writes (hk : a.kind = .store) : ArrivalDone s lc id a rest .remoteAccessArrival .storeAcknowledgement fun t _ =>
    Memory.readN t.panel.mem (lmA lc off) n = a.data % 2 ^ (8 * n) ∧ SameBytesBut (lmA lc off) n s t := by
  have hex := exec_remoteAccessArrival_arrived hev hacc h
  generalize hw : (s.panel.pop lc).bankCharge lc a.btag (bankCycles a) = w at hex
  have hcharge : (s.panel.pop lc).AtBanks w := by rw [← hw]; exact .of_booked (Panel.booked_bankCharge ..)
  have hmemw : w.mem = s.panel.mem := by rw [← hw]; exact (Panel.booked_bankCharge ..).mem.trans (Panel.pop_mem ..)
  have hperform : (s.panel.pop lc).performMesh lc a = (w.writeItems lc a.items a.data).ackBy id .storeAcknowledgement := by
    rw [Panel.performMesh, hk, hw, hid]
  rw [hperform] at hex
  obtain ⟨hans, hmem⟩ := h.answering hacc hun (hcharge.trans (.writeItems w lc a.items a.data)) .storeAcknowledgement
  rw [hitems, Panel.writeItems_bytes _ _ _ _ _ _ hn, hmemw, ← hitems] at hmem
  refine arrivalDone_of hex hans ⟨?_, fun x hx => ?_⟩
  · rw [hmem, Memory.readN_writeBits_bytes _ _ _ _ hn, Nat.mod_mod]
  · rw [hmem]
    exact Memory.get_writeBits_other _ _ 0 _ _ _ (by decide) (by omega)

/-- A load of `n` bytes performed where it arrived (R94). -/
theorem loadArrival_reads (hn8 : n ≤ 8) (hk : a.kind = .load) : ArrivalDone s lc id a rest .remoteAccessArrival .remoteLoadResponse fun t y =>
    t.panel.mem = s.panel.mem ∧
      y.got = if a.sx then cut 64 (sgn (8 * n) (Memory.readN s.panel.mem (lmA lc off) n)) else Memory.readN s.panel.mem (lmA lc off) n := by
  have hex := exec_remoteAccessArrival_arrived hev hacc h
  generalize hw : (s.panel.pop lc).bankCharge lc a.btag (bankCycles a) = w at hex
  have hcharge : (s.panel.pop lc).AtBanks w := by rw [← hw]; exact .of_booked (Panel.booked_bankCharge ..)
  have hmemw : w.mem = s.panel.mem := by rw [← hw]; exact (Panel.booked_bankCharge ..).mem.trans (Panel.pop_mem ..)
  have haccw : w.acc id = some a := by rw [Panel.acc, h.accs_atBanks hcharge]; exact hacc
  have hsame : (w.updAcc id fun b => { b with got := readItems w.mem lc b.items }) = w.updAcc id fun b => { b with got := readItems s.panel.mem lc a.items } := by
    rw [Panel.updAcc_eq haccw, Panel.updAcc_eq haccw, hmemw]
  have hperform : (s.panel.pop lc).performMesh lc a =
      (w.updAcc id fun b => { b with got := readItems s.panel.mem lc a.items }).ackBy id .remoteLoadResponse := by
    rw [Panel.performMesh, hk, hw, hid, ← hsame]
  rw [hperform] at hex
  obtain ⟨hans, hmem⟩ := h.answering_got hacc hun hcharge (readItems s.panel.mem lc a.items) .remoteLoadResponse
  refine arrivalDone_of hex hans ⟨hmem.trans hmemw, ?_⟩
  show readItems s.panel.mem lc a.items = _
  rw [hitems, readItems_one _ _ _ _ _ hn hn8]

end

/-- An atomic performed where it arrived: it reads and writes in one access (R304, R305). -/
theorem atomicArrival_updates (h : s.panel.Arrived lc ⟨.amo id, src, seq⟩ rest) (hoff : itemOff a = off) (hn : n = if a.wide then 8 else 4) :
    ArrivalDone s lc id a rest .remoteAtomicArrival .remoteLoadResponse fun t y =>
      y.got = Memory.readN s.panel.mem (lmA lc off) n ∧ t.panel.mem =
        match amoNew a.op a.wide a.rnd (Memory.readN s.panel.mem (lmA lc off) n) (if a.op = 2 then a.data1 else a.data) a.data with
        | some v => Memory.writeN s.panel.mem (lmA lc off) n v
        | none => s.panel.mem := by
  have hex := exec_remoteAtomicArrival_arrived hev hacc h
  generalize hw : (s.panel.pop lc).bankCharge lc a.btag 1 = w at hex
  have hcharge : (s.panel.pop lc).AtBanks w := by rw [← hw]; exact .of_booked (Panel.booked_bankCharge ..)
  have hmemw : w.mem = s.panel.mem := by rw [← hw]; exact (Panel.booked_bankCharge ..).mem.trans (Panel.pop_mem ..)
  obtain ⟨hold, hbanks, hnew⟩ := w.amoLocal_atBanks lc off a.op a.wide a.rnd (if a.op = 2 then a.data1 else a.data) a.data
  rw [Panel.lmRead, ← hn, hmemw] at hold hnew
  rw [hoff, hold] at hex
  obtain ⟨hans, hmem⟩ := h.answering_got hacc hun (hcharge.trans hbanks) (Memory.readN s.panel.mem (lmA lc off) n) .remoteLoadResponse
  exact arrivalDone_of hex hans ⟨rfl, hmem.trans hnew⟩

/-- A barrier operation performed where it arrived, as its object's core performs it (R310). -/
theorem barArrival_done {op core slot tag dest : Nat} {val v : W} {arr : Option ArrRec} {m : Memory} (h : s.panel.Arrived lc ⟨.bar op off val core slot tag dest arr id, src, seq⟩ rest)
    (hmine : s.panel.mine a = true) (hop : op ≠ 2)
    (hdo : ∀ w : Panel, w.mem = s.panel.mem → w.ctx core slot = s.panel.ctx core slot → (w.core lc).waits = (s.panel.core lc).waits →
      ∃ r, w.barDo op lc off val a.wide core slot = (.done v, r) ∧ w.AtBanks r ∧ r.mem = m) :
    ArrivalDone s lc id a rest .barrierOpArrival
      (match barClass op with | .none => .remoteLoadResponse | .loads => .remoteLoadResponse | .stores => .storeAcknowledgement)
      fun t y => t.panel.mem = m ∧ y.got = v.toNat := by
  have hb := Panel.booked_bankCharge (s.panel.pop lc) lc tag 1
  obtain ⟨r, hr, hbanks, hm⟩ := hdo _ (hb.mem.trans (Panel.pop_mem ..)) ((hb.ctx ..).trans (h.ctx_pop ..))
    ((hb.field Core.waits (fun _ _ _ _ => rfl) lc).trans (h.core_pop Core.waits (fun _ _ _ _ => rfl) (fun _ _ _ => rfl) lc))
  obtain ⟨hans, hmem⟩ := h.answering_got hacc hun ((Panel.AtBanks.of_booked hb).trans hbanks) v.toNat
    (match barClass op with | .none => .remoteLoadResponse | .loads => .remoteLoadResponse | .stores => .storeAcknowledgement)
  exact arrivalDone_of (exec_barrierOpArrival_done hev hacc h hmine hop hr) hans ⟨hmem.trans hm, rfl⟩

end

/-- An object of 16 bytes that has been written. -/
theorem obj_of_write {s t : State} {lc off o : Nat} (hmem : t.panel.mem = Memory.writeN s.panel.mem (lmA lc off) 16 o) (ho : o < 256 ^ 16) :
    t.panel.obj lc off = o ∧ SameBytesBut (lmA lc off) 16 s t := by
  constructor
  · rw [Panel.obj, Panel.lmRead, hmem, Memory.readN_writeN, Nat.mod_eq_of_lt ho]
  · intro x hx
    rw [hmem]
    exact Memory.get_writeN_other _ _ _ _ _ hx

/-- Settles O30: each arrival is performed at the banks of the core that holds the bytes or the object, and its answer is put on the agenda. -/
theorem accessArrivals : Obligations.AccessArrivals := by
  unfold Obligations.AccessArrivals
  intro s lc id a rest src off n seq p done hev hacc hid hun
  have hdone : done = ArrivalDone s lc id a rest := rfl
  clear_value done
  subst hdone
  refine ⟨fun h hitems hn hn8 => ⟨fun hk => storeArrival_writes hev hacc hun hid h hitems hn hk,
    fun hk => loadArrival_reads hev hacc hun hid h hitems hn hn8 hk⟩, fun h hoff hn => ?amo, ?bar⟩
  case amo =>
    obtain ⟨t, y, hex, hfifo, hy, hst, hsent, hgot, hmem⟩ := atomicArrival_updates hev hacc hun h hoff hn
    refine ⟨t, y, hex, hfifo, hy, hst, hsent, hgot, fun x hx => ?_, fun v hv => ?_, fun hv => ?_⟩
    · rw [hmem]
      split
      · exact Memory.get_writeN_other _ _ _ _ _ hx
      · rfl
    · rw [hmem, hv, Memory.readN_writeN, pow_256]
    · rw [hmem, hv]
  case bar =>
    intro op val core slot tag dest arr h hmine hwaits o bt hbt hok hopen
    have harr := objArr_lt o
    have hexp := objExp_lt o
    refine ⟨?arrive, ?expect, ?test⟩
    case arrive =>
      rintro rfl
      obtain ⟨t, y, hex, hfifo, hy, hst, hsent, hmem, -⟩ := barArrival_done (v := 0) hev hacc hun h hmine (by decide) fun w hm hc hw => by
        have hobj : w.obj lc off = o := by rw [Panel.obj, Panel.lmRead, hm]; rfl
        have hgo := w.barDo_arrive lc off core slot val a.wide (by rw [hobj, hc]; exact hok) (by rw [hobj]; exact hopen) (hw.trans hwaits)
        rw [hm, hobj, hc] at hgo
        exact hgo
      exact ⟨t, y, hex, hfifo, hy, hst, hsent, obj_of_write hmem (mkObj_lt _ _ _ _ _ _ (objPhase_lt o) (by omega) hexp hbt)⟩
    case expect =>
      rintro rfl hlo hhi
      obtain ⟨t, y, hex, hfifo, hy, hst, hsent, hmem, -⟩ := barArrival_done (v := 0) hev hacc hun h hmine (by decide) fun w hm hc hw => by
        have hobj : w.obj lc off = o := by rw [Panel.obj, Panel.lmRead, hm]; rfl
        have hgo := w.barDo_expect lc off core slot val a.wide (by rw [hobj, hc]; exact hok) (by rw [hobj]; exact hopen) (hw.trans hwaits)
          (by rw [hobj]; exact hlo) (by rw [hobj]; exact hhi)
        rw [hm, hobj, hc] at hgo
        exact hgo
      exact ⟨t, y, hex, hfifo, hy, hst, hsent, obj_of_write hmem (mkObj_lt _ _ _ _ _ _ (objPhase_lt o) harr hexp hbt)⟩
    case test =>
      rintro rfl hnone
      obtain ⟨t, y, hex, hfifo, hy, hst, hsent, hmem, hgot⟩ := barArrival_done (v := w64 (bf o 33 0)) hev hacc hun h hmine (by decide) fun w hm hc hw => by
        have hobj : w.obj lc off = o := by rw [Panel.obj, Panel.lmRead, hm]; rfl
        have hgo := w.barDo_test lc off core slot val a.wide (by rw [hobj, hc]; exact hok) (by rw [hc]; exact hnone)
        rw [hobj] at hgo
        exact ⟨w, hgo, .refl w, hm⟩
      refine ⟨t, y, hex, hfifo, hy, hst, hsent, hmem, hgot.trans ?_⟩
      rw [w64, BitVec.toNat_ofNat, bf_eq]
      omega

end Sys2Proof.Machine
end

section
/-! The acquire actions on the L1s (R178, R179): lines go, and fills on their way are marked; nothing else changes. -/

namespace Sys2Proof.Machine

/-- From one panel to another L1 data lines went, and fills on their way may be allocated no more (R179). -/
structure Panel.Dropped (p q : Panel) : Prop where
  rest : q = { p with cores := q.cores, accs := q.accs }
  core : ∀ lc, ∃ l, q.core lc = { p.core lc with l1d := l }
  accs : ∃ g : Access → Access, q.accs = p.accs.map (fun e : Nat × Access => (e.1, g e.2)) ∧ ∀ a, ∃ n, g a = { a with fill := n }

namespace Panel.Dropped

theorem refl (p : Panel) : p.Dropped p :=
  ⟨rfl, fun _ => ⟨_, rfl⟩, id, by simp, fun a => ⟨a.fill, rfl⟩⟩

theorem trans {p q r : Panel} (hpq : p.Dropped q) (hqr : q.Dropped r) : p.Dropped r := by
  obtain ⟨f, hf, hfill⟩ := hpq.accs
  obtain ⟨g, hg, hgill⟩ := hqr.accs
  refine ⟨?_, fun lc => ?_, fun a => g (f a), ?_, fun a => ?_⟩
  · rw [hqr.rest, hpq.rest]
  · obtain ⟨l, hl⟩ := hpq.core lc
    obtain ⟨l', hl'⟩ := hqr.core lc
    exact ⟨l', by rw [hl', hl]⟩
  · rw [hg, hf, List.map_map]
    rfl
  · obtain ⟨n, hn⟩ := hfill a
    obtain ⟨n', hn'⟩ := hgill (f a)
    exact ⟨n', hn'.trans (by rw [hn])⟩

section
variable {p q : Panel} (h : p.Dropped q)
include h

theorem mem : q.mem = p.mem := (congrArg Panel.mem h.rest :)
theorem now : q.now = p.now := (congrArg Panel.now h.rest :)
theorem cur : q.cur = p.cur := (congrArg Panel.cur h.rest :)
theorem blocks : q.blocks = p.blocks := (congrArg Panel.blocks h.rest :)
theorem clusters : q.clusters = p.clusters := (congrArg Panel.clusters h.rest :)

/-- What a core's L1 data lines do not hold stands. -/
theorem field {α : Type} (f : Core → α) (hf : ∀ c l, f { c with l1d := l } = f c) (lc : Nat) : f (q.core lc) = f (p.core lc) := by
  obtain ⟨l, hl⟩ := h.core lc
  rw [hl, hf]

theorem ctx (lc slot : Nat) : q.ctx lc slot = p.ctx lc slot := h.field (fun c => SMap.getD c.ctxs slot {}) (fun _ _ => rfl) lc

theorem cc : q.cc = p.cc := by rw [Panel.cc, h.cur, h.ctx, Panel.cc]

/-- A group that no record holds is still held by none. -/
theorem groupParked {lc tag : Nat} (hfree : p.groupParked lc tag = false) : q.groupParked lc tag = false := by
  obtain ⟨g, hg, hfill⟩ := h.accs
  rw [Panel.groupParked, Bool.or_eq_false_iff, bne_eq_false_iff_eq] at hfree ⊢
  obtain ⟨hrec, hrep⟩ := hfree
  refine ⟨?_, by rwa [h.field Core.replays fun _ _ => rfl]⟩
  have hacc (id : Nat) : q.acc id = (p.acc id).map g := by rw [Panel.acc, hg, SMap.find_map, Panel.acc]
  rw [Panel.recordOf, List.filter_eq_nil_iff] at hrec ⊢
  intro b hb
  obtain ⟨id, hid, hidb⟩ := List.mem_filterMap.mp hb
  rw [h.field Core.parked fun _ _ => rfl] at hid
  rw [hacc, Option.map_eq_some_iff] at hidb
  obtain ⟨a, ha, rfl⟩ := hidb
  obtain ⟨n, hn⟩ := hfill a
  rw [hn]
  exact hrec a (List.mem_filterMap.mpr ⟨id, hid, ha⟩)

end
end Panel.Dropped

theorem Panel.dropped_dropL1 (p : Panel) (lc : Nat) : p.Dropped (dropL1 p lc) := by
  refine ⟨rfl, fun k => ?_, fun a => if a.fill == 1 && (a.core == lc || clusterOf a.core == clusterOf lc && (p.cluster (clusterOf lc)).fused) &&
    a.parts.any (·.done) then { a with fill := 3 } else a, ?_, fun a => ?_⟩
  · show ∃ l, (p.updCore lc fun c => { c with l1d := [] }).core k = _
    by_cases hk : lc = k
    · subst hk
      exact ⟨[], Panel.core_updCore_self ..⟩
    · exact ⟨_, Panel.core_updCore_other _ _ _ _ hk⟩
  · refine List.map_congr_left fun e _ => ?_
    dsimp only
    split
    · rfl
    · rfl
  · dsimp only
    split
    · exact ⟨3, rfl⟩
    · exact ⟨a.fill, rfl⟩

theorem Panel.dropped_dropFused (p : Panel) (cl : Nat) : p.Dropped (dropFused p cl) := by
  unfold dropFused
  generalize List.range 8 = ks
  induction ks generalizing p with
  | nil => exact .refl p
  | cons k ks ih => exact (p.dropped_dropL1 _).trans (ih _)

theorem Panel.dropped_dropData (p : Panel) (lc : Nat) : p.Dropped (p.dropData lc) := by
  unfold Panel.dropData
  split
  · exact p.dropped_dropFused _
  · exact p.dropped_dropL1 lc

/-- Where the cluster shares no L1, a core that drops its lines holds none. -/
theorem Panel.l1d_dropData (p : Panel) (lc : Nat) (h : (p.cluster (clusterOf lc)).fused = false) : ((p.dropData lc).core lc).l1d = [] := by
  rw [Panel.dropData, h, if_neg nofun]
  show ((p.updCore lc fun c => { c with l1d := [] }).core lc).l1d = []
  rw [Panel.core_updCore_self]

theorem Panel.dropped_inval (p : Panel) (lc scope : Nat) (b : Block) : p.Dropped (p.inval lc scope b) := by
  unfold Panel.inval
  split
  · exact p.dropped_dropData lc
  · exact .refl p

/-- The acquire action of a thread at its home core (R179). -/
theorem Panel.dropped_acquireAt (p : Panel) (lc slot scope : Nat) (h : awaySlot slot = false) : p.Dropped (p.acquireAt lc slot scope) := by
  simp only [Panel.acquireAt, h, Bool.false_and, Bool.false_eq_true, if_false]
  exact p.dropped_inval ..

/-- The acquire action of any thread: one away from home notes that its home core's lines must go (R178, R179). -/
theorem Panel.acquireAt_cases (p : Panel) (lc slot scope : Nat) : ∃ q, p.Dropped q ∧
    (p.acquireAt lc slot scope = q ∨ p.acquireAt lc slot scope = q.updCtx lc slot fun c => { c with stored := true }) := by
  unfold Panel.acquireAt
  dsimp only
  split
  · exact ⟨_, p.dropped_inval .., .inr rfl⟩
  · exact ⟨_, p.dropped_inval .., .inl rfl⟩

end Sys2Proof.Machine
end

section
/-! Threads that travel, and wake messages (R100-R102, R178, R310). -/

namespace Sys2Proof.Machine

/-! ### Packets sent -/

theorem Panel.atBanks_requestCkpt (p : Panel) (lc : Nat) : p.AtBanks (p.requestCkpt lc) := by
  unfold Panel.requestCkpt
  split
  · exact .refl p
  · refine Panel.AtBanks.trans ?_ (.of_booked (Panel.booked_later ..))
    exact .updCore p lc _ (fun _ => rfl) fun _ => rfl

theorem Panel.atBanks_injectAt (p : Panel) (to_ h : Nat) (k : Packet) : p.AtBanks (p.injectAt to_ h k) := by
  unfold Panel.injectAt
  refine Panel.AtBanks.trans ?_ (.of_booked (Panel.booked_later ..))
  exact .updCore p to_ _ (fun _ => rfl) fun _ => rfl

theorem Panel.atBanks_inject (p : Panel) (to_ : Nat) (k : Packet) (tree : Bool) : p.AtBanks (p.inject to_ k tree) := by
  unfold Panel.inject
  split
  · exact p.atBanks_injectAt ..
  · exact (p.atBanks_injectAt ..).trans (.of_booked (Panel.booked_bill ..))

/-- What is injected is on its way to its core. -/
theorem Panel.net_inject (p : Panel) (to_ : Nat) (k : Packet) (tree : Bool) : ∃ d, (d, k) ∈ ((p.inject to_ k tree).core to_).net := by
  have hat (h : Nat) : ∃ d, (d, k) ∈ ((p.injectAt to_ h k).core to_).net := by
    refine ⟨p.now + (if payMsg k.pay then 12 + 2 * h + dataFlits p k.pay else 8 + 2 * h + dataFlits p k.pay), ?_⟩
    rw [Panel.injectAt, (Panel.booked_later ..).field Core.net (fun _ _ _ _ => rfl), Panel.core_updCore_self]
    exact List.mem_append_right _ (List.mem_singleton_self _)
  unfold Panel.inject
  split
  · exact hat _
  · obtain ⟨d, hd⟩ := hat (p.trip k.src to_ (if payMsg k.pay then 2 else 0))
    exact ⟨d, by rwa [(Panel.booked_bill ..).field Core.net fun _ _ _ _ => rfl]⟩

/-- A packet sent leaves every FIFO, and is on its way (R94). -/
theorem Panel.send_travels (p : Panel) (from_ to_ : Nat) (x : Pay) :
    p.AtBanks (p.send from_ to_ x) ∧ ∃ k ∈ ((p.send from_ to_ x).core to_).net, k.2.pay = x := by
  unfold Panel.send Panel.sendOn
  split
  · dsimp only
    generalize hlog : p.updCore from_ _ = p1
    have hlogged : p.AtBanks p1 := by
      rw [← hlog]
      exact .updCore p from_ _ (fun _ => rfl) fun _ => rfl
    generalize hfull : (if 768 ≤ logFlits p1 from_ then _ else p1) = p2
    have hkept : p.AtBanks p2 := by
      rw [← hfull]
      split
      · split
        · exact hlogged.trans (Panel.atBanks_requestCkpt ..)
        · exact hlogged
      · exact hlogged
    obtain ⟨d, hd⟩ := p2.net_inject to_ ⟨x, from_, some (SMap.getD (p.core from_).seqOut to_ 1)⟩ false
    exact ⟨hkept.trans (Panel.atBanks_inject ..), _, hd, rfl⟩
  · obtain ⟨d, hd⟩ := p.net_inject to_ ⟨x, from_, none⟩ false
    exact ⟨p.atBanks_inject .., _, hd, rfl⟩

/-! ### Groups that no record holds -/

theorem Panel.groupParked_congr {p q : Panel} {lc tag : Nat} (haccs : q.accs = p.accs) (hparked : (q.core lc).parked = (p.core lc).parked)
    (hreplays : (q.core lc).replays = (p.core lc).replays) : q.groupParked lc tag = p.groupParked lc tag := by
  have hacc : q.acc = p.acc := funext fun id => by rw [Panel.acc, haccs, Panel.acc]
  rw [Panel.groupParked, Panel.recordOf, hacc, hparked, hreplays, Panel.groupParked, Panel.recordOf]

theorem Panel.Arrived.groupParked_pop {p : Panel} {lc : Nat} {k : Packet} {rest : List Packet} (h : p.Arrived lc k rest) (hc tag : Nat) :
    (p.pop lc).groupParked hc tag = p.groupParked hc tag :=
  Panel.groupParked_congr (h.pop_keeps Panel.accs fun _ _ _ => rfl) (h.core_pop Core.parked (fun _ _ _ _ => rfl) (fun _ _ _ => rfl) hc)
    (h.core_pop Core.replays (fun _ _ _ _ => rfl) (fun _ _ _ => rfl) hc)

/-! ### A context that lands -/

/-- A context as it stands in the slot where it lands while its group is not parked (R101, R103). -/
def Ctx.landed (c : Ctx) (now : Nat) : Ctx :=
  { c with st := if now < c.gapUntil then .gap else .ready, stall := .none, wake := .none, since := now }

theorem Panel.booked_land {p : Panel} {lc slot : Nat} {c : Ctx} (h : p.groupParked (if awaySlot slot then c.homeCore else lc) c.btag = false) :
    (p.setCtx lc slot (c.landed p.now)).Booked (p.land lc slot c) := by
  have heq : p.land lc slot c = (p.setCtx lc slot (c.landed p.now)).rouse lc := by
    rw [Panel.land]
    simp only [h, Bool.false_eq_true, if_false]
    rfl
  rw [heq]
  exact Panel.booked_rouse ..

theorem Ctx.landed_ready {c : Ctx} {now : Nat} (h : c.gapUntil ≤ now) : (c.landed now).st = .ready := if_neg (Nat.not_lt.mpr h)

section
variable {p : Panel} {lc slot : Nat} {c : Ctx} (h : p.groupParked (if awaySlot slot then c.homeCore else lc) c.btag = false)
include h

theorem Panel.ctx_land : (p.land lc slot c).ctx lc slot = c.landed p.now := by
  rw [(Panel.booked_land h).ctx, Panel.ctx_setCtx_self]

theorem Panel.land_mem : (p.land lc slot c).mem = p.mem := (Panel.booked_land h).mem

/-- What a core's contexts and books do not hold stands where one lands. -/
theorem Panel.core_land {α : Type} (f : Core → α) (hf : ∀ c e w i, f (c.booked e w i) = f c) (hx : ∀ c xs, f { c with ctxs := xs } = f c) (k : Nat) :
    f ((p.land lc slot c).core k) = f (p.core k) := by
  rw [(Panel.booked_land h).field f hf]
  have hupd : p.setCtx lc slot (c.landed p.now) = p.updCtx lc slot fun _ => c.landed p.now := rfl
  rw [hupd, Panel.core_updCtx, hx]

end

/-! ### The events -/

section
variable {s : State} {lc src : Nat} {seq : Option Nat} {rest : List Packet} {c : Ctx} (hev : s.panel.ev = [lc])
include hev

theorem exec_migrationContextArrival_lands (hawaits : s.panel.awaits c = true) {kind w d from_ fs : Nat} {addr data : W} (h : s.panel.Arrived lc ⟨.mig c kind addr data w d from_ fs, src, seq⟩ rest) :
    exec .migrationContextArrival s = s.to (match freeArrival s.panel lc with
      | some slot => ((s.panel.pop lc).migAccess lc c kind addr data w d).2.land lc slot ((s.panel.pop lc).migAccess lc c kind addr data w d).1
      | none => ((s.panel.pop lc).migAccess lc c kind addr data w d).2.send lc from_ (.bounce ((s.panel.pop lc).migAccess lc c kind addr data w d).1 fs)) := by
  have harg : s.panel.arg 0 = lc := by rw [Panel.arg, hev]; rfl
  have hstale := h.2.2.2
  show execMigrationContextArrival s = _
  simp only [execMigrationContextArrival, onPanel, harg, show s.panel.incoming .migrationContextArrival = s.panel from h.incoming hev, h.headK, hstale, hawaits]
  rfl

theorem exec_migrationBounceArrival_home (hawaits : s.panel.awaits c = true) {slot : Nat} (h : s.panel.Arrived lc ⟨.bounce c slot, src, seq⟩ rest) (hslot : slot < 12) :
    exec .migrationBounceArrival s = s.to ((s.panel.pop lc).comeHome lc c) := by
  have harg : s.panel.arg 0 = lc := by rw [Panel.arg, hev]; rfl
  have hstale := h.2.2.2
  show execMigrationBounceArrival s = _
  simp only [execMigrationBounceArrival, onPanel, harg, show s.panel.incoming .migrationBounceArrival = s.panel from h.incoming hev, h.headK, hstale, hawaits, hslot]
  rfl

theorem exec_homeReturnArrival_home (hawaits : s.panel.awaits c = true) {kind w d fs : Nat} {addr data : W} (h : s.panel.Arrived lc ⟨.home c kind addr data w d fs, src, seq⟩ rest) :
    exec .homeReturnArrival s = s.to ((s.panel.pop lc).comeHome lc c) := by
  have harg : s.panel.arg 0 = lc := by rw [Panel.arg, hev]; rfl
  have hstale := h.2.2.2
  show execHomeReturnArrival s = _
  simp only [execHomeReturnArrival, onPanel, harg, show s.panel.incoming .homeReturnArrival = s.panel from h.incoming hev, h.headK, hstale, hawaits]
  rfl

theorem exec_wakeMessage_released {slot tc off f va : Nat} (h : s.panel.Arrived lc ⟨.wake slot, src, seq⟩ rest)
    (hwake : (s.panel.ctx lc slot).wake = .barrier tc off f va) (hst : (s.panel.ctx lc slot).st = .blocked) :
    exec .wakeMessage s = s.to ((s.panel.pop lc).barReturn lc slot (objStag ((s.panel.pop lc).obj tc off))) := by
  have harg : s.panel.arg 0 = lc := by rw [Panel.arg, hev]; rfl
  show execWakeMessage s = _
  simp only [execWakeMessage, onPanel, harg, show s.panel.incoming .wakeMessage = s.panel from h.incoming hev, h.headK, h.ctx_pop, hwake, hst]
  rfl

end

/-! ### The access that travels with a context (R100, R101) -/

theorem Panel.migAccess_none (p : Panel) (lc : Nat) (c : Ctx) (addr data : W) (w d : Nat) : p.migAccess lc c 0 addr data w d = (c, p) := by
  unfold Panel.migAccess
  dsimp only
  split
  · rfl
  · rfl
  · rfl

theorem Panel.migAccess_store {p : Panel} {c : Ctx} {addr : W} {k off : Nat} {m : Bool} (h : meshPlace p c addr.toNat 1 = .lm k off m) (lc : Nat) (data : W)
    (w d : Nat) : ∃ n, p.migAccess lc c 3 addr data w d = (c, (p.bankCharge lc c.btag n).writeItems lc [⟨w + 1, 8 * off + 0, 0, 64, false⟩] data.toNat) := by
  refine ⟨distinctUnits 8 [((8 * off + 0) / 8, ((8 * off + 0) % 8 + (w + 1) + 7) / 8)], ?_⟩
  have hbytes : ¬ 4 ≤ 3 := by decide
  simp only [Panel.migAccess, hbytes, if_false, h, true_or, if_true]
  rfl

/-- What a core's notes of dirty pages do not hold stands when items are written. -/
theorem Panel.core_writeItems {α : Type} (f : Core → α) (hf : ∀ c d, f { c with dirty := d } = f c) (p : Panel) (lc : Nat) (its : List Item) (data k : Nat) :
    f ((p.writeItems lc its data).core k) = f (p.core k) := by
  unfold Panel.writeItems
  refine Panel.foldl_keeps _ (fun q => f (q.core k)) (fun q i => ?_) its p
  split
  · rfl
  · by_cases hk : lc = k
    · subst hk
      rw [Panel.core_updCore_self, hf]
      rfl
    · rw [Panel.core_updCore_other _ _ _ _ hk]
      rfl

theorem Panel.groupParked_writeItems (p : Panel) (lc : Nat) (its : List Item) (data hc tag : Nat) :
    (p.writeItems lc its data).groupParked hc tag = p.groupParked hc tag :=
  Panel.groupParked_congr (Panel.AtBanks.writeItems p lc its data).accs (Panel.core_writeItems Core.parked (fun _ _ => rfl) p lc its data hc)
    (Panel.core_writeItems Core.replays (fun _ _ => rfl) p lc its data hc)

theorem Panel.Booked.groupParked {p q : Panel} (h : p.Booked q) (hc tag : Nat) : q.groupParked hc tag = p.groupParked hc tag :=
  Panel.groupParked_congr h.accs (h.field Core.parked (fun _ _ _ _ => rfl) hc) (h.field Core.replays (fun _ _ _ _ => rfl) hc)

theorem freeArrival_first {p : Panel} {lc : Nat} (h : (p.ctx lc 14).st = .empty) : freeArrival p lc = some 14 := by
  simp [freeArrival, h]

theorem freeArrival_none {p : Panel} {lc : Nat} (h14 : (p.ctx lc 14).st ≠ .empty) (h15 : (p.ctx lc 15).st ≠ .empty) : freeArrival p lc = none := by
  simp [freeArrival, h14, h15]

/-! ### Home again (R100, R178) -/

/-- A context as it comes home: the masks and shape registers stayed there (R100). -/
def Ctx.homed (c h : Ctx) : Ctx := { c with m := h.m, sh := h.sh, homeCore := 0, homeSlot := 0, stored := false, pend := [] }

/-- The panel that a thread comes home to: after stores while it was away, without the L1's lines (R178). -/
def Panel.homed (p : Panel) (lc : Nat) (c : Ctx) : Panel := if c.stored then p.dropData lc else p

theorem Panel.dropped_homed (p : Panel) (lc : Nat) (c : Ctx) : p.Dropped (p.homed lc c) := by
  unfold Panel.homed
  split
  · exact p.dropped_dropData lc
  · exact .refl p

theorem Panel.comeHome_lands {p : Panel} {lc : Nat} {c : Ctx} (hpend : c.pend = []) (hb : c.st ≠ .blocked) (hp : c.st ≠ .parked) :
    p.comeHome lc c = (p.homed lc c).land lc c.homeSlot (c.homed (p.ctx lc c.homeSlot)) := by
  simp only [Panel.comeHome, hpend, hb, hp, if_false]
  rfl

/-- A thread that comes home ready stands in its slot as it left (R100, R178). -/
theorem Panel.comeHome_ready {p : Panel} {lc : Nat} {c : Ctx} (hpend : c.pend = []) (hslot : c.homeSlot < 12) (hb : c.st ≠ .blocked) (hp : c.st ≠ .parked)
    (hfree : p.groupParked lc c.btag = false) :
    (p.comeHome lc c).ctx lc c.homeSlot = (c.homed (p.ctx lc c.homeSlot)).landed p.now ∧ (p.comeHome lc c).mem = p.mem ∧
      ((p.comeHome lc c).core lc).fifo = (p.core lc).fifo ∧
      (c.stored = true → (p.cluster (clusterOf lc)).fused = false → ((p.comeHome lc c).core lc).l1d = []) := by
  have hhere : awaySlot c.homeSlot = false := by
    simp only [awaySlot, Bool.or_eq_false_iff, beq_eq_false_iff_ne]
    omega
  have hdrop := p.dropped_homed lc c
  have hland : (p.homed lc c).groupParked (if awaySlot c.homeSlot then (c.homed (p.ctx lc c.homeSlot)).homeCore else lc)
      (c.homed (p.ctx lc c.homeSlot)).btag = false := by
    rw [hhere]
    exact hdrop.groupParked hfree
  rw [Panel.comeHome_lands hpend hb hp]
  refine ⟨?_, ?_, ?_, fun hst hfused => ?_⟩
  · rw [Panel.ctx_land hland, hdrop.now]
  · rw [Panel.land_mem hland, hdrop.mem]
  · rw [Panel.core_land hland Core.fifo (fun _ _ _ _ => rfl) (fun _ _ => rfl), hdrop.field Core.fifo fun _ _ => rfl]
  · rw [Panel.core_land hland Core.l1d (fun _ _ _ _ => rfl) (fun _ _ => rfl), Panel.homed, hst, if_pos rfl, p.l1d_dropData lc hfused]

/-! ### Woken from a barrier (R310) -/

theorem Panel.barReturn_prompt (p : Panel) (lc slot : Nat) :
    p.barReturn lc slot false = ((p.updCtx lc slot fun c => { c with arr := none }).acquireAt lc slot 3).ready lc slot := by
  simp [Panel.barReturn]

/-- What the return of a BARWAIT with no stagger leaves of its thread: ready, with its record cleared (R201, R310). -/
theorem Panel.barReturn_leaves (p : Panel) (lc slot : Nat) : ∃ away,
    (p.barReturn lc slot false).ctx lc slot = Ctx.freed { p.ctx lc slot with arr := none, stored := away } p.now ∧
    (p.barReturn lc slot false).mem = p.mem ∧ ((p.barReturn lc slot false).core lc).fifo = (p.core lc).fifo := by
  rw [Panel.barReturn_prompt, Panel.ctx_ready, Panel.ready_mem, (Panel.booked_ready ..).field Core.fifo (fun _ _ _ _ => rfl), Panel.core_updCtx]
  generalize hw : (p.updCtx lc slot fun c => { c with arr := none }) = w
  have hctx : w.ctx lc slot = { p.ctx lc slot with arr := none } := by rw [← hw, Panel.ctx_updCtx_self]
  have hfifo : (w.core lc).fifo = (p.core lc).fifo := by rw [← hw, Panel.core_updCtx]
  have hmem : w.mem = p.mem := by rw [← hw]; rfl
  have hnow : w.now = p.now := by rw [← hw]; rfl
  obtain ⟨q, hq, heq | heq⟩ := w.acquireAt_cases lc slot 3
  · rw [heq, hq.ctx, hq.mem, hq.now, hq.field Core.fifo (fun _ _ => rfl), hctx, hfifo, hmem, hnow]
    exact ⟨_, rfl, rfl, rfl⟩
  · rw [heq, Panel.ctx_updCtx_self, hq.ctx, Panel.core_updCtx, hq.field Core.fifo (fun _ _ => rfl), hctx, hfifo]
    exact ⟨true, congrArg _ (hq.now.trans hnow), hq.mem.trans hmem, rfl⟩

/-! ### The obligation -/

section
variable {s : State} {lc src : Nat} {seq : Option Nat} {rest : List Packet} {c : Ctx} (hev : s.panel.ev = [lc]) (hawaits : s.panel.awaits c = true)
  (hfree : s.panel.groupParked c.homeCore c.btag = false)
include hev hawaits hfree

section
variable {addr data : W} {w d from_ fs : Nat}

/-- A context without an access lands in the first arrival slot (R101). -/
theorem contextArrival_lands (h : s.panel.Arrived lc ⟨.mig c 0 addr data w d from_ fs, src, seq⟩ rest) (hslot : (s.panel.ctx lc 14).st = .empty) :
    ∃ q, exec .migrationContextArrival s = s.to q ∧ (q.core lc).fifo = rest ∧ q.ctx lc 14 = c.landed s.panel.now ∧ q.mem = s.panel.mem := by
  have hex := exec_migrationContextArrival_lands hev hawaits h
  rw [freeArrival_first hslot, Panel.migAccess_none] at hex
  have hland : (s.panel.pop lc).groupParked (if awaySlot 14 then c.homeCore else lc) c.btag = false := (h.groupParked_pop ..).trans hfree
  refine ⟨_, hex, ?_, ?_, ?_⟩
  · exact (Panel.core_land hland Core.fifo (fun _ _ _ _ => rfl) (fun _ _ => rfl) lc).trans h.fifo_pop
  · exact (Panel.ctx_land hland).trans (congrArg c.landed (h.pop_keeps Panel.now fun _ _ _ => rfl))
  · exact (Panel.land_mem hland).trans (Panel.pop_mem ..)

omit hfree in
/-- A context that finds no arrival slot free is sent back (R101). -/
theorem contextArrival_bounces (h : s.panel.Arrived lc ⟨.mig c 0 addr data w d from_ fs, src, seq⟩ rest) (h14 : (s.panel.ctx lc 14).st ≠ .empty)
    (h15 : (s.panel.ctx lc 15).st ≠ .empty) :
    ∃ q, exec .migrationContextArrival s = s.to q ∧ (q.core lc).fifo = rest ∧ ∃ k ∈ (q.core from_).net, k.2.pay = .bounce c fs := by
  have hex := exec_migrationContextArrival_lands hev hawaits h
  rw [freeArrival_none h14 h15, Panel.migAccess_none] at hex
  obtain ⟨hbanks, hnet⟩ := (s.panel.pop lc).send_travels lc from_ (.bounce c fs)
  exact ⟨_, hex, (hbanks.fifo lc).trans h.fifo_pop, hnet⟩

/-- The store that travels with a context is performed where it lands (R100, R101). -/
theorem contextArrival_stores {off k n : Nat} {m : Bool} (h : s.panel.Arrived lc ⟨.mig c 3 addr data w d from_ fs, src, seq⟩ rest)
    (hslot : (s.panel.ctx lc 14).st = .empty) (hplace : meshPlace s.panel c addr.toNat 1 = .lm k off m) (hw : w + 1 = 8 * n) :
    ∃ q, exec .migrationContextArrival s = s.to q ∧ q.ctx lc 14 = c.landed s.panel.now ∧
      q.mem = Memory.writeBits s.panel.mem (8 * lmA lc off) (8 * n) (data.toNat % 2 ^ (8 * n)) := by
  have hex := exec_migrationContextArrival_lands hev hawaits h
  have hthere : meshPlace (s.panel.pop lc) c addr.toNat 1 = .lm k off m := (h.pop_keeps (fun q => meshPlace q c addr.toNat 1) fun _ _ _ => rfl).trans hplace
  obtain ⟨j, hmig⟩ := Panel.migAccess_store hthere lc data w d
  have hb := Panel.booked_bankCharge (s.panel.pop lc) lc c.btag j
  have hland : (((s.panel.pop lc).bankCharge lc c.btag j).writeItems lc [⟨w + 1, 8 * off + 0, 0, 64, false⟩] data.toNat).groupParked
      (if awaySlot 14 then c.homeCore else lc) c.btag = false :=
    (Panel.groupParked_writeItems ..).trans ((hb.groupParked ..).trans ((h.groupParked_pop ..).trans hfree))
  rw [freeArrival_first hslot, hmig] at hex
  refine ⟨_, hex, ?_, ?_⟩
  · refine (Panel.ctx_land hland).trans (congrArg c.landed ?_)
    exact (Panel.AtBanks.writeItems _ lc _ _).now.trans (hb.now.trans (h.pop_keeps Panel.now fun _ _ _ => rfl))
  · refine (Panel.land_mem hland).trans ?_
    rw [Panel.writeItems_one_mem _ _ _ _ _ _ _ (by omega), hb.mem, Panel.pop_mem, hw]
    rfl

end
end

/-- Settles O32: a context lands, bounces or comes home as its slot allows, and a wake message ends the wait of its thread; what each leaves of the thread
is read from the context that lands. -/
theorem threadArrivals : Obligations.ThreadArrivals := by
  unfold Obligations.ThreadArrivals
  intro s lc src seq rest c p hev hawaits hhome hhere
  refine ⟨fun addr data w d from_ fs h => ⟨fun hslot hgap => ?lands, fun h14 h15 _ => ?bounces⟩, ?stores, ?home, ?wake⟩
  case lands =>
    obtain ⟨q, hex, hfifo, hctx, hmem⟩ := contextArrival_lands hev hawaits hhome h hslot
    refine ⟨_, hex, hfifo, ?_⟩
    rw [show ({ s with panel := q } : State).panel.ctx lc 14 = _ from hctx]
    exact ⟨Ctx.landed_ready hgap, rfl, rfl, rfl, hmem⟩
  case bounces =>
    obtain ⟨q, hex, hfifo, hnet⟩ := contextArrival_bounces hev hawaits h h14 h15
    exact ⟨_, hex, hfifo, hnet⟩
  case stores =>
    rintro addr data w d from_ fs off h hslot hw _ ⟨k, m, hplace⟩
    obtain ⟨n, hn⟩ : ∃ n, w + 1 = 8 * n := ⟨(w + 1) / 8, by omega⟩
    have hn8 : (w + 1) / 8 = n := by omega
    obtain ⟨q, hex, hctx, hmem⟩ := contextArrival_stores hev hawaits hhome h hslot hplace hn
    refine ⟨_, hex, ?_, fun x hx => ?_, (congrArg Ctx.g hctx :)⟩
    · rw [hn8, show ({ s with panel := q } : State).panel.mem = _ from hmem, Memory.readN_writeBits_bytes _ _ _ _ (by omega), Nat.mod_mod, hn]
    · rw [show ({ s with panel := q } : State).panel.mem = _ from hmem]
      exact Memory.get_writeBits_other _ _ 0 _ _ _ (by decide) (by omega)
  case home =>
    intro i k slot hi h hpend hslot hb hp hgap
    have hex : exec i s = s.to ((p.pop lc).comeHome lc c) := by
      obtain ⟨rfl, rfl, hlt⟩ | ⟨rfl, a, b, d, e, f, rfl⟩ := hi
      · exact exec_migrationBounceArrival_home hev hawaits h hlt
      · exact exec_homeReturnArrival_home hev hawaits h
    obtain ⟨hctx, hmem, hfifo, hl1⟩ := Panel.comeHome_ready hpend hslot hb hp ((h.groupParked_pop lc c.btag).trans hhere)
    refine ⟨_, hex, hfifo.trans h.fifo_pop, ?_⟩
    rw [show ({ s with panel := (p.pop lc).comeHome lc c } : State).panel.ctx lc c.homeSlot = _ from hctx, h.ctx_pop, h.pop_keeps Panel.now fun _ _ _ => rfl]
    exact ⟨Ctx.landed_ready (c := c.homed (p.ctx lc c.homeSlot)) hgap, rfl, rfl, rfl, rfl, hmem.trans (Panel.pop_mem ..), fun hst hfused =>
      hl1 hst ((h.pop_keeps (fun q => (q.cluster (clusterOf lc)).fused) fun _ _ _ => rfl).trans hfused)⟩
  case wake =>
    intro slot tc off f va h hwake hst hstag hgap
    have hex := exec_wakeMessage_released hev h hwake hst
    have hprompt : objStag ((p.pop lc).obj tc off) = false := by rwa [Panel.obj, Panel.lmRead, Panel.pop_mem]
    obtain ⟨away, hctx, hmem, hfifo⟩ := (p.pop lc).barReturn_leaves lc slot
    rw [hprompt] at hex
    refine ⟨_, hex, hfifo.trans h.fifo_pop, ?_⟩
    rw [show ({ s with panel := (p.pop lc).barReturn lc slot false } : State).panel.ctx lc slot = _ from hctx, h.ctx_pop]
    refine ⟨Ctx.free_of_free ⟨?_, ?_⟩, rfl, rfl, hmem.trans (Panel.pop_mem ..)⟩
    · rw [hst]
      exact nofun
    · rw [h.pop_keeps Panel.now fun _ _ _ => rfl]
      exact hgap

end Sys2Proof.Machine
end

section
/-! Placement and retirement of blocks (R82, R209, R210, R227). -/

namespace Sys2Proof.Machine

/-! ### Bytes cleared (R82) -/

theorem Memory.get_absent {m : Memory} {x : Nat} (h : ∀ e ∈ m, e.1 ≠ x) : Memory.get m x = 0 := by
  induction m with
  | nil => rfl
  | cons e t ih =>
    obtain ⟨k, b⟩ := e
    obtain ⟨hk, ht⟩ := List.forall_mem_cons.mp h
    rw [Memory.get, if_neg hk]
    split
    · rfl
    · exact ih ht

/-- A byte that no list entry holds stays so when runs are cleared. -/
theorem Memory.absent_clear {m : Memory} {x : Nat} (h : ∀ e ∈ m, e.1 ≠ x) (a n : Nat) : ∀ e ∈ Memory.clear m a n, e.1 ≠ x :=
  fun e he => h e (List.mem_of_mem_filter he)

/-- No list entry holds a byte of a run just cleared. -/
theorem Memory.absent_of_clear (m : Memory) {a n x : Nat} (hlo : a ≤ x) (hhi : x < a + n) : ∀ e ∈ Memory.clear m a n, e.1 ≠ x := by
  rintro e he rfl
  have hout := (List.mem_filter.mp he).2
  simp [hlo, hhi] at hout

/-! ### What placement keeps beside a block's cores -/

/-- The tables and threads that the resets before a placement, and the staging behind it, leave alone. -/
def Panel.roster (p : Panel) : Nat × SMap Block × SMap Launch × (Nat → Nat → Ctx) := (p.nextTag, p.blocks, p.launches, p.ctx)

theorem Panel.roster_eq {p q : Panel} (h : q.roster = p.roster) : q.nextTag = p.nextTag ∧ q.blocks = p.blocks ∧ q.launches = p.launches ∧ q.ctx = p.ctx := by
  simpa only [Panel.roster, Prod.mk.injEq] using h

theorem Panel.Dropped.roster {p q : Panel} (h : p.Dropped q) : q.roster = p.roster := by
  have hctx : q.ctx = p.ctx := funext fun lc => funext fun slot => h.ctx lc slot
  have hrest := h.rest
  rw [Panel.roster, Panel.roster, hctx, h.blocks, (congrArg Panel.nextTag hrest :), (congrArg Panel.launches hrest :)]

theorem Panel.roster_resetArrays (p : Panel) (cl : Nat) : (p.resetArrays cl).roster = p.roster := rfl

theorem Panel.roster_updCluster (p : Panel) (cl : Nat) (f : Cluster → Cluster) : (p.updCluster cl f).roster = p.roster := rfl

theorem Panel.roster_fuseOn (p : Panel) (cl : Nat) : (p.fuseOn cl).roster = p.roster := by
  unfold Panel.fuseOn
  split
  · rfl
  · rw [Panel.roster_updCluster, (p.dropped_dropFused cl).roster]

/-- A staging command moves neither a table nor a thread nor a byte. -/
theorem Panel.stageOn_keeps (p : Panel) (cl : Nat) (x : Stage) : (p.stageOn cl x).roster = p.roster ∧ (p.stageOn cl x).mem = p.mem := by
  unfold Panel.stageOn Panel.once
  split
  · exact ⟨rfl, rfl⟩
  · exact ⟨rfl, rfl⟩

theorem Panel.stageWindows_keeps (p : Panel) (id lmb : Nat) (cs : List Nat) :
    (p.stageWindows id lmb cs).roster = p.roster ∧ (p.stageWindows id lmb cs).mem = p.mem := by
  unfold Panel.stageWindows
  exact ⟨Panel.foldl_keeps _ Panel.roster (fun q w => Panel.foldl_keeps _ Panel.roster (fun r lc => (r.stageOn_keeps _ _).1) cs q) _ p,
    Panel.foldl_keeps _ Panel.mem (fun q w => Panel.foldl_keeps _ Panel.mem (fun r lc => (r.stageOn_keeps _ _).2) cs q) _ p⟩

/-! ### One core seeded (R209, R210) -/

theorem Panel.freeSlots_congr {p q : Panel} (h : q.ctx = p.ctx) (gone : List Nat) (lc : Nat) : q.freeSlots gone lc = p.freeSlots gone lc := by
  rw [Panel.freeSlots, h, Panel.freeSlots]

/-- A context seated in a slot, its register window cleared, and its block's record begun at the core (R209, R210). -/
def Panel.seated (p : Panel) (lc slot tag b regs : Nat) (c : Ctx) : Panel :=
  (({ p with mem := Memory.clear p.mem (rsA lc b) regs } : Panel).setCtx lc slot c).updCore lc fun k => { k with blk := SMap.set k.blk tag {} }

theorem Panel.ctx_seated (p : Panel) (lc slot tag b regs : Nat) (c : Ctx) : (p.seated lc slot tag b regs c).ctx lc slot = c := by
  refine (Panel.ctx_updCore _ lc lc slot _ ?_).trans (Panel.ctx_setCtx_self ..)
  exact fun _ => rfl

theorem Panel.ctx_clearWindow (p : Panel) (lc base size : Nat) : (p.clearWindow lc base size).ctx = p.ctx :=
  funext fun k => funext fun j => Panel.ctx_updCore _ lc k j _ fun _ => rfl

section
variable {p : Panel} {l : Launch} {lmb lc slot : Nat} (tag idx : Nat) (rs : Nat → Nat) (hq : l.quota = 1) (hslot : (p.freeSlots [] lc).head? = some slot)
include hq hslot

/-- A core seeded with one thread, in its first free slot. -/
theorem Panel.seedCore_one : p.seedCore l tag idx 0 0 lmb rs 0 lc =
    ((p.clearWindow lc lmb l.kib).seated lc slot tag (rs 0) l.regs (seedCtx l tag idx 0 0 0 0 (rs 0) p.now)).rouse lc := by
  have htake : ((p.clearWindow lc lmb l.kib).freeSlots [] lc).take 1 = [slot] := by
    obtain ⟨rest, hrest⟩ : ∃ rest, p.freeSlots [] lc = slot :: rest := List.head?_eq_some_iff.mp hslot
    rw [Panel.freeSlots_congr (p.ctx_clearWindow ..), hrest]
    rfl
  simp only [Panel.seedCore, hq, htake]
  simp [List.range_succ, Panel.seated]

theorem Panel.ctx_seedCore : (p.seedCore l tag idx 0 0 lmb rs 0 lc).ctx lc slot = seedCtx l tag idx 0 0 0 0 (rs 0) p.now := by
  rw [Panel.seedCore_one tag idx rs hq hslot, (Panel.booked_rouse ..).ctx, Panel.ctx_seated]

/-- Every byte of the window reads zero (R82). -/
theorem Panel.window_seedCore (x : Nat) (hlo : lmA lc (1024 * lmb) ≤ x) (hhi : x < lmA lc (1024 * lmb) + 1024 * l.kib) :
    Memory.get (p.seedCore l tag idx 0 0 lmb rs 0 lc).mem x = 0 := by
  rw [Panel.seedCore_one tag idx rs hq hslot, (Panel.booked_rouse ..).mem]
  rw [Nat.mul_comm 1024 lmb] at hlo hhi
  rw [Nat.mul_comm 1024 l.kib] at hhi
  exact Memory.get_absent (Memory.absent_clear (Memory.absent_of_clear p.mem hlo hhi) _ _)

theorem Panel.tables_seedCore : (p.seedCore l tag idx 0 0 lmb rs 0 lc).nextTag = p.nextTag ∧ (p.seedCore l tag idx 0 0 lmb rs 0 lc).blocks = p.blocks ∧
    (p.seedCore l tag idx 0 0 lmb rs 0 lc).launches = p.launches := by
  have hrest := (Panel.booked_rouse ((p.clearWindow lc lmb l.kib).seated lc slot tag (rs 0) l.regs (seedCtx l tag idx 0 0 0 0 (rs 0) p.now)) lc).rest
  rw [Panel.seedCore_one tag idx rs hq hslot]
  exact ⟨(congrArg Panel.nextTag hrest :), (congrArg Panel.blocks hrest :), (congrArg Panel.launches hrest :)⟩

end

/-! ### Placement (R82, R209, R210) -/

/-- A block of a launch as placement enters it in the table (R209). -/
def Launch.newBlock (l : Launch) (id idx ox oy lmb now : Nat) : Block :=
  { launch := id, part := l.part, idx := idx, ox := ox, oy := oy, w := l.w, h := l.h, q := l.quota, lmBase := lmb, lmSize := l.kib
    prio := l.prio, priv := l.priv, pinned := l.pinned, fused := l.fused, hoop := l.hoop, replayable := bt l.flags 3, light := l.regs == 0
    regs := l.regs, asid := l.asid, placedAt := now }

theorem blockCores_one (b : Block) (hw : b.w = 1) (hh : b.h = 1) : blockCores b = [coreXY b.ox b.oy] := by
  simp [blockCores, blockCore, hw, hh, List.range_succ]

/-- A panel whose clusters are made ready for a block (R115, R364, R398). -/
def Panel.readied (p : Panel) (l : Launch) (b : Block) : Panel :=
  let q := if l.hoop then (blockClusters b).foldl (fun q cl => q.resetArrays cl) p else p
  if l.fused then (blockClusters b).foldl (fun q cl => q.fuseOn cl) q else q

theorem Panel.roster_readied (p : Panel) (l : Launch) (b : Block) : (p.readied l b).roster = p.roster := by
  have hreset (q : Panel) : ((blockClusters b).foldl (fun q cl => q.resetArrays cl) q).roster = q.roster :=
    Panel.foldl_keeps _ Panel.roster (fun q cl => q.roster_resetArrays cl) _ q
  have hfuse (q : Panel) : ((blockClusters b).foldl (fun q cl => q.fuseOn cl) q).roster = q.roster :=
    Panel.foldl_keeps _ Panel.roster (fun q cl => q.roster_fuseOn cl) _ q
  unfold Panel.readied
  dsimp only
  split
  · rw [hfuse]
    split
    · exact hreset p
    · rfl
  · split
    · exact hreset p
    · rfl

/-- A launch with one more block placed (R209, R432). -/
def Launch.onePlaced (l : Launch) (idx : Nat) : Launch :=
  let r := { l with nextBlock := l.nextBlock + 1, slots := l.slots.filter fun (e : Nat × Nat × Nat × Nat) => e.2.1 != idx }
  { r with st := if r.allPlaced then .placed else r.st }

/-- A panel with a new block of a launch in its table (R209). -/
def Panel.entered (p : Panel) (b : Block) : Panel := { p with nextTag := p.nextTag + 1, blocks := SMap.set p.blocks p.nextTag b }

/-- A placement: after the resets of its clusters the block's cores are seeded, and its copies are staged (R209, R435). -/
theorem Panel.placeBlock_eq (p : Panel) (id idx lo hi ox oy lmb rsb : Nat) (bases : List Nat) :
    p.placeBlock id (idx, lo, hi) ox oy lmb rsb bases =
      ((((List.range (blockCores ((p.launch id).newBlock id idx ox oy lmb p.now)).length).zip (blockCores ((p.launch id).newBlock id idx ox oy lmb p.now))).foldl
        (fun q e => q.seedCore (p.launch id) p.nextTag idx lo hi lmb (rsPlace (p.launch id).need rsb bases) e.1 e.2)
        ((p.entered ((p.launch id).newBlock id idx ox oy lmb p.now)).readied (p.launch id) ((p.launch id).newBlock id idx ox oy lmb p.now))).stageWindows id lmb
          (blockCores ((p.launch id).newBlock id idx ox oy lmb p.now))).updLaunch id fun l => l.onePlaced idx := rfl

section
variable {p : Panel} {id idx ox oy lmb rsb slot : Nat} {l : Launch} (hl : p.launch id = l) (hw : l.w = 1) (hh : l.h = 1)
include hl hw hh

/-- The placement of a block of one core. -/
theorem Panel.placeBlock_one : p.placeBlock id (idx, 0, 0) ox oy lmb rsb [] =
    ((((p.entered (l.newBlock id idx ox oy lmb p.now)).readied l (l.newBlock id idx ox oy lmb p.now)).seedCore l p.nextTag idx 0 0 lmb (rsPlace l.need rsb [])
      0 (coreXY ox oy)).stageWindows id lmb [coreXY ox oy]).updLaunch id fun l => l.onePlaced idx := by
  subst hl
  rw [Panel.placeBlock_eq, blockCores_one _ hw hh]
  rfl

/-- What the placement of a block of one core and one thread leaves (R82, R209, R210). -/
theorem Panel.placeBlock_leaves (hq : l.quota = 1) (hfind : (SMap.find p.launches id).isSome = true) (hslot : (p.freeSlots [] (coreXY ox oy)).head? = some slot) :
    (p.placeBlock id (idx, 0, 0) ox oy lmb rsb []).nextTag = p.nextTag + 1 ∧
      SMap.find (p.placeBlock id (idx, 0, 0) ox oy lmb rsb []).blocks p.nextTag = some (l.newBlock id idx ox oy lmb p.now) ∧
      (∃ rs now, (p.placeBlock id (idx, 0, 0) ox oy lmb rsb []).ctx (coreXY ox oy) slot = seedCtx l p.nextTag idx 0 0 0 0 rs now) ∧
      (∀ x, lmA (coreXY ox oy) (1024 * lmb) ≤ x → x < lmA (coreXY ox oy) (1024 * lmb) + 1024 * l.kib →
        Memory.get (p.placeBlock id (idx, 0, 0) ox oy lmb rsb []).mem x = 0) ∧
      (p.placeBlock id (idx, 0, 0) ox oy lmb rsb []).launch id = l.onePlaced idx := by
  rw [Panel.placeBlock_one hl hw hh]
  generalize hr : (p.entered (l.newBlock id idx ox oy lmb p.now)).readied l (l.newBlock id idx ox oy lmb p.now) = r
  obtain ⟨hrtag, hrblocks, hrlaunches, hrctx⟩ := Panel.roster_eq ((congrArg Panel.roster hr.symm).trans (Panel.roster_readied ..))
  have hslotr : (r.freeSlots [] (coreXY ox oy)).head? = some slot := by
    rw [Panel.freeSlots_congr (p := p) hrctx]
    exact hslot
  obtain ⟨hctag, hcblocks, hclaunches⟩ := r.tables_seedCore p.nextTag idx (rsPlace l.need rsb []) hq hslotr (lmb := lmb)
  have hcctx := r.ctx_seedCore p.nextTag idx (rsPlace l.need rsb []) hq hslotr (lmb := lmb)
  have hcmem := r.window_seedCore p.nextTag idx (rsPlace l.need rsb []) hq hslotr (lmb := lmb)
  generalize r.seedCore l p.nextTag idx 0 0 lmb (rsPlace l.need rsb []) 0 (coreXY ox oy) = c at *
  obtain ⟨hroster, hmem⟩ := c.stageWindows_keeps id lmb [coreXY ox oy]
  generalize c.stageWindows id lmb [coreXY ox oy] = d at *
  obtain ⟨htag, hblocks, hlaunches, hctx⟩ := Panel.roster_eq hroster
  have hd : d.launches = p.launches := hlaunches.trans (hclaunches.trans hrlaunches)
  refine ⟨?_, ?_, ⟨rsPlace l.need rsb [] 0, r.now, ?_⟩, fun x hlo hhi => ?_, ?_⟩
  · rw [Panel.updLaunch_nextTag, htag, hctag, hrtag]
    rfl
  · rw [Panel.updLaunch_blocks, hblocks, hcblocks, hrblocks]
    exact SMap.find_set_self ..
  · rw [Panel.ctx, Panel.core, Panel.updLaunch_cores]
    exact (congrFun (congrFun hctx _) _).trans hcctx
  · rw [Panel.updLaunch_mem, hmem]
    exact hcmem x hlo hhi
  · rw [Panel.launch_updLaunch_self _ _ _ (by rw [hd]; exact hfind), Panel.launch, hd]
    exact congrArg (fun l : Launch => l.onePlaced idx) hl

end

/-- A thread as a launch starts it, with index, argument and stack (R209, R210). -/
def Ctx.StartedBy (c : Ctx) (l : Launch) (tag idx : Nat) : Prop :=
  c.st = .ready ∧ c.pc = BitVec.ofNat 64 l.entry ∧ c.btag = tag ∧ c.gr 1 = BitVec.ofNat 64 l.arg ∧ c.gr 2 = BitVec.ofNat 64 idx ∧ c.gr 3 = 0 ∧
    c.gr 14 = BitVec.ofNat 64 (if l.stack = 0 then 0 else l.kib * 1024)

/-- The seeds of the first thread of a block (R209, R210). -/
theorem startedBy_seedCtx (l : Launch) (tag idx rs now : Nat) : (seedCtx l tag idx 0 0 0 0 rs now).StartedBy l tag idx := by
  simp [Ctx.StartedBy, seedCtx, Ctx.gr, w64]

theorem exec_blockPlacement_placed {s : State} {pi id ox oy lmb rsb : Nat} {l : Launch} (hev : s.panel.ev = [pi, id, ox, oy, lmb, rsb]) (hl : s.panel.launch id = l)
    (hpart : l.part = pi) (hst : l.st = .placing) (hrange : l.range = none) (hpin : l.pinned = false) (hhalt : (s.panel.part pi).schedHalted = false)
    (hreadmit : (s.panel.part pi).readmit = []) (hroom : s.panel.room l.need [] ox oy lmb rsb [] = true) :
    exec .blockPlacement s = s.to (s.panel.placeBlock id (l.nextBlock, 0, 0) ox oy lmb rsb []) := by
  show execBlockPlacement s = _
  simp [execBlockPlacement, onPanel, Panel.arg, hev, hl, hrange, hhalt, hpart, hst, hreadmit, hpin, hroom, State.to]

/-! ### Retirement (R227, R432) -/

theorem Panel.unfuse_keeps (p : Panel) (tag : Nat) : (p.unfuse tag).roster = p.roster ∧ (p.unfuse tag).mem = p.mem := by
  have hroster (q : Panel) (cl : Nat) : ((dropFused q cl).updCluster cl fun c => { c with fused := false }).roster = q.roster := by
    rw [Panel.roster_updCluster, (q.dropped_dropFused cl).roster]
  have hmem (q : Panel) (cl : Nat) : ((dropFused q cl).updCluster cl fun c => { c with fused := false }).mem = q.mem := by
    rw [Panel.updCluster_mem, (q.dropped_dropFused cl).mem]
  exact ⟨Panel.foldl_keeps _ Panel.roster hroster _ p, Panel.foldl_keeps _ Panel.mem hmem _ p⟩

theorem Panel.retireLaunch_keeps (p : Panel) (id : Nat) : (p.retireLaunch id).blocks = p.blocks ∧ (p.retireLaunch id).mem = p.mem ∧
    ((p.retireLaunch id).launch id).preempt = (p.launch id).preempt := by
  unfold Panel.retireLaunch
  split
  · next h =>
    have hfind : (SMap.find p.launches id).isSome = true := by
      by_contra hnone
      rw [Option.not_isSome_iff_eq_none] at hnone
      have hst := h.1
      rw [Panel.launch, SMap.getD, hnone] at hst
      exact absurd hst (by decide)
    refine ⟨Panel.updLaunch_blocks .., Panel.updLaunch_mem .., ?_⟩
    exact (congrArg Launch.preempt (p.launch_updLaunch_self id (fun l => { l with st := .retired }) hfind) :)
  · exact ⟨rfl, rfl, rfl⟩

theorem Panel.preempted_not (p : Panel) (id : Nat) (h : (p.launch id).preempt = false) : p.preempted id = p := by
  simp [Panel.preempted, h]

/-- A block that has ended on all its cores, without its records there and its rings (R221, R227). -/
def Panel.vacated (p : Panel) (tag : Nat) : Panel :=
  (blockCores (p.block tag)).foldl (fun q lc => (q.updCore lc fun c => { c with blk := SMap.del c.blk tag }).ringsOff lc tag) p

theorem Panel.vacated_keeps {α : Type} (f : Panel → α) (hf : ∀ q lc c, f (Panel.setCore q lc c) = f q) (p : Panel) (tag : Nat) : f (p.vacated tag) = f p :=
  Panel.foldl_keeps _ f (fun _ _ => (hf _ _ _).trans (hf _ _ _)) _ p

/-- A panel whose block has retired (R227, R432). -/
def Panel.retired (p : Panel) (tag : Nat) : Panel :=
  ((((p.vacated tag).unfuse tag).updBlock tag fun b => { b with st := .retired }).retireLaunch (p.block tag).launch).preempted (p.block tag).launch

section
variable {s : State} {tag : Nat} (hev : s.panel.ev = [tag])
include hev

theorem exec_blockRetire_retires (hst : (s.panel.block tag).st = .resident)
    (hgone : ∀ c ∈ blockCores (s.panel.block tag), tagSlots s.panel c tag = [] ∧ (s.panel.core c).hq = [])
    (heng : s.panel.enginesBusy tag = false) (hdoms : s.panel.domsRun tag = false) :
    exec .blockRetire s = s.to (s.panel.retired tag) := by
  have harg : s.panel.arg 0 = tag := by rw [Panel.arg, hev]; rfl
  show execBlockRetire s = _
  simp only [execBlockRetire, onPanel, harg]
  rw [if_neg]
  · rfl
  · rintro (h | h | h | h | h)
    · exact h hst
    · obtain ⟨c, hc, hs⟩ := List.any_eq_true.mp h
      exact bne_iff_ne.mp hs (hgone c hc).1
    · obtain ⟨c, hc, hq⟩ := List.any_eq_true.mp h
      rw [(hgone c hc).2] at hq
      exact absurd hq nofun
    · exact absurd (heng.symm.trans h) nofun
    · exact absurd (hdoms.symm.trans h) nofun

theorem exec_blockRetire_thread (hthread : ∃ c ∈ blockCores (s.panel.block tag), tagSlots s.panel c tag ≠ []) : exec .blockRetire s = .next s := by
  have hslots : ((blockCores (s.panel.block tag)).any fun lc => tagSlots s.panel lc tag != []) = true := by
    obtain ⟨c, hc, hne⟩ := hthread
    exact List.any_eq_true.mpr ⟨c, hc, bne_iff_ne.mpr hne⟩
  have harg : s.panel.arg 0 = tag := by rw [Panel.arg, hev]; rfl
  show execBlockRetire s = _
  simp only [execBlockRetire, onPanel, harg, hslots, true_or, or_true, if_true]

end

/-- A block that retires stands as retired, and no byte changes (R227). -/
theorem Panel.retire_leaves (p : Panel) (tag : Nat) (hfind : (SMap.find p.blocks tag).isSome = true) (hpre : (p.launch (p.block tag).launch).preempt = false) :
    ((p.retired tag).block tag).st = .retired ∧ (p.retired tag).mem = p.mem := by
  unfold Panel.retired
  obtain ⟨hroster, hmem⟩ := (p.vacated tag).unfuse_keeps tag
  obtain ⟨-, hblocks, hlaunches, -⟩ := Panel.roster_eq hroster
  generalize (p.vacated tag).unfuse tag = u at *
  have hub : u.blocks = p.blocks := hblocks.trans (Panel.vacated_keeps Panel.blocks (fun _ _ _ => rfl) p tag)
  have hul : u.launches = p.launches := hlaunches.trans (Panel.vacated_keeps Panel.launches (fun _ _ _ => rfl) p tag)
  have hum : u.mem = p.mem := hmem.trans (Panel.vacated_keeps Panel.mem (fun _ _ _ => rfl) p tag)
  have hretired := u.block_updBlock_self tag (fun b => { b with st := .retired }) (by rw [hub]; exact hfind)
  have hvl : (u.updBlock tag fun b => { b with st := .retired }).launches = p.launches := (Panel.updBlock_launches ..).trans hul
  have hvm : (u.updBlock tag fun b => { b with st := .retired }).mem = p.mem := (Panel.updBlock_mem ..).trans hum
  generalize (u.updBlock tag fun b => { b with st := .retired }) = v at *
  obtain ⟨hb, hm, hp⟩ := v.retireLaunch_keeps (p.block tag).launch
  rw [Panel.preempted_not _ _ (by rw [hp, Panel.launch, hvl]; exact hpre)]
  refine ⟨?_, hm.trans hvm⟩
  rw [Panel.block, hb]
  exact congrArg Block.st hretired

/-- Settles O38: the block is entered, its cluster made ready, its core seeded and its copies staged, of which only the entry and the seeding touch what
the statement speaks of; and a block whose contexts and commands are gone loses its records, and retires. -/
theorem blockPlacement : Obligations.BlockPlacement := by
  unfold Obligations.BlockPlacement
  intro s pi id ox oy lmb rsb tag l slot p x lc b
  refine ⟨?placed, fun hev hst => ⟨?retires, exec_blockRetire_thread hev⟩⟩
  case placed =>
    intro hev hfind hpart hst hrange hpin hq hw hh hhalt hreadmit hroom hslot
    have hl : p.launch id = l := by rw [Panel.launch, SMap.getD, hfind]; rfl
    obtain ⟨htag, hblock, ⟨rs, now, hctx⟩, hmem, hlaunch⟩ := Panel.placeBlock_leaves (p := p) (id := id) (idx := l.nextBlock) (ox := ox) (oy := oy) (lmb := lmb)
      (rsb := rsb) (slot := slot) hl hw hh hq (by rw [hfind]; rfl) hslot
    have hex := exec_blockPlacement_placed hev hl hpart hst hrange hpin hhalt hreadmit hroom
    generalize s.panel.placeBlock id (l.nextBlock, 0, 0) ox oy lmb rsb [] = q at hex htag hblock hctx hmem hlaunch
    refine ⟨_, hex, htag, ⟨_, hblock, rfl, rfl, rfl, rfl, rfl, rfl, rfl, rfl, rfl⟩, ?_, fun i hi => hmem _ ?_ ?_, ?_⟩
    · have hstart := startedBy_seedCtx l p.nextTag l.nextBlock rs now
      rw [← hctx] at hstart
      exact hstart
    · unfold lmA
      omega
    · unfold lmA
      omega
    · exact congrArg Launch.nextBlock hlaunch
  case retires =>
    intro hgone heng hdoms hpre
    have hfind : (SMap.find p.blocks tag).isSome = true := by
      by_contra hnone
      rw [Option.not_isSome_iff_eq_none] at hnone
      have hb : b.st = noBlock.st := by
        show (SMap.getD p.blocks tag noBlock).st = _
        rw [SMap.getD, hnone]
        rfl
      exact absurd (hst.symm.trans hb) (by decide)
    have hex := exec_blockRetire_retires hev hst hgone heng hdoms
    obtain ⟨hret, hmem⟩ := p.retire_leaves tag hfind hpre
    generalize s.panel.retired tag = q at hex hret hmem
    exact ⟨_, hex, hret, hmem⟩

end Sys2Proof.Machine
end

section
/-! Full/empty words and atomics on the thread's own window (R89-R91, R192, R293-R295, R302-R306). -/

namespace Sys2Proof.Machine

/-! ### Where a word is (R293) -/

section
variable {p : Panel} {va : Nat} (hreg : regionOf va = .private_)
include hreg

theorem feCheck_misaligned (h : va % 8 ≠ 0) (n : Nat) : feCheck p va n = .bad 0x04 := by
  simp [feCheck, hreg, h]

theorem feCheck_aligned (h : va % 8 = 0) (n : Nat) : feCheck p va n = place p p.src va n := by
  simp [feCheck, hreg, h]

/-- The first byte of a range that lies in the thread's own window lies there, too. -/
theorem place_first {n lc off : Nat} (hn : 0 < n) (h : place p p.src va n = .lm lc off false) : ∃ k j, place p p.src va 1 = .lm k j false := by
  obtain ⟨-, hin⟩ := place_own h
  have hfit : va < (p.block p.src.btag).lmSize * 1024 := by omega
  exact ⟨p.homeOf p.src, (p.block p.src.btag).lmBase * 1024 + va, by simp [place, hreg, privPlace, hfit]⟩

theorem feRange_own {n lc off : Nat} (hal : va % 8 = 0) (hn : 0 < n) (h : place p p.src va n = .lm lc off false) : feRange p va n = .lm lc off false := by
  obtain ⟨k, j, h1⟩ := place_first hreg hn h
  rw [feRange, feCheck_aligned hreg hal, h1, feCheck_aligned hreg hal, h]

end

/-! ### LDSY and LDSY.TAKE (R90, R91) -/

theorem Panel.cc_enterWait (p : Panel) (lc : Nat) (e : WaitEnt) : (p.enterWait lc e).cc = p.cc := by
  have hentered (f : Core → Core) (hf : ∀ c, (f c).ctxs = c.ctxs) : (p.updCore lc f).cc = p.cc := p.cc_updCore lc f hf
  unfold Panel.enterWait
  dsimp only
  split
  · exact hentered _ fun _ => rfl
  · rw [Panel.cc_later]
    exact hentered _ fun _ => rfl

section
variable {p : Panel} {d a : Reg} {take : Bool} (hcalm : p.Calm) (hreg : regionOf (p.gv a).toNat = .private_)
include hcalm hreg

theorem Panel.ldsy_misaligned (h : (p.gv a).toNat % 8 ≠ 0) : p.ldsy d a take = p.trapW 0x04 := by
  obtain ⟨⟨haway, -⟩, hacq⟩ := hcalm
  rw [Panel.ldsy, Panel.atHome_home _ _ haway, Panel.memory_calm _ _ hacq]
  dsimp only
  rw [feCheck_misaligned hreg h]
  rfl

section
variable {lc off : Nat} (hal : (p.gv a).toNat % 8 = 0) (hplace : place p p.src (p.gv a).toNat 8 = .lm lc off false)
include hal hplace

/-- LDSY of a word of the thread's own window. -/
theorem Panel.ldsy_own : p.ldsy d a take =
    if p.relBusy = true ∨ p.meshOpen false lc off 8 = true then p.retry
    else if p.isFull lc (off / 8) = true then
      (if take then ((p.untrack.bankGap 1).putG d (BitVec.ofNat 64 (Memory.readN p.mem (lmA lc off) 8))).setEmpty lc (off / 8)
        else (p.untrack.bankGap 1).putG d (BitVec.ofNat 64 (Memory.readN p.mem (lmA lc off) 8))).fin
    else ((p.untrack.bankGap 1).fin.block_ (.ldsy (p.gv a).toNat d.toNat take)).enterWait lc
      { off := off / 8, core := lc, slot := p.cur.slot, bar := false, phase := 0, take := take, acc := 0, dest := d.toNat, entered := true, retryAt := 0 } := by
  obtain ⟨⟨haway, hhand⟩, hacq⟩ := hcalm
  rw [Panel.ldsy, Panel.atHome_home _ _ haway, Panel.memory_calm _ _ hacq]
  dsimp only
  rw [feCheck_aligned hreg hal, hplace]
  simp only [hhand, Bool.false_eq_true, if_false]
  rfl

/-- LDSY of a full word (R90). -/
theorem Panel.ldsy_full (hrel : p.relBusy = false) (hmesh : p.meshOpen false lc off 8 = false) (hfull : p.isFull lc (off / 8) = true) : p.ldsy d a take =
    (if take then ((p.untrack.bankGap 1).putG d (BitVec.ofNat 64 (Memory.readN p.mem (lmA lc off) 8))).setEmpty lc (off / 8)
      else (p.untrack.bankGap 1).putG d (BitVec.ofNat 64 (Memory.readN p.mem (lmA lc off) 8))).fin := by
  rw [Panel.ldsy_own hcalm hreg hal hplace, if_pos hfull, hrel, hmesh]
  rfl

/-- An LDSY of an empty word leaves its thread at that blocking point (R90, R224). -/
theorem Panel.ldsy_blocks (hrel : p.relBusy = false) (hmesh : p.meshOpen false lc off 8 = false) (hempty : p.isFull lc (off / 8) = false) (hst : p.cc.st ≠ .parked) :
    (p.ldsy d a take).cc.st = .blocked ∧ (p.ldsy d a take).cc.wake = .ldsy (p.gv a).toNat d.toNat take := by
  rw [Panel.ldsy_own hcalm hreg hal hplace, hrel, hmesh, hempty]
  simp only [Bool.false_eq_true, or_self, if_false]
  rw [Panel.cc_enterWait, Panel.block_, Panel.cc_updC]
  obtain ⟨-, -, x, hgap⟩ := p.untrack.bankGap_frame 1
  have hready : (p.untrack.bankGap 1).fin.cc.st ≠ .parked := by
    rw [Panel.cc_fin_eq, hgap, Panel.cc_untrack]
    exact hst
  exact ⟨if_neg hready, rfl⟩

end
end

/-! ### STFL and FECLR (R294, R295) -/

theorem Panel.isFull_updCore (p : Panel) (lc k : Nat) (f : Core → Core) (hf : ∀ c, (f c).fe = c.fe) (w : Nat) : (p.updCore lc f).isFull k w = p.isFull k w := by
  by_cases h : lc = k
  · subst h
    rw [Panel.isFull, Panel.core_updCore_self, hf, Panel.isFull]
  · rw [Panel.isFull, Panel.core_updCore_other _ _ _ _ h, Panel.isFull]

/-- A bundle's end and its bank cycles fill and empty no word. -/
theorem Panel.isFull_gap_fin (p : Panel) (n k w : Nat) : ((p.bankGap n).fin).isFull k w = p.isFull k w := by
  have hfin (q : Panel) : q.fin.isFull k w = q.isFull k w := by
    unfold Panel.fin
    split
    · rfl
    · rw [Panel.isFull, Panel.updC, Panel.core_updCtx, Panel.isFull]
  rw [hfin]
  have hcharge : (p.bankCharge p.cur.core p.cc.btag n).isFull k w = p.isFull k w := by
    rw [Panel.isFull, (p.booked_bankCharge ..).field Core.fe (fun _ _ _ _ => rfl), Panel.isFull]
  unfold Panel.bankGap
  dsimp only
  split
  · exact hcharge
  · rw [Panel.isFull, (Panel.booked_later ..).field Core.fe (fun _ _ _ _ => rfl), Panel.updC, Panel.core_updCtx]
    exact hcharge

/-- A word filled at a core where none waits (R91). -/
theorem Panel.fillWord_none (p : Panel) (lc word : Nat) (h : (p.core lc).waits = []) :
    (p.fillWord lc word).isFull lc word = true ∧ (p.fillWord lc word).mem = p.mem := by
  have hw : ((p.setFull lc word).core lc).waits = [] := by rw [Panel.setFull, Panel.core_updCore_self]; exact h
  have hfill : p.fillWord lc word = (p.setFull lc word).updCore lc fun c => { c with waits := c.waits.filter fun e => !([] : List WaitEnt).contains e } := by
    simp [Panel.fillWord, hw, Panel.serve, servedEnts]
  rw [hfill]
  refine ⟨(Panel.isFull_updCore _ lc lc _ ?_ word).trans (p.isFull_setFull lc word), rfl⟩
  exact fun _ => rfl

theorem Panel.isFull_setEmpty_eq (p : Panel) (lc v w : Nat) : (p.setEmpty lc v).isFull lc w = (p.isFull lc w && w != v) := by
  rw [Panel.isFull, Panel.setEmpty, Panel.core_updCore_self, Panel.isFull]
  rw [Bool.eq_iff_iff]
  simp [List.mem_filter]

/-- The words of a range are empty, and the others as they were (R295). -/
theorem Panel.isFull_emptied (p : Panel) (lc lo n w : Nat) :
    ((upto lo n).foldl (fun q v => q.setEmpty lc v) p).isFull lc w = (p.isFull lc w && !(decide (lo ≤ w) && decide (w < lo + n))) := by
  induction n with
  | zero =>
    have hnone : (decide (lo ≤ w) && decide (w < lo + 0)) = false := by simp
    rw [hnone]
    exact (Bool.and_true _).symm
  | succ n ih =>
    have hupto : upto lo (n + 1) = upto lo n ++ [n + lo] := by simp [upto, List.range_succ]
    rw [hupto, List.foldl_append, List.foldl_cons, List.foldl_nil, Panel.isFull_setEmpty_eq, ih, Bool.and_assoc]
    congr 1
    rw [Bool.eq_iff_iff]
    simp
    omega

section
variable {s : State} {a b : Reg} (hcalm : s.panel.Calm) (hreg : regionOf (s.panel.gv a).toNat = .private_)
include hcalm hreg

theorem exec_stfl_misaligned (h : (s.panel.gv a).toNat % 8 ≠ 0) : exec (.stfl a b) s = s.to (s.panel.trapW 0x04) := by
  obtain ⟨⟨haway, -⟩, hacq⟩ := hcalm
  show execStfl a b s = _
  rw [execStfl, onPanel, Panel.atHome_home _ _ haway, Panel.memory_calm _ _ hacq]
  dsimp only
  rw [feCheck_misaligned hreg h]
  rfl

/-- STFL to a word of the thread's own window, behind its earlier accesses (R186, R294). -/
theorem exec_stfl_own {lc off : Nat} (hal : (s.panel.gv a).toNat % 8 = 0) (hplace : place s.panel s.panel.src (s.panel.gv a).toNat 8 = .lm lc off false)
    (hquiet : s.panel.quiet = true) :
    exec (.stfl a b) s = s.to ((((s.panel.untrack.lmWrite lc off 8 (s.panel.gv b).toNat).fillWord lc (off / 8)).bankGap 1).fin) := by
  obtain ⟨⟨haway, -⟩, hacq⟩ := hcalm
  show execStfl a b s = _
  rw [execStfl, onPanel, Panel.atHome_home _ _ haway, Panel.memory_calm _ _ hacq]
  dsimp only
  rw [feCheck_aligned hreg hal, hplace]
  simp only [hquiet]
  rfl

/-- FECLR of words of the thread's own window (R295). -/
theorem exec_feclr_own {lc off : Nat} (hal : (s.panel.gv a).toNat % 8 = 0) (hn : 0 < (s.panel.gv b).toNat) (hn8 : (s.panel.gv b).toNat % 8 = 0)
    (hplace : place s.panel s.panel.src (s.panel.gv a).toNat (s.panel.gv b).toNat = .lm lc off false)
    (hmesh : s.panel.meshOpen true lc off (s.panel.gv b).toNat = false) :
    exec (.feclr a b) s = s.to (((s.panel.untrack.clearWords lc off (s.panel.gv b).toNat).bankGap ((s.panel.gv b).toNat / 8)).fin) := by
  obtain ⟨⟨haway, -⟩, hacq⟩ := hcalm
  show execFeclr a b s = _
  rw [execFeclr, onPanel, Panel.atHome_home _ _ haway, Panel.memory_calm _ _ hacq]
  dsimp only
  rw [if_neg hn.ne', feRange_own hreg hal hn hplace]
  simp only [hn8, hmesh]
  rfl

end

/-- STFL writes its word, fills it, and writes no other byte (R294). -/
theorem stfl_leaves (s : State) (lc off v : Nat) (hv : v < 2 ^ 64) (hwaits : (s.panel.core lc).waits = []) :
    let t := s.panel.untrack.lmWrite lc off 8 v
    let q := ((t.fillWord lc (off / 8)).bankGap 1).fin
    Memory.readN q.mem (lmA lc off) 8 = v ∧ q.isFull lc (off / 8) = true ∧ SameBytesBut (lmA lc off) 8 s { s with panel := q } := by
  intro t q
  have htw : (t.core lc).waits = [] := by
    show ((s.panel.untrack.lmWrite lc off 8 v).core lc).waits = []
    rw [Panel.lmWrite, if_neg (by decide), Panel.core_updCore_self]
    show (s.panel.untrack.core lc).waits = []
    rw [Panel.untrack, Panel.updC, Panel.core_updCtx]
    exact hwaits
  obtain ⟨hfull, hmem⟩ := t.fillWord_none lc (off / 8) htw
  have hq : q.mem = t.mem := by
    show ((t.fillWord lc (off / 8)).bankGap 1).fin.mem = _
    rw [(Panel.bankGap_fin _ 1).1, hmem]
  refine ⟨?_, ?_, fun x hx => ?_⟩
  · rw [hq]
    refine (s.panel.untrack.lmRead_lmWrite lc off 8 v).trans (Nat.mod_eq_of_lt ?_)
    exact hv
  · exact (Panel.isFull_gap_fin ..).trans hfull
  · show Memory.get q.mem x = _
    rw [hq]
    exact Panel.get_lmWrite_other _ _ _ _ _ _ hx

/-- FECLR empties the words of its range, and writes no byte (R295). -/
theorem feclr_leaves (p : Panel) (lc off n : Nat) :
    (((p.untrack.clearWords lc off n).bankGap (n / 8)).fin).mem = p.mem ∧
      ∀ w, (((p.untrack.clearWords lc off n).bankGap (n / 8)).fin).isFull lc w = (p.isFull lc w && !(decide (off / 8 ≤ w) && decide (w < off / 8 + n / 8))) := by
  constructor
  · have hword (q : Panel) (w : Nat) : (q.setEmpty lc w).mem = q.mem := rfl
    rw [(Panel.bankGap_fin _ _).1, Panel.clearWords, Panel.foldl_keeps _ Panel.mem hword, p.untrack_mem]
  · intro w
    have huntrack : p.untrack.isFull lc w = p.isFull lc w := by
      rw [Panel.isFull, Panel.untrack, Panel.updC, Panel.core_updCtx, Panel.isFull]
    rw [Panel.isFull_gap_fin, Panel.clearWords, Panel.isFull_emptied, huntrack]

/-! ### Atomics (R302-R306) -/

theorem sgn_eq_toInt (w n : Nat) (hw : 0 < w) : sgn w n = (BitVec.ofNat w n).toInt := by
  obtain ⟨m, rfl⟩ : ∃ m, w = m + 1 := ⟨w - 1, by omega⟩
  rw [sgn, BitVec.toInt, BitVec.toNat_ofNat, Nat.add_sub_cancel, Nat.pow_succ]
  split
  · rw [if_neg (by omega)]
    push_cast
    rfl
  · rw [if_pos (by omega)]
    push_cast
    rfl

theorem exec_amoWord_own {s : State} {i : Instr} {op : Nat} {d a b : Reg} {q r : BitVec 1} {sc : BitVec 3} {w : BitVec 1} {lc off : Nat} (hi : exec i s = amoWord op d a b q r sc w s)
    (hcalm : s.panel.Calm) (hquiet : r = 1 → s.panel.quiet = true) (hrel : q = 1 → s.panel.relBusy = false)
    (hmesh : s.panel.meshOpen true lc off (if w == 1 then 8 else 4) = false) (hhi : (s.panel.gv a).toNat / 2 ^ 55 = 0)
    (hal : (s.panel.gv a).toNat % (if w == 1 then 8 else 4) = 0)
    (hplace : place s.panel s.panel.src (s.panel.gv a).toNat (if w == 1 then 8 else 4) = .lm lc off false) :
    exec i s = s.to (
      let x := s.panel.untrack.amoLocal lc off op (w == 1) (bf s.panel.src.rmode.toNat 1 0) (s.panel.gv b).toNat (s.panel.gv d).toNat
      let y := (x.2.putG d (amoResult (w == 1) x.1)).bankGap 1
      (if q == 1 then y.acquireAt s.panel.cur.core s.panel.cur.slot sc.toNat else y).fin) := by
  obtain ⟨⟨haway, -⟩, hacq⟩ := hcalm
  have hbits : bf (s.panel.gv a).toNat 63 55 = 0 := by rw [bf_eq, hhi, Nat.zero_mod]
  have hgo : ¬ (((r == 1) = true ∧ ¬ s.panel.quiet = true) ∨ ((q == 1) = true ∧ s.panel.relBusy = true) ∨
      s.panel.meshOpen true lc off (if w == 1 then 8 else 4) = true) := by
    rintro (⟨hr, hq⟩ | ⟨hq, hb⟩ | hm)
    · exact hq (hquiet (beq_iff_eq.mp hr))
    · exact nomatch (hrel (beq_iff_eq.mp hq)).symm.trans hb
    · exact nomatch hmesh.symm.trans hm
  rw [hi, amoWord, onPanel, Panel.atomic, Panel.memory_calm _ _ hacq]
  simp only [haway, Bool.false_eq_true, false_and, if_false, hbits, ne_eq, not_true_eq_false, hal, hplace, hgo]
  rfl

theorem Panel.cc_lmWrite (p : Panel) (lc off n v : Nat) : (p.lmWrite lc off n v).cc = p.cc ∧ (p.lmWrite lc off n v).cur = p.cur := by
  unfold Panel.lmWrite
  split
  · exact ⟨rfl, rfl⟩
  · refine ⟨(Panel.cc_updCore _ lc _ ?_).trans rfl, rfl⟩
    exact fun _ => rfl

theorem Panel.cc_amoLocal (p : Panel) (lc off op : Nat) (wide : Bool) (rnd x c : Nat) :
    (p.amoLocal lc off op wide rnd x c).2.cc = p.cc ∧ (p.amoLocal lc off op wide rnd x c).2.cur = p.cur := by
  unfold Panel.amoLocal
  dsimp only
  split
  · exact p.cc_lmWrite ..
  · exact ⟨rfl, rfl⟩

/-- What an atomic on the thread's own window leaves: the location's new value, the old one in its register, and the pc behind (R304, R305). -/
theorem atomic_leaves {p : Panel} (haway : p.isAway = false) (d : Reg) (lc off op : Nat) (wide acq : Bool) (scope rnd x c : Nat) :
    let old := p.lmRead lc off (if wide then 8 else 4)
    let l := p.untrack.amoLocal lc off op wide rnd x c
    let y := (l.2.putG d (amoResult wide l.1)).bankGap 1
    let q := (if acq then y.acquireAt p.cur.core p.cur.slot scope else y).fin
    q.mem = (match amoNew op wide rnd old x c with
        | some v => Memory.writeN p.mem (lmA lc off) (if wide then 8 else 4) v
        | none => p.mem) ∧
      q.cc.g = (p.cc.setG d.toNat (amoResult wide old)).g ∧ q.cc.pc = p.fin.cc.pc := by
  intro old l y q
  obtain ⟨hold, -, hmem⟩ := p.untrack.amoLocal_atBanks lc off op wide rnd x c
  obtain ⟨hcc, hcur⟩ := p.untrack.cc_amoLocal lc off op wide rnd x c
  obtain ⟨hymem, hycur, u, hycc⟩ := (l.2.putG d (amoResult wide l.1)).bankGap_frame 1
  have hdrop : y.Dropped (if acq then y.acquireAt p.cur.core p.cur.slot scope else y) := by
    cases acq with
    | true => exact y.dropped_acquireAt _ _ _ haway
    | false => exact .refl y
  have hzcc : (if acq then y.acquireAt p.cur.core p.cur.slot scope else y).cc = { p.untrack.cc.setG d.toNat (amoResult wide old) with gapUntil := u } := by
    rw [hdrop.cc, hycc, Panel.cc_putG, hcc, hold]
    rfl
  have hzcur : (if acq then y.acquireAt p.cur.core p.cur.slot scope else y).cur = p.cur := hdrop.cur.trans (hycur.trans hcur)
  have hqcc := Panel.cc_fin_eq (if acq then y.acquireAt p.cur.core p.cur.slot scope else y)
  rw [hzcc, hzcur] at hqcc
  refine ⟨(Panel.fin_mem _).trans (hdrop.mem.trans (hymem.trans hmem)), (congrArg Ctx.g hqcc).trans (Ctx.setG_g_congr ?_ ..), (congrArg Ctx.pc hqcc).trans ?_⟩
  · rw [Panel.cc_untrack]
  · rw [Ctx.setG_pc, Panel.cc_untrack, Panel.cc_fin_eq]

/-- The bits that an atomic leaves at its location: what it stores there, or, where it stores nothing, those that stood there (R305). -/
def AmoLeaves (op : Nat) (wide : Bool) (rnd old x c n new : Nat) : Prop :=
  match amoNew op wide rnd old x c with
  | some v => v % 2 ^ n = new
  | none => old % 2 ^ n = new

/-! The table of R305, as operations on words of 64 or 32 bits. -/

section
variable {wide : Bool} {n : Nat} (hn : n = if wide then 64 else 32) (rnd old x c : Nat)
include hn

theorem amoLeaves_add : AmoLeaves 0x00 wide rnd old x c n (BitVec.ofNat n old + BitVec.ofNat n x).toNat := by
  simp only [AmoLeaves, amoNew, ← hn, BitVec.toNat_add, BitVec.toNat_ofNat, Nat.mod_mod]

theorem amoLeaves_swap : AmoLeaves 0x01 wide rnd old x c n (BitVec.ofNat n x).toNat := by
  simp only [AmoLeaves, amoNew, ← hn, BitVec.toNat_ofNat, Nat.mod_mod]

theorem amoLeaves_cas : AmoLeaves 0x02 wide rnd old x c n (if BitVec.ofNat n old = BitVec.ofNat n c then BitVec.ofNat n x else BitVec.ofNat n old).toNat := by
  simp only [AmoLeaves, amoNew, ← hn, ← BitVec.toNat_inj, BitVec.toNat_ofNat]
  by_cases h : old % 2 ^ n = c % 2 ^ n
  · rw [if_pos h, if_pos h]
    exact Nat.mod_mod ..
  · rw [if_neg h, if_neg h]
    rfl

theorem amoLeaves_and : AmoLeaves 0x03 wide rnd old x c n (BitVec.ofNat n old &&& BitVec.ofNat n x).toNat := by
  have hlt := (BitVec.ofNat n old &&& BitVec.ofNat n x).isLt
  simp only [BitVec.toNat_and, BitVec.toNat_ofNat] at hlt
  simp only [AmoLeaves, amoNew, ← hn, BitVec.toNat_and, BitVec.toNat_ofNat, Nat.mod_eq_of_lt hlt]

theorem amoLeaves_or : AmoLeaves 0x04 wide rnd old x c n (BitVec.ofNat n old ||| BitVec.ofNat n x).toNat := by
  have hlt := (BitVec.ofNat n old ||| BitVec.ofNat n x).isLt
  simp only [BitVec.toNat_or, BitVec.toNat_ofNat] at hlt
  simp only [AmoLeaves, amoNew, ← hn, BitVec.toNat_or, BitVec.toNat_ofNat, Nat.mod_eq_of_lt hlt]

theorem amoLeaves_xor : AmoLeaves 0x05 wide rnd old x c n (BitVec.ofNat n old ^^^ BitVec.ofNat n x).toNat := by
  have hlt := (BitVec.ofNat n old ^^^ BitVec.ofNat n x).isLt
  simp only [BitVec.toNat_xor, BitVec.toNat_ofNat] at hlt
  simp only [AmoLeaves, amoNew, ← hn, BitVec.toNat_xor, BitVec.toNat_ofNat, Nat.mod_eq_of_lt hlt]

theorem sgn_mod_eq_toInt (v : Nat) : sgn n (v % 2 ^ n) = (BitVec.ofNat n v).toInt := by
  have hpos : 0 < n := by rw [hn]; split <;> decide
  rw [sgn_eq_toInt n _ hpos, ← BitVec.toNat_ofNat, BitVec.ofNat_toNat, BitVec.setWidth_eq]

omit hn in
/-- One of two words, as the number that the location takes. -/
theorem toNat_select (P : Prop) [Decidable P] (u v : Nat) :
    (if P then u % 2 ^ n else v % 2 ^ n) % 2 ^ n = (if P then BitVec.ofNat n u else BitVec.ofNat n v).toNat := by
  split
  · exact Nat.mod_mod ..
  · exact Nat.mod_mod ..

theorem amoLeaves_min :
    AmoLeaves 0x06 wide rnd old x c n (if (BitVec.ofNat n old).toInt ≤ (BitVec.ofNat n x).toInt then BitVec.ofNat n old else BitVec.ofNat n x).toNat := by
  simp only [AmoLeaves, amoNew, ← hn, sgn_mod_eq_toInt hn, toNat_select]

theorem amoLeaves_max :
    AmoLeaves 0x07 wide rnd old x c n (if (BitVec.ofNat n x).toInt ≤ (BitVec.ofNat n old).toInt then BitVec.ofNat n old else BitVec.ofNat n x).toNat := by
  simp only [AmoLeaves, amoNew, ← hn, sgn_mod_eq_toInt hn, toNat_select]

theorem amoLeaves_minn :
    AmoLeaves 0x08 wide rnd old x c n (if (BitVec.ofNat n old).toNat ≤ (BitVec.ofNat n x).toNat then BitVec.ofNat n old else BitVec.ofNat n x).toNat := by
  simp only [AmoLeaves, amoNew, ← hn, toNat_select, BitVec.toNat_ofNat]

theorem amoLeaves_maxn :
    AmoLeaves 0x09 wide rnd old x c n (if (BitVec.ofNat n x).toNat ≤ (BitVec.ofNat n old).toNat then BitVec.ofNat n old else BitVec.ofNat n x).toNat := by
  simp only [AmoLeaves, amoNew, ← hn, toNat_select, BitVec.toNat_ofNat]

theorem amoLeaves_fadd : AmoLeaves 0x0A wide rnd old x c n
    (BitVec.ofNat n (fpAdd (fpFmt (if wide then 0 else 1)) rnd (BitVec.ofNat n old).toNat (BitVec.ofNat n x).toNat)).toNat := by
  simp only [AmoLeaves, amoNew, ← hn, BitVec.toNat_ofNat]

end

/-- The register's value of R304: the old one, sign-extended. -/
theorem amoResult_signExtend (wide : Bool) (n old : Nat) (hn : n = if wide then 64 else 32) : amoResult wide old = (BitVec.ofNat n old).signExtend 64 := by
  subst hn
  cases wide with
  | true => exact (BitVec.signExtend_eq _).symm
  | false => exact congrArg (BitVec.ofInt 64) (sgn_eq_toInt 32 old (by decide))

/-- An instruction that reads a location, gives it a new value and its register the old one, and does no more. -/
def AtomicDoes (s : State) (i : Instr) (d : Reg) (x n : Nat) (new : BitVec (8 * n)) : Prop :=
  ∃ t, exec i s = .next t ∧ Memory.readN t.panel.mem x n = new.toNat ∧ SameBytesBut x n s t ∧
    t.panel.cc.g = (s.panel.cc.setG d.toNat ((BitVec.ofNat (8 * n) (Memory.readN s.panel.mem x n)).signExtend 64)).g ∧ t.panel.cc.pc = s.panel.fin.cc.pc

/-- The bytes that an atomic leaves: the new value at its location, and every other byte as it was. -/
theorem amo_bytes {op n rnd x c new a : Nat} {wide : Bool} {m m' : Memory} (hleaves : AmoLeaves op wide rnd (Memory.readN m a n) x c (8 * n) new)
    (hm : m' = match amoNew op wide rnd (Memory.readN m a n) x c with
      | some v => Memory.writeN m a n v
      | none => m) :
    Memory.readN m' a n = new ∧ ∀ y, y < a ∨ a + n ≤ y → Memory.get m' y = Memory.get m y := by
  unfold AmoLeaves at hleaves
  subst hm
  split at hleaves
  · next v _ => exact ⟨(Memory.readN_writeN m a n v).trans (by rw [pow_256, hleaves]), fun y hy => Memory.get_writeN_other m a n v y hy⟩
  · refine ⟨?_, fun _ _ => rfl⟩
    rwa [← pow_256, Nat.mod_eq_of_lt (Memory.readN_lt m a n)] at hleaves

section
variable {s : State} {d a b : Reg} {q r : BitVec 1} {sc : BitVec 3} {w : BitVec 1} {lc off n : Nat} (hn : n = if w == 1 then 8 else 4)
  (hcalm : s.panel.Calm) (hquiet : r = 1 → s.panel.quiet = true) (hrel : q = 1 → s.panel.relBusy = false)
  (hmesh : s.panel.meshOpen true lc off n = false) (hhi : (s.panel.gv a).toNat / 2 ^ 55 = 0)
  (hal : (s.panel.gv a).toNat % n = 0) (hplace : place s.panel s.panel.src (s.panel.gv a).toNat n = .lm lc off false)
include hn hcalm hquiet hrel hmesh hhi hal hplace

/-- An atomic on the thread's own window, by what its row of the table leaves (R304, R305). -/
theorem atomicDoes_own {i : Instr} {op : Nat} {new : BitVec (8 * n)} (hi : exec i s = amoWord op d a b q r sc w s)
    (hleaves : AmoLeaves op (w == 1) (s.panel.src.rmode.toNat % 4) (Memory.readN s.panel.mem (lmA lc off) n) (s.panel.gv b).toNat (s.panel.gv d).toNat (8 * n) new.toNat) :
    AtomicDoes s i d (lmA lc off) n new := by
  have hrnd : bf s.panel.src.rmode.toNat 1 0 = s.panel.src.rmode.toNat % 4 := (bf_eq ..).trans (congrArg (· % 4) (Nat.div_one _))
  have hbits : 8 * n = if w == 1 then 64 else 32 := by rw [hn]; split <;> rfl
  have haway : s.panel.isAway = false := hcalm.1.1
  subst hn
  obtain ⟨hmem, hg, hpc⟩ := atomic_leaves haway d lc off op (w == 1) (q == 1) sc.toNat (bf s.panel.src.rmode.toNat 1 0) (s.panel.gv b).toNat (s.panel.gv d).toNat
  rw [hrnd] at hmem
  obtain ⟨hread, hother⟩ := amo_bytes hleaves hmem
  exact ⟨_, exec_amoWord_own hi hcalm hquiet hrel hmesh hhi hal hplace, hread, hother,
    hg.trans (by rw [amoResult_signExtend (w == 1) _ _ hbits]; rfl), hpc⟩

end

/-- Settles O10: LDSY, STFL and FECLR by their equations on the own window, and each atomic by its row of the table of R305. -/
theorem syncWordsAndAtomics : Obligations.SyncWordsAndAtomics := by
  unfold Obligations.SyncWordsAndAtomics
  constructor
  · intro s d a b lc off p va hcalm hreg
    refine ⟨fun hmis => ⟨?_, ?_, exec_stfl_misaligned hcalm hreg hmis⟩, fun hal hplace => ⟨fun hwait => ⟨?_, ?_⟩, fun hrel hmesh hfull => ⟨?_, ?_⟩,
      fun hrel hmesh hempty hst => ⟨?_, ?_⟩, fun hquiet hwaits => ?_⟩, fun hal hn hn8 hplace hmesh => ?_⟩
    · exact congrArg s.to (Panel.ldsy_misaligned hcalm hreg hmis)
    · exact congrArg s.to (Panel.ldsy_misaligned hcalm hreg hmis)
    · exact congrArg s.to ((Panel.ldsy_own hcalm hreg hal hplace).trans (if_pos hwait))
    · exact congrArg s.to ((Panel.ldsy_own hcalm hreg hal hplace).trans (if_pos hwait))
    · exact congrArg s.to (Panel.ldsy_full hcalm hreg hal hplace hrel hmesh hfull)
    · exact congrArg s.to (Panel.ldsy_full hcalm hreg hal hplace hrel hmesh hfull)
    · exact ⟨_, rfl, Panel.ldsy_blocks hcalm hreg hal hplace hrel hmesh hempty hst⟩
    · exact ⟨_, rfl, Panel.ldsy_blocks hcalm hreg hal hplace hrel hmesh hempty hst⟩
    · exact ⟨_, exec_stfl_own hcalm hreg hal hplace hquiet, stfl_leaves s lc off _ (p.gv b).isLt hwaits⟩
    · exact ⟨_, exec_feclr_own hcalm hreg hal hn hn8 hplace hmesh, feclr_leaves p lc off _⟩
  · intro s d a b q r sc w lc off p va n k old x c does hcalm hquiet hrel hmesh hhi hal hplace
    have hn : n = if w == 1 then 8 else 4 := by simp only [n, beq_iff_eq]
    have hk : k = if w == 1 then 64 else 32 := by simp only [k, hn]; split <;> rfl
    have hrow {i : Instr} {op : Nat} {new : BitVec k} (hi : exec i s = amoWord op d a b q r sc w s)
        (hleaves : AmoLeaves op (w == 1) (p.src.rmode.toNat % 4) (Memory.readN p.mem (lmA lc off) n) (p.gv b).toNat (p.gv d).toNat k new.toNat) : does i new :=
      atomicDoes_own hn hcalm hquiet hrel hmesh hhi hal hplace hi hleaves
    refine ⟨hrow rfl (amoLeaves_add hk ..), hrow rfl (amoLeaves_swap hk ..), hrow rfl (amoLeaves_cas hk ..), hrow rfl (amoLeaves_and hk ..),
      hrow rfl (amoLeaves_or hk ..), hrow rfl (amoLeaves_xor hk ..), hrow rfl (amoLeaves_min hk ..), hrow rfl (amoLeaves_max hk ..),
      hrow rfl (amoLeaves_minn hk ..), hrow rfl (amoLeaves_maxn hk ..), hrow rfl ?_⟩
    have hfadd := amoLeaves_fadd hk (p.src.rmode.toNat % 4) (Memory.readN p.mem (lmA lc off) n) (p.gv b).toNat (p.gv d).toNat
    simp only [beq_iff_eq] at hfadd
    exact hfadd

end Sys2Proof.Machine
end

section
/-! Prefetches and drops that end early (R386). An L2PF or L2DROP that a status ends has its number of lines cut to those asked for, so that it has
nothing more to ask for; the statement of the engines takes the status alone for that. -/

namespace Sys2Proof.Machine

/-- A prefetch that has lines still to ask for or to answer does not complete (R386). -/
theorem exec_l2pfComplete_open (s : State) {lc : Nat} {x : Bulk} {rest : List Bulk} (hev : s.panel.ev = [lc]) (hpf : (s.panel.core lc).pf = x :: rest)
    (hopen : x.over = false) : exec .l2pfComplete s = .next s := by
  have harg : s.panel.arg 0 = lc := by simp [Panel.arg, hev]
  show execL2pfComplete s = _
  simp [execL2pfComplete, onPanel, harg, hpf, hopen]

/-- A prefetch of one line with status REGION, whose line it has neither asked for nor given up. -/
def regionPrefetch : Bulk := { slot := 0, btag := 0, va := 0, lines := 1, status := 4 }

/-- A panel on which it is core 0's oldest prefetch, and its completion is performed. -/
def regionPrefetchPanel : Panel := { ev := [0], cores := [(0, { pf := [regionPrefetch] })] }

/-- Refutes O24: a prefetch with status 4 completes once its last line is answered, and the statement asks for the last line only where the status is
neither 1 nor 4. This one has a line left to ask for, so that L2PF_COMPLETE changes nothing, where the statement has an entry in q1. The clause of L2DROP
lacks the same premise, that the lines asked for are all of the command's. -/
theorem not_enginesWork : ¬ Obligations.EnginesWork := by
  intro h
  obtain ⟨hlands, -⟩ := h
  have hqueue : regionPrefetchPanel.queue 0 0 1 = [] := rfl
  have hroom : (regionPrefetchPanel.queue 0 0 1).length < qDepth 1 ∧ ∀ e ∈ (regionPrefetchPanel.blk 0 0).held, e.q ≠ 1 :=
    ⟨by decide, fun _ he => absurd he List.not_mem_nil⟩
  obtain ⟨-, -, -, hpf, -⟩ := hlands { panel := regionPrefetchPanel } 0 0 1 rfl hroom
  obtain ⟨t, ht, hpushed, -⟩ := hpf regionPrefetch [] rfl rfl rfl (fun hstatus => absurd rfl hstatus) rfl rfl rfl rfl
  have hsame := exec_l2pfComplete_open { panel := regionPrefetchPanel } (lc := 0) rfl rfl (x := regionPrefetch) (rest := []) rfl
  obtain rfl : t = { panel := regionPrefetchPanel } := Host.Outcome.next.inj (ht.symm.trans hsame)
  rw [hqueue] at hpushed
  exact absurd hpushed (List.cons_ne_nil _ _).symm

end Sys2Proof.Machine
end

section
/-! Soft errors of a word (R140): the digit of a word is 0, 1 or 2 wherever errors strike a sound line, and 3 stands for nothing. -/

namespace Sys2Proof.Machine

/-- An error strikes a word of a line that its slice holds (R140). -/
theorem exec_softError_slice (s : State) {sc line w : Nat} {l : L2Line} (hev : s.panel.ev = [0, sc, line, w]) (hfind : l2Find (s.panel.slice sc) line = some l) :
    exec .softError s = s.to (s.panel.updSlice sc fun k => { k with soft := SMap.upd k.soft line 0 fun v => softAdd v (w % 8) 1 }) := by
  show execSoftError s = _
  simp [execSoftError, onPanel, Panel.arg, hev, Panel.softError, hfind, State.to]

/-- A slice that holds line 0 with the digit 3, which no error leaves, for its word 0. -/
def digitThree : Slice := { lines := [⟨0, 0, 0, false, false, 0, 0⟩], soft := [(0, 3)] }

/-- A panel on which a correctable error strikes that word. -/
def digitThreePanel : Panel := { ev := [0, 0, 0, 0], slices := [(0, digitThree)] }

/-- Refutes O35: a second error makes a word uncorrectable, digit 2, but a digit 3 stays 3, since what an error adds is a natural number and is 0 there.
The statement has every digit but 0 become 2; it lacks the premise that the words of the line have digits 0 to 2, for HBM as for a slice. -/
theorem not_memoryErrors : ¬ Obligations.MemoryErrors := by
  intro h
  obtain ⟨hstrike, -⟩ := h { panel := digitThreePanel } 0 0 0 0 0 0 ⟨0, 0, 0, false, false, 0, 0⟩ (0, noPart)
  obtain ⟨t, ht, hdigit, -⟩ := hstrike rfl (by decide) rfl
  have hexec := exec_softError_slice { panel := digitThreePanel } (sc := 0) (line := 0) (w := 0) rfl (l := ⟨0, 0, 0, false, false, 0, 0⟩) rfl
  obtain rfl : t = _ := Host.Outcome.next.inj (ht.symm.trans hexec)
  exact absurd hdigit (by decide)

end Sys2Proof.Machine
end

section
/-! Requests at a home slice that are alone there: hits, misses and fetches that return (R122-R125, R137, R143). -/

namespace Sys2Proof.Machine

/-! ### What work at a slice leaves alone -/

theorem Panel.Booked.slices {p q : Panel} (h : p.Booked q) : q.slices = p.slices := (congrArg Panel.slices h.rest :)

theorem Panel.Booked.hbm {p q : Panel} (h : p.Booked q) : q.hbm = p.hbm := (congrArg Panel.hbm h.rest :)

theorem Panel.Booked.slice {p q : Panel} (h : p.Booked q) (sc : Nat) : q.slice sc = p.slice sc := by rw [Panel.slice, h.slices, Panel.slice]

/-- From one panel to another slices, accesses, L1 lines and books may have changed: nothing that memory, HBM or the way of a response depends on. -/
structure Panel.Sliced (p q : Panel) : Prop where
  mem : q.mem = p.mem
  now : q.now = p.now
  hbm : q.hbm = p.hbm
  parts : q.parts = p.parts
  blocks : q.blocks = p.blocks
  fabric : q.fabric = p.fabric
  route : ∀ lc, (q.core lc).route = (p.core lc).route
  agenda : ∀ e ∈ p.agenda, e ∈ q.agenda

namespace Panel.Sliced

theorem refl (p : Panel) : p.Sliced p := ⟨rfl, rfl, rfl, rfl, rfl, rfl, fun _ => rfl, fun _ h => h⟩

theorem trans {p q r : Panel} (h : p.Sliced q) (h' : q.Sliced r) : p.Sliced r :=
  ⟨h'.mem.trans h.mem, h'.now.trans h.now, h'.hbm.trans h.hbm, h'.parts.trans h.parts, h'.blocks.trans h.blocks, h'.fabric.trans h.fabric,
    fun lc => (h'.route lc).trans (h.route lc), fun e he => h'.agenda e (h.agenda e he)⟩

theorem of_booked {p q : Panel} (h : p.Booked q) : p.Sliced q :=
  ⟨h.mem, h.now, h.hbm, h.parts, h.blocks, h.fabric, h.field Core.route fun _ _ _ _ => rfl, h.agenda⟩

theorem updSlice (p : Panel) (sc : Nat) (f : Slice → Slice) : p.Sliced (p.updSlice sc f) := ⟨rfl, rfl, rfl, rfl, rfl, rfl, fun _ => rfl, fun _ h => h⟩

theorem setAccs (p : Panel) (m : SMap Access) : p.Sliced { p with accs := m } := ⟨rfl, rfl, rfl, rfl, rfl, rfl, fun _ => rfl, fun _ h => h⟩

theorem updCore (p : Panel) (lc : Nat) (f : Core → Core) (hf : ∀ c, (f c).route = c.route) : p.Sliced (p.updCore lc f) := by
  refine ⟨rfl, rfl, rfl, rfl, rfl, rfl, fun k => ?_, fun _ h => h⟩
  by_cases hk : lc = k
  · subst hk
    rw [Panel.core_updCore_self, hf]
  · rw [Panel.core_updCore_other _ _ _ _ hk]

theorem touch (p : Panel) (sc line : Nat) : p.Sliced (p.touch sc line) := by
  unfold Panel.touch
  split
  · exact refl p
  · exact updSlice p sc _

theorem dropCopy (p : Panel) (lc line : Nat) : p.Sliced (p.dropCopy lc line) := by
  unfold Panel.dropCopy
  refine List.foldlRecOn (motive := fun q => p.Sliced q) _ _ (refl p) fun q hq k _ => ?_
  dsimp only
  split
  · exact hq.trans (updCore q _ _ fun _ => rfl)
  · exact hq

section
variable {p q : Panel} (h : p.Sliced q)
include h

theorem part (i : Nat) : q.part i = p.part i := by rw [Panel.part, h.parts, Panel.part]

theorem block (tag : Nat) : q.block tag = p.block tag := by rw [Panel.block, h.blocks, Panel.block]

theorem sliceHops (a : Access) : q.sliceHops a = p.sliceHops a := by
  have htrip (x y : Nat) : q.trip x y 1 = p.trip x y 1 := Panel.trip_congr x y 1 h.fabric h.parts (h.route x)
  simp only [Panel.sliceHops, h.part, h.block, htrip]

theorem routeLine (line : Nat) : q.routeLine line = p.routeLine line := by rw [Panel.routeLine, h.parts, Panel.routeLine]

theorem watched (line : Nat) : q.watched line = p.watched line := by rw [Panel.watched, h.parts, Panel.watched]

end
end Panel.Sliced

/-- No access stands before a TLB or is held, so that none goes on with the end of another. -/
def Panel.Settled (p : Panel) : Prop := ∀ e ∈ p.accs, e.2.stage ≠ .held ∧ e.2.stage ≠ .tlb

theorem Panel.Settled.set {p : Panel} {id : Nat} {a : Access} (h : p.Settled) (ha : a.stage ≠ .held ∧ a.stage ≠ .tlb) :
    ({ p with accs := SMap.set p.accs id a } : Panel).Settled := by
  intro e he
  rcases SMap.mem_set he with rfl | hmem
  · exact ha
  · exact h e hmem

theorem Panel.Settled.of_accs {p q : Panel} (h : p.Settled) (hq : q.accs = p.accs) : q.Settled := by
  rw [Panel.Settled, hq]
  exact h

theorem Panel.acc_setAccs (p : Panel) (id : Nat) (a : Access) : ({ p with accs := SMap.set p.accs id a } : Panel).acc id = some a := SMap.find_set_self _ _ _

/-! ### Answers of a slice (R143, R167) -/

/-- An access is answered: its response is due `w` cycles from now, and no byte of memory has changed. -/
def Panel.AnsweredIn (p : Panel) (id : Nat) (ev : Instr) (w : Nat) (ok : Access → Prop) (q : Panel) : Prop :=
  ∃ y, q.acc id = some y ∧ (p.now + w, ev, [id]) ∈ q.agenda ∧ q.mem = p.mem ∧ ok y

theorem Panel.AnsweredIn.booked {p q r : Panel} {id w : Nat} {ev : Instr} {ok : Access → Prop} (h : p.AnsweredIn id ev w ok q) (hr : q.Booked r) :
    p.AnsweredIn id ev w ok r := by
  obtain ⟨y, hacc, hdue, hmem, hok⟩ := h
  exact ⟨y, (hr.acc id).trans hacc, hr.agenda _ hdue, hr.mem.trans hmem, hok⟩

/-- What comes before the answer may have worked at the slice. -/
theorem Panel.AnsweredIn.after {p q r : Panel} {id : Nat} {a : Access} {ev : Instr} {ok : Access → Prop} (hq : p.Sliced q)
    (h : q.AnsweredIn id ev (10 + 2 * q.sliceHops a) ok r) : p.AnsweredIn id ev (10 + 2 * p.sliceHops a) ok r := by
  obtain ⟨y, hacc, hdue, hmem, hok⟩ := h
  rw [hq.now, hq.sliceHops] at hdue
  exact ⟨y, hacc, hdue, hmem.trans hq.mem, hok⟩

/-- Kinds of access to one line, each with its response. -/
def lineKinds : List (AKind × Instr) := [(.store, .storeAcknowledgement), (.load, .loadResponse), (.amo, .loadResponse)]

theorem respond_line (p : Panel) (a : Access) {ev : Instr} (hkind : (a.kind, ev) ∈ lineKinds) (hfill : a.fill = 0) :
    respond p a = (p.billAnswer a.id (p.sliceHops a)).later (10 + 2 * p.sliceHops a) ev [a.id] := by
  simp only [lineKinds, List.mem_cons, Prod.mk.injEq, List.not_mem_nil, or_false] at hkind
  rcases hkind with ⟨hk, rfl⟩ | ⟨hk, rfl⟩ | ⟨hk, rfl⟩
  · simp [respond, hk]
  · simp [respond, hk, hfill]
  · simp [respond, hk]

/-- The response of an access of one line books it. -/
theorem respond_line_books (p : Panel) (a : Access) {ev : Instr} (hkind : (a.kind, ev) ∈ lineKinds) (hfill : a.fill = 0) :
    p.Booked (respond p a) ∧ (p.now + (10 + 2 * p.sliceHops a), ev, [a.id]) ∈ (respond p a).agenda := by
  rw [respond_line p a hkind hfill]
  have hbill := p.booked_billAnswer a.id (p.sliceHops a)
  refine ⟨hbill.trans (Panel.booked_later ..), ?_⟩
  rw [← hbill.now]
  exact List.mem_append_right _ (List.mem_singleton_self _)

/-- An access whose one part has been read on its line. -/
def Panel.partRead (p : Panel) (a : Access) (x : Part) (l : L2Line) : Access :=
  { a with
    got := putBits a.got (8 * (x.pos + x.len) - 1) (8 * x.pos) (bf l.data.toNat (8 * (x.off + x.len) - 1) (8 * x.off))
    patch := a.patch.filter (p.unread ((a.va + x.pos) / 64) l.line)
    parts := [{ x with done := true }] }

/-- Its answer. -/
def Panel.partDone (p : Panel) (a : Access) (x : Part) (l : L2Line) : Panel :=
  respond (({ p with accs := SMap.set p.accs a.id (p.partRead a x l) } : Panel).performed a.id) (p.partRead a x l)

/-- An access of one part, from the first byte of the access on, that has met no error, read nothing, and fills no line of an L1. -/
structure Access.OnePart (a : Access) (x : Part) : Prop where
  parts : a.parts = [x]
  pos : x.pos = 0
  len : 0 < x.len
  err : a.err = 0
  got : a.got = 0
  fill : a.fill = 0

theorem Access.OnePart.got_eq {a : Access} {x : Part} (h : a.OnePart x) (p : Panel) (l : L2Line) :
    (p.partRead a x l).got = bf l.data.toNat (8 * (x.off + x.len) - 1) (8 * x.off) := by
  have hlow := putBits_zero (8 * x.len) (bf l.data.toNat (8 * (x.off + x.len) - 1) (8 * x.off)) (by have := h.len; omega)
  rw [bf_bytes _ _ _ h.len, ← pow_256, Nat.mod_mod, Nat.zero_add] at hlow
  rw [Panel.partRead, h.got, h.pos, bf_bytes _ _ _ h.len, Nat.zero_add, Nat.mul_zero, hlow]

/-- The access is performed, has read its bytes, and is answered; the slices stay as they are. -/
theorem Panel.partDone_answers {p : Panel} {a : Access} {x : Part} {ev : Instr} (l : L2Line) (hacc : p.acc a.id = some a) (hun : p.Unawaited a.id)
    (hone : a.OnePart x) (hkind : (a.kind, ev) ∈ lineKinds) :
    p.AnsweredIn a.id ev (10 + 2 * p.sliceHops a) (fun y => y.stage = .performed ∧ y.got = bf l.data.toNat (8 * (x.off + x.len) - 1) (8 * x.off))
      (p.partDone a x l) ∧ (p.partDone a x l).slices = p.slices ∧ (p.Settled → (p.partDone a x l).Settled) := by
  let b := p.partRead a x l
  let q : Panel := { p with accs := SMap.set p.accs a.id b }
  let r : Panel := { q with accs := SMap.set q.accs a.id { b with stage := .performed } }
  have hq : q.acc a.id = some b := acc_setAccs ..
  have hperf : q.performed a.id = r := Panel.performed_unawaited hq (Panel.unawaited_set hun a.id (hun _ (SMap.mem_of_find hacc)))
  have hhops : r.sliceHops b = p.sliceHops a := Panel.sliceHops_congr p a b hone.parts rfl rfl rfl rfl
  obtain ⟨hbooked, hdue⟩ := respond_line_books r b (ev := ev) hkind hone.fill
  rw [hhops] at hdue
  rw [Panel.partDone, hperf]
  refine ⟨⟨{ b with stage := .performed }, ?_, hdue, hbooked.mem, rfl, hone.got_eq p l⟩, hbooked.slices, fun hsettled => ?_⟩
  · rw [hbooked.acc]
    exact acc_setAccs ..
  · have hread : q.Settled := hsettled.set (hsettled _ (SMap.mem_of_find hacc))
    exact (hread.set (a := { b with stage := .performed }) ⟨nofun, nofun⟩).of_accs hbooked.accs

theorem Panel.sliceError_answers {p : Panel} {id : Nat} {a : Access} (cause : Nat) (hacc : p.acc id = some a) (hun : p.Unawaited id) :
    p.AnsweredIn id .errorResponse (10 + 2 * p.sliceHops a) (fun y => y.stage = .error ∧ y.err = cause) (p.sliceError id cause) ∧
      (p.sliceError id cause).slices = p.slices ∧
      (p.Settled → (p.sliceError id cause).Settled) := by
  have hset := acc_setAccs p id { a with stage := .performed }
  rw [Panel.sliceError, Panel.performed_unawaited hacc hun, Panel.updAcc_eq hset, hacc]
  refine ⟨⟨_, acc_setAccs .., List.mem_append_right _ (List.mem_singleton_self _), rfl, rfl, rfl⟩, rfl, fun hsettled => ?_⟩
  have hperformed : ({ p with accs := SMap.set p.accs id { a with stage := .performed } } : Panel).Settled := hsettled.set ⟨nofun, nofun⟩
  exact hperformed.set ⟨nofun, nofun⟩

/-! ### An access performed on a line that its slice holds (R125, R143, R192) -/

/-- What an access of one part does to its line and to its core's L1 copy. -/
def Panel.linePut (p : Panel) (sc : Nat) (a : Access) (x : Part) (l : L2Line) : Panel :=
  match a.kind with
  | .store => p.slicePut sc l.line x.off x.len (a.data >>> (8 * x.pos)) a.level
  | .amo =>
    ((match amoNew a.op a.wide a.rnd (bf l.data.toNat (8 * (x.off + x.len) - 1) (8 * x.off)) (if a.op = 2 then a.data1 else a.data) a.data with
      | some v => p.slicePut sc l.line x.off x.len v a.level
      | none => p).dropCopy a.core l.line).staleFills a.core l.line
  | _ => p

/-- A line under the access's key, sound where the access consumes it. -/
theorem Panel.performPart_one {p : Panel} {a : Access} {x : Part} {l : L2Line} {ev : Instr} (sc : Nat) (hacc : p.acc a.id = some a) (hone : a.OnePart x)
    (hkind : (a.kind, ev) ∈ lineKinds) (hkey : l.key = x.key) (hpoison : l.poison = false)
    (hput : (p.linePut sc a x l).acc a.id = some a) : p.performPart sc a.id 0 l = (p.linePut sc a x l).partDone a x l := by
  simp only [lineKinds, List.mem_cons, Prod.mk.injEq, List.not_mem_nil, or_false] at hkind
  rw [Panel.performPart, hacc]
  simp only [hone.parts, List.getElem?_cons_zero, hkey, hpoison, hone.fill, ne_eq, not_true_eq_false, Bool.false_eq_true, false_and, if_false]
  rcases hkind with ⟨hk, -⟩ | ⟨hk, -⟩ | ⟨hk, -⟩
  case inr.inr =>
    rcases hnew : amoNew a.op a.wide a.rnd (bf l.data.toNat (8 * (x.off + x.len) - 1) (8 * x.off)) (if a.op = 2 then a.data1 else a.data) a.data with _ | v
    all_goals
      simp only [Panel.linePut, hk, hnew] at hput ⊢
      simp only [if_true]
      rw [Panel.updAcc_eq hput, acc_setAccs]
      simp [hone.fill, hone.err, hone.parts, Panel.partDone, Panel.partRead]
  all_goals
    simp only [Panel.linePut, hk] at hput ⊢
    simp only [reduceCtorEq, if_false]
    rw [Panel.updAcc_eq hput, acc_setAccs]
    simp [hone.fill, hone.err, hone.parts, Panel.partDone, Panel.partRead]

theorem Panel.performPart_badKey {p : Panel} {id : Nat} {a : Access} {x : Part} {l : L2Line} (sc : Nat) (hacc : p.acc id = some a) (hparts : a.parts = [x])
    (hkey : l.key ≠ x.key) : p.performPart sc id 0 l = p.sliceError id 0x31 := by
  simp [Panel.performPart, hacc, hparts, hkey]

theorem Panel.performPart_poison {p : Panel} {id : Nat} {a : Access} {x : Part} {l : L2Line} (sc : Nat) (hacc : p.acc id = some a) (hparts : a.parts = [x])
    (hkey : l.key = x.key) (hpoison : l.poison = true) (hkind : a.kind = .load) : p.performPart sc id 0 l = p.sliceError id 0x33 := by
  simp [Panel.performPart, hacc, hparts, hkey, hpoison, hkind, consumes]

/-- Bytes written to a line outside route blocks and queue control blocks (R125). -/
theorem Panel.slicePut_plain (p : Panel) (sc line off n v : Nat) (level : Bool) (hroute : p.routeLine line = none) (hwatch : p.watched line = none) :
    p.slicePut sc line off n v level = p.setLine sc line (n == 64) fun d => lineWrite d off n v := by
  rw [Panel.slicePut, hroute, hwatch]

/-- The fill of an access that an atomic has made stale (R108, R192). -/
def Panel.staled (p : Panel) (lc line : Nat) (b : Access) : Access :=
  if b.fill == 1 && p.shareL1 b.core lc && (b.lines.any fun x => x.1 == line) then { b with fill := 3 } else b

theorem Panel.staleFills_accs (p : Panel) (lc line : Nat) : (p.staleFills lc line).accs = p.accs.map fun e : Nat × Access => (e.1, p.staled lc line e.2) := by
  refine List.map_congr_left fun e _ => ?_
  unfold Panel.staled
  split
  · rfl
  · rfl

theorem Panel.staled_after (p : Panel) (lc line : Nat) (b : Access) : (p.staled lc line b).after = b.after := by
  unfold Panel.staled
  split
  · rfl
  · rfl

theorem Panel.acc_staleFills {p : Panel} {id : Nat} {a : Access} (lc line : Nat) (hacc : p.acc id = some a) (hfill : a.fill = 0) :
    (p.staleFills lc line).acc id = some a := by
  rw [Panel.acc, Panel.staleFills_accs, SMap.find_map, ← Panel.acc, hacc, Option.map_some, Panel.staled, hfill]
  rfl

theorem Panel.unawaited_staleFills {p : Panel} {id : Nat} (lc line : Nat) (hun : p.Unawaited id) : (p.staleFills lc line).Unawaited id := by
  intro e he
  rw [Panel.staleFills_accs] at he
  obtain ⟨b, hb, rfl⟩ := List.mem_map.mp he
  rw [Panel.staled_after]
  exact hun b hb

theorem Panel.dropCopy_keeps {α : Type} (f : Panel → α) (hf : ∀ q lc g, f (Panel.updCore q lc g) = f q) (p : Panel) (lc line : Nat) : f (p.dropCopy lc line) = f p := by
  refine Panel.foldl_keeps _ f (fun q k => ?_) _ p
  dsimp only
  split
  · exact hf ..
  · rfl

/-- What an access leaves of its line. -/
structure Panel.LinePut (p : Panel) (sc : Nat) (a : Access) (l : L2Line) (q : Panel) : Prop where
  sliced : p.Sliced q
  acc : q.acc a.id = some a
  unawaited : q.Unawaited a.id
  line : l2Find (q.slice sc) l.line = some l

theorem Panel.linePut_setLine {p : Panel} {a : Access} {l : L2Line} {sc off n v : Nat} (level : Bool) (hacc : p.acc a.id = some a) (hun : p.Unawaited a.id)
    (hroute : p.routeLine l.line = none) (hwatch : p.watched l.line = none) (hfind : l2Find (p.slice sc) l.line = some l) (hpoison : l.poison = false) :
    p.LinePut sc a { l with data := lineWrite l.data off n v, dirty := true } (p.slicePut sc l.line off n v level) := by
  rw [Panel.slicePut_plain p sc l.line off n v level hroute hwatch]
  have hset := Panel.l2Find_setLine p sc l.line (n == 64) (fun d => lineWrite d off n v) l hfind
  rw [hpoison, Bool.false_and, ← hpoison] at hset
  exact ⟨.updSlice p sc _, hacc, hun, hset⟩

/-- The L1 copies of an atomic's line go, and what it leaves at the slice stays. -/
theorem Panel.LinePut.dropCopies {p q : Panel} {sc : Nat} {a : Access} {l : L2Line} (h : p.LinePut sc a l q) (hfill : a.fill = 0) (lc line : Nat) :
    p.LinePut sc a l ((q.dropCopy lc line).staleFills lc line) := by
  have haccs : (q.dropCopy lc line).accs = q.accs := q.dropCopy_keeps Panel.accs (fun _ _ _ => rfl) lc line
  have hslice : (q.dropCopy lc line).slice sc = q.slice sc := q.dropCopy_keeps (fun r => r.slice sc) (fun _ _ _ => rfl) lc line
  refine ⟨(h.sliced.trans (.dropCopy q lc line)).trans (.setAccs ..), Panel.acc_staleFills lc line ?_ hfill, Panel.unawaited_staleFills lc line ?_, ?_⟩
  · rw [Panel.acc, haccs]
    exact h.acc
  · rw [Panel.Unawaited, haccs]
    exact h.unawaited
  · exact (congrArg (l2Find · l.line) hslice).trans h.line

/-- An access of one part waits at its home slice, which is sound there and to which nothing else is on its way. -/
structure Panel.Waits (p : Panel) (sc : Nat) (a : Access) (x : Part) : Prop where
  acc : p.acc a.id = some a
  one : a.OnePart x
  unawaited : p.Unawaited a.id
  region : lineRegion x.line = 0
  tagGood : (p.slice sc).tagBad = false
  sound : SMap.find (p.slice sc).soft x.line = none
  vc : (p.slice sc).vc = []

/-- Its request. -/
def Access.reqOf (a : Access) (x : Part) : Req := ⟨.acc a.id 0, a.core, x.line, x.key⟩

/-- Its request is alone in the slice's queue, and no fetch is under way (R122, R123). -/
structure Panel.Requested (p : Panel) (sc : Nat) (a : Access) (x : Part) : Prop extends p.Waits sc a x where
  ing : (p.slice sc).ing = [a.reqOf x]
  mshr : (p.slice sc).mshr = []

theorem Panel.booked_slicePump (p : Panel) (sc : Nat) : p.Booked (p.slicePump sc) := by
  unfold Panel.slicePump
  dsimp only
  split
  · exact .refl p
  · exact Panel.booked_later ..

/-- A slice takes a lone request where no fetch is under way (R122). -/
theorem Slice.pick_lone {k : Slice} {a : Access} {x : Part} (late : Req → Bool) (hing : k.ing = [a.reqOf x]) (hmshr : k.mshr = [])
    (hregion : lineRegion x.line = 0) : k.pick late = some (a.reqOf x) := by
  have htake : k.canTake [] (a.reqOf x) = true := by
    simp [Slice.canTake, Slice.waiting, hmshr, Access.reqOf, hregion, Req.drops, Req.prefetches]
  have hcands : k.cands [] k.ing = [a.reqOf x] := by
    rw [hing, Slice.cands, htake]
    rfl
  have hreg : k.needsReg (a.reqOf x) = false := by simp [Slice.needsReg, Access.reqOf, Req.prefetches]
  have hdemand : (a.reqOf x).stages = false := rfl
  simp only [Slice.pick, hcands, List.filter_cons, hreg, Bool.not_false, if_true, List.filter_nil, List.find?_cons, hdemand, List.find?_nil]

/-- The slice without the request that it has taken. -/
def Panel.taking (p : Panel) (sc : Nat) : Panel := p.updSlice sc fun k => { k with ing := [], demand := k.demand + 1 }

/-- A request taken hits a line, or starts a fetch (R122, R123). -/
theorem Panel.takeReq_lone {p : Panel} {sc : Nat} {a : Access} {x : Part} (h : p.Requested sc a x) :
    p.takeReq sc (a.reqOf x) = if (l2Find (p.slice sc) x.line).isSome then ((p.taking sc).touch sc x.line).performReq sc (a.reqOf x)
      else (p.taking sc).fetchLine sc x.line [a.reqOf x] := by
  have htaken : (p.updSlice sc fun s => { s with ing := s.ing.erase (a.reqOf x), demand := if (a.reqOf x).stages then 0 else s.demand + 1 }) = p.taking sc := by
    simp [Panel.taking, Panel.updSlice, h.ing, Access.reqOf, Req.stages]
  have hslice : (p.taking sc).slice sc = { p.slice sc with ing := [], demand := (p.slice sc).demand + 1 } := Panel.slice_updSlice_self ..
  have hcheck : (p.taking sc).l2Check sc x.line = p.taking sc := Panel.l2Check_sound _ _ _ (by rw [hslice]; exact h.sound)
  have hfind : l2Find ((p.taking sc).slice sc) x.line = l2Find (p.slice sc) x.line := by rw [hslice]; rfl
  have hnone : ((p.taking sc).slice sc).mshr = [] := by rw [hslice]; exact h.mshr
  rw [Panel.takeReq, htaken]
  simp only [show (a.reqOf x).line = x.line from rfl, h.region, hnone, hcheck, hfind]
  simp [Access.reqOf, Req.drops, Req.prefetches]

theorem exec_sliceRequest_lone {s : State} {sc : Nat} {a : Access} {x : Part} (hev : s.panel.ev = [sc]) (h : s.panel.Requested sc a x) :
    ∃ p, s.panel.Sliced p ∧ p.accs = s.panel.accs ∧ p.slice sc = s.panel.slice sc ∧ exec .sliceRequest s = s.to ((p.takeReq sc (a.reqOf x)).slicePump sc) ∧
      p.Requested sc a x := by
  let p := s.panel.updSlice sc fun k => k.fill s.panel.now 0 k.vc.length
  have hslice : p.slice sc = s.panel.slice sc := by
    rw [Panel.slice_updSlice_self, h.vc]
    rfl
  have harg0 : s.panel.arg 0 = sc := by simp [Panel.arg, hev]
  have harg1 : s.panel.arg 1 = 0 := by simp [Panel.arg, hev]
  have hpick : (p.slice sc).pick p.stageLate = some (a.reqOf x) := by
    rw [hslice]
    exact Slice.pick_lone _ h.ing h.mshr h.region
  refine ⟨p, .updSlice .., rfl, hslice, ?_, ⟨⟨h.acc, h.one, h.unawaited, h.region, ?_, ?_, ?_⟩, ?_, ?_⟩⟩
  · show execSliceRequest s = _
    simp only [execSliceRequest, onPanel, harg0, harg1, h.tagGood, Bool.false_eq_true, if_false]
    rw [show (s.panel.updSlice sc fun k => k.fill s.panel.now 0 k.vc.length) = p from rfl, hpick]
    rfl
  all_goals rw [hslice]
  · exact h.tagGood
  · exact h.sound
  · exact h.vc
  · exact h.ing
  · exact h.mshr

/-- A request performed on a line that its slice holds. -/
theorem Panel.performReq_acc {p : Panel} {sc : Nat} {a : Access} {x : Part} {l : L2Line} (hregion : lineRegion x.line = 0)
    (hfind : l2Find (p.slice sc) x.line = some l) : p.performReq sc (a.reqOf x) = p.performPart sc a.id 0 l := by
  simp [Panel.performReq, Access.reqOf, hregion, hfind]

/-- A hit is performed on its line, which is now the slice's most recently used (R120, R122). -/
theorem exec_sliceRequest_hit {s : State} {sc : Nat} {a : Access} {x : Part} {l : L2Line} (hev : s.panel.ev = [sc]) (h : s.panel.Requested sc a x)
    (hfind : l2Find (s.panel.slice sc) x.line = some l) :
    ∃ q, s.panel.Sliced q ∧ q.accs = s.panel.accs ∧ l2Find (q.slice sc) x.line = some l ∧
      exec .sliceRequest s = s.to ((q.performPart sc a.id 0 l).slicePump sc) := by
  obtain ⟨p, hp, haccs, hslice, hexec, hreq⟩ := exec_sliceRequest_lone hev h
  have hheld : l2Find ((p.taking sc).slice sc) x.line = some l := by
    rw [Panel.taking, Panel.slice_updSlice_self, hslice]
    exact hfind
  have htouched := Panel.l2Find_touch _ _ _ _ hheld
  have htouchAccs : ((p.taking sc).touch sc x.line).accs = p.accs := by
    unfold Panel.touch
    split
    · rfl
    · rfl
  rw [Panel.takeReq_lone hreq, hslice, hfind, Option.isSome_some, if_pos rfl, Panel.performReq_acc h.region htouched] at hexec
  exact ⟨_, hp.trans ((Panel.Sliced.updSlice ..).trans (.touch ..)), htouchAccs.trans haccs, htouched, hexec⟩

/-- An access performed where it hits: its response is due, and its line is what it leaves there. -/
theorem sliceRequest_performs {s : State} {sc : Nat} {a : Access} {x : Part} {l l' : L2Line} {ev : Instr} (hev : s.panel.ev = [sc])
    (h : s.panel.Requested sc a x) (hfind : l2Find (s.panel.slice sc) x.line = some l) (hkey : l.key = x.key) (hpoison : l.poison = false)
    (hkind : (a.kind, ev) ∈ lineKinds) (hline : l'.line = l.line)
    (hput : ∀ q, s.panel.Sliced q → q.acc a.id = some a → q.Unawaited a.id → l2Find (q.slice sc) l.line = some l → q.LinePut sc a l' (q.linePut sc a x l)) :
    ∃ t, exec .sliceRequest s = s.to t ∧ s.panel.AnsweredIn a.id ev (10 + 2 * s.panel.sliceHops a)
      (fun y => y.stage = .performed ∧ y.got = bf l.data.toNat (8 * (x.off + x.len) - 1) (8 * x.off)) t ∧ l2Find (t.slice sc) x.line = some l' := by
  obtain ⟨q, hq, haccs, hheld, hexec⟩ := exec_sliceRequest_hit hev h hfind
  have hl : l.line = x.line := l2Find_line hfind
  have hacc : q.acc a.id = some a := by
    rw [Panel.acc, haccs]
    exact h.acc
  have hun : q.Unawaited a.id := by
    rw [Panel.Unawaited, haccs]
    exact h.unawaited
  have hleft := hput q hq hacc hun (hl ▸ hheld)
  obtain ⟨hdone, hslices, -⟩ := Panel.partDone_answers l hleft.acc hleft.unawaited h.one hkind
  have hpump := Panel.booked_slicePump ((q.linePut sc a x l).partDone a x l) sc
  rw [Panel.performPart_one sc hacc h.one hkind hkey hpoison hleft.acc] at hexec
  refine ⟨_, hexec, (hdone.after (hq.trans hleft.sliced)).booked hpump, ?_⟩
  rw [hpump.slice, Panel.slice, hslices, ← Panel.slice, ← hl, ← hline]
  exact hleft.line

/-- An access that fails where it hits: its error response is due, and its line stays. -/
theorem sliceRequest_fails {s : State} {sc cause : Nat} {a : Access} {x : Part} {l : L2Line} (hev : s.panel.ev = [sc])
    (h : s.panel.Requested sc a x) (hfind : l2Find (s.panel.slice sc) x.line = some l)
    (hfail : ∀ q : Panel, q.acc a.id = some a → q.performPart sc a.id 0 l = q.sliceError a.id cause) :
    ∃ t, exec .sliceRequest s = s.to t ∧ s.panel.AnsweredIn a.id .errorResponse (10 + 2 * s.panel.sliceHops a)
      (fun y => y.stage = .error ∧ y.err = cause) t ∧ l2Find (t.slice sc) x.line = some l := by
  obtain ⟨q, hq, haccs, hheld, hexec⟩ := exec_sliceRequest_hit hev h hfind
  have hacc : q.acc a.id = some a := by
    rw [Panel.acc, haccs]
    exact h.acc
  have hun : q.Unawaited a.id := by
    rw [Panel.Unawaited, haccs]
    exact h.unawaited
  obtain ⟨hdone, hslices, -⟩ := Panel.sliceError_answers cause hacc hun
  have hpump := Panel.booked_slicePump (q.sliceError a.id cause) sc
  rw [hfail q hacc] at hexec
  refine ⟨_, hexec, (hdone.after hq).booked hpump, ?_⟩
  rw [hpump.slice, Panel.slice, hslices, ← Panel.slice]
  exact hheld

/-- A miss takes a miss-status register, and its line is fetched (R123). -/
theorem sliceRequest_misses {s : State} {sc : Nat} {a : Access} {x : Part} (hev : s.panel.ev = [sc]) (h : s.panel.Requested sc a x)
    (hfind : l2Find (s.panel.slice sc) x.line = none) :
    ∃ t, exec .sliceRequest s = s.to t ∧ (t.slice sc).mshr = [⟨x.line, [a.reqOf x]⟩] ∧ (t.slice sc).ing = [] ∧
      (s.panel.now + 200, Instr.hbmFillReturn, [sc, x.line]) ∈ t.agenda ∧ t.accs = s.panel.accs ∧ t.mem = s.panel.mem := by
  obtain ⟨p, hp, haccs, hslice, hexec, hreq⟩ := exec_sliceRequest_lone hev h
  let q := (p.taking sc).fetchLine sc x.line [a.reqOf x]
  have hfetch : q.slice sc = { s.panel.slice sc with
      ing := [], demand := (s.panel.slice sc).demand + 1, mshr := (s.panel.slice sc).mshr ++ [⟨x.line, [a.reqOf x]⟩] } := by
    have hput : q.slice sc = ((p.taking sc).updSlice sc fun k => { k with mshr := k.mshr ++ [⟨x.line, [a.reqOf x]⟩] }).slice sc := rfl
    rw [hput, Panel.slice_updSlice_self, Panel.taking, Panel.slice_updSlice_self, hslice]
  have hpump := q.booked_slicePump sc
  rw [Panel.takeReq_lone hreq, hslice, hfind, Option.isSome_none, if_neg Bool.false_ne_true] at hexec
  refine ⟨_, hexec, ?_, ?_, hpump.agenda _ ?_, hpump.accs.trans haccs, hpump.mem.trans hp.mem⟩
  · rw [hpump.slice, hfetch, h.mshr]
    rfl
  · rw [hpump.slice, hfetch]
  · rw [← hp.now]
    exact List.mem_append_right _ (List.mem_singleton_self _)

/-! ### A fetch that returns (R124, R137) -/

/-- The fetch for it is under way, the only one, and no line of the slice is the one it brings (R123). -/
structure Panel.Fetched (p : Panel) (sc : Nat) (a : Access) (x : Part) : Prop extends p.Waits sc a x where
  mshr : (p.slice sc).mshr = [⟨x.line, [a.reqOf x]⟩]
  absent : l2Find (p.slice sc) x.line = none

theorem exec_hbmFillReturn_lone {s : State} {sc : Nat} {a : Access} {x : Part} (hev : s.panel.ev = [sc, x.line]) (h : s.panel.Fetched sc a x) :
    exec .hbmFillReturn s = s.to (((s.panel.finishFetch sc ⟨x.line, [a.reqOf x]⟩).slicePump sc).flow) := by
  have harg0 : s.panel.arg 0 = sc := by simp [Panel.arg, hev]
  have harg1 : s.panel.arg 1 = x.line := by simp [Panel.arg, hev]
  have hwaits : fillWaits [⟨x.line, [a.reqOf x]⟩] x.line = false := by simp [fillWaits]
  show execHbmFillReturn s = _
  simp [execHbmFillReturn, onPanel, harg0, harg1, h.tagGood, h.mshr, hwaits, State.to]

theorem Panel.Settled.flow {p : Panel} (h : p.Settled) : p.flow = p := by
  have hnone : ((p.accs.map (·.2)).filter fun a => (a.stage == .held && a.after == []) || a.stage == .tlb) = [] := by
    simp only [List.filter_eq_nil_iff, List.mem_map]
    rintro b ⟨e, he, rfl⟩
    obtain ⟨hheld, htlb⟩ := h e he
    simp [hheld, htlb]
  rw [Panel.flow, hnone]
  rfl

theorem Panel.booked_billReq (p : Panel) (r : Req) (pj : Nat → Nat) : p.Booked (p.billReq r pj) := by
  unfold Panel.billReq
  split
  · exact p.booked_bill ..
  · exact .refl p

/-- The slice without the fetch that has returned, the transfer counted for the launch that asked (R441). -/
def Panel.returning (p : Panel) (sc : Nat) (a : Access) (x : Part) : Panel :=
  let q := p.updSlice sc fun k => { k with mshr := k.mshr.erase ⟨x.line, [a.reqOf x]⟩ }
  q.billReq (a.reqOf x) fun _ => q.hbmPj (p.part (partOf p sc)) sc x.line 1

theorem Panel.sliced_returning (p : Panel) (sc : Nat) (a : Access) (x : Part) : p.Sliced (p.returning sc a x) :=
  (Panel.Sliced.updSlice ..).trans (.of_booked (Panel.booked_billReq ..))

theorem Panel.accs_returning (p : Panel) (sc : Nat) (a : Access) (x : Part) : (p.returning sc a x).accs = p.accs := (Panel.booked_billReq ..).accs

theorem Panel.slice_returning (p : Panel) (sc : Nat) (a : Access) (x : Part) :
    (p.returning sc a x).slice sc = { p.slice sc with mshr := (p.slice sc).mshr.erase ⟨x.line, [a.reqOf x]⟩ } :=
  ((Panel.booked_billReq ..).slice sc).trans (Panel.slice_updSlice_self ..)

/-- Under the frame's key the line is placed, and the request performed on it. -/
theorem Panel.finishFetch_match (p : Panel) (sc : Nat) (a : Access) (x : Part) (hkey : frameTag p.hbm (x.line / 1024) = x.key) :
    ∃ q, ((p.returning sc a x).placeLine (p.part (partOf p sc)) x.line x.key).Booked q ∧
      p.finishFetch sc ⟨x.line, [a.reqOf x]⟩ = q.performReq sc (a.reqOf x) := by
  simp only [Panel.finishFetch, Nat.one_ne_zero, if_false, hkey, List.any_cons, List.any_nil, Bool.or_false, Access.reqOf, beq_self_eq_true, if_true,
    Panel.performAll, List.foldl_cons, List.foldl_nil]
  refine ⟨_, ?_, rfl⟩
  split
  · exact .refl _
  · exact Panel.booked_billReq ..

/-- Under another nothing is placed, and the request gets an error response. -/
theorem Panel.finishFetch_mismatch (p : Panel) (sc : Nat) (a : Access) (x : Part) (hkey : frameTag p.hbm (x.line / 1024) ≠ x.key) :
    p.finishFetch sc ⟨x.line, [a.reqOf x]⟩ =
      ((p.returning sc a x).sliceError a.id 0x31).pfAgain (p.part (partOf p sc)) x.line (frameTag p.hbm (x.line / 1024)) := by
  have hne : (x.key == frameTag p.hbm (x.line / 1024)) = false := by simp [Ne.symm hkey]
  simp only [Panel.finishFetch, Nat.one_ne_zero, if_false, List.any_cons, List.any_nil, Bool.or_false, Access.reqOf, hne, Bool.false_eq_true,
    Panel.failAll, List.foldl_cons, List.foldl_nil, Panel.failReq]
  rfl

/-- A line placed in a free way of its set (R120). -/
theorem Panel.placeLine_free {p : Panel} {q : Partition} {line sc : Nat} (key : Nat) (hhome : homeSlice q line = sc) (hsoft : SMap.find p.hbm.soft line = none)
    (hfree : ∃ w, w < lineWays q ∧ ∀ x ∈ (p.slice sc).lines, x.set = homeSet q line → x.way ≠ w) :
    ∃ w, w < lineWays q ∧ p.placeLine q line key = p.putWay sc (homeSet q line) line key w := by
  obtain ⟨w0, hw0, hfree⟩ := hfree
  have hsound : p.hbmFind q line = p := by rw [Panel.hbmFind, Panel.hbmFindAt, hsoft]
  let free := fun w => ((p.slice sc).lines.filter fun l => l.set == homeSet q line && l.way < lineWays q).all fun l => l.way != w
  have hsome : ((List.range (lineWays q)).find? free).isSome = true := by
    rw [List.find?_isSome]
    refine ⟨w0, List.mem_range.mpr hw0, ?_⟩
    simp only [free, List.all_eq_true, List.mem_filter, Bool.and_eq_true, beq_iff_eq, bne_iff_ne]
    exact fun l hl => hfree l hl.1 hl.2.1
  obtain ⟨w, hw⟩ := Option.isSome_iff_exists.mp hsome
  refine ⟨w, List.mem_range.mp (List.mem_of_find?_eq_some hw), ?_⟩
  simp only [Panel.placeLine, hsound, hhome]
  rw [show (List.range (lineWays q)).find? _ = some w from hw]

theorem Panel.l2Find_putWay (p : Panel) (sc set line key way : Nat) (h : l2Find (p.slice sc) line = none) :
    l2Find ((p.putWay sc set line key way).slice sc) line = some ⟨line, set, hbmLine p.mem line, false, p.hbm.poison.contains line, key, way⟩ := by
  rw [l2Find] at h
  rw [Panel.putWay, Panel.slice_updSlice_self, l2Find, List.find?_append, h]
  simp

/-- A prefetch that asks again moves neither memory, nor an access, nor a line, nor a fetch under way. -/
structure Panel.AsksAgain (p q : Panel) : Prop where
  mem : q.mem = p.mem
  accs : q.accs = p.accs
  agenda : ∀ e ∈ p.agenda, e ∈ q.agenda
  slice : ∀ sc, (q.slice sc).lines = (p.slice sc).lines ∧ (q.slice sc).mshr = (p.slice sc).mshr

namespace Panel.AsksAgain

theorem refl (p : Panel) : p.AsksAgain p := ⟨rfl, rfl, fun _ h => h, fun _ => ⟨rfl, rfl⟩⟩

theorem trans {p q r : Panel} (h : p.AsksAgain q) (h' : q.AsksAgain r) : p.AsksAgain r :=
  ⟨h'.mem.trans h.mem, h'.accs.trans h.accs, fun e he => h'.agenda e (h.agenda e he),
    fun sc => ⟨(h'.slice sc).1.trans (h.slice sc).1, (h'.slice sc).2.trans (h.slice sc).2⟩⟩

theorem of_booked {p q : Panel} (h : p.Booked q) : p.AsksAgain q :=
  ⟨h.mem, h.accs, h.agenda, fun sc => by rw [h.slice]; exact ⟨rfl, rfl⟩⟩

theorem updSlice (p : Panel) (i : Nat) (f : Slice → Slice) (hf : ∀ k, (f k).lines = k.lines ∧ (f k).mshr = k.mshr) : p.AsksAgain (p.updSlice i f) := by
  refine ⟨rfl, rfl, fun _ h => h, fun sc => ?_⟩
  by_cases hi : i = sc
  · subst hi
    rw [Panel.slice_updSlice_self]
    exact hf _
  · rw [Panel.slice, Panel.updSlice, SMap.getD_set_other _ _ _ _ _ hi, Panel.slice]
    exact ⟨rfl, rfl⟩

theorem ask (p : Panel) (q : Partition) (from_ : Nat) (r : Req) : p.AsksAgain (p.ask q from_ r) := by
  refine trans ?_ (of_booked (Panel.booked_later ..))
  refine trans ?_ (updSlice _ _ _ fun _ => ⟨rfl, rfl⟩)
  exact of_booked (Panel.booked_billReq ..)

theorem updCore (p : Panel) (lc : Nat) (f : Core → Core) : p.AsksAgain (p.updCore lc f) := ⟨rfl, rfl, fun _ h => h, fun _ => ⟨rfl, rfl⟩⟩

theorem pfAgain (p : Panel) (q : Partition) (line key : Nat) : p.AsksAgain (p.pfAgain q line key) := by
  unfold Panel.pfAgain
  refine List.foldlRecOn (motive := fun r => p.AsksAgain r) _ _ (refl p) fun r hr e _ => hr.trans ?_
  exact (updCore r e.1 _).trans (ask ..)

end Panel.AsksAgain

theorem Panel.AnsweredIn.again {p q r : Panel} {id w : Nat} {ev : Instr} {ok : Access → Prop} (h : p.AnsweredIn id ev w ok q) (hr : q.AsksAgain r) :
    p.AnsweredIn id ev w ok r := by
  obtain ⟨y, hacc, hdue, hmem, hok⟩ := h
  refine ⟨y, ?_, hr.agenda _ hdue, hr.mem.trans hmem, hok⟩
  rw [Panel.acc, hr.accs]
  exact hacc

/-- The line that a fetch brings, clean and sound in a way of its set. -/
def Panel.brought (p : Panel) (sc : Nat) (x : Part) (w : Nat) : L2Line :=
  ⟨x.line, homeSet (p.part (partOf p sc)) x.line, hbmLine p.mem x.line, false, false, x.key, w⟩

/-- A load whose fetch returns under its key: its line is in a free way, and it has read its bytes of it. -/
theorem hbmFillReturn_places {s : State} {sc : Nat} {a : Access} {x : Part} (hev : s.panel.ev = [sc, x.line]) (h : s.panel.Fetched sc a x)
    (hkind : a.kind = .load) (hsettled : s.panel.Settled) (hkey : frameTag s.panel.hbm (x.line / 1024) = x.key)
    (hhome : homeSlice (s.panel.part (partOf s.panel sc)) x.line = sc) (hsoft : SMap.find s.panel.hbm.soft x.line = none) (hpoison : x.line ∉ s.panel.hbm.poison)
    (hfree : ∃ w, w < lineWays (s.panel.part (partOf s.panel sc)) ∧
      ∀ l ∈ (s.panel.slice sc).lines, l.set = homeSet (s.panel.part (partOf s.panel sc)) x.line → l.way ≠ w) :
    ∃ t, exec .hbmFillReturn s = s.to t ∧ s.panel.AnsweredIn a.id .loadResponse (10 + 2 * s.panel.sliceHops a)
      (fun y => y.stage = .performed ∧ y.got = bf (hbmLine s.panel.mem x.line).toNat (8 * (x.off + x.len) - 1) (8 * x.off)) t ∧ (t.slice sc).mshr = [] ∧
      ∃ w, w < lineWays (s.panel.part (partOf s.panel sc)) ∧ l2Find (t.slice sc) x.line = some (s.panel.brought sc x w) := by
  let back := s.panel.returning sc a x
  have hback : s.panel.Sliced back := Panel.sliced_returning ..
  have hslice : back.slice sc = { s.panel.slice sc with mshr := [] } := by
    rw [Panel.slice_returning, h.mshr, List.erase_cons_head]
  obtain ⟨w, hw, hplace⟩ := Panel.placeLine_free (p := back) x.key hhome (by rw [hback.hbm]; exact hsoft) (by rw [hslice]; exact hfree)
  obtain ⟨r, hr, hfinish⟩ := Panel.finishFetch_match s.panel sc a x hkey
  rw [hplace] at hr
  have hclean : s.panel.hbm.poison.contains x.line = false := by simpa using hpoison
  have hfind := Panel.l2Find_putWay back sc (homeSet (s.panel.part (partOf s.panel sc)) x.line) x.line x.key w (by rw [hslice]; exact h.absent)
  rw [← hr.slice, hback.hbm, hback.mem, hclean] at hfind
  change _ = some (s.panel.brought sc x w) at hfind
  have hplaced : s.panel.Sliced r := (hback.trans (Panel.Sliced.updSlice ..)).trans (.of_booked hr)
  have haccs : r.accs = s.panel.accs := hr.accs.trans (Panel.accs_returning ..)
  have hacc : r.acc a.id = some a := by
    rw [Panel.acc, haccs]
    exact h.acc
  have hun : r.Unawaited a.id := by
    rw [Panel.Unawaited, haccs]
    exact h.unawaited
  have hkinds : (a.kind, Instr.loadResponse) ∈ lineKinds := by simp [lineKinds, hkind]
  have hput (l : L2Line) : r.linePut sc a x l = r := by simp only [Panel.linePut, hkind]
  obtain ⟨hdone, hslices, hstill⟩ := Panel.partDone_answers (s.panel.brought sc x w) hacc hun h.one hkinds
  have hpump := Panel.booked_slicePump (r.partDone a x (s.panel.brought sc x w)) sc
  have hend := ((hstill (hsettled.of_accs haccs)).of_accs hpump.accs).flow
  have hsame : r.slice sc = ((back.putWay sc (homeSet (s.panel.part (partOf s.panel sc)) x.line) x.line x.key w).slice sc) := hr.slice sc
  have hexec := exec_hbmFillReturn_lone hev h
  rw [hfinish, Panel.performReq_acc h.region hfind, Panel.performPart_one sc hacc h.one hkinds rfl rfl (by rw [hput]; exact hacc), hput, hend] at hexec
  refine ⟨_, hexec, (hdone.after hplaced).booked hpump, ?_, w, hw, ?_⟩
  all_goals rw [hpump.slice, Panel.slice, hslices, ← Panel.slice]
  · rw [hsame, Panel.putWay, Panel.slice_updSlice_self, hslice]
  · exact hfind

/-- Under another key the load gets KEY_MISMATCH, and the slice's lines are as they were. -/
theorem hbmFillReturn_mismatch {s : State} {sc : Nat} {a : Access} {x : Part} (hev : s.panel.ev = [sc, x.line]) (h : s.panel.Fetched sc a x)
    (hsettled : s.panel.Settled) (hkey : frameTag s.panel.hbm (x.line / 1024) ≠ x.key) :
    ∃ t, exec .hbmFillReturn s = s.to t ∧ s.panel.AnsweredIn a.id .errorResponse (10 + 2 * s.panel.sliceHops a)
      (fun y => y.stage = .error ∧ y.err = 0x31) t ∧ (t.slice sc).mshr = [] ∧ (t.slice sc).lines = (s.panel.slice sc).lines := by
  let back := s.panel.returning sc a x
  have hslice : back.slice sc = { s.panel.slice sc with mshr := [] } := by
    rw [Panel.slice_returning, h.mshr, List.erase_cons_head]
  have haccs : back.accs = s.panel.accs := Panel.accs_returning ..
  have hacc : back.acc a.id = some a := by
    rw [Panel.acc, haccs]
    exact h.acc
  have hun : back.Unawaited a.id := by
    rw [Panel.Unawaited, haccs]
    exact h.unawaited
  obtain ⟨hdone, hslices, hstill⟩ := Panel.sliceError_answers 0x31 hacc hun
  have hsame : (back.sliceError a.id 0x31).slice sc = { s.panel.slice sc with mshr := [] } := by
    rw [Panel.slice, hslices, ← Panel.slice, hslice]
  let again := (back.sliceError a.id 0x31).pfAgain (s.panel.part (partOf s.panel sc)) x.line (frameTag s.panel.hbm (x.line / 1024))
  have hagain : (back.sliceError a.id 0x31).AsksAgain again := .pfAgain ..
  have hpump := Panel.booked_slicePump again sc
  have hend := ((hstill (hsettled.of_accs haccs)).of_accs (hpump.accs.trans hagain.accs)).flow
  have hexec := exec_hbmFillReturn_lone hev h
  rw [Panel.finishFetch_mismatch _ _ _ _ hkey, hend] at hexec
  refine ⟨_, hexec, ((hdone.after (Panel.sliced_returning ..)).again hagain).booked hpump, ?_, ?_⟩
  all_goals rw [hpump.slice]
  · rw [(hagain.slice sc).2, hsame]
  · rw [(hagain.slice sc).1, hsame]

/-- The statement's shape of an answered access. -/
theorem Panel.AnsweredIn.ends {s : State} {t : Panel} {i ev : Instr} {id w : Nat} {ok : Access → Prop} {fine : State → Access → Prop} (hexec : exec i s = s.to t)
    (h : s.panel.AnsweredIn id ev w ok t) (hfine : ∀ y, ok y → fine { s with panel := t } y) :
    ∃ t y, exec i s = .next t ∧ t.panel.acc id = some y ∧ (s.panel.now + w, ev, [id]) ∈ t.panel.agenda ∧ t.panel.mem = s.panel.mem ∧ fine t y := by
  obtain ⟨y, hacc, hdue, hmem, hok⟩ := h
  exact ⟨_, y, hexec, hacc, hdue, hmem, hfine y hok⟩

/-- Settles O34, by what an access of one part does on its line (`performPart_one`), which each hit and the fetch that returns come down to. -/
theorem sliceEvents : Obligations.SliceEvents := by
  unfold Obligations.SliceEvents
  intro s sc id line off n key attr a l p k r bytes ends hacc hid hparts herr hgot hfill hlen hun hregion hroute hwatch htag hsoft hvc
  subst hid
  have hone : a.OnePart ⟨line, off, n, 0, key, false, attr⟩ := ⟨hparts, rfl, hlen, herr, hgot, hfill⟩
  have hwaits : p.Waits sc a ⟨line, off, n, 0, key, false, attr⟩ := ⟨hacc, hone, hun, hregion, htag, hsoft, hvc⟩
  refine ⟨fun hev hing hmshr => ?_, fun hev hing hmshr habsent hkind hsettled => ?_⟩
  · have hreq : p.Requested sc a ⟨line, off, n, 0, key, false, attr⟩ := ⟨hwaits, hing, hmshr⟩
    refine ⟨fun hfind hkey hpoison => ?_, fun hfind hkey hpoison hkind => ?_, fun hfind hkey => ?_, fun hfind => ?_⟩
    · have hl : l.line = line := l2Find_line hfind
      refine ⟨fun hkind => ?_, fun hkind => ?_, fun v hkind hnew => ?_⟩
      · obtain ⟨t, hexec, hans, hline⟩ := sliceRequest_performs hev hreq hfind hkey hpoison (ev := .storeAcknowledgement) (by simp [lineKinds, hkind])
          (l' := { l with data := lineWrite l.data off n a.data, dirty := true }) rfl fun q hq hacc hun hheld => by
            simp only [Panel.linePut, hkind]
            exact Panel.linePut_setLine _ hacc hun (by rw [hq.routeLine, hl]; exact hroute) (by rw [hq.watched, hl]; exact hwatch) hheld hpoison
        exact hans.ends hexec fun y hy => ⟨hy.1, hline⟩
      · obtain ⟨t, hexec, hans, hline⟩ := sliceRequest_performs hev hreq hfind hkey hpoison (ev := .loadResponse) (by simp [lineKinds, hkind])
          (l' := l) rfl fun q hq hacc hun hheld => by
            simp only [Panel.linePut, hkind]
            exact ⟨.refl q, hacc, hun, hheld⟩
        exact hans.ends hexec fun y hy => ⟨hy.1, hy.2, hline⟩
      · obtain ⟨t, hexec, hans, hline⟩ := sliceRequest_performs hev hreq hfind hkey hpoison (ev := .loadResponse) (by simp [lineKinds, hkind])
          (l' := { l with data := lineWrite l.data off n v, dirty := true }) rfl fun q hq hacc hun hheld => by
            simp only [Panel.linePut, hkind]
            rw [show amoNew a.op a.wide a.rnd _ _ _ = some v from hnew]
            exact (Panel.linePut_setLine _ hacc hun (by rw [hq.routeLine, hl]; exact hroute) (by rw [hq.watched, hl]; exact hwatch) hheld hpoison).dropCopies
              hfill ..
        exact hans.ends hexec fun y hy => ⟨hy.1, hy.2, hline⟩
    · obtain ⟨t, hexec, hans, hline⟩ := sliceRequest_fails hev hreq hfind fun q hacc => Panel.performPart_poison sc hacc hparts hkey hpoison hkind
      exact hans.ends hexec fun y hy => ⟨hy.1, hy.2, hline⟩
    · obtain ⟨t, hexec, hans, hline⟩ := sliceRequest_fails hev hreq hfind fun q hacc => Panel.performPart_badKey sc hacc hparts hkey
      exact hans.ends hexec fun y hy => ⟨hy.1, hy.2, hline⟩
    · obtain ⟨t, hexec, hfetch⟩ := sliceRequest_misses hev hreq hfind
      exact ⟨_, hexec, hfetch⟩
  · have hfetched : p.Fetched sc a ⟨line, off, n, 0, key, false, attr⟩ := ⟨hwaits, hmshr, habsent⟩
    refine ⟨fun hkey hhome hsound hclean hfree => ?_, fun hkey => ?_⟩
    · obtain ⟨t, hexec, hans, hrest⟩ := hbmFillReturn_places hev hfetched hkind hsettled hkey hhome hsound hclean hfree
      exact hans.ends hexec fun y hy => ⟨hy.1, hy.2, hrest⟩
    · obtain ⟨t, hexec, hans, hrest⟩ := hbmFillReturn_mismatch hev hfetched hsettled hkey
      exact hans.ends hexec fun y hy => ⟨hy.1, hy.2, hrest⟩

end Sys2Proof.Machine
end

section
/-! Requests of the host mailbox (R136, R493, R499, R500, R513-R518): how a request reaches its owner, and the response that every one of them gets. -/

namespace Sys2Proof.Machine

/-! ### Endpoints -/

/-- The module with an endpoint changed. -/
def State.withEp (s : State) (i : Nat) (g : Endpoint → Endpoint) : State := { s with front := s.front.updEp i g }

@[simp] theorem State.withEp_ep (s : State) (i : Nat) (g : Endpoint → Endpoint) : (s.withEp i g).front.ep i = g (s.front.ep i) := Front.ep_updEp_self ..

@[simp] theorem State.withEp_panel (s : State) (i : Nat) (g : Endpoint → Endpoint) : (s.withEp i g).panel = s.panel := rfl

@[simp] theorem State.withEp_lmsUsed (s : State) (i : Nat) (g : Endpoint → Endpoint) : (s.withEp i g).front.lmsUsed = s.front.lmsUsed := rfl

@[simp] theorem State.withEp_counter (s : State) (i : Nat) (g : Endpoint → Endpoint) : (s.withEp i g).front.counter = s.front.counter := rfl

@[simp] theorem State.withEp_version (s : State) (i : Nat) (g : Endpoint → Endpoint) : (s.withEp i g).front.version = s.front.version := rfl

@[simp] theorem State.withEp_assigned (s : State) (i : Nat) (g : Endpoint → Endpoint) : (s.withEp i g).front.assigned = s.front.assigned := rfl

@[simp] theorem State.withEp_attestBody (s : State) (i : Nat) (g : Endpoint → Endpoint) (nonce : Nat) :
    attestBody (s.withEp i g).front nonce = attestBody s.front nonce := rfl

/-- A request ring without its first entry; the report ring is as it was. -/
structure Endpoint.Took (e e' : Endpoint) : Prop where
  rqHead : e'.rqHead = (e.rqHead + 1) % 16
  rpTail : e'.rpTail = e.rpTail
  rpSeq : e'.rpSeq = e.rpSeq
  held : e'.held = e.held
  room : e'.room = e.room

theorem Endpoint.took_took (e : Endpoint) : e.Took e.took := ⟨rfl, rfl, rfl, rfl, rfl⟩

/-- An entry put into an empty ring, and taken. -/
theorem Endpoint.putReq_took {e : Endpoint} (typ maj : Nat) (fs : List (Nat × Nat × Nat)) (hempty : e.rqTail = e.rqHead) : e.Took (e.putReq typ maj fs).took := by
  have hroom : ¬ (e.rqTail + 1) % 16 = e.rqHead := by omega
  rw [Endpoint.putReq, if_neg hroom]
  exact ⟨rfl, rfl, rfl, rfl, rfl⟩

theorem Endpoint.version_lt (e : Endpoint) : e.version < 256 := by
  unfold Endpoint.version
  split
  · omega
  · omega

/-! ### Reports of one endpoint (R513) -/

/-- The response of a request written into the next slot of its endpoint's report ring. -/
def State.replied (t : State) (i rid typ status n : Nat) : State :=
  { t with
    front := t.front.updEp i fun e => e.put ⟨i, 0x8000, [rid, typ, status, n]⟩
    panel := { t.panel with reports := [], outbox := t.panel.outbox ++ [.msix i 1] } }

/-- What the host finds of it: its entry, and a free slot of the request ring. -/
def State.Posted (s : State) (i rid typ status n : Nat) (t : State) : Prop :=
  SMap.find (t.front.ep i).ring (s.front.ep i).rpTail = some (0x8000, (s.front.ep i).rpSeq, [rid, typ, status, n]) ∧
    (t.front.ep i).rpTail = ((s.front.ep i).rpTail + 1) % 16 ∧ (t.front.ep i).rqHead = ((s.front.ep i).rqHead + 1) % 16 ∧ Out.msix i 1 ∈ t.panel.outbox

theorem State.posted_replied {s t : State} {i : Nat} (rid typ status n : Nat) (h : (s.front.ep i).Took (t.front.ep i)) :
    s.Posted i rid typ status n (t.replied i rid typ status n) := by
  have hep : (t.replied i rid typ status n).front.ep i = (t.front.ep i).put ⟨i, 0x8000, [rid, typ, status, n]⟩ := Front.ep_updEp_self ..
  rw [State.Posted, hep, Endpoint.put, ← h.rpTail, ← h.rpSeq, ← h.rqHead]
  exact ⟨SMap.find_set_self .., rfl, rfl, List.mem_append_right _ (List.mem_singleton_self _)⟩

theorem State.pump_replied {t : State} {i : Nat} (rid typ status n : Nat) (hi : i < 2) (hready : t.front.ready = true) (hreports : t.panel.reports = [])
    (hheld : (t.front.ep i).held = []) (hroom : (t.front.ep i).room = true) :
    ({ t with panel := t.panel.report i 0x8000 [rid, typ, status, n] } : State).pump = t.replied i rid typ status n := by
  have hboth : i ≠ 2 := by omega
  have hfront : Front.ep t.front i = t.front.ep i := rfl
  simp [State.pump, Panel.report, hready, hreports, hboth, State.postOne, hheld, hroom, State.replied]

theorem State.postOne_outbox (s : State) (i : Nat) (r : Report) : ∀ m ∈ s.panel.outbox, m ∈ (s.postOne i r).panel.outbox := by
  intro m hm
  unfold State.postOne
  dsimp only
  split
  · exact List.mem_append_left _ hm
  · split
    · exact hm
    · exact hm

/-- What goes out of the module is not taken back by the posting of reports. -/
theorem State.pump_outbox (s : State) : ∀ m ∈ s.panel.outbox, m ∈ s.pump.panel.outbox := by
  intro m hm
  unfold State.pump
  split
  · exact hm
  · refine List.foldlRecOn (motive := fun t : State => m ∈ t.panel.outbox) _ _ hm fun t ht r _ => ?_
    split
    · exact State.postOne_outbox _ _ _ m (State.postOne_outbox _ _ _ m ht)
    · exact State.postOne_outbox _ _ _ m ht

/-! ### Requests before their owner (R513) -/

/-- A trained endpoint of a module that is ready, with a free slot in its report ring and no report that waits. -/
structure State.Answers (s : State) (i : Nat) : Prop where
  ok : s.hostOk i = true
  reports : s.panel.reports = []
  held : (s.front.ep i).held = []
  room : (s.front.ep i).room = true

theorem State.hostOk_iff (s : State) (i : Nat) : s.hostOk i = true ↔ s.front.ready = true ∧ i < 2 ∧ (s.front.ep i).width ≠ 0 := by
  simp [State.hostOk, and_assoc]

theorem State.Answers.lt {s : State} {i : Nat} (h : s.Answers i) : i < 2 := ((s.hostOk_iff i).mp h.ok).2.1

/-- A host's request that finds no other before it is taken as it comes. -/
theorem State.takeReq_lone {s : State} {i : Nat} (typ maj : Nat) (fs : List (Nat × Nat × Nat)) (k : State → State) (hok : s.hostOk i = true)
    (harg : s.panel.arg 0 = i) (hempty : (s.front.ep i).rqTail = (s.front.ep i).rqHead) :
    s.takeReq typ maj fs k = k (s.withEp i fun e => (e.putReq typ maj fs).took) := by
  obtain ⟨-, hi, -⟩ := (s.hostOk_iff i).mp hok
  have hfour : ¬ 4 ≤ i := by omega
  have htwo : ¬ 2 ≤ i := by omega
  simp [State.takeReq, harg, Nat.mod_eq_of_lt hi, hok, hfour, htwo, hempty, State.withEp]

/-- Behind others it is put into the ring. -/
theorem State.takeReq_behind {s : State} {i : Nat} (typ maj : Nat) (fs : List (Nat × Nat × Nat)) (k : State → State) (hok : s.hostOk i = true)
    (harg : s.panel.arg 0 = i) (hbehind : (s.front.ep i).rqTail ≠ (s.front.ep i).rqHead) : s.takeReq typ maj fs k = s.withEp i fun e => e.putReq typ maj fs := by
  obtain ⟨-, hi, -⟩ := (s.hostOk_iff i).mp hok
  have hfour : ¬ 4 ≤ i := by omega
  have htwo : ¬ 2 ≤ i := by omega
  simp [State.takeReq, harg, Nat.mod_eq_of_lt hi, hok, hfour, htwo, hbehind, State.withEp]

/-- An Ouvpin core takes the entry at RQHEAD where it is the one that it looks for, and the next entry comes before its owner. -/
theorem State.takeReq_ring {s : State} {i : Nat} (typ maj : Nat) (fs : List (Nat × Nat × Nat)) (k : State → State) (hok : s.hostOk i = true)
    (harg : s.panel.arg 0 = i + 2) :
    s.takeReq typ maj fs k = if (s.front.ep i).rqTail ≠ (s.front.ep i).rqHead ∧ (s.front.ep i).headIs typ maj fs then (k (s.withEp i Endpoint.took)).ringNext i
      else s := by
  obtain ⟨-, hi, -⟩ := (s.hostOk_iff i).mp hok
  have hfour : ¬ 4 ≤ i + 2 := by omega
  simp [State.takeReq, harg, Nat.add_mod_right, Nat.mod_eq_of_lt hi, hok, hfour, State.withEp]

/-- What the effect of a request leaves to its response: the endpoints, READY, and no report that waits. -/
structure State.Serves (t u : State) : Prop where
  eps : u.front.eps = t.front.eps
  ready : u.front.ready = t.front.ready
  reports : u.panel.reports = []

/-- The effect of a request with a response behind it. -/
theorem State.Answers.pump {s u : State} {i : Nat} {g : Endpoint → Endpoint} (rid typ status n : Nat) (h : s.Answers i)
    (htook : (s.front.ep i).Took (g (s.front.ep i))) (hserves : (s.withEp i g).Serves u) :
    ({ u with panel := u.panel.report i 0x8000 [rid, typ, status, n] } : State).pump = u.replied i rid typ status n ∧
      s.Posted i rid typ status n (u.replied i rid typ status n) := by
  have hep : u.front.ep i = g (s.front.ep i) := by rw [Front.ep, hserves.eps, ← Front.ep, State.withEp_ep]
  rw [← hep] at htook
  have hready : u.front.ready = true := hserves.ready.trans ((s.hostOk_iff i).mp h.ok).1
  exact ⟨State.pump_replied rid typ status n h.lt hready hserves.reports (htook.held.trans h.held) (htook.room.trans h.room),
    State.posted_replied rid typ status n htook⟩

/-- A request put into its ring and taken. -/
def enter (typ maj rid : Nat) (ev : List Nat) (e : Endpoint) : Endpoint := (e.putReq typ maj ((4, 2, rid) :: fieldsAt (requestPlaces typ) (ev.drop 2))).took

/-- What a request's owner makes of it, with the response behind it. -/
def State.answered (r : State × Nat × Nat) (i rid typ : Nat) : State :=
  ({ r.1 with panel := r.1.panel.report i 0x8000 [rid, typ, r.2.1, r.2.2] } : State).pump

/-- A request that is alone in its ring, of the agreed version. -/
theorem State.request_lone {s : State} {i rid n : Nat} {ops : List Nat} (typ : Nat) (k : State → State × Nat × Nat) (hok : s.hostOk i = true)
    (hempty : (s.front.ep i).rqTail = (s.front.ep i).rqHead) (hev : s.panel.ev = i :: rid :: ops) (hlen : ops.length + 2 ≤ n) :
    s.request typ n k = State.answered (k (s.withEp i (enter typ ((s.front.ep i).version / 16) rid s.panel.ev))) i rid typ := by
  have harg0 : s.panel.arg 0 = i := by simp [Panel.arg, hev]
  have harg1 : s.panel.arg 1 = rid := by simp [Panel.arg, hev]
  have hagreed : s.panel.ev.length ≤ n := by rw [hev]; exact hlen
  obtain ⟨-, hi, -⟩ := (s.hostOk_iff i).mp hok
  rw [State.request, harg0, harg1, Nat.mod_eq_of_lt hi, State.takeReq_lone typ _ _ _ hok harg0 hempty, if_pos hagreed]
  simp only [if_true]
  rfl

/-- A request has its effect, and its response is posted. -/
def State.Said (s : State) (i rid : Nat) (x : Instr) (typ status n : Nat) (ok : State → Prop) : Prop :=
  ∃ t, exec x s = .next t ∧ ok t ∧ s.Posted i rid typ status n t

/-- The module but for the mailbox is as it was. -/
def State.Kept (s : State) (i : Nat) (t : State) : Prop :=
  t.panel = { s.panel with outbox := s.panel.outbox ++ [.msix i 1] } ∧ t.front.lmsUsed = s.front.lmsUsed ∧ t.front.counter = s.front.counter ∧
    t.front.assigned = s.front.assigned ∧ t.front.dma = s.front.dma

theorem State.kept_replied {s : State} {i : Nat} (g : Endpoint → Endpoint) (rid typ status n : Nat) (hreports : s.panel.reports = []) :
    s.Kept i ((s.withEp i g).replied i rid typ status n) :=
  ⟨congrArg (fun r => ({ s.panel with reports := r, outbox := s.panel.outbox ++ [.msix i 1] } : Panel)) hreports.symm, rfl, rfl, rfl, rfl⟩

/-- A request that is alone in its ring, of the agreed version: what its owner makes of it is posted. -/
theorem State.Answers.said {s : State} {i rid typ status n len : Nat} {ops : List Nat} {k : State → State × Nat × Nat} {x : Instr} {ok : State → Prop}
    (h : s.Answers i) (hempty : (s.front.ep i).rqTail = (s.front.ep i).rqHead) (hev : s.panel.ev = i :: rid :: ops) (hlen : ops.length + 2 ≤ n)
    (hexec : exec x s = .next (s.request typ n k))
    (hk : ∀ g, ∃ u, k (s.withEp i g) = (u, status, len) ∧ (s.withEp i g).Serves u ∧ ok (u.replied i rid typ status len)) : s.Said i rid x typ status len ok := by
  obtain ⟨u, hu, hserves, hok⟩ := hk (enter typ ((s.front.ep i).version / 16) rid s.panel.ev)
  obtain ⟨hpump, hposted⟩ := h.pump rid typ status len (Endpoint.putReq_took _ _ _ hempty) hserves
  refine ⟨_, ?_, hok, hposted⟩
  rw [hexec, State.request_lone typ k h.ok hempty hev hlen, hu]
  exact congrArg _ hpump

/-- A request refused: nothing but its response. -/
theorem State.Answers.refused {s : State} {i rid typ status n : Nat} {ops : List Nat} {k : State → State × Nat × Nat} {x : Instr} (h : s.Answers i)
    (hempty : (s.front.ep i).rqTail = (s.front.ep i).rqHead) (hev : s.panel.ev = i :: rid :: ops) (hlen : ops.length + 2 ≤ n)
    (hexec : exec x s = .next (s.request typ n k)) (hk : ∀ g, k (s.withEp i g) = (s.withEp i g, status, 0)) : s.Said i rid x typ status 0 (s.Kept i) :=
  h.said hempty hev hlen hexec fun g => ⟨_, hk g, ⟨rfl, rfl, h.reports⟩, State.kept_replied g rid typ status 0 h.reports⟩

/-- A request of another major version is refused with STATUS 1 (R500). -/
theorem State.Answers.otherVersion {s : State} {i rid typ maj n : Nat} {ops : List Nat} {k : State → State × Nat × Nat} {x : Instr} (h : s.Answers i)
    (hempty : (s.front.ep i).rqTail = (s.front.ep i).rqHead) (hev : s.panel.ev = i :: rid :: ops) (hlen : n < ops.length + 2) (hmaj : s.panel.arg n = maj)
    (hother : maj ≠ (s.front.ep i).version / 16) (hexec : exec x s = .next (s.request typ n k)) : s.Said i rid x typ 1 0 (s.Kept i) := by
  have harg0 : s.panel.arg 0 = i := by simp [Panel.arg, hev]
  have harg1 : s.panel.arg 1 = rid := by simp [Panel.arg, hev]
  have hlong : ¬ s.panel.ev.length ≤ n := by rw [hev]; exact Nat.not_le.mpr hlen
  obtain ⟨hpump, hposted⟩ := h.pump (g := enter typ maj rid s.panel.ev) rid typ 1 0 (Endpoint.putReq_took _ _ _ hempty) ⟨rfl, rfl, h.reports⟩
  refine ⟨_, ?_, State.kept_replied _ rid typ 1 0 h.reports, hposted⟩
  rw [hexec, State.request, harg0, harg1, Nat.mod_eq_of_lt h.lt, State.takeReq_lone typ _ _ _ h.ok harg0 hempty, if_neg hlong, hmaj, if_neg hother]
  exact congrArg _ hpump

/-! ### Each request (R136, R493, R496, R514-R518) -/

/-- A type that R514 does not give is refused with STATUS 2. -/
theorem exec_reserved_request (s : State) {typ : Nat} (harg : s.panel.arg 2 = typ) (htyp : typ < 0x100 ∨ 0x108 < typ) (hlen : s.panel.ev.length ≠ 5) :
    exec .reservedMailboxRequest s = .next (s.request typ 3 fun t => (t, 2, 0)) := by
  have hnone : ¬ (0x100 ≤ typ ∧ typ ≤ 0x108) := by omega
  show execReservedMailboxRequest s = _
  simp [execReservedMailboxRequest, harg, hnone, hlen]

/-- The host's first entry is its offer (R499, R500). -/
theorem exec_offer {s : State} {i rid maj o : Nat} (hok : s.hostOk i = true) (hempty : (s.front.ep i).rqTail = (s.front.ep i).rqHead)
    (hev : s.panel.ev = [i, rid, 0, maj, o]) (hfirst : (s.front.ep i).rqCount = 0) :
    exec .reservedMailboxRequest s =
      .next ((s.withEp i fun e => (e.putReq 0 maj [(4, 8, o)]).took).withEp i fun e => { e with agreed := agreeOn ownOffer o }) := by
  have harg0 : s.panel.arg 0 = i := by simp [Panel.arg, hev]
  obtain ⟨-, hi, -⟩ := (s.hostOk_iff i).mp hok
  show execReservedMailboxRequest s = _
  simp [execReservedMailboxRequest, Panel.arg, hev, State.offer, Nat.mod_eq_of_lt hi, hfirst, State.takeReq_lone _ _ _ _ hok harg0 hempty]
  rfl

theorem State.toBuffer_short (t : State) (ep buf : Nat) {len : Nat} {bs : List Byte} (h : len < bs.length) : t.toBuffer ep buf len bs = (t, 2, 0) := if_pos h

theorem State.toBuffer_fits (t : State) (ep buf : Nat) {len : Nat} {bs : List Byte} (h : bs.length ≤ len) :
    t.toBuffer ep buf len bs = ({ t with front := { t.front with dma := t.front.dma ++ [(ep, buf, bs)] } }, 0, bs.length) := if_neg (Nat.not_lt.mpr h)

/-- The attestation report with both signatures. -/
def attestReport (f : Front) (nonce : Nat) : List Byte :=
  attestBody f nonce ++ Config.ecdsa (attestBody f nonce) ++ Config.lms f.lmsUsed (attestBody f nonce ++ Config.ecdsa (attestBody f nonce))

theorem State.setKey_serves {t : State} (k : Nat) (x : Option KeySlot) (h : t.panel.reports = []) : t.Serves { t with panel := t.panel.setKey k x } := ⟨rfl, rfl, h⟩

/-- The reset of a halted partition that holds no queue, with no launch and no block of the panel, takes its halt line down (R470). -/
theorem Panel.resetPart_idle (p : Panel) (pi : Nat) (hqueues : (p.part pi).queues = []) (hlaunches : p.launches = []) (hblocks : p.blocks = []) :
    p.resetPart pi = p.lineDown pi := by
  simp [Panel.resetPart, hqueues, hlaunches, hblocks]

/-- A set of one shard that is present has its descriptor written, and WB_DONE is posted (R495, R496). -/
theorem Panel.planEnd_writes {p z : Panel} {x : Plan} (hopen : x.ended = false) (hall : x.nshard ≤ x.present.length) (hmissing : x.missing = [])
    (hwrite : p.frontWrite x.part x.asid true x.descva 64 x.desc = .ok 0 z) :
    (p.planEnd x).outbox = z.outbox := by
  have hpresent : ¬ x.present.length + 0 < x.nshard := by omega
  simp only [Panel.planEnd, hopen, hmissing, hpresent, hwrite, List.length_nil, Bool.false_eq_true, or_self, if_false, ne_eq, not_true_eq_false]
  rfl

/-- Only a partition of the panel has a halt line. -/
theorem Panel.isSome_of_halt {p : Panel} {pi : Nat} (h : (p.part pi).halt = true) : (SMap.find p.parts pi).isSome = true := by
  cases hfind : SMap.find p.parts pi with
  | some q => rfl
  | none =>
    rw [Panel.part, SMap.getD, hfind] at h
    exact absurd h Bool.false_ne_true

section
variable {s : State} {i rid : Nat} (h : s.Answers i) (hempty : (s.front.ep i).rqTail = (s.front.ep i).rqHead)
include h hempty

theorem reserved_refused {typ : Nat} (hev : s.panel.ev = [i, rid, typ]) (htyp : typ < 0x100 ∨ 0x108 < typ) :
    s.Said i rid .reservedMailboxRequest typ 2 0 (s.Kept i) :=
  h.refused hempty hev le_rfl (exec_reserved_request s (by simp [Panel.arg, hev]) htyp (by simp [hev])) fun g => rfl

theorem reserved_otherVersion {typ maj : Nat} (hev : s.panel.ev = [i, rid, typ, maj]) (htyp : typ < 0x100 ∨ 0x108 < typ)
    (hmaj : maj ≠ (s.front.ep i).version / 16) : s.Said i rid .reservedMailboxRequest typ 1 0 (s.Kept i) :=
  h.otherVersion hempty hev (Nat.lt_succ_self _) (by simp [Panel.arg, hev]) hmaj
    (exec_reserved_request s (by simp [Panel.arg, hev]) htyp (by simp [hev]))

theorem attest_said {nonce buf len : Nat} (hev : s.panel.ev = [i, rid, nonce, buf, len]) :
    (2 ^ 30 ≤ s.front.lmsUsed → s.Said i rid .attest 0x100 3 0 (s.Kept i)) ∧
    (s.front.lmsUsed < 2 ^ 30 → len < (attestReport s.front nonce).length → s.Said i rid .attest 0x100 2 0 (s.Kept i)) ∧
    (s.front.lmsUsed < 2 ^ 30 → (attestReport s.front nonce).length ≤ len → s.Said i rid .attest 0x100 0 (attestReport s.front nonce).length fun t =>
      t.front.lmsUsed = s.front.lmsUsed + 1 ∧ t.front.dma = s.front.dma ++ [(i, buf, attestReport s.front nonce)]) := by
  have harg0 : s.panel.arg 0 % 2 = i := by simp [Panel.arg, hev, Nat.mod_eq_of_lt h.lt]
  have harg2 : s.panel.arg 2 = nonce := by simp [Panel.arg, hev]
  have harg3 : s.panel.arg 3 = buf := by simp [Panel.arg, hev]
  have harg4 : s.panel.arg 4 = len := by simp [Panel.arg, hev]
  refine ⟨fun hused => ?_, fun hleft hshort => ?_, fun hleft hfits => ?_⟩
  · exact h.refused hempty hev (n := 5) le_rfl rfl fun g => if_pos hused
  · refine h.refused hempty hev (n := 5) le_rfl rfl fun g => (if_neg (Nat.not_le.mpr hleft)).trans ?_
    unfold attestReport at hshort
    simp only [harg2, harg4, State.withEp_attestBody, State.withEp_lmsUsed, State.toBuffer_short _ _ _ hshort]
    rfl
  · refine h.said hempty hev (n := 5) le_rfl rfl fun g => ?_
    unfold attestReport at hfits
    simp only [harg0, harg2, harg3, harg4, State.withEp_attestBody, State.withEp_lmsUsed, State.toBuffer_fits _ _ _ hfits, if_neg (Nat.not_le.mpr hleft), if_true]
    exact ⟨_, rfl, ⟨rfl, rfl, h.reports⟩, rfl, rfl⟩

theorem pubkey_said {buf len : Nat} (hev : s.panel.ev = [i, rid, buf, len]) :
    (len < Config.publicKeys.length → s.Said i rid .pubkey 0x101 2 0 (s.Kept i)) ∧
    (Config.publicKeys.length ≤ len → s.Said i rid .pubkey 0x101 0 Config.publicKeys.length fun t =>
      t.front.dma = s.front.dma ++ [(i, buf, Config.publicKeys)]) := by
  have harg0 : s.panel.arg 0 % 2 = i := by simp [Panel.arg, hev, Nat.mod_eq_of_lt h.lt]
  have harg2 : s.panel.arg 2 = buf := by simp [Panel.arg, hev]
  have harg3 : s.panel.arg 3 = len := by simp [Panel.arg, hev]
  refine ⟨fun hshort => ?_, fun hfits => ?_⟩
  · refine h.refused hempty hev (n := 4) le_rfl rfl fun g => ?_
    rw [harg3, State.toBuffer_short _ _ _ hshort]
  · refine h.said hempty hev (n := 4) le_rfl rfl fun g => ?_
    rw [harg0, harg2, harg3, State.toBuffer_fits _ _ _ hfits]
    exact ⟨_, rfl, ⟨rfl, rfl, h.reports⟩, rfl⟩

theorem keyload_said {k ok k1 k2 : Nat} (hev : s.panel.ev = [i, rid, k, ok, k1, k2]) :
    (k = 0 ∨ 255 < k → s.Said i rid .keyload 0x102 2 0 (s.Kept i)) ∧
    (0 < k → k ≤ 255 → keyFree s.panel k = false ∨ ok = 0 → s.Said i rid .keyload 0x102 1 0 (s.Kept i)) ∧
    (0 < k → k ≤ 255 → keyFree s.panel k = true → ok ≠ 0 → s.Said i rid .keyload 0x102 0 0 fun t =>
      SMap.find t.panel.keys k = some ⟨k1 % 2 ^ 256, k2 % 2 ^ 256⟩ ∧ ∀ j, j ≠ k → SMap.find t.panel.keys j = SMap.find s.panel.keys j) := by
  have harg2 : s.panel.arg 2 = k := by simp [Panel.arg, hev]
  have harg3 : s.panel.arg 3 = ok := by simp [Panel.arg, hev]
  have harg4 : s.panel.arg 4 = k1 := by simp [Panel.arg, hev]
  have harg5 : s.panel.arg 5 = k2 := by simp [Panel.arg, hev]
  refine ⟨fun hbad => ?_, fun hpos hle hheld => ?_, fun hpos hle hfree hopen => ?_⟩
  · refine h.refused hempty hev (n := 6) le_rfl rfl fun g => ?_
    simp only [harg2, hbad, if_true]
  · have hgood : ¬ (k = 0 ∨ 255 < k) := by omega
    refine h.refused hempty hev (n := 6) le_rfl rfl fun g => ?_
    simp only [harg2, harg3, hgood, if_false, State.withEp_panel, Bool.not_eq_true', hheld, if_true]
  · have hgood : ¬ (k = 0 ∨ 255 < k) := by omega
    refine h.said hempty hev (n := 6) le_rfl rfl fun g => ?_
    simp only [harg2, harg3, harg4, harg5, hgood, if_false, State.withEp_panel, hfree, hopen, Bool.not_true, Bool.false_eq_true, or_self]
    exact ⟨_, rfl, State.setKey_serves k _ h.reports, SMap.find_set_self .., fun j hj => SMap.find_set_other _ _ _ _ (Ne.symm hj)⟩

theorem keyclear_said {k : Nat} (hev : s.panel.ev = [i, rid, k]) :
    (k = 0 ∨ 255 < k → s.Said i rid .keyclear 0x103 2 0 (s.Kept i)) ∧
    (0 < k → k ≤ 255 → keyFree s.panel k = false → s.Said i rid .keyclear 0x103 1 0 (s.Kept i)) ∧
    (0 < k → k ≤ 255 → keyFree s.panel k = true → s.Said i rid .keyclear 0x103 0 0 fun t => SMap.find t.panel.keys k = none) := by
  have harg2 : s.panel.arg 2 = k := by simp [Panel.arg, hev]
  refine ⟨fun hbad => ?_, fun hpos hle hheld => ?_, fun hpos hle hfree => ?_⟩
  · refine h.refused hempty hev (n := 3) le_rfl rfl fun g => ?_
    simp only [harg2, hbad, if_true]
  · have hgood : ¬ (k = 0 ∨ 255 < k) := by omega
    refine h.refused hempty hev (n := 3) le_rfl rfl fun g => ?_
    simp only [harg2, hgood, if_false, State.withEp_panel, Bool.not_eq_true', hheld, if_true]
  · have hgood : ¬ (k = 0 ∨ 255 < k) := by omega
    refine h.said hempty hev (n := 3) le_rfl rfl fun g => ?_
    simp only [harg2, hgood, if_false, State.withEp_panel, hfree, Bool.not_true, Bool.false_eq_true]
    exact ⟨_, rfl, State.setKey_serves k _ h.reports, SMap.find_del_self ..⟩

theorem counter_said {v : Nat} (hev : s.panel.ev = [i, rid, v]) :
    (v < s.front.counter ∨ s.front.version < v → s.Said i rid .counter 0x104 1 0 (s.Kept i)) ∧
    (s.front.counter ≤ v → v ≤ s.front.version → s.Said i rid .counter 0x104 0 0 fun t => t.front.counter = v) := by
  have harg2 : s.panel.arg 2 = v := by simp [Panel.arg, hev]
  refine ⟨fun hbad => ?_, fun hlow hhigh => ?_⟩
  · refine h.refused hempty hev (n := 3) le_rfl rfl fun g => ?_
    simp only [harg2, State.withEp_counter, State.withEp_version, hbad, if_true]
  · have hgood : ¬ (v < s.front.counter ∨ s.front.version < v) := by omega
    refine h.said hempty hev (n := 3) le_rfl rfl fun g => ?_
    simp only [harg2, State.withEp_counter, State.withEp_version, hgood, if_false]
    exact ⟨_, rfl, ⟨rfl, rfl, h.reports⟩, rfl⟩

theorem panelSet_said {v : Nat} (hev : s.panel.ev = [i, rid, v]) :
    (2 ^ 19 ≤ v → s.Said i rid .panelSet 0x105 2 0 (s.Kept i)) ∧
    (v < 2 ^ 19 → s.front.assigned.isSome = true → s.Said i rid .panelSet 0x105 1 0 (s.Kept i)) ∧
    (v < 2 ^ 19 → s.front.assigned = none → s.Said i rid .panelSet 0x105 0 0 fun t => t.front.assigned = some v ∧ t.panel.panelId = v) := by
  have harg2 : s.panel.arg 2 = v := by simp [Panel.arg, hev]
  refine ⟨fun hbad => ?_, fun hlt hset => ?_, fun hlt hnone => ?_⟩
  · refine h.refused hempty hev (n := 3) le_rfl rfl fun g => ?_
    simp only [harg2, hbad, if_true]
  · refine h.refused hempty hev (n := 3) le_rfl rfl fun g => ?_
    simp only [harg2, Nat.not_le.mpr hlt, if_false, State.withEp_assigned, hset, if_true]
  · refine h.said hempty hev (n := 3) le_rfl rfl fun g => ?_
    simp only [harg2, Nat.not_le.mpr hlt, if_false, State.withEp_assigned, hnone, Option.isSome_none, Bool.false_eq_true]
    exact ⟨_, rfl, ⟨rfl, rfl, h.reports⟩, rfl, rfl⟩

theorem partReset_refused {pi : Nat} (hev : s.panel.ev = [i, rid, pi]) (hrun : (s.panel.part pi).halt = false) :
    s.Said i rid .partReset 0x108 1 0 (s.Kept i) := by
  have harg2 : s.panel.arg 2 = pi := by simp [Panel.arg, hev]
  refine h.refused hempty hev (n := 3) le_rfl rfl fun g => ?_
  simp only [harg2, State.withEp_panel, hrun, Bool.false_eq_true, if_false]

theorem partReset_said {pi : Nat} (hev : s.panel.ev = [i, rid, pi]) (hhalt : (s.panel.part pi).halt = true) (hqueues : (s.panel.part pi).queues = [])
    (hlaunches : s.panel.launches = []) (hblocks : s.panel.blocks = []) :
    s.Said i rid .partReset 0x108 0 0 fun t => (t.panel.part pi).halt = false := by
  have harg2 : s.panel.arg 2 = pi := by simp [Panel.arg, hev]
  refine h.said hempty hev (n := 3) le_rfl rfl fun g => ?_
  simp only [harg2, State.withEp_panel, hhalt, if_true, Panel.resetPart_idle _ _ hqueues hlaunches hblocks]
  refine ⟨_, rfl, ⟨rfl, rfl, (Panel.updPart_reports ..).trans h.reports⟩, ?_⟩
  exact congrArg Partition.halt (Panel.part_updPart_self s.panel pi _ (Panel.isSome_of_halt hhalt))

theorem wbPlan_said {o : Nat} (hev : s.panel.ev = [i, rid, o]) :
    (s.panel.parts.find? (fun (x : Nat × Partition) => inHbm x.2 o) = none → s.Said i rid .wbPlan 0x106 2 0 (s.Kept i)) ∧
    (∀ j q v y z, s.panel.parts.find? (fun (x : Nat × Partition) => inHbm x.2 o) = some (j, q) →
      ownBytes q (splitLines id (fun _ => 0) 129 o 0 128) 0 s.panel = (some v, y) → y.reports = [] →
      (planRead y v = none → s.Said i rid .wbPlan 0x106 2 0 fun t => t.panel.plans = y.plans) ∧
      (planRead y v = some z → z.part = j → z.isReader = true →
        s.Said i rid .wbPlan 0x106 0 0 fun t => t.panel.plans = (y.plans.filter fun x => x.setid != z.setid) ++ [z])) := by
  have harg2 : s.panel.arg 2 = o := by simp [Panel.arg, hev]
  -- A name for the reading of the plan's words: the kernel would evaluate it on the 129 words' places.
  obtain ⟨own, hown⟩ : ∃ own, own = ownBytes := ⟨_, rfl⟩
  refine ⟨fun hnone => ?_, fun j q v y z hpart hread hreports => ⟨fun hbad => ?_, fun hplan hhome hreader => ?_⟩⟩
  · refine h.refused hempty hev (n := 3) le_rfl rfl fun g => ?_
    simp only [harg2, State.withEp_panel, hnone]
  · refine h.said hempty hev (n := 3) le_rfl rfl fun g => ?_
    rw [← hown] at hread ⊢
    simp only [harg2, State.withEp_panel, hpart, hread, hbad]
    exact ⟨_, rfl, ⟨rfl, rfl, hreports⟩, rfl⟩
  · refine h.said hempty hev (n := 3) le_rfl rfl fun g => ?_
    rw [← hown] at hread ⊢
    simp only [harg2, State.withEp_panel, hpart, hread, hplan, hhome, hreader, ne_eq, not_true_eq_false, if_false, if_true]
    exact ⟨_, rfl, ⟨rfl, rfl, hreports⟩, rfl⟩

theorem wbStart_refused {setid gen : Nat} (hev : s.panel.ev = [i, rid, setid, gen]) (hnone : s.panel.planOf setid = none) :
    s.Said i rid .wbStart 0x107 1 0 (s.Kept i) := by
  have harg2 : s.panel.arg 2 = setid := by simp [Panel.arg, hev]
  refine h.refused hempty hev (n := 4) le_rfl rfl fun g => ?_
  simp only [harg2, State.withEp_panel, hnone]

/-- The reader of a set of one shard sends it to every child. -/
theorem wbStart_sends {setid gen : Nat} (hev : s.panel.ev = [i, rid, setid, gen]) {x : Plan} {ls : List Nat} {y z : Panel}
    (hplan : s.panel.planOf setid = some x) (hgen : x.gen = gen) (hreader : x.isReader = true) (hstart : x.started = false) (hone : x.nshard = 1)
    (hmissing : x.missing = []) (hread : shardLines (s.panel.part x.part) x 0 s.panel = (some ls, y))
    (hwrite : (((y.toChildren x 0 ls).setPlan { x with started := true, present := [0] }).frontWrite x.part x.asid true x.descva 64 x.desc) = .ok 0 z)
    (hsent : z.outbox = (y.toChildren x 0 ls).outbox) :
    ∃ t, exec .wbStart s = .next t ∧ ∀ c, c < 32 → bt x.child c = true → Out.shard c setid gen 0 ls ∈ t.panel.outbox := by
  subst hgen
  have harg2 : s.panel.arg 2 = setid := by simp [Panel.arg, hev]
  have harg3 : s.panel.arg 3 = x.gen := by simp [Panel.arg, hev]
  obtain ⟨hsetid, hopen⟩ : x.setid = setid ∧ x.ended = false := by simpa using List.find?_some hplan
  have hshards : s.panel.sendShards x = (y.toChildren x 0 ls, []) := by
    rw [Panel.sendShards, hone, List.range_one, List.foldl_cons, List.foldl_nil, hread]
  have hpresent : ((List.range x.nshard).filter fun j => !([] : List Nat).contains j) = [0] := by rw [hone]; rfl
  have hend := Panel.planEnd_writes (x := { x with started := true, present := [0] }) hopen (Nat.le_of_eq hone) hmissing hwrite
  have hpart : ({ x with started := true, present := [0], missing := [] } : Plan) = { x with started := true, present := [0] } := by rw [← hmissing]
  refine ⟨_, congrArg Host.Outcome.next (State.request_lone (n := 4) 0x107 _ h.ok hempty hev le_rfl), fun c hc hchild => State.pump_outbox _ _ ?_⟩
  simp only [harg2, harg3, State.withEp_panel, hplan, hreader, hstart, hshards, hpresent, hpart, ne_eq, not_true_eq_false, Bool.not_true,
    Bool.false_eq_true, or_self, if_false]
  show _ ∈ Panel.outbox (Panel.planEnd _ _)
  rw [hend, hsent, Panel.toChildren, hsetid]
  exact List.mem_append_right _ (List.mem_map.mpr ⟨c, List.mem_filter.mpr ⟨List.mem_range.mpr hc, hchild⟩, rfl⟩)

end

/-! ### The request ring (R513) -/

theorem Endpoint.putReq_full {e : Endpoint} (typ maj : Nat) (fs : List (Nat × Nat × Nat)) (h : (e.rqTail + 1) % 16 = e.rqHead) : e.putReq typ maj fs = e := if_pos h

theorem Endpoint.putReq_room {e : Endpoint} (typ maj : Nat) (fs : List (Nat × Nat × Nat)) (h : (e.rqTail + 1) % 16 ≠ e.rqHead) :
    (e.putReq typ maj fs).rqTail = (e.rqTail + 1) % 16 ∧ (e.putReq typ maj fs).rqHead = e.rqHead ∧
      ∀ k, k ≠ e.rqTail → SMap.find (e.putReq typ maj fs).reqs k = SMap.find e.reqs k := by
  rw [Endpoint.putReq, if_neg h]
  exact ⟨rfl, rfl, fun k hk => SMap.find_set_other _ _ _ _ (Ne.symm hk)⟩

/-- The requests that R514 gives. -/
def mailboxRequests : List Instr := [.attest, .pubkey, .keyload, .keyclear, .counter, .panelSet, .wbPlan, .wbStart, .partReset]

theorem exec_mailbox {x : Instr} (hx : x ∈ mailboxRequests) (s : State) : ∃ typ n k, exec x s = .next (s.request typ n k) := by
  simp only [mailboxRequests, List.mem_cons, List.not_mem_nil, or_false] at hx
  rcases hx with rfl | rfl | rfl | rfl | rfl | rfl | rfl | rfl | rfl
  all_goals exact ⟨_, _, _, rfl⟩

theorem Panel.arg_of_head {p : Panel} {a : Nat} (h : p.ev.head? = some a) : p.arg 0 = a := by
  obtain ⟨t, ht⟩ := List.head?_eq_some_iff.mp h
  simp [Panel.arg, ht]

/-- A request that finds others before it is put into the ring behind them. -/
theorem exec_mailbox_behind {s : State} {i : Nat} {x : Instr} (hx : x ∈ mailboxRequests) (hok : s.hostOk i = true) (hhead : s.panel.ev.head? = some i)
    (hbehind : (s.front.ep i).rqTail ≠ (s.front.ep i).rqHead) : ∃ typ maj fs, exec x s = .next (s.withEp i fun e => e.putReq typ maj fs) := by
  obtain ⟨typ, n, k, hexec⟩ := exec_mailbox hx s
  obtain ⟨-, hi, -⟩ := (s.hostOk_iff i).mp hok
  have harg := Panel.arg_of_head hhead
  rw [hexec, State.request, harg, Nat.mod_eq_of_lt hi, State.takeReq_behind typ _ _ _ hok harg hbehind]
  exact ⟨_, _, _, rfl⟩

/-- An Ouvpin core finds no entry in an empty ring. -/
theorem exec_mailbox_none {s : State} {i : Nat} {x : Instr} (hx : x ∈ mailboxRequests) (hok : s.hostOk i = true) (hhead : s.panel.ev.head? = some (i + 2))
    (hempty : (s.front.ep i).rqTail = (s.front.ep i).rqHead) : exec x s = .next s := by
  obtain ⟨typ, n, k, hexec⟩ := exec_mailbox hx s
  obtain ⟨-, hi, -⟩ := (s.hostOk_iff i).mp hok
  have harg := Panel.arg_of_head hhead
  rw [hexec, State.request, harg, Nat.add_mod_right, Nat.mod_eq_of_lt hi, State.takeReq_ring typ _ _ _ hok harg, if_neg fun hwaits => hwaits.1 hempty]

theorem State.ringNext_empty {s : State} {i : Nat} (h : (s.front.ep i).rqTail = (s.front.ep i).rqHead) : s.ringNext i = s := by
  simp [State.ringNext, h]

theorem State.ringNext_front (s : State) (i : Nat) : (s.ringNext i).front = s.front := by
  unfold State.ringNext
  dsimp only
  split
  · rfl
  · rfl

theorem bf_lt (v hi lo : Nat) : bf v hi lo < 2 ^ (hi + 1 - lo) := Nat.mod_lt _ (by positivity)

/-- The entry at RQHEAD that asks for a reset of a partition. -/
structure Endpoint.AsksReset (e : Endpoint) (rid pi : Nat) : Prop where
  typ : bf (SMap.getD e.reqs e.rqHead 0) 15 0 = 0x108
  maj : bf (SMap.getD e.reqs e.rqHead 0) 23 20 = e.version / 16
  tag : bf (SMap.getD e.reqs e.rqHead 0) 47 32 = rid
  part : bf (SMap.getD e.reqs e.rqHead 0) 71 64 = pi

theorem Endpoint.AsksReset.headIs {e : Endpoint} {rid pi : Nat} (h : e.AsksReset rid pi) : e.headIs 0x108 (e.version / 16) [(4, 2, rid), (8, 1, pi)] = true := by
  have hmaj := e.version_lt
  have htag := bf_lt (SMap.getD e.reqs e.rqHead 0) 47 32
  have hpart := bf_lt (SMap.getD e.reqs e.rqHead 0) 71 64
  rw [h.tag] at htag
  rw [h.part] at hpart
  simp only [Endpoint.headIs, List.all_cons, List.all_nil, h.typ, h.maj, Nat.reduceAdd, Nat.reduceMul, Nat.reduceSub, h.tag, h.part, Bool.and_eq_true,
    beq_iff_eq, and_true]
  omega

/-- A reset taken from the ring is refused where the partition is not halted. -/
theorem partReset_ring {s : State} {i rid pi : Nat} (h : s.Answers i) (hev : s.panel.ev = [i + 2, rid, pi])
    (hlast : (s.front.ep i).rqTail = ((s.front.ep i).rqHead + 1) % 16) (hask : (s.front.ep i).AsksReset rid pi) (hrun : (s.panel.part pi).halt = false) :
    s.Said i rid .partReset 0x108 1 0 (s.Kept i) := by
  have harg0 : s.panel.arg 0 = i + 2 := by simp [Panel.arg, hev]
  have harg1 : s.panel.arg 1 = rid := by simp [Panel.arg, hev]
  have harg2 : s.panel.arg 2 = pi := by simp [Panel.arg, hev]
  have hwaits : (s.front.ep i).rqTail ≠ (s.front.ep i).rqHead := by omega
  have hagreed : s.panel.ev.length ≤ 3 := by rw [hev]; exact le_rfl
  have hops : (4, 2, rid) :: fieldsAt (requestPlaces 0x108) (s.panel.ev.drop 2) = [(4, 2, rid), (8, 1, pi)] := by rw [hev]; rfl
  obtain ⟨hpump, hposted⟩ := h.pump (g := Endpoint.took) rid 0x108 1 0 (Endpoint.took_took _) ⟨rfl, rfl, h.reports⟩
  have hnext : ((s.withEp i Endpoint.took).replied i rid 0x108 1 0).ringNext i = (s.withEp i Endpoint.took).replied i rid 0x108 1 0 := by
    refine State.ringNext_empty ?_
    rw [State.replied, Front.ep_updEp_self, State.withEp_ep]
    exact hlast
  refine ⟨_, ?_, State.kept_replied Endpoint.took rid 0x108 1 0 h.reports, hposted⟩
  show Host.Outcome.next (s.request 0x108 3 _) = _
  rw [State.request, harg0, harg1, harg2, Nat.add_mod_right, Nat.mod_eq_of_lt h.lt, State.takeReq_ring _ _ _ _ h.ok harg0, if_pos hagreed, hops,
    if_pos ⟨hwaits, hask.headIs⟩]
  simp only [if_true, State.withEp_panel, hrun, Bool.false_eq_true, if_false]
  exact congrArg Host.Outcome.next ((congrArg (State.ringNext · i) hpump).trans hnext)

/-! ### The host's writes to base address register 0 (R511, R513) -/

/-- RPHEAD written where no report is held. -/
theorem exec_rpheadWrite_none {s : State} {i h : Nat} (hev : s.panel.ev = [i, h]) (hok : s.hostOk i = true) (hheld : (s.front.ep i).held = []) :
    exec .rpheadWrite s = .next (s.withEp i fun e => { e with rpHead := h % 16 }) := by
  have harg0 : s.panel.arg 0 = i := by simp [Panel.arg, hev]
  have harg1 : s.panel.arg 1 = h := by simp [Panel.arg, hev]
  have hnone : ((s.withEp i fun e => { e with rpHead := h % 16 }).front.ep i).held = [] := by
    rw [State.withEp_ep]
    exact hheld
  show execRpheadWrite s = _
  rw [execRpheadWrite, harg0, harg1, hok, State.setRpHead]
  change Host.Outcome.next (State.postHeld (s.withEp i fun e => { e with rpHead := h % 16 }) i 16) = _
  rw [State.postHeld, hnone]

theorem exec_hostBar2Write_bar0 {s : State} {i o n v : Nat} (hev : s.panel.ev = [i, o, n, v, 1]) (hok : s.hostOk i = true) :
    exec .hostBar2Write s = .next (s.bar0Write i o n v) := by
  show execHostBar2Write s = _
  simp [execHostBar2Write, Panel.arg, hev, hok]

/-- A byte put into a slot of the request ring, of a word that is being written. -/
def slotByte (k w v : Nat) (m : SMap Nat) (b : Nat) : SMap Nat :=
  SMap.set m k (putBits (SMap.getD m k 0) (8 * (8 * w + b) + 7) (8 * (8 * w + b)) (v / 2 ^ (8 * b) % 256))

theorem find_slotBytes (k w v : Nat) (m : SMap Nat) (bs : List Nat) {j : Nat} (hj : j ≠ k) : SMap.find (bs.foldl (slotByte k w v) m) j = SMap.find m j := by
  refine List.foldlRecOn (motive := fun q => SMap.find q j = SMap.find m j) _ _ rfl fun q hq b _ => ?_
  rw [slotByte, SMap.find_set_other _ _ _ _ (Ne.symm hj), hq]

theorem testBit_slotBytes (k w v n : Nat) (m : SMap Nat) {j : Nat} (hj : j < 8 * n) :
    (SMap.getD ((List.range n).foldl (slotByte k w v) m) k 0).testBit (64 * w + j) = v.testBit j := by
  induction n with
  | zero => omega
  | succ n ih =>
    rw [List.range_succ, List.foldl_append, List.foldl_cons, List.foldl_nil, slotByte, SMap.getD_set_self,
      show 8 * (8 * w + n) + 7 = 8 * (8 * w + n) + 8 - 1 from rfl, testBit_putBits _ _ _ _ _ (by norm_num)]
    split
    next hbyte =>
      rw [show 64 * w + j - 8 * (8 * w + n) = j - 8 * n by omega, show 256 = 2 ^ 8 by norm_num, Nat.testBit_mod_two_pow, Nat.testBit_div_two_pow,
        Nat.sub_add_cancel (by omega)]
      simp only [show j - 8 * n < 8 by omega, decide_true, Bool.true_and]
    next hbyte => exact ih (by omega)

/-- Eight bytes written to a slot are read back. -/
theorem slotBytes_word (k w v : Nat) (m : SMap Nat) : SMap.getD ((List.range 8).foldl (slotByte k w v) m) k 0 / 2 ^ (64 * w) % 2 ^ 64 = v % 2 ^ 64 := by
  refine Nat.eq_of_testBit_eq fun j => ?_
  rw [Nat.testBit_mod_two_pow, Nat.testBit_mod_two_pow, Nat.testBit_div_two_pow, Nat.add_comm]
  by_cases hj : j < 64
  · rw [testBit_slotBytes k w v 8 m hj]
  · simp [hj]

theorem Front.bar0Word_slot {f : Front} {i o : Nat} (hlow : 0x1000 ≤ o) (hhigh : o < 0x1400) (hready : f.ready = true) :
    f.bar0Word i o = SMap.getD (f.ep i).reqs ((o - 0x1000) / 64) 0 / 2 ^ (8 * (o % 64)) % 2 ^ 64 := by
  have hother (c : Nat) (hc : c < 0x1000) : o ≠ c := by omega
  simp [Front.bar0Word, hready, hlow, hhigh, hother]

/-- A word of a slot of the request ring. -/
theorem State.bar0Write_slot (s : State) (i : Nat) {k w : Nat} (v : Nat) (hk : k < 16) (hw : w < 8) :
    s.bar0Write i (0x1000 + 64 * k + 8 * w) 8 v = s.withEp i fun e => { e with reqs := (List.range 8).foldl (slotByte k w v) e.reqs } := by
  have htail : ¬ 0x1000 + 64 * k + 8 * w ≤ 0x100 := by omega
  have hhead : ¬ 0x1000 + 64 * k + 8 * w ≤ 0x118 := by omega
  have hbytes (m : SMap Nat) (b : Nat) (hb : b ∈ List.range 8) :
      (if 0x1000 ≤ 0x1000 + 64 * k + 8 * w + b ∧ 0x1000 + 64 * k + 8 * w + b < 0x1400 then
        SMap.set m ((0x1000 + 64 * k + 8 * w + b - 0x1000) / 64) (putBits (SMap.getD m ((0x1000 + 64 * k + 8 * w + b - 0x1000) / 64) 0)
          (8 * ((0x1000 + 64 * k + 8 * w + b) % 64) + 7) (8 * ((0x1000 + 64 * k + 8 * w + b) % 64)) (v / 2 ^ (8 * b) % 256)) else m) = slotByte k w v m b := by
    have hlt := List.mem_range.mp hb
    rw [if_pos (by omega), show (0x1000 + 64 * k + 8 * w + b - 0x1000) / 64 = k by omega, show (0x1000 + 64 * k + 8 * w + b) % 64 = 8 * w + b by omega]
    rfl
  have hslot (e : Endpoint) := List.foldl_ext _ _ e.reqs hbytes
  simp only [State.bar0Write, htail, hhead, decide_false, Bool.false_and, Bool.false_eq_true, false_and, if_false, hslot]
  rfl

/-- A word written to a slot is read back, and the other slots keep theirs. -/
theorem slot_written {s : State} {i k w v : Nat} (hev : s.panel.ev = [i, 0x1000 + 64 * k + 8 * w, 8, v, 1]) (hok : s.hostOk i = true) (hk : k < 16)
    (hw : w < 8) : ∃ t, exec .hostBar2Write s = .next t ∧ t.panel = s.panel ∧ t.front.bar0Word i (0x1000 + 64 * k + 8 * w) = v % 2 ^ 64 ∧
      ∀ j, j ≠ k → SMap.find (t.front.ep i).reqs j = SMap.find (s.front.ep i).reqs j := by
  have hready : s.front.ready = true := ((s.hostOk_iff i).mp hok).1
  let t := s.withEp i fun e => { e with reqs := (List.range 8).foldl (slotByte k w v) e.reqs }
  have hep : t.front.ep i = { s.front.ep i with reqs := (List.range 8).foldl (slotByte k w v) (s.front.ep i).reqs } := State.withEp_ep ..
  have hreqs : (t.front.ep i).reqs = (List.range 8).foldl (slotByte k w v) (s.front.ep i).reqs := by rw [hep]
  have hexec : exec .hostBar2Write s = .next t := by rw [exec_hostBar2Write_bar0 hev hok, State.bar0Write_slot s i v hk hw]
  refine ⟨t, hexec, rfl, ?_, fun j hj => ?_⟩
  · rw [Front.bar0Word_slot (f := t.front) (by omega) (by omega) hready, hreqs, show (0x1000 + 64 * k + 8 * w - 0x1000) / 64 = k by omega,
      show 8 * ((0x1000 + 64 * k + 8 * w) % 64) = 64 * w by omega]
    exact slotBytes_word k w v _
  · rw [hreqs]
    exact find_slotBytes k w v _ _ hj

/-- A write of RQTAIL is ignored where it would pass RQHEAD; else it is the doorbell, and the first entry of a ring that was empty comes before its owner. -/
theorem State.bar0Write_tail (s : State) (i v : Nat) :
    s.bar0Write i 0x100 8 v =
      if (v % 16 + 16 - (s.front.ep i).rqTail) % 16 + ((s.front.ep i).rqTail + 16 - (s.front.ep i).rqHead) % 16 < 16 then
        if (s.front.ep i).rqTail = (s.front.ep i).rqHead then ((s.withEp i id).withEp i fun e => { e with rqTail := v % 16 }).ringNext i
        else (s.withEp i id).withEp i fun e => { e with rqTail := v % 16 }
      else s.withEp i id := by
  have hbytes (m : SMap Nat) (b : Nat) (hb : b ∈ List.range 8) :
      (if 0x1000 ≤ 0x100 + b ∧ 0x100 + b < 0x1400 then
        SMap.set m ((0x100 + b - 0x1000) / 64) (putBits (SMap.getD m ((0x100 + b - 0x1000) / 64) 0) (8 * ((0x100 + b) % 64) + 7) (8 * ((0x100 + b) % 64))
          (v / 2 ^ (8 * b) % 256)) else m) = m := by
    have hlt := List.mem_range.mp hb
    exact if_neg (by omega)
  have hslot (e : Endpoint) : _ = e.reqs := (List.foldl_ext _ _ e.reqs hbytes).trans (List.foldl_fixed (List.range 8))
  simp only [State.bar0Write, hslot]
  simp
  rfl

/-- The reset of a partition comes before its Ouvpin core. -/
theorem State.ringNext_reset {s : State} {i rid pi : Nat} (hwaits : (s.front.ep i).rqTail ≠ (s.front.ep i).rqHead) (hask : (s.front.ep i).AsksReset rid pi) :
    s.ringNext i = { s with panel := s.panel.later 1 .partReset [i + 2, rid, pi] } := by
  have hevent : reqEvent 0x108 = .partReset := rfl
  have hplaces : requestPlaces 0x108 = [(8, 1)] := rfl
  simp [State.ringNext, hask.typ, hask.maj, hask.tag, hask.part, hwaits, hevent, hplaces]

/-- The host's doorbell (R513). -/
theorem rqTail_written {s : State} {i v : Nat} (hev : s.panel.ev = [i, 0x100, 8, v, 1]) (hok : s.hostOk i = true) :
    let e := s.front.ep i
    let far := (v % 16 + 16 - e.rqTail) % 16 + (e.rqTail + 16 - e.rqHead) % 16
    (16 ≤ far → ∃ t, exec .hostBar2Write s = .next t ∧ t.panel = s.panel ∧ t.front.ep i = e) ∧
    (far < 16 → ∃ t, exec .hostBar2Write s = .next t ∧ (t.front.ep i).rqTail = v % 16 ∧ (t.front.ep i).rqHead = e.rqHead ∧ (t.front.ep i).reqs = e.reqs ∧
      ∀ rid pi, e.rqTail = e.rqHead → v % 16 ≠ e.rqHead → e.AsksReset rid pi → (s.panel.now + 1, Instr.partReset, [i + 2, rid, pi]) ∈ t.panel.agenda) := by
  intro e far
  have hexec := (exec_hostBar2Write_bar0 hev hok).trans (congrArg Host.Outcome.next (s.bar0Write_tail i v))
  let rung := (s.withEp i id).withEp i fun e => { e with rqTail := v % 16 }
  have hrung : rung.front.ep i = { e with rqTail := v % 16 } := by simp only [rung, State.withEp_ep, id]; rfl
  refine ⟨fun hfar => ⟨_, hexec.trans (congrArg _ (if_neg (Nat.not_lt.mpr hfar))), rfl, State.withEp_ep ..⟩, fun hnear => ?_⟩
  rw [if_pos hnear] at hexec
  by_cases hempty : e.rqTail = e.rqHead
  · refine ⟨rung.ringNext i, hexec.trans (congrArg _ (if_pos hempty)), ?_, ?_, ?_, fun rid pi _ hnew hask => ?_⟩
    · rw [State.ringNext_front, hrung]
    · rw [State.ringNext_front, hrung]
    · rw [State.ringNext_front, hrung]
    · have hwaits : (rung.front.ep i).rqTail ≠ (rung.front.ep i).rqHead := by rw [hrung]; exact hnew
      have hask' : (rung.front.ep i).AsksReset rid pi := by rw [hrung]; exact ⟨hask.typ, hask.maj, hask.tag, hask.part⟩
      rw [State.ringNext_reset hwaits hask']
      exact List.mem_append_right _ (List.mem_singleton_self _)
  · refine ⟨rung, hexec.trans (congrArg _ (if_neg hempty)), ?_, ?_, ?_, fun _ _ h => absurd h hempty⟩
    all_goals rw [hrung]

/-- Settles O52, from what one request alone in its ring does (`Answers.said`), each request's effect, and the rings of base address register 0. -/
theorem mailboxResults : Obligations.MailboxResults := by
  unfold Obligations.MailboxResults
  intro s i rid p f e said kept all head hok
  refine ⟨fun hreports hheld hroom hempty => ?_, fun x hx hhead hbehind hspace => ?_, fun x hx hhead hbehind hfull => ?_, fun x hx hhead hempty => ?_,
    fun pi hev hlast htyp hmaj htag hpart hrun hreports hheld hroom => ?_, fun k w v hk hw hev => ?_, fun v hev _ _ => ?_⟩
  · have h : s.Answers i := ⟨hok, hreports, hheld, hroom⟩
    refine ⟨fun typ hev htyp => reserved_refused h hempty hev htyp, fun typ maj hev htyp hmaj => reserved_otherVersion h hempty hev htyp hmaj, fun maj o hev hfirst => ?_, fun nonce buf len hev => attest_said h hempty hev,
      fun buf len hev => pubkey_said h hempty hev, fun k ok k1 k2 hev => keyload_said h hempty hev, fun k hev => keyclear_said h hempty hev, fun v hev => ?_,
      fun pi hev => partReset_said h hempty hev, fun o hev => wbPlan_said h hempty hev, fun setid gen hev => ⟨wbStart_refused h hempty hev, ?_⟩, fun n hev =>
      exec_rpheadWrite_none hev hok hheld⟩
    · refine ⟨_, exec_offer hok hempty hev hfirst, rfl, ?_, ?_⟩
      · rw [State.withEp_ep, State.withEp_ep]
        exact (Endpoint.putReq_took _ _ _ hempty).rqHead
      · rw [State.withEp_ep]
    · obtain ⟨hlow, hraised⟩ := counter_said h hempty hev
      obtain ⟨hlarge, hset, hunset⟩ := panelSet_said h hempty hev
      exact ⟨hlow, hraised, hlarge, hset, hunset, partReset_refused h hempty hev⟩
    · exact fun x ls y z hplan hgen hreader hstart hone hmissing hread hwrite hsent _ =>
        wbStart_sends h hempty hev hplan hgen hreader hstart hone hmissing hread hwrite hsent
  · obtain ⟨typ, maj, fs, hexec⟩ := exec_mailbox_behind hx hok hhead hbehind
    have hep := State.withEp_ep s i fun e => e.putReq typ maj fs
    refine ⟨_, hexec, rfl, ?_⟩
    rw [hep]
    exact Endpoint.putReq_room typ maj fs hspace
  · obtain ⟨typ, maj, fs, hexec⟩ := exec_mailbox_behind hx hok hhead hbehind
    exact ⟨_, hexec, rfl, (State.withEp_ep ..).trans (Endpoint.putReq_full typ maj fs hfull)⟩
  · exact exec_mailbox_none hx hok hhead hempty
  · exact partReset_ring ⟨hok, hreports, hheld, hroom⟩ hev hlast ⟨htyp, hmaj, htag, hpart⟩ hrun
  · exact slot_written hev hok hk hw
  · obtain ⟨hfar, hnear⟩ := rqTail_written hev hok
    refine ⟨hfar, fun hlt => ?_⟩
    obtain ⟨t, hexec, htail, hhead, hreqs, hasks⟩ := hnear hlt
    exact ⟨t, hexec, htail, hhead, hreqs, fun hempty hnew htyp hmaj => hasks _ _ hempty hnew ⟨htyp, hmaj, rfl, rfl⟩⟩

end Sys2Proof.Machine
end

section
/-! Page walks, removals of translations and TLBINV (R147, R151-R156, R162). -/

namespace Sys2Proof.Machine

/-! ### Walkers (R152) -/

/-- From one panel to another page walks alone have moved: walk tables, requests to slices and the agenda; every TLB stands. -/
def Panel.Walked (p q : Panel) : Prop :=
  (∃ cs sl ag, q = { p with clusters := cs, slices := sl, agenda := ag }) ∧ ∀ c, (q.cluster c).tlb = (p.cluster c).tlb

namespace Panel.Walked

theorem refl (p : Panel) : p.Walked p := ⟨⟨p.clusters, p.slices, p.agenda, rfl⟩, fun _ => rfl⟩

theorem trans {p q r : Panel} (hpq : p.Walked q) (hqr : q.Walked r) : p.Walked r := by
  obtain ⟨⟨cs, sl, ag, rfl⟩, ht⟩ := hpq
  obtain ⟨⟨cs', sl', ag', rfl⟩, ht'⟩ := hqr
  exact ⟨⟨cs', sl', ag', rfl⟩, fun c => (ht' c).trans (ht c)⟩

end Panel.Walked

@[simp] theorem Panel.cluster_updCluster_self (p : Panel) (cl : Nat) (f : Cluster → Cluster) : (p.updCluster cl f).cluster cl = f (p.cluster cl) := by
  simp [Panel.cluster, Panel.updCluster]

theorem Panel.cluster_updCluster_other (p : Panel) (cl c : Nat) (f : Cluster → Cluster) (h : cl ≠ c) :
    (p.updCluster cl f).cluster c = p.cluster c := by
  simp [Panel.cluster, Panel.updCluster, SMap.getD_set_other _ _ _ _ _ h]

/-- What a change of one cluster keeps of it, it keeps of every cluster. -/
theorem Panel.cluster_updCluster_keeps {β : Type} (g : Cluster → β) (p : Panel) (cl c : Nat) (f : Cluster → Cluster)
    (h : g (f (p.cluster cl)) = g (p.cluster cl)) : g ((p.updCluster cl f).cluster c) = g (p.cluster c) := by
  by_cases hc : cl = c
  · subst hc
    rw [Panel.cluster_updCluster_self, h]
  · rw [Panel.cluster_updCluster_other p cl c f hc]

/-- What a change of a partition keeps of it, it keeps of every partition. -/
theorem Panel.part_updPart_keeps {β : Type} (g : Partition → β) (p : Panel) (i j : Nat) (f : Partition → Partition) (hf : ∀ q, g (f q) = g q) :
    g ((p.updPart i f).part j) = g (p.part j) := by
  by_cases hij : i = j
  · subst hij
    by_cases hsome : (SMap.find p.parts i).isSome = true
    · rw [Panel.part_updPart_self _ _ _ hsome, hf]
    · rw [Panel.updPart, Option.not_isSome_iff_eq_none.mp hsome]
  · rw [Panel.part_updPart_other _ _ _ _ hij]

theorem Panel.walked_updWalkEnt (p : Panel) (cl num : Nat) (f : TlbWalk → TlbWalk) : p.Walked (p.updWalkEnt cl num f) :=
  ⟨⟨_, _, _, rfl⟩, fun c => Panel.cluster_updCluster_keeps Cluster.tlb p cl c _ rfl⟩

theorem Panel.walked_walkRead (p : Panel) (cl : Nat) (w : TlbWalk) (level table d : Nat) : p.Walked (p.walkRead cl w level table d) :=
  (p.walked_updWalkEnt cl w.num _).trans ⟨⟨_, _, _, rfl⟩, fun _ => rfl⟩

theorem Panel.walked_walkEnd (p : Panel) (cl num d : Nat) (r : WalkR) : p.Walked (p.walkEnd cl num d r) :=
  (p.walked_updWalkEnt cl num _).trans ⟨⟨_, _, _, rfl⟩, fun _ => rfl⟩

theorem Panel.walked_walkStart (p : Panel) (cl : Nat) (w : TlbWalk) : p.Walked (p.walkStart cl w) := by
  unfold Panel.walkStart
  dsimp only
  split
  · exact p.walked_walkEnd ..
  · exact p.walked_walkRead ..
  · exact p.walked_walkRead ..
  · split
    · exact p.walked_walkRead ..
    · exact p.walked_walkEnd ..

theorem Panel.walked_walkers (p : Panel) (cl k : Nat) : p.Walked (p.walkers cl k) := by
  induction k generalizing p with
  | zero => exact .refl p
  | succ k ih =>
    unfold Panel.walkers
    dsimp only
    split
    · exact .refl p
    · split
      · exact (p.walked_walkStart cl _).trans (ih _)
      · exact .refl p

/-- With no page in its table a cluster's walkers stand. -/
theorem Panel.walkers_idle (p : Panel) (cl k : Nat) (h : (p.cluster cl).walks = []) : p.walkers cl k = p := by
  cases k with
  | zero => rfl
  | succ k => simp [Panel.walkers, h]

/-- With no access before the TLBs nothing is tried again. -/
theorem Panel.tlbPump_idle (p : Panel) (lc : Nat) (h : ∀ e ∈ p.accs, e.2.stage ≠ .tlb) : p.tlbPump lc = p := by
  have hnone : ((p.accs.map (·.2)).filter fun a => clusterOf a.core == clusterOf lc && a.stage == .tlb) = [] := by
    simp only [List.filter_eq_nil_iff, List.mem_map, forall_exists_index, and_imp]
    rintro a e he rfl
    simp [h e he]
  rw [Panel.tlbPump, hnone, List.foldl_nil]

/-! ### The end of a walk (R151, R154) -/

theorem mem_placeIn {α : Type} [BEq α] (xs : List α) (same : α → Bool) (cap seed : Nat) (x : α) : x ∈ placeIn xs same cap seed x := by
  have hlast (ys : List α) : x ∈ ys ++ [x] := by simp
  unfold placeIn
  dsimp only
  split
  · exact hlast _
  · split
    · exact hlast _
    · exact hlast _

/-- A walk of a cluster that is the only one in its table leaves the table with its outcome: a good translation goes into the TLB, an engine that
waits is told of what it did not get. -/
def Cluster.walkedOut (c : Cluster) (w : TlbWalk) (r : WalkR) (bad : Bool) (seed : Nat) : Cluster :=
  let c1 := { c with walks := c.walks.filter fun x => x.num != w.num, tlbq := [] }
  let out := if w.engs = [] then c1 else { c1 with wout := c1.wout ++ [(w.part, w.asid, w.vpn, r)] }
  match r with
  | .ok t => tlbPlace (if bad then out else c1) seed t
  | .notPresent => out
  | .fatal _ => out

theorem Cluster.walkedOut_walks (c : Cluster) (w : TlbWalk) (r : WalkR) (bad : Bool) (seed : Nat) (h : c.walks = [w]) :
    (c.walkedOut w r bad seed).walks = [] := by
  unfold Cluster.walkedOut
  dsimp only
  split
  · unfold tlbPlace
    dsimp only
    split
    · split
      · simp [h]
      · simp [h]
    · simp [h]
  · split
    · simp [h]
    · simp [h]
  · split
    · simp [h]
    · simp [h]

theorem Cluster.mem_walkedOut (c : Cluster) (w : TlbWalk) (t : Tlb) (bad : Bool) (seed : Nat) : t ∈ (c.walkedOut w (.ok t) bad seed).tlb := by
  exact mem_placeIn ..

theorem Cluster.tlb_walkedOut_none (c : Cluster) (w : TlbWalk) (bad : Bool) (seed : Nat) : (c.walkedOut w .notPresent bad seed).tlb = c.tlb := by
  unfold Cluster.walkedOut
  dsimp only
  split
  · rfl
  · rfl

/-- A walk that is the only one of its cluster ends without a translation: its requests fail, one after another. -/
theorem exec_tlbWalkComplete_none (s : State) {cl : Nat} {w : TlbWalk} (hev : s.panel.ev = [cl, w.num])
    (hwalks : (s.panel.cluster cl).walks = [w]) (hres : w.res = some .notPresent) :
    exec .tlbWalkComplete s = s.to (((w.joined.foldl (fun q id => q.walkFail .notPresent w.vpn id)
      (s.panel.updCluster cl fun c => c.walkedOut w .notPresent false s.panel.evs)).walkers cl 4).tlbPump (clusterCore cl 0)) := by
  have h0 : s.panel.arg 0 = cl := by rw [Panel.arg, hev]; rfl
  have h1 : s.panel.arg 1 = w.num := by rw [Panel.arg, hev]; rfl
  show execTlbWalkComplete s = _
  simp only [execTlbWalkComplete, onPanel, h0, h1, hwalks, hres, List.find?_cons_of_pos (p := fun x : TlbWalk => x.num == w.num) (beq_self_eq_true _)]
  rfl

/-- A walk that is the only one of its cluster ends with a good translation: its requests are tried again. -/
theorem exec_tlbWalkComplete_ok (s : State) {cl : Nat} {w : TlbWalk} {t : Tlb} (hev : s.panel.ev = [cl, w.num])
    (hwalks : (s.panel.cluster cl).walks = [w]) (hres : w.res = some (.ok t)) (hbad : s.panel.badSlot t = false) :
    exec .tlbWalkComplete s = s.to (((w.joined.foldl Panel.tlbTry
      (s.panel.updCluster cl fun c => c.walkedOut w (.ok t) false s.panel.evs)).walkers cl 4).tlbPump (clusterCore cl 0)) := by
  have h0 : s.panel.arg 0 = cl := by rw [Panel.arg, hev]; rfl
  have h1 : s.panel.arg 1 = w.num := by rw [Panel.arg, hev]; rfl
  show execTlbWalkComplete s = _
  simp only [execTlbWalkComplete, onPanel, h0, h1, hwalks, hres, hbad, List.find?_cons_of_pos (p := fun x : TlbWalk => x.num == w.num) (beq_self_eq_true _)]
  rfl

/-- A walk that nothing waits for leaves its outcome in its cluster alone. -/
theorem Panel.walkedOut_settles (p : Panel) {cl : Nat} {w : TlbWalk} (r : WalkR) (hwalks : (p.cluster cl).walks = [w])
    (hidle : ∀ e ∈ p.accs, e.2.stage ≠ .tlb) :
    let q := p.updCluster cl fun c => c.walkedOut w r false p.evs
    (q.walkers cl 4).tlbPump (clusterCore cl 0) = q := by
  have hq : ((p.updCluster cl fun c => c.walkedOut w r false p.evs).cluster cl).walks = [] := by
    rw [Panel.cluster_updCluster_self, Cluster.walkedOut_walks _ _ _ _ _ hwalks]
  dsimp only
  rw [Panel.walkers_idle _ _ _ hq]
  exact Panel.tlbPump_idle _ _ hidle

/-! ### Places of a group -/

/-- A fold that changes the contexts of places one by one, in a way that a second change does not alter, changes each of them once. -/
theorem Panel.ctx_foldl_places (step : Panel → Nat × Nat → Panel) (h : Ctx → Ctx) (hidem : ∀ c, h (h c) = h c) (lc slot : Nat)
    (hstep : ∀ q x, (step q x).ctx lc slot = if x = (lc, slot) then h (q.ctx lc slot) else q.ctx lc slot) (l : List (Nat × Nat)) (p : Panel) :
    (l.foldl step p).ctx lc slot = if (lc, slot) ∈ l then h (p.ctx lc slot) else p.ctx lc slot := by
  induction l generalizing p with
  | nil => rfl
  | cons x l ih =>
    rw [List.foldl_cons, ih, hstep]
    by_cases hx : x = (lc, slot)
    · simp only [hx, List.mem_cons, true_or, if_true, hidem, ite_self]
    · simp only [hx, if_false, List.mem_cons, Ne.symm hx, false_or]

theorem Panel.ctx_updCtx (p : Panel) (x : Nat × Nat) (f : Ctx → Ctx) (lc slot : Nat) :
    (p.updCtx x.1 x.2 f).ctx lc slot = if x = (lc, slot) then f (p.ctx lc slot) else p.ctx lc slot := by
  by_cases hx : x = (lc, slot)
  · subst hx
    rw [if_pos rfl, Panel.ctx_updCtx_self]
  · rw [if_neg hx]
    refine Panel.ctx_updCtx_other _ _ _ _ _ _ ?_
    by_contra hc
    exact hx (Prod.ext (by omega) (by omega))

/-- A thread of the home core of a group is among its places, unless it is away. -/
theorem mem_groupPlaces (p : Panel) {lc slot tag : Nat} (hslot : slot < 12) (htag : (p.ctx lc slot).btag = tag)
    (hst : (p.ctx lc slot).st ≠ .empty) (haway : (p.ctx lc slot).st ≠ .away) : (lc, slot) ∈ groupPlaces p lc tag := by
  refine List.mem_append_left _ (List.mem_map.mpr ⟨slot, ?_, rfl⟩)
  simp [groupSlots, hslot, htag, hst, haway]

/-! ### Parking at a fault (R166-R168) -/

/-- A context whose group parks. -/
def Ctx.parkedNow (now : Nat) (c : Ctx) : Ctx := if c.st = .parked then c else { c with st := .parked, parkedAt := now }

theorem Ctx.parkedNow_st (now : Nat) (c : Ctx) : (c.parkedNow now).st = .parked := by
  unfold Ctx.parkedNow
  split
  · assumption
  · rfl

theorem Ctx.parkedNow_g (now : Nat) (c : Ctx) : (c.parkedNow now).g = c.g := by
  unfold Ctx.parkedNow
  split
  · rfl
  · rfl

/-- The group of a thread parked: its contexts alone change. -/
def Panel.parkPlaces (p : Panel) (lc tag : Nat) : Panel :=
  (groupPlaces p lc tag).foldl (fun q s => q.updCtx s.1 s.2 fun c => c.parkedNow p.now) p

theorem Panel.parkPlaces_ctx (p : Panel) (lc tag lc' slot : Nat) :
    (p.parkPlaces lc tag).ctx lc' slot =
      if (lc', slot) ∈ groupPlaces p lc tag then (p.ctx lc' slot).parkedNow p.now else p.ctx lc' slot := by
  refine Panel.ctx_foldl_places _ (fun c => c.parkedNow p.now) (fun c => ?_) lc' slot (fun q x => Panel.ctx_updCtx ..) _ _
  rw [Ctx.parkedNow, if_pos (Ctx.parkedNow_st ..)]

/-- The updates of contexts move nothing but the cores. -/
theorem Panel.parkPlaces_frame {β : Type} (g : Panel → β) (hg : ∀ (q : Panel) (cs : SMap Core), g { q with cores := cs } = g q) (p : Panel)
    (lc tag : Nat) : g (p.parkPlaces lc tag) = g p :=
  Panel.foldl_keeps _ g (fun q _ => hg q _) _ p

/-- An entry for an Ouvpin core moves its mailboxes alone. -/
theorem Panel.mailTo_eq (p : Panel) (to_ typ : Nat) (pl : List Nat) :
    ∃ m w n, p.mailTo to_ typ pl = { p with mail := m, mailWait := w, mailSeq := n } := by
  unfold Panel.mailTo
  dsimp only
  split
  · exact ⟨_, _, _, rfl⟩
  · exact ⟨_, _, _, rfl⟩

/-- What a mailbox gets depends on the mailboxes alone. -/
theorem Panel.mailTo_mail_congr {p q : Panel} (hm : q.mail = p.mail) (hn : q.mailSeq = p.mailSeq) (to_ typ : Nat) (pl : List Nat) :
    (q.mailTo to_ typ pl).mail = (p.mailTo to_ typ pl).mail := by
  have hfull : q.boxFull to_ to_ = p.boxFull to_ to_ := by rw [Panel.boxFull, hm, Panel.boxFull]
  simp only [Panel.mailTo, hfull]
  split
  · exact hm
  · simp only [Panel.mailIn, hm, hn]

/-- An access that is alone in the table changed. -/
theorem Panel.updAcc_only {p : Panel} {a : Access} (h : p.accs = [(a.id, a)]) (f : Access → Access) :
    p.updAcc a.id f = { p with accs := [(a.id, f a)] } := by
  have hacc : p.acc a.id = some a := by simp [Panel.acc, h, SMap.find]
  rw [Panel.updAcc_eq hacc]
  simp [h, SMap.set, SMap.del, SMap.ins]

/-- An access that faults at a page. -/
def Access.atFault (a : Access) (fault page : Nat) : Access := { a with stage := .parked, fault := fault, fpage := page }

/-- The table's one access faults, as far as its core and the list of faults go: it stands in its core's record, its group is parked and its page is
put before the Memory core. -/
def Panel.parkHere (p : Panel) (a : Access) (fault page : Nat) : Panel :=
  (((Panel.updCore { p with accs := [(a.id, a.atFault fault page)] } a.core fun c =>
    { c with
      parked := (c.parked ++ ([a.id] ++ SMap.getD (p.core a.core).replays a.btag []).filter fun i => !c.parked.contains i).eraseDups.mergeSort (· ≤ ·)
      replays := SMap.del c.replays a.btag }).parkPlaces a.core a.btag).askPage (p.block a.btag).part (p.block a.btag).asid page)

@[simp] theorem Panel.writeRecord_cores (p : Panel) (lc : Nat) : (p.writeRecord lc).cores = p.cores := rfl

/-- A fault of a thread at home whose access is the only one: its group parks and the Memory core is told (R166-R168). -/
theorem Panel.park_only (p : Panel) (a : Access) (fault page : Nat) (haside : a.aside = false) (hslot : a.slot < 12) (h : p.accs = [(a.id, a)]) :
    let q := p.park a fault page
    let r := p.parkHere a fault page
    q.accs = r.accs ∧ q.cores = r.cores ∧ q.clusters = r.clusters ∧ q.parts = r.parts ∧
      q.mail = (p.mailTo 2 3 [a.core, parkSlot (p.part (p.block a.btag).part) a.core]).mail := by
  have hhandler : handlerSlot a.slot = false := by simp [handlerSlot]; omega
  have haway : awaySlot a.slot = false := by simp [awaySlot]; omega
  have hhome : p.homeSlotOf a.core a.slot = (a.core, a.slot) := by simp [Panel.homeSlotOf, haway]
  have hlater : (Panel.laterOf { p with accs := [(a.id, a.atFault fault page)] } a) = [] := by
    simp [Panel.laterOf, Access.atFault]
  have htold (r : Panel) (hr : r.mail = p.mail) (hn : r.mailSeq = p.mailSeq) (pl : List Nat) :
      let q := (r.writeRecord a.core).mailTo 2 3 pl
      q.accs = r.accs ∧ q.cores = r.cores ∧ q.clusters = r.clusters ∧ q.parts = r.parts ∧ q.mail = (p.mailTo 2 3 pl).mail := by
    obtain ⟨m, w, n, he⟩ := (r.writeRecord a.core).mailTo_eq 2 3 pl
    have hmail : m = (p.mailTo 2 3 pl).mail := by
      rw [← Panel.mailTo_mail_congr (q := r.writeRecord a.core) hr hn, he]
    subst hmail
    rw [he]
    exact ⟨rfl, rfl, rfl, rfl, rfl⟩
  have hmail : (p.parkHere a fault page).mail = p.mail := by
    simp [Panel.parkHere, Panel.askPage, Panel.parkPlaces_frame Panel.mail fun _ _ => rfl]
  have hseq : (p.parkHere a fault page).mailSeq = p.mailSeq := by
    simp [Panel.parkHere, Panel.askPage, Panel.parkPlaces_frame Panel.mailSeq fun _ _ => rfl]
  have hq := htold _ hmail hseq [a.core, parkSlot (p.part (p.block a.btag).part) a.core]
  have hpark : ∃ f d, p.park a fault page =
      (if (p.part (p.block a.btag).part).parkLimit = 0 then
        ((((p.parkHere a fault page).writeRecord a.core).mailTo 2 3 [a.core, parkSlot (p.part (p.block a.btag).part) a.core]).updBlock a.btag f).later 1
          .parklimitExpiry [a.btag]
      else
        (((((p.parkHere a fault page).writeRecord a.core).mailTo 2 3 [a.core, parkSlot (p.part (p.block a.btag).part) a.core]).updBlock a.btag f).later 1
          .parklimitExpiry [a.btag]).later d .parklimitExpiry [a.btag]) := by
    unfold Panel.park
    simp only [haside, hhandler, hhome, Bool.false_and, Bool.false_eq_true, if_false, Panel.updAcc_only h]
    simp only [show Panel.laterOf { p with accs := [(a.id, { a with stage := .parked, fault := fault, fpage := page })] } a = [] from hlater]
    exact ⟨_, _, rfl⟩
  obtain ⟨f, d, hpark⟩ := hpark
  dsimp only at hq ⊢
  rw [hpark]
  split
  · simpa using hq
  · simpa using hq

/-- A request of a walk that finds no page parks its access (R154). -/
theorem Panel.walkFail_notPresent (p : Panel) {a : Access} (vpn id : Nat) (h : p.acc id = some a) (hstage : a.stage = .tlb) :
    p.walkFail .notPresent vpn id = p.park a 1 vpn := by
  simp only [Panel.walkFail, h, hstage, if_true]

theorem Panel.parkHere_frame (p : Panel) (a : Access) (fault page : Nat) :
    (p.parkHere a fault page).accs = [(a.id, a.atFault fault page)] ∧ (p.parkHere a fault page).clusters = p.clusters := by
  constructor
  · simp [Panel.parkHere, Panel.askPage, Panel.parkPlaces_frame Panel.accs fun _ _ => rfl]
  · simp [Panel.parkHere, Panel.askPage, Panel.parkPlaces_frame Panel.clusters fun _ _ => rfl]

/-- The thread of a fault is parked as it stood. -/
theorem Panel.parkHere_ctx (p : Panel) (a : Access) (fault page : Nat) (hslot : a.slot < 12) (htag : (p.ctx a.core a.slot).btag = a.btag)
    (hst : (p.ctx a.core a.slot).st = .ready) :
    (p.parkHere a fault page).ctx a.core a.slot = (p.ctx a.core a.slot).parkedNow p.now := by
  let r : Panel := Panel.updCore { p with accs := [(a.id, a.atFault fault page)] } a.core fun c =>
    { c with
      parked := (c.parked ++ ([a.id] ++ SMap.getD (p.core a.core).replays a.btag []).filter fun i => !c.parked.contains i).eraseDups.mergeSort (· ≤ ·)
      replays := SMap.del c.replays a.btag }
  have hr : r.ctx a.core a.slot = p.ctx a.core a.slot := Panel.ctx_updCore _ _ _ _ _ fun _ => rfl
  have hmem : (a.core, a.slot) ∈ groupPlaces r a.core a.btag :=
    mem_groupPlaces r hslot (by rw [hr, htag]) (by rw [hr, hst]; decide) (by rw [hr, hst]; decide)
  have hcores : (p.parkHere a fault page).cores = (r.parkPlaces a.core a.btag).cores := Panel.updPart_cores ..
  have hctx : (p.parkHere a fault page).ctx a.core a.slot = (r.parkPlaces a.core a.btag).ctx a.core a.slot := by
    rw [Panel.ctx, Panel.core, hcores]
    rfl
  rw [hctx, Panel.parkPlaces_ctx, if_pos hmem, hr]
  rfl

/-- The page of a fault stands before the Memory core. -/
theorem Panel.parkHere_faults (p : Panel) (a : Access) (fault page : Nat) (h : (SMap.find p.parts (p.block a.btag).part).isSome = true) :
    ((p.block a.btag).asid, page) ∈ ((p.parkHere a fault page).part (p.block a.btag).part).faults := by
  unfold Panel.parkHere Panel.askPage
  rw [Panel.part_updPart_self]
  · dsimp only
    split
    next hc => simpa using hc
    next => simp
  · rw [Panel.parkPlaces_frame Panel.parts fun _ _ => rfl]
    exact h

/-! ### Removals of translations (R111, R155) -/

/-- An L1 line that a removal leaves with its cluster. -/
def Cluster.keepsLine (c : Cluster) (part asid v n : Nat) (l : L1Line) : Bool :=
  !(l.part == part && l.asid == asid && (c.loses part asid v n (l.vline / 1024) || bigGone v n l.attr (l.vline / 1024)))

/-- A cluster's TLB in a removal. -/
def Cluster.keptTlb (c : Cluster) (part asid v n : Nat) : List Tlb :=
  c.tlb.filter fun t => !(t.part == part && t.asid == asid && inInv v n t.vpn t.pages)

/-- A core's L1s in a removal. -/
def Core.dropLines (k : Core) (keep : L1Line → Bool) : Core := { k with l1d := k.l1d.filter keep, l1i := k.l1i.filter keep }

/-- The cores of a cluster in a removal. -/
def Panel.coresDrop (p : Panel) (cl part asid v n : Nat) : SMap Core :=
  p.cores.map fun (e : Nat × Core) => if clusterOf e.1 == cl then (e.1, e.2.dropLines ((p.cluster cl).keepsLine part asid v n)) else e

/-- A removal in a cluster takes lines from its cores and entries from its TLB; besides, only fills and walks move. -/
theorem Panel.dropIn_eq (p : Panel) (cl part asid v n : Nat) :
    ∃ ac f, (∀ c, (f c).tlb = c.keptTlb part asid v n) ∧
      ((p.cluster cl = {} ∧ p.dropIn cl part asid v n = { p with cores := p.coresDrop cl part asid v n, accs := ac }) ∨
        (Panel.updCluster { p with cores := p.coresDrop cl part asid v n, accs := ac } cl f).Walked (p.dropIn cl part asid v n)) := by
  by_cases hnone : (SMap.find p.clusters cl).isNone = true
  · have hc : p.cluster cl = {} := by rw [Panel.cluster, SMap.getD, Option.isNone_iff_eq_none.mp hnone]; rfl
    exact ⟨_, fun c => { c with tlb := c.keptTlb part asid v n }, fun _ => rfl, .inl ⟨hc, if_pos hnone⟩⟩
  · have hq : p.dropIn cl part asid v n = _ := if_neg hnone
    rw [hq]
    refine ⟨_, _, ?_, .inr (Panel.walked_walkers _ cl 4)⟩
    exact fun _ => rfl

/-- What a removal leaves of the panel: everything but cores, accesses, clusters, slices and the agenda. -/
def Panel.Unmapped (p q : Panel) : Prop :=
  ∃ cs ac cu sl ag, q = { p with cores := cs, accs := ac, clusters := cu, slices := sl, agenda := ag }

theorem Panel.Unmapped.trans {p q r : Panel} (hpq : p.Unmapped q) (hqr : q.Unmapped r) : p.Unmapped r := by
  obtain ⟨_, _, _, _, _, rfl⟩ := hpq
  obtain ⟨_, _, _, _, _, rfl⟩ := hqr
  exact ⟨_, _, _, _, _, rfl⟩

theorem Panel.dropIn_frame (p : Panel) (cl part asid v n : Nat) :
    p.Unmapped (p.dropIn cl part asid v n) ∧ (p.dropIn cl part asid v n).cores = p.coresDrop cl part asid v n := by
  obtain ⟨ac, f, -, ⟨-, he⟩ | ⟨⟨cs, sl, ag, he⟩, -⟩⟩ := p.dropIn_eq cl part asid v n
  · rw [he]
    exact ⟨⟨_, _, _, _, _, rfl⟩, rfl⟩
  · rw [he]
    exact ⟨⟨_, _, _, _, _, rfl⟩, rfl⟩

/-- A removal in a cluster takes from its TLB alone. -/
theorem Panel.tlb_dropIn (p : Panel) (cl part asid v n c : Nat) :
    ((p.dropIn cl part asid v n).cluster c).tlb = if cl = c then (p.cluster c).keptTlb part asid v n else (p.cluster c).tlb := by
  obtain ⟨ac, f, hf, ⟨hnone, he⟩ | ⟨-, htlb⟩⟩ := p.dropIn_eq cl part asid v n
  · rw [he]
    show (p.cluster c).tlb = _
    split
    next h => subst h; rw [hnone]; rfl
    next => rfl
  · rw [htlb]
    split
    next h => subst h; rw [Panel.cluster_updCluster_self, hf]; rfl
    next h => rw [Panel.cluster_updCluster_other _ _ _ _ h]; rfl

/-- A table with a function applied to the records of some keys. -/
theorem SMap.find_map_if {α : Type} (m : SMap α) (c : Nat → Bool) (f : α → α) (i : Nat) :
    SMap.find (m.map fun (e : Nat × α) => if c e.1 then (e.1, f e.2) else e) i = (SMap.find m i).map fun x => if c i then f x else x := by
  induction m with
  | nil => rfl
  | cons e t ih =>
    obtain ⟨k, v⟩ := e
    by_cases hk : k = i
    · subst hk
      cases hc : c k <;> simp [SMap.find, hc]
    · cases hc : c k <;> simp [SMap.find, hk, hc, ih]

/-- What a removal does to a core of its cluster, and to another. -/
theorem Panel.core_dropIn (p : Panel) (cl part asid v n lc : Nat) :
    (p.dropIn cl part asid v n).core lc =
      if clusterOf lc = cl then (p.core lc).dropLines ((p.cluster cl).keepsLine part asid v n) else p.core lc := by
  rw [Panel.core, (p.dropIn_frame cl part asid v n).2, SMap.getD, Panel.coresDrop,
    SMap.find_map_if p.cores (fun i => clusterOf i == cl) fun k => k.dropLines ((p.cluster cl).keepsLine part asid v n)]
  cases h : SMap.find p.cores lc with
  | none =>
    have hc : p.core lc = {} := by rw [Panel.core, SMap.getD, h]; rfl
    rw [hc, Option.map_none]
    split
    · rfl
    · rfl
  | some k =>
    have hc : p.core lc = k := by rw [Panel.core, SMap.getD, h]; rfl
    simp [hc]

/-- What every step of a fold keeps once it holds, and the step of one member of the list brings about, holds after the fold. -/
theorem Panel.foldl_reaches {α : Type} (f : Panel → α → Panel) (P : Panel → Prop) (hkeep : ∀ q a, P q → P (f q a)) (l : List α) (p : Panel)
    (h : P p ∨ ∃ a ∈ l, ∀ q, P (f q a)) : P (l.foldl f p) := by
  induction l generalizing p with
  | nil => simpa using h
  | cons b l ih =>
    rw [List.foldl_cons]
    apply ih
    rcases h with hp | ⟨a, ha, hat⟩
    · exact .inl (hkeep p b hp)
    · rcases List.mem_cons.mp ha with rfl | ha
      · exact .inl (hat p)
      · exact .inr ⟨a, ha, hat⟩

theorem Panel.tlbDrop_frame (p : Panel) (part asid v n : Nat) : p.Unmapped (p.tlbDrop part asid v n) := by
  refine Panel.foldl_reaches _ p.Unmapped (fun q cl h => h.trans (q.dropIn_frame cl part asid v n).1) _ p (.inl ⟨_, _, _, _, _, rfl⟩)

@[simp] theorem Panel.tlbDrop_mem (p : Panel) (part asid v n : Nat) : (p.tlbDrop part asid v n).mem = p.mem := by
  obtain ⟨_, _, _, _, _, he⟩ := p.tlbDrop_frame part asid v n
  rw [he]

@[simp] theorem Panel.tlbDrop_parts (p : Panel) (part asid v n : Nat) : (p.tlbDrop part asid v n).parts = p.parts := by
  obtain ⟨_, _, _, _, _, he⟩ := p.tlbDrop_frame part asid v n
  rw [he]

/-- A removal changes no thread. -/
theorem Panel.ctx_tlbDrop (p : Panel) (part asid v n lc slot : Nat) : (p.tlbDrop part asid v n).ctx lc slot = p.ctx lc slot := by
  refine Panel.foldl_keeps _ (fun q => q.ctx lc slot) (fun q cl => ?_) _ p
  rw [Panel.ctx, Panel.core_dropIn]
  split
  · rfl
  · rfl

/-- No TLB keeps an entry of a removed range. -/
theorem Panel.not_mem_tlb_tlbDrop (p : Panel) (part asid v n c : Nat) (e : Tlb) (h : e ∈ ((p.tlbDrop part asid v n).cluster c).tlb) :
    ¬ (e.part = part ∧ e.asid = asid ∧ inInv v n e.vpn e.pages = true) := by
  have hall : ∀ e ∈ ((p.tlbDrop part asid v n).cluster c).tlb, ¬ (e.part = part ∧ e.asid = asid ∧ inInv v n e.vpn e.pages = true) := by
    refine Panel.foldl_reaches _ (fun q => ∀ e ∈ (q.cluster c).tlb, ¬ (e.part = part ∧ e.asid = asid ∧ inInv v n e.vpn e.pages = true))
      (fun q cl hq e he => ?_) _ p ?_
    · rw [Panel.tlb_dropIn] at he
      split at he
      · exact hq e (List.mem_of_mem_filter he)
      · exact hq e he
    · by_cases hc : (SMap.find p.clusters c).isSome = true
      · obtain ⟨k, hk⟩ := Option.isSome_iff_exists.mp hc
        refine .inr ⟨c, ?_, fun q e he => ?_⟩
        · rw [List.mem_eraseDups]
          exact List.mem_append_right _ (List.mem_map.mpr ⟨(c, k), SMap.mem_of_find hk, rfl⟩)
        · rw [Panel.tlb_dropIn, if_pos rfl, Cluster.keptTlb, List.mem_filter] at he
          rintro ⟨hp, ha, hi⟩
          simp [hp, ha, hi] at he
      · refine .inl fun e he => ?_
        rw [Panel.cluster, SMap.getD, Option.not_isSome_iff_eq_none.mp hc] at he
        exact absurd he List.not_mem_nil
  exact hall e h

/-- No L1 data cache keeps a line of a removed range. -/
theorem Panel.not_mem_l1d_tlbDrop (p : Panel) (part asid v n lc : Nat) (l : L1Line) (h : l ∈ ((p.tlbDrop part asid v n).core lc).l1d) :
    ¬ (l.part = part ∧ l.asid = asid ∧ inInv v n (l.vline / 1024) 1 = true) := by
  have hall : ∀ l ∈ ((p.tlbDrop part asid v n).core lc).l1d, ¬ (l.part = part ∧ l.asid = asid ∧ inInv v n (l.vline / 1024) 1 = true) := by
    refine Panel.foldl_reaches _ (fun q => ∀ l ∈ (q.core lc).l1d, ¬ (l.part = part ∧ l.asid = asid ∧ inInv v n (l.vline / 1024) 1 = true))
      (fun q cl hq l hl => ?_) _ p ?_
    · rw [Panel.core_dropIn] at hl
      split at hl
      · exact hq l (List.mem_of_mem_filter hl)
      · exact hq l hl
    · by_cases hc : (SMap.find p.cores lc).isSome = true
      · obtain ⟨k, hk⟩ := Option.isSome_iff_exists.mp hc
        refine .inr ⟨clusterOf lc, ?_, fun q l hl => ?_⟩
        · rw [List.mem_eraseDups]
          exact List.mem_append_left _ (List.mem_map.mpr ⟨(lc, k), SMap.mem_of_find hk, rfl⟩)
        · rw [Panel.core_dropIn, if_pos rfl, Core.dropLines, List.mem_filter] at hl
          rintro ⟨hp, ha, hi⟩
          simp [Cluster.keepsLine, Cluster.loses, hp, ha, hi] at hl
      · refine .inl fun l hl => ?_
        rw [Panel.core, SMap.getD, Option.not_isSome_iff_eq_none.mp hc] at hl
        exact absurd hl List.not_mem_nil
  exact hall l h

/-! ### Page-table changes and TLBINV (R147, R155, R162) -/

theorem exec_pageTableChange (s : State) {pi asid page : Nat} {ws : List Nat} (hev : s.panel.ev = pi :: asid :: page :: ws) :
    exec .pageTableChange s = s.to
      (if s.panel.pinHolds pi asid page ws then s.panel.deferChange pi asid page ws else s.panel.changePage pi asid page ws) := by
  have h0 : s.panel.arg 0 = pi := by rw [Panel.arg, hev]; rfl
  have h1 : s.panel.arg 1 = asid := by rw [Panel.arg, hev]; rfl
  have h2 : s.panel.arg 2 = page := by rw [Panel.arg, hev]; rfl
  have h3 : s.panel.ev.drop 3 = ws := by rw [hev]; rfl
  show execPageTableChange s = _
  simp only [execPageTableChange, onPanel, h0, h1, h2, h3]
  rfl

/-- One write of an entry of the table of address spaces (R147). -/
theorem Panel.memWrites_asid (p : Panel) (part n v : Nat) (hv : bt v 63 = true) :
    p.memWrites part [2 ^ 52 + n, v] = p.updPart part fun q => { q with asids := SMap.set q.asids n (bf v 51 16) } := by
  simp only [Panel.memWrites, Nat.le_add_right, if_true, hv, Nat.add_sub_cancel_left]

/-- What a leaf's change does once its writes are done: no TLB and no L1 data cache keeps its old translation, and of the partition only the removals
that are under way move. -/
theorem Panel.changePage_drops (p : Panel) (part asid page : Nat) (ws : List Nat) :
    let q := p.changePage part asid page ws
    q.mem = (p.memWrites part ws).mem ∧
      (∀ c, ∀ e ∈ (q.cluster c).tlb, e.part = part → e.asid = asid → ¬ (e.vpn ≤ page ∧ page < e.vpn + e.pages)) ∧
      (∀ c, ∀ l ∈ (q.core c).l1d, l.part = part → l.asid = asid → l.vline / 1024 ≠ page) := by
  let r := (p.memWrites part ws).tlbDrop part asid page 1
  have hmem : r.mem = (p.memWrites part ws).mem := Panel.tlbDrop_mem ..
  have hclusters : (p.changePage part asid page ws).clusters = r.clusters := Panel.updPart_clusters ..
  have hcores : (p.changePage part asid page ws).cores = r.cores := Panel.updPart_cores ..
  refine ⟨(Panel.updPart_mem ..).trans hmem, fun c e he hp ha hin => ?_, fun c l hl hp ha hin => ?_⟩
  · rw [Panel.cluster, hclusters] at he
    refine Panel.not_mem_tlb_tlbDrop _ part asid page 1 c e he ⟨hp, ha, ?_⟩
    simp only [inInv, Bool.or_eq_true, Bool.and_eq_true, decide_eq_true_eq]
    omega
  · rw [Panel.core, hcores] at hl
    refine Panel.not_mem_l1d_tlbDrop _ part asid page 1 c l hl ⟨hp, ha, ?_⟩
    simp [inInv, hin]

/-- A change keeps what its writes left in the table of address spaces. -/
theorem Panel.changePage_asids (p : Panel) (part asid page : Nat) (ws : List Nat) (h : (SMap.find (p.memWrites part ws).parts part).isSome = true) :
    ((p.changePage part asid page ws).part part).asids = ((p.memWrites part ws).part part).asids := by
  show (Panel.part (Panel.updPart _ part _) part).asids = _
  rw [Panel.part_updPart_self _ _ _ (by rwa [Panel.tlbDrop_parts]), Panel.part, Panel.tlbDrop_parts]
  rfl

/-- A TLBINV that is alone in its partition: it looks again later, or its translations go and it leaves the list (R155). -/
theorem exec_tlbinvCompletion_alone (s : State) {lc slot asid v n nid : Nat} (hev : s.panel.ev = [lc, slot]) (hlc : lc < 2 ^ 16)
    (hone : (s.panel.part (partOf s.panel lc)).tlbinvs = [(lc, slot, asid, v, n, nid)]) (hstall : (s.panel.ctx lc slot).stall = .tlbinv) :
    exec .tlbinvCompletion s = s.to
      (if s.panel.underWay (partOf s.panel lc) asid v n nid then s.panel.later 1 .tlbinvCompletion [lc, slot]
      else ((s.panel.tlbDrop (partOf s.panel lc) asid v n).updPart (partOf s.panel lc) fun q => { q with tlbinvs := q.tlbinvs.erase (lc, slot, asid, v, n, nid) }).ready lc slot) := by
  have h0 : s.panel.arg 0 = lc := by rw [Panel.arg, hev]; rfl
  have h1 : s.panel.arg 1 = slot := by rw [Panel.arg, hev]; rfl
  have hctx (f : Partition → Partition) :
      (((s.panel.tlbDrop (partOf s.panel lc) asid v n).updPart (partOf s.panel lc) f).ctx lc slot).stall = .tlbinv := by
    rw [Panel.ctx, Panel.core, Panel.updPart_cores]
    show ((s.panel.tlbDrop (partOf s.panel lc) asid v n).ctx lc slot).stall = _
    rw [Panel.ctx_tlbDrop, hstall]
  show execTlbinvCompletion s = _
  simp only [execTlbinvCompletion, onPanel, h0, h1, Nat.ne_of_lt hlc, if_false, hone, List.find?_cons, beq_self_eq_true, Bool.and_self, hctx, if_true]
  rfl

end Sys2Proof.Machine
end

section
/-! A page that the Memory core refuses (R158, R170). -/

namespace Sys2Proof.Machine

/-! ### What a core's engines and its record hold -/

/-- The commands of a core that may wait for a page, and its parked accesses. -/
def Core.waiting (k : Core) : Walk × List Bulk × List Bulk × List Bulk × List Nat := (k.walk, k.pf, k.drop, k.mcrd, k.parked)

/-- Two panels agree on partitions, clusters and launches, and on what waits at each core. -/
structure Panel.SameWaits (p q : Panel) : Prop where
  parts : q.parts = p.parts
  clusters : q.clusters = p.clusters
  launches : q.launches = p.launches
  core : ∀ c, (q.core c).waiting = (p.core c).waiting

namespace Panel.SameWaits

theorem refl (p : Panel) : p.SameWaits p := ⟨rfl, rfl, rfl, fun _ => rfl⟩

theorem trans {p q r : Panel} (hpq : p.SameWaits q) (hqr : q.SameWaits r) : p.SameWaits r :=
  ⟨hqr.parts.trans hpq.parts, hqr.clusters.trans hpq.clusters, hqr.launches.trans hpq.launches, fun c => (hqr.core c).trans (hpq.core c)⟩

theorem of_booked {p q : Panel} (h : p.Booked q) : p.SameWaits q :=
  ⟨h.parts, h.clusters, (congrArg Panel.launches h.rest :), h.field Core.waiting fun _ _ _ _ => rfl⟩

end Panel.SameWaits

theorem Panel.sameWaits_updCore (p : Panel) (lc : Nat) (f : Core → Core) (hf : ∀ k, (f k).waiting = k.waiting) : p.SameWaits (p.updCore lc f) := by
  refine ⟨rfl, rfl, rfl, fun c => ?_⟩
  by_cases h : lc = c
  · subst h
    rw [Panel.core_updCore_self, hf]
  · rw [Panel.core_updCore_other _ _ _ _ h]

theorem Panel.sameWaits_updCtx (p : Panel) (lc slot : Nat) (f : Ctx → Ctx) : p.SameWaits (p.updCtx lc slot f) :=
  p.sameWaits_updCore lc (fun k => { k with ctxs := SMap.set k.ctxs slot (f (p.ctx lc slot)) }) fun _ => rfl

/-! ### A group that resumes (R170) -/

theorem Panel.sameWaits_unparkGroup (p : Panel) (lc tag : Nat) : p.SameWaits (p.unparkGroup lc tag) := by
  refine Panel.foldl_reaches _ p.SameWaits (fun q x h => ?_) _ p (.inl (.refl p))
  exact (h.trans (q.sameWaits_updCtx x.1 x.2 _)).trans (.of_booked (Panel.booked_rouse ..))

theorem unpark_unpark (now : Nat) (c : Ctx) : unpark now (unpark now c) = unpark now c := by
  have hout : (unpark now c).st ≠ .parked := by
    unfold unpark
    split
    · assumption
    · dsimp only
      split
      · decide
      · split <;> decide
  rw [unpark, if_pos hout]

/-- The threads of a group resume as their waits allow. -/
theorem Panel.ctx_unparkGroup (p : Panel) (lc tag lc' slot : Nat) :
    (p.unparkGroup lc tag).ctx lc' slot = if (lc', slot) ∈ groupPlaces p lc tag then unpark p.now (p.ctx lc' slot) else p.ctx lc' slot := by
  refine Panel.ctx_foldl_places _ (unpark p.now) (unpark_unpark p.now) lc' slot (fun q x => ?_) _ _
  rw [(Panel.booked_rouse _ _).ctx, Panel.ctx_updCtx]

theorem Panel.unparkGroup_accs (p : Panel) (lc tag : Nat) : (p.unparkGroup lc tag).accs = p.accs := by
  refine Panel.foldl_keeps _ Panel.accs (fun q x => ?_) _ p
  exact (Panel.booked_rouse ..).accs

/-- A record with nothing left to replay: it goes, and the group resumes. -/
theorem Panel.replayOn_done (p : Panel) (lc tag k : Nat) (h : SMap.find (p.core lc).replays tag = some []) :
    p.replayOn lc tag (k + 1) = (p.updCore lc fun c => { c with replays := SMap.del c.replays tag }).unparkGroup lc tag := by
  rw [Panel.replayOn]
  dsimp only
  rw [h]

/-! ### The record of a refused thread (R158) -/

/-- A load of a thread in its slot that is the only access leaves the table unperformed, and its counter falls. -/
theorem Panel.discard_load (p : Panel) (a : Access) (hmine : p.mine a = true) (hcls : a.cls = .loads) (honly : p.accs = [(a.id, a)]) :
    p.discard a = { p.decL a.core a.slot with accs := [] } := by
  have haccs : (p.decL a.core a.slot).accs = p.accs := by
    unfold Panel.decL
    rw [(Panel.booked_moveCheck _ _ _).accs]
    rfl
  have hdel : (p.decL a.core a.slot).delAcc a.id = { p.decL a.core a.slot with accs := [] } := by
    rw [Panel.delAcc, haccs, honly]
    simp [SMap.del]
  rw [Panel.discard, Panel.uncount, hmine, hcls]
  simp only [Bool.not_true, Bool.false_eq_true, if_false, hdel]
  rfl

theorem Panel.ctx_decL (p : Panel) (lc slot : Nat) : (p.decL lc slot).ctx lc slot = { p.ctx lc slot with ldc := (p.ctx lc slot).ldc - 1 } := by
  rw [Panel.decL, (Panel.booked_moveCheck _ _ _).ctx, Panel.ctx_updCtx_self]

theorem Panel.sameWaits_decL (p : Panel) (lc slot : Nat) : p.SameWaits (p.decL lc slot) :=
  (p.sameWaits_updCtx lc slot _).trans (.of_booked (Panel.booked_moveCheck ..))

/-- A thread that PAGE_FAULT awaits at its bundle, its access gone from record and table. -/
def Panel.refuseLoad (p : Panel) (a : Access) : Panel :=
  let q := p.updCore a.core fun c => { c with parked := c.parked.filter fun i => !([a.id].contains i), replays := SMap.set c.replays a.btag [] }
  (((q.discard a).updCtx a.core a.slot fun c => { c with pc := a.pc, stall := .none, wake := .none }).trapThread a.core a.slot 0x12 (w64 a.va)).writeRecord
    a.core

/-- A record whose one access is refused (R158, R170). -/
theorem Panel.actRecord_refused (p : Panel) (a : Access) (hrec : p.recordOf a.core a.btag = [a]) (hfault : a.fault ≠ 0) (hverdict : a.verdict = 3)
    (hst : (p.block a.btag).st = .resident) : p.actRecord a.core a.btag = (p.refuseLoad a).replayOn a.core a.btag 2 := by
  have hfirst : firstFault [a] a.core a.slot = some a := by simp [firstFault, hfault]
  unfold Panel.actRecord
  simp only [hrec, hst]
  simp [hfirst, hverdict, Panel.refuseLoad]

/-- What a core holds beside its contexts and books stands when the counter falls. -/
theorem Panel.field_decL {α : Type} (f : Core → α) (hbook : ∀ c e w i, f (c.booked e w i) = f c) (hctx : ∀ (k : Core) x, f { k with ctxs := x } = f k)
    (p : Panel) (lc slot c : Nat) : f ((p.decL lc slot).core c) = f (p.core c) := by
  rw [Panel.decL, (Panel.booked_moveCheck _ _ _).field f hbook, Panel.core_updCtx, hctx]

/-- The parked accesses and the replays of a core once the record of its one access is acted on. -/
def Core.acted (k : Core) (a : Access) : Core :=
  { k with parked := k.parked.filter fun i => !([a.id].contains i), replays := SMap.set k.replays a.btag [] }

/-- A panel whose access table is emptied, once its last thread has taken PAGE_FAULT for its bundle. -/
theorem Panel.faulted_frame (r : Panel) (lc slot : Nat) (pc : W) (va : Nat) :
    let q := ((Panel.updCtx { r with accs := [] } lc slot fun c => { c with pc := pc, stall := .none, wake := .none }).trapThread lc slot 0x12
      (w64 va)).writeRecord lc
    q.accs = [] ∧ r.SameWaits q ∧ (q.core lc).replays = (r.core lc).replays ∧ q.blocks = r.blocks ∧
      q.ctx lc slot = { r.ctx lc slot with
        pc := pc, stall := .none, wake := .none, pend := (r.ctx lc slot).pend ++ [⟨0x12, w64 va, true, false⟩] } := by
  let r' : Panel := { r with accs := [] }
  let q1 := r'.updCtx lc slot fun c => { c with pc := pc, stall := .none, wake := .none }
  let q2 := q1.trapThread lc slot 0x12 (w64 va)
  have hempty : r.SameWaits r' := ⟨rfl, rfl, rfl, fun _ => rfl⟩
  have hpend : q1.SameWaits q2 := Panel.sameWaits_updCtx ..
  have hwaits : r.SameWaits q2 := (hempty.trans (r'.sameWaits_updCtx lc slot _)).trans hpend
  have hreplays : (q2.core lc).replays = (r.core lc).replays := by
    rw [show q2 = q1.updCtx lc slot _ from rfl, Panel.core_updCtx, Panel.core_updCtx]
    rfl
  have hctx : q2.ctx lc slot = _ := Panel.ctx_updCtx_self q1 lc slot _
  rw [Panel.ctx_updCtx_self] at hctx
  obtain ⟨m, hm⟩ : ∃ m, q2.writeRecord lc = { q2 with mem := m } := ⟨_, rfl⟩
  have haccs : q2.accs = [] := by simp [q2, q1, r', Panel.trapThread]
  have hblocks : q2.blocks = r.blocks := by simp [q2, q1, r', Panel.trapThread]
  intro q
  have hq : q = { q2 with mem := m } := hm
  clear_value q q2
  rw [hq]
  exact ⟨haccs, ⟨hwaits.parts, hwaits.clusters, hwaits.launches, hwaits.core⟩, hreplays, hblocks, hctx⟩

/-- A thread that has lost a load to PAGE_FAULT and waits for nothing. -/
def Ctx.pageFaulted (c : Ctx) (pc : W) (va : Nat) : Ctx :=
  { c with ldc := c.ldc - 1, pc := pc, stall := .none, wake := .none, pend := c.pend ++ [⟨0x12, w64 va, true, false⟩] }

/-- A parked thread with PAGE_FAULT to take resumes ready. -/
theorem unpark_pageFaulted (now : Nat) (c : Ctx) (pc : W) (va : Nat) (h : c.st = .parked) :
    unpark now (c.pageFaulted pc va) = { c.pageFaulted pc va with parkedAt := 0, since := now, st := .ready } := by
  have hst : (c.pageFaulted pc va).st = .parked := h
  rw [unpark, if_neg (by simp [hst])]
  rfl

/-- What the refusal of a thread's one access leaves. -/
theorem Panel.refuseLoad_frame (p : Panel) (a : Access) (hmine : p.mine a = true) (hcls : a.cls = .loads) (honly : p.accs = [(a.id, a)]) :
    let q := p.refuseLoad a
    q.accs = [] ∧ (p.updCore a.core fun k => k.acted a).SameWaits q ∧ SMap.find (q.core a.core).replays a.btag = some [] ∧ q.blocks = p.blocks ∧
      q.ctx a.core a.slot = (p.ctx a.core a.slot).pageFaulted a.pc a.va := by
  let q := p.updCore a.core fun k => k.acted a
  have hctx : q.ctx a.core a.slot = p.ctx a.core a.slot := Panel.ctx_updCore _ _ _ _ _ fun _ => rfl
  have hmine' : q.mine a = true := by rw [Panel.mine, hctx]; exact hmine
  have hdiscard : q.discard a = { q.decL a.core a.slot with accs := [] } := q.discard_load a hmine' hcls honly
  have hreplays : ((q.decL a.core a.slot).core a.core).replays = SMap.set (p.core a.core).replays a.btag [] := by
    rw [Panel.field_decL Core.replays (fun _ _ _ _ => rfl) (fun _ _ => rfl), Panel.core_updCore_self]
    rfl
  have hrefuse : p.refuseLoad a = (((q.discard a).updCtx a.core a.slot fun c => { c with pc := a.pc, stall := .none, wake := .none }).trapThread
    a.core a.slot 0x12 (w64 a.va)).writeRecord a.core := rfl
  have hblocks : (q.decL a.core a.slot).blocks = p.blocks := (Panel.booked_moveCheck ..).blocks
  obtain ⟨haccs, hwaits, hrep, hblk, hc⟩ := (q.decL a.core a.slot).faulted_frame a.core a.slot a.pc a.va
  dsimp only
  rw [hrefuse, hdiscard]
  refine ⟨haccs, (q.sameWaits_decL a.core a.slot).trans hwaits, ?_, hblk.trans hblocks, ?_⟩
  · rw [hrep, hreplays, SMap.find_set_self]
  · rw [hc, Panel.ctx_decL, hctx]
    rfl

/-! ### Engines that wait for nothing -/

/-- No command of a core waits or runs. -/
def Core.EnginesIdle (k : Core) : Prop := k.walk.busy = false ∧ k.pf = [] ∧ k.drop = [] ∧ k.mcrd = []

/-- A core whose lists of commands are emptied when they are empty. -/
theorem Core.EnginesIdle.emptied {k : Core} (h : k.EnginesIdle) : { k with pf := [], drop := [], mcrd := [], walk := k.walk } = k := by
  obtain ⟨-, hpf, hdrop, hmcrd⟩ := h
  cases k
  simp_all

/-- Where no engine of a core waits, a page's decision leaves the core as it is. -/
theorem Panel.coreEngines_idle (p : Panel) (part asid page : Nat) (refuse : Bool) (lc : Nat) (h : (p.core lc).EnginesIdle) :
    p.coreEngines part asid page refuse lc = p.setCore lc (p.core lc) := by
  have ⟨hwalk, hpf, hdrop, hmcrd⟩ := h
  unfold Panel.coreEngines
  simp only [hwalk, hpf, hdrop, hmcrd, Bool.false_and, List.any_nil, List.map_nil, Bool.false_eq_true, if_false, Panel.updCore]
  exact congrArg _ h.emptied

/-- A core set to what it is. -/
theorem Panel.core_setCore_same (p : Panel) (lc c : Nat) : (p.setCore lc (p.core lc)).core c = p.core c := by
  by_cases h : lc = c
  · subst h
    exact Panel.core_setCore_self ..
  · exact Panel.core_setCore_other _ _ _ _ h

/-- Panels that agree but for how the table of cores is written. -/
def Panel.SameCores (p q : Panel) : Prop := (∃ cs, q = { p with cores := cs }) ∧ ∀ c, q.core c = p.core c

theorem Panel.sameCores_coreEngines (p : Panel) (part asid page : Nat) (refuse : Bool) (l : List Nat) (h : ∀ c, (p.core c).EnginesIdle) :
    p.SameCores (l.foldl (fun q lc => q.coreEngines part asid page refuse lc) p) := by
  refine Panel.foldl_reaches _ p.SameCores (fun q lc hq => ?_) l p (.inl ⟨⟨_, rfl⟩, fun _ => rfl⟩)
  obtain ⟨⟨cs, rfl⟩, hcore⟩ := hq
  rw [Panel.coreEngines_idle _ _ _ _ _ _ (by rw [hcore]; exact h lc)]
  exact ⟨⟨_, rfl⟩, fun c => (Panel.core_setCore_same _ lc c).trans (hcore c)⟩

/-! ### PAGE_RESOLUTION -/

/-- A refusal where no cluster, queue, copy and launch stands beside the threads. -/
theorem exec_pageResolution_refused (s : State) {pi asid page : Nat} (hev : s.panel.ev = [pi, asid, page, 1])
    (hfault : (asid, page) ∈ (s.panel.part pi).faults) (hdeferred : (s.panel.part pi).deferred = []) :
    exec .pageResolution s = s.to ((s.panel.resolvePage pi asid page true []).frontPages pi asid page true) := by
  have h0 : s.panel.arg 0 = pi := by rw [Panel.arg, hev]; rfl
  have h1 : s.panel.arg 1 = asid := by rw [Panel.arg, hev]; rfl
  have h2 : s.panel.arg 2 = page := by rw [Panel.arg, hev]; rfl
  have h3 : s.panel.arg 3 = 1 := by rw [Panel.arg, hev]; rfl
  have h4 : s.panel.ev.drop 4 = [] := by rw [hev]; rfl
  show execPageResolution s = _
  simp only [execPageResolution, onPanel, h0, h1, h2, h3, h4, hdeferred, List.any_nil, List.contains_iff_mem.mpr hfault]
  rfl

/-- Where no queue, copy and launch waits the front end does nothing with a decided page. -/
theorem Panel.frontPages_none (p : Panel) (pi asid page : Nat) (refuse : Bool) (hqueues : (p.part pi).queues = []) (hcopies : (p.part pi).copies = [])
    (hlaunches : p.launches = []) : p.frontPages pi asid page refuse = p := by
  simp only [Panel.frontPages, hqueues, hcopies, List.filter_nil, List.foldl_nil, hlaunches]

/-! ### A thread alone with its fault -/

/-- One core runs, its engines wait for nothing, and its one access is a parked load whose page is undecided. -/
structure Panel.LoneFault (p : Panel) (k : Core) (a : Access) : Prop where
  cores : p.cores = [(a.core, k)]
  parked : k.parked = [a.id]
  idle : k.EnginesIdle
  clusters : p.clusters = []
  accs : p.accs = [(a.id, a)]
  slot : a.slot < 12
  stage : a.stage = .parked
  fault : a.fault = 1
  undecided : a.verdict = 0
  cls : a.cls = .loads
  tag : (p.ctx a.core a.slot).btag = a.btag
  st : (p.ctx a.core a.slot).st = .parked
  resident : (p.block a.btag).st = .resident

/-- The access once its page is refused. -/
def Access.refused (a : Access) : Access := { a with verdict := 3 }

@[simp] theorem Access.refused_core (a : Access) : a.refused.core = a.core := rfl
@[simp] theorem Access.refused_slot (a : Access) : a.refused.slot = a.slot := rfl
@[simp] theorem Access.refused_btag (a : Access) : a.refused.btag = a.btag := rfl
@[simp] theorem Access.refused_pc (a : Access) : a.refused.pc = a.pc := rfl
@[simp] theorem Access.refused_va (a : Access) : a.refused.va = a.va := rfl

/-- The panel once the page is decided, before the record is acted on. -/
def Panel.decided (p : Panel) (a : Access) : Panel :=
  { p.updPart (p.block a.btag).part fun q => { q with faults := q.faults.filter (· != ((p.block a.btag).asid, a.fpage)) } with
    accs := [(a.id, a.refused)] }

theorem Panel.ctx_decided (p : Panel) (a : Access) (c slot : Nat) : (p.decided a).ctx c slot = p.ctx c slot := by
  have hcores : (p.decided a).cores = p.cores := Panel.updPart_cores ..
  rw [Panel.ctx, Panel.core, hcores]
  rfl

theorem Panel.block_decided (p : Panel) (a : Access) (tag : Nat) : (p.decided a).block tag = p.block tag := by
  have hblocks : (p.decided a).blocks = p.blocks := Panel.updPart_blocks ..
  rw [Panel.block, hblocks]
  rfl

/-- A decision takes the page from the faults of its partition alone. -/
theorem Panel.part_decided {β : Type} (g : Partition → β) (hg : ∀ q x, g { q with faults := x } = g q) (p : Panel) (a : Access) (j : Nat) :
    g ((p.decided a).part j) = g (p.part j) :=
  p.part_updPart_keeps g (p.block a.btag).part j (fun q => { q with faults := q.faults.filter (· != ((p.block a.btag).asid, a.fpage)) }) fun q => hg q _

section
variable {p : Panel} {k : Core} {a : Access} (h : p.LoneFault k a)
include h

theorem Panel.LoneFault.core_decided (c : Nat) : (p.decided a).core c = if c = a.core then k else {} := by
  have hcores : (p.decided a).cores = p.cores := Panel.updPart_cores ..
  rw [Panel.core, hcores, h.cores, SMap.getD, SMap.find]
  split
  next hc => rw [if_pos hc.symm]; rfl
  next hc => rw [if_neg (Ne.symm hc)]; rfl

/-- The record of the decided access is acted on: its group resumes behind the trap. -/
theorem Panel.LoneFault.actRecords_decided :
    (p.decided a).actRecords =
      (((p.decided a).refuseLoad a.refused).updCore a.core fun c => { c with replays := SMap.del c.replays a.btag }).unparkGroup a.core a.btag := by
  have hcore := h.core_decided a.core
  rw [if_pos rfl] at hcore
  have hacc : (p.decided a).acc a.id = some a.refused := by simp [Panel.acc, Panel.decided, SMap.find]
  have hrec : (p.decided a).recordOf a.refused.core a.refused.btag = [a.refused] := by
    simp [Panel.recordOf, Access.refused, hcore, h.parked, hacc]
  have hact := (p.decided a).actRecord_refused a.refused hrec (by rw [show a.refused.fault = a.fault from rfl, h.fault]; decide) rfl
    (by rw [p.block_decided a]; exact h.resident)
  have hmine : (p.decided a).mine a.refused = true := by
    rw [Panel.mine, show (p.decided a).ctx a.refused.core a.refused.slot = p.ctx a.core a.slot from p.ctx_decided a _ _]
    simp [Access.refused, h.tag, h.st]
  have hfind := ((p.decided a).refuseLoad_frame a.refused hmine h.cls rfl).2.2.1
  have hcores : (p.decided a).cores = [(a.core, k)] := (Panel.updPart_cores ..).trans h.cores
  have htodo : ((p.decided a).cores.flatMap fun (e : Nat × Core) =>
      (((e.2.parked.filterMap (p.decided a).acc).map (·.btag)).eraseDups).map fun t => (e.1, t)) = [(a.core, a.btag)] := by
    simp [hcores, h.parked, hacc, Access.refused, List.eraseDups_cons]
  rw [Panel.actRecords, htodo, List.foldl_cons, List.foldl_nil]
  exact hact.trans (Panel.replayOn_done _ _ _ 1 hfind)

theorem Panel.LoneFault.mine_decided : (p.decided a).mine a.refused = true := by
  rw [Panel.mine, show (p.decided a).ctx a.refused.core a.refused.slot = p.ctx a.core a.slot from p.ctx_decided a _ _]
  simp [Access.refused, h.tag, h.st]

/-- Once the record is acted on the thread is ready at its bundle with PAGE_FAULT to take, the record is empty, and no engine waits. -/
theorem Panel.LoneFault.acted :
    let r := (p.decided a).actRecords
    r.accs = [] ∧ r.parts = (p.decided a).parts ∧ r.clusters = [] ∧ r.launches = p.launches ∧ (r.core a.core).parked = [] ∧
      (∀ c, (r.core c).EnginesIdle) ∧ ∃ now, r.ctx a.core a.slot = unpark now ((p.ctx a.core a.slot).pageFaulted a.pc a.va) := by
  rw [h.actRecords_decided]
  obtain ⟨haccs, hwaits, -, -, hctx⟩ := (p.decided a).refuseLoad_frame a.refused h.mine_decided h.cls rfl
  simp only [Access.refused_core, Access.refused_slot, Access.refused_pc, Access.refused_va, p.ctx_decided] at hwaits hctx
  generalize (p.decided a).refuseLoad a.refused = q at haccs hwaits hctx ⊢
  let q' := q.updCore a.core fun c => { c with replays := SMap.del c.replays a.btag }
  have hkeep : q'.ctx a.core a.slot = q.ctx a.core a.slot := Panel.ctx_updCore _ _ _ _ _ fun _ => rfl
  have hctx' := hkeep.trans hctx
  have hplace : (a.core, a.slot) ∈ groupPlaces q' a.core a.btag :=
    mem_groupPlaces q' h.slot (by rw [hctx']; exact h.tag)
      (by rw [hctx', show ((p.ctx a.core a.slot).pageFaulted a.pc a.va).st = .parked from h.st]; decide)
      (by rw [hctx', show ((p.ctx a.core a.slot).pageFaulted a.pc a.va).st = .parked from h.st]; decide)
  have hdel : q.SameWaits q' := Panel.sameWaits_updCore _ _ _ fun _ => rfl
  have hdone : ((p.decided a).updCore a.core fun k => k.acted a.refused).SameWaits (q'.unparkGroup a.core a.btag) :=
    (hwaits.trans hdel).trans (q'.sameWaits_unparkGroup a.core a.btag)
  have hwaiting (c : Nat) : ((q'.unparkGroup a.core a.btag).core c).waiting =
      if c = a.core then (k.walk, k.pf, k.drop, k.mcrd, []) else ({}, [], [], [], []) := by
    rw [hdone.core]
    by_cases hc : a.core = c
    · subst hc
      rw [Panel.core_updCore_self, h.core_decided, if_pos rfl, if_pos rfl]
      simp [Core.waiting, Core.acted, h.parked, Access.refused]
    · rw [Panel.core_updCore_other _ _ _ _ hc, h.core_decided, if_neg (Ne.symm hc), if_neg (Ne.symm hc)]
      rfl
  refine ⟨(q'.unparkGroup_accs ..).trans haccs, hdone.parts.trans (Panel.updCore_parts ..), ?_, ?_, ?_, fun c => ?_, q'.now, ?_⟩
  · exact (hdone.clusters.trans (Panel.updCore_clusters ..)).trans ((Panel.updPart_clusters ..).trans h.clusters)
  · exact (hdone.launches.trans (Panel.updCore_launches ..)).trans (Panel.updPart_launches ..)
  · have hw := hwaiting a.core
    rw [if_pos rfl] at hw
    exact congrArg (·.2.2.2.2) hw
  · have hw := hwaiting c
    obtain ⟨hwalk, hpf, hdrop, hmcrd⟩ := h.idle
    by_cases hc : c = a.core
    · simp only [hc, if_true, Core.waiting, Prod.mk.injEq] at hw
      obtain ⟨h1, h2, h3, h4, -⟩ := hw
      rw [hc]
      exact ⟨h1 ▸ hwalk, h2.trans hpf, h3.trans hdrop, h4.trans hmcrd⟩
    · simp only [hc, if_false, Core.waiting, Prod.mk.injEq] at hw
      obtain ⟨h1, h2, h3, h4, -⟩ := hw
      exact ⟨h1 ▸ rfl, h2, h3, h4⟩
  · rw [Panel.ctx_unparkGroup, if_pos hplace, hctx']

/-- The decision reaches the access, and nothing else. -/
theorem Panel.LoneFault.sameCores_resolvePage :
    (p.decided a).actRecords.SameCores (p.resolvePage (p.block a.btag).part (p.block a.btag).asid a.fpage true []) := by
  obtain ⟨-, -, hclusters, -, -, hidle, -⟩ := h.acted
  let p1 := p.updPart (p.block a.btag).part fun q => { q with faults := q.faults.filter (· != ((p.block a.btag).asid, a.fpage)) }
  have hblock : p1.block a.btag = p.block a.btag := p.block_decided a a.btag
  have haccs : p1.accs = [(a.id, a)] := (Panel.updPart_accs ..).trans h.accs
  have hmap : (p1.accs.map fun (e : Nat × Access) => (e.1, decide_ p1 (p.block a.btag).part (p.block a.btag).asid a.fpage 3 e.2)) = [(a.id, a.refused)] := by
    simp [haccs, decide_, h.stage, h.fault, h.undecided, hblock, Access.refused]
  have hdecided : ({ p1 with accs := p1.accs.map fun (e : Nat × Access) => (e.1, decide_ p1 (p.block a.btag).part (p.block a.btag).asid a.fpage 3 e.2) } : Panel) =
      p.decided a := by
    rw [hmap]
    rfl
  unfold Panel.resolvePage
  simp only [if_true]
  rw [hdecided]
  have hsame := Panel.sameCores_coreEngines _ (p.block a.btag).part (p.block a.btag).asid a.fpage true ((p.decided a).actRecords.cores.map (·.1)) hidle
  obtain ⟨⟨cs, he⟩, -⟩ := id hsame
  have hnone : (((p.decided a).actRecords.cores.map (·.1)).foldl
      (fun q lc => q.coreEngines (p.block a.btag).part (p.block a.btag).asid a.fpage true lc) (p.decided a).actRecords).clusters = [] := by
    rw [he]
    exact hclusters
  rw [hnone]
  exact hsame

/-- A refused page ends its thread's wait: it is ready at the bundle of its access with PAGE_FAULT to take, and the access is gone. -/
theorem Panel.LoneFault.resolved (hqueues : (p.part (p.block a.btag).part).queues = []) (hcopies : (p.part (p.block a.btag).part).copies = [])
    (hlaunches : p.launches = []) (r : Panel)
    (hr : r = (p.resolvePage (p.block a.btag).part (p.block a.btag).asid a.fpage true []).frontPages (p.block a.btag).part (p.block a.btag).asid a.fpage true) :
    (r.ctx a.core a.slot).st = .ready ∧ (r.ctx a.core a.slot).pc = a.pc ∧ r.acc a.id = none ∧ (r.ctx a.core a.slot).g = (p.ctx a.core a.slot).g ∧
      (r.ctx a.core a.slot).pend = (p.ctx a.core a.slot).pend ++ [⟨0x12, BitVec.ofNat 64 a.va, true, false⟩] ∧ (r.core a.core).parked = [] := by
  obtain ⟨haccs, hparts, -, hl, hparked, -, now, hctx⟩ := h.acted
  obtain ⟨⟨cs, he⟩, hcore⟩ := h.sameCores_resolvePage
  have hpart : (p.resolvePage (p.block a.btag).part (p.block a.btag).asid a.fpage true []).part (p.block a.btag).part =
      (p.decided a).part (p.block a.btag).part := by
    rw [he, Panel.part]
    exact congrArg (fun m => SMap.getD m _ noPart) hparts
  have hq : ((p.decided a).part (p.block a.btag).part).queues = [] := (p.part_decided Partition.queues (fun _ _ => rfl) a _).trans hqueues
  have hc : ((p.decided a).part (p.block a.btag).part).copies = [] := (p.part_decided Partition.copies (fun _ _ => rfl) a _).trans hcopies
  have hlaunch : (p.resolvePage (p.block a.btag).part (p.block a.btag).asid a.fpage true []).launches = [] := by
    rw [he]
    exact hl.trans hlaunches
  have hfront := Panel.frontPages_none _ (p.block a.btag).part (p.block a.btag).asid a.fpage true (by rw [hpart, hq]) (by rw [hpart, hc]) hlaunch
  have hctx' : r.ctx a.core a.slot = unpark now ((p.ctx a.core a.slot).pageFaulted a.pc a.va) := by
    rw [hr, hfront, Panel.ctx, hcore]
    exact hctx
  rw [unpark_pageFaulted _ _ _ _ h.st] at hctx'
  rw [hctx', hr, hfront, hcore, hparked, he, Panel.acc]
  exact ⟨rfl, rfl, congrArg (fun m => SMap.find m a.id) haccs, rfl, rfl, rfl⟩

end

/-! ### The statement -/

/-- Settles O37: a walk's end from what it leaves in its cluster and in its core's record, removals from the fold over the clusters, a refusal from
the record acted on. -/
theorem translationEvents : Obligations.TranslationEvents := by
  unfold Obligations.TranslationEvents
  intro s cl pi asid page lc slot id a
  refine ⟨fun w t hev hwalks hjoined hidle => ⟨fun hres hbad => ?placed, fun hres => ?none⟩, ?parks, fun hev => ⟨fun hpin => ?deferred, fun hpin => ?changed⟩,
    fun n v hev hpin hv hpart => ?space, ?refuses, ?tlbinv⟩
  case placed =>
    have hexec := exec_tlbWalkComplete_ok s hev hwalks hres hbad
    rw [hjoined, List.foldl_nil, Panel.walkedOut_settles _ _ hwalks hidle] at hexec
    refine ⟨_, hexec, ?_, ?_, Panel.updCluster_mem ..⟩
    · rw [Panel.cluster_updCluster_self]
      exact Cluster.mem_walkedOut ..
    · rw [Panel.cluster_updCluster_self]
      exact Cluster.walkedOut_walks _ _ _ _ _ hwalks
  case none =>
    have hexec := exec_tlbWalkComplete_none s hev hwalks hres
    rw [hjoined, List.foldl_nil, Panel.walkedOut_settles _ _ hwalks hidle] at hexec
    refine ⟨_, hexec, ?_, Panel.updCluster_mem ..⟩
    rw [Panel.cluster_updCluster_self]
    exact Cluster.tlb_walkedOut_none ..
  case parks =>
    intro w hev hwalks hjoined hres haccs hid hstage hkind htile hhint hslot c b htag hst hpart
    subst hid
    let q := s.panel.updCluster cl fun c => c.walkedOut w .notPresent false s.panel.evs
    have haside : a.aside = false := by simp [Access.aside, hkind, htile, hhint]
    obtain ⟨hpaccs, hpcores, hpclusters, hpparts, hpmail⟩ := q.park_only a 1 w.vpn haside hslot haccs
    obtain ⟨hha, hhc⟩ := q.parkHere_frame a 1 w.vpn
    have hacc : q.acc a.id = some a := by simp [q, Panel.acc, haccs, SMap.find]
    have hfail := q.walkFail_notPresent w.vpn a.id hacc hstage
    have hwalks' : ((q.park a 1 w.vpn).cluster cl).walks = [] := by
      rw [Panel.cluster, hpclusters, hhc]
      exact (congrArg Cluster.walks (Panel.cluster_updCluster_self ..)).trans (Cluster.walkedOut_walks _ _ _ _ _ hwalks)
    have hidle : ∀ e ∈ (q.park a 1 w.vpn).accs, e.2.stage ≠ .tlb := by
      rw [hpaccs, hha]
      simp [Access.atFault]
    have hexec := exec_tlbWalkComplete_none s hev hwalks hres
    rw [hjoined, List.foldl_cons, List.foldl_nil, hfail, Panel.walkers_idle _ _ _ hwalks', Panel.tlbPump_idle _ _ hidle] at hexec
    have hctx : (q.park a 1 w.vpn).ctx a.core a.slot = c.parkedNow s.panel.now := by
      rw [Panel.ctx, Panel.core, hpcores]
      exact q.parkHere_ctx a 1 w.vpn hslot htag hst
    refine ⟨{ s with panel := q.park a 1 w.vpn }, a.atFault 1 w.vpn, hexec, ?_, rfl, rfl, rfl, ?_, ?_, ?_, ?_⟩
    · rw [Panel.acc, hpaccs, hha]
      simp [SMap.find]
    · rw [hctx, Ctx.parkedNow_st]
    · rw [hctx, Ctx.parkedNow_g]
    · rw [Panel.part, hpparts]
      exact q.parkHere_faults a 1 w.vpn hpart
    · rw [← Panel.mailTo_mail_congr (p := s.panel) (q := q) rfl rfl]
      exact hpmail
  case deferred =>
    rw [exec_pageTableChange s hev, if_pos hpin]
    rfl
  case changed =>
    have hexec := exec_pageTableChange s hev
    rw [if_neg (hpin ▸ Bool.false_ne_true)] at hexec
    exact ⟨_, hexec, s.panel.changePage_drops pi asid page []⟩
  case space =>
    have hexec := exec_pageTableChange s hev
    rw [if_neg (hpin ▸ Bool.false_ne_true)] at hexec
    have hwrites := s.panel.memWrites_asid pi n v hv
    obtain ⟨x, hx⟩ := Option.isSome_iff_exists.mp hpart
    have hsome : (SMap.find (s.panel.memWrites pi [2 ^ 52 + n, v]).parts pi).isSome = true := by
      rw [hwrites, Panel.find_updPart_self _ _ _ _ hx]
      rfl
    refine ⟨_, hexec, ?_⟩
    rw [Panel.changePage_asids _ _ _ _ _ hsome, hwrites, Panel.part_updPart_self _ _ _ hpart, SMap.find_set_self]
  case refuses =>
    intro k hev hfault hdeferred hqueues hcopies hlaunches hcores hparked hbusy hpf hdrop hmcrd hclusters haccs hid hcore hslot hslot12 hstage hfault1 hverdict
      hpage hkind hcls htag hst hpi hasid hres
    subst hid hcore hslot hpi hasid hpage
    have hlone : s.panel.LoneFault k a := ⟨hcores, hparked, ⟨hbusy, hpf, hdrop, hmcrd⟩, hclusters, haccs, hslot12, hstage, hfault1, hverdict, hcls, htag, hst, hres⟩
    refine ⟨_, exec_pageResolution_refused s hev hfault hdeferred, ?_⟩
    dsimp only
    exact hlone.resolved hqueues hcopies hlaunches _ rfl
  case tlbinv =>
    intro v n nid hev hlc hone hstall hfree
    have hexec := exec_tlbinvCompletion_alone s hev hlc hone hstall
    refine ⟨fun hunder => ?_, fun hunder => ?_⟩
    · rw [hunder, if_pos rfl] at hexec
      exact ⟨_, hexec, hstall⟩
    · rw [hunder, if_neg (by decide)] at hexec
      have hpart : (SMap.find s.panel.parts (partOf s.panel lc)).isSome = true := by
        by_contra hno
        rw [Panel.part, SMap.getD, Option.not_isSome_iff_eq_none.mp hno] at hone
        cases hone
      let q := (s.panel.tlbDrop (partOf s.panel lc) asid v n).updPart (partOf s.panel lc) fun q => { q with tlbinvs := q.tlbinvs.erase (lc, slot, asid, v, n, nid) }
      have hctx : q.ctx lc slot = s.panel.ctx lc slot := by
        rw [Panel.ctx, Panel.core, Panel.updPart_cores]
        exact Panel.ctx_tlbDrop ..
      have hnow : q.now = s.panel.now := by
        obtain ⟨_, _, _, _, _, he⟩ := s.panel.tlbDrop_frame (partOf s.panel lc) asid v n
        rw [Panel.updPart_now, he]
      refine ⟨_, hexec, ?_, ?_, ?_, ?_⟩
      · rw [Panel.ctx_ready, hctx, hnow]
        exact Ctx.free_of_free hfree
      · rw [Panel.ctx_ready, hctx]
        rfl
      · rw [Panel.part, (Panel.booked_ready _ lc slot).parts]
        show (q.part (partOf s.panel lc)).tlbinvs = []
        rw [Panel.part_updPart_self _ _ _ (by rwa [Panel.tlbDrop_parts]), Panel.part, Panel.tlbDrop_parts]
        show (s.panel.part (partOf s.panel lc)).tlbinvs.erase _ = []
        simp [hone]
      · rw [Panel.ready_mem, Panel.updPart_mem, Panel.tlbDrop_mem]

end Sys2Proof.Machine
end

section
/-! Front-end accesses at slices where nothing waits, leases, and launches on their way (R120, R161, R430, R434, R441). -/

namespace Sys2Proof.Machine

/-! ### Line traffic at idle slices (R119-R124) -/

/-- From one panel to another only lines, their HBM and memory have moved; where nothing waited at the slices, nothing waits. -/
structure Panel.OnLines (p q : Panel) : Prop where
  frame : ∃ sl hb m, q = { p with slices := sl, hbm := hb, mem := m }
  idle : p.SlicesIdle → q.SlicesIdle

namespace Panel.OnLines

variable {p q r : Panel}

theorem refl (p : Panel) : p.OnLines p := ⟨⟨_, _, _, rfl⟩, id⟩

theorem trans (hpq : p.OnLines q) (hqr : q.OnLines r) : p.OnLines r := by
  obtain ⟨⟨_, _, _, rfl⟩, hq⟩ := hpq
  obtain ⟨⟨_, _, _, rfl⟩, hr⟩ := hqr
  exact ⟨⟨_, _, _, rfl⟩, hr ∘ hq⟩

theorem launches (h : p.OnLines q) : q.launches = p.launches := by obtain ⟨⟨_, _, _, rfl⟩, -⟩ := h; rfl

theorem parts (h : p.OnLines q) : q.parts = p.parts := by obtain ⟨⟨_, _, _, rfl⟩, -⟩ := h; rfl

theorem blocks (h : p.OnLines q) : q.blocks = p.blocks := by obtain ⟨⟨_, _, _, rfl⟩, -⟩ := h; rfl

theorem now (h : p.OnLines q) : q.now = p.now := by obtain ⟨⟨_, _, _, rfl⟩, -⟩ := h; rfl

theorem of_slices (hframe : ∃ sl hb m, q = { p with slices := sl, hbm := hb, mem := m }) (hslices : q.slices = p.slices) : p.OnLines q :=
  ⟨hframe, fun h => by rwa [Panel.SlicesIdle, hslices]⟩

end Panel.OnLines

theorem Panel.SlicesIdle.slice {p : Panel} (h : p.SlicesIdle) (sc : Nat) : (p.slice sc).Idle := by
  cases hfind : SMap.find p.slices sc with
  | none => simp [Panel.slice, SMap.getD, hfind, Slice.Idle]
  | some k =>
    have hk := h _ (SMap.mem_of_find hfind)
    rwa [Panel.slice, SMap.getD, hfind]

theorem Panel.onLines_updSlice (p : Panel) (sc : Nat) (f : Slice → Slice) (hf : ∀ k, k.Idle → (f k).Idle) : p.OnLines (p.updSlice sc f) := by
  refine ⟨⟨_, p.hbm, p.mem, rfl⟩, fun hidle e he => ?_⟩
  rcases SMap.mem_set he with rfl | he
  · exact hf _ (hidle.slice sc)
  · exact hidle e he

theorem Panel.onLines_settled (p : Panel) (sc : Nat) (hidle : p.SlicesIdle) : p.OnLines (p.settled sc) := by
  rw [p.settled_idle sc (hidle.slice sc)]
  exact p.onLines_updSlice sc _ fun _ h => h

theorem Panel.onLines_l2Check (p : Panel) (sc line : Nat) : p.OnLines (p.l2Check sc line) := by
  unfold Panel.l2Check
  split
  · refine p.onLines_updSlice sc _ fun k h => ?_
    dsimp only
    split
    · exact h
    · split
      · exact h
      · exact h
  · exact .refl p

theorem Panel.onLines_touch (p : Panel) (sc line : Nat) : p.OnLines (p.touch sc line) := by
  unfold Panel.touch
  split
  · exact .refl p
  · exact p.onLines_updSlice sc _ fun _ h => h

theorem Panel.onLines_setLine (p : Panel) (sc line : Nat) (whole : Bool) (f : Line → Line) : p.OnLines (p.setLine sc line whole f) :=
  p.onLines_updSlice sc _ fun _ h => h

theorem Panel.onLines_hbmFindAt (p : Panel) (spot : Nat × Nat) (line : Nat) : p.OnLines (p.hbmFindAt spot line) := by
  unfold Panel.hbmFindAt
  split
  · exact .refl p
  · dsimp only
    split
    · exact .of_slices ⟨_, _, _, rfl⟩ rfl
    · exact .of_slices ⟨_, _, _, rfl⟩ rfl

theorem Panel.onLines_writeBack (p : Panel) (l : L2Line) : p.OnLines (p.writeBack l) := by
  unfold Panel.writeBack
  split
  · exact .refl p
  · exact .of_slices ⟨_, _, _, rfl⟩ rfl

theorem Panel.onLines_dropLine (p : Panel) (sc line : Nat) : p.OnLines (p.dropLine sc line) := by
  unfold Panel.dropLine
  dsimp only
  split
  · exact p.onLines_l2Check sc line
  · exact ((p.onLines_l2Check sc line).trans (Panel.onLines_writeBack ..)).trans (Panel.onLines_updSlice _ _ _ fun _ h => h)

theorem Panel.onLines_placeLine (p : Panel) (q : Partition) (line key : Nat) : p.OnLines (p.placeLine q line key) := by
  have hfound : p.OnLines (p.hbmFind q line) := p.onLines_hbmFindAt ..
  have hput (r : Panel) (sc set way : Nat) : r.OnLines (r.putWay sc set line key way) := r.onLines_updSlice _ _ fun _ h => h
  unfold Panel.placeLine
  dsimp only
  split
  · exact hfound.trans (hput ..)
  · split
    · exact (hfound.trans (Panel.onLines_dropLine ..)).trans (hput ..)
    · exact hfound

theorem Panel.onLines_checked (p : Panel) (sc line : Nat) (hidle : p.SlicesIdle) : p.OnLines ((p.settled sc).l2Check sc line) :=
  (p.onLines_settled sc hidle).trans (Panel.onLines_l2Check ..)

/-! ### Reads and walks of the front end (R149, R161) -/

/-- A line that the front end gets: nothing but lines has moved. -/
theorem Panel.onLines_engineRead {p r : Panel} {q : Partition} {line key : Nat} {d : Line} (hidle : p.SlicesIdle)
    (h : p.engineRead q line key = .ok (d, r)) : p.OnLines r := by
  have hchecked := p.onLines_checked (homeSlice q line) line hidle
  unfold Panel.engineRead at h
  dsimp only at h
  generalize (p.settled (homeSlice q line)).l2Check (homeSlice q line) line = c at h hchecked
  split at h
  · cases h
  · split at h
    · split at h
      · cases h
      · split at h
        · cases h
        · cases h
          exact hchecked.trans (c.onLines_touch ..)
    · split at h
      · cases h
      · split at h
        · split at h
          · cases h
          · cases h
            exact hchecked.trans (c.onLines_placeLine ..)
        · cases h

theorem Panel.onLines_loadEntry {p r : Panel} {q : Partition} {table i e : Nat} (hidle : p.SlicesIdle) (h : p.loadEntry q table i = .ok (e, r)) :
    p.OnLines r := by
  unfold Panel.loadEntry at h
  dsimp only at h
  split at h
  · cases h
  · next hread =>
    cases h
    exact Panel.onLines_engineRead hidle hread

/-- A walk that ends without a class F cause has moved nothing but lines (R161). -/
theorem Panel.onLines_frontWalk {p r : Panel} {part asid vpn : Nat} {w : WalkR} (hidle : p.SlicesIdle)
    (h : p.frontWalk part asid vpn = (w, r)) (hw : ∀ c, w ≠ .fatal c) : p.OnLines r := by
  have hfatal {c : Nat} {q : Panel} (he : (WalkR.fatal c, q) = (w, r)) : p.OnLines r := absurd (congrArg Prod.fst he).symm (hw c)
  have hlast {q : Panel} {v : WalkR} (hq : p.OnLines q) (he : (v, q) = (w, r)) : p.OnLines r := by
    cases he
    exact hq
  unfold Panel.frontWalk at h
  dsimp only at h
  split at h
  · exact hlast (.refl p) h
  · split at h
    · exact hfatal h
    · split at h
      · exact hfatal h
      next h1 =>
      have hp1 := Panel.onLines_loadEntry hidle h1
      split at h
      · exact hlast hp1 h
      · split at h
        · exact hfatal h
        · split at h
          · exact hfatal h
          next h2 =>
          have hp2 := hp1.trans (Panel.onLines_loadEntry (hp1.idle hidle) h2)
          split at h
          · exact hlast hp2 h
          · split at h
            · exact hfatal h
            · split at h
              · exact hlast hp2 h
              · split at h
                · exact hfatal h
                next h3 =>
                have hp3 := hp2.trans (Panel.onLines_loadEntry (hp2.idle hidle) h3)
                split at h
                · exact hlast hp3 h
                · split at h
                  · exact hfatal h
                  · exact hlast hp3 h

/-! ### The lease of a launch (R161) -/

/-- A lease being formed: lines have moved, and the launch has pinned pages; its record is otherwise what it was. -/
structure Panel.Leased (p : Panel) (id : Nat) (l : Launch) (gs : List Nat) (q : Panel) : Prop where
  parts : q.parts = p.parts
  blocks : q.blocks = p.blocks
  now : q.now = p.now
  idle : q.SlicesIdle
  launch : SMap.find q.launches id = some { l with lease := gs }

theorem Panel.find_updLaunch (p : Panel) (id : Nat) (f : Launch → Launch) (l : Launch) (h : SMap.find p.launches id = some l) :
    SMap.find (p.updLaunch id f).launches id = some (f l) := by
  simp [Panel.updLaunch, h]

theorem Panel.launch_of_find {p : Panel} {id : Nat} {l : Launch} (h : SMap.find p.launches id = some l) : p.launch id = l := by
  simp [Panel.launch, SMap.getD, h]

theorem Panel.Leased.pin {p q : Panel} {id : Nat} {l : Launch} {gs : List Nat} (h : p.Leased id l gs q) (g : Nat) :
    p.Leased id l (if gs.contains g then gs else gs ++ [g])
      (q.updLaunch id fun l => { l with lease := if l.lease.contains g then l.lease else l.lease ++ [g] }) where
  parts := (q.updLaunch_parts ..).trans h.parts
  blocks := (q.updLaunch_blocks ..).trans h.blocks
  now := (q.updLaunch_now ..).trans h.now
  idle := by
    have := h.idle
    rwa [Panel.SlicesIdle, Panel.updLaunch_slices]
  launch := q.find_updLaunch id _ _ h.launch

theorem Panel.Leased.onLines {p q r : Panel} {id : Nat} {l : Launch} {gs : List Nat} (h : p.Leased id l gs q) (hr : q.OnLines r) :
    p.Leased id l gs r where
  parts := hr.parts.trans h.parts
  blocks := hr.blocks.trans h.blocks
  now := hr.now.trans h.now
  idle := hr.idle h.idle
  launch := hr.launches ▸ h.launch

/-- What the forming of a lease comes to, short of a class F cause: the pages pinned before stay pinned, and when every page is found all are. -/
theorem Panel.leaseScan_leased {p r : Panel} {id : Nat} {l : Launch} {res : LeaseR} (pages : List (Nat × Nat × Nat)) :
    ∀ {q : Panel} {gs : List Nat}, p.Leased id l gs q → q.leaseScan id pages = (res, r) → (∀ c a, res ≠ .fatal c a) →
      ∃ hs, p.Leased id l hs r ∧ gs ⊆ hs ∧ (res = .ok → ∀ e ∈ pages, e.2.1 ∈ hs) := by
  induction pages with
  | nil =>
    intro q gs hq h _
    cases h
    exact ⟨gs, hq, fun _ h => h, fun _ e he => absurd he List.not_mem_nil⟩
  | cons x pages ih =>
    obtain ⟨i, g, a⟩ := x
    intro q gs hq h hres
    have hwalk {w : WalkR} {y : Panel} (hw : q.frontWalk (q.launch id).part (q.launch id).asid g = (w, y)) (hne : ∀ c, w ≠ .fatal c) :
        p.Leased id l gs y := hq.onLines (Panel.onLines_frontWalk hq.idle hw hne)
    have hstop {y : Panel} {v : LeaseR} (hy : p.Leased id l gs y) (hv : v ≠ .ok) (he : (v, y) = (res, r)) :
        ∃ hs, p.Leased id l hs r ∧ gs ⊆ hs ∧ (res = .ok → ∀ e ∈ (i, g, a) :: pages, e.2.1 ∈ hs) := by
      cases he
      exact ⟨gs, hy, fun _ h => h, fun hok => absurd hok hv⟩
    unfold Panel.leaseScan at h
    dsimp only at h
    split at h
    · cases h
      exact absurd rfl (hres _ _)
    · next hw =>
      refine hstop (hwalk hw (fun _ => nofun)) ?_ h
      split
      · nofun
      · nofun
    · next hw =>
      have hy := hwalk hw (fun _ => nofun)
      split at h
      · obtain ⟨hs, hr, hsub, hall⟩ := ih (hy.pin g) h hres
        have hmem (y : Nat) (hy : y ∈ gs ∨ y = g) : y ∈ hs := by
          refine hsub ?_
          split
          next hc => exact hy.elim (fun h => h) fun e => e ▸ List.contains_iff_mem.mp hc
          next => exact List.mem_append.mpr (hy.imp (fun h => h) fun e => by simp [e])
        refine ⟨hs, hr, fun y hy => hmem y (.inl hy), fun hok e he => ?_⟩
        rcases List.mem_cons.mp he with rfl | he
        · exact hmem _ (.inr rfl)
        · exact hall hok e he
      · exact hstop (v := .unmapped i) hy nofun h

end Sys2Proof.Machine
end

section
/-! Admission, staging, records and charges of launches (R161, R430, R432-R437, R441, R442). -/

namespace Sys2Proof.Machine

/-! ### Admission (R161, R434, R435) -/

@[simp] theorem Panel.once_launches (p : Panel) (d : Nat) (e : Instr) (args : List Nat) : (p.once d e args).launches = p.launches := by
  unfold Panel.once
  split
  · rfl
  · rfl

@[simp] theorem Panel.admitNext_launches (p : Panel) (pi : Nat) : (p.admitNext pi).launches = p.launches := by
  unfold Panel.admitNext
  split
  · simp
  · rfl

/-- Putting a launch's staging commands on their clusters moves neither the launches nor memory. -/
theorem Panel.startStaging_keeps (p : Panel) (id : Nat) : (p.startStaging id).launches = p.launches ∧ (p.startStaging id).mem = p.mem := by
  have hon (q : Panel) (cl : Nat) (x : Stage) : (q.stageOn cl x).launches = q.launches ∧ (q.stageOn cl x).mem = q.mem :=
    ⟨Panel.once_launches .., Panel.once_mem ..⟩
  unfold Panel.startStaging
  dsimp only
  split
  · exact ⟨p.once_launches .., p.once_mem ..⟩
  · rw [Panel.updPart_launches, Panel.updPart_mem]
    exact ⟨Panel.foldl_keeps _ Panel.launches (fun q (e : Nat × Stage) => (hon q _ e.2).1) _ p, Panel.foldl_keeps _ Panel.mem (fun q (e : Nat × Stage) => (hon q _ e.2).2) _ p⟩

/-- A launch without blocks that ends keeps everything in its record but its status and address (R437). -/
theorem Panel.endLaunch_blockless (p : Panel) (id status addr : Nat) (l : Launch) (hl : SMap.find p.launches id = some l)
    (hlive : ¬ (l.st = .ended ∨ l.st = .retired)) (hblocks : p.blocks = []) :
    ∃ y, SMap.find (p.endLaunch id status addr).launches id = some y ∧ y.st = .ended ∧ y.status = status ∧ y.detail = l.detail := by
  unfold Panel.endLaunch
  rw [Panel.launch_of_find hl, if_neg hlive, hblocks]
  refine ⟨{ l with st := .ended, status := status, addr := addr, range := none, slots := [], asked := [] }, ?_, rfl, rfl, rfl⟩
  refine (congrArg (SMap.find · id) (Panel.launches_of_ends ((Panel.ends_later ..).trans (Panel.ends_launchStatus ..)))).trans ?_
  refine Panel.find_updLaunch _ id _ l ?_
  rw [Panel.updPart_launches]
  exact hl

/-- A launch whose turn it is belongs to a partition that stands: the queue that it waits in is mapped (R434). -/
theorem Panel.part_of_nextAdmit {p : Panel} {pi id : Nat} (h : p.nextAdmit pi = some id) : (SMap.find p.parts pi).isSome = true := by
  by_contra hno
  have hpart : p.part pi = noPart := by rw [Panel.part, SMap.getD, Option.not_isSome_iff_eq_none.mp hno]; rfl
  have hunmapped (qi : Nat) : (SMap.getD (p.part pi).queues qi {}).mapped = false := by rw [hpart]; rfl
  simp [Panel.nextAdmit, hunmapped] at h

/-- A launch before the stager: its packet has been parsed, and no weight set and no page keep it (R434). -/
structure Panel.Admitting (s : State) (pi id : Nat) (l : Launch) : Prop where
  ev : s.panel.ev = [pi, id]
  halted : (s.panel.part pi).schedHalted = false
  turn : s.panel.nextAdmit pi = some id
  found : SMap.find s.panel.launches id = some l
  part : l.part = pi
  page : l.rpage = none
  wsel : (s.panel.queueOf pi l.queue).wsel = 0
  st : l.st = .parsed
  idle : s.panel.SlicesIdle

/-- The pages of a launch's declarations: index, page, access (R161). -/
def Launch.pages (l : Launch) : List (Nat × Nat × Nat) :=
  ((List.range l.ws.length).zip l.ws).flatMap fun e => (pagesFrom e.2.va e.2.len).map fun g => (e.1, g, e.2.access)

section
variable {s : State} {pi id : Nat} {l : Launch} (h : Panel.Admitting s pi id l)
include h

theorem Panel.Admitting.admission : exec .admission s = .next { s with panel := s.panel.admitLaunch id [] none } := by
  obtain ⟨hev, hhalted, hturn, hfound, rfl, hpage, hwsel, hst, -⟩ := h
  have h0 : s.panel.arg 0 = l.part := by simp [Panel.arg, hev]
  have h1 : s.panel.arg 1 = id := by simp [Panel.arg, hev]
  show execAdmission s = _
  simp [execAdmission, onPanel, h0, h1, hhalted, hturn, Panel.launch_of_find hfound, hpage, hwsel]

/-- What the forming of its lease comes to, short of a class F cause. -/
theorem Panel.Admitting.leased {res : LeaseR} {r : Panel} (hscan : s.panel.leaseScan id l.pages = (res, r)) (hres : ∀ c a, res ≠ .fatal c a) :
    ∃ gs, s.panel.Leased id l gs r ∧ (res = .ok → ∀ e ∈ l.pages, e.2.1 ∈ gs) := by
  obtain ⟨gs, hr, -, hall⟩ := Panel.leaseScan_leased l.pages ⟨rfl, rfl, rfl, h.idle, h.found⟩ hscan hres
  exact ⟨gs, hr, hall⟩

theorem Panel.Admitting.admitLaunch_eq : s.panel.admitLaunch id [] none =
    match s.panel.leaseScan id l.pages with
    | (.fault g, r) => r.launchPage id g
    | (.unmapped i, r) => (r.updLaunch id fun l => { l with detail := i }).endLaunch id 3 0
    | (.fatal c a, r) => r.schedFatal l.part c a
    | (.ok, r) =>
      (((r.updLaunch id fun y => { y with
          st := .staging, ws := l.ws, admittedAt := r.now, rpage := none, rref := false
          wsel := (r.queueOf y.part y.queue).wsel, gen := 0 }).updPart l.part fun x =>
        { x with admitRr := SMap.set x.admitRr (l.prio / 16) l.queue }).startStaging id).admitNext l.part := by
  unfold Panel.admitLaunch
  simp only [Panel.launch_of_find h.found, List.append_nil]
  rfl

/-- With every page found the launch is being staged under its lease (R161, R434). -/
theorem Panel.Admitting.ok {r : Panel} (hscan : s.panel.leaseScan id l.pages = (.ok, r)) :
    ∃ t, exec .admission s = .next t ∧ t.panel.mem = r.mem ∧ (t.panel.launch id).st = .staging ∧ (t.panel.launch id).ws = l.ws ∧
      (t.panel.launch id).admittedAt = s.panel.now ∧ (t.panel.launch id).rpage = none ∧ (t.panel.launch id).wsel = 0 ∧
      ∀ e ∈ l.pages, e.2.1 ∈ (t.panel.launch id).lease := by
  obtain ⟨gs, hr, hall⟩ := h.leased hscan (fun _ _ => nofun)
  have hwsel : (r.queueOf l.part l.queue).wsel = 0 := by
    rw [Panel.queueOf, Panel.part, hr.parts, h.part]
    exact h.wsel
  refine ⟨_, h.admission, ?_⟩
  dsimp only
  rw [h.admitLaunch_eq, hscan]
  dsimp only
  generalize hq : Panel.updPart _ l.part _ = q
  obtain ⟨hlaunches, hmem⟩ := q.startStaging_keeps id
  have hfound : SMap.find q.launches id = some { l with
      lease := gs, st := .staging, ws := l.ws, admittedAt := r.now, rpage := none, rref := false, wsel := (r.queueOf l.part l.queue).wsel, gen := 0 } := by
    rw [← hq, Panel.updPart_launches]
    exact r.find_updLaunch id _ _ hr.launch
  have hlaunch : ((q.startStaging id).admitNext l.part).launch id = q.launch id := by
    rw [Panel.launch, Panel.admitNext_launches, hlaunches, Panel.launch]
  rw [hlaunch, Panel.launch_of_find hfound, Panel.admitNext_mem, hmem, ← hq, Panel.updPart_mem, Panel.updLaunch_mem]
  exact ⟨rfl, rfl, rfl, hr.now, rfl, hwsel, hall rfl⟩

/-- A page that is refused, or that lacks a right, ends the launch with status 3 and the index of its declaration (R161, R431). -/
theorem Panel.Admitting.unmapped {r : Panel} {i : Nat} (hscan : s.panel.leaseScan id l.pages = (.unmapped i, r)) (hblocks : s.panel.blocks = []) :
    ∃ t, exec .admission s = .next t ∧ (t.panel.launch id).st = .ended ∧ (t.panel.launch id).status = 3 ∧ (t.panel.launch id).detail = i := by
  obtain ⟨gs, hr, -⟩ := h.leased hscan (fun _ _ => nofun)
  refine ⟨_, h.admission, ?_⟩
  dsimp only
  rw [h.admitLaunch_eq, hscan]
  dsimp only
  generalize hq : r.updLaunch id _ = q
  have hfound : SMap.find q.launches id = some { l with lease := gs, detail := i } := hq ▸ r.find_updLaunch id _ _ hr.launch
  have hnone : q.blocks = [] := by rw [← hq, Panel.updLaunch_blocks, hr.blocks, hblocks]
  obtain ⟨y, hended, hst, hstatus, hdetail⟩ := q.endLaunch_blockless id 3 0 _ hfound (by simp [h.st]) hnone
  rw [Panel.launch_of_find hended]
  exact ⟨hst, hstatus, hdetail⟩

/-- A page that is not there yet is put before the Memory core, and the launch waits for it (R161). -/
theorem Panel.Admitting.fault {r : Panel} {g : Nat} (hscan : s.panel.leaseScan id l.pages = (.fault g, r)) :
    ∃ t, exec .admission s = .next t ∧ (t.panel.launch id).rpage = some g ∧ (l.asid, g) ∈ (t.panel.part pi).faults := by
  obtain ⟨gs, hr, -⟩ := h.leased hscan (fun _ _ => nofun)
  refine ⟨_, h.admission, ?_⟩
  dsimp only
  rw [h.admitLaunch_eq, hscan]
  dsimp only
  rw [Panel.launchPage, Panel.launch_of_find hr.launch]
  dsimp only
  generalize hq : r.updLaunch id _ = q
  have hfound : SMap.find q.launches id = some { l with lease := gs, rpage := some g, rref := false } := hq ▸ r.find_updLaunch id _ _ hr.launch
  have hpart : (SMap.find q.parts pi).isSome = true := by
    rw [← hq, Panel.updLaunch_parts, hr.parts]
    exact Panel.part_of_nextAdmit h.turn
  have hasked : (q.askPage l.part l.asid g).launch id = q.launch id := by rw [Panel.askPage, Panel.launch, Panel.updPart_launches, Panel.launch]
  rw [hasked, Panel.launch_of_find hfound, h.part, Panel.askPage, Panel.part_updPart_self _ _ _ hpart]
  refine ⟨rfl, ?_⟩
  dsimp only
  split
  next hc => exact List.contains_iff_mem.mp hc
  next => simp

end

/-! ### The end of staging (R432) -/

theorem Panel.updLaunch_congr {p : Panel} {id : Nat} {l : Launch} (hl : SMap.find p.launches id = some l) {f g : Launch → Launch} (h : f l = g l) :
    p.updLaunch id f = p.updLaunch id g := by
  simp [Panel.updLaunch, hl, h]

/-- The end of staging is looked at: nothing of the launch's TARGET 1 ranges is left on a cluster's path, or something is (R432). -/
theorem exec_stagingComplete (s : State) {id : Nat} {l : Launch} (hl : SMap.find s.panel.launches id = some l) (hev : s.panel.ev = [id])
    (hst : l.st = .staging) (hrange : l.range = none) :
    ((∀ e ∈ s.panel.clusters, ∀ y ∈ e.2.stage, y.launch ≠ id ∨ y.core ≠ 0) →
      exec .stagingComplete s = s.to (s.panel.updLaunch id fun y => { y with st := if l.blocks ≤ l.nextBlock then .placed else .placing })) ∧
    ((∃ e ∈ s.panel.clusters, ∃ y ∈ e.2.stage, y.launch = id ∧ y.core = 0) → exec .stagingComplete s = .next s) := by
  have h0 : s.panel.arg 0 = id := by simp [Panel.arg, hev]
  have hlaunch := Panel.launch_of_find hl
  refine ⟨fun hdone => ?_, fun hleft => ?_⟩
  · have hno : s.panel.clusters.any (fun (e : Nat × Cluster) => e.2.stage.any fun (x : Stage) => x.launch == id && x.core == 0) = false := by
      simp only [List.any_eq_false, Bool.and_eq_true, beq_iff_eq, not_and, Bool.not_eq_true]
      exact fun e he y hy hid => (hdone e he y hy).resolve_left (fun hne => hne hid)
    have hplaced : l.allPlaced = decide (l.blocks ≤ l.nextBlock) := by simp [Launch.allPlaced, hrange]
    have hupd := Panel.updLaunch_congr hl (f := fun y => { y with st := if y.allPlaced then .placed else .placing })
      (g := fun y => { y with st := if l.blocks ≤ l.nextBlock then .placed else .placing }) (by simp [hplaced])
    show execStagingComplete s = _
    simp only [execStagingComplete, onPanel, h0, hlaunch, hst, hno, Bool.not_false, and_self, if_true, hupd, State.to]
  · have hyes : s.panel.clusters.any (fun (e : Nat × Cluster) => e.2.stage.any fun (x : Stage) => x.launch == id && x.core == 0) = true := by
      obtain ⟨e, he, y, hy, hid, hcore⟩ := hleft
      exact List.any_eq_true.mpr ⟨e, he, List.any_eq_true.mpr ⟨y, hy, by simp [hid, hcore]⟩⟩
    show execStagingComplete s = _
    simp [execStagingComplete, onPanel, h0, hlaunch, hst, hyes, Panel.preempted]

/-! ### The record of a launch that is over (R430, R437) -/

theorem Panel.onLines_foldl {α : Type} (f : Panel → α → Panel) (h : ∀ (q : Panel) a, q.OnLines (f q a)) (xs : List α) (p : Panel) : p.OnLines (xs.foldl f p) := by
  induction xs generalizing p with
  | nil => exact .refl p
  | cons x xs ih => exact (h p x).trans (ih _)

theorem Panel.onLines_initFrame (p : Panel) (frame key : Nat) : p.OnLines (p.initFrame frame key) := by
  refine ⟨⟨_, _, _, rfl⟩, fun hidle e he => ?_⟩
  obtain ⟨e', he', rfl⟩ := List.mem_map.mp he
  exact hidle e' he'

theorem Panel.onLines_initPump (p : Panel) : p.OnLines p.initPump := by
  refine Panel.onLines_foldl _ (fun q e => ?_) _ p
  dsimp only
  split
  · exact .refl q
  · exact .trans (q := { q with hbm := { q.hbm with initq := q.hbm.initq.erase e } }) (.of_slices ⟨_, _, _, rfl⟩ rfl) (Panel.onLines_initFrame ..)

/-- A lease given up with no change held off by it: the launch pins nothing, and lines alone have moved besides (R162, R163). -/
theorem Panel.releaseLease_free (p : Panel) (id : Nat) (l : Launch) (hl : SMap.find p.launches id = some l)
    (hfree : (p.part l.part).deferred = []) : (p.updLaunch id fun y => { y with lease := [] }).OnLines (p.releaseLease id) := by
  have hpart : (p.updLaunch id fun y => { y with lease := [] }).part l.part = p.part l.part := by
    rw [Panel.part, Panel.updLaunch_parts, Panel.part]
  rw [Panel.releaseLease, Panel.launch_of_find hl, Panel.deferredPump, hpart, hfree, List.foldl_nil]
  exact Panel.onLines_initPump _

theorem Panel.queueOf_of_parts {p q : Panel} (h : q.parts = p.parts) (pi qi : Nat) : q.queueOf pi qi = p.queueOf pi qi := by
  rw [Panel.queueOf, Panel.part, h, Panel.queueOf, Panel.part]

theorem Panel.queueOf_fatalAt (p : Panel) (lc cause : Nat) (tval : W) (pi qi : Nat) : (p.fatalAt lc cause tval).queueOf pi qi = p.queueOf pi qi := by
  rw [Panel.fatalAt, Panel.raiseHalt]
  split
  · rfl
  · have hpart (f : Partition → Partition) (hf : ∀ x, (f x).queues = x.queues) : (p.updPart (partOf p lc) f).queueOf pi qi = p.queueOf pi qi :=
      congrArg (SMap.getD · qi ({} : Queue)) (Panel.part_updPart_keeps Partition.queues p (partOf p lc) pi f hf)
    exact hpart _ fun _ => rfl

/-- A scheduler's write into its tables leaves every queue as it is (R149, R420). -/
theorem Panel.queueOf_ownWrite (p : Panel) (x : Partition) (line off n v pi qi : Nat) (hidle : p.SlicesIdle) :
    (p.ownWrite x line off n v).queueOf pi qi = p.queueOf pi qi := by
  have hkept {r : Panel} (h : p.OnLines r) : r.queueOf pi qi = p.queueOf pi qi := Panel.queueOf_of_parts h.parts pi qi
  have hchecked := p.onLines_checked (homeSlice x line) line hidle
  have hlost : (p.sliceLost (homeSlice x line)).queueOf pi qi = p.queueOf pi qi := Panel.queueOf_fatalAt ..
  unfold Panel.ownWrite Panel.withLine
  dsimp only
  generalize (p.settled (homeSlice x line)).l2Check (homeSlice x line) line = c at hchecked ⊢
  by_cases hbad : (p.slice (homeSlice x line)).tagBad = true
  · rw [if_pos hbad]
    exact hlost
  · rw [if_neg hbad]
    split
    next r hr =>
      split at hr
      · split at hr
        · cases hr
        · cases hr
          exact hkept ((hchecked.trans (c.onLines_touch ..)).trans (Panel.onLines_setLine ..))
      · split at hr
        · cases hr
        · cases hr
          exact hkept ((hchecked.trans (c.onLines_placeLine ..)).trans (Panel.onLines_setLine ..))
    next e he =>
      have hc : e = (0x31, c) := by
        split at he
        · split at he
          · cases he
            rfl
          · cases he
        · split at he
          · cases he
            rfl
          · cases he
      subst hc
      exact (Panel.queueOf_fatalAt ..).trans (hkept hchecked)

theorem Panel.queueOf_flushQueue (p : Panel) (pi qi : Nat) (hidle : p.SlicesIdle) : (p.flushQueue pi qi).queueOf pi qi = p.queueOf pi qi := by
  unfold Panel.flushQueue
  dsimp only
  split
  · exact p.queueOf_ownWrite _ _ _ _ _ _ _ hidle
  · split
    · rfl
    · exact p.queueOf_ownWrite _ _ _ _ _ _ _ hidle

theorem Panel.queueOf_updQueue (p : Panel) (pi qi : Nat) (f : Queue → Queue) (hq : (SMap.find (p.part pi).queues qi).isSome = true) :
    (p.updQueue pi qi f).queueOf pi qi = f (p.queueOf pi qi) := by
  have hpart : (SMap.find p.parts pi).isSome = true := by
    by_contra hno
    rw [Panel.part, SMap.getD, Option.not_isSome_iff_eq_none.mp hno] at hq
    cases hq
  rw [Panel.queueOf, Panel.updQueue, Panel.part_updPart_self _ _ _ hpart, if_pos hq, SMap.getD_upd_self, Panel.queueOf]

/-- The record of a launch that nothing is left of: written at COMP, or left out (R430). -/
def Panel.recordTry (p : Panel) (id : Nat) (l : Launch) : Panel :=
  if l.comp = 0 then p.recordDone id
  else
    match p.frontWrite l.part l.asid l.priv l.comp 32 (recordWord l) with
    | .ok _ q => q.recordDone id
    | .refuse => (p.recordDone id).queueStop l.part l.queue 8
    | .fault g => if l.rref ∧ l.rpage = some g then (p.recordDone id).queueStop l.part l.queue 8 else p.launchPage id g
    | .fatal c a r => r.schedFatal l.part c a

/-- The launch is over: its lease is given up and its queue counts it, once (R430, R437). -/
theorem Panel.recordDone_counts (p : Panel) (id : Nat) (l : Launch) (hl : SMap.find p.launches id = some l) (hidle : p.SlicesIdle)
    (hfree : (p.part l.part).deferred = []) (hq : (SMap.find (p.part l.part).queues l.queue).isSome = true) :
    (p.recordDone id).launch id = { l with recorded := true, rpage := none, rref := false, lease := [] } ∧
      (p.recordDone id).queueOf l.part l.queue = { p.queueOf l.part l.queue with
        ndone := (p.queueOf l.part l.queue).ndone + 1
        nerr := if l.status = 0 then (p.queueOf l.part l.queue).nerr else (p.queueOf l.part l.queue).nerr + 1 } := by
  unfold Panel.recordDone
  rw [Panel.launch_of_find hl]
  dsimp only
  generalize hp1 : p.updLaunch id _ = p1
  have hparts1 : p1.parts = p.parts := hp1 ▸ p.updLaunch_parts ..
  have hfound1 : SMap.find p1.launches id = some { l with recorded := true, rpage := none, rref := false } := hp1 ▸ p.find_updLaunch id _ l hl
  have hidle1 : (p1.updLaunch id fun y => { y with lease := [] }).SlicesIdle := by
    rwa [Panel.SlicesIdle, Panel.updLaunch_slices, ← hp1, Panel.updLaunch_slices]
  have hfree1 : (p1.part l.part).deferred = [] := by rwa [Panel.part, hparts1]
  have hlines := p1.releaseLease_free id _ hfound1 hfree1
  generalize p1.releaseLease id = r at hlines ⊢
  have hrparts : r.parts = p.parts := hlines.parts.trans ((p1.updLaunch_parts ..).trans hparts1)
  have hrfound : SMap.find r.launches id = some { l with recorded := true, rpage := none, rref := false, lease := [] } :=
    hlines.launches ▸ p1.find_updLaunch id _ _ hfound1
  have hrqueue : (SMap.find (r.part l.part).queues l.queue).isSome = true := by rwa [Panel.part, hrparts]
  generalize hu : r.updQueue l.part l.queue _ = u
  have huidle : u.SlicesIdle := by
    rw [← hu, Panel.SlicesIdle, Panel.updQueue, Panel.updPart_slices]
    exact hlines.idle hidle1
  have hulaunches : (u.flushQueue l.part l.queue).launches = r.launches :=
    Panel.launches_of_ends ((u.ends_flushQueue ..).trans (hu ▸ r.ends_updQueue ..))
  refine ⟨Panel.launch_of_find ?_, ?_⟩
  · rw [Panel.admitNext_launches, hulaunches]
    exact hrfound
  · rw [Panel.queueOf_of_parts (Panel.admitNext_parts ..), u.queueOf_flushQueue _ _ huidle, ← hu, Panel.queueOf_updQueue _ _ _ _ hrqueue,
      Panel.queueOf_of_parts hrparts]

/-! ### Charges (R441, R442) -/

/-- What is left of a charge in a launch: whole µJ used, the remainder carried. -/
def Launch.charged (l : Launch) (sum : Nat) : Launch := { l with used := l.used + sum / 1000000, carry := sum % 1000000 }

theorem Panel.chargeLaunch_unbudgeted (p : Panel) (id : Nat) (l : Launch) (hl : SMap.find p.launches id = some l)
    (hfree : l.budget = 0 ∨ l.live = false) :
    (p.chargeLaunch id).launch id = l.charged (p.counted id + l.carry) ∧ (p.chargeLaunch id).blocks = p.blocks := by
  unfold Panel.chargeLaunch
  rw [Panel.launch_of_find hl, if_pos (by simpa using hfree)]
  exact ⟨Panel.launch_of_find (p.find_updLaunch id _ l hl), p.updLaunch_blocks ..⟩

theorem Panel.chargeLaunch_borne (p : Panel) (id : Nat) (l : Launch) (hl : SMap.find p.launches id = some l) (hbudget : l.budget ≠ 0)
    (hlive : l.live = true) (hleft : (p.counted id + l.carry) / 1000000 ≤ l.ebudget) :
    (p.chargeLaunch id).launch id =
        { l.charged (p.counted id + l.carry) with ebudget := l.ebudget - (p.counted id + l.carry) / 1000000 } ∧
      (p.chargeLaunch id).blocks = p.blocks := by
  unfold Panel.chargeLaunch
  rw [Panel.launch_of_find hl, if_neg (by simp [hbudget, hlive]), if_pos hleft]
  exact ⟨Panel.launch_of_find (Panel.find_updLaunch _ id _ _ (p.find_updLaunch id _ l hl)), (Panel.updLaunch_blocks ..).trans (p.updLaunch_blocks ..)⟩

/-- A charge that the budget cannot bear reloads it; an Ouvpin core is told, and the launch's blocks fall a class (R442). -/
theorem Panel.chargeLaunch_over (p : Panel) (id : Nat) (l : Launch) (hl : SMap.find p.launches id = some l) (hbudget : l.budget ≠ 0)
    (hlive : l.live = true) (hover : l.ebudget < (p.counted id + l.carry) / 1000000) :
    (p.chargeLaunch id).launch id = { l.charged (p.counted id + l.carry) with ebudget := l.budget } ∧
      (p.chargeLaunch id).mail = (p.mailTo 5 5 [l.seq]).mail ∧
      ∀ tag b, SMap.find p.blocks tag = some b →
        SMap.find (p.chargeLaunch id).blocks tag = some (if b.launch = id then { b with prio := b.prio - 16 } else b) := by
  unfold Panel.chargeLaunch
  rw [Panel.launch_of_find hl, if_neg (by simp [hbudget, hlive]), if_neg (Nat.not_le.mpr hover)]
  dsimp only
  generalize hq : (p.updLaunch id _).updLaunch id _ = q
  have hfound : SMap.find q.launches id = some { l.charged (p.counted id + l.carry) with ebudget := l.budget } :=
    hq ▸ Panel.find_updLaunch _ id _ _ (p.find_updLaunch id _ l hl)
  have hmail : q.mail = p.mail ∧ q.mailSeq = p.mailSeq ∧ q.blocks = p.blocks := by simp [← hq]
  obtain ⟨hm, hseq, hblocks⟩ := hmail
  refine ⟨Panel.launch_of_find ?_, ?_, fun tag b hb => ?_⟩
  · rw [Panel.mailTo_launches]
    exact hfound
  · apply Panel.mailTo_mail_congr
    · exact hm
    · exact hseq
  · rw [Panel.mailTo_blocks, hblocks,
      SMap.find_map p.blocks (fun b => if b.launch = id then { b with prio := b.prio - 16 } else b) tag, hb, Option.map_some]

/-- Of a panel with one launch the periodic charge is the charge of that launch. -/
theorem exec_energyCharge_one (s : State) {pi id : Nat} {l : Launch} (hev : s.panel.ev = [pi]) (hone : s.panel.launches = [(id, l)]) (hpart : l.part = pi) :
    ∃ t, exec .energyCharge s = .next t ∧ t.panel.launches = (s.panel.chargeLaunch id).launches ∧ t.panel.blocks = (s.panel.chargeLaunch id).blocks ∧
      t.panel.mail = (s.panel.chargeLaunch id).mail := by
  have h0 : s.panel.arg 0 = pi := by simp [Panel.arg, hev]
  have hids : (s.panel.launches.filter fun (e : Nat × Launch) => e.2.part == pi).map (·.1) = [id] := by simp [hone, hpart]
  refine ⟨_, rfl, ?_⟩
  show (Panel.launches (ite ..) = _ ∧ Panel.blocks (ite ..) = _ ∧ Panel.mail (ite ..) = _)
  simp only [h0, hids, List.foldl_cons, List.foldl_nil]
  split
  · unfold Panel.once
    split
    · exact ⟨rfl, rfl, rfl⟩
    · exact ⟨rfl, rfl, rfl⟩
  · exact ⟨rfl, rfl, rfl⟩

/-! ### The obligation -/

/-- Settles O48: admission by what the forming of the lease finds, where reads at idle slices move lines alone; the end of a launch by what its
record, lease and queue come to; charges by the three cases of the budget. -/
theorem launchEvents : Obligations.LaunchEvents := by
  unfold Obligations.LaunchEvents
  intro s pi id l hidle p x pages q hl hpart
  refine ⟨fun hev hhalted hturn hpage hwsel hst => ?_, fun hev hst hrange => exec_stagingComplete s hl hev hst hrange, ?_, ?_⟩
  · have h : Panel.Admitting s pi id l := ⟨hev, hhalted, hturn, hl, hpart, hpage, hwsel, hst, hidle⟩
    exact ⟨fun r hscan => h.ok hscan, fun i r hscan hblocks => h.unmapped hscan hblocks, fun g r hscan => h.fault hscan⟩
  · intro hev hover hrec hpage hfree hqueue
    have h0 : s.panel.arg 0 = id := congrArg (List.getD · 0 0) hev
    have hlaunch : s.panel.launch id = l := Panel.launch_of_find hl
    have hlive : l.live = false := by rcases hover with h | h <;> simp [Launch.live, h]
    have hexec : exec .completionRecordWrite s = s.to (if p.launchBusy id then p.later 1 .completionRecordWrite [id] else p.recordTry id l) := by
      show execCompletionRecordWrite s = _
      simp only [execCompletionRecordWrite, onPanel, h0, hlaunch]
      rw [if_neg (by simp [hlive, hrec, hpage])]
      rfl
    refine ⟨fun hbusy => ?_, fun y hquiet hy => ?_⟩
    · rw [hexec, if_pos hbusy]
    · have hdone : exec .completionRecordWrite s = .next { s with panel := y.recordDone id } ∧ y.parts = p.parts ∧ y.launches = p.launches ∧
          y.SlicesIdle := by
        rw [hexec, if_neg (ne_true_of_eq_false hquiet)]
        split at hy
        next hcomp =>
          subst hy
          rw [Panel.recordTry, if_pos hcomp]
          exact ⟨rfl, rfl, rfl, hidle⟩
        next hcomp =>
          obtain ⟨hwrite, hkept⟩ := hy
          rw [Panel.recordTry, if_neg hcomp, hpart, hwrite]
          exact ⟨rfl, hkept⟩
      obtain ⟨hnext, hparts, hlaunches, hyidle⟩ := hdone
      have hypart : y.part l.part = p.part pi := by rw [Panel.part, hparts, hpart, Panel.part]
      obtain ⟨hrecord, hcount⟩ := y.recordDone_counts id l (hlaunches ▸ hl) hyidle (by rw [hypart]; exact hfree) (by rw [hypart]; exact hqueue)
      rw [hpart, Panel.queueOf_of_parts hparts] at hcount
      refine ⟨_, hnext, ?_⟩
      dsimp only
      rw [hrecord, hcount]
      exact ⟨rfl, rfl, rfl, rfl⟩
  · intro hev hone sum
    obtain ⟨t, hexec, hlaunches, hblocks, hmail⟩ := exec_energyCharge_one s hev hone hpart
    have hlaunch : t.panel.launch id = (s.panel.chargeLaunch id).launch id := by rw [Panel.launch, hlaunches, Panel.launch]
    refine ⟨fun hfree => ?_, fun hbudget hlive hleft => ?_, fun hbudget hlive hover => ?_⟩
    · obtain ⟨hl', hb'⟩ := s.panel.chargeLaunch_unbudgeted id l hl hfree
      exact ⟨t, hexec, hlaunch.trans hl', hblocks.trans hb'⟩
    · obtain ⟨hl', hb'⟩ := s.panel.chargeLaunch_borne id l hl hbudget hlive hleft
      exact ⟨t, hexec, hblocks.trans hb', hlaunch.trans hl'⟩
    · obtain ⟨hl', hm', hb'⟩ := s.panel.chargeLaunch_over id l hl hbudget hlive hover
      exact ⟨t, hexec, hlaunch.trans hl', hmail.trans hm', fun tag b hb => by rw [hblocks, hb' tag b hb]⟩

end Sys2Proof.Machine
end

section
/-! What goes on behind the slots of threads (R120-R155, R165-R168, R263): accesses, packets, lines, engines and walks leave blocks, the lists of
absent blocks, and which thread stands in which slot, as they are. -/

namespace Sys2Proof.Machine

/-! ### The relation -/

/-- A block without what passes while it waits or is taken: its report of a parked episode, its inbox, its groups that have come to be taken. -/
def Block.standingPart (b : Block) : Block := { b with parkReported := false, inbox := [], taken := [] }

/-- A slot keeps its thread: a free slot stays free, a thread stays that of its block. -/
structure Ctx.Stays (c d : Ctx) : Prop where
  free : c = {} → d = {}
  thread : c.st ≠ .empty → d.st ≠ .empty ∧ d.btag = c.btag

namespace Ctx.Stays

variable {c d e : Ctx}

theorem refl (c : Ctx) : c.Stays c := ⟨id, fun h => ⟨h, rfl⟩⟩

theorem trans (hcd : c.Stays d) (hde : d.Stays e) : c.Stays e :=
  ⟨hde.free ∘ hcd.free, fun h =>
    have hd := hcd.thread h
    have he := hde.thread hd.1
    ⟨he.1, he.2.trans hd.2⟩⟩

theorem of_thread (hc : c.st ≠ .empty) (hd : d.st ≠ .empty) (htag : d.btag = c.btag) : c.Stays d :=
  ⟨fun h => absurd (congrArg Ctx.st h) hc, fun _ => ⟨hd, htag⟩⟩

end Ctx.Stays

/-- From one panel to another blocks stand as they stood, partitions keep their lists of absent blocks, and the slots of homed threads keep their
threads. -/
structure Panel.Settles (p q : Panel) : Prop where
  block : ∀ t, (q.block t).standingPart = (p.block t).standingPart
  readmit : ∀ i, (q.part i).readmit = (p.part i).readmit
  parts : ∀ i, (SMap.find q.parts i).isSome = (SMap.find p.parts i).isSome
  ctx : ∀ lc slot, slot < 12 → (p.ctx lc slot).Stays (q.ctx lc slot)

namespace Panel.Settles

variable {p q r : Panel}

theorem refl (p : Panel) : p.Settles p := ⟨fun _ => rfl, fun _ => rfl, fun _ => rfl, fun _ _ _ => .refl _⟩

theorem after (hqr : q.Settles r) (hpq : p.Settles q) : p.Settles r where
  block t := (hqr.block t).trans (hpq.block t)
  readmit i := (hqr.readmit i).trans (hpq.readmit i)
  parts i := (hqr.parts i).trans (hpq.parts i)
  ctx lc slot h := (hpq.ctx lc slot h).trans (hqr.ctx lc slot h)

theorem of (hblocks : q.blocks = p.blocks) (hparts : q.parts = p.parts) (hctx : ∀ lc slot, q.ctx lc slot = p.ctx lc slot) : p.Settles q where
  block t := by rw [Panel.block, hblocks, Panel.block]
  readmit i := by rw [Panel.part, hparts, Panel.part]
  parts i := by rw [hparts]
  ctx lc slot _ := by rw [hctx]; exact .refl _

theorem ite (c : Prop) [Decidable c] (hq : p.Settles q) (hr : p.Settles r) : p.Settles (if c then q else r) := by
  split
  · exact hq
  · exact hr

end Panel.Settles

theorem Panel.Booked.settles {p q : Panel} (h : p.Booked q) : p.Settles q := by
  refine .of (by rw [h.rest]) (by rw [h.rest]) fun lc slot => ?_
  obtain ⟨e, w, i, hc⟩ := h.core lc
  rw [Panel.ctx, hc, Panel.ctx]
  rfl

theorem Panel.Walked.settles {p q : Panel} (h : p.Walked q) : p.Settles q := by
  obtain ⟨⟨_, _, _, rfl⟩, -⟩ := h
  exact .of rfl rfl fun _ _ => rfl

theorem Panel.OnLines.settles {p q : Panel} (h : p.OnLines q) : p.Settles q := by
  obtain ⟨⟨_, _, _, rfl⟩, -⟩ := h
  exact .of rfl rfl fun _ _ => rfl

/-- A homed slot holds a thread; of the slots of handlers and migrated threads nothing is said. -/
def Panel.Holds (p : Panel) (lc slot : Nat) : Prop := slot < 12 → (p.ctx lc slot).st ≠ .empty

theorem Panel.Settles.holds {p q : Panel} (h : p.Settles q) {lc slot : Nat} (hp : p.Holds lc slot) : q.Holds lc slot := fun hslot =>
  ((h.ctx lc slot hslot).thread (hp hslot)).1

/-! ### State operations -/

theorem Panel.ctx_of_cores {p q : Panel} (h : q.cores = p.cores) (lc slot : Nat) : q.ctx lc slot = p.ctx lc slot := by
  rw [Panel.ctx, Panel.core, h, Panel.ctx, Panel.core]

section
variable (p : Panel)

theorem Panel.settles_updCore (lc : Nat) (f : Core → Core) (hf : ∀ c, (f c).ctxs = c.ctxs) : p.Settles (p.updCore lc f) :=
  .of rfl rfl fun lc' slot => p.ctx_updCore lc lc' slot f hf

theorem Panel.settles_setCtx (lc slot : Nat) (c : Ctx) (h : slot < 12 → (p.ctx lc slot).Stays c) : p.Settles (p.setCtx lc slot c) := by
  refine ⟨fun _ => rfl, fun _ => rfl, fun _ => rfl, fun lc' slot' hslot => ?_⟩
  by_cases hc : lc = lc'
  · subst hc
    by_cases hs : slot = slot'
    · subst hs
      rw [Panel.ctx_setCtx_self]
      exact h hslot
    · rw [p.ctx_setCtx_slot lc slot slot' c hs]
      exact .refl _
  · rw [p.ctx_setCtx_core lc lc' slot slot' c hc]
    exact .refl _

/-- A change of a thread that a slot holds. -/
theorem Panel.settles_updCtx_held (lc slot : Nat) (f : Ctx → Ctx) (hheld : p.Holds lc slot)
    (hf : ∀ c, c.st ≠ .empty → (f c).st ≠ .empty ∧ (f c).btag = c.btag) : p.Settles (p.updCtx lc slot f) :=
  p.settles_setCtx lc slot _ fun h => .of_thread (hheld h) (hf _ (hheld h)).1 (hf _ (hheld h)).2

/-- A change that leaves a free slot free, and every thread in its state and in its block. -/
theorem Panel.settles_updCtx (lc slot : Nat) (f : Ctx → Ctx) (hfree : f {} = {}) (hst : ∀ c, (f c).st = c.st) (htag : ∀ c, (f c).btag = c.btag) :
    p.Settles (p.updCtx lc slot f) :=
  p.settles_setCtx lc slot _ fun _ => ⟨fun h => h ▸ hfree, fun h => ⟨(hst _).symm ▸ h, htag _⟩⟩

theorem Panel.settles_updPart (i : Nat) (f : Partition → Partition) (hf : ∀ q, (f q).readmit = q.readmit) : p.Settles (p.updPart i f) where
  block t := by rw [Panel.block, Panel.updPart_blocks, Panel.block]
  readmit j := Panel.part_updPart_keeps Partition.readmit p i j f hf
  parts j := by
    unfold Panel.updPart
    split
    next x hx =>
      by_cases h : i = j
      · subst h
        simp [hx]
      · simp [SMap.find_set_other _ _ _ _ h]
    next => rfl
  ctx lc slot _ := Panel.ctx_of_cores (p.updPart_cores i f) lc slot ▸ .refl _

theorem Panel.settles_updBlock (tag : Nat) (f : Block → Block) (hf : ∀ b, (f b).standingPart = b.standingPart) : p.Settles (p.updBlock tag f) := by
  refine ⟨fun t => ?_, fun i => ?_, fun i => ?_, fun lc slot _ => ?_⟩
  · by_cases h : tag = t
    · subst h
      cases hfind : SMap.find p.blocks tag with
      | none => simp [Panel.updBlock, hfind]
      | some b => simp [Panel.updBlock, Panel.block, SMap.getD, hfind, hf]
    · rw [p.block_updBlock_other tag t f h]
  · rw [Panel.part, Panel.updBlock_parts, Panel.part]
  · rw [Panel.updBlock_parts]
  · exact Panel.ctx_of_cores (p.updBlock_cores tag f) lc slot ▸ .refl _

theorem Panel.settles_updCluster (i : Nat) (f : Cluster → Cluster) : p.Settles (p.updCluster i f) := .of rfl rfl fun _ _ => rfl

theorem Panel.settles_updSlice (i : Nat) (f : Slice → Slice) : p.Settles (p.updSlice i f) := .of rfl rfl fun _ _ => rfl

theorem Panel.settles_later (d : Nat) (e : Instr) (args : List Nat) : p.Settles (p.later d e args) := .of rfl rfl fun _ _ => rfl

theorem Panel.settles_once (d : Nat) (e : Instr) (args : List Nat) : p.Settles (p.once d e args) := by
  unfold Panel.once
  exact .ite _ (.refl p) (p.settles_later ..)

theorem Panel.settles_mailTo (to_ typ : Nat) (pl : List Nat) : p.Settles (p.mailTo to_ typ pl) :=
  .of (p.mailTo_blocks to_ typ pl) (p.mailTo_parts to_ typ pl) fun lc slot => Panel.ctx_of_cores (p.mailTo_cores to_ typ pl) lc slot

theorem Panel.settles_report (ep typ : Nat) (pl : List Nat) : p.Settles (p.report ep typ pl) := .of rfl rfl fun _ _ => rfl

theorem Panel.settles_updAcc (id : Nat) (f : Access → Access) : p.Settles (p.updAcc id f) := by
  unfold Panel.updAcc
  split
  · exact .of rfl rfl fun _ _ => rfl
  · exact .refl p

theorem Panel.settles_delAcc (id : Nat) : p.Settles (p.delAcc id) := .of rfl rfl fun _ _ => rfl

theorem Panel.settles_foldl {α : Type} (f : Panel → α → Panel) (h : ∀ (q : Panel) a, q.Settles (f q a)) (l : List α) : p.Settles (l.foldl f p) := by
  induction l generalizing p with
  | nil => exact .refl p
  | cons a l ih => exact (ih _).after (h p a)

theorem Panel.settles_bill (lc launch pj : Nat) : p.Settles (p.bill lc launch pj) := (p.booked_bill lc launch pj).settles

theorem Panel.settles_charge (lc tag pj : Nat) : p.Settles (p.charge lc tag pj) := p.settles_bill ..

theorem Panel.settles_billReq (r : Req) (pj : Nat → Nat) : p.Settles (p.billReq r pj) := (p.booked_billReq r pj).settles

theorem Panel.settles_billAnswer (id h : Nat) : p.Settles (p.billAnswer id h) := (p.booked_billAnswer id h).settles

theorem Panel.settles_l2Check (sc line : Nat) : p.Settles (p.l2Check sc line) := (p.onLines_l2Check sc line).settles

theorem Panel.settles_touch (sc line : Nat) : p.Settles (p.touch sc line) := (p.onLines_touch sc line).settles

theorem Panel.settles_dropLine (sc line : Nat) : p.Settles (p.dropLine sc line) := (p.onLines_dropLine sc line).settles

theorem Panel.settles_placeLine (q : Partition) (line key : Nat) : p.Settles (p.placeLine q line key) := (p.onLines_placeLine q line key).settles

theorem Panel.settles_setLine (sc line : Nat) (whole : Bool) (f : Line → Line) : p.Settles (p.setLine sc line whole f) :=
  (p.onLines_setLine sc line whole f).settles

theorem Panel.settles_updWalkEnt (cl num : Nat) (f : TlbWalk → TlbWalk) : p.Settles (p.updWalkEnt cl num f) := (p.walked_updWalkEnt cl num f).settles

theorem Panel.settles_walkRead (cl : Nat) (w : TlbWalk) (level table d : Nat) : p.Settles (p.walkRead cl w level table d) :=
  (p.walked_walkRead cl w level table d).settles

theorem Panel.settles_walkEnd (cl num d : Nat) (r : WalkR) : p.Settles (p.walkEnd cl num d r) := (p.walked_walkEnd cl num d r).settles

theorem Panel.settles_walkers (cl k : Nat) : p.Settles (p.walkers cl k) := (p.walked_walkers cl k).settles

/-! ### Threads, traps and halts (R450-R456) -/

theorem Ctx.free_ne_empty (c : Ctx) (now : Nat) : c.free now ≠ .empty := by
  unfold Ctx.free
  split
  · nofun
  · split
    · nofun
    · nofun

theorem Panel.settles_ready (lc slot : Nat) (hheld : p.Holds lc slot) : p.Settles (p.ready lc slot) :=
  (p.booked_ready lc slot).settles.after (p.settles_updCtx_held lc slot _ hheld fun c _ => ⟨c.free_ne_empty p.now, rfl⟩)

theorem Panel.settles_raiseHalt (part site reason cause : Nat) (tval : W) : p.Settles (p.raiseHalt part site reason cause tval) := by
  unfold Panel.raiseHalt
  exact .ite _ (.refl p) ((Panel.settles_report ..).after ((Panel.settles_later ..).after (p.settles_updPart _ _ fun _ => rfl)))

theorem Panel.settles_fatalAt (lc cause : Nat) (tval : W) : p.Settles (p.fatalAt lc cause tval) := p.settles_raiseHalt ..

theorem Panel.settles_dissolve (gang : List Nat) (slot : Nat) : p.Settles (p.dissolve gang slot) := by
  refine p.settles_foldl _ (fun q lc => ?_) gang
  exact q.settles_updCtx lc slot (fun c => { c with gang := [], gangStep := 0 }) rfl (fun _ => rfl) fun _ => rfl

theorem Panel.settles_deliver (lc slot cause : Nat) (tval : W) (impr aword away : Bool) (hheld : p.Holds lc slot) :
    p.Settles (p.deliver lc slot cause tval impr aword away) := by
  unfold Panel.deliver
  dsimp only
  generalize hq : Panel.updCtx (p.dissolve _ slot) lc slot _ = q
  have hkept : p.Settles q := by
    rw [← hq]
    have hgang := p.settles_dissolve (p.ctx lc slot).gang slot
    refine .after (Panel.settles_updCtx_held _ lc slot _ (hgang.holds hheld) ?_) hgang
    refine fun c _ => ⟨?_, rfl⟩
    dsimp only
    split
    · nofun
    · exact c.free_ne_empty p.now
  exact .ite _ ((q.settles_raiseHalt ..).after hkept) (.ite _ ((q.settles_raiseHalt ..).after hkept) hkept)

/-! ### Counters and accesses (R167, R263) -/

theorem Panel.settles_decL (lc slot : Nat) : p.Settles (p.decL lc slot) :=
  (Panel.booked_moveCheck ..).settles.after (p.settles_updCtx lc slot (fun c => { c with ldc := c.ldc - 1 }) rfl (fun _ => rfl) fun _ => rfl)

theorem Panel.settles_decS (lc slot : Nat) : p.Settles (p.decS lc slot) :=
  (Panel.booked_moveCheck ..).settles.after (p.settles_updCtx lc slot (fun c => { c with stc := c.stc - 1 }) rfl (fun _ => rfl) fun _ => rfl)

theorem Panel.settles_decC (lc slot : Nat) : p.Settles (p.decC lc slot) :=
  p.settles_updCtx lc slot (fun c => { c with cpc := c.cpc - 1 }) rfl (fun _ => rfl) fun _ => rfl

theorem Panel.settles_uncount (a : Access) : p.Settles (p.uncount a) := by
  unfold Panel.uncount
  split
  · exact .refl _
  · split
    · exact .refl _
    · exact p.settles_decL ..
    · exact p.settles_decS ..

theorem Panel.settles_unwait (id : Nat) : p.Settles (p.unwait id) := by
  unfold Panel.unwait
  exact .ite _ (.of rfl rfl fun _ _ => rfl) (.refl p)

theorem Panel.settles_discard (a : Access) : p.Settles (p.discard a) :=
  (Panel.settles_unwait ..).after ((Panel.settles_delAcc ..).after (p.settles_uncount a))

theorem Undo.undone_st (u : Undo) (c : Ctx) : (u.undone c).st = c.st := by
  refine (u.undone_keeps Ctx.st (fun _ _ _ => Ctx.setM_st ..) (fun _ _ _ => rfl) c).trans ?_
  generalize u.g = l
  induction l generalizing c with
  | nil => rfl
  | cons e l ih => rw [List.foldl_cons, ih, Ctx.setG_st]

theorem Undo.undone_btag (u : Undo) (c : Ctx) : (u.undone c).btag = c.btag :=
  (u.undone_keeps Ctx.btag (fun _ _ _ => Ctx.setM_btag ..) (fun _ _ _ => rfl) c).trans (foldl_setG_btag _ _)

theorem Panel.settles_undoAword (lc slot : Nat) (u : Undo) (hheld : p.Holds lc slot) : p.Settles (p.undoAword lc slot u) := by
  have hback : p.Settles (p.updCtx lc slot u.undone) :=
    p.settles_updCtx_held lc slot _ hheld fun c h => ⟨(u.undone_st c).symm ▸ h, u.undone_btag c⟩
  unfold Panel.undoAword
  dsimp only
  generalize hq : u.cells.foldl _ _ = q
  have hkept : p.Settles q := by
    rw [← hq]
    refine (Panel.settles_foldl _ _ (fun r e => r.settles_updCluster ..) _).after ((Panel.Settles.of ?_ ?_ ?_).after hback)
    · rfl
    · rfl
    · exact fun _ _ => rfl
  exact .ite _ hkept ((q.settles_updCluster ..).after hkept)

theorem Panel.settles_undoFor (a : Access) (hheld : p.Holds a.core a.slot) : p.Settles (p.undoFor a) := by
  unfold Panel.undoFor
  split
  · exact .ite _ (p.settles_undoAword _ _ _ hheld) (.refl p)
  · exact .refl p

theorem Panel.settles_accRaise (a : Access) (cause : Nat) (tval : W) (hheld : p.Holds a.core a.slot) : p.Settles (p.accRaise a cause tval) := by
  have hundo := p.settles_undoFor a hheld
  have hback (q : Panel) (f : Ctx → Ctx) (hq : p.Settles q) (hf : ∀ c, (f c).st = c.st ∧ (f c).btag = c.btag) : p.Settles (q.updCtx a.core a.slot f) :=
    (q.settles_updCtx_held _ _ f (hq.holds hheld) fun c h => ⟨(hf c).1.symm ▸ h, (hf c).2⟩).after hq
  have hat := hback _ (fun c => { c with pc := a.pc }) hundo fun _ => ⟨rfl, rfl⟩
  unfold Panel.accRaise
  dsimp only
  split
  · have hpend := hback _ (fun c => { c with pend := c.pend ++ [⟨cause, tval, false, false⟩] }) hat fun _ => ⟨rfl, rfl⟩
    exact (Panel.settles_ready _ _ _ (hpend.holds hheld)).after hpend
  · exact (Panel.booked_rouseOf ..).settles.after ((Panel.settles_deliver _ _ _ _ _ _ _ _ (hat.holds hheld)).after hat)

/-- The trap of an access whose thread still stands. -/
theorem Panel.settles_accTrap (a : Access) (cause : Nat) (tval : W) : p.Settles (p.accTrap a cause tval) := by
  unfold Panel.accTrap
  dsimp only
  split
  next hmine =>
    have hheld : p.Holds a.core a.slot := fun _ => by
      simp only [Panel.mine, Bool.and_eq_true, bne_iff_ne] at hmine
      exact hmine.2
    have hraised := p.settles_accRaise a cause tval hheld
    refine .ite _ (.after (q := p.accRaise a cause tval) (.of ?_ ?_ fun _ _ => ?_) hraised) hraised
    · rfl
    · rfl
    · rfl
  · exact .refl p

end

/-! ### Parked accesses (R191, R255) -/

/-- Every place of a group holds a thread, or is the arrival slot of a migrated one. -/
theorem held_of_mem_groupPlaces {p : Panel} {lc tag lc' slot : Nat} (hmem : (lc', slot) ∈ groupPlaces p lc tag) : p.Holds lc' slot := by
  intro hslot
  rcases List.mem_append.mp hmem with h | h
  · obtain ⟨s, hs, he⟩ := List.mem_map.mp h
    cases he
    have hthread := (List.mem_filter.mp (List.mem_filter.mp hs).1).2
    simp only [Bool.and_eq_true, bne_iff_ne] at hthread
    exact hthread.2
  · obtain ⟨e, -, h⟩ := List.mem_flatMap.mp h
    obtain ⟨k, hk, he⟩ := List.mem_map.mp h
    cases he
    have haway := (List.mem_filter.mp hk).2
    simp only [awaySlot, Bool.and_eq_true, Bool.or_eq_true, beq_iff_eq] at haway
    omega

/-- The places of a group take their threads' parking. -/
theorem Panel.settles_parkGroup (p : Panel) (lc tag now : Nat) :
    p.Settles ((groupPlaces p lc tag).foldl (fun q s => q.updCtx s.1 s.2 fun c => c.parkedNow now) p) := by
  have hframe {β : Type} (g : Panel → β) (hg : ∀ (q : Panel) (cs : SMap Core), g { q with cores := cs } = g q) :
      g ((groupPlaces p lc tag).foldl (fun q s => q.updCtx s.1 s.2 fun c => c.parkedNow now) p) = g p :=
    Panel.foldl_keeps _ g (fun q _ => hg q _) _ p
  refine ⟨fun t => ?_, fun i => ?_, fun i => ?_, fun lc' slot hslot => ?_⟩
  · rw [Panel.block, hframe Panel.blocks fun _ _ => rfl, Panel.block]
  · rw [Panel.part, hframe Panel.parts fun _ _ => rfl, Panel.part]
  · rw [hframe Panel.parts fun _ _ => rfl]
  · have hidem (c : Ctx) : (c.parkedNow now).parkedNow now = c.parkedNow now := by rw [Ctx.parkedNow, if_pos (Ctx.parkedNow_st ..)]
    rw [Panel.ctx_foldl_places _ (fun c => c.parkedNow now) hidem lc' slot fun q x => Panel.ctx_updCtx ..]
    split
    next hmem =>
      refine .of_thread (held_of_mem_groupPlaces hmem hslot) (by rw [Ctx.parkedNow_st]; nofun) ?_
      unfold Ctx.parkedNow
      split
      · rfl
      · rfl
    next => exact .refl _

theorem Panel.settles_writeRecord (p : Panel) (lc : Nat) : p.Settles (p.writeRecord lc) := .of rfl rfl fun _ _ => rfl

theorem Panel.settles_park (p : Panel) (a : Access) (fault page : Nat) : p.Settles (p.park a fault page) := by
  unfold Panel.park
  split
  · exact p.settles_discard a
  · split
    · exact (Panel.settles_accTrap ..).after (p.settles_discard a)
    · dsimp only
      generalize hq : Panel.later (Panel.updBlock (Panel.mailTo _ _ _ _) _ _) _ _ _ = q
      have hkept : p.Settles q := by
        rw [← hq]
        refine (Panel.settles_later ..).after (.after (Panel.settles_updBlock _ _ _ ?_) ((Panel.settles_mailTo ..).after
          ((Panel.settles_writeRecord ..).after (.after (Panel.settles_updPart _ _ _ ?_) ((Panel.settles_parkGroup ..).after
            (.after (Panel.settles_updCore _ _ _ ?_) ((Panel.settles_foldl _ _ (fun r i => ?_) _).after (p.settles_updAcc ..))))))))
        · exact fun _ => rfl
        · exact fun _ => rfl
        · exact fun _ => rfl
        · exact r.settles_updAcc ..
      exact .ite _ hkept ((q.settles_later ..).after hkept)

/-! ### Packets (R94, R475, R488) -/

theorem Panel.settles_requestCkpt (p : Panel) (lc : Nat) : p.Settles (p.requestCkpt lc) := by
  unfold Panel.requestCkpt
  split
  · exact .refl _
  · exact (Panel.settles_later ..).after (p.settles_updCore _ _ fun _ => rfl)

theorem Panel.settles_injectAt (p : Panel) (to_ h : Nat) (k : Packet) : p.Settles (p.injectAt to_ h k) :=
  (Panel.settles_later ..).after (p.settles_updCore _ _ fun _ => rfl)

theorem Panel.settles_inject (p : Panel) (to_ : Nat) (k : Packet) (tree : Bool) : p.Settles (p.inject to_ k tree) := by
  unfold Panel.inject
  split
  · exact p.settles_injectAt ..
  · exact (Panel.settles_bill ..).after (p.settles_injectAt ..)

theorem Panel.settles_sendOn (p : Panel) (tree : Bool) (from_ to_ : Nat) (x : Pay) : p.Settles (p.sendOn tree from_ to_ x) := by
  unfold Panel.sendOn
  split
  · dsimp only
    generalize hq : p.updCore from_ _ = q
    have hlogged : p.Settles q := by
      rw [← hq]
      exact p.settles_updCore _ _ fun _ => rfl
    refine (Panel.settles_inject ..).after ?_
    split
    · split
      · exact (Panel.settles_requestCkpt ..).after hlogged
      · exact hlogged
    · exact hlogged
  · exact p.settles_inject ..

theorem Panel.settles_send (p : Panel) (from_ to_ : Nat) (x : Pay) : p.Settles (p.send from_ to_ x) := p.settles_sendOn ..

theorem Panel.settles_treeCharge (p : Panel) (from_ tag flits : Nat) (ts : List Nat) : p.Settles (p.treeCharge from_ tag flits ts) :=
  p.settles_charge ..

/-! ### Translation and the way to a slice (R108, R151-R154, R167) -/

theorem Panel.settles_dispatchMesh (p : Panel) (a : Access) : p.Settles (p.dispatchMesh a) := (Panel.settles_send ..).after (p.settles_updAcc ..)

theorem Panel.settles_ask (p : Panel) (q : Partition) (from_ : Nat) (r : Req) : p.Settles (p.ask q from_ r) :=
  (Panel.settles_later ..).after ((Panel.settles_updSlice ..).after (p.settles_billReq ..))

theorem Panel.settles_storeL1 (p : Panel) (a : Access) : p.Settles (p.storeL1 a) := by
  refine p.settles_foldl _ (fun q _ => q.settles_updCore _ _ ?_) _
  exact fun _ => rfl

theorem Panel.settles_storeFills (p : Panel) (a : Access) : p.Settles (p.storeFills a) := .of rfl rfl fun _ _ => rfl

theorem Panel.settles_leave (p : Panel) (a : Access) (ts : List Tlb) : p.Settles (p.leave a ts) := by
  unfold Panel.leave
  dsimp only
  split
  · exact p.settles_discard a
  · split
    · exact (Panel.settles_accTrap ..).after (p.settles_discard a)
    · refine (Panel.settles_foldl _ _ (fun r e => r.settles_ask ..) _).after ?_
      split
      · exact (Panel.settles_storeFills ..).after ((Panel.settles_storeL1 ..).after (p.settles_updAcc ..))
      · exact p.settles_updAcc ..

theorem Panel.settles_walkFor (p : Panel) (cl part asid vpn core : Nat) (ids engs : List Nat) :
    p.Settles (p.walkFor cl part asid vpn core ids engs) := (Panel.settles_walkers ..).after (p.settles_updCluster ..)

theorem Panel.settles_translated (p : Panel) (a : Access) (found : List (Nat × Tlb)) : p.Settles (p.translated a found) := by
  unfold Panel.translated
  dsimp only
  split
  · exact (Panel.settles_accTrap ..).after (p.settles_discard a)
  · split
    · exact p.settles_park ..
    · split
      · exact .refl _
      · exact p.settles_leave ..

theorem Panel.settles_tlbTry (p : Panel) (id : Nat) : p.Settles (p.tlbTry id) := by
  have hstaged (f : Access → Access) : p.Settles (p.updAcc id f) := p.settles_updAcc id f
  unfold Panel.tlbTry
  split
  · exact .refl _
  · dsimp only
    split
    · exact .refl _
    · split
      · split
        · split
          · exact hstaged _
          · exact (Panel.settles_updWalkEnt ..).after (hstaged _)
        · split
          · exact hstaged _
          · exact (Panel.settles_walkFor ..).after (hstaged _)
      · split
        · exact hstaged _
        · exact (Panel.settles_translated ..).after (hstaged _)

theorem Panel.settles_dispatch (p : Panel) (id : Nat) : p.Settles (p.dispatch id) := by
  unfold Panel.dispatch
  split
  · exact .refl _
  · split
    · split
      · exact p.settles_tlbTry id
      · exact p.settles_dispatchMesh _
    · exact .refl _

theorem Panel.settles_performed (p : Panel) (id : Nat) : p.Settles (p.performed id) :=
  (Panel.settles_foldl _ _ (fun q i => (Panel.settles_dispatch ..).after (q.settles_updAcc i _)) _).after (p.settles_updAcc ..)

/-! ### Lines at a slice (R120-R149) -/

theorem Panel.settles_sliceLost (p : Panel) (sc : Nat) : p.Settles (p.sliceLost sc) := (Panel.settles_fatalAt ..).after (p.settles_updSlice ..)

theorem Panel.settles_control (p : Panel) (sc line pi qi off n v : Nat) : p.Settles (p.control sc line pi qi off n v) := by
  have hlater (c : Prop) [Decidable c] (q : Panel) (e : Instr) (args : List Nat) : q.Settles (if c then q.later 1 e args else q) := by
    split
    · exact q.settles_later ..
    · exact .refl _
  unfold Panel.control
  dsimp only
  generalize ite (off ≤ 8 ∧ 8 < off + n) _ _ = b
  split
  · exact (hlater ..).after ((hlater ..).after ((hlater ..).after (hlater ..)))
  · split
    · exact .refl _
    · generalize hq : Panel.updPart (p.setLine _ _ _ _) _ _ = q
      have hkept : p.Settles q := by
        rw [← hq]
        refine .after (Panel.settles_updPart _ _ _ fun x => ?_) (p.settles_setLine ..)
        split
        · rfl
        · rfl
      exact .ite _ hkept ((q.settles_mailTo ..).after hkept)

theorem Panel.settles_routeWrite (p : Panel) (sc line pi k off n v : Nat) (slevel : Bool) : p.Settles (p.routeWrite sc line pi k off n v slevel) := by
  unfold Panel.routeWrite
  dsimp only
  split
  · exact (Panel.settles_later ..).after (p.settles_setLine ..)
  · exact p.settles_setLine ..

theorem Panel.settles_slicePut (p : Panel) (sc line off n v : Nat) (slevel : Bool) : p.Settles (p.slicePut sc line off n v slevel) := by
  unfold Panel.slicePut
  split
  · exact p.settles_routeWrite ..
  · split
    · exact p.settles_control ..
    · exact p.settles_setLine ..

theorem Panel.settles_slicePutMask (p : Panel) (sc line off n data mask : Nat) (level : Bool) :
    p.Settles (p.slicePutMask sc line off n data mask level) := by
  unfold Panel.slicePutMask
  split
  · exact p.settles_slicePut ..
  · refine p.settles_foldl _ (fun q i => ?_) _
    dsimp only
    split
    · exact .refl _
    · exact q.settles_slicePut ..

/-! ### Accesses performed at a slice (R113, R120, R137) -/

theorem Panel.settles_respond (p : Panel) (a : Access) : p.Settles (respond p a) := (Panel.settles_later ..).after (p.settles_billAnswer ..)

theorem Panel.settles_sliceError (p : Panel) (id cause : Nat) : p.Settles (p.sliceError id cause) :=
  (Panel.settles_later ..).after ((Panel.settles_updAcc ..).after (p.settles_performed id))

theorem Panel.settles_staleFills (p : Panel) (lc line : Nat) : p.Settles (p.staleFills lc line) := .of rfl rfl fun _ _ => rfl

theorem Panel.settles_dropCopy (p : Panel) (lc line : Nat) : p.Settles (p.dropCopy lc line) := by
  refine p.settles_foldl _ (fun q k => ?_) _
  dsimp only
  split
  · exact q.settles_updCore _ _ fun _ => rfl
  · exact .refl _

theorem Panel.settles_peerOut (p : Panel) (id part slot w o size op data : Nat) : p.Settles (p.peerOut id part slot w o size op data) := by
  unfold Panel.peerOut
  split
  · exact .of rfl rfl fun _ _ => rfl
  · exact p.settles_later ..

theorem Panel.settles_performPart (p : Panel) (sc id part : Nat) (l : L2Line) : p.Settles (p.performPart sc id part l) := by
  unfold Panel.performPart
  split
  · exact .refl _
  next a _ =>
    split
    · exact .refl _
    next x _ =>
      split
      · exact p.settles_sliceError ..
      · split
        · exact p.settles_sliceError ..
        · dsimp only
          generalize hq : Panel.updAcc _ id _ = q
          have hkept : p.Settles q := by
            subst hq
            have hamo (r : Panel) (hr : p.Settles r) :
                p.Settles (if a.kind = .amo then (r.dropCopy a.core l.line).staleFills a.core l.line else r) :=
              .ite _ ((Panel.settles_staleFills ..).after ((r.settles_dropCopy ..).after hr)) hr
            have hstamp (r : Panel) (hr : p.Settles r) : p.Settles (if a.fill ≠ 0 then { r with stamp := r.stamp + 1 } else r) :=
              .ite _ (.after (q := r) (.of rfl rfl fun _ _ => rfl) hr) hr
            refine (Panel.settles_updAcc ..).after (hstamp _ (hamo _ ?_))
            split
            · exact p.settles_slicePut ..
            · exact p.settles_slicePut ..
            · split
              · exact p.settles_slicePut ..
              · exact .refl _
            all_goals exact .refl _
          split
          · exact hkept
          · exact .ite _ ((Panel.settles_respond ..).after ((q.settles_performed id).after hkept)) hkept

theorem Panel.settles_performExt (p : Panel) (id part : Nat) : p.Settles (p.performExt id part) := by
  unfold Panel.performExt
  split
  · exact .refl _
  · split
    · exact .refl _
    · dsimp only
      split
      · exact (Panel.settles_later ..).after (p.settles_bill ..)
      · split
        · refine (Panel.settles_peerOut ..).after ?_
          split
          · exact p.settles_bill ..
          · exact .refl _
        · exact p.settles_later ..

/-! ### The engines' requests (R347-R360, R366, R437) -/

theorem Panel.settles_updChan (p : Panel) (cl ch : Nat) (f : Chan → Chan) : p.Settles (p.updChan cl ch f) := p.settles_updCluster ..

theorem Panel.settles_updWalk (p : Panel) (lc : Nat) (f : Walk → Walk) : p.Settles (p.updWalk lc f) := p.settles_updCore _ _ fun _ => rfl

theorem Panel.settles_updRds (p : Panel) (e : Eng) (f : List Rd → List Rd) : p.Settles (p.updRds e f) := by
  unfold Panel.updRds
  cases e with
  | relay cl ch => exact p.settles_updChan ..
  | walk core => exact p.settles_updWalk ..
  | hoop cl => exact p.settles_updCluster ..

theorem Panel.settles_engGot (p : Panel) (e : Eng) (cmd rd d err : Nat) (data : Line) : p.Settles (p.engGot e cmd rd d err data) := by
  unfold Panel.engGot
  split
  · exact .refl _
  · exact (Panel.settles_later ..).after (p.settles_updRds ..)

theorem Panel.settles_engFatal (p : Panel) (core slot tag cause va : Nat) : p.Settles (p.engFatal core slot tag cause va) := by
  have hraised : p.Settles (p.fatalAt core cause (w64 va)) := p.settles_fatalAt ..
  unfold Panel.engFatal
  exact .ite _ ((Panel.settles_decC ..).after hraised) hraised

theorem Panel.settles_relayNext (p : Panel) (cl ch : Nat) : p.Settles (p.relayNext cl ch) := by
  unfold Panel.relayNext
  exact .ite _ (p.settles_later ..) (.ite _ (p.settles_later ..) (.refl _))

theorem Panel.settles_relayAdvance (p : Panel) (cl ch n : Nat) : p.Settles (p.relayAdvance cl ch n) := by
  have hpos (f : Cluster → Cluster) (g : Chan → Chan) : p.Settles ((p.updCluster cl f).updChan cl ch g) :=
    (Panel.settles_updChan ..).after (p.settles_updCluster ..)
  unfold Panel.relayAdvance
  refine .ite _ (hpos ..) ((Panel.settles_relayNext ..).after (.ite _ ((Panel.settles_send ..).after (hpos ..)) (hpos ..)))

theorem Panel.settles_relayFatal (p : Panel) (cl ch cause va : Nat) : p.Settles (p.relayFatal cl ch cause va) := by
  unfold Panel.relayFatal
  exact .ite _ ((Panel.settles_fatalAt ..).after (p.settles_updChan ..)) ((Panel.settles_engFatal ..).after (p.settles_updChan ..))

theorem Panel.settles_walkNext (p : Panel) (lc : Nat) : p.Settles (p.walkNext lc) := by
  unfold Panel.walkNext
  exact .ite _ (p.settles_later ..) (.ite _ (p.settles_later ..) (.refl _))

theorem Panel.settles_walkFatal (p : Panel) (lc cause va : Nat) : p.Settles (p.walkFatal lc cause va) := by
  unfold Panel.walkFatal
  exact .ite _ ((Panel.settles_fatalAt ..).after (p.settles_updWalk ..)) ((Panel.settles_engFatal ..).after (p.settles_updWalk ..))

theorem Panel.settles_engPut (p : Panel) (e : Eng) (cmd n : Nat) : p.Settles (p.engPut e cmd n) := by
  unfold Panel.engPut
  refine .ite _ (.refl _) ?_
  cases e with
  | relay cl ch => exact p.settles_relayAdvance ..
  | walk core => exact (Panel.settles_walkNext ..).after (p.settles_updWalk ..)
  | hoop cl => exact .refl _

theorem Panel.settles_engPutFail (p : Panel) (e : Eng) (cmd line cause : Nat) : p.Settles (p.engPutFail e cmd line cause) := by
  unfold Panel.engPutFail
  refine .ite _ (.refl _) ?_
  cases e with
  | relay cl ch => exact p.settles_relayFatal ..
  | walk core => exact p.settles_walkFatal ..
  | hoop cl => exact .refl _

theorem Panel.settles_engRead (p : Panel) (sc : Nat) (e : Eng) (cmd rd : Nat) (l : L2Line) (key : Nat) : p.Settles (p.engRead sc e cmd rd l key) :=
  (Panel.settles_engGot ..).after (p.settles_charge ..)

theorem Panel.settles_engWrite (p : Panel) (sc : Nat) (e : Eng) (cmd off n data mask : Nat) (l : L2Line) (key : Nat) :
    p.Settles (p.engWrite sc e cmd off n data mask l key) := by
  unfold Panel.engWrite
  exact .ite _ (p.settles_engPutFail ..) ((Panel.settles_engPut ..).after ((Panel.settles_charge ..).after (p.settles_slicePutMask ..)))

theorem Panel.settles_bulkAnswer (p : Panel) (pf : Bool) (lc num : Nat) (ok : Bool) (flight : List (Nat × Nat)) :
    p.Settles (p.bulkAnswer pf lc num ok flight) := by
  unfold Panel.bulkAnswer
  split
  · exact .refl _
  · refine .ite _ (.refl _) (.ite _ ?_ ?_)
    · refine (Panel.settles_later ..).after (p.settles_updCore _ _ fun c => ?_)
      cases pf with
      | false => rfl
      | true => rfl
    · refine (Panel.settles_later ..).after (p.settles_updCore _ _ fun c => ?_)
      cases pf with
      | false => rfl
      | true => rfl

theorem Panel.settles_mcrdFail (p : Panel) (lc num idx cause : Nat) : p.Settles (p.mcrdFail lc num idx cause) := by
  unfold Panel.mcrdFail
  split
  · exact .refl _
  next x t _ =>
    have hraised : p.Settles ((p.updCore lc fun c => { c with mcrd := t }).fatalAt lc cause (w64 (x.va + 64 * idx))) :=
      (Panel.settles_fatalAt ..).after (p.settles_updCore _ _ fun _ => rfl)
    have hcounted := Panel.Settles.ite ((p.ctx lc x.slot).btag = x.btag) ((Panel.settles_decC _ lc x.slot).after hraised) hraised
    exact .ite _ (.refl _) (.ite _ hcounted ((Panel.settles_later ..).after hcounted))

theorem Panel.settles_mcrdLine (p : Panel) (sc lc num idx : Nat) (l : L2Line) (key : Nat) : p.Settles (p.mcrdLine sc lc num idx l key) := by
  unfold Panel.mcrdLine
  split
  · exact .refl _
  · refine .ite _ (.refl _) (.ite _ (p.settles_mcrdFail ..) (.ite _ (p.settles_mcrdFail ..) ?_))
    exact (Panel.settles_foldl _ _ (fun r t => r.settles_sendOn ..) _).after ((Panel.settles_treeCharge ..).after (p.settles_updCore _ _ fun _ => rfl))

/-! ### Staging (R437) -/

theorem Panel.settles_stageNext (p : Panel) (cl num n : Nat) : p.Settles (p.stageNext cl num n) := by
  unfold Panel.stageNext
  split
  · exact .refl _
  next x _ =>
    refine .ite _ ?_ ((Panel.settles_once ..).after (p.settles_updCluster ..))
    have hdone (q : Panel) (c : Prop) [Decidable c] : q.Settles (if c then q else q.later 1 .stagingComplete [x.launch]) :=
      .ite _ (.refl _) (q.settles_later ..)
    exact .ite _ ((hdone ..).after (p.settles_updCluster ..)) ((Panel.settles_once ..).after ((hdone ..).after (p.settles_updCluster ..)))

theorem Panel.settles_stageFail (p : Panel) (cl num cause : Nat) : p.Settles (p.stageFail cl num cause) := by
  unfold Panel.stageFail
  split
  · exact .refl _
  · exact .ite _ (p.settles_stageNext ..) (p.settles_raiseHalt ..)

theorem Panel.settles_stageSend (p : Panel) (cl num n bytes : Nat) : p.Settles (p.stageSend cl num n bytes) := by
  unfold Panel.stageSend
  split
  · exact .refl _
  · exact p.settles_send ..

theorem Panel.settles_stageLine (p : Panel) (cl num : Nat) (l : L2Line) (key : Nat) : p.Settles (p.stageLine cl num l key) := by
  unfold Panel.stageLine
  split
  · exact .refl _
  · exact .ite _ (p.settles_stageFail ..) (.ite _ (p.settles_stageNext ..) (.ite _ (p.settles_stageFail ..) (p.settles_stageSend ..)))

/-! ### Requests of a slice (R120-R123) -/

theorem Panel.settles_walkStep (p : Panel) (cl num : Nat) (l : L2Line) : p.Settles (p.walkStep cl num l) := by
  unfold Panel.walkStep
  split
  · exact .refl _
  · refine .ite _ (.refl _) (.ite _ (p.settles_walkEnd ..) (.ite _ (p.settles_walkEnd ..) (.ite _ (p.settles_walkEnd ..)
      (.ite _ (p.settles_walkEnd ..) (.ite _ (p.settles_walkEnd ..) ?_)))))
    exact (Panel.settles_walkRead ..).after (p.settles_updCluster ..)

theorem Panel.settles_performReq (p : Panel) (sc : Nat) (r : Req) : p.Settles (p.performReq sc r) := by
  unfold Panel.performReq
  split
  · split
    · exact p.settles_performExt ..
    all_goals exact .refl _
  · split
    · exact .refl _
    · split
      · exact p.settles_performPart ..
      · exact p.settles_bulkAnswer ..
      · refine .ite _ ?_ ((Panel.settles_bulkAnswer ..).after (p.settles_fatalAt ..))
        exact (Panel.settles_bulkAnswer ..).after ((Panel.settles_dropLine ..).after (.ite _ (p.settles_billReq ..) (.refl _)))
      · exact p.settles_mcrdLine ..
      · exact p.settles_walkStep ..
      · exact p.settles_stageLine ..
      · exact p.settles_engRead ..
      · exact p.settles_engWrite ..

theorem Panel.settles_failReq (p : Panel) (r : Req) (cause : Nat) : p.Settles (p.failReq r cause) := by
  unfold Panel.failReq
  split
  · exact p.settles_sliceError ..
  · exact p.settles_bulkAnswer ..
  · exact p.settles_bulkAnswer ..
  · exact p.settles_mcrdFail ..
  · exact p.settles_walkEnd ..
  · exact p.settles_stageFail ..
  · exact p.settles_engGot ..
  · exact p.settles_engPutFail ..

theorem Panel.settles_pfAgain (p : Panel) (q : Partition) (line key : Nat) : p.Settles (p.pfAgain q line key) := by
  refine p.settles_foldl _ (fun r _ => (Panel.settles_ask ..).after (r.settles_updCore _ _ ?_)) _
  exact fun _ => rfl

theorem Panel.settles_finishFetch (p : Panel) (sc : Nat) (m : Mshr) : p.Settles (p.finishFetch sc m) := by
  have hbill (r : Panel) (line n : Nat) (hr : p.Settles r) :
      p.Settles (match m.waiters with
        | x :: _ => if n = 0 then r else r.billReq x fun _ => r.hbmPj (p.part (partOf p sc)) sc line n
        | [] => r) := by
    split
    · exact .ite _ hr ((r.settles_billReq ..).after hr)
    · exact hr
  have hleft : p.Settles (p.updSlice sc fun s => { s with mshr := s.mshr.erase m }) := p.settles_updSlice ..
  unfold Panel.finishFetch
  dsimp only
  split
  · refine (Panel.settles_foldl _ _ (fun r _ => r.settles_performReq ..) _).after (hbill _ _ _ ((Panel.settles_placeLine ..).after (hbill _ _ _ hleft)))
  · exact (Panel.settles_pfAgain ..).after ((Panel.settles_foldl _ _ (fun r _ => r.settles_failReq ..) _).after (hbill _ _ _ hleft))

theorem Panel.settles_fetchLine (p : Panel) (sc line : Nat) (rs : List Req) : p.Settles (p.fetchLine sc line rs) :=
  (Panel.settles_later ..).after (p.settles_updSlice ..)

theorem Panel.settles_takeReq (p : Panel) (sc : Nat) (r : Req) : p.Settles (p.takeReq sc r) := by
  unfold Panel.takeReq
  extract_lets q c
  have hq : p.Settles q := p.settles_updSlice ..
  have hc : p.Settles c := (q.settles_l2Check ..).after hq
  clear_value q c
  refine .ite _ ((q.settles_performReq ..).after hq) (.ite _ (.ite _ ?_ ((q.settles_updSlice ..).after hq)) ?_)
  · split
    · exact (q.settles_bulkAnswer ..).after hq
    all_goals exact hq
  · refine .ite _ ((Panel.settles_performReq ..).after ((c.settles_touch ..).after hc)) (.ite _ ?_
      (.ite _ ((c.settles_fetchLine ..).after hc) ((c.settles_updSlice ..).after hc)))
    split
    · exact (c.settles_bulkAnswer ..).after hc
    all_goals exact hc

/-- A slice that works off what it holds leaves blocks and the threads in their slots as they are (R122, R123). -/
theorem Panel.settles_settleSlice (p : Panel) (sc k : Nat) : p.Settles (p.settleSlice sc k) := by
  induction k generalizing p with
  | zero => exact .refl _
  | succ k ih =>
    unfold Panel.settleSlice
    split
    · exact (ih _).after (p.settles_finishFetch ..)
    · split
      · exact (ih _).after (p.settles_takeReq ..)
      · split
        · exact (ih _).after (p.settles_updSlice ..)
        · exact .refl _

theorem Panel.settles_settled (p : Panel) (sc : Nat) : p.Settles (p.settled sc) := by
  unfold Panel.settled
  exact (Panel.settles_updSlice ..).after (p.settles_settleSlice ..)

theorem Panel.settles_withLine (p : Panel) (q : Partition) (line key : Nat) (go : Panel → Panel) (hgo : ∀ r : Panel, r.Settles (go r)) :
    p.Settles (panelOf (p.withLine q line key go)) := by
  have hchecked (sc : Nat) : p.Settles ((p.settled sc).l2Check sc line) := (Panel.settles_l2Check ..).after (p.settles_settled sc)
  unfold Panel.withLine
  dsimp only
  split
  · exact p.settles_sliceLost _
  · split
    · split
      · exact hchecked _
      · exact (hgo _).after ((Panel.settles_touch ..).after (hchecked _))
    · split
      · exact hchecked _
      · exact (hgo _).after ((Panel.settles_placeLine ..).after (hchecked _))

theorem Panel.settles_lineFatal (q : Partition) (line : Nat) (e : Nat × Panel) : e.2.Settles (lineFatal q line e) := by
  unfold lineFatal
  exact .ite _ (.refl _) (Panel.settles_fatalAt ..)

theorem Panel.settles_ownWrite (p : Panel) (q : Partition) (line off n v : Nat) : p.Settles (p.ownWrite q line off n v) := by
  have hline := p.settles_withLine q line 0 (fun p => p.setLine (homeSlice q line) line (n == 64) fun d => lineWrite d off n v) fun r => r.settles_setLine ..
  unfold Panel.ownWrite
  split
  next r hr =>
    rw [hr] at hline
    exact hline
  next e he =>
    rw [he] at hline
    exact (Panel.settles_lineFatal ..).after hline

end Sys2Proof.Machine
end

section
/-! Blocks chosen to be taken, groups that come to be taken, and deadlines (R173, R455, R456, R463, R465). -/

namespace Sys2Proof.Machine

/-! ### Groups that come to be taken (R456) -/

/-- What the schedulers and the Memory core see of a panel: partitions, launches, blocks, time. -/
def Panel.frontier (p : Panel) : SMap Partition × SMap Launch × SMap Block × Nat := (p.parts, p.launches, p.blocks, p.now)

theorem Panel.Booked.frontier {p q : Panel} (h : p.Booked q) : q.frontier = p.frontier := by
  rw [h.rest]
  rfl

theorem Panel.frontier_injectAt (p : Panel) (to_ h : Nat) (k : Packet) : (p.injectAt to_ h k).frontier = p.frontier := rfl

theorem Panel.frontier_inject (p : Panel) (to_ : Nat) (k : Packet) (tree : Bool) : (p.inject to_ k tree).frontier = p.frontier := by
  unfold Panel.inject
  split
  · exact p.frontier_injectAt ..
  · exact (Panel.booked_bill ..).frontier

theorem Panel.frontier_requestCkpt (p : Panel) (lc : Nat) : (p.requestCkpt lc).frontier = p.frontier := by
  unfold Panel.requestCkpt
  split
  · rfl
  · rfl

theorem Panel.frontier_send (p : Panel) (from_ to_ : Nat) (x : Pay) : (p.send from_ to_ x).frontier = p.frontier := by
  unfold Panel.send Panel.sendOn
  split
  · dsimp only
    generalize hq : p.updCore from_ _ = q
    have hlogged : q.frontier = p.frontier := by
      rw [← hq]
      rfl
    refine (Panel.frontier_inject ..).trans ?_
    split
    · split
      · exact (q.frontier_requestCkpt _).trans hlogged
      · exact hlogged
    · exact hlogged
  · exact p.frontier_inject ..

theorem Panel.frontier_uncount (p : Panel) (a : Access) : (p.uncount a).frontier = p.frontier := by
  unfold Panel.uncount
  split
  · rfl
  · split
    · rfl
    · exact (Panel.booked_moveCheck ..).frontier
    · exact (Panel.booked_moveCheck ..).frontier

theorem Panel.frontier_discard (p : Panel) (a : Access) : (p.discard a).frontier = p.frontier := by
  unfold Panel.discard Panel.unwait
  split
  · exact p.frontier_uncount a
  · exact p.frontier_uncount a

theorem Panel.frontier_vacate (p : Panel) (lc slot : Nat) : (p.vacate lc slot).frontier = p.frontier := by
  unfold Panel.vacate
  dsimp only
  split
  · rfl
  · rfl

theorem Panel.frontier_withdraw (p : Panel) (lc slot : Nat) : (p.withdraw lc slot).frontier = p.frontier := by
  unfold Panel.withdraw
  refine (Panel.foldl_keeps _ Panel.frontier (fun q a => ?_) _ _).trans rfl
  exact q.frontier_discard a

theorem Panel.frontier_recall (p : Panel) (lc tag slot : Nat) : (p.recall lc tag slot).frontier = p.frontier := by
  have hback : ((p.withdraw lc slot).updCtx lc slot fun c => { c with wake := if c.st = .blocked ∧ c.wake = .remote then .yield else c.wake }).frontier =
      p.frontier := p.frontier_withdraw lc slot
  unfold Panel.recall
  dsimp only
  split
  · rfl
  · split
    · exact hback
    · exact (Panel.frontier_vacate ..).trans ((Panel.frontier_send ..).trans hback)

/-- From one panel to another a block's groups have come to be taken: what the schedulers see stands, but for the list of them. -/
structure Panel.Froze (p q : Panel) : Prop where
  parts : q.parts = p.parts
  launches : q.launches = p.launches
  now : q.now = p.now
  block : ∀ t, ∃ cs, q.block t = { p.block t with taken := cs }

namespace Panel.Froze

variable {p q r : Panel}

theorem of_frontier (h : q.frontier = p.frontier) : p.Froze q := by
  simp only [Panel.frontier, Prod.mk.injEq] at h
  obtain ⟨hparts, hlaunches, hblocks, hnow⟩ := h
  exact ⟨hparts, hlaunches, hnow, fun t => ⟨(p.block t).taken, by rw [Panel.block, hblocks, Panel.block]⟩⟩

theorem after (hqr : q.Froze r) (hpq : p.Froze q) : p.Froze r where
  parts := hqr.parts.trans hpq.parts
  launches := hqr.launches.trans hpq.launches
  now := hqr.now.trans hpq.now
  block t := by
    obtain ⟨cs, hq⟩ := hpq.block t
    obtain ⟨ds, hr⟩ := hqr.block t
    exact ⟨ds, by rw [hr, hq]⟩

theorem foldl {α : Type} (f : Panel → α → Panel) (h : ∀ (q : Panel) a, q.Froze (f q a)) (l : List α) (p : Panel) : p.Froze (l.foldl f p) := by
  induction l generalizing p with
  | nil => exact of_frontier rfl
  | cons a l ih => exact (ih _).after (h p a)

end Panel.Froze

theorem Panel.froze_taken (p : Panel) (tag : Nat) (f : Block → List Nat) : p.Froze (p.updBlock tag fun b => { b with taken := f b }) := by
  refine ⟨p.updBlock_parts .., p.updBlock_launches .., p.updBlock_now .., fun t => ?_⟩
  by_cases h : tag = t
  · subst h
    cases hfind : SMap.find p.blocks tag with
    | none => exact ⟨(p.block tag).taken, by rw [Panel.updBlock, hfind]⟩
    | some b => exact ⟨f (p.block tag), p.block_updBlock_self tag _ (by rw [hfind]; rfl)⟩
  · exact ⟨(p.block t).taken, p.block_updBlock_other tag t _ h⟩

/-- Looking at which groups have come to be taken changes a block's list of them alone, of what the schedulers see. -/
theorem Panel.froze_freezeGroups (p : Panel) (tag : Nat) : p.Froze (p.freezeGroups tag) := by
  refine Panel.Froze.foldl _ (fun q lc => ?_) _ p
  dsimp only
  generalize hq : List.foldl (fun q s => q.recall lc tag s) q _ = r
  have hr : q.Froze r := hq ▸ .foldl _ (fun y s => .of_frontier (y.frontier_recall ..)) _ q
  have hwithdrawn (x : Panel) (c : Prop) [Decidable c] (hx : q.Froze x) :
      q.Froze (if c then (r.groupOf lc tag).foldl (fun q s => q.withdraw lc s) x else x) := by
    split
    · exact (Panel.Froze.foldl _ (fun y s => .of_frontier (y.frontier_withdraw ..)) _ _).after hx
    · exact hx
  refine hwithdrawn _ _ ?_
  split
  · exact hr
  · exact (r.froze_taken ..).after hr

/-! ### Parked groups (R173, R455) -/

theorem Panel.isSome_of_state {p : Panel} {tag : Nat} (h : (p.block tag).st ≠ .ended) : (SMap.find p.blocks tag).isSome = true := by
  by_contra hno
  rw [Panel.block, SMap.getD, Option.not_isSome_iff_eq_none.mp hno] at h
  exact h rfl

theorem exec_parklimitExpiry (s : State) {tag : Nat} (hev : s.panel.ev = [tag]) (hst : (s.panel.block tag).st = .resident)
    (hhalt : (s.panel.part (s.panel.block tag).part).schedHalted = false) :
    exec .parklimitExpiry s = s.to (if s.panel.swapDue tag = true then
      (if (s.panel.block tag).pinned then
        (if (s.panel.block tag).parkReported then s.panel
        else (s.panel.updBlock tag fun b => { b with parkReported := true }).mailTo 3 0x0004 [tag])
      else s.panel.take tag) else s.panel) := by
  have h0 : s.panel.arg 0 = tag := congrArg (List.getD · 0 0) hev
  show execParklimitExpiry s = _
  simp only [execParklimitExpiry, onPanel, h0, hst, hhalt, State.to]
  cases s.panel.swapDue tag with
  | false => rfl
  | true => rfl

theorem Panel.take_taking (p : Panel) (tag : Nat) (h : (SMap.find p.blocks tag).isSome = true) :
    ((p.take tag).block tag).st = .taking ∧ (p.now + 1, Instr.blockCapture, [tag]) ∈ (p.take tag).agenda ∧ (p.take tag).cores = p.cores ∧
      (p.take tag).mem = p.mem := by
  have hblock : (p.take tag).block tag = { p.block tag with st := .taking, taken := [] } := p.block_updBlock_self tag _ h
  refine ⟨by rw [hblock], ?_, p.updBlock_cores .., p.updBlock_mem ..⟩
  simp [Panel.take, Panel.later]

/-- A pinned block is reported, and stays. -/
theorem Panel.parkReport_told (p : Panel) (tag : Nat) (h : (SMap.find p.blocks tag).isSome = true) :
    let q := (p.updBlock tag fun b => { b with parkReported := true }).mailTo 3 0x0004 [tag]
    (q.block tag).st = (p.block tag).st ∧ q.mail = (p.mailTo 3 4 [tag]).mail := by
  refine ⟨?_, Panel.mailTo_mail_congr (p.updBlock_mail ..) (p.updBlock_mailSeq ..) ..⟩
  rw [Panel.block, Panel.mailTo_blocks, ← Panel.block, p.block_updBlock_self tag _ h]

/-! ### The deadline of a victim (R465) -/

section
variable {s : State} {tag d : Nat} (hev : s.panel.ev = [tag]) (hst : (s.panel.block tag).st = .taking)
  (hyield : (s.panel.block tag).yieldAt = some d)
include hev hst hyield

theorem exec_yieldDeadline : exec .yieldDeadline s =
    s.to (if (s.panel.block tag).yieldLate ∨ s.panel.now ≤ d ∨
        (blockCores (s.panel.block tag)).all (((s.panel.freezeGroups tag).block tag).taken.contains ·) then s.panel.freezeGroups tag
      else ((s.panel.freezeGroups tag).updBlock tag fun b => { b with prio := b.prio % 16, yieldLate := true }).mailTo 1 0x0002
        [(s.panel.launch (s.panel.block tag).launch).seq, (s.panel.block tag).idx]) := by
  have h0 : s.panel.arg 0 = tag := congrArg (List.getD · 0 0) hev
  have hfroze := s.panel.froze_freezeGroups tag
  obtain ⟨cs, hb⟩ := hfroze.block tag
  have hlaunch : (s.panel.freezeGroups tag).launch (s.panel.block tag).launch = s.panel.launch (s.panel.block tag).launch := by
    rw [Panel.launch, hfroze.launches, Panel.launch]
  show execYieldDeadline s = _
  simp only [execYieldDeadline, onPanel, h0, hst, if_true, hb, hyield, hfroze.now, hlaunch, State.to, ne_eq, not_true_eq_false, false_or]
  rfl

/-- A victim that has come to be taken, or has been reported, or whose time has not run out, is left alone (R465). -/
theorem exec_yieldDeadline_left (h : s.panel.now ≤ d ∨ (s.panel.block tag).yieldLate = true ∨
    ∀ c ∈ blockCores (s.panel.block tag), c ∈ ((s.panel.freezeGroups tag).block tag).taken) :
    exec .yieldDeadline s = s.to (s.panel.freezeGroups tag) := by
  rw [exec_yieldDeadline hev hst hyield, if_pos]
  rcases h with h | h | h
  · exact .inr (.inl h)
  · exact .inl h
  · exact .inr (.inr (List.all_eq_true.mpr fun c hc => List.contains_iff_mem.mpr (h c hc)))

theorem exec_yieldDeadline_late (hnow : d < s.panel.now) (hlate : (s.panel.block tag).yieldLate = false)
    (hleft : ∃ c ∈ blockCores (s.panel.block tag), c ∉ ((s.panel.freezeGroups tag).block tag).taken) :
    exec .yieldDeadline s =
      s.to (((s.panel.freezeGroups tag).updBlock tag fun b => { b with prio := b.prio % 16, yieldLate := true }).mailTo 1 0x0002
        [(s.panel.launch (s.panel.block tag).launch).seq, (s.panel.block tag).idx]) := by
  rw [exec_yieldDeadline hev hst hyield, if_neg]
  rintro (h | h | h)
  · exact absurd (hlate.symm.trans h) nofun
  · exact Nat.not_le.mpr hnow h
  · obtain ⟨c, hc, hout⟩ := hleft
    exact hout (List.contains_iff_mem.mp (List.all_eq_true.mp h c hc))

end

/-- A victim not taken in time falls to class 0 and is reported (R465). -/
theorem Panel.late_told (q : Panel) (tag n i : Nat) (h : (SMap.find q.blocks tag).isSome = true) :
    let t := (q.updBlock tag fun b => { b with prio := b.prio % 16, yieldLate := true }).mailTo 1 0x0002 [n, i]
    (t.block tag).prio = (q.block tag).prio % 16 ∧ (t.block tag).yieldLate = true ∧ t.mail = (q.mailTo 1 2 [n, i]).mail := by
  have hblock : ((q.updBlock tag fun b => { b with prio := b.prio % 16, yieldLate := true }).mailTo 1 0x0002 [n, i]).block tag =
      { q.block tag with prio := (q.block tag).prio % 16, yieldLate := true } := by
    rw [Panel.block, Panel.mailTo_blocks, ← Panel.block, q.block_updBlock_self tag _ h]
  refine ⟨by rw [hblock], by rw [hblock], Panel.mailTo_mail_congr (q.updBlock_mail ..) (q.updBlock_mailSeq ..) ..⟩

end Sys2Proof.Machine
end

section
/-! The capture of a block (R155, R162, R163, R456-R459, R464). -/

namespace Sys2Proof.Machine

/-! ### Leases given up (R155, R162, R163) -/

/-- The Memory core's writes into its tables go through the slices, and leave blocks and threads as they are (R149). -/
theorem Panel.settles_memWrites (part : Nat) : ∀ (ws : List Nat) (p : Panel), p.Settles (p.memWrites part ws)
  | [], p => by
    rw [Panel.memWrites]
    · exact .refl p
    · nofun
  | [_], p => by
    rw [Panel.memWrites]
    · exact .refl p
    · nofun
  | a :: v :: t, p => by
    rw [Panel.memWrites]
    refine (Panel.settles_memWrites part t _).after (.ite _ ?_ (p.settles_ownWrite ..))
    exact p.settles_updPart part _ fun _ => rfl

theorem Panel.settles_tlbDrop (p : Panel) (part asid v n : Nat) : p.Settles (p.tlbDrop part asid v n) := by
  obtain ⟨cs, ac, cu, sl, ag, he⟩ := p.tlbDrop_frame part asid v n
  exact .of (by rw [he]) (p.tlbDrop_parts part asid v n) fun lc slot => p.ctx_tlbDrop part asid v n lc slot

theorem Panel.settles_changePage (p : Panel) (part asid page : Nat) (ws : List Nat) : p.Settles (p.changePage part asid page ws) := by
  refine (Panel.settles_later ..).after (.after (Panel.settles_updPart _ _ _ ?_) ((Panel.settles_tlbDrop ..).after (Panel.settles_memWrites ..)))
  exact fun _ => rfl

theorem Panel.settles_deferredPump (p : Panel) (part : Nat) : p.Settles (p.deferredPump part) := by
  refine p.settles_foldl _ (fun q d => .ite _ (.refl q) ((Panel.settles_changePage ..).after (q.settles_updPart part _ ?_))) _
  exact fun _ => rfl

theorem Panel.settles_updLaunch (p : Panel) (i : Nat) (f : Launch → Launch) : p.Settles (p.updLaunch i f) :=
  .of (p.updLaunch_blocks i f) (p.updLaunch_parts i f) (Panel.ctx_of_cores (p.updLaunch_cores i f))

theorem Panel.settles_releaseLease (p : Panel) (l : Nat) : p.Settles (p.releaseLease l) :=
  (Panel.onLines_initPump _).settles.after ((Panel.settles_deferredPump ..).after (p.settles_updLaunch ..))

/-- A pre-empted launch that gives up its lease moves no block and no thread (R163, R464). -/
theorem Panel.settles_preempted (p : Panel) (id : Nat) : p.Settles (p.preempted id) := by
  have hcancel : p.Settles { p with clusters := p.clusters.map fun (e : Nat × Cluster) => (e.1, { e.2 with stage := e.2.stage.filterMap (Stage.cancel id) }) } := by
    refine .of ?_ ?_ fun _ _ => ?_
    · rfl
    · rfl
    · rfl
  unfold Panel.preempted
  exact .ite _ (.refl p) (.ite _ ((Panel.settles_later ..).after hcancel)
    ((Panel.settles_releaseLease ..).after ((Panel.settles_updLaunch ..).after hcancel)))

/-! ### Messages that wait for the block (R227, R461, R474) -/

theorem Panel.settles_copyDone (p : Panel) (id status target : Nat) : p.Settles (p.copyDone id status target) := by
  have htaken : p.Settles (p.updAcc id fun a => { a with copies := a.copies - 1 }) := p.settles_updAcc ..
  unfold Panel.copyDone
  refine (Panel.settles_later ..).after ?_
  split
  · exact .ite _ ((Panel.settles_performed ..).after htaken) htaken
  · exact htaken

theorem Panel.settles_divert (p : Panel) (lc tag : Nat) (k : Packet) : p.Settles (p.divert lc tag k) := by
  refine (Panel.settles_later ..).after (p.settles_updPart _ _ ?_)
  exact fun _ => rfl

theorem Panel.settles_moveHandlers (p : Panel) (tag ci lc : Nat) : p.Settles (p.moveHandlers tag ci lc) := by
  unfold Panel.moveHandlers
  refine (Panel.settles_foldl _ _ (fun q x => ?_) _).after ((Panel.settles_later ..).after (p.settles_updCore lc _ ?_))
  · split
    · refine .ite _ (q.settles_divert ..) ((Panel.settles_copyDone ..).after (q.settles_updBlock tag _ ?_))
      exact fun _ => rfl
    · exact .refl q
  · exact fun _ => rfl

theorem Panel.Dropped.settles {p q : Panel} (h : p.Dropped q) : p.Settles q :=
  .of h.blocks (congrArg Panel.parts h.rest :) fun lc slot => h.ctx lc slot

theorem Panel.settles_unfuse (p : Panel) (tag : Nat) : p.Settles (p.unfuse tag) :=
  p.settles_foldl _ (fun q cl => (Panel.settles_updCluster ..).after (q.dropped_dropFused cl).settles) _

/-! ### The record of a block on one core (R458, R459) -/

/-- The record takes the threads of the core's group, as the swap record holds them, and nothing else of the panel's blocks, partitions or threads moves. -/
structure Panel.Saved (p q : Panel) (tag lc slot : Nat) : Prop where
  parts : q.parts = p.parts
  ctx : ∀ lc' slot', q.ctx lc' slot' = p.ctx lc' slot'
  record : SMap.getD (q.block tag).recCtxs 0 [] = [((p.ctx lc slot).ord, { savedCtx (p.ctx lc slot) with homeSlot := slot })]

theorem Panel.saved_saveCore (p : Panel) (tag lc slot : Nat) (hfound : (SMap.find p.blocks tag).isSome = true) (hgroup : p.groupOf lc tag = [slot]) :
    p.Saved (p.saveCore tag 0 lc) tag lc slot := by
  unfold Panel.saveCore
  dsimp only
  generalize hq : p.updBlock tag _ = q
  refine ⟨hq ▸ p.updBlock_parts .., fun lc' slot' => ?_, ?_⟩
  · rw [Panel.ctx_updCore]
    · exact Panel.ctx_of_cores (hq ▸ p.updBlock_cores ..) lc' slot'
    · exact fun _ => rfl
  · show SMap.getD (q.block tag).recCtxs 0 [] = _
    rw [← hq, p.block_updBlock_self tag _ hfound, SMap.getD_set_self, hgroup]
    rfl

/-- The slots of a block on a core cleared, with what the core keeps for it. -/
def Panel.cleared (p : Panel) (tag lc : Nat) : Panel :=
  (((p.groupOf lc tag).foldl (fun q s => q.setCtx lc s {}) p).updCore lc fun c => { c with blk := SMap.del c.blk tag }).ringsOff lc tag

theorem Panel.cleared_frame (p : Panel) (tag lc : Nat) : (p.cleared tag lc).blocks = p.blocks ∧ (p.cleared tag lc).parts = p.parts :=
  have hset {β : Type} (g : Panel → β) (hg : ∀ (q : Panel) s, g (q.setCtx lc s {}) = g q) :
      g ((p.groupOf lc tag).foldl (fun q s => q.setCtx lc s {}) p) = g p := Panel.foldl_keeps _ g hg _ p
  ⟨hset Panel.blocks fun _ _ => rfl, hset Panel.parts fun _ _ => rfl⟩

theorem Panel.ctx_cleared (p : Panel) (tag lc slot : Nat) (h : slot ∈ p.groupOf lc tag) : (p.cleared tag lc).ctx lc slot = {} := by
  have hset (l : List Nat) : ∀ q : Panel, slot ∈ l ∨ q.ctx lc slot = {} → (l.foldl (fun q s => q.setCtx lc s {}) q).ctx lc slot = {} := by
    induction l with
    | nil => exact fun q h => h.resolve_left List.not_mem_nil
    | cons s l ih =>
      intro q hq
      refine ih _ ?_
      by_cases hs : s = slot
      · exact .inr (hs ▸ Panel.ctx_setCtx_self ..)
      · rw [Panel.ctx_setCtx_slot _ _ _ _ _ hs]
        exact hq.imp_left fun hm => (List.mem_cons.mp hm).resolve_left (Ne.symm hs)
  unfold Panel.cleared Panel.ringsOff
  rw [Panel.ctx_updCore, Panel.ctx_updCore]
  · exact hset _ p (.inl h)
  · exact fun _ => rfl
  · exact fun _ => rfl

/-! ### Capture (R456-R459) -/

theorem Panel.isSome_updBlock (p : Panel) (tag : Nat) (f : Block → Block) :
    (SMap.find (p.updBlock tag f).blocks tag).isSome = (SMap.find p.blocks tag).isSome := by
  unfold Panel.updBlock
  split
  next h => rw [SMap.find_set_self, h]; rfl
  next => rfl

/-- The panel once a block of one core, of launch `id` and partition `pi`, has left its slots: its threads are in its record, and it waits to be
re-admitted. -/
def Panel.captured (p : Panel) (tag lc at_ pi id : Nat) : Panel :=
  let r := (((p.saveCore tag 0 lc).moveHandlers tag 0 lc).cleared tag lc).unfuse tag
  (((r.updBlock tag fun b => { b with st := .absent, taken := [], yieldAt := none }).writeSwap tag at_).updPart pi fun x =>
    { x with readmit := x.readmit ++ [tag] }).preempted id

theorem Panel.writeSwap_frame (p : Panel) (tag at_ : Nat) (h : (SMap.find p.blocks tag).isSome = true) :
    (p.writeSwap tag at_).parts = p.parts ∧ (p.writeSwap tag at_).cores = p.cores ∧
      ((p.writeSwap tag at_).block tag).st = (p.block tag).st ∧ ((p.writeSwap tag at_).block tag).recCtxs = (p.block tag).recCtxs := by
  unfold Panel.writeSwap
  dsimp only
  generalize hq : Panel.mk .. = q
  have hparts : q.parts = p.parts := by rw [← hq]
  have hcores : q.cores = p.cores := by rw [← hq]
  have hblocks : q.blocks = p.blocks := by rw [← hq]
  have hblock : q.block tag = p.block tag := by rw [Panel.block, hblocks, Panel.block]
  rw [Panel.updBlock_parts, Panel.updBlock_cores, Panel.block_updBlock_self _ tag _ (by rwa [hblocks]), hblock]
  exact ⟨hparts, hcores, rfl, rfl⟩

theorem Panel.captured_leaves (p : Panel) (tag lc slot at_ pi id : Nat) (hfound : (SMap.find p.blocks tag).isSome = true)
    (hgroup : p.groupOf lc tag = [slot]) (hpart : (SMap.find p.parts pi).isSome = true) :
    let t := p.captured tag lc at_ pi id
    (t.block tag).st = .absent ∧ (t.part pi).readmit = (p.part pi).readmit ++ [tag] ∧ t.ctx lc slot = {} ∧
      SMap.getD (t.block tag).recCtxs 0 [] = [((p.ctx lc slot).ord, { savedCtx (p.ctx lc slot) with homeSlot := slot })] := by
  have hmem : slot ∈ p.groupOf lc tag := by simp [hgroup]
  obtain ⟨hrange, hthread⟩ := List.mem_filter.mp hmem
  have hslot : slot < 12 := List.mem_range.mp hrange
  simp only [Bool.and_eq_true, beq_iff_eq, bne_iff_ne] at hthread
  obtain ⟨htag, hst⟩ := hthread
  have hsaved := p.saved_saveCore tag lc slot hfound hgroup
  unfold Panel.captured
  generalize p.saveCore tag 0 lc = q at hsaved
  have hmoved := q.settles_moveHandlers tag 0 lc
  generalize q.moveHandlers tag 0 lc = m at hmoved
  have hstays := hmoved.ctx lc slot hslot
  rw [hsaved.ctx] at hstays
  obtain ⟨hmst, hmtag⟩ := hstays.thread hst
  have hmgroup : slot ∈ m.groupOf lc tag := List.mem_filter.mpr ⟨hrange, by simp [hmst, hmtag, htag]⟩
  obtain ⟨hcblocks, hcparts⟩ := m.cleared_frame tag lc
  have hcctx := m.ctx_cleared tag lc slot hmgroup
  generalize m.cleared tag lc = c at hcblocks hcparts hcctx
  have hunfused := c.settles_unfuse tag
  generalize c.unfuse tag = r at hunfused
  dsimp only
  have hrblock : (r.block tag).standingPart = (q.block tag).standingPart := by
    rw [hunfused.block, Panel.block, hcblocks, ← Panel.block, hmoved.block]
  have hrreadmit : (r.part pi).readmit = (p.part pi).readmit := by
    rw [hunfused.readmit, Panel.part, hcparts, ← Panel.part, hmoved.readmit, Panel.part, hsaved.parts, Panel.part]
  have hrpart : (SMap.find r.parts pi).isSome = true := by
    rw [hunfused.parts, hcparts, hmoved.parts, hsaved.parts, hpart]
  have hrctx : r.ctx lc slot = {} := (hunfused.ctx lc slot hslot).free hcctx
  have hrrec : SMap.getD (r.block tag).recCtxs 0 [] = [((p.ctx lc slot).ord, { savedCtx (p.ctx lc slot) with homeSlot := slot })] :=
    (congrArg (fun b => SMap.getD (Block.recCtxs b) 0 []) hrblock).trans hsaved.record
  have hrfound : (SMap.find r.blocks tag).isSome = true := by
    by_contra hno
    have hnone : r.block tag = noBlock := by rw [Panel.block, SMap.getD, Option.not_isSome_iff_eq_none.mp hno]; rfl
    rw [hnone] at hrrec
    cases hrrec
  generalize hy : r.updBlock tag _ = y
  have hyblock : y.block tag = { r.block tag with st := .absent, taken := [], yieldAt := none } := hy ▸ r.block_updBlock_self tag _ hrfound
  have hyparts : y.parts = r.parts := hy ▸ r.updBlock_parts ..
  have hycores : y.cores = r.cores := hy ▸ r.updBlock_cores ..
  have hyfound : (SMap.find y.blocks tag).isSome = true := by rw [← hy, r.isSome_updBlock, hrfound]
  obtain ⟨hwparts, hwcores, hwst, hwrec⟩ := y.writeSwap_frame tag at_ hyfound
  generalize y.writeSwap tag at_ = w at hwparts hwcores hwst hwrec
  have hlast := (w.updPart pi fun x => { x with readmit := x.readmit ++ [tag] }).settles_preempted id
  have hwpart : (SMap.find w.parts pi).isSome = true := by rw [hwparts, hyparts, hrpart]
  have hadded : ((w.updPart pi fun x => { x with readmit := x.readmit ++ [tag] }).part pi).readmit = (p.part pi).readmit ++ [tag] := by
    rw [w.part_updPart_self pi _ hwpart, Panel.part, hwparts, hyparts, ← Panel.part, hrreadmit]
  have hkept : (w.updPart pi fun x => { x with readmit := x.readmit ++ [tag] }).block tag = w.block tag := by
    rw [Panel.block, Panel.updPart_blocks, Panel.block]
  have hempty : (w.updPart pi fun x => { x with readmit := x.readmit ++ [tag] }).ctx lc slot = {} := by
    rw [Panel.ctx_of_cores (w.updPart_cores ..), Panel.ctx_of_cores (hwcores.trans hycores), hrctx]
  have hblock := hlast.block tag
  rw [hkept] at hblock
  refine ⟨(congrArg Block.st hblock).trans (hwst.trans (by rw [hyblock])), (hlast.readmit pi).trans hadded, (hlast.ctx lc slot hslot).free hempty, ?_⟩
  refine (congrArg (fun b => SMap.getD (Block.recCtxs b) 0 []) hblock).trans ?_
  show SMap.getD (w.block tag).recCtxs 0 [] = _
  rw [hwrec, hyblock]
  exact hrrec

section
variable {s : State} {tag at_ : Nat} (hev : s.panel.ev = [tag, at_]) (hst : (s.panel.block tag).st = .taking)
  (hhalt : (s.panel.part (s.panel.block tag).part).schedHalted = false)
include hev hst hhalt

/-- A block whose drain is not over is looked at again (R456). -/
theorem exec_blockCapture_draining (h : (s.panel.freezeGroups tag).drained tag = false) :
    exec .blockCapture s = s.to ((s.panel.freezeGroups tag).later 1 .blockCapture [tag, at_]) := by
  have h0 : s.panel.arg 0 = tag := congrArg (List.getD · 0 0) hev
  have h1 : s.panel.arg 1 = at_ := congrArg (List.getD · 1 0) hev
  show execBlockCapture s = _
  simp [execBlockCapture, onPanel, h0, h1, hst, hhalt, h, State.to]

theorem exec_blockCapture_drained (h : (s.panel.freezeGroups tag).drained tag = true) (hw : (s.panel.block tag).w = 1)
    (hh : (s.panel.block tag).h = 1) (hhoop : (s.panel.block tag).hoop = false) (hyield : (s.panel.block tag).yieldAt = none) :
    exec .blockCapture s = s.to ((s.panel.freezeGroups tag).captured tag (blockCore (s.panel.block tag) 0 0) at_ (s.panel.block tag).part
      (s.panel.block tag).launch) := by
  have h0 : s.panel.arg 0 = tag := congrArg (List.getD · 0 0) hev
  have h1 : s.panel.arg 1 = at_ := congrArg (List.getD · 1 0) hev
  obtain ⟨cs, hb⟩ := (s.panel.froze_freezeGroups tag).block tag
  show execBlockCapture s = _
  simp only [execBlockCapture, onPanel, h0, h1, hst, hhalt]
  generalize s.panel.freezeGroups tag = q at h hb ⊢
  have hcores : blockCores (q.block tag) = [blockCore (s.panel.block tag) 0 0] := by
    rw [hb, blockCores]
    simp only [hw, hh]
    rfl
  have hqhoop : (q.block tag).hoop = false := hb ▸ hhoop
  have hqyield : (q.block tag).yieldAt = none := hb ▸ hyield
  have hqpart : (q.block tag).part = (s.panel.block tag).part := by rw [hb]
  have hqlaunch : (q.block tag).launch = (s.panel.block tag).launch := by rw [hb]
  simp only [h, hcores, hqhoop, hqyield, hqpart, hqlaunch, ne_eq, not_true_eq_false, Bool.false_eq_true, or_self, if_false, Bool.not_true,
    Option.isSome_none, List.length_singleton, List.range_one, List.zip_cons_cons, List.zip_nil_left, List.foldl_cons, List.foldl_nil,
    Panel.captured, Panel.cleared, State.to]

end

end Sys2Proof.Machine
end

section
/-! The re-admission of a block (R459-R462), and the obligation about blocks that are taken and return. -/

namespace Sys2Proof.Machine

/-! ### A block's core and its thread restored (R459, R462) -/

/-- A block without its record. -/
def Block.unrecorded (b : Block) : Block :=
  { b with recCtxs := [], recBlk := [], recRings := [], recMem := [], recRegs := [], recFe := [], recHoop := [], recCells := []
           recDoms := [], recAcc := [], recParked := [], leaseLeft := [], recAt := 0 }

/-- The block stands at an origin again, and has left the list of absent blocks (R462). -/
def Panel.reseated (p : Panel) (tag ox oy lmb : Nat) : Panel :=
  (p.updBlock tag fun b => { b with st := .resident, ox := ox, oy := oy, lmBase := lmb, placedAt := p.now }).updPart (p.block tag).part fun x =>
    { x with readmit := x.readmit.filter (· != tag) }

/-- The restored thread `c` of ordinal 0 in a slot, its register window at byte `rs`; `c0` is what the slot holds before. -/
def Panel.restored (p : Panel) (tag lc slot rs : Nat) (c0 c : Ctx) (f : Nat → Nat → Moved) : Panel :=
  ((((((p.restoreCore tag 0 lc).openInbox tag).setCtx lc slot c0).restoreCtx tag lc slot rs c).moveAccs tag f).updBlock tag Block.unrecorded).actRecord lc tag

theorem Panel.settles_restoreCore (p : Panel) (tag ci lc : Nat) : p.Settles (p.restoreCore tag ci lc) := by
  unfold Panel.restoreCore
  dsimp only
  generalize hq : Panel.updCore _ lc _ = q
  have hq : p.Settles q := by
    rw [← hq]
    refine .after (Panel.settles_updCore _ lc _ ?_) (.of ?_ ?_ fun _ _ => ?_)
    · exact fun _ => rfl
    · rfl
    · rfl
    · rfl
  exact (Panel.booked_rouse ..).settles.after (.ite _ hq ((q.settles_later ..).after hq))

theorem Panel.restoreCore_frame (p : Panel) (tag ci lc : Nat) :
    (p.restoreCore tag ci lc).accs = p.accs ∧ (p.restoreCore tag ci lc).blocks = p.blocks := by
  unfold Panel.restoreCore
  dsimp only
  generalize hq : Panel.updCore _ lc _ = q
  have haccs : q.accs = p.accs := by rw [← hq]; rfl
  have hblocks : q.blocks = p.blocks := by rw [← hq]; rfl
  have hroused (r : Panel) : (r.rouse lc).accs = r.accs ∧ (r.rouse lc).blocks = r.blocks :=
    have h := (r.booked_rouse lc).rest
    ⟨(congrArg Panel.accs h :), (congrArg Panel.blocks h :)⟩
  rw [(hroused _).1, (hroused _).2]
  split
  · exact ⟨haccs, hblocks⟩
  · exact ⟨haccs, hblocks⟩

/-- An empty inbox opened tells only that messages may still be diverted. -/
theorem Panel.openInbox_nil (p : Panel) (tag : Nat) (h : (p.block tag).inbox = []) :
    let q := p.updBlock tag fun b => { b with inbox := [] }
    p.openInbox tag = if (q.part (p.block tag).part).divert = [] then q else q.later 1 .messageDivert [(p.block tag).part] := by
  have hseat (l : List Nat) (g : Nat → Nat) : l.foldl (fun (q : Panel) ci => q.seatHandlers (g ci) []) p = p := by
    induction l with
    | nil => rfl
    | cons ci l ih => exact ih
  unfold Panel.openInbox
  simp only [h, List.foldl_nil, List.filter_nil, List.map_nil, hseat]

theorem Panel.settles_openInbox (p : Panel) (tag : Nat) (h : (p.block tag).inbox = []) : p.Settles (p.openInbox tag) := by
  have hopened : p.Settles (p.updBlock tag fun b => { b with inbox := [] }) := p.settles_updBlock tag _ fun _ => rfl
  rw [p.openInbox_nil tag h]
  exact .ite _ hopened ((Panel.settles_later ..).after hopened)

theorem Panel.openInbox_accs (p : Panel) (tag : Nat) (h : (p.block tag).inbox = []) : (p.openInbox tag).accs = p.accs := by
  rw [p.openInbox_nil tag h]
  split
  · exact p.updBlock_accs ..
  · exact p.updBlock_accs ..

/-- The context that a thread of the record gets: its window's place is new. -/
def Ctx.rebased (c : Ctx) (rs now : Nat) : Ctx := { c with rsBase := if c.rsSize = 0 then 0 else rs / 64, since := now, homeSlot := 0 }

theorem Panel.rewait_ready (p : Panel) (lc slot : Nat) (h : (p.ctx lc slot).st = .ready) : p.rewait lc slot = p := by
  rw [Panel.rewait, if_pos]
  simp [h]

/-- A thread that was READY is put into its slot, with its window's bytes. -/
theorem Panel.restoreCtx_ready (p : Panel) (tag lc slot rs : Nat) (c : Ctx) (hst : c.st = .ready) :
    ∃ m, p.restoreCtx tag lc slot rs c = { p with mem := m }.setCtx lc slot (c.rebased rs p.now) := by
  unfold Panel.restoreCtx
  exact ⟨_, Panel.rewait_ready _ _ _ (by rw [Panel.ctx_setCtx_self]; exact hst)⟩

theorem Panel.actRecord_none (p : Panel) (lc tag : Nat) (h : p.accs = []) : p.actRecord lc tag = p := by
  have hacc (i : Nat) : p.acc i = none := by rw [Panel.acc, h]; rfl
  have hrec : p.recordOf lc tag = [] := by
    rw [Panel.recordOf, List.filterMap_eq_nil_iff.mpr fun i _ => hacc i, List.filter_nil]
  rw [Panel.actRecord, hrec]
  exact if_pos (.inl rfl)

/-- A restored block is what its record said, and its thread stands in the slot (R462). -/
theorem Panel.restored_stands (p : Panel) (tag lc slot rs : Nat) (c0 c : Ctx) (f : Nat → Nat → Moved) (haccs : p.accs = [])
    (hst : (p.block tag).st = .resident) (hinbox : (p.block tag).inbox = []) (hready : c.st = .ready) :
    let t := p.restored tag lc slot rs c0 c f
    (t.block tag).st = .resident ∧ (t.block tag).ox = (p.block tag).ox ∧ (t.block tag).oy = (p.block tag).oy ∧
      (∀ i, (t.part i).readmit = (p.part i).readmit) ∧ ∃ now, t.ctx lc slot = c.rebased rs now := by
  have hcore := p.settles_restoreCore tag 0 lc
  have hcoreaccs : (p.restoreCore tag 0 lc).accs = [] := (p.restoreCore_frame tag 0 lc).1.trans haccs
  have hcoreinbox : ((p.restoreCore tag 0 lc).block tag).inbox = [] := by
    rw [Panel.block, (p.restoreCore_frame tag 0 lc).2, ← Panel.block, hinbox]
  unfold Panel.restored
  generalize p.restoreCore tag 0 lc = q at hcore hcoreaccs hcoreinbox
  have hopen := (q.settles_openInbox tag hcoreinbox).after hcore
  have hopenaccs : (q.openInbox tag).accs = [] := (q.openInbox_accs tag hcoreinbox).trans hcoreaccs
  generalize q.openInbox tag = o at hopen hopenaccs
  obtain ⟨m, hthread⟩ := (o.setCtx lc slot c0).restoreCtx_ready tag lc slot rs c hready
  rw [hthread]
  generalize hy : Panel.setCtx { o.setCtx lc slot c0 with mem := m } lc slot _ = y
  have hyblocks : y.blocks = o.blocks := by rw [← hy]; rfl
  have hyparts : y.parts = o.parts := by rw [← hy]; rfl
  have hyaccs : y.accs = [] := by rw [← hopenaccs, ← hy]; rfl
  have hyctx : y.ctx lc slot = c.rebased rs o.now := by rw [← hy, Panel.ctx_setCtx_self]; rfl
  have hmoved : y.moveAccs tag f = y := by rw [Panel.moveAccs, hyaccs, List.map_nil, ← hyaccs]
  have hblock : (y.block tag).standingPart = (p.block tag).standingPart := by rw [Panel.block, hyblocks, ← Panel.block, hopen.block]
  have hyst : (y.block tag).st = .resident := (congrArg Block.st hblock).trans hst
  have hyfound : (SMap.find y.blocks tag).isSome = true := Panel.isSome_of_state (by rw [hyst]; nofun)
  rw [hmoved, Panel.actRecord_none _ _ _ ((y.updBlock_accs ..).trans hyaccs)]
  have hlast : (y.updBlock tag Block.unrecorded).block tag = (y.block tag).unrecorded := y.block_updBlock_self tag _ hyfound
  refine ⟨?_, ?_, ?_, fun i => ?_, o.now, ?_⟩
  · rw [hlast]
    exact hyst
  · rw [hlast]
    exact (congrArg Block.ox hblock :)
  · rw [hlast]
    exact (congrArg Block.oy hblock :)
  · rw [Panel.part, Panel.updBlock_parts, hyparts, ← Panel.part, hopen.readmit]
  · rw [Panel.ctx_of_cores (y.updBlock_cores ..), hyctx]

/-! ### Re-admission (R462) -/

/-- What the statement about re-admission supposes of an absent block of one core and one thread. -/
structure Panel.Returning (s : State) (tag ox oy lmb rsb : Nat) (c : Ctx) (slot : Nat) : Prop where
  ev : s.panel.ev = [tag, ox, oy, lmb, rsb]
  absent : (s.panel.block tag).st = .absent
  halted : (s.panel.part (s.panel.block tag).part).schedHalted = false
  first : (s.panel.part (s.panel.block tag).part).readmit = [tag]
  lease : s.panel.leaseAgain (s.panel.block tag).launch = none
  width : (s.panel.block tag).w = 1
  height : (s.panel.block tag).h = 1
  hoop : (s.panel.block tag).hoop = false
  fused : (s.panel.block tag).fused = false
  rings : (s.panel.block tag).recRings = []
  ctxs : (s.panel.block tag).recCtxs = [(0, [(0, c)])]
  room : s.panel.room ⟨(s.panel.block tag).part, (s.panel.block tag).asid, (s.panel.block tag).q, 1, 1, (s.panel.block tag).lmSize,
    (s.panel.block tag).regs, false, false⟩ [] ox oy lmb rsb [] = true
  slot : (s.panel.freeSlots [] (coreXY ox oy)).head? = some slot

theorem Panel.Returning.readmission {s : State} {tag ox oy lmb rsb : Nat} {c : Ctx} {slot : Nat} (h : Panel.Returning s tag ox oy lmb rsb c slot) :
    ∃ rs c0 f, exec .readmission s = s.to ((s.panel.reseated tag ox oy lmb).restored tag (coreXY ox oy) slot rs c0 c f) := by
  obtain ⟨hev, habsent, hhalted, hfirst, hlease, hw, hh, hhoop, hfused, hrings, hctxs, hroom, hslot⟩ := h
  have h0 : s.panel.arg 0 = tag := congrArg (List.getD · 0 0) hev
  have h1 : s.panel.arg 1 = ox := congrArg (List.getD · 1 0) hev
  have h2 : s.panel.arg 2 = oy := congrArg (List.getD · 2 0) hev
  have h3 : s.panel.arg 3 = lmb := congrArg (List.getD · 3 0) hev
  have h4 : s.panel.arg 4 = rsb := congrArg (List.getD · 4 0) hev
  have hbases : s.panel.ev.drop 5 = [] := congrArg (List.drop 5) hev
  have hcores : rectCores ox oy 1 1 = [coreXY ox oy] := rfl
  have hfree : s.panel.ringsFree (s.panel.block tag) [coreXY ox oy] = true := by simp [Panel.ringsFree, hrings, SMap.getD, SMap.find]
  have hsaved : SMap.getD (s.panel.block tag).recCtxs 0 [] = [(0, c)] := by rw [hctxs]; rfl
  have hthere : ((s.panel.freeSlots [] (coreXY ox oy)).getD 0 0) = slot := by
    rw [List.head?_eq_getElem?] at hslot
    simp [List.getD, hslot]
  show ∃ rs c0 f, execReadmission s = _
  simp only [execReadmission, onPanel, h0, h1, h2, h3, h4, hbases, habsent, hhalted, hfirst, hlease, hw, hh, hhoop, hfused, hcores, hroom, hfree, hsaved,
    Bool.false_eq_true, ne_eq, not_true_eq_false, List.head?_cons, or_self, if_false, Bool.not_true, List.map_cons, List.map_nil, List.findIdx_cons,
    beq_self_eq_true, cond_true, List.getD_cons_zero, hthere, List.length_singleton, List.range_one, List.zip_cons_cons, List.zip_nil_left, List.foldl_cons,
    List.foldl_nil, Panel.reseated, Panel.restored, State.to]
  exact ⟨_, _, _, rfl⟩

/-- The block stands at the origin, as its record has it, and no absent block is left in its partition (R462). -/
theorem Panel.reseated_stands (p : Panel) (tag ox oy lmb : Nat) (habsent : (p.block tag).st = .absent)
    (hfirst : (p.part (p.block tag).part).readmit = [tag]) :
    let q := p.reseated tag ox oy lmb
    q.block tag = { p.block tag with st := .resident, ox := ox, oy := oy, lmBase := lmb, placedAt := p.now } ∧ q.accs = p.accs ∧
      (q.part (p.block tag).part).readmit = [] := by
  have hfound : (SMap.find p.blocks tag).isSome = true := Panel.isSome_of_state (by rw [habsent]; nofun)
  have hpart : (SMap.find p.parts (p.block tag).part).isSome = true := by
    by_contra hno
    have hnone : p.part (p.block tag).part = noPart := by rw [Panel.part, SMap.getD, Option.not_isSome_iff_eq_none.mp hno]; rfl
    rw [hnone] at hfirst
    cases hfirst
  unfold Panel.reseated
  generalize hy : p.updBlock tag _ = y
  have hyparts : y.parts = p.parts := hy ▸ p.updBlock_parts ..
  dsimp only
  rw [Panel.part_updPart_self _ _ _ (by rwa [hyparts])]
  refine ⟨?_, (y.updPart_accs ..).trans (hy ▸ p.updBlock_accs ..), ?_⟩
  · rw [Panel.block, Panel.updPart_blocks, ← Panel.block, ← hy]
    exact p.block_updBlock_self tag _ hfound
  · rw [Panel.part, hyparts, ← Panel.part, hfirst]
    simp

/-! ### The obligation -/

/-- Settles O39: a group that comes to be taken changes a block's list of them alone; what goes on behind the slots at a capture moves neither the
record nor the slots; a re-admission of a block with one READY thread seats it where the record left it. -/
theorem blockSwap : Obligations.BlockSwap := by
  unfold Obligations.BlockSwap
  intro s tag p b q lc
  refine ⟨fun hev hst hhalt => ?_, fun at_ hev hst hhalt hpart => ?_, fun d hev hst hyield => ?_, ?_⟩
  · have hexec := exec_parklimitExpiry s hev hst hhalt
    have hfound : (SMap.find p.blocks tag).isSome = true := Panel.isSome_of_state (by rw [show (p.block tag).st = .resident from hst]; nofun)
    refine ⟨fun hdue => ?_, fun hdue hpinned => ⟨{ s with panel := p.take tag }, ?_, p.take_taking tag hfound⟩, fun hdue hpinned hreported =>
      ⟨{ s with panel := (p.updBlock tag fun b => { b with parkReported := true }).mailTo 3 0x0004 [tag] }, ?_, ?_⟩⟩
    · rw [hexec, if_neg (ne_true_of_eq_false hdue)]
      rfl
    · rw [hexec, if_pos hdue, if_neg (ne_true_of_eq_false hpinned)]
      rfl
    · rw [hexec, if_pos hdue, if_pos hpinned, if_neg (ne_true_of_eq_false hreported)]
      rfl
    · obtain ⟨hsame, hmail⟩ := p.parkReport_told tag hfound
      exact ⟨hsame.trans hst, hmail⟩
  · refine ⟨fun h => exec_blockCapture_draining hev hst hhalt h, fun slot hdrained hw hh hhoop hyield hgroup => ?_⟩
    have hfroze : p.Froze q := p.froze_freezeGroups tag
    obtain ⟨cs, hb⟩ := hfroze.block tag
    have hfound : (SMap.find q.blocks tag).isSome = true :=
      Panel.isSome_of_state (by rw [hb]; exact fun h => absurd (hst.symm.trans h) nofun)
    have hqpart : (SMap.find q.parts b.part).isSome = true := by rw [hfroze.parts, hpart]
    have hexec : exec .blockCapture s = s.to (q.captured tag lc at_ b.part b.launch) :=
      exec_blockCapture_drained hev hst hhalt hdrained hw hh hhoop hyield
    have hleaves := q.captured_leaves tag lc slot at_ b.part b.launch hfound hgroup hqpart
    generalize q.captured tag lc at_ b.part b.launch = t at hexec hleaves
    obtain ⟨habsent, hreadmit, hctx, hrecord⟩ := hleaves
    exact ⟨_, hexec, habsent, hreadmit, hctx, _, hrecord, rfl, rfl, rfl, rfl⟩
  · refine ⟨exec_yieldDeadline_left hev hst hyield, fun hnow hlate hleft => ⟨_, exec_yieldDeadline_late hev hst hyield hnow hlate hleft, ?_⟩⟩
    obtain ⟨cs, hb⟩ := (p.froze_freezeGroups tag).block tag
    have hfound : (SMap.find q.blocks tag).isSome = true :=
      Panel.isSome_of_state (by rw [hb]; exact fun h => absurd (hst.symm.trans h) nofun)
    obtain ⟨hprio, hlate, hmail⟩ := q.late_told tag (p.launch b.launch).seq b.idx hfound
    exact ⟨hprio.trans (by rw [hb]), hlate, hmail⟩
  · intro ox oy lmb rsb c slot hev habsent hhalted hfirst hlease hw hh hhoop hfused hinbox _ hrings hctxs hready _ haccs hroom hslot
    have h : Panel.Returning s tag ox oy lmb rsb c slot := ⟨hev, habsent, hhalted, hfirst, hlease, hw, hh, hhoop, hfused, hrings, hctxs, hroom, hslot⟩
    obtain ⟨rs, c0, f, hexec⟩ := h.readmission
    obtain ⟨hblock, hsame, hnone⟩ := p.reseated_stands tag ox oy lmb habsent hfirst
    have hstands := Panel.restored_stands (p.reseated tag ox oy lmb) tag (coreXY ox oy) slot rs c0 c f
      (hsame.trans haccs) (by rw [hblock]) (by rw [hblock]; exact hinbox) hready
    generalize Panel.restored (s.panel.reseated tag ox oy lmb) tag (coreXY ox oy) slot rs c0 c f = t at hexec hstands
    obtain ⟨hst, hox, hoy, hreadmit, now, hctx⟩ := hstands
    refine ⟨_, hexec, hst, hox.trans (by rw [hblock]), hoy.trans (by rw [hblock]), (hreadmit _).trans hnone, ?_⟩
    dsimp only
    rw [hctx]
    exact ⟨hready, rfl, rfl, rfl, rfl⟩

end Sys2Proof.Machine
end
